-- ==== Sys2Proof/Word.lean ====
section
/-! DEFINITION. The machine word and its plainest arithmetic (01 R16: g registers of 64 bits; 02 R35: byte addresses). -/

namespace Sys2Proof

/-- A 64-bit register value. -/
abbrev Word := BitVec 64

/-- A byte of memory. -/
abbrev Byte := BitVec 8

/-- A hart's number: island [11:9], cluster [8:6], core [5:2], slot [1:0] (R10). -/
abbrev HartId := BitVec 12

end Sys2Proof
end

