-- ==== Sys2Proof/Config.lean ====
section
/-! DEFINITION. What an implementation fixes and the free values: constants without a body, so nothing can be proved of
their value (log 6, 7, 8, 10, 15, 41). -/

namespace Sys2Proof.Config

/-- Cycles that the step numbered `n` lasts (log 6): the spec gives no instruction a duration. -/
opaque stepCycles (n : Nat) : Nat

/-- The free value numbered `n`: what the spec leaves undefined (log 7). -/
opaque free (n : Nat) : BitVec 64

/-- The free 4,096-byte image numbered `n`: what a vector register holds where the spec leaves it undefined (log 7). -/
opaque freeImage (n : Nat) : BitVec 32768

/-- Which entry of the group of a page at `va` a translation of the step numbered `n` uses where the entries differ (R335,
log 7). -/
opaque replica (n va : Nat) : Nat

/-- Where the dispatcher of the atoll whose first island is `i` starts: its code is not in the spec (log 8). -/
opaque dispatcherPc (i : BitVec 3) : BitVec 64

/-- The PTBR the dispatcher starts with (log 8). -/
opaque dispatcherPtbr (i : BitVec 3) : BitVec 64

/-- The TVEC the dispatcher starts with (log 8). -/
opaque dispatcherTvec (i : BitVec 3) : BitVec 64

/-- The FVEC firmware gives the dispatcher (log 8). -/
opaque dispatcherFvec (i : BitVec 3) : BitVec 64

/-- The IBT flag in the header of the module whose loop table stands at `table` under the PTBR given, where no load of the module has
told it (R397): the spec does not say how the dispatcher comes from the table to the header (log 15). -/
opaque moduleIbt (ptbr table : BitVec 64) : BitVec 1

/-- Root table of the address space of an ASID that serves remote accesses in an atoll (R352): the spec says that it is that
member's page tables, not how it is found (log 42). -/
opaque memberRoot (atoll : BitVec 3) (asid : BitVec 12) : BitVec 32

/-- The number of power rails that Tabos reads (R354, Table 19-4; log 41). -/
opaque rails : Nat

/-- SHAKE256 with 64 bytes of output (R356), of the bytes given (log 41). -/
opaque shake256 (data : List (BitVec 8)) : BitVec 512

/-- Whether an Ed448 signature verifies under the fused Kelser key (R355, log 41). -/
opaque ed448Verify (body signature : List (BitVec 8)) : Bool

/-- The Ed448 signature of the device identity key over the bytes given (R356, log 41): 114 bytes. -/
opaque ed448Sign (data : List (BitVec 8)) : BitVec 912

/-- The Ed448 device identity public key (R356): 57 bytes. -/
opaque identityKey : BitVec 456

/-- The fused rollback counter at manufacture (R355, log 41). -/
opaque rollback0 : Nat

/-- Whether the boot of an image completes (R355): the spec gives a failed boot no cause of its own (log 41). -/
opaque bootCompletes (body : List (BitVec 8)) (n : Nat) : Bool

/-- Which line a full host-line cache gives up in the step numbered `n` (R47): the spec does not say (log 7). -/
opaque victim (n : Nat) : Nat

/-- The port by which messages to a package leave under the routing table that Tabos starts with (R352, log 42): taken modulo
the ports that are not lost. -/
opaque route (dest : BitVec 12) : Nat

/-- Entries that Tabos's log of 64 MiB holds (R354): the spec gives an entry no size (log 41). -/
opaque logRoom : Nat

/-- The ATOLL value that bring-up gives an island in the boot numbered `n` (R357): which atolls are configured is firmware's choice
(log 8). -/
opaque bootAtoll (n : Nat) (i : BitVec 3) : BitVec 64

/-- The HLCACHE value that bring-up gives an island in the boot numbered `n` (R47): the size is firmware's choice (log 8). -/
opaque bootHlcache (n : Nat) (i : BitVec 3) : BitVec 64

end Sys2Proof.Config
end

