-- ==== Sys2Proof/Syntax.lean ====
section
/-! DEFINITION. The instructions of the GV8A-1024: one constructor per row of spec/opcode_table.json, in its order.
Operands are the fields of the word, at the width the encoding gives them (03 R52 to R57, Table 3-3); nothing is decoded
further here. The last 68 constructors are the rows the table gives no encoding: steps of units of the part and of the
outside world. They are never decoded; State.agenda delivers them (log 3). -/

namespace Sys2Proof

/-- What every strait message carries (R302): the sender's kind and ID (Table 16-4), its full edge ID, the sending package, and
the port by which the message goes. -/
structure Sender where
  kind : BitVec 4
  id : BitVec 28
  edge : BitVec 64
  pkg : BitVec 12
  port : BitVec 5
  deriving DecidableEq, Repr

/-- A fleet-barrier message over the straits (R302, R314): barrier word, packages expected, the package whose arrival it tells of
and the last arriver there, and the sender. -/
structure StraitBar where
  isl : BitVec 3
  va : BitVec 64
  n : BitVec 16
  pkg : BitVec 12
  hart : BitVec 12
  by_ : Sender
  deriving DecidableEq, Repr

/-- A strait queue push (R302, R320): the island whose group serves it, record address, entry data, sender. -/
structure StraitPush where
  isl : BitVec 3
  va : BitVec 64
  data : BitVec 64
  by_ : Sender
  deriving DecidableEq, Repr

/-- A write of a remote copy (R302, R352): the island whose group serves it, destination address, bytes, sender. -/
structure StraitWrite where
  isl : BitVec 3
  va : BitVec 64
  data : List (BitVec 8)
  by_ : Sender
  deriving DecidableEq, Repr

/-- Why the island clocks stop (R357). -/
inductive TripCause where
  /-- a junction sensor has reached 105 °C -/
  | junction
  /-- package power was above 2,200 W for 10 ms -/
  | power
  deriving DecidableEq, Repr

/-- A firmware image as Transfer FW brings it (R355): its security version, its bytes and its signature. -/
structure FwImage where
  version : Nat
  body : List (BitVec 8)
  signature : List (BitVec 8)
  deriving DecidableEq, Repr

/-- A member of a fleet group (R352): package number, and the atoll (its first island) and ASID that serve remote
accesses there. -/
structure FleetMember where
  pkg : BitVec 12
  atoll : BitVec 3
  asid : BitVec 12
  deriving DecidableEq, Repr

/-- The instructions and steps of the part. -/
inductive Instr where
  /-- R88: Writes gs1 + gs2 modulo 2^64 to gd. -/
  | add (d a b : BitVec 5)
  /-- R88: Writes gs1 − gs2 modulo 2^64 to gd. -/
  | sub (d a b : BitVec 5)
  /-- R88: Writes the bitwise AND of gs1 and gs2 to gd. -/
  | and (d a b : BitVec 5)
  /-- R88: Writes the bitwise OR of gs1 and gs2 to gd. -/
  | or (d a b : BitVec 5)
  /-- R88: Writes the bitwise XOR of gs1 and gs2 to gd. -/
  | xor (d a b : BitVec 5)
  /-- R88: Writes gs1 & ~gs2 to gd. -/
  | andn (d a b : BitVec 5)
  /-- R88: Shifts gs1 left by gs2[5:0] and writes the result to gd. -/
  | sll (d a b : BitVec 5)
  /-- R88: Shifts gs1 right logically by gs2[5:0] and writes the result to gd. -/
  | srl (d a b : BitVec 5)
  /-- R88: Shifts gs1 right arithmetically by gs2[5:0] and writes the result to gd. -/
  | sra (d a b : BitVec 5)
  /-- R88: Writes 1 to gd when gs1 < gs2 signed, otherwise 0. -/
  | slt (d a b : BitVec 5)
  /-- R88: Writes 1 to gd when gs1 < gs2 unsigned, otherwise 0. -/
  | sltn (d a b : BitVec 5)
  /-- R88: Writes the signed minimum of gs1 and gs2 to gd. -/
  | min (d a b : BitVec 5)
  /-- R88: Writes the signed maximum of gs1 and gs2 to gd. -/
  | max (d a b : BitVec 5)
  /-- R88: Writes the unsigned minimum of gs1 and gs2 to gd. -/
  | minn (d a b : BitVec 5)
  /-- R88: Writes the unsigned maximum of gs1 and gs2 to gd. -/
  | maxn (d a b : BitVec 5)
  /-- R88: Writes the low 64 bits of gs1 × gs2 to gd. -/
  | mul (d a b : BitVec 5)
  /-- R88: Writes the high 64 bits of the signed 128-bit product to gd. -/
  | mulh (d a b : BitVec 5)
  /-- R88: Writes the high 64 bits of the unsigned 128-bit product to gd. -/
  | mulhn (d a b : BitVec 5)
  /-- R89: Writes the signed quotient rounded toward zero to gd, with defined results for zero and overflow divisors. -/
  | div (d a b : BitVec 5)
  /-- R89: Writes the unsigned quotient to gd; division by 0 returns all ones. -/
  | divn (d a b : BitVec 5)
  /-- R89: Writes the signed remainder to gd, with defined results for zero and overflow divisors. -/
  | rem (d a b : BitVec 5)
  /-- R89: Writes the unsigned remainder to gd; division by 0 returns gs1. -/
  | remn (d a b : BitVec 5)
  /-- R88: Writes the number of leading zero bits of gs1 to gd. -/
  | clz (d a : BitVec 5)
  /-- R88: Writes the number of one bits of gs1 to gd. -/
  | popc (d a : BitVec 5)
  /-- R88: Sign-extends gs1 from the width that the width code selects and writes it to gd. -/
  | sext (d a w : BitVec 5)
  /-- R88: Zero-extends gs1 from the width that the width code selects and writes it to gd. -/
  | zext (d a w : BitVec 5)
  /-- R90: Writes gs1 + sext(imm13) to gd. -/
  | addi (d a : BitVec 5) (i : BitVec 13)
  /-- R90: Writes gs1 & sext(imm11) to gd. -/
  | andi (d a : BitVec 5) (i : BitVec 11)
  /-- R90: Writes gs1 | sext(imm11) to gd. -/
  | ori (d a : BitVec 5) (i : BitVec 11)
  /-- R90: Writes gs1 ^ sext(imm11) to gd. -/
  | xori (d a : BitVec 5) (i : BitVec 11)
  /-- R90: Writes 1 to gd when gs1 < sext(imm12) signed, otherwise 0. -/
  | slti (d a : BitVec 5) (i : BitVec 12)
  /-- R90: Writes 1 to gd when gs1 < sext(imm12) unsigned, otherwise 0. -/
  | sltni (d a : BitVec 5) (i : BitVec 12)
  /-- R90: Shifts gs1 left by an immediate amount and writes the result to gd. -/
  | slli (d a : BitVec 5) (n : BitVec 6)
  /-- R90: Shifts gs1 right logically by an immediate amount and writes the result to gd. -/
  | srli (d a : BitVec 5) (n : BitVec 6)
  /-- R90: Shifts gs1 right arithmetically by an immediate amount and writes the result to gd. -/
  | srai (d a : BitVec 5) (n : BitVec 6)
  /-- R90: Writes sext(imm18) × 2^14 to gd. -/
  | lih (d : BitVec 5) (i : BitVec 18)
  /-- R90: Writes PC + sext(imm18) × 2^14 to gd. -/
  | addpc (d : BitVec 5) (i : BitVec 18)
  /-- R205: Adds the charges of the active elements of an xyzq group into a far-field expansion. -/
  | xform (a b : BitVec 5) (k : BitVec 3) (e : BitVec 1)
  /-- R206: Moves a far-field expansion to a new centre and adds it into the destination. -/
  | xshift (a b : BitVec 5)
  /-- R207: Converts a far-field expansion into a local expansion and adds it into the destination. -/
  | xtoloc (a b : BitVec 5)
  /-- R208: Moves a local expansion to a new centre and adds it into the destination. -/
  | xlshift (a b : BitVec 5)
  /-- R210: Adds a local expansion's potential into the potentials of the active targets. -/
  | xeval (a b c : BitVec 5) (k : BitVec 3) (e : BitVec 1)
  /-- R211: Writes a mask of the clusters that pass the admissibility test against an expansion. -/
  | xadmit (a b c : BitVec 5) (k : BitVec 3) (e : BitVec 1)
  /-- R212: Adds direct kernel sums over the sources into the potentials of the active targets, in blocks of 32. -/
  | xdirect (a b c : BitVec 5) (k : BitVec 3) (e : BitVec 1)
  /-- R213: Loads a 768-byte expansion image from memory after checking its header. -/
  | xld (a b : BitVec 5)
  /-- R213: Stores a 768-byte expansion image to memory. -/
  | xst (a b : BitVec 5)
  /-- R204: Sets up an empty expansion register from EORD with its centre and radius. -/
  | xzero (a b c : BitVec 5)
  /-- R209: Copies an expansion register at the order that EORD.P gives. -/
  | xord (a b : BitVec 5)
  /-- R210: Evaluates a local expansion's potential and its gradient at the active targets. -/
  | xevalg (a b c : BitVec 5) (k : BitVec 3) (e : BitVec 1)
  /-- R91: Adds two binary32 values with one rounding under FRM. -/
  | fadd (d a b : BitVec 5)
  /-- R91: Subtracts two binary32 values with one rounding under FRM. -/
  | fsub (d a b : BitVec 5)
  /-- R91: Multiplies two binary32 values with one rounding under FRM. -/
  | fmul (d a b : BitVec 5)
  /-- R91: Divides two binary32 values with one rounding under FRM. -/
  | fdiv (d a b : BitVec 5)
  /-- R91: Takes the correctly rounded binary32 square root. -/
  | fsqrt (d a : BitVec 5)
  /-- R91: Writes the minimumNumber of two binary32 values. -/
  | fmin (d a b : BitVec 5)
  /-- R91: Writes the maximumNumber of two binary32 values. -/
  | fmax (d a b : BitVec 5)
  /-- R91: Writes 1 when two binary32 values are equal, as a quiet compare. -/
  | feq (d a b : BitVec 5)
  /-- R91: Writes 1 when gs1 < gs2, as a signalling compare. -/
  | flt (d a b : BitVec 5)
  /-- R91: Writes 1 when gs1 ≤ gs2, as a signalling compare. -/
  | fle (d a b : BitVec 5)
  /-- R91: Rounds a 64-bit signed integer to binary32. -/
  | fcvtFS (d a : BitVec 5)
  /-- R92: Rounds binary32 under XRM to a 64-bit signed integer, saturating. -/
  | fcvtSF (d a : BitVec 5)
  /-- R91: Widens a binary16 value exactly to binary32. -/
  | fcvtFH (d a : BitVec 5)
  /-- R91: Widens a bfloat16 value exactly to binary32. -/
  | fcvtFBf (d a : BitVec 5)
  /-- R91: Rounds binary32 to binary16. -/
  | fcvtHF (d a : BitVec 5)
  /-- R91: Rounds binary32 to bfloat16. -/
  | fcvtBfF (d a : BitVec 5)
  /-- R91: Writes the class mask of a binary32 value. -/
  | fclass (d a : BitVec 5)
  /-- R93: Computes gs1 × gs2 + gs3 with one rounding. -/
  | ffma (d a b c : BitVec 5)
  /-- R93: Computes gs1 × gs2 − gs3 with one rounding. -/
  | ffms (d a b c : BitVec 5)
  /-- R93: Computes −(gs1 × gs2) + gs3 with one rounding. -/
  | fnma (d a b c : BitVec 5)
  /-- R93: Computes −(gs1 × gs2) − gs3 with one rounding. -/
  | fnms (d a b c : BitVec 5)
  /-- R94: Branches when gs1 = gs2. -/
  | beq (a b : BitVec 5) (o : BitVec 13)
  /-- R94: Branches when gs1 ≠ gs2. -/
  | bne (a b : BitVec 5) (o : BitVec 13)
  /-- R94: Branches when gs1 < gs2 signed. -/
  | blt (a b : BitVec 5) (o : BitVec 13)
  /-- R94: Branches when gs1 ≥ gs2 signed. -/
  | bge (a b : BitVec 5) (o : BitVec 13)
  /-- R94: Branches when gs1 < gs2 unsigned. -/
  | bltn (a b : BitVec 5) (o : BitVec 13)
  /-- R94: Branches when gs1 ≥ gs2 unsigned. -/
  | bgen (a b : BitVec 5) (o : BitVec 13)
  /-- R95: Jumps PC-relative and writes the link to gd. -/
  | jal (d : BitVec 5) (o : BitVec 18)
  /-- R95: Jumps to gs1 + imm after an alignment check, writes the link, and is checked for landing when IBT is enabled. -/
  | jalr (d a : BitVec 5) (i : BitVec 13)
  /-- R98: Loads a scalar of the selected width with a relaxed access and extends it into g. -/
  | lds (g b : BitVec 5) (w : BitVec 3) (i : BitVec 10)
  /-- R98: Stores the low bytes of g with a relaxed access. -/
  | sts (g b : BitVec 5) (w : BitVec 3) (i : BitVec 10)
  /-- R254: Loads a scalar, relaxed or acquire at a named scope. -/
  | ldo (d a : BitVec 5) (o : BitVec 2) (s x : BitVec 3)
  /-- R254: Stores a scalar, relaxed or release at a named scope, tagging signal pages on release. -/
  | sto (a b : BitVec 5) (o : BitVec 2) (s x : BitVec 3)
  /-- R256: Atomically adds gs2 to the 64-bit word at its home and returns the old value. -/
  | amoAdd (d a b : BitVec 5) (o : BitVec 2) (s : BitVec 3)
  /-- R256: Atomically ANDs gs2 into the 64-bit word and returns the old value. -/
  | amoAnd (d a b : BitVec 5) (o : BitVec 2) (s : BitVec 3)
  /-- R256: Atomically ORs gs2 into the 64-bit word and returns the old value. -/
  | amoOr (d a b : BitVec 5) (o : BitVec 2) (s : BitVec 3)
  /-- R256: Atomically XORs gs2 into the 64-bit word and returns the old value. -/
  | amoXor (d a b : BitVec 5) (o : BitVec 2) (s : BitVec 3)
  /-- R256: Atomically keeps the signed minimum in the 64-bit word and returns the old value. -/
  | amoMin (d a b : BitVec 5) (o : BitVec 2) (s : BitVec 3)
  /-- R256: Atomically keeps the signed maximum in the 64-bit word and returns the old value. -/
  | amoMax (d a b : BitVec 5) (o : BitVec 2) (s : BitVec 3)
  /-- R256: Atomically swaps gs2 into the 64-bit word. -/
  | amoSwap (d a b : BitVec 5) (o : BitVec 2) (s : BitVec 3)
  /-- R256: Atomically writes gs2 to the 64-bit word when the word equals gd, and returns the old value. -/
  | amoCas (d a b : BitVec 5) (o : BitVec 2) (s : BitVec 3)
  /-- R256: Atomically adds gs2 to the 32-bit word and returns the old value sign-extended. -/
  | amowAdd (d a b : BitVec 5) (o : BitVec 2) (s : BitVec 3)
  /-- R256: Atomic 32-bit AND. -/
  | amowAnd (d a b : BitVec 5) (o : BitVec 2) (s : BitVec 3)
  /-- R256: Atomic 32-bit OR. -/
  | amowOr (d a b : BitVec 5) (o : BitVec 2) (s : BitVec 3)
  /-- R256: Atomic 32-bit XOR. -/
  | amowXor (d a b : BitVec 5) (o : BitVec 2) (s : BitVec 3)
  /-- R256: Atomic 32-bit signed minimum. -/
  | amowMin (d a b : BitVec 5) (o : BitVec 2) (s : BitVec 3)
  /-- R256: Atomic 32-bit signed maximum. -/
  | amowMax (d a b : BitVec 5) (o : BitVec 2) (s : BitVec 3)
  /-- R256: Atomic 32-bit swap. -/
  | amowSwap (d a b : BitVec 5) (o : BitVec 2) (s : BitVec 3)
  /-- R256: Atomic 32-bit compare-and-swap. -/
  | amowCas (d a b : BitVec 5) (o : BitVec 2) (s : BitVec 3)
  /-- R257: Orders the hart's accesses at the named scope. -/
  | fence (o : BitVec 2) (s : BitVec 3)
  /-- R99: Reads a CSR into gd. -/
  | csrrd (d : BitVec 5) (c : BitVec 11)
  /-- R99: Exchanges gd and gs1 with a CSR after the checks of R33. -/
  | csrwr (d a : BitVec 5) (c : BitVec 11)
  /-- R99: Reads a CSR and sets the bits that gs1 names. -/
  | csrset (d a : BitVec 5) (c : BitVec 11)
  /-- R99: Reads a CSR and clears the bits that gs1 names. -/
  | csrclr (d a : BitVec 5) (c : BitVec 11)
  /-- R103: Samples GRANT, recomputes SPAN, writes SPAN to gd, closes the strip interval and advances the bound streams. -/
  | strip (d : BitVec 5)
  /-- R104: Checks and sets VTYPE, recomputes SPAN with the sampled GRANT and writes it to gd. -/
  | vsettype (d a : BitVec 5)
  /-- R105: Writes a mask whose bit i is set when gs1 + i < gs2, signed, for i < SPAN. -/
  | limlt (d a b : BitVec 5)
  /-- R105: Writes a mask whose bit i is set when gs1 + i ≤ gs2, signed, for i < SPAN. -/
  | limle (d a b : BitVec 5)
  /-- R105: Writes a mask whose bit i is set when gs1 + i < gs2, unsigned, for i < SPAN. -/
  | limltn (d a b : BitVec 5)
  /-- R106: Deprecated strip: performs STRIP's steps, writes min(gs1, SPAN) to gd and sets k1 to that length. -/
  | setvl (d a : BitVec 5)
  /-- R107: Writes ks1 & ks2 to a mask. -/
  | mand (d a b : BitVec 5)
  /-- R107: Writes ks1 | ks2 to a mask. -/
  | mor (d a b : BitVec 5)
  /-- R107: Writes ks1 ^ ks2 to a mask. -/
  | mxor (d a b : BitVec 5)
  /-- R107: Writes ks1 & ~ks2 to a mask. -/
  | mandn (d a b : BitVec 5)
  /-- R107: Writes the complement of ks1 over all 8,192 bits. -/
  | mnot (d a : BitVec 5)
  /-- R107: Copies ks1 to kd. -/
  | mcopy (d a : BitVec 5)
  /-- R107: Sets every bit of kd. -/
  | mfill (d : BitVec 5)
  /-- R107: Clears every bit of kd. -/
  | mzero (d : BitVec 5)
  /-- R107: Writes the number of set bits of ks1 below SPAN to gd. -/
  | mcount (d a : BitVec 5)
  /-- R107: Writes the lowest set index of ks1 below SPAN to gd, or all ones. -/
  | mfirst (d a : BitVec 5)
  /-- R107: Writes the highest set index of ks1 below SPAN to gd, or all ones. -/
  | mlast (d a : BitVec 5)
  /-- R107: Writes gs1 to one 64-bit piece of a mask. -/
  | mfromg (d a b : BitVec 5)
  /-- R107: Reads one 64-bit piece of a mask into gd. -/
  | mtog (d a b : BitVec 5)
  /-- R371: Raises cause 0x11 and enters supervisor or firmware level. -/
  | ecall
  /-- R373: After its checks, returns to the saved level and resumes, replays or reissues the instruction at EPC. -/
  | eret
  /-- R374: Waits until an event record, a held pre-emption or WTMO expiry, and writes the reason to gd. -/
  | wfi (d : BitVec 5)
  /-- R371: Raises breakpoint 0x10, or freezes the cluster when a debug stop is armed. -/
  | brk
  /-- R376: Fences at package scope and removes the selected translations from every TLB, copy engine and stream of the atoll. -/
  | tlbinv (a b : BitVec 5)
  /-- R377: Removes the oldest fault record into four g registers, or writes zeros. -/
  | frqpop (d : BitVec 5)
  /-- R379: Writes the hart's context image at CTXA, then fences, ends streams, empties the FRQ and returns pool blocks and accumulators. -/
  | ctxsave
  /-- R380: Checks a context image, reacquires its blocks and accumulators and restores the hart's state from it. -/
  | ctxload
  /-- R312: Arrives at a barrier word as a release, and either completes the episode or waits for it. -/
  | bar (d a b : BitVec 5) (s : BitVec 3)
  /-- R317: Reads a word and waits until it meets the condition, returning the value read. -/
  | waita (d a b : BitVec 5) (c : BitVec 3)
  /-- R318: Record form: waits until the copy record shows DONE and returns word 3. -/
  | chwait (d a : BitVec 5)
  /-- R318: ID form: waits until the named transfer ID on a channel counts as complete and returns CHST. -/
  | chwaitId (d a b : BitVec 5)
  /-- R320: Pushes an entry onto a queue as a release, or returns full; a strait queue waits for the remote reply. -/
  | qpush (d a b : BitVec 5)
  /-- R320: Blocking pop: takes the oldest entry as an acquire, or waits for a push. -/
  | qpop (d a : BitVec 5)
  /-- R320: Non-blocking pop: takes the oldest entry, or reports the queue empty at once. -/
  | qpopNb (d a : BitVec 5)
  /-- R321: Reads and checks a loop table, releases at package scope, places its harts and returns a launch ID. -/
  | launch (d a : BitVec 5)
  /-- R322: Clears the hart's arbiter credit and stops issuing until other ready slots have issued. -/
  | yield
  /-- R323: Ends a T iteration or retires the hart. -/
  | exit
  /-- R316: Deprecated barrier at package scope, counted as deprecated. -/
  | barg (d a b : BitVec 5)
  /-- R324: Requests a vector block in stall mode, waiting in the core's FIFO when none is free. -/
  | vacq (d i : BitVec 5)
  /-- R324: Requests a vector block in fail mode, returning status 2 when none is free. -/
  | vacqFail (d i : BitVec 5)
  /-- R324: Requests a named tile accumulator in stall mode. -/
  | vacqTile (d i : BitVec 5)
  /-- R324: Requests a named tile accumulator in fail mode. -/
  | vacqTileFail (d i : BitVec 5)
  /-- R325: After earlier users complete, discards a block or accumulator and serves the oldest waiter for it. -/
  | vrel (i : BitVec 5)
  /-- R326: Walks the critical-path chain from CPTAG and copies its records to memory. -/
  | cpread (d a b : BitVec 5)
  /-- R327: Sets the package's step origin to STEPCLK after the islands write their traffic counters. -/
  | cpmark (d : BitVec 5)
  /-- R149: Adds vector elements modulo 2^EW. -/
  | vadd (d a b : BitVec 5) (k : BitVec 3) (e f : BitVec 1)
  /-- R149: Subtracts vector elements modulo 2^EW. -/
  | vsub (d a b : BitVec 5) (k : BitVec 3) (e f : BitVec 1)
  /-- R149: Writes the low EW bits of the element products. -/
  | vmul (d a b : BitVec 5) (k : BitVec 3) (e f : BitVec 1)
  /-- R149: Writes the high EW bits of the signed element products. -/
  | vmulh (d a b : BitVec 5) (k : BitVec 3) (e f : BitVec 1)
  /-- R149: Writes the signed element minimum. -/
  | vmin (d a b : BitVec 5) (k : BitVec 3) (e f : BitVec 1)
  /-- R149: Writes the signed element maximum. -/
  | vmax (d a b : BitVec 5) (k : BitVec 3) (e f : BitVec 1)
  /-- R149: Writes the unsigned element minimum. -/
  | vminn (d a b : BitVec 5) (k : BitVec 3) (e f : BitVec 1)
  /-- R149: Writes the unsigned element maximum. -/
  | vmaxn (d a b : BitVec 5) (k : BitVec 3) (e f : BitVec 1)
  /-- R150: Element-wise AND. -/
  | vand (d a b : BitVec 5) (k : BitVec 3) (e f : BitVec 1)
  /-- R150: Element-wise OR. -/
  | vor (d a b : BitVec 5) (k : BitVec 3) (e f : BitVec 1)
  /-- R150: Element-wise XOR. -/
  | vxor (d a b : BitVec 5) (k : BitVec 3) (e f : BitVec 1)
  /-- R150: Element-wise x & ~y. -/
  | vandn (d a b : BitVec 5) (k : BitVec 3) (e f : BitVec 1)
  /-- R150: Element-wise logical left shift. -/
  | vsll (d a b : BitVec 5) (k : BitVec 3) (e f : BitVec 1)
  /-- R150: Element-wise logical right shift. -/
  | vsrl (d a b : BitVec 5) (k : BitVec 3) (e f : BitVec 1)
  /-- R150: Element-wise arithmetic right shift. -/
  | vsra (d a b : BitVec 5) (k : BitVec 3) (e f : BitVec 1)
  /-- R150: Writes vs1 where the mask is set and vs2 elsewhere, for every element below SPAN. -/
  | vmerge (d a b : BitVec 5) (k : BitVec 3) (e f : BitVec 1)
  /-- R151: Signed saturating addition. -/
  | vsadd (d a b : BitVec 5) (k : BitVec 3) (e f : BitVec 1)
  /-- R151: Signed saturating subtraction. -/
  | vssub (d a b : BitVec 5) (k : BitVec 3) (e f : BitVec 1)
  /-- R151: Narrowing right shift of a widened source, rounded under XRM and clamped. -/
  | vnshr (d a b : BitVec 5) (k : BitVec 3) (e f : BitVec 1)
  /-- R151: Writes the exact widened signed product. -/
  | vwmul (d a b : BitVec 5) (k : BitVec 3) (e f : BitVec 1)
  /-- R151: Adds the widened signed product into the widened destination. -/
  | vwmac (d a b : BitVec 5) (k : BitVec 3) (e f : BitVec 1)
  /-- R151: Writes the clamped absolute value. -/
  | vabs (d a : BitVec 5) (k : BitVec 3) (e : BitVec 1)
  /-- R151: Writes the high EW bits of the unsigned product. -/
  | vmulhn (d a b : BitVec 5) (k : BitVec 3) (e f : BitVec 1)
  /-- R151: Writes the average rounded under XRM. -/
  | vavg (d a b : BitVec 5) (k : BitVec 3) (e f : BitVec 1)
  /-- R149: Adds a scalar to vector elements. -/
  | vaddX (d a b : BitVec 5) (k : BitVec 3) (e : BitVec 1)
  /-- R149: Subtracts a scalar from vector elements. -/
  | vsubX (d a b : BitVec 5) (k : BitVec 3) (e : BitVec 1)
  /-- R149: Multiplies vector elements by a scalar, low bits. -/
  | vmulX (d a b : BitVec 5) (k : BitVec 3) (e : BitVec 1)
  /-- R149: Multiplies vector elements by a scalar, signed high bits. -/
  | vmulhX (d a b : BitVec 5) (k : BitVec 3) (e : BitVec 1)
  /-- R149: Signed minimum with a scalar. -/
  | vminX (d a b : BitVec 5) (k : BitVec 3) (e : BitVec 1)
  /-- R149: Signed maximum with a scalar. -/
  | vmaxX (d a b : BitVec 5) (k : BitVec 3) (e : BitVec 1)
  /-- R149: Unsigned minimum with a scalar. -/
  | vminnX (d a b : BitVec 5) (k : BitVec 3) (e : BitVec 1)
  /-- R149: Unsigned maximum with a scalar. -/
  | vmaxnX (d a b : BitVec 5) (k : BitVec 3) (e : BitVec 1)
  /-- R150: AND with a scalar. -/
  | vandX (d a b : BitVec 5) (k : BitVec 3) (e : BitVec 1)
  /-- R150: OR with a scalar. -/
  | vorX (d a b : BitVec 5) (k : BitVec 3) (e : BitVec 1)
  /-- R150: XOR with a scalar. -/
  | vxorX (d a b : BitVec 5) (k : BitVec 3) (e : BitVec 1)
  /-- R150: x & ~scalar. -/
  | vandnX (d a b : BitVec 5) (k : BitVec 3) (e : BitVec 1)
  /-- R150: Logical left shift by a scalar. -/
  | vsllX (d a b : BitVec 5) (k : BitVec 3) (e : BitVec 1)
  /-- R150: Logical right shift by a scalar. -/
  | vsrlX (d a b : BitVec 5) (k : BitVec 3) (e : BitVec 1)
  /-- R150: Arithmetic right shift by a scalar. -/
  | vsraX (d a b : BitVec 5) (k : BitVec 3) (e : BitVec 1)
  /-- R150: Merges vs1 with a scalar under the mask. -/
  | vmergeX (d a b : BitVec 5) (k : BitVec 3) (e : BitVec 1)
  /-- R153: Floating-point element addition with one rounding under FRM. -/
  | vfadd (d a b : BitVec 5) (k : BitVec 3) (e f : BitVec 1)
  /-- R153: Floating-point element subtraction. -/
  | vfsub (d a b : BitVec 5) (k : BitVec 3) (e f : BitVec 1)
  /-- R153: Floating-point element multiplication. -/
  | vfmul (d a b : BitVec 5) (k : BitVec 3) (e f : BitVec 1)
  /-- R153: Floating-point element division. -/
  | vfdiv (d a b : BitVec 5) (k : BitVec 3) (e f : BitVec 1)
  /-- R153: Floating-point element minimumNumber. -/
  | vfmin (d a b : BitVec 5) (k : BitVec 3) (e f : BitVec 1)
  /-- R153: Floating-point element maximumNumber. -/
  | vfmax (d a b : BitVec 5) (k : BitVec 3) (e f : BitVec 1)
  /-- R153: Floating-point element square root. -/
  | vfsqrt (d a : BitVec 5) (k : BitVec 3) (e : BitVec 1)
  /-- R153: Clears the sign of each element. -/
  | vfabs (d a : BitVec 5) (k : BitVec 3) (e : BitVec 1)
  /-- R154: Fused x × y + vd with one rounding. -/
  | vffma (d a b : BitVec 5) (k : BitVec 3) (e f : BitVec 1)
  /-- R154: Fused x × y − vd with one rounding. -/
  | vffms (d a b : BitVec 5) (k : BitVec 3) (e f : BitVec 1)
  /-- R154: Fused −(x × y) + vd with one rounding. -/
  | vfnma (d a b : BitVec 5) (k : BitVec 3) (e f : BitVec 1)
  /-- R154: Fused −(x × y) − vd with one rounding. -/
  | vfnms (d a b : BitVec 5) (k : BitVec 3) (e f : BitVec 1)
  /-- R153: Adds a scalar floating-point value to each element. -/
  | vfaddX (d a b : BitVec 5) (k : BitVec 3) (e : BitVec 1)
  /-- R153: Subtracts a scalar floating-point value from each element. -/
  | vfsubX (d a b : BitVec 5) (k : BitVec 3) (e : BitVec 1)
  /-- R153: Multiplies each element by a scalar floating-point value. -/
  | vfmulX (d a b : BitVec 5) (k : BitVec 3) (e : BitVec 1)
  /-- R153: Divides each element by a scalar floating-point value. -/
  | vfdivX (d a b : BitVec 5) (k : BitVec 3) (e : BitVec 1)
  /-- R153: minimumNumber with a scalar. -/
  | vfminX (d a b : BitVec 5) (k : BitVec 3) (e : BitVec 1)
  /-- R153: maximumNumber with a scalar. -/
  | vfmaxX (d a b : BitVec 5) (k : BitVec 3) (e : BitVec 1)
  /-- R154: Fused multiply-add with a scalar factor. -/
  | vffmaX (d a b : BitVec 5) (k : BitVec 3) (e : BitVec 1)
  /-- R154: Fused multiply-subtract with a scalar factor. -/
  | vffmsX (d a b : BitVec 5) (k : BitVec 3) (e : BitVec 1)
  /-- R154: Negated fused multiply-add with a scalar factor. -/
  | vfnmaX (d a b : BitVec 5) (k : BitVec 3) (e : BitVec 1)
  /-- R154: Negated fused multiply-subtract with a scalar factor. -/
  | vfnmsX (d a b : BitVec 5) (k : BitVec 3) (e : BitVec 1)
  /-- R155: Special-function reciprocal, rounded RNE, marking vd empty until done. -/
  | vrcp (d a : BitVec 5) (k : BitVec 3) (e : BitVec 1)
  /-- R155: Special-function reciprocal square root. -/
  | vrsq (d a : BitVec 5) (k : BitVec 3) (e : BitVec 1)
  /-- R155: Special-function 2^x. -/
  | vexp2 (d a : BitVec 5) (k : BitVec 3) (e : BitVec 1)
  /-- R155: Special-function log2 x. -/
  | vlog2 (d a : BitVec 5) (k : BitVec 3) (e : BitVec 1)
  /-- R157: Writes a mask of active elements with x = y. -/
  | vcmpEq (d a b : BitVec 5) (k : BitVec 3) (e f : BitVec 1)
  /-- R157: Writes a mask of active elements with x ≠ y. -/
  | vcmpNe (d a b : BitVec 5) (k : BitVec 3) (e f : BitVec 1)
  /-- R157: Writes a mask of active elements with x < y signed. -/
  | vcmpLt (d a b : BitVec 5) (k : BitVec 3) (e f : BitVec 1)
  /-- R157: Writes a mask of active elements with x ≤ y signed. -/
  | vcmpLe (d a b : BitVec 5) (k : BitVec 3) (e f : BitVec 1)
  /-- R157: Writes a mask of active elements with x < y unsigned. -/
  | vcmpLtn (d a b : BitVec 5) (k : BitVec 3) (e f : BitVec 1)
  /-- R157: Writes a mask of active elements with x ≤ y unsigned. -/
  | vcmpLen (d a b : BitVec 5) (k : BitVec 3) (e f : BitVec 1)
  /-- R157: Writes a mask of active elements with x < gs2 signed. -/
  | vcmpLtX (d a b : BitVec 5) (k : BitVec 3) (e : BitVec 1)
  /-- R157: Writes a mask of active elements with x ≥ gs2 signed. -/
  | vcmpGeX (d a b : BitVec 5) (k : BitVec 3) (e : BitVec 1)
  /-- R157: Quiet floating-point equality compare into a mask. -/
  | vfcmpFeq (d a b : BitVec 5) (k : BitVec 3) (e f : BitVec 1)
  /-- R157: Quiet floating-point inequality compare into a mask. -/
  | vfcmpFne (d a b : BitVec 5) (k : BitVec 3) (e f : BitVec 1)
  /-- R157: Signalling floating-point less-than compare into a mask. -/
  | vfcmpFlt (d a b : BitVec 5) (k : BitVec 3) (e f : BitVec 1)
  /-- R157: Signalling floating-point less-or-equal compare into a mask. -/
  | vfcmpFle (d a b : BitVec 5) (k : BitVec 3) (e f : BitVec 1)
  /-- R157: Signalling compare x < gs2 into a mask. -/
  | vfcmpFltX (d a b : BitVec 5) (k : BitVec 3) (e : BitVec 1)
  /-- R157: Signalling compare x ≥ gs2 into a mask. -/
  | vfcmpFgeX (d a b : BitVec 5) (k : BitVec 3) (e : BitVec 1)
  /-- R157: Quiet unordered compare into a mask. -/
  | vfcmpFunord (d a b : BitVec 5) (k : BitVec 3) (e f : BitVec 1)
  /-- R159: Converts floats to integers of equal width under XRM. -/
  | vcvtFi (d a : BitVec 5) (u : BitVec 1) (k : BitVec 3) (e : BitVec 1)
  /-- R159: Converts integers to floats of equal width under FRM. -/
  | vcvtIf (d a : BitVec 5) (u : BitVec 1) (k : BitVec 3) (e : BitVec 1)
  /-- R159: Widens 16-bit floats exactly to binary32. -/
  | vfwiden (d a : BitVec 5) (k : BitVec 3) (e : BitVec 1)
  /-- R159: Rounds binary32 to the 16-bit format under FRM. -/
  | vfnarrow (d a : BitVec 5) (k : BitVec 3) (e : BitVec 1)
  /-- R159: Sign-extends integers to twice their width. -/
  | vswiden (d a : BitVec 5) (k : BitVec 3) (e : BitVec 1)
  /-- R159: Zero-extends integers to twice their width. -/
  | vzwiden (d a : BitVec 5) (k : BitVec 3) (e : BitVec 1)
  /-- R159: Converts floats to integers rounding toward zero. -/
  | vtrunc (d a : BitVec 5) (u : BitVec 1) (k : BitVec 3) (e : BitVec 1)
  /-- R161: Reduces the active elements and vs2[0] to their sum modulo 2^EW in vd[0]. -/
  | vredsum (d a b : BitVec 5) (k : BitVec 3) (e f : BitVec 1)
  /-- R161: Signed maximum reduction. -/
  | vredmax (d a b : BitVec 5) (k : BitVec 3) (e f : BitVec 1)
  /-- R161: Signed minimum reduction. -/
  | vredmin (d a b : BitVec 5) (k : BitVec 3) (e f : BitVec 1)
  /-- R161: Unsigned maximum reduction. -/
  | vredmaxn (d a b : BitVec 5) (k : BitVec 3) (e f : BitVec 1)
  /-- R161: Unsigned minimum reduction. -/
  | vredminn (d a b : BitVec 5) (k : BitVec 3) (e f : BitVec 1)
  /-- R140: Floating-point sum reduction in the fixed lane-partial and fold order that GRANT sets. -/
  | vfredsum (d a b : BitVec 5) (k : BitVec 3) (e f : BitVec 1)
  /-- R140: Floating-point maximum reduction in the fixed order. -/
  | vfredmax (d a b : BitVec 5) (k : BitVec 3) (e f : BitVec 1)
  /-- R140: Floating-point minimum reduction in the fixed order. -/
  | vfredmin (d a b : BitVec 5) (k : BitVec 3) (e f : BitVec 1)
  /-- R162: Gathers vs1 elements at the indices in vs2, with FILLV beyond SPAN. -/
  | vgatherr (d a b : BitVec 5) (k : BitVec 3) (e f : BitVec 1)
  /-- R162: Slides vs1 up by a scalar count. -/
  | vslideup (d a b : BitVec 5) (k : BitVec 3) (e : BitVec 1)
  /-- R162: Slides vs1 down by a scalar count. -/
  | vslidedn (d a b : BitVec 5) (k : BitVec 3) (e : BitVec 1)
  /-- R163: Packs the active elements of vs1 to the bottom of vd. -/
  | vcompress (d a : BitVec 5) (k : BitVec 3) (e : BitVec 1)
  /-- R162: Spreads consecutive vs1 elements to the active positions. -/
  | vexpand (d a : BitVec 5) (k : BitVec 3) (e : BitVec 1)
  /-- R162: Writes each active element the count of active elements below it. -/
  | viota (d : BitVec 5) (k : BitVec 3)
  /-- R162: Writes inclusive prefix sums over the active elements. -/
  | vscan (d a : BitVec 5) (k : BitVec 3) (e : BitVec 1)
  /-- R162: Broadcasts the vs1 element that gs2 indexes. -/
  | vbcast (d a b : BitVec 5) (k : BitVec 3) (e : BitVec 1)
  /-- R165: Unpacks w-bit fields of the vs1 bit string into elements. -/
  | vunpackb (d a b : BitVec 5) (k : BitVec 3) (e : BitVec 1)
  /-- R166: Looks up elements of one register by index modulo its element count. -/
  | vtbl (d a b : BitVec 5) (k : BitVec 3) (e f : BitVec 1)
  /-- R167: Writes Philox-4×32-10 counter-based random numbers. -/
  | vrand (d a b : BitVec 5) (k : BitVec 3)
  /-- R168: Broadcasts a scalar to the active elements. -/
  | vmovgv (d a : BitVec 5) (k : BitVec 3)
  /-- R168: Moves the vector element that gs2 indexes to gd. -/
  | vmovvg (d a b : BitVec 5) (e : BitVec 1)
  /-- R169: Loads a legal plan word into a plan register. -/
  | planset (p a : BitVec 5)
  /-- R169: Reads a plan register into gd. -/
  | planget (d p : BitVec 5)
  /-- R175: Writes a mask of pair elements that a further VCONV cannot overflow. -/
  | vgchk (d a p : BitVec 5) (k : BitVec 3) (e : BitVec 1)
  /-- R171: Packs N fields of each element as an A word under the plan. -/
  | vpack (d a : BitVec 5) (k : BitVec 3) (e : BitVec 1) (p : BitVec 3)
  /-- R171: Packs N fields of each element as a B word under the plan, reversed when REV = 1. -/
  | vpackB (d a : BitVec 5) (k : BitVec 3) (e : BitVec 1) (p : BitVec 3)
  /-- R172: Adds packed products into 128-bit pairs under the guard monitor. -/
  | vconv (d a b : BitVec 5) (k : BitVec 3) (e f : BitVec 1) (p : BitVec 3)
  /-- R173: Extracts coefficient k from each 128-bit pair by signed correction. -/
  | vxtr (d a n : BitVec 5) (k : BitVec 3) (e : BitVec 1) (p : BitVec 3)
  /-- R262: Loads unit-stride elements, marking the destination empty and trapping at the lowest faulting element. -/
  | vld (v b : BitVec 5) (k f : BitVec 3)
  /-- R264: First-fault load that stops without trapping at a faulting element above the lowest and sets FFX. -/
  | vldff (v b : BitVec 5) (k f : BitVec 3)
  /-- R262: Strided vector load. -/
  | vlds (v b x : BitVec 5) (k f : BitVec 3)
  /-- R263: Indexed gather that completes non-faulting elements and traps once with k23 and fault records. -/
  | vldx (v b x : BitVec 5) (k : BitVec 3) (e : BitVec 1) (w : BitVec 2)
  /-- R262: Unit-stride vector store. -/
  | vst (v b : BitVec 5) (k : BitVec 3) (e : BitVec 1) (f : BitVec 3)
  /-- R265: Vector store with notify that adds its count to PROG and releases the progress word. -/
  | vstn (v b : BitVec 5) (k : BitVec 3) (e : BitVec 1) (f : BitVec 3)
  /-- R262: Strided vector store. -/
  | vsts (v b x : BitVec 5) (k : BitVec 3) (e : BitVec 1) (f : BitVec 3)
  /-- R263: Indexed scatter that completes non-faulting elements and traps once with k23 and fault records. -/
  | vstx (v b x : BitVec 5) (k : BitVec 3) (e : BitVec 1) (w : BitVec 2)
  /-- R267: Loads BPN segments indivisibly into a segment image, keeping a plane prefix. -/
  | vldbp (v b : BitVec 5) (k p : BitVec 3)
  /-- R267: Stores image segments as indivisible writes, keeping a plane prefix. -/
  | vstbp (v b : BitVec 5) (k : BitVec 3) (e : BitVec 1) (p : BitVec 3)
  /-- R268: Stores the eight registers of a block to memory in 64-byte lines. -/
  | vspill (v b : BitVec 5)
  /-- R268: Loads the eight registers of a block from memory, marking them empty until filled. -/
  | vrefill (v b : BitVec 5)
  /-- R269: Atomically adds each active element to memory at its index and returns the old values. -/
  | vamoAdd (v b x : BitVec 5) (k : BitVec 3) (e : BitVec 1)
  /-- R269: Vector atomic AND. -/
  | vamoAnd (v b x : BitVec 5) (k : BitVec 3) (e : BitVec 1)
  /-- R269: Vector atomic OR. -/
  | vamoOr (v b x : BitVec 5) (k : BitVec 3) (e : BitVec 1)
  /-- R269: Vector atomic XOR. -/
  | vamoXor (v b x : BitVec 5) (k : BitVec 3) (e : BitVec 1)
  /-- R269: Vector atomic signed minimum. -/
  | vamoMin (v b x : BitVec 5) (k : BitVec 3) (e : BitVec 1)
  /-- R269: Vector atomic signed maximum. -/
  | vamoMax (v b x : BitVec 5) (k : BitVec 3) (e : BitVec 1)
  /-- R269: Vector atomic swap. -/
  | vamoSwap (v b x : BitVec 5) (k : BitVec 3) (e : BitVec 1)
  /-- R271: Reads and checks a shape record and binds a stream to a register group. -/
  | strmdef (d a : BitVec 5)
  /-- R272: Ends a stream at once and marks its registers full. -/
  | strmend (a : BitVec 5)
  /-- R273: Checks a copy record, waits for channel room, takes a transfer ID and releases at package or fleet scope. -/
  | copy (d a : BitVec 5)
  /-- R274: Removes the oldest event record of the core into a g register pair, or zeros. -/
  | evpop (d : BitVec 5)
  /-- R275: Joins the hart to a gang of its cluster and waits for every named core. -/
  | gangbind (d a b : BitVec 5)
  /-- R276: Takes the hart out of its gang and ends its gang streams. -/
  | gangfree
  /-- R179: Decodes BPN image codes into integer elements, marking the destination empty. -/
  | vplane (d a n : BitVec 5) (k : BitVec 3) (e : BitVec 1)
  /-- R180: Writes rounded, clamped codes of float elements into image planes. -/
  | vtoplane (d a : BitVec 5) (k : BitVec 3) (e : BitVec 1)
  /-- R181: Writes image header words with a scale chosen from each block's largest magnitude. -/
  | vqscale (d a b : BitVec 5) (k : BitVec 3) (e : BitVec 1)
  /-- R180: Narrows float elements into image codes through the error-feedback chain. -/
  | vnarrow (d a : BitVec 5) (k : BitVec 3) (e : BitVec 1)
  /-- R179: Dequantises BPN image codes into float elements. -/
  | vdeq (d a n : BitVec 5) (k : BitVec 3) (e : BitVec 1)
  /-- R108: May start prefetching the line at gs1; never faults. -/
  | pref (d a b : BitVec 5)
  /-- R108: Marks an indirect-branch target; otherwise no effect. -/
  | land (d a b : BitVec 5)
  /-- R108: Stops the slot issuing for up to 32 cy. -/
  | pause (d a b : BitVec 5)
  /-- R108: Writes the SPAN a STRIP would compute now, or leaves gd unchanged. -/
  | grantq (d a b : BitVec 5)
  /-- R61: A HINT with an unassigned fn executes as a no-op. -/
  | hintNop (d a b : BitVec 5) (f : BitVec 8)
  /-- R57: Adds a signed 8-bit immediate to gd. -/
  | cAddi (d : BitVec 5) (i : BitVec 8)
  /-- R57: Copies gs to gd. -/
  | cMv (d s : BitVec 5)
  /-- R57: gd := gd + gs. -/
  | cAdd (d s : BitVec 5)
  /-- R57: gd := gd − gs. -/
  | cSub (d s : BitVec 5)
  /-- R57: gd := gd & gs. -/
  | cAnd (d s : BitVec 5)
  /-- R57: gd := gd | gs. -/
  | cOr (d s : BitVec 5)
  /-- R57: gd := gd ^ gs. -/
  | cXor (d s : BitVec 5)
  /-- R57: gd := gd << gs[5:0]. -/
  | cSll (d s : BitVec 5)
  /-- R57: gd := gd >> gs[5:0], arithmetic. -/
  | cSra (d s : BitVec 5)
  /-- R98: Loads 8 bytes at r′b + imm6 × 8 into an a register. -/
  | cLd (d b : BitVec 3) (i : BitVec 6)
  /-- R98: Stores 8 bytes of an a register at r′b + imm6 × 8. -/
  | cSt (s b : BitVec 3) (i : BitVec 6)
  /-- R57: Jumps PC-relative without a link. -/
  | cJ (o : BitVec 11)
  /-- R94: Branches when an a register is zero. -/
  | cBeqz (s : BitVec 3) (o : BitVec 8)
  /-- R94: Branches when an a register is nonzero. -/
  | cBnez (s : BitVec 3) (o : BitVec 8)
  /-- R95: Jumps to gs without a link, as JALR with gd = g0. -/
  | cJr (s : BitVec 5)
  /-- R58: vd := LVD + vs. -/
  | cVadd (d s : BitVec 5)
  /-- R58: vd := LVD − vs. -/
  | cVsub (d s : BitVec 5)
  /-- R58: vd := LVD × vs, low bits. -/
  | cVmul (d s : BitVec 5)
  /-- R58: vd := LVD + vs in floating point. -/
  | cVfadd (d s : BitVec 5)
  /-- R58: vd := LVD × vs in floating point. -/
  | cVfmul (d s : BitVec 5)
  /-- R58: vd := vd + LVD × vs with one rounding. -/
  | cVffma (d s : BitVec 5)
  /-- R58: vd := signed max of LVD and vs. -/
  | cVmax (d s : BitVec 5)
  /-- R58: vd := maximumNumber of LVD and vs. -/
  | cVfmax (d s : BitVec 5)
  /-- R58: vd := LVD + scalar. -/
  | cVaddX (d s : BitVec 5)
  /-- R58: vd := LVD − scalar. -/
  | cVsubX (d s : BitVec 5)
  /-- R58: vd := LVD × scalar, low bits. -/
  | cVmulX (d s : BitVec 5)
  /-- R58: vd := LVD + scalar in floating point. -/
  | cVfaddX (d s : BitVec 5)
  /-- R58: vd := LVD × scalar in floating point. -/
  | cVfmulX (d s : BitVec 5)
  /-- R58: vd := vd + LVD × scalar with one rounding. -/
  | cVffmaX (d s : BitVec 5)
  /-- R58: vd := signed max of LVD and scalar. -/
  | cVmaxX (d s : BitVec 5)
  /-- R58: vd := maximumNumber of LVD and scalar. -/
  | cVfmaxX (d s : BitVec 5)
  /-- R184: Writes the M, N and K fields of TSHP. -/
  | tshape (z : BitVec 2) (m n : BitVec 6) (k : BitVec 13)
  /-- R184: Writes a window anchor to TWINz, refused after z has taken a product. -/
  | twin (z : BitVec 2) (i : BitVec 16)
  /-- R184: Zeroes an accumulator, sets its status finite and latches its anchor. -/
  | tzero (z : BitVec 2)
  /-- R187: Adds exact operand products into an accumulator in sequencer steps. -/
  | tmma (z : BitVec 2) (a : BitVec 5) (sa : BitVec 1) (b : BitVec 5) (sb : BitVec 1) (ta tb : BitVec 4) (pa pb : BitVec 3) (ea eb : BitVec 1)
  /-- R190: Loads accumulator elements from memory, as floats or raw, one row per step. -/
  | tlda (z : BitVec 2) (a : BitVec 5) (sa : BitVec 1) (b : BitVec 5) (t : BitVec 4) (raw sm : BitVec 1) (gm : BitVec 5)
  /-- R190: Stores accumulator elements to memory, rounded once or raw, one row per step. -/
  | tsta (z : BitVec 2) (a : BitVec 5) (sa : BitVec 1) (b : BitVec 5) (t : BitVec 4) (raw sm : BitVec 1) (gm : BitVec 5)
  /-- R191: Adds one accumulator into another, rescaling when the anchors differ. -/
  | tadd (z zs : BitVec 2)
  /-- R193: Waits until every earlier tile instruction of the hart has completed. -/
  | tsync
  /-- R192: Sets the gang rows and columns of TSHP when the gang allows that shape. -/
  | tgang (r c : BitVec 2)
  /-- R33: A write to a CSR without behaviour of its own is checked and stores the new value. -/
  | csrWrite (csr : BitVec 11) (d a : BitVec 5)
  /-- R101: A CSR write of VTYPE acts as VSETTYPE, recomputing SPAN. -/
  | vtypeWrite (d a : BitVec 5)
  /-- R288: A write of LPART changes the core's lane partition, effective at each hart's next STRIP. -/
  | lpartWrite (d a : BitVec 5)
  /-- R367: A write of PREQ posts a pre-emption request for the named hart. -/
  | preq (d a : BitVec 5)
  /-- R304: A write of CPLOG configures the island's arrival log ring and resets HEAD and WRAPS. -/
  | cplogWrite (d a : BitVec 5)
  /-- R308: A write of TRCTL configures the trace buffer and traffic-counter block and resets the position. -/
  | trctlWrite (d a : BitVec 5)
  /-- R342: A firmware write of ATOLL sets the island's atoll membership. -/
  | atollWrite (d a : BitVec 5)
  /-- R387: Writing STOP = 1 starts freezing the selected cluster. -/
  | dbgctlStop (d a : BitVec 5)
  /-- R389: Writing GO = 1 ungates the frozen cluster, drains its skid buffer and lets its harts continue. -/
  | dbgctlGo (d a : BitVec 5)
  /-- R389: When running convoys and sequencer units have finished, the cluster's clocks are gated and FROZEN set. -/
  | clusterFrozen (cl : BitVec 6)
  /-- R390: Writing GO = 1 starts a dump of the frozen cluster into the dump buffer. -/
  | dumpctlGo (d a : BitVec 5)
  /-- R392: The dump engine finishes, rewrites the header with DONE as a release and clears BUSY. -/
  | dumpComplete
  /-- R368: A pending pre-emption request lands at a landing point while PM = 0 and takes trap 0x12. -/
  | preemption (h : BitVec 12) (units : Nat)
  /-- R12: WTMO expires in a wait that honours it, and the instruction returns its timeout result. -/
  | waitTimeout (h : BitVec 12)
  /-- R312: When the barrier word reaches the episode target, waiting harts depart as acquires with the last arriver. -/
  | barDeparture (h : BitVec 12)
  /-- R317: A write to the watched word makes WAITA read again and return when the condition holds. -/
  | waitaWake (h : BitVec 12)
  /-- R318: The awaited transfer completes and CHWAIT returns as an acquire. -/
  | chwaitReturn (h : BitVec 12)
  /-- R320: A push to an empty queue lets a blocking QPOP take the entry as an acquire. -/
  | qpopWake (h : BitVec 12)
  /-- R320: The reply to a strait QPUSH arrives, or the link is declared lost, and the push returns. -/
  | qpushReply (h : BitVec 12) (status : BitVec 2)
  /-- R193: The last earlier tile instruction completes and TSYNC returns. -/
  | tsyncReturn (h : BitVec 12)
  /-- R273: A transfer on a full channel completes and the waiting COPY proceeds. -/
  | copyChannelRoom (h : BitVec 12)
  /-- R275: Every core of the mask has issued a matching GANGBIND, and the members join with the gang VTYPE and GRANT. -/
  | gangFormed (cl : BitVec 6) (cores : BitVec 16)
  /-- R324: A freed block or accumulator goes to the oldest stall-mode waiter. -/
  | vacqGrant (h : BitVec 12)
  /-- R380: A block or accumulator that CTXLOAD waits for is granted and the load continues. -/
  | ctxloadGrant (h : BitVec 12)
  /-- R374: An event record or held pre-emption ends WFI with its reason. -/
  | wfiWake (h : BitVec 12)
  /-- R28: A producer fills a source or destination register and the waiting instruction proceeds. -/
  | registerWaitEnd (h : BitVec 12)
  /-- R27: A pending producer writes an element group of an empty register, advancing its frontier or making it full. -/
  | producerArrival (h : BitVec 12) (r : BitVec 5)
  /-- R285: An entry leaves a full vector queue and the scalar pipeline issues again. -/
  | vectorQueueRoom (h : BitVec 12)
  /-- R108: PAUSE's 32 cy pass, or a wakeup comes, and the slot issues again. -/
  | pauseEnd (h : BitVec 12)
  /-- R322: Every other ready slot has issued, and the yielding slot goes on. -/
  | yieldEnd (h : BitVec 12)
  /-- R286: The lane arbiter binds a free lane group to a ready queue head for one beat. -/
  | laneBinding (h : BitVec 12) (cy : BitVec 6)
  /-- R291: The macro-op sequencer runs one unit of a tile or X instruction for the next hart in turn. -/
  | sequencerUnit (core : BitVec 10)
  /-- R244: After a STRIP a read stream fetches its next strip. -/
  | streamPrefetch (h : BitVec 12) (n : BitVec 2)
  /-- R246: A gang stream fetches a strip once, up to two strips ahead of its slowest member. -/
  | gangStreamFetch (cl : BitVec 6) (cores : BitVec 16) (n : BitVec 2)
  /-- R250: After the channel's previous transfer completes, the copy engine reads and writes the next transfer. -/
  | copyTransferStart (core : BitVec 10) (ch : BitVec 3)
  /-- R247: After its writes perform, the engine writes DONE and ERR to the record and updates channel status. -/
  | copyComplete (core : BitVec 10) (ch : BitVec 3)
  /-- R283: A slot frees and the next waiting hart of a launch is placed, with a kind-8 edge when the wait was long. -/
  | hartPlacement (isl : BitVec 3)
  /-- R284: Every hart of a launch has retired, and its completion record is posted. -/
  | launchComplete (core : BitVec 10) (id : BitVec 48)
  /-- R349: The dispatcher takes a launch request entry, sets PTBR, clears DONE, issues LAUNCH and advances HEAD. -/
  | launchRequest (isl : BitVec 3)
  /-- R289: The island governor lowers or raises a core's lane cap at most once every 4,096 cy. -/
  | governorCapChange (core : BitVec 10) (cap : BitVec 3)
  /-- R309: Every 4,096 cy the island writes its traffic counter block. -/
  | trafficCounterWrite (isl : BitVec 3)
  /-- R314: A package arrival of a fleet barrier reaches the lowest package of the group and is counted. -/
  | straitBarArrival (m : StraitBar)
  /-- R314: A fleet barrier departure reaches a package and its local waiters depart. -/
  | straitBarDeparture (m : StraitBar)
  /-- R320: A strait queue push arrives at package DPKG, is performed there and answered. -/
  | straitQueuePush (m : StraitPush)
  /-- R352: A remote copy write arrives and is translated and performed on the destination package. -/
  | straitCopyWrite (m : StraitWrite)
  /-- R351: A flit that fails its CRC after correction is replayed from the sender's buffer. -/
  | straitFlitReplay (port : BitVec 5)
  /-- R353: A port is declared lost, routes change and in-flight messages end in errors or machine checks. -/
  | straitPortLost (port : BitVec 5)
  /-- R382: A narrows link fails after 16 failed replays, and requesters with accesses in flight take machine checks. -/
  | narrowsLinkFailed (link : BitVec 3)
  /-- R347: A host CXL.mem read of an LD's HDM returns the HBM bytes. -/
  | hostHdmRead (ld : BitVec 3) (o : BitVec 64) (n : Nat)
  /-- R347: A host CXL.mem write of an LD's HDM performs at package scope. -/
  | hostHdmWrite (ld : BitVec 3) (o : BitVec 64) (data : List (BitVec 8))
  /-- R354: Mailbox command returning event records. -/
  | getEventRecords (ld : BitVec 3)
  /-- R354: Mailbox command returning firmware slot information. -/
  | getFwInfo (ld : BitVec 3)
  /-- R355: Mailbox command that places a verified firmware image in the inactive slot. -/
  | transferFw (ld : BitVec 3) (image : FwImage)
  /-- R355: Mailbox command selecting a firmware image to take effect at the next reset. -/
  | activateFw (ld : BitVec 3) (slot : BitVec 1)
  /-- R354: Mailbox command returning the memory device identity. -/
  | identifyMemoryDevice (ld : BitVec 3)
  /-- R348: Mailbox command that checks a launch queue header and gives it to the dispatcher. -/
  | setLaunchQueue (ld : BitVec 3) (hdr : BitVec 64)
  /-- R354: Mailbox command returning sensor values. -/
  | readSensors (ld : BitVec 3)
  /-- R354: Mailbox command returning a range of Tabos's persistent log. -/
  | readLog (ld : BitVec 3) (off len : Nat)
  /-- R356: Mailbox command returning a signed attestation report for a nonce. -/
  | getAttestationReport (ld : BitVec 3) (nonce : BitVec 512)
  /-- R352: Mailbox command setting the fleet group's members, atolls and ASIDs. -/
  | setFleetGroup (ld : BitVec 3) (members : List FleetMember)
  /-- R354: Every 1 ms Tabos refreshes the sensor readings. -/
  | sensorRefresh
  /-- R382: Each HBM stack is patrol-scrubbed every 12 hours. -/
  | hbmPatrolScrub (stack : BitVec 3)
  /-- R357: An overheated junction or sustained overpower stops every island clock and reports the device failed. -/
  | thermalTrip
  /-- R41: Reset zeroes the on-package memories and counters and starts bring-up. -/
  | packageReset
  /-- R355: Tabos verifies and boots firmware, falling back to the other slot on failure, and places the dispatchers. -/
  | firmwareBoot
  /-- R40: A CXL.cache snoop from the host for a host line held in an island's host-line cache keeps that cache coherent with the host. -/
  | hostLineCacheSnoop (isl : BitVec 3) (line : BitVec 42) (data : Option (BitVec 512))
  /-- R382: A narrows flit that fails its CRC-32 is replayed from the sender. -/
  | narrowsFlitReplay (link : BitVec 3)
  /-- R326: A request from another package for an arrival record reaches this package over the straits and is answered from the log ring of the named island. -/
  | straitRecordFetch (pkg : BitVec 12) (id : BitVec 64)
  deriving DecidableEq, Repr

end Sys2Proof
end

