-- ==== Sys2Proof/Machine/State.lean ====
section
/-! DEFINITION. The state of the part: everything the spec gives the machine (INVENTORY.md, State), as plain data.
A hart's registers stand in `Hart`. `State.h` is the hart that moves now and `State.others` are the other harts that are not
FREE, by rising HARTID (a FREE slot has no content a program can see, R13). Cores and clusters are lists by number that omit
the entries equal to their value at reset. -/

namespace Sys2Proof.Machine

/-- Privilege levels (R328), in rising order. -/
inductive Level where
  | user
  | supervisor
  | firmware
  deriving DecidableEq, Repr

/-- Who fills an empty register (R27). -/
inductive Producer where
  /-- a vector load, VAMO, VSFU or VPLANE -/
  | pipe
  /-- a delivery of the hart's stream of this number -/
  | stream (n : BitVec 2)
  /-- a delivery of strip `strip` of the gang stream of this number -/
  | gang (n : BitVec 2) (strip : Nat)
  deriving DecidableEq, Repr

/-- What an empty register waits for (R27): its frontier, the element groups that its producer writes to it, the bytes of an
element group and those of its first group that lie in the register before it, the producer, and the image that the register
holds once all are written (a gang strip that is not fetched gives none). -/
structure Pending where
  frontier : Nat
  groups : Nat
  size : Nat
  off : Nat
  by_ : Producer
  img : BitVec 32768
  deriving DecidableEq, Repr

/-- Full, or empty with what is pending (R27). -/
inductive Fullness where
  | full
  | empty (p : Pending)
  deriving DecidableEq, Repr

/-- A shape record as read: its words 0 to 7 (R239, Table 13-1). -/
abbrev Shape := Vector (BitVec 64) 8

/-- A transfer that has not completed (R247, R249): ID, record address, its words 0 to 3, the shape record with SH = 1, the
issuing hart with its level, PTBR, FILL and CPTAG at issue, and the outcome (ERR, faulting address) once its data has moved. -/
structure Transfer where
  id : BitVec 48
  record : BitVec 64
  src : BitVec 64
  dst : BitVec 64
  len : BitVec 64
  ctl : BitVec 64
  shape : Option Shape
  hart : BitVec 12
  lvl : Level
  ptbr : BitVec 64
  fillv : BitVec 64
  tag : BitVec 64
  outcome : Option (BitVec 7 × BitVec 64)
  deriving DecidableEq, Repr

/-- What a hart in WAIT waits for, with the operands of its instruction (R11). `d` is the gd field. -/
inductive Wait where
  /-- `gone` is the departure, once it has come: the value for gd and the edge for CPTAG (R298, R312); `again` says that the
  BAR does not arrive again (R315), `old` that it is a BARG -/
  | bar (d : BitVec 5) (key : Nat) (scope : BitVec 3) (target : BitVec 64) (again old : Bool)
      (gone : Option (BitVec 64 × BitVec 64))
  | waita (d : BitVec 5) (va : BitVec 64) (cond : BitVec 2) (y : BitVec 64)
  | chwaitRec (d : BitVec 5) (va : BitVec 64)
  | chwaitId (d : BitVec 5) (ch : BitVec 3) (id : BitVec 48)
  | qpop (d : BitVec 5) (va : BitVec 64)
  | qpush (d : BitVec 5)
  | tsync
  | copy (d : BitVec 5) (t : Transfer)
  | gang (d : BitVec 5) (cores : BitVec 16) (vtype : BitVec 64)
  | vacq (d : BitVec 5) (tile : Bool) (idx : BitVec 5)
  /-- the acquisitions of CTXLOAD, with offsets 0 to 40,959 of the image as read (R380) -/
  | ctxload (img : BitVec 327680)
  | wfi (d : BitVec 5)
  /-- a register that is not full: an e = 0 source (`src`), of which its next element group is enough (`part`), or a destination;
  `here` once what is waited for has come -/
  | reg (r : BitVec 5) (src part here : Bool)
  deriving DecidableEq, Repr

/-- The states of a hart slot (R11), a wait with the cycle it was entered. -/
inductive Slot where
  | free
  | run
  | wait (w : Wait) (since : Nat)
  deriving DecidableEq, Repr

/-- A fault record: its four words (R366, Table 20-6). -/
structure FaultRec where
  va : BitVec 64
  info : BitVec 64
  pc : BitVec 64
  who : BitVec 64
  deriving DecidableEq, Repr

/-- A bound stream (R239 to R245): the address of its shape record, the record as read, the position P, P before the latest
advance, the core whose windows BASE names, CPTAG at STRMDEF, and the elements prefetched as (position, value). -/
structure Stream where
  addr : BitVec 64
  shape : Shape
  pos : Nat
  prev : Nat
  core : BitVec 10
  tag : BitVec 64
  buf : List (Nat × Nat)
  /-- PTBR of STRMDEF, and of the prefetch that filled `buf` -/
  space : BitVec 64 := 0
  deriving DecidableEq, Repr

/-- Where a queued instruction executes (R285, R291, Table 16-8): lane groups, special-function unit, loads and stores, or the
macro-op sequencer for tile and X instructions. -/
inductive Pipe where
  | lanes
  | special
  | memory
  | tile
  | xexp
  deriving DecidableEq, Repr

/-- An entry of the vector queue (R285): the instruction's address, its pipe, its units of execution in all and those run,
the lane-group beats run of the element group in execution (R287). `todo` holds the bits of a tile instruction whose units take
effect as they run and `prior` the flag classes that these have raised (log 5); `dst` holds the groups of registers that a load
fills, for whose replies its beats wait (R286). -/
structure Queued where
  pc : BitVec 64
  pipe : Pipe
  units : Nat
  done : Nat
  beats : Nat
  begun : Bool
  todo : Option (BitVec 64)
  prior : BitVec 9
  dst : List (Nat × Nat)
  deriving DecidableEq, Repr

/-- Where an interrupted instruction goes on (R361, R364): its address, the first position, the flag classes that count as raised
(R117), whether it has only stopped part-way, for an e = 0 source (R28) or for its next unit, and was not interrupted by a trap,
the pipe in which its begin event stands without an end event (R308), whether it is a member of an interrupted convoy (R363),
what LVD held when it issued, for a compact form that has set LVD since (R58, R59), and TSEQ for its position when it is a tile
instruction that has stopped part-way (R194), else 0. -/
structure Resume where
  pc : BitVec 64
  at_ : Nat
  prior : BitVec 9
  own : Bool
  begun : Option Pipe
  member : Bool := false
  lvd : Option (BitVec 64) := none
  tseq : BitVec 64 := 0
  deriving DecidableEq, Repr

/-- What the part holds over a trap that the saved registers do not record (log 53): EPC and the other registers that say where
the return goes on, as the trap wrote them (ESTATUS without what it keeps over a trap), the points of part-way instructions, and a
watch hit whose trap is still due, with whether the instruction at EPC made it. -/
structure Shelf where
  epc : BitVec 64
  eix : BitVec 64
  econv : BitVec 64
  tseq : BitVec 64
  status : BitVec 64
  points : List Resume
  watch : Option (BitVec 64)
  mid : Bool
  deriving DecidableEq, Repr

/-- Kinds of loop levels (R277). -/
inductive LoopKind where
  | t
  | c
  | i
  deriving DecidableEq, Repr

/-- A level record of a loop table (Table 15-2). -/
structure LoopLevel where
  kind : LoopKind
  trip : Nat
  first : BitVec 32
  step : BitVec 32
  gang : Nat
  deriving DecidableEq, Repr

/-- A hart's place in its launch (R14, R279): the launch, the entry PC and argument, the levels and the current iteration
number of each level. -/
structure LoopPos where
  core : BitVec 10
  launch : BitVec 48
  entry : BitVec 64
  args : BitVec 64
  levels : List LoopLevel
  counts : List Nat
  deriving DecidableEq, Repr

/-- A hart slot and the state a hart has there (R13, R16, Table 1-4, Table 1-8, Table 18-2). -/
structure Hart where
  /-- HARTID (R10) -/
  id : BitVec 12
  slot : Slot
  pc : BitVec 64
  lvl : Level
  /-- g0 to g31; g0 holds 0 -/
  g : Vector (BitVec 64) 32
  /-- v0 to v31: the 4,096-byte images, byte 0 lowest (R20) -/
  v : Vector (BitVec 32768) 32
  /-- B1 to B3 held, bit b-1 for block b (R17); B0 always is -/
  held : BitVec 3
  /-- full/empty state of v0 to v31 (R27) -/
  full : Vector Fullness 32
  /-- k0 to k23; the entry of k0 is never read (R24) -/
  k : Vector (BitVec 8192) 24
  pl : Vector (BitVec 64) 8
  /-- e0 to e15: 768-byte images, byte 0 lowest (R195) -/
  e : Vector (BitVec 6144) 16
  vtype : BitVec 64
  fillv : BitVec 64
  rmode : BitVec 64
  fst : BitVec 64
  ffx : BitVec 64
  efc : BitVec 64
  lvd : BitVec 64
  eord : BitVec 64
  twin : Vector (BitVec 64) 4
  evx : Vector (BitVec 64) 9
  prog : BitVec 64
  progaddr : BitVec 64
  cptag : BitVec 64
  wtmo : BitVec 64
  idx : Vector (BitVec 64) 6
  grant : BitVec 64
  span : Nat
  tshp : BitVec 64
  depcnt : BitVec 64
  epc : BitVec 64
  eix : BitVec 64
  ecause : BitVec 64
  eaddr : BitVec 64
  estatus : BitVec 64
  econv : BitVec 64
  tvec : BitVec 64
  ptbr : BitVec 64
  wshare : BitVec 64
  tseq : BitVec 64
  ctxa : BitVec 64
  escr : BitVec 64
  abictl : BitVec 64
  fvec : BitVec 64
  /-- fault record queue, oldest first, at most 16 (R366) -/
  frq : List FaultRec
  streams : Vector (Option Stream) 4
  /-- vector queue, head first, at most 16 (R285) -/
  vq : List Queued
  /-- CPTAG when the hart's latest tile instruction issued (R296) -/
  tileTag : BitVec 64
  /-- lane-arbiter credit (R286) -/
  credit : Int
  /-- a pre-emption request is pending (R367) -/
  preq : Bool
  /-- the model's own: units of the next instruction after which the pending request lands (log 9) -/
  landAt : Option Nat
  /-- the branch whose landing is still to be checked (R97) -/
  branch : Option (BitVec 64)
  /-- the deprecated instruction whose advisory is due (R71) -/
  advisory : Option (BitVec 64)
  /-- the watched address of a hit whose trap is due (R388) -/
  watch : Option (BitVec 64)
  /-- the watched address that the part-way instruction at the PC has hit before it was interrupted (R388) -/
  watchHeld : Option (BitVec 64)
  /-- the error summary of a machine check that is due (R386) -/
  mcheck : Option (BitVec 64)
  /-- PAUSE is in progress (R108) -/
  paused : Bool
  /-- the slots that still have to issue before this one goes on (R322) -/
  yielding : List (BitVec 2)
  loop : Option LoopPos
  /-- where interrupted instructions go on after ERET (R361, R364) -/
  resume : List Resume
  /-- the model's own, none between steps: the position at which the running instruction has to stop, and the register it then
  waits for -/
  quota : Option (Nat × Option (BitVec 5))
  /-- the model's own: tile instructions queue with their units still to run (log 5) -/
  defer : Bool
  shelf : List Shelf
  /-- frozen cycles of the hart's wait, which WTMO does not count (R12, R389) -/
  lag : Nat
  /-- failing register words: structure code of Table 22-1 and the number of the 8-byte word, for an accumulator of the element, in
  the registers of that kind (R383, R384) -/
  bad : List (Nat × Nat)
  deriving DecidableEq, Repr

/-- A tile accumulator (R16, R123, R134): 4,096 elements of 256 bits, element 64m + n, their 2-bit statuses (0 finite,
1 +inf, 2 -inf, 3 NaN), the latched anchor, whether it has taken a product, and the slot that holds it. -/
structure Accum where
  acc : BitVec 1048576
  st : BitVec 8192
  anchor : BitVec 16
  taken : Bool
  holder : Option (BitVec 2)
  deriving DecidableEq, Repr

/-- A copy channel (R249); `tags` lists the completed transfers whose CPTAG at issue was nonzero, latest first (R296). -/
structure Channel where
  counter : BitVec 48
  chst : BitVec 48
  queue : List Transfer
  tags : List (BitVec 48 × BitVec 64)
  deriving DecidableEq, Repr

/-- An event record: its two words (Table 13-4). -/
structure EventRec where
  w0 : BitVec 64
  w1 : BitVec 64
  deriving DecidableEq, Repr

/-- A cached leaf (R339): its ASID, page base and size as a power of two, and the PTE. -/
structure TlbEntry where
  asid : BitVec 12
  base : Nat
  log2 : Nat
  pte : BitVec 64
  deriving DecidableEq, Repr

/-- A lane group bound to a slot for one beat, and the cycle at which the beat ends (R286). -/
structure Bound where
  lg : BitVec 3
  slot : BitVec 2
  until_ : Nat
  deriving DecidableEq, Repr

/-- A core's own state. -/
structure Core where
  lpart : BitVec 64
  /-- lane cap of the governor, and the cycle of its last change (R289) -/
  cap : Nat
  capAt : Option Nat
  chans : Vector Channel 8
  events : List EventRec
  lost : Nat
  z : Vector Accum 4
  /-- stall-mode requests for vector blocks, oldest first (R324) -/
  vacqV : List (BitVec 2)
  /-- stall-mode requests for each accumulator, oldest first -/
  vacqZ : Vector (List (BitVec 2)) 4
  launchCtr : BitVec 48
  /-- the slot the sequencer serves next (R291) -/
  seqNext : BitVec 2
  /-- the lane groups bound (R286, R287) -/
  bound : List Bound
  /-- the slot whose turn it is in the lane arbiter's round, and the slots that their round has given its credit and that it still
  binds (R286) -/
  visit : BitVec 2
  credited : List (BitVec 2)
  tlb : List TlbEntry
  deriving DecidableEq, Repr

/-- A gang stream (R246): its number in rank 0, its stream state, each member's next strip, and the strips fetched. -/
structure GangStream where
  num : BitVec 2
  owner : BitVec 12
  stream : Stream
  /-- (member, number of STRIPs since STRMDEF) -/
  at_ : List (BitVec 12 × Nat)
  /-- (strip, its elements; none for a position that delivers FILLV) -/
  fetched : List (Nat × List (Option Nat))
  deriving DecidableEq, Repr

/-- A gang, forming or formed (R275): its core mask and VTYPE, the harts joined or waiting, the gang GRANT once formed. -/
structure Gang where
  cores : BitVec 16
  vtype : BitVec 64
  members : List (BitVec 12)
  grant : Option Nat
  size : Nat
  streams : List GangStream
  deriving DecidableEq, Repr

/-- Freeze state of a cluster (R389). -/
inductive Freeze where
  | running
  /-- the harts no longer issue; what is in execution finishes -/
  | stopping
  | frozen
  deriving DecidableEq, Repr

/-- Why a cluster froze (Table 22-7 CAUSE): the code, the hart that caused it, the watched address, and STEPCLK then. -/
structure FreezeCause where
  code : Nat
  hart : Option (BitVec 12)
  waddr : BitVec 64
  at_ : Nat
  deriving DecidableEq, Repr

/-- A cluster's own state. -/
structure Cluster where
  tlb : List TlbEntry
  freeze : Freeze
  cause : FreezeCause
  stopen : Bool
  dbgwp : BitVec 64
  /-- replies held while frozen: hart and register (R389) -/
  skid : List (BitVec 12 × BitVec 5)
  gangs : List Gang
  deriving DecidableEq, Repr

/-- An island's own state. -/
structure Island where
  atoll : BitVec 64
  trctl : BitVec 64
  /-- trace slots written (R308) -/
  trpos : Nat
  hlcache : BitVec 64
  cplog : BitVec 64
  cpthr : BitVec 64
  /-- last sequence number allotted (R295) -/
  seq : BitVec 61
  rd : Vector (BitVec 64) 8
  wr : Vector (BitVec 64) 8
  origin : BitVec 64
  /-- host lines the host-line cache holds, by rising line number (R47) -/
  lines : List Nat
  corrected : Nat
  deriving DecidableEq, Repr

/-- The barrier unit's record of a word (R298, R312, R314): the first arrival of the running episode (hart, cycle), what the
last completed episode returns, the CPTAG that departing harts take (0 leaves theirs), and the target that the last departure
at fleet scope released. -/
structure Episode where
  key : Nat
  first : Option (BitVec 12 × Nat)
  last : Option (BitVec 64)
  tag : BitVec 64
  released : BitVec 64
  deriving DecidableEq, Repr

/-- A local episode of a fleet barrier that waits for its departure (R298, R314): target, key and home island of the word, first
arriver and the cycle of its arrival. -/
structure FleetEpisode where
  target : BitVec 64
  key : Nat
  isl : BitVec 3
  first : BitVec 12
  began : Nat
  deriving DecidableEq, Repr

/-- A fleet barrier (R314): first island of its atoll, word address, package arrivals counted, and the local episodes that wait
for their departure, oldest first. -/
structure FleetBar where
  isl : BitVec 3
  va : BitVec 64
  count : Nat
  local_ : List FleetEpisode
  deriving DecidableEq, Repr

/-- The copy channel whose completion of a COPY wrote a record's word 3 (R318): the channel's producer ID and the issuing
hart's CPTAG. -/
structure DoneBy where
  pid : Nat
  tag : BitVec 64
  deriving DecidableEq, Repr

/-- A launch in flight (R280 to R284). -/
structure Launch where
  id : BitVec 48
  /-- launcher -/
  hart : BitVec 12
  table : BitVec 64
  entry : BitVec 64
  args : BitVec 64
  levels : List LoopLevel
  ptbr : BitVec 64
  tvec : BitVec 64
  abictl : BitVec 64
  tag : BitVec 64
  issued : Nat
  /-- (island, next hart number, harts in all) for each island with harts still to place -/
  pending : List (BitVec 3 × Nat × Nat)
  /-- first island and number of islands over which the I level goes (R280) -/
  first : Nat
  islands : Nat
  /-- placed and not retired -/
  live : Nat
  /-- the dispatcher request it serves: DONE address and SEQ (R349) -/
  request : Option (BitVec 64 × BitVec 64)
  deriving DecidableEq, Repr

/-- A dump in progress (R390 to R392): the cluster, the writer of GO with its level and PTBR, the buffer and its size. -/
structure DumpJob where
  sel : BitVec 6
  hart : BitVec 12
  lvl : Level
  ptbr : BitVec 64
  base : BitVec 64
  size : Nat
  /-- STEPCLK at the freeze and the words of each record, as they stand at the freeze (R391) -/
  frozeAt : Nat
  records : List (List (BitVec 64))
  deriving DecidableEq, Repr

/-- A launch queue (R348): header address, BASE, LOG2N, requests taken, and the cycle at which the dispatcher's WAITA on TAIL began
to wait (R296), none while a request is there. -/
structure LaunchQueue where
  header : BitVec 64
  base : BitVec 64
  log2n : Nat
  taken : BitVec 64
  since : Option Nat
  deriving DecidableEq, Repr

/-- An entry of Tabos's log or of its event records (R349, R354, R357, R384). -/
inductive TabosRec where
  /-- a request that was not launched: the first island of its atoll, its code of Table 19-6 and its SEQ -/
  | request (isl : BitVec 3) (code : Nat) (seq : BitVec 64)
  /-- a machine check: summary, HARTID, STEPCLK, physical address (none for a register) and syndrome -/
  | machineCheck (summary : BitVec 64) (hart : BitVec 12) (clk : Nat) (pa : Option Nat) (syndrome : BitVec 64)
  /-- an image that was accepted into a slot, with its security version -/
  | fwTransferred (slot : BitVec 1) (version : Nat)
  | fwActivated (slot : BitVec 1)
  | booted (slot : BitVec 1)
  /-- a boot that failed, of the image in slot -/
  | bootFailed (slot : BitVec 1)
  | thermalTrip (cause : TripCause) (clk : Nat)
  | portLost (port : BitVec 5)
  deriving DecidableEq, Repr

/-- A reply of the mailbox (R354), its contents as the spec names them. -/
inductive Reply where
  | invalidInput
  | busy
  | ok
  /-- event records, and the error counters of the islands (R382) -/
  | records (r : List TabosRec) (corrected : List Nat)
  | fwInfo (active : BitVec 1) (versionA versionB : Option Nat)
  | identity (bytes : Nat)
  | sensors (values : List (BitVec 64))
  | log (bytes : List TabosRec)
  | attestation (nonce : BitVec 512) (pkg : BitVec 12) (islands : BitVec 8) (slotA slotB config : BitVec 512)
      (key : BitVec 456) (signature : BitVec 912)
  | hdm (bytes : List (BitVec 8))
  | arrivalRecord (r : Option (BitVec 256))
  | pushed (status : BitVec 2)
  /-- to a remote copy write: the address at which it faulted, if it did (R352) -/
  | wrote (fault : Option (BitVec 64))
  deriving DecidableEq, Repr

/-- Tabos (R354 to R357): firmware slots A and B, the active one, the one to boot, the rollback counter, the log (newest
last), event records, sensor readings, the status it reports, launch queues and fleet groups by first island. -/
structure Tabos where
  slots : Vector (Option FwImage) 2
  active : BitVec 1
  next : BitVec 1
  rollback : Nat
  log : List TabosRec
  records : List TabosRec
  sensors : List (BitVec 64)
  ready : Bool
  failed : Bool
  queues : Vector (Option LaunchQueue) 8
  groups : Vector (List FleetMember) 8
  pkg : BitVec 12
  /-- the routing table as far as Tabos has loaded it: package and port (R352) -/
  routes : List (BitVec 12 × BitVec 5)
  /-- the IBT flag of the modules that have been loaded, by PTBR and loop table (R397) -/
  modules : List (BitVec 64 × BitVec 64 × BitVec 1)
  deriving DecidableEq, Repr

/-- A message this package has sent over the straits (R302). -/
inductive StraitMsg where
  | barArrival (dest : BitVec 12) (m : StraitBar)
  | barDeparture (dest : BitVec 12) (m : StraitBar)
  | push (dest : BitVec 12) (hart : BitVec 12) (m : StraitPush)
  | copyWrite (dest : BitVec 12) (m : StraitWrite)
  deriving DecidableEq, Repr

/-- What a watched word is waited for: a condition of WAITA with its operand, or the target of a BAR (R312, R317). -/
inductive Until where
  | meets (cond : BitVec 2) (y : BitVec 64)
  | reaches (target : BitVec 64)
  deriving DecidableEq, Repr

/-- The word that a WAITA or a BAR watches (R312, R317, Table 15-4): its key, what it is waited for, and the value of the write that
met that first, with its signal tag and the step in which it was written. -/
structure Watch where
  hart : BitVec 12
  key : Nat
  until_ : Until
  hit : Option (BitVec 64 × BitVec 48 × Nat)
  deriving DecidableEq, Repr

/-- A mapping of a page of signal type that a translation has used (R300): the root table, the page of the leaf, its frame and
size as a power of two. -/
structure SignalMap where
  island : BitVec 3
  root : BitVec 64
  base : Nat
  frame : Nat
  log2 : Nat
  deriving DecidableEq, Repr

/-- An agent that moves: a hart by its number, or a step of the part that the opcode table lists without an encoding. -/
inductive Input where
  | hart (h : BitVec 12)
  | event (i : Instr)
  /-- a command that Tabos takes out of band, over MCTP, for the atoll of first island `isl` (R354) -/
  | outOfBand (isl : BitVec 3) (i : Instr)
  /-- the sequencer is busy: the hart's next tile instructions queue with their units to run (log 5) -/
  | defer (h : BitVec 12)
  /-- Tabos gives the package its number (R352) -/
  | assignPackage (n : BitVec 12)
  /-- Tabos loads an entry of the routing table: messages to package `dest` leave by `port` (R352) -/
  | route (dest : BitVec 12) (port : BitVec 5)
  /-- the other package has taken message number `n` of those that are on their way: one of a fleet barrier, to which no reply comes (R314) -/
  | delivered (n : Nat)
  /-- the runtime loads a module whose header has the IBT flag `ibt` and whose loop table stands at `table` under `ptbr` (R397) -/
  | loadModule (ptbr table : BitVec 64) (ibt : BitVec 1)
  /-- a correctable error arises in a structure of an island, is corrected and counted (R382) -/
  | correctable (isl : BitVec 3)
  /-- a TLB entry of a core, or of its cluster, is replaced (R339) -/
  | evict (core : BitVec 10) (n : Nat)
  /-- a stored word or register becomes uncorrectable (R382): the model's way to say that an error arises -/
  | corrupt (key : Nat)
  | corruptReg (h : BitVec 12) (code idx : Nat)
  deriving DecidableEq, Repr

/-- The state of the part. -/
structure State where
  /-- the hart that moves -/
  h : Hart
  /-- the other harts that are not FREE, by rising HARTID -/
  others : List Hart
  cores : List (Nat × Core)
  clusters : List (Nat × Cluster)
  islands : Vector Island 8
  /-- memory: (key, byte) by rising key, no zero byte listed. A key below 2^48 is a physical address (Table 2-2); the TCM
  of core c lies at 2^48 + 2^18 c -/
  mem : List Host.Cell
  /-- failing 8-byte words, key / 8, rising (R383) -/
  badMem : List Nat
  /-- signal tags by word, key / 8 (R300); no zero tag listed -/
  tags : List (Nat × BitVec 48)
  /-- the words, key / 8, that a copy engine's completion was the last to write (R318); no `none` listed -/
  dones : List (Nat × Option DoneBy)
  episodes : List Episode
  fleetBars : List FleetBar
  launches : List Launch
  /-- harts that wait in a blocking QPOP, with the key of its record, oldest first (R320) -/
  poppers : List (Nat × BitVec 12)
  /-- the words that harts wait for in WAITA and, below fleet scope, in BAR, one entry a hart (R312, R317) -/
  watches : List Watch
  /-- the mappings of signal pages in use (R300) -/
  signalMaps : List SignalMap
  /-- STEPCLK (R306) -/
  clk : Nat
  dumpa : BitVec 64
  dumpctl : BitVec 64
  dbgsel : BitVec 6
  dump : Option DumpJob
  tabos : Tabos
  /-- replies given to the host and to other packages, oldest first -/
  replies : List Reply
  /-- messages sent and not yet taken by the other package -/
  outbox : List StraitMsg
  portsLost : List (BitVec 5)
  narrowsFailed : List (BitVec 3)
  /-- failed replays in a row of one flit, by narrows link (R382) -/
  narrowsTries : Vector Nat 8
  /-- a thermal trip has stopped every island clock (R357) -/
  stopped : Bool
  /-- bring-up has not placed the dispatchers yet (R357) -/
  booting : Bool
  /-- the model's own: which agents move next (log 3) -/
  agenda : List Input
  /-- the model's own: steps taken, the argument of Config.stepCycles (log 6) -/
  ticks : Nat
  /-- the model's own: the number of the next free value (log 7) -/
  fresh : Nat
  /-- the model's own: the bits of the instruction that runs, set by the step that fetched it (log 13) -/
  ir : BitVec 64
  /-- the model's own: an access of the running step has to wait for a frozen cluster's scratchpad (R389), so that the step does
  not take place now; false between steps -/
  stall : Bool
  /-- the model's own: the running step has entered a trap handler; false between steps -/
  trapped : Bool
  deriving DecidableEq, Repr

/-- Why a step stops with a fault. -/
inductive Fault where
  /-- Every island clock is stopped after a thermal trip and the host must reset the module (R357); raised by `step`. Safe:
  the hardware does not go on either. -/
  | clocksStopped
  deriving DecidableEq, Repr

/-- Why the model refuses a step. -/
inductive Refusal where
  /-- The instruction of this mnemonic has no meaning in the model yet; raised by `exec`. Safe: the model stops. -/
  | notModelled (mnemonic : String)
  deriving DecidableEq, Repr

/-- The result of one step or instruction. -/
abbrev Result := Host.Outcome State Fault Refusal

/-! ### Reset -/

/-- An accumulator nobody has held: zero (log 1). -/
def Accum.zero : Accum := ⟨0, 0, 0, false, none⟩

/-- A slot at reset: FREE, CSRs at the Reset column of Table 1-8, and zero where the spec states no reset value (log 1). -/
def Hart.reset (id : BitVec 12) : Hart where
  id := id
  slot := .free
  pc := 0
  lvl := .user
  g := Vector.replicate 32 0
  v := Vector.replicate 32 0
  held := 0
  full := Vector.replicate 32 .full
  k := Vector.replicate 24 0
  pl := Vector.replicate 8 0
  e := Vector.replicate 16 0
  vtype := 2
  fillv := 0
  rmode := 0
  fst := 0
  ffx := 0
  efc := 0
  lvd := 0
  eord := 0
  twin := Vector.replicate 4 0
  evx := Vector.replicate 9 0
  prog := 0
  progaddr := 0
  cptag := 0
  wtmo := 0
  idx := Vector.replicate 6 0
  grant := 0
  span := 0
  tshp := 0
  depcnt := 0
  epc := 0
  eix := 0
  ecause := 0
  eaddr := 0
  estatus := 0
  econv := 0
  tvec := 0
  ptbr := 0
  wshare := 1
  tseq := 0
  ctxa := 0
  escr := 0
  abictl := 0
  fvec := 0
  frq := []
  streams := Vector.replicate 4 none
  vq := []
  tileTag := 0
  credit := 0
  preq := false
  landAt := none
  branch := none
  advisory := none
  watch := none
  watchHeld := none
  mcheck := none
  paused := false
  yielding := []
  loop := none
  resume := []
  quota := none
  defer := false
  shelf := []
  lag := 0
  bad := []

/-- A channel at reset (R249). -/
def Channel.reset : Channel := ⟨0, 0, [], []⟩

/-- A core at reset; the governor's cap is at its largest value (log 14). -/
def Core.reset : Core where
  lpart := 0
  cap := 128
  capAt := none
  chans := Vector.replicate 8 Channel.reset
  events := []
  lost := 0
  z := Vector.replicate 4 Accum.zero
  vacqV := []
  vacqZ := Vector.replicate 4 []
  launchCtr := 0
  seqNext := 0
  bound := []
  visit := 0
  credited := []
  tlb := []

/-- A cluster at reset. -/
def Cluster.reset : Cluster where
  tlb := []
  freeze := .running
  cause := ⟨0, none, 0, 0⟩
  stopen := false
  dbgwp := 0
  skid := []
  gangs := []

/-- Island `i` at reset: an atoll of its own (Table 18-2: i x 0x24), host-line cache of 4 units (R47). -/
def Island.reset (i : Nat) : Island where
  atoll := BitVec.ofNat 64 (i * 0x24)
  trctl := 0
  trpos := 0
  hlcache := 4
  cplog := 0
  cpthr := 0
  seq := 0
  rd := Vector.replicate 8 0
  wr := Vector.replicate 8 0
  origin := 0
  lines := []
  corrected := 0

/-- Tabos at reset (log 41): no image in either slot, no launch queue, no fleet group. -/
def Tabos.reset : Tabos where
  slots := Vector.replicate 2 none
  active := 0
  next := 0
  rollback := 0
  log := []
  records := []
  sensors := []
  ready := false
  failed := false
  queues := Vector.replicate 8 none
  groups := Vector.replicate 8 []
  pkg := 0
  routes := []
  modules := []

/-- The part right after package reset: every slot FREE, memory zero with nothing listed, STEPCLK 0, bring-up still to
come (R41, R306, R357). -/
def State.reset : State where
  h := Hart.reset 0
  others := []
  cores := []
  clusters := []
  islands := Vector.ofFn fun i => Island.reset i.val
  mem := []
  badMem := []
  tags := []
  dones := []
  episodes := []
  fleetBars := []
  launches := []
  poppers := []
  watches := []
  signalMaps := []
  clk := 0
  dumpa := 0
  dumpctl := 0
  dbgsel := 0
  dump := none
  tabos := Tabos.reset
  replies := []
  outbox := []
  portsLost := []
  narrowsFailed := []
  narrowsTries := Vector.replicate 8 0
  stopped := false
  booting := true
  agenda := []
  ticks := 0
  fresh := 0
  ir := 0
  stall := false
  trapped := false

end Sys2Proof.Machine
end

