-- ==== Sys2Proof/Machine/Ops.lean ====
section
/-! DEFINITION. The named operations on the state: sparse lists, memory, registers, translation, accesses, and taking an
exception and returning from one. Everything an instruction does goes through these. -/

namespace Sys2Proof.Machine

/-! ### Sparse lists in one canonical form -/

/-- The value at `a`; `d` where nothing is listed. -/
def SMap.get {α : Type} (d : α) : List (Nat × α) → Nat → α
  | [], _ => d
  | (k, v) :: m, a => if a < k then d else if a = k then v else SMap.get d m a

/-- Sets the value at `a`, keeping keys rising and the value `d` unlisted. -/
def SMap.set {α : Type} [DecidableEq α] (d : α) : List (Nat × α) → Nat → α → List (Nat × α)
  | [], a, x => if x = d then [] else [(a, x)]
  | (k, v) :: m, a, x =>
    if a < k then (if x = d then (k, v) :: m else (a, x) :: (k, v) :: m)
    else if a = k then (if x = d then m else (a, x) :: m)
    else (k, v) :: SMap.set d m a x

/-- Keys above `lo` (when `some`), strictly rising, no value equal to `d`. -/
def SMap.wfFrom {α : Type} [DecidableEq α] (d : α) : Option Nat → List (Nat × α) → Bool
  | _, [] => true
  | lo, (k, v) :: m => (match lo with | none => true | some l => decide (l < k)) && decide (v ≠ d) && SMap.wfFrom d (some k) m

/-- The canonical form: keys strictly rising, no value equal to `d`. -/
def SMap.wf {α : Type} [DecidableEq α] (d : α) (m : List (Nat × α)) : Bool := SMap.wfFrom d none m

/-- Puts a number into a rising list that does not hold it yet. -/
def insertNat (x : Nat) : List Nat → List Nat
  | [] => [x]
  | y :: ys => if x < y then x :: y :: ys else if x = y then y :: ys else y :: insertNat x ys

/-! ### Memory -/

/-- Memory as a sparse list of bytes; an unlisted byte reads 0 (R41; log 2 for HBM and host memory). -/
abbrev Memory := List Host.Cell

/-- The byte at a key. -/
def Memory.byte (m : Memory) (a : Nat) : Byte := SMap.get 0 m a

/-- Stores a byte. -/
def Memory.setByte (m : Memory) (a : Nat) (b : Byte) : Memory := SMap.set 0 m a b

/-- The canonical form of memory. -/
def Memory.wf (m : Memory) : Bool := SMap.wf 0 m

/-- The little-endian number in the `n` bytes from `a` (R31 MEM). -/
def Memory.read (m : Memory) (a : Nat) : Nat → Nat
  | 0 => 0
  | n + 1 => (m.byte a).toNat + 256 * Memory.read m (a + 1) n

/-- Stores the low `n` bytes of `x` little-endian from `a`. -/
def Memory.write (m : Memory) (a : Nat) : Nat → Nat → Memory
  | 0, _ => m
  | n + 1, x => Memory.write (m.setByte a (BitVec.ofNat 8 x)) (a + 1) n (x / 256)

/-- The key of TCM offset `o` of core `c`: no physical address reaches it, only the window (Table 2-1). -/
def tcmKey (c o : Nat) : Nat := 2 ^ 48 + c * 0x40000 + o

/-- The physical address of offset `o` of the scratchpad of cluster number `cl` = island x 8 + cluster (Table 2-2). -/
def scratchKey (cl o : Nat) : Nat := 0x7E0000000000 + cl / 8 * 0x2000000 + cl % 8 * 0x400000 + o

/-- The physical address of offset `o` of island `i`'s SRAM (Table 2-2). -/
def sramKey (i o : Nat) : Nat := 0x7F0000000000 + i * 0x4000000 + o

/-- The island that owns a physical address: HBM, scratchpad, island SRAM (Table 2-2); none for host memory. -/
def ownerOf (pa : Nat) : Option Nat :=
  if pa < 0x6000000000 then some (pa / 0xC00000000)
  else if 0x7E0000000000 ≤ pa ∧ pa < 0x7E0010000000 then some ((pa - 0x7E0000000000) / 0x2000000)
  else if 0x7F0000000000 ≤ pa ∧ pa < 0x7F0020000000 then some ((pa - 0x7F0000000000) / 0x4000000)
  else none

/-- Whether a physical address is populated (Table 2-2). -/
def populated (pa : Nat) : Bool := (ownerOf pa).isSome || (decide (0x800000000000 ≤ pa) && decide (pa < 2 ^ 48))

/-! ### Numbers -/

/-- Bits `[lo + len - 1 : lo]` of a number. -/
def bits (x lo len : Nat) : Nat := x >>> lo % 2 ^ len

/-- Field `[lo + len - 1 : lo]` of a word. -/
def fld (x : Word) (lo len : Nat) : Nat := bits x.toNat lo len

/-- Replaces field `[lo + len - 1 : lo]` of a word by the low bits of `v`. -/
def setFld (x : Word) (lo len v : Nat) : Word :=
  BitVec.ofNat 64 (x.toNat - bits x.toNat lo len <<< lo + (v % 2 ^ len) <<< lo)

/-- Reads an `n`-bit number as two's complement. -/
def toSigned (n x : Nat) : Int := if x % 2 ^ n < 2 ^ (n - 1) then (x % 2 ^ n : Nat) else (x % 2 ^ n : Nat) - (2 ^ n : Nat)

/-- The `n`-bit two's-complement pattern of an integer. -/
def ofSigned (n : Nat) (x : Int) : Nat := (x % (2 ^ n : Nat)).toNat

/-- Sign-extends the low `n` bits of a number to 64 bits. -/
def sext (n x : Nat) : Word := BitVec.ofInt 64 (toSigned n x)

/-! ### Harts, cores, clusters and islands -/

/-- Core number of a hart: HARTID[11:2]. -/
def coreOf (h : HartId) : BitVec 10 := h.extractLsb' 2 10
/-- Slot of a hart: HARTID[1:0]. -/
def slotOf (h : HartId) : BitVec 2 := h.extractLsb' 0 2
/-- Cluster number island x 8 + cluster of a core. -/
def clusterOf (c : BitVec 10) : BitVec 6 := c.extractLsb' 4 6
/-- Island of a core. -/
def islandOf (c : BitVec 10) : BitVec 3 := c.extractLsb' 7 3

/-- Core number `c`. -/
def State.core (s : State) (c : BitVec 10) : Core := SMap.get Core.reset s.cores c.toNat
/-- Replaces core `c`. -/
def State.setCore (s : State) (c : BitVec 10) (x : Core) : State :=
  { s with cores := SMap.set Core.reset s.cores c.toNat x }
/-- Cluster number `c`. -/
def State.cluster (s : State) (c : BitVec 6) : Cluster := SMap.get Cluster.reset s.clusters c.toNat
/-- Replaces cluster `c`. -/
def State.setCluster (s : State) (c : BitVec 6) (x : Cluster) : State :=
  { s with clusters := SMap.set Cluster.reset s.clusters c.toNat x }
/-- Island `i`. -/
def State.island (s : State) (i : BitVec 3) : Island := s.islands[i.toNat]'i.isLt
/-- Replaces island `i`. -/
def State.setIsland (s : State) (i : BitVec 3) (x : Island) : State :=
  { s with islands := s.islands.set i.toNat x i.isLt }

/-- The core of the hart that moves. -/
def State.myCore (s : State) : BitVec 10 := coreOf s.h.id
/-- The cluster of the hart that moves. -/
def State.myCluster (s : State) : BitVec 6 := clusterOf s.myCore
/-- The island of the hart that moves. -/
def State.myIsland (s : State) : BitVec 3 := islandOf s.myCore

/-- Inserts a hart by rising HARTID, in the place of one with its number; a FREE slot is left out. -/
def insertHart (x : Hart) : List Hart → List Hart
  | [] => if x.slot = .free then [] else [x]
  | y :: ys =>
    if x.id = y.id then (if x.slot = .free then ys else x :: ys)
    else if x.id < y.id then (if x.slot = .free then y :: ys else x :: y :: ys)
    else y :: insertHart x ys

/-- The hart of a number: the one that moves, another one, or a FREE slot. -/
def State.hart (s : State) (id : HartId) : Hart :=
  if id = s.h.id then s.h else (s.others.find? (fun x => x.id == id)).getD (Hart.reset id)

/-- Stores a hart back under its number. -/
def State.putHart (s : State) (x : Hart) : State :=
  if x.id = s.h.id then { s with h := x } else { s with others := insertHart x s.others }

/-- Makes the hart `id` the one that moves. -/
def State.focus (s : State) (id : HartId) : State :=
  if id = s.h.id then s
  else { s with h := s.hart id, others := insertHart s.h (s.others.filter (fun x => x.id != id)) }

/-- Runs an operation of the hart `id` and gives the turn back to the hart that had it. -/
def State.onHart (s : State) (id : HartId) (f : State → State) : State :=
  ((f (s.focus id)).focus s.h.id)

/-- Every hart that is not FREE, the one that moves first. -/
def State.harts (s : State) : List Hart := if s.h.slot = .free then s.others else s.h :: s.others

/-- Whether a hart slot is FREE. -/
def State.slotFree (s : State) (id : HartId) : Bool := decide ((s.hart id).slot = .free)

/-- A free value and the state with the next one (log 7). -/
def State.takeFree (s : State) : Word × State := (Config.free s.fresh, { s with fresh := s.fresh + 1 })

/-! ### Registers -/

/-- Reads a g register; g0 reads 0 (R16). -/
def State.getG (s : State) (a : BitVec 5) : Word := if a = 0 then 0 else s.h.g[a.toNat]'a.isLt

/-- Writes a g register; a write to g0 is discarded (R16, R53). -/
def State.setG (s : State) (d : BitVec 5) (x : Word) : State :=
  { s with h := { s.h with g := if d = 0 then s.h.g else s.h.g.set d.toNat x d.isLt } }

/-- The mask with the low `n` bits set. -/
def lowMask (n : Nat) : BitVec 8192 := BitVec.ofNat 8192 (2 ^ min n 8192 - 1)

/-- Reads a mask register; k0 reads 1 below SPAN (R24). -/
def Hart.getK (h : Hart) (n : Nat) : BitVec 8192 := if n = 0 then lowMask h.span else (h.k[n]?).getD 0

/-- Writes a mask register; a write to k0 is discarded (R24). -/
def Hart.setK (h : Hart) (n : Nat) (x : BitVec 8192) : Hart :=
  { h with k := if n = 0 then h.k else h.k.setIfInBounds n x }

/-- Writes a mask register of the hart that moves. -/
def State.setK (s : State) (n : Nat) (x : BitVec 8192) : State := { s with h := s.h.setK n x }

/-- Moves the PC past an instruction of `n` bytes. -/
def State.adv (s : State) (n : Nat) : State := { s with h := { s.h with pc := s.h.pc + BitVec.ofNat 64 n } }

/-- Writes a g register and moves past an instruction of `n` bytes. -/
def State.setGAdv (s : State) (d : BitVec 5) (x : Word) (n : Nat) : State := (s.setG d x).adv n

/-- The byte image of register `r` (R20). -/
def Hart.vreg (h : Hart) (r : Nat) : BitVec 32768 := (h.v[r]?).getD 0

/-- The image of `n` registers from `r` upward, byte 0 lowest (R20). -/
def Hart.img (h : Hart) (r : Nat) : Nat → Nat
  | 0 => 0
  | n + 1 => (h.vreg r).toNat + (Hart.img h (r + 1) n) <<< 32768

/-- Writes the image of `n` registers from `r` upward. -/
def Hart.setImg (h : Hart) (r : Nat) : Nat → Nat → Hart
  | 0, _ => h
  | n + 1, x => Hart.setImg { h with v := h.v.setIfInBounds r (BitVec.ofNat 32768 x) } (r + 1) n (x >>> 32768)

/-- Whether the block of vector register `r` is held (R17): B0 always. -/
def Hart.holdsV (h : Hart) (r : Nat) : Bool := decide (r < 8) || (decide (r < 32) && h.held.getLsbD (r / 8 - 1))

/-- The lowest register of `n` from `r` that is not held. -/
def Hart.firstNotHeld (h : Hart) (r : Nat) : Nat → Option Nat
  | 0 => none
  | n + 1 => if h.holdsV r then Hart.firstNotHeld h (r + 1) n else some r

/-- Whether a register is full. -/
def Hart.isFull (h : Hart) (r : Nat) : Bool := decide (h.full[r]? = some .full ∨ h.full[r]? = none)

/-- Marks `n` registers from `r` with a full/empty state. -/
def Hart.mark (h : Hart) (r : Nat) (f : Fullness) : Nat → Hart
  | 0 => h
  | n + 1 => Hart.mark { h with full := h.full.setIfInBounds r f } (r + 1) f n

/-- Whether the hart holds accumulator `z` of its core (R17). -/
def State.holdsZ (s : State) (z : BitVec 2) : Bool :=
  decide (((s.core s.myCore).z[z.toNat]'z.isLt).holder = some (slotOf s.h.id))

/-- Accumulator `z` of the hart's core. -/
def State.accum (s : State) (z : BitVec 2) : Accum := (s.core s.myCore).z[z.toNat]'z.isLt

/-- Replaces accumulator `z` of the hart's core. -/
def State.setAccum (s : State) (z : BitVec 2) (a : Accum) : State :=
  s.setCore s.myCore { s.core s.myCore with z := (s.core s.myCore).z.set z.toNat a z.isLt }

/-- Failing words of which `p` says that they have been written whole are good. -/
def Hart.mend (h : Hart) (p : Nat × Nat → Bool) : Hart := if h.bad = [] then h else { h with bad := h.bad.filter fun b => !p b }

/-- The hart that moves takes an edge as its CPTAG, which is written whole (R297, R383). -/
def State.setCptag (s : State) (edge : Word) : State :=
  { s with h := { s.h with cptag := edge }.mend fun b => b == (1, 64 + 0x22) }

/-! ### ESTATUS fields (Table 20-2) -/

/-- ESTATUS.PART -/
def Hart.part (h : Hart) : Bool := h.estatus.getLsbD 5
/-- ESTATUS.REPLAY -/
def Hart.replay (h : Hart) : Bool := h.estatus.getLsbD 6
/-- ESTATUS.FRAISED -/
def Hart.fraised (h : Hart) : BitVec 9 := h.estatus.extractLsb' 7 9
/-- ESTATUS.DEPADV -/
def Hart.depadv (h : Hart) : Bool := h.estatus.getLsbD 16
/-- ESTATUS.WOVT -/
def Hart.wovt (h : Hart) : Bool := h.estatus.getLsbD 17
/-- ESTATUS.PM -/
def Hart.pm (h : Hart) : Bool := h.estatus.getLsbD 18

/-- The code of a level (R328). -/
def Level.code : Level → Nat
  | .user => 0
  | .supervisor => 1
  | .firmware => 2

/-- The level of an ESTATUS.PLV code; code 3 is reserved and never stored (R33). -/
def Level.ofCode (n : Nat) : Level := if n = 0 then .user else if n = 1 then .supervisor else .firmware

/-! ### Spans and element groups -/

/-- Element width in bytes of a VTYPE (Table 1-5). -/
def ewbOf (vt : Word) : Nat := 2 ^ fld vt 0 2
/-- Registers in a group of a VTYPE (Table 1-5). -/
def groupOf (vt : Word) : Nat := 2 ^ fld vt 3 2

/-- SPAN under a GRANT and a VTYPE (R19). -/
def spanOf (grant : Nat) (vt : Word) : Nat := min 8192 (grant * (4096 / ewbOf vt) * groupOf vt / 128)

/-- Whether a value is a legal VTYPE (R18). -/
def legalVtype (vt : Word) : Bool :=
  !vt.getLsbD 2 && !vt.getLsbD 5 && (!vt.getLsbD 7 || decide (fld vt 0 3 = 1)) && decide (fld vt 8 56 = 0)

/-- Elements in one element group: GRANT x 8 / EWB (R23); at least 1. -/
def Hart.groupElems (h : Hart) : Nat := max 1 (h.grant.toNat * 8 / ewbOf h.vtype)

/-! ### Atolls (R342, R343) -/

/-- The first island of the atoll that island `i` names. -/
def State.atollFirst (s : State) (i : BitVec 3) : Nat := fld (s.island i).atoll 2 3
/-- The number of islands of that atoll. -/
def State.atollSize (s : State) (i : BitVec 3) : Nat := 2 ^ fld (s.island i).atoll 0 2
/-- Whether island number `j` lies in the atoll of island `i`, the requester's register deciding (log 12). -/
def State.inAtoll (s : State) (i : BitVec 3) (j : Nat) : Bool :=
  decide (s.atollFirst i ≤ j) && decide (j < s.atollFirst i + s.atollSize i)

/-! ### Translation (18 R331 to R343) -/

/-- On whose behalf an access is made: address space, level, and the core whose windows and island count. -/
structure Who where
  ptbr : Word
  lvl : Level
  core : BitVec 10
  deriving DecidableEq, Repr

/-- The hart that moves, as the maker of an access. -/
def State.who (s : State) : Who := ⟨s.h.ptbr, s.h.lvl, s.myCore⟩

/-- Kinds of access (Table 18-6). -/
inductive AccKind where
  | read
  | write
  | atomic
  | fetch
  deriving DecidableEq, Repr

/-- What stops an access: the trap cause and EADDR. -/
structure Flt where
  cause : Nat
  eaddr : Word
  deriving DecidableEq, Repr

/-- Where an access lands: the key of its first byte, the island that serves it, whether it was translated, whether its page
is of signal type, and the leaf used. -/
structure Place where
  key : Nat
  isl : BitVec 3
  translated : Bool
  signal : Bool
  leaf : Option TlbEntry
  deriving DecidableEq, Repr

/-- The page-fault cause of an access kind (R337). -/
def AccKind.pageFault : AccKind → Nat
  | .read => 0x07
  | .write => 0x08
  | .atomic => 0x08
  | .fetch => 0x09

/-- The result of a walk: a leaf, a fault of the page-fault kind, an access violation, or a failing PTE word. -/
inductive Walk where
  | leaf (e : TlbEntry)
  | fault
  | violation
  | failing (key : Nat)
  deriving DecidableEq, Repr

/-- The frame address of a frame code (R334, Table 18-5). -/
def frameAddr (f : Nat) : Nat :=
  if f / 2 ^ 29 = 0 then f * 0x1000
  else if f / 2 ^ 29 = 1 then 0x7E0000000000 + f % 2 ^ 29 * 0x1000
  else 0x800000000000 + f % 2 ^ 30 * 0x1000

/-- Whether physical address `pa` can be reached by a requester of island `i`: populated, not in a host-line cache (R38, R47). -/
def State.reachable (s : State) (pa : Nat) : Bool :=
  populated pa &&
    !(decide (0x7F0000000000 ≤ pa) && decide (pa < 0x7F0020000000) &&
      decide (0x4000000 - fld (s.island (BitVec.ofNat 3 ((pa - 0x7F0000000000) / 0x4000000))).hlcache 0 4 * 0x400000 ≤
        (pa - 0x7F0000000000) % 0x4000000))

/-- Whether a PTE read at level `l` is a leaf whose fields are those of a page of size code `sz` (R334, R335, R336). -/
def leafOf (l sz pte : Nat) : Bool :=
  decide (pte % 2 = 1) && decide (bits pte 48 16 = 0) && decide (bits pte 12 2 ≠ 3) && decide (bits pte 1 3 ≠ 0) &&
    decide (bits pte 8 4 = sz) && decide (l < 2) && decide (frameAddr (bits pte 17 31) % 2 ^ (12 + sz) = 0)

/-- The PTE that a translation uses for a page whose entry `pte` it has read at `index` of the table at `table`: any leaf of the
page's group (R335). -/
def State.replicaOf (s : State) (l table index pte va : Nat) : Nat :=
  let sz := bits pte 8 4
  let n := 2 ^ (sz - 9 * l)
  if n = 1 then pte
  else
    let pa := table + 8 * (index / n * n + Config.replica s.ticks (va / 2 ^ (12 + sz)) % n)
    let q := Memory.read s.mem pa 8
    if leafOf l sz q && !s.badMem.contains (pa / 8) then q else pte

/-- Walks from level `l` through the table at `table` (R332, R335, R336). `i` is the requesting island. A table that lies at no
populated address is an access violation, that of PTBR too (R38; DESIGN CHOICE for PTBR, log 63). -/
def State.walk (s : State) (i : BitVec 3) (asid : BitVec 12) (va : Nat) : Nat → Nat → Walk
  | l, table =>
    let index := if l = 3 then bits va 39 13 else bits va (12 + 9 * l) 9
    let pa := table + 8 * index
    if (match ownerOf pa with | some o => !s.inAtoll i o | none => false) then .fault
    else if !s.reachable pa then .violation
    else if s.badMem.contains (pa / 8) then .failing pa
    else
      let pte := Memory.read s.mem pa 8
      if pte % 2 = 0 then .fault
      else if bits pte 48 16 ≠ 0 then .fault
      else if bits pte 12 2 = 3 then .fault
      else if bits pte 1 3 = 0 then
        -- a pointer: its other fields besides V must be 0
        if bits pte 1 16 ≠ 0 then .fault
        else match l with
          | 0 => .fault
          | l' + 1 => s.walk i asid va l' (frameAddr (bits pte 17 31))
      else
        let sz := bits pte 8 4
        if 2 ≤ l then .fault
        else if (l = 0 ∧ 8 < sz) ∨ (l = 1 ∧ sz < 9) then .fault
        else if frameAddr (bits pte 17 31) % 2 ^ (12 + sz) ≠ 0 then .fault
        else .leaf ⟨asid, va / 2 ^ (12 + sz) * 2 ^ (12 + sz), 12 + sz, BitVec.ofNat 64 (s.replicaOf l table index pte va)⟩

/-- Whether a cached leaf serves an address (R339). -/
def TlbEntry.serves (e : TlbEntry) (asid : BitVec 12) (va : Nat) : Bool :=
  (e.asid == asid || e.pte.getLsbD 5) && decide (e.base ≤ va) && decide (va < e.base + 2 ^ e.log2)

/-- The error summary of a failing memory word (Table 22-2): structure, island and virtual address. A host line that the island's
host-line cache holds fails there (Table 22-1). -/
def State.memSummary (s : State) (key : Nat) (isl : BitVec 3) (va : Nat) : Word :=
  let src := if 2 ^ 48 ≤ key then 6
    else if 0x800000000000 ≤ key then (if (s.island isl).lines.contains (key / 64) then 8 else 12)
    else if 0x7F0000000000 ≤ key then 8 else if 0x7E0000000000 ≤ key then 7 else 9
  BitVec.ofNat 64 (src * 2 ^ 56 + isl.toNat * 2 ^ 53 + va / 8 * 8 % 2 ^ 52)

/-- The island of a page table's word at a key: the one that owns it, or for host memory that of the requesting core `c`. -/
def tableIsland (c : BitVec 10) (key : Nat) : BitVec 3 :=
  match ownerOf key with
  | some o => BitVec.ofNat 3 o
  | none => islandOf c

/-- The leaf for an address: a cached one, else a walk (R339, R340). -/
def State.leafFor (s : State) (w : Who) (va : Nat) : Walk :=
  let asid := BitVec.ofNat 12 (fld w.ptbr 52 12)
  match ((s.core w.core).tlb ++ (s.cluster (clusterOf w.core)).tlb).find? (fun e => e.serves asid va) with
  | some e => .leaf e
  | none => s.walk (islandOf w.core) asid va 3 (fld w.ptbr 16 32 * 0x10000)

/-- Checks a translated access against its leaf, in the order of Table 18-6 (R337). `dev` says whether the access may reach a
device page. A page of up to 128 MiB may span the scratchpads or island SRAMs of several islands; HOME is compared with the owner
of the address accessed, not of the frame (R39; DESIGN CHOICE, log 54). Table 18-6 has no row for an unpopulated frame (R38): it comes
behind the rows of the leaf's bits and before HOME (DESIGN CHOICE, log 63). -/
def State.checkLeaf (s : State) (w : Who) (k : AccKind) (dev : Bool) (va : Word) (e : TlbEntry) : Except Flt Place :=
  let pte := e.pte
  let page : Except Flt Place := .error ⟨k.pageFault, va⟩
  let viol : Except Flt Place := .error ⟨0x0A, va⟩
  let home : BitVec 3 := BitVec.ofNat 3 (fld pte 14 3)
  let pa := frameAddr (fld pte 17 31) + va.toNat % 2 ^ e.log2
  if !pte.getLsbD 6 then page
  else if (w.lvl == .user && !pte.getLsbD 4) || (k == .fetch && w.lvl != .user && pte.getLsbD 4) then page
  else if k == .fetch && !pte.getLsbD 3 then viol
  else if (k == .read && !pte.getLsbD 1) || (k == .write && !pte.getLsbD 2) ||
      (k == .atomic && !(pte.getLsbD 1 && pte.getLsbD 2)) then page
  else if (k == .write || k == .atomic) && !pte.getLsbD 7 then page
  else if !s.reachable pa then viol
  else if (match ownerOf pa with | some o => o != home.toNat | none => false) then viol
  else if !s.inAtoll (islandOf w.core) home.toNat then viol
  else if fld pte 12 2 = 2 ∧ !dev then viol
  else .ok ⟨pa, home, true, decide (fld pte 12 2 = 1), some e⟩

/-- Translates and checks an access at `va` (R35 to R39, R337). -/
def State.translate (s : State) (w : Who) (k : AccKind) (dev : Bool) (va : Word) : Except Flt Place :=
  let a := va.toNat
  let c := w.core
  if 2 ^ 52 ≤ a then .error ⟨0x0A, va⟩
  else if 0x000FFFFE00000000 ≤ a then
    if k == .fetch then .error ⟨0x0A, va⟩
    else if a < 0x000FFFFE00400000 then
      .ok ⟨scratchKey (clusterOf c).toNat (a - 0x000FFFFE00000000), islandOf c, false, false, none⟩
    else if 0x000FFFFF00000000 ≤ a ∧ a < 0x000FFFFF00040000 then
      .ok ⟨tcmKey c.toNat (a - 0x000FFFFF00000000), islandOf c, false, false, none⟩
    else .error ⟨0x0A, va⟩
  else if !w.ptbr.getLsbD 0 then .error ⟨k.pageFault, va⟩
  else match s.leafFor w a with
    | .fault => .error ⟨k.pageFault, va⟩
    | .violation => .error ⟨0x0A, va⟩
    | .failing key => .error ⟨0x13, s.memSummary key (tableIsland c key) a⟩
    | .leaf e => s.checkLeaf w k dev va e

/-! ### Accesses -/

/-- Puts a leaf into a TLB of at most `n` entries, the newest first (R339); one already there is left. -/
def tlbFill (n : Nat) (t : List TlbEntry) (e : TlbEntry) : List TlbEntry :=
  if t.contains e then t else (e :: t).take n

/-- Whether an access for core `c` has to wait: it reaches, through a translated address, the scratchpad of another cluster
that is frozen (R389). -/
def State.heldOff (s : State) (c : BitVec 10) (p : Place) : Bool :=
  let o := p.key - 0x7E0000000000
  let cl : BitVec 6 := BitVec.ofNat 6 (o / 0x2000000 * 8 + o % 0x2000000 / 0x400000)
  p.translated && decide (0x7E0000000000 ≤ p.key) && decide (p.key < 0x7E0010000000) && cl != clusterOf c &&
    (s.cluster cl).freeze == .frozen

/-- The host lines a cache of HLCACHE units holds after line `x` was used: one in excess displaces another, which one is free
(R47, log 7). `n` is the number of the step. -/
def cacheLine (hlcache : Word) (n x : Nat) (lines : List Nat) : List Nat :=
  if lines.contains x then lines
  else if lines.length < fld hlcache 0 4 * 0x10000 then insertNat x lines
  else insertNat x (lines.eraseIdx (Config.victim n % lines.length))

/-- A translation uses a mapping of a signal page: where no mapping of its frame was in use the page is mapped afresh, and every
tag of the frame is 0 (R300, log 34). -/
def State.mapSignal (s : State) (w : Who) (e : TlbEntry) : State :=
  let m : SignalMap := ⟨islandOf w.core, w.ptbr, e.base, frameAddr (fld e.pte 17 31), e.log2⟩
  if s.signalMaps.contains m then s
  else
    let fresh := !(s.signalMaps.any fun x => decide (x.frame < m.frame + 2 ^ m.log2) && decide (m.frame < x.frame + 2 ^ x.log2))
    { s with
      signalMaps := m :: s.signalMaps
      tags := if fresh then s.tags.filter fun t => !(decide (m.frame / 8 ≤ t.1) && decide (t.1 < (m.frame + 2 ^ m.log2) / 8))
        else s.tags }

/-- An access that has to wait says so (R389). -/
def State.holdAccess (s : State) (c : BitVec 10) (p : Place) : State := if s.heldOff c p then { s with stall := true } else s

/-- The TLB entry that an access leaves (R339), and the mapping of a signal page (R300). -/
def State.fillTlb (s : State) (w : Who) (p : Place) : State :=
  match p.leaf with
  | none => s
  | some e =>
    let s := s.setCore w.core { s.core w.core with tlb := tlbFill 64 (s.core w.core).tlb e }
    let cl := clusterOf w.core
    let s := s.setCluster cl { s.cluster cl with tlb := tlbFill 2048 (s.cluster cl).tlb e }
    if p.signal then s.mapSignal w e else s

/-- The host line that an access leaves (R47) and the bytes that it counts (R309). -/
def State.countTraffic (s : State) (c : BitVec 10) (p : Place) (rd wr : Nat) : State :=
  if !p.translated then s
  else
    let i := s.island p.isl
    let j := (islandOf c).toNat
    let hj : j < 8 := (islandOf c).isLt
    let host := decide (0x800000000000 ≤ p.key)
    if host && fld i.hlcache 0 4 == 0 then s
    else
      s.setIsland p.isl { i with
        rd := i.rd.set j (i.rd[j] + BitVec.ofNat 64 rd) hj
        wr := i.wr.set j (i.wr[j] + BitVec.ofNat 64 wr) hj
        lines := if host then cacheLine i.hlcache s.ticks (p.key / 64) i.lines else i.lines }

/-- What an access leaves besides its bytes; `rd` and `wr` are the bytes counted. -/
def State.account (s : State) (w : Who) (p : Place) (rd wr : Nat) : State :=
  ((s.holdAccess w.core p).fillTlb w p).countTraffic w.core p rd wr

/-- Whether an access of a kind to `n` bytes at `va` hits the watch of the hart's cluster (R388): the watched address. -/
def State.watchHit (s : State) (k : AccKind) (va : Word) (n : Nat) : Option Word :=
  let w := (s.cluster s.myCluster).dbgwp
  let a := fld w 3 49 * 8
  if w.getLsbD 0 && fld w 52 12 == fld s.h.ptbr 52 12 && decide (va.toNat < a + 8) && decide (a < va.toNat + n) &&
      (fld w 1 2 == 2 || (fld w 1 2 == 0 && (k == .read || k == .atomic)) || (fld w 1 2 == 1 && (k == .write || k == .atomic)))
  then some (BitVec.ofNat 64 a) else none

/-- Notes a watch hit of the hart that moves (R388). -/
def State.noteWatch (s : State) (k : AccKind) (va : Word) (n : Nat) : State :=
  match s.watchHit k va n with
  | none => s
  | some a => { s with h := { s.h with watch := some a } }

/-- The words of `[key, key + n)` that fail their check (R383), lowest first. -/
def State.badIn (s : State) (key n : Nat) : List Nat :=
  s.badMem.filter (fun w => decide (key / 8 ≤ w) && decide (w * 8 < key + n))

/-- Whether a word of `[key, key + n)` fails its check. -/
def State.failing (s : State) (key n : Nat) : Bool := !(s.badIn key n).isEmpty

/-- The machine check of an access that consumes failing words (R384, Table 22-2). -/
def State.memFlt (s : State) (p : Place) (va n : Nat) : Flt :=
  match s.badIn p.key n with
  | [] => ⟨0x13, s.memSummary p.key p.isl va⟩
  | w :: ws => ⟨0x13, s.memSummary (w * 8) p.isl (va + w * 8 - p.key) + BitVec.ofNat 64 ((!ws.isEmpty).toNat * 2 ^ 52)⟩

/-- The tag of the word at a key (R300). -/
def State.tagAt (s : State) (key : Nat) : BitVec 48 := SMap.get 0 s.tags (key / 8)

/-- Whether a word meets a condition of WAITA (R317). -/
def condHolds (cond : BitVec 2) (w y : Word) : Bool :=
  if cond = 0 then w == y else if cond = 1 then w != y else if cond = 2 then y.sle w else y.ule w

/-- Whether a word has reached a target (R312). -/
def reached (x target : Word) : Bool := decide ((x - target).toNat < 2 ^ 63)

/-- Whether a word is what it is waited for (R312, R317). -/
def Until.holds (x : Word) : Until → Bool
  | .meets cond y => condHolds cond x y
  | .reaches target => reached x target

/-- A watched word after a write: the first value that is what it is waited for ends the wait, whatever is written then (R312, R317,
Table 15-4). `m` is memory after the write, `tag` the word's tag, `n` the number of the step. -/
def Watch.see (m : Memory) (tag : BitVec 48) (n : Nat) (w : Watch) : Watch :=
  let x := BitVec.ofNat 64 (Memory.read m w.key 8)
  if w.hit.isNone && w.until_.holds x then { w with hit := some (x, tag, n) } else w

/-- Stores bytes: a store that replaces all 8 bytes of a failing word makes it good (R383), a word written is no longer one that a
copy's completion was the last to write (R318), and those who watch it see it (R312, R317). -/
def State.poke (s : State) (key n x : Nat) : State :=
  let mem := Memory.write s.mem key n x
  { s with
    mem := mem
    badMem := if s.badMem = [] then [] else s.badMem.filter (fun w => !(decide (key ≤ w * 8) && decide (w * 8 + 8 ≤ key + n)))
    dones := if s.dones = [] then [] else s.dones.filter (fun w => !(decide (key / 8 ≤ w.1) && decide (w.1 * 8 < key + n)))
    watches := if s.watches = [] then [] else s.watches.map fun w =>
      if w.key < key + n ∧ key < w.key + 8 then w.see mem (s.tagAt w.key) s.ticks else w }

/-- A read of `n` bytes within one aligned 8-byte word, or of whole words of one page: the number read. -/
def State.loadAs (s : State) (w : Who) (dev : Bool) (va : Word) (n : Nat) : Except Flt (Nat × State) :=
  match s.translate w .read dev va with
  | .error f => .error f
  | .ok p =>
    if s.failing p.key n then .error (s.memFlt p va.toNat n)
    else .ok (Memory.read s.mem p.key n, s.account w p n 0)

/-- A write of `n` bytes. -/
def State.storeAs (s : State) (w : Who) (dev : Bool) (va : Word) (n x : Nat) : Except Flt State :=
  match s.translate w .write dev va with
  | .error f => .error f
  | .ok p =>
    if decide (n < 8) && s.failing p.key n then .error (s.memFlt p va.toNat n)
    else .ok ((s.account w p 0 n).poke p.key n x)

/-- A read by the hart that moves, which a watch sees. -/
def State.load (s : State) (dev : Bool) (va : Word) (n : Nat) : Except Flt (Nat × State) :=
  match s.loadAs s.who dev va n with
  | .error f => .error f
  | .ok (x, t) => .ok (x, t.noteWatch .read va n)

/-- A write by the hart that moves, which a watch sees. -/
def State.store (s : State) (dev : Bool) (va : Word) (n x : Nat) : Except Flt State :=
  match s.storeAs s.who dev va n x with
  | .error f => .error f
  | .ok t => .ok (t.noteWatch .write va n)

/-- Reads `m` successive 8-byte words from `va`. -/
def State.loadWords (s : State) (w : Who) (va : Word) : Nat → Except Flt (List Word × State)
  | 0 => .ok ([], s)
  | m + 1 =>
    match s.loadAs w true va 8 with
    | .error f => .error f
    | .ok (x, t) =>
      match State.loadWords t w (va + 8) m with
      | .error f => .error f
      | .ok (xs, t) => .ok (BitVec.ofNat 64 x :: xs, t)

/-- An atomic read-modify-write of `n` bytes: the old value, and the new one stored when there is one (R256). A missing
permission or translation is a store page fault. -/
def State.rmw (s : State) (va : Word) (n : Nat) (f : Nat → Option Nat) : Except Flt (Nat × Place × State) :=
  match s.translate s.who .atomic false va with
  | .error e => .error e
  | .ok p =>
    if s.failing p.key n then .error (s.memFlt p va.toNat n)
    else
      let old := Memory.read s.mem p.key n
      let t := (s.account s.who p n n).noteWatch .atomic va n
      .ok (old, p, match f old with | none => t | some x => t.poke p.key n x)

/-! ### Signal tags (R300, Table 16-2) -/

/-- A producer's tag: kind, ID bits [13:0], and its latest edge. -/
def mkTag (kind pid : Nat) (edge : Word) : BitVec 48 :=
  BitVec.ofNat 48 (kind * 2 ^ 45 + pid % 2 ^ 14 * 2 ^ 31 + fld edge 61 3 * 2 ^ 28 + fld edge 0 28)

/-- A WAITA that has seen a write of this step takes the tag that comes with it (R301). -/
def Watch.tagged (key n : Nat) (t : BitVec 48) (w : Watch) : Watch :=
  match w.hit with
  | some (x, _, m) => if w.key / 8 = key / 8 ∧ m = n then { w with hit := some (x, t, m) } else w
  | none => w

/-- Sets the tag of the word at a place of a signal page, which comes with the write just made (R300, R301). -/
def State.setTag (s : State) (p : Place) (t : BitVec 48) : State :=
  if p.signal then { s with
    tags := SMap.set 0 s.tags (p.key / 8) t
    watches := s.watches.map (Watch.tagged p.key s.ticks t) }
  else s

/-- The tag of the hart that moves. -/
def State.hartTag (s : State) : BitVec 48 := mkTag 1 s.h.id.toNat s.h.cptag

/-! ### Taking an exception (20 R358 to R364) -/

/-- A trap to take: the cause, EIX and EADDR of Table 20-1; whether the instruction is part-way; the classes its completed
part raised; REPLAY and FRQOV; and TSEQ for a tile instruction that is part-way (0 otherwise). -/
structure Trap where
  cause : Nat
  eix : Nat := 0
  eaddr : Word := 0
  part : Bool := false
  raised : BitVec 9 := 0
  replay : Bool := false
  frqov : Bool := false
  tseq : Word := 0
  deriving DecidableEq, Repr

/-- A trap before any effect (R63). -/
def Trap.pre (cause : Nat) (eaddr : Word) : Trap := { cause, eaddr }

/-- The level a trap enters (R328, R359): supervisor, but firmware from firmware and for an ECALL of a supervisor. -/
def trapLevel (lvl : Level) (cause : Nat) : Level :=
  if lvl = .firmware ∨ (lvl = .supervisor ∧ cause = 0x11) then .firmware else .supervisor

/-- ESTATUS at trap entry (R360, Table 20-2): WOVT and DEPADV are kept, PM is set. -/
def trapEstatus (old : Word) (lvl : Level) (part replay frqov : Bool) (raised : BitVec 9) : Word :=
  BitVec.ofNat 64 (lvl.code + part.toNat * 2 ^ 5 + replay.toNat * 2 ^ 6 + raised.toNat * 2 ^ 7 + fld old 16 2 * 2 ^ 16 +
    2 ^ 18 + frqov.toNat * 2 ^ 19)

/-- Slot `j` of ECONV for a convoy member at `pc` that goes on at element `start` (Table 20-3). -/
def econvSlot (epc pc : Word) (start group : Nat) : Nat :=
  2 ^ 15 + start / group % 64 * 2 ^ 9 + (pc - epc).toNat / 2 % 512

/-- A point at which an instruction goes on, of which nothing more is known. -/
def Resume.at (pc : Word) (at_ : Nat) : Resume := { pc, at_, prior := 0, own := false, begun := none }

/-- ECONV for convoy members, the first at EPC. -/
def econvOf (epc : Word) (group : Nat) : List Resume → Nat
  | [] => 0
  | r :: rs => econvSlot epc r.pc r.at_ group + econvOf epc group rs * 2 ^ 16

/-- An address as a PC: bit 0 is always 0 (R50). -/
def evenPc (x : Word) : Word := x &&& ~~~(1 : Word)

/-- What a producer named by `p` has still to write to register `r` is there: the register is full. -/
def Hart.deliver (h : Hart) (p : Producer → Bool) (r : Nat) : Hart :=
  match h.full[r]? with
  | some (.empty x) =>
    if p x.by_ then { h with full := h.full.setIfInBounds r .full, v := h.v.setIfInBounds r x.img } else h
  | _ => h

/-- A pending producer other than a stream delivery completes before the trap (R30). -/
def Hart.settle (h : Hart) (r : Nat) : Hart := h.deliver (· == .pipe) r

/-- Every pending producer other than a stream delivery completes (R30). -/
def Hart.settleAll (h : Hart) : Hart :=
  if h.full = Vector.replicate 32 .full then h else (List.range 32).foldl Hart.settle h

/-- Whether the instruction at the PC is one that goes on after ERET. -/
def Hart.resuming (h : Hart) : Bool :=
  match h.resume with
  | [] => false
  | r :: _ => decide (r.pc = h.pc) && !r.own

/-- The interrupted instructions that lie behind the one at the PC (R364). -/
def Hart.behind (h : Hart) : List Resume := h.resume.filter fun r => r.pc != h.pc

/-- Whether the instruction at the PC is a member of a convoy that goes on after ERET, its head. -/
def Hart.heads (h : Hart) : Bool := h.resuming && ((h.resume.head?).map (·.member)).getD false

/-- The longest part of the members `rs`, behind one that has completed `c` element groups, that a trap may record: each stands at
the end of an element group, no further than the member before it and no more than two behind (R363, R419). -/
def recordable (group : Nat) : Nat → List Resume → List Resume
  | _, [] => []
  | c, r :: rs =>
    if r.at_ % group = 0 ∧ r.at_ / group ≤ c ∧ c ≤ r.at_ / group + 2 then r :: recordable group (r.at_ / group) rs else []

/-- The members that a trap records in ECONV: those behind a convoy's head that stops at a position, but for a machine check, which
does not resume (R363, R386), and for a trap that Table 20-1 gives EIX 0 after the instruction before it has completed. What the
bounds of R419 do not let it record the part holds by itself (log 53). -/
def Hart.convoy (h : Hart) (t : Trap) : List Resume :=
  if h.heads && !([0x13, 0x14, 0x15, 0x16] : List Nat).contains t.cause then
    (recordable h.groupElems (t.eix / h.groupElems) (h.behind.filter (·.member))).take 3
  else []

/-- The point of the instruction at the PC where the saved registers do not hold all of it: what LVD held when a compact form issued
(R58), and that a TSYNC, CHWAIT, WAITA or QPOP has waited (R297). -/
def Hart.unsaved (h : Hart) : List Resume :=
  h.resume.filter fun r => r.pc == h.pc && (r.lvd.isSome || (r.own && r.at_ == 0))

/-- The points that a trap's registers do not record (log 53): ECONV holds of a member its address and element group alone. -/
def Hart.unrecorded (h : Hart) (t : Trap) : List Resume :=
  (if t.cause = 0x13 then []
    else if ([0x14, 0x15, 0x16] : List Nat).contains t.cause then h.resume.filter (!·.own)
    else h.unsaved ++ h.behind.filter fun r => r.lvd.isSome || r.prior != 0 || !(h.convoy t).contains r).map
    fun r => { r with begun := none }

/-- The fields of ESTATUS that say where a return goes on: PLV, PART, REPLAY, FRAISED and CMEM (R373). -/
def returnBits (x : Word) : Word := x &&& 0x30FFE3

/-- What the part holds once a trap has written the registers of `h` (log 53): the points and the watch hit given, where there is
something to hold. What earlier traps at that place have left is no more. -/
def Hart.shelve (h : Hart) (points : List Resume) (watch : Option Word) (mid : Bool) (old : List Shelf) : List Shelf :=
  let x : Shelf := ⟨h.epc, h.eix, h.econv, h.tseq, returnBits h.estatus, points, watch, mid⟩
  let rest := (old.filter fun y => !((y.epc == x.epc || y.epc + 4 == x.epc) && fld y.status 0 2 == fld x.status 0 2)).take 15
  if points = [] ∧ watch = none then rest else x :: rest

/-- The watch hit of the hart whose trap is still due. -/
def Hart.hit (h : Hart) : Option Word := match h.watch with | some a => some a | none => h.watchHeld

/-- The registers that a trap saves, the level and the PC (R359, R360). -/
def Hart.saved (h : Hart) (t : Trap) : Hart :=
  let members := h.convoy t
  let into := trapLevel h.lvl t.cause
  { h.settleAll with
    epc := h.pc
    eix := BitVec.ofNat 64 t.eix
    ecause := BitVec.ofNat 64 t.cause
    eaddr := t.eaddr
    estatus := trapEstatus h.estatus h.lvl (t.part || !members.isEmpty) t.replay t.frqov t.raised
    econv := BitVec.ofNat 64 (if members = [] then 0 else econvOf h.pc h.groupElems (Resume.at h.pc t.eix :: members))
    tseq := t.tseq
    lvl := into
    pc := evenPc (if into = .firmware then h.fvec else h.tvec) }

/-- The CSRs that trap entry writes, as failing words of registers: EPC, EIX, ECAUSE, EADDR, ESTATUS, ECONV and TSEQ (R360). -/
def trapWords : List (Nat × Nat) := [0x400, 0x401, 0x402, 0x403, 0x404, 0x405, 0x40A].map fun c => (1, 64 + c)

/-- Trap entry of the hart that moves (R359, R360): every cause goes through here. An advisory that is due stays due when something comes
before it (DESIGN CHOICE, log 61). A failing word of a register that the entry writes whole is good (R383). -/
def State.enterTrap (s : State) (t : Trap) : State :=
  let h := s.h
  let g := h.saved t
  { s with trapped := true, h := { g with
      slot := .run
      vq := []
      credit := if h.vq = [] then h.credit else 0
      landAt := none
      branch := none
      watch := none
      watchHeld := none
      resume := []
      quota := none
      shelf := g.shelve (h.unrecorded t) h.hit (t.part || t.replay) h.shelf
      bad := (h.mend trapWords.contains).bad
      paused := false
      yielding := [] } }

/-- The physical address of the word that a machine check of a memory names, for Tabos's record (R384): none for a register and
for a TCM, which has none. -/
def State.failedAt (s : State) (summary : Word) : Option Nat :=
  if fld summary 56 8 < 7 ∨ 9 < fld summary 56 8 ∧ fld summary 56 8 ≠ 12 then none
  else
    let va : Word := BitVec.ofNat 64 (fld summary 0 52)
    match s.translate s.who .fetch true va, s.translate s.who .read true va, s.leafFor s.who va.toNat with
    | _, _, .failing key => some (key / 8 * 8)
    | .ok p, _, _ => some (p.key / 8 * 8)
    | _, .ok p, _ => some (p.key / 8 * 8)
    | _, _, _ => none

/-- Adds an entry to Tabos's log, which overwrites its oldest entries when it is full (R354). -/
def State.logTabos (s : State) (r : TabosRec) : State :=
  let log := s.tabos.log ++ [r]
  { s with tabos := { s.tabos with log := log.drop (log.length - max 1 Config.logRoom) } }

/-- Takes a trap. A machine check has EIX, PART and REPLAY 0 whatever the instruction had done, and Tabos logs its full record, the
syndrome as a free value (R384, log 7). -/
def State.takeTrap (s : State) (t : Trap) : State :=
  if t.cause = 0x13 then
    let r := TabosRec.machineCheck t.eaddr s.h.id s.clk (s.failedAt t.eaddr) s.takeFree.1
    (s.takeFree.2.logTabos r).enterTrap { cause := 0x13, eaddr := t.eaddr }
  else s.enterTrap t

/-- Ends an instruction in a trap. -/
def State.trap (s : State) (t : Trap) : Result := .next (s.takeTrap t)

/-- Whether the instruction at the PC is a TSYNC, CHWAIT, WAITA or QPOP that a pre-emption has interrupted in its wait (R297, R416). -/
def Hart.hasWaited (h : Hart) : Bool := h.resume.any fun r => r.pc == h.pc && r.own && r.at_ == 0 && r.lvd.isNone

/-- The position from which the instruction at the PC runs: 0, or what it has reached in a wait or where it was interrupted
(R361). -/
def Hart.start (h : Hart) : Nat :=
  match h.resume with
  | [] => 0
  | r :: _ => if r.pc = h.pc then r.at_ else 0

/-- The classes that count as already raised by the instruction at the PC (R117). -/
def Hart.prior (h : Hart) : BitVec 9 :=
  match h.resume with
  | [] => 0
  | r :: _ => if r.pc = h.pc then r.prior else 0

/-- TSEQ for the position of the instruction at the PC: where it has stopped, or what its return has found there (R194). -/
def Hart.tseqHere (h : Hart) : Word :=
  match h.resume with
  | [] => 0
  | r :: _ =>
    if r.pc ≠ h.pc then 0
    else if r.tseq ≠ 0 then r.tseq
    else if !r.own && h.tseq.getLsbD 63 then h.tseq else 0

/-- A trap before the instruction at the PC does anything more: one that is part-way keeps its position (R360, R361), and a replay
in progress stays one (R365). -/
def Hart.trapHere (h : Hart) (cause : Nat) (eaddr : Word) : Trap :=
  let on := h.resuming
  let tseq := h.tseqHere
  { cause, eix := h.start, eaddr, part := h.start != 0 || tseq != 0, raised := h.prior, replay := h.replay && on, tseq }

/-- A trap before any effect of the running instruction. -/
def State.trapPre (s : State) (cause : Nat) (eaddr : Word) : Result := s.trap (s.h.trapHere cause eaddr)

/-- The trap of an access fault before any effect. -/
def State.trapFlt (s : State) (f : Flt) : Result := s.trapPre f.cause f.eaddr

/-- The units after which a pending pre-emption stops the running instruction (R293, log 9). -/
def Hart.landing (h : Hart) : Option Nat := if h.preq && !h.pm then h.landAt else none

/-- The pre-emption of the hart that moves lands at the position given (R368). -/
def State.preempt (s : State) (t : Trap) : Result :=
  .next ({ s with h := { s.h with preq := false } }.takeTrap { t with cause := 0x12, eaddr := 0 })

/-- The first of some checks that fails, with its trap: (failed, cause, EADDR). -/
def firstFailing : List (Bool × Nat × Word) → Option (Nat × Word)
  | [] => none
  | (b, c) :: cs => if b then some c else firstFailing cs

/-- Runs `k` unless a check fails, which then traps before any effect (R63). -/
def State.check (s : State) (cs : List (Bool × Nat × Word)) (k : State → Result) : Result :=
  match firstFailing cs with
  | some (cause, eaddr) => s.trapPre cause eaddr
  | none => k s

/-- Puts the hart that moves into WAIT (R11). A wait that goes on keeps the cycle it began. -/
def State.enterWait (s : State) (w : Wait) : State :=
  match s.h.slot with
  | .wait w' since => if w' = w then s else { s with h := { s.h with slot := .wait w since } }
  | _ => { s with h := { s.h with slot := .wait w s.clk, lag := 0 } }

/-- A wait that a pre-emption has interrupted begins again when its instruction is issued again, even where its condition holds: the
record that ends it then stands in the chain as it would have without the interruption (R416, log 47). -/
def State.waitAgain (s : State) (w : Wait) : State := if s.h.hasWaited then s.enterWait w else s

/-- Ends a wait: the hart runs (R11). -/
def State.endWait (s : State) : State := { s with h := { s.h with slot := .run } }

/-- The hart that moves is back from a wait with `x` in gd, which is written whole (R383), and goes on behind an instruction of four
bytes. One that did not wait writes gd as any instruction does. -/
def State.comeBack (s : State) (d : BitVec 5) (x : Word) : State :=
  match s.h.slot with
  | .wait .. => { s with h := s.h.mend fun b => b == (1, d.toNat) }.endWait.setGAdv d x 4
  | _ => s.endWait.setGAdv d x 4

/-- The cycle at which the hart entered its wait. -/
def Hart.waitSince (h : Hart) : Option Nat :=
  match h.slot with
  | .wait _ since => some since
  | _ => none

/-- Whether WTMO has expired for the hart's wait (R12): cycles in which its cluster was frozen do not count (R389). -/
def State.timedOut (s : State) : Bool :=
  match s.h.slot with
  | .wait _ since => s.h.wtmo != 0 && decide (s.h.wtmo.toNat ≤ s.clk - since - s.h.lag)
  | _ => false

end Sys2Proof.Machine
end

