-- ==== Sys2Proof/Machine/Fp.lean ====
section
/-! DEFINITION. Floating point (07 R110 to R113, 09 R153 to R155, 11 R198): values, rounding, and the operations on bit
patterns. A finite value is an exact sign, number and power of two; an operation is exact up to a sticky bit and rounds once. -/

namespace Sys2Proof.Machine

/-- The formats of Table 7-2. -/
inductive Fmt where
  | f32
  | f16
  | bf16
  deriving DecidableEq, Repr

/-- Fraction bits. -/
def Fmt.frac : Fmt → Nat
  | .f32 => 23
  | .f16 => 10
  | .bf16 => 7

/-- Exponent bits. -/
def Fmt.ebits : Fmt → Nat
  | .f32 => 8
  | .f16 => 5
  | .bf16 => 8

/-- Width in bits. -/
def Fmt.width (f : Fmt) : Nat := 1 + f.ebits + f.frac

/-- Exponent bias. -/
def Fmt.bias (f : Fmt) : Nat := 2 ^ (f.ebits - 1) - 1

/-- The pattern of +infinity. -/
def Fmt.infBits (f : Fmt) : Nat := (2 ^ f.ebits - 1) * 2 ^ f.frac

/-- The default NaN (R111). -/
def Fmt.nan (f : Fmt) : Nat := f.infBits + 2 ^ (f.frac - 1)

/-- The sign bit. -/
def Fmt.signBit (f : Fmt) : Nat := 2 ^ (f.ebits + f.frac)

/-- Flag classes by bit of FST (Table 7-3). -/
abbrev Flags := BitVec 9

/-- invalid operation -/
def fNV : Flags := 1
/-- division by zero -/
def fDZ : Flags := 2
/-- overflow -/
def fOF : Flags := 4
/-- underflow -/
def fUF : Flags := 8
/-- inexact -/
def fNX : Flags := 16
/-- saturation -/
def fSAT : Flags := 32
/-- guard overflow -/
def fGOV : Flags := 64
/-- window overflow -/
def fWOV : Flags := 128
/-- window inexact -/
def fWIX : Flags := 256

/-- A value: NaN (signalling or not), infinity, or (-1)^neg * m * 2^e. -/
inductive FVal where
  | nan (signalling : Bool)
  | inf (neg : Bool)
  | fin (neg : Bool) (m : Nat) (e : Int)
  deriving DecidableEq, Repr

/-- Reads a bit pattern (R110). -/
def Fmt.unpack (f : Fmt) (x : Nat) : FVal :=
  let fr := x % 2 ^ f.frac
  let ex := x / 2 ^ f.frac % 2 ^ f.ebits
  let neg := x / f.signBit % 2 == 1
  if ex = 2 ^ f.ebits - 1 then
    if fr = 0 then .inf neg else .nan (fr < 2 ^ (f.frac - 1))
  else if ex = 0 then .fin neg fr (1 - (f.bias : Int) - f.frac)
  else .fin neg (2 ^ f.frac + fr) ((ex : Int) - f.bias - f.frac)

/-- Rounding modes (R113). -/
inductive RM where
  | rne
  | rtz
  | rdn
  | rup
  | rmm
  | rod
  deriving DecidableEq, Repr

/-- RMODE.FRM (Table 6-9). -/
def frmOf (rmode : Word) : RM :=
  match fld rmode 0 3 with
  | 0 => .rne
  | 1 => .rtz
  | 2 => .rdn
  | 3 => .rup
  | _ => .rmm

/-- RMODE.XRM (Table 6-9). -/
def xrmOf (rmode : Word) : RM :=
  match fld rmode 3 3 with
  | 0 => .rne
  | 1 => .rtz
  | 2 => .rdn
  | 3 => .rup
  | _ => .rod

/-- Whether a magnitude between grid points moves away from zero (R113): `odd` is the last bit of the truncated one, `gt` and
`tie` place the rest above or at half a step, `inexact` says there is a rest. -/
def RM.away (r : RM) (neg odd gt tie inexact : Bool) : Bool :=
  match r with
  | .rne => gt || (tie && odd)
  | .rtz => false
  | .rdn => neg && inexact
  | .rup => !neg && inexact
  | .rmm => gt || tie
  | .rod => inexact && !odd

/-- Rounds `m` (a sticky bit says the exact magnitude lies strictly between `m` and `m + 1`) to a multiple of 2^d: the
multiple and whether it is inexact. -/
def roundShift (r : RM) (neg : Bool) (m : Nat) (sticky : Bool) (d : Nat) : Nat × Bool :=
  let n := m >>> d
  let rest := m % 2 ^ d
  let half := 2 ^ d / 2
  let inexact := rest != 0 || sticky
  let gt := if d = 0 then false else decide (half < rest) || (rest == half && sticky)
  let tie := if d = 0 then false else rest == half && !sticky
  (if r.away neg (n % 2 == 1) gt tie inexact then n + 1 else n, inexact)

/-- Rounds an exact magnitude `m * 2^e` (with sticky) to a format (R31 RND, R113): the pattern and NX, OF, UF. -/
def Fmt.round (f : Fmt) (r : RM) (neg : Bool) (m : Nat) (e : Int) (sticky : Bool) : Nat × Flags :=
  let sgn := if neg then f.signBit else 0
  if m = 0 ∧ !sticky then (sgn, 0)
  else
    -- four more bits below, so that a sticky bit lies below half a step
    let m := m * 16
    let e := e - 4
    let top : Int := e + Nat.log2 m
    let emin : Int := 1 - (f.bias : Int)
    let q : Int := max (top - f.frac) (emin - f.frac)
    let rd (q : Int) : Nat × Bool :=
      if q ≤ e then (m <<< (e - q).toNat, sticky) else roundShift r neg m sticky (q - e).toNat
    let (n, inexact) := rd q
    let body := (q - (emin - f.frac)).toNat * 2 ^ f.frac + n
    if f.infBits ≤ body then
      let toInf := r.away neg true true false true
      (sgn + (if toInf then f.infBits else f.infBits - 1), fOF ||| fNX)
    else
      let tiny := decide (top < emin) &&
        !(decide (top = emin - 1) && (rd (top - f.frac)).1 == 2 ^ (f.frac + 1))
      (sgn + body, (if inexact then fNX else 0) ||| (if inexact && tiny then fUF else 0))

/-- Rounds an exact `m * 2^e` (with sticky) to an integer (R113): the integer and whether it is inexact. -/
def roundInt (r : RM) (neg : Bool) (m : Nat) (e : Int) (sticky : Bool) : Int × Bool :=
  let (n, x) := if 0 ≤ e then (m <<< e.toNat, sticky) else roundShift r neg m sticky (-e).toNat
  (if neg then -(n : Int) else n, x)

/-- A NaN result: the default NaN, with NV for a signalling operand. -/
def Fmt.nanOf (f : Fmt) (nv : Bool) : Nat × Flags := (f.nan, if nv then fNV else 0)

/-- Whether a value is a signalling NaN. -/
def FVal.isS : FVal → Bool
  | .nan s => s
  | _ => false

/-- Whether a value is a NaN. -/
def FVal.isNaN : FVal → Bool
  | .nan _ => true
  | _ => false

/-- Negation; a NaN stays. -/
def FVal.negate : FVal → FVal
  | .nan s => .nan s
  | .inf n => .inf !n
  | .fin n m e => .fin (!n) m e

/-- The pattern of an infinity. -/
def Fmt.inf (f : Fmt) (neg : Bool) : Nat := f.infBits + (if neg then f.signBit else 0)

/-- The pattern of a zero. -/
def Fmt.zero (f : Fmt) (neg : Bool) : Nat := if neg then f.signBit else 0

/-- The sum of two finite values, rounded once, with the zero rules of R153. -/
def Fmt.addFin (f : Fmt) (r : RM) (n1 : Bool) (m1 : Nat) (e1 : Int) (n2 : Bool) (m2 : Nat) (e2 : Int) : Nat × Flags :=
  if m1 = 0 ∧ m2 = 0 then
    (f.zero (if n1 == n2 then n1 else r == .rdn), 0)
  else
    let e := min e1 e2
    let a : Int := (m1 <<< (e1 - e).toNat : Nat)
    let b : Int := (m2 <<< (e2 - e).toNat : Nat)
    let t := (if n1 then -a else a) + (if n2 then -b else b)
    if t = 0 then (f.zero (r == .rdn), 0)
    else f.round r (t < 0) t.natAbs e false

/-- x + y (R111, R153). -/
def Fmt.addV (f : Fmt) (r : RM) : FVal → FVal → Nat × Flags
  | .nan a, y => f.nanOf (a || y.isS)
  | _, .nan b => f.nanOf b
  | .inf a, .inf b => if a == b then (f.inf a, 0) else (f.nan, fNV)
  | .inf a, _ => (f.inf a, 0)
  | _, .inf b => (f.inf b, 0)
  | .fin n1 m1 e1, .fin n2 m2 e2 => f.addFin r n1 m1 e1 n2 m2 e2

/-- x * y (R111, R153). -/
def Fmt.mulV (f : Fmt) (r : RM) : FVal → FVal → Nat × Flags
  | .nan a, y => f.nanOf (a || y.isS)
  | .inf _, .nan b => f.nanOf b
  | .fin _ _ _, .nan b => f.nanOf b
  | .inf a, .inf b => (f.inf (a != b), 0)
  | .inf a, .fin b m _ => if m = 0 then (f.nan, fNV) else (f.inf (a != b), 0)
  | .fin a m _, .inf b => if m = 0 then (f.nan, fNV) else (f.inf (a != b), 0)
  | .fin a m e, .fin b n d => f.round r (a != b) (m * n) (e + d) false

/-- x / y (R111, R153). -/
def Fmt.divV (f : Fmt) (r : RM) : FVal → FVal → Nat × Flags
  | .nan a, y => f.nanOf (a || y.isS)
  | .inf _, .nan b => f.nanOf b
  | .fin _ _ _, .nan b => f.nanOf b
  | .inf _, .inf _ => (f.nan, fNV)
  | .inf a, .fin b _ _ => (f.inf (a != b), 0)
  | .fin a _ _, .inf b => (f.zero (a != b), 0)
  | .fin a m e, .fin b n d =>
    if n = 0 then (if m = 0 then (f.nan, fNV) else (f.inf (a != b), fDZ))
    else if m = 0 then (f.zero (a != b), 0)
    else f.round r (a != b) (m <<< 96 / n) (e - 96 - d) (m <<< 96 % n != 0)

/-- x * y + z with one rounding (R93, R154). -/
def Fmt.fmaV (f : Fmt) (r : RM) (x y z : FVal) : Nat × Flags :=
  let nv := x.isS || y.isS || z.isS
  let infZero := match x, y with
    | .inf _, .fin _ m _ => m == 0
    | .fin _ m _, .inf _ => m == 0
    | _, _ => false
  if infZero then (f.nan, fNV)
  else if x.isNaN || y.isNaN || z.isNaN then f.nanOf nv
  else
    let p : FVal := match x, y with
      | .fin a m e, .fin b n d => .fin (a != b) (m * n) (e + d)
      | .fin a _ _, .inf b => .inf (a != b)
      | .inf a, .fin b _ _ => .inf (a != b)
      | .inf a, .inf b => .inf (a != b)
      | _, _ => .nan false
    f.addV r p z

/-- One step of the integer square root, bit by bit: `k` bits still to try. -/
def isqrtGo (x : Nat) : Nat → Nat → Nat
  | 0, y => y
  | k + 1, y => isqrtGo x k (if (y + 2 ^ k) * (y + 2 ^ k) ≤ x then y + 2 ^ k else y)

/-- The integer square root of a number below 2^(2k). -/
def isqrt (k x : Nat) : Nat := isqrtGo x k 0

/-- Square root (R111, R153). -/
def Fmt.sqrtV (f : Fmt) (r : RM) : FVal → Nat × Flags
  | .nan a => f.nanOf a
  | .inf a => if a then (f.nan, fNV) else (f.inf false, 0)
  | .fin a m e =>
    if m = 0 then (f.zero a, 0)
    else if a then (f.nan, fNV)
    else
      let odd : Nat := (e % 2).toNat
      let x := m <<< (120 + odd)
      let y := isqrt 80 x
      f.round r false y ((e - odd - 120) / 2) (y * y != x)

/-- 1 / x (R155, Table 9-7). -/
def Fmt.rcpV (f : Fmt) : FVal → Nat × Flags
  | .nan a => f.nanOf a
  | .inf a => (f.zero a, 0)
  | .fin a m e =>
    if m = 0 then (f.inf a, fDZ)
    else f.round .rne a (2 ^ 96 / m) (-96 - e) (2 ^ 96 % m != 0)

/-- 1 / sqrt x (R155, Table 9-7). -/
def Fmt.rsqV (f : Fmt) : FVal → Nat × Flags
  | .nan a => f.nanOf a
  | .inf a => if a then (f.nan, fNV) else (f.zero false, 0)
  | .fin a m e =>
    if m = 0 then (f.inf a, fDZ)
    else if a then (f.nan, fNV)
    else
      let odd : Nat := (e % 2).toNat
      let x := m <<< odd
      let y := isqrt 101 (2 ^ 200 / x)
      f.round .rne false y (-100 - (e - odd) / 2) (y * y * x != 2 ^ 200)

/-! ### Elementary functions (R155, R198): fixed point with enough bits that the rounded result is the correctly rounded one
(log 10). -/

/-- Fraction bits of the fixed-point numbers below. -/
def fixBits : Nat := 256

/-- The terms of exp after the `n`-th: `t` is the last term, `acc` the sum so far. -/
def expGo (x : Nat) : Nat → Nat → Nat → Nat → Nat
  | 0, _, _, acc => acc
  | k + 1, n, t, acc =>
    let t' := (t * x) >>> fixBits / n
    expGo x k (n + 1) t' (acc + t')

/-- exp x for 0 ≤ x < 1, in fixed point. -/
def expFix (x : Nat) : Nat := expGo x 66 1 (2 ^ fixBits) (2 ^ fixBits)

/-- ln 2 in fixed point. -/
def ln2Fix : Nat := 0xB17217F7D1CF79ABC9E3B39803F2F6AF40F343267298B62D8A0D175B8BAAFA2B

/-- 2^x (R155, Table 9-7). -/
def Fmt.exp2V (f : Fmt) : FVal → Nat × Flags
  | .nan a => f.nanOf a
  | .inf a => if a then (f.zero false, 0) else (f.inf false, 0)
  | .fin a m e =>
    if m = 0 then f.round .rne false 1 0 false
    else
      -- x * 2^fixBits, floored; whether x has bits below that
      let sh := e + fixBits
      let big := decide ((10 : Int) < e + Nat.log2 m)
      if big then
        (if a then f.round .rne false 1 (-100000) true else f.round .rne false 1 100000 false)
      else
        let mag := if 0 ≤ sh then m <<< sh.toNat else m >>> (-sh).toNat
        let lost := !(decide (0 ≤ sh)) && m % 2 ^ (-sh).toNat != 0
        let x : Int := if a then -(mag : Int) - (if lost then 1 else 0) else mag
        let i := x / (2 ^ fixBits : Nat)
        let fr := (x % (2 ^ fixBits : Nat)).toNat
        if fr = 0 ∧ !lost then f.round .rne false 1 i false
        else f.round .rne false (expFix ((fr * ln2Fix) >>> fixBits)) (i - fixBits) true

/-- exp x (R198), with the special values of 2^x. -/
def Fmt.expV (f : Fmt) : FVal → Nat × Flags
  | .nan a => f.nanOf a
  | .inf a => if a then (f.zero false, 0) else (f.inf false, 0)
  | .fin a m e =>
    if m = 0 then f.round .rne false 1 0 false
    else
      let sh := e + fixBits
      let big := decide ((10 : Int) < e + Nat.log2 m)
      if big then
        (if a then f.round .rne false 1 (-100000) true else f.round .rne false 1 100000 false)
      else
        let mag := if 0 ≤ sh then m <<< sh.toNat else m >>> (-sh).toNat
        let lost := !(decide (0 ≤ sh)) && m % 2 ^ (-sh).toNat != 0
        let x : Int := if a then -(mag : Int) - (if lost then 1 else 0) else mag
        let i := x / (ln2Fix : Int)
        let fr := (x % (ln2Fix : Int)).toNat
        f.round .rne false (expFix fr) (i - fixBits) true

/-- The next `k` binary digits of log2 y for 1 ≤ y < 2, by repeated squaring, `y` in fixed point. -/
def log2Go : Nat → Nat → Nat → Nat
  | 0, _, acc => acc
  | k + 1, y, acc =>
    let z := (y * y) >>> fixBits
    if 2 ^ (fixBits + 1) ≤ z then log2Go k (z >>> 1) (acc * 2 + 1) else log2Go k z (acc * 2)

/-- log2 x (R155, Table 9-7). -/
def Fmt.log2V (f : Fmt) : FVal → Nat × Flags
  | .nan a => f.nanOf a
  | .inf a => if a then (f.nan, fNV) else (f.inf false, 0)
  | .fin a m e =>
    if m = 0 then (f.inf true, fDZ)
    else if a then (f.nan, fNV)
    else
      let top := Nat.log2 m
      let i : Int := e + top
      if m = 2 ^ top then f.round .rne (i < 0) i.natAbs 0 false
      else
        let t : Int := i * (2 ^ 120 : Nat) + (log2Go 120 (m <<< (fixBits - top)) 0 : Nat)
        if 0 ≤ t then f.round .rne false t.toNat (-120) true
        else f.round .rne true (-(t + 1)).toNat (-120) true

/-! ### Comparisons, minimum and maximum -/

/-- x < y of two values that are not NaN; -0 equals +0. -/
def FVal.lt : FVal → FVal → Bool
  | .inf a, .inf b => a && !b
  | .inf a, _ => a
  | _, .inf b => !b
  | .fin a m e, .fin b n d =>
    let k := min e d
    let x : Int := (m <<< (e - k).toNat : Nat)
    let y : Int := (n <<< (d - k).toNat : Nat)
    decide ((if a then -x else x) < (if b then -y else y))
  | _, _ => false

/-- x = y of two values that are not NaN; -0 equals +0. -/
def FVal.eq (x y : FVal) : Bool := !x.lt y && !y.lt x && !x.isNaN && !y.isNaN

/-- The sign of a value. -/
def FVal.sign : FVal → Bool
  | .nan _ => false
  | .inf a => a
  | .fin a _ _ => a

/-- minimumNumber or maximumNumber of two patterns (R91): -0 orders below +0, one NaN operand gives the other. -/
def Fmt.minmax (f : Fmt) (isMax : Bool) (x y : Nat) : Nat × Flags :=
  let a := f.unpack x
  let b := f.unpack y
  let fl := if a.isS || b.isS then fNV else 0
  if a.isNaN && b.isNaN then (f.nan, fl)
  else if a.isNaN then (y, fl)
  else if b.isNaN then (x, fl)
  else
    let less := a.lt b || (a.eq b && a.sign && !b.sign)
    (if less != isMax then x else y, fl)

/-! ### Conversions (R92, R112) -/

/-- A float to an integer in [lo, hi]: the integer and its flags. -/
def FVal.toInt (v : FVal) (r : RM) (lo hi : Int) : Int × Flags :=
  match v with
  | .nan _ => (0, fNV)
  | .inf a => (if a then lo else hi, fNV)
  | .fin a m e =>
    let (n, inexact) := roundInt r a m e false
    if hi < n then (hi, fNV) else if n < lo then (lo, fNV) else (n, if inexact then fNX else 0)

/-- An integer to a float. -/
def Fmt.ofInt (f : Fmt) (r : RM) (x : Int) : Nat × Flags := f.round r (x < 0) x.natAbs 0 false

/-- One format to another, rounded (exact when widening), a NaN to the default NaN. -/
def Fmt.convert (src dst : Fmt) (r : RM) (x : Nat) : Nat × Flags :=
  match src.unpack x with
  | .nan s => dst.nanOf s
  | .inf a => (dst.inf a, 0)
  | .fin a m e => if m = 0 then (dst.zero a, 0) else dst.round r a m e false

/-- The FCLASS mask (Table 6-6). -/
def Fmt.classify (f : Fmt) (x : Nat) : Nat :=
  match f.unpack x with
  | .nan s => if s then 2 ^ 8 else 2 ^ 9
  | .inf a => if a then 2 ^ 0 else 2 ^ 7
  | .fin a m _ =>
    if m = 0 then (if a then 2 ^ 3 else 2 ^ 4)
    else if m < 2 ^ f.frac then (if a then 2 ^ 2 else 2 ^ 5)
    else (if a then 2 ^ 1 else 2 ^ 6)

end Sys2Proof.Machine
end

