-- ==== Sys2Proof/Machine/Flags.lean ====
section
/-! DEFINITION. The flag computations: FST and EVX0 to EVX8 (07 R114 to R117, 01 R31 FLAG). -/

namespace Sys2Proof.Machine

/-- The flags an instruction raised: (index, classes), in any order. -/
abbrev Raised := List (Nat × Flags)

/-- The lowest index that raised class `c`. -/
def Raised.lowest (fl : Raised) (c : Nat) : Option Nat :=
  match fl with
  | [] => none
  | (i, f) :: r =>
    match f.getLsbD c, Raised.lowest r c with
    | false, x => x
    | true, none => some i
    | true, some j => some (min i j)

/-- The classes raised. -/
def Raised.classes (fl : Raised) : Flags :=
  match fl with
  | [] => 0
  | (_, f) :: r => f ||| Raised.classes r

/-- EVXc with V set and the INDEX given (Table 7-4). -/
def evxOf (i : Nat) : Word := BitVec.ofNat 64 (2 ^ 63 + i % 2 ^ 13)

/-- EVXc after an instruction: unchanged when the class was not raised, else the lowest index. Where an earlier part of the same
instruction has raised the class, the index is the minimum with what stands there, and V stays (R31, R117). -/
def evxStep (fl : Raised) (prior : Flags) (c : Nat) (old : Word) : Word :=
  match fl.lowest c with
  | none => old
  | some i => if prior.getLsbD c then setFld old 0 13 (min i (fld old 0 13)) else evxOf i

/-- The classes that instructions behind the one at the PC have raised before it, as members of a resumed convoy. -/
def Hart.laterRaised (h : Hart) : Flags := h.resume.foldl (fun f r => if h.pc.toNat < r.pc.toNat then f ||| r.prior else f) 0

/-- FST and EVX after an instruction of which an earlier part raised `prior`. EVXc describes the latest instruction in program order
that has raised c: one behind it that has done so already keeps it (R115). -/
def Hart.raise (h : Hart) (prior : Flags) (fl : Raised) : Hart :=
  { h with
    fst := h.fst ||| fl.classes.setWidth 64
    evx := if fl.classes = 0 then h.evx
      else h.evx.mapIdx (fun c old => if h.laterRaised.getLsbD c then old else evxStep fl prior c old) }

/-- FST after a scalar floating-point instruction, which leaves EVX unchanged (R91). -/
def State.orFst (s : State) (f : Flags) : State := { s with h := { s.h with fst := s.h.fst ||| f.setWidth 64 } }

end Sys2Proof.Machine
end

