-- ==== Sys2Proof/Machine/Operands.lean ====
section
/-! DEFINITION. Operand forms: scalar immediates, vector groups and their elements, masks, and the common course of a vector
instruction (01 R17 to R31, 03 R53, R54, 09 R142 to R148). -/

namespace Sys2Proof.Machine

/-! ### Immediates -/

/-- A field as a signed 64-bit immediate (R53). -/
def immOf {n : Nat} (x : BitVec n) : Word := x.signExtend 64

/-- A field that counts halfwords, as a byte offset (R53). -/
def offOf {n : Nat} (x : BitVec n) : Word := x.signExtend 64 <<< 1

/-! ### Elements -/

/-- Element `i` of `w` bits of an image (R20). -/
def elem (w img i : Nat) : Nat := img >>> (w * i) % 2 ^ w

/-- The image whose elements of `w` bits are those of the list, element 0 lowest. -/
def packElems (w : Nat) : List Nat → Nat
  | [] => 0
  | x :: xs => x % 2 ^ w + packElems w xs <<< w

/-- Replaces the elements of `w` bits from index `start` by those of the list. -/
def putElems (w img start : Nat) (xs : List Nat) : Nat :=
  img % 2 ^ (w * start) + packElems w xs <<< (w * start) +
    (img >>> (w * (start + xs.length))) <<< (w * (start + xs.length))

/-- Element width in bits. -/
def Hart.ew (h : Hart) : Nat := 8 * ewbOf h.vtype
/-- Registers in a group. -/
def Hart.grp (h : Hart) : Nat := groupOf h.vtype
/-- VTYPE.IP -/
def Hart.ip (h : Hart) : Bool := h.vtype.getLsbD 6
/-- The float format of the current width (R145). -/
def Hart.fmt (h : Hart) : Fmt := if h.ew = 32 then .f32 else if h.vtype.getLsbD 7 then .bf16 else .f16
/-- FILLV at width `w` (R26). -/
def Hart.fillAt (h : Hart) (w : Nat) : Nat := h.fillv.toNat % 2 ^ w
/-- ACTIVE(k, i) (Table 1-8a). -/
def Hart.active (h : Hart) (k i : Nat) : Bool := decide (i < h.span) && (k == 0 || (h.getK k).getLsbD i)
/-- An element read of a vector source of width `w` (R25). -/
def Hart.readElem (h : Hart) (w img i : Nat) : Nat := if i < h.span then elem w img i else h.fillAt w

/-! ### Failing register words made good (R383) -/

/-- A failing word of `n` vector registers from `r`, of whose bytes `lo` to `hi` have been written. -/
def wordIn (r n lo hi : Nat) (b : Nat × Nat) : Bool :=
  b.1 == 2 && decide (512 * r ≤ b.2) && decide (b.2 < 512 * (r + n)) && decide (lo ≤ 8 * (b.2 - 512 * r)) &&
    decide (8 * (b.2 - 512 * r) + 8 ≤ hi)

/-! ### Groups -/

/-- A run of registers: base and count. -/
abbrev Regs := Nat × Nat

/-- Whether two runs share a register. -/
def Regs.overlap (a b : Regs) : Bool := decide (a.1 < b.1 + b.2) && decide (b.1 < a.1 + a.2)

/-- Whether a run is a group: its base a multiple of its count, and inside v0 to v31 (R21). -/
def Regs.aligned (a : Regs) : Bool := decide (a.1 % a.2 = 0) && decide (a.1 + a.2 ≤ 32)

/-- A run names registers past v31. -/
def Regs.past (a : Regs) : Bool := decide (32 < a.1 + a.2)

/-- The least of the numbers that are there. -/
def leastOf : List (Option Nat) → Option Nat
  | [] => none
  | none :: r => leastOf r
  | some x :: r => match leastOf r with | none => some x | some y => some (min x y)

/-- The lowest register of the runs that is not held (R17). -/
def Hart.notHeld (h : Hart) (rs : List Regs) : Option Nat := leastOf (rs.map fun r => h.firstNotHeld r.1 r.2)

/-- The lowest register of `n` from `r` that is not full. -/
def Hart.firstEmpty (h : Hart) (r : Nat) : Nat → Option Nat
  | 0 => none
  | n + 1 => if h.isFull r then Hart.firstEmpty h (r + 1) n else some r

/-- The lowest register of the runs that is not full (R28, R29). -/
def Hart.emptyIn (h : Hart) (rs : List Regs) : Option Nat := leastOf (rs.map fun r => h.firstEmpty r.1 r.2)

/-! ### The course of a vector instruction -/

/-- What a vector instruction names: its destination runs, the runs it reads with their e-bits, whether it sets LVD (R59), the
runs it reads element group by element group, each with a number of bytes and how many elements lie in them (R28, R147; none for an
instruction that needs its sources whole), the unit in which it can stop (0 for an element group), and whether it is a compact form,
which names the register that LVD held when it issued (R58). -/
structure VecUse where
  dst : List Regs := []
  srcs : List (Regs × Bool) := []
  lvd : Option (BitVec 5) := none
  chain : List (Regs × Nat × Nat) := []
  unit : Nat := 0
  compact : Bool := false

/-- Every run an instruction names. -/
def VecUse.all (u : VecUse) : List Regs := u.dst ++ u.srcs.map (·.1)

/-- The runs read with e = 1. -/
def VecUse.trapping (u : VecUse) : List Regs := (u.srcs.filter (·.2)).map (·.1)

/-- Sets LVD when the instruction has a vector destination (R59). -/
def State.setLvd (s : State) (r : Option (BitVec 5)) : State :=
  match r with
  | none => s
  | some r => { s with h := { s.h with lvd := r.setWidth 64 } }

/-- Waits for register `r` (R28, R29): the hart enters WAIT at this instruction. What came for it ends the wait before. -/
def State.waitReg (s : State) (r : Nat) (src part : Bool) : Result :=
  let w : Wait := .reg (BitVec.ofNat 5 r) src part false
  .next (match s.h.slot with
    | .wait w' _ => if w' = w then s else s.endWait.enterWait w
    | _ => s.enterWait w)

/-- The gang a hart is joined to, once formed (R275). -/
def State.gangOf (s : State) (id : HartId) : Option Gang :=
  (s.cluster (clusterOf (coreOf id))).gangs.find? (fun g => g.grant.isSome && g.members.contains id)

/-- BREG of a shape record (Table 13-1). -/
def bregOf (shape : Shape) : Nat := fld shape[6] 7 5

/-- The streams bound in the hart that moves, gang streams last (R242, R246). -/
def State.boundStreams (s : State) : List Stream :=
  s.h.streams.toList.filterMap id ++
    (match s.gangOf s.h.id with
     | none => []
     | some g => (g.streams.filter (fun q => q.at_.any (fun p => p.1 == s.h.id))).map (·.stream))

/-- The edge that an e = 0 read of register `r` takes from a stream bound to it, without a wait (R296, R297). -/
def State.streamEdge (s : State) (r : Nat) : Word :=
  match s.boundStreams.find? (fun q => decide (bregOf q.shape ≤ r) && decide (r < bregOf q.shape + s.h.grp)) with
  | none => 0
  | some q => q.tag

/-- The registers read with e = 0, in the order of the operands. -/
def openReads (srcs : List (Regs × Bool)) : List Nat := (srcs.filter (fun r => !r.2)).flatMap fun r => List.range' r.1.1 r.1.2

/-- Those that the hart has still to read: not the register it waits for, whose arrival gave its edge, nor those before it. -/
def State.unread (s : State) (rs : List Nat) : List Nat :=
  match s.h.slot with
  | .wait (.reg w true _ true) _ => if rs.contains w.toNat then (rs.dropWhile (fun r => r != w.toNat)).filter (fun r => r != w.toNat) else rs
  | _ => rs

/-- CPTAG after e = 0 reads that do not wait (R297). -/
def State.carryReads (s : State) (rs : List Nat) : State :=
  if s.boundStreams.isEmpty then s
  else rs.foldl (fun (s : State) r =>
    if s.streamEdge r = 0 then s else s.setCptag (s.streamEdge r)) s

/-- The e = 0 reads of an instruction: a wait for the first register that is not full (R28), else the instruction goes on. -/
def State.readOpen (s : State) (srcs : List (Regs × Bool)) (k : State → Result) : Result :=
  let rs := s.unread (openReads srcs)
  match rs.find? (fun r => !s.h.isFull r) with
  | some r => (s.carryReads (rs.takeWhile (fun x => x != r))).waitReg r true false
  | none => k (s.carryReads rs).endWait

/-- Bytes of an empty register that its producer has written (R27). -/
def Pending.written (p : Pending) : Nat := min 4096 (p.frontier * p.size - p.off)

/-- Bytes of a run of `n` registers from `r` that are there, from its first byte on, up to the first that is not. -/
def Hart.bytesReady (h : Hart) (r : Nat) : Nat → Nat
  | 0 => 0
  | n + 1 =>
    match h.full[r]? with
    | some (.empty p) => p.written
    | _ => 4096 + Hart.bytesReady h (r + 1) n

/-- The number of registers of a run that lie before element `i`, `c` giving the bytes of some elements (R29). -/
def Hart.passed (c : Regs × Nat × Nat) (i : Nat) : Nat := min c.1.2 (i / max 1 c.2.2 * c.2.1 / 4096)

/-- The registers of a chain's run that the instruction at the PC still reads, from its position on: what a register before them
waits for is nothing to it (R28, R29). -/
def Hart.toRead (h : Hart) (c : Regs × Nat × Nat) : Regs := (c.1.1 + Hart.passed c h.start, c.1.2 - Hart.passed c h.start)

/-- Elements that can be read of a run, in whole stopping units; SPAN when all of it that is still to be read is there. -/
def Hart.elemsReady (h : Hart) (unit : Nat) (c : Regs × Nat × Nat) : Nat :=
  let b := h.bytesReady (h.toRead c).1 (h.toRead c).2
  if 4096 * (h.toRead c).2 ≤ b then h.span
  else min h.span ((4096 * Hart.passed c h.start + b) / c.2.1 * c.2.2 / unit * unit)

/-- The run of a chain that has the fewest elements ready, with that number. -/
def Hart.scarcest (h : Hart) (unit : Nat) : List (Regs × Nat × Nat) → Option (Nat × Regs)
  | [] => none
  | c :: cs =>
    match Hart.scarcest h unit cs with
    | some (n, r) => if n < h.elemsReady unit c then some (n, r) else some (h.elemsReady unit c, h.toRead c)
    | none => some (h.elemsReady unit c, h.toRead c)

/-- The position at which an instruction stops to wait, the one before an e = 0 source that is not there (R28). -/
def Hart.setOwn (h : Hart) (at_ : Nat) (prior : BitVec 9) (tseq : Word) : Hart :=
  { h with
    quota := none
    resume := { (h.resume.find? fun r => r.pc == h.pc).getD (Resume.at h.pc 0) with at_, prior, own := !h.resuming, tseq } ::
      h.resume.filter fun r => r.pc != h.pc }

/-- The running instruction has to stop at position `n`, to wait for register `w`, unless it has to stop before. -/
def Hart.stopFor (h : Hart) (n w : Nat) : Hart :=
  match h.quota with
  | some (m, _) => if m ≤ n then h else { h with quota := some (n, some (BitVec.ofNat 5 w)) }
  | none => { h with quota := some (n, some (BitVec.ofNat 5 w)) }

/-- The e = 0 reads of an instruction that reads element group by element group (R28, R147): it runs up to the first element
group that is not there, and the hart then waits. -/
def State.readChained (s : State) (u : VecUse) (k : State → Result) : Result :=
  let unit := if u.unit = 0 then s.h.groupElems else u.unit
  match s.h.emptyIn (u.chain.map s.h.toRead), s.h.scarcest unit u.chain with
  | some _, some (n, r) =>
    let w := (s.h.firstEmpty r.1 r.2).getD r.1
    let s := s.carryReads ((s.unread (openReads u.srcs)).takeWhile (fun x => x != w))
    if s.h.span ≤ n then k (s.carryReads (s.unread (openReads u.srcs))).endWait
    else if n ≤ s.h.start then s.waitReg w true true
    else k { s with h := s.h.stopFor n w }.endWait
  | _, _ => k (s.carryReads (s.unread (openReads u.srcs))).endWait

/-- What LVD held when the instruction at the PC issued (R58). -/
def Hart.lvdAtIssue (h : Hart) : Word := ((h.resume.find? fun r => r.pc == h.pc).bind (·.lvd)).getD h.lvd

/-- A compact form that has not completed keeps what LVD held when it issued (R58). -/
def Hart.holdLvd (h : Hart) : Hart :=
  { h with
    resume := { (h.resume.find? fun r => r.pc == h.pc).getD { Resume.at h.pc 0 with own := true } with lvd := some h.lvdAtIssue } ::
      h.resume.filter fun r => r.pc != h.pc }

/-- Issues a vector instruction: the wait for an empty destination (R29), then the checks of R63 in order (illegal operand,
block not held, register empty, and the instruction's own), then LVD (R59), the waits on e = 0 sources (R28) and its work. A
compact form that goes on later still names the register that LVD held at its issue (R58). -/
def State.issue (s : State) (u : VecUse) (illegal : Bool) (more : List (Bool × Nat × Word)) (k : State → Result) : Result :=
  match s.h.emptyIn u.dst with
  | some r => s.waitReg r false false
  | none =>
    s.check ((illegal, 0x02, s.ir) ::
        ((s.h.notHeld u.all).isSome, 0x05, BitVec.ofNat 64 ((s.h.notHeld u.all).getD 0)) ::
        ((s.h.emptyIn u.trapping).isSome, 0x04, BitVec.ofNat 64 ((s.h.emptyIn u.trapping).getD 0)) :: more)
      fun s =>
        let s := (if u.compact then { s with h := s.h.holdLvd } else s).setLvd u.lvd
        if u.chain = [] then s.readOpen u.srcs k else s.readChained u k

/-- Where a run over `total` elements stops: the end, the landing point of a pending pre-emption (R148, R293), or the position
before what is not ready (R28). -/
def Hart.stopAt (h : Hart) (unit total : Nat) : Nat :=
  let land := match h.landing with
    | none => total
    | some n => min total ((h.start / unit + max n 1) * unit)
  match h.quota with
  | none => land
  | some (n, _) => min land n

/-- A compact form that completes needs no more what LVD held when it issued. -/
def Hart.freeLvd (h : Hart) : Hart := { h with resume := h.resume.filter fun r => !(r.pc == h.pc && r.own && r.lvd.isSome) }

/-- Completes a vector instruction of `len` bytes, a compact form when these are two, with the flags it raised. -/
def State.retire (s : State) (len : Nat) (fl : Raised) : Result :=
  .next ({ s with h := (if len = 2 then s.h.freeLvd else s.h).raise s.h.prior fl }.adv len)

/-- Stops an instruction at position `eix`: for the pre-emption that lands there (R117, R368), or because what follows is not
ready (R28). -/
def State.stopPart (s : State) (eix : Nat) (fl : Raised) (tseq : Word := 0) : Result :=
  let replay := s.h.replay && s.h.resuming
  let raised := s.h.prior ||| fl.classes
  let t := { s with h := s.h.raise s.h.prior fl }
  let preempted : Result := t.preempt { cause := 0x12, eix, part := eix != 0, raised, replay, tseq }
  match s.h.quota with
  | none => preempted
  | some (n, r) =>
    if n ≠ eix then preempted
    else
      let t := { t with h := t.h.setOwn eix raised tseq }
      match r with
      | some r => t.waitReg r.toNat true true
      | none => .next t

/-- Bytes of an element group (R23). -/
def Hart.groupBytes (h : Hart) : Nat := max 1 (h.grant.toNat * 8)

/-- Element groups of a strip (R23): 4 x G below the cap. -/
def Hart.stripGroups (h : Hart) : Nat := (h.span + h.groupElems - 1) / h.groupElems

/-- Register number `q` of a group of which the strip has `total` element groups and a producer has written `done` (R27, R29): what
is pending there, and none once it has all its element groups. A register that holds no element group below SPAN waits for one
arrival of its own (DESIGN CHOICE, log 65). -/
def Hart.pendingAt (h : Hart) (total done q : Nat) (by_ : Producer) (img : BitVec 32768) : Option Pending :=
  let size := h.groupBytes
  let first := 4096 * q / size
  let n := max 1 (min total ((4096 * (q + 1) + size - 1) / size) - first)
  if n ≤ done - first then none else some ⟨done - first, n, size, 4096 * q - first * size, by_, img⟩

/-- A producer is to write the image `img` of `n` registers from `r`, of which register 0 is number `q` of its group: each is empty
until its last element group is written (R27). -/
def Hart.promise (h : Hart) (total done : Nat) (by_ : Producer) (r q : Nat) : Nat → Nat → Hart
  | 0, _ => h
  | n + 1, img =>
    let x := BitVec.ofNat 32768 img
    let h := match h.pendingAt total done q by_ x with
      | none => { h with v := h.v.setIfInBounds r x, full := h.full.setIfInBounds r .full }
      | some p => { h with full := h.full.setIfInBounds r (.empty p) }
    Hart.promise h total done by_ (r + 1) (q + 1) n (img >>> 32768)

/-- A producer is to write the element group image `img` of a group of registers, from the instruction's first position on. -/
def Hart.promiseGroup (h : Hart) (by_ : Producer) (dst : Regs) (img : Nat) : Hart :=
  h.promise h.stripGroups (h.start / h.groupElems) by_ dst.1 0 dst.2 img

/-- Ends an instruction in a trap at position `eix`, what is below it done (R31 TRAP). -/
def State.trapAt (s : State) (cause eix : Nat) (eaddr : Word) (fl : Raised) (tseq : Word := 0) : Result :=
  { s with h := s.h.raise s.h.prior fl }.trap
    { cause, eix, eaddr, part := eix != 0, raised := s.h.prior ||| fl.classes, tseq }

/-- The flags of the elements from `start` on. -/
def raisedFrom (start : Nat) : List (Nat × Flags) → Raised
  | [] => []
  | (_, f) :: r => if f = 0 then raisedFrom (start + 1) r else (start, f) :: raisedFrom (start + 1) r

/-- An element-wise run into the `w`-bit elements of the run `dst` (R143): `f i` is element i with its flags, inactive ones
included; indices from EIX to SPAN, in element groups of `unit`. -/
def State.elementwise (s : State) (len w : Nat) (dst : Regs) (f : Nat → Nat × Flags) : Result :=
  let h := s.h
  let unit := h.groupElems
  let stop := h.stopAt unit h.span
  let xs := (List.range' h.start (stop - h.start)).map f
  let img := putElems w (h.img dst.1 dst.2) h.start (xs.map (·.1))
  let fl := raisedFrom h.start xs
  let t := { s with h := h.setImg dst.1 dst.2 img }
  if stop < h.span then t.stopPart stop fl else t.retire len fl

/-- Element `i` under a governing mask: the computed one when active, else kept or zero (R143). -/
def Hart.govern (h : Hart) (km w old : Nat) (f : Nat → Nat × Flags) (i : Nat) : Nat × Flags :=
  if h.active km i then f i else (if h.ip then 0 else elem w old i, 0)

/-- A run to completion into the elements below SPAN of the run `dst`: `f i` is element i (R148). -/
def State.allElements (s : State) (len w : Nat) (dst : Regs) (f : Nat → Nat × Flags) : Result :=
  let h := s.h
  let xs := (List.range h.span).map f
  let img := putElems w (h.img dst.1 dst.2) 0 (xs.map (·.1))
  { s with h := h.setImg dst.1 dst.2 img }.retire len (raisedFrom 0 xs)

/-- The mask whose bit `i` is `f i` below `n`, and 0 from there on. -/
def maskOf (n : Nat) (f : Nat → Bool) : BitVec 8192 :=
  BitVec.ofNat 8192 (packElems 1 ((List.range n).map fun i => (f i).toNat))

/-- An element-wise run into mask `kd` (R157): bits below EIX keep their values; when it completes, bits at and above SPAN
are 0. -/
def State.maskwise (s : State) (len kd : Nat) (f : Nat → Bool × Flags) : Result :=
  let h := s.h
  let unit := h.groupElems
  let stop := h.stopAt unit h.span
  let xs := (List.range' h.start (stop - h.start)).map f
  let put := putElems 1 (h.getK kd).toNat h.start (xs.map fun x => x.1.toNat)
  let new := BitVec.ofNat 8192 (if stop < h.span then put else put % 2 ^ h.span)
  let fl := raisedFrom h.start (xs.map fun x => (0, x.2))
  let t := s.setK kd new
  if stop < h.span then t.stopPart stop fl else t.retire len fl

end Sys2Proof.Machine
end

