-- ==== Sys2Proof/Machine/Alu.lean ====
section
/-! DEFINITION. Integer register operations and immediates (06 R88 to R90), none of which traps or sets a flag. -/

namespace Sys2Proof.Machine

/-- A register operation: gd := f gs1 gs2. -/
def State.alu2 (s : State) (d a b : BitVec 5) (f : Word → Word → Word) : Result :=
  .next (s.setGAdv d (f (s.getG a) (s.getG b)) 4)

/-- A register operation of one source: gd := f gs1. -/
def State.alu1 (s : State) (d a : BitVec 5) (f : Word → Word) : Result := .next (s.setGAdv d (f (s.getG a)) 4)

/-- 1 or 0. -/
def boolWord (b : Bool) : Word := if b then 1 else 0

/-- The shift amount gs2[5:0] (Table 6-2). -/
def shamt (y : Word) : Nat := y.toNat % 64

/-- gs1 << gs2[5:0] -/
def sllW (x y : Word) : Word := x <<< shamt y
/-- gs1 >> gs2[5:0], zeros in -/
def srlW (x y : Word) : Word := x >>> shamt y
/-- gs1 >> gs2[5:0], sign in -/
def sraW (x y : Word) : Word := x.sshiftRight (shamt y)
/-- signed minimum -/
def minW (x y : Word) : Word := if x.toInt < y.toInt then x else y
/-- signed maximum -/
def maxW (x y : Word) : Word := if x.toInt < y.toInt then y else x
/-- unsigned minimum -/
def minnW (x y : Word) : Word := if x.toNat < y.toNat then x else y
/-- unsigned maximum -/
def maxnW (x y : Word) : Word := if x.toNat < y.toNat then y else x
/-- bits [127:64] of the signed product -/
def mulhW (x y : Word) : Word := BitVec.ofInt 64 (x.toInt * y.toInt / 2 ^ 64)
/-- bits [127:64] of the unsigned product -/
def mulhnW (x y : Word) : Word := BitVec.ofNat 64 (x.toNat * y.toNat / 2 ^ 64)
/-- signed quotient toward zero; all ones for divisor 0; -2^63 for -2^63 / -1 (R89) -/
def divW (x y : Word) : Word := if y = 0 then -1 else BitVec.ofInt 64 (x.toInt.tdiv y.toInt)
/-- unsigned quotient; all ones for divisor 0 (R89) -/
def divnW (x y : Word) : Word := if y = 0 then -1 else BitVec.ofNat 64 (x.toNat / y.toNat)
/-- gs1 - quotient * gs2, signed; gs1 for divisor 0 (R89) -/
def remW (x y : Word) : Word := if y = 0 then x else BitVec.ofInt 64 (x.toInt.tmod y.toInt)
/-- gs1 - quotient * gs2, unsigned; gs1 for divisor 0 (R89) -/
def remnW (x y : Word) : Word := if y = 0 then x else BitVec.ofNat 64 (x.toNat % y.toNat)
/-- number of leading zero bits -/
def clzW (x : Word) : Word := if x = 0 then 64 else BitVec.ofNat 64 (63 - Nat.log2 x.toNat)
/-- the number of one bits among the low `n` -/
def onesBelow (x : Nat) : Nat → Nat
  | 0 => 0
  | n + 1 => (x >>> n) % 2 + onesBelow x n
/-- number of one bits -/
def popcW (x : Word) : Word := BitVec.ofNat 64 (onesBelow x.toNat 64)
/-- gs1 sign-extended from bit 8*2^w - 1 -/
def sextW (w : Nat) (x : Word) : Word := sext (8 * 2 ^ w) x.toNat
/-- gs1 zero-extended from bit 8*2^w - 1 -/
def zextW (w : Nat) (x : Word) : Word := BitVec.ofNat 64 (x.toNat % 2 ^ (8 * 2 ^ w))

/-- ADD (R88) -/
def execAdd (d a b : BitVec 5) (s : State) : Result := s.alu2 d a b (· + ·)
/-- SUB (R88) -/
def execSub (d a b : BitVec 5) (s : State) : Result := s.alu2 d a b (· - ·)
/-- AND (R88) -/
def execAnd (d a b : BitVec 5) (s : State) : Result := s.alu2 d a b (· &&& ·)
/-- OR (R88) -/
def execOr (d a b : BitVec 5) (s : State) : Result := s.alu2 d a b (· ||| ·)
/-- XOR (R88) -/
def execXor (d a b : BitVec 5) (s : State) : Result := s.alu2 d a b (· ^^^ ·)
/-- ANDN (R88) -/
def execAndn (d a b : BitVec 5) (s : State) : Result := s.alu2 d a b (fun x y => x &&& ~~~y)
/-- SLL (R88) -/
def execSll (d a b : BitVec 5) (s : State) : Result := s.alu2 d a b sllW
/-- SRL (R88) -/
def execSrl (d a b : BitVec 5) (s : State) : Result := s.alu2 d a b srlW
/-- SRA (R88) -/
def execSra (d a b : BitVec 5) (s : State) : Result := s.alu2 d a b sraW
/-- SLT (R88) -/
def execSlt (d a b : BitVec 5) (s : State) : Result := s.alu2 d a b (fun x y => boolWord (decide (x.toInt < y.toInt)))
/-- SLTN (R88) -/
def execSltn (d a b : BitVec 5) (s : State) : Result := s.alu2 d a b (fun x y => boolWord (decide (x.toNat < y.toNat)))
/-- MIN (R88) -/
def execMin (d a b : BitVec 5) (s : State) : Result := s.alu2 d a b minW
/-- MAX (R88) -/
def execMax (d a b : BitVec 5) (s : State) : Result := s.alu2 d a b maxW
/-- MINN (R88) -/
def execMinn (d a b : BitVec 5) (s : State) : Result := s.alu2 d a b minnW
/-- MAXN (R88) -/
def execMaxn (d a b : BitVec 5) (s : State) : Result := s.alu2 d a b maxnW
/-- MUL (R88) -/
def execMul (d a b : BitVec 5) (s : State) : Result := s.alu2 d a b (· * ·)
/-- MULH (R88) -/
def execMulh (d a b : BitVec 5) (s : State) : Result := s.alu2 d a b mulhW
/-- MULHN (R88) -/
def execMulhn (d a b : BitVec 5) (s : State) : Result := s.alu2 d a b mulhnW
/-- DIV (R88, R89) -/
def execDiv (d a b : BitVec 5) (s : State) : Result := s.alu2 d a b divW
/-- DIVN (R88, R89) -/
def execDivn (d a b : BitVec 5) (s : State) : Result := s.alu2 d a b divnW
/-- REM (R88, R89) -/
def execRem (d a b : BitVec 5) (s : State) : Result := s.alu2 d a b remW
/-- REMN (R88, R89) -/
def execRemn (d a b : BitVec 5) (s : State) : Result := s.alu2 d a b remnW
/-- CLZ (R88) -/
def execClz (d a : BitVec 5) (s : State) : Result := s.alu1 d a clzW
/-- POPC (R88) -/
def execPopc (d a : BitVec 5) (s : State) : Result := s.alu1 d a popcW
/-- SEXT (R88) -/
def execSext (d a w : BitVec 5) (s : State) : Result := s.alu1 d a (sextW w.toNat)
/-- ZEXT (R88) -/
def execZext (d a w : BitVec 5) (s : State) : Result := s.alu1 d a (zextW w.toNat)

/-- ADDI (R90) -/
def execAddi (d a : BitVec 5) (i : BitVec 13) (s : State) : Result := s.alu1 d a (· + immOf i)
/-- ANDI (R90) -/
def execAndi (d a : BitVec 5) (i : BitVec 11) (s : State) : Result := s.alu1 d a (· &&& immOf i)
/-- ORI (R90) -/
def execOri (d a : BitVec 5) (i : BitVec 11) (s : State) : Result := s.alu1 d a (· ||| immOf i)
/-- XORI (R90) -/
def execXori (d a : BitVec 5) (i : BitVec 11) (s : State) : Result := s.alu1 d a (· ^^^ immOf i)
/-- SLTI (R90) -/
def execSlti (d a : BitVec 5) (i : BitVec 12) (s : State) : Result :=
  s.alu1 d a (fun x => boolWord (decide (x.toInt < (immOf i).toInt)))
/-- SLTNI (R90): unsigned against the sign-extended immediate -/
def execSltni (d a : BitVec 5) (i : BitVec 12) (s : State) : Result :=
  s.alu1 d a (fun x => boolWord (decide (x.toNat < (immOf i).toNat)))
/-- SLLI (R90) -/
def execSlli (d a : BitVec 5) (n : BitVec 6) (s : State) : Result := s.alu1 d a (· <<< n.toNat)
/-- SRLI (R90) -/
def execSrli (d a : BitVec 5) (n : BitVec 6) (s : State) : Result := s.alu1 d a (· >>> n.toNat)
/-- SRAI (R90) -/
def execSrai (d a : BitVec 5) (n : BitVec 6) (s : State) : Result := s.alu1 d a (·.sshiftRight n.toNat)
/-- LIH (R90): sext(imm18) x 2^14 -/
def execLih (d : BitVec 5) (i : BitVec 18) (s : State) : Result := .next (s.setGAdv d (immOf i <<< 14) 4)
/-- ADDPC (R90): the address of the ADDPC plus sext(imm18) x 2^14 -/
def execAddpc (d : BitVec 5) (i : BitVec 18) (s : State) : Result := .next (s.setGAdv d (s.h.pc + immOf i <<< 14) 4)

end Sys2Proof.Machine
end

