-- ==== Sys2Proof/Machine/VecInt.lean ====
section
/-! DEFINITION. Integer vector arithmetic, logic, saturation and compares (09 R142 to R152, R157, R158). -/

namespace Sys2Proof.Machine

/-! ### The course of an element-wise member (R143 to R148) -/

/-- The width `w` is one of those a family accepts (R145). -/
def Hart.ewIn (h : Hart) (ws : List Nat) : Bool := ws.contains h.ew

/-- Every run is a group (R21). -/
def aligned (rs : List Regs) : Bool := rs.all Regs.aligned

/-- Two runs share a register and are not the same run (R146). -/
def Regs.partly (a b : Regs) : Bool := a.overlap b && a != b

/-- An operation on elements x and y of `h.ew` bits. -/
abbrev ElemOp := Hart → Nat → Nat → Nat × Flags

/-- An operation that raises nothing. -/
def pureOp (f : Nat → Nat → Nat → Nat) : ElemOp := fun h x y => (f h.ew x y, 0)

/-- An element-wise member of equal width with two vector sources. -/
def State.vv (s : State) (ws : List Nat) (d a b : BitVec 5) (k : BitVec 3) (e f : BitVec 1) (op : ElemOp)
    (len : Nat := 4) : Result :=
  let g := s.h.grp
  let D : Regs := (d.toNat, g)
  let A : Regs := (a.toNat, g)
  let B : Regs := (b.toNat, g)
  let n := ewbOf s.h.vtype
  s.issue { dst := [D], srcs := [(A, e == 1), (B, f == 1)], lvd := some d, chain := [(A, n, 1), (B, n, 1)], compact := len == 2 }
    (!s.h.ewIn ws || !aligned [D, A, B] || D.partly A || D.partly B) [] fun s =>
      let h := s.h
      let x := h.img A.1 g
      let y := h.img B.1 g
      s.elementwise len h.ew D (h.govern k.toNat h.ew (h.img D.1 g) fun i => op h (h.readElem h.ew x i) (h.readElem h.ew y i))

/-- An element-wise member of equal width with a scalar operand (R144). -/
def State.vx (s : State) (ws : List Nat) (d a b : BitVec 5) (k : BitVec 3) (e : BitVec 1) (op : ElemOp)
    (len : Nat := 4) : Result :=
  let g := s.h.grp
  let D : Regs := (d.toNat, g)
  let A : Regs := (a.toNat, g)
  s.issue { dst := [D], srcs := [(A, e == 1)], lvd := some d, chain := [(A, ewbOf s.h.vtype, 1)], compact := len == 2 }
    (!s.h.ewIn ws || !aligned [D, A] || D.partly A) [] fun s =>
    let h := s.h
    let x := h.img A.1 g
    let y := (s.getG b).toNat % 2 ^ h.ew
    s.elementwise len h.ew D (h.govern k.toNat h.ew (h.img D.1 g) fun i => op h (h.readElem h.ew x i) y)

/-- An element-wise member of equal width with one vector source. -/
def State.v1 (s : State) (ws : List Nat) (d a : BitVec 5) (k : BitVec 3) (e : BitVec 1) (op : Hart → Nat → Nat × Flags) : Result :=
  let g := s.h.grp
  let D : Regs := (d.toNat, g)
  let A : Regs := (a.toNat, g)
  s.issue { dst := [D], srcs := [(A, e == 1)], lvd := some d, chain := [(A, ewbOf s.h.vtype, 1)] }
    (!s.h.ewIn ws || !aligned [D, A] || D.partly A) [] fun s =>
    let h := s.h
    let x := h.img A.1 g
    s.elementwise 4 h.ew D (h.govern k.toNat h.ew (h.img D.1 g) fun i => op h (h.readElem h.ew x i))

/-- Every width. -/
def ewAll : List Nat := [8, 16, 32, 64]
/-- The widths that can be widened. -/
def ewNarrow : List Nat := [8, 16, 32]
/-- The floating-point widths. -/
def ewFloat : List Nat := [16, 32]

/-! ### Element operations -/

/-- An operation on the signed readings, modulo 2^w. -/
def onSigned (f : Int → Int → Int) (w x y : Nat) : Nat := ofSigned w (f (toSigned w x) (toSigned w y))

/-- x + y -/
def eAdd (w x y : Nat) : Nat := (x + y) % 2 ^ w
/-- x - y -/
def eSub (w x y : Nat) : Nat := (x + 2 ^ w - y) % 2 ^ w
/-- low bits of x * y -/
def eMul (w x y : Nat) : Nat := x * y % 2 ^ w
/-- high bits of the signed product -/
def eMulh (w x y : Nat) : Nat := ofSigned w (toSigned w x * toSigned w y / (2 ^ w : Nat))
/-- high bits of the unsigned product -/
def eMulhn (w x y : Nat) : Nat := x * y / 2 ^ w
/-- signed minimum -/
def eMin (w x y : Nat) : Nat := if toSigned w x < toSigned w y then x else y
/-- signed maximum -/
def eMax (w x y : Nat) : Nat := if toSigned w x < toSigned w y then y else x
/-- unsigned minimum -/
def eMinn (_w x y : Nat) : Nat := min x y
/-- unsigned maximum -/
def eMaxn (_w x y : Nat) : Nat := max x y
/-- x & y -/
def eAnd (_w x y : Nat) : Nat := x &&& y
/-- x | y -/
def eOr (_w x y : Nat) : Nat := x ||| y
/-- x ^ y -/
def eXor (_w x y : Nat) : Nat := x ^^^ y
/-- x & ~y -/
def eAndn (w x y : Nat) : Nat := x &&& (2 ^ w - 1 - y)
/-- x << s -/
def eSll (w x y : Nat) : Nat := x <<< (y % w) % 2 ^ w
/-- x >> s, zeros in -/
def eSrl (w x y : Nat) : Nat := x >>> (y % w)
/-- x >> s, sign in -/
def eSra (w x y : Nat) : Nat := ofSigned w (toSigned w x / (2 ^ (y % w) : Nat))

/-- Clamps an integer to the signed `w`-bit range, with SAT when it does (R109). -/
def clampS (w : Nat) (x : Int) : Nat × Flags :=
  if (2 ^ (w - 1) : Nat) ≤ x then (2 ^ (w - 1) - 1, fSAT)
  else if x < -(2 ^ (w - 1) : Nat) then (2 ^ (w - 1), fSAT)
  else (ofSigned w x, 0)

/-- x / 2^s rounded to an integer under XRM (R113, R151). -/
def roundDiv (r : RM) (x : Int) (s : Nat) : Int := (roundInt r (x < 0) x.natAbs (-(s : Int)) false).1

/-- clamp(x + y) -/
def eSadd : ElemOp := fun h x y => clampS h.ew (toSigned h.ew x + toSigned h.ew y)
/-- clamp(x - y) -/
def eSsub : ElemOp := fun h x y => clampS h.ew (toSigned h.ew x - toSigned h.ew y)
/-- the average, rounded under XRM -/
def eAvg : ElemOp := fun h x y => (ofSigned h.ew (roundDiv (xrmOf h.rmode) (toSigned h.ew x + toSigned h.ew y) 1), 0)

/-- An element-wise member that writes a widened destination (R145): `op old x y`. -/
def State.vwide (s : State) (ws : List Nat) (d : BitVec 5) (srcs : List (BitVec 5 × BitVec 1)) (k : BitVec 3)
    (op : Hart → Nat → List Nat → Nat × Flags) : Result :=
  let g := s.h.grp
  let D : Regs := (d.toNat, 2 * g)
  let rs : List Regs := srcs.map fun p => (p.1.toNat, g)
  let n := ewbOf s.h.vtype
  s.issue { dst := [D], srcs := srcs.map (fun p => ((p.1.toNat, g), p.2 == 1)), lvd := some d, chain := rs.map fun r => (r, n, 1) }
    (!s.h.ewIn ws || g == 8 || !aligned (D :: rs) || rs.any D.overlap) [] fun s =>
      let h := s.h
      let xs := rs.map fun r => h.img r.1 g
      let old := h.img D.1 (2 * g)
      s.elementwise 4 (2 * h.ew) D (h.govern k.toNat (2 * h.ew) old fun i =>
        op h (elem (2 * h.ew) old i) (xs.map fun x => h.readElem h.ew x i))

/-- An element-wise member that reads a widened first source (R145). -/
def State.vnarrowing (s : State) (ws : List Nat) (d a : BitVec 5) (e : BitVec 1) (more : List (BitVec 5 × BitVec 1)) (k : BitVec 3)
    (op : Hart → Nat → List Nat → Nat × Flags) : Result :=
  let g := s.h.grp
  let D : Regs := (d.toNat, g)
  let A : Regs := (a.toNat, 2 * g)
  let rs : List Regs := more.map fun p => (p.1.toNat, g)
  let n := ewbOf s.h.vtype
  s.issue { dst := [D], srcs := (A, e == 1) :: more.map (fun p => ((p.1.toNat, g), p.2 == 1)), lvd := some d,
            chain := (A, 2 * n, 1) :: rs.map fun r => (r, n, 1) }
    (!s.h.ewIn ws || g == 8 || !aligned (D :: A :: rs) || A.overlap D || rs.any A.overlap || rs.any D.partly) [] fun s =>
      let h := s.h
      let x := h.img A.1 (2 * g)
      let ys := rs.map fun r => h.img r.1 g
      s.elementwise 4 h.ew D (h.govern k.toNat h.ew (h.img D.1 g) fun i =>
        op h (h.readElem (2 * h.ew) x i) (ys.map fun y => h.readElem h.ew y i))

/-! ### VIA and VIL (R149, R150) -/

/-- VADD (R149) -/
def execVadd (d a b : BitVec 5) (k : BitVec 3) (e f : BitVec 1) (s : State) : Result :=
  s.vv ewAll d a b k e f (pureOp eAdd)
/-- VSUB (R149) -/
def execVsub (d a b : BitVec 5) (k : BitVec 3) (e f : BitVec 1) (s : State) : Result :=
  s.vv ewAll d a b k e f (pureOp eSub)
/-- VMUL (R149) -/
def execVmul (d a b : BitVec 5) (k : BitVec 3) (e f : BitVec 1) (s : State) : Result :=
  s.vv ewAll d a b k e f (pureOp eMul)
/-- VMULH (R149) -/
def execVmulh (d a b : BitVec 5) (k : BitVec 3) (e f : BitVec 1) (s : State) : Result :=
  s.vv ewAll d a b k e f (pureOp eMulh)
/-- VMIN (R149) -/
def execVmin (d a b : BitVec 5) (k : BitVec 3) (e f : BitVec 1) (s : State) : Result :=
  s.vv ewAll d a b k e f (pureOp eMin)
/-- VMAX (R149) -/
def execVmax (d a b : BitVec 5) (k : BitVec 3) (e f : BitVec 1) (s : State) : Result :=
  s.vv ewAll d a b k e f (pureOp eMax)
/-- VMINN (R149) -/
def execVminn (d a b : BitVec 5) (k : BitVec 3) (e f : BitVec 1) (s : State) : Result :=
  s.vv ewAll d a b k e f (pureOp eMinn)
/-- VMAXN (R149) -/
def execVmaxn (d a b : BitVec 5) (k : BitVec 3) (e f : BitVec 1) (s : State) : Result :=
  s.vv ewAll d a b k e f (pureOp eMaxn)
/-- VADD.X (R149) -/
def execVaddX (d a b : BitVec 5) (k : BitVec 3) (e : BitVec 1) (s : State) : Result :=
  s.vx ewAll d a b k e (pureOp eAdd)
/-- VSUB.X (R149) -/
def execVsubX (d a b : BitVec 5) (k : BitVec 3) (e : BitVec 1) (s : State) : Result :=
  s.vx ewAll d a b k e (pureOp eSub)
/-- VMUL.X (R149) -/
def execVmulX (d a b : BitVec 5) (k : BitVec 3) (e : BitVec 1) (s : State) : Result :=
  s.vx ewAll d a b k e (pureOp eMul)
/-- VMULH.X (R149) -/
def execVmulhX (d a b : BitVec 5) (k : BitVec 3) (e : BitVec 1) (s : State) : Result :=
  s.vx ewAll d a b k e (pureOp eMulh)
/-- VMIN.X (R149) -/
def execVminX (d a b : BitVec 5) (k : BitVec 3) (e : BitVec 1) (s : State) : Result :=
  s.vx ewAll d a b k e (pureOp eMin)
/-- VMAX.X (R149) -/
def execVmaxX (d a b : BitVec 5) (k : BitVec 3) (e : BitVec 1) (s : State) : Result :=
  s.vx ewAll d a b k e (pureOp eMax)
/-- VMINN.X (R149) -/
def execVminnX (d a b : BitVec 5) (k : BitVec 3) (e : BitVec 1) (s : State) : Result :=
  s.vx ewAll d a b k e (pureOp eMinn)
/-- VMAXN.X (R149) -/
def execVmaxnX (d a b : BitVec 5) (k : BitVec 3) (e : BitVec 1) (s : State) : Result :=
  s.vx ewAll d a b k e (pureOp eMaxn)
/-- VAND (R150) -/
def execVand (d a b : BitVec 5) (k : BitVec 3) (e f : BitVec 1) (s : State) : Result :=
  s.vv ewAll d a b k e f (pureOp eAnd)
/-- VOR (R150) -/
def execVor (d a b : BitVec 5) (k : BitVec 3) (e f : BitVec 1) (s : State) : Result :=
  s.vv ewAll d a b k e f (pureOp eOr)
/-- VXOR (R150) -/
def execVxor (d a b : BitVec 5) (k : BitVec 3) (e f : BitVec 1) (s : State) : Result :=
  s.vv ewAll d a b k e f (pureOp eXor)
/-- VANDN (R150) -/
def execVandn (d a b : BitVec 5) (k : BitVec 3) (e f : BitVec 1) (s : State) : Result :=
  s.vv ewAll d a b k e f (pureOp eAndn)
/-- VSLL (R150) -/
def execVsll (d a b : BitVec 5) (k : BitVec 3) (e f : BitVec 1) (s : State) : Result :=
  s.vv ewAll d a b k e f (pureOp eSll)
/-- VSRL (R150) -/
def execVsrl (d a b : BitVec 5) (k : BitVec 3) (e f : BitVec 1) (s : State) : Result :=
  s.vv ewAll d a b k e f (pureOp eSrl)
/-- VSRA (R150) -/
def execVsra (d a b : BitVec 5) (k : BitVec 3) (e f : BitVec 1) (s : State) : Result :=
  s.vv ewAll d a b k e f (pureOp eSra)
/-- VAND.X (R150) -/
def execVandX (d a b : BitVec 5) (k : BitVec 3) (e : BitVec 1) (s : State) : Result :=
  s.vx ewAll d a b k e (pureOp eAnd)
/-- VOR.X (R150) -/
def execVorX (d a b : BitVec 5) (k : BitVec 3) (e : BitVec 1) (s : State) : Result :=
  s.vx ewAll d a b k e (pureOp eOr)
/-- VXOR.X (R150) -/
def execVxorX (d a b : BitVec 5) (k : BitVec 3) (e : BitVec 1) (s : State) : Result :=
  s.vx ewAll d a b k e (pureOp eXor)
/-- VANDN.X (R150) -/
def execVandnX (d a b : BitVec 5) (k : BitVec 3) (e : BitVec 1) (s : State) : Result :=
  s.vx ewAll d a b k e (pureOp eAndn)
/-- VSLL.X (R150) -/
def execVsllX (d a b : BitVec 5) (k : BitVec 3) (e : BitVec 1) (s : State) : Result :=
  s.vx ewAll d a b k e (pureOp eSll)
/-- VSRL.X (R150) -/
def execVsrlX (d a b : BitVec 5) (k : BitVec 3) (e : BitVec 1) (s : State) : Result :=
  s.vx ewAll d a b k e (pureOp eSrl)
/-- VSRA.X (R150) -/
def execVsraX (d a b : BitVec 5) (k : BitVec 3) (e : BitVec 1) (s : State) : Result :=
  s.vx ewAll d a b k e (pureOp eSra)

/-- The elements of VMERGE: x where the mask is set and y elsewhere, whatever IP holds (R150). -/
def Hart.merge (h : Hart) (km : Nat) (x : Nat) (y : Nat → Nat) (i : Nat) : Nat × Flags :=
  (if h.active km i then h.readElem h.ew x i else y i, 0)

/-- VMERGE (R150): R148 names it neither among those that may be interrupted nor among those that run to completion, and R147 not
among those that wait for their whole source; it may be interrupted between element groups, it chains on an e = 0 source element group
by element group, and it never joins a convoy (DESIGN CHOICE, log 55) -/
def execVmerge (d a b : BitVec 5) (k : BitVec 3) (e f : BitVec 1) (s : State) : Result :=
  let g := s.h.grp
  let D : Regs := (d.toNat, g)
  let A : Regs := (a.toNat, g)
  let B : Regs := (b.toNat, g)
  let n := ewbOf s.h.vtype
  s.issue { dst := [D], srcs := [(A, e == 1), (B, f == 1)], lvd := some d, chain := [(A, n, 1), (B, n, 1)] }
    (!aligned [D, A, B] || D.partly A || D.partly B) [] fun s =>
    let h := s.h
    let y := h.img B.1 g
    s.elementwise 4 h.ew D (h.merge k.toNat (h.img A.1 g) (fun i => h.readElem h.ew y i))

/-- VMERGE.X (R150) -/
def execVmergeX (d a b : BitVec 5) (k : BitVec 3) (e : BitVec 1) (s : State) : Result :=
  let g := s.h.grp
  let D : Regs := (d.toNat, g)
  let A : Regs := (a.toNat, g)
  s.issue { dst := [D], srcs := [(A, e == 1)], lvd := some d, chain := [(A, ewbOf s.h.vtype, 1)] }
    (!aligned [D, A] || D.partly A) [] fun s =>
    let h := s.h
    let y := (s.getG b).toNat % 2 ^ h.ew
    s.elementwise 4 h.ew D (h.merge k.toNat (h.img A.1 g) (fun _ => y))

/-! ### VIS (R151) -/

/-- VSADD (R151) -/
def execVsadd (d a b : BitVec 5) (k : BitVec 3) (e f : BitVec 1) (s : State) : Result :=
  s.vv ewAll d a b k e f eSadd
/-- VSSUB (R151) -/
def execVssub (d a b : BitVec 5) (k : BitVec 3) (e f : BitVec 1) (s : State) : Result :=
  s.vv ewAll d a b k e f eSsub
/-- VMULHN (R151) -/
def execVmulhn (d a b : BitVec 5) (k : BitVec 3) (e f : BitVec 1) (s : State) : Result :=
  s.vv ewAll d a b k e f (pureOp eMulhn)
/-- VAVG (R151) -/
def execVavg (d a b : BitVec 5) (k : BitVec 3) (e f : BitVec 1) (s : State) : Result :=
  s.vv ewAll d a b k e f eAvg
/-- VABS (R151) -/
def execVabs (d a : BitVec 5) (k : BitVec 3) (e : BitVec 1) (s : State) : Result :=
  s.v1 ewAll d a k e fun h x => clampS h.ew (toSigned h.ew x).natAbs

/-- VNSHR (R151): the widened signed vs1 shifted by the low log2(2EW) bits of vs2, rounded under XRM and clamped -/
def execVnshr (d a b : BitVec 5) (k : BitVec 3) (e f : BitVec 1) (s : State) : Result :=
  s.vnarrowing ewNarrow d a e [(b, f)] k fun h x ys =>
    clampS h.ew (roundDiv (xrmOf h.rmode) (toSigned (2 * h.ew) x) (ys.headD 0 % (2 * h.ew)))

/-- The signed product of two elements as 2EW bits, added to `acc`. -/
def wideMac (w acc : Nat) (xs : List Nat) : Nat :=
  match xs with
  | [x, y] => ofSigned (2 * w) ((acc : Int) + toSigned w x * toSigned w y)
  | _ => acc

/-- VWMUL (R151) -/
def execVwmul (d a b : BitVec 5) (k : BitVec 3) (e f : BitVec 1) (s : State) : Result :=
  s.vwide ewNarrow d [(a, e), (b, f)] k fun h _ xs => (wideMac h.ew 0 xs, 0)

/-- VWMAC (R151) -/
def execVwmac (d a b : BitVec 5) (k : BitVec 3) (e f : BitVec 1) (s : State) : Result :=
  s.vwide ewNarrow d [(a, e), (b, f)] k fun h old xs => (wideMac h.ew old xs, 0)

/-! ### Compares (R157, R158) -/

/-- A relation between elements with the flags it raises. -/
abbrev ElemRel := Hart → Nat → Nat → Bool × Flags

/-- A compare of two vector sources into a mask: inactive elements give 0 and raise nothing. -/
def State.cmpVV (s : State) (ws : List Nat) (d a b : BitVec 5) (k : BitVec 3) (e f : BitVec 1) (rel : ElemRel) : Result :=
  let g := s.h.grp
  let A : Regs := (a.toNat, g)
  let B : Regs := (b.toNat, g)
  let n := ewbOf s.h.vtype
  s.issue { srcs := [(A, e == 1), (B, f == 1)], chain := [(A, n, 1), (B, n, 1)] } (!s.h.ewIn ws || !aligned [A, B]) [] fun s =>
    let h := s.h
    let x := h.img A.1 g
    let y := h.img B.1 g
    s.maskwise 4 d.toNat fun i =>
      if h.active k.toNat i then rel h (h.readElem h.ew x i) (h.readElem h.ew y i) else (false, 0)

/-- A compare with a scalar (R144). -/
def State.cmpVX (s : State) (ws : List Nat) (d a b : BitVec 5) (k : BitVec 3) (e : BitVec 1) (rel : ElemRel) : Result :=
  let g := s.h.grp
  let A : Regs := (a.toNat, g)
  s.issue { srcs := [(A, e == 1)], chain := [(A, ewbOf s.h.vtype, 1)] } (!s.h.ewIn ws || !aligned [A]) [] fun s =>
    let h := s.h
    let x := h.img A.1 g
    let y := (s.getG b).toNat % 2 ^ h.ew
    s.maskwise 4 d.toNat fun i =>
      if h.active k.toNat i then rel h (h.readElem h.ew x i) y else (false, 0)

/-- An integer relation, which raises nothing. -/
def intRel (f : Nat → Nat → Nat → Bool) : ElemRel := fun h x y => (f h.ew x y, 0)

/-- x = y -/
def rEq (_w x y : Nat) : Bool := x == y
/-- x ≠ y -/
def rNe (_w x y : Nat) : Bool := x != y
/-- x < y, signed -/
def rLt (w x y : Nat) : Bool := decide (toSigned w x < toSigned w y)
/-- x ≤ y, signed -/
def rLe (w x y : Nat) : Bool := decide (toSigned w x ≤ toSigned w y)
/-- x ≥ y, signed -/
def rGe (w x y : Nat) : Bool := decide (toSigned w y ≤ toSigned w x)
/-- x < y, unsigned -/
def rLtn (_w x y : Nat) : Bool := decide (x < y)
/-- x ≤ y, unsigned -/
def rLen (_w x y : Nat) : Bool := decide (x ≤ y)

/-- VCMP.EQ (R157) -/
def execVcmpEq (d a b : BitVec 5) (k : BitVec 3) (e f : BitVec 1) (s : State) : Result :=
  s.cmpVV ewAll d a b k e f (intRel rEq)
/-- VCMP.NE (R157) -/
def execVcmpNe (d a b : BitVec 5) (k : BitVec 3) (e f : BitVec 1) (s : State) : Result :=
  s.cmpVV ewAll d a b k e f (intRel rNe)
/-- VCMP.LT (R157) -/
def execVcmpLt (d a b : BitVec 5) (k : BitVec 3) (e f : BitVec 1) (s : State) : Result :=
  s.cmpVV ewAll d a b k e f (intRel rLt)
/-- VCMP.LE (R157) -/
def execVcmpLe (d a b : BitVec 5) (k : BitVec 3) (e f : BitVec 1) (s : State) : Result :=
  s.cmpVV ewAll d a b k e f (intRel rLe)
/-- VCMP.LTN (R157) -/
def execVcmpLtn (d a b : BitVec 5) (k : BitVec 3) (e f : BitVec 1) (s : State) : Result :=
  s.cmpVV ewAll d a b k e f (intRel rLtn)
/-- VCMP.LEN (R157) -/
def execVcmpLen (d a b : BitVec 5) (k : BitVec 3) (e f : BitVec 1) (s : State) : Result :=
  s.cmpVV ewAll d a b k e f (intRel rLen)
/-- VCMP.LT.X (R157) -/
def execVcmpLtX (d a b : BitVec 5) (k : BitVec 3) (e : BitVec 1) (s : State) : Result :=
  s.cmpVX ewAll d a b k e (intRel rLt)
/-- VCMP.GE.X (R157) -/
def execVcmpGeX (d a b : BitVec 5) (k : BitVec 3) (e : BitVec 1) (s : State) : Result :=
  s.cmpVX ewAll d a b k e (intRel rGe)

end Sys2Proof.Machine
end

