-- ==== Sys2Proof/Machine/Pack.lean ====
section
/-! DEFINITION. Plans, packing, the packed convolution and its guard monitor (08 R127 to R132, 10 R169 to R175). -/

namespace Sys2Proof.Machine

/-! ### Plan words (R127, R128) -/

/-- W -/
def planW (p : Word) : Nat := fld p 0 4 + 1
/-- S -/
def planS (p : Word) : Nat := fld p 4 5 + 1
/-- N -/
def planN (p : Word) : Nat := fld p 9 4 + 1
/-- SA -/
def planSA (p : Word) : Bool := p.getLsbD 13
/-- SB -/
def planSB (p : Word) : Bool := p.getLsbD 14
/-- REV -/
def planRev (p : Word) : Bool := p.getLsbD 15
/-- X -/
def planX (p : Word) : Nat := fld p 16 7
/-- MODE -/
def planMode (p : Word) : Bool := p.getLsbD 23
/-- Whether the coefficients are signed. -/
def planSigned (p : Word) : Bool := planSA p || planSB p

/-- Whether a plan word is legal (R128). -/
def planLegal (p : Word) : Bool :=
  decide (fld p 4 5 ≠ 0) && decide (planN p * planS p ≤ 64) && decide (planS p ≤ planX p) && decide (planX p ≤ 2 * planS p) &&
    decide (fld p 24 40 = 0)

/-- The capacity of a coefficient (R128): least and largest value. -/
def planCap (p : Word) : Int × Int :=
  if planSigned p then (-(2 ^ (planX p - 1) : Nat), (2 ^ (planX p - 1) : Nat) - 1) else (0, (2 ^ planX p : Nat) - 1)

/-- The low `n` bits of an integer, signed or not. -/
def window (sg : Bool) (n : Nat) (r : Int) : Int :=
  let f := r % (2 ^ n : Nat)
  if sg && decide ((2 ^ (n - 1) : Nat) ≤ f) then f - (2 ^ n : Nat) else f

/-- V(r, k) with stride `st` and window `x` (R130). -/
def coef (sg : Bool) (st x : Nat) : Nat → Int → Int
  | 0, r => window sg x r
  | k + 1, r => coef sg st x k ((r - window sg st r) / (2 ^ st : Nat))

/-- Removes the `n` lowest fields: the fields and what remains (R172). -/
def splitFields (sg : Bool) (st : Nat) : Nat → Int → List Int
  | 0, r => [r]
  | n + 1, r => window sg st r :: splitFields sg st n ((r - window sg st r) / (2 ^ st : Nat))

/-- A 64-bit word read under a sign bit. -/
def wordInt (sg : Bool) (x : Nat) : Int := if sg then toSigned 64 x else (x : Int)

/-- The coefficients c_0 to c_(2N-2) of the fields of two words (R129). -/
def convolve (a b : List Int) (n : Nat) : List Int :=
  (List.range (2 * n - 1)).map fun k =>
    ((List.range (k + 1)).map fun i => a.getD i 0 * b.getD (k - i) 0).sum

/-! ### PLAN (R169) -/

/-- Plan register `n`. -/
def Hart.plan (h : Hart) (n : Nat) : Word := (h.pl[n]?).getD 0

/-- PLANSET (R169) -/
def execPlanset (p a : BitVec 5) (s : State) : Result :=
  s.check [(!planLegal (s.getG a), 0x02, s.ir)] fun s =>
    .next ({ s with h := { s.h with pl := s.h.pl.setIfInBounds p.toNat (s.getG a) } }.adv 4)

/-- PLANGET (R169) -/
def execPlanget (d p : BitVec 5) (s : State) : Result := .next (s.setGAdv d (s.h.plan p.toNat) 4)

/-- The per-product bound M of R82, widened to M' when windows overlap (R175). -/
def planBound (p : Word) : Nat :=
  let w := planW p
  let m := if planSA p && planSB p then planN p * 2 ^ (2 * w - 2)
    else if planSigned p then planN p * 2 ^ (w - 1) * (2 ^ w - 1)
    else planN p * (2 ^ w - 1) ^ 2
  if planX p = planS p then m else m * (1 + 2 ^ planS p)

/-- Whether every coefficient of a pair leaves room for one more product (R175). -/
def guardOk (p : Word) (r : Int) : Bool :=
  let m : Int := planBound p
  let lo := (planCap p).1 + (if planSigned p then m else 0)
  let hi := (planCap p).2 - m
  (List.range (2 * planN p - 1)).all fun k =>
    let v := coef (planSigned p) (planS p) (planX p) k r
    decide (lo ≤ v) && decide (v ≤ hi)

/-- A pair element as a signed 128-bit value (R170). -/
def pairInt (x : Nat) : Int := toSigned 128 x

/-- The plan instructions' illegal operands that all share (R128, R170). -/
def State.planBad (s : State) (n : Nat) : Bool := s.h.ew != 64 || !planLegal (s.h.plan n)

/-- VGCHK (R175) -/
def execVgchk (d a p : BitVec 5) (k : BitVec 3) (e : BitVec 1) (s : State) : Result :=
  let g := s.h.grp
  let A : Regs := (a.toNat, 2 * g)
  s.issue { srcs := [(A, e == 1)], chain := [(A, 16, 1)] } (s.planBad p.toNat || g == 8 || !aligned [A]) [] fun s =>
    let h := s.h
    let x := h.img A.1 (2 * g)
    s.maskwise 4 d.toNat fun i =>
      (h.active k.toNat i && guardOk (h.plan p.toNat) (pairInt (h.readElem 128 x i)), 0)

/-! ### VPACK (R171) -/

/-- The packed word of an element's fields: `side` is the B side. -/
def packWord (p : Word) (side : Bool) (x : Nat) : Nat :=
  let w := planW p
  let n := planN p
  let sg := if side then planSB p else planSA p
  let f := (List.range n).map fun j =>
    (if sg then toSigned w (elem w x j) else (elem w x j : Int)) *
      (2 ^ ((if side && planRev p then n - 1 - j else j) * planS p) : Nat)
  ofSigned 64 f.sum

/-- VPACK of one side (R171). -/
def State.vpack (s : State) (d a : BitVec 5) (k : BitVec 3) (e : BitVec 1) (p : BitVec 3) (side : Bool) : Result :=
  let pw := s.h.plan p.toNat
  let g := s.h.grp
  let D : Regs := (d.toNat, g)
  let A : Regs := (a.toNat, g)
  s.issue { dst := [D], srcs := [(A, e == 1)], lvd := some d, chain := [(A, 8, 1)] }
    (s.planBad p.toNat || decide (64 < planN pw * planW pw) || !aligned [D, A] || D.partly A) [] fun s =>
      let h := s.h
      let x := h.img A.1 g
      s.elementwise 4 64 D (h.govern k.toNat 64 (h.img D.1 g) fun i => (packWord pw side (h.readElem 64 x i), 0))

/-- VPACK, the A side (R171) -/
def execVpack (d a : BitVec 5) (k : BitVec 3) (e : BitVec 1) (p : BitVec 3) (s : State) : Result := s.vpack d a k e p false
/-- VPACK.B, the B side (R171) -/
def execVpackB (d a : BitVec 5) (k : BitVec 3) (e : BitVec 1) (p : BitVec 3) (s : State) : Result := s.vpack d a k e p true

/-! ### Element-wise runs that may trap at an element -/

/-- An element-wise run that a trap at element `i` ends, `i` and all above it untouched (R31 TRAP); `pre` says whether a
pre-emption may land between element groups. -/
def State.elementRun (s : State) (len w : Nat) (dst : Regs) (pre : Bool) (trap : Option (Nat × Nat × Word))
    (f : Nat → Nat × Flags) : Result :=
  let h := s.h
  let stop := if pre then h.stopAt h.groupElems h.span else h.span
  let cut : Nat := match trap with | some (i, _) => if i < stop then i else stop | none => stop
  let xs := (List.range' h.start (cut - h.start)).map f
  let fl := raisedFrom h.start xs
  let img := putElems w (h.img dst.1 dst.2) h.start (xs.map (fun x => x.1))
  let t := { s with h := h.setImg dst.1 dst.2 img }
  match trap with
  | some (i, cause, eaddr) =>
    if i < stop then t.trapAt cause i eaddr fl else if stop < h.span then t.stopPart stop fl else t.retire len fl
  | none => if stop < h.span then t.stopPart stop fl else t.retire len fl

/-! ### VCONV (R131, R172) -/

/-- The products of one element: the exact product and its coefficients. -/
def convElem (p : Word) (x y : Nat) : Int × List Int :=
  let n := planN p
  let A := wordInt (planSA p) x
  let B := wordInt (planSB p) y
  (A * B, convolve (splitFields (planSA p) (planS p) (n - 1) A) (splitFields (planSB p) (planS p) (n - 1) B) n)

/-- The lowest coefficient index that the monitor finds outside the capacity (R131). -/
def guardFails (p : Word) (r : Int) (c : List Int) : Option Nat :=
  let st := planS p
  (List.range (2 * planN p - 1)).find? fun k =>
    let e := coef (planSigned p) st (planX p) k r +
      ((List.range (2 * planN p - 1)).map fun j =>
        if k ≤ j ∧ (j - k) * st < planX p then c.getD j 0 * (2 ^ ((j - k) * st) : Nat) else 0).sum
    decide (e < (planCap p).1) || decide ((planCap p).2 < e)

/-- VCONV (R172) -/
def execVconv (d a b : BitVec 5) (k : BitVec 3) (e f : BitVec 1) (p : BitVec 3) (s : State) : Result :=
  let pw := s.h.plan p.toNat
  let g := s.h.grp
  let D : Regs := (d.toNat, 2 * g)
  let A : Regs := (a.toNat, g)
  let B : Regs := (b.toNat, g)
  s.issue { dst := [D], srcs := [(A, e == 1), (B, f == 1)], lvd := some d, chain := [(A, 8, 1), (B, 8, 1)] }
    (s.planBad p.toNat || g == 8 || !aligned [D, A, B] || D.overlap A || D.overlap B) [] fun s =>
      let h := s.h
      let x := h.img A.1 g
      let y := h.img B.1 g
      let old := h.img D.1 (2 * g)
      let step (i : Nat) : Nat × Option Nat :=
        let r := pairInt (elem 128 old i)
        let q := convElem pw (h.readElem 64 x i) (h.readElem 64 y i)
        (ofSigned 128 (r + q.1), guardFails pw r q.2)
      let bad := if planMode pw then none else
        (List.range' h.start (h.span - h.start)).find? fun i => h.active k.toNat i && (step i).2.isSome
      s.elementRun 4 128 D true (bad.map fun i => (i, 0x0B, BitVec.ofNat 64 ((step i).2.getD 0)))
        (h.govern k.toNat 128 old fun i => ((step i).1, if (step i).2.isSome then fGOV else 0))

/-! ### VXTR (R173) -/

/-- VXTR (R173) -/
def execVxtr (d a n : BitVec 5) (k : BitVec 3) (e : BitVec 1) (p : BitVec 3) (s : State) : Result :=
  let pw := s.h.plan p.toNat
  let g := s.h.grp
  let D : Regs := (d.toNat, g)
  let A : Regs := (a.toNat, 2 * g)
  s.issue { dst := [D], srcs := [(A, e == 1)], lvd := some d, chain := [(A, 16, 1)] }
    (s.planBad p.toNat || g == 8 || decide (2 * planN pw - 2 < n.toNat) || !aligned [D, A] || A.overlap D) [] fun s =>
      let h := s.h
      let x := h.img A.1 (2 * g)
      s.elementwise 4 64 D (h.govern k.toNat 64 (h.img D.1 g) fun i =>
        (ofSigned 64 (coef (planSigned pw) (planS pw) (planX pw) n.toNat (pairInt (h.readElem 128 x i))), 0))

end Sys2Proof.Machine
end

