-- ==== Sys2Proof/Machine/VecFp.lean ====
section
/-! DEFINITION. Vector floating point: VFA, VFMA, VSFU, VFCMP, VCVT (09 R153 to R160) and reductions (08 R140, R141, 09 R161). -/

namespace Sys2Proof.Machine

/-- A floating-point operation under FRM on the values of two elements. -/
def fpOp (f : Fmt → RM → FVal → FVal → Nat × Flags) : ElemOp := fun h x y =>
  f h.fmt (frmOf h.rmode) (h.fmt.unpack x) (h.fmt.unpack y)

/-- VFADD -/
def eFadd : ElemOp := fpOp fun f r x y => f.addV r x y
/-- VFSUB: the addends are x and -y (R153) -/
def eFsub : ElemOp := fpOp fun f r x y => f.addV r x y.negate
/-- VFMUL -/
def eFmul : ElemOp := fpOp fun f r x y => f.mulV r x y
/-- VFDIV -/
def eFdiv : ElemOp := fpOp fun f r x y => f.divV r x y
/-- VFMIN -/
def eFmin : ElemOp := fun h x y => h.fmt.minmax false x y
/-- VFMAX -/
def eFmax : ElemOp := fun h x y => h.fmt.minmax true x y

/-- VFADD (R153) -/
def execVfadd (d a b : BitVec 5) (k : BitVec 3) (e f : BitVec 1) (s : State) : Result :=
  s.vv ewFloat d a b k e f eFadd
/-- VFSUB (R153) -/
def execVfsub (d a b : BitVec 5) (k : BitVec 3) (e f : BitVec 1) (s : State) : Result :=
  s.vv ewFloat d a b k e f eFsub
/-- VFMUL (R153) -/
def execVfmul (d a b : BitVec 5) (k : BitVec 3) (e f : BitVec 1) (s : State) : Result :=
  s.vv ewFloat d a b k e f eFmul
/-- VFDIV (R153) -/
def execVfdiv (d a b : BitVec 5) (k : BitVec 3) (e f : BitVec 1) (s : State) : Result :=
  s.vv ewFloat d a b k e f eFdiv
/-- VFMIN (R153) -/
def execVfmin (d a b : BitVec 5) (k : BitVec 3) (e f : BitVec 1) (s : State) : Result :=
  s.vv ewFloat d a b k e f eFmin
/-- VFMAX (R153) -/
def execVfmax (d a b : BitVec 5) (k : BitVec 3) (e f : BitVec 1) (s : State) : Result :=
  s.vv ewFloat d a b k e f eFmax
/-- VFADD.X (R153) -/
def execVfaddX (d a b : BitVec 5) (k : BitVec 3) (e : BitVec 1) (s : State) : Result :=
  s.vx ewFloat d a b k e eFadd
/-- VFSUB.X (R153) -/
def execVfsubX (d a b : BitVec 5) (k : BitVec 3) (e : BitVec 1) (s : State) : Result :=
  s.vx ewFloat d a b k e eFsub
/-- VFMUL.X (R153) -/
def execVfmulX (d a b : BitVec 5) (k : BitVec 3) (e : BitVec 1) (s : State) : Result :=
  s.vx ewFloat d a b k e eFmul
/-- VFDIV.X (R153) -/
def execVfdivX (d a b : BitVec 5) (k : BitVec 3) (e : BitVec 1) (s : State) : Result :=
  s.vx ewFloat d a b k e eFdiv
/-- VFMIN.X (R153) -/
def execVfminX (d a b : BitVec 5) (k : BitVec 3) (e : BitVec 1) (s : State) : Result :=
  s.vx ewFloat d a b k e eFmin
/-- VFMAX.X (R153) -/
def execVfmaxX (d a b : BitVec 5) (k : BitVec 3) (e : BitVec 1) (s : State) : Result :=
  s.vx ewFloat d a b k e eFmax
/-- VFSQRT (R153) -/
def execVfsqrt (d a : BitVec 5) (k : BitVec 3) (e : BitVec 1) (s : State) : Result :=
  s.v1 ewFloat d a k e fun h x => h.fmt.sqrtV (frmOf h.rmode) (h.fmt.unpack x)

/-- |x|: a NaN gives the default NaN (R153). -/
def Fmt.absV (f : Fmt) (x : Nat) : Nat × Flags :=
  match f.unpack x with
  | .nan sg => f.nanOf sg
  | _ => (x % f.signBit, 0)

/-- VFABS (R153) -/
def execVfabs (d a : BitVec 5) (k : BitVec 3) (e : BitVec 1) (s : State) : Result :=
  s.v1 ewFloat d a k e fun h x => h.fmt.absV x

/-! ### VFMA (R154) -/

/-- A fused operation on elements x, y and the addend a, with the signs of the member. -/
def fusedElem (negP negA : Bool) (h : Hart) (x y a : Nat) : Nat × Flags :=
  let X := h.fmt.unpack x
  let A := h.fmt.unpack a
  h.fmt.fmaV (frmOf h.rmode) (if negP then X.negate else X) (h.fmt.unpack y) (if negA then A.negate else A)

/-- A VFMA member with two vector sources: vd is the addend. -/
def State.vfma (s : State) (d a b : BitVec 5) (k : BitVec 3) (e f : BitVec 1) (negP negA : Bool) (len : Nat := 4) : Result :=
  let g := s.h.grp
  let D : Regs := (d.toNat, g)
  let A : Regs := (a.toNat, g)
  let B : Regs := (b.toNat, g)
  let n := ewbOf s.h.vtype
  s.issue { dst := [D], srcs := [(A, e == 1), (B, f == 1)], lvd := some d, chain := [(A, n, 1), (B, n, 1)], compact := len == 2 }
    (!s.h.ewIn ewFloat || !aligned [D, A, B] || D.partly A || D.partly B) [] fun s =>
      let h := s.h
      let x := h.img A.1 g
      let y := h.img B.1 g
      let z := h.img D.1 g
      s.elementwise len h.ew D (h.govern k.toNat h.ew z fun i =>
        fusedElem negP negA h (h.readElem h.ew x i) (h.readElem h.ew y i) (elem h.ew z i))

/-- A VFMA member with a scalar factor. -/
def State.vfmaX (s : State) (d a b : BitVec 5) (k : BitVec 3) (e : BitVec 1) (negP negA : Bool) (len : Nat := 4) : Result :=
  let g := s.h.grp
  let D : Regs := (d.toNat, g)
  let A : Regs := (a.toNat, g)
  s.issue { dst := [D], srcs := [(A, e == 1)], lvd := some d, chain := [(A, ewbOf s.h.vtype, 1)], compact := len == 2 }
    (!s.h.ewIn ewFloat || !aligned [D, A] || D.partly A) [] fun s =>
    let h := s.h
    let x := h.img A.1 g
    let y := (s.getG b).toNat % 2 ^ h.ew
    let z := h.img D.1 g
    s.elementwise len h.ew D (h.govern k.toNat h.ew z fun i =>
      fusedElem negP negA h (h.readElem h.ew x i) y (elem h.ew z i))

/-- VFFMA (R154) -/
def execVffma (d a b : BitVec 5) (k : BitVec 3) (e f : BitVec 1) (s : State) : Result := s.vfma d a b k e f false false
/-- VFFMA.X (R154) -/
def execVffmaX (d a b : BitVec 5) (k : BitVec 3) (e : BitVec 1) (s : State) : Result := s.vfmaX d a b k e false false
/-- VFFMS (R154) -/
def execVffms (d a b : BitVec 5) (k : BitVec 3) (e f : BitVec 1) (s : State) : Result := s.vfma d a b k e f false true
/-- VFFMS.X (R154) -/
def execVffmsX (d a b : BitVec 5) (k : BitVec 3) (e : BitVec 1) (s : State) : Result := s.vfmaX d a b k e false true
/-- VFNMA (R154) -/
def execVfnma (d a b : BitVec 5) (k : BitVec 3) (e f : BitVec 1) (s : State) : Result := s.vfma d a b k e f true false
/-- VFNMA.X (R154) -/
def execVfnmaX (d a b : BitVec 5) (k : BitVec 3) (e : BitVec 1) (s : State) : Result := s.vfmaX d a b k e true false
/-- VFNMS (R154) -/
def execVfnms (d a b : BitVec 5) (k : BitVec 3) (e f : BitVec 1) (s : State) : Result := s.vfma d a b k e f true true
/-- VFNMS.X (R154) -/
def execVfnmsX (d a b : BitVec 5) (k : BitVec 3) (e : BitVec 1) (s : State) : Result := s.vfmaX d a b k e true true

/-! ### VSFU (R155) -/

/-- A VSFU member: rounded RNE, run to completion, and vd is empty until the unit delivers (R27, R148). R147 names VSFU neither as
element-wise nor as waiting for its whole source: with e = 0 it waits until every register of the source is full (DESIGN CHOICE,
log 66). -/
def State.vsfu (s : State) (d a : BitVec 5) (k : BitVec 3) (e : BitVec 1) (f : Fmt → FVal → Nat × Flags) : Result :=
  let g := s.h.grp
  let D : Regs := (d.toNat, g)
  let A : Regs := (a.toNat, g)
  s.issue { dst := [D], srcs := [(A, e == 1)], lvd := some d } (!s.h.ewIn ewFloat || !aligned [D, A] || D.partly A) [] fun s =>
    let h := s.h
    let x := h.img A.1 g
    let ys : List (Nat × Flags) := (List.range h.span).map
      (h.govern k.toNat h.ew (h.img D.1 g) fun i => f h.fmt (h.fmt.unpack (h.readElem h.ew x i)))
    { s with h := h.promiseGroup .pipe D (putElems h.ew (h.img D.1 g) 0 (ys.map Prod.fst)) }.retire 4 (raisedFrom 0 ys)

/-- VRCP (R155) -/
def execVrcp (d a : BitVec 5) (k : BitVec 3) (e : BitVec 1) (s : State) : Result := s.vsfu d a k e Fmt.rcpV
/-- VRSQ (R155) -/
def execVrsq (d a : BitVec 5) (k : BitVec 3) (e : BitVec 1) (s : State) : Result := s.vsfu d a k e Fmt.rsqV
/-- VEXP2 (R155) -/
def execVexp2 (d a : BitVec 5) (k : BitVec 3) (e : BitVec 1) (s : State) : Result := s.vsfu d a k e Fmt.exp2V
/-- VLOG2 (R155) -/
def execVlog2 (d a : BitVec 5) (k : BitVec 3) (e : BitVec 1) (s : State) : Result := s.vsfu d a k e Fmt.log2V

/-! ### VFCMP (R157, R158) -/

/-- A floating-point relation: `nan` is its value when an operand is a NaN. -/
def fpRel (quiet nan : Bool) (rel : FVal → FVal → Bool) : ElemRel := fun h x y =>
  let X := h.fmt.unpack x
  let Y := h.fmt.unpack y
  if X.isNaN || Y.isNaN then (nan, if X.isS || Y.isS || !quiet then fNV else 0) else (rel X Y, 0)

/-- x = y -/
def rFeq : ElemRel := fpRel true false FVal.eq
/-- not (x = y) -/
def rFne : ElemRel := fpRel true true fun x y => !x.eq y
/-- x < y -/
def rFlt : ElemRel := fpRel false false FVal.lt
/-- x ≤ y -/
def rFle : ElemRel := fpRel false false fun x y => !y.lt x
/-- x ≥ y -/
def rFge : ElemRel := fpRel false false fun x y => !x.lt y
/-- either is a NaN -/
def rFunord : ElemRel := fpRel true true fun _ _ => false

/-- VFCMP.FEQ (R157) -/
def execVfcmpFeq (d a b : BitVec 5) (k : BitVec 3) (e f : BitVec 1) (s : State) : Result :=
  s.cmpVV ewFloat d a b k e f rFeq
/-- VFCMP.FNE (R157) -/
def execVfcmpFne (d a b : BitVec 5) (k : BitVec 3) (e f : BitVec 1) (s : State) : Result :=
  s.cmpVV ewFloat d a b k e f rFne
/-- VFCMP.FLT (R157) -/
def execVfcmpFlt (d a b : BitVec 5) (k : BitVec 3) (e f : BitVec 1) (s : State) : Result :=
  s.cmpVV ewFloat d a b k e f rFlt
/-- VFCMP.FLE (R157) -/
def execVfcmpFle (d a b : BitVec 5) (k : BitVec 3) (e f : BitVec 1) (s : State) : Result :=
  s.cmpVV ewFloat d a b k e f rFle
/-- VFCMP.FUNORD (R157) -/
def execVfcmpFunord (d a b : BitVec 5) (k : BitVec 3) (e f : BitVec 1) (s : State) : Result :=
  s.cmpVV ewFloat d a b k e f rFunord
/-- VFCMP.FLT.X (R157) -/
def execVfcmpFltX (d a b : BitVec 5) (k : BitVec 3) (e : BitVec 1) (s : State) : Result :=
  s.cmpVX ewFloat d a b k e rFlt
/-- VFCMP.FGE.X (R157) -/
def execVfcmpFgeX (d a b : BitVec 5) (k : BitVec 3) (e : BitVec 1) (s : State) : Result :=
  s.cmpVX ewFloat d a b k e rFge

/-! ### VCVT (R159, R160) -/

/-- A float element to an integer of the same width: U selects the unsigned range. -/
def toIntElem (h : Hart) (r : RM) (u : BitVec 1) (x : Nat) : Nat × Flags :=
  let w := h.ew
  let lo : Int := if u = 1 then 0 else -(2 ^ (w - 1) : Nat)
  let hi : Int := if u = 1 then (2 ^ w : Nat) - 1 else (2 ^ (w - 1) : Nat) - 1
  let y := (h.fmt.unpack x).toInt r lo hi
  (ofSigned w y.1, y.2)

/-- VCVT.FI (R159) -/
def execVcvtFi (d a : BitVec 5) (u : BitVec 1) (k : BitVec 3) (e : BitVec 1) (s : State) : Result :=
  s.v1 ewFloat d a k e fun h x => toIntElem h (xrmOf h.rmode) u x
/-- VTRUNC (R159) -/
def execVtrunc (d a : BitVec 5) (u : BitVec 1) (k : BitVec 3) (e : BitVec 1) (s : State) : Result :=
  s.v1 ewFloat d a k e fun h x => toIntElem h .rtz u x
/-- VCVT.IF (R159) -/
def execVcvtIf (d a : BitVec 5) (u : BitVec 1) (k : BitVec 3) (e : BitVec 1) (s : State) : Result :=
  s.v1 ewFloat d a k e fun h x => h.fmt.ofInt (frmOf h.rmode) (if u = 1 then x else toSigned h.ew x)
/-- VFWIDEN (R159) -/
def execVfwiden (d a : BitVec 5) (k : BitVec 3) (e : BitVec 1) (s : State) : Result :=
  s.vwide [16] d [(a, e)] k fun h _ xs => h.fmt.convert .f32 .rne (xs.headD 0)
/-- VFNARROW (R159) -/
def execVfnarrow (d a : BitVec 5) (k : BitVec 3) (e : BitVec 1) (s : State) : Result :=
  s.vnarrowing [16] d a e [] k fun h x _ => Fmt.f32.convert h.fmt (frmOf h.rmode) x
/-- VSWIDEN (R159) -/
def execVswiden (d a : BitVec 5) (k : BitVec 3) (e : BitVec 1) (s : State) : Result :=
  s.vwide ewNarrow d [(a, e)] k fun h _ xs => (ofSigned (2 * h.ew) (toSigned h.ew (xs.headD 0)), 0)
/-- VZWIDEN (R159) -/
def execVzwiden (d a : BitVec 5) (k : BitVec 3) (e : BitVec 1) (s : State) : Result :=
  s.vwide ewNarrow d [(a, e)] k fun _ _ xs => (xs.headD 0, 0)

/-! ### Reductions (R140, R141, R161) -/

/-- The active elements of an image with their indices, ascending. -/
def Hart.activeElems (h : Hart) (km x : Nat) : List (Nat × Nat) :=
  (List.range h.span).filterMap fun i => if h.active km i then some (i, h.readElem h.ew x i) else none

/-- The common course of a reduction: vd[0] alone is written (R161). `f` gives the result and the flags raised from the
active elements and the initial value. -/
def State.reduce (s : State) (ws : List Nat) (d a b : BitVec 5) (k : BitVec 3) (e f : BitVec 1)
    (op : Hart → List (Nat × Nat) → Nat → Nat × Raised) : Result :=
  let g := s.h.grp
  let D : Regs := (d.toNat, g)
  let A : Regs := (a.toNat, g)
  let B : Regs := (b.toNat, g)
  s.issue { dst := [D], srcs := [(A, e == 1), (B, f == 1)], lvd := some d }
    (!s.h.ewIn ws || !aligned [D, A, B] || D.overlap A || D.partly B) [] fun s =>
      let h := s.h
      let r := op h (h.activeElems k.toNat (h.img A.1 g)) (h.readElem h.ew (h.img B.1 g) 0)
      { s with h := h.setImg D.1 g (putElems h.ew (h.img D.1 g) 0 [r.1]) }.retire 4 r.2

/-- An integer reduction: the initial value takes part. -/
def intFold (op : Nat → Nat → Nat → Nat) (h : Hart) (xs : List (Nat × Nat)) (init : Nat) : Nat × Raised :=
  (xs.foldl (fun acc x => op h.ew acc x.2) init, [])

/-- The lane partials of R140: element i goes into partial i mod GRANT, with its flags under index i. -/
def lanePartials (op : Nat → Nat → Nat × Flags) (lanes : Nat) (xs : List (Nat × Nat)) : List Nat × Raised :=
  xs.foldl (fun acc x =>
    let l := x.1 % max 1 lanes
    let r := op (acc.1.getD l 0) x.2
    (acc.1.set l r.1, (x.1, r.2) :: acc.2)) (List.replicate lanes 0, [])

/-- One fold step: partial l takes partial l + L, for l below L. -/
def foldStep (op : Nat → Nat → Nat × Flags) (L : Nat) (p : List Nat) : List Nat × Flags :=
  let rs := (List.range L).map fun l => op (p.getD l 0) (p.getD (l + L) 0)
  (rs.map (·.1) ++ p.drop L, rs.foldl (fun acc r => acc ||| r.2) 0)

/-- The folds for L, L / 2, and so on down to 1; halves are rounded down. -/
def foldAll (op : Nat → Nat → Nat × Flags) : Nat → Nat → List Nat → List Nat × Flags
  | 0, _, p => (p, 0)
  | n + 1, L, p =>
    if L = 0 then (p, 0)
    else
      let r := foldStep op L p
      let t := foldAll op n (L / 2) r.1
      (t.1, r.2 ||| t.2)

/-- A floating-point reduction in the order that GRANT sets (R140). -/
def fpFold (op : Fmt → Nat → Nat → Nat × Flags) (h : Hart) (xs : List (Nat × Nat)) (init : Nat) : Nat × Raised :=
  let lanes := h.grant.toNat
  let p := lanePartials (op h.fmt) lanes xs
  let q := foldAll (op h.fmt) 8 (lanes / 2) p.1
  let r := op h.fmt (q.1.getD 0 0) init
  (r.1, (0, q.2 ||| r.2) :: p.2)

/-- RND(x + y, fmt, RNE) -/
def fpSum (f : Fmt) (x y : Nat) : Nat × Flags := f.addV .rne (f.unpack x) (f.unpack y)

/-- VREDSUM (R161) -/
def execVredsum (d a b : BitVec 5) (k : BitVec 3) (e f : BitVec 1) (s : State) : Result :=
  s.reduce ewAll d a b k e f (intFold eAdd)
/-- VREDMAX (R161) -/
def execVredmax (d a b : BitVec 5) (k : BitVec 3) (e f : BitVec 1) (s : State) : Result :=
  s.reduce ewAll d a b k e f (intFold eMax)
/-- VREDMIN (R161) -/
def execVredmin (d a b : BitVec 5) (k : BitVec 3) (e f : BitVec 1) (s : State) : Result :=
  s.reduce ewAll d a b k e f (intFold eMin)
/-- VREDMAXN (R161) -/
def execVredmaxn (d a b : BitVec 5) (k : BitVec 3) (e f : BitVec 1) (s : State) : Result :=
  s.reduce ewAll d a b k e f (intFold eMaxn)
/-- VREDMINN (R161) -/
def execVredminn (d a b : BitVec 5) (k : BitVec 3) (e f : BitVec 1) (s : State) : Result :=
  s.reduce ewAll d a b k e f (intFold eMinn)
/-- VFREDSUM (R140, R161) -/
def execVfredsum (d a b : BitVec 5) (k : BitVec 3) (e f : BitVec 1) (s : State) : Result :=
  s.reduce ewFloat d a b k e f (fpFold fpSum)
/-- VFREDMAX (R140, R161) -/
def execVfredmax (d a b : BitVec 5) (k : BitVec 3) (e f : BitVec 1) (s : State) : Result :=
  s.reduce ewFloat d a b k e f (fpFold (fun f x y => f.minmax true x y))
/-- VFREDMIN (R140, R161) -/
def execVfredmin (d a b : BitVec 5) (k : BitVec 3) (e f : BitVec 1) (s : State) : Result :=
  s.reduce ewFloat d a b k e f (fpFold (fun f x y => f.minmax false x y))

end Sys2Proof.Machine
end

