-- ==== Sys2Proof/Machine/Plane.lean ====
section
/-! DEFINITION. BPN segments in registers: planes, narrowing and scales (07 R118 to R121, 10 R176 to R181). -/

namespace Sys2Proof.Machine

/-! ### Headers (R118, R120) -/

/-- E8 -/
def hdrE8 (x : Nat) : Nat := bits x 0 8
/-- ZP -/
def hdrZP (x : Nat) : Nat := bits x 8 8
/-- TAG -/
def hdrTag (x : Nat) : Nat := bits x 16 8
/-- P -/
def hdrP (x : Nat) : Nat := bits x 24 4
/-- S -/
def hdrS (x : Nat) : Bool := x.testBit 28
/-- A -/
def hdrA (x : Nat) : Bool := x.testBit 29

/-- The conditions of R120 but for E8. -/
def hdrFieldsOk (x : Nat) : Bool :=
  decide (bits x 30 34 = 0) && decide (1 ≤ hdrP x) && decide (hdrP x ≤ 8) && (hdrA x || decide (hdrZP x = 0))

/-- Whether a header is valid (R120). -/
def hdrValid (x : Nat) : Bool := hdrFieldsOk x && decide (1 ≤ hdrE8 x) && decide (hdrE8 x ≤ 254)

/-- The header of block `b` of an image. -/
def blockHdr (img b : Nat) : Nat := img >>> (576 * b) % 2 ^ 64

/-- Bit `j` of plane word `t` of block `b`: its place in the image. -/
def planeBit (b t j : Nat) : Nat := 576 * b + 64 + 64 * t + j

/-- The P-bit code of element `j` of block `b` (R119). -/
def codeOf (img b j p : Nat) : Nat :=
  (List.range p).foldl (fun acc t => acc * 2 + (img.testBit (planeBit b t j)).toNat) 0

/-- q_k x 2^(P - kk) - ZP of element `j` of block `b` under a header and a prefix (R119). -/
def prefixVal (img hdr b j k : Nat) : Int :=
  let p := hdrP hdr
  let kk := min k p
  let q : Int := if hdrS hdr then toSigned p (codeOf img b j p) else (codeOf img b j p : Int)
  q / (2 ^ (p - kk) : Nat) * (2 ^ (p - kk) : Nat) - hdrZP hdr

/-! ### Images (R176, R177) -/

/-- Blocks that an image covers. -/
def Hart.blocks (h : Hart) : Nat := (h.span + 63) / 64

/-- The registers of an image from `r`. -/
def Hart.imageRun (h : Hart) (r : BitVec 5) : Regs := (r.toNat, max 1 ((72 * h.blocks + 4095) / 4096))

/-- The first covered block at or above the start whose header is not valid, as a trap (R177). -/
def Hart.badHeader (h : Hart) (img : Nat) : Option (Nat × Nat × Word) :=
  match (List.range' (h.start / 64) (h.blocks - h.start / 64)).find? (fun b => !hdrValid (blockHdr img b)) with
  | none => none
  | some b => some (max h.start (64 * b), 0x17, BitVec.ofNat 64 (72 * b))

/-- The checks of an instruction with an image and an element operand (R176). -/
def State.imageBad (s : State) (ws : List Nat) (vals img : Regs) : Bool :=
  !s.h.ewIn ws || !aligned [vals] || img.past || img.overlap vals

/-! ### VPLANE and VDEQ (R179) -/

/-- VPLANE (R179): runs to completion, and vd is empty until it is done (R27). With e = 0 it waits until its whole source is full (DESIGN
CHOICE, log 66) -/
def execVplane (d a n : BitVec 5) (k : BitVec 3) (e : BitVec 1) (s : State) : Result :=
  let D : Regs := (d.toNat, s.h.grp)
  let A := s.h.imageRun a
  s.issue { dst := [D], srcs := [(A, e == 1)], lvd := some d } (s.imageBad ewNarrow D A) [] fun s =>
    let h := s.h
    let img := h.img A.1 A.2
    let f := h.govern k.toNat h.ew (h.img D.1 D.2) fun i =>
      clampS h.ew (prefixVal img (blockHdr img (i / 64)) (i / 64) (i % 64) n.toNat)
    match h.badHeader img with
    | some b => s.elementRun 4 h.ew D false (some b) f
    | none =>
      let ys : List (Nat × Flags) := (List.range' h.start (h.span - h.start)).map f
      { s with h := h.promiseGroup .pipe D (putElems h.ew (h.img D.1 D.2) h.start (ys.map Prod.fst)) }.retire 4 (raisedFrom h.start ys)

/-- VDEQ (R179) -/
def execVdeq (d a n : BitVec 5) (k : BitVec 3) (e : BitVec 1) (s : State) : Result :=
  let D : Regs := (d.toNat, s.h.grp)
  let A := s.h.imageRun a
  s.issue { dst := [D], srcs := [(A, e == 1)], lvd := some d, chain := [(A, 72, 64)] } (s.imageBad ewFloat D A) [] fun s =>
    let h := s.h
    let img := h.img A.1 A.2
    s.elementRun 4 h.ew D true (h.badHeader img) (h.govern k.toNat h.ew (h.img D.1 D.2) fun i =>
      let hdr := blockHdr img (i / 64)
      let u := prefixVal img hdr (i / 64) (i % 64) n.toNat
      h.fmt.round (frmOf h.rmode) (u < 0) u.natAbs ((hdrE8 hdr : Int) - 127) false)

/-! ### Writing codes (R180) -/

/-- The least and largest code of a header (R121). -/
def codeRange (hdr : Nat) : Int × Int :=
  if hdrS hdr then (-(2 ^ (hdrP hdr - 1) : Nat), (2 ^ (hdrP hdr - 1) : Nat) - 1) else (0, (2 ^ hdrP hdr : Nat) - 1)

/-- Sets bit `i` of a number. -/
def putBit (x i : Nat) (b : Bool) : Nat := if x.testBit i = b then x else if b then x + 2 ^ i else x - 2 ^ i

/-- Writes a code into element `j` of block `b`, plane 0 the most significant, and zeroes the plane words from P on (R180). Of a
code ZP that does not fit P bits, which R120 allows, the low P bits are stored (DESIGN CHOICE, log 57). -/
def putCode (img hdr b j : Nat) (code : Int) : Nat :=
  let p := hdrP hdr
  let c := ofSigned p code
  let img := (List.range p).foldl (fun m t => putBit m (planeBit b t j) (c.testBit (p - 1 - t))) img
  img - (img >>> (planeBit b p 0) % 2 ^ (64 * (8 - p))) <<< (planeBit b p 0)

/-- Zeroes the plane words from P on of block `b` (R180). -/
def clearHigh (img hdr b : Nat) : Nat :=
  img - (img >>> (planeBit b (hdrP hdr) 0) % 2 ^ (64 * (8 - hdrP hdr))) <<< (planeBit b (hdrP hdr) 0)

/-- ZP as a code; 0 when A = 0 (R120 gives ZP = 0 then). -/
def zeroCode (hdr : Nat) : Int := hdrZP hdr

/-- Clamps a code to its range, with SAT (R121). -/
def clampCode (hdr : Nat) (c : Int) : Int × Flags :=
  if (codeRange hdr).2 < c then ((codeRange hdr).2, fSAT) else if c < (codeRange hdr).1 then ((codeRange hdr).1, fSAT) else (c, 0)

/-- What a narrowing carries from element to element: the image, the carry, the E8 of the last active element's block, and the
flags raised. -/
structure Chain where
  img : Nat
  carry : Nat
  e8 : Option Nat
  flags : Raised

/-- One element of a narrowing: the code of an active element with its flags and the carry after it. -/
abbrev Narrow := (hdr : Nat) → Chain → (x : Nat) → Int × Nat × Flags

/-- One element of VTOPLANE or VNARROW (R180). -/
def Hart.narrowOne (h : Hart) (km xs : Nat) (f : Narrow) (c : Chain) (i : Nat) : Chain :=
  let b := i / 64
  let hdr := blockHdr c.img b
  if h.active km i then
    let r := f hdr c (h.readElem h.ew xs i)
    { img := putCode c.img hdr b (i % 64) r.1, carry := r.2.1, e8 := some (hdrE8 hdr),
      flags := if r.2.2 = 0 then c.flags else (i, r.2.2) :: c.flags }
  else { c with img := if h.ip then putCode c.img hdr b (i % 64) (zeroCode hdr) else clearHigh c.img hdr b }

/-- The E8 of the block of the last active element below the start: the chain goes on from it (R121, R180). -/
def Hart.lastE8 (h : Hart) (km img : Nat) : Option Nat :=
  ((List.range h.start).reverse.find? fun i => h.active km i).map fun i => hdrE8 (blockHdr img (i / 64))

/-- The common course of VTOPLANE and VNARROW (R180). `chained` says that EFC is carried. -/
def State.narrowing (s : State) (d a : BitVec 5) (k : BitVec 3) (e : BitVec 1) (chained : Bool) (f : Hart → Narrow) : Result :=
  let V : Regs := (a.toNat, s.h.grp)
  let D := s.h.imageRun d
  s.issue { dst := [D], srcs := [(V, e == 1)], lvd := some d, chain := [(V, ewbOf s.h.vtype, 1)] } (s.imageBad ewFloat V D) [] fun s =>
    let h := s.h
    let img := h.img D.1 D.2
    let stop := h.stopAt h.groupElems h.span
    let bad := h.badHeader img
    let cut : Nat := match bad with | some (i, _) => min i stop | none => stop
    let c := (List.range' h.start (cut - h.start)).foldl (h.narrowOne k.toNat (h.img V.1 V.2) (f h))
      ⟨img, h.efc.toNat % 2 ^ 32, h.lastE8 k.toNat img, []⟩
    let t := { s with h := { h.setImg D.1 D.2 c.img with efc := if chained then BitVec.ofNat 64 c.carry else h.efc } }
    match bad with
    | some (i, cause, eaddr) =>
      if i < stop then t.trapAt cause i eaddr c.flags
      else if stop < h.span then t.stopPart stop c.flags else t.retire 4 c.flags
    | none => if stop < h.span then t.stopPart stop c.flags else t.retire 4 c.flags

/-- A value times 2^-E. -/
def FVal.scale (v : FVal) (e : Int) : FVal :=
  match v with
  | .fin n m x => .fin n m (x - e)
  | v => v

/-- VTOPLANE's element: x / 2^E rounded to an integer under XRM, which raises NX as RND does, plus ZP, clamped (R31, R180) -/
def planeElem (h : Hart) : Narrow := fun hdr c x =>
  match (h.fmt.unpack x).scale ((hdrE8 hdr : Int) - 127) with
  | .nan _ => (zeroCode hdr, c.carry, fNV)
  | .inf n => (if n then (codeRange hdr).1 else (codeRange hdr).2, c.carry, fSAT)
  | .fin n m e =>
    let r := roundInt (xrmOf h.rmode) n m e false
    let q := clampCode hdr (r.1 + hdrZP hdr)
    (q.1, c.carry, q.2 ||| (if r.2 then fNX else 0))

/-- VTOPLANE (R180) -/
def execVtoplane (d a : BitVec 5) (k : BitVec 3) (e : BitVec 1) (s : State) : Result := s.narrowing d a k e false planeElem

/-- v - r for a binary32 v and the integer r nearest to it: exact, +0 when it is zero (R121). -/
def residual (n : Bool) (m : Nat) (e : Int) (r : Int) : Nat :=
  (Fmt.f32.addV .rne (.fin n m e) (.fin (0 < r) r.natAbs 0)).1

/-- VNARROW's element: one link of the chain (R121, R180) -/
def chainElem (h : Hart) : Narrow := fun hdr c x =>
  let E : Int := (hdrE8 hdr : Int) - 127
  let re : Nat × Flags := match c.e8 with
    | none => (c.carry, 0)
    | some p =>
      if p = hdrE8 hdr then (c.carry, 0)
      else match Fmt.f32.unpack c.carry with
        | .fin n m e => if m = 0 then (c.carry, 0) else Fmt.f32.round .rne n m (e + (p : Int) - (hdrE8 hdr : Int)) false
        | _ => (c.carry, 0)
  let v := Fmt.f32.addV .rne ((h.fmt.unpack x).scale E) (Fmt.f32.unpack re.1)
  match Fmt.f32.unpack v.1 with
  | .nan _ => (zeroCode hdr, 0, re.2 ||| v.2 ||| fNV)
  | .inf n => (if n then (codeRange hdr).1 else (codeRange hdr).2, 0, re.2 ||| v.2 ||| fSAT)
  | .fin n m e =>
    let r := (roundInt .rne n m e false).1
    let q := clampCode hdr (r + hdrZP hdr)
    (q.1, if r = 0 ∧ m = 0 then 0 else residual n m e r, re.2 ||| v.2 ||| q.2)

/-- VNARROW (R121, R180) -/
def execVnarrow (d a : BitVec 5) (k : BitVec 3) (e : BitVec 1) (s : State) : Result := s.narrowing d a k e true chainElem

/-! ### VQSCALE (R181) -/

/-- The term of m that element value `v` gives: |x| when S = 1, max(x, 0) when S = 0; a NaN is skipped, and a signalling
one raises no flag (DESIGN CHOICE, log 72). -/
def scaleTerm (signed : Bool) (v : FVal) : Option FVal :=
  match v with
  | .nan _ => none
  | .inf n => some (if n && !signed then .fin false 0 0 else .inf false)
  | .fin n m e => some (if n && !signed then .fin false 0 0 else .fin false m e)

/-- The header that VQSCALE writes for block `b`, with its flag (R181). -/
def Hart.scaleBlock (h : Hart) (km xs : Nat) (tmpl : Nat) (b : Nat) : Option (Nat × Raised) :=
  let act := (List.range' (64 * b) 64).filter fun i => h.active km i
  if act = [] then none
  else
    let p := hdrP tmpl
    let B := max 1 (if hdrS tmpl then 2 ^ (p - 1) - 1 else 2 ^ p - 1 - hdrZP tmpl)
    let terms := act.filterMap fun i => (scaleTerm (hdrS tmpl) (h.fmt.unpack (h.readElem h.ew xs i))).map fun v => (i, v)
    let fits (e : Nat) : Bool := terms.all fun t => !(FVal.fin false B ((e : Int) - 127)).lt t.2
    let rest := bits tmpl 8 8 * 2 ^ 8 + (hdrTag tmpl + b) % 256 * 2 ^ 16 + bits tmpl 24 6 * 2 ^ 24
    match (List.range' 1 254).find? fits with
    | some e => some (e + rest, [])
    | none =>
      let i := (terms.find? fun t => (FVal.fin false B 127).lt t.2).map (·.1)
      some (254 + rest, [(i.getD 0, fSAT)])

/-- Puts a header word into an image. -/
def putHdr (img b hdr : Nat) : Nat := putElems 64 img (9 * b) [hdr]

/-- VQSCALE (R181): runs to completion. With e = 0 it waits until its whole source is full (DESIGN CHOICE, log 66) -/
def execVqscale (d a b : BitVec 5) (k : BitVec 3) (e : BitVec 1) (s : State) : Result :=
  let V : Regs := (a.toNat, s.h.grp)
  let D := s.h.imageRun d
  let tmpl := (s.getG b).toNat
  s.issue { dst := [D], srcs := [(V, e == 1)], lvd := some d } (s.imageBad ewFloat V D || !hdrFieldsOk tmpl) [] fun s =>
    let h := s.h
    let xs := h.img V.1 V.2
    let r := (List.range h.blocks).foldl (fun acc b =>
      match h.scaleBlock k.toNat xs tmpl b with
      | none => acc
      | some (hdr, fl) => (putHdr acc.1 b hdr, fl ++ acc.2)) (h.img D.1 D.2, ([] : Raised))
    { s with h := h.setImg D.1 D.2 r.1 }.retire 4 r.2

end Sys2Proof.Machine
end

