-- ==== Sys2Proof/Machine/Edge.lean ====
section
/-! DEFINITION. Arrival edges, the log ring, carried tags, event records and timeline events (16 R295 to R309, 13 R252). -/

namespace Sys2Proof.Machine

/-! ### Edges -/

/-- The sequence number after `q`: values whose low 28 bits are 0 are skipped (R295). -/
def nextSeq (q : BitVec 61) : BitVec 61 := if (q + 1).toNat % 2 ^ 28 = 0 then q + 2 else q + 1

/-- A delta in cy from the step origin, saturated to a signed 32-bit count (R303). -/
def deltaOf (clk : Nat) (origin : Word) : Nat :=
  let d : Int := (clk : Int) - (origin.toNat : Int)
  ofSigned 32 (if d < -(2 ^ 31) then -(2 ^ 31) else if 2 ^ 31 - 1 < d then 2 ^ 31 - 1 else d)

/-- An arrival record as one number, byte 0 lowest (Table 16-3). -/
def recordOf (edge prior : Word) (wkind waiter pkind pid begin_ arrive : Nat) : Nat :=
  edge.toNat + prior.toNat * 2 ^ 64 + waiter % 2 ^ 12 * 2 ^ 128 + wkind % 16 * 2 ^ 156 + pid % 2 ^ 28 * 2 ^ 160 +
    pkind % 16 * 2 ^ 188 + begin_ * 2 ^ 192 + arrive * 2 ^ 224

/-- The byte offset of slot `head` of the ring of a CPLOG value, within its island SRAM (R304). -/
def ringSlot (cplog : Word) (head : Nat) : Nat := fld cplog 12 14 * 4096 + 32 * head

/-- Records a CPLOG ring holds. -/
def ringSize (cplog : Word) : Nat := 2 ^ (7 + fld cplog 8 4)

/-- CPLOG after a record was written: HEAD advances, WRAPS counts its wraps and saturates (R304). -/
def ringAdvance (cplog : Word) : Word :=
  let head := (fld cplog 26 20 + 1) % ringSize cplog
  let wraps := if head = 0 then min (fld cplog 46 18 + 1) (2 ^ 18 - 1) else fld cplog 46 18
  setFld (setFld cplog 26 20 head) 46 18 wraps

/-- Creates an edge on an island: its ID and the state with its record, when the log is enabled (R295, R303 to R305). -/
def State.newEdge (s : State) (isl : BitVec 3) (wkind waiter pkind pid : Nat) (prior : Word) (began : Nat) : Word × State :=
  let i := s.island isl
  let q := nextSeq i.seq
  let id : Word := BitVec.ofNat 64 (isl.toNat * 2 ^ 61 + q.toNat)
  let s := s.setIsland isl { i with seq := q }
  if i.cplog.getLsbD 0 then
    let x := recordOf id prior wkind waiter pkind pid (deltaOf began i.origin) (deltaOf s.clk i.origin)
    let s := s.poke (sramKey isl.toNat (ringSlot i.cplog (fld i.cplog 26 20))) 32 x
    (id, s.setIsland isl { s.island isl with cplog := ringAdvance i.cplog })
  else (id, s)

/-- CPTHR of an island in cy (R297). -/
def State.cpthr (s : State) (isl : BitVec 3) : Nat := fld (s.island isl).cpthr 0 32

/-- CPTAG takes an edge when it is one (R297). -/
def State.carry (s : State) (edge : Word) : State :=
  if edge = 0 then s else s.setCptag edge

/-- The end on an arrival of a recording wait of the hart that moves that began at the cycle given, if it did wait (R297): `prior` is the
producer's edge. -/
def State.arrivedSince (s : State) (since : Option Nat) (wkind pkind pid : Nat) (prior : Word) : State :=
  match since with
  | none => s.carry prior
  | some t =>
    if s.cpthr s.myIsland ≤ s.clk - t then
      let (id, s) := s.newEdge s.myIsland wkind s.h.id.toNat pkind pid prior t
      s.setCptag id
    else s.carry prior

/-- The end of the wait in which the hart that moves stands, if it does. -/
def State.arrived (s : State) (wkind pkind pid : Nat) (prior : Word) : State := s.arrivedSince s.h.waitSince wkind pkind pid prior

/-! ### Carried tags (R300, R301) -/

/-- Producer kind of a tag. -/
def tagKind (t : BitVec 48) : Nat := bits t.toNat 45 3
/-- Producer ID of a tag. -/
def tagPid (t : BitVec 48) : Nat := bits t.toNat 31 14

/-- The most recent sequence number up to `q` with the low 28 bits given. -/
def recentSeq (q : BitVec 61) (low : Nat) : Nat :=
  let base := q.toNat / 2 ^ 28 * 2 ^ 28 + low
  if base ≤ q.toNat then base else (base + 2 ^ 61 - 2 ^ 28) % 2 ^ 61

/-- The prior edge that a tag names (R301). For a producer on another package bits [60:28] are 0. -/
def State.tagEdge (s : State) (t : BitVec 48) : Word :=
  let low := bits t.toNat 0 28
  let isl := bits t.toNat 28 3
  if low = 0 then 0
  else if tagKind t = 3 ∨ tagKind t = 7 then BitVec.ofNat 64 (isl * 2 ^ 61 + low)
  else BitVec.ofNat 64 (isl * 2 ^ 61 + recentSeq (s.island (BitVec.ofNat 3 isl)).seq low)

/-! ### Event records (R252, Table 13-4) -/

/-- An event record without its LOST field. -/
def eventOf (kind err id ch data : Nat) : EventRec :=
  ⟨BitVec.ofNat 64 (kind * 2 ^ 56 + err * 2 ^ 48 + id % 2 ^ 48), BitVec.ofNat 64 (ch * 2 ^ 53 + data % 2 ^ 52)⟩

/-- Posts a record to a core's event queue: dropped and counted when 64 are there (R252). -/
def State.post (s : State) (c : BitVec 10) (r : EventRec) : State :=
  let k := s.core c
  if 64 ≤ k.events.length then s.setCore c { k with lost := k.lost + 1 }
  else s.setCore c { k with
    events := k.events ++ [⟨r.w0, setFld r.w1 56 8 (min k.lost 255)⟩]
    lost := 0 }

/-! ### Timeline events (R308, Table 16-8) -/

/-- Whether a pipe is the macro-op sequencer. -/
def Pipe.sequenced : Pipe → Bool
  | .tile | .xexp => true
  | .lanes | .special | .memory => false

/-- The code of a pipe (Table 16-8). Code 4, stream, stands on no event: every instruction that R308 traces runs in one of the others
(DESIGN CHOICE, log 48). -/
def Pipe.code : Pipe → Nat
  | .lanes => 0
  | .tile | .xexp => 1
  | .special => 2
  | .memory => 3

/-- The lane groups bound to the hart that moves (R286). -/
def State.laneGroupsBound (s : State) : Nat :=
  (s.core s.myCore).bound.countP fun b => b.slot == slotOf s.h.id && decide (s.clk < b.until_)

/-- Writes a timeline event of the hart that moves when its island traces: `pc` and `eix` of the instruction. -/
def State.traceEvent (s : State) (p : Pipe) (isEnd : Bool) (pc : Word) (eix : Nat) : State :=
  let isl := s.myIsland
  let i := s.island isl
  if !i.trctl.getLsbD 0 then s
  else
    let size := 2 ^ (8 + fld i.trctl 26 4)
    if size ≤ i.trpos then
      s.setIsland isl { i with trctl := setFld i.trctl 44 20 (min (fld i.trctl 44 20 + 1) (2 ^ 20 - 1)) }
    else
      let lg := if p.sequenced then 0 else s.laneGroupsBound
      let w0 := s.h.id.toNat * 2 ^ 52 + p.code * 2 ^ 48 + isEnd.toNat * 2 ^ 47 + pc.toNat % 2 ^ 47
      let w1 := deltaOf s.clk i.origin * 2 ^ 32 + lg * 2 ^ 24 + eix % 2 ^ 13
      let s := s.poke (sramKey isl.toNat (fld i.trctl 12 14 * 4096 + 16 * i.trpos)) 16 (w0 + w1 * 2 ^ 64)
      let full := decide (size ≤ i.trpos + 1)
      s.setIsland isl { s.island isl with
        trpos := i.trpos + 1
        trctl := if full then setFld i.trctl 30 1 1 else i.trctl }

/-! ### Traffic counters (R309) -/

/-- Writes an island's block of 16 counters at the offset in TRCTL[43:31]. -/
def State.writeTraffic (s : State) (isl : BitVec 3) : State :=
  let i := s.island isl
  let xs := i.rd.toList ++ i.wr.toList
  let x := xs.foldr (fun w acc => w.toNat + acc * 2 ^ 64) 0
  s.poke (sramKey isl.toNat (fld i.trctl 31 13 * 64)) 128 x

end Sys2Proof.Machine
end

