-- ==== Sys2Proof/Machine/Arrival.lean ====
section
/-! DEFINITION. Shape records' fields, the gang streams of a hart, the end of a stream, and the arrival of an element group at a
register (01 R27 to R30, 13 R239, R245, R246, 16 R296). -/

namespace Sys2Proof.Machine

/-! ### The fields of a shape record (R239) -/

/-- LEN -/
def Shape.len (sh : Shape) : Nat := fld sh[1] 0 48
/-- The number of dimensions in use. -/
def Shape.dims (sh : Shape) : Nat := fld sh[6] 12 2 + 1
/-- Bytes of an element. -/
def Shape.bytes (sh : Shape) : Nat := 2 ^ fld sh[6] 0 2
/-- EWC -/
def Shape.ewc (sh : Shape) : Nat := fld sh[6] 0 2
/-- PERMIT -/
def Shape.permit (sh : Shape) : Bool := sh[6].getLsbD 5
/-- DIR: a write stream -/
def Shape.writes (sh : Shape) : Bool := sh[6].getLsbD 4
/-- GANG -/
def Shape.gang (sh : Shape) : Bool := sh[6].getLsbD 6
/-- EV -/
def Shape.ev (sh : Shape) : Bool := sh[6].getLsbD 14

/-! ### Pending deliveries -/

/-- A delivery of the stream `n`. -/
def Producer.ofStream (n : BitVec 2) : Producer → Bool
  | .stream m => m == n
  | _ => false

/-- A delivery of the gang stream `n`. -/
def Producer.ofGang (n : BitVec 2) : Producer → Bool
  | .gang m _ => m == n
  | _ => false

/-- A delivery of any stream of the hart. -/
def Producer.anyStream : Producer → Bool
  | .stream _ => true
  | _ => false

/-- A delivery of any gang stream. -/
def Producer.anyGang : Producer → Bool
  | .gang _ _ => true
  | _ => false

/-- A register whose producer writes no more is full as it stands (R30, R245). -/
def Fullness.drop (p : Producer → Bool) : Fullness → Fullness
  | .empty x => if p x.by_ then .full else .empty x
  | .full => .full

/-- The hart's registers with the producers that `p` names at an end: each is full as it stands (R30). -/
def Hart.dropPending (h : Hart) (p : Producer → Bool) : Hart := { h with full := h.full.map (Fullness.drop p) }

/-- Whether a producer that `p` names has still to write to a register. -/
def Hart.awaits (h : Hart) (p : Producer → Bool) : Bool :=
  h.full.toList.any fun f => match f with | .empty x => p x.by_ | .full => false

/-! ### The end of a stream (R245, R272) -/

/-- The stream-end record of stream `n` when its shape record asks for one (R245). -/
def State.streamEnded (s : State) (n : BitVec 2) (q : Stream) : State :=
  if q.shape.ev then s.post q.core (eventOf 4 0 n.toNat 0 q.addr.toNat) else s

/-- Ends the stream `n` of the hart that moves: nothing more is delivered, its registers are full as they stand, and a record is
posted when EV asks (R30, R245, R272). -/
def State.endStream (s : State) (n : BitVec 2) : State :=
  match s.h.streams[n.toNat]'n.isLt with
  | none => s
  | some q =>
    let h := s.h.dropPending (Producer.ofStream n)
    { s with h := { h with streams := h.streams.set n.toNat none n.isLt } }.streamEnded n q

/-- Ends the read stream `n` when it has delivered its last position (R245). -/
def State.finishStream (s : State) (n : BitVec 2) : State :=
  match s.h.streams[n.toNat]'n.isLt with
  | none => s
  | some q =>
    if !q.shape.writes && decide (0 < q.pos) && decide (q.shape.len ≤ q.pos) && !s.h.awaits (Producer.ofStream n)
    then s.endStream n else s

/-- Ends every read stream that has delivered its last position. -/
def State.finishStreams (s : State) : State :=
  (((s.finishStream 0).finishStream 1).finishStream 2).finishStream 3

/-! ### Gang streams (R246) -/

/-- The STRIPs of a member since STRMDEF of a gang stream that still delivers to it (R246). -/
def GangStream.strips (q : GangStream) (id : HartId) : Option Nat := (q.at_.find? (fun p => p.1 == id)).map (·.2)

/-- The STRIPs of the slowest member. -/
def GangStream.slowest (q : GangStream) : Nat := (q.at_.map (·.2)).foldl min (2 ^ 64)

/-- The elements of strip `j`, once it is fetched. -/
def GangStream.strip (q : GangStream) (j : Nat) : Option (List (Option Nat)) := (q.fetched.find? (fun p => p.1 == j)).map (·.2)

/-- Whether two records are of the same gang: a mask may name a formed gang that members are leaving and, beside it, one that
forms anew (R275, R276). -/
def Gang.same (x g : Gang) : Bool := x.cores == g.cores && x.grant.isSome == g.grant.isSome

/-- Whether two records are of the same gang stream. -/
def GangStream.same (x q : GangStream) : Bool := x.num == q.num && x.owner == q.owner

/-- Replaces the streams of the formed gang of the hart that moves. -/
def State.mapGangStreams (s : State) (f : List GangStream → List GangStream) : State :=
  match s.gangOf s.h.id with
  | none => s
  | some g =>
    let c := s.cluster s.myCluster
    s.setCluster s.myCluster { c with gangs := c.gangs.map fun x => if x.same g then { x with streams := f x.streams } else x }

/-- Replaces a gang stream of the gang of the hart that moves. -/
def State.putGangStream (s : State) (q : GangStream) : State := s.mapGangStreams fun qs => qs.map fun x => if x.same q then q else x

/-- The gang stream `n` of the gang of the hart that moves. -/
def State.gangStream (s : State) (n : BitVec 2) : Option GangStream :=
  (s.gangOf s.h.id).bind fun g => g.streams.find? fun q => q.num == n

/-- The gang stream `n` ends in the hart that moves when it has delivered its last position there: it is bound there no more, the
member that defined it posts its record, and it is gone once it has ended in every member (R245, R246). -/
def State.finishGang (s : State) (n : BitVec 2) : State :=
  match s.gangStream n with
  | none => s
  | some q =>
    match q.strips s.h.id with
    | none => s
    | some j =>
      if decide (0 < j) && decide (q.stream.shape.len ≤ j * s.h.span) && !s.h.awaits (Producer.ofGang n) then
        let left := q.at_.filter fun p => p.1 != s.h.id
        let t := if left = [] then s.mapGangStreams fun qs => qs.filter fun x => !x.same q else s.putGangStream { q with at_ := left }
        if q.owner = s.h.id then t.streamEnded n q.stream else t
      else s

/-! ### Arrivals (R27, R28, R29, R296) -/

/-- Register number `q` of a group with the elements of `w` bits that a gang stream's strip has for it; the others are those of
`img`, in which the member's own FILLV stands (R26, R246). -/
def gangImage (w : Nat) (xs : List (Option Nat)) (q : Nat) (img : BitVec 32768) : BitVec 32768 :=
  BitVec.ofNat 32768 (packElems w ((List.range (32768 / w)).map fun i =>
    match xs[q * (32768 / w) + i]? with
    | some (some x) => x
    | _ => elem w img.toNat i))

/-- The image that register `r` of the hart that moves holds once what is pending there has come: of a gang stream the elements of
its strip, and none before the strip is fetched (R246). -/
def State.coming (s : State) (r : BitVec 5) (p : Pending) : Option (BitVec 32768) :=
  match p.by_ with
  | .gang n j =>
    (s.gangStream n).bind fun q => (q.strip j).map fun xs =>
      gangImage (8 * q.stream.shape.bytes) xs (r.toNat - bregOf q.stream.shape) p.img
  | _ => some p.img

/-- The image with the first `n` bytes of `new` and the rest of `old`. -/
def firstBytes (n : Nat) (new old : BitVec 32768) : BitVec 32768 :=
  BitVec.ofNat 32768 (new.toNat % 2 ^ (8 * n) + old.toNat >>> (8 * n) <<< (8 * n))

/-- The edge of a wait for an e = 0 source that a stream's delivery ends (R296 kinds 6 and 7). -/
def State.streamArrived (s : State) (p : Producer) : State :=
  match p with
  | .stream n =>
    match s.h.streams[n.toNat]'n.isLt with
    | none => s
    | some q => s.arrived 6 4 (n.toNat * 2 ^ 12 + s.h.id.toNat) q.tag
  | .gang n _ =>
    match s.gangStream n with
    | none => s
    | some q => s.arrived 7 4 (n.toNat * 2 ^ 12 + q.owner.toNat) q.stream.tag
  | .pipe => s

/-- The hart that moves sees that a producer has written to register `r`, the last of it (`last`) or an element group: a wait for
it has what it waits for. -/
def State.wakeReg (s : State) (r : BitVec 5) (p : Producer) (last : Bool) : State :=
  match s.h.slot with
  | .wait (.reg w src part false) since =>
    if w = r ∧ (last || part) then
      let t := if src then s.streamArrived p else s
      { t with h := { t.h with slot := .wait (.reg w src part true) since } }
    else s
  | _ => s

/-- Streams that have delivered their last position end (R245). -/
def State.delivered (s : State) (p : Producer) : State :=
  match p with
  | .stream n => s.finishStream n
  | .gang n _ => s.finishGang n
  | .pipe => s

/-- The producer of register `r` of the hart that moves writes one more element group: the frontier rises, and with the last one
the register is full (R27). -/
def State.arrival (s : State) (r : BitVec 5) : State :=
  match s.h.full[r.toNat]'r.isLt with
  | .full => s
  | .empty p =>
    match s.coming r p with
    | none => s
    | some img =>
      let q := { p with frontier := p.frontier + 1 }
      let last := decide (p.groups ≤ q.frontier)
      let x := if last then img else firstBytes q.written img (s.h.v[r.toNat]'r.isLt)
      let h := { s.h with
        v := s.h.v.set r.toNat x r.isLt
        full := s.h.full.set r.toNat (if last then .full else .empty q) r.isLt }
      let t := { s with h := h }.wakeReg r p.by_ last
      if last then t.delivered p.by_ else t

/-- The producer of register `r` of the hart that moves writes `n` element groups more. -/
def State.arrivals (s : State) (r : BitVec 5) : Nat → State
  | 0 => s
  | n + 1 => State.arrivals (s.arrival r) r n

end Sys2Proof.Machine
end

