-- ==== Sys2Proof/Machine/Image.lean ====
section
/-! DEFINITION. What a hart's state reads as: its CSRs, its context image and its record in a dump (01 R32, R34, 20 R369, 22 R391). -/

namespace Sys2Proof.Machine

/-! ### CSRs as read (R32, R34) -/

/-- What a request names: any free pool block, to serve as Bb for b = 1 to 3, or one accumulator. -/
inductive Want where
  | block (b : Nat)
  | tile (z : BitVec 2)
  deriving DecidableEq, Repr

/-- Whether the hart that moves holds what is named. -/
def State.holds (s : State) : Want → Bool
  | .block b => s.h.held.getLsbD (b - 1)
  | .tile z => s.holdsZ z

/-- CTXSIZE of the hart that moves (R369). -/
def State.ctxSize (s : State) : Nat :=
  40960 + 32768 * (1 + onesBelow3 s.h.held) + 132096 * ((List.finRange 4).countP fun z => s.holdsZ (BitVec.ofNat 2 z.val))
where
  /-- the number of one bits of three -/
  onesBelow3 (x : BitVec 3) : Nat := (x.getLsbD 0).toNat + (x.getLsbD 1).toNat + (x.getLsbD 2).toNat

/-- DBGCTL as a read returns it (Table 22-3). -/
def State.dbgctl (s : State) : Word :=
  let c := s.cluster s.dbgsel
  BitVec.ofNat 64 (s.dbgsel.toNat * 2 ^ 6 + (decide (c.freeze = .frozen)).toNat * 2 ^ 5 + c.stopen.toNat * 2 ^ 4)

/-- The value of an assigned CSR as the hart that moves reads it (R32, R34). -/
def State.csrGet (s : State) (c : Nat) : Word :=
  let h := s.h
  let k := s.core s.myCore
  let i := s.island s.myIsland
  if c = 0x000 then h.vtype
  else if c = 0x001 then h.fillv
  else if c = 0x002 then h.rmode
  else if c = 0x003 then h.fst
  else if c = 0x004 then h.ffx
  else if c = 0x005 then h.efc
  else if c = 0x006 then h.lvd
  else if c = 0x008 then h.eord
  else if 0x00C ≤ c ∧ c ≤ 0x00F then (h.twin[c - 0x00C]?).getD 0
  else if 0x010 ≤ c ∧ c ≤ 0x018 then (h.evx[c - 0x010]?).getD 0
  else if c = 0x020 then h.prog
  else if c = 0x021 then h.progaddr
  else if c = 0x022 then h.cptag
  else if c = 0x024 then h.wtmo
  else if c = 0x200 then h.id.setWidth 64
  else if 0x201 ≤ c ∧ c ≤ 0x206 then (h.idx[c - 0x201]?).getD 0
  else if c = 0x207 then h.grant
  else if c = 0x208 then BitVec.ofNat 64 s.clk
  else if c = 0x209 then h.tshp
  else if 0x210 ≤ c ∧ c ≤ 0x217 then ((k.chans[c - 0x210]?).getD Channel.reset).chst.setWidth 64
  else if c = 0x218 then BitVec.ofNat 64 s.ctxSize
  else if c = 0x219 then h.depcnt
  else if c = 0x400 then h.epc
  else if c = 0x401 then h.eix
  else if c = 0x402 then h.ecause
  else if c = 0x403 then h.eaddr
  else if c = 0x404 then h.estatus
  else if c = 0x405 then h.econv
  else if c = 0x406 then h.tvec
  else if c = 0x407 then h.ptbr
  else if c = 0x408 then h.wshare
  else if c = 0x409 then k.lpart
  else if c = 0x40A then h.tseq
  else if c = 0x40B then i.cplog
  else if c = 0x40C then i.cpthr
  else if c = 0x40D then 0
  else if c = 0x40E then h.ctxa
  else if c = 0x40F then s.dumpa
  else if c = 0x410 then s.dumpctl
  else if c = 0x411 then s.dbgctl
  else if c = 0x412 then (s.cluster s.dbgsel).dbgwp
  else if c = 0x413 then h.escr
  else if c = 0x414 then h.abictl
  else if c = 0x600 then h.fvec
  else if c = 0x601 then i.atoll
  else if c = 0x602 then i.trctl
  else if c = 0x603 then i.hlcache
  else 0

/-! ### The context image (R369, Table 20-7, Table 20-8) -/

/-- The CSRs of the image, in the order of their slots from offset 320. -/
def ctxCsrs : List Nat :=
  [0x000, 0x001, 0x002, 0x003, 0x004, 0x005, 0x006, 0x008, 0x00C, 0x00D, 0x00E, 0x00F, 0x010, 0x011, 0x012, 0x013] ++
  [0x014, 0x015, 0x016, 0x017, 0x018, 0x020, 0x021, 0x022, 0x024, 0x200, 0x201, 0x202, 0x203, 0x204, 0x205, 0x206] ++
  [0x207, 0x209, 0x218, 0x219, 0x400, 0x401, 0x402, 0x403, 0x404, 0x405, 0x406, 0x407, 0x408, 0x40A, 0x414, 0x600]

/-- The blocks of a context, B0 first. -/
def blocksOf (ws : List Want) : List Nat := 0 :: ws.filterMap fun w => match w with | .block b => some b | .tile _ => none
/-- The accumulators of a context. -/
def tilesOf (ws : List Want) : List (BitVec 2) := ws.filterMap fun w => match w with | .block _ => none | .tile z => some z

/-- What the hart that moves holds besides B0, ascending. -/
def State.holding (s : State) : List Want :=
  (([1, 2, 3] : List Nat).map Want.block ++ ([0, 1, 2, 3] : List (BitVec 2)).map Want.tile).filter s.holds

/-- Words of the image of a context with these holdings. -/
def ctxWords (ws : List Want) : Nat := 5120 + 4096 * (blocksOf ws).length + 16512 * (tilesOf ws).length

/-- Word `i` of a bound stream's record in the image: the shape record, the position in its last word. -/
def streamWord (q : Option Stream) (i : Nat) : Word :=
  match q with
  | none => 0
  | some q => if i = 7 then BitVec.ofNat 64 q.pos else (q.shape[i]?).getD 0

/-- Word `i` of a fault record. -/
def FaultRec.word (r : FaultRec) (i : Nat) : Word := if i = 0 then r.va else if i = 1 then r.info else if i = 2 then r.pc else r.who

/-- The registers saved as empty: bit r for vr. -/
def Hart.emptyBits (h : Hart) : Nat := packElems 1 ((List.range 32).map fun r => (!h.isFull r).toNat)

/-- Word `j` of the header of the image. -/
def State.ctxHeader (s : State) (j : Nat) : Word :=
  let zs : List (BitVec 2) := [0, 1, 2, 3]
  if j = 0 then 0x0203
  else if j = 1 then
    BitVec.ofNat 64 (s.h.held.toNat + 2 ^ 3 * packElems 1 (zs.map fun z => (s.holdsZ z).toNat) +
      2 ^ 7 * packElems 1 (zs.map fun z => (s.holdsZ z && (s.accum z).taken).toNat))
  else if j = 2 then BitVec.ofNat 64 s.ctxSize
  else if j = 3 then BitVec.ofNat 64 (packElems 16 (zs.map fun z => if s.holdsZ z then (s.accum z).anchor.toNat else 0))
  else if j = 4 then BitVec.ofNat 64 s.h.emptyBits
  else 0

/-- Word `j` of the low part of the image of the hart that moves: offsets 0 to 40,959. -/
def State.ctxLow (s : State) (j : Nat) : Word :=
  let h := s.h
  if j < 8 then s.ctxHeader j
  else if j < 40 then s.getG (BitVec.ofNat 5 (j - 8))
  else if j < 104 then match ctxCsrs[j - 40]? with | some c => s.csrGet c | none => 0
  else if j < 168 then match h.frq[(j - 104) / 4]? with | some r => r.word ((j - 104) % 4) | none => 0
  else if j < 200 then streamWord ((h.streams[(j - 168) / 8]?).getD none) ((j - 168) % 8)
  else if j < 208 then (h.pl[j - 200]?).getD 0
  else if j < 3152 then BitVec.ofNat 64 (elem 64 (h.getK ((j - 208) / 128 + 1)).toNat ((j - 208) % 128))
  else if j < 4688 then BitVec.ofNat 64 (elem 64 ((h.e[(j - 3152) / 96]?).getD 0).toNat ((j - 3152) % 96))
  else 0

/-- Word `j` of the image of the hart that moves, with its holdings `ws`. -/
def State.ctxWord (s : State) (ws : List Want) (j : Nat) : Word :=
  if j < 5120 then s.ctxLow j
  else
    let i := j - 5120
    let nb := (blocksOf ws).length
    if i < 4096 * nb then
      let r := 8 * ((blocksOf ws)[i / 4096]?).getD 0 + i % 4096 / 512
      BitVec.ofNat 64 (elem 64 (s.h.vreg r).toNat (i % 512))
    else
      let t := i - 4096 * nb
      let a := s.accum (((tilesOf ws)[t / 16512]?).getD 0)
      if t % 16512 < 16384 then BitVec.ofNat 64 (elem 64 a.acc.toNat (t % 16512))
      else BitVec.ofNat 64 (elem 64 a.st.toNat (t % 16512 - 16384))

/-! ### A hart's record in a dump (R391, Table 22-7) -/

/-- Cause code of Table 22-7 for a hart of a frozen cluster. -/
def Cluster.causeFor (c : Cluster) (id : HartId) : Nat :=
  if c.cause.code = 3 ∨ c.cause.hart = some id then c.cause.code else 4

/-- Word `i` of the prefix of a hart's record (Table 22-7): what stands in the queue at the freeze has not had its effect, or stands
between two sequencer units. The model forms no convoy (log 9): a queue head is one of one member. -/
def State.prefixWord (s : State) (h : Hart) (i : Nat) : Word :=
  let c := s.cluster (clusterOf (coreOf h.id))
  if i = 0 then h.id.setWidth 64
  else if i = 1 then h.pc
  else if i = 2 then ((h.vq.head?).map (·.pc)).getD 0
  else if i = 3 then BitVec.ofNat 64 ((if h.vq = [] then 0 else 1) + h.vq.length * 2 ^ 4)
  else if i = 4 then BitVec.ofNat 64 (c.causeFor h.id)
  else if i = 5 then (if c.causeFor h.id = 2 then c.cause.waddr else 0)
  else 0

/-- Word `i` of a hart's record: the prefix, then the context image (R391). -/
def State.recordWord (s : State) (id : HartId) (i : Nat) : Word :=
  let t := s.focus id
  if i < 8 then s.prefixWord t.h i else t.ctxWord t.holding (i - 8)

/-- The numbers of the harts of a cluster, rising. -/
def State.clusterHarts (s : State) (cl : BitVec 6) : List HartId :=
  ((insertHart s.h s.others).map (·.id)).filter fun id => clusterOf (coreOf id) == cl

/-- The words of the records of a cluster's harts, by rising HARTID (R391). -/
def State.dumpRecords (s : State) (cl : BitVec 6) : List (List Word) :=
  (s.clusterHarts cl).map fun id => (List.range (8 + (s.focus id).ctxSize / 8)).map (s.recordWord id)

end Sys2Proof.Machine
end

