-- ==== Sys2Proof/Machine/Csr.lean ====
section
/-! DEFINITION. Control and status registers (01 R32 to R34, 06 R99 to R101, 18 R330, R331, R342, 15 R288, 16 R304, R308, 20 R367,
22 R387 to R390), the sampling of GRANT (01 R22, 15 R289), and freezing a cluster (22 R389). -/

namespace Sys2Proof.Machine

/-! ### GRANT and SPAN -/

/-- The largest GRANT of an LPART mode (Table 15-3). -/
def partGrant (lpart : Word) : Nat := if fld lpart 0 2 = 0 then 128 else if fld lpart 0 2 = 1 then 64 else 32

/-- The GRANT the lanes of core `c` allow now (R289). -/
def State.laneGrant (s : State) (c : BitVec 10) : Nat := min (partGrant (s.core c).lpart) (s.core c).cap

/-- The value a STRIP of the hart that moves samples as GRANT (R289). -/
def State.sampleGrant (s : State) : Nat :=
  match s.gangOf s.h.id with
  | some g => g.grant.getD 0
  | none => s.laneGrant s.myCore

/-- A hart with its VTYPE set and its SPAN recomputed with the GRANT in use (R104). -/
def Hart.setVtype (h : Hart) (vt : Word) : Hart := { h with vtype := vt, span := spanOf h.grant.toNat vt }

/-- Whether a hart may take this VTYPE: a legal one, and the gang's while it is joined (R18, R275). -/
def State.vtypeOk (s : State) (vt : Word) : Bool :=
  legalVtype vt && (match s.gangOf s.h.id with | some g => vt == g.vtype | none => true)

/-! ### Freezing a cluster (R388, R389) -/

/-- Starts to freeze a running cluster: its harts stop issuing. -/
def State.freezeCluster (s : State) (cl : BitVec 6) (code : Nat) (hart : Option HartId) (waddr : Word) : State :=
  let c := s.cluster cl
  if c.freeze = .running then s.setCluster cl { c with freeze := .stopping, cause := ⟨code, hart, waddr, s.clk⟩ } else s

/-- The hart after its cluster was frozen from `at_` to `clk`: WTMO does not count those of its wait (R12, R389). -/
def Hart.thaw (h : Hart) (at_ clk : Nat) : Hart :=
  match h.slot with
  | .wait _ since => { h with lag := h.lag + (clk - max since at_) }
  | _ => h

/-- A reply from the skid buffer reaches its register (R389). -/
def State.drainOne (s : State) (p : HartId × BitVec 5) : State := s.onHart p.1 fun s => s.arrival p.2

/-- Ungates a frozen cluster: the skid buffer drains first, then every hart goes on (R389). -/
def State.unfreeze (s : State) (cl : BitVec 6) : State :=
  let c := s.cluster cl
  if c.freeze ≠ .frozen then s
  else
    let mv (h : Hart) : Hart := if clusterOf (coreOf h.id) = cl then h.thaw c.cause.at_ s.clk else h
    let t := c.skid.foldl State.drainOne (s.setCluster cl { c with freeze := .running, skid := [] })
    { t with h := mv t.h, others := t.others.map mv }

/-! ### Which CSRs there are -/

/-- Whether a number is assigned (Table 1-8, Table 18-2). -/
def csrAssigned (c : Nat) : Bool :=
  decide (c ≤ 0x006) || c == 0x008 || (decide (0x00C ≤ c) && decide (c ≤ 0x018)) ||
  c == 0x020 || c == 0x021 || c == 0x022 || c == 0x024 ||
  (decide (0x200 ≤ c) && decide (c ≤ 0x209)) || (decide (0x210 ≤ c) && decide (c ≤ 0x219)) ||
  (decide (0x400 ≤ c) && decide (c ≤ 0x414)) || (decide (0x600 ≤ c) && decide (c ≤ 0x603))

/-! ### The checks of a write (R33 step 4) -/

/-- The reserved bits of a writable CSR (R32, R100, R115, R184, R194, R196, R297, R304, R308, R330, R331, R342, R360, R367, R378,
R387, R390, R397). -/
def csrReserved (c : Nat) : Nat :=
  if c = 0x002 then 2 ^ 64 - 2 ^ 6
  else if c = 0x003 then 2 ^ 64 - 2 ^ 9
  else if c = 0x008 then 0xFFFF0000000000E0
  else if 0x00C ≤ c ∧ c ≤ 0x00F then 2 ^ 64 - 2 ^ 16
  else if 0x010 ≤ c ∧ c ≤ 0x018 then 2 ^ 63 - 2 ^ 13
  else if c = 0x404 then 2 ^ 64 - 2 ^ 22 + 0x1C
  else if c = 0x407 then 0x000F00000000FFFE
  else if c = 0x409 then 2 ^ 64 - 2 ^ 2
  else if c = 0x40A then 0x780000000FFFFFFF
  else if c = 0x40B then 0xFE
  else if c = 0x40C then 2 ^ 64 - 2 ^ 32
  else if c = 0x40D then 0x7FFFFFFFFFFFF000
  else if c = 0x40E then 0x3F
  else if c = 0x40F then 0x3F
  else if c = 0x410 then 0x0FFFFF0000000000
  else if c = 0x411 then 2 ^ 64 - 2 ^ 12 + 0xC
  else if c = 0x414 then 2 ^ 64 - 2
  else if c = 0x600 then 1
  else if c = 0x601 then 2 ^ 64 - 2 ^ 8
  else if c = 0x602 then 0xFFE
  else if c = 0x603 then 2 ^ 64 - 2 ^ 4
  else 0

/-- A ring of 2^(12 + size) bytes at `base` 4 KiB units that may not stand: a reserved size, not aligned to its size, or
reaching the host-line cache of `hl` 4 MiB units (R304). -/
def ringRefused (base size hl : Nat) : Bool :=
  decide (13 < size) || decide (base * 4096 % 2 ^ (12 + size) ≠ 0) ||
    decide (0x4000000 - hl * 0x400000 < base * 4096 + 2 ^ (12 + size))

/-- Whether a value may not be placed in a hart-instance CSR by its bits alone (R33 step 4). -/
def csrBad (c : Nat) (x : Word) : Bool :=
  decide (x.toNat &&& csrReserved c ≠ 0) ||
  (if c = 0x000 then !legalVtype x
   else if c = 0x002 then decide (4 < fld x 0 3) || decide (4 < fld x 3 3)
   else if c = 0x008 then decide (8 < fld x 0 4)
   else if c = 0x021 then decide (6 ≤ fld x 0 3)
   else if c = 0x404 then decide (fld x 0 2 = 3)
   else false)

/-- Whether a write of `x` to CSR `c` raises illegal operand (R33 step 4 and the rules of the register). An HLCACHE write that makes
the host-line cache reach a ring or a trace buffer placed before is not refused, and records and events are written there as
before (R47 and R304 leave it open; DESIGN CHOICE, log 60). -/
def State.csrRefused (s : State) (c : Nat) (x : Word) : Bool :=
  let isl := s.myIsland
  let hl := fld (s.island isl).hlcache 0 4
  csrBad c x ||
  (if c = 0x000 then !s.vtypeOk x
   else if c = 0x409 then
     decide (fld x 0 2 = 3) || (decide (fld x 0 2 = 1) &&
       !(s.slotFree (s.myCore ++ (2 : BitVec 2)) && s.slotFree (s.myCore ++ (3 : BitVec 2))))
   else if c = 0x40B then ringRefused (fld x 12 14) (fld x 8 4) hl
   else if c = 0x40D then !x.getLsbD 63 || !s.inAtoll isl (fld x 9 3)
   else if c = 0x410 then
     x.getLsbD 60 && (decide ((s.cluster s.dbgsel).freeze ≠ .frozen) || s.dumpctl.getLsbD 63 || decide (fld x 0 40 % 64 ≠ 0))
   else if c = 0x411 then
     !s.inAtoll isl (fld x 9 3) || (x.getLsbD 0 && decide (fld x 6 6 = s.myCluster.toNat))
   else if c = 0x412 then decide (fld x 1 2 = 3)
   else if c = 0x601 then
     decide (fld x 2 3 % 2 ^ fld x 0 2 ≠ 0) ||
       s.harts.any (fun y => y.id != s.h.id && islandOf (coreOf y.id) == isl)
   else if c = 0x602 then ringRefused (fld x 12 14) (fld x 26 4) hl
   else if c = 0x603 then decide (8 < fld x 0 4)
   else false)

/-! ### Writing -/

/-- A write of DBGCTL: SEL and STOPEN, then GO, then STOP (R387, R389). -/
def State.putDbgctl (s : State) (x : Word) : State :=
  let sel := BitVec.ofNat 6 (fld x 6 6)
  let s := { s with dbgsel := sel }
  let s := s.setCluster sel { s.cluster sel with stopen := x.getLsbD 4 }
  let s := if x.getLsbD 1 then s.unfreeze sel else s
  if x.getLsbD 0 then s.freezeCluster sel 3 none 0 else s

/-- A write of DUMPCTL: SIZE, and with GO the start of a dump (R390). -/
def State.putDumpctl (s : State) (x : Word) : State :=
  if x.getLsbD 60 then
    { s with
      dumpctl := BitVec.ofNat 64 (2 ^ 63 + fld x 0 40)
      dump := some ⟨s.dbgsel, s.h.id, s.h.lvl, s.h.ptbr, s.dumpa, fld x 0 40, (s.cluster s.dbgsel).cause.at_, s.dumpRecords s.dbgsel⟩ }
  else { s with dumpctl := setFld s.dumpctl 0 40 (fld x 0 40) }

/-- Posts a pre-emption request: discarded when one is pending or the slot is FREE (R367). -/
def State.postPreq (s : State) (id : HartId) : State :=
  if s.slotFree id || (s.hart id).preq then s else s.putHart { s.hart id with preq := true }

/-- Stores a value that has passed the checks, with the effects of the register (R34, R101). The bytes of island SRAM that a smaller
HLCACHE makes addressable again hold what they held before the cache took them (R47 leaves it open; DESIGN CHOICE, log 60). -/
def State.csrPut (s : State) (c : Nat) (x : Word) : State :=
  let h := s.h
  let k := s.core s.myCore
  let i := s.island s.myIsland
  if c = 0x000 then { s with h := h.setVtype x }
  else if c = 0x001 then { s with h := { h with fillv := x } }
  else if c = 0x002 then { s with h := { h with rmode := x } }
  else if c = 0x003 then { s with h := { h with fst := x } }
  else if c = 0x004 then { s with h := { h with ffx := x } }
  else if c = 0x005 then { s with h := { h with efc := x } }
  else if c = 0x006 then { s with h := { h with lvd := x } }
  else if c = 0x008 then { s with h := { h with eord := x } }
  else if 0x00C ≤ c ∧ c ≤ 0x00F then { s with h := { h with twin := h.twin.setIfInBounds (c - 0x00C) x } }
  else if 0x010 ≤ c ∧ c ≤ 0x018 then { s with h := { h with evx := h.evx.setIfInBounds (c - 0x010) x } }
  else if c = 0x020 then { s with h := { h with prog := x } }
  else if c = 0x021 then { s with h := { h with progaddr := x } }
  else if c = 0x022 then { s with h := { h with cptag := x } }
  else if c = 0x024 then { s with h := { h with wtmo := x } }
  else if c = 0x400 then { s with h := { h with epc := x } }
  else if c = 0x401 then { s with h := { h with eix := x } }
  else if c = 0x402 then { s with h := { h with ecause := x } }
  else if c = 0x403 then { s with h := { h with eaddr := x } }
  else if c = 0x404 then { s with h := { h with estatus := x } }
  else if c = 0x405 then { s with h := { h with econv := x } }
  else if c = 0x406 then { s with h := { h with tvec := x } }
  else if c = 0x407 then { s with h := { h with ptbr := x } }
  else if c = 0x408 then { s with h := { h with wshare := x } }
  else if c = 0x409 then s.setCore s.myCore { k with lpart := x }
  else if c = 0x40A then { s with h := { h with tseq := x } }
  else if c = 0x40B then s.setIsland s.myIsland { i with cplog := BitVec.ofNat 64 (fld x 0 26) }
  else if c = 0x40C then s.setIsland s.myIsland { i with cpthr := x }
  else if c = 0x40D then s.postPreq (BitVec.ofNat 12 (fld x 0 12))
  else if c = 0x40E then { s with h := { h with ctxa := x } }
  else if c = 0x40F then { s with dumpa := x }
  else if c = 0x410 then s.putDumpctl x
  else if c = 0x411 then s.putDbgctl x
  else if c = 0x412 then s.setCluster s.dbgsel { s.cluster s.dbgsel with dbgwp := x }
  else if c = 0x413 then { s with h := { h with escr := x } }
  else if c = 0x414 then { s with h := { h with abictl := x } }
  else if c = 0x600 then { s with h := { h with fvec := x } }
  else if c = 0x601 then s.setIsland s.myIsland { i with atoll := x }
  else if c = 0x602 then
    s.setIsland s.myIsland { i with trctl := setFld (setFld x 30 1 0) 44 20 0, trpos := 0 }
  else if c = 0x603 then s.setIsland s.myIsland { i with hlcache := x, lines := [] }
  else s

/-! ### The instructions (R99) -/

/-- Whether the level excludes a class (R32, R329). -/
def csrPrivileged (lvl : Level) (c : Nat) : Bool := (c / 0x200 == 2 && lvl == .user) || (c / 0x200 == 3 && lvl != .firmware)

/-- A CSR access (R33, R99): the old value to gd, and when `new` gives a value for it a checked write. -/
def State.csrAccess (s : State) (d : BitVec 5) (c : BitVec 11) (new : Option (Word → Word)) : Result :=
  let n := c.toNat
  let t := s.csrGet n
  s.check
    [(!csrAssigned n, 0x01, s.ir),
     (csrPrivileged s.h.lvl n, 0x03, s.ir),
     (new.isSome && n / 0x200 == 1, 0x01, s.ir),
     ((match new with | none => false | some f => s.csrRefused n (f t)), 0x02, s.ir)]
    fun s => .next ((match new with | none => s | some f => s.csrPut n (f t)).setGAdv d t 4)

/-- CSRRD (R99) -/
def execCsrrd (d : BitVec 5) (c : BitVec 11) (s : State) : Result := s.csrAccess d c none
/-- CSRWR (R99): a write for every gs1 -/
def execCsrwr (d a : BitVec 5) (c : BitVec 11) (s : State) : Result := s.csrAccess d c (some fun _ => s.getG a)
/-- CSRSET (R99): a write when gs1 is not g0 -/
def execCsrset (d a : BitVec 5) (c : BitVec 11) (s : State) : Result :=
  s.csrAccess d c (if a = 0 then none else some fun t => t ||| s.getG a)
/-- CSRCLR (R99): a write when gs1 is not g0 -/
def execCsrclr (d a : BitVec 5) (c : BitVec 11) (s : State) : Result :=
  s.csrAccess d c (if a = 0 then none else some fun t => t &&& ~~~s.getG a)

/-- The CSR write step of a CSR without behaviour of its own (R33) -/
def execCsrWrite (csr : BitVec 11) (d a : BitVec 5) (s : State) : Result := s.csrAccess d csr (some fun _ => s.getG a)
/-- The CSR write step of VTYPE (R101) -/
def execVtypeWrite (d a : BitVec 5) (s : State) : Result := s.csrAccess d 0x000 (some fun _ => s.getG a)
/-- The CSR write step of LPART (R288) -/
def execLpartWrite (d a : BitVec 5) (s : State) : Result := s.csrAccess d 0x409 (some fun _ => s.getG a)
/-- The CSR write step of PREQ (R367) -/
def execPreq (d a : BitVec 5) (s : State) : Result := s.csrAccess d 0x40D (some fun _ => s.getG a)
/-- The CSR write step of CPLOG (R304) -/
def execCplogWrite (d a : BitVec 5) (s : State) : Result := s.csrAccess d 0x40B (some fun _ => s.getG a)
/-- The CSR write step of TRCTL (R308) -/
def execTrctlWrite (d a : BitVec 5) (s : State) : Result := s.csrAccess d 0x602 (some fun _ => s.getG a)
/-- The CSR write step of ATOLL (R342) -/
def execAtollWrite (d a : BitVec 5) (s : State) : Result := s.csrAccess d 0x601 (some fun _ => s.getG a)
/-- The CSR write step of DBGCTL that starts a freeze (R387): the value written has STOP = 1 -/
def execDbgctlStop (d a : BitVec 5) (s : State) : Result := s.csrAccess d 0x411 (some fun _ => s.getG a ||| 1)
/-- The CSR write step of DBGCTL that resumes a cluster (R389): the value written has GO = 1 -/
def execDbgctlGo (d a : BitVec 5) (s : State) : Result := s.csrAccess d 0x411 (some fun _ => s.getG a ||| 2)
/-- The CSR write step of DUMPCTL that starts a dump (R390): the value written has GO = 1 -/
def execDumpctlGo (d a : BitVec 5) (s : State) : Result := s.csrAccess d 0x410 (some fun _ => s.getG a ||| (1 <<< 60))

end Sys2Proof.Machine
end

