-- ==== Sys2Proof/Machine/Stream.lean ====
section
/-! DEFINITION. Shape records, streams and gangs (13 R239 to R246, 14 R270 to R272, R275, R276, 01 R30). -/

namespace Sys2Proof.Machine

/-! ### Shape records (R239 to R241) -/

/-- The dimension words in use, dimension 0 first. -/
def Shape.dimWords (sh : Shape) : List Word := [sh[2], sh[3], sh[4], sh[5]].take sh.dims

/-- The record breaks R239: a reserved bit, an extent of 0 in use, a nonzero word not in use, or a BREG that is no multiple of
the group size `g`. -/
def Shape.bad (sh : Shape) (g : Nat) : Bool :=
  decide (fld sh[1] 48 16 ≠ 0) || decide (fld sh[6] 15 49 ≠ 0) || decide (fld sh[6] 2 2 ≠ 0) || sh[7] != 0 ||
    sh.dimWords.any (fun w => decide (fld w 16 16 = 0)) ||
    ([sh[2], sh[3], sh[4], sh[5]].drop sh.dims).any (fun w => w != 0) ||
    decide (bregOf sh % g ≠ 0) || (sh.gang && sh.writes)

/-- The offset of a position in the dimensions given, innermost first, and whether a coordinate is out of bounds (R240). -/
def posIn : List Word → Nat → Int × Bool
  | [], _ => (0, false)
  | [w], e => (e * toSigned 32 (fld w 32 32), decide (fld w 0 16 ≤ e))
  | w :: ws, e =>
    let c := e % fld w 16 16
    let r := posIn ws (e / fld w 16 16)
    (c * toSigned 32 (fld w 32 32) + r.1, decide (fld w 0 16 ≤ c) || r.2)

/-- Whether a position is out of bounds. -/
def Shape.oob (sh : Shape) (e : Nat) : Bool := (posIn sh.dimWords e).2

/-- The address of a position, or the fault of one that is misaligned or outside every address (R240, R241). -/
def Shape.addr (sh : Shape) (e : Nat) : Except Flt Word :=
  let a : Int := (sh[0].toNat : Int) + (posIn sh.dimWords e).1
  let va := BitVec.ofInt 64 a
  if a < 0 ∨ 2 ^ 64 ≤ a then .error ⟨0x0A, va⟩
  else if va.toNat % sh.bytes ≠ 0 then .error ⟨0x06, va⟩
  else .ok va

/-- Reads a position: an out-of-bounds one gives `fill` (R241). -/
def State.readPos (s : State) (w : Who) (sh : Shape) (fill e : Nat) : Except Flt (Nat × State) :=
  if sh.oob e then .ok (fill, s)
  else match sh.addr e with
    | .error f => .error f
    | .ok va => s.loadAs w false va sh.bytes

/-- Writes a position: an out-of-bounds one is dropped (R241). -/
def State.writePos (s : State) (w : Who) (sh : Shape) (e x : Nat) : Except Flt State :=
  if sh.oob e then .ok s
  else match sh.addr e with
    | .error f => .error f
    | .ok va => s.storeAs w false va sh.bytes x

/-- Reads `n` positions from `p`; those at and above LEN give `fill`. Those in `buf` were read before: they fault as they would
if they were read now (R242, R244). -/
def State.readRun (s : State) (w : Who) (sh : Shape) (fill : Nat) (buf : List (Nat × Nat)) (p : Nat) :
    Nat → Except Flt (List Nat × State)
  | 0 => .ok ([], s)
  | n + 1 =>
    let x : Except Flt (Nat × State) :=
      if sh.len ≤ p then .ok (fill, s)
      else match buf.find? (fun q => q.1 == p) with
        | some q =>
          match sh.addr p with
          | .error f => .error f
          | .ok va => match s.translate w .read false va with | .error f => .error f | .ok _ => .ok (q.2, s)
        | none => s.readPos w sh fill p
    match x with
    | .error f => .error f
    | .ok (x, s) =>
      match State.readRun s w sh fill buf (p + 1) n with
      | .error f => .error f
      | .ok (xs, s) => .ok (x :: xs, s)

/-- Writes the elements of a list to the positions from `p`; those at and above LEN are not written (R242). -/
def State.writeRun (s : State) (w : Who) (sh : Shape) (p : Nat) : List Nat → Except Flt State
  | [] => .ok s
  | x :: xs =>
    if sh.len ≤ p then .ok s
    else match s.writePos w sh p x with
      | .error f => .error f
      | .ok s => State.writeRun s w sh (p + 1) xs

/-- The lowest out-of-bounds position of `n` from `p`, below LEN, when PERMIT = 0 (R243). -/
def Shape.firstOob (sh : Shape) (p n : Nat) : Option Nat :=
  if sh.permit then none else (List.range' p (min n (sh.len - p))).find? (fun e => sh.oob e)

/-! ### Delivery and capture at a strip (R242, R243) -/

/-- On whose behalf the stream of the hart that moves accesses memory: the windows are those of STRMDEF (R271). -/
def State.streamWho (s : State) (q : Stream) : Who := ⟨s.h.ptbr, s.h.lvl, q.core⟩

/-- What a stream of the hart that moves has read ahead in the address space in which its STRIP delivers: what a prefetch read in
another one is fetched again (R244). -/
def State.readAhead (s : State) (q : Stream) : List (Nat × Nat) := if q.space = s.h.ptbr then q.buf else []

/-- The check of one stream at a STRIP that computes `span` (R243): the trap, if any. -/
def State.stripCheck (s : State) (n : Nat) (q : Stream) (span : Nat) : Option (Nat × Word) :=
  let sh := q.shape
  let run : Regs := (bregOf sh, s.h.grp)
  if sh.ewc ≠ fld s.h.vtype 0 2 then some (0x02, s.ir)
  else if !run.aligned then some (0x02, s.ir)
  else match s.h.notHeld [run] with
    | some r => some (0x05, BitVec.ofNat 64 r)
    | none =>
      match (if sh.writes then (if q.pos = 0 then none else sh.firstOob q.prev s.h.span) else sh.firstOob q.pos span) with
      | some e => some (0x0E, BitVec.ofNat 64 (n % 4 + e % 2 ^ 48 * 4))
      | none => none

/-- One own stream acts at a STRIP (R242); GRANT and SPAN are the new ones, `old` is the SPAN of the interval that closes. -/
def State.stripOne (s : State) (n : BitVec 2) (q : Stream) (old : Nat) : Except Flt State :=
  let sh := q.shape
  let w := 8 * sh.bytes
  let run : Regs := (bregOf sh, s.h.grp)
  let next := { q with pos := q.pos + s.h.span, prev := q.pos, buf := [] }
  let h := (List.range' run.1 run.2).foldl Hart.settle s.h
  let img := h.img run.1 run.2
  if sh.writes then
    let xs := if q.pos = 0 then [] else (List.range old).map (fun i => elem w img i)
    match s.writeRun (s.streamWho q) sh q.prev xs with
    | .error f => .error f
    | .ok s =>
      let s := { s with h := { s.h with streams := s.h.streams.set n.toNat (some next) n.isLt } }
      -- the counter stood at L or above: the strip captured here is the last one (R245, R272)
      .ok (if sh.len ≤ q.pos then s.endStream n else s)
  else
    match s.readRun (s.streamWho q) sh (s.h.fillAt w) (s.readAhead q) q.pos s.h.span with
    | .error f => .error f
    | .ok (xs, s) =>
      let h := (h.promise h.stripGroups 0 (.stream n) run.1 0 run.2 (putElems w img 0 xs)).mend (wordIn run.1 run.2 0 (sh.bytes * h.span))
      .ok { s with h := { h with streams := h.streams.set n.toNat (some next) n.isLt } }

/-- On whose behalf a gang stream accesses memory when the hart that moves fetches or delivers it: in the address space of STRMDEF,
with its windows, at the level of that hart (log 26). -/
def State.gangWho (s : State) (q : GangStream) : Who := ⟨q.stream.space, s.h.lvl, q.stream.core⟩

/-- Fetches strip `j` of a gang stream once, when it is at most two strips ahead of the slowest member (R246): the stream with
the strip. A position that delivers FILLV gives none: each member delivers its own (R26, R242). -/
def State.gangFetch (s : State) (q : GangStream) (j span : Nat) : Except Flt (GangStream × State) :=
  -- no element has this value
  let none_ := 2 ^ 64
  if (q.strip j).isSome || decide (q.slowest + 2 ≤ j) then .ok (q, s)
  else match s.readRun (s.gangWho q) q.stream.shape none_ [] (j * span) span with
    | .error f => .error f
    | .ok (xs, s) => .ok ({ q with fetched := q.fetched ++ [(j, xs.map fun x => if x = none_ then none else some x)] }, s)

/-- The fault that the STRIP of the hart that moves meets at the positions of strip `j`: those fetched before fault as they would if
they were read now (R244), those of a strip that is not fetched are reached by a member that runs ahead of the fetch (R246). -/
def State.gangProbe (s : State) (q : GangStream) (j span : Nat) : Option Flt :=
  let buf := ((q.strip j).getD []).zipIdx.filterMap fun x => x.1.map fun v => (j * span + x.2, v)
  match s.readRun (s.gangWho q) q.stream.shape 0 buf (j * span) span with
  | .error f => some f
  | .ok _ => none

/-- A gang stream acts at a member's STRIP: the member's registers wait for strip j (R246). -/
def State.stripGang (s : State) (q : GangStream) : Except Flt State :=
  let j := (q.strips s.h.id).getD 0
  let span := s.h.span
  match s.gangFetch q j span with
  | .error f => .error f
  | .ok (q, s) =>
    match s.gangProbe q j span with
    | some f => .error f
    | none =>
      let b := bregOf q.stream.shape
      let at_ : List (BitVec 12 × Nat) := q.at_.map (fun p => if p.1 = s.h.id then (p.1, j + 1) else p)
      let low := (at_.map (fun p => p.2)).foldl min (j + 1)
      let q := { q with at_ := at_, fetched := q.fetched.filter (fun p => decide (low ≤ p.1 + 1)) }
      let h := (List.range' b s.h.grp).foldl Hart.settle s.h
      let w := 8 * q.stream.shape.bytes
      let filled := putElems w (h.img b h.grp) 0 (List.replicate span (h.fillAt w))
      let h := (h.promise h.stripGroups 0 (.gang q.num j) b 0 h.grp filled).mend (wordIn b h.grp 0 (q.stream.shape.bytes * span))
      .ok ({ s with h := h }.putGangStream q)

/-- The gang stream `n` of the hart that moves, with the STRIPs so far, while it has something left to deliver there (R245, R246). -/
def State.gangTurn (s : State) (n : BitVec 2) : Option (GangStream × Nat) :=
  (s.gangStream n).bind fun q => (q.strips s.h.id).bind fun j =>
    if j = 0 ∨ j * s.h.span < q.stream.shape.len then some (q, j) else none

/-- Pending deliveries of the hart's own streams arrive, and finished streams end. -/
def State.settleStreams (s : State) : State :=
  { s with h := (List.range 32).foldl (fun h r => h.deliver Producer.anyStream r) s.h }.finishStreams

/-- The streams of number `n` act, the hart's own and the gang's. -/
def State.stripNumber (s : State) (old : Nat) (n : BitVec 2) : Except Flt State :=
  let own : Except Flt State :=
    match s.h.streams[n.toNat]'n.isLt with
    | none => .ok s
    | some q => s.stripOne n q old
  match own with
  | .error f => .error f
  | .ok s =>
    match s.gangTurn n with
    | none => .ok s
    | some (q, _) => s.stripGang q

/-- The streams of the numbers given act. -/
def State.stripEach (s : State) (old : Nat) : List (BitVec 2) → Except Flt State
  | [] => .ok s
  | n :: ns =>
    match s.stripNumber old n with
    | .error f => .error f
    | .ok s => State.stripEach s old ns

/-- The first check that fails at a STRIP that computes `span`, the lowest-numbered stream first (R243). -/
def State.stripChecks (s : State) (span : Nat) : Option (Nat × Word) :=
  ([0, 1, 2, 3] : List (BitVec 2)).findSome? fun n =>
    match (s.h.streams[n.toNat]'n.isLt).bind fun q => s.stripCheck n.toNat q span with
    | some x => some x
    | none => (s.gangTurn n).bind fun (q, j) => s.stripCheck n.toNat { q.stream with pos := j * span } span

/-- The stream part of a STRIP that samples `grant` and computes `span` (R103, R242, R243, R246): checks first, then the new GRANT
and SPAN, deliveries and captures. -/
def State.stripStreams (s : State) (grant span : Nat) : Except Flt State :=
  let s := s.settleStreams
  match s.stripChecks span with
  | some (c, a) => .error ⟨c, a⟩
  | none => { s with h := { s.h with grant := BitVec.ofNat 64 grant, span := span } }.stripEach s.h.span [0, 1, 2, 3]

/-! ### STRMDEF and STRMEND (R271, R272) -/

/-- The rank of a hart in a gang: the cores of the mask below its own (R275). -/
def gangRank (cores : BitVec 16) (c : BitVec 10) : Nat :=
  ((List.range (c.toNat % 16)).filter (fun i => cores.getLsbD i)).length

/-- Whether the hart that moves is rank 0 of a gang. -/
def State.isRank0 (s : State) : Bool :=
  match s.gangOf s.h.id with
  | none => false
  | some g => gangRank g.cores s.myCore == 0

/-- The gang stream that the hart that moves defined under number `n` and that has not ended in it: once it has, the number is free
there, also while members still get their deliveries (R245, log 71). -/
def State.ownGangStream (s : State) (n : BitVec 2) : Option GangStream :=
  (s.gangStream n).filter fun q => q.owner == s.h.id && (q.strips s.h.id).isSome

/-- Whether stream number `n` names a stream that the hart that moves has defined and that has not ended. -/
def State.defined (s : State) (n : BitVec 2) : Bool :=
  (s.h.streams[n.toNat]'n.isLt).isSome || (s.ownGangStream n).isSome

/-- Whether stream number `n` is taken in hart `id`: by a stream of its own or by a gang stream that still delivers to it, which is one
of its at most four streams (R242, R246; log 71). -/
def State.takenIn (s : State) (n : BitVec 2) (id : HartId) : Bool :=
  ((s.hart id).streams[n.toNat]'n.isLt).isSome ||
    (match s.gangOf id with
     | none => false
     | some g => g.streams.any fun q => q.num == n && (q.strips id).isSome)

/-- Whether stream number `n` is taken for a stream that the hart that moves defines: a gang stream takes it in every member. -/
def State.streamTaken (s : State) (n : BitVec 2) (gang : Bool) : Bool :=
  if gang then ((s.gangOf s.h.id).elim [] fun g => g.members).any (s.takenIn n) else s.takenIn n s.h.id

/-- A shape record's eight words as a vector. -/
def shapeOf (ws : List Word) : Shape := Vector.ofFn fun i => (ws[i.val]?).getD 0

/-- Binds a stream under number `n` (R271). -/
def State.bindStream (s : State) (n : BitVec 2) (va : Word) (sh : Shape) : State :=
  let q : Stream := ⟨va, sh, 0, 0, s.myCore, s.h.cptag, [], s.h.ptbr⟩
  if sh.gang then
    let members := ((s.gangOf s.h.id).elim [] fun g => g.members).map fun m => (m, 0)
    s.mapGangStreams fun qs => qs ++ [⟨n, s.h.id, q, members, []⟩]
  else { s with h := { s.h with streams := s.h.streams.set n.toNat (some q) n.isLt } }

/-- STRMDEF (R239, R271) -/
def execStrmdef (d a : BitVec 5) (s : State) : Result :=
  let va := s.getG a
  s.check [(decide (va.toNat % 8 ≠ 0), 0x06, va)] fun s =>
    match s.loadWords s.who va 8 with
    | .error f => s.trapFlt (if f.cause = 0x07 then ⟨0x07, va⟩ else f)
    | .ok (ws, t) =>
      let sh := shapeOf ws
      let run : Regs := (bregOf sh, s.h.grp)
      s.check
        [(sh.bad s.h.grp, 0x02, va),
         (s.boundStreams.any (fun q => Regs.overlap (bregOf q.shape, s.h.grp) run) || (sh.gang && !s.isRank0), 0x02, s.ir),
         ((s.h.notHeld [run]).isSome, 0x05, BitVec.ofNat 64 ((s.h.notHeld [run]).getD 0))]
        fun _ =>
          match ([0, 1, 2, 3] : List (BitVec 2)).find? (fun n => !t.streamTaken n sh.gang) with
          | none => .next (t.setGAdv d (-1) 4)
          | some n => .next ((t.bindStream n va sh).setGAdv d (n.setWidth 64) 4)

/-- Ends a gang stream in every member (R272, R276): its registers there are full as they stand. -/
def State.endGangStream (s : State) (q : GangStream) : State :=
  (q.at_.foldl (fun (s : State) p => s.putHart ((s.hart p.1).dropPending (Producer.ofGang q.num))) s).mapGangStreams
    fun qs => qs.filter fun x => !x.same q

/-- STRMEND (R272) -/
def execStrmend (a : BitVec 5) (s : State) : Result :=
  let x := s.getG a
  let n := x.setWidth 2
  s.check [(decide (3 < x.toNat) || !s.defined n, 0x02, s.ir)] fun s =>
    match s.ownGangStream n with
    | some q => .next (((s.endGangStream q).streamEnded n q.stream).adv 4)
    | none => .next ((s.endStream n).adv 4)

/-! ### Gangs (R275, R276) -/

/-- Takes a hart out of its gang or out of one that is forming (R275, R276): its gang streams end in it, and those that it
defined end in every member, with their records where they had not ended in it before (R252; DEDUCED, log 40). The gang goes when its
last member leaves. -/
def State.leaveGang (s : State) : State :=
  let cl := s.myCluster
  match (s.cluster cl).gangs.find? (fun g => g.members.contains s.h.id) with
  | none => s
  | some g =>
    let id := s.h.id
    let s := (g.streams.filter (fun q => q.owner == id)).foldl
      (fun (s : State) q => if (q.strips id).isSome then (s.endGangStream q).streamEnded q.num q.stream else s.endGangStream q) s
    let c := s.cluster cl
    let streams := ((g.streams.filter (fun q => q.owner != id)).map
      (fun q => { q with at_ := q.at_.filter (fun p => p.1 != id) })).filter fun q => !q.at_.isEmpty
    let members := g.members.filter (· != id)
    let gangs :=
      if members = [] then c.gangs.filter (fun x => !x.same g)
      else c.gangs.map (fun x => if x.same g then { g with members, streams } else x)
    let s := s.setCluster cl { c with gangs }
    { s with h := { s.h.dropPending Producer.anyGang with tshp := if g.grant.isSome then setFld s.h.tshp 32 4 0 else s.h.tshp } }

/-- A member joins a gang that forms: VTYPE, GRANT and gd are written whole (R275, R383). -/
def State.joinGang (s : State) (g : Gang) (grant : Nat) (d : BitVec 5) : State :=
  let h := { s.h with grant := BitVec.ofNat 64 grant, tshp := setFld s.h.tshp 32 4 0 }.mend fun b =>
    b == (1, 64 + 0x000) || b == (1, 64 + 0x207)
  ({ s with h := h.setVtype g.vtype }).comeBack d (BitVec.ofNat 64 (gangRank g.cores s.myCore))

/-- The gd field of a hart that waits to join a gang. -/
def Hart.gangDest (h : Hart) : BitVec 5 :=
  match h.slot with
  | .wait (.gang d _ _) _ => d
  | _ => 0

/-- Forms a gang whose cores have all issued GANGBIND: every member joins at the same time (R275). -/
def State.formGang (s : State) (cl : BitVec 6) (g : Gang) : State :=
  let grant := (g.members.map (fun m => s.laneGrant (coreOf m))).foldl min 128
  let g' := { g with grant := some grant, size := g.members.length }
  let c := s.cluster cl
  let s := s.setCluster cl { c with gangs := c.gangs.map (fun x => if x.same g then g' else x) }
  g.members.foldl (fun s m => s.onHart m (fun s => s.joinGang g' grant s.h.gangDest)) s

/-- Whether every core of the mask has a member (R275). -/
def Gang.complete (g : Gang) : Bool :=
  (List.range 16).all (fun i => !g.cores.getLsbD i || g.members.any (fun m => (coreOf m).toNat % 16 == i))

/-- GANGBIND (R275) -/
def execGangbind (d a b : BitVec 5) (s : State) : Result :=
  let m := s.getG a
  let vt := s.getG b
  let cores := m.setWidth 16
  let gangs := (s.cluster s.myCluster).gangs
  let clash := gangs.any (fun g => g.cores &&& cores != 0 && !(g.cores == cores && g.vtype == vt))
  let coreBusy := gangs.any (fun g => g.members.any (fun x => coreOf x == s.myCore))
  s.check [(decide (fld m 16 48 ≠ 0) || !cores.getLsbD (s.myCore.toNat % 16) || !legalVtype vt || coreBusy || clash,
      0x02, s.ir)] fun s =>
    let cl := s.myCluster
    let c := s.cluster cl
    let g : Gang := (gangs.find? (fun g => g.cores == cores && g.grant.isNone)).getD ⟨cores, vt, [], none, 0, []⟩
    let g := { g with members := g.members ++ [s.h.id] }
    let s := s.setCluster cl { c with gangs := gangs.filter (fun x => !x.same g) ++ [g] }
    let s := s.enterWait (.gang d cores vt)
    .next (if g.complete then s.formGang cl g else s)

/-- GANGFREE (R276) -/
def execGangfree (s : State) : Result := .next (s.leaveGang.adv 4)

/-- A gang forms: every core of the mask has issued a matching GANGBIND (R275) -/
def execGangFormed (cl : BitVec 6) (cores : BitVec 16) (s : State) : Result :=
  match (s.cluster cl).gangs.find? (fun g => g.cores == cores && g.grant.isNone) with
  | some g => .next (if g.complete then s.formGang cl g else s)
  | none => .next s

/-! ### Prefetch (R244, R246) -/

/-- Reads `n` positions from `p` ahead of the STRIP that delivers them: what is read with its positions. One that faults or fails
its check reports nothing (R244). -/
def State.prefetch (s : State) (w : Who) (sh : Shape) (p : Nat) : Nat → List (Nat × Nat) × State
  | 0 => ([], s)
  | n + 1 =>
    if sh.oob p then State.prefetch s w sh (p + 1) n
    else match s.readPos w sh 0 p with
      | .error _ => State.prefetch s w sh (p + 1) n
      | .ok (x, s) =>
        let r := State.prefetch s w sh (p + 1) n
        ((p, x) :: r.1, r.2)

/-- A read stream fetches the strip that follows (R244). R229 lets each position be read at any moment of its window: here all
of them are read at one moment, in this event or at the STRIP (DESIGN CHOICE, log 68) -/
def execStreamPrefetch (h : BitVec 12) (n : BitVec 2) (s : State) : Result :=
  .next (s.onHart h fun s =>
    match s.h.streams[n.toNat]'n.isLt with
    | none => s
    | some q =>
      if q.shape.writes || q.buf != [] then s
      else
        let r := s.prefetch (s.streamWho q) q.shape q.pos (min s.h.span (q.shape.len - q.pos))
        let s := r.2
        { s with h := { s.h with streams := s.h.streams.set n.toNat (some { q with buf := r.1, space := s.h.ptbr }) n.isLt } })

/-- A gang stream fetches the next strip that is not fetched (R246) -/
def execGangStreamFetch (cl : BitVec 6) (cores : BitVec 16) (n : BitVec 2) (s : State) : Result :=
  match (s.cluster cl).gangs.find? (fun g => g.cores == cores && g.grant.isSome) with
  | none => .next s
  | some g =>
    match g.streams.find? (fun q => q.num == n) with
    | none => .next s
    | some q =>
      .next (s.onHart q.owner fun s =>
        match (List.range' q.slowest 2).find? (fun j => (q.strip j).isNone) with
        | none => s
        | some j =>
          match s.gangFetch q j s.h.span with
          | .error _ => s
          | .ok (q, s) => s.putGangStream q)

/-! ### Arrivals (R27, R389) -/

/-- An arrival for a hart: the register, or the skid buffer while its cluster is frozen (R27, R389) -/
def execProducerArrival (h : BitVec 12) (r : BitVec 5) (s : State) : Result :=
  let cl := clusterOf (coreOf h)
  let c := s.cluster cl
  if c.freeze = .frozen then
    .next (if c.skid.length < 256 then s.setCluster cl { c with skid := c.skid ++ [(h, r)] } else s)
  else .next (s.onHart h fun s => s.arrival r)

end Sys2Proof.Machine
end

