-- ==== Sys2Proof/Machine/ScalarMem.lean ====
section
/-! DEFINITION. Scalar loads and stores (06 R98), ordered accesses, atomics and fences (14 R254 to R257). One step performs
each access in program order, which every ordering matrix allows (log 4). -/

namespace Sys2Proof.Machine

/-- Bytes of a width code: 0 and 1 one byte, 2 and 3 two, 4 and 5 four, 6 eight (R64). -/
def widthBytes (w : BitVec 3) : Nat := 2 ^ (w.toNat / 2)

/-- A loaded number extended to 64 bits: even codes below 6 sign-extend, odd ones zero-extend (R98). -/
def extendLoad (w : BitVec 3) (x : Nat) : Word :=
  if w.toNat % 2 = 0 then sext (8 * widthBytes w) x else BitVec.ofNat 64 x

/-- After a machine check the destination is undefined (R385): a free value. -/
def State.loseG (s : State) (d : BitVec 5) (cause : Nat) : State :=
  if cause = 0x13 then s.takeFree.2.setG d s.takeFree.1 else s

/-- After a machine check `n` bytes that an instruction writes at `va` are undefined (R385): a free value, which does not make a
failing word good. -/
def State.loseBytesAs (s : State) (w : Who) (n : Nat) (va : Word) : State :=
  match s.translate w .write true va with
  | .error _ => s
  | .ok p => { { s with fresh := s.fresh + 1 }.poke p.key n (Config.free s.fresh).toNat with badMem := s.badMem }

/-- After a machine check `n` bytes that the hart that moves writes at `va` are undefined (R385). -/
def State.loseBytes (s : State) (n : Nat) (va : Word) : State := s.loseBytesAs s.who n va

/-- The trap of a store of `n` bytes at `va`; after a machine check the bytes are undefined. -/
def State.trapStore (s : State) (n : Nat) (va : Word) (f : Flt) : Result :=
  (if f.cause = 0x13 then s.loseBytes n va else s).trapFlt f

/-- A scalar load: alignment, then translation and access, then gd (R98). -/
def State.loadG (s : State) (d : BitVec 5) (w : BitVec 3) (addr : Word) (len : Nat) : Result :=
  let n := widthBytes w
  s.check [(decide (addr.toNat % n ≠ 0), 0x06, addr)] fun s =>
    match s.load true addr n with
    | .error f => (s.loseG d f.cause).trapFlt f
    | .ok (x, t) => .next (t.setGAdv d (extendLoad w x) len)

/-- A scalar store of the low bytes of `x` (R98). -/
def State.storeG (s : State) (x : Word) (w : BitVec 3) (addr : Word) (len : Nat) : Result :=
  let n := widthBytes w
  s.check [(decide (addr.toNat % n ≠ 0), 0x06, addr)] fun s =>
    match s.store true addr n (x.toNat % 2 ^ (8 * n)) with
    | .error f => s.trapStore n addr f
    | .ok t => .next (t.adv len)

/-- LDS (R98) -/
def execLds (g b : BitVec 5) (w : BitVec 3) (i : BitVec 10) (s : State) : Result := s.loadG g w (s.getG b + immOf i) 4
/-- STS (R98) -/
def execSts (g b : BitVec 5) (w : BitVec 3) (i : BitVec 10) (s : State) : Result :=
  s.storeG (s.getG g) w (s.getG b + immOf i) 4

/-- LDO (R254): ord 0 and 1, scope up to package (R216) -/
def execLdo (d a : BitVec 5) (o : BitVec 2) (sc x : BitVec 3) (s : State) : Result :=
  s.check [(decide (1 < o.toNat) || sc == 5, 0x02, s.ir)] fun s => s.loadG d x (s.getG a) 4

/-- The tag of a released word on a signal page (R255, R300). -/
def State.tagWrite (s : State) (va : Word) : State :=
  match s.translate s.who .write true va with
  | .ok p => s.setTag p s.hartTag
  | .error _ => s

/-- STO (R254): ord 0 and 2, scope up to package (R216); a release to a signal page sets the word's tag (R255) -/
def execSto (a b : BitVec 5) (o : BitVec 2) (sc x : BitVec 3) (s : State) : Result :=
  s.check [(!(o == 0 || o == 2) || sc == 5, 0x02, s.ir)] fun s =>
    s.check [(decide ((s.getG a).toNat % widthBytes x ≠ 0), 0x06, s.getG a)] fun s =>
      match s.store true (s.getG a) (widthBytes x) ((s.getG b).toNat % 2 ^ (8 * widthBytes x)) with
      | .error f => s.trapStore (widthBytes x) (s.getG a) f
      | .ok t => .next ((if o = 2 then t.tagWrite (s.getG a) else t).adv 4)

/-- An atomic on `n` bytes (R256): `f old b` is the new value, none to write nothing. The release orders (2 and 3) tag a
signal page's word when they write (R255). -/
def State.amo (s : State) (d a b : BitVec 5) (o : BitVec 2) (sc : BitVec 3) (n : Nat) (f : Nat → Nat → Option Nat) : Result :=
  s.check [(sc == 5, 0x02, s.ir), (decide ((s.getG a).toNat % n ≠ 0), 0x06, s.getG a)] fun s =>
    match s.rmw (s.getG a) n (fun old => f old ((s.getG b).toNat % 2 ^ (8 * n))) with
    | .error e => (s.loseG d e.cause).trapStore n (s.getG a) e
    | .ok (old, p, t) =>
      let wrote := (f old ((s.getG b).toNat % 2 ^ (8 * n))).isSome
      let t := if 2 ≤ o.toNat ∧ wrote then t.setTag p s.hartTag else t
      .next (t.setGAdv d (sext (8 * n) old) 4)

/-- The operation on `n` bytes of an atomic's op code 0 to 6 (Table 14-3). -/
def amoOp (op n old b : Nat) : Nat :=
  match op with
  | 0 => (old + b) % 2 ^ (8 * n)
  | 1 => old &&& b
  | 2 => old ||| b
  | 3 => old ^^^ b
  | 4 => if toSigned (8 * n) old < toSigned (8 * n) b then old else b
  | 5 => if toSigned (8 * n) old < toSigned (8 * n) b then b else old
  | _ => b

/-- The update of an atomic other than CAS. -/
def amoF (op n : Nat) (old b : Nat) : Option Nat := some (amoOp op n old b)

/-- The update of CAS: gd holds the expected value (R256). -/
def State.casF (s : State) (d : BitVec 5) (n : Nat) (old b : Nat) : Option Nat :=
  if old = (s.getG d).toNat % 2 ^ (8 * n) then some b else none

/-- AMO.ADD (R256) -/
def execAmoAdd (d a b : BitVec 5) (o : BitVec 2) (sc : BitVec 3) (s : State) : Result := s.amo d a b o sc 8 (amoF 0 8)
/-- AMO.AND (R256) -/
def execAmoAnd (d a b : BitVec 5) (o : BitVec 2) (sc : BitVec 3) (s : State) : Result := s.amo d a b o sc 8 (amoF 1 8)
/-- AMO.OR (R256) -/
def execAmoOr (d a b : BitVec 5) (o : BitVec 2) (sc : BitVec 3) (s : State) : Result := s.amo d a b o sc 8 (amoF 2 8)
/-- AMO.XOR (R256) -/
def execAmoXor (d a b : BitVec 5) (o : BitVec 2) (sc : BitVec 3) (s : State) : Result := s.amo d a b o sc 8 (amoF 3 8)
/-- AMO.MIN (R256) -/
def execAmoMin (d a b : BitVec 5) (o : BitVec 2) (sc : BitVec 3) (s : State) : Result := s.amo d a b o sc 8 (amoF 4 8)
/-- AMO.MAX (R256) -/
def execAmoMax (d a b : BitVec 5) (o : BitVec 2) (sc : BitVec 3) (s : State) : Result := s.amo d a b o sc 8 (amoF 5 8)
/-- AMO.SWAP (R256) -/
def execAmoSwap (d a b : BitVec 5) (o : BitVec 2) (sc : BitVec 3) (s : State) : Result := s.amo d a b o sc 8 (amoF 6 8)
/-- AMO.CAS (R256) -/
def execAmoCas (d a b : BitVec 5) (o : BitVec 2) (sc : BitVec 3) (s : State) : Result := s.amo d a b o sc 8 (s.casF d 8)
/-- AMOW.ADD (R256) -/
def execAmowAdd (d a b : BitVec 5) (o : BitVec 2) (sc : BitVec 3) (s : State) : Result := s.amo d a b o sc 4 (amoF 0 4)
/-- AMOW.AND (R256) -/
def execAmowAnd (d a b : BitVec 5) (o : BitVec 2) (sc : BitVec 3) (s : State) : Result := s.amo d a b o sc 4 (amoF 1 4)
/-- AMOW.OR (R256) -/
def execAmowOr (d a b : BitVec 5) (o : BitVec 2) (sc : BitVec 3) (s : State) : Result := s.amo d a b o sc 4 (amoF 2 4)
/-- AMOW.XOR (R256) -/
def execAmowXor (d a b : BitVec 5) (o : BitVec 2) (sc : BitVec 3) (s : State) : Result := s.amo d a b o sc 4 (amoF 3 4)
/-- AMOW.MIN (R256) -/
def execAmowMin (d a b : BitVec 5) (o : BitVec 2) (sc : BitVec 3) (s : State) : Result := s.amo d a b o sc 4 (amoF 4 4)
/-- AMOW.MAX (R256) -/
def execAmowMax (d a b : BitVec 5) (o : BitVec 2) (sc : BitVec 3) (s : State) : Result := s.amo d a b o sc 4 (amoF 5 4)
/-- AMOW.SWAP (R256) -/
def execAmowSwap (d a b : BitVec 5) (o : BitVec 2) (sc : BitVec 3) (s : State) : Result := s.amo d a b o sc 4 (amoF 6 4)
/-- AMOW.CAS (R256) -/
def execAmowCas (d a b : BitVec 5) (o : BitVec 2) (sc : BitVec 3) (s : State) : Result := s.amo d a b o sc 4 (s.casF d 4)

/-- FENCE (R216, R257): accesses no memory; the accesses of a step are performed already (log 4) -/
def execFence (o : BitVec 2) (sc : BitVec 3) (s : State) : Result :=
  s.check [(o != 3 || sc == 5, 0x02, s.ir)] fun s => .next (s.adv 4)

end Sys2Proof.Machine
end

