-- ==== Sys2Proof/Machine/VecMem.lean ====
section
/-! DEFINITION. Vector loads and stores, indexed accesses with their fault records, BPN segments, spill and fill, and vector
atomics (14 R258 to R269, 20 R365, R366). -/

namespace Sys2Proof.Machine

/-! ### What the forms share -/

/-- An address that is the exact sum of a base and an offset (R259); outside 64 bits it is an access violation, whose EADDR is the
low 64 bits of the sum (DESIGN CHOICE, log 58). -/
def sumAddr (base : Word) (off : Int) : Except Flt Word :=
  let a : Int := (base.toNat : Int) + off
  if a < 0 ∨ 2 ^ 64 ≤ a then .error ⟨0x0A, BitVec.ofInt 64 a⟩ else .ok (BitVec.ofInt 64 a)

/-- The cause of a store: an atomic or a store page fault is 0x08 (R262, R337). -/
def AccKind.isWrite : AccKind → Bool
  | .read => false
  | .fetch => false
  | .write => true
  | .atomic => true

/-- The failing words an access of `n` bytes at `va` would consume, a page-table entry among them: virtual address, key and
island. A write of whole words consumes none (R383). -/
def State.badWordsAs (s : State) (w : Who) (k : AccKind) (n : Nat) (va : Word) : List (Nat × Nat × BitVec 3) :=
  match s.translate w k false va with
  | .error f =>
    if f.cause ≠ 0x13 then []
    else match s.leafFor w va.toNat with
      | .failing key => [(va.toNat / 8 * 8, key, tableIsland w.core key)]
      | _ => []
  | .ok p => if k = .write ∧ 8 ≤ n then [] else (s.badIn p.key n).map fun w => (va.toNat + w * 8 - p.key, w * 8, p.isl)

/-- The failing words that an access of the hart that moves would consume. -/
def State.badWords (s : State) (k : AccKind) (n : Nat) (va : Word) : List (Nat × Nat × BitVec 3) := s.badWordsAs s.who k n va

/-- Whether accesses to the addresses given would consume a failing word: a machine check comes before the fault of another
element of the same element group (R386). -/
def State.groupFails (s : State) (k : AccKind) (n : Nat) (vas : List Word) : Bool :=
  s.badMem != [] && vas.any fun va => !(s.badWords k n va).isEmpty

/-- The error summary of an instruction that consumes the failing words given, as (virtual address, key, island) (Table 22-2): the
lowest, MULTI when there are more. -/
def State.badSummary (s : State) (ws : List (Nat × Nat × BitVec 3)) : Word :=
  match ws.foldl (fun (m : Option (Nat × Nat × BitVec 3)) w => match m with
      | none => some w
      | some v => if w.1 < v.1 then some w else some v) none with
  | none => 0
  | some v => s.memSummary v.2.1 v.2.2 v.1 + BitVec.ofNat 64 ((ws.any fun w => w.2.1 != v.2.1).toNat * 2 ^ 52)

/-- The error summary of an instruction that accesses the addresses given. -/
def State.vecSummary (s : State) (k : AccKind) (n : Nat) (vas : List Word) : Word :=
  s.badSummary (vas.flatMap fun va => s.badWords k n va)

/-- After a machine check `n` registers from `r` are undefined (R385): free images. -/
def State.loseV (s : State) (r : Nat) : Nat → State
  | 0 => s
  | n + 1 =>
    State.loseV { s with
      h := { s.h with v := s.h.v.setIfInBounds r (Config.freeImage s.fresh) }
      fresh := s.fresh + 1 } (r + 1) n

/-- After a machine check the bytes an instruction writes are undefined (R385): free values. -/
def State.loseMem (s : State) (n : Nat) : List Word → State
  | [] => s
  | va :: vas => State.loseMem (s.loseBytes n va) n vas

/-- A machine check of a vector access (R384, R385): nothing is part-way. -/
def State.vecMachine (s : State) (k : AccKind) (n : Nat) (vas : List Word) (dst : Regs) : Result :=
  let a := s.vecSummary k n vas
  ((s.loseV dst.1 dst.2).loseMem n (if k.isWrite then vas else [])).trap { cause := 0x13, eaddr := a }

/-- The addresses of some elements that lie within 64 bits. -/
def addrsOf (addr : Nat → Except Flt Word) (is : List Nat) : List Word :=
  is.filterMap fun i => match addr i with | .ok va => some va | .error _ => none

/-! ### Unit-stride and strided accesses (R259 to R262, R264 to R266) -/

/-- Reads the fields of one element: `addr f` is the address of field f. -/
def State.loadFields (s : State) (n : Nat) (addr : Nat → Except Flt Word) : List Nat → Except Flt (List Nat × State)
  | [] => .ok ([], s)
  | f :: fs =>
    match addr f with
    | .error e => .error e
    | .ok va =>
      match s.load false va n with
      | .error e => .error e
      | .ok (x, s) =>
        match State.loadFields s n addr fs with
        | .error e => .error e
        | .ok (xs, s) => .ok (x :: xs, s)

/-- Writes the fields of one element. -/
def State.storeFields (s : State) (n : Nat) (addr : Nat → Except Flt Word) : List (Nat × Nat) → Except Flt State
  | [] => .ok s
  | (f, x) :: fs =>
    match addr f with
    | .error e => .error e
    | .ok va =>
      match s.store false va n x with
      | .error e => .error e
      | .ok s => State.storeFields s n addr fs

/-- A load's course over elements: the images of its F groups, the state, and the first fault. -/
structure LoadRun where
  imgs : List Nat
  s : State
  fault : Option (Nat × Flt)

/-- One element of a load; nothing more happens after a fault. -/
def LoadRun.step (r : LoadRun) (h : Hart) (km F n : Nat) (addr : Nat → Nat → Except Flt Word) (i : Nat) : LoadRun :=
  if r.fault.isSome then r
  else if h.active km i then
    match r.s.loadFields n (addr i) (List.range F) with
    | .error e => { r with fault := some (i, e) }
    | .ok (xs, s) => { imgs := (r.imgs.zip xs).map (fun p => putElems (8 * n) p.1 i [p.2]), s, fault := none }
  else if h.ip then { r with imgs := r.imgs.map (fun m => putElems (8 * n) m i [0]) }
  else r

/-- Writes the images of consecutive groups of `g` registers from `v`. -/
def Hart.setImgs (h : Hart) (v g : Nat) : List Nat → Hart
  | [] => h
  | m :: ms => Hart.setImgs (h.setImg v g m) (v + g) g ms

/-- What a vector memory form names: F groups from v, the e-bit of its data, and whether v and F break R260. -/
def Hart.dataRun (h : Hart) (v : BitVec 5) (F : Nat) : Regs := (v.toNat, F * h.grp)

/-- v is not a multiple of G, or the F groups go past v31 (R260). -/
def Hart.dataBad (h : Hart) (v : BitVec 5) (F : Nat) : Bool := decide (v.toNat % h.grp ≠ 0) || decide (32 < v.toNat + F * h.grp)

/-- The addresses that the elements from `i` to `hi` access, those that are active. -/
def Hart.activeAddrs (h : Hart) (km F i hi : Nat) (addr : Nat → Nat → Except Flt Word) : List Word :=
  ((List.range' i (hi - i)).filter fun i => h.active km i).flatMap fun i => addrsOf (addr i) (List.range F)

/-- The end of the element group of element `i`, at most `stop`. -/
def Hart.groupEnd (h : Hart) (i stop : Nat) : Nat := min stop ((i / h.groupElems + 1) * h.groupElems)

/-- A producer is to write the images of consecutive groups of `g` registers from `v`. -/
def Hart.promiseImgs (h : Hart) (v g : Nat) : List Nat → Hart
  | [] => h
  | m :: ms => Hart.promiseImgs (h.promiseGroup .pipe (v, g) m) (v + g) g ms

/-- A load of F fields (R259 to R262, R264): `ff` says first-fault. -/
def State.vload (s : State) (v : BitVec 5) (k : BitVec 3) (F : Nat) (base : Word) (misaligned ff : Bool)
    (addr : State → Nat → Nat → Except Flt Word) : Result :=
  let D := s.h.dataRun v F
  s.issue { dst := [D], lvd := some v } (s.h.dataBad v F) [(misaligned, 0x06, base)] fun s =>
    let h := s.h
    let n := ewbOf h.vtype
    let km := k.toNat
    let stop := h.stopAt h.groupElems h.span
    let imgs := (List.range F).map fun f => h.img (v.toNat + f * h.grp) h.grp
    let r := (List.range' h.start (stop - h.start)).foldl (fun r i => r.step h km F n (addr s) i) (⟨imgs, s, none⟩ : LoadRun)
    let t := { r.s with h := r.s.h.setImgs v.toNat h.grp r.imgs }
    let coming := { r.s with h := r.s.h.promiseImgs v.toNat h.grp r.imgs }
    let setFfx (t : State) (x : Nat) : State := if ff then { t with h := { t.h with ffx := BitVec.ofNat 64 x } } else t
    match r.fault with
    | some (i, e) =>
      let first := !(ff && (List.range i).any fun j => h.active km j)
      if e.cause = 0x13 ∨ (first && s.groupFails .read n (h.activeAddrs km F i (h.groupEnd i stop) (addr s))) then
        -- the FFX that VLDFF writes is undefined too (R385)
        let s := if ff then { s.takeFree.2 with h := { h with ffx := BitVec.ofNat 64 (s.takeFree.1.toNat % 8193) } } else s
        s.vecMachine .read n (h.activeAddrs km F h.start h.span (addr s)) D
      else if first then t.trapAt e.cause i e.eaddr []
      else (setFfx coming i).retire 4 []
    | none => if stop < h.span then t.stopPart stop [] else (setFfx coming h.span).retire 4 []

/-- The progress write of a store with notify (R232, R253): PROG counts the active elements. -/
def State.notify (s : State) (k : BitVec 3) : Result :=
  let h := s.h
  let va := h.progaddr &&& ~~~(7 : Word)
  let prog := h.prog + BitVec.ofNat 64 ((List.range h.span).countP fun i => h.active k.toNat i)
  match s.store false va 8 prog.toNat with
  | .error f => s.trapAt f.cause h.span f.eaddr []
  | .ok t => ({ t with h := { t.h with prog } }.tagWrite va).retire 4 []

/-- A store's course over elements. -/
structure StoreRun where
  s : State
  fault : Option (Nat × Flt)

/-- One element of a store: its fields are all written or none (R262). -/
def StoreRun.step (r : StoreRun) (h : Hart) (km n : Nat) (imgs : List Nat) (addr : Nat → Nat → Except Flt Word) (i : Nat) : StoreRun :=
  if r.fault.isSome || !h.active km i then r
  else
    match r.s.storeFields n (addr i) ((List.range imgs.length).zip (imgs.map fun m => elem (8 * n) m i)) with
    | .error e => { r with fault := some (i, e) }
    | .ok s => { s, fault := none }

/-- A store of F fields (R259 to R262); `ntf` says with notify. -/
def State.vstore (s : State) (v : BitVec 5) (k : BitVec 3) (e : BitVec 1) (F : Nat) (base : Word) (misaligned ntf : Bool)
    (addr : State → Nat → Nat → Except Flt Word) : Result :=
  let A := s.h.dataRun v F
  let w := ewbOf s.h.vtype
  s.issue { srcs := [(A, e == 1)], chain := (List.range F).map fun f => ((v.toNat + f * s.h.grp, s.h.grp), w, 1) }
    (s.h.dataBad v F || (ntf && decide (5 ≤ fld s.h.progaddr 0 3))) [(misaligned, 0x06, base)]
    fun s =>
      let h := s.h
      let n := ewbOf h.vtype
      let km := k.toNat
      let stop := h.stopAt h.groupElems h.span
      let imgs := (List.range F).map fun f => h.img (v.toNat + f * h.grp) h.grp
      let r := (List.range' h.start (stop - h.start)).foldl (fun r i => r.step h km n imgs (addr s) i) (⟨s, none⟩ : StoreRun)
      match r.fault with
      | some (i, e) =>
        if e.cause = 0x13 ∨ s.groupFails .write n (h.activeAddrs km F i (h.groupEnd i stop) (addr s)) then
          s.vecMachine .write n (h.activeAddrs km F h.start h.span (addr s)) (0, 0)
        else r.s.trapAt e.cause i e.eaddr []
      | none => if stop < h.span then r.s.stopPart stop [] else if ntf then r.s.notify k else r.s.retire 4 []

/-- The address of element i, field f of a unit-stride form (Table 14-6). -/
def unitAddr (base : Word) (F : Nat) (s : State) (i f : Nat) : Except Flt Word :=
  sumAddr base ((i * F + f) * ewbOf s.h.vtype : Nat)

/-- The address of element i, field f of a strided form (Table 14-6). -/
def strideAddr (base stride : Word) (s : State) (i f : Nat) : Except Flt Word :=
  sumAddr base ((i : Int) * stride.toInt + (f * ewbOf s.h.vtype : Nat))

/-- Whether a base is not a multiple of the element width. -/
def State.baseMis (s : State) (base : Word) : Bool := decide (base.toNat % ewbOf s.h.vtype ≠ 0)

/-- VLD (R258 to R262) -/
def execVld (v b : BitVec 5) (k f : BitVec 3) (s : State) : Result :=
  s.vload v k (f.toNat + 1) (s.getG b) (s.baseMis (s.getG b)) false (unitAddr (s.getG b) (f.toNat + 1))
/-- VLDFF (R264) -/
def execVldff (v b : BitVec 5) (k f : BitVec 3) (s : State) : Result :=
  s.vload v k (f.toNat + 1) (s.getG b) (s.baseMis (s.getG b)) true (unitAddr (s.getG b) (f.toNat + 1))
/-- VLDS (R258 to R262) -/
def execVlds (v b x : BitVec 5) (k f : BitVec 3) (s : State) : Result :=
  s.vload v k (f.toNat + 1) (s.getG b) (s.baseMis (s.getG b) || s.baseMis (s.getG x)) false (strideAddr (s.getG b) (s.getG x))
/-- VST (R258 to R262) -/
def execVst (v b : BitVec 5) (k : BitVec 3) (e : BitVec 1) (f : BitVec 3) (s : State) : Result :=
  s.vstore v k e (f.toNat + 1) (s.getG b) (s.baseMis (s.getG b)) false (unitAddr (s.getG b) (f.toNat + 1))
/-- VSTN (R232, R253, R265) -/
def execVstn (v b : BitVec 5) (k : BitVec 3) (e : BitVec 1) (f : BitVec 3) (s : State) : Result :=
  s.vstore v k e (f.toNat + 1) (s.getG b) (s.baseMis (s.getG b)) true (unitAddr (s.getG b) (f.toNat + 1))
/-- VSTS (R258 to R262) -/
def execVsts (v b x : BitVec 5) (k : BitVec 3) (e : BitVec 1) (f : BitVec 3) (s : State) : Result :=
  s.vstore v k e (f.toNat + 1) (s.getG b) (s.baseMis (s.getG b) || s.baseMis (s.getG x)) false
    (strideAddr (s.getG b) (s.getG x))

/-! ### Indexed accesses (R259, R260, R263, R365, R366) -/

/-- Registers of an index group with `iw`-byte indices (R259). -/
def Hart.indexRegs (h : Hart) (iw : Nat) : Nat := max 1 (h.grp * iw / ewbOf h.vtype)

/-- Whether the instruction at the PC replays (R365, R373). -/
def Hart.replaying (h : Hart) : Bool := h.resuming && h.replay && decide (h.pc = evenPc h.epc)

/-- The elements an indexed access acts on: those active, without k23 in a replay (R365). -/
def Hart.indexed (h : Hart) (km i : Nat) : Bool := h.active km i && !(h.replaying && (h.getK 23).getLsbD i)

/-- An indexed access's course: the image of its data group, the state, the elements completed and the faults, latest first. -/
structure IndexRun where
  img : Nat
  s : State
  done : List Nat
  faults : List (Nat × Flt)

/-- One element; `act` does it and gives the new element, if any. -/
def IndexRun.step (r : IndexRun) (h : Hart) (km w : Nat) (zero : Bool) (act : State → Nat → Nat → Except Flt (Option Nat × State))
    (i : Nat) : IndexRun :=
  if h.indexed km i then
    match act r.s r.img i with
    | .error e => { r with faults := (i, e) :: r.faults }
    | .ok (x, s) =>
      { r with img := (match x with | none => r.img | some x => putElems w r.img i [x]), s, done := i :: r.done }
  else if zero && h.ip && !h.active km i then { r with img := putElems w r.img i [0] }
  else r

/-- A fault record (R366, Table 20-6). -/
def faultRec (h : Hart) (wr ovf : Bool) (p : Nat × Flt) : FaultRec :=
  ⟨p.2.eaddr, BitVec.ofNat 64 (wr.toNat * 2 ^ 22 + ovf.toNat * 2 ^ 21 + p.1 % 2 ^ 13 * 2 ^ 8 + p.2.cause), h.pc,
    BitVec.ofNat 64 (fld h.ptbr 52 12 * 2 ^ 52 + h.id.toNat)⟩

/-- A mask with the bits of a list set. -/
def maskWith (x : BitVec 8192) (is : List Nat) : BitVec 8192 := is.foldl (fun m i => m ||| BitVec.twoPow 8192 i) x

/-- The common course of VLDX, VSTX and VAMO: elements inactive in km are zeroed under IP = 1 in the first execution, not in a
replay (R365, R409). `dst` is the data group when it is written, `addr i` the address of element i. -/
def State.indexedRun (s : State) (v : BitVec 5) (k : BitVec 3) (kind : AccKind) (writes : Bool) (addr : Nat → Except Flt Word)
    (act : State → Nat → Nat → Except Flt (Option Nat × State)) : Result :=
  let h := s.h
  let km := k.toNat
  let n := ewbOf h.vtype
  let w := 8 * n
  let run (lo hi : Nat) (r : IndexRun) : IndexRun :=
    (List.range' lo (hi - lo)).foldl (fun r i => r.step h km w (writes && !h.replaying) act i) (r : IndexRun)
  let stop := h.stopAt h.groupElems h.span
  let r := run h.start stop ⟨h.img v.toNat h.grp, s, [], []⟩
  -- once an element has faulted no pre-emption lands (R368)
  let awaited : Option (BitVec 5) := if r.faults.isEmpty then none else h.quota.bind (·.2)
  let (r, stop) := if r.faults.isEmpty then (r, stop) else (run stop h.span r, h.span)
  let D : Regs := if writes then (v.toNat, h.grp) else (0, 0)
  let before : List Nat := if h.replaying then [] else (List.range h.start).filter fun i => h.active km i
  let k23 := maskWith (if h.replaying then h.getK 23 else 0) (before ++ r.done)
  let put (t : State) : State := if writes then { t with h := t.h.setImg v.toNat h.grp r.img } else t
  if let some w := awaited then
    -- nor does it stop for a register then: its elements wait until all of that is there
    { s with h := { h with quota := none } }.waitReg w.toNat true true
  else if r.faults.any (fun p => p.2.cause == 0x13) then
    s.vecMachine kind n (addrsOf addr ((List.range' h.start (h.span - h.start)).filter fun i => h.indexed km i)) D
  else match r.faults.reverse with
    | p :: ps =>
      let room := 16 - h.frq.length
      let ovf := decide (room < (p :: ps).length)
      let recs := ((p :: ps).take room).map (faultRec h kind.isWrite ovf)
      let t := put r.s
      { t with h := { t.h.setK 23 k23 with frq := h.frq ++ recs } }.trap
        { cause := p.2.cause, eaddr := p.2.eaddr, replay := true, frqov := ovf }
    | [] =>
      let t := if h.replaying then { r.s with h := r.s.h.setK 23 k23 } else r.s
      if stop < h.span then (put t).stopPart stop []
      else
        let t := if h.replaying then { t with h := { t.h with estatus := setFld t.h.estatus 6 1 0 } } else t
        { t with h := if writes then t.h.promiseGroup .pipe D r.img else t.h }.retire 4 []

/-- The checks of an indexed form that R260 gives: `iw` bytes an index. -/
def Hart.indexBad (h : Hart) (v x : BitVec 5) (iw : Nat) (apart : Bool) : Bool :=
  let gx := h.indexRegs iw
  h.dataBad v 1 || decide (x.toNat % gx ≠ 0) || decide (32 < x.toNat + gx) || decide (8 < gx) ||
    (apart && Regs.overlap (v.toNat, h.grp) (x.toNat, gx))

/-- The address of element i of an indexed form (Table 14-6). -/
def Hart.indexAddr (h : Hart) (base : Word) (x : BitVec 5) (iw i : Nat) : Except Flt Word :=
  sumAddr base (elem (8 * iw) (h.img x.toNat (h.indexRegs iw)) i * ewbOf h.vtype : Nat)

/-- VLDX (R258 to R260, R263): it chains on its indices (R28) -/
def execVldx (v b x : BitVec 5) (k : BitVec 3) (e : BitVec 1) (w : BitVec 2) (s : State) : Result :=
  let iw := 2 ^ w.toNat
  let base := s.getG b
  s.issue
    { dst := [(v.toNat, s.h.grp)]
      srcs := [((x.toNat, s.h.indexRegs iw), e == 1)]
      lvd := some v
      chain := [((x.toNat, s.h.indexRegs iw), iw, 1)] }
    (s.h.indexBad v x iw true)
    [(s.baseMis base, 0x06, base)] fun s =>
      let n := ewbOf s.h.vtype
      let addr := s.h.indexAddr base x iw
      s.indexedRun v k .read true addr fun t _ i =>
        match addr i with
        | .error f => .error f
        | .ok va =>
          match t.load false va n with
          | .error f => .error f
          | .ok (y, t) => .ok (some y, t)

/-- VSTX (R258 to R260, R263): it chains on its data and its indices (R28, R261) -/
def execVstx (v b x : BitVec 5) (k : BitVec 3) (e : BitVec 1) (w : BitVec 2) (s : State) : Result :=
  let iw := 2 ^ w.toNat
  let base := s.getG b
  s.issue
    { srcs := [((v.toNat, s.h.grp), e == 1), ((x.toNat, s.h.indexRegs iw), e == 1)]
      chain := [((v.toNat, s.h.grp), ewbOf s.h.vtype, 1), ((x.toNat, s.h.indexRegs iw), iw, 1)] }
    (s.h.indexBad v x iw false)
    [(s.baseMis base, 0x06, base)] fun s =>
      let n := ewbOf s.h.vtype
      let addr := s.h.indexAddr base x iw
      s.indexedRun v k .write false addr fun t img i =>
        match addr i with
        | .error f => .error f
        | .ok va =>
          match t.store false va n (elem (8 * n) img i) with
          | .error f => .error f
          | .ok t => .ok (none, t)

/-- A VAMO of an op code of Table 14-3 (R269): it chains on its indices (R28); its data is a destination, which is full when it issues
(R29). -/
def State.vamo (s : State) (v b x : BitVec 5) (k : BitVec 3) (e : BitVec 1) (op : Nat) : Result :=
  let base := s.getG b
  let n := ewbOf s.h.vtype
  let V : Regs := (v.toNat, s.h.grp)
  s.issue
    { dst := [V]
      srcs := [(V, e == 1), ((x.toNat, s.h.grp), e == 1)]
      lvd := some v
      chain := [((x.toNat, s.h.grp), n, 1)] }
    (!s.h.ewIn [32, 64] || s.h.indexBad v x n true)
    [(s.baseMis base, 0x06, base)] fun s =>
      let addr := s.h.indexAddr base x n
      s.indexedRun v k .atomic true addr fun t img i =>
        match addr i with
        | .error f => .error f
        | .ok va =>
          match t.rmw va n (fun old => some (amoOp op n old (elem (8 * n) img i))) with
          | .error f => .error f
          | .ok (old, _, t) => .ok (some old, t)

/-- VAMO.ADD (R269) -/
def execVamoAdd (v b x : BitVec 5) (k : BitVec 3) (e : BitVec 1) (s : State) : Result := s.vamo v b x k e 0
/-- VAMO.AND (R269) -/
def execVamoAnd (v b x : BitVec 5) (k : BitVec 3) (e : BitVec 1) (s : State) : Result := s.vamo v b x k e 1
/-- VAMO.OR (R269) -/
def execVamoOr (v b x : BitVec 5) (k : BitVec 3) (e : BitVec 1) (s : State) : Result := s.vamo v b x k e 2
/-- VAMO.XOR (R269) -/
def execVamoXor (v b x : BitVec 5) (k : BitVec 3) (e : BitVec 1) (s : State) : Result := s.vamo v b x k e 3
/-- VAMO.MIN (R269) -/
def execVamoMin (v b x : BitVec 5) (k : BitVec 3) (e : BitVec 1) (s : State) : Result := s.vamo v b x k e 4
/-- VAMO.MAX (R269) -/
def execVamoMax (v b x : BitVec 5) (k : BitVec 3) (e : BitVec 1) (s : State) : Result := s.vamo v b x k e 5
/-- VAMO.SWAP (R269) -/
def execVamoSwap (v b x : BitVec 5) (k : BitVec 3) (e : BitVec 1) (s : State) : Result := s.vamo v b x k e 6

/-! ### BPN segments (R267) -/

/-- The addresses of the 9 words of segment `b`. -/
def segAddr (base : Word) (b q : Nat) : Except Flt Word := sumAddr base (72 * b + 8 * q : Nat)

/-- Whether block `b` is moved: some element of it is active. -/
def Hart.blockActive (h : Hart) (km b : Nat) : Bool := (List.range' (64 * b) 64).any fun i => h.active km i

/-- A segment's words with the planes from `kk` on zero. -/
def prefixWords (kk : Nat) (ws : List Nat) : List Nat := ws.mapIdx fun q x => if q ≤ kk then x else 0

/-- A block run's course: image, state, and the trap that ends it (block, cause, EADDR). -/
structure BlockRun where
  img : Nat
  s : State
  stop : Option (Nat × Nat × Word)

/-- One block of VLDBP. -/
def BlockRun.load (r : BlockRun) (h : Hart) (km K : Nat) (base : Word) (b : Nat) : BlockRun :=
  if r.stop.isSome || !h.blockActive km b then r
  else match r.s.loadFields 8 (segAddr base b) (List.range 9) with
    | .error e => { r with stop := some (b, e.cause, e.eaddr) }
    | .ok (ws, s) =>
      let hdr := ws.headD 0
      if !hdrValid hdr then { r with stop := some (b, 0x17, base + BitVec.ofNat 64 (72 * b)) }
      else { img := putElems 64 r.img (9 * b) (prefixWords (min K (hdrP hdr)) ws), s, stop := none }

/-- One block of VSTBP. -/
def BlockRun.store (r : BlockRun) (h : Hart) (km K : Nat) (base : Word) (b : Nat) : BlockRun :=
  if r.stop.isSome || !h.blockActive km b then r
  else
    let hdr := blockHdr r.img b
    let ws := prefixWords (min K (hdrP hdr)) ((List.range 9).map fun q => elem 64 r.img (9 * b + q))
    if !hdrValid hdr then { r with stop := some (b, 0x17, BitVec.ofNat 64 (72 * b)) }
    else match r.s.storeFields 8 (segAddr base b) ((List.range 9).zip ws) with
      | .error e => { r with stop := some (b, e.cause, e.eaddr) }
      | .ok s => { r with s }

/-- The common course of VLDBP and VSTBP over blocks. -/
def State.blockRun (s : State) (img : Regs) (load : Bool) (km : Nat) (base : Word) (step : Hart → BlockRun → Nat → BlockRun) : Result :=
  let h := s.h
  let stop := h.stopAt 64 (64 * h.blocks)
  let r := (List.range' (h.start / 64) (stop / 64 - h.start / 64)).foldl (step h) (⟨h.img img.1 img.2, s, none⟩ : BlockRun)
  let t := { r.s with h := if load then r.s.h.setImg img.1 img.2 r.img else r.s.h }
  match r.stop with
  | some (b, cause, eaddr) =>
    let kind : AccKind := if load then .read else .write
    if cause = 0x13 ∨ s.groupFails kind 8 (addrsOf (segAddr base b) (List.range 9)) then
      let act := (List.range' (h.start / 64) (h.blocks - h.start / 64)).filter fun b => h.blockActive km b
      s.vecMachine kind 8 (act.flatMap fun b => addrsOf (segAddr base b) (List.range 9)) (if load then img else (0, 0))
    else t.trapAt cause (64 * b) eaddr []
  | none =>
    if stop < 64 * h.blocks then t.stopPart stop []
    else
      let total := (72 * h.blocks + h.groupBytes - 1) / h.groupBytes
      { r.s with h := if load then r.s.h.promise total (72 * (h.start / 64) / h.groupBytes) .pipe img.1 0 img.2 r.img else r.s.h }.retire
        4 []

/-- VLDBP (R267) -/
def execVldbp (v b : BitVec 5) (k p : BitVec 3) (s : State) : Result :=
  let V := s.h.imageRun v
  let base := s.getG b
  s.issue { dst := [V], lvd := some v } V.past [(decide (base.toNat % 8 ≠ 0), 0x06, base)] fun s =>
    s.blockRun V true k.toNat base fun h r blk => r.load h k.toNat (p.toNat + 1) base blk

/-- VSTBP (R267) -/
def execVstbp (v b : BitVec 5) (k : BitVec 3) (e : BitVec 1) (p : BitVec 3) (s : State) : Result :=
  let V := s.h.imageRun v
  let base := s.getG b
  s.issue { srcs := [(V, e == 1)], chain := [(V, 72, 64)], unit := 64 } V.past [(decide (base.toNat % 8 ≠ 0), 0x06, base)] fun s =>
    s.blockRun V false k.toNat base fun h r blk => r.store h k.toNat (p.toNat + 1) base blk

/-! ### Spill and fill (R268) -/

/-- A line run's course: the block's image, the state, and the fault that ends it (offset, fault). -/
structure LineRun where
  img : Nat
  s : State
  fault : Option (Nat × Flt)

/-- One 64-byte line at offset `64 n` of VREFILL. -/
def LineRun.fill (r : LineRun) (base : Word) (n : Nat) : LineRun :=
  if r.fault.isSome then r
  else match sumAddr base (64 * n : Nat) with
    | .error e => { r with fault := some (64 * n, e) }
    | .ok va =>
      match r.s.load false va 64 with
      | .error e => { r with fault := some (64 * n, e) }
      | .ok (x, s) => { img := putElems 512 r.img n [x], s, fault := none }

/-- One line of VSPILL. -/
def LineRun.spill (r : LineRun) (base : Word) (n : Nat) : LineRun :=
  if r.fault.isSome then r
  else match sumAddr base (64 * n : Nat) with
    | .error e => { r with fault := some (64 * n, e) }
    | .ok va =>
      match r.s.store false va 64 (elem 512 r.img n) with
      | .error e => { r with fault := some (64 * n, e) }
      | .ok s => { r with s }

/-- The common course of VSPILL and VREFILL: `fill` says which. -/
def State.lineRun (s : State) (v b : BitVec 5) (fill : Bool) : Result :=
  let V : Regs := (v.toNat, 8)
  let base := s.getG b
  s.issue { dst := [V], lvd := if fill then some v else none } (decide (v.toNat % 8 ≠ 0)) [(decide (base.toNat % 64 ≠ 0), 0x06, base)] fun s =>
    let h := s.h
    let stop := h.stopAt 64 32768
    let r := (List.range' (h.start / 64) (stop / 64 - h.start / 64)).foldl
      (fun (r : LineRun) n => if fill then r.fill base n else r.spill base n) ⟨h.img V.1 8, s, none⟩
    let t := { r.s with h := if fill then r.s.h.setImg V.1 8 r.img else r.s.h }
    match r.fault with
    | some (o, e) =>
      if e.cause = 0x13 then
        s.vecMachine (if fill then .read else .write) 64
          (addrsOf (fun n => sumAddr base (64 * n : Nat)) (List.range' (h.start / 64) (512 - h.start / 64)))
          (if fill then V else (0, 0))
      else t.trapAt e.cause o e.eaddr []
    | none =>
      if stop < 32768 then t.stopPart stop []
      else
        let total := (32768 + h.groupBytes - 1) / h.groupBytes
        { r.s with h := if fill then r.s.h.promise total (h.start / h.groupBytes) .pipe V.1 0 8 r.img else r.s.h }.retire 4 []

/-- VSPILL (R268) -/
def execVspill (v b : BitVec 5) (s : State) : Result := s.lineRun v b false
/-- VREFILL (R268) -/
def execVrefill (v b : BitVec 5) (s : State) : Result := s.lineRun v b true

end Sys2Proof.Machine
end

