-- ==== Sys2Proof/Machine/Tile.lean ====
section
/-! DEFINITION. Tile instructions on the exact accumulators (07 R123 to R125, 08 R133 to R139, 10 R182 to R194). -/

namespace Sys2Proof.Machine

/-! ### Accumulator elements (R123) -/

/-- The anchor E as a signed number. -/
def Accum.e (a : Accum) : Int := a.anchor.toInt
/-- Acc of element `i`, unsigned. -/
def Accum.val (a : Accum) (i : Nat) : Nat := elem 256 a.acc.toNat i
/-- The status of element `i`. -/
def Accum.status (a : Accum) (i : Nat) : Nat := elem 2 a.st.toNat i
/-- Writes Acc of element `i`. -/
def Accum.setVal (a : Accum) (i x : Nat) : Accum := { a with acc := BitVec.ofNat 1048576 (putElems 256 a.acc.toNat i [x]) }
/-- Writes the status of element `i`. -/
def Accum.setStatus (a : Accum) (i x : Nat) : Accum := { a with st := BitVec.ofNat 8192 (putElems 2 a.st.toNat i [x]) }

/-- The exact product of two operands, and whether it raises NV: a signalling operand, or infinity times 0 (R123, R133). -/
def tileMul : FVal → FVal → FVal × Bool
  | .nan a, y => (.nan false, a || y.isS)
  | .inf _, .nan b => (.nan false, b)
  | .fin _ _ _, .nan b => (.nan false, b)
  | .inf a, .inf b => (.inf (a != b), false)
  | .inf a, .fin b m _ => if m = 0 then (.nan false, true) else (.inf (a != b), false)
  | .fin a m _, .inf b => if m = 0 then (.nan false, true) else (.inf (a != b), false)
  | .fin a m e, .fin b n d => (.fin (a != b) (m * n) (e + d), false)

/-- Acc and status after one product under anchor `e`, with the flags (R123). -/
def accAdd (e : Int) (acc st : Nat) (p : FVal) (nv : Bool) : Nat × Nat × Flags :=
  let f0 : Flags := if nv then fNV else 0
  match p with
  | .nan _ => (acc, 3, f0)
  | .inf neg =>
    if st = 1 ∧ neg ∨ st = 2 ∧ !neg then (acc, 3, f0 ||| fNV)
    else (acc, if st = 0 then (if neg then 2 else 1) else st, f0)
  | .fin neg m x =>
    let r := roundInt .rne neg m (x - e) false
    let wov := decide (m ≠ 0 ∧ e + 224 ≤ Nat.log2 m + x)
    (ofSigned 256 (acc + r.1), st, f0 ||| (if r.2 then fWIX else 0) ||| (if wov then fWOV else 0))

/-! ### Shape and steps -/

/-- M, N and K of TSHP (Table 8-5). -/
structure TileShape where
  m : Nat
  n : Nat
  k : Nat

/-- The shape of the hart. -/
def Hart.shape (h : Hart) : TileShape := ⟨fld h.tshp 0 6 + 1, fld h.tshp 8 6 + 1, fld h.tshp 16 16⟩

/-- The GRANT of the running tile instruction: the one GM1 records when it goes on (R194); at least 1. -/
def Hart.tileGrant (h : Hart) : Nat := if h.resuming && h.tseq.getLsbD 63 then (fld h.tseq 28 4 + 1) * 16 else max 1 h.grant.toNat

/-- TSEQ of an instruction that stops at step `j` (Table 10-9); 0 when nothing is done. -/
def tseqOf (op j g : Nat) : Word := if j = 0 then 0 else BitVec.ofNat 64 (2 ^ 63 + op * 2 ^ 53 + j * 2 ^ 32 + (g / 16 - 1) * 2 ^ 28)

/-- The lowest accumulator of a list that the hart does not hold. -/
def State.zNotHeld (s : State) (zs : List (BitVec 2)) : Option Nat :=
  leastOf (zs.map fun z => if s.holdsZ z then none else some z.toNat)

/-- A run without the registers past v31. -/
def Regs.inside (a : Regs) : Regs := (a.1, min a.2 (32 - a.1))

/-- The parts of registers in which `len` bytes from byte `lo` of a register operand from `r` lie: register, and bytes from its first
one on. -/
def stepBytes (r lo len : Nat) : List (Nat × Nat) :=
  (List.range' (lo / 4096) ((lo + len + 4095) / 4096 - lo / 4096)).map fun q => (r + q, min 4096 (lo + len - 4096 * q))

/-- Whether the first bytes of a register are there (R27, R28). -/
def Hart.holdsBytes (h : Hart) (p : Nat × Nat) : Bool :=
  match h.full[p.1]? with
  | some (.empty x) => decide (p.2 ≤ x.written)
  | _ => true

/-- The first step from `j` on, at most `n` on, that needs bytes that are not there, with the register (R28). -/
def Hart.stepsReady (h : Hart) (need : Nat → List (Nat × Nat)) (j : Nat) : Nat → Option (Nat × Nat)
  | 0 => none
  | n + 1 =>
    match (need j).find? fun p => !h.holdsBytes p with
    | some p => some (j, p.1)
    | none => Hart.stepsReady h need (j + 1) n

/-- The e = 0 reads of a tile instruction: it runs up to the first step whose operands are not there, and the hart then waits (R28,
R187). `need` gives the bytes that a step reads in registers. -/
def State.readSteps (s : State) (srcs : List (Regs × Bool)) (need : Nat → List (Nat × Nat)) (total : Nat) (k : State → Result) : Result :=
  let rs := s.unread (openReads srcs)
  match (if (s.h.emptyIn (srcs.map (·.1))).isSome then s.h.stepsReady need s.h.start (total - s.h.start) else none) with
  | none => k (s.carryReads rs).endWait
  | some (j, w) =>
    let s := s.carryReads (rs.takeWhile fun x => x != w)
    if j ≤ s.h.start then s.waitReg w true true else k { s with h := s.h.stopFor j w }.endWait

/-- Issues a tile instruction: the checks of R63 and R183, the waits on e = 0 operands, then its work. -/
def State.tileIssue (s : State) (srcs : List (Regs × Bool)) (zs : List (BitVec 2)) (illegal : Bool)
    (more : List (Bool × Nat × Word)) (k : State → Result) (need : Nat → List (Nat × Nat) := fun _ => []) (total : Nat := 0) : Result :=
  let rs : List Regs := srcs.map fun p => p.1.inside
  let es : List Regs := (srcs.filter fun p => p.2).map fun p => p.1.inside
  s.check ((illegal, 0x02, s.ir) ::
      ((s.h.notHeld rs).isSome, 0x05, BitVec.ofNat 64 ((s.h.notHeld rs).getD 0)) ::
      ((s.zNotHeld zs).isSome, 0x05, BitVec.ofNat 64 (32 + (s.zNotHeld zs).getD 0)) ::
      ((s.h.emptyIn es).isSome, 0x04, BitVec.ofNat 64 ((s.h.emptyIn es).getD 0)) :: more) fun s => s.readSteps srcs need total k

/-- TSHAPE (R184) -/
def execTshape (z : BitVec 2) (m n : BitVec 6) (k : BitVec 13) (s : State) : Result :=
  s.tileIssue [] [z] false [] fun s =>
    let t := setFld (setFld (setFld s.h.tshp 0 6 m.toNat) 8 6 n.toNat) 16 16 (k.toNat + 1)
    .next ({ s with h := { s.h with tshp := t } }.adv 8)

/-- TWIN (R134, R184) -/
def execTwin (z : BitVec 2) (i : BitVec 16) (s : State) : Result :=
  s.tileIssue [] [z] (s.accum z).taken [] fun s =>
    .next ({ s with h := { s.h with twin := s.h.twin.set z.toNat (i.setWidth 64) z.isLt } }.adv 8)

/-- TZERO (R184) -/
def execTzero (z : BitVec 2) (s : State) : Result :=
  s.tileIssue [] [z] false [] fun s =>
    .next ((s.setAccum z { s.accum z with
      acc := 0, st := 0, anchor := (s.h.twin[z.toNat]'z.isLt).setWidth 16, taken := false }).adv 8)

/-! ### Operands (R56, R186) -/

/-- An operand of TMMA, or the memory of TLDA and TSTA in the scratchpad. `rows` is M for A and N for B. -/
structure TileOp where
  isA : Bool
  ty : Nat
  planes : Nat
  /-- the registers, none for a scratchpad operand -/
  regs : Option Regs
  /-- the register image -/
  img : Nat
  base : Nat
  rp : Nat
  tp : Nat
  rho : Nat
  /-- gang row or column -/
  g : Nat
  rows : Nat
  k : Nat

/-- Bytes of a dense element; 8 for BPN words. -/
def tileSize (ty : Nat) : Nat := if ty = 0 then 4 else if ty = 1 ∨ ty = 2 then 2 else if ty = 5 then 1 else 8

/-- A BPN type. -/
def tileBpn (ty : Nat) : Bool := ty == 3 || ty == 4

/-- Segments in a row of A or a column of B. -/
def TileOp.segs (o : TileOp) : Nat := (o.k + 63) / 64

/-- The bytes of a register operand. -/
def tileBytes (ty rows k : Nat) : Nat := if tileBpn ty then rows * ((k + 63) / 64) * 72 else rows * k * tileSize ty

/-- The registers of a register operand: at least the one it names. -/
def tileRegs (a : BitVec 5) (ty rows k : Nat) : Regs := (a.toNat, max 1 ((tileBytes ty rows k + 4095) / 4096))

/-- off(r, c) (R186): without rotation the byte lies at c. -/
def TileOp.off (o : TileOp) (r c : Nat) : Nat :=
  o.base + o.g * o.tp + r * o.rp + (if o.rho = 0 then c else (c + 8 * o.rho * r) % o.rp)

/-- The virtual address of a scratchpad offset (Table 2-1). -/
def scratchVa (o : Nat) : Word := BitVec.ofNat 64 (0x000FFFFE00000000 + o)

/-- A scratchpad pair names an even register from 2 to 30 (R56). -/
def pairBad (sa : BitVec 1) (a : BitVec 5) : Bool := sa == 1 && (a.getLsbD 0 || decide (a.toNat < 2))

/-- The operand named by `sa` and `a`. -/
def State.tileOp (s : State) (isA : Bool) (sa : BitVec 1) (a : BitVec 5) (ty planes rows k g : Nat) : TileOp :=
  let x := s.getG a
  let y := s.getG (a + 1)
  let r := tileRegs a ty rows k
  { isA, ty, planes, regs := if sa = 1 then none else some r,
    img := if sa = 1 then 0 else s.h.img r.1 r.2,
    base := fld x 0 32, rp := fld x 32 16, tp := fld y 0 32, rho := fld y 32 4, g, rows, k }

/-- The bytes of one storage row: a row of A, a row of B for a dense type, a column of B for BPN. -/
def TileOp.rowBytes (o : TileOp) : Nat :=
  if tileBpn o.ty then 72 * o.segs else if o.isA then o.k * tileSize o.ty else o.rows * tileSize o.ty

/-- The storage rows. -/
def TileOp.storeRows (o : TileOp) : Nat := if o.isA || tileBpn o.ty then o.rows else o.k

/-- A scratchpad layout of rows of `len` bytes with pieces of `size` that is misaligned (R186). -/
def TileOp.misaligned (o : TileOp) (size len : Nat) : Bool :=
  o.regs.isNone && (decide (o.base % size ≠ 0) || decide (o.rp % size ≠ 0) || decide (o.tp % size ≠ 0) ||
    (decide (o.rho ≠ 0) && decide (o.rp < len)))

/-- The lowest offset at or above 4 MiB of a scratchpad layout of `n` rows of `len` bytes with pieces of `size` (R183). -/
def TileOp.leaves (o : TileOp) (size n len : Nat) : Option Nat :=
  if o.regs.isSome then none
  else
    leastOf ((List.range n).map fun r => leastOf ((List.range (len / size)).map fun i =>
      let x := o.off r (i * size)
      if x + size ≤ 0x400000 then none else some (max x 0x400000)))

/-- The checks of R183 on a scratchpad layout. -/
def TileOp.checks (o : TileOp) (size len : Nat) : List (Bool × Nat × Word) :=
  [(o.misaligned size len, 0x06, scratchVa o.base)]

/-- The access-violation check of R183 on a scratchpad layout. -/
def TileOp.extent (o : TileOp) (size n len : Nat) : List (Bool × Nat × Word) :=
  [((o.leaves size n len).isSome, 0x0A, scratchVa ((o.leaves size n len).getD 0))]

/-- Reads `n` bytes at storage row `r`, byte `c`. -/
def TileOp.read (o : TileOp) (s : State) (r c n : Nat) : Except Flt (Nat × State) := s.load false (scratchVa (o.off r c)) n

/-- What one row of A or column of B gives to a step: the values at k from 8s, and the header of the block for BPN. -/
structure TileRow where
  vals : List FVal
  hdr : Option Nat
  /-- the block's address, or its image byte offset -/
  addr : Word

/-- A dense element's value (Table 8-3). -/
def denseVal (ty x : Nat) : FVal :=
  if ty = 0 then Fmt.f32.unpack x else if ty = 1 then Fmt.bf16.unpack x else if ty = 2 then Fmt.f16.unpack x
  else .fin (decide (toSigned 8 x < 0)) (toSigned 8 x).natAbs 0

/-- The values of a dense row at the indices given. -/
def TileOp.denseRow (o : TileOp) (r : Nat) : List Nat → State → Except Flt (List FVal × State)
  | [], s => .ok ([], s)
  | k :: ks, s =>
    let n := tileSize o.ty
    let x : Except Flt (Nat × State) := match o.regs with
      | some _ => .ok (elem (8 * n) o.img (if o.isA then r * o.k + k else k * o.rows + r), s)
      | none => if o.isA then o.read s r (k * n) n else o.read s k (r * n) n
    match x with
    | .error f => .error f
    | .ok (x, s) =>
      match TileOp.denseRow o r ks s with
      | .error f => .error f
      | .ok (vs, s) => .ok (denseVal o.ty x :: vs, s)

/-- The words of a segment of a scratchpad operand from byte `c` of row `r`. -/
def TileOp.segWords (o : TileOp) (r c : Nat) : Nat → State → Except Flt (Nat × State)
  | 0, s => .ok (0, s)
  | n + 1, s =>
    match o.read s r c 8 with
    | .error f => .error f
    | .ok (x, s) =>
      match TileOp.segWords o r (c + 8) n s with
      | .error f => .error f
      | .ok (y, s) => .ok (x + y * 2 ^ 64, s)

/-- The image of block `b` of row `r`, as a number whose block 0 it is. -/
def TileOp.segment (o : TileOp) (r b : Nat) (s : State) : Except Flt (Nat × State) :=
  match o.regs with
  | some _ => .ok (o.img >>> (576 * (r * o.segs + b)) % 2 ^ 576, s)
  | none => o.segWords r (72 * b) 9 s

/-- The address of block `b` of row `r` for EADDR (R139). -/
def TileOp.segAddress (o : TileOp) (r b : Nat) : Word :=
  match o.regs with
  | some _ => BitVec.ofNat 64 (72 * (r * o.segs + b))
  | none => scratchVa (o.off r (72 * b))

/-- The values and the header of a BPN row, checked (R120, R187, then R139). -/
def TileOp.bpnRow (o : TileOp) (r b : Nat) (ks : List Nat) (s : State) : Except Flt (TileRow × State) :=
  match o.segment r b s with
  | .error f => .error f
  | .ok (seg, s) =>
    let hdr := seg % 2 ^ 64
    let bad := !hdrValid hdr || (o.isA && decide (hdrZP hdr ≠ 0)) || hdrA hdr != (o.ty == 4)
    if bad then .error ⟨0x17, o.segAddress r b⟩
    else
      let prev : Except Flt (Nat × State) := if b = 0 then .ok (0, s) else o.segment r (b - 1) s
      match prev with
      | .error f => .error f
      | .ok (p, s) =>
        if b ≠ 0 ∧ (hdrTag (p % 2 ^ 64) + 1) % 256 ≠ hdrTag hdr then .error ⟨0x0D, o.segAddress r b⟩
        else
          let vals := ks.map fun k =>
            let u := prefixVal seg hdr 0 (k % 64) o.planes
            FVal.fin (decide (u < 0)) u.natAbs ((hdrE8 hdr : Int) - 127)
          .ok (⟨vals, some hdr, o.segAddress r b⟩, s)

/-- The rows a step uses, in ascending order. -/
def TileOp.fetch (o : TileOp) (b : Nat) (ks : List Nat) : List Nat → State → Except Flt (List (Nat × TileRow) × State)
  | [], s => .ok ([], s)
  | r :: rs, s =>
    let x : Except Flt (TileRow × State) :=
      if tileBpn o.ty then o.bpnRow r b ks s
      else match o.denseRow r ks s with
        | .error f => .error f
        | .ok (vs, s) => .ok (⟨vs, none, 0⟩, s)
    match x with
    | .error f => .error f
    | .ok (x, s) =>
      match TileOp.fetch o b ks rs s with
      | .error f => .error f
      | .ok (xs, s) => .ok ((r, x) :: xs, s)

/-- A fetched row. -/
def tileRow (xs : List (Nat × TileRow)) (r : Nat) : TileRow := ((xs.find? fun p => p.1 == r).map (·.2)).getD ⟨[], none, 0⟩

/-! ### TMMA (R185 to R189) -/

/-- The type pairs of Table 10-7. -/
def tilePair (a b : Nat) : Bool :=
  [(0, 0), (1, 1), (2, 2), (5, 5), (3, 3), (3, 4), (3, 1), (1, 3), (1, 4), (4, 3)].contains (a, b)

/-- One element of a step: the products of its row and column. -/
def tileDot (e : Int) (acc st : Nat) : List FVal → List FVal → Nat × Nat × Flags
  | x :: xs, y :: ys =>
    let p := tileMul x y
    let r := accAdd e acc st p.1 p.2
    let q := tileDot e r.1 r.2.1 xs ys
    (q.1, q.2.1, r.2.2 ||| q.2.2)
  | _, _ => (acc, st, 0)

/-- What a TMMA has done: the state, the flags and the fault that stops it (step, fault). -/
structure TileRun where
  s : State
  fl : Raised
  fault : Option (Nat × Flt)

/-- What a step of TMMA works on: indices k, elements t = 64m + n by place, block of k, rows of A and columns of B. -/
structure TileStep where
  ks : List Nat
  ts : List Nat
  b : Nat
  rows : List Nat
  cols : List Nat

/-- Step `j` of TMMA (R188). `g` is the GRANT. -/
def tileStep (sh : TileShape) (g j : Nat) : TileStep :=
  let nks := (sh.k + 7) / 8
  let p := j / nks
  let sl := j % nks
  let ts := List.range' (p * g) (min g (sh.m * sh.n - p * g))
  { ks := List.range' (8 * sl) (min 8 (sh.k - 8 * sl))
    ts
    b := sl / 8
    rows := (List.range sh.m).filter fun m => ts.any fun t => t / sh.n == m
    cols := (List.range sh.n).filter fun n => ts.any fun t => t % sh.n == n }

/-- The scratchpad addresses that the rows given read in a step. -/
def TileOp.words (o : TileOp) (x : TileStep) (rows : List Nat) : List Word :=
  let n := tileSize o.ty
  if o.regs.isSome then []
  else rows.flatMap fun r =>
    if tileBpn o.ty then
      (List.range 9).map (fun q => scratchVa (o.off r (72 * x.b + 8 * q))) ++
        (if x.b = 0 then [] else (List.range 9).map fun q => scratchVa (o.off r (72 * (x.b - 1) + 8 * q)))
    else x.ks.map fun k => scratchVa (if o.isA then o.off r (k * n) else o.off k (r * n))

/-- The bytes of registers that the rows given read in a step. -/
def TileOp.regBytes (o : TileOp) (x : TileStep) (rows : List Nat) : List (Nat × Nat) :=
  let n := tileSize o.ty
  match o.regs with
  | none => []
  | some r =>
    if tileBpn o.ty then
      rows.flatMap fun m => stepBytes r.1 (72 * (m * o.segs + (x.b - 1))) (if x.b = 0 then 72 else 144)
    else rows.flatMap fun m => x.ks.flatMap fun k => stepBytes r.1 (n * (if o.isA then m * o.k + k else k * o.rows + m)) n

/-- Runs step `j` of TMMA. -/
def TileRun.mma (r : TileRun) (z : BitVec 2) (A B : TileOp) (sh : TileShape) (g j : Nat) : TileRun :=
  if r.fault.isSome then r
  else
    let x := tileStep sh g j
    let ts := x.ts
    match A.fetch x.b x.ks x.rows r.s with
    | .error f => { r with fault := some (j, f) }
    | .ok (ra, s) =>
      match B.fetch x.b x.ks x.cols s with
      | .error f => { r with fault := some (j, f) }
      | .ok (rb, s) =>
        let skew := ts.find? fun t =>
          match (tileRow ra (t / sh.n)).hdr, (tileRow rb (t % sh.n)).hdr with
          | some x, some y => hdrTag x != hdrTag y
          | _, _ => false
        match skew with
        | some t => { r with fault := some (j, ⟨0x0D, (tileRow rb (t % sh.n)).addr⟩) }
        | none =>
          let a := s.accum z
          let new := ts.map fun t =>
            let i := 64 * (t / sh.n) + t % sh.n
            (i, tileDot a.e (a.val i) (a.status i) (tileRow ra (t / sh.n)).vals (tileRow rb (t % sh.n)).vals)
          match (if s.h.wovt then new.find? fun x => x.2.2.2.getLsbD 7 else none) with
          | some x => { r with fault := some (j, ⟨0x0C, BitVec.ofNat 64 x.1⟩) }
          | none =>
            let a' := new.foldl (fun (a : Accum) x => (a.setVal x.1 x.2.1).setStatus x.1 x.2.2.1) a
            { s := s.setAccum z { a' with taken := true }
              fl := (new.filterMap fun x => if x.2.2.2 = 0 then none else some (x.1, x.2.2.2)) ++ r.fl
              fault := none }

/-- After a machine check the accumulator is undefined (R385): free values. -/
def State.loseZ (s : State) (z : BitVec 2) : State :=
  let acc := (List.range 32).foldl (fun n i => n + (Config.freeImage (s.fresh + i)).toNat * 2 ^ (32768 * i)) 0
  let a := { s.accum z with acc := BitVec.ofNat 1048576 acc, st := (Config.freeImage (s.fresh + 32)).setWidth 8192 }
  { s.setAccum z a with fresh := s.fresh + 33 }

/-- Ends a tile instruction of op `op` that has stopped at `stop` of `total` steps, or at a fault. `bad` gives the failing words that
a step consumes; a machine check comes before the step's other faults (R386) and leaves `lose` of the state before (R385). -/
def State.tileEnd (s0 : State) (r : TileRun) (op g stop total : Nat) (bad : Nat → List (Nat × Nat × BitVec 3))
    (lose : State → State) : Result :=
  match r.fault with
  | some (j, f) =>
    if f.cause = 0x13 ∨ bad j ≠ [] then
      (lose s0).trap { cause := 0x13, eaddr := s0.badSummary ((List.range' s0.h.start (total - s0.h.start)).flatMap bad) }
    else r.s.trapAt f.cause j f.eaddr r.fl (tseqOf op j g)
  | none => if stop < total then r.s.stopPart stop r.fl (tseqOf op stop g) else r.s.retire 8 r.fl

/-- The gang row and column of the hart (R192); 0 outside a gang. -/
def State.gangPlace (s : State) : Nat × Nat :=
  match s.gangOf s.h.id with
  | none => (0, 0)
  | some g =>
    let q := gangRank g.cores s.myCore
    let c := fld s.h.tshp 34 2 + 1
    (q / c, q % c)

/-- TMMA (R185 to R189) -/
def execTmma (z : BitVec 2) (a : BitVec 5) (sa : BitVec 1) (b : BitVec 5) (sb : BitVec 1) (ta tb : BitVec 4) (pa pb : BitVec 3)
    (ea eb : BitVec 1) (s : State) : Result :=
  let sh := s.h.shape
  let gp := s.gangPlace
  let A := s.tileOp true sa a ta.toNat (pa.toNat + 1) sh.m sh.k gp.1
  let B := s.tileOp false sb b tb.toNat (pb.toNat + 1) sh.n sh.k gp.2
  let g := s.h.tileGrant
  let total := (sh.k + 7) / 8 * ((sh.m * sh.n + g - 1) / g)
  let need (j : Nat) : List (Nat × Nat) := A.regBytes (tileStep sh g j) (tileStep sh g j).rows ++ B.regBytes (tileStep sh g j) (tileStep sh g j).cols
  let run (o : TileOp) (e : BitVec 1) : List (Regs × Bool) := match o.regs with | some r => [(r, e == 1)] | none => []
  let past (o : TileOp) : Bool := match o.regs with | some r => r.past | none => false
  s.tileIssue (run A ea ++ run B eb) [z]
    (!tilePair ta.toNat tb.toNat || pairBad sa a || pairBad sb b || (sa == 1 && ea == 1) || (sb == 1 && eb == 1))
    ((decide (sh.k = 0) || past A || past B, 0x18, s.ir) ::
      A.checks (tileSize ta.toNat) A.rowBytes ++ B.checks (tileSize tb.toNat) B.rowBytes ++
      A.extent (tileSize ta.toNat) A.storeRows A.rowBytes ++ B.extent (tileSize tb.toNat) B.storeRows B.rowBytes) (need := need) (total := total) fun s =>
    let stop := s.h.stopAt 1 total
    let r := (List.range' s.h.start (stop - s.h.start)).foldl (fun (r : TileRun) j => r.mma z A B sh g j) ⟨s, [], none⟩
    let bad (j : Nat) : List (Nat × Nat × BitVec 3) :=
      let x := tileStep sh g j
      (A.words x x.rows ++ B.words x x.cols).flatMap fun va => s.badWords .read 1 va
    s.tileEnd r 3 g stop total bad fun s => s.loseZ z

/-! ### TLDA and TSTA (R190) -/

/-- The memory of TLDA or TSTA: a scratchpad layout, or a base and a signed pitch. -/
structure TileMem where
  pad : Option TileOp
  base : Word
  pitch : Word
  /-- bytes of an element: 4, 2 or 32 -/
  size : Nat
  ty : Nat
  raw : Bool
  map : Option Word

/-- The memory a TLDA or TSTA names. -/
def State.tileMem (s : State) (a : BitVec 5) (sa : BitVec 1) (b : BitVec 5) (t : BitVec 4) (raw sm : BitVec 1) (gm : BitVec 5) : TileMem :=
  { pad := if sa = 1 then some { s.tileOp true 1 a t.toNat 0 0 0 0 with ty := t.toNat } else none
    base := s.getG a
    pitch := s.getG b
    size := if raw = 1 then 32 else tileSize t.toNat
    ty := t.toNat
    raw := raw == 1
    map := if sm = 1 then some (s.getG gm) else none }

/-- The unit of alignment: the element, 8 for raw. -/
def TileMem.unit (t : TileMem) : Nat := if t.raw then 8 else t.size

/-- The address of byte `c` of row `m`. -/
def TileMem.addr (t : TileMem) (m c : Nat) : Except Flt Word :=
  match t.pad with
  | some o => .ok (scratchVa (o.off m c))
  | none => sumAddr t.base ((m : Int) * t.pitch.toInt + (c : Nat))

/-- Reads element (m, n), word by word when raw. -/
def TileMem.load (t : TileMem) (s : State) (m n : Nat) : Except Flt (Nat × State) :=
  match s.loadFields t.unit (fun q => t.addr m (n * t.size + q * t.unit)) (List.range (t.size / t.unit)) with
  | .error f => .error f
  | .ok (xs, s) => .ok (packElems (8 * t.unit) xs, s)

/-- Writes element (m, n), word by word when raw. -/
def TileMem.store (t : TileMem) (s : State) (m n x : Nat) : Except Flt State :=
  s.storeFields t.unit (fun q => t.addr m (n * t.size + q * t.unit))
    ((List.range (t.size / t.unit)).map fun q => (q, elem (8 * t.unit) x q))

/-- The accesses of row step `m`, as (bytes, address): its elements, and with the last row the status map. -/
def TileMem.places (t : TileMem) (sh : TileShape) (m : Nat) : List (Nat × Word) :=
  (addrsOf (fun q => t.addr m (q * t.unit)) (List.range (sh.n * t.size / t.unit))).map (fun va => (t.unit, va)) ++
    (match t.map with
     | some gm =>
       if m + 1 = sh.m then (addrsOf (fun q => sumAddr gm (q : Nat)) (List.range ((sh.m * sh.n + 3) / 4))).map (fun va => (1, va)) else []
     | none => [])

/-- The elements of row `m` from column `n` on. -/
def TileMem.loadRow (t : TileMem) (m n : Nat) : Nat → State → Except Flt (List (Nat × Nat) × State)
  | 0, s => .ok ([], s)
  | c + 1, s =>
    match t.load s m n with
    | .error f => .error f
    | .ok (x, s) =>
      match TileMem.loadRow t m (n + 1) c s with
      | .error f => .error f
      | .ok (xs, s) => .ok ((n, x) :: xs, s)

/-- Writes the elements of row `m`. -/
def TileMem.storeRow (t : TileMem) (m : Nat) : List (Nat × Nat) → State → Except Flt State
  | [], s => .ok s
  | (n, x) :: xs, s =>
    match t.store s m n x with
    | .error f => .error f
    | .ok s => TileMem.storeRow t m xs s

/-- The format of a float element. -/
def tileFmt (ty : Nat) : Fmt := if ty = 0 then .f32 else if ty = 1 then .bf16 else .f16

/-- What TSTA stores for an element: one rounding, an infinity or the default NaN (R125). -/
def tileRounded (f : Fmt) (r : RM) (a : Accum) (i : Nat) : Nat × Flags :=
  if a.status i = 1 then (f.inf false, 0)
  else if a.status i = 2 then (f.inf true, 0)
  else if a.status i = 3 then (f.nan, 0)
  else
    let v := toSigned 256 (a.val i)
    f.round r (v < 0) v.natAbs a.e false

/-- The status map as bytes (R190). -/
def Accum.map (a : Accum) (sh : TileShape) : List Nat :=
  (List.range ((sh.m * sh.n + 3) / 4)).map fun b =>
    packElems 2 ((List.range' (4 * b) (min 4 (sh.m * sh.n - 4 * b))).map fun t => a.status (64 * (t / sh.n) + t % sh.n))

/-- Row step `m` of TSTA. -/
def TileRun.sta (r : TileRun) (z : BitVec 2) (t : TileMem) (sh : TileShape) (m : Nat) : TileRun :=
  if r.fault.isSome then r
  else
    let a := r.s.accum z
    let xs := (List.range sh.n).map fun n =>
      (n, if t.raw then (a.val (64 * m + n), (0 : Flags)) else tileRounded (tileFmt t.ty) (frmOf r.s.h.rmode) a (64 * m + n))
    match t.storeRow m (xs.map fun p => (p.1, p.2.1)) r.s with
    | .error f => { r with fault := some (m, f) }
    | .ok s =>
      let last : Except Flt State := match t.map with
        | some gm =>
          if m + 1 = sh.m then
            let bs := a.map sh
            s.storeFields 1 (fun q => sumAddr gm (q : Nat)) (bs.mapIdx fun q x => (q, x))
          else .ok s
        | none => .ok s
      match last with
      | .error f => { r with fault := some (m, f) }
      | .ok s =>
        { s, fl := (xs.filterMap fun p => if p.2.2 = 0 then none else some (64 * m + p.1, p.2.2)) ++ r.fl, fault := none }

/-- Row step `m` of TLDA. The WOV of a float element only flags, whatever WOVT holds (DESIGN CHOICE, log 62). -/
def TileRun.lda (r : TileRun) (z : BitVec 2) (t : TileMem) (sh : TileShape) (m : Nat) : TileRun :=
  if r.fault.isSome then r
  else
    match t.loadRow m 0 sh.n r.s with
    | .error f => { r with fault := some (m, f) }
    | .ok (xs, s) =>
      let withMap := decide (m + 1 = sh.m) && t.map.isSome
      let bytes : Except Flt (List Nat × State) :=
        if withMap then s.loadFields 1 (fun q => sumAddr (t.map.getD 0) (q : Nat)) (List.range ((sh.m * sh.n + 3) / 4))
        else .ok ([], s)
      match bytes with
      | .error f => { r with fault := some (m, f) }
      | .ok (bs, s) =>
        let a := s.accum z
        let new := xs.map fun p =>
          (64 * m + p.1, if t.raw then (p.2, 0, (0 : Flags))
            else let v := (tileFmt t.ty).unpack p.2; accAdd a.e 0 0 v v.isS)
        let a := new.foldl (fun (a : Accum) x =>
          let a := a.setVal x.1 x.2.1
          if t.map.isSome then a else a.setStatus x.1 x.2.2.1) a
        let a := if withMap then
            (List.range (sh.m * sh.n)).foldl
              (fun (a : Accum) q => a.setStatus (64 * (q / sh.n) + q % sh.n) (elem 2 ((bs[q / 4]?).getD 0) (q % 4))) a
          else a
        { s := s.setAccum z { a with taken := true }
          fl := (new.filterMap fun x => if x.2.2.2 = 0 then none else some (x.1, x.2.2.2)) ++ r.fl
          fault := none }

/-- The common course of TLDA and TSTA. EADDR of a misaligned operand is its base, also where the pitch alone is misaligned (log 33). -/
def State.tileMove (s : State) (z : BitVec 2) (a : BitVec 5) (sa : BitVec 1) (b : BitVec 5) (t : BitVec 4) (raw sm : BitVec 1)
    (gm : BitVec 5) (store : Bool) : Result :=
  let sh := s.h.shape
  let t := s.tileMem a sa b t raw sm gm
  let place : List (Bool × Nat × Word) := match t.pad with
    | some o =>
      let o := { o with regs := none }
      o.checks t.unit (sh.n * t.size) ++ o.extent t.unit sh.m (sh.n * t.size)
    | none => [(decide (t.base.toNat % t.unit ≠ 0) || decide (t.pitch.toNat % t.unit ≠ 0), 0x06, t.base)]
  let odd := (((List.range sh.m).map fun m => (List.range sh.n).map fun n => 64 * m + n).flatten).find?
    fun i => (s.accum z).status i != 0
  s.tileIssue [] [z] (pairBad sa a)
    ((decide (sh.k = 0), 0x18, s.ir) :: place ++
      [(store && t.raw && t.map.isNone && decide (s.h.start = 0) && odd.isSome, 0x17, BitVec.ofNat 64 (odd.getD 0))]) fun s =>
    let g := s.h.tileGrant
    let stop := s.h.stopAt 1 sh.m
    let r := (List.range' s.h.start (stop - s.h.start)).foldl
      (fun (r : TileRun) m => if store then r.sta z t sh m else r.lda z t sh m) ⟨s, [], none⟩
    let kind : AccKind := if store then .write else .read
    let bad (m : Nat) : List (Nat × Nat × BitVec 3) := (t.places sh m).flatMap fun p => s.badWords kind p.1 p.2
    s.tileEnd r (if store then 5 else 4) g stop sh.m bad fun s =>
      if store then ((List.range' s.h.start (sh.m - s.h.start)).flatMap (t.places sh)).foldl (fun (s : State) p => s.loseBytes p.1 p.2) s
      else s.loseZ z

/-- TLDA (R190) -/
def execTlda (z : BitVec 2) (a : BitVec 5) (sa : BitVec 1) (b : BitVec 5) (t : BitVec 4) (raw sm : BitVec 1) (gm : BitVec 5)
    (s : State) : Result := s.tileMove z a sa b t raw sm gm false
/-- TSTA (R125, R190) -/
def execTsta (z : BitVec 2) (a : BitVec 5) (sa : BitVec 1) (b : BitVec 5) (t : BitVec 4) (raw sm : BitVec 1) (gm : BitVec 5)
    (s : State) : Result := s.tileMove z a sa b t raw sm gm true

/-! ### TADD, TSYNC, TGANG (R191 to R193) -/

/-- One element of TADD: Acc, status and flags of zd after zs is added (R191). -/
def taddElem (es ed : Int) (accS stS accD stD : Nat) : Nat × Nat × Flags :=
  let st : Nat × Nat × Flags :=
    if stS = 3 then accAdd ed accD stD (.nan false) false
    else if stS = 0 then (accD, stD, 0)
    else accAdd ed accD stD (.inf (stS == 2)) false
  let v := toSigned 256 accS
  let t : Int × Bool := if es = ed then (v, false) else roundInt .rne (v < 0) v.natAbs (es - ed) false
  let wov := decide (es ≠ ed ∧ (t.1 < -(2 ^ 255 : Int) ∨ 2 ^ 255 ≤ t.1))
  (ofSigned 256 (accD + t.1), st.2.1, st.2.2 ||| (if t.2 then fWIX else 0) ||| (if wov then fWOV else 0))

/-- Row step `m` of TADD. WOV only flags, whatever WOVT holds (DESIGN CHOICE, log 62). -/
def TileRun.tadd (r : TileRun) (z zs : BitVec 2) (sh : TileShape) (m : Nat) : TileRun :=
  let a := r.s.accum z
  let b := r.s.accum zs
  let new := (List.range sh.n).map fun n =>
    let i := 64 * m + n
    (i, taddElem b.e a.e (b.val i) (b.status i) (a.val i) (a.status i))
  let a := new.foldl (fun (a : Accum) x => (a.setVal x.1 x.2.1).setStatus x.1 x.2.2.1) a
  { r with
    s := r.s.setAccum z { a with taken := true }
    fl := (new.filterMap fun x => if x.2.2.2 = 0 then none else some (x.1, x.2.2.2)) ++ r.fl }

/-- TADD (R191) -/
def execTadd (z zs : BitVec 2) (s : State) : Result :=
  let sh := s.h.shape
  s.tileIssue [] [z, zs] false [(decide (sh.k = 0), 0x18, s.ir)] fun s =>
    let stop := s.h.stopAt 1 sh.m
    let r := (List.range' s.h.start (stop - s.h.start)).foldl (fun (r : TileRun) m => r.tadd z zs sh m) ⟨s, [], none⟩
    s.tileEnd r 6 s.h.tileGrant stop sh.m (fun _ => []) id

/-- Whether a tile or X instruction of the hart has not completed: it stands in the queue (R193, R291). -/
def Hart.tilePending (h : Hart) : Bool := h.vq.any fun q => q.pipe.sequenced

/-- TSYNC ends: its edge names the core's sequencer (R193, R296 kind 5), and its end event is written (R308). The tag that it passes on is
that of the hart's latest tile instruction, also when an earlier TSYNC has waited for that one (DESIGN CHOICE, log 74). -/
def State.tsyncDone (s : State) : State :=
  ((((s.arrived 5 5 s.myCore.toNat s.h.tileTag).endWait).traceEvent .tile true s.h.pc 0)).adv 8

/-- TSYNC (R193); it writes its begin event (R308), and waits when it was interrupted in its wait (R12, log 47) -/
def execTsync (s : State) : Result :=
  let s := s.traceEvent .tile false s.h.pc 0
  .next (if s.h.tilePending || s.h.hasWaited then s.enterWait .tsync else s.tsyncDone)

/-- A TSYNC that waits for nothing more returns (R193). -/
def State.tsyncReturn (s : State) : State :=
  match s.h.slot with
  | .wait .tsync _ => if s.h.tilePending then s else s.tsyncDone
  | _ => s

/-- The last earlier tile instruction has completed and TSYNC returns (R193) -/
def execTsyncReturn (h : BitVec 12) (s : State) : Result := .next (s.onHart h fun s => s.tsyncReturn)

/-- TGANG (R192) -/
def execTgang (r c : BitVec 2) (s : State) : Result :=
  let n := (r.toNat + 1) * (c.toNat + 1)
  let ok := match s.gangOf s.h.id with
    | none => n == 1
    | some g => n == g.size
  s.check [(!ok, 0x18, s.ir)] fun s =>
    .next ({ s with h := { s.h with tshp := setFld (setFld s.h.tshp 32 2 r.toNat) 34 2 c.toNat } }.adv 8)

end Sys2Proof.Machine
end

