-- ==== Sys2Proof/Machine/Uses.lean ====
section
/-! DEFINITION. What an instruction reads and writes by name, the pipe that executes it and its place in a convoy, from its bits:
for the vector queue (15 R285), convoys (15 R290, 20 R363) and register errors (22 R384). -/

namespace Sys2Proof.Machine

/-- The place an instruction may have in a convoy (R290). -/
inductive Role where
  | never
  | any
  | first
  | last
  deriving DecidableEq, Repr

/-- What the registers that an instruction names depend on: the registers of a group, the register that LVD names, the registers of a
segment image and its bytes, the bytes of an element, SPAN, the tile shape, and the runs of the write streams that a STRIP captures. -/
structure UseCtx where
  g : Nat
  l : Nat
  img : Nat
  seg : Nat
  ewb : Nat
  span : Nat
  shape : TileShape
  captured : List Regs

/-- The registers an instruction names: g, mask, plan and expansion registers by number, vector registers as runs. -/
structure Uses where
  gr : List Nat := []
  gw : List Nat := []
  vr : List Regs := []
  vw : List Regs := []
  kr : List Nat := []
  kw : List Nat := []
  er : List Nat := []
  ew : List Nat := []
  pr : List Nat := []
  pw : List Nat := []
  /-- the vector sources read with e = 0 -/
  links : List Regs := []
  /-- where it executes when it enters the vector queue -/
  pipe : Option Pipe := none
  role : Role := .never
  /-- it closes a strip or writes VTYPE, so that no convoy goes over it (R363) -/
  breaks : Bool := false
  /-- the CSRs it reads besides VTYPE -/
  cr : List Nat := []
  /-- the CSR it may write -/
  csr : Option Nat := none
  /-- the g registers it writes in some outcomes only: it makes them good itself (R383) -/
  gif : List Nat := []
  /-- the CSRs besides `csr` that it writes whole -/
  cw : List Nat := []
  /-- it saves everything that the hart holds -/
  saves : Bool := false
  /-- an unmasked form writes every element of its vector destination -/
  whole : Bool := false
  /-- the runs of which it reads or writes bytes by number, not elements below SPAN, with their bytes -/
  sizes : List (Regs × Nat) := []
  /-- it is ERET, which reads EIX, ECONV and TSEQ when PART is 1 (R372) -/
  returns : Bool := false
  /-- its REPLAY is that of R365 -/
  indexed : Bool := false
  /-- it has no pipe and still goes on from EIX: BAR, CTXSAVE, CTXLOAD and CPREAD (R361) -/
  goesOn : Bool := false
  deriving DecidableEq, Repr

/-- A row: the fixed bits of an instruction of one length, with what it uses, given the context and its bits. -/
structure UseRow where
  mask : Nat
  val : Nat
  uses : UseCtx → Nat → Uses

/-- An instruction that also reads a CSR. -/
def reading (c : Nat) (f : UseCtx → Nat → Uses) (x : UseCtx) (w : Nat) : Uses := { f x w with cr := c :: (f x w).cr }

/-- An instruction without a pipe that goes on from EIX (R361). -/
def goingOn (f : UseCtx → Nat → Uses) (x : UseCtx) (w : Nat) : Uses := { f x w with goesOn := true }

/-- A vector form that, unmasked, writes every element of its destination. -/
def writing (f : UseCtx → Nat → Uses) (x : UseCtx) (w : Nat) : Uses := { f x w with whole := true }

/-- ADD, SUB, AND and 49 more -/
def useAdd (_ : UseCtx) (w : Nat) : Uses :=
  { gr := [bits w 13 5, bits w 8 5], gw := [bits w 18 5] }

/-- CLZ, POPC, SEXT and 25 more -/
def useClz (_ : UseCtx) (w : Nat) : Uses :=
  { gr := [bits w 13 5], gw := [bits w 18 5] }

/-- LIH, ADDPC, JAL and 8 more -/
def useLih (_ : UseCtx) (w : Nat) : Uses :=
  { gw := [bits w 18 5] }

/-- XFORM -/
def useXform (x : UseCtx) (w : Nat) : Uses :=
  { er := [bits w 14 5], ew := [bits w 14 5], vr := [(bits w 9 5, 4 * x.g)], kr := [bits w 1 3], pipe := some .xexp }

/-- XSHIFT, XTOLOC, XLSHIFT -/
def useXshift (_ : UseCtx) (w : Nat) : Uses :=
  { er := [bits w 14 5, bits w 9 5], ew := [bits w 14 5], pipe := some .xexp }

/-- XEVAL -/
def useXeval (x : UseCtx) (w : Nat) : Uses :=
  { vw := [(bits w 14 5, x.g)], vr := [(bits w 9 5, 3 * x.g)], er := [bits w 4 5], kr := [bits w 1 3], pipe := some .xexp }

/-- XADMIT -/
def useXadmit (x : UseCtx) (w : Nat) : Uses :=
  { kw := [bits w 14 5], vr := [(bits w 9 5, 4 * x.g)], er := [bits w 4 5], kr := [bits w 1 3], pipe := some .xexp }

/-- XDIRECT -/
def useXdirect (x : UseCtx) (w : Nat) : Uses :=
  { vw := [(bits w 14 5, x.g)], vr := [(bits w 14 5, x.g), (bits w 9 5, 3 * x.g), (bits w 4 5, 4 * x.g)], kr := [bits w 1 3], pipe := some .xexp }

/-- XLD -/
def useXld (_ : UseCtx) (w : Nat) : Uses :=
  { ew := [bits w 14 5], gr := [bits w 9 5], pipe := some .xexp }

/-- XST -/
def useXst (_ : UseCtx) (w : Nat) : Uses :=
  { er := [bits w 14 5], gr := [bits w 9 5], pipe := some .xexp }

/-- XZERO -/
def useXzero (_ : UseCtx) (w : Nat) : Uses :=
  { ew := [bits w 14 5], gr := [bits w 9 5, bits w 4 5], pipe := some .xexp }

/-- XORD -/
def useXord (_ : UseCtx) (w : Nat) : Uses :=
  { er := [bits w 9 5], ew := [bits w 14 5], pipe := some .xexp }

/-- XEVALG -/
def useXevalg (x : UseCtx) (w : Nat) : Uses :=
  { vw := [(bits w 14 5, 4 * x.g)], vr := [(bits w 9 5, 3 * x.g)], er := [bits w 4 5], kr := [bits w 1 3], pipe := some .xexp }

/-- FFMA, FFMS, FNMA and 1 more -/
def useFfma (_ : UseCtx) (w : Nat) : Uses :=
  { gr := [bits w 13 5, bits w 8 5, bits w 3 5], gw := [bits w 18 5] }

/-- BEQ, BNE, BLT and 4 more -/
def useBeq (_ : UseCtx) (w : Nat) : Uses :=
  { gr := [bits w 18 5, bits w 13 5] }

/-- STO, TLBINV -/
def useSto (_ : UseCtx) (w : Nat) : Uses :=
  { gr := [bits w 13 5, bits w 8 5] }

/-- AMOCAS, AMOWCAS -/
def useAmoCas (_ : UseCtx) (w : Nat) : Uses :=
  { gr := [bits w 13 5, bits w 8 5, bits w 18 5], gw := [bits w 18 5] }

/-- FENCE, ECALL, ERET and 13 more -/
def useFence (_ : UseCtx) (_ : Nat) : Uses := {}

/-- ERET -/
def useEret (_ : UseCtx) (_ : Nat) : Uses := { cr := [0x400, 0x404], returns := true }

/-- CTXLOAD -/
def useCtxload (_ : UseCtx) (_ : Nat) : Uses := { cr := [0x40E], goesOn := true }

/-- CSRWR, CSRSET, CSRCLR -/
def useCsrwr (_ : UseCtx) (w : Nat) : Uses :=
  { gr := [bits w 13 5], gw := [bits w 18 5], csr := some (bits w 0 11) }

/-- CSRRD -/
def useCsrrd (_ : UseCtx) (w : Nat) : Uses :=
  { gw := [bits w 18 5], cr := [bits w 0 11] }

/-- CSRWR to a g register, CSRSET, CSRCLR: the old value is read; CSRWR to g0 only writes (R383) -/
def useCsrset (x : UseCtx) (w : Nat) : Uses := { useCsrwr x w with cr := [bits w 0 11] }

/-- CSRWR -/
def useCsrOver (x : UseCtx) (w : Nat) : Uses := if bits w 18 5 = 0 then useCsrwr x w else useCsrset x w

/-- CTXSAVE -/
def useCtxsave (_ : UseCtx) (_ : Nat) : Uses := { cr := [0x40E], saves := true, goesOn := true }

/-- STRIP -/
def useStrip (x : UseCtx) (w : Nat) : Uses :=
  { gw := [bits w 18 5], cr := [0x000], vr := x.captured, cw := [0x207], breaks := true }

/-- VSETTYPE: it writes VTYPE -/
def useVsettype (_ : UseCtx) (w : Nat) : Uses :=
  { gr := [bits w 13 5], gw := [bits w 18 5], breaks := true, csr := some 0 }

/-- LIMLT, LIMLE, LIMLTN -/
def useLimlt (_ : UseCtx) (w : Nat) : Uses :=
  { gr := [bits w 13 5, bits w 8 5], kw := [bits w 18 5] }

/-- SETVL -/
def useSetvl (x : UseCtx) (w : Nat) : Uses :=
  { gr := [bits w 13 5], cr := [0x000], vr := x.captured, gw := [bits w 18 5], kw := [1], cw := [0x207], breaks := true }

/-- MAND, MOR, MXOR and 1 more -/
def useMand (_ : UseCtx) (w : Nat) : Uses :=
  { kr := [bits w 13 5, bits w 8 5], kw := [bits w 18 5] }

/-- MNOT, MCOPY -/
def useMnot (_ : UseCtx) (w : Nat) : Uses :=
  { kr := [bits w 13 5], kw := [bits w 18 5] }

/-- MFILL, MZERO -/
def useMfill (_ : UseCtx) (w : Nat) : Uses :=
  { kw := [bits w 18 5] }

/-- MCOUNT, MFIRST, MLAST -/
def useMcount (_ : UseCtx) (w : Nat) : Uses :=
  { kr := [bits w 13 5], gw := [bits w 18 5] }

/-- MFROMG: it writes one word of its mask -/
def useMfromg (_ : UseCtx) (w : Nat) : Uses :=
  { gr := [bits w 13 5, bits w 8 5], kw := [bits w 18 5] }

/-- MTOG -/
def useMtog (_ : UseCtx) (w : Nat) : Uses :=
  { kr := [bits w 13 5], gr := [bits w 8 5], gw := [bits w 18 5] }

/-- FRQPOP -/
def useFrqpop (_ : UseCtx) (w : Nat) : Uses :=
  { gw := [bits w 18 5, bits w 18 5 + 1, bits w 18 5 + 2, bits w 18 5 + 3] }

/-- QPOP, QPOPNB -/
def useQpop (_ : UseCtx) (w : Nat) : Uses :=
  { gr := [bits w 13 5], gw := [bits w 18 5, bits w 18 5 + 1], gif := [bits w 18 5] }

/-- VADD, VSUB, VMUL and 23 more -/
def useVadd (x : UseCtx) (w : Nat) : Uses :=
  { vr := [(bits w 13 5, x.g), (bits w 8 5, x.g)], vw := [(bits w 18 5, x.g)], kr := [bits w 5 3], pipe := some .lanes, role := .any
    links := (if bits w 4 1 = 0 then [(bits w 13 5, x.g)] else []) ++ (if bits w 3 1 = 0 then [(bits w 8 5, x.g)] else []) }

/-- VMERGE, which is not element-wise under R143 (R150) -/
def useVmerge (x : UseCtx) (w : Nat) : Uses := { useVadd x w with role := .never }

/-- VNSHR -/
def useVnshr (x : UseCtx) (w : Nat) : Uses :=
  { vr := [(bits w 13 5, 2 * x.g), (bits w 8 5, x.g)], vw := [(bits w 18 5, x.g)], kr := [bits w 5 3], pipe := some .lanes, role := .any
    links := (if bits w 4 1 = 0 then [(bits w 13 5, 2 * x.g)] else []) ++ (if bits w 3 1 = 0 then [(bits w 8 5, x.g)] else []) }

/-- VWMUL -/
def useVwmul (x : UseCtx) (w : Nat) : Uses :=
  { vr := [(bits w 13 5, x.g), (bits w 8 5, x.g)], vw := [(bits w 18 5, 2 * x.g)], kr := [bits w 5 3], pipe := some .lanes, role := .any
    links := (if bits w 4 1 = 0 then [(bits w 13 5, x.g)] else []) ++ (if bits w 3 1 = 0 then [(bits w 8 5, x.g)] else []) }

/-- VWMAC -/
def useVwmac (x : UseCtx) (w : Nat) : Uses :=
  { vr := [(bits w 18 5, 2 * x.g), (bits w 13 5, x.g), (bits w 8 5, x.g)], vw := [(bits w 18 5, 2 * x.g)], kr := [bits w 5 3], pipe := some .lanes, role := .any
    links := (if bits w 4 1 = 0 then [(bits w 13 5, x.g)] else []) ++ (if bits w 3 1 = 0 then [(bits w 8 5, x.g)] else []) }

/-- VABS, VFSQRT, VFABS and 3 more -/
def useVabs (x : UseCtx) (w : Nat) : Uses :=
  { vr := [(bits w 13 5, x.g)], vw := [(bits w 18 5, x.g)], kr := [bits w 5 3], pipe := some .lanes, role := .any
    links := (if bits w 4 1 = 0 then [(bits w 13 5, x.g)] else []) }

/-- VADDX, VSUBX, VMULX and 19 more -/
def useVaddX (x : UseCtx) (w : Nat) : Uses :=
  { vr := [(bits w 13 5, x.g)], gr := [bits w 8 5], vw := [(bits w 18 5, x.g)], kr := [bits w 5 3], pipe := some .lanes, role := .any
    links := (if bits w 4 1 = 0 then [(bits w 13 5, x.g)] else []) }

/-- VMERGE.X -/
def useVmergeX (x : UseCtx) (w : Nat) : Uses := { useVaddX x w with role := .never }

/-- VFFMA, VFFMS, VFNMA and 1 more -/
def useVffma (x : UseCtx) (w : Nat) : Uses :=
  { vr := [(bits w 18 5, x.g), (bits w 13 5, x.g), (bits w 8 5, x.g)], vw := [(bits w 18 5, x.g)], kr := [bits w 5 3], pipe := some .lanes, role := .any
    links := (if bits w 4 1 = 0 then [(bits w 13 5, x.g)] else []) ++ (if bits w 3 1 = 0 then [(bits w 8 5, x.g)] else []) }

/-- VFFMAX, VFFMSX, VFNMAX and 1 more -/
def useVffmaX (x : UseCtx) (w : Nat) : Uses :=
  { vr := [(bits w 18 5, x.g), (bits w 13 5, x.g)], gr := [bits w 8 5], vw := [(bits w 18 5, x.g)], kr := [bits w 5 3], pipe := some .lanes, role := .any
    links := (if bits w 4 1 = 0 then [(bits w 13 5, x.g)] else []) }

/-- VRCP, VRSQ, VEXP2 and 1 more -/
def useVrcp (x : UseCtx) (w : Nat) : Uses :=
  { vr := [(bits w 13 5, x.g)], vw := [(bits w 18 5, x.g)], kr := [bits w 5 3], pipe := some .special }

/-- VCMPEQ, VCMPNE, VCMPLT and 8 more -/
def useVcmpEq (x : UseCtx) (w : Nat) : Uses :=
  { vr := [(bits w 13 5, x.g), (bits w 8 5, x.g)], kw := [bits w 18 5], kr := [bits w 5 3], pipe := some .lanes, role := .any
    links := (if bits w 4 1 = 0 then [(bits w 13 5, x.g)] else []) ++ (if bits w 3 1 = 0 then [(bits w 8 5, x.g)] else []) }

/-- VCMPLTX, VCMPGEX, VFCMPFLTX and 1 more -/
def useVcmpLtX (x : UseCtx) (w : Nat) : Uses :=
  { vr := [(bits w 13 5, x.g)], gr := [bits w 8 5], kw := [bits w 18 5], kr := [bits w 5 3], pipe := some .lanes, role := .any
    links := (if bits w 4 1 = 0 then [(bits w 13 5, x.g)] else []) }

/-- VFWIDEN, VSWIDEN, VZWIDEN -/
def useVfwiden (x : UseCtx) (w : Nat) : Uses :=
  { vr := [(bits w 13 5, x.g)], vw := [(bits w 18 5, 2 * x.g)], kr := [bits w 5 3], pipe := some .lanes, role := .any
    links := (if bits w 4 1 = 0 then [(bits w 13 5, x.g)] else []) }

/-- VFNARROW -/
def useVfnarrow (x : UseCtx) (w : Nat) : Uses :=
  { vr := [(bits w 13 5, 2 * x.g)], vw := [(bits w 18 5, x.g)], kr := [bits w 5 3], pipe := some .lanes, role := .any
    links := (if bits w 4 1 = 0 then [(bits w 13 5, 2 * x.g)] else []) }

/-- VTOPLANE: the headers of the image are read too -/
def useVtoplane (x : UseCtx) (w : Nat) : Uses :=
  { vr := [(bits w 13 5, x.g), (bits w 18 5, x.img)], vw := [(bits w 18 5, x.img)], kr := [bits w 5 3], pipe := some .lanes, role := .any
    sizes := [((bits w 18 5, x.img), x.seg)]
    links := (if bits w 4 1 = 0 then [(bits w 13 5, x.g)] else []) }

/-- VNARROW: it writes the EFC that it reads -/
def useVnarrow (x : UseCtx) (w : Nat) : Uses := { useVtoplane x w with csr := some 5 }

/-- VDEQ -/
def useVdeq (x : UseCtx) (w : Nat) : Uses :=
  { vr := [(bits w 13 5, x.img)], vw := [(bits w 18 5, x.g)], kr := [bits w 5 3], pipe := some .lanes, role := .any
    sizes := [((bits w 13 5, x.img), x.seg)]
    links := (if bits w 4 1 = 0 then [(bits w 13 5, x.img)] else []) }

/-- VREDSUM, VREDMAX, VREDMIN and 6 more -/
def useVredsum (x : UseCtx) (w : Nat) : Uses :=
  { vr := [(bits w 13 5, x.g), (bits w 8 5, x.g)], vw := [(bits w 18 5, x.g)], kr := [bits w 5 3], pipe := some .lanes }

/-- VSLIDEUP, VSLIDEDN, VBCAST and 1 more -/
def useVslideup (x : UseCtx) (w : Nat) : Uses :=
  { vr := [(bits w 13 5, x.g)], gr := [bits w 8 5], vw := [(bits w 18 5, x.g)], kr := [bits w 5 3], pipe := some .lanes }

/-- VCOMPRESS, VEXPAND, VSCAN -/
def useVcompress (x : UseCtx) (w : Nat) : Uses :=
  { vr := [(bits w 13 5, x.g)], vw := [(bits w 18 5, x.g)], kr := [bits w 5 3], pipe := some .lanes }

/-- VIOTA -/
def useViota (x : UseCtx) (w : Nat) : Uses :=
  { vw := [(bits w 18 5, x.g)], kr := [bits w 5 3], pipe := some .lanes }

/-- VTBL -/
def useVtbl (x : UseCtx) (w : Nat) : Uses :=
  { sizes := [((bits w 13 5, 1), 4096)], vr := [(bits w 13 5, 1), (bits w 8 5, x.g)], vw := [(bits w 18 5, x.g)], kr := [bits w 5 3], pipe := some .lanes }

/-- VRAND -/
def useVrand (x : UseCtx) (w : Nat) : Uses :=
  { gr := [bits w 13 5, bits w 8 5], vw := [(bits w 18 5, x.g)], kr := [bits w 5 3], pipe := some .lanes }

/-- VMOVGV -/
def useVmovgv (x : UseCtx) (w : Nat) : Uses :=
  { gr := [bits w 13 5], vw := [(bits w 18 5, x.g)], kr := [bits w 5 3], pipe := some .lanes, role := .any }

/-- VMOVVG -/
def useVmovvg (x : UseCtx) (w : Nat) : Uses :=
  { vr := [(bits w 13 5, x.g)], gr := [bits w 8 5], gw := [bits w 18 5], pipe := some .lanes }

/-- PLANSET -/
def usePlanset (_ : UseCtx) (w : Nat) : Uses :=
  { gr := [bits w 13 5], pw := [bits w 18 5] }

/-- PLANGET -/
def usePlanget (_ : UseCtx) (w : Nat) : Uses :=
  { pr := [bits w 13 5], gw := [bits w 18 5] }

/-- VGCHK -/
def useVgchk (x : UseCtx) (w : Nat) : Uses :=
  { vr := [(bits w 13 5, 2 * x.g)], pr := [bits w 8 5], kw := [bits w 18 5], kr := [bits w 5 3], pipe := some .lanes }

/-- VPACK, VPACKB -/
def useVpack (x : UseCtx) (w : Nat) : Uses :=
  { vr := [(bits w 13 5, x.g)], pr := [bits w 0 3], vw := [(bits w 18 5, x.g)], kr := [bits w 5 3], pipe := some .lanes, role := .any
    links := (if bits w 4 1 = 0 then [(bits w 13 5, x.g)] else []) }

/-- VXTR -/
def useVxtr (x : UseCtx) (w : Nat) : Uses :=
  { vr := [(bits w 13 5, 2 * x.g)], pr := [bits w 0 3], vw := [(bits w 18 5, x.g)], kr := [bits w 5 3], pipe := some .lanes, role := .any
    links := (if bits w 4 1 = 0 then [(bits w 13 5, 2 * x.g)] else []) }

/-- VCONV -/
def useVconv (x : UseCtx) (w : Nat) : Uses :=
  { vr := [(bits w 18 5, 2 * x.g), (bits w 13 5, x.g), (bits w 8 5, x.g)], pr := [bits w 0 3], vw := [(bits w 18 5, 2 * x.g)], kr := [bits w 5 3], pipe := some .lanes, role := .any
    links := (if bits w 4 1 = 0 then [(bits w 13 5, x.g)] else []) ++ (if bits w 3 1 = 0 then [(bits w 8 5, x.g)] else []) }

/-- VLD -/
def useVld (x : UseCtx) (w : Nat) : Uses :=
  { gr := [bits w 13 5], vw := [(bits w 18 5, (bits w 0 3 + 1) * x.g)], kr := [bits w 5 3], pipe := some .memory, role := .first }

/-- VLDFF -/
def useVldff (x : UseCtx) (w : Nat) : Uses :=
  { gr := [bits w 13 5], vw := [(bits w 18 5, (bits w 0 3 + 1) * x.g)], kr := [bits w 5 3], pipe := some .memory, csr := some 0x004 }

/-- VLDS -/
def useVlds (x : UseCtx) (w : Nat) : Uses :=
  { gr := [bits w 13 5, bits w 8 5], vw := [(bits w 18 5, (bits w 0 3 + 1) * x.g)], kr := [bits w 5 3], pipe := some .memory, role := .first }

/-- VLDX -/
def useVldx (x : UseCtx) (w : Nat) : Uses :=
  { gr := [bits w 13 5], vr := [(bits w 8 5, max 1 (x.g * 2 ^ bits w 0 2 / x.ewb))], vw := [(bits w 18 5, x.g)], kr := [bits w 5 3], pipe := some .memory, indexed := true
    whole := true, sizes := [((bits w 8 5, max 1 (x.g * 2 ^ bits w 0 2 / x.ewb)), 2 ^ bits w 0 2 * x.span)] }

/-- VST -/
def useVst (x : UseCtx) (w : Nat) : Uses :=
  { gr := [bits w 13 5], vr := [(bits w 18 5, (bits w 0 3 + 1) * x.g)], kr := [bits w 5 3], pipe := some .memory, role := .last
    links := (if bits w 4 1 = 0 then [(bits w 18 5, (bits w 0 3 + 1) * x.g)] else []) }

/-- VSTN -/
def useVstn (x : UseCtx) (w : Nat) : Uses :=
  { gr := [bits w 13 5], vr := [(bits w 18 5, (bits w 0 3 + 1) * x.g)], kr := [bits w 5 3], pipe := some .memory }

/-- VSTS -/
def useVsts (x : UseCtx) (w : Nat) : Uses :=
  { gr := [bits w 13 5, bits w 8 5], vr := [(bits w 18 5, (bits w 0 3 + 1) * x.g)], kr := [bits w 5 3], pipe := some .memory, role := .last
    links := (if bits w 4 1 = 0 then [(bits w 18 5, (bits w 0 3 + 1) * x.g)] else []) }

/-- VSTX -/
def useVstx (x : UseCtx) (w : Nat) : Uses :=
  { gr := [bits w 13 5], vr := [(bits w 18 5, x.g), (bits w 8 5, max 1 (x.g * 2 ^ bits w 0 2 / x.ewb))], kr := [bits w 5 3], pipe := some .memory, indexed := true
    sizes := [((bits w 8 5, max 1 (x.g * 2 ^ bits w 0 2 / x.ewb)), 2 ^ bits w 0 2 * x.span)] }

/-- VLDBP -/
def useVldbp (x : UseCtx) (w : Nat) : Uses :=
  { gr := [bits w 13 5], vw := [(bits w 18 5, x.img)], kr := [bits w 5 3], pipe := some .memory, sizes := [((bits w 18 5, x.img), x.seg)] }

/-- VSTBP -/
def useVstbp (x : UseCtx) (w : Nat) : Uses :=
  { gr := [bits w 13 5], vr := [(bits w 18 5, x.img)], kr := [bits w 5 3], pipe := some .memory, sizes := [((bits w 18 5, x.img), x.seg)] }

/-- VSPILL -/
def useVspill (_ : UseCtx) (w : Nat) : Uses :=
  { gr := [bits w 13 5], vr := [(bits w 18 5, 8)], pipe := some .memory, sizes := [((bits w 18 5, 8), 32768)] }

/-- VREFILL -/
def useVrefill (_ : UseCtx) (w : Nat) : Uses :=
  { gr := [bits w 13 5], vw := [(bits w 18 5, 8)], pipe := some .memory, sizes := [((bits w 18 5, 8), 32768)] }

/-- VAMOADD, VAMOAND, VAMOOR and 4 more -/
def useVamoAdd (x : UseCtx) (w : Nat) : Uses :=
  { gr := [bits w 13 5], vr := [(bits w 18 5, x.g), (bits w 8 5, x.g)], vw := [(bits w 18 5, x.g)], kr := [bits w 5 3], pipe := some .memory, indexed := true, whole := true }

/-- STRMEND -/
def useStrmend (_ : UseCtx) (w : Nat) : Uses :=
  { gr := [bits w 13 5] }

/-- EVPOP -/
def useEvpop (_ : UseCtx) (w : Nat) : Uses :=
  { gw := [bits w 18 5, bits w 18 5 + 1] }

/-- VPLANE -/
def useVplane (x : UseCtx) (w : Nat) : Uses :=
  { vr := [(bits w 13 5, x.img)], vw := [(bits w 18 5, x.g)], kr := [bits w 5 3], pipe := some .lanes, sizes := [((bits w 13 5, x.img), x.seg)] }

/-- VQSCALE -/
def useVqscale (x : UseCtx) (w : Nat) : Uses :=
  { vr := [(bits w 13 5, x.g)], gr := [bits w 8 5], vw := [(bits w 18 5, x.img)], kr := [bits w 5 3], pipe := some .lanes }

/-- CADDI -/
def useCAddi (_ : UseCtx) (w : Nat) : Uses :=
  { gr := [bits w 8 5], gw := [bits w 8 5] }

/-- CMV -/
def useCMv (_ : UseCtx) (w : Nat) : Uses :=
  { gr := [bits w 0 5], gw := [bits w 5 5] }

/-- CADD, CSUB, CAND and 4 more -/
def useCAdd (_ : UseCtx) (w : Nat) : Uses :=
  { gr := [bits w 5 5, bits w 0 5], gw := [bits w 5 5] }

/-- CLD -/
def useCLd (_ : UseCtx) (w : Nat) : Uses :=
  { gr := [4 + bits w 6 3], gw := [4 + bits w 9 3] }

/-- CST -/
def useCSt (_ : UseCtx) (w : Nat) : Uses :=
  { gr := [4 + bits w 9 3, 4 + bits w 6 3] }

/-- CBEQZ, CBNEZ -/
def useCBeqz (_ : UseCtx) (w : Nat) : Uses :=
  { gr := [4 + bits w 8 3] }

/-- CJR -/
def useCJr (_ : UseCtx) (w : Nat) : Uses :=
  { gr := [bits w 6 5] }

/-- CVADD, CVSUB, CVMUL and 4 more -/
def useCVadd (x : UseCtx) (w : Nat) : Uses :=
  { vr := [(x.l, x.g), (bits w 0 5, x.g)], links := [(x.l, x.g), (bits w 0 5, x.g)], cr := [6], vw := [(bits w 5 5, x.g)], pipe := some .lanes, role := .any }

/-- CVFFMA -/
def useCVffma (x : UseCtx) (w : Nat) : Uses :=
  { vr := [(bits w 5 5, x.g), (x.l, x.g), (bits w 0 5, x.g)], links := [(x.l, x.g), (bits w 0 5, x.g)], cr := [6], vw := [(bits w 5 5, x.g)], pipe := some .lanes, role := .any }

/-- CVADDX, CVSUBX, CVMULX and 4 more -/
def useCVaddX (x : UseCtx) (w : Nat) : Uses :=
  { vr := [(x.l, x.g)], links := [(x.l, x.g)], cr := [6], gr := [bits w 0 5], vw := [(bits w 5 5, x.g)], pipe := some .lanes, role := .any }

/-- CVFFMAX -/
def useCVffmaX (x : UseCtx) (w : Nat) : Uses :=
  { vr := [(bits w 5 5, x.g), (x.l, x.g)], links := [(x.l, x.g)], cr := [6], gr := [bits w 0 5], vw := [(bits w 5 5, x.g)], pipe := some .lanes, role := .any }

/-- TSHAPE, TGANG: fields of TSHP -/
def useTshape (_ : UseCtx) (_ : Nat) : Uses := { pipe := some .tile, cr := [0x209], csr := some 0x209 }

/-- TADD -/
def useTadd (_ : UseCtx) (_ : Nat) : Uses := { pipe := some .tile, cr := [0x209] }

/-- TWIN -/
def useTwin (_ : UseCtx) (w : Nat) : Uses := { pipe := some .tile, csr := some (0x00C + bits w 41 2) }

/-- TZERO -/
def useTzero (_ : UseCtx) (w : Nat) : Uses := { pipe := some .tile, cr := [0x00C + bits w 41 2] }

/-- The g registers and the run, with its bytes, that an operand of TMMA reads (R56, R186): its S bit, register and type code, and its
rows. -/
def tileReads (x : UseCtx) (sc : Nat) (a : Nat) (ty rows : Nat) : List Nat × List (Regs × Nat) :=
  if sc = 0 then ([], [((tileRegs (BitVec.ofNat 5 a) ty rows x.shape.k).inside, tileBytes ty rows x.shape.k)]) else ([a, a + 1], [])

/-- TMMA -/
def useTmma (x : UseCtx) (w : Nat) : Uses :=
  let a := tileReads x (bits w 49 1) (bits w 50 5) (bits w 37 4) x.shape.m
  let b := tileReads x (bits w 43 1) (bits w 44 5) (bits w 33 4) x.shape.n
  { vr := (a.2 ++ b.2).map (·.1), sizes := a.2 ++ b.2, gr := a.1 ++ b.1, pipe := some .tile, cr := [0x209] }

/-- TLDA, TSTA: base and pitch, or a scratchpad pair; the address of a status map (R190) -/
def useTlda (_ : UseCtx) (w : Nat) : Uses :=
  { gr := bits w 50 5 :: (if bits w 49 1 = 1 then bits w 50 5 + 1 else bits w 44 5) :: (if bits w 23 1 = 1 then [bits w 0 5] else [])
    pipe := some .tile }

/-- Rows of a 16-bit instruction, in the order of the opcode table. -/
def useRows16 : List UseRow :=
  [⟨0xE000, 0x0, useCAddi⟩,
   ⟨0xFC00, 0x2000, useCMv⟩,
   ⟨0xFC00, 0x2400, useCAdd⟩,
   ⟨0xFC00, 0x2800, useCAdd⟩,
   ⟨0xFC00, 0x2C00, useCAdd⟩,
   ⟨0xFC00, 0x3000, useCAdd⟩,
   ⟨0xFC00, 0x3400, useCAdd⟩,
   ⟨0xFC00, 0x3800, useCAdd⟩,
   ⟨0xFC00, 0x3C00, useCAdd⟩,
   ⟨0xF000, 0x4000, useCLd⟩,
   ⟨0xF000, 0x5000, useCSt⟩,
   ⟨0xF800, 0x6000, useFence⟩,
   ⟨0xF800, 0x6800, useCBeqz⟩,
   ⟨0xF800, 0x7000, useCBeqz⟩,
   ⟨0xF83F, 0x7800, useCJr⟩,
   ⟨0xFC00, 0x8000, writing useCVadd⟩,
   ⟨0xFC00, 0x8400, writing useCVadd⟩,
   ⟨0xFC00, 0x8800, writing useCVadd⟩,
   ⟨0xFC00, 0x8C00, reading 2 (writing useCVadd)⟩,
   ⟨0xFC00, 0x9000, reading 2 (writing useCVadd)⟩,
   ⟨0xFC00, 0x9400, reading 2 (writing useCVffma)⟩,
   ⟨0xFC00, 0x9800, writing useCVadd⟩,
   ⟨0xFC00, 0x9C00, writing useCVadd⟩,
   ⟨0xFC00, 0xA000, writing useCVaddX⟩,
   ⟨0xFC00, 0xA400, writing useCVaddX⟩,
   ⟨0xFC00, 0xA800, writing useCVaddX⟩,
   ⟨0xFC00, 0xAC00, reading 2 (writing useCVaddX)⟩,
   ⟨0xFC00, 0xB000, reading 2 (writing useCVaddX)⟩,
   ⟨0xFC00, 0xB400, reading 2 (writing useCVffmaX)⟩,
   ⟨0xFC00, 0xB800, writing useCVaddX⟩,
   ⟨0xFC00, 0xBC00, writing useCVaddX⟩]

/-- Rows of a 32-bit instruction, in the order of the opcode table. -/
def useRows32a : List UseRow :=
  [⟨0xFF8000FF, 0xC0000000, useAdd⟩,
   ⟨0xFF8000FF, 0xC0000001, useAdd⟩,
   ⟨0xFF8000FF, 0xC0000002, useAdd⟩,
   ⟨0xFF8000FF, 0xC0000003, useAdd⟩,
   ⟨0xFF8000FF, 0xC0000004, useAdd⟩,
   ⟨0xFF8000FF, 0xC0000005, useAdd⟩,
   ⟨0xFF8000FF, 0xC0000006, useAdd⟩,
   ⟨0xFF8000FF, 0xC0000007, useAdd⟩,
   ⟨0xFF8000FF, 0xC0000008, useAdd⟩,
   ⟨0xFF8000FF, 0xC0000009, useAdd⟩,
   ⟨0xFF8000FF, 0xC000000A, useAdd⟩,
   ⟨0xFF8000FF, 0xC000000B, useAdd⟩,
   ⟨0xFF8000FF, 0xC000000C, useAdd⟩,
   ⟨0xFF8000FF, 0xC000000D, useAdd⟩,
   ⟨0xFF8000FF, 0xC000000E, useAdd⟩,
   ⟨0xFF8000FF, 0xC0000010, useAdd⟩,
   ⟨0xFF8000FF, 0xC0000011, useAdd⟩,
   ⟨0xFF8000FF, 0xC0000012, useAdd⟩,
   ⟨0xFF8000FF, 0xC0000013, useAdd⟩,
   ⟨0xFF8000FF, 0xC0000014, useAdd⟩,
   ⟨0xFF8000FF, 0xC0000015, useAdd⟩,
   ⟨0xFF8000FF, 0xC0000016, useAdd⟩,
   ⟨0xFF801FFF, 0xC0000018, useClz⟩,
   ⟨0xFF801FFF, 0xC0000019, useClz⟩,
   ⟨0xFF8000FF, 0xC000001A, useClz⟩,
   ⟨0xFF8000FF, 0xC000001B, useClz⟩,
   ⟨0xFF800000, 0xC0800000, useClz⟩,
   ⟨0xFF801800, 0xC1000000, useClz⟩,
   ⟨0xFF801800, 0xC1000800, useClz⟩,
   ⟨0xFF801800, 0xC1001000, useClz⟩,
   ⟨0xFF801000, 0xC1800000, useClz⟩,
   ⟨0xFF801000, 0xC1801000, useClz⟩,
   ⟨0xFF801FC0, 0xC2000000, useClz⟩,
   ⟨0xFF801FC0, 0xC2000800, useClz⟩,
   ⟨0xFF801FC0, 0xC2001000, useClz⟩,
   ⟨0xFF800000, 0xC2800000, useLih⟩,
   ⟨0xFF800000, 0xC3000000, useLih⟩,
   ⟨0xFFF801F0, 0xC3800000, reading 8 useXform⟩,
   ⟨0xFFF801FF, 0xC3880000, reading 8 useXshift⟩,
   ⟨0xFFF801FF, 0xC3900000, reading 8 useXshift⟩,
   ⟨0xFFF801FF, 0xC3980000, reading 8 useXshift⟩,
   ⟨0xFFF80000, 0xC3A00000, reading 8 (writing useXeval)⟩,
   ⟨0xFFF80000, 0xC3A80000, reading 8 useXadmit⟩,
   ⟨0xFFF80000, 0xC3B00000, reading 8 useXdirect⟩,
   ⟨0xFFF801FF, 0xC3B80000, useXld⟩,
   ⟨0xFFF801FF, 0xC3C00000, useXst⟩,
   ⟨0xFFF8000F, 0xC3C80000, reading 8 useXzero⟩,
   ⟨0xFFF801FF, 0xC3D00000, reading 8 useXord⟩,
   ⟨0xFFF80000, 0xC3D80000, reading 8 (writing useXevalg)⟩,
   ⟨0xFF8000FF, 0xC4000000, reading 2 useAdd⟩,
   ⟨0xFF8000FF, 0xC4000001, reading 2 useAdd⟩,
   ⟨0xFF8000FF, 0xC4000002, reading 2 useAdd⟩,
   ⟨0xFF8000FF, 0xC4000003, reading 2 useAdd⟩,
   ⟨0xFF801FFF, 0xC4000004, reading 2 useClz⟩,
   ⟨0xFF8000FF, 0xC4000005, useAdd⟩,
   ⟨0xFF8000FF, 0xC4000006, useAdd⟩,
   ⟨0xFF8000FF, 0xC4000008, useAdd⟩,
   ⟨0xFF8000FF, 0xC4000009, useAdd⟩,
   ⟨0xFF8000FF, 0xC400000A, useAdd⟩,
   ⟨0xFF801FFF, 0xC400000C, reading 2 useClz⟩,
   ⟨0xFF801FFF, 0xC400000D, reading 2 useClz⟩,
   ⟨0xFF801FFF, 0xC400000E, useClz⟩,
   ⟨0xFF801FFF, 0xC400010E, useClz⟩,
   ⟨0xFF801FFF, 0xC400000F, reading 2 useClz⟩]

/-- Rows of a 32-bit instruction, in the order of the opcode table. -/
def useRows32b : List UseRow :=
  [⟨0xFF801FFF, 0xC400010F, reading 2 useClz⟩,
   ⟨0xFF801FFF, 0xC4000010, useClz⟩,
   ⟨0xFF800007, 0xC4800000, reading 2 useFfma⟩,
   ⟨0xFF800007, 0xC4800001, reading 2 useFfma⟩,
   ⟨0xFF800007, 0xC4800002, reading 2 useFfma⟩,
   ⟨0xFF800007, 0xC4800003, reading 2 useFfma⟩,
   ⟨0xFF800000, 0xC5000000, useBeq⟩,
   ⟨0xFF800000, 0xC5800000, useBeq⟩,
   ⟨0xFF800000, 0xC6000000, useBeq⟩,
   ⟨0xFF800000, 0xC6800000, useBeq⟩,
   ⟨0xFF800000, 0xC7000000, useBeq⟩,
   ⟨0xFF800000, 0xC7800000, useBeq⟩,
   ⟨0xFF800000, 0xC8000000, useLih⟩,
   ⟨0xFF800000, 0xC8800000, useClz⟩,
   ⟨0xFF800000, 0xC9000000, useClz⟩,
   ⟨0xFF800000, 0xC9800000, useBeq⟩,
   ⟨0xFF801F00, 0xCA000000, useClz⟩,
   ⟨0xFFFC0000, 0xCA800000, useSto⟩,
   ⟨0xFF800007, 0xCB000000, useAdd⟩,
   ⟨0xFF800007, 0xCB000001, useAdd⟩,
   ⟨0xFF800007, 0xCB000002, useAdd⟩,
   ⟨0xFF800007, 0xCB000003, useAdd⟩,
   ⟨0xFF800007, 0xCB000004, useAdd⟩,
   ⟨0xFF800007, 0xCB000005, useAdd⟩,
   ⟨0xFF800007, 0xCB000006, useAdd⟩,
   ⟨0xFF800007, 0xCB000007, useAmoCas⟩,
   ⟨0xFF800007, 0xCB800000, useAdd⟩,
   ⟨0xFF800007, 0xCB800001, useAdd⟩,
   ⟨0xFF800007, 0xCB800002, useAdd⟩,
   ⟨0xFF800007, 0xCB800003, useAdd⟩,
   ⟨0xFF800007, 0xCB800004, useAdd⟩,
   ⟨0xFF800007, 0xCB800005, useAdd⟩,
   ⟨0xFF800007, 0xCB800006, useAdd⟩,
   ⟨0xFF800007, 0xCB800007, useAmoCas⟩,
   ⟨0xFFFFFFC7, 0xCC0000C0, useFence⟩,
   ⟨0xFF83F800, 0xCC800000, useCsrrd⟩,
   ⟨0xFF801800, 0xCC800800, useCsrOver⟩,
   ⟨0xFF801800, 0xCC801000, useCsrset⟩,
   ⟨0xFF801800, 0xCC801800, useCsrset⟩,
   ⟨0xFF83FFFF, 0xCD000000, useStrip⟩,
   ⟨0xFF801FFF, 0xCD000001, useVsettype⟩,
   ⟨0xFF8000FF, 0xCD000008, useLimlt⟩,
   ⟨0xFF8000FF, 0xCD000009, useLimlt⟩,
   ⟨0xFF8000FF, 0xCD00000A, useLimlt⟩,
   ⟨0xFF801FFF, 0xCD00003F, useSetvl⟩,
   ⟨0xFF8000FF, 0xCD800000, useMand⟩,
   ⟨0xFF8000FF, 0xCD800001, useMand⟩,
   ⟨0xFF8000FF, 0xCD800002, useMand⟩,
   ⟨0xFF8000FF, 0xCD800003, useMand⟩,
   ⟨0xFF801FFF, 0xCD800004, useMnot⟩,
   ⟨0xFF801FFF, 0xCD800005, useMnot⟩,
   ⟨0xFF83FFFF, 0xCD800006, useMfill⟩,
   ⟨0xFF83FFFF, 0xCD800007, useMfill⟩,
   ⟨0xFF801FFF, 0xCD800008, useMcount⟩,
   ⟨0xFF801FFF, 0xCD800009, useMcount⟩,
   ⟨0xFF801FFF, 0xCD80000A, useMcount⟩,
   ⟨0xFF8000FF, 0xCD80000B, useMfromg⟩,
   ⟨0xFF8000FF, 0xCD80000C, useMtog⟩,
   ⟨0xFFFFFFFF, 0xCE000000, useFence⟩,
   ⟨0xFFFFFFFF, 0xCE000001, useEret⟩,
   ⟨0xFF83FFFF, 0xCE000002, useLih⟩,
   ⟨0xFFFFFFFF, 0xCE000003, useFence⟩,
   ⟨0xFFFC00FF, 0xCE000004, useSto⟩,
   ⟨0xFF83FFFF, 0xCE000005, useFrqpop⟩]

/-- Rows of a 32-bit instruction, in the order of the opcode table. -/
def useRows32c : List UseRow :=
  [⟨0xFFFFFFFF, 0xCE000006, useCtxsave⟩,
   ⟨0xFFFFFFFF, 0xCE000007, useCtxload⟩,
   ⟨0xFF8000F8, 0xCE800000, goingOn useAdd⟩,
   ⟨0xFF8000F8, 0xCE800008, useAdd⟩,
   ⟨0xFF801FFF, 0xCE800010, useClz⟩,
   ⟨0xFF8000FF, 0xCE800010, useAdd⟩,
   ⟨0xFF8000FF, 0xCE800018, useAdd⟩,
   ⟨0xFF801FFF, 0xCE800021, useQpop⟩,
   ⟨0xFF801FFF, 0xCE800020, useQpop⟩,
   ⟨0xFF801FFF, 0xCE800028, useClz⟩,
   ⟨0xFFFFFFFF, 0xCE800030, useFence⟩,
   ⟨0xFFFFFFFF, 0xCE800038, useFence⟩,
   ⟨0xFF8000FF, 0xCE8000F8, goingOn useAdd⟩,
   ⟨0xFF801FFF, 0xCF000000, useLih⟩,
   ⟨0xFF801FFF, 0xCF000001, useLih⟩,
   ⟨0xFF801FFF, 0xCF000002, useLih⟩,
   ⟨0xFF801FFF, 0xCF000003, useLih⟩,
   ⟨0xFFFC1FFF, 0xCF000008, useFence⟩,
   ⟨0xFF8000FF, 0xCF000010, reading 0x22 (goingOn useAdd)⟩,
   ⟨0xFF83FFFF, 0xCF000018, useLih⟩,
   ⟨0xFF800007, 0xD0000000, writing useVadd⟩,
   ⟨0xFF800007, 0xD0000001, writing useVadd⟩,
   ⟨0xFF800007, 0xD0000002, writing useVadd⟩,
   ⟨0xFF800007, 0xD0000003, writing useVadd⟩,
   ⟨0xFF800007, 0xD0000004, writing useVadd⟩,
   ⟨0xFF800007, 0xD0000005, writing useVadd⟩,
   ⟨0xFF800007, 0xD0000006, writing useVadd⟩,
   ⟨0xFF800007, 0xD0000007, writing useVadd⟩,
   ⟨0xFF800007, 0xD0800000, writing useVadd⟩,
   ⟨0xFF800007, 0xD0800001, writing useVadd⟩,
   ⟨0xFF800007, 0xD0800002, writing useVadd⟩,
   ⟨0xFF800007, 0xD0800003, writing useVadd⟩,
   ⟨0xFF800007, 0xD0800004, writing useVadd⟩,
   ⟨0xFF800007, 0xD0800005, writing useVadd⟩,
   ⟨0xFF800007, 0xD0800006, writing useVadd⟩,
   ⟨0xFF800007, 0xD0800007, writing useVmerge⟩,
   ⟨0xFF800007, 0xD1000000, writing useVadd⟩,
   ⟨0xFF800007, 0xD1000001, writing useVadd⟩,
   ⟨0xFF800007, 0xD1000002, reading 2 (writing useVnshr)⟩,
   ⟨0xFF800007, 0xD1000003, writing useVwmul⟩,
   ⟨0xFF800007, 0xD1000004, writing useVwmac⟩,
   ⟨0xFF801F0F, 0xD1000005, writing useVabs⟩,
   ⟨0xFF800007, 0xD1000006, writing useVadd⟩,
   ⟨0xFF800007, 0xD1000007, reading 2 (writing useVadd)⟩,
   ⟨0xFF80000F, 0xD1800000, writing useVaddX⟩,
   ⟨0xFF80000F, 0xD1800001, writing useVaddX⟩,
   ⟨0xFF80000F, 0xD1800002, writing useVaddX⟩,
   ⟨0xFF80000F, 0xD1800003, writing useVaddX⟩,
   ⟨0xFF80000F, 0xD1800004, writing useVaddX⟩,
   ⟨0xFF80000F, 0xD1800005, writing useVaddX⟩,
   ⟨0xFF80000F, 0xD1800006, writing useVaddX⟩,
   ⟨0xFF80000F, 0xD1800007, writing useVaddX⟩,
   ⟨0xFF80000F, 0xD2000000, writing useVaddX⟩,
   ⟨0xFF80000F, 0xD2000001, writing useVaddX⟩,
   ⟨0xFF80000F, 0xD2000002, writing useVaddX⟩,
   ⟨0xFF80000F, 0xD2000003, writing useVaddX⟩,
   ⟨0xFF80000F, 0xD2000004, writing useVaddX⟩,
   ⟨0xFF80000F, 0xD2000005, writing useVaddX⟩,
   ⟨0xFF80000F, 0xD2000006, writing useVaddX⟩,
   ⟨0xFF80000F, 0xD2000007, writing useVmergeX⟩,
   ⟨0xFF800007, 0xD2800000, reading 2 (writing useVadd)⟩,
   ⟨0xFF800007, 0xD2800001, reading 2 (writing useVadd)⟩,
   ⟨0xFF800007, 0xD2800002, reading 2 (writing useVadd)⟩,
   ⟨0xFF800007, 0xD2800003, reading 2 (writing useVadd)⟩]

/-- Rows of a 32-bit instruction, in the order of the opcode table. -/
def useRows32d : List UseRow :=
  [⟨0xFF800007, 0xD2800004, writing useVadd⟩,
   ⟨0xFF800007, 0xD2800005, writing useVadd⟩,
   ⟨0xFF801F0F, 0xD2800006, reading 2 (writing useVabs)⟩,
   ⟨0xFF801F0F, 0xD2800007, writing useVabs⟩,
   ⟨0xFF800007, 0xD3000000, reading 2 (writing useVffma)⟩,
   ⟨0xFF800007, 0xD3000001, reading 2 (writing useVffma)⟩,
   ⟨0xFF800007, 0xD3000002, reading 2 (writing useVffma)⟩,
   ⟨0xFF800007, 0xD3000003, reading 2 (writing useVffma)⟩,
   ⟨0xFF80000F, 0xD3800000, reading 2 (writing useVaddX)⟩,
   ⟨0xFF80000F, 0xD3800001, reading 2 (writing useVaddX)⟩,
   ⟨0xFF80000F, 0xD3800002, reading 2 (writing useVaddX)⟩,
   ⟨0xFF80000F, 0xD3800003, reading 2 (writing useVaddX)⟩,
   ⟨0xFF80000F, 0xD3800004, writing useVaddX⟩,
   ⟨0xFF80000F, 0xD3800005, writing useVaddX⟩,
   ⟨0xFF80000F, 0xD4000000, reading 2 (writing useVffmaX)⟩,
   ⟨0xFF80000F, 0xD4000001, reading 2 (writing useVffmaX)⟩,
   ⟨0xFF80000F, 0xD4000002, reading 2 (writing useVffmaX)⟩,
   ⟨0xFF80000F, 0xD4000003, reading 2 (writing useVffmaX)⟩,
   ⟨0xFF801F0F, 0xD4800000, writing useVrcp⟩,
   ⟨0xFF801F0F, 0xD4800001, writing useVrcp⟩,
   ⟨0xFF801F0F, 0xD4800002, writing useVrcp⟩,
   ⟨0xFF801F0F, 0xD4800003, writing useVrcp⟩,
   ⟨0xFF800007, 0xD5000000, useVcmpEq⟩,
   ⟨0xFF800007, 0xD5000001, useVcmpEq⟩,
   ⟨0xFF800007, 0xD5000002, useVcmpEq⟩,
   ⟨0xFF800007, 0xD5000003, useVcmpEq⟩,
   ⟨0xFF800007, 0xD5000004, useVcmpEq⟩,
   ⟨0xFF800007, 0xD5000005, useVcmpEq⟩,
   ⟨0xFF80000F, 0xD5000006, useVcmpLtX⟩,
   ⟨0xFF80000F, 0xD5000007, useVcmpLtX⟩,
   ⟨0xFF800007, 0xD5800000, useVcmpEq⟩,
   ⟨0xFF800007, 0xD5800001, useVcmpEq⟩,
   ⟨0xFF800007, 0xD5800002, useVcmpEq⟩,
   ⟨0xFF800007, 0xD5800003, useVcmpEq⟩,
   ⟨0xFF80000F, 0xD5800004, useVcmpLtX⟩,
   ⟨0xFF80000F, 0xD5800005, useVcmpLtX⟩,
   ⟨0xFF800007, 0xD5800006, useVcmpEq⟩,
   ⟨0xFF801E0F, 0xD6000000, reading 2 (writing useVabs)⟩,
   ⟨0xFF801E0F, 0xD6000001, reading 2 (writing useVabs)⟩,
   ⟨0xFF801F0F, 0xD6000002, writing useVfwiden⟩,
   ⟨0xFF801F0F, 0xD6000003, reading 2 (writing useVfnarrow)⟩,
   ⟨0xFF801F0F, 0xD6000004, writing useVfwiden⟩,
   ⟨0xFF801F0F, 0xD6000005, writing useVfwiden⟩,
   ⟨0xFF801E0F, 0xD6000006, writing useVabs⟩,
   ⟨0xFF800007, 0xD6800000, useVredsum⟩,
   ⟨0xFF800007, 0xD6800001, useVredsum⟩,
   ⟨0xFF800007, 0xD6800002, useVredsum⟩,
   ⟨0xFF800007, 0xD6800003, useVredsum⟩,
   ⟨0xFF800007, 0xD6800004, useVredsum⟩,
   ⟨0xFF800007, 0xD6800005, useVredsum⟩,
   ⟨0xFF800007, 0xD6800006, useVredsum⟩,
   ⟨0xFF800007, 0xD6800007, useVredsum⟩,
   ⟨0xFF800007, 0xD7000000, writing useVredsum⟩,
   ⟨0xFF80000F, 0xD7000001, writing useVslideup⟩,
   ⟨0xFF80000F, 0xD7000002, writing useVslideup⟩,
   ⟨0xFF801F0F, 0xD7000003, useVcompress⟩,
   ⟨0xFF801F0F, 0xD7000004, writing useVcompress⟩,
   ⟨0xFF83FF1F, 0xD7000005, writing useViota⟩,
   ⟨0xFF801F0F, 0xD7000006, writing useVcompress⟩,
   ⟨0xFF80000F, 0xD7000007, writing useVslideup⟩,
   ⟨0xFF80000F, 0xD7800000, writing useVslideup⟩,
   ⟨0xFF800007, 0xD7800001, writing useVtbl⟩,
   ⟨0xFF80001F, 0xD7800002, writing useVrand⟩,
   ⟨0xFF801F1F, 0xD7800003, writing useVmovgv⟩]

/-- Rows of a 32-bit instruction, in the order of the opcode table. -/
def useRows32e : List UseRow :=
  [⟨0xFF8000EF, 0xD7800004, useVmovvg⟩,
   ⟨0xFF801FFF, 0xD8000000, usePlanset⟩,
   ⟨0xFF801FFF, 0xD8000001, usePlanget⟩,
   ⟨0xFF80000F, 0xD8000002, useVgchk⟩,
   ⟨0xFF801F08, 0xD8800000, writing useVpack⟩,
   ⟨0xFF801F08, 0xD8800100, writing useVpack⟩,
   ⟨0xFF800000, 0xD9000000, writing useVconv⟩,
   ⟨0xFF800008, 0xD9800000, writing useVxtr⟩,
   ⟨0xFF801F18, 0xDA000000, reading 0x407 (writing useVld)⟩,
   ⟨0xFF801F18, 0xDA000008, useVldff⟩,
   ⟨0xFF800018, 0xDA800000, reading 0x407 (writing useVlds)⟩,
   ⟨0xFF80000C, 0xDB000000, useVldx⟩,
   ⟨0xFF801F08, 0xDB800000, reading 0x407 useVst⟩,
   ⟨0xFF801F08, 0xDB800008, reading 0x20 (reading 0x21 useVstn)⟩,
   ⟨0xFF800008, 0xDC000000, reading 0x407 useVsts⟩,
   ⟨0xFF80000C, 0xDC800000, useVstx⟩,
   ⟨0xFF801F11, 0xDD000000, useVldbp⟩,
   ⟨0xFF801F01, 0xDD000001, useVstbp⟩,
   ⟨0xFF801FFF, 0xDD800000, useVspill⟩,
   ⟨0xFF801FFF, 0xDD800001, writing useVrefill⟩,
   ⟨0xFF80000F, 0xDE000000, useVamoAdd⟩,
   ⟨0xFF80000F, 0xDE000001, useVamoAdd⟩,
   ⟨0xFF80000F, 0xDE000002, useVamoAdd⟩,
   ⟨0xFF80000F, 0xDE000003, useVamoAdd⟩,
   ⟨0xFF80000F, 0xDE000004, useVamoAdd⟩,
   ⟨0xFF80000F, 0xDE000005, useVamoAdd⟩,
   ⟨0xFF80000F, 0xDE000006, useVamoAdd⟩,
   ⟨0xFF801FFF, 0xDE800000, useClz⟩,
   ⟨0xFFFC1FFF, 0xDE800001, useStrmend⟩,
   ⟨0xFF801FFF, 0xDE800002, useClz⟩,
   ⟨0xFF83FFFF, 0xDE800003, useEvpop⟩,
   ⟨0xFF8000FF, 0xDE800004, useAdd⟩,
   ⟨0xFFFFFFFF, 0xDE800005, useFence⟩,
   ⟨0xFF80000F, 0xDF000000, writing useVplane⟩,
   ⟨0xFF801F0F, 0xDF000001, reading 2 useVtoplane⟩,
   ⟨0xFF80000F, 0xDF000002, useVqscale⟩,
   ⟨0xFF801F0F, 0xDF000003, reading 5 useVnarrow⟩,
   ⟨0xFF80000F, 0xDF000004, reading 2 (writing useVdeq)⟩,
   ⟨0xFF8000FF, 0xDF800000, useFence⟩,
   ⟨0xFF8000FF, 0xDF800001, useFence⟩,
   ⟨0xFF8000FF, 0xDF800002, useFence⟩,
   ⟨0xFF8000FF, 0xDF800004, useLih⟩,
   ⟨0xFF800000, 0xDF800000, useFence⟩]

/-- Rows of a 64-bit instruction, in the order of the opcode table. -/
def useRows64 : List UseRow :=
  [⟨0xFF80000000000000, 0xE000000000000000, useTshape⟩,
   ⟨0xFF80000000000000, 0xE080000000000000, useTwin⟩,
   ⟨0xFF80000000000000, 0xE100000000000000, useTzero⟩,
   ⟨0xFF80000000000000, 0xE180000000000000, useTmma⟩,
   ⟨0xFF80000000000000, 0xE200000000000000, reading 0x209 useTlda⟩,
   ⟨0xFF80000000000000, 0xE280000000000000, reading 2 (reading 0x209 useTlda)⟩,
   ⟨0xFF80000000000000, 0xE300000000000000, useTadd⟩,
   ⟨0xFF80000000000000, 0xE380000000000000, useFence⟩,
   ⟨0xFF80000000000000, 0xE400000000000000, useTshape⟩]

/-- What the instruction of `n` parcels and bits `w` uses. -/
def usesOf (x : UseCtx) (n w : Nat) : Uses :=
  let rows := if n = 1 then useRows16 else if n = 2 then
      useRows32a ++ useRows32b ++ useRows32c ++ useRows32d ++ useRows32e
    else useRows64
  match rows.find? (fun r => r.mask &&& w == r.val) with
  | none => {}
  | some r => r.uses x w

/-- The context of the hart that moves. -/
def State.useCtx (s : State) : UseCtx :=
  let h := s.h
  { g := h.grp, l := fld h.lvdAtIssue 0 5, img := (h.imageRun 0).2, seg := 72 * ((h.span + 63) / 64), ewb := ewbOf h.vtype, span := h.span
    shape := h.shape
    captured := h.streams.toList.filterMap fun q => match q with
      | some q => if q.shape.writes && decide (0 < q.pos) then some (bregOf q.shape, h.grp) else none
      | none => none }

end Sys2Proof.Machine
end

