-- ==== Sys2Proof/Machine/Xexp.lean ====
section
/-! DEFINITION. The expansion registers and the X instructions (11 R195 to R213). Every step is one binary32 operation under
RNE; a value carries the flags that the steps forming it raised. -/

namespace Sys2Proof.Machine

/-! ### Steps (R198) -/

/-- A binary32 pattern and the flags raised on the way to it. -/
abbrev XVal := Nat × Flags

/-- A value with its flags told elsewhere. -/
def XVal.quiet (x : XVal) : XVal := (x.1, 0)

/-- One rounded step of two operands. -/
def xStep (f : RM → FVal → FVal → Nat × Flags) (x y : XVal) : XVal :=
  let r := f .rne (Fmt.f32.unpack x.1) (Fmt.f32.unpack y.1)
  (r.1, x.2 ||| y.2 ||| r.2)

/-- RND(x + y) -/
def xAdd : XVal → XVal → XVal := xStep Fmt.f32.addV
/-- RND(x - y) -/
def xSub : XVal → XVal → XVal := xStep fun r x y => Fmt.f32.addV r x y.negate
/-- RND(x * y) -/
def xMul : XVal → XVal → XVal := xStep Fmt.f32.mulV
/-- RND(x / y) -/
def xDiv : XVal → XVal → XVal := xStep Fmt.f32.divV
/-- -x, exact -/
def xNeg (x : XVal) : XVal := (x.1 ^^^ 2 ^ 31, x.2)
/-- An integer constant, exact. -/
def xInt (n : Int) : XVal := ((Fmt.f32.ofInt .rne n).1, 0)
/-- RND(exp x) -/
def xExp (x : XVal) : XVal :=
  let r := Fmt.f32.expV (Fmt.f32.unpack x.1)
  (r.1, x.2 ||| r.2)
/-- RND(1 / sqrt x) -/
def xRsq (x : XVal) : XVal :=
  let r := Fmt.f32.rsqV (Fmt.f32.unpack x.1)
  (r.1, x.2 ||| r.2)

/-- The flags of some values together. -/
def xFlags (xs : List XVal) : Flags := xs.foldl (fun f x => f ||| x.2) 0

/-- A vector of three components. -/
abbrev XVec := XVal × XVal × XVal

/-- Components RND(p - c) of a difference vector. -/
def xDiff (p c : XVec) : XVec := (xSub p.1 c.1, xSub p.2.1 c.2.1, xSub p.2.2 c.2.2)

/-- The flags of the three components. -/
def XVec.flags (d : XVec) : Flags := d.1.2 ||| d.2.1.2 ||| d.2.2.2

/-- SQ(d): x, then y, then z. -/
def xSq (d : XVec) : XVal := xAdd (xAdd (xMul d.1 d.1) (xMul d.2.1 d.2.1)) (xMul d.2.2 d.2.2)

/-- The entries after the `a`-th of a table of R198: `prev * dx`, for Q divided by the index. -/
def xTabGo (x : XVal) (div : Bool) : Nat → Nat → XVal → List XVal
  | 0, _, _ => []
  | k + 1, a, prev =>
    let v := xMul prev x
    let v := if div then xDiv v (xInt a) else v
    v :: xTabGo x div k (a + 1) v

/-- The table ux (for Q) or wx (for T) up to order `p`. -/
def xTab (p : Nat) (div : Bool) (x : XVal) : List XVal := xInt 1 :: xTabGo x div p 1 (xInt 1)

/-- The three tables of a vector. -/
abbrev XTabs := List XVal × List XVal × List XVal

/-- The tables of a vector. -/
def xTabs (p : Nat) (div : Bool) (d : XVec) : XTabs := (xTab p div d.1, xTab p div d.2.1, xTab p div d.2.2)

/-- The flags of some tables. -/
def XTabs.flags (t : XTabs) : Flags := xFlags t.1 ||| xFlags t.2.1 ||| xFlags t.2.2

/-- The tables with their flags told elsewhere. -/
def XTabs.quiet (t : XTabs) : XTabs := (t.1.map XVal.quiet, t.2.1.map XVal.quiet, t.2.2.map XVal.quiet)

/-- A multi-index. -/
abbrev XIdx := Nat × Nat × Nat

/-- |g| -/
def XIdx.deg (g : XIdx) : Nat := g.1 + g.2.1 + g.2.2

/-- RND(RND(ux[a] * uy[b]) * uz[c]): Q_b or T_b, and the last step of K1. -/
def xProd (t : XTabs) (g : XIdx) : XVal :=
  xMul (xMul ((t.1[g.1]?).getD (0, 0)) ((t.2.1[g.2.1]?).getD (0, 0))) ((t.2.2[g.2.2]?).getD (0, 0))

/-! ### Coefficient order (R197) -/

/-- The multi-indices of degree up to 8 in coefficient order. -/
def xOrder : List XIdx :=
  ((List.range 9).map fun n => ((List.range (n + 1)).map fun i => (List.range (i + 1)).map fun j => (n - i, i - j, j)).flatten).flatten

/-- idx(a, b, c) -/
def XIdx.index (g : XIdx) : Nat :=
  let n := g.deg
  n * (n + 1) * (n + 2) / 6 + (n - g.1) * (n - g.1 + 1) / 2 + (n - g.1 - g.2.1)

/-- C(P) -/
def xCount (p : Nat) : Nat := (p + 1) * (p + 2) * (p + 3) / 6

/-- g ≤ h, componentwise. -/
def XIdx.le (g h : XIdx) : Bool := decide (g.1 ≤ h.1) && decide (g.2.1 ≤ h.2.1) && decide (g.2.2 ≤ h.2.2)
/-- h - g -/
def XIdx.sub (h g : XIdx) : XIdx := (h.1 - g.1, h.2.1 - g.2.1, h.2.2 - g.2.2)
/-- g + h -/
def XIdx.add (g h : XIdx) : XIdx := (g.1 + h.1, g.2.1 + h.2.1, g.2.2 + h.2.2)
/-- The component of axis 0, 1 or 2. -/
def XIdx.at (g : XIdx) (ax : Nat) : Nat := if ax = 0 then g.1 else if ax = 1 then g.2.1 else g.2.2
/-- g - n e_i, for a component of at least n. -/
def XIdx.down (g : XIdx) (ax n : Nat) : XIdx :=
  if ax = 0 then (g.1 - n, g.2.1, g.2.2) else if ax = 1 then (g.1, g.2.1 - n, g.2.2) else (g.1, g.2.1, g.2.2 - n)
/-- The component of a vector. -/
def XVec.at (v : XVec) (ax : Nat) : XVal := if ax = 0 then v.1 else if ax = 1 then v.2.1 else v.2.2

/-- n! -/
def factorial : Nat → Nat
  | 0 => 1
  | n + 1 => (n + 1) * factorial n

/-- The product over axes of num! / den!, exact. -/
def xFact (num den : XIdx) : XVal :=
  xInt ((factorial num.1 / factorial den.1 * (factorial num.2.1 / factorial den.2.1) *
    (factorial num.2.2 / factorial den.2.2) : Nat))

/-! ### Registers (R195) -/

/-- The image of expansion register `n`. -/
def Hart.ereg (h : Hart) (n : Nat) : Nat := ((h.e[n]?).getD 0).toNat
/-- Writes the image of expansion register `n`. -/
def Hart.setEreg (h : Hart) (n x : Nat) : Hart := { h with e := h.e.setIfInBounds n (BitVec.ofNat 6144 x) }

/-- The header word. -/
def xHdr (img : Nat) : Nat := bits img 0 64
/-- P -/
def xP (img : Nat) : Nat := bits img 0 4
/-- KER = 1 -/
def xK1 (img : Nat) : Bool := img.testBit 4
/-- KIND -/
def xKind (img : Nat) : Nat := bits img 5 2
/-- Word `j` of 4 bytes. -/
def xWord (img j : Nat) : XVal := (bits img (32 * j) 32, 0)
/-- The centre. -/
def xCentre (img : Nat) : XVec := (xWord img 2, xWord img 3, xWord img 4)
/-- Coefficient `j`. -/
def xCoef (img j : Nat) : XVal := xWord img (8 + j)
/-- Sets KIND. -/
def xSetKind (img kind : Nat) : Nat := putElems 8 img 0 [bits img 0 5 + kind * 2 ^ 5 + bits img 7 1 * 2 ^ 7]
/-- Puts coefficients from `j` on. -/
def xPut (img j : Nat) (xs : List XVal) : Nat := putElems 32 img (8 + j) (xs.map (·.1))
/-- A header word with a reserved bit, P above 8 or KIND 3 (R213). -/
def xBadHdr (w : Nat) : Bool := decide (bits w 7 25 ≠ 0) || decide (8 < bits w 0 4) || decide (bits w 5 2 = 3)

/-- The checks of R202 on a source of KIND `src` and a destination that is empty or of KIND `dst`. -/
def Hart.xPairBad (h : Hart) (a b : BitVec 5) (src dst : Nat) : List (Bool × Nat × Word) :=
  let A := h.ereg a.toNat
  let B := h.ereg b.toNat
  [(decide (xKind B ≠ src), 0x17, b.setWidth 64),
   (decide (xKind A ≠ 0 ∧ xKind A ≠ dst), 0x17, a.setWidth 64),
   (decide (xHdr A % 32 ≠ xHdr B % 32) || decide (bits A 32 32 ≠ bits B 32 32), 0x17, b.setWidth 64)]

/-! ### Kernel coefficients (R199) -/

/-- D_000 to the coefficient before the `j`-th are in `ds`; the rest follow. -/
def xK0Go (R : XVec) (s : XVal) : List XIdx → List XVal → List XVal
  | [], ds => ds
  | g :: gs, ds =>
    let n := g.deg
    let d := fun (k : XIdx) => XVal.quiet ((ds[k.index]?).getD (0, 0))
    let A := ([0, 1, 2] : List Nat).foldl
      (fun acc ax => if 1 ≤ g.at ax then xAdd acc (xMul ((R.at ax).quiet) (d (g.down ax 1))) else acc) (0, 0)
    let B := ([0, 1, 2] : List Nat).foldl (fun acc ax => if 2 ≤ g.at ax then xAdd acc (d (g.down ax 2)) else acc) (0, 0)
    let num := xSub (xNeg (xMul (xInt (2 * n - 1)) A)) (xMul (xInt (n - 1)) B)
    xK0Go R s gs (ds ++ [xDiv num (xMul (xInt n) s.quiet)])

/-- The entries of gx after the `a`-th; `p1` and `p2` are the two before. -/
def xK1Go (x hh : XVal) : Nat → Nat → XVal → XVal → List XVal
  | 0, _, _, _ => []
  | k + 1, a, p1, p2 =>
    let wv := if a = 1 then xMul x.quiet p1.quiet else xAdd (xMul x.quiet p1.quiet) p2.quiet
    let v := xDiv (xDiv (xMul (xInt (-2)) wv) hh.quiet) (xInt a)
    v :: xK1Go x hh k (a + 1) v p1

/-- gx up to order `p`. -/
def xK1Tab (p : Nat) (hh x : XVal) : List XVal :=
  let g0 := xExp (xNeg (xDiv (xMul x.quiet x.quiet) hh.quiet))
  g0 :: xK1Go x hh p 1 g0 (0, 0)

/-- The kernel coefficients up to the order of a header, and the flags of every step that forms them. -/
def xKernel (img : Nat) (R : XVec) : List XVal × Flags :=
  let p := xP img
  let gs := xOrder.take (xCount p)
  if xK1 img then
    let hh := xMul (xWord img 1) (xWord img 1)
    let t : XTabs := (xK1Tab p hh R.1, xK1Tab p hh R.2.1, xK1Tab p hh R.2.2)
    let ds := gs.map fun g => xProd t.quiet g
    (ds, hh.2 ||| t.flags ||| xFlags ds)
  else
    let s := xSq (R.1.quiet, R.2.1.quiet, R.2.2.quiet)
    let ds := xK0Go R s (gs.drop 1) [xRsq s.quiet]
    (ds, s.2 ||| xFlags ds)

/-! ### The course of an X instruction (R203) -/

/-- Where a run over `total` units stops: the end, or after chunks of 32 units when a pre-emption lands. -/
def Hart.xStop (h : Hart) (total : Nat) : Nat := h.stopAt 32 total

/-- Ends a run that has reached `stop` of `total` units. -/
def State.xEnd (s : State) (stop total : Nat) (fl : Raised) (done : Hart → Hart) : Result :=
  if stop < total then s.stopPart stop fl else { s with h := done s.h }.retire 4 fl

/-- The flags of some steps at one index. -/
def raisedAt (i : Nat) (f : Flags) : Raised := if f = 0 then [] else [(i, f)]

/-- The common course of the members whose unit is a destination coefficient: `f` gives the coefficient of a multi-index from
its old value; `setup` are the flags of the steps that serve several, raised at index 0. -/
def State.xCoefs (s : State) (a : BitVec 5) (kind : Nat) (setup : Flags) (f : XIdx → XVal → XVal) : Result :=
  let h := s.h
  let img := h.ereg a.toNat
  let total := xCount (xP img)
  let stop := h.xStop total
  let gs := (xOrder.take stop).drop h.start
  let xs := gs.map fun g => f g (xCoef img g.index)
  let fl := (gs.zip xs).foldr (fun p r => raisedAt p.1.index p.2.2 ++ r) []
  let fl := if h.start < stop then raisedAt 0 setup ++ fl else fl
  { s with h := h.setEreg a.toNat (xPut img h.start xs) }.xEnd stop total fl fun h =>
    h.setEreg a.toNat (xSetKind (h.ereg a.toNat) kind)

/-- The multi-indices of degree up to `p`. -/
def xUpTo (p : Nat) : List XIdx := xOrder.take (xCount p)

/-- XSHIFT (R206) -/
def execXshift (a b : BitVec 5) (s : State) : Result :=
  s.check ((a == b, 0x02, s.ir) :: s.h.xPairBad a b 1 1) fun s =>
    let A := s.h.ereg a.toNat
    let B := s.h.ereg b.toNat
    let d := xDiff (xCentre B) (xCentre A)
    let t := xTabs (xP A) true d
    s.xCoefs a 1 (d.flags ||| t.flags) fun g acc =>
      ((xUpTo g.deg).filter (fun al => al.le g)).foldl
        (fun acc al => xAdd acc (xMul (xCoef B al.index) (xProd t.quiet (g.sub al)))) acc

/-- XTOLOC (R207) -/
def execXtoloc (a b : BitVec 5) (s : State) : Result :=
  s.check ((a == b, 0x02, s.ir) :: s.h.xPairBad a b 1 2) fun s =>
    let A := s.h.ereg a.toNat
    let B := s.h.ereg b.toNat
    let R := xDiff (xCentre A) (xCentre B)
    let D := xKernel A R
    s.xCoefs a 2 (R.flags ||| D.2) fun g acc =>
      (xUpTo (xP A - g.deg)).foldl
        (fun acc al =>
          let d := XVal.quiet ((D.1[(al.add g).index]?).getD (0, 0))
          let term := xMul (xMul (xCoef B al.index) (xFact (al.add g) g)) d
          xAdd acc (if al.deg % 2 = 1 then xNeg term else term)) acc

/-- XLSHIFT (R208) -/
def execXlshift (a b : BitVec 5) (s : State) : Result :=
  s.check ((a == b, 0x02, s.ir) :: s.h.xPairBad a b 2 2) fun s =>
    let A := s.h.ereg a.toNat
    let B := s.h.ereg b.toNat
    let d := xDiff (xCentre A) (xCentre B)
    let t := xTabs (xP A) true d
    s.xCoefs a 2 (d.flags ||| t.flags) fun g acc =>
      ((xUpTo (xP A)).filter (fun be => g.le be)).foldl
        (fun acc be => xAdd acc (xMul (xMul (xCoef B be.index) (xFact be g)) (xProd t.quiet (be.sub g)))) acc

/-- EORD with KER = 1 and an H that is not a positive finite value (R204, R212). -/
def Hart.eordBad (h : Hart) : Bool :=
  h.eord.getLsbD 4 && (match Fmt.f32.unpack (fld h.eord 16 32) with
    | .fin neg m _ => neg || m == 0
    | _ => true)

/-- XZERO (R204) -/
def execXzero (a b c : BitVec 5) (s : State) : Result :=
  s.check [(s.h.eordBad, 0x02, s.ir)] fun s =>
    let h := s.h
    let hdr := fld h.eord 0 5 + (if h.eord.getLsbD 4 then fld h.eord 16 32 * 2 ^ 32 else 0)
    let head := hdr + (s.getG b).toNat * 2 ^ 64 + (s.getG c).toNat * 2 ^ 128
    let img := putElems 192 (h.ereg a.toNat) 0 [head]
    .next ({ s with h := h.setEreg a.toNat (xPut img 0 (List.replicate 165 (0, 0))) }.adv 4)

/-- XORD (R209): centre and radius are written with the header, at completion (R203; DESIGN CHOICE, log 67) -/
def execXord (a b : BitVec 5) (s : State) : Result :=
  let h := s.h
  let B := h.ereg b.toNat
  let p := fld h.eord 0 4
  let total := xCount p
  let stop := h.xStop total
  let xs := (List.range' h.start (stop - h.start)).map fun j => if j < xCount (xP B) then xCoef B j else (0, 0)
  { s with h := h.setEreg a.toNat (xPut (h.ereg a.toNat) h.start xs) }.xEnd stop total [] fun h =>
    h.setEreg a.toNat (putElems 64 (h.ereg a.toNat) 0 [(xHdr B - xP B) + p, bits B 64 64, bits B 128 64])

/-! ### Members with vector registers (R201) -/

/-- The runs of a group of `n` groups. -/
def Hart.xGroup (h : Hart) (v : BitVec 5) (n : Nat) : Regs := (v.toNat, n * h.grp)

/-- The `n` groups from `v`, each read element group by element group (R201). -/
def Hart.xChain (h : Hart) (v : BitVec 5) (n : Nat) : List (Regs × Nat × Nat) :=
  (List.range n).map fun q => ((v.toNat + q * h.grp, h.grp), 4, 1)

/-- The illegal operands of R201. -/
def Hart.xBad (h : Hart) (dst srcs : List Regs) : Bool :=
  h.ew != 32 || (dst ++ srcs).any (fun r => decide (r.1 % h.grp ≠ 0) || r.past) || dst.any (fun d => srcs.any d.overlap)

/-- Element `i` of the `q`-th group from `v`: beyond the group a read gives nothing, since i is below SPAN. -/
def Hart.xElem (h : Hart) (v : BitVec 5) (q i : Nat) : XVal := (elem 32 (h.img (v.toNat + q * h.grp) h.grp) i, 0)

/-- The point of element `i` of an xyz group. -/
def Hart.xPoint (h : Hart) (v : BitVec 5) (i : Nat) : XVec := (h.xElem v 0 i, h.xElem v 1 i, h.xElem v 2 i)

/-- XFORM (R205) -/
def execXform (a b : BitVec 5) (k : BitVec 3) (e : BitVec 1) (s : State) : Result :=
  let src := s.h.xGroup b 4
  s.issue { srcs := [(src, e == 1)], chain := s.h.xChain b 4, unit := 32 } (s.h.xBad [] [src])
    [(decide (xKind (s.h.ereg a.toNat) = 2), 0x17, a.setWidth 64)] fun s =>
    let h := s.h
    let img := h.ereg a.toNat
    let gs := xUpTo (xP img)
    let stop := h.xStop h.span
    let step (r : List XVal × Raised) (i : Nat) : List XVal × Raised :=
      if h.active k.toNat i then
        let d := xDiff (h.xPoint b i) (xCentre img)
        let t := xTabs (xP img) true d
        let q := h.xElem b 3 i
        let ms := (gs.zip r.1).map fun p => xAdd p.2.quiet (xMul q (xProd t p.1))
        (ms, raisedAt i (d.flags ||| xFlags ms) ++ r.2)
      else r
    let r := (List.range' h.start (stop - h.start)).foldl step (gs.map (fun g => xCoef img g.index), [])
    { s with h := h.setEreg a.toNat (xPut img 0 r.1) }.xEnd stop h.span r.2 fun h =>
      h.setEreg a.toNat (xSetKind (h.ereg a.toNat) 1)

/-- The potential and, for `grad`, the three gradients of one target, from their old values (R210). -/
def xEvalOne (img : Nat) (p : XVec) (old : List XVal) : List XVal :=
  let t := xTabs (xP img) false (xDiff p (xCentre img))
  let gs := xUpTo (xP img)
  old.mapIdx fun q acc =>
    match q with
    | 0 => gs.foldl (fun acc b => xAdd acc (xMul (xCoef img b.index) (xProd t b))) acc
    | ax + 1 =>
      (gs.filter (fun b => decide (1 ≤ b.at ax))).foldl
        (fun acc b => xAdd acc (xMul (xMul (xCoef img b.index) (xInt (b.at ax))) (xProd t (b.down ax 1)))) acc

/-- Writes element `i` of the groups from `v`. -/
def Hart.xWrite (h : Hart) (v : BitVec 5) (i : Nat) (xs : List XVal) : Hart :=
  (xs.zipIdx).foldl (fun h p =>
    let b := v.toNat + p.2 * h.grp
    h.setImg b h.grp (putElems 32 (h.img b h.grp) i [p.1.1])) h

/-- The common course of XEVAL and XEVALG with `n` destination groups. -/
def State.xEval (s : State) (a b c : BitVec 5) (k : BitVec 3) (e : BitVec 1) (n : Nat) : Result :=
  let dst := s.h.xGroup a n
  let src := s.h.xGroup b 3
  s.issue { dst := [dst], srcs := [(src, e == 1)], lvd := some a, chain := s.h.xChain b 3, unit := 32 } (s.h.xBad [dst] [src])
    [(decide (xKind (s.h.ereg c.toNat) ≠ 2), 0x17, c.setWidth 64)] fun s =>
    let h := s.h
    let img := h.ereg c.toNat
    let stop := h.xStop h.span
    let step (r : Hart × Raised) (i : Nat) : Hart × Raised :=
      if h.active k.toNat i then
        let xs := xEvalOne img (h.xPoint b i) ((List.range n).map fun q => h.xElem a q i)
        (r.1.xWrite a i xs, raisedAt i ((xDiff (h.xPoint b i) (xCentre img)).flags ||| xFlags xs) ++ r.2)
      else if h.ip then (r.1.xWrite a i (List.replicate n (0, 0)), r.2)
      else r
    let r := (List.range' h.start (stop - h.start)).foldl step (h, [])
    { s with h := r.1 }.xEnd stop h.span r.2 id

/-- XEVAL (R210) -/
def execXeval (a b c : BitVec 5) (k : BitVec 3) (e : BitVec 1) (s : State) : Result := s.xEval a b c k e 1
/-- XEVALG (R210) -/
def execXevalg (a b c : BitVec 5) (k : BitVec 3) (e : BitVec 1) (s : State) : Result := s.xEval a b c k e 4

/-- Whether two values that are not NaN compare x >= y; a NaN makes it false, a signalling one raises NV. -/
def xGe (x y : XVal) : Bool × Flags :=
  let a := Fmt.f32.unpack x.1
  let b := Fmt.f32.unpack y.1
  (!a.isNaN && !b.isNaN && !a.lt b, x.2 ||| y.2 ||| (if a.isS || b.isS then fNV else 0))

/-- XADMIT (R211) -/
def execXadmit (a b c : BitVec 5) (k : BitVec 3) (e : BitVec 1) (s : State) : Result :=
  let src := s.h.xGroup b 4
  s.issue { srcs := [(src, e == 1)], chain := s.h.xChain b 4, unit := 32 } (s.h.xBad [] [src]) [] fun s =>
    let h := s.h
    let img := h.ereg c.toNat
    let theta : XVal := ((Fmt.f32.round .rne false (fld h.eord 8 8) (-8) false).1, 0)
    let tt := xMul theta theta
    let stop := h.xStop h.span
    let bit (i : Nat) : Bool × Flags :=
      if h.active k.toNat i then
        let re := xAdd (h.xElem b 3 i) (xWord img 5)
        xGe (xMul tt (xSq (xDiff (h.xPoint b i) (xCentre img)))) (xMul re re)
      else (false, 0)
    let xs := (List.range' h.start (stop - h.start)).map bit
    let put := putElems 1 (h.getK a.toNat).toNat h.start (xs.map fun x => x.1.toNat)
    let new := BitVec.ofNat 8192 (if stop < h.span then put else put % 2 ^ h.span)
    (s.setK a.toNat new).xEnd stop h.span (raisedFrom h.start (xs.map fun x => (0, x.2))) id

/-- The pairs of one block of 32 targets from `i0` and 32 sources from `j0` (R212). An inactive target under IP = 1 becomes 0 with the
first block of sources (DESIGN CHOICE, log 73). -/
def xDirectBlock (h0 h : Hart) (a b c : BitVec 5) (k : Nat) (hh : XVal) (i0 j0 : Nat) (fl : Raised) : Hart × Raised :=
  (List.range' i0 (min 32 (h.span - i0))).foldl
    (fun (r : Hart × Raised) i =>
      if h.active k i then
        let phi := (List.range' j0 (min 32 (h.span - j0))).foldl
          (fun (phi : XVal) j =>
            let q := h0.xElem c 3 j
            if q.1 % 2 ^ 31 = 0 then phi
            else
              let r2 := xSq (xDiff (h0.xPoint b i) (h0.xPoint c j))
              if r2.1 = 0 then (phi.1, phi.2 ||| r2.2)
              else
                let K := if h0.eord.getLsbD 4 then xExp (xNeg (xDiv r2 hh)) else xRsq r2
                xAdd phi (xMul q K)) (r.1.xElem a 0 i)
        (r.1.xWrite a i [phi], raisedAt i phi.2 ++ r.2)
      else if h.ip && j0 == 0 then (r.1.xWrite a i [(0, 0)], r.2)
      else r) (h, fl)

/-- XDIRECT (R212): blocks in order, those before EIX done -/
def execXdirect (a b c : BitVec 5) (k : BitVec 3) (e : BitVec 1) (s : State) : Result :=
  let dst := s.h.xGroup a 1
  let t := s.h.xGroup b 3
  let q := s.h.xGroup c 4
  s.issue { dst := [dst], srcs := [(t, e == 1), (q, e == 1)], lvd := some a } (s.h.eordBad || s.h.xBad [dst] [t, q]) [] fun s =>
    let h := s.h
    let nb := (h.span + 31) / 32
    let hv : XVal := (fld h.eord 16 32, 0)
    let hh := xMul hv hv
    let first := h.start / 8192 / 32 * nb + h.start % 8192 / 32
    let total := nb * nb
    let stop := match h.landing with | none => total | some n => min total (first + max n 1)
    let r := (List.range' first (stop - first)).foldl
      (fun (r : Hart × Raised) n => xDirectBlock h r.1 a b c k.toNat hh.quiet (n / nb * 32) (n % nb * 32) r.2) (h, [])
    let fl := if first < stop && h.eord.getLsbD 4 then raisedAt 0 hh.2 ++ r.2 else r.2
    let t := { s with h := r.1 }
    if stop < total then t.stopPart (8192 * (stop / nb * 32) + stop % nb * 32) fl else t.retire 4 fl

/-! ### Moving expansions (R213) -/

/-- After a machine check of XLD the register is undefined (R385): a free image whose header is one a register can hold
(R202). -/
def State.loseE (s : State) (a : BitVec 5) : State :=
  let x := Config.free s.fresh
  let img := (Config.freeImage s.fresh).toNat
  let hdr := fld x 0 4 % 9 + fld x 4 1 * 2 ^ 4 + fld x 5 2 % 3 * 2 ^ 5 + fld x 32 32 * 2 ^ 32
  { s with h := s.h.setEreg a.toNat (putElems 64 img 0 [hdr]), fresh := s.fresh + 1 }

/-- A word run's course: the register's image, the state, and the fault that ends it (word, fault). -/
structure XRun where
  img : Nat
  s : State
  fault : Option (Nat × Flt)

/-- One word of XLD. -/
def XRun.load (r : XRun) (base : Word) (w : Nat) : XRun :=
  if r.fault.isSome then r
  else match sumAddr base (8 * w : Nat) with
    | .error e => { r with fault := some (w, e) }
    | .ok va =>
      match r.s.load false va 8 with
      | .error e => { r with fault := some (w, e) }
      | .ok (x, s) => { img := putElems 64 r.img w [x], s, fault := none }

/-- One word of XST. -/
def XRun.store (r : XRun) (base : Word) (w : Nat) : XRun :=
  if r.fault.isSome then r
  else match sumAddr base (8 * w : Nat) with
    | .error e => { r with fault := some (w, e) }
    | .ok va =>
      match r.s.store false va 8 (elem 64 r.img w) with
      | .error e => { r with fault := some (w, e) }
      | .ok s => { r with s }

/-- The words of XLD or XST from the start of this part. A pre-empted XLD has written its header with the first chunk, as R213's words
that have moved; R203 keeps a destination header until completion (DESIGN CHOICE, log 67). -/
def State.xMove (s : State) (a : BitVec 5) (base : Word) (ld : Bool) : Result :=
  let h := s.h
  let stop := h.xStop 768
  let r := (List.range' (h.start / 8) (stop / 8 - h.start / 8)).foldl
    (fun (r : XRun) w => if ld then r.load base w else r.store base w) ⟨h.ereg a.toNat, s, none⟩
  let t := { r.s with h := if ld then r.s.h.setEreg a.toNat r.img else r.s.h }
  match r.fault with
  | some (w, e) =>
    if e.cause = 0x13 then
      (if ld then s.loseE a else s).vecMachine (if ld then .read else .write) 8
        (addrsOf (fun w => sumAddr base (8 * w : Nat)) (List.range' (h.start / 8) (96 - h.start / 8))) (0, 0)
    else t.trapAt e.cause (8 * w) e.eaddr []
  | none => t.xEnd stop 768 [] id

/-- XLD (R213): word 0 is checked before any effect, but not in a resumed part -/
def execXld (a b : BitVec 5) (s : State) : Result :=
  let base := s.getG b
  s.check [(decide (base.toNat % 8 ≠ 0), 0x06, base)] fun s =>
    if s.h.start ≠ 0 then s.xMove a base true
    else match s.loadAs s.who false base 8 with
      | .error _ => s.xMove a base true
      | .ok (x, _) => if xBadHdr x then s.trapPre 0x17 base else s.xMove a base true

/-- XST (R213) -/
def execXst (a b : BitVec 5) (s : State) : Result :=
  let base := s.getG b
  s.check [(decide (base.toNat % 8 ≠ 0), 0x06, base)] fun s => s.xMove a base false

end Sys2Proof.Machine
end

