-- ==== Sys2Proof/Machine/Errors.lean ====
section
/-! DEFINITION. Register errors: what an instruction consumes, what makes a failing word good, and what a machine check loses
(22 R383 to R385, log 29, log 30). A failing word of a register is listed as the structure code of Table 22-1 with a number: for v, k
and e registers that of the 8-byte word among all words of those registers, accumulator elements as 4,096z + 64m + n, and g registers
by number, with plan registers from 32 on and CSRs from 64 on. -/

namespace Sys2Proof.Machine

/-- The 8-byte words of a register whose words a structure code numbers: v, k or e. -/
def wordsOf (code : Nat) : Nat := if code = 2 then 512 else if code = 3 then 128 else if code = 5 then 96 else 1

/-- The tile op code of an instruction of `n` parcels; 0 when it is none (Table 10-5). -/
def tileOpOf (n w : Nat) : Nat := if n = 4 then bits w 55 6 else 0

/-- Whether element `i` of an accumulator lies in a tile shape. -/
def TileShape.covers (sh : TileShape) (i : Nat) : Bool := decide (i % 4096 / 64 < sh.m) && decide (i % 64 < sh.n)

/-- The accumulators that a tile instruction reads: of TMMA, TSTA and TADD. -/
def tileZReads (n w : Nat) : List Nat :=
  let op := tileOpOf n w
  if op = 3 ∨ op = 5 then [bits w 41 2] else if op = 6 then [bits w 41 2, w % 4] else []

/-- The accumulator that a tile instruction writes: of TZERO, TMMA, TLDA and TADD. -/
def tileZWrites (n w : Nat) : List Nat :=
  let op := tileOpOf n w
  if op = 2 ∨ op = 3 ∨ op = 4 ∨ op = 6 then [bits w 41 2] else []

/-- Whether a register number lies in one of some runs. -/
def inRuns (rs : List Regs) (n : Nat) : Bool := rs.any fun r => decide (r.1 ≤ n) && decide (n < r.1 + r.2)

/-- The CSRs that an instruction reads: those it names, and VTYPE for one that runs under it. -/
def Uses.csrs (u : Uses) : List Nat := (if u.pipe.isSome && u.pipe != some .tile then [0x000] else []) ++ u.cr

/-- Bytes of an element of a run of an instruction: a group of twice the registers holds elements of twice the width, but for the
fields of memory forms and the groups of X instructions. -/
def Hart.runWidth (h : Hart) (u : Uses) (run : Regs) : Nat :=
  ewbOf h.vtype * (if u.pipe = some .lanes ∧ run.2 = 2 * h.grp then 2 else 1)

/-- The byte of its group in which byte `o` of a run lies. -/
def Hart.inGroup (h : Hart) (u : Uses) (run : Regs) (o : Nat) : Nat :=
  if u.pipe = some .lanes ∧ run.2 = 2 * h.grp then o else o % (4096 * h.grp)

/-- Whether an instruction reads something of word `b` of the v registers (R384): of elements below SPAN, an element-wise form only from
its position on. -/
def Hart.readsWord (h : Hart) (u : Uses) (b : Nat) : Bool :=
  u.vr.any fun run =>
    let o := 8 * b - 4096 * run.1
    inRuns [run] (b / 512) &&
      (match u.sizes.find? fun x => x.1 == run with
       | some (_, n) => decide (o < n)
       | none =>
         let i := h.inGroup u run o
         decide (i < h.runWidth u run * h.span) && (!u.whole || decide (h.runWidth u run * h.start < i + 8)))

/-- Whether an instruction reads something of word `b` of the masks: bits below SPAN, all of it in mask logic, and one word in MTOG
(R107). -/
def State.readsMask (s : State) (u : Uses) (b : Nat) : Bool :=
  u.kr.contains (b / 128) &&
    (if u.pipe.isSome || (u.gw != [] && u.gr == []) then decide (64 * (b % 128) < s.h.span)
     else match u.gw, u.gr with
       | _ :: _, g :: _ => (s.getG (BitVec.ofNat 5 g)).toNat % 128 == b % 128
       | _, _ => true)

/-- The words of an expansion register that hold its header, centre, radius and coefficients up to order `p` (Table 11-1). -/
def expansionWord (p w : Nat) : Bool := decide (w < 3) || (decide (4 ≤ w) && decide (8 * w < 32 + 4 * xCount p))

/-- Whether an instruction reads word `b` of the expansion registers: XST all of it. -/
def Hart.readsExpansion (h : Hart) (u : Uses) (b : Nat) : Bool :=
  u.er.contains (b / 96) && ((u.gr != [] && u.ew == []) || expansionWord (xP (h.ereg (b / 96))) (b % 96))

/-- The failing words that an instruction of the hart that moves consumes (R384). CTXSAVE reads all that the hart holds, and ERET EIX,
ECONV and TSEQ when PART is 1. -/
def State.consumes (s : State) (u : Uses) (n w : Nat) : List (Nat × Nat) :=
  let h := s.h
  h.bad.filter fun b =>
    (b.1 == 1 && (u.gr.contains b.2 || (u.pr.map (fun p => p + 32)).contains b.2 || (u.csrs.map (fun c => c + 64)).contains b.2 ||
      (u.saves && (decide (b.2 < 64) || ctxCsrs.contains (b.2 - 64))) ||
      (u.returns && h.part && ([0x401, 0x405, 0x40A] : List Nat).contains (b.2 - 64)))) ||
    (b.1 == 2 && (h.readsWord u b.2 || (u.saves && h.holdsV (b.2 / 512)))) ||
    (b.1 == 3 && (s.readsMask u b.2 || u.saves)) ||
    (b.1 == 5 && (h.readsExpansion u b.2 || u.saves)) ||
    (b.1 == 4 && (((tileZReads n w).contains (b.2 / 4096) && h.shape.covers b.2) ||
      (u.saves && s.holdsZ (BitVec.ofNat 2 (b.2 / 4096)))))

/-- Whether a form has written element `i` of its destination when it stands at `upto`: active, or inactive under IP = 1, from where it
went on (R143, R365). -/
def Hart.wrote (h : Hart) (u : Uses) (upto i : Nat) : Bool :=
  decide (h.start ≤ i) && decide (i < upto) && decide (i < h.span) &&
    (if u.kr.all fun k => h.active k i then !(u.indexed && h.replaying && (h.getK 23).getLsbD i) else h.ip && !(u.indexed && h.replaying))

/-- Whether an instruction has written all bytes of word `b` of the v registers when it stands at `upto`: every element in it, a line of
VREFILL, or a block of VLDBP. -/
def Hart.writesWord (h : Hart) (u : Uses) (upto b : Nat) : Bool :=
  u.vw.any fun run =>
    let o := 8 * b - 4096 * run.1
    inRuns [run] (b / 512) &&
      (match u.sizes.find? fun x => x.1 == run with
       | some (_, n) =>
         u.pipe == some .memory &&
           (if u.kr = [] then decide (h.start ≤ o) && decide (o + 8 ≤ upto)
            else decide (o < n) && decide (h.start ≤ o / 72 * 64) && decide (o / 72 * 64 + 64 ≤ upto ∨ h.span ≤ upto) &&
              h.blockActive (u.kr.headD 0) (o / 72))
       | none =>
         let x := h.runWidth u run
         let i := h.inGroup u run o
         u.whole && (List.range' (i / x) ((i + 7) / x - i / x + 1)).all (h.wrote u upto))

/-- Whether an instruction has written all of word `b` of the masks when it stands at `upto`: MFROMG one word, a compare from where it
went on (R107, R157). -/
def Hart.writesMask (h : Hart) (u : Uses) (upto b : Nat) : Bool :=
  u.kw.contains (b / 128) &&
    (match u.pipe, u.gr with
     | some _, _ => decide (h.start ≤ 64 * (b % 128)) && (decide (h.span ≤ upto) || decide (64 * (b % 128) + 64 ≤ upto))
     | none, [_, _] => u.gw != [] || u.kr != [] || u.breaks || (h.g[(u.gr.getLast?).getD 0]?.getD 0).toNat % 128 == b % 128
     | none, _ => true)

/-- Whether an instruction has written all of word `b` of the expansion registers when it stands at `upto`: XLD what it has loaded, XZERO
all but the reserved bytes, XORD up to its order (R204, R209, R213). -/
def Hart.writesExpansion (h : Hart) (u : Uses) (upto b : Nat) : Bool :=
  let w := b % 96
  u.ew.contains (b / 96) && !u.er.contains (b / 96) &&
    (if u.er != [] then decide (h.eord.toNat % 16 ≤ 8) && (decide (w < 3) || decide (4 ≤ w ∧ 8 * w + 8 ≤ 32 + 4 * min upto (xCount (fld h.eord 0 4))))
     else if u.gr.length = 1 then decide (h.start ≤ 8 * w) && decide (8 * w + 8 ≤ upto)
     else decide (w < 3) || decide (4 ≤ w ∧ w < 86))

/-- The failing words that an instruction has made good when it stands at `upto`: those that it has written whole (R383). `h` is the hart
at issue. -/
def Hart.repaired (h : Hart) (u : Uses) (n w upto : Nat) (bad : List (Nat × Nat)) : List (Nat × Nat) :=
  let op := tileOpOf n w
  let ended := decide (h.span ≤ upto)
  bad.filter fun b => !(
    (b.1 == 1 && ((ended && ((u.gw.contains b.2 && !u.gif.contains b.2) || (u.pw.map (fun p => p + 32)).contains b.2 ||
      ((u.csr.toList ++ u.cw).map (fun c => c + 64)).contains b.2)) || (b.2 == 64 + 6 && !u.vw.isEmpty))) ||
    (b.1 == 2 && h.writesWord u upto b.2) ||
    (b.1 == 3 && h.writesMask u upto b.2) ||
    (b.1 == 5 && h.writesExpansion u upto b.2) ||
    (b.1 == 4 && b.2 / 4096 == bits w 41 2 &&
      (op == 2 || (op == 4 && h.shape.covers b.2 && decide (h.start ≤ b.2 % 4096 / 64) && decide (b.2 % 4096 / 64 < upto)))))

/-- The failing words that an instruction has made good between the hart `h` at issue and `t` now, where it stands at `upto`: those of
`Hart.repaired`, and those of the EVX that it has changed (R31, R383). -/
def Hart.stillBad (h t : Hart) (u : Uses) (n w upto : Nat) : List (Nat × Nat) :=
  if t.bad = [] then []
  else (h.repaired u n w upto t.bad).filter fun b =>
    !(b.1 == 1 && decide (64 + 0x10 ≤ b.2) && h.evx[b.2 - (64 + 0x10)]? != t.evx[b.2 - (64 + 0x10)]?)

/-- The lowest of some failing words, by structure code and number. -/
def lowestBad (bs : List (Nat × Nat)) : Nat × Nat :=
  bs.foldl (fun (x : Nat × Nat) b => if b.1 < x.1 ∨ b.1 = x.1 ∧ b.2 < x.2 then b else x) ((bs.head?).getD (0, 0))

/-- The error summary of failing register words (Table 22-2); `more` says that the instruction also met a failing word of memory. -/
def State.regSummary (s : State) (bs : List (Nat × Nat)) (more : Bool) : Word :=
  let b := lowestBad bs
  let loc := if b.1 = 1 then b.2 % 32 else b.2 / wordsOf b.1
  BitVec.ofNat 64 (b.1 * 2 ^ 56 + s.myIsland.toNat * 2 ^ 53 + (more || decide (1 < bs.length)).toNat * 2 ^ 52 + loc)

/-- A CSR after a machine check of an instruction that writes it (R385): a free value of those that the register can hold. A write that
is a command leaves nothing behind. -/
def State.loseCsr (s : State) (c : Nat) : State :=
  if ([0x40D, 0x410, 0x411] : List Nat).contains c then s
  else
    let t := s.takeFree.2
    if t.csrRefused c s.takeFree.1 then t else t.csrPut c s.takeFree.1

/-- What an instruction names as destinations is undefined after a machine check (R385): free values. -/
def State.loseUses (s : State) (u : Uses) (n w : Nat) : State :=
  let s := u.gw.foldl (fun (s : State) d => s.loseG (BitVec.ofNat 5 d) 0x13) s
  let s := u.vw.foldl (fun (s : State) r => s.loseV r.1 r.2) s
  let s := u.kw.foldl (fun (s : State) d =>
    { s.setK d ((Config.freeImage s.fresh).setWidth 8192) with fresh := s.fresh + 1 }) s
  let s := u.ew.foldl (fun (s : State) d => s.loseE (BitVec.ofNat 5 d)) s
  let s := u.pw.foldl (fun (s : State) d =>
    { s.takeFree.2 with h := { s.h with pl := s.h.pl.setIfInBounds d s.takeFree.1 } }) s
  let s := (tileZWrites n w).foldl (fun (s : State) z => s.loseZ (BitVec.ofNat 2 z)) s
  match u.csr with | some c => s.loseCsr c | none => s

/-- The bytes that `t` has changed are undefined after a machine check (R385): free values. -/
def State.loseChanged (s t : State) : State :=
  let keys := ((s.mem ++ t.mem).map (·.1)).filter fun k => Memory.byte s.mem k != Memory.byte t.mem k
  keys.foldl (fun (s : State) k => { s.poke k 1 ((Config.free s.fresh).toNat % 256) with fresh := s.fresh + 1 }) s

/-- The instruction at the PC, whose run gives `r`, consumes failing registers and raises a machine check (R384). -/
def State.consume (s : State) (u : Uses) (n w : Nat) (bs : List (Nat × Nat)) (r : Result) : Result :=
  let more := match r with | .next t => t.trapped && t.h.ecause == 0x13 | _ => false
  let t := match r with | .next t => s.loseChanged t | _ => s
  (t.loseUses u n w).trap { cause := 0x13, eaddr := s.regSummary bs more }

/-- Runs an instruction of the hart that moves unless it consumes failing registers. -/
def State.runConsuming (s : State) (u : Uses) (n w : Nat) (r : Result) : Result :=
  if s.h.bad = [] then r
  else
    let bs := s.consumes u n w
    if bs = [] then r else s.consume u n w bs r

end Sys2Proof.Machine
end

