-- ==== Sys2Proof/WellFormed.lean ====
section
/-! DEFINITION. Which instructions the encoding admits: reserved field values are refused (R60), by name of the check.
A word whose fields fail these checks is illegal instruction (0x01); values an instruction refuses as illegal operand (0x02)
are not here but in its meaning. -/

namespace Sys2Proof

/-- Types and plane counts of one TMMA operand (R56): codes 6 to 15 are reserved, and a plane count needs a BPN type. -/
def tileTypeOk (t : BitVec 4) (p : BitVec 3) : Bool :=
  t.toNat < 6 && (t == 3 || t == 4 || p == 0)

/-- The encodings of TLDA and TSTA that R190 leaves. -/
def tileMemOk (sa : BitVec 1) (b : BitVec 5) (t : BitVec 4) (raw sm : BitVec 1) (gm : BitVec 5) : Bool :=
  (if raw == 1 then t == 0 else t.toNat < 3) && (sm == 0 || raw == 1) && (sm == 1 || gm == 0) && (sa == 0 || b == 0)

/-- The CSRs whose write has an effect of its own, each the subject of a row of the table or of its own rule
(R101, R288, R367, R304, R308, R342, R387, R390). -/
def csrSpecial : List Nat := [0x000, 0x409, 0x40B, 0x40D, 0x410, 0x411, 0x601, 0x602]

/-- The row CSR_WRITE is for the other CSRs. -/
def csrPlain (csr : BitVec 11) : Bool := !csrSpecial.contains csr.toNat

/-- Whether the encoding admits the instruction (R60 and the field rules of each instruction). -/
def Instr.wf : Instr → Bool
  | .add _ _ _ => true
  | .sub _ _ _ => true
  | .and _ _ _ => true
  | .or _ _ _ => true
  | .xor _ _ _ => true
  | .andn _ _ _ => true
  | .sll _ _ _ => true
  | .srl _ _ _ => true
  | .sra _ _ _ => true
  | .slt _ _ _ => true
  | .sltn _ _ _ => true
  | .min _ _ _ => true
  | .max _ _ _ => true
  | .minn _ _ _ => true
  | .maxn _ _ _ => true
  | .mul _ _ _ => true
  | .mulh _ _ _ => true
  | .mulhn _ _ _ => true
  | .div _ _ _ => true
  | .divn _ _ _ => true
  | .rem _ _ _ => true
  | .remn _ _ _ => true
  | .clz _ _ => true
  | .popc _ _ => true
  | .sext _ _ w => w.toNat < 3
  | .zext _ _ w => w.toNat < 3
  | .addi _ _ _ => true
  | .andi _ _ _ => true
  | .ori _ _ _ => true
  | .xori _ _ _ => true
  | .slti _ _ _ => true
  | .sltni _ _ _ => true
  | .slli _ _ _ => true
  | .srli _ _ _ => true
  | .srai _ _ _ => true
  | .lih _ _ => true
  | .addpc _ _ => true
  | .xform a _ _ _ => a.toNat < 16
  | .xshift a b => a.toNat < 16 && b.toNat < 16
  | .xtoloc a b => a.toNat < 16 && b.toNat < 16
  | .xlshift a b => a.toNat < 16 && b.toNat < 16
  | .xeval _ _ c _ _ => c.toNat < 16
  | .xadmit a _ c _ _ => a.toNat < 24 && c.toNat < 16
  | .xdirect _ _ _ _ _ => true
  | .xld a _ => a.toNat < 16
  | .xst a _ => a.toNat < 16
  | .xzero a _ _ => a.toNat < 16
  | .xord a b => a.toNat < 16 && b.toNat < 16
  | .xevalg _ _ c _ _ => c.toNat < 16
  | .fadd _ _ _ => true
  | .fsub _ _ _ => true
  | .fmul _ _ _ => true
  | .fdiv _ _ _ => true
  | .fsqrt _ _ => true
  | .fmin _ _ _ => true
  | .fmax _ _ _ => true
  | .feq _ _ _ => true
  | .flt _ _ _ => true
  | .fle _ _ _ => true
  | .fcvtFS _ _ => true
  | .fcvtSF _ _ => true
  | .fcvtFH _ _ => true
  | .fcvtFBf _ _ => true
  | .fcvtHF _ _ => true
  | .fcvtBfF _ _ => true
  | .fclass _ _ => true
  | .ffma _ _ _ _ => true
  | .ffms _ _ _ _ => true
  | .fnma _ _ _ _ => true
  | .fnms _ _ _ _ => true
  | .beq _ _ _ => true
  | .bne _ _ _ => true
  | .blt _ _ _ => true
  | .bge _ _ _ => true
  | .bltn _ _ _ => true
  | .bgen _ _ _ => true
  | .jal _ _ => true
  | .jalr _ _ _ => true
  | .lds _ _ w _ => w.toNat < 7
  | .sts _ _ w _ => w.toNat % 2 == 0
  | .ldo _ _ _ s x => x.toNat < 7 && s.toNat < 6
  | .sto _ _ _ s x => x.toNat % 2 == 0 && s.toNat < 6
  | .amoAdd _ _ _ _ s => s.toNat < 6
  | .amoAnd _ _ _ _ s => s.toNat < 6
  | .amoOr _ _ _ _ s => s.toNat < 6
  | .amoXor _ _ _ _ s => s.toNat < 6
  | .amoMin _ _ _ _ s => s.toNat < 6
  | .amoMax _ _ _ _ s => s.toNat < 6
  | .amoSwap _ _ _ _ s => s.toNat < 6
  | .amoCas _ _ _ _ s => s.toNat < 6
  | .amowAdd _ _ _ _ s => s.toNat < 6
  | .amowAnd _ _ _ _ s => s.toNat < 6
  | .amowOr _ _ _ _ s => s.toNat < 6
  | .amowXor _ _ _ _ s => s.toNat < 6
  | .amowMin _ _ _ _ s => s.toNat < 6
  | .amowMax _ _ _ _ s => s.toNat < 6
  | .amowSwap _ _ _ _ s => s.toNat < 6
  | .amowCas _ _ _ _ s => s.toNat < 6
  | .fence _ s => s.toNat < 6
  | .csrrd _ _ => true
  | .csrwr _ _ _ => true
  | .csrset _ _ _ => true
  | .csrclr _ _ _ => true
  | .strip _ => true
  | .vsettype _ _ => true
  | .limlt d _ _ => d.toNat < 24
  | .limle d _ _ => d.toNat < 24
  | .limltn d _ _ => d.toNat < 24
  | .setvl _ _ => true
  | .mand d a b => d.toNat < 24 && a.toNat < 24 && b.toNat < 24
  | .mor d a b => d.toNat < 24 && a.toNat < 24 && b.toNat < 24
  | .mxor d a b => d.toNat < 24 && a.toNat < 24 && b.toNat < 24
  | .mandn d a b => d.toNat < 24 && a.toNat < 24 && b.toNat < 24
  | .mnot d a => d.toNat < 24 && a.toNat < 24
  | .mcopy d a => d.toNat < 24 && a.toNat < 24
  | .mfill d => d.toNat < 24
  | .mzero d => d.toNat < 24
  | .mcount _ a => a.toNat < 24
  | .mfirst _ a => a.toNat < 24
  | .mlast _ a => a.toNat < 24
  | .mfromg d _ _ => d.toNat < 24
  | .mtog _ a _ => a.toNat < 24
  | .ecall => true
  | .eret => true
  | .wfi _ => true
  | .brk => true
  | .tlbinv _ _ => true
  | .frqpop _ => true
  | .ctxsave => true
  | .ctxload => true
  | .bar _ _ _ s => s.toNat < 6
  | .waita _ _ _ c => c.toNat < 4
  | .chwait _ _ => true
  | .chwaitId _ _ b => b.toNat != 0
  | .qpush _ _ _ => true
  | .qpop _ _ => true
  | .qpopNb _ _ => true
  | .launch _ _ => true
  | .yield => true
  | .exit => true
  | .barg _ _ _ => true
  | .vacq _ i => (1 ≤ i.toNat) && i.toNat ≤ 3
  | .vacqFail _ i => (1 ≤ i.toNat) && i.toNat ≤ 3
  | .vacqTile _ i => i.toNat ≤ 3
  | .vacqTileFail _ i => i.toNat ≤ 3
  | .vrel i => (1 ≤ i.toNat && i.toNat ≤ 3) || (8 ≤ i.toNat && i.toNat ≤ 11)
  | .cpread _ _ _ => true
  | .cpmark _ => true
  | .vadd _ _ _ _ _ _ => true
  | .vsub _ _ _ _ _ _ => true
  | .vmul _ _ _ _ _ _ => true
  | .vmulh _ _ _ _ _ _ => true
  | .vmin _ _ _ _ _ _ => true
  | .vmax _ _ _ _ _ _ => true
  | .vminn _ _ _ _ _ _ => true
  | .vmaxn _ _ _ _ _ _ => true
  | .vand _ _ _ _ _ _ => true
  | .vor _ _ _ _ _ _ => true
  | .vxor _ _ _ _ _ _ => true
  | .vandn _ _ _ _ _ _ => true
  | .vsll _ _ _ _ _ _ => true
  | .vsrl _ _ _ _ _ _ => true
  | .vsra _ _ _ _ _ _ => true
  | .vmerge _ _ _ _ _ _ => true
  | .vsadd _ _ _ _ _ _ => true
  | .vssub _ _ _ _ _ _ => true
  | .vnshr _ _ _ _ _ _ => true
  | .vwmul _ _ _ _ _ _ => true
  | .vwmac _ _ _ _ _ _ => true
  | .vabs _ _ _ _ => true
  | .vmulhn _ _ _ _ _ _ => true
  | .vavg _ _ _ _ _ _ => true
  | .vaddX _ _ _ _ _ => true
  | .vsubX _ _ _ _ _ => true
  | .vmulX _ _ _ _ _ => true
  | .vmulhX _ _ _ _ _ => true
  | .vminX _ _ _ _ _ => true
  | .vmaxX _ _ _ _ _ => true
  | .vminnX _ _ _ _ _ => true
  | .vmaxnX _ _ _ _ _ => true
  | .vandX _ _ _ _ _ => true
  | .vorX _ _ _ _ _ => true
  | .vxorX _ _ _ _ _ => true
  | .vandnX _ _ _ _ _ => true
  | .vsllX _ _ _ _ _ => true
  | .vsrlX _ _ _ _ _ => true
  | .vsraX _ _ _ _ _ => true
  | .vmergeX _ _ _ _ _ => true
  | .vfadd _ _ _ _ _ _ => true
  | .vfsub _ _ _ _ _ _ => true
  | .vfmul _ _ _ _ _ _ => true
  | .vfdiv _ _ _ _ _ _ => true
  | .vfmin _ _ _ _ _ _ => true
  | .vfmax _ _ _ _ _ _ => true
  | .vfsqrt _ _ _ _ => true
  | .vfabs _ _ _ _ => true
  | .vffma _ _ _ _ _ _ => true
  | .vffms _ _ _ _ _ _ => true
  | .vfnma _ _ _ _ _ _ => true
  | .vfnms _ _ _ _ _ _ => true
  | .vfaddX _ _ _ _ _ => true
  | .vfsubX _ _ _ _ _ => true
  | .vfmulX _ _ _ _ _ => true
  | .vfdivX _ _ _ _ _ => true
  | .vfminX _ _ _ _ _ => true
  | .vfmaxX _ _ _ _ _ => true
  | .vffmaX _ _ _ _ _ => true
  | .vffmsX _ _ _ _ _ => true
  | .vfnmaX _ _ _ _ _ => true
  | .vfnmsX _ _ _ _ _ => true
  | .vrcp _ _ _ _ => true
  | .vrsq _ _ _ _ => true
  | .vexp2 _ _ _ _ => true
  | .vlog2 _ _ _ _ => true
  | .vcmpEq d _ _ _ _ _ => d.toNat < 24
  | .vcmpNe d _ _ _ _ _ => d.toNat < 24
  | .vcmpLt d _ _ _ _ _ => d.toNat < 24
  | .vcmpLe d _ _ _ _ _ => d.toNat < 24
  | .vcmpLtn d _ _ _ _ _ => d.toNat < 24
  | .vcmpLen d _ _ _ _ _ => d.toNat < 24
  | .vcmpLtX d _ _ _ _ => d.toNat < 24
  | .vcmpGeX d _ _ _ _ => d.toNat < 24
  | .vfcmpFeq d _ _ _ _ _ => d.toNat < 24
  | .vfcmpFne d _ _ _ _ _ => d.toNat < 24
  | .vfcmpFlt d _ _ _ _ _ => d.toNat < 24
  | .vfcmpFle d _ _ _ _ _ => d.toNat < 24
  | .vfcmpFltX d _ _ _ _ => d.toNat < 24
  | .vfcmpFgeX d _ _ _ _ => d.toNat < 24
  | .vfcmpFunord d _ _ _ _ _ => d.toNat < 24
  | .vcvtFi _ _ _ _ _ => true
  | .vcvtIf _ _ _ _ _ => true
  | .vfwiden _ _ _ _ => true
  | .vfnarrow _ _ _ _ => true
  | .vswiden _ _ _ _ => true
  | .vzwiden _ _ _ _ => true
  | .vtrunc _ _ _ _ _ => true
  | .vredsum _ _ _ _ _ _ => true
  | .vredmax _ _ _ _ _ _ => true
  | .vredmin _ _ _ _ _ _ => true
  | .vredmaxn _ _ _ _ _ _ => true
  | .vredminn _ _ _ _ _ _ => true
  | .vfredsum _ _ _ _ _ _ => true
  | .vfredmax _ _ _ _ _ _ => true
  | .vfredmin _ _ _ _ _ _ => true
  | .vgatherr _ _ _ _ _ _ => true
  | .vslideup _ _ _ _ _ => true
  | .vslidedn _ _ _ _ _ => true
  | .vcompress _ _ _ _ => true
  | .vexpand _ _ _ _ => true
  | .viota _ _ => true
  | .vscan _ _ _ _ => true
  | .vbcast _ _ _ _ _ => true
  | .vunpackb _ _ _ _ _ => true
  | .vtbl _ _ _ _ _ _ => true
  | .vrand _ _ _ _ => true
  | .vmovgv _ _ _ => true
  | .vmovvg _ _ _ _ => true
  | .planset p _ => p.toNat < 8
  | .planget _ p => p.toNat < 8
  | .vgchk d _ p _ _ => d.toNat < 24 && p.toNat < 8
  | .vpack _ _ _ _ _ => true
  | .vpackB _ _ _ _ _ => true
  | .vconv _ _ _ _ _ _ _ => true
  | .vxtr _ _ _ _ _ _ => true
  | .vld _ _ _ _ => true
  | .vldff _ _ _ _ => true
  | .vlds _ _ _ _ _ => true
  | .vldx _ _ _ _ _ _ => true
  | .vst _ _ _ _ _ => true
  | .vstn _ _ _ _ _ => true
  | .vsts _ _ _ _ _ _ => true
  | .vstx _ _ _ _ _ _ => true
  | .vldbp _ _ _ _ => true
  | .vstbp _ _ _ _ _ => true
  | .vspill _ _ => true
  | .vrefill _ _ => true
  | .vamoAdd _ _ _ _ _ => true
  | .vamoAnd _ _ _ _ _ => true
  | .vamoOr _ _ _ _ _ => true
  | .vamoXor _ _ _ _ _ => true
  | .vamoMin _ _ _ _ _ => true
  | .vamoMax _ _ _ _ _ => true
  | .vamoSwap _ _ _ _ _ => true
  | .strmdef _ _ => true
  | .strmend _ => true
  | .copy _ _ => true
  | .evpop _ => true
  | .gangbind _ _ _ => true
  | .gangfree => true
  | .vplane _ _ n _ _ => 1 ≤ n.toNat && n.toNat ≤ 8
  | .vtoplane _ _ _ _ => true
  | .vqscale _ _ _ _ _ => true
  | .vnarrow _ _ _ _ => true
  | .vdeq _ _ n _ _ => 1 ≤ n.toNat && n.toNat ≤ 8
  | .pref _ _ _ => true
  | .land _ _ _ => true
  | .pause _ _ _ => true
  | .grantq _ _ _ => true
  | .hintNop _ _ _ f => f.toNat != 0 && f.toNat != 1 && f.toNat != 2 && f.toNat != 4
  | .cAddi d i => d.toNat != 0 || i.toNat != 0
  | .cMv _ _ => true
  | .cAdd _ _ => true
  | .cSub _ _ => true
  | .cAnd _ _ => true
  | .cOr _ _ => true
  | .cXor _ _ => true
  | .cSll _ _ => true
  | .cSra _ _ => true
  | .cLd _ _ _ => true
  | .cSt _ _ _ => true
  | .cJ _ => true
  | .cBeqz _ _ => true
  | .cBnez _ _ => true
  | .cJr s => s.toNat != 0
  | .cVadd _ _ => true
  | .cVsub _ _ => true
  | .cVmul _ _ => true
  | .cVfadd _ _ => true
  | .cVfmul _ _ => true
  | .cVffma _ _ => true
  | .cVmax _ _ => true
  | .cVfmax _ _ => true
  | .cVaddX _ _ => true
  | .cVsubX _ _ => true
  | .cVmulX _ _ => true
  | .cVfaddX _ _ => true
  | .cVfmulX _ _ => true
  | .cVffmaX _ _ => true
  | .cVmaxX _ _ => true
  | .cVfmaxX _ _ => true
  | .tshape _ _ _ _ => true
  | .twin _ _ => true
  | .tzero _ => true
  | .tmma _ _ sa _ sb ta tb pa pb ea eb => tileTypeOk ta pa && tileTypeOk tb pb && (sa == 0 || ea == 0) && (sb == 0 || eb == 0)
  | .tlda _ _ sa b t raw sm gm => tileMemOk sa b t raw sm gm
  | .tsta _ _ sa b t raw sm gm => tileMemOk sa b t raw sm gm
  | .tadd _ _ => true
  | .tsync => true
  | .tgang _ _ => true
  | .csrWrite csr _ _ => csrPlain csr
  | .vtypeWrite _ _ => true
  | .lpartWrite _ _ => true
  | .preq _ _ => true
  | .cplogWrite _ _ => true
  | .trctlWrite _ _ => true
  | .atollWrite _ _ => true
  | .dbgctlStop _ _ => true
  | .dbgctlGo _ _ => true
  | .clusterFrozen _ => true
  | .dumpctlGo _ _ => true
  | .dumpComplete => true
  | .preemption _ _ => true
  | .waitTimeout _ => true
  | .barDeparture _ => true
  | .waitaWake _ => true
  | .chwaitReturn _ => true
  | .qpopWake _ => true
  | .qpushReply _ _ => true
  | .tsyncReturn _ => true
  | .copyChannelRoom _ => true
  | .gangFormed _ _ => true
  | .vacqGrant _ => true
  | .ctxloadGrant _ => true
  | .wfiWake _ => true
  | .registerWaitEnd _ => true
  | .producerArrival _ _ => true
  | .vectorQueueRoom _ => true
  | .pauseEnd _ => true
  | .yieldEnd _ => true
  | .laneBinding _ _ => true
  | .sequencerUnit _ => true
  | .streamPrefetch _ _ => true
  | .gangStreamFetch _ _ _ => true
  | .copyTransferStart _ _ => true
  | .copyComplete _ _ => true
  | .hartPlacement _ => true
  | .launchComplete _ _ => true
  | .launchRequest _ => true
  | .governorCapChange _ _ => true
  | .trafficCounterWrite _ => true
  | .straitBarArrival _ => true
  | .straitBarDeparture _ => true
  | .straitQueuePush _ => true
  | .straitCopyWrite _ => true
  | .straitFlitReplay _ => true
  | .straitPortLost _ => true
  | .narrowsLinkFailed _ => true
  | .hostHdmRead _ _ _ => true
  | .hostHdmWrite _ _ _ => true
  | .getEventRecords _ => true
  | .getFwInfo _ => true
  | .transferFw _ _ => true
  | .activateFw _ _ => true
  | .identifyMemoryDevice _ => true
  | .setLaunchQueue _ _ => true
  | .readSensors _ => true
  | .readLog _ _ _ => true
  | .getAttestationReport _ _ => true
  | .setFleetGroup _ _ => true
  | .sensorRefresh => true
  | .hbmPatrolScrub _ => true
  | .thermalTrip => true
  | .packageReset => true
  | .firmwareBoot => true
  | .hostLineCacheSnoop _ _ _ => true
  | .narrowsFlitReplay _ => true
  | .straitRecordFetch _ _ => true

/-- The encoding admits `i`. -/
def Instr.WellFormed (i : Instr) : Prop := i.wf = true

end Sys2Proof
end

