-- ==== Sys2Proof/Decode.lean ====
section
/-! DEFINITION. From bits to instructions and back (03 R49 to R61, 04 R64 to R68).
A number is split once into its fields; every row of the opcode table is one line of the decoder of its major, which reads
the row's fixed bits and its operands, and one line of the encoder. A field value the encoding reserves is refused by
`Instr.wf`.
Lean's compiler holds at most 244 constructors with operands apart, so what builds an `Instr` is declared noncomputable: the
kernel evaluates it, compiled code does not. -/

noncomputable section

namespace Sys2Proof

/-- The number of parcels an instruction has, from bits [15:13] of parcel 0 (R49, Table 3-1). -/
def parcelCount (p0 : Nat) : Nat :=
  if p0 / 0x2000 % 8 ≤ 5 then 1 else if p0 / 0x2000 % 8 = 6 then 2 else 4

/-- Major 0x00 (Table 4-1). -/
def dec00 (d' a' b' fn' : Nat) : Option Instr :=
  if fn' = 0 then
    some (.add (.ofNat 5 (d')) (.ofNat 5 (a')) (.ofNat 5 (b')))
  else if fn' = 1 then
    some (.sub (.ofNat 5 (d')) (.ofNat 5 (a')) (.ofNat 5 (b')))
  else if fn' = 2 then
    some (.and (.ofNat 5 (d')) (.ofNat 5 (a')) (.ofNat 5 (b')))
  else if fn' = 3 then
    some (.or (.ofNat 5 (d')) (.ofNat 5 (a')) (.ofNat 5 (b')))
  else if fn' = 4 then
    some (.xor (.ofNat 5 (d')) (.ofNat 5 (a')) (.ofNat 5 (b')))
  else if fn' = 5 then
    some (.andn (.ofNat 5 (d')) (.ofNat 5 (a')) (.ofNat 5 (b')))
  else if fn' = 6 then
    some (.sll (.ofNat 5 (d')) (.ofNat 5 (a')) (.ofNat 5 (b')))
  else if fn' = 7 then
    some (.srl (.ofNat 5 (d')) (.ofNat 5 (a')) (.ofNat 5 (b')))
  else if fn' = 8 then
    some (.sra (.ofNat 5 (d')) (.ofNat 5 (a')) (.ofNat 5 (b')))
  else if fn' = 9 then
    some (.slt (.ofNat 5 (d')) (.ofNat 5 (a')) (.ofNat 5 (b')))
  else if fn' = 10 then
    some (.sltn (.ofNat 5 (d')) (.ofNat 5 (a')) (.ofNat 5 (b')))
  else if fn' = 11 then
    some (.min (.ofNat 5 (d')) (.ofNat 5 (a')) (.ofNat 5 (b')))
  else if fn' = 12 then
    some (.max (.ofNat 5 (d')) (.ofNat 5 (a')) (.ofNat 5 (b')))
  else if fn' = 13 then
    some (.minn (.ofNat 5 (d')) (.ofNat 5 (a')) (.ofNat 5 (b')))
  else if fn' = 14 then
    some (.maxn (.ofNat 5 (d')) (.ofNat 5 (a')) (.ofNat 5 (b')))
  else if fn' = 16 then
    some (.mul (.ofNat 5 (d')) (.ofNat 5 (a')) (.ofNat 5 (b')))
  else if fn' = 17 then
    some (.mulh (.ofNat 5 (d')) (.ofNat 5 (a')) (.ofNat 5 (b')))
  else if fn' = 18 then
    some (.mulhn (.ofNat 5 (d')) (.ofNat 5 (a')) (.ofNat 5 (b')))
  else if fn' = 19 then
    some (.div (.ofNat 5 (d')) (.ofNat 5 (a')) (.ofNat 5 (b')))
  else if fn' = 20 then
    some (.divn (.ofNat 5 (d')) (.ofNat 5 (a')) (.ofNat 5 (b')))
  else if fn' = 21 then
    some (.rem (.ofNat 5 (d')) (.ofNat 5 (a')) (.ofNat 5 (b')))
  else if fn' = 22 then
    some (.remn (.ofNat 5 (d')) (.ofNat 5 (a')) (.ofNat 5 (b')))
  else if b' = 0 ∧ fn' = 24 then
    some (.clz (.ofNat 5 (d')) (.ofNat 5 (a')))
  else if b' = 0 ∧ fn' = 25 then
    some (.popc (.ofNat 5 (d')) (.ofNat 5 (a')))
  else if fn' = 26 then
    some (.sext (.ofNat 5 (d')) (.ofNat 5 (a')) (.ofNat 5 (b')))
  else if fn' = 27 then
    some (.zext (.ofNat 5 (d')) (.ofNat 5 (a')) (.ofNat 5 (b')))
  else none

/-- Major 0x01 (Table 4-1). -/
def dec01 (d' a' b' fn' : Nat) : Option Instr :=
  some (.addi (.ofNat 5 (d')) (.ofNat 5 (a')) (.ofNat 13 (b' * 256 + fn')))

/-- Major 0x02 (Table 4-1). -/
def dec02 (d' a' b' fn' : Nat) : Option Instr :=
  if b' / 8 = 0 then
    some (.andi (.ofNat 5 (d')) (.ofNat 5 (a')) (.ofNat 11 (b' % 8 * 256 + fn')))
  else if b' / 8 = 1 then
    some (.ori (.ofNat 5 (d')) (.ofNat 5 (a')) (.ofNat 11 (b' % 8 * 256 + fn')))
  else if b' / 8 = 2 then
    some (.xori (.ofNat 5 (d')) (.ofNat 5 (a')) (.ofNat 11 (b' % 8 * 256 + fn')))
  else none

/-- Major 0x03 (Table 4-1). -/
def dec03 (d' a' b' fn' : Nat) : Option Instr :=
  if b' / 16 = 0 then
    some (.slti (.ofNat 5 (d')) (.ofNat 5 (a')) (.ofNat 12 (b' % 16 * 256 + fn')))
  else if b' / 16 = 1 then
    some (.sltni (.ofNat 5 (d')) (.ofNat 5 (a')) (.ofNat 12 (b' % 16 * 256 + fn')))
  else none

/-- Major 0x04 (Table 4-1). -/
def dec04 (d' a' b' fn' : Nat) : Option Instr :=
  if b' = 0 ∧ fn' / 64 = 0 then
    some (.slli (.ofNat 5 (d')) (.ofNat 5 (a')) (.ofNat 6 (fn' % 64)))
  else if b' = 8 ∧ fn' / 64 = 0 then
    some (.srli (.ofNat 5 (d')) (.ofNat 5 (a')) (.ofNat 6 (fn' % 64)))
  else if b' = 16 ∧ fn' / 64 = 0 then
    some (.srai (.ofNat 5 (d')) (.ofNat 5 (a')) (.ofNat 6 (fn' % 64)))
  else none

/-- Major 0x05 (Table 4-1). -/
def dec05 (d' a' b' fn' : Nat) : Option Instr :=
  some (.lih (.ofNat 5 (d')) (.ofNat 18 (a' * 8192 + b' * 256 + fn')))

/-- Major 0x06 (Table 4-1). -/
def dec06 (d' a' b' fn' : Nat) : Option Instr :=
  some (.addpc (.ofNat 5 (d')) (.ofNat 18 (a' * 8192 + b' * 256 + fn')))

/-- Major 0x07 (Table 4-1). -/
def dec07 (d' a' b' fn' : Nat) : Option Instr :=
  if d' / 2 = 0 ∧ b' % 2 = 0 ∧ fn' / 16 = 0 then
    some (.xform (.ofNat 5 (d' % 2 * 16 + a' / 2)) (.ofNat 5 (a' % 2 * 16 + b' / 2)) (.ofNat 3 (fn' / 2 % 8)) (.ofNat 1 (fn' % 2)))
  else if d' / 2 = 1 ∧ b' % 2 = 0 ∧ fn' = 0 then
    some (.xshift (.ofNat 5 (d' % 2 * 16 + a' / 2)) (.ofNat 5 (a' % 2 * 16 + b' / 2)))
  else if d' / 2 = 2 ∧ b' % 2 = 0 ∧ fn' = 0 then
    some (.xtoloc (.ofNat 5 (d' % 2 * 16 + a' / 2)) (.ofNat 5 (a' % 2 * 16 + b' / 2)))
  else if d' / 2 = 3 ∧ b' % 2 = 0 ∧ fn' = 0 then
    some (.xlshift (.ofNat 5 (d' % 2 * 16 + a' / 2)) (.ofNat 5 (a' % 2 * 16 + b' / 2)))
  else if d' / 2 = 4 then
    some (.xeval (.ofNat 5 (d' % 2 * 16 + a' / 2)) (.ofNat 5 (a' % 2 * 16 + b' / 2)) (.ofNat 5 (b' % 2 * 16 + fn' / 16)) (.ofNat 3 (fn' / 2 % 8)) (.ofNat 1 (fn' % 2)))
  else if d' / 2 = 5 then
    some (.xadmit (.ofNat 5 (d' % 2 * 16 + a' / 2)) (.ofNat 5 (a' % 2 * 16 + b' / 2)) (.ofNat 5 (b' % 2 * 16 + fn' / 16)) (.ofNat 3 (fn' / 2 % 8)) (.ofNat 1 (fn' % 2)))
  else if d' / 2 = 6 then
    some (.xdirect (.ofNat 5 (d' % 2 * 16 + a' / 2)) (.ofNat 5 (a' % 2 * 16 + b' / 2)) (.ofNat 5 (b' % 2 * 16 + fn' / 16)) (.ofNat 3 (fn' / 2 % 8)) (.ofNat 1 (fn' % 2)))
  else if d' / 2 = 7 ∧ b' % 2 = 0 ∧ fn' = 0 then
    some (.xld (.ofNat 5 (d' % 2 * 16 + a' / 2)) (.ofNat 5 (a' % 2 * 16 + b' / 2)))
  else if d' / 2 = 8 ∧ b' % 2 = 0 ∧ fn' = 0 then
    some (.xst (.ofNat 5 (d' % 2 * 16 + a' / 2)) (.ofNat 5 (a' % 2 * 16 + b' / 2)))
  else if d' / 2 = 9 ∧ fn' % 16 = 0 then
    some (.xzero (.ofNat 5 (d' % 2 * 16 + a' / 2)) (.ofNat 5 (a' % 2 * 16 + b' / 2)) (.ofNat 5 (b' % 2 * 16 + fn' / 16)))
  else if d' / 2 = 10 ∧ b' % 2 = 0 ∧ fn' = 0 then
    some (.xord (.ofNat 5 (d' % 2 * 16 + a' / 2)) (.ofNat 5 (a' % 2 * 16 + b' / 2)))
  else if d' / 2 = 11 then
    some (.xevalg (.ofNat 5 (d' % 2 * 16 + a' / 2)) (.ofNat 5 (a' % 2 * 16 + b' / 2)) (.ofNat 5 (b' % 2 * 16 + fn' / 16)) (.ofNat 3 (fn' / 2 % 8)) (.ofNat 1 (fn' % 2)))
  else none

/-- Major 0x08 (Table 4-1). -/
def dec08 (d' a' b' fn' : Nat) : Option Instr :=
  if fn' = 0 then
    some (.fadd (.ofNat 5 (d')) (.ofNat 5 (a')) (.ofNat 5 (b')))
  else if fn' = 1 then
    some (.fsub (.ofNat 5 (d')) (.ofNat 5 (a')) (.ofNat 5 (b')))
  else if fn' = 2 then
    some (.fmul (.ofNat 5 (d')) (.ofNat 5 (a')) (.ofNat 5 (b')))
  else if fn' = 3 then
    some (.fdiv (.ofNat 5 (d')) (.ofNat 5 (a')) (.ofNat 5 (b')))
  else if b' = 0 ∧ fn' = 4 then
    some (.fsqrt (.ofNat 5 (d')) (.ofNat 5 (a')))
  else if fn' = 5 then
    some (.fmin (.ofNat 5 (d')) (.ofNat 5 (a')) (.ofNat 5 (b')))
  else if fn' = 6 then
    some (.fmax (.ofNat 5 (d')) (.ofNat 5 (a')) (.ofNat 5 (b')))
  else if fn' = 8 then
    some (.feq (.ofNat 5 (d')) (.ofNat 5 (a')) (.ofNat 5 (b')))
  else if fn' = 9 then
    some (.flt (.ofNat 5 (d')) (.ofNat 5 (a')) (.ofNat 5 (b')))
  else if fn' = 10 then
    some (.fle (.ofNat 5 (d')) (.ofNat 5 (a')) (.ofNat 5 (b')))
  else if b' = 0 ∧ fn' = 12 then
    some (.fcvtFS (.ofNat 5 (d')) (.ofNat 5 (a')))
  else if b' = 0 ∧ fn' = 13 then
    some (.fcvtSF (.ofNat 5 (d')) (.ofNat 5 (a')))
  else if b' = 0 ∧ fn' = 14 then
    some (.fcvtFH (.ofNat 5 (d')) (.ofNat 5 (a')))
  else if b' = 1 ∧ fn' = 14 then
    some (.fcvtFBf (.ofNat 5 (d')) (.ofNat 5 (a')))
  else if b' = 0 ∧ fn' = 15 then
    some (.fcvtHF (.ofNat 5 (d')) (.ofNat 5 (a')))
  else if b' = 1 ∧ fn' = 15 then
    some (.fcvtBfF (.ofNat 5 (d')) (.ofNat 5 (a')))
  else if b' = 0 ∧ fn' = 16 then
    some (.fclass (.ofNat 5 (d')) (.ofNat 5 (a')))
  else none

/-- Major 0x09 (Table 4-1). -/
def dec09 (d' a' b' fn' : Nat) : Option Instr :=
  if fn' % 8 = 0 then
    some (.ffma (.ofNat 5 (d')) (.ofNat 5 (a')) (.ofNat 5 (b')) (.ofNat 5 (fn' / 8)))
  else if fn' % 8 = 1 then
    some (.ffms (.ofNat 5 (d')) (.ofNat 5 (a')) (.ofNat 5 (b')) (.ofNat 5 (fn' / 8)))
  else if fn' % 8 = 2 then
    some (.fnma (.ofNat 5 (d')) (.ofNat 5 (a')) (.ofNat 5 (b')) (.ofNat 5 (fn' / 8)))
  else if fn' % 8 = 3 then
    some (.fnms (.ofNat 5 (d')) (.ofNat 5 (a')) (.ofNat 5 (b')) (.ofNat 5 (fn' / 8)))
  else none

/-- Major 0x0A (Table 4-1). -/
def dec0A (d' a' b' fn' : Nat) : Option Instr :=
  some (.beq (.ofNat 5 (d')) (.ofNat 5 (a')) (.ofNat 13 (b' * 256 + fn')))

/-- Major 0x0B (Table 4-1). -/
def dec0B (d' a' b' fn' : Nat) : Option Instr :=
  some (.bne (.ofNat 5 (d')) (.ofNat 5 (a')) (.ofNat 13 (b' * 256 + fn')))

/-- Major 0x0C (Table 4-1). -/
def dec0C (d' a' b' fn' : Nat) : Option Instr :=
  some (.blt (.ofNat 5 (d')) (.ofNat 5 (a')) (.ofNat 13 (b' * 256 + fn')))

/-- Major 0x0D (Table 4-1). -/
def dec0D (d' a' b' fn' : Nat) : Option Instr :=
  some (.bge (.ofNat 5 (d')) (.ofNat 5 (a')) (.ofNat 13 (b' * 256 + fn')))

/-- Major 0x0E (Table 4-1). -/
def dec0E (d' a' b' fn' : Nat) : Option Instr :=
  some (.bltn (.ofNat 5 (d')) (.ofNat 5 (a')) (.ofNat 13 (b' * 256 + fn')))

/-- Major 0x0F (Table 4-1). -/
def dec0F (d' a' b' fn' : Nat) : Option Instr :=
  some (.bgen (.ofNat 5 (d')) (.ofNat 5 (a')) (.ofNat 13 (b' * 256 + fn')))

/-- Major 0x10 (Table 4-1). -/
def dec10 (d' a' b' fn' : Nat) : Option Instr :=
  some (.jal (.ofNat 5 (d')) (.ofNat 18 (a' * 8192 + b' * 256 + fn')))

/-- Major 0x11 (Table 4-1). -/
def dec11 (d' a' b' fn' : Nat) : Option Instr :=
  some (.jalr (.ofNat 5 (d')) (.ofNat 5 (a')) (.ofNat 13 (b' * 256 + fn')))

/-- Major 0x12 (Table 4-1). -/
def dec12 (d' a' b' fn' : Nat) : Option Instr :=
  some (.lds (.ofNat 5 (d')) (.ofNat 5 (a')) (.ofNat 3 (b' / 4)) (.ofNat 10 (b' % 4 * 256 + fn')))

/-- Major 0x13 (Table 4-1). -/
def dec13 (d' a' b' fn' : Nat) : Option Instr :=
  some (.sts (.ofNat 5 (d')) (.ofNat 5 (a')) (.ofNat 3 (b' / 4)) (.ofNat 10 (b' % 4 * 256 + fn')))

/-- Major 0x14 (Table 4-1). -/
def dec14 (d' a' b' fn' : Nat) : Option Instr :=
  if b' = 0 then
    some (.ldo (.ofNat 5 (d')) (.ofNat 5 (a')) (.ofNat 2 (fn' / 64)) (.ofNat 3 (fn' / 8 % 8)) (.ofNat 3 (fn' % 8)))
  else none

/-- Major 0x15 (Table 4-1). -/
def dec15 (d' a' b' fn' : Nat) : Option Instr :=
  if d' = 0 then
    some (.sto (.ofNat 5 (a')) (.ofNat 5 (b')) (.ofNat 2 (fn' / 64)) (.ofNat 3 (fn' / 8 % 8)) (.ofNat 3 (fn' % 8)))
  else none

/-- Major 0x16 (Table 4-1). -/
def dec16 (d' a' b' fn' : Nat) : Option Instr :=
  if fn' % 8 = 0 then
    some (.amoAdd (.ofNat 5 (d')) (.ofNat 5 (a')) (.ofNat 5 (b')) (.ofNat 2 (fn' / 64)) (.ofNat 3 (fn' / 8 % 8)))
  else if fn' % 8 = 1 then
    some (.amoAnd (.ofNat 5 (d')) (.ofNat 5 (a')) (.ofNat 5 (b')) (.ofNat 2 (fn' / 64)) (.ofNat 3 (fn' / 8 % 8)))
  else if fn' % 8 = 2 then
    some (.amoOr (.ofNat 5 (d')) (.ofNat 5 (a')) (.ofNat 5 (b')) (.ofNat 2 (fn' / 64)) (.ofNat 3 (fn' / 8 % 8)))
  else if fn' % 8 = 3 then
    some (.amoXor (.ofNat 5 (d')) (.ofNat 5 (a')) (.ofNat 5 (b')) (.ofNat 2 (fn' / 64)) (.ofNat 3 (fn' / 8 % 8)))
  else if fn' % 8 = 4 then
    some (.amoMin (.ofNat 5 (d')) (.ofNat 5 (a')) (.ofNat 5 (b')) (.ofNat 2 (fn' / 64)) (.ofNat 3 (fn' / 8 % 8)))
  else if fn' % 8 = 5 then
    some (.amoMax (.ofNat 5 (d')) (.ofNat 5 (a')) (.ofNat 5 (b')) (.ofNat 2 (fn' / 64)) (.ofNat 3 (fn' / 8 % 8)))
  else if fn' % 8 = 6 then
    some (.amoSwap (.ofNat 5 (d')) (.ofNat 5 (a')) (.ofNat 5 (b')) (.ofNat 2 (fn' / 64)) (.ofNat 3 (fn' / 8 % 8)))
  else if fn' % 8 = 7 then
    some (.amoCas (.ofNat 5 (d')) (.ofNat 5 (a')) (.ofNat 5 (b')) (.ofNat 2 (fn' / 64)) (.ofNat 3 (fn' / 8 % 8)))
  else none

/-- Major 0x17 (Table 4-1). -/
def dec17 (d' a' b' fn' : Nat) : Option Instr :=
  if fn' % 8 = 0 then
    some (.amowAdd (.ofNat 5 (d')) (.ofNat 5 (a')) (.ofNat 5 (b')) (.ofNat 2 (fn' / 64)) (.ofNat 3 (fn' / 8 % 8)))
  else if fn' % 8 = 1 then
    some (.amowAnd (.ofNat 5 (d')) (.ofNat 5 (a')) (.ofNat 5 (b')) (.ofNat 2 (fn' / 64)) (.ofNat 3 (fn' / 8 % 8)))
  else if fn' % 8 = 2 then
    some (.amowOr (.ofNat 5 (d')) (.ofNat 5 (a')) (.ofNat 5 (b')) (.ofNat 2 (fn' / 64)) (.ofNat 3 (fn' / 8 % 8)))
  else if fn' % 8 = 3 then
    some (.amowXor (.ofNat 5 (d')) (.ofNat 5 (a')) (.ofNat 5 (b')) (.ofNat 2 (fn' / 64)) (.ofNat 3 (fn' / 8 % 8)))
  else if fn' % 8 = 4 then
    some (.amowMin (.ofNat 5 (d')) (.ofNat 5 (a')) (.ofNat 5 (b')) (.ofNat 2 (fn' / 64)) (.ofNat 3 (fn' / 8 % 8)))
  else if fn' % 8 = 5 then
    some (.amowMax (.ofNat 5 (d')) (.ofNat 5 (a')) (.ofNat 5 (b')) (.ofNat 2 (fn' / 64)) (.ofNat 3 (fn' / 8 % 8)))
  else if fn' % 8 = 6 then
    some (.amowSwap (.ofNat 5 (d')) (.ofNat 5 (a')) (.ofNat 5 (b')) (.ofNat 2 (fn' / 64)) (.ofNat 3 (fn' / 8 % 8)))
  else if fn' % 8 = 7 then
    some (.amowCas (.ofNat 5 (d')) (.ofNat 5 (a')) (.ofNat 5 (b')) (.ofNat 2 (fn' / 64)) (.ofNat 3 (fn' / 8 % 8)))
  else none

/-- Major 0x18 (Table 4-1). -/
def dec18 (d' a' b' fn' : Nat) : Option Instr :=
  if d' = 0 ∧ a' = 0 ∧ b' = 0 ∧ fn' % 8 = 0 then
    some (.fence (.ofNat 2 (fn' / 64)) (.ofNat 3 (fn' / 8 % 8)))
  else none

/-- Major 0x19 (Table 4-1). -/
def dec19 (d' a' b' fn' : Nat) : Option Instr :=
  if a' = 0 ∧ b' / 8 = 0 then
    some (.csrrd (.ofNat 5 (d')) (.ofNat 11 (b' % 8 * 256 + fn')))
  else if b' / 8 = 1 then
    some (.csrwr (.ofNat 5 (d')) (.ofNat 5 (a')) (.ofNat 11 (b' % 8 * 256 + fn')))
  else if b' / 8 = 2 then
    some (.csrset (.ofNat 5 (d')) (.ofNat 5 (a')) (.ofNat 11 (b' % 8 * 256 + fn')))
  else if b' / 8 = 3 then
    some (.csrclr (.ofNat 5 (d')) (.ofNat 5 (a')) (.ofNat 11 (b' % 8 * 256 + fn')))
  else none

/-- Major 0x1A (Table 4-1). -/
def dec1A (d' a' b' fn' : Nat) : Option Instr :=
  if a' = 0 ∧ b' = 0 ∧ fn' = 0 then
    some (.strip (.ofNat 5 (d')))
  else if b' = 0 ∧ fn' = 1 then
    some (.vsettype (.ofNat 5 (d')) (.ofNat 5 (a')))
  else if fn' = 8 then
    some (.limlt (.ofNat 5 (d')) (.ofNat 5 (a')) (.ofNat 5 (b')))
  else if fn' = 9 then
    some (.limle (.ofNat 5 (d')) (.ofNat 5 (a')) (.ofNat 5 (b')))
  else if fn' = 10 then
    some (.limltn (.ofNat 5 (d')) (.ofNat 5 (a')) (.ofNat 5 (b')))
  else if b' = 0 ∧ fn' = 63 then
    some (.setvl (.ofNat 5 (d')) (.ofNat 5 (a')))
  else none

/-- Major 0x1B (Table 4-1). -/
def dec1B (d' a' b' fn' : Nat) : Option Instr :=
  if fn' = 0 then
    some (.mand (.ofNat 5 (d')) (.ofNat 5 (a')) (.ofNat 5 (b')))
  else if fn' = 1 then
    some (.mor (.ofNat 5 (d')) (.ofNat 5 (a')) (.ofNat 5 (b')))
  else if fn' = 2 then
    some (.mxor (.ofNat 5 (d')) (.ofNat 5 (a')) (.ofNat 5 (b')))
  else if fn' = 3 then
    some (.mandn (.ofNat 5 (d')) (.ofNat 5 (a')) (.ofNat 5 (b')))
  else if b' = 0 ∧ fn' = 4 then
    some (.mnot (.ofNat 5 (d')) (.ofNat 5 (a')))
  else if b' = 0 ∧ fn' = 5 then
    some (.mcopy (.ofNat 5 (d')) (.ofNat 5 (a')))
  else if a' = 0 ∧ b' = 0 ∧ fn' = 6 then
    some (.mfill (.ofNat 5 (d')))
  else if a' = 0 ∧ b' = 0 ∧ fn' = 7 then
    some (.mzero (.ofNat 5 (d')))
  else if b' = 0 ∧ fn' = 8 then
    some (.mcount (.ofNat 5 (d')) (.ofNat 5 (a')))
  else if b' = 0 ∧ fn' = 9 then
    some (.mfirst (.ofNat 5 (d')) (.ofNat 5 (a')))
  else if b' = 0 ∧ fn' = 10 then
    some (.mlast (.ofNat 5 (d')) (.ofNat 5 (a')))
  else if fn' = 11 then
    some (.mfromg (.ofNat 5 (d')) (.ofNat 5 (a')) (.ofNat 5 (b')))
  else if fn' = 12 then
    some (.mtog (.ofNat 5 (d')) (.ofNat 5 (a')) (.ofNat 5 (b')))
  else none

/-- Major 0x1C (Table 4-1). -/
def dec1C (d' a' b' fn' : Nat) : Option Instr :=
  if d' = 0 ∧ a' = 0 ∧ b' = 0 ∧ fn' = 0 then
    some .ecall
  else if d' = 0 ∧ a' = 0 ∧ b' = 0 ∧ fn' = 1 then
    some .eret
  else if a' = 0 ∧ b' = 0 ∧ fn' = 2 then
    some (.wfi (.ofNat 5 (d')))
  else if d' = 0 ∧ a' = 0 ∧ b' = 0 ∧ fn' = 3 then
    some .brk
  else if d' = 0 ∧ fn' = 4 then
    some (.tlbinv (.ofNat 5 (a')) (.ofNat 5 (b')))
  else if a' = 0 ∧ b' = 0 ∧ fn' = 5 then
    some (.frqpop (.ofNat 5 (d')))
  else if d' = 0 ∧ a' = 0 ∧ b' = 0 ∧ fn' = 6 then
    some .ctxsave
  else if d' = 0 ∧ a' = 0 ∧ b' = 0 ∧ fn' = 7 then
    some .ctxload
  else none

/-- Major 0x1D (Table 4-1). -/
def dec1D (d' a' b' fn' : Nat) : Option Instr :=
  if fn' / 8 = 0 then
    some (.bar (.ofNat 5 (d')) (.ofNat 5 (a')) (.ofNat 5 (b')) (.ofNat 3 (fn' % 8)))
  else if fn' / 8 = 1 then
    some (.waita (.ofNat 5 (d')) (.ofNat 5 (a')) (.ofNat 5 (b')) (.ofNat 3 (fn' % 8)))
  else if b' = 0 ∧ fn' = 16 then
    some (.chwait (.ofNat 5 (d')) (.ofNat 5 (a')))
  else if fn' = 16 then
    some (.chwaitId (.ofNat 5 (d')) (.ofNat 5 (a')) (.ofNat 5 (b')))
  else if fn' = 24 then
    some (.qpush (.ofNat 5 (d')) (.ofNat 5 (a')) (.ofNat 5 (b')))
  else if b' = 0 ∧ fn' = 33 then
    some (.qpop (.ofNat 5 (d')) (.ofNat 5 (a')))
  else if b' = 0 ∧ fn' = 32 then
    some (.qpopNb (.ofNat 5 (d')) (.ofNat 5 (a')))
  else if b' = 0 ∧ fn' = 40 then
    some (.launch (.ofNat 5 (d')) (.ofNat 5 (a')))
  else if d' = 0 ∧ a' = 0 ∧ b' = 0 ∧ fn' = 48 then
    some .yield
  else if d' = 0 ∧ a' = 0 ∧ b' = 0 ∧ fn' = 56 then
    some .exit
  else if fn' = 248 then
    some (.barg (.ofNat 5 (d')) (.ofNat 5 (a')) (.ofNat 5 (b')))
  else none

/-- Major 0x1E (Table 4-1). -/
def dec1E (d' a' b' fn' : Nat) : Option Instr :=
  if b' = 0 ∧ fn' = 0 then
    some (.vacq (.ofNat 5 (d')) (.ofNat 5 (a')))
  else if b' = 0 ∧ fn' = 1 then
    some (.vacqFail (.ofNat 5 (d')) (.ofNat 5 (a')))
  else if b' = 0 ∧ fn' = 2 then
    some (.vacqTile (.ofNat 5 (d')) (.ofNat 5 (a')))
  else if b' = 0 ∧ fn' = 3 then
    some (.vacqTileFail (.ofNat 5 (d')) (.ofNat 5 (a')))
  else if d' = 0 ∧ b' = 0 ∧ fn' = 8 then
    some (.vrel (.ofNat 5 (a')))
  else if fn' = 16 then
    some (.cpread (.ofNat 5 (d')) (.ofNat 5 (a')) (.ofNat 5 (b')))
  else if a' = 0 ∧ b' = 0 ∧ fn' = 24 then
    some (.cpmark (.ofNat 5 (d')))
  else none

/-- Major 0x20 (Table 4-1). -/
def dec20 (d' a' b' fn' : Nat) : Option Instr :=
  if fn' % 8 = 0 then
    some (.vadd (.ofNat 5 (d')) (.ofNat 5 (a')) (.ofNat 5 (b')) (.ofNat 3 (fn' / 32)) (.ofNat 1 (fn' / 16 % 2)) (.ofNat 1 (fn' / 8 % 2)))
  else if fn' % 8 = 1 then
    some (.vsub (.ofNat 5 (d')) (.ofNat 5 (a')) (.ofNat 5 (b')) (.ofNat 3 (fn' / 32)) (.ofNat 1 (fn' / 16 % 2)) (.ofNat 1 (fn' / 8 % 2)))
  else if fn' % 8 = 2 then
    some (.vmul (.ofNat 5 (d')) (.ofNat 5 (a')) (.ofNat 5 (b')) (.ofNat 3 (fn' / 32)) (.ofNat 1 (fn' / 16 % 2)) (.ofNat 1 (fn' / 8 % 2)))
  else if fn' % 8 = 3 then
    some (.vmulh (.ofNat 5 (d')) (.ofNat 5 (a')) (.ofNat 5 (b')) (.ofNat 3 (fn' / 32)) (.ofNat 1 (fn' / 16 % 2)) (.ofNat 1 (fn' / 8 % 2)))
  else if fn' % 8 = 4 then
    some (.vmin (.ofNat 5 (d')) (.ofNat 5 (a')) (.ofNat 5 (b')) (.ofNat 3 (fn' / 32)) (.ofNat 1 (fn' / 16 % 2)) (.ofNat 1 (fn' / 8 % 2)))
  else if fn' % 8 = 5 then
    some (.vmax (.ofNat 5 (d')) (.ofNat 5 (a')) (.ofNat 5 (b')) (.ofNat 3 (fn' / 32)) (.ofNat 1 (fn' / 16 % 2)) (.ofNat 1 (fn' / 8 % 2)))
  else if fn' % 8 = 6 then
    some (.vminn (.ofNat 5 (d')) (.ofNat 5 (a')) (.ofNat 5 (b')) (.ofNat 3 (fn' / 32)) (.ofNat 1 (fn' / 16 % 2)) (.ofNat 1 (fn' / 8 % 2)))
  else if fn' % 8 = 7 then
    some (.vmaxn (.ofNat 5 (d')) (.ofNat 5 (a')) (.ofNat 5 (b')) (.ofNat 3 (fn' / 32)) (.ofNat 1 (fn' / 16 % 2)) (.ofNat 1 (fn' / 8 % 2)))
  else none

/-- Major 0x21 (Table 4-1). -/
def dec21 (d' a' b' fn' : Nat) : Option Instr :=
  if fn' % 8 = 0 then
    some (.vand (.ofNat 5 (d')) (.ofNat 5 (a')) (.ofNat 5 (b')) (.ofNat 3 (fn' / 32)) (.ofNat 1 (fn' / 16 % 2)) (.ofNat 1 (fn' / 8 % 2)))
  else if fn' % 8 = 1 then
    some (.vor (.ofNat 5 (d')) (.ofNat 5 (a')) (.ofNat 5 (b')) (.ofNat 3 (fn' / 32)) (.ofNat 1 (fn' / 16 % 2)) (.ofNat 1 (fn' / 8 % 2)))
  else if fn' % 8 = 2 then
    some (.vxor (.ofNat 5 (d')) (.ofNat 5 (a')) (.ofNat 5 (b')) (.ofNat 3 (fn' / 32)) (.ofNat 1 (fn' / 16 % 2)) (.ofNat 1 (fn' / 8 % 2)))
  else if fn' % 8 = 3 then
    some (.vandn (.ofNat 5 (d')) (.ofNat 5 (a')) (.ofNat 5 (b')) (.ofNat 3 (fn' / 32)) (.ofNat 1 (fn' / 16 % 2)) (.ofNat 1 (fn' / 8 % 2)))
  else if fn' % 8 = 4 then
    some (.vsll (.ofNat 5 (d')) (.ofNat 5 (a')) (.ofNat 5 (b')) (.ofNat 3 (fn' / 32)) (.ofNat 1 (fn' / 16 % 2)) (.ofNat 1 (fn' / 8 % 2)))
  else if fn' % 8 = 5 then
    some (.vsrl (.ofNat 5 (d')) (.ofNat 5 (a')) (.ofNat 5 (b')) (.ofNat 3 (fn' / 32)) (.ofNat 1 (fn' / 16 % 2)) (.ofNat 1 (fn' / 8 % 2)))
  else if fn' % 8 = 6 then
    some (.vsra (.ofNat 5 (d')) (.ofNat 5 (a')) (.ofNat 5 (b')) (.ofNat 3 (fn' / 32)) (.ofNat 1 (fn' / 16 % 2)) (.ofNat 1 (fn' / 8 % 2)))
  else if fn' % 8 = 7 then
    some (.vmerge (.ofNat 5 (d')) (.ofNat 5 (a')) (.ofNat 5 (b')) (.ofNat 3 (fn' / 32)) (.ofNat 1 (fn' / 16 % 2)) (.ofNat 1 (fn' / 8 % 2)))
  else none

/-- Major 0x22 (Table 4-1). -/
def dec22 (d' a' b' fn' : Nat) : Option Instr :=
  if fn' % 8 = 0 then
    some (.vsadd (.ofNat 5 (d')) (.ofNat 5 (a')) (.ofNat 5 (b')) (.ofNat 3 (fn' / 32)) (.ofNat 1 (fn' / 16 % 2)) (.ofNat 1 (fn' / 8 % 2)))
  else if fn' % 8 = 1 then
    some (.vssub (.ofNat 5 (d')) (.ofNat 5 (a')) (.ofNat 5 (b')) (.ofNat 3 (fn' / 32)) (.ofNat 1 (fn' / 16 % 2)) (.ofNat 1 (fn' / 8 % 2)))
  else if fn' % 8 = 2 then
    some (.vnshr (.ofNat 5 (d')) (.ofNat 5 (a')) (.ofNat 5 (b')) (.ofNat 3 (fn' / 32)) (.ofNat 1 (fn' / 16 % 2)) (.ofNat 1 (fn' / 8 % 2)))
  else if fn' % 8 = 3 then
    some (.vwmul (.ofNat 5 (d')) (.ofNat 5 (a')) (.ofNat 5 (b')) (.ofNat 3 (fn' / 32)) (.ofNat 1 (fn' / 16 % 2)) (.ofNat 1 (fn' / 8 % 2)))
  else if fn' % 8 = 4 then
    some (.vwmac (.ofNat 5 (d')) (.ofNat 5 (a')) (.ofNat 5 (b')) (.ofNat 3 (fn' / 32)) (.ofNat 1 (fn' / 16 % 2)) (.ofNat 1 (fn' / 8 % 2)))
  else if b' = 0 ∧ fn' % 16 = 5 then
    some (.vabs (.ofNat 5 (d')) (.ofNat 5 (a')) (.ofNat 3 (fn' / 32)) (.ofNat 1 (fn' / 16 % 2)))
  else if fn' % 8 = 6 then
    some (.vmulhn (.ofNat 5 (d')) (.ofNat 5 (a')) (.ofNat 5 (b')) (.ofNat 3 (fn' / 32)) (.ofNat 1 (fn' / 16 % 2)) (.ofNat 1 (fn' / 8 % 2)))
  else if fn' % 8 = 7 then
    some (.vavg (.ofNat 5 (d')) (.ofNat 5 (a')) (.ofNat 5 (b')) (.ofNat 3 (fn' / 32)) (.ofNat 1 (fn' / 16 % 2)) (.ofNat 1 (fn' / 8 % 2)))
  else none

/-- Major 0x23 (Table 4-1). -/
def dec23 (d' a' b' fn' : Nat) : Option Instr :=
  if fn' % 16 = 0 then
    some (.vaddX (.ofNat 5 (d')) (.ofNat 5 (a')) (.ofNat 5 (b')) (.ofNat 3 (fn' / 32)) (.ofNat 1 (fn' / 16 % 2)))
  else if fn' % 16 = 1 then
    some (.vsubX (.ofNat 5 (d')) (.ofNat 5 (a')) (.ofNat 5 (b')) (.ofNat 3 (fn' / 32)) (.ofNat 1 (fn' / 16 % 2)))
  else if fn' % 16 = 2 then
    some (.vmulX (.ofNat 5 (d')) (.ofNat 5 (a')) (.ofNat 5 (b')) (.ofNat 3 (fn' / 32)) (.ofNat 1 (fn' / 16 % 2)))
  else if fn' % 16 = 3 then
    some (.vmulhX (.ofNat 5 (d')) (.ofNat 5 (a')) (.ofNat 5 (b')) (.ofNat 3 (fn' / 32)) (.ofNat 1 (fn' / 16 % 2)))
  else if fn' % 16 = 4 then
    some (.vminX (.ofNat 5 (d')) (.ofNat 5 (a')) (.ofNat 5 (b')) (.ofNat 3 (fn' / 32)) (.ofNat 1 (fn' / 16 % 2)))
  else if fn' % 16 = 5 then
    some (.vmaxX (.ofNat 5 (d')) (.ofNat 5 (a')) (.ofNat 5 (b')) (.ofNat 3 (fn' / 32)) (.ofNat 1 (fn' / 16 % 2)))
  else if fn' % 16 = 6 then
    some (.vminnX (.ofNat 5 (d')) (.ofNat 5 (a')) (.ofNat 5 (b')) (.ofNat 3 (fn' / 32)) (.ofNat 1 (fn' / 16 % 2)))
  else if fn' % 16 = 7 then
    some (.vmaxnX (.ofNat 5 (d')) (.ofNat 5 (a')) (.ofNat 5 (b')) (.ofNat 3 (fn' / 32)) (.ofNat 1 (fn' / 16 % 2)))
  else none

/-- Major 0x24 (Table 4-1). -/
def dec24 (d' a' b' fn' : Nat) : Option Instr :=
  if fn' % 16 = 0 then
    some (.vandX (.ofNat 5 (d')) (.ofNat 5 (a')) (.ofNat 5 (b')) (.ofNat 3 (fn' / 32)) (.ofNat 1 (fn' / 16 % 2)))
  else if fn' % 16 = 1 then
    some (.vorX (.ofNat 5 (d')) (.ofNat 5 (a')) (.ofNat 5 (b')) (.ofNat 3 (fn' / 32)) (.ofNat 1 (fn' / 16 % 2)))
  else if fn' % 16 = 2 then
    some (.vxorX (.ofNat 5 (d')) (.ofNat 5 (a')) (.ofNat 5 (b')) (.ofNat 3 (fn' / 32)) (.ofNat 1 (fn' / 16 % 2)))
  else if fn' % 16 = 3 then
    some (.vandnX (.ofNat 5 (d')) (.ofNat 5 (a')) (.ofNat 5 (b')) (.ofNat 3 (fn' / 32)) (.ofNat 1 (fn' / 16 % 2)))
  else if fn' % 16 = 4 then
    some (.vsllX (.ofNat 5 (d')) (.ofNat 5 (a')) (.ofNat 5 (b')) (.ofNat 3 (fn' / 32)) (.ofNat 1 (fn' / 16 % 2)))
  else if fn' % 16 = 5 then
    some (.vsrlX (.ofNat 5 (d')) (.ofNat 5 (a')) (.ofNat 5 (b')) (.ofNat 3 (fn' / 32)) (.ofNat 1 (fn' / 16 % 2)))
  else if fn' % 16 = 6 then
    some (.vsraX (.ofNat 5 (d')) (.ofNat 5 (a')) (.ofNat 5 (b')) (.ofNat 3 (fn' / 32)) (.ofNat 1 (fn' / 16 % 2)))
  else if fn' % 16 = 7 then
    some (.vmergeX (.ofNat 5 (d')) (.ofNat 5 (a')) (.ofNat 5 (b')) (.ofNat 3 (fn' / 32)) (.ofNat 1 (fn' / 16 % 2)))
  else none

/-- Major 0x25 (Table 4-1). -/
def dec25 (d' a' b' fn' : Nat) : Option Instr :=
  if fn' % 8 = 0 then
    some (.vfadd (.ofNat 5 (d')) (.ofNat 5 (a')) (.ofNat 5 (b')) (.ofNat 3 (fn' / 32)) (.ofNat 1 (fn' / 16 % 2)) (.ofNat 1 (fn' / 8 % 2)))
  else if fn' % 8 = 1 then
    some (.vfsub (.ofNat 5 (d')) (.ofNat 5 (a')) (.ofNat 5 (b')) (.ofNat 3 (fn' / 32)) (.ofNat 1 (fn' / 16 % 2)) (.ofNat 1 (fn' / 8 % 2)))
  else if fn' % 8 = 2 then
    some (.vfmul (.ofNat 5 (d')) (.ofNat 5 (a')) (.ofNat 5 (b')) (.ofNat 3 (fn' / 32)) (.ofNat 1 (fn' / 16 % 2)) (.ofNat 1 (fn' / 8 % 2)))
  else if fn' % 8 = 3 then
    some (.vfdiv (.ofNat 5 (d')) (.ofNat 5 (a')) (.ofNat 5 (b')) (.ofNat 3 (fn' / 32)) (.ofNat 1 (fn' / 16 % 2)) (.ofNat 1 (fn' / 8 % 2)))
  else if fn' % 8 = 4 then
    some (.vfmin (.ofNat 5 (d')) (.ofNat 5 (a')) (.ofNat 5 (b')) (.ofNat 3 (fn' / 32)) (.ofNat 1 (fn' / 16 % 2)) (.ofNat 1 (fn' / 8 % 2)))
  else if fn' % 8 = 5 then
    some (.vfmax (.ofNat 5 (d')) (.ofNat 5 (a')) (.ofNat 5 (b')) (.ofNat 3 (fn' / 32)) (.ofNat 1 (fn' / 16 % 2)) (.ofNat 1 (fn' / 8 % 2)))
  else if b' = 0 ∧ fn' % 16 = 6 then
    some (.vfsqrt (.ofNat 5 (d')) (.ofNat 5 (a')) (.ofNat 3 (fn' / 32)) (.ofNat 1 (fn' / 16 % 2)))
  else if b' = 0 ∧ fn' % 16 = 7 then
    some (.vfabs (.ofNat 5 (d')) (.ofNat 5 (a')) (.ofNat 3 (fn' / 32)) (.ofNat 1 (fn' / 16 % 2)))
  else none

/-- Major 0x26 (Table 4-1). -/
def dec26 (d' a' b' fn' : Nat) : Option Instr :=
  if fn' % 8 = 0 then
    some (.vffma (.ofNat 5 (d')) (.ofNat 5 (a')) (.ofNat 5 (b')) (.ofNat 3 (fn' / 32)) (.ofNat 1 (fn' / 16 % 2)) (.ofNat 1 (fn' / 8 % 2)))
  else if fn' % 8 = 1 then
    some (.vffms (.ofNat 5 (d')) (.ofNat 5 (a')) (.ofNat 5 (b')) (.ofNat 3 (fn' / 32)) (.ofNat 1 (fn' / 16 % 2)) (.ofNat 1 (fn' / 8 % 2)))
  else if fn' % 8 = 2 then
    some (.vfnma (.ofNat 5 (d')) (.ofNat 5 (a')) (.ofNat 5 (b')) (.ofNat 3 (fn' / 32)) (.ofNat 1 (fn' / 16 % 2)) (.ofNat 1 (fn' / 8 % 2)))
  else if fn' % 8 = 3 then
    some (.vfnms (.ofNat 5 (d')) (.ofNat 5 (a')) (.ofNat 5 (b')) (.ofNat 3 (fn' / 32)) (.ofNat 1 (fn' / 16 % 2)) (.ofNat 1 (fn' / 8 % 2)))
  else none

/-- Major 0x27 (Table 4-1). -/
def dec27 (d' a' b' fn' : Nat) : Option Instr :=
  if fn' % 16 = 0 then
    some (.vfaddX (.ofNat 5 (d')) (.ofNat 5 (a')) (.ofNat 5 (b')) (.ofNat 3 (fn' / 32)) (.ofNat 1 (fn' / 16 % 2)))
  else if fn' % 16 = 1 then
    some (.vfsubX (.ofNat 5 (d')) (.ofNat 5 (a')) (.ofNat 5 (b')) (.ofNat 3 (fn' / 32)) (.ofNat 1 (fn' / 16 % 2)))
  else if fn' % 16 = 2 then
    some (.vfmulX (.ofNat 5 (d')) (.ofNat 5 (a')) (.ofNat 5 (b')) (.ofNat 3 (fn' / 32)) (.ofNat 1 (fn' / 16 % 2)))
  else if fn' % 16 = 3 then
    some (.vfdivX (.ofNat 5 (d')) (.ofNat 5 (a')) (.ofNat 5 (b')) (.ofNat 3 (fn' / 32)) (.ofNat 1 (fn' / 16 % 2)))
  else if fn' % 16 = 4 then
    some (.vfminX (.ofNat 5 (d')) (.ofNat 5 (a')) (.ofNat 5 (b')) (.ofNat 3 (fn' / 32)) (.ofNat 1 (fn' / 16 % 2)))
  else if fn' % 16 = 5 then
    some (.vfmaxX (.ofNat 5 (d')) (.ofNat 5 (a')) (.ofNat 5 (b')) (.ofNat 3 (fn' / 32)) (.ofNat 1 (fn' / 16 % 2)))
  else none

/-- Major 0x28 (Table 4-1). -/
def dec28 (d' a' b' fn' : Nat) : Option Instr :=
  if fn' % 16 = 0 then
    some (.vffmaX (.ofNat 5 (d')) (.ofNat 5 (a')) (.ofNat 5 (b')) (.ofNat 3 (fn' / 32)) (.ofNat 1 (fn' / 16 % 2)))
  else if fn' % 16 = 1 then
    some (.vffmsX (.ofNat 5 (d')) (.ofNat 5 (a')) (.ofNat 5 (b')) (.ofNat 3 (fn' / 32)) (.ofNat 1 (fn' / 16 % 2)))
  else if fn' % 16 = 2 then
    some (.vfnmaX (.ofNat 5 (d')) (.ofNat 5 (a')) (.ofNat 5 (b')) (.ofNat 3 (fn' / 32)) (.ofNat 1 (fn' / 16 % 2)))
  else if fn' % 16 = 3 then
    some (.vfnmsX (.ofNat 5 (d')) (.ofNat 5 (a')) (.ofNat 5 (b')) (.ofNat 3 (fn' / 32)) (.ofNat 1 (fn' / 16 % 2)))
  else none

/-- Major 0x29 (Table 4-1). -/
def dec29 (d' a' b' fn' : Nat) : Option Instr :=
  if b' = 0 ∧ fn' % 16 = 0 then
    some (.vrcp (.ofNat 5 (d')) (.ofNat 5 (a')) (.ofNat 3 (fn' / 32)) (.ofNat 1 (fn' / 16 % 2)))
  else if b' = 0 ∧ fn' % 16 = 1 then
    some (.vrsq (.ofNat 5 (d')) (.ofNat 5 (a')) (.ofNat 3 (fn' / 32)) (.ofNat 1 (fn' / 16 % 2)))
  else if b' = 0 ∧ fn' % 16 = 2 then
    some (.vexp2 (.ofNat 5 (d')) (.ofNat 5 (a')) (.ofNat 3 (fn' / 32)) (.ofNat 1 (fn' / 16 % 2)))
  else if b' = 0 ∧ fn' % 16 = 3 then
    some (.vlog2 (.ofNat 5 (d')) (.ofNat 5 (a')) (.ofNat 3 (fn' / 32)) (.ofNat 1 (fn' / 16 % 2)))
  else none

/-- Major 0x2A (Table 4-1). -/
def dec2A (d' a' b' fn' : Nat) : Option Instr :=
  if fn' % 8 = 0 then
    some (.vcmpEq (.ofNat 5 (d')) (.ofNat 5 (a')) (.ofNat 5 (b')) (.ofNat 3 (fn' / 32)) (.ofNat 1 (fn' / 16 % 2)) (.ofNat 1 (fn' / 8 % 2)))
  else if fn' % 8 = 1 then
    some (.vcmpNe (.ofNat 5 (d')) (.ofNat 5 (a')) (.ofNat 5 (b')) (.ofNat 3 (fn' / 32)) (.ofNat 1 (fn' / 16 % 2)) (.ofNat 1 (fn' / 8 % 2)))
  else if fn' % 8 = 2 then
    some (.vcmpLt (.ofNat 5 (d')) (.ofNat 5 (a')) (.ofNat 5 (b')) (.ofNat 3 (fn' / 32)) (.ofNat 1 (fn' / 16 % 2)) (.ofNat 1 (fn' / 8 % 2)))
  else if fn' % 8 = 3 then
    some (.vcmpLe (.ofNat 5 (d')) (.ofNat 5 (a')) (.ofNat 5 (b')) (.ofNat 3 (fn' / 32)) (.ofNat 1 (fn' / 16 % 2)) (.ofNat 1 (fn' / 8 % 2)))
  else if fn' % 8 = 4 then
    some (.vcmpLtn (.ofNat 5 (d')) (.ofNat 5 (a')) (.ofNat 5 (b')) (.ofNat 3 (fn' / 32)) (.ofNat 1 (fn' / 16 % 2)) (.ofNat 1 (fn' / 8 % 2)))
  else if fn' % 8 = 5 then
    some (.vcmpLen (.ofNat 5 (d')) (.ofNat 5 (a')) (.ofNat 5 (b')) (.ofNat 3 (fn' / 32)) (.ofNat 1 (fn' / 16 % 2)) (.ofNat 1 (fn' / 8 % 2)))
  else if fn' % 16 = 6 then
    some (.vcmpLtX (.ofNat 5 (d')) (.ofNat 5 (a')) (.ofNat 5 (b')) (.ofNat 3 (fn' / 32)) (.ofNat 1 (fn' / 16 % 2)))
  else if fn' % 16 = 7 then
    some (.vcmpGeX (.ofNat 5 (d')) (.ofNat 5 (a')) (.ofNat 5 (b')) (.ofNat 3 (fn' / 32)) (.ofNat 1 (fn' / 16 % 2)))
  else none

/-- Major 0x2B (Table 4-1). -/
def dec2B (d' a' b' fn' : Nat) : Option Instr :=
  if fn' % 8 = 0 then
    some (.vfcmpFeq (.ofNat 5 (d')) (.ofNat 5 (a')) (.ofNat 5 (b')) (.ofNat 3 (fn' / 32)) (.ofNat 1 (fn' / 16 % 2)) (.ofNat 1 (fn' / 8 % 2)))
  else if fn' % 8 = 1 then
    some (.vfcmpFne (.ofNat 5 (d')) (.ofNat 5 (a')) (.ofNat 5 (b')) (.ofNat 3 (fn' / 32)) (.ofNat 1 (fn' / 16 % 2)) (.ofNat 1 (fn' / 8 % 2)))
  else if fn' % 8 = 2 then
    some (.vfcmpFlt (.ofNat 5 (d')) (.ofNat 5 (a')) (.ofNat 5 (b')) (.ofNat 3 (fn' / 32)) (.ofNat 1 (fn' / 16 % 2)) (.ofNat 1 (fn' / 8 % 2)))
  else if fn' % 8 = 3 then
    some (.vfcmpFle (.ofNat 5 (d')) (.ofNat 5 (a')) (.ofNat 5 (b')) (.ofNat 3 (fn' / 32)) (.ofNat 1 (fn' / 16 % 2)) (.ofNat 1 (fn' / 8 % 2)))
  else if fn' % 16 = 4 then
    some (.vfcmpFltX (.ofNat 5 (d')) (.ofNat 5 (a')) (.ofNat 5 (b')) (.ofNat 3 (fn' / 32)) (.ofNat 1 (fn' / 16 % 2)))
  else if fn' % 16 = 5 then
    some (.vfcmpFgeX (.ofNat 5 (d')) (.ofNat 5 (a')) (.ofNat 5 (b')) (.ofNat 3 (fn' / 32)) (.ofNat 1 (fn' / 16 % 2)))
  else if fn' % 8 = 6 then
    some (.vfcmpFunord (.ofNat 5 (d')) (.ofNat 5 (a')) (.ofNat 5 (b')) (.ofNat 3 (fn' / 32)) (.ofNat 1 (fn' / 16 % 2)) (.ofNat 1 (fn' / 8 % 2)))
  else none

/-- Major 0x2C (Table 4-1). -/
def dec2C (d' a' b' fn' : Nat) : Option Instr :=
  if b' / 2 = 0 ∧ fn' % 16 = 0 then
    some (.vcvtFi (.ofNat 5 (d')) (.ofNat 5 (a')) (.ofNat 1 (b' % 2)) (.ofNat 3 (fn' / 32)) (.ofNat 1 (fn' / 16 % 2)))
  else if b' / 2 = 0 ∧ fn' % 16 = 1 then
    some (.vcvtIf (.ofNat 5 (d')) (.ofNat 5 (a')) (.ofNat 1 (b' % 2)) (.ofNat 3 (fn' / 32)) (.ofNat 1 (fn' / 16 % 2)))
  else if b' = 0 ∧ fn' % 16 = 2 then
    some (.vfwiden (.ofNat 5 (d')) (.ofNat 5 (a')) (.ofNat 3 (fn' / 32)) (.ofNat 1 (fn' / 16 % 2)))
  else if b' = 0 ∧ fn' % 16 = 3 then
    some (.vfnarrow (.ofNat 5 (d')) (.ofNat 5 (a')) (.ofNat 3 (fn' / 32)) (.ofNat 1 (fn' / 16 % 2)))
  else if b' = 0 ∧ fn' % 16 = 4 then
    some (.vswiden (.ofNat 5 (d')) (.ofNat 5 (a')) (.ofNat 3 (fn' / 32)) (.ofNat 1 (fn' / 16 % 2)))
  else if b' = 0 ∧ fn' % 16 = 5 then
    some (.vzwiden (.ofNat 5 (d')) (.ofNat 5 (a')) (.ofNat 3 (fn' / 32)) (.ofNat 1 (fn' / 16 % 2)))
  else if b' / 2 = 0 ∧ fn' % 16 = 6 then
    some (.vtrunc (.ofNat 5 (d')) (.ofNat 5 (a')) (.ofNat 1 (b' % 2)) (.ofNat 3 (fn' / 32)) (.ofNat 1 (fn' / 16 % 2)))
  else none

/-- Major 0x2D (Table 4-1). -/
def dec2D (d' a' b' fn' : Nat) : Option Instr :=
  if fn' % 8 = 0 then
    some (.vredsum (.ofNat 5 (d')) (.ofNat 5 (a')) (.ofNat 5 (b')) (.ofNat 3 (fn' / 32)) (.ofNat 1 (fn' / 16 % 2)) (.ofNat 1 (fn' / 8 % 2)))
  else if fn' % 8 = 1 then
    some (.vredmax (.ofNat 5 (d')) (.ofNat 5 (a')) (.ofNat 5 (b')) (.ofNat 3 (fn' / 32)) (.ofNat 1 (fn' / 16 % 2)) (.ofNat 1 (fn' / 8 % 2)))
  else if fn' % 8 = 2 then
    some (.vredmin (.ofNat 5 (d')) (.ofNat 5 (a')) (.ofNat 5 (b')) (.ofNat 3 (fn' / 32)) (.ofNat 1 (fn' / 16 % 2)) (.ofNat 1 (fn' / 8 % 2)))
  else if fn' % 8 = 3 then
    some (.vredmaxn (.ofNat 5 (d')) (.ofNat 5 (a')) (.ofNat 5 (b')) (.ofNat 3 (fn' / 32)) (.ofNat 1 (fn' / 16 % 2)) (.ofNat 1 (fn' / 8 % 2)))
  else if fn' % 8 = 4 then
    some (.vredminn (.ofNat 5 (d')) (.ofNat 5 (a')) (.ofNat 5 (b')) (.ofNat 3 (fn' / 32)) (.ofNat 1 (fn' / 16 % 2)) (.ofNat 1 (fn' / 8 % 2)))
  else if fn' % 8 = 5 then
    some (.vfredsum (.ofNat 5 (d')) (.ofNat 5 (a')) (.ofNat 5 (b')) (.ofNat 3 (fn' / 32)) (.ofNat 1 (fn' / 16 % 2)) (.ofNat 1 (fn' / 8 % 2)))
  else if fn' % 8 = 6 then
    some (.vfredmax (.ofNat 5 (d')) (.ofNat 5 (a')) (.ofNat 5 (b')) (.ofNat 3 (fn' / 32)) (.ofNat 1 (fn' / 16 % 2)) (.ofNat 1 (fn' / 8 % 2)))
  else if fn' % 8 = 7 then
    some (.vfredmin (.ofNat 5 (d')) (.ofNat 5 (a')) (.ofNat 5 (b')) (.ofNat 3 (fn' / 32)) (.ofNat 1 (fn' / 16 % 2)) (.ofNat 1 (fn' / 8 % 2)))
  else none

/-- Major 0x2E (Table 4-1). -/
def dec2E (d' a' b' fn' : Nat) : Option Instr :=
  if fn' % 8 = 0 then
    some (.vgatherr (.ofNat 5 (d')) (.ofNat 5 (a')) (.ofNat 5 (b')) (.ofNat 3 (fn' / 32)) (.ofNat 1 (fn' / 16 % 2)) (.ofNat 1 (fn' / 8 % 2)))
  else if fn' % 16 = 1 then
    some (.vslideup (.ofNat 5 (d')) (.ofNat 5 (a')) (.ofNat 5 (b')) (.ofNat 3 (fn' / 32)) (.ofNat 1 (fn' / 16 % 2)))
  else if fn' % 16 = 2 then
    some (.vslidedn (.ofNat 5 (d')) (.ofNat 5 (a')) (.ofNat 5 (b')) (.ofNat 3 (fn' / 32)) (.ofNat 1 (fn' / 16 % 2)))
  else if b' = 0 ∧ fn' % 16 = 3 then
    some (.vcompress (.ofNat 5 (d')) (.ofNat 5 (a')) (.ofNat 3 (fn' / 32)) (.ofNat 1 (fn' / 16 % 2)))
  else if b' = 0 ∧ fn' % 16 = 4 then
    some (.vexpand (.ofNat 5 (d')) (.ofNat 5 (a')) (.ofNat 3 (fn' / 32)) (.ofNat 1 (fn' / 16 % 2)))
  else if a' = 0 ∧ b' = 0 ∧ fn' % 32 = 5 then
    some (.viota (.ofNat 5 (d')) (.ofNat 3 (fn' / 32)))
  else if b' = 0 ∧ fn' % 16 = 6 then
    some (.vscan (.ofNat 5 (d')) (.ofNat 5 (a')) (.ofNat 3 (fn' / 32)) (.ofNat 1 (fn' / 16 % 2)))
  else if fn' % 16 = 7 then
    some (.vbcast (.ofNat 5 (d')) (.ofNat 5 (a')) (.ofNat 5 (b')) (.ofNat 3 (fn' / 32)) (.ofNat 1 (fn' / 16 % 2)))
  else none

/-- Major 0x2F (Table 4-1). -/
def dec2F (d' a' b' fn' : Nat) : Option Instr :=
  if fn' % 16 = 0 then
    some (.vunpackb (.ofNat 5 (d')) (.ofNat 5 (a')) (.ofNat 5 (b')) (.ofNat 3 (fn' / 32)) (.ofNat 1 (fn' / 16 % 2)))
  else if fn' % 8 = 1 then
    some (.vtbl (.ofNat 5 (d')) (.ofNat 5 (a')) (.ofNat 5 (b')) (.ofNat 3 (fn' / 32)) (.ofNat 1 (fn' / 16 % 2)) (.ofNat 1 (fn' / 8 % 2)))
  else if fn' % 32 = 2 then
    some (.vrand (.ofNat 5 (d')) (.ofNat 5 (a')) (.ofNat 5 (b')) (.ofNat 3 (fn' / 32)))
  else if b' = 0 ∧ fn' % 32 = 3 then
    some (.vmovgv (.ofNat 5 (d')) (.ofNat 5 (a')) (.ofNat 3 (fn' / 32)))
  else if fn' % 16 = 4 ∧ fn' / 32 = 0 then
    some (.vmovvg (.ofNat 5 (d')) (.ofNat 5 (a')) (.ofNat 5 (b')) (.ofNat 1 (fn' / 16 % 2)))
  else none

/-- Major 0x30 (Table 4-1). -/
def dec30 (d' a' b' fn' : Nat) : Option Instr :=
  if b' = 0 ∧ fn' = 0 then
    some (.planset (.ofNat 5 (d')) (.ofNat 5 (a')))
  else if b' = 0 ∧ fn' = 1 then
    some (.planget (.ofNat 5 (d')) (.ofNat 5 (a')))
  else if fn' % 16 = 2 then
    some (.vgchk (.ofNat 5 (d')) (.ofNat 5 (a')) (.ofNat 5 (b')) (.ofNat 3 (fn' / 32)) (.ofNat 1 (fn' / 16 % 2)))
  else none

/-- Major 0x31 (Table 4-1). -/
def dec31 (d' a' b' fn' : Nat) : Option Instr :=
  if b' = 0 ∧ fn' / 8 % 2 = 0 then
    some (.vpack (.ofNat 5 (d')) (.ofNat 5 (a')) (.ofNat 3 (fn' / 32)) (.ofNat 1 (fn' / 16 % 2)) (.ofNat 3 (fn' % 8)))
  else if b' = 1 ∧ fn' / 8 % 2 = 0 then
    some (.vpackB (.ofNat 5 (d')) (.ofNat 5 (a')) (.ofNat 3 (fn' / 32)) (.ofNat 1 (fn' / 16 % 2)) (.ofNat 3 (fn' % 8)))
  else none

/-- Major 0x32 (Table 4-1). -/
def dec32 (d' a' b' fn' : Nat) : Option Instr :=
  some (.vconv (.ofNat 5 (d')) (.ofNat 5 (a')) (.ofNat 5 (b')) (.ofNat 3 (fn' / 32)) (.ofNat 1 (fn' / 16 % 2)) (.ofNat 1 (fn' / 8 % 2)) (.ofNat 3 (fn' % 8)))

/-- Major 0x33 (Table 4-1). -/
def dec33 (d' a' b' fn' : Nat) : Option Instr :=
  if fn' / 8 % 2 = 0 then
    some (.vxtr (.ofNat 5 (d')) (.ofNat 5 (a')) (.ofNat 5 (b')) (.ofNat 3 (fn' / 32)) (.ofNat 1 (fn' / 16 % 2)) (.ofNat 3 (fn' % 8)))
  else none

/-- Major 0x34 (Table 4-1). -/
def dec34 (d' a' b' fn' : Nat) : Option Instr :=
  if b' = 0 ∧ fn' / 8 % 4 = 0 then
    some (.vld (.ofNat 5 (d')) (.ofNat 5 (a')) (.ofNat 3 (fn' / 32)) (.ofNat 3 (fn' % 8)))
  else if b' = 0 ∧ fn' / 8 % 4 = 1 then
    some (.vldff (.ofNat 5 (d')) (.ofNat 5 (a')) (.ofNat 3 (fn' / 32)) (.ofNat 3 (fn' % 8)))
  else none

/-- Major 0x35 (Table 4-1). -/
def dec35 (d' a' b' fn' : Nat) : Option Instr :=
  if fn' / 8 % 4 = 0 then
    some (.vlds (.ofNat 5 (d')) (.ofNat 5 (a')) (.ofNat 5 (b')) (.ofNat 3 (fn' / 32)) (.ofNat 3 (fn' % 8)))
  else none

/-- Major 0x36 (Table 4-1). -/
def dec36 (d' a' b' fn' : Nat) : Option Instr :=
  if fn' / 4 % 4 = 0 then
    some (.vldx (.ofNat 5 (d')) (.ofNat 5 (a')) (.ofNat 5 (b')) (.ofNat 3 (fn' / 32)) (.ofNat 1 (fn' / 16 % 2)) (.ofNat 2 (fn' % 4)))
  else none

/-- Major 0x37 (Table 4-1). -/
def dec37 (d' a' b' fn' : Nat) : Option Instr :=
  if b' = 0 ∧ fn' / 8 % 2 = 0 then
    some (.vst (.ofNat 5 (d')) (.ofNat 5 (a')) (.ofNat 3 (fn' / 32)) (.ofNat 1 (fn' / 16 % 2)) (.ofNat 3 (fn' % 8)))
  else if b' = 0 ∧ fn' / 8 % 2 = 1 then
    some (.vstn (.ofNat 5 (d')) (.ofNat 5 (a')) (.ofNat 3 (fn' / 32)) (.ofNat 1 (fn' / 16 % 2)) (.ofNat 3 (fn' % 8)))
  else none

/-- Major 0x38 (Table 4-1). -/
def dec38 (d' a' b' fn' : Nat) : Option Instr :=
  if fn' / 8 % 2 = 0 then
    some (.vsts (.ofNat 5 (d')) (.ofNat 5 (a')) (.ofNat 5 (b')) (.ofNat 3 (fn' / 32)) (.ofNat 1 (fn' / 16 % 2)) (.ofNat 3 (fn' % 8)))
  else none

/-- Major 0x39 (Table 4-1). -/
def dec39 (d' a' b' fn' : Nat) : Option Instr :=
  if fn' / 4 % 4 = 0 then
    some (.vstx (.ofNat 5 (d')) (.ofNat 5 (a')) (.ofNat 5 (b')) (.ofNat 3 (fn' / 32)) (.ofNat 1 (fn' / 16 % 2)) (.ofNat 2 (fn' % 4)))
  else none

/-- Major 0x3A (Table 4-1). -/
def dec3A (d' a' b' fn' : Nat) : Option Instr :=
  if b' = 0 ∧ fn' % 2 = 0 ∧ fn' / 16 % 2 = 0 then
    some (.vldbp (.ofNat 5 (d')) (.ofNat 5 (a')) (.ofNat 3 (fn' / 32)) (.ofNat 3 (fn' / 2 % 8)))
  else if b' = 0 ∧ fn' % 2 = 1 then
    some (.vstbp (.ofNat 5 (d')) (.ofNat 5 (a')) (.ofNat 3 (fn' / 32)) (.ofNat 1 (fn' / 16 % 2)) (.ofNat 3 (fn' / 2 % 8)))
  else none

/-- Major 0x3B (Table 4-1). -/
def dec3B (d' a' b' fn' : Nat) : Option Instr :=
  if b' = 0 ∧ fn' = 0 then
    some (.vspill (.ofNat 5 (d')) (.ofNat 5 (a')))
  else if b' = 0 ∧ fn' = 1 then
    some (.vrefill (.ofNat 5 (d')) (.ofNat 5 (a')))
  else none

/-- Major 0x3C (Table 4-1). -/
def dec3C (d' a' b' fn' : Nat) : Option Instr :=
  if fn' % 16 = 0 then
    some (.vamoAdd (.ofNat 5 (d')) (.ofNat 5 (a')) (.ofNat 5 (b')) (.ofNat 3 (fn' / 32)) (.ofNat 1 (fn' / 16 % 2)))
  else if fn' % 16 = 1 then
    some (.vamoAnd (.ofNat 5 (d')) (.ofNat 5 (a')) (.ofNat 5 (b')) (.ofNat 3 (fn' / 32)) (.ofNat 1 (fn' / 16 % 2)))
  else if fn' % 16 = 2 then
    some (.vamoOr (.ofNat 5 (d')) (.ofNat 5 (a')) (.ofNat 5 (b')) (.ofNat 3 (fn' / 32)) (.ofNat 1 (fn' / 16 % 2)))
  else if fn' % 16 = 3 then
    some (.vamoXor (.ofNat 5 (d')) (.ofNat 5 (a')) (.ofNat 5 (b')) (.ofNat 3 (fn' / 32)) (.ofNat 1 (fn' / 16 % 2)))
  else if fn' % 16 = 4 then
    some (.vamoMin (.ofNat 5 (d')) (.ofNat 5 (a')) (.ofNat 5 (b')) (.ofNat 3 (fn' / 32)) (.ofNat 1 (fn' / 16 % 2)))
  else if fn' % 16 = 5 then
    some (.vamoMax (.ofNat 5 (d')) (.ofNat 5 (a')) (.ofNat 5 (b')) (.ofNat 3 (fn' / 32)) (.ofNat 1 (fn' / 16 % 2)))
  else if fn' % 16 = 6 then
    some (.vamoSwap (.ofNat 5 (d')) (.ofNat 5 (a')) (.ofNat 5 (b')) (.ofNat 3 (fn' / 32)) (.ofNat 1 (fn' / 16 % 2)))
  else none

/-- Major 0x3D (Table 4-1). -/
def dec3D (d' a' b' fn' : Nat) : Option Instr :=
  if b' = 0 ∧ fn' = 0 then
    some (.strmdef (.ofNat 5 (d')) (.ofNat 5 (a')))
  else if d' = 0 ∧ b' = 0 ∧ fn' = 1 then
    some (.strmend (.ofNat 5 (a')))
  else if b' = 0 ∧ fn' = 2 then
    some (.copy (.ofNat 5 (d')) (.ofNat 5 (a')))
  else if a' = 0 ∧ b' = 0 ∧ fn' = 3 then
    some (.evpop (.ofNat 5 (d')))
  else if fn' = 4 then
    some (.gangbind (.ofNat 5 (d')) (.ofNat 5 (a')) (.ofNat 5 (b')))
  else if d' = 0 ∧ a' = 0 ∧ b' = 0 ∧ fn' = 5 then
    some .gangfree
  else none

/-- Major 0x3E (Table 4-1). -/
def dec3E (d' a' b' fn' : Nat) : Option Instr :=
  if fn' % 16 = 0 then
    some (.vplane (.ofNat 5 (d')) (.ofNat 5 (a')) (.ofNat 5 (b')) (.ofNat 3 (fn' / 32)) (.ofNat 1 (fn' / 16 % 2)))
  else if b' = 0 ∧ fn' % 16 = 1 then
    some (.vtoplane (.ofNat 5 (d')) (.ofNat 5 (a')) (.ofNat 3 (fn' / 32)) (.ofNat 1 (fn' / 16 % 2)))
  else if fn' % 16 = 2 then
    some (.vqscale (.ofNat 5 (d')) (.ofNat 5 (a')) (.ofNat 5 (b')) (.ofNat 3 (fn' / 32)) (.ofNat 1 (fn' / 16 % 2)))
  else if b' = 0 ∧ fn' % 16 = 3 then
    some (.vnarrow (.ofNat 5 (d')) (.ofNat 5 (a')) (.ofNat 3 (fn' / 32)) (.ofNat 1 (fn' / 16 % 2)))
  else if fn' % 16 = 4 then
    some (.vdeq (.ofNat 5 (d')) (.ofNat 5 (a')) (.ofNat 5 (b')) (.ofNat 3 (fn' / 32)) (.ofNat 1 (fn' / 16 % 2)))
  else none

/-- Major 0x3F (Table 4-1). -/
def dec3F (d' a' b' fn' : Nat) : Option Instr :=
  if fn' = 0 then
    some (.pref (.ofNat 5 (d')) (.ofNat 5 (a')) (.ofNat 5 (b')))
  else if fn' = 1 then
    some (.land (.ofNat 5 (d')) (.ofNat 5 (a')) (.ofNat 5 (b')))
  else if fn' = 2 then
    some (.pause (.ofNat 5 (d')) (.ofNat 5 (a')) (.ofNat 5 (b')))
  else if fn' = 4 then
    some (.grantq (.ofNat 5 (d')) (.ofNat 5 (a')) (.ofNat 5 (b')))
  else some (.hintNop (.ofNat 5 (d')) (.ofNat 5 (a')) (.ofNat 5 (b')) (.ofNat 8 (fn')))

/-- The fields of a 32-bit word under its major. -/
def decFields (maj d a b fn : Nat) : Option Instr :=
  match maj with
  | 0 => dec00 d a b fn
  | 1 => dec01 d a b fn
  | 2 => dec02 d a b fn
  | 3 => dec03 d a b fn
  | 4 => dec04 d a b fn
  | 5 => dec05 d a b fn
  | 6 => dec06 d a b fn
  | 7 => dec07 d a b fn
  | 8 => dec08 d a b fn
  | 9 => dec09 d a b fn
  | 10 => dec0A d a b fn
  | 11 => dec0B d a b fn
  | 12 => dec0C d a b fn
  | 13 => dec0D d a b fn
  | 14 => dec0E d a b fn
  | 15 => dec0F d a b fn
  | 16 => dec10 d a b fn
  | 17 => dec11 d a b fn
  | 18 => dec12 d a b fn
  | 19 => dec13 d a b fn
  | 20 => dec14 d a b fn
  | 21 => dec15 d a b fn
  | 22 => dec16 d a b fn
  | 23 => dec17 d a b fn
  | 24 => dec18 d a b fn
  | 25 => dec19 d a b fn
  | 26 => dec1A d a b fn
  | 27 => dec1B d a b fn
  | 28 => dec1C d a b fn
  | 29 => dec1D d a b fn
  | 30 => dec1E d a b fn
  | 32 => dec20 d a b fn
  | 33 => dec21 d a b fn
  | 34 => dec22 d a b fn
  | 35 => dec23 d a b fn
  | 36 => dec24 d a b fn
  | 37 => dec25 d a b fn
  | 38 => dec26 d a b fn
  | 39 => dec27 d a b fn
  | 40 => dec28 d a b fn
  | 41 => dec29 d a b fn
  | 42 => dec2A d a b fn
  | 43 => dec2B d a b fn
  | 44 => dec2C d a b fn
  | 45 => dec2D d a b fn
  | 46 => dec2E d a b fn
  | 47 => dec2F d a b fn
  | 48 => dec30 d a b fn
  | 49 => dec31 d a b fn
  | 50 => dec32 d a b fn
  | 51 => dec33 d a b fn
  | 52 => dec34 d a b fn
  | 53 => dec35 d a b fn
  | 54 => dec36 d a b fn
  | 55 => dec37 d a b fn
  | 56 => dec38 d a b fn
  | 57 => dec39 d a b fn
  | 58 => dec3A d a b fn
  | 59 => dec3B d a b fn
  | 60 => dec3C d a b fn
  | 61 => dec3D d a b fn
  | 62 => dec3E d a b fn
  | 63 => dec3F d a b fn
  | _ => none

/-- A 32-bit instruction: bits [31:29] are 110 (R52). -/
def decode32 (w : Nat) : Option Instr :=
  if w / 0x20000000 % 8 = 6 then
    (decFields (w / 0x800000 % 64) (w / 0x40000 % 32) (w / 0x2000 % 32) (w / 0x100 % 32) (w % 0x100)).filter Instr.wf
  else none

/-- A compact instruction (R57, Table 3-4). -/
def decode16 (p : Nat) : Option Instr :=
  Option.filter Instr.wf <|
  if p / 8192 % 8 = 0 then some (.cAddi (.ofNat 5 (p / 256 % 32)) (.ofNat 8 (p % 256)))
  else if p / 1024 % 64 = 8 then some (.cMv (.ofNat 5 (p / 32 % 32)) (.ofNat 5 (p % 32)))
  else if p / 1024 % 64 = 9 then some (.cAdd (.ofNat 5 (p / 32 % 32)) (.ofNat 5 (p % 32)))
  else if p / 1024 % 64 = 10 then some (.cSub (.ofNat 5 (p / 32 % 32)) (.ofNat 5 (p % 32)))
  else if p / 1024 % 64 = 11 then some (.cAnd (.ofNat 5 (p / 32 % 32)) (.ofNat 5 (p % 32)))
  else if p / 1024 % 64 = 12 then some (.cOr (.ofNat 5 (p / 32 % 32)) (.ofNat 5 (p % 32)))
  else if p / 1024 % 64 = 13 then some (.cXor (.ofNat 5 (p / 32 % 32)) (.ofNat 5 (p % 32)))
  else if p / 1024 % 64 = 14 then some (.cSll (.ofNat 5 (p / 32 % 32)) (.ofNat 5 (p % 32)))
  else if p / 1024 % 64 = 15 then some (.cSra (.ofNat 5 (p / 32 % 32)) (.ofNat 5 (p % 32)))
  else if p / 4096 % 16 = 4 then some (.cLd (.ofNat 3 (p / 512 % 8)) (.ofNat 3 (p / 64 % 8)) (.ofNat 6 (p % 64)))
  else if p / 4096 % 16 = 5 then some (.cSt (.ofNat 3 (p / 512 % 8)) (.ofNat 3 (p / 64 % 8)) (.ofNat 6 (p % 64)))
  else if p / 2048 % 32 = 12 then some (.cJ (.ofNat 11 (p % 2048)))
  else if p / 2048 % 32 = 13 then some (.cBeqz (.ofNat 3 (p / 256 % 8)) (.ofNat 8 (p % 256)))
  else if p / 2048 % 32 = 14 then some (.cBnez (.ofNat 3 (p / 256 % 8)) (.ofNat 8 (p % 256)))
  else if p % 64 = 0 ∧ p / 2048 % 32 = 15 then some (.cJr (.ofNat 5 (p / 64 % 32)))
  else if p / 1024 % 64 = 32 then some (.cVadd (.ofNat 5 (p / 32 % 32)) (.ofNat 5 (p % 32)))
  else if p / 1024 % 64 = 33 then some (.cVsub (.ofNat 5 (p / 32 % 32)) (.ofNat 5 (p % 32)))
  else if p / 1024 % 64 = 34 then some (.cVmul (.ofNat 5 (p / 32 % 32)) (.ofNat 5 (p % 32)))
  else if p / 1024 % 64 = 35 then some (.cVfadd (.ofNat 5 (p / 32 % 32)) (.ofNat 5 (p % 32)))
  else if p / 1024 % 64 = 36 then some (.cVfmul (.ofNat 5 (p / 32 % 32)) (.ofNat 5 (p % 32)))
  else if p / 1024 % 64 = 37 then some (.cVffma (.ofNat 5 (p / 32 % 32)) (.ofNat 5 (p % 32)))
  else if p / 1024 % 64 = 38 then some (.cVmax (.ofNat 5 (p / 32 % 32)) (.ofNat 5 (p % 32)))
  else if p / 1024 % 64 = 39 then some (.cVfmax (.ofNat 5 (p / 32 % 32)) (.ofNat 5 (p % 32)))
  else if p / 1024 % 64 = 40 then some (.cVaddX (.ofNat 5 (p / 32 % 32)) (.ofNat 5 (p % 32)))
  else if p / 1024 % 64 = 41 then some (.cVsubX (.ofNat 5 (p / 32 % 32)) (.ofNat 5 (p % 32)))
  else if p / 1024 % 64 = 42 then some (.cVmulX (.ofNat 5 (p / 32 % 32)) (.ofNat 5 (p % 32)))
  else if p / 1024 % 64 = 43 then some (.cVfaddX (.ofNat 5 (p / 32 % 32)) (.ofNat 5 (p % 32)))
  else if p / 1024 % 64 = 44 then some (.cVfmulX (.ofNat 5 (p / 32 % 32)) (.ofNat 5 (p % 32)))
  else if p / 1024 % 64 = 45 then some (.cVffmaX (.ofNat 5 (p / 32 % 32)) (.ofNat 5 (p % 32)))
  else if p / 1024 % 64 = 46 then some (.cVmaxX (.ofNat 5 (p / 32 % 32)) (.ofNat 5 (p % 32)))
  else if p / 1024 % 64 = 47 then some (.cVfmaxX (.ofNat 5 (p / 32 % 32)) (.ofNat 5 (p % 32)))
  else none

/-- A tile instruction's fields (R55, Table 3-3): op, A, AS, B, BS, z, A type, B type, A planes, B planes, eA, eB and
the op-specific field. -/
def decTile (op a sa b sb z ta tb pa pb ea eb x : Nat) : Option Instr :=
  if op = 0 then
    if a = 0 ∧ sa = 0 ∧ b = 0 ∧ sb = 0 ∧ ta = 0 ∧ tb = 0 ∧ pa = 0 ∧ pb = 0 ∧ ea = 0 ∧ eb = 0 then
      some (.tshape (.ofNat 2 z) (.ofNat 6 (x / 524288)) (.ofNat 6 (x / 8192 % 64)) (.ofNat 13 (x % 8192)))
    else none
  else if op = 1 then
    if a = 0 ∧ sa = 0 ∧ b = 0 ∧ sb = 0 ∧ ta = 0 ∧ tb = 0 ∧ pa = 0 ∧ pb = 0 ∧ ea = 0 ∧ eb = 0 ∧ x / 65536 = 0 then
      some (.twin (.ofNat 2 z) (.ofNat 16 (x % 65536)))
    else none
  else if op = 2 then
    if a = 0 ∧ sa = 0 ∧ b = 0 ∧ sb = 0 ∧ ta = 0 ∧ tb = 0 ∧ pa = 0 ∧ pb = 0 ∧ ea = 0 ∧ eb = 0 ∧ x = 0 then
      some (.tzero (.ofNat 2 z))
    else none
  else if op = 3 then
    if x = 0 then
      some (.tmma (.ofNat 2 z) (.ofNat 5 a) (.ofNat 1 sa) (.ofNat 5 b) (.ofNat 1 sb) (.ofNat 4 ta) (.ofNat 4 tb)
        (.ofNat 3 pa) (.ofNat 3 pb) (.ofNat 1 ea) (.ofNat 1 eb))
    else none
  else if op = 4 then
    if sb = 0 ∧ tb = 0 ∧ pa = 0 ∧ pb = 0 ∧ ea = 0 ∧ eb = 0 ∧ x / 32 % 262144 = 0 then
      some (.tlda (.ofNat 2 z) (.ofNat 5 a) (.ofNat 1 sa) (.ofNat 5 b) (.ofNat 4 ta) (.ofNat 1 (x / 16777216))
        (.ofNat 1 (x / 8388608 % 2)) (.ofNat 5 (x % 32)))
    else none
  else if op = 5 then
    if sb = 0 ∧ tb = 0 ∧ pa = 0 ∧ pb = 0 ∧ ea = 0 ∧ eb = 0 ∧ x / 32 % 262144 = 0 then
      some (.tsta (.ofNat 2 z) (.ofNat 5 a) (.ofNat 1 sa) (.ofNat 5 b) (.ofNat 4 ta) (.ofNat 1 (x / 16777216))
        (.ofNat 1 (x / 8388608 % 2)) (.ofNat 5 (x % 32)))
    else none
  else if op = 6 then
    if a = 0 ∧ sa = 0 ∧ b = 0 ∧ sb = 0 ∧ ta = 0 ∧ tb = 0 ∧ pa = 0 ∧ pb = 0 ∧ ea = 0 ∧ eb = 0 ∧ x / 4 = 0 then
      some (.tadd (.ofNat 2 z) (.ofNat 2 x))
    else none
  else if op = 7 then
    if a = 0 ∧ sa = 0 ∧ b = 0 ∧ sb = 0 ∧ z = 0 ∧ ta = 0 ∧ tb = 0 ∧ pa = 0 ∧ pb = 0 ∧ ea = 0 ∧ eb = 0 ∧ x = 0 then
      some .tsync
    else none
  else if op = 8 then
    if a = 0 ∧ sa = 0 ∧ b = 0 ∧ sb = 0 ∧ z = 0 ∧ ta = 0 ∧ tb = 0 ∧ pa = 0 ∧ pb = 0 ∧ ea = 0 ∧ eb = 0 ∧ x / 16 = 0 then
      some (.tgang (.ofNat 2 (x / 4)) (.ofNat 2 (x % 4)))
    else none
  else none

/-- A tile instruction: bits [63:61] are 111 (R55). -/
def decode64 (w : Nat) : Option Instr :=
  if w / 2 ^ 61 % 8 = 7 then
    (decTile (w / 2 ^ 55 % 64) (w / 2 ^ 50 % 32) (w / 2 ^ 49 % 2) (w / 2 ^ 44 % 32) (w / 2 ^ 43 % 2) (w / 2 ^ 41 % 4)
      (w / 2 ^ 37 % 16) (w / 2 ^ 33 % 16) (w / 2 ^ 30 % 8) (w / 2 ^ 27 % 8) (w / 2 ^ 26 % 2) (w / 2 ^ 25 % 2)
      (w % 2 ^ 25)).filter Instr.wf
  else none

/-- The number that n parcels form, parcel 0 highest (R49). -/
def joinParcels : List (BitVec 16) → Nat
  | [] => 0
  | p :: ps => p.toNat * 65536 ^ ps.length + joinParcels ps

/-- The instruction that the parcels of one instruction form, parcel 0 first. -/
def decodeParcels (ps : List (BitVec 16)) : Option Instr :=
  match ps with
  | [_] => decode16 (joinParcels ps)
  | [_, _] => decode32 (joinParcels ps)
  | [_, _, _, _] => decode64 (joinParcels ps)
  | _ => none

/-- The number of a 32-bit instruction from its fields (R52). -/
def word32 (maj d a b fn : Nat) : Nat :=
  0xC0000000 + maj * 0x800000 + d * 0x40000 + a * 0x2000 + b * 0x100 + fn

/-- The number of a tile instruction from its fields (R55). -/
def word64 (op a sa b sb z ta tb pa pb ea eb x : Nat) : Nat :=
  7 * 2 ^ 61 + op * 2 ^ 55 + a * 2 ^ 50 + sa * 2 ^ 49 + b * 2 ^ 44 + sb * 2 ^ 43 + z * 2 ^ 41 + ta * 2 ^ 37 + tb * 2 ^ 33 +
    pa * 2 ^ 30 + pb * 2 ^ 27 + ea * 2 ^ 26 + eb * 2 ^ 25 + x

/-- An encoded instruction: its length in bits and its number. -/
abbrev Code := Nat × Nat

/-- The encoding of an instruction; none for the rows without one. -/
def encode : Instr → Option Code
  | .add d a b => some (32, word32 0x00 d.toNat a.toNat b.toNat 0)
  | .sub d a b => some (32, word32 0x00 d.toNat a.toNat b.toNat 1)
  | .and d a b => some (32, word32 0x00 d.toNat a.toNat b.toNat 2)
  | .or d a b => some (32, word32 0x00 d.toNat a.toNat b.toNat 3)
  | .xor d a b => some (32, word32 0x00 d.toNat a.toNat b.toNat 4)
  | .andn d a b => some (32, word32 0x00 d.toNat a.toNat b.toNat 5)
  | .sll d a b => some (32, word32 0x00 d.toNat a.toNat b.toNat 6)
  | .srl d a b => some (32, word32 0x00 d.toNat a.toNat b.toNat 7)
  | .sra d a b => some (32, word32 0x00 d.toNat a.toNat b.toNat 8)
  | .slt d a b => some (32, word32 0x00 d.toNat a.toNat b.toNat 9)
  | .sltn d a b => some (32, word32 0x00 d.toNat a.toNat b.toNat 10)
  | .min d a b => some (32, word32 0x00 d.toNat a.toNat b.toNat 11)
  | .max d a b => some (32, word32 0x00 d.toNat a.toNat b.toNat 12)
  | .minn d a b => some (32, word32 0x00 d.toNat a.toNat b.toNat 13)
  | .maxn d a b => some (32, word32 0x00 d.toNat a.toNat b.toNat 14)
  | .mul d a b => some (32, word32 0x00 d.toNat a.toNat b.toNat 16)
  | .mulh d a b => some (32, word32 0x00 d.toNat a.toNat b.toNat 17)
  | .mulhn d a b => some (32, word32 0x00 d.toNat a.toNat b.toNat 18)
  | .div d a b => some (32, word32 0x00 d.toNat a.toNat b.toNat 19)
  | .divn d a b => some (32, word32 0x00 d.toNat a.toNat b.toNat 20)
  | .rem d a b => some (32, word32 0x00 d.toNat a.toNat b.toNat 21)
  | .remn d a b => some (32, word32 0x00 d.toNat a.toNat b.toNat 22)
  | .clz d a => some (32, word32 0x00 d.toNat a.toNat 0 24)
  | .popc d a => some (32, word32 0x00 d.toNat a.toNat 0 25)
  | .sext d a w => some (32, word32 0x00 d.toNat a.toNat w.toNat 26)
  | .zext d a w => some (32, word32 0x00 d.toNat a.toNat w.toNat 27)
  | .addi d a i => some (32, word32 0x01 d.toNat a.toNat (i.toNat / 256) (i.toNat % 256))
  | .andi d a i => some (32, word32 0x02 d.toNat a.toNat (i.toNat / 256) (i.toNat % 256))
  | .ori d a i => some (32, word32 0x02 d.toNat a.toNat (i.toNat / 256 + 8) (i.toNat % 256))
  | .xori d a i => some (32, word32 0x02 d.toNat a.toNat (i.toNat / 256 + 16) (i.toNat % 256))
  | .slti d a i => some (32, word32 0x03 d.toNat a.toNat (i.toNat / 256) (i.toNat % 256))
  | .sltni d a i => some (32, word32 0x03 d.toNat a.toNat (i.toNat / 256 + 16) (i.toNat % 256))
  | .slli d a n => some (32, word32 0x04 d.toNat a.toNat 0 n.toNat)
  | .srli d a n => some (32, word32 0x04 d.toNat a.toNat 8 n.toNat)
  | .srai d a n => some (32, word32 0x04 d.toNat a.toNat 16 n.toNat)
  | .lih d i => some (32, word32 0x05 d.toNat (i.toNat / 8192) (i.toNat / 256 % 32) (i.toNat % 256))
  | .addpc d i => some (32, word32 0x06 d.toNat (i.toNat / 8192) (i.toNat / 256 % 32) (i.toNat % 256))
  | .xform a b k e => some (32, word32 0x07 (a.toNat / 16) ((a.toNat % 16) * 2 + b.toNat / 16) ((b.toNat % 16) * 2) (k.toNat * 2 + e.toNat))
  | .xshift a b => some (32, word32 0x07 (a.toNat / 16 + 2) ((a.toNat % 16) * 2 + b.toNat / 16) ((b.toNat % 16) * 2) 0)
  | .xtoloc a b => some (32, word32 0x07 (a.toNat / 16 + 4) ((a.toNat % 16) * 2 + b.toNat / 16) ((b.toNat % 16) * 2) 0)
  | .xlshift a b => some (32, word32 0x07 (a.toNat / 16 + 6) ((a.toNat % 16) * 2 + b.toNat / 16) ((b.toNat % 16) * 2) 0)
  | .xeval a b c k e => some (32, word32 0x07 (a.toNat / 16 + 8) ((a.toNat % 16) * 2 + b.toNat / 16) ((b.toNat % 16) * 2 + c.toNat / 16) ((c.toNat % 16) * 16 + k.toNat * 2 + e.toNat))
  | .xadmit a b c k e => some (32, word32 0x07 (a.toNat / 16 + 10) ((a.toNat % 16) * 2 + b.toNat / 16) ((b.toNat % 16) * 2 + c.toNat / 16) ((c.toNat % 16) * 16 + k.toNat * 2 + e.toNat))
  | .xdirect a b c k e => some (32, word32 0x07 (a.toNat / 16 + 12) ((a.toNat % 16) * 2 + b.toNat / 16) ((b.toNat % 16) * 2 + c.toNat / 16) ((c.toNat % 16) * 16 + k.toNat * 2 + e.toNat))
  | .xld a b => some (32, word32 0x07 (a.toNat / 16 + 14) ((a.toNat % 16) * 2 + b.toNat / 16) ((b.toNat % 16) * 2) 0)
  | .xst a b => some (32, word32 0x07 (a.toNat / 16 + 16) ((a.toNat % 16) * 2 + b.toNat / 16) ((b.toNat % 16) * 2) 0)
  | .xzero a b c => some (32, word32 0x07 (a.toNat / 16 + 18) ((a.toNat % 16) * 2 + b.toNat / 16) ((b.toNat % 16) * 2 + c.toNat / 16) ((c.toNat % 16) * 16))
  | .xord a b => some (32, word32 0x07 (a.toNat / 16 + 20) ((a.toNat % 16) * 2 + b.toNat / 16) ((b.toNat % 16) * 2) 0)
  | .xevalg a b c k e => some (32, word32 0x07 (a.toNat / 16 + 22) ((a.toNat % 16) * 2 + b.toNat / 16) ((b.toNat % 16) * 2 + c.toNat / 16) ((c.toNat % 16) * 16 + k.toNat * 2 + e.toNat))
  | .fadd d a b => some (32, word32 0x08 d.toNat a.toNat b.toNat 0)
  | .fsub d a b => some (32, word32 0x08 d.toNat a.toNat b.toNat 1)
  | .fmul d a b => some (32, word32 0x08 d.toNat a.toNat b.toNat 2)
  | .fdiv d a b => some (32, word32 0x08 d.toNat a.toNat b.toNat 3)
  | .fsqrt d a => some (32, word32 0x08 d.toNat a.toNat 0 4)
  | .fmin d a b => some (32, word32 0x08 d.toNat a.toNat b.toNat 5)
  | .fmax d a b => some (32, word32 0x08 d.toNat a.toNat b.toNat 6)
  | .feq d a b => some (32, word32 0x08 d.toNat a.toNat b.toNat 8)
  | .flt d a b => some (32, word32 0x08 d.toNat a.toNat b.toNat 9)
  | .fle d a b => some (32, word32 0x08 d.toNat a.toNat b.toNat 10)
  | .fcvtFS d a => some (32, word32 0x08 d.toNat a.toNat 0 12)
  | .fcvtSF d a => some (32, word32 0x08 d.toNat a.toNat 0 13)
  | .fcvtFH d a => some (32, word32 0x08 d.toNat a.toNat 0 14)
  | .fcvtFBf d a => some (32, word32 0x08 d.toNat a.toNat 1 14)
  | .fcvtHF d a => some (32, word32 0x08 d.toNat a.toNat 0 15)
  | .fcvtBfF d a => some (32, word32 0x08 d.toNat a.toNat 1 15)
  | .fclass d a => some (32, word32 0x08 d.toNat a.toNat 0 16)
  | .ffma d a b c => some (32, word32 0x09 d.toNat a.toNat b.toNat (c.toNat * 8))
  | .ffms d a b c => some (32, word32 0x09 d.toNat a.toNat b.toNat (c.toNat * 8 + 1))
  | .fnma d a b c => some (32, word32 0x09 d.toNat a.toNat b.toNat (c.toNat * 8 + 2))
  | .fnms d a b c => some (32, word32 0x09 d.toNat a.toNat b.toNat (c.toNat * 8 + 3))
  | .beq a b o => some (32, word32 0x0A a.toNat b.toNat (o.toNat / 256) (o.toNat % 256))
  | .bne a b o => some (32, word32 0x0B a.toNat b.toNat (o.toNat / 256) (o.toNat % 256))
  | .blt a b o => some (32, word32 0x0C a.toNat b.toNat (o.toNat / 256) (o.toNat % 256))
  | .bge a b o => some (32, word32 0x0D a.toNat b.toNat (o.toNat / 256) (o.toNat % 256))
  | .bltn a b o => some (32, word32 0x0E a.toNat b.toNat (o.toNat / 256) (o.toNat % 256))
  | .bgen a b o => some (32, word32 0x0F a.toNat b.toNat (o.toNat / 256) (o.toNat % 256))
  | .jal d o => some (32, word32 0x10 d.toNat (o.toNat / 8192) (o.toNat / 256 % 32) (o.toNat % 256))
  | .jalr d a i => some (32, word32 0x11 d.toNat a.toNat (i.toNat / 256) (i.toNat % 256))
  | .lds g b w i => some (32, word32 0x12 g.toNat b.toNat (w.toNat * 4 + i.toNat / 256) (i.toNat % 256))
  | .sts g b w i => some (32, word32 0x13 g.toNat b.toNat (w.toNat * 4 + i.toNat / 256) (i.toNat % 256))
  | .ldo d a o s x => some (32, word32 0x14 d.toNat a.toNat 0 (o.toNat * 64 + s.toNat * 8 + x.toNat))
  | .sto a b o s x => some (32, word32 0x15 0 a.toNat b.toNat (o.toNat * 64 + s.toNat * 8 + x.toNat))
  | .amoAdd d a b o s => some (32, word32 0x16 d.toNat a.toNat b.toNat (o.toNat * 64 + s.toNat * 8))
  | .amoAnd d a b o s => some (32, word32 0x16 d.toNat a.toNat b.toNat (o.toNat * 64 + s.toNat * 8 + 1))
  | .amoOr d a b o s => some (32, word32 0x16 d.toNat a.toNat b.toNat (o.toNat * 64 + s.toNat * 8 + 2))
  | .amoXor d a b o s => some (32, word32 0x16 d.toNat a.toNat b.toNat (o.toNat * 64 + s.toNat * 8 + 3))
  | .amoMin d a b o s => some (32, word32 0x16 d.toNat a.toNat b.toNat (o.toNat * 64 + s.toNat * 8 + 4))
  | .amoMax d a b o s => some (32, word32 0x16 d.toNat a.toNat b.toNat (o.toNat * 64 + s.toNat * 8 + 5))
  | .amoSwap d a b o s => some (32, word32 0x16 d.toNat a.toNat b.toNat (o.toNat * 64 + s.toNat * 8 + 6))
  | .amoCas d a b o s => some (32, word32 0x16 d.toNat a.toNat b.toNat (o.toNat * 64 + s.toNat * 8 + 7))
  | .amowAdd d a b o s => some (32, word32 0x17 d.toNat a.toNat b.toNat (o.toNat * 64 + s.toNat * 8))
  | .amowAnd d a b o s => some (32, word32 0x17 d.toNat a.toNat b.toNat (o.toNat * 64 + s.toNat * 8 + 1))
  | .amowOr d a b o s => some (32, word32 0x17 d.toNat a.toNat b.toNat (o.toNat * 64 + s.toNat * 8 + 2))
  | .amowXor d a b o s => some (32, word32 0x17 d.toNat a.toNat b.toNat (o.toNat * 64 + s.toNat * 8 + 3))
  | .amowMin d a b o s => some (32, word32 0x17 d.toNat a.toNat b.toNat (o.toNat * 64 + s.toNat * 8 + 4))
  | .amowMax d a b o s => some (32, word32 0x17 d.toNat a.toNat b.toNat (o.toNat * 64 + s.toNat * 8 + 5))
  | .amowSwap d a b o s => some (32, word32 0x17 d.toNat a.toNat b.toNat (o.toNat * 64 + s.toNat * 8 + 6))
  | .amowCas d a b o s => some (32, word32 0x17 d.toNat a.toNat b.toNat (o.toNat * 64 + s.toNat * 8 + 7))
  | .fence o s => some (32, word32 0x18 0 0 0 (o.toNat * 64 + s.toNat * 8))
  | .csrrd d c => some (32, word32 0x19 d.toNat 0 (c.toNat / 256) (c.toNat % 256))
  | .csrwr d a c => some (32, word32 0x19 d.toNat a.toNat (c.toNat / 256 + 8) (c.toNat % 256))
  | .csrset d a c => some (32, word32 0x19 d.toNat a.toNat (c.toNat / 256 + 16) (c.toNat % 256))
  | .csrclr d a c => some (32, word32 0x19 d.toNat a.toNat (c.toNat / 256 + 24) (c.toNat % 256))
  | .strip d => some (32, word32 0x1A d.toNat 0 0 0)
  | .vsettype d a => some (32, word32 0x1A d.toNat a.toNat 0 1)
  | .limlt d a b => some (32, word32 0x1A d.toNat a.toNat b.toNat 8)
  | .limle d a b => some (32, word32 0x1A d.toNat a.toNat b.toNat 9)
  | .limltn d a b => some (32, word32 0x1A d.toNat a.toNat b.toNat 10)
  | .setvl d a => some (32, word32 0x1A d.toNat a.toNat 0 63)
  | .mand d a b => some (32, word32 0x1B d.toNat a.toNat b.toNat 0)
  | .mor d a b => some (32, word32 0x1B d.toNat a.toNat b.toNat 1)
  | .mxor d a b => some (32, word32 0x1B d.toNat a.toNat b.toNat 2)
  | .mandn d a b => some (32, word32 0x1B d.toNat a.toNat b.toNat 3)
  | .mnot d a => some (32, word32 0x1B d.toNat a.toNat 0 4)
  | .mcopy d a => some (32, word32 0x1B d.toNat a.toNat 0 5)
  | .mfill d => some (32, word32 0x1B d.toNat 0 0 6)
  | .mzero d => some (32, word32 0x1B d.toNat 0 0 7)
  | .mcount d a => some (32, word32 0x1B d.toNat a.toNat 0 8)
  | .mfirst d a => some (32, word32 0x1B d.toNat a.toNat 0 9)
  | .mlast d a => some (32, word32 0x1B d.toNat a.toNat 0 10)
  | .mfromg d a b => some (32, word32 0x1B d.toNat a.toNat b.toNat 11)
  | .mtog d a b => some (32, word32 0x1B d.toNat a.toNat b.toNat 12)
  | .ecall => some (32, word32 0x1C 0 0 0 0)
  | .eret => some (32, word32 0x1C 0 0 0 1)
  | .wfi d => some (32, word32 0x1C d.toNat 0 0 2)
  | .brk => some (32, word32 0x1C 0 0 0 3)
  | .tlbinv a b => some (32, word32 0x1C 0 a.toNat b.toNat 4)
  | .frqpop d => some (32, word32 0x1C d.toNat 0 0 5)
  | .ctxsave => some (32, word32 0x1C 0 0 0 6)
  | .ctxload => some (32, word32 0x1C 0 0 0 7)
  | .bar d a b s => some (32, word32 0x1D d.toNat a.toNat b.toNat s.toNat)
  | .waita d a b c => some (32, word32 0x1D d.toNat a.toNat b.toNat (c.toNat + 8))
  | .chwait d a => some (32, word32 0x1D d.toNat a.toNat 0 16)
  | .chwaitId d a b => some (32, word32 0x1D d.toNat a.toNat b.toNat 16)
  | .qpush d a b => some (32, word32 0x1D d.toNat a.toNat b.toNat 24)
  | .qpop d a => some (32, word32 0x1D d.toNat a.toNat 0 33)
  | .qpopNb d a => some (32, word32 0x1D d.toNat a.toNat 0 32)
  | .launch d a => some (32, word32 0x1D d.toNat a.toNat 0 40)
  | .yield => some (32, word32 0x1D 0 0 0 48)
  | .exit => some (32, word32 0x1D 0 0 0 56)
  | .barg d a b => some (32, word32 0x1D d.toNat a.toNat b.toNat 248)
  | .vacq d i => some (32, word32 0x1E d.toNat i.toNat 0 0)
  | .vacqFail d i => some (32, word32 0x1E d.toNat i.toNat 0 1)
  | .vacqTile d i => some (32, word32 0x1E d.toNat i.toNat 0 2)
  | .vacqTileFail d i => some (32, word32 0x1E d.toNat i.toNat 0 3)
  | .vrel i => some (32, word32 0x1E 0 i.toNat 0 8)
  | .cpread d a b => some (32, word32 0x1E d.toNat a.toNat b.toNat 16)
  | .cpmark d => some (32, word32 0x1E d.toNat 0 0 24)
  | .vadd d a b k e f => some (32, word32 0x20 d.toNat a.toNat b.toNat (k.toNat * 32 + e.toNat * 16 + f.toNat * 8))
  | .vsub d a b k e f => some (32, word32 0x20 d.toNat a.toNat b.toNat (k.toNat * 32 + e.toNat * 16 + f.toNat * 8 + 1))
  | .vmul d a b k e f => some (32, word32 0x20 d.toNat a.toNat b.toNat (k.toNat * 32 + e.toNat * 16 + f.toNat * 8 + 2))
  | .vmulh d a b k e f => some (32, word32 0x20 d.toNat a.toNat b.toNat (k.toNat * 32 + e.toNat * 16 + f.toNat * 8 + 3))
  | .vmin d a b k e f => some (32, word32 0x20 d.toNat a.toNat b.toNat (k.toNat * 32 + e.toNat * 16 + f.toNat * 8 + 4))
  | .vmax d a b k e f => some (32, word32 0x20 d.toNat a.toNat b.toNat (k.toNat * 32 + e.toNat * 16 + f.toNat * 8 + 5))
  | .vminn d a b k e f => some (32, word32 0x20 d.toNat a.toNat b.toNat (k.toNat * 32 + e.toNat * 16 + f.toNat * 8 + 6))
  | .vmaxn d a b k e f => some (32, word32 0x20 d.toNat a.toNat b.toNat (k.toNat * 32 + e.toNat * 16 + f.toNat * 8 + 7))
  | .vand d a b k e f => some (32, word32 0x21 d.toNat a.toNat b.toNat (k.toNat * 32 + e.toNat * 16 + f.toNat * 8))
  | .vor d a b k e f => some (32, word32 0x21 d.toNat a.toNat b.toNat (k.toNat * 32 + e.toNat * 16 + f.toNat * 8 + 1))
  | .vxor d a b k e f => some (32, word32 0x21 d.toNat a.toNat b.toNat (k.toNat * 32 + e.toNat * 16 + f.toNat * 8 + 2))
  | .vandn d a b k e f => some (32, word32 0x21 d.toNat a.toNat b.toNat (k.toNat * 32 + e.toNat * 16 + f.toNat * 8 + 3))
  | .vsll d a b k e f => some (32, word32 0x21 d.toNat a.toNat b.toNat (k.toNat * 32 + e.toNat * 16 + f.toNat * 8 + 4))
  | .vsrl d a b k e f => some (32, word32 0x21 d.toNat a.toNat b.toNat (k.toNat * 32 + e.toNat * 16 + f.toNat * 8 + 5))
  | .vsra d a b k e f => some (32, word32 0x21 d.toNat a.toNat b.toNat (k.toNat * 32 + e.toNat * 16 + f.toNat * 8 + 6))
  | .vmerge d a b k e f => some (32, word32 0x21 d.toNat a.toNat b.toNat (k.toNat * 32 + e.toNat * 16 + f.toNat * 8 + 7))
  | .vsadd d a b k e f => some (32, word32 0x22 d.toNat a.toNat b.toNat (k.toNat * 32 + e.toNat * 16 + f.toNat * 8))
  | .vssub d a b k e f => some (32, word32 0x22 d.toNat a.toNat b.toNat (k.toNat * 32 + e.toNat * 16 + f.toNat * 8 + 1))
  | .vnshr d a b k e f => some (32, word32 0x22 d.toNat a.toNat b.toNat (k.toNat * 32 + e.toNat * 16 + f.toNat * 8 + 2))
  | .vwmul d a b k e f => some (32, word32 0x22 d.toNat a.toNat b.toNat (k.toNat * 32 + e.toNat * 16 + f.toNat * 8 + 3))
  | .vwmac d a b k e f => some (32, word32 0x22 d.toNat a.toNat b.toNat (k.toNat * 32 + e.toNat * 16 + f.toNat * 8 + 4))
  | .vabs d a k e => some (32, word32 0x22 d.toNat a.toNat 0 (k.toNat * 32 + e.toNat * 16 + 5))
  | .vmulhn d a b k e f => some (32, word32 0x22 d.toNat a.toNat b.toNat (k.toNat * 32 + e.toNat * 16 + f.toNat * 8 + 6))
  | .vavg d a b k e f => some (32, word32 0x22 d.toNat a.toNat b.toNat (k.toNat * 32 + e.toNat * 16 + f.toNat * 8 + 7))
  | .vaddX d a b k e => some (32, word32 0x23 d.toNat a.toNat b.toNat (k.toNat * 32 + e.toNat * 16))
  | .vsubX d a b k e => some (32, word32 0x23 d.toNat a.toNat b.toNat (k.toNat * 32 + e.toNat * 16 + 1))
  | .vmulX d a b k e => some (32, word32 0x23 d.toNat a.toNat b.toNat (k.toNat * 32 + e.toNat * 16 + 2))
  | .vmulhX d a b k e => some (32, word32 0x23 d.toNat a.toNat b.toNat (k.toNat * 32 + e.toNat * 16 + 3))
  | .vminX d a b k e => some (32, word32 0x23 d.toNat a.toNat b.toNat (k.toNat * 32 + e.toNat * 16 + 4))
  | .vmaxX d a b k e => some (32, word32 0x23 d.toNat a.toNat b.toNat (k.toNat * 32 + e.toNat * 16 + 5))
  | .vminnX d a b k e => some (32, word32 0x23 d.toNat a.toNat b.toNat (k.toNat * 32 + e.toNat * 16 + 6))
  | .vmaxnX d a b k e => some (32, word32 0x23 d.toNat a.toNat b.toNat (k.toNat * 32 + e.toNat * 16 + 7))
  | .vandX d a b k e => some (32, word32 0x24 d.toNat a.toNat b.toNat (k.toNat * 32 + e.toNat * 16))
  | .vorX d a b k e => some (32, word32 0x24 d.toNat a.toNat b.toNat (k.toNat * 32 + e.toNat * 16 + 1))
  | .vxorX d a b k e => some (32, word32 0x24 d.toNat a.toNat b.toNat (k.toNat * 32 + e.toNat * 16 + 2))
  | .vandnX d a b k e => some (32, word32 0x24 d.toNat a.toNat b.toNat (k.toNat * 32 + e.toNat * 16 + 3))
  | .vsllX d a b k e => some (32, word32 0x24 d.toNat a.toNat b.toNat (k.toNat * 32 + e.toNat * 16 + 4))
  | .vsrlX d a b k e => some (32, word32 0x24 d.toNat a.toNat b.toNat (k.toNat * 32 + e.toNat * 16 + 5))
  | .vsraX d a b k e => some (32, word32 0x24 d.toNat a.toNat b.toNat (k.toNat * 32 + e.toNat * 16 + 6))
  | .vmergeX d a b k e => some (32, word32 0x24 d.toNat a.toNat b.toNat (k.toNat * 32 + e.toNat * 16 + 7))
  | .vfadd d a b k e f => some (32, word32 0x25 d.toNat a.toNat b.toNat (k.toNat * 32 + e.toNat * 16 + f.toNat * 8))
  | .vfsub d a b k e f => some (32, word32 0x25 d.toNat a.toNat b.toNat (k.toNat * 32 + e.toNat * 16 + f.toNat * 8 + 1))
  | .vfmul d a b k e f => some (32, word32 0x25 d.toNat a.toNat b.toNat (k.toNat * 32 + e.toNat * 16 + f.toNat * 8 + 2))
  | .vfdiv d a b k e f => some (32, word32 0x25 d.toNat a.toNat b.toNat (k.toNat * 32 + e.toNat * 16 + f.toNat * 8 + 3))
  | .vfmin d a b k e f => some (32, word32 0x25 d.toNat a.toNat b.toNat (k.toNat * 32 + e.toNat * 16 + f.toNat * 8 + 4))
  | .vfmax d a b k e f => some (32, word32 0x25 d.toNat a.toNat b.toNat (k.toNat * 32 + e.toNat * 16 + f.toNat * 8 + 5))
  | .vfsqrt d a k e => some (32, word32 0x25 d.toNat a.toNat 0 (k.toNat * 32 + e.toNat * 16 + 6))
  | .vfabs d a k e => some (32, word32 0x25 d.toNat a.toNat 0 (k.toNat * 32 + e.toNat * 16 + 7))
  | .vffma d a b k e f => some (32, word32 0x26 d.toNat a.toNat b.toNat (k.toNat * 32 + e.toNat * 16 + f.toNat * 8))
  | .vffms d a b k e f => some (32, word32 0x26 d.toNat a.toNat b.toNat (k.toNat * 32 + e.toNat * 16 + f.toNat * 8 + 1))
  | .vfnma d a b k e f => some (32, word32 0x26 d.toNat a.toNat b.toNat (k.toNat * 32 + e.toNat * 16 + f.toNat * 8 + 2))
  | .vfnms d a b k e f => some (32, word32 0x26 d.toNat a.toNat b.toNat (k.toNat * 32 + e.toNat * 16 + f.toNat * 8 + 3))
  | .vfaddX d a b k e => some (32, word32 0x27 d.toNat a.toNat b.toNat (k.toNat * 32 + e.toNat * 16))
  | .vfsubX d a b k e => some (32, word32 0x27 d.toNat a.toNat b.toNat (k.toNat * 32 + e.toNat * 16 + 1))
  | .vfmulX d a b k e => some (32, word32 0x27 d.toNat a.toNat b.toNat (k.toNat * 32 + e.toNat * 16 + 2))
  | .vfdivX d a b k e => some (32, word32 0x27 d.toNat a.toNat b.toNat (k.toNat * 32 + e.toNat * 16 + 3))
  | .vfminX d a b k e => some (32, word32 0x27 d.toNat a.toNat b.toNat (k.toNat * 32 + e.toNat * 16 + 4))
  | .vfmaxX d a b k e => some (32, word32 0x27 d.toNat a.toNat b.toNat (k.toNat * 32 + e.toNat * 16 + 5))
  | .vffmaX d a b k e => some (32, word32 0x28 d.toNat a.toNat b.toNat (k.toNat * 32 + e.toNat * 16))
  | .vffmsX d a b k e => some (32, word32 0x28 d.toNat a.toNat b.toNat (k.toNat * 32 + e.toNat * 16 + 1))
  | .vfnmaX d a b k e => some (32, word32 0x28 d.toNat a.toNat b.toNat (k.toNat * 32 + e.toNat * 16 + 2))
  | .vfnmsX d a b k e => some (32, word32 0x28 d.toNat a.toNat b.toNat (k.toNat * 32 + e.toNat * 16 + 3))
  | .vrcp d a k e => some (32, word32 0x29 d.toNat a.toNat 0 (k.toNat * 32 + e.toNat * 16))
  | .vrsq d a k e => some (32, word32 0x29 d.toNat a.toNat 0 (k.toNat * 32 + e.toNat * 16 + 1))
  | .vexp2 d a k e => some (32, word32 0x29 d.toNat a.toNat 0 (k.toNat * 32 + e.toNat * 16 + 2))
  | .vlog2 d a k e => some (32, word32 0x29 d.toNat a.toNat 0 (k.toNat * 32 + e.toNat * 16 + 3))
  | .vcmpEq d a b k e f => some (32, word32 0x2A d.toNat a.toNat b.toNat (k.toNat * 32 + e.toNat * 16 + f.toNat * 8))
  | .vcmpNe d a b k e f => some (32, word32 0x2A d.toNat a.toNat b.toNat (k.toNat * 32 + e.toNat * 16 + f.toNat * 8 + 1))
  | .vcmpLt d a b k e f => some (32, word32 0x2A d.toNat a.toNat b.toNat (k.toNat * 32 + e.toNat * 16 + f.toNat * 8 + 2))
  | .vcmpLe d a b k e f => some (32, word32 0x2A d.toNat a.toNat b.toNat (k.toNat * 32 + e.toNat * 16 + f.toNat * 8 + 3))
  | .vcmpLtn d a b k e f => some (32, word32 0x2A d.toNat a.toNat b.toNat (k.toNat * 32 + e.toNat * 16 + f.toNat * 8 + 4))
  | .vcmpLen d a b k e f => some (32, word32 0x2A d.toNat a.toNat b.toNat (k.toNat * 32 + e.toNat * 16 + f.toNat * 8 + 5))
  | .vcmpLtX d a b k e => some (32, word32 0x2A d.toNat a.toNat b.toNat (k.toNat * 32 + e.toNat * 16 + 6))
  | .vcmpGeX d a b k e => some (32, word32 0x2A d.toNat a.toNat b.toNat (k.toNat * 32 + e.toNat * 16 + 7))
  | .vfcmpFeq d a b k e f => some (32, word32 0x2B d.toNat a.toNat b.toNat (k.toNat * 32 + e.toNat * 16 + f.toNat * 8))
  | .vfcmpFne d a b k e f => some (32, word32 0x2B d.toNat a.toNat b.toNat (k.toNat * 32 + e.toNat * 16 + f.toNat * 8 + 1))
  | .vfcmpFlt d a b k e f => some (32, word32 0x2B d.toNat a.toNat b.toNat (k.toNat * 32 + e.toNat * 16 + f.toNat * 8 + 2))
  | .vfcmpFle d a b k e f => some (32, word32 0x2B d.toNat a.toNat b.toNat (k.toNat * 32 + e.toNat * 16 + f.toNat * 8 + 3))
  | .vfcmpFltX d a b k e => some (32, word32 0x2B d.toNat a.toNat b.toNat (k.toNat * 32 + e.toNat * 16 + 4))
  | .vfcmpFgeX d a b k e => some (32, word32 0x2B d.toNat a.toNat b.toNat (k.toNat * 32 + e.toNat * 16 + 5))
  | .vfcmpFunord d a b k e f => some (32, word32 0x2B d.toNat a.toNat b.toNat (k.toNat * 32 + e.toNat * 16 + f.toNat * 8 + 6))
  | .vcvtFi d a u k e => some (32, word32 0x2C d.toNat a.toNat u.toNat (k.toNat * 32 + e.toNat * 16))
  | .vcvtIf d a u k e => some (32, word32 0x2C d.toNat a.toNat u.toNat (k.toNat * 32 + e.toNat * 16 + 1))
  | .vfwiden d a k e => some (32, word32 0x2C d.toNat a.toNat 0 (k.toNat * 32 + e.toNat * 16 + 2))
  | .vfnarrow d a k e => some (32, word32 0x2C d.toNat a.toNat 0 (k.toNat * 32 + e.toNat * 16 + 3))
  | .vswiden d a k e => some (32, word32 0x2C d.toNat a.toNat 0 (k.toNat * 32 + e.toNat * 16 + 4))
  | .vzwiden d a k e => some (32, word32 0x2C d.toNat a.toNat 0 (k.toNat * 32 + e.toNat * 16 + 5))
  | .vtrunc d a u k e => some (32, word32 0x2C d.toNat a.toNat u.toNat (k.toNat * 32 + e.toNat * 16 + 6))
  | .vredsum d a b k e f => some (32, word32 0x2D d.toNat a.toNat b.toNat (k.toNat * 32 + e.toNat * 16 + f.toNat * 8))
  | .vredmax d a b k e f => some (32, word32 0x2D d.toNat a.toNat b.toNat (k.toNat * 32 + e.toNat * 16 + f.toNat * 8 + 1))
  | .vredmin d a b k e f => some (32, word32 0x2D d.toNat a.toNat b.toNat (k.toNat * 32 + e.toNat * 16 + f.toNat * 8 + 2))
  | .vredmaxn d a b k e f => some (32, word32 0x2D d.toNat a.toNat b.toNat (k.toNat * 32 + e.toNat * 16 + f.toNat * 8 + 3))
  | .vredminn d a b k e f => some (32, word32 0x2D d.toNat a.toNat b.toNat (k.toNat * 32 + e.toNat * 16 + f.toNat * 8 + 4))
  | .vfredsum d a b k e f => some (32, word32 0x2D d.toNat a.toNat b.toNat (k.toNat * 32 + e.toNat * 16 + f.toNat * 8 + 5))
  | .vfredmax d a b k e f => some (32, word32 0x2D d.toNat a.toNat b.toNat (k.toNat * 32 + e.toNat * 16 + f.toNat * 8 + 6))
  | .vfredmin d a b k e f => some (32, word32 0x2D d.toNat a.toNat b.toNat (k.toNat * 32 + e.toNat * 16 + f.toNat * 8 + 7))
  | .vgatherr d a b k e f => some (32, word32 0x2E d.toNat a.toNat b.toNat (k.toNat * 32 + e.toNat * 16 + f.toNat * 8))
  | .vslideup d a b k e => some (32, word32 0x2E d.toNat a.toNat b.toNat (k.toNat * 32 + e.toNat * 16 + 1))
  | .vslidedn d a b k e => some (32, word32 0x2E d.toNat a.toNat b.toNat (k.toNat * 32 + e.toNat * 16 + 2))
  | .vcompress d a k e => some (32, word32 0x2E d.toNat a.toNat 0 (k.toNat * 32 + e.toNat * 16 + 3))
  | .vexpand d a k e => some (32, word32 0x2E d.toNat a.toNat 0 (k.toNat * 32 + e.toNat * 16 + 4))
  | .viota d k => some (32, word32 0x2E d.toNat 0 0 (k.toNat * 32 + 5))
  | .vscan d a k e => some (32, word32 0x2E d.toNat a.toNat 0 (k.toNat * 32 + e.toNat * 16 + 6))
  | .vbcast d a b k e => some (32, word32 0x2E d.toNat a.toNat b.toNat (k.toNat * 32 + e.toNat * 16 + 7))
  | .vunpackb d a b k e => some (32, word32 0x2F d.toNat a.toNat b.toNat (k.toNat * 32 + e.toNat * 16))
  | .vtbl d a b k e f => some (32, word32 0x2F d.toNat a.toNat b.toNat (k.toNat * 32 + e.toNat * 16 + f.toNat * 8 + 1))
  | .vrand d a b k => some (32, word32 0x2F d.toNat a.toNat b.toNat (k.toNat * 32 + 2))
  | .vmovgv d a k => some (32, word32 0x2F d.toNat a.toNat 0 (k.toNat * 32 + 3))
  | .vmovvg d a b e => some (32, word32 0x2F d.toNat a.toNat b.toNat (e.toNat * 16 + 4))
  | .planset p a => some (32, word32 0x30 p.toNat a.toNat 0 0)
  | .planget d p => some (32, word32 0x30 d.toNat p.toNat 0 1)
  | .vgchk d a p k e => some (32, word32 0x30 d.toNat a.toNat p.toNat (k.toNat * 32 + e.toNat * 16 + 2))
  | .vpack d a k e p => some (32, word32 0x31 d.toNat a.toNat 0 (k.toNat * 32 + e.toNat * 16 + p.toNat))
  | .vpackB d a k e p => some (32, word32 0x31 d.toNat a.toNat 1 (k.toNat * 32 + e.toNat * 16 + p.toNat))
  | .vconv d a b k e f p => some (32, word32 0x32 d.toNat a.toNat b.toNat (k.toNat * 32 + e.toNat * 16 + f.toNat * 8 + p.toNat))
  | .vxtr d a n k e p => some (32, word32 0x33 d.toNat a.toNat n.toNat (k.toNat * 32 + e.toNat * 16 + p.toNat))
  | .vld v b k f => some (32, word32 0x34 v.toNat b.toNat 0 (k.toNat * 32 + f.toNat))
  | .vldff v b k f => some (32, word32 0x34 v.toNat b.toNat 0 (k.toNat * 32 + f.toNat + 8))
  | .vlds v b x k f => some (32, word32 0x35 v.toNat b.toNat x.toNat (k.toNat * 32 + f.toNat))
  | .vldx v b x k e w => some (32, word32 0x36 v.toNat b.toNat x.toNat (k.toNat * 32 + e.toNat * 16 + w.toNat))
  | .vst v b k e f => some (32, word32 0x37 v.toNat b.toNat 0 (k.toNat * 32 + e.toNat * 16 + f.toNat))
  | .vstn v b k e f => some (32, word32 0x37 v.toNat b.toNat 0 (k.toNat * 32 + e.toNat * 16 + f.toNat + 8))
  | .vsts v b x k e f => some (32, word32 0x38 v.toNat b.toNat x.toNat (k.toNat * 32 + e.toNat * 16 + f.toNat))
  | .vstx v b x k e w => some (32, word32 0x39 v.toNat b.toNat x.toNat (k.toNat * 32 + e.toNat * 16 + w.toNat))
  | .vldbp v b k p => some (32, word32 0x3A v.toNat b.toNat 0 (k.toNat * 32 + p.toNat * 2))
  | .vstbp v b k e p => some (32, word32 0x3A v.toNat b.toNat 0 (k.toNat * 32 + e.toNat * 16 + p.toNat * 2 + 1))
  | .vspill v b => some (32, word32 0x3B v.toNat b.toNat 0 0)
  | .vrefill v b => some (32, word32 0x3B v.toNat b.toNat 0 1)
  | .vamoAdd v b x k e => some (32, word32 0x3C v.toNat b.toNat x.toNat (k.toNat * 32 + e.toNat * 16))
  | .vamoAnd v b x k e => some (32, word32 0x3C v.toNat b.toNat x.toNat (k.toNat * 32 + e.toNat * 16 + 1))
  | .vamoOr v b x k e => some (32, word32 0x3C v.toNat b.toNat x.toNat (k.toNat * 32 + e.toNat * 16 + 2))
  | .vamoXor v b x k e => some (32, word32 0x3C v.toNat b.toNat x.toNat (k.toNat * 32 + e.toNat * 16 + 3))
  | .vamoMin v b x k e => some (32, word32 0x3C v.toNat b.toNat x.toNat (k.toNat * 32 + e.toNat * 16 + 4))
  | .vamoMax v b x k e => some (32, word32 0x3C v.toNat b.toNat x.toNat (k.toNat * 32 + e.toNat * 16 + 5))
  | .vamoSwap v b x k e => some (32, word32 0x3C v.toNat b.toNat x.toNat (k.toNat * 32 + e.toNat * 16 + 6))
  | .strmdef d a => some (32, word32 0x3D d.toNat a.toNat 0 0)
  | .strmend a => some (32, word32 0x3D 0 a.toNat 0 1)
  | .copy d a => some (32, word32 0x3D d.toNat a.toNat 0 2)
  | .evpop d => some (32, word32 0x3D d.toNat 0 0 3)
  | .gangbind d a b => some (32, word32 0x3D d.toNat a.toNat b.toNat 4)
  | .gangfree => some (32, word32 0x3D 0 0 0 5)
  | .vplane d a n k e => some (32, word32 0x3E d.toNat a.toNat n.toNat (k.toNat * 32 + e.toNat * 16))
  | .vtoplane d a k e => some (32, word32 0x3E d.toNat a.toNat 0 (k.toNat * 32 + e.toNat * 16 + 1))
  | .vqscale d a b k e => some (32, word32 0x3E d.toNat a.toNat b.toNat (k.toNat * 32 + e.toNat * 16 + 2))
  | .vnarrow d a k e => some (32, word32 0x3E d.toNat a.toNat 0 (k.toNat * 32 + e.toNat * 16 + 3))
  | .vdeq d a n k e => some (32, word32 0x3E d.toNat a.toNat n.toNat (k.toNat * 32 + e.toNat * 16 + 4))
  | .pref d a b => some (32, word32 0x3F d.toNat a.toNat b.toNat 0)
  | .land d a b => some (32, word32 0x3F d.toNat a.toNat b.toNat 1)
  | .pause d a b => some (32, word32 0x3F d.toNat a.toNat b.toNat 2)
  | .grantq d a b => some (32, word32 0x3F d.toNat a.toNat b.toNat 4)
  | .hintNop d a b f => some (32, word32 0x3F d.toNat a.toNat b.toNat f.toNat)
  | .cAddi d i => some (16, 0 + d.toNat * 256 + i.toNat)
  | .cMv d s => some (16, 8192 + d.toNat * 32 + s.toNat)
  | .cAdd d s => some (16, 9216 + d.toNat * 32 + s.toNat)
  | .cSub d s => some (16, 10240 + d.toNat * 32 + s.toNat)
  | .cAnd d s => some (16, 11264 + d.toNat * 32 + s.toNat)
  | .cOr d s => some (16, 12288 + d.toNat * 32 + s.toNat)
  | .cXor d s => some (16, 13312 + d.toNat * 32 + s.toNat)
  | .cSll d s => some (16, 14336 + d.toNat * 32 + s.toNat)
  | .cSra d s => some (16, 15360 + d.toNat * 32 + s.toNat)
  | .cLd d b i => some (16, 16384 + d.toNat * 512 + b.toNat * 64 + i.toNat)
  | .cSt s b i => some (16, 20480 + s.toNat * 512 + b.toNat * 64 + i.toNat)
  | .cJ o => some (16, 24576 + o.toNat)
  | .cBeqz s o => some (16, 26624 + s.toNat * 256 + o.toNat)
  | .cBnez s o => some (16, 28672 + s.toNat * 256 + o.toNat)
  | .cJr s => some (16, 30720 + s.toNat * 64)
  | .cVadd d s => some (16, 32768 + d.toNat * 32 + s.toNat)
  | .cVsub d s => some (16, 33792 + d.toNat * 32 + s.toNat)
  | .cVmul d s => some (16, 34816 + d.toNat * 32 + s.toNat)
  | .cVfadd d s => some (16, 35840 + d.toNat * 32 + s.toNat)
  | .cVfmul d s => some (16, 36864 + d.toNat * 32 + s.toNat)
  | .cVffma d s => some (16, 37888 + d.toNat * 32 + s.toNat)
  | .cVmax d s => some (16, 38912 + d.toNat * 32 + s.toNat)
  | .cVfmax d s => some (16, 39936 + d.toNat * 32 + s.toNat)
  | .cVaddX d s => some (16, 40960 + d.toNat * 32 + s.toNat)
  | .cVsubX d s => some (16, 41984 + d.toNat * 32 + s.toNat)
  | .cVmulX d s => some (16, 43008 + d.toNat * 32 + s.toNat)
  | .cVfaddX d s => some (16, 44032 + d.toNat * 32 + s.toNat)
  | .cVfmulX d s => some (16, 45056 + d.toNat * 32 + s.toNat)
  | .cVffmaX d s => some (16, 46080 + d.toNat * 32 + s.toNat)
  | .cVmaxX d s => some (16, 47104 + d.toNat * 32 + s.toNat)
  | .cVfmaxX d s => some (16, 48128 + d.toNat * 32 + s.toNat)
  | .tshape z m n k => some (64, word64 0 0 0 0 0 z.toNat 0 0 0 0 0 0 (m.toNat * 524288 + n.toNat * 8192 + k.toNat))
  | .twin z i => some (64, word64 1 0 0 0 0 z.toNat 0 0 0 0 0 0 i.toNat)
  | .tzero z => some (64, word64 2 0 0 0 0 z.toNat 0 0 0 0 0 0 0)
  | .tmma z a sa b sb ta tb pa pb ea eb => some (64, word64 3 a.toNat sa.toNat b.toNat sb.toNat z.toNat ta.toNat tb.toNat pa.toNat pb.toNat ea.toNat eb.toNat 0)
  | .tlda z a sa b t raw sm gm => some (64, word64 4 a.toNat sa.toNat b.toNat 0 z.toNat t.toNat 0 0 0 0 0 (raw.toNat * 16777216 + sm.toNat * 8388608 + gm.toNat))
  | .tsta z a sa b t raw sm gm => some (64, word64 5 a.toNat sa.toNat b.toNat 0 z.toNat t.toNat 0 0 0 0 0 (raw.toNat * 16777216 + sm.toNat * 8388608 + gm.toNat))
  | .tadd z zs => some (64, word64 6 0 0 0 0 z.toNat 0 0 0 0 0 0 zs.toNat)
  | .tsync => some (64, word64 7 0 0 0 0 0 0 0 0 0 0 0 0)
  | .tgang r c => some (64, word64 8 0 0 0 0 0 0 0 0 0 0 0 (r.toNat * 4 + c.toNat))
  | .csrWrite _ _ _ => none
  | .vtypeWrite _ _ => none
  | .lpartWrite _ _ => none
  | .preq _ _ => none
  | .cplogWrite _ _ => none
  | .trctlWrite _ _ => none
  | .atollWrite _ _ => none
  | .dbgctlStop _ _ => none
  | .dbgctlGo _ _ => none
  | .clusterFrozen _ => none
  | .dumpctlGo _ _ => none
  | .dumpComplete => none
  | .preemption _ _ => none
  | .waitTimeout _ => none
  | .barDeparture _ => none
  | .waitaWake _ => none
  | .chwaitReturn _ => none
  | .qpopWake _ => none
  | .qpushReply _ _ => none
  | .tsyncReturn _ => none
  | .copyChannelRoom _ => none
  | .gangFormed _ _ => none
  | .vacqGrant _ => none
  | .ctxloadGrant _ => none
  | .wfiWake _ => none
  | .registerWaitEnd _ => none
  | .producerArrival _ _ => none
  | .vectorQueueRoom _ => none
  | .pauseEnd _ => none
  | .yieldEnd _ => none
  | .laneBinding _ _ => none
  | .sequencerUnit _ => none
  | .streamPrefetch _ _ => none
  | .gangStreamFetch _ _ _ => none
  | .copyTransferStart _ _ => none
  | .copyComplete _ _ => none
  | .hartPlacement _ => none
  | .launchComplete _ _ => none
  | .launchRequest _ => none
  | .governorCapChange _ _ => none
  | .trafficCounterWrite _ => none
  | .straitBarArrival _ => none
  | .straitBarDeparture _ => none
  | .straitQueuePush _ => none
  | .straitCopyWrite _ => none
  | .straitFlitReplay _ => none
  | .straitPortLost _ => none
  | .narrowsLinkFailed _ => none
  | .hostHdmRead _ _ _ => none
  | .hostHdmWrite _ _ _ => none
  | .getEventRecords _ => none
  | .getFwInfo _ => none
  | .transferFw _ _ => none
  | .activateFw _ _ => none
  | .identifyMemoryDevice _ => none
  | .setLaunchQueue _ _ => none
  | .readSensors _ => none
  | .readLog _ _ _ => none
  | .getAttestationReport _ _ => none
  | .setFleetGroup _ _ => none
  | .sensorRefresh => none
  | .hbmPatrolScrub _ => none
  | .thermalTrip => none
  | .packageReset => none
  | .firmwareBoot => none
  | .hostLineCacheSnoop _ _ _ => none
  | .narrowsFlitReplay _ => none
  | .straitRecordFetch _ _ => none

/-- The instruction a code stands for. -/
def decodeCode (c : Code) : Option Instr :=
  if c.1 = 16 then decode16 c.2 else if c.1 = 32 then decode32 c.2 else if c.1 = 64 then decode64 c.2 else none

/-- The parcels of a code, parcel 0 (the highest) first (R49). -/
def parcelsOf (c : Code) : List (BitVec 16) :=
  if c.1 = 16 then [.ofNat 16 c.2]
  else if c.1 = 32 then [.ofNat 16 (c.2 / 0x10000), .ofNat 16 c.2]
  else [.ofNat 16 (c.2 / 2 ^ 48), .ofNat 16 (c.2 / 2 ^ 32), .ofNat 16 (c.2 / 2 ^ 16), .ofNat 16 c.2]

/-- The bytes of parcels as memory holds them, lowest address first: each parcel little-endian (R49). -/
def parcelBytes : List (BitVec 16) → List (BitVec 8)
  | [] => []
  | p :: ps => p.setWidth 8 :: (p >>> 8).setWidth 8 :: parcelBytes ps

/-- The code that the opcode table's numbering gives for a row of `nbits` bits: the table numbers an instruction as one
number with parcel 0 highest, so `w` is that number. -/
def tableCode (nbits w : Nat) : Code :=
  if nbits ≤ 16 then (16, w % 2 ^ 16) else if nbits ≤ 32 then (32, w % 2 ^ 32) else (64, w % 2 ^ 64)

/-- The instruction the decoder reads from a word of the opcode table, laid out in parcels as memory holds it. -/
def decodeTableWord (nbits w : Nat) : Option Instr :=
  decodeParcels (parcelsOf (tableCode nbits w))

end Sys2Proof

end
end

