-- ==== Sys2Proof/Machine/Fetch.lean ====
section
/-! DEFINITION. Fetching an instruction (03 R49 to R51) and the trap return's look at what it returns to (21 R372, 10 R194,
20 R363, R364, R419). -/

namespace Sys2Proof.Machine

/-! ### Fetch -/

/-- Fetches the parcel at `pc` on behalf of `w` (R50, R309). -/
def State.fetchParcel (s : State) (w : Who) (pc : Word) : Except Flt (BitVec 16 × State) :=
  match s.translate w .fetch false pc with
  | .error f => .error f
  | .ok p =>
    if s.failing p.key 2 then .error (s.memFlt p pc.toNat 2)
    else .ok (BitVec.ofNat 16 (Memory.read s.mem p.key 2), s.account w p 2 0)

/-- Fetches `n` parcels from `pc`. -/
def State.fetchMore (s : State) (w : Who) (pc : Word) : Nat → Except Flt (List (BitVec 16) × State)
  | 0 => .ok ([], s)
  | n + 1 =>
    match s.fetchParcel w pc with
    | .error f => .error f
    | .ok (p, s) =>
      match State.fetchMore s w (pc + 2) n with
      | .error f => .error f
      | .ok (ps, s) => .ok (p :: ps, s)

/-- Fetches the parcels of the instruction at `pc` (R49). -/
def State.fetch (s : State) (w : Who) (pc : Word) : Except Flt (List (BitVec 16) × State) :=
  match s.fetchParcel w pc with
  | .error f => .error f
  | .ok (p, s) =>
    match s.fetchMore w (pc + 2) (parcelCount p.toNat - 1) with
    | .error f => .error f
    | .ok (ps, s) => .ok (p :: ps, s)

/-- An instruction as fetched: its address, parcels and bits. -/
structure Fetched where
  pc : Word
  len : Nat
  bits : Nat

/-- The fetched instruction that parcels form. -/
def fetchedOf (pc : Word) (ps : List (BitVec 16)) : Fetched := ⟨pc, ps.length, joinParcels ps⟩

/-- Fetches the instructions from `pc` up to the one at `last`, at most `n`. -/
def State.fetchUpTo (s : State) (w : Who) (last : Word) : Nat → Word → Except Flt (List Fetched × State)
  | 0, _ => .ok ([], s)
  | n + 1, pc =>
    match s.fetch w pc with
    | .error f => .error f
    | .ok (ps, s) =>
      let x := fetchedOf pc ps
      if last.toNat ≤ pc.toNat then .ok ([x], s)
      else match State.fetchUpTo s w last n (pc + BitVec.ofNat 64 (2 * x.len)) with
        | .error f => .error f
        | .ok (xs, s) => .ok (x :: xs, s)

/-! ### TSEQ (R194) -/

/-- The op code and the number of steps of a tile instruction that may be part-way, under a shape and a GRANT (R188, R190, R191). -/
def tileSteps (sh : TileShape) (g : Nat) (x : Fetched) : Option (Nat × Nat) :=
  let op := Machine.bits x.bits 55 6
  if x.len ≠ 4 then none
  else if op = 3 then some (3, (sh.k + 7) / 8 * ((sh.m * sh.n + g - 1) / g))
  else if op = 4 ∨ op = 5 ∨ op = 6 then some (op, sh.m)
  else none

/-- TSEQ holds values that the instruction could not have recorded. -/
def Hart.tseqBad (h : Hart) (x : Option Fetched) : Bool :=
  h.tseq.getLsbD 63 &&
    (match x.bind (tileSteps h.shape ((fld h.tseq 28 4 + 1) * 16)) with
     | none => true
     | some (op, total) => fld h.tseq 53 6 != op || decide (7 < fld h.tseq 28 4) || fld h.tseq 32 21 == 0 ||
         decide (total ≤ fld h.tseq 32 21))

/-! ### ECONV (R363, R364, R419) -/

/-- A convoy member as ECONV records it. -/
structure Member where
  pc : Word
  grp : Nat
  deriving DecidableEq, Repr

/-- Slot `j` of an ECONV for an EPC, when V = 1 (Table 20-3). -/
def econvMember (epc econv : Word) (j : Nat) : Option Member :=
  if econv.getLsbD (16 * j + 15) then some ⟨epc + BitVec.ofNat 64 (2 * fld econv (16 * j) 9), fld econv (16 * j + 9) 6⟩ else none

/-- Slot `j` of ECONV, when V = 1. -/
def Hart.econvAt (h : Hart) (j : Nat) : Option Member := econvMember (evenPc h.epc) h.econv j

/-- The members that ECONV names. -/
def Hart.named (h : Hart) : List Member := ([0, 1, 2, 3] : List Nat).filterMap h.econvAt

/-- The members of slots 0, 1, … up to the first absent one. -/
def Hart.members (h : Hart) : List Member := (([0, 1, 2, 3] : List Nat).map h.econvAt).takeWhile Option.isSome |>.filterMap fun x => x

/-- The address of the last instruction that ERET fetches: the last member, or EPC (R372). -/
def Hart.lastNamed (h : Hart) : Word := h.named.foldl (fun a m => if a.toNat < m.pc.toNat then m.pc else a) (evenPc h.epc)

/-- The member number that CMEM names. -/
def Hart.cmem (h : Hart) : Nat := fld h.estatus 20 2

/-- Element groups that member `j` has completed. -/
def Hart.doneGroups (h : Hart) (j : Nat) (m : Member) : Nat := if j = h.cmem then h.eix.toNat / h.groupElems else m.grp

/-- Whether two lists share a number. -/
def meet (xs ys : List Nat) : Bool := xs.any ys.contains

/-- Whether an instruction between the head and a member keeps the member out of the convoy: it writes a g register, a mask or a CSR
that the member reads, writes VTYPE, or is a STRIP (R363). A vector destination writes LVD (R59). -/
def breaksConvoy (between member : Uses) : Bool :=
  meet between.gw member.gr || meet between.kw member.kr || between.breaks ||
    (match between.csr with | none => false | some c => c == 0 || member.cr.contains c) ||
    (!between.vw.isEmpty && member.cr.contains 6)

/-- What fetched instructions use when they are executed in order: a vector destination becomes the register that LVD names (R59). -/
def usesInOrder : UseCtx → List Fetched → List (Word × Uses)
  | _, [] => []
  | x, c :: cs =>
    let u := usesOf x c.len c.bits
    (c.pc, u) :: usesInOrder (match u.vw with | [] => x | r :: _ => { x with l := r.1 }) cs

/-- What ECONV names breaks the bounds of R363 and R419 for the instructions fetched from EPC. -/
def State.econvBad (s : State) (code : List Fetched) : Bool :=
  let h := s.h
  let ms := h.members
  let all := usesInOrder s.useCtx code
  let uses (pc : Word) : Uses := ((all.find? (fun x => x.1 == pc)).map (·.2)).getD {}
  let one (j : Nat) (m : Member) : Bool :=
    let u := uses m.pc
    let role := if j = 0 then u.role == .any || u.role == .first || (u.role == .last && ms.length == 1)
      else u.role == .any || (u.role == .last && j + 1 == ms.length)
    let prev := if j = 0 then none else ms[j - 1]?
    let link := match prev with
      | none => true
      | some p =>
        decide (p.pc.toNat < m.pc.toNat) && u.links.any (fun r => (uses p.pc).vw.any (Regs.overlap r)) &&
          decide (h.doneGroups j m ≤ h.doneGroups (j - 1) p) && decide (h.doneGroups (j - 1) p ≤ h.doneGroups j m + 2)
    let clear := all.all fun x => !(decide ((evenPc h.epc).toNat < x.1.toNat) && decide (x.1.toNat < m.pc.toNat)) || !breaksConvoy x.2 u
    !role || !link || !clear || decide (h.stripGroups < h.doneGroups j m)
  !h.named.isEmpty && (h.named.length != ms.length || (ms.head?.map (·.pc)) != some (evenPc h.epc) ||
    (ms.mapIdx one).any fun x => x)

/-! ### The return (R373) -/

/-- Where the interrupted instructions go on: the instruction at EPC from EIX, or from the step of TSEQ, or each member from its GRP,
the one that CMEM names from EIX. The classes of FRAISED count as raised by that one alone (R117, R364). -/
def Hart.resumePoints (h : Hart) : List Resume :=
  let epc := evenPc h.epc
  if h.part then
    match h.members with
    | [] => [{ Resume.at epc (if h.tseq.getLsbD 63 then fld h.tseq 32 21 else h.eix.toNat) with prior := h.fraised }]
    | ms => ms.mapIdx fun j m =>
        if j = h.cmem then { Resume.at m.pc h.eix.toNat with prior := h.fraised, member := true }
        else { Resume.at m.pc (m.grp * h.groupElems) with member := true }
  else if h.replay then [Resume.at epc 0]
  else []

/-- What the part holds for the return of the hart that moves (log 53): what a trap from the same level has left at EPC, or at an ECALL
or BRK that the handler returns past (R373). -/
def Hart.shelfAt (h : Hart) : Option Shelf :=
  h.shelf.find? fun x => (x.epc == evenPc h.epc || x.epc + 4 == evenPc h.epc) && fld x.status 0 2 == fld h.estatus 0 2

/-- Whether the registers that say where the return goes on still hold what the trap wrote there (R361). -/
def Hart.unchanged (h : Hart) (x : Shelf) : Bool :=
  x.epc == evenPc h.epc && x.eix == h.eix && x.econv == h.econv && x.tseq == h.tseq && x.status == returnBits h.estatus

/-- Where the return of the hart that moves goes on: what the registers say, with what the part holds beside them when the handler
has left them unchanged; what stands behind the place of the trap, of which they say nothing, goes on from its point all the same. -/
def Hart.returnPoints (h : Hart) : List Resume :=
  let points := h.resumePoints
  match h.shelfAt with
  | none => points
  | some x =>
    if h.unchanged x then
      (points.map fun p => match x.points.find? fun r => r.pc == p.pc with
        | some r => { p with prior := p.prior ||| r.prior, lvd := r.lvd }
        | none => p) ++ x.points.filter fun r => !points.any fun p => p.pc == r.pc
    else
      let saved := x.epc :: (([0, 1, 2, 3] : List Nat).filterMap (econvMember x.epc x.econv)).map (·.pc)
      points ++ x.points.filter fun r => !saved.contains r.pc && !points.any fun p => p.pc == r.pc

/-- The return from an exception of the hart that moves (R373): level, PM, PC, and where the interrupted work goes on; a watch hit of
the part-way instruction waits for its completion (log 53). -/
def State.returnTrap (s : State) : State :=
  let h := s.h
  let held := h.shelfAt
  let watch := held.bind (·.watch)
  let mid := (held.map (·.mid)).getD false
  { s with h := { h with
      lvl := Level.ofCode (fld h.estatus 0 2)
      estatus := setFld h.estatus 18 1 0
      pc := evenPc h.epc
      landAt := none
      resume := h.returnPoints
      watch := if mid then h.watch else watch
      watchHeld := match held with | some x => if mid && h.unchanged x then watch else none | none => none
      shelf := match held with | none => h.shelf | some x => h.shelf.erase x } }

end Sys2Proof.Machine
end

