-- ==== Sys2Proof/Machine/Convoy.lean ====
section
/-! DEFINITION. A resumed convoy (15 R290, 20 R363, R364, R419): which of its members may run in turns of an element group, without
a difference from program order, and which goes next. -/

namespace Sys2Proof.Machine

/-- The members of the convoy whose head stands at the PC, the head first (R364). -/
def Hart.team (h : Hart) : List Resume := h.resume.filter (·.member)

/-! ### What may run out of program order without a difference (R87, R235, R364) -/

/-- Whether an instruction only computes a g register from g registers and its bits: the integer instructions of 32 bits and their
compact forms. -/
def Fetched.plain (x : Fetched) : Bool :=
  (x.len == 2 && decide (0x180 ≤ x.bits >>> 23) && decide (x.bits >>> 23 ≤ 0x186)) || (x.len == 1 && decide (x.bits < 0x4000))

/-- The parts of the runs that an instruction names, each with the bytes of an element: a group, a group of elements of twice the
width, or the field of a memory form; 0 for what lies there by byte number. -/
def Hart.parts (h : Hart) (u : Uses) (rs : List Regs) : List (Regs × Nat) :=
  rs.flatMap fun r =>
    if u.sizes.any fun x => x.1 == r then [(r, 0)]
    else if u.pipe = some .lanes then [(r, if r.2 = h.grp ∨ r.2 = 2 * h.grp then h.runWidth u r else 0)]
    else (List.range (r.2 / h.grp)).map fun i => ((r.1 + h.grp * i, h.grp), ewbOf h.vtype)

/-- Whether the registers that two members name let the second run an element group behind the first: what both name, and one
writes, holds the same elements for both. -/
def Hart.inStep (h : Hart) (a b : Uses) : Bool :=
  let meets (xs ys : List (Regs × Nat)) : Bool := xs.all fun x => ys.all fun y => !Regs.overlap x.1 y.1 || (x == y && x.2 != 0)
  meets (h.parts a (a.vr ++ a.vw)) (h.parts b b.vw) && meets (h.parts a a.vw) (h.parts b b.vr) &&
    (match a.csr with | none => true | some c => !b.cr.contains c && b.csr != some c) &&
    (match b.csr with | none => true | some c => !a.cr.contains c)

/-- What a member that is a load or a store has still to access from element `at_` on: the kind of its accesses and their addresses. -/
def State.memberAddrs (s : State) (u : Uses) (at_ : Nat) : AccKind × List Word :=
  let h := s.h
  let g (r : Nat) : Word := s.getG (BitVec.ofNat 5 r)
  let F := (((u.vw ++ u.vr).head?).map (·.2)).getD 0 / h.grp
  let go (addr : State → Nat → Nat → Except Flt Word) : List Word := h.activeAddrs (u.kr.headD 0) F at_ h.span (addr s)
  let kind : AccKind := if u.role = .last then .write else .read
  if u.role ≠ .first ∧ u.role ≠ .last then (kind, [])
  else match u.gr with
    | [b] => (kind, go (unitAddr (g b) F))
    | [b, x] => (kind, go (strideAddr (g b) (g x)))
    | _ => (kind, [])

/-- The addresses of the member at a point, which `w` fetches. -/
def State.addrsAt (s : State) (w : Who) (r : Resume) : AccKind × List Word :=
  match s.fetch w r.pc with
  | .error _ => (.read, [])
  | .ok (ps, _) => s.memberAddrs (usesOf s.useCtx ps.length (joinParcels ps)) r.at_

/-- The physical places of the member at a point: keys and numbers of bytes. -/
def State.reach (s : State) (r : Resume) : List (Nat × Nat) :=
  let a := s.addrsAt s.who r
  a.2.filterMap fun va => match s.translate s.who a.1 false va with | .ok p => some (p.key, ewbOf s.h.vtype) | .error _ => none

/-- Whether no byte lies in both of two lists of places. -/
def disjoint (xs ys : List (Nat × Nat)) : Bool :=
  xs.all fun x => ys.all fun y => decide (x.1 + x.2 ≤ y.1) || decide (y.1 + y.2 ≤ x.1)

/-- The members, from the head on, that may run in turns of an element group: nothing that is executed before one of them in program
order reads or writes what it writes, or writes what it reads, but for the element groups that it follows (R87, R364, log 9). -/
def State.fellows (s : State) : List Resume :=
  let h := s.h
  match h.team with
  | [] => []
  | [r] => [r]
  | r0 :: rs =>
    match s.fetchUpTo s.who (((rs.getLast?).map (·.pc)).getD h.pc) 512 h.pc with
    | .error _ => [r0]
    | .ok (code, _) =>
      let all := code.zip ((usesInOrder s.useCtx code).map (·.2))
      let usesAt (pc : Word) : Uses := ((all.find? fun x => x.1.pc == pc).map (·.2)).getD {}
      let before (u : Uses) (r : Resume) (x : Fetched × Uses) : Bool :=
        match h.team.find? fun m => m.pc == x.1.pc with
        | none => x.1.plain
        | some m => h.inStep x.2 u && (x.2.role != .first || u.role != .last || disjoint (s.reach m) (s.reach r))
      r0 :: rs.takeWhile fun r => all.all fun x => decide (r.pc.toNat ≤ x.1.pc.toNat) || before (usesAt r.pc) r x

/-! ### Whose turn it is (R290, R419) -/

/-- Whether two neighbouring members of a convoy, with the groups that they and the member behind have completed, let the second go on:
not past the first, and no more than two groups before the third. -/
def mayGoOn (before this : Nat) (after : Option Nat) : Bool :=
  decide (this < before) && (match after with | none => true | some c => decide (this < c + 2))

/-- The last member that may go on by a group, by its place, when the head may not. -/
def lastToGo (cs : List Nat) : Option Nat :=
  ((List.range cs.length).filter fun j => j != 0 && mayGoOn ((cs[j - 1]?).getD 0) ((cs[j]?).getD 0) cs[j + 1]?).getLast?

/-- The member behind the head, by its place, that stands within an element group which it can complete: it does so before all else, for
a member stops at the end of one (R363). -/
def Hart.laggard (h : Hart) (rs : List Resume) : Option Nat :=
  let cs := rs.map fun r => r.at_ / h.groupElems
  (List.range rs.length).find? fun j => j != 0 && decide (((rs[j]?).map fun r => r.at_ % h.groupElems).getD 0 ≠ 0) &&
    decide ((cs[j]?).getD 0 + 1 < h.stripGroups) && mayGoOn ((cs[j - 1]?).getD 0) ((cs[j]?).getD 0) cs[j + 1]?

/-- That member of the hart that moves, by its place. -/
def State.laggard (s : State) : Option Nat := if s.h.heads then s.h.laggard s.fellows else none

/-- Whether part-way members lie behind the PC with nothing but plain instructions before the first of them: those have issued while the
head of the convoy was in execution (R285), and no pre-emption lands between them. -/
def State.betweenMembers (s : State) : Bool :=
  match s.h.behind.find? (·.member) with
  | none => false
  | some m =>
    !s.h.resuming && decide (s.h.pc.toNat < m.pc.toNat) &&
      (match s.fetchUpTo s.who m.pc 512 s.h.pc with
       | .error _ => false
       | .ok (code, _) => code.all fun x => x.pc == m.pc || x.plain)

/-! ### Machine checks (R385) -/

/-- What the members of a convoy name as destinations, and the bytes that they store, are undefined after a machine check of one of
them (R385). -/
def State.loseMembers (s : State) (w : Who) (rs : List Resume) : State :=
  rs.foldl (fun (s : State) r =>
    match s.fetch w r.pc with
    | .error _ => s
    | .ok (ps, _) =>
      let u := usesOf s.useCtx ps.length (joinParcels ps)
      let t := s.loseUses u ps.length (joinParcels ps)
      if u.role != .last then t
      else (s.addrsAt w { r with at_ := 0 }).2.foldl (fun (t : State) va => t.loseBytesAs w (ewbOf s.h.vtype) va) t) s

end Sys2Proof.Machine
end

