-- ==== Sys2Proof/Machine/Copy.lean ====
section
/-! DEFINITION. Copies: the COPY instruction, the engine's transfers and completions, and the event queue (13 R247 to R252,
14 R273, R274, 12 R230, 16 R300, 18 R343, 19 R352). -/

namespace Sys2Proof.Machine

/-! ### Fields of a copy record (Table 13-2) -/

/-- CH -/
def Transfer.ch (t : Transfer) : BitVec 3 := t.ctl.setWidth 3
/-- Planes sent: PK, 8 when PK = 0 -/
def Transfer.planes (t : Transfer) : Nat := if fld t.ctl 4 4 = 0 then 8 else fld t.ctl 4 4
/-- SEG -/
def Transfer.seg (t : Transfer) : Bool := t.ctl.getLsbD 9
/-- SH -/
def Transfer.sh (t : Transfer) : Bool := t.ctl.getLsbD 10
/-- EV -/
def Transfer.ev (t : Transfer) : Bool := t.ctl.getLsbD 11
/-- DPKG -/
def Transfer.dpkg (t : Transfer) : BitVec 12 := t.ctl.extractLsb' 32 12
/-- REMOTE -/
def Transfer.remote (t : Transfer) : Bool := t.ctl.getLsbD 44

/-- The record breaks R247; bits [63:45] of word 3 are not read (log 27). -/
def Transfer.bad (t : Transfer) : Bool :=
  (!t.sh && decide (fld t.len 40 24 ≠ 0)) || decide (fld t.ctl 12 20 ≠ 0) || t.ctl.getLsbD 8 || t.ctl.getLsbD 3 ||
    (decide (fld t.ctl 4 4 ≠ 0) && !t.seg) ||
    (t.seg && (t.sh || decide (fld t.len 0 40 % 72 ≠ 0) || decide (t.src.toNat % 8 ≠ 0) || decide (t.dst.toNat % 8 ≠ 0)))

/-- The shape record of a copy breaks R239, or names what only a stream has (R273). -/
def Shape.badForCopy (sh : Shape) : Bool := sh.bad 1 || decide (bregOf sh ≠ 0) || sh.gang || sh.writes || sh.ev

/-! ### Spans of bytes, word by word (R226) -/

/-- Reads `n` bytes from `va`, each aligned word by itself. -/
def State.readSpan (s : State) (w : Who) (va : Word) : Nat → Nat → Except Flt (Nat × State)
  | 0, _ => .ok (0, s)
  | fuel + 1, n =>
    if n = 0 then .ok (0, s)
    else
      let k := min (8 - va.toNat % 8) n
      match s.loadAs w false va k with
      | .error f => .error f
      | .ok (x, s) =>
        match State.readSpan s w (va + BitVec.ofNat 64 k) fuel (n - k) with
        | .error f => .error f
        | .ok (y, s) => .ok (x + y * 2 ^ (8 * k), s)

/-- Writes `n` bytes from `va`, each aligned word by itself; a word of a signal page takes the tag (R300). -/
def State.writeSpan (s : State) (w : Who) (tag : BitVec 48) (va : Word) : Nat → Nat → Nat → Except Flt State
  | 0, _, _ => .ok s
  | fuel + 1, n, x =>
    if n = 0 then .ok s
    else
      let k := min (8 - va.toNat % 8) n
      match s.translate w .write false va, s.storeAs w false va k (x % 2 ^ (8 * k)) with
      | .ok p, .ok s => State.writeSpan (s.setTag p tag) w tag (va + BitVec.ofNat 64 k) fuel (n - k) (x / 2 ^ (8 * k))
      | .error f, _ => .error f
      | _, .error f => .error f

/-! ### The units of a transfer -/

/-- What the engine moves at once: bytes, a position of the source's shape, or a segment. -/
inductive CopyUnit where
  | bytes (src dst : Word) (n : Nat)
  | position (e : Nat) (dst : Word)
  | segment (src dst : Word)
  deriving DecidableEq, Repr

/-- The units of a plain copy: up to the end of an aligned word of the destination each. -/
def bytesUnits (src dst : Word) : Nat → Nat → List CopyUnit
  | 0, _ => []
  | fuel + 1, n =>
    if n = 0 then []
    else
      let k := min (8 - dst.toNat % 8) n
      .bytes src dst k :: bytesUnits (src + BitVec.ofNat 64 k) (dst + BitVec.ofNat 64 k) fuel (n - k)

/-- The units of a transfer (R247, R251). -/
def Transfer.units (t : Transfer) : List CopyUnit :=
  match t.shape with
  | some sh => (List.range sh.len).map fun e => .position e (t.dst + BitVec.ofNat 64 (e * sh.bytes))
  | none =>
    let n := fld t.len 0 40
    if t.seg then (List.range (n / 72)).map fun b => .segment (t.src + BitVec.ofNat 64 (72 * b)) (t.dst + BitVec.ofNat 64 (72 * b))
    else bytesUnits t.src t.dst n n

/-- On whose behalf the engine accesses memory: the issuing hart's address space, level and core (R37, R309). -/
def Transfer.who (t : Transfer) : Who := ⟨t.ptbr, t.lvl, coreOf t.hart⟩

/-- The producer ID of a transfer's channel (Table 16-4). -/
def Transfer.pid (t : Transfer) : Nat := (coreOf t.hart).toNat * 8 + t.ch.toNat

/-- The tag of the engine's writes: the channel with the issuing hart's CPTAG (R300, Table 16-4). -/
def Transfer.mark (t : Transfer) : BitVec 48 := mkTag 2 t.pid t.tag

/-- A state in which every island is in one atoll: what the narrows filters would not block (R343). -/
def State.unfiltered (s : State) : State := { s with islands := s.islands.map fun i => { i with atoll := 3 } }

/-- The error code of a fault at `side` 1 (source) or 2 (destination) (Table 13-3). -/
def State.copyErr (s : State) (w : Who) (side : Nat) (f : Flt) : BitVec 7 × Word :=
  let k : AccKind := if side = 1 then .read else .write
  if f.cause = 0x13 then (5, f.eaddr &&& BitVec.ofNat 64 (2 ^ 52 - 1))
  else if f.cause = 0x0A then
    match s.translate w k true f.eaddr, s.unfiltered.translate w k true f.eaddr with
    | .error _, .ok _ => (6, f.eaddr)
    | _, _ => (BitVec.ofNat 7 side, f.eaddr)
  else (BitVec.ofNat 7 side, f.eaddr)

/-- The destination and the bytes of a unit: where, how many, and their value; or the error (R248). -/
def State.readUnit (s : State) (t : Transfer) : CopyUnit → Except (BitVec 7 × Word) (Word × Nat × Nat × State)
  | .bytes src dst n =>
    match s.readSpan t.who src n n with
    | .error f => .error (s.copyErr t.who 1 f)
    | .ok (x, s) => .ok (dst, n, x, s)
  | .position e dst =>
    match t.shape with
    | none => .ok (dst, 0, 0, s)
    | some sh =>
      if sh.oob e && !sh.permit then .error (3, 0)
      else match sh.addr e, s.readPos t.who sh (t.fillv.toNat % 2 ^ (8 * sh.bytes)) e with
        | .error f, .error _ => .error (1, f.eaddr)
        | _, .error f => .error (s.copyErr t.who 1 f)
        | _, .ok (x, s) => .ok (dst, sh.bytes, x, s)
  | .segment src dst =>
    match s.readSpan t.who src 8 8 with
    | .error f => .error (s.copyErr t.who 1 f)
    | .ok (hdr, s) =>
      if !hdrValid hdr then .error (4, src)
      else match s.readSpan t.who (src + 8) 64 (8 * min t.planes (hdrP hdr)) with
        | .error f => .error (s.copyErr t.who 1 f)
        | .ok (x, s) => .ok (dst, 72, hdr + x * 2 ^ 64, s)

/-- The fleet group of the atoll of an island (R352). -/
def State.fleetGroup (s : State) (isl : BitVec 3) : List FleetMember :=
  (s.tabos.groups[s.atollFirst isl]?).getD []

/-- On whose behalf a remote access is made in the atoll whose first island is `first`: the address space of an ASID, with user
rights (R352). -/
def remoteWho (first : BitVec 3) (asid : BitVec 12) : Who :=
  ⟨BitVec.ofNat 64 (1 + (Config.memberRoot first asid).toNat * 2 ^ 16 + asid.toNat * 2 ^ 52), .user, first ++ (0 : BitVec 7)⟩

/-- Whether an address is one that a remote access can name: a window address means a core's own memory (R37), and what it names on
the destination package the spec does not say, so that it faults there (DESIGN CHOICE, log 59). -/
def remoteAddr (va : Word) : Bool := decide (va.toNat < 0x000FFFFE00000000)

/-- The member of its own fleet group that a remote transfer names (R352). -/
def State.memberOf (s : State) (t : Transfer) : Option FleetMember :=
  (s.fleetGroup (islandOf (coreOf t.hart))).find? fun m => m.pkg == t.dpkg

/-- Whether a transfer goes to another package: a REMOTE one whose DPKG names this package is treated as REMOTE = 0 (R273). -/
def State.goesAway (s : State) (t : Transfer) : Bool := t.remote && t.dpkg != s.tabos.pkg

/-- The keys of the bytes a unit reads. -/
def State.unitKeys (s : State) (t : Transfer) (u : CopyUnit) : List Nat :=
  let p : Option (Word × Nat) := match u with
    | .bytes src _ n => some (src, n)
    | .segment src _ => some (src, 72)
    | .position e _ => t.shape.bind fun sh =>
        if sh.oob e then none else match sh.addr e with | .ok va => some (va, sh.bytes) | .error _ => none
  match p with
  | none => []
  | some (va, n) => (List.range n).filterMap fun i =>
    match s.translate t.who .read false (va + BitVec.ofNat 64 i) with | .ok p => some p.key | .error _ => none

/-- The keys of the bytes a unit writes. -/
def State.unitDest (s : State) (t : Transfer) (u : CopyUnit) : List Nat :=
  let p : Word × Nat := match u with
    | .bytes _ dst n => (dst, n)
    | .segment _ dst => (dst, 72)
    | .position _ dst => (dst, match t.shape with | some sh => sh.bytes | none => 0)
  (List.range p.2).filterMap fun i =>
    match s.translate t.who .write false (p.1 + BitVec.ofNat 64 i) with | .ok p => some p.key | .error _ => none

/-- A unit as it is read while the copy itself writes what it reads: R230 gives those accesses no order, so each aligned word is read
as before the copy or as it stands (R226), a segment as a whole with its checks (R228, R251), free (log 7). `s0` is the state before
the copy. -/
def State.readMixed (s0 s : State) (t : Transfer) (u : CopyUnit) : Except (BitVec 7 × Word) (Word × Nat × Nat × State) :=
  let c := s.takeFree.1
  let s := s.takeFree.2
  let old : Except (BitVec 7 × Word) (Word × Nat × Nat × State) := match ({ s with mem := s0.mem, badMem := s0.badMem }).readUnit t u with
    | .ok (dst, n, x, _) => .ok (dst, n, x, s)
    | .error e => .error e
  let new := s.readUnit t u
  match u, old, new with
  | .bytes src _ _, .ok (dst, n, x, _), .ok (_, _, y, s) =>
    let first := min (8 - src.toNat % 8) n
    let low := if c.getLsbD 0 then x else y
    let high := if c.getLsbD 1 then x else y
    .ok (dst, n, low % 2 ^ (8 * first) + high >>> (8 * first) <<< (8 * first), s)
  | _, _, _ => if c.getLsbD 0 then old else new

/-- One unit moves; `s0` is the state before the copy, and `dest` the keys of the bytes it writes. -/
def State.moveUnit (s0 s : State) (t : Transfer) (dest : List Nat) (u : CopyUnit) : Except (BitVec 7 × Word) State :=
  match (if (s.unitKeys t u).any dest.contains then State.readMixed s0 s t u else s.readUnit t u) with
  | .error e => .error e
  | .ok (dst, n, x, s) =>
    match s.writeSpan t.who t.mark dst n n x with
    | .error f => .error (s.copyErr t.who 2 f)
    | .ok s => .ok s

/-- Moves units, each of them or not, which is free (R248); one that meets an error is not moved, and what is free for the next is
another free value than the one that its read took. -/
def State.moveSome (s0 s : State) (t : Transfer) (dest : List Nat) : List CopyUnit → State
  | [] => s
  | u :: us =>
    let skip := s.takeFree.1.getLsbD 0
    let s := s.takeFree.2
    let s := if skip then s else match State.moveUnit s0 s t dest u with | .ok s => s | .error _ => s.takeFree.2
    State.moveSome s0 s t dest us

/-- Moves units in order up to the first that meets an error, which stops the transfer: the error with the state. Those behind it are
moved or not (R248). -/
def State.moveUnits (s0 s : State) (t : Transfer) (dest : List Nat) : List CopyUnit → (BitVec 7 × Word) × State
  | [] => ((0, 0), s)
  | u :: us =>
    match State.moveUnit s0 s t dest u with
    | .error e => (e, State.moveSome s0 s.takeFree.2 t dest us)
    | .ok s => State.moveUnits s0 s t dest us

/-- The units in an order that is free (R230, log 7). -/
def State.shuffle (s : State) : List CopyUnit → List CopyUnit × State
  | [] => ([], s)
  | u :: us =>
    let r := State.shuffle s us
    let n := r.2.takeFree.1.toNat % (r.1.length + 1)
    (r.1.take n ++ u :: r.1.drop n, r.2.takeFree.2)

/-- The pages of keys, one entry for a run of keys in one. -/
def pagesOf : List Nat → List Nat
  | [] => []
  | k :: ks => match pagesOf ks with | p :: ps => if p = k / 4096 then p :: ps else k / 4096 :: p :: ps | [] => [k / 4096]

/-- Whether the order of a copy's accesses shows: it reads what it writes, or writes a page under two addresses. -/
def State.orderShows (s : State) (t : Transfer) (dest : List Nat) : Bool :=
  (t.units.any fun u => (s.unitKeys t u).any dest.contains) || !decide (pagesOf dest).Nodup

/-- The data of a local transfer moves: the outcome with the state (R248, R251). When units meet errors, the one reported and
the units moved are free. R230 lets its accesses interleave with those of the issuing hart up to CHWAIT: here all of them are made in
one step (DESIGN CHOICE, log 69). -/
def State.moveLocal (s : State) (t : Transfer) : (BitVec 7 × Word) × State :=
  let dest := (t.units.map (s.unitDest t)).flatten
  if s.orderShows t dest then
    let r := s.shuffle t.units
    State.moveUnits s r.2 t dest r.1
  else
    let errors := t.units.filterMap fun u => match State.moveUnit s s t [] u with | .error e => some e | .ok _ => none
    match errors with
    | [] => State.moveUnits s s t [] t.units
    | e :: es =>
      let x := s.takeFree.1
      ((((e :: es)[x.toNat % (e :: es).length]?).getD e), State.moveSome s s.takeFree.2 t [] t.units)

/-- The ports that are not lost (R351). -/
def State.portsUp (s : State) : List (BitVec 5) :=
  ((List.range 18).map (BitVec.ofNat 5)).filter fun p => !s.portsLost.contains p

/-- The port by which messages to a package leave, all by one route: that of the routing table, which is updated when a port is lost
(R352, R353, log 42); none when no port is left. -/
def State.portTo (s : State) (dest : BitVec 12) : Option (BitVec 5) :=
  match (s.tabos.routes.find? fun r => r.1 == dest && s.portsUp.contains r.2).map (·.2) with
  | some p => some p
  | none => s.portsUp[Config.route dest % s.portsUp.length]?

/-- What a strait message carries of its sender (R302). -/
def State.sender (s : State) (kind id : Nat) (edge : Word) (port : BitVec 5) : Sender :=
  ⟨BitVec.ofNat 4 kind, BitVec.ofNat 28 id, edge, s.tabos.pkg, port⟩

/-- Sends units, one message each in order (R302, R352); with `free` each of them or not, which is free (R248). -/
def State.sendUnits (s : State) (t : Transfer) (m : FleetMember) (port : BitVec 5) (free : Bool) : List CopyUnit → State
  | [] => s
  | u :: us =>
    let skip := free && s.takeFree.1.getLsbD 0
    let s := if free then s.takeFree.2 else s
    let s := match (if skip then .error (0, 0) else s.readUnit t u) with
      | .error _ => s
      | .ok (dst, n, x, s) =>
        let data := (List.range n).map fun i => BitVec.ofNat 8 (x >>> (8 * i))
        let msg : StraitWrite := ⟨m.atoll, dst, data, s.sender 2 t.pid t.tag port⟩
        { s with outbox := s.outbox ++ [.copyWrite m.pkg msg] }
    State.sendUnits s t m port free us

/-- The data of a transfer to another package is sent. What becomes of it over there is not seen here: complete, or ERR 2 at a free
address (log 7); a port that is lost ends it with ERR 7 (R353). When units meet errors, the one reported and the units sent are free
(R248). -/
def State.moveRemote (s : State) (t : Transfer) (m : FleetMember) : (BitVec 7 × Word) × State :=
  if t.units = [] then ((0, 0), s)
  else match s.portTo m.pkg with
    | none => ((7, 0), s)
    | some port =>
      let x := s.takeFree.1
      let s := s.takeFree.2
      match t.units.filterMap fun u => match s.readUnit t u with | .error e => some e | .ok _ => none with
      | e :: es => ((((e :: es)[x.toNat % (e :: es).length]?).getD e), s.sendUnits t m port true t.units)
      | [] =>
        let s := s.sendUnits t m port false t.units
        if x.toNat % 4 = 1 then ((2, s.takeFree.1), s.takeFree.2) else ((0, 0), s)

/-- A transfer's data moves: its outcome (R250). The destination of one to another package is translated there, through the tables of
the member that DPKG names; a package outside the group is ERR 2 (R352). -/
def State.moveData (s : State) (t : Transfer) : (BitVec 7 × Word) × State :=
  if !s.goesAway t then s.moveLocal t
  else match s.memberOf t with
    | none => if t.units = [] then ((0, 0), s) else ((2, t.dst), s)
    | some m => s.moveRemote t m

/-- Channel `c` of core `k`. -/
def State.chan (s : State) (k : BitVec 10) (c : BitVec 3) : Channel := (s.core k).chans[c.toNat]'c.isLt

/-- Replaces channel `c` of core `k`. -/
def State.setChan (s : State) (k : BitVec 10) (c : BitVec 3) (x : Channel) : State :=
  s.setCore k { s.core k with chans := (s.core k).chans.set c.toNat x c.isLt }

/-- The engine reads and writes the next transfer of a channel, all of it in this step (R247, R250; log 69) -/
def execCopyTransferStart (core : BitVec 10) (ch : BitVec 3) (s : State) : Result :=
  match (s.chan core ch).queue with
  | [] => .next s
  | t :: ts =>
    if t.outcome.isSome then .next s
    else
      let r := s.moveData t
      let s := r.2
      .next (s.setChan core ch { s.chan core ch with queue := { t with outcome := some r.1 } :: ts })

/-- Whether a message is a write of the channel with a producer ID. -/
def StraitMsg.ofChannel (pid : Nat) : StraitMsg → Bool
  | .copyWrite _ m => m.by_.id.toNat == pid
  | _ => false

/-- The engine writes word 3 again and the channel goes on (R247 to R250): CHST, and a completion record when EV asks for it
or the transfer met an error -/
def execCopyComplete (core : BitVec 10) (ch : BitVec 3) (s : State) : Result :=
  match (s.chan core ch).queue with
  | [] => .next s
  | t :: ts =>
    match t.outcome with
    | none => .next s
    | some (err, addr) =>
      let w3 := setFld t.ctl 56 8 (2 ^ 7 + err.toNat)
      let s := match s.translate t.who .write false (t.record + 24), s.writeSpan t.who t.mark (t.record + 24) 8 8 w3.toNat with
        | .ok p, .ok s => { s with dones := SMap.set none s.dones (p.key / 8) (some ⟨t.pid, t.tag⟩) }
        | _, _ => s
      -- every write of the copy has performed (R247): none of its messages is on the way
      let s := if t.remote then { s with outbox := s.outbox.filter fun m => !m.ofChannel t.pid } else s
      let c := s.chan core ch
      let tags := c.tags.filter (fun p => p.1 != t.id)
      let s := s.setChan core ch { c with chst := t.id, queue := ts, tags := if t.tag = 0 then tags else (t.id, t.tag) :: tags }
      .next (if err != 0 then s.post core (eventOf 2 err.toNat t.id.toNat ch.toNat addr.toNat)
        else if t.ev then s.post core (eventOf 1 0 t.id.toNat ch.toNat t.record.toNat)
        else s)

/-! ### COPY and EVPOP (R273, R274) -/

/-- Step 5 of COPY (R273): DONE and ERR become 0, the transfer takes the next ID, which goes to gd. -/
def State.copyIssue (s : State) (d : BitVec 5) (t : Transfer) : Result :=
  let w3 := setFld t.ctl 56 8 0
  match s.storeAs s.who true (t.record + 24) 8 w3.toNat with
  | .error f => s.trapFlt f
  | .ok s =>
    let c := s.chan s.myCore t.ch
    let id := c.counter + 1
    let t := { t with id, ctl := w3, hart := s.h.id, lvl := s.h.lvl, ptbr := s.h.ptbr, fillv := s.h.fillv, tag := s.h.cptag }
    let s := s.setChan s.myCore t.ch { c with counter := id, queue := c.queue ++ [t] }
    .next (s.comeBack d (id.setWidth 64))

/-- Steps 3 to 5 of COPY (R273). -/
def State.copyRest (s : State) (d : BitVec 5) (t : Transfer) : Result :=
  match s.translate s.who .write true (t.record + 24) with
  | .error f => s.trapFlt f
  | .ok _ =>
    if 16 ≤ (s.chan s.myCore t.ch).queue.length then .next (s.enterWait (.copy d t)) else s.copyIssue d t

/-- COPY (R230, R247, R273) -/
def execCopy (d a : BitVec 5) (s : State) : Result :=
  let rec_ := s.getG a
  s.check [(decide (rec_.toNat % 8 ≠ 0), 0x06, rec_)] fun s =>
    match s.loadWords s.who rec_ 4 with
    | .error f => (s.loseG d f.cause).trapFlt f
    | .ok (ws, s) =>
      let t : Transfer := ⟨0, rec_, (ws[0]?).getD 0, (ws[1]?).getD 0, (ws[2]?).getD 0, (ws[3]?).getD 0 &&& ~~~((0xFF : Word) <<< 56), none,
        s.h.id, s.h.lvl, s.h.ptbr, s.h.fillv, s.h.cptag, none⟩
      s.check [(t.bad, 0x02, rec_)] fun s =>
        if t.sh then
          s.check [(decide (t.len.toNat % 8 ≠ 0), 0x06, t.len)] fun s =>
            match s.loadWords s.who t.len 8 with
            | .error f => (s.loseG d f.cause).trapFlt f
            | .ok (xs, s) =>
              let sh := shapeOf xs
              s.check [(sh.badForCopy, 0x02, t.len)] fun s => s.copyRest d { t with shape := some sh }
        else s.copyRest d t

/-- A COPY that waits on a full channel goes on when a transfer of it has completed (R249, R273); it waits on otherwise. -/
def State.copyRoom (s : State) : Result :=
  match s.h.slot with
  | .wait (.copy d t) _ => if 16 ≤ (s.chan s.myCore t.ch).queue.length then .next s else s.copyIssue d t
  | _ => .next s

/-- Runs an operation with a result on the hart `id` and gives the turn back. -/
def State.onHartR (s : State) (id : HartId) (f : State → Result) : Result :=
  match f (s.focus id) with
  | .next t => .next (t.focus s.h.id)
  | .fault e => .fault e
  | .refused e => .refused e

/-- A transfer on a full channel has completed and a waiting COPY goes on (R273) -/
def execCopyChannelRoom (h : BitVec 12) (s : State) : Result := s.onHartR h fun s => s.copyRoom

/-- EVPOP (R274) -/
def execEvpop (d : BitVec 5) (s : State) : Result :=
  s.check [(d.getLsbD 0 || decide (d.toNat < 2), 0x02, s.ir)] fun s =>
    let k := s.core s.myCore
    match k.events with
    | [] => .next ((s.setG d 0).setGAdv (d + 1) 0 4)
    | r :: rs =>
      let s := s.setCore s.myCore { k with events := rs }
      .next ((s.setG d r.w0).setGAdv (d + 1) r.w1 4)

end Sys2Proof.Machine
end

