-- ==== Sys2Proof/Machine/Strip.lean ====
section
/-! DEFINITION. Strips, the vector type, loop-bound compares, mask logic and hints (06 R102 to R108, 03 R61, R62, 04 R69 to R71). -/

namespace Sys2Proof.Machine

/-- A deprecated instruction retires: DEPCNT counts it, and an advisory is due when it is enabled at user level (R70, R71). -/
def State.deprecated (s : State) : State :=
  { s with h := { s.h with
      depcnt := s.h.depcnt + 1
      advisory := if s.h.depadv && s.h.lvl == .user then some s.h.pc else none } }

/-- The addresses of `n` positions of a stream from `p` that an access reaches: those below LEN and in bounds that are not in `buf`. -/
def Shape.addrsFrom (sh : Shape) (buf : List (Nat × Nat)) (p n : Nat) : List Word :=
  ((List.range' p (min n (sh.len - p))).filter fun e => !sh.oob e && !buf.any fun x => x.1 == e).filterMap fun e =>
    match sh.addr e with
    | .ok va => some va
    | .error _ => none

/-- What a STRIP that computes `span` accesses for its streams: on whose behalf, the kind, the bytes of an element, and the addresses. -/
def State.stripAccesses (s : State) (span : Nat) : List (Who × AccKind × Nat × List Word) :=
  let own := s.h.streams.toList.filterMap id
  let gangs := ([0, 1, 2, 3] : List (BitVec 2)).filterMap s.gangTurn
  (own.map fun q =>
    (s.streamWho q, if q.shape.writes then AccKind.write else .read, q.shape.bytes,
      if q.shape.writes then (if q.pos = 0 then [] else q.shape.addrsFrom [] q.prev s.h.span) else q.shape.addrsFrom (s.readAhead q) q.pos span)) ++
  gangs.map fun (q, j) =>
    (s.gangWho q, AccKind.read, q.stream.shape.bytes,
      if (q.strip j).isSome then [] else q.stream.shape.addrsFrom [] (j * span) span)

/-- The failing words that a STRIP that computes `span` would consume. -/
def State.stripBadWords (s : State) (span : Nat) : List (Nat × Nat × BitVec 3) :=
  if s.badMem = [] then []
  else (s.stripAccesses span).flatMap fun x => x.2.2.2.flatMap fun va => s.badWordsAs x.1 x.2.1 x.2.2.1 va

/-- A machine check of a STRIP that computes `span` (R384, R385): the lowest failing word, or the one that `f` met at a position read
ahead, and what the STRIP delivers and captures is undefined. -/
def State.stripCheckFails (s : State) (span : Nat) (f : Flt) : Result :=
  let xs := s.stripAccesses span
  let bad := s.stripBadWords span
  let runs := (s.h.streams.toList.filterMap fun q => q.bind fun q => if q.shape.writes then none else some (bregOf q.shape)) ++
    (([0, 1, 2, 3] : List (BitVec 2)).filterMap s.gangTurn).map fun x => bregOf x.1.stream.shape
  let t := runs.foldl (fun (s : State) b => s.loseV b s.h.grp) s
  let t := xs.foldl (fun (t : State) x =>
    if x.2.1 = .write then x.2.2.2.foldl (fun (t : State) va => t.loseBytesAs x.1 x.2.2.1 va) t else t) t
  t.trapFlt ⟨0x13, if bad = [] then f.eaddr else s.badSummary bad⟩

/-- The fault `f` of a STRIP that computes `span`: where its streams pass the checks of R243, so that they access memory, a failing
word of any of them comes before another's fault (R386). -/
def State.stripFault (s : State) (span : Nat) (f : Flt) : Result :=
  let u := s.settleStreams
  if f.cause = 0x13 || (u.stripChecks span).isNone && u.stripBadWords span != [] then u.stripCheckFails span f else s.trapFlt f

/-- Steps 1, 2, 4 and 5 of STRIP (R103), then `k`; a stream's trap comes before any effect (R243). -/
def State.strip (s : State) (k : State → Result) : Result :=
  let grant := s.sampleGrant
  let span := spanOf grant s.h.vtype
  match s.stripStreams grant span with
  | .error f => s.stripFault span f
  | .ok t => k t

/-- STRIP (R103) -/
def execStrip (d : BitVec 5) (s : State) : Result := s.strip fun s => .next (s.setGAdv d (BitVec.ofNat 64 s.h.span) 4)

/-- SETVL (R106) -/
def execSetvl (d a : BitVec 5) (s : State) : Result :=
  let x := s.getG a
  s.strip fun s =>
    let n := min x.toNat s.h.span
    .next (((s.setK 1 (lowMask n)).deprecated).setGAdv d (BitVec.ofNat 64 n) 4)

/-- VSETTYPE (R104, R275) -/
def execVsettype (d a : BitVec 5) (s : State) : Result :=
  s.check [(!s.vtypeOk (s.getG a), 0x02, s.ir)] fun s =>
    let t := { s with h := s.h.setVtype (s.getG a) }
    .next (t.setGAdv d (BitVec.ofNat 64 t.h.span) 4)

/-- A loop-bound compare writes bits below SPAN for which i < `n` and clears the rest (R105). -/
def State.limit (s : State) (d : BitVec 5) (n : Int) : Result :=
  .next ((s.setK d.toNat (lowMask (min n.toNat s.h.span))).adv 4)

/-- LIMLT (R105): gs1 + i < gs2 for exactly the i below gs2 - gs1 -/
def execLimlt (d a b : BitVec 5) (s : State) : Result := s.limit d ((s.getG b).toInt - (s.getG a).toInt)
/-- LIMLE (R105) -/
def execLimle (d a b : BitVec 5) (s : State) : Result := s.limit d ((s.getG b).toInt - (s.getG a).toInt + 1)
/-- LIMLTN (R105) -/
def execLimltn (d a b : BitVec 5) (s : State) : Result :=
  s.limit d (((s.getG b).toNat : Int) - ((s.getG a).toNat : Int))

/-! ### Mask logic (R107) -/

/-- Reads a mask operand. -/
def State.getK (s : State) (a : BitVec 5) : BitVec 8192 := s.h.getK a.toNat

/-- Writes a mask and moves on. -/
def State.setKAdv (s : State) (d : BitVec 5) (x : BitVec 8192) : Result := .next ((s.setK d.toNat x).adv 4)

/-- MAND (R107) -/
def execMand (d a b : BitVec 5) (s : State) : Result := s.setKAdv d (s.getK a &&& s.getK b)
/-- MOR (R107) -/
def execMor (d a b : BitVec 5) (s : State) : Result := s.setKAdv d (s.getK a ||| s.getK b)
/-- MXOR (R107) -/
def execMxor (d a b : BitVec 5) (s : State) : Result := s.setKAdv d (s.getK a ^^^ s.getK b)
/-- MANDN (R107) -/
def execMandn (d a b : BitVec 5) (s : State) : Result := s.setKAdv d (s.getK a &&& ~~~s.getK b)
/-- MNOT (R107) -/
def execMnot (d a : BitVec 5) (s : State) : Result := s.setKAdv d (~~~s.getK a)
/-- MCOPY (R107) -/
def execMcopy (d a : BitVec 5) (s : State) : Result := s.setKAdv d (s.getK a)
/-- MFILL (R107) -/
def execMfill (d : BitVec 5) (s : State) : Result := s.setKAdv d (BitVec.allOnes 8192)
/-- MZERO (R107) -/
def execMzero (d : BitVec 5) (s : State) : Result := s.setKAdv d 0

/-- The bits of a mask below SPAN. -/
def State.maskBelow (s : State) (a : BitVec 5) : Nat := (s.getK a).toNat % 2 ^ s.h.span

/-- The lowest of the `n` bits from `i` that is 1. -/
def lowestBit (x i : Nat) : Nat → Option Nat
  | 0 => none
  | n + 1 => if x.testBit i then some i else lowestBit x (i + 1) n

/-- An index in gd, all ones when there is none. -/
def indexWord (i : Option Nat) : Word := match i with | none => -1 | some i => BitVec.ofNat 64 i

/-- MCOUNT (R107) -/
def execMcount (d a : BitVec 5) (s : State) : Result :=
  .next (s.setGAdv d (BitVec.ofNat 64 (onesBelow (s.maskBelow a) s.h.span)) 4)
/-- MFIRST (R107) -/
def execMfirst (d a : BitVec 5) (s : State) : Result :=
  .next (s.setGAdv d (indexWord (lowestBit (s.maskBelow a) 0 s.h.span)) 4)
/-- MLAST (R107) -/
def execMlast (d a : BitVec 5) (s : State) : Result :=
  let x := s.maskBelow a
  .next (s.setGAdv d (indexWord (if x = 0 then none else some (Nat.log2 x))) 4)

/-- MFROMG (R107): the 64-bit piece gs2[6:0] of kd -/
def execMfromg (d a b : BitVec 5) (s : State) : Result :=
  let sh := 64 * ((s.getG b).toNat % 128)
  let ones : BitVec 8192 := BitVec.ofNat 8192 (2 ^ 64 - 1)
  s.setKAdv d ((s.getK d &&& ~~~(ones <<< sh)) ||| ((s.getG a).setWidth 8192 <<< sh))

/-- MTOG (R107) -/
def execMtog (d a b : BitVec 5) (s : State) : Result :=
  .next (s.setGAdv d (((s.getK a) >>> (64 * ((s.getG b).toNat % 128))).setWidth 64) 4)

/-! ### Hints (R61, R108): no operand of a hint is read but as said here -/

/-- PREF (R108): the fetch it may start changes nothing -/
def execPref (_d _a _b : BitVec 5) (s : State) : Result := .next (s.adv 4)
/-- LAND (R97, R108): marks a branch target; the check is made when the branch lands -/
def execLand (_d _a _b : BitVec 5) (s : State) : Result := .next (s.adv 4)
/-- PAUSE (R108): the slot issues nothing until the pause ends -/
def execPause (_d _a _b : BitVec 5) (s : State) : Result :=
  let t := s.adv 4
  .next { t with h := { t.h with paused := true } }
/-- GRANTQ (R62, R108): whether it writes is free (log 7), and gd is good when it does (R383); with gd = g0 it writes nothing -/
def execGrantq (d _a _b : BitVec 5) (s : State) : Result :=
  let x := s.takeFree.1
  let t := s.takeFree.2
  .next ((if x.getLsbD 0 then { t with h := t.h.mend fun b => b == (1, d.toNat) }.setG d (BitVec.ofNat 64 (spanOf s.sampleGrant s.h.vtype)) else t).adv 4)
/-- An unassigned hint (R61) -/
def execHintNop (_d _a _b : BitVec 5) (_f : BitVec 8) (s : State) : Result := .next (s.adv 4)

/-- PAUSE ends: 32 cy have passed, or a wakeup came (R108) -/
def execPauseEnd (h : BitVec 12) (s : State) : Result :=
  .next (s.onHart h fun s => { s with h := { s.h with paused := false } })

end Sys2Proof.Machine
end

