-- ==== Sys2Proof/Machine/Sync.lean ====
section
/-! DEFINITION. Barriers, waits, queues and critical-path instructions (17 R310 to R320, R326, R327; 16 R296 to R302, R307; 19 R352). -/

namespace Sys2Proof.Machine

/-! ### Words that these instructions name (R311) -/

/-- The place of the 8-byte word at `va` after the checks of R311 behind alignment: read, then write when it is written, then no
device page. A missing write permission comes before the checks of a page's home (Table 18-6). -/
def State.wordAt (s : State) (va : Word) (writes : Bool) : Except Flt Place :=
  match s.translate s.who .read true va with
  | .error f =>
    match s.translate s.who .write true va with
    | .error g => .error (if writes && f.cause == 0x0A && g.cause == 0x08 then g else f)
    | .ok _ => .error f
  | .ok _ =>
    match s.translate s.who (if writes then .write else .read) true va with
    | .error f => .error f
    | .ok _ => s.translate s.who (if writes then .write else .read) false va

/-! ### Barriers (R312 to R316, R298) -/

/-- The barrier unit's record of the word at a key. -/
def State.episode (s : State) (key : Nat) : Episode := (s.episodes.find? (fun e => e.key == key)).getD ⟨key, none, none, 0, 0⟩

/-- Replaces the barrier unit's record of a word. -/
def State.setEpisode (s : State) (e : Episode) : State :=
  { s with episodes := e :: s.episodes.filter (fun x => x.key != e.key) }

/-- A departure reaches a waiting hart: those at the word and target given, at fleet scope or below it. -/
def Slot.release (key : Nat) (target : Word) (fleet : Bool) (x edge : Word) : Slot → Slot
  | .wait (.bar d k sc t false old none) since =>
    if k = key ∧ t = target ∧ (sc == 5) = fleet then .wait (.bar d k sc t false old (some (x, edge))) since
    else .wait (.bar d k sc t false old none) since
  | y => y

/-- A departure reaches every waiter of an episode but the harts that `gone` names: a write has brought their word to its target before
(R312). -/
def State.releaseBar (s : State) (gone : HartId → Bool) (key : Nat) (target : Word) (fleet : Bool) (x edge : Word) : State :=
  let go (h : Hart) : Hart := if gone h.id then h else { h with slot := h.slot.release key target fleet x edge }
  { s with h := go s.h, others := s.others.map go }

/-- Whether a hart's word has come to be what it is waited for (R292, R312). -/
def State.hasHit (s : State) (id : HartId) : Bool := s.watches.any fun w => w.hart == id && w.hit.isSome

/-- Whether a hart waits below fleet scope for the word at `key` to reach `v`. -/
def Hart.awaitsBar (h : Hart) (key : Nat) (v : Word) : Bool :=
  match h.slot with
  | .wait (.bar _ k sc t false _ none) _ => decide (k = key ∧ t = v) && sc != 5
  | _ => false

/-- The hart that moves watches no word any more. -/
def State.unwatch (s : State) : State := { s with watches := s.watches.filter fun w => w.hart != s.h.id }

/-- The home of the word at a key watches it for the hart that moves, unless it does so already in the same wait (R292, R312, R317). -/
def State.watchWord (s : State) (key : Nat) (u : Until) : State :=
  let goes := match s.h.slot with
    | .wait .. => s.watches.any fun w => w.hart == s.h.id && w.key == key && w.until_ == u
    | _ => false
  if goes then s else { s.unwatch with watches := s.unwatch.watches ++ [⟨s.h.id, key, u, none⟩] }

/-- The first value that was what the hart that moves waits for since it began to watch, with the tag of the write that brought it. -/
def State.watched (s : State) : Option (Word × BitVec 48) :=
  match s.h.slot with
  | .wait .. => ((s.watches.find? fun w => w.hart == s.h.id).bind (·.hit)).map fun x => (x.1, x.2.1)
  | _ => none

/-- The hart that moves departs: gd, CPTAG and the PC (R298, R312); a BARG is counted as deprecated (R70, R316). -/
def State.depart (s : State) (d : BitVec 5) (old : Bool) (x edge : Word) : State :=
  (((if old then s.deprecated else s).carry edge).unwatch).comeBack d x

/-- The edge of an episode that ends now (R298): created on island `isl` when it lasted CPTHR, else the producer's own. -/
def State.episodeEdge (s : State) (isl : BitVec 3) (first : HartId) (began pkind pid : Nat) (edge : Word) : Word × State :=
  if s.cpthr isl ≤ s.clk - began then s.newEdge isl 1 first.toNat pkind pid edge began else (edge, s)

/-! Fleet scope (R314) -/

/-- The lowest-numbered package of a fleet group. -/
def lowestPkg (g : List FleetMember) (me : BitVec 12) : BitVec 12 := g.foldl (fun (x : BitVec 12) m => if m.pkg < x then m.pkg else x) me

/-- The fleet barrier of a word address in the atoll of island `isl`. -/
def State.fleetBar (s : State) (isl : BitVec 3) (va : Word) : FleetBar :=
  (s.fleetBars.find? (fun b => b.isl == isl && b.va == va)).getD ⟨isl, va, 0, []⟩

/-- Replaces a fleet barrier; one that counts nothing and has no local episode goes. -/
def State.setFleetBar (s : State) (b : FleetBar) : State :=
  let rest := s.fleetBars.filter (fun x => !(x.isl == b.isl && x.va == b.va))
  { s with fleetBars := if b.count = 0 ∧ b.local_ = [] then rest else b :: rest }

/-- The oldest local episode of a fleet barrier departs: gd names package and hart of the last arrival; the edge is this
package's own record or the one carried (R298, R314). The edge that departures carry on is returned. -/
def State.fleetDepart (s : State) (isl : BitVec 3) (va x : Word) (pkind pid : Nat) (edge : Word) : Word × State :=
  let b := s.fleetBar isl va
  match b.local_ with
  | [] => (edge, s)
  | e :: es =>
    let (id, s) := s.episodeEdge e.isl e.first e.began pkind pid edge
    let s := s.releaseBar (fun _ => false) e.key e.target true x id
    let s := s.setEpisode { s.episode e.key with last := some x, tag := id, released := e.target }
    (id, s.setFleetBar { b with local_ := es })

/-- The lowest package counts a package arrival, and at the N-th the barrier completes: departures go out (R314). A package that no
port reaches gets none (R353). -/
def State.fleetCount (s : State) (m : StraitBar) : State :=
  let b := s.fleetBar m.isl m.va
  if b.count + 1 < m.n.toNat then s.setFleetBar { b with count := b.count + 1 }
  else
    let me := s.tabos.pkg
    let away := m.pkg != me
    let s := s.setFleetBar { b with count := 0 }
    let x : Word := BitVec.ofNat 64 (m.pkg.toNat * 2 ^ 12 + m.hart.toNat)
    let r := s.fleetDepart m.isl m.va x (if away then 3 else 1)
      (if away then m.by_.port.toNat * 2 ^ 12 + m.pkg.toNat else m.hart.toNat) m.by_.edge
    let s := r.2
    let out := (s.fleetGroup m.isl).filterMap fun g =>
      if g.pkg = me then none
      else (s.portTo g.pkg).map fun p => StraitMsg.barDeparture g.pkg ⟨g.atoll, m.va, m.n, m.pkg, m.hart, s.sender 7 me.toNat r.1 p⟩
    { s with outbox := s.outbox ++ out }

/-- The error summary of a link: its structure code; what ISL and LOC hold for one is free (Table 22-2). -/
def State.linkSummary (s : State) (src : Nat) : Word × State :=
  (BitVec.ofNat 64 (src * 2 ^ 56 + s.takeFree.1.toNat % 2 ^ 52 + bits s.takeFree.1.toNat 53 3 * 2 ^ 53), s.takeFree.2)

/-- A package arrival of a fleet barrier goes to the lowest package (R314). With no port left the hart that waits takes a machine
check (R353). -/
def State.fleetSend (s : State) (va : Word) (n : Nat) : State :=
  let g := s.fleetGroup s.myIsland
  let me := s.tabos.pkg
  let low := lowestPkg g me
  let first := BitVec.ofNat 3 (s.atollFirst s.myIsland)
  let m (isl : BitVec 3) (port : BitVec 5) : StraitBar :=
    ⟨isl, va, BitVec.ofNat 16 n, me, s.h.id, s.sender 1 s.h.id.toNat s.h.cptag port⟩
  if low = me then s.fleetCount (m first 0)
  else
    let there := ((g.find? (fun x => x.pkg == low)).map (·.atoll)).getD 0
    match s.portTo low with
    | some port => { s with outbox := s.outbox ++ [StraitMsg.barArrival low (m there port)] }
    | none =>
      let r := s.linkSummary 11
      { r.2 with h := { r.2.h with mcheck := some r.1 } }

/-! The instruction -/

/-- The arrival of the hart that moves (R312): `c` arrivals complete an episode, `n` packages a fleet barrier. -/
def State.barArrive (s : State) (d : BitVec 5) (va : Word) (scope : BitVec 3) (old : Bool) (c n : Nat) : Result :=
  match s.rmw va 8 (fun old => some ((old + 1) % 2 ^ 64)) with
  | .error f => (s.loseG d f.cause).trapFlt f
  | .ok (before, p, t) =>
    -- those whose word another write has brought to its target depart by that one
    let gone := s.hasHit
    let s := t
    let v := (before + 1) % 2 ^ 64
    let target : Word := BitVec.ofNat 64 (c * ((v + c - 1) / c))
    let s := s.setTag p s.hartTag
    let ep := s.episode p.key
    let first := if (v - 1) % c = 0 then (s.h.id, s.clk) else ep.first.getD (s.h.id, s.clk)
    let word : Word := BitVec.ofNat 64 v
    let whole := decide (target = word)
    let wait : Wait := .bar d p.key scope target false old none
    let released := if (ep.released - word).toNat < 2 ^ 63 then word - 1 else ep.released
    if scope = 5 then
      let s := s.enterWait wait
      if whole then
        let s := s.setEpisode { ep with first := none, released }
        let isl := BitVec.ofNat 3 (s.atollFirst s.myIsland)
        let b := s.fleetBar isl va
        .next ((s.setFleetBar { b with local_ := b.local_ ++ [⟨target, p.key, p.isl, first.1, first.2⟩] }).fleetSend va n)
      else .next (s.setEpisode { ep with first := some first, released })
    else if whole || s.others.any (fun h => h.awaitsBar p.key word && !gone h.id) then
      let r := s.episodeEdge p.isl first.1 first.2 1 s.h.id.toNat s.h.cptag
      let x : Word := s.h.id.setWidth 64
      let s := r.2.setEpisode { ep with first := if whole then none else some first, last := some x, tag := r.1 }
      let s := s.releaseBar gone p.key word false x r.1
      .next (if whole then s.depart d old x r.1 else (s.watchWord p.key (.reaches target)).enterWait wait)
    else .next (((s.setEpisode { ep with first := some first }).watchWord p.key (.reaches target)).enterWait wait)

/-- A BAR that waits: it departs when its departure has come, or below fleet scope when a write has brought the word to its target in
another way, whatever was written then, and waits on otherwise (R312, R315). -/
def State.barTry (s : State) : State :=
  match s.h.slot with
  | .wait (.bar d key scope target again old gone) _ =>
    let ep := s.episode key
    match gone with
    | some (x, edge) => s.depart d old x edge
    | none =>
      if scope = 5 then
        if again && ep.last.isSome && decide ((ep.released - target).toNat < 2 ^ 63) then s.depart d old (ep.last.getD 0) ep.tag else s
      else if s.watched.isSome || reached (BitVec.ofNat 64 (Memory.read s.mem key 8)) target then
        if again then s.depart d old (ep.last.getD 0xFFF) ep.tag else s.depart d old 0xFFF 0
      else s
  | _ => s

/-- BAR at a scope. A BAR that goes on after ERET with EIX not 0 does not arrive again (R315). -/
def State.bar (s : State) (d a b : BitVec 5) (scope : BitVec 3) (old : Bool) : Result :=
  let va := s.getG a
  let x := s.getG b
  let c := fld x 0 32
  let n := fld x 32 16
  let group := s.fleetGroup s.myIsland
  let bad := if scope = 5 then decide (c = 0) || decide (fld x 48 16 ≠ 0) || decide (n < 1 ∨ 4096 < n) || decide (n ≠ group.length)
    else decide (c = 0) || decide (fld x 32 32 ≠ 0)
  let again := decide (s.h.start ≠ 0)
  s.check [(bad, 0x02, s.ir), (decide (va.toNat % 8 ≠ 0), 0x06, va)] fun s =>
    match s.wordAt va (!again) with
    | .error f => s.trapFlt f
    | .ok p =>
      if again then
        let target : Word := BitVec.ofNat 64 s.h.start
        let s := if scope = 5 then s else s.watchWord p.key (.reaches target)
        .next (s.enterWait (.bar d p.key scope target true old none)).barTry
      else s.barArrive d va scope old c n

/-- BAR (R312 to R315) -/
def execBar (d a b : BitVec 5) (sc : BitVec 3) (s : State) : Result := s.bar d a b sc false
/-- BARG (R316): BAR at package scope, counted as deprecated -/
def execBarg (d a b : BitVec 5) (s : State) : Result := s.bar d a b 4 true
/-- A waiting hart departs from a barrier (R312) -/
def execBarDeparture (h : BitVec 12) (s : State) : Result := .next (s.onHart h fun s => s.barTry)

/-! ### WAITA (R317) -/

/-- A WAITA returns on its condition: gd is the value that met it, and the tag is that of the write that brought it (R296 kind 2,
R297, R301). -/
def State.waitaMet (s : State) (d : BitVec 5) (x : Word) (tag : BitVec 48) : Result :=
  let s := s.unwatch
  .next ((s.arrived 2 (tagKind tag) (tagPid tag) (s.tagEdge tag)).comeBack d x)

/-- A read of WAITA's word: it returns on its condition, or on a timeout, and waits otherwise. A write that meets the condition ends
the wait whatever is written then (R292). -/
def State.waitaTry (s : State) (d : BitVec 5) (va : Word) (cond : BitVec 2) (y : Word) : Result :=
  match s.wordAt va false with
  | .error f => s.unwatch.trapFlt f
  | .ok p =>
    match s.load false va 8 with
    | .error f => (s.unwatch.loseG d f.cause).trapFlt f
    | .ok (x, t) =>
      let w : Word := BitVec.ofNat 64 x
      match t.watched with
      | some (w, tag) => t.waitaMet d w (if p.signal then tag else 0)
      | none =>
        if condHolds cond w y then t.waitaMet d w (if p.signal then t.tagAt p.key else 0)
        else if t.timedOut then .next (t.unwatch.comeBack d w)
        else .next ((t.watchWord p.key (.meets cond y)).enterWait (.waita d va cond y))

/-- WAITA (R317): one that was interrupted in its wait waits again, with a watch of its own (log 47) -/
def execWaita (d a b : BitVec 5) (c : BitVec 3) (s : State) : Result :=
  s.check [(decide ((s.getG a).toNat % 8 ≠ 0), 0x06, s.getG a)] fun s =>
    ((if s.h.hasWaited then s.unwatch else s).waitAgain (.waita d (s.getG a) (c.setWidth 2) (s.getG b))).waitaTry d (s.getG a) (c.setWidth 2) (s.getG b)

/-- A WAITA that waits reads its word again (R317). -/
def State.waitaWake (s : State) : Result :=
  match s.h.slot with
  | .wait (.waita d va cond y) _ => s.waitaTry d va cond y
  | _ => .next s

/-- Whether the word of a waiting WAITA has come to meet its condition: its home watches it (R292, R317). -/
def State.waitaReady (s : State) : Bool :=
  s.watched.isSome || match s.h.slot with
  | .wait (.waita _ va cond y) _ =>
    match s.wordAt va false with
    | .error _ => true
    | .ok p => condHolds cond (BitVec.ofNat 64 (Memory.read s.mem p.key 8)) y
  | _ => false

/-- A write to the watched word wakes a WAITA (R317) -/
def execWaitaWake (h : BitVec 12) (s : State) : Result := s.onHartR h fun s => s.waitaWake

/-! ### CHWAIT (R318) -/

/-- A read of the record's word 3: CHWAIT returns on DONE = 1 or on a timeout, and waits otherwise. The producer is the channel
whose completion wrote the word, or unknown. -/
def State.chwaitTry (s : State) (d : BitVec 5) (va : Word) : Result :=
  match s.wordAt va false, s.wordAt (va + 24) false with
  | .error f, _ => s.trapFlt f
  | _, .error f => s.trapFlt f
  | .ok _, .ok p =>
    match s.load false (va + 24) 8 with
    | .error f => (s.loseG d f.cause).trapFlt f
    | .ok (x, t) =>
      let w3 : Word := BitVec.ofNat 64 x
      if w3.getLsbD 63 then
        let t := match SMap.get none t.dones (p.key / 8) with
          | some by_ => t.arrived 3 2 by_.pid by_.tag
          | none => t.arrived 3 0 0 0
        .next (t.comeBack d w3)
      else if t.timedOut then .next (t.comeBack d w3)
      else .next (t.enterWait (.chwaitRec d va))

/-- CHWAIT, record form (R318): one that was interrupted in its wait waits again (log 47) -/
def execChwait (d a : BitVec 5) (s : State) : Result :=
  s.check [(decide ((s.getG a).toNat % 8 ≠ 0), 0x06, s.getG a)] fun s =>
    (s.waitAgain (.chwaitRec d (s.getG a))).chwaitTry d (s.getG a)

/-- Whether transfer `id` of a channel counts as complete (R249). -/
def Channel.complete (c : Channel) (id : BitVec 48) : Bool := decide ((c.chst - id).toNat < 2 ^ 47)

/-- CHWAIT on a channel and ID: it returns when the ID counts as complete or on a timeout, and waits otherwise. -/
def State.chwaitIdTry (s : State) (d : BitVec 5) (ch : BitVec 3) (id : BitVec 48) : Result :=
  let c := s.chan s.myCore ch
  let x : Word := c.chst.setWidth 64
  if c.complete id then
    let tag := ((c.tags.find? (fun p => p.1 == id)).map (fun p => p.2)).getD 0
    .next ((s.arrived 3 2 (s.myCore.toNat * 8 + ch.toNat) tag).comeBack d x)
  else if s.timedOut then .next (s.comeBack d x)
  else .next (s.enterWait (.chwaitId d ch id))

/-- CHWAIT, ID form (R318): one that was interrupted in its wait waits again (log 47) -/
def execChwaitId (d a b : BitVec 5) (s : State) : Result :=
  let x := s.getG a
  let y := s.getG b
  let ch : BitVec 3 := x.setWidth 3
  let id : BitVec 48 := y.setWidth 48
  let ahead := (id - (s.chan s.myCore ch).counter).toNat
  s.check [(decide (fld x 3 61 ≠ 0) || decide (fld y 48 16 ≠ 0) || id == 0 || (decide (1 ≤ ahead) && decide (ahead ≤ 2 ^ 47)), 0x02, s.ir)]
    fun s => (s.waitAgain (.chwaitId d ch id)).chwaitIdTry d ch id

/-- A CHWAIT that waits looks again (R318). -/
def State.chwaitWake (s : State) : Result :=
  match s.h.slot with
  | .wait (.chwaitRec d va) _ => s.chwaitTry d va
  | .wait (.chwaitId d ch id) _ => s.chwaitIdTry d ch id
  | _ => .next s

/-- Whether a waiting CHWAIT would return on its condition, or trap. -/
def State.chwaitReady (s : State) : Bool :=
  match s.h.slot with
  | .wait (.chwaitRec _ va) _ =>
    match s.wordAt va false, s.wordAt (va + 24) false with
    | .ok _, .ok p => decide (Memory.read s.mem p.key 8 / 2 ^ 63 = 1)
    | _, _ => true
  | .wait (.chwaitId _ ch id) _ => (s.chan s.myCore ch).complete id
  | _ => false

/-- The awaited transfer has completed and CHWAIT returns (R318) -/
def execChwaitReturn (h : BitVec 12) (s : State) : Result := s.onHartR h fun s => s.chwaitWake

/-! ### Queues (R319, R320) -/

/-- A queue record as read (Table 17-4). -/
structure QueueRec where
  head : Word
  tail : Word
  base : Word
  ctl : Word
  deriving DecidableEq, Repr

/-- LOG2N -/
def QueueRec.log2n (q : QueueRec) : Nat := fld q.ctl 0 5
/-- REMOTE -/
def QueueRec.remote (q : QueueRec) : Bool := q.ctl.getLsbD 44
/-- DPKG -/
def QueueRec.dpkg (q : QueueRec) : BitVec 12 := q.ctl.extractLsb' 32 12
/-- The record breaks R320. -/
def QueueRec.bad (q : QueueRec) : Bool :=
  decide (fld q.ctl 45 19 ≠ 0) || decide (fld q.ctl 8 24 ≠ 0) || decide (q.log2n < 1 ∨ 16 < q.log2n) ||
    decide (q.base.toNat % 32 ≠ 0) || (!q.remote && decide (5 ≤ fld q.ctl 5 3))
/-- The address of the entry of a count. -/
def QueueRec.entry (q : QueueRec) (n : Word) : Word := q.base + BitVec.ofNat 64 (32 * (n.toNat % 2 ^ q.log2n))
/-- The queue has no room. -/
def QueueRec.isFull (q : QueueRec) : Bool := decide (2 ^ q.log2n ≤ (q.tail - q.head).toNat)

/-- A 32-byte record or entry as a record of four words. -/
def queueRecOf (x : Nat) : QueueRec :=
  ⟨BitVec.ofNat 64 x, BitVec.ofNat 64 (x >>> 64), BitVec.ofNat 64 (x >>> 128), BitVec.ofNat 64 (x >>> 192)⟩

/-- What a QPOP writes is undefined after a machine check (R385): gd, gd+1 and HEAD. -/
def State.losePop (d : BitVec 5) (va : Word) (f : Flt) (s : State) : State :=
  if f.cause = 0x13 then ((s.loseG d 0x13).loseG (d + 1) 0x13).loseBytes 8 va else s

/-- What a QPUSH writes is undefined after a machine check (R385): gd and TAIL; no machine check comes once its entry is known. -/
def State.losePush (d : BitVec 5) (va : Word) (f : Flt) (s : State) : State :=
  if f.cause = 0x13 then (s.loseG d 0x13).loseBytes 8 (va + 8) else s

/-- Reads the queue record at `va`, checks its contents and those that `bad` names for the instruction (R63, R320), then runs `k`. `lose`
says what is undefined after a machine check. -/
def State.withQueue (s : State) (lose : Flt → State → State) (bad : QueueRec → Bool) (va : Word)
    (k : Place → QueueRec → State → Result) : Result :=
  s.check [(decide (va.toNat % 32 ≠ 0), 0x06, va)] fun s =>
    match s.wordAt va false with
    | .error f => (lose f s).trapFlt f
    | .ok p =>
      match s.load false va 32 with
      | .error f => (lose f s).trapFlt f
      | .ok (x, t) => t.check [((queueRecOf x).bad || bad (queueRecOf x), 0x02, t.ir)] fun t => k p (queueRecOf x) t

/-- Puts an entry into a queue with room and advances TAIL; the record, which it writes, and the entry meet the checks of R311. -/
def State.queuePut (s : State) (va : Word) (q : QueueRec) (data edge : Word) (kind pid : Nat) : Except Flt State :=
  let e := q.entry q.tail
  match s.wordAt va true, s.wordAt e true with
  | .error f, _ => .error f
  | _, .error f => .error f
  | .ok _, .ok _ =>
    match s.store false e 32 (data.toNat + edge.toNat * 2 ^ 64 + (kind * 2 ^ 28 + pid % 2 ^ 28) * 2 ^ 128) with
    | .error f => .error f
    | .ok s => s.store false (va + 8) 8 (q.tail + 1).toNat

/-- Performs a push to a strait queue on this package, on behalf of `w`: the status that it is answered with, and the record's key
when an entry was put (R320, R352). -/
def State.remotePush (s : State) (w : Who) (va data edge : Word) (kind pid : Nat) : BitVec 2 × Option Nat × State :=
  if !remoteAddr va || decide (va.toNat % 32 ≠ 0) then (2, none, s)
  else match s.translate w .read false va with
    | .ok p =>
      match s.loadAs w false va 32 with
      | .error _ => (2, none, s)
      | .ok (x, t) =>
        let q := queueRecOf x
        if q.bad || !remoteAddr (q.entry q.tail) then (2, none, s)
        else if q.isFull then (1, none, t)
        else
          match t.storeAs w false (q.entry q.tail) 32 (data.toNat + edge.toNat * 2 ^ 64 + (kind * 2 ^ 28 + pid % 2 ^ 28) * 2 ^ 128) with
          | .error _ => (2, none, s)
          | .ok t =>
            match t.storeAs w false (va + 8) 8 (q.tail + 1).toNat with
            | .error _ => (2, none, s)
            | .ok t => (0, some p.key, t)
    | .error _ => (2, none, s)

/-- A QPOP of the hart that moves takes the head entry (R320), with the checks of R311 for the record, which it writes, and the entry; a
blocking one ends a recording wait (R296 kind 4). -/
def State.queueTake (s : State) (d : BitVec 5) (va : Word) (q : QueueRec) (blocking : Bool) : Result :=
  let e := q.entry q.head
  match s.wordAt va true, s.wordAt e false with
  | .error f, _ => (State.losePop d va f s).trapFlt f
  | _, .error f => (State.losePop d va f s).trapFlt f
  | .ok _, .ok _ =>
    match s.load false e 32 with
    | .error f => (State.losePop d va f s).trapFlt f
    | .ok (x, t) =>
      match t.store false va 8 (q.head + 1).toNat with
      | .error f => s.trapFlt f
      | .ok t =>
        let x := queueRecOf x
        let t := if blocking then t.arrived 4 (fld x.base 28 4) (fld x.base 0 28) x.tail else t
        .next ({ t with h := t.h.mend fun b => b == (1, d.toNat) }.setG d x.head |>.comeBack (d + 1) 0)

/-- The hart that moves waits in a blocking QPOP, behind those that came before it (R320). -/
def State.popWait (s : State) (d : BitVec 5) (va : Word) (key : Nat) : State :=
  let goes := match s.h.slot with | .wait (.qpop _ _) _ => s.poppers.contains (key, s.h.id) | _ => false
  let s := if goes then s else { s with poppers := s.poppers.filter (fun p => p.2 != s.h.id) ++ [(key, s.h.id)] }
  s.enterWait (.qpop d va)

/-- QPOP of the queue at `va` (R320). -/
def State.qpopTry (s : State) (d : BitVec 5) (va : Word) (blocking : Bool) : Result :=
  s.withQueue (State.losePop d va) QueueRec.remote va fun p q s =>
    if q.head ≠ q.tail then s.queueTake d va q blocking
    else if !blocking then .next (s.setGAdv (d + 1) 1 4)
    else if s.timedOut then .next (s.comeBack (d + 1) 1)
    else .next (s.popWait d va p.key)

/-- gd of a QPOP is not even, or not from 2 to 30. -/
def popBad (d : BitVec 5) : Bool := d.getLsbD 0 || decide (d.toNat < 2)

/-- QPOP, blocking (R320): one that was interrupted in its wait waits again (log 47) -/
def execQpop (d a : BitVec 5) (s : State) : Result :=
  s.check [(popBad d, 0x02, s.ir)] fun s => (s.waitAgain (.qpop d (s.getG a))).qpopTry d (s.getG a) true
/-- QPOP, not blocking (R320) -/
def execQpopNb (d a : BitVec 5) (s : State) : Result :=
  s.check [(popBad d, 0x02, s.ir)] fun s => s.qpopTry d (s.getG a) false

/-- A blocking QPOP that waits looks again (R320). -/
def State.qpopWake (s : State) : Result :=
  match s.h.slot with
  | .wait (.qpop d va) _ => s.qpopTry d va true
  | _ => .next s

/-- Whether the queue of a waiting QPOP holds an entry, or can no longer be read. -/
def State.qpopReady (s : State) : Bool :=
  match s.h.slot with
  | .wait (.qpop _ va) _ =>
    match s.wordAt va false with
    | .error _ => true
    | .ok p => Memory.read s.mem p.key 8 != Memory.read s.mem (p.key + 8) 8
  | _ => false

/-- A push to an empty queue lets a blocking QPOP take the entry (R320) -/
def execQpopWake (h : BitVec 12) (s : State) : Result := s.onHartR h fun s => s.qpopWake

/-- The oldest hart that waits on the queue at a key is served: operations on one queue are served in arrival order (R320). A
hart of a frozen cluster is not, and one whose QPOP faults while something stands in its vector queue takes its trap at its next move,
when that has finished in its turns (R291, R359). -/
def State.servePopper (s : State) (key : Nat) : Result :=
  let ok (p : Nat × HartId) : Bool := p.1 == key && (s.cluster (clusterOf (coreOf p.2))).freeze == .running &&
    (match (s.hart p.2).slot with | .wait (.qpop _ _) _ => true | _ => false)
  match s.poppers.find? ok with
  | none => .next s
  | some p =>
    match { s with poppers := s.poppers.filter (fun x => x != p) }.onHartR p.2 State.qpopWake with
    | .next t => .next (if t.trapped && !s.trapped && (s.hart p.2).vq != [] then s else { t with trapped := s.trapped })
    | y => y

/-- A push to a strait queue (R320, R352): performed at once when DPKG is this package, else sent, and the hart waits for the reply. A
package outside the group and a lost link give 2. -/
def State.straitPush (s : State) (d : BitVec 5) (va data : Word) (dpkg : BitVec 12) : Result :=
  match (s.fleetGroup s.myIsland).find? (fun m => m.pkg == dpkg) with
  | none => .next (s.setGAdv d 2 4)
  | some m =>
    if m.pkg = s.tabos.pkg then
      -- the bytes count at the island of this hart (R309)
      let r := s.remotePush { remoteWho m.atoll m.asid with core := s.myCore } va data s.h.cptag 1 s.h.id.toNat
      let t := r.2.2.setGAdv d (r.1.setWidth 64) 4
      match r.2.1 with
      | none => .next t
      | some key => t.servePopper key
    else match s.portTo m.pkg with
      | none => .next (s.setGAdv d 2 4)
      | some port =>
        let msg : StraitPush := ⟨m.atoll, va, data, s.sender 1 s.h.id.toNat s.h.cptag port⟩
        .next ({ s with outbox := s.outbox ++ [StraitMsg.push m.pkg s.h.id msg] }.enterWait (.qpush d))

/-- QPUSH (R320) -/
def execQpush (d a b : BitVec 5) (s : State) : Result :=
  let va := s.getG a
  s.withQueue (State.losePush d va) (fun _ => false) va fun p q s =>
    if q.remote then s.straitPush d va (s.getG b) q.dpkg
    else if q.isFull then .next (s.setGAdv d 1 4)
    else
      match s.queuePut va q (s.getG b) s.h.cptag 1 s.h.id.toNat with
      | .error f => s.trapFlt f
      | .ok s => (s.setGAdv d 0 4).servePopper p.key

/-- Whether a message is a push of hart `id`. -/
def StraitMsg.pushOf (id : HartId) : StraitMsg → Bool
  | .push _ h _ => h == id
  | _ => false

/-- The reply to a strait QPUSH has come, or its link is lost (status 2): the push returns and records no edge (R320) -/
def execQpushReply (h : BitVec 12) (status : BitVec 2) (s : State) : Result :=
  .next (s.onHart h fun s =>
    match s.h.slot with
    | .wait (.qpush d) _ =>
      { s with outbox := s.outbox.filter fun m => !m.pushOf s.h.id }.comeBack d (status.setWidth 64)
    | _ => s)

/-! ### CPREAD and CPMARK (R307, R326, R327) -/

/-- Whether an edge ID is that of a record. An ID that another package's tag gave (`tagged`) has 0 in bits [60:28]: it names the one with
its low 28 bits (R301); a ring holds at most one such record. -/
def edgeNamed (tagged : Bool) (id : Word) (edge : Nat) : Bool :=
  if tagged && decide (fld id 28 33 = 0) then edge / 2 ^ 61 == fld id 61 3 && edge % 2 ^ 28 == fld id 0 28 else edge == id.toNat

/-- The key of the record of an edge in the ring of its island (R307). Every slot of the ring is looked at, also one to which no record
has been written since CPLOG was last configured (DESIGN CHOICE, log 75). -/
def State.recordKey (s : State) (tagged : Bool) (id : Word) : Option Nat :=
  let isl := BitVec.ofNat 3 (fld id 61 3)
  let c := (s.island isl).cplog
  ((List.range (ringSize c)).map fun j => sramKey isl.toNat (ringSlot c j)).find? fun key =>
    edgeNamed tagged id (Memory.read s.mem key 8)

/-- The record of an edge in the ring of its island. -/
def State.findRecord (s : State) (tagged : Bool) (id : Word) : Option Nat := (s.recordKey tagged id).map fun key => Memory.read s.mem key 32

/-- Whether a record names a producer on another package. -/
def producedAway (x : Nat) : Bool := bits x 188 4 == 3 || bits x 188 4 == 7

/-- The package that holds the next record of a chain: that of a record whose producer lies on another package (R302, R307). -/
def nextPkg (pkg : BitVec 12) (x : Nat) : BitVec 12 := if producedAway x then BitVec.ofNat 12 (bits x 160 12) else pkg

/-- Whether the ID in a record's PRIOR is one that a tag of another package gave, with 0 in bits [60:28] (R301): of a WAITA. Strait messages
carry the whole ID (R302). -/
def priorTagged (x : Nat) : Bool := producedAway x && bits x 156 4 == 2

/-- The machine check of CPREAD when a word of the record that it finds fails (R384): the ring has no virtual address, so what LOC holds
is free (log 7). -/
def State.recordFlt (s : State) (pkg : BitVec 12) (tagged : Bool) (id : Word) : Option Flt :=
  if pkg ≠ s.tabos.pkg ∨ !s.inAtoll s.myIsland (fld id 61 3) then none
  else (s.recordKey tagged id).bind fun key =>
    match s.badIn key 32 with
    | [] => none
    | w :: ws => some ⟨0x13, s.memSummary (w * 8) (BitVec.ofNat 3 (fld id 61 3)) s.takeFree.1.toNat +
        BitVec.ofNat 64 ((!ws.isEmpty).toNat * 2 ^ 52)⟩

/-- The record of an edge as CPREAD finds it (R326). One on another package comes over the straits: whether it is there, and what
it holds but for its edge ID, is free (log 7); of an ID that a tag gave, that package's log completes bits [60:28] (R301). -/
def State.fetchRecord (s : State) (pkg : BitVec 12) (tagged : Bool) (id : Word) : Option Nat × State :=
  if pkg = s.tabos.pkg then (if s.inAtoll s.myIsland (fld id 61 3) then s.findRecord tagged id else none, s)
  else if (s.portTo pkg).isNone then (none, s)
  else
    let x := (Config.freeImage s.fresh).toNat
    let s := { s with fresh := s.fresh + 1 }
    let edge := if tagged ∧ fld id 28 33 = 0 then id.toNat + bits x 28 33 * 2 ^ 28 else id.toNat
    (if x % 2 = 0 then none else some (edge + bits x 64 192 * 2 ^ 64), s)

/-- Copies a record to `va`, word by word, when all of it can be written. -/
def State.putRecord (s : State) (va : Word) (x : Nat) : Except Flt State :=
  let rec put (s : State) (va : Word) (x : Nat) : Nat → Except Flt State
    | 0 => .ok s
    | n + 1 => match s.store false va 8 (x % 2 ^ 64) with | .error f => .error f | .ok s => put s (va + 8) (x / 2 ^ 64) n
  put s va x 4

/-- The walk of CPREAD from record number `j` on, with the package on which the next record lies and whether a tag of another package
gave its ID (R307, R326): the code for gd[63:62], the records written and the state, or the record at which a word of the ring or a
store fails. -/
def State.cpWalk (s : State) (buf : Word) :
    Nat → Nat → BitVec 12 × Bool → Word → Except (Nat × Flt × State) (Nat × Nat × State)
  | 0, j, _, id => .ok (if id = 0 then 0 else 2, j, s)
  | n + 1, j, (pkg, tagged), id =>
    if id = 0 then .ok (0, j, s)
    else match s.recordFlt pkg tagged id, s.fetchRecord pkg tagged id with
      | some f, _ => .error (j, f, s.takeFree.2)
      | none, (none, s) => .ok (1, j, s)
      | none, (some x, s) =>
        match s.putRecord (buf + BitVec.ofNat 64 (32 * j)) x with
        | .error f => .error (j, f, s)
        | .ok s => State.cpWalk s buf n (j + 1) (nextPkg pkg x, priorTagged x) (BitVec.ofNat 64 (x / 2 ^ 64))

/-- Where a resumed walk stands, from the records that the buffer holds. -/
def State.walkPkg (s : State) (buf : Word) (j : Nat) : BitVec 12 × Bool :=
  (List.range j).foldl (fun (p : BitVec 12 × Bool) i =>
    match s.loadAs s.who false (buf + BitVec.ofNat 64 (32 * i + 16)) 8 with
    | .ok (x, _) => (nextPkg p.1 (x * 2 ^ 128), priorTagged (x * 2 ^ 128))
    | .error _ => p) (s.tabos.pkg, false)

/-- A fault of CPREAD at record `j` of at most `limit`. After a machine check gd and the bytes of the records that it would have
written, as many as the default limit lets it, are undefined (R385). -/
def State.cpFault (s : State) (d : BitVec 5) (buf : Word) (j limit : Nat) (f : Flt) : Result :=
  if f.cause = 0x13 then
    ((List.range (4 * min (limit - j) 64)).foldl (fun (s : State) i => s.loseBytes 8 (buf + BitVec.ofNat 64 (32 * j + 8 * i)))
      (s.loseG d 0x13)).trapFlt f
  else s.trapAt f.cause j f.eaddr []

/-- CPREAD (R326) -/
def execCpread (d a b : BitVec 5) (s : State) : Result :=
  let buf := s.getG a
  let j := s.h.start
  let limit := if b = 0 then 64 else (s.getG b).toNat
  s.check [(decide (buf.toNat % 8 ≠ 0), 0x06, buf)] fun s =>
    let from_ : Except Flt (Nat × State) :=
      if j = 0 then .ok (s.h.cptag.toNat, s) else s.load false (buf + BitVec.ofNat 64 (32 * (j - 1) + 8)) 8
    match from_ with
    | .error f => s.cpFault d buf j limit f
    | .ok (id, s) =>
      match s.cpWalk buf (limit - j) j (s.walkPkg buf j) (BitVec.ofNat 64 id) with
      | .error (i, f, t) => if f.cause = 0x13 then { s with fresh := t.fresh }.cpFault d buf j limit f else t.cpFault d buf i limit f
      | .ok (code, n, s) => .next (s.setGAdv d (BitVec.ofNat 64 (code * 2 ^ 62 + n % 2 ^ 32)) 4)

/-- Every island writes its traffic block and takes the new step origin (R306, R309, R327). -/
def State.markStep (s : State) : List (BitVec 3) → State
  | [] => s
  | i :: is =>
    let s := s.writeTraffic i
    State.markStep (s.setIsland i { s.island i with origin := BitVec.ofNat 64 s.clk }) is

/-- CPMARK (R327) -/
def execCpmark (d : BitVec 5) (s : State) : Result :=
  s.check [(s.h.lvl == .user, 0x03, s.ir)] fun s =>
    .next ((s.markStep [0, 1, 2, 3, 4, 5, 6, 7]).setGAdv d (BitVec.ofNat 64 s.clk) 4)

end Sys2Proof.Machine
end

