-- ==== Sys2Proof/Machine/Residency.lean ====
section
/-! DEFINITION. Register residency: VACQ and VREL, and what a core's pools do (17 R324, R325, 01 R17, 08 R134, 18 R344). -/

namespace Sys2Proof.Machine

/-! ### The pools of a core -/

/-- Blocks B1 to B3 that a hart holds. -/
def Hart.heldBlocks (h : Hart) : Nat := (h.held.getLsbD 0).toNat + (h.held.getLsbD 1).toNat + (h.held.getLsbD 2).toNat

/-- Pool blocks of core `c` that are free: eight, less what its harts hold (R17). -/
def State.freeBlocks (s : State) (c : BitVec 10) : Nat :=
  8 - (s.hart (c ++ (0 : BitVec 2))).heldBlocks - (s.hart (c ++ (1 : BitVec 2))).heldBlocks - (s.hart (c ++ (2 : BitVec 2))).heldBlocks -
    (s.hart (c ++ (3 : BitVec 2))).heldBlocks

/-- Whether what a request names is free on the core of the hart that moves. -/
def State.available (s : State) : Want → Bool
  | .block _ => decide (0 < s.freeBlocks s.myCore)
  | .tile z => (s.accum z).holder.isNone

/-- Grants to the hart that moves: a block all zero with full registers, or an accumulator at zero that has taken no product
(R134, R324, R344). -/
def State.grantIt (s : State) : Want → State
  | .block b =>
    let h := (s.h.setImg (8 * b) 8 0).mark (8 * b) .full 8
    { s with h := { h with held := h.held ||| BitVec.twoPow 3 (b - 1) }.mend (wordIn (8 * b) 8 0 32768) }
  | .tile z =>
    { s with h := s.h.mend fun b => b.1 == 4 && b.2 / 4096 == z.toNat }.setAccum z { Accum.zero with holder := some (slotOf s.h.id) }

/-- The FIFO of a request (R292). -/
def Core.fifo (k : Core) : Want → List (BitVec 2)
  | .block _ => k.vacqV
  | .tile z => k.vacqZ[z.toNat]'z.isLt

/-- Replaces the FIFO of a request. -/
def Core.setFifo (k : Core) (w : Want) (q : List (BitVec 2)) : Core :=
  match w with
  | .block _ => { k with vacqV := q }
  | .tile z => { k with vacqZ := k.vacqZ.set z.toNat q z.isLt }

/-- What the image of a context lists (Table 20-7, offset 8), ascending: blocks, then accumulators. -/
def imageWants (img : BitVec 327680) : List Want :=
  let x := img.extractLsb' 64 64
  (([1, 2, 3] : List Nat).filter (fun b => x.getLsbD (b - 1))).map Want.block ++
    (([0, 1, 2, 3] : List (BitVec 2)).filter (fun z => x.getLsbD (3 + z.toNat))).map Want.tile

/-- What a hart in WAIT has requested: VACQ's block or accumulator, or the next that CTXLOAD acquires. -/
def State.wants (s : State) : Option Want :=
  match s.h.slot with
  | .wait (.vacq _ tile i) _ => some (if tile then .tile (i.setWidth 2) else .block i.toNat)
  | .wait (.ctxload img) _ => (imageWants img).find? (fun w => !s.holds w)
  | _ => none

/-- Whether two requests wait in one FIFO. -/
def Want.sameFifo : Want → Want → Bool
  | .block _, .block _ => true
  | .tile y, .tile z => y == z
  | _, _ => false

/-- The slots of a FIFO whose harts still wait there: one that left its wait has withdrawn its request (R324). -/
def State.waiters (s : State) (c : BitVec 10) (w : Want) : List (BitVec 2) :=
  ((s.core c).fifo w).filter fun n =>
    match (s.focus (c ++ n)).wants with
    | some v => v.sameFifo w
    | none => false

/-- The hart that moves joins the tail of a FIFO, unless it waits there already. -/
def State.queueUp (s : State) (w : Want) : State :=
  let k := s.core s.myCore
  let me := slotOf s.h.id
  let q := s.waiters s.myCore w
  s.setCore s.myCore (k.setFifo w (if q.contains me then q else q ++ [me]))

/-- The hart that moves makes a new request: an old place in the FIFO, of a wait that has ended, is none (R324). -/
def State.joinQueue (s : State) (w : Want) : State :=
  let k := s.core s.myCore
  let me := slotOf s.h.id
  s.setCore s.myCore (k.setFifo w ((s.waiters s.myCore w).filter (· != me) ++ [me]))

/-- The hart that moves leaves a FIFO. -/
def State.leaveQueue (s : State) (w : Want) : State :=
  let k := s.core s.myCore
  s.setCore s.myCore (k.setFifo w ((s.waiters s.myCore w).filter (· != slotOf s.h.id)))

/-- The hart that moves leaves every FIFO of its core: it waits for no block and no accumulator any more (R324, R380). -/
def State.leaveFifos (s : State) : State :=
  ([Want.block 1, .tile 0, .tile 1, .tile 2, .tile 3] : List Want).foldl State.leaveQueue s

/-- Whether the hart that moves is next for a request: it is free and no older one waits. -/
def State.mayTake (s : State) (w : Want) : Bool :=
  s.available w && (match s.waiters s.myCore w with | [] => true | n :: _ => n == slotOf s.h.id)

/-- The hart that moves, waiting in VACQ, is granted what it asked for: gd is 0. -/
def State.vacqGet (s : State) (d : BitVec 5) (w : Want) : State := ((s.leaveQueue w).grantIt w).comeBack d 0

/-- A CTXLOAD that waits takes what it may, in ascending order, and queues for the next (R380): whether it has everything. -/
def State.acquire (s : State) : List Want → Bool × State
  | [] => (true, s)
  | w :: ws =>
    if s.holds w then State.acquire s ws
    else if s.mayTake w then State.acquire ((s.leaveQueue w).grantIt w) ws
    else (false, s.queueUp w)

/-- Serves the oldest waiter of a FIFO of core `c` when what it waits for is free: it goes at once to it (R324). A CTXLOAD that
has been served queues for the next or goes on at its next move. -/
def State.serveOne (s : State) (c : BitVec 10) (w : Want) : State :=
  match s.waiters c w with
  | [] => s
  | n :: _ =>
    s.onHart (c ++ n) fun s =>
      match s.h.slot with
      | .wait (.vacq d tile i) _ =>
        let v : Want := if tile then .tile (i.setWidth 2) else .block i.toNat
        if s.available v then s.vacqGet d v else s
      | .wait (.ctxload img) _ => (s.acquire (imageWants img)).2
      | _ => s

/-- Serves the waiters of every FIFO of a core; at most eight blocks and four accumulators can go. -/
def State.serveAll (s : State) (c : BitVec 10) : State :=
  let blocks := (List.range 8).foldl (fun (s : State) _ => s.serveOne c (.block 1)) s
  ([0, 1, 2, 3] : List (BitVec 2)).foldl (fun (s : State) z => s.serveOne c (.tile z)) blocks

/-- Takes a block or accumulator from the hart that moves; its contents are discarded (R325, R344). -/
def State.giveUp (s : State) : Want → State
  | .block b => { s with h := { s.h.setImg (8 * b) 8 0 with held := s.h.held &&& ~~~(BitVec.twoPow 3 (b - 1)) } }
  | .tile z => s.setAccum z Accum.zero

/-- Everything but B0 returns to the pools, accumulators first, and the waiters are served (R15, R379, R380). -/
def State.giveUpAll (s : State) : State :=
  let zs := (([0, 1, 2, 3] : List (BitVec 2)).filter (fun z => s.holdsZ z)).foldl (fun (s : State) z => s.giveUp (.tile z)) s
  ([1, 2, 3] : List Nat).foldl (fun (s : State) b => if s.holds (.block b) then s.giveUp (.block b) else s) zs

/-- Every earlier instruction of the hart that moves completes: its queue empties, with the credit of an empty queue (R286), and
pending producers but stream deliveries fill their registers (R87, R285). What stood in the queue has finished in its turns before
(`State.runInstr`). -/
def State.drain (s : State) : State :=
  { s with h := { s.h.settleAll with vq := [], credit := if s.h.vq = [] then s.h.credit else 0 } }

/-! ### VACQ (R324) -/

/-- VACQ of a block or accumulator: already held 1, granted 0, none free 2, else a wait or its timeout 3. -/
def State.vacq (s : State) (d : BitVec 5) (w : Want) (failMode : Bool) (wait : Wait) : State :=
  if s.holds w then s.setGAdv d 1 4
  else if failMode then
    -- what is free goes at once to the oldest stall-mode waiter, so none waits when something is free
    if s.available w && (s.waiters s.myCore w).isEmpty then (s.grantIt w).setGAdv d 0 4 else s.setGAdv d 2 4
  else if s.mayTake w then s.vacqGet d w
  else (s.enterWait wait).joinQueue w

/-- VACQ, vector class, stall mode (R324) -/
def execVacq (d i : BitVec 5) (s : State) : Result := .next (s.vacq d (.block i.toNat) false (.vacq d false i))
/-- VACQ, vector class, fail mode (R324) -/
def execVacqFail (d i : BitVec 5) (s : State) : Result := .next (s.vacq d (.block i.toNat) true (.vacq d false i))
/-- VACQ, tile class, stall mode (R324) -/
def execVacqTile (d i : BitVec 5) (s : State) : Result := .next (s.vacq d (.tile (i.setWidth 2)) false (.vacq d true i))
/-- VACQ, tile class, fail mode (R324) -/
def execVacqTileFail (d i : BitVec 5) (s : State) : Result := .next (s.vacq d (.tile (i.setWidth 2)) true (.vacq d true i))

/-- A VACQ that waits is granted when it may be, or leaves its FIFO on a timeout with gd = 3 (R324). -/
def State.vacqTry (s : State) : State :=
  match s.h.slot with
  | .wait (.vacq d tile i) _ =>
    let w : Want := if tile then .tile (i.setWidth 2) else .block i.toNat
    if s.mayTake w then s.vacqGet d w
    else if s.timedOut then (s.leaveQueue w).comeBack d 3
    else s
  | _ => s

/-- A freed block or accumulator goes to the oldest waiter (R324) -/
def execVacqGrant (h : BitVec 12) (s : State) : Result := .next (s.onHart h fun s => s.vacqTry)

/-! ### VREL (R325) -/

/-- Whether a stream is bound to a register of block `b`. -/
def State.blockBound (s : State) (b : Nat) : Bool :=
  s.boundStreams.any fun q => Regs.overlap (bregOf q.shape, s.h.grp) (8 * b, 8)

/-- VREL (R325): earlier users complete first -/
def execVrel (i : BitVec 5) (s : State) : Result :=
  let w : Want := if i.toNat < 8 then .block i.toNat else .tile (i.setWidth 2)
  let name : Nat := if i.toNat < 8 then 8 * i.toNat else 32 + i.toNat % 4
  s.check [(decide (i.toNat < 8) && s.blockBound i.toNat, 0x02, s.ir),
      (!s.holds w, 0x05, BitVec.ofNat 64 name)] fun s =>
    .next (((s.drain.giveUp w).adv 4).serveAll s.myCore)

end Sys2Proof.Machine
end

