-- ==== Sys2Proof/Machine/Launch.lean ====
section
/-! DEFINITION. Loop tables, LAUNCH, placement, EXIT and retirement, YIELD, and the dispatcher's requests (15 R277 to R284,
01 R13 to R15, 16 R299, 17 R321 to R323, 19 R348, R349). -/

namespace Sys2Proof.Machine

/-! ### Loop tables (R277, R278) -/

/-- The kind of a level record's KIND field; 0 is reserved. -/
def LoopKind.ofCode (n : Nat) : Option LoopKind := if n = 1 then some .t else if n = 2 then some .c else if n = 3 then some .i else none

/-- The level of a record's two words, when the record by itself is valid (Table 15-2). -/
def levelOf (w0 w1 : Word) : Option LoopLevel :=
  match LoopKind.ofCode (fld w1 32 2) with
  | none => none
  | some k =>
    let g := fld w1 40 5
    if fld w1 35 5 ≠ 0 ∨ fld w1 45 19 ≠ 0 ∨ fld w0 0 32 = 0 ∨ g < 1 ∨ 16 < g ∨ (k ≠ .c ∧ g ≠ 1) then none
    else some ⟨k, fld w0 0 32, w0.extractLsb' 32 32, w1.setWidth 32, g⟩

/-- Reads level records from `va` up to the one with LAST = 1, at most `n`: their words, and whether LAST was met. -/
def State.readLevels (s : State) (w : Who) (va : Word) : Nat → Except Flt (List (Word × Word) × Bool × State)
  | 0 => .ok ([], false, s)
  | n + 1 =>
    match s.loadWords w va 2 with
    | .error f => .error f
    | .ok (xs, s) =>
      let r : Word × Word := ((xs[0]?).getD 0, (xs[1]?).getD 0)
      if r.2.getLsbD 34 then .ok ([r], true, s)
      else match State.readLevels s w (va + 16) n with
        | .error f => .error f
        | .ok (rs, last, s) => .ok (r :: rs, last, s)

/-- Every I level before every C level, every C level before every T level, at most one I level (R278). -/
def levelsOrdered : List LoopKind → Bool
  | [] => true
  | .i :: ks => !ks.contains .i && levelsOrdered ks
  | .c :: ks => !ks.contains .i && levelsOrdered ks
  | .t :: ks => !ks.contains .i && !ks.contains .c && levelsOrdered ks

/-- A loop table as LAUNCH reads it. -/
structure LoopTable where
  entry : Word
  args : Word
  levels : List LoopLevel
  deriving DecidableEq, Repr

/-- Reads and checks the loop table at `va` (R278, R321). An ENTRY that is odd or not canonical makes it invalid. -/
def State.readTable (s : State) (w : Who) (va : Word) : Except Flt (LoopTable × State) :=
  if va.toNat % 16 ≠ 0 then .error ⟨0x06, va⟩
  else match s.loadWords w va 2 with
    | .error f => .error f
    | .ok (hd, s) =>
      match s.readLevels w (va + 16) 6 with
      | .error f => .error f
      | .ok (rs, last, s) =>
        let levels := rs.filterMap fun r => levelOf r.1 r.2
        let entry : Word := (hd[0]?).getD 0
        if !last || decide (levels.length ≠ rs.length) || !levelsOrdered (levels.map (·.kind)) || entry.getLsbD 0 ||
            decide (2 ^ 52 ≤ entry.toNat) then .error ⟨0x02, va⟩
        else .ok (⟨entry, (hd[1]?).getD 0, levels⟩, s)

/-! ### Iterations (R279 to R281) -/

/-- Index of iteration `c` of a level (R279). -/
def LoopLevel.index (l : LoopLevel) (c : Nat) : Word := sext 32 l.first.toNat + BitVec.ofNat 64 c * sext 32 l.step.toNat

/-- The combinations of C indices. -/
def cCombos (ls : List LoopLevel) : Nat := (ls.filter (fun l => l.kind == .c)).foldl (fun n l => n * l.trip) 1

/-- The iteration of each level for C combination `h`, innermost C level fastest, with iteration `c` of the I level; T levels at
their first. -/
def startCounts (c : Nat) : List LoopLevel → Nat → List Nat × Nat
  | [], h => ([], h)
  | l :: ls, h =>
    let r := startCounts c ls h
    match l.kind with
    | .c => (r.2 % l.trip :: r.1, r.2 / l.trip)
    | .i => (c :: r.1, r.2)
    | .t => (0 :: r.1, r.2)

/-- The next T iteration, innermost fastest; none after the last (R14, R279). -/
def nextCounts : List LoopLevel → List Nat → Option (List Nat)
  | l :: ls, c :: cs =>
    match nextCounts ls cs with
    | some cs => some (c :: cs)
    | none => if l.kind = .t ∧ c + 1 < l.trip then some ((c + 1) :: cs.map fun _ => 0) else none
  | _, _ => none

/-- IDX0 to IDX5 for the iterations given (R279). -/
def indexRegs (ls : List LoopLevel) (cs : List Nat) : Vector Word 6 :=
  Vector.ofFn fun i => match ls[i.val]?, cs[i.val]? with
    | some l, some c => l.index c
    | _, _ => 0

/-- The gang size of a table: that of the innermost C level. -/
def gangSize (ls : List LoopLevel) : Nat := (((ls.filter (fun l => l.kind == .c)).getLast?).map (·.gang)).getD 1

/-! ### Slots (R282) -/

/-- The slots of core `c` that LPART lets be placed (Table 15-3). -/
def State.slotsOf (s : State) (c : BitVec 10) : List (BitVec 2) := if fld (s.core c).lpart 0 2 = 1 then [0, 1] else [0, 1, 2, 3]

/-- The eligible FREE slots of core `c`. -/
def State.freeSlots (s : State) (c : BitVec 10) : List (BitVec 2) := (s.slotsOf c).filter fun n => s.slotFree (c ++ n)

/-- Whether all four slots of core `c` are FREE. -/
def State.coreIdle (s : State) (c : BitVec 10) : Bool := ([0, 1, 2, 3] : List (BitVec 2)).all fun n => s.slotFree (c ++ n)

/-- The cores of an island, cluster first, then core. -/
def islandCores (isl : BitVec 3) : List (BitVec 10) := (List.range 128).map fun c => BitVec.ofNat 10 (isl.toNat * 128 + c)

/-- The slot for the next hart of an island (R282). -/
def State.pickSlot (s : State) (isl : BitVec 3) : Option HartId :=
  match (islandCores isl).find? s.coreIdle with
  | some c => some (c ++ (0 : BitVec 2))
  | none => (islandCores isl).findSome? fun c => (s.freeSlots c).head?.map fun n => c ++ n

/-- The smallest power of two that is at least `g`, for g up to 16. -/
def pow2At (g : Nat) : Nat := if g ≤ 1 then 1 else if g ≤ 2 then 2 else if g ≤ 4 then 4 else if g ≤ 8 then 8 else 16

/-- The first cores at which a group of `g` may stand: multiples of g′ within a cluster (R281). -/
def groupCores (isl : BitVec 3) (g : Nat) : List (List (BitVec 10)) :=
  ((List.range 128).filter fun c => decide (c % 16 % pow2At g = 0) && decide (c % 16 + g ≤ 16)).map
    fun c => (List.range g).map fun r => BitVec.ofNat 10 (isl.toNat * 128 + c + r)

/-- The slots for a group of `g`: cores that are all idle when there are such, else cores that all have an eligible slot. -/
def State.pickGroup (s : State) (isl : BitVec 3) (g : Nat) : Option (List HartId) :=
  let all := groupCores isl g
  match all.find? fun cs => cs.all s.coreIdle with
  | some cs => some (cs.map fun c => c ++ (0 : BitVec 2))
  | none => (all.find? fun cs => cs.all fun c => !(s.freeSlots c).isEmpty).map
      fun cs => cs.map fun c => c ++ ((s.freeSlots c).head?.getD 0)

/-! ### Placement (R13, R283, R299) -/

/-- The start of a TCM quarter: that of slot `n` for hp, of slot n + 1 for sp (R13). -/
def tcmQuarter (n : Nat) : Word := BitVec.ofNat 64 (0x000FFFFF00000000 + 0x10000 * n)

/-- A hart at placement (Table 1-3), but for CPTAG. -/
def State.newHart (s : State) (l : Launch) (id : HartId) (counts : List Nat) : Hart :=
  let slot := (slotOf id).toNat
  let grant := s.laneGrant (coreOf id)
  { Hart.reset id with
    slot := .run
    pc := l.entry
    g := (((Vector.replicate 32 (0 : Word)).set 4 l.args).set 2 (tcmQuarter (slot + 1))).set 3 (tcmQuarter slot)
    idx := indexRegs l.levels counts
    grant := BitVec.ofNat 64 grant
    span := spanOf grant 2
    tvec := l.tvec
    ptbr := l.ptbr
    abictl := l.abictl
    loop := some ⟨coreOf l.hart, l.id, l.entry, l.args, l.levels, counts⟩ }

/-- Places a hart; one that waited for its slot starts with an edge, or with the launcher's CPTAG (R299). -/
def State.placeHart (s : State) (l : Launch) (id : HartId) (counts : List Nat) (waited : Bool) : State :=
  let isl := islandOf (coreOf id)
  let h := s.newHart l id counts
  if !waited then s.putHart h
  else if s.cpthr isl ≤ s.clk - l.issued then
    let r := s.newEdge isl 8 id.toNat 6 l.hart.toNat l.tag l.issued
    r.2.putHart { h with cptag := r.1 }
  else s.putHart { h with cptag := l.tag }

/-- The iterations of hart number `k` of a launch on an island: I iterations in order, then C combinations. -/
def Launch.countsAt (l : Launch) (isl : BitVec 3) (k : Nat) : List Nat :=
  let n := cCombos l.levels
  (startCounts (isl.toNat - l.first + l.islands * (k / n)) l.levels (k % n)).1

/-- Replaces a launch. -/
def State.putLaunch (s : State) (l : Launch) : State :=
  { s with launches := s.launches.map fun x => if x.id = l.id ∧ coreOf x.hart = coreOf l.hart then l else x }

/-- Places harts `k`, `k + 1`, … of a launch on the slots given. -/
def State.placeAt (s : State) (l : Launch) (isl : BitVec 3) (waited : Bool) : Nat → List HartId → State
  | _, [] => s
  | k, id :: ids => State.placeAt (s.placeHart l id (l.countsAt isl k) waited) l isl waited (k + 1) ids

/-- Places the next hart or group of the oldest launch that waits on an island (R281 to R283): the state, when there was room. Harts
waited for it unless their launch is the one that is being issued, `fresh` (R299). -/
def State.placeNext (s : State) (isl : BitVec 3) (fresh : Option (BitVec 48 × BitVec 10)) : Option State :=
  match s.launches.find? fun l => l.pending.any fun p => p.1 == isl with
  | none => none
  | some l =>
    match l.pending.find? fun p => p.1 == isl with
    | none => none
    | some (_, k, total) =>
      let g := gangSize l.levels
      let n := cCombos l.levels
      let slots : Option (List HartId) :=
        if g ≤ 1 then (s.pickSlot isl).map fun id => [id]
        else (s.pickGroup isl g).map fun ids => ids.take (min g (n - k % n))
      match slots with
      | none => none
      | some ids =>
        let k' := k + ids.length
        let rest := l.pending.filter fun p => p.1 != isl
        let l' := { l with live := l.live + ids.length, pending := if k' < total then rest ++ [(isl, k', total)] else rest }
        some ((s.placeAt l isl (fresh != some (l.id, coreOf l.hart)) k ids).putLaunch l')

/-- Places harts on an island while there are some and there is room: an island has 512 slots. -/
def State.placeMany (s : State) (isl : BitVec 3) (fresh : Option (BitVec 48 × BitVec 10)) : Nat → State
  | 0 => s
  | n + 1 => match s.placeNext isl fresh with | none => s | some t => State.placeMany t isl fresh n

/-- A slot has become free and waiting harts of launches are placed (R283) -/
def execHartPlacement (isl : BitVec 3) (s : State) : Result := .next (s.placeMany isl none 512)

/-! ### LAUNCH (R321) -/

/-- LAUNCH of the table at `va` by the hart that moves, for a dispatcher's request or none: the launch's ID, or its trap. Harts
that find a slot at once are placed without a wait. -/
def State.launch (s : State) (va : Word) (request : Option (Word × Word)) : Except Flt (BitVec 48 × State) :=
  match s.readTable s.who va with
  | .error f => .error f
  | .ok (t, s) =>
    let k := s.core s.myCore
    let id := k.launchCtr + 1
    let s := s.setCore s.myCore { k with launchCtr := id }
    let trips := (t.levels.filter (fun l => l.kind == .i)).map (·.trip)
    let first := s.atollFirst s.myIsland
    let n := s.atollSize s.myIsland
    let combos := cCombos t.levels
    let pending : List (BitVec 3 × Nat × Nat) := match trips with
      | [] => [(s.myIsland, 0, combos)]
      | trip :: _ => ((List.range n).filter (fun p => decide (p < trip))).map
          fun p => (BitVec.ofNat 3 (first + p), 0, (trip - p + n - 1) / n * combos)
    let l : Launch :=
      { id, hart := s.h.id, table := va, entry := t.entry, args := t.args, levels := t.levels, ptbr := s.h.ptbr
        tvec := s.h.tvec, abictl := s.h.abictl, tag := s.h.cptag, issued := s.clk, pending := pending, first := first
        islands := n, live := 0, request := request }
    let s := { s with launches := s.launches ++ [l] }
    .ok (id, pending.foldl (fun (s : State) p => s.placeMany p.1 (some (id, s.myCore)) 512) s)

/-- LAUNCH (R321) -/
def execLaunch (d a : BitVec 5) (s : State) : Result :=
  match s.launch (s.getG a) none with
  | .error f => (s.loseG d f.cause).trapFlt f
  | .ok (id, t) => .next (t.setGAdv d (id.setWidth 64) 4)

/-! ### Completion (R284, R349) -/

/-- A completion word (R349). -/
def doneWord (code : Nat) (seq : Word) : Nat := 2 ^ 63 + code * 2 ^ 56 + fld seq 0 48

/-- The dispatcher `h` writes a completion word in a request's address space, as a release. A write that faults is dropped. -/
def State.writeDone (s : State) (h : HartId) (ptbr done : Word) (x : Nat) : State :=
  let w : Who := ⟨ptbr, .supervisor, coreOf h⟩
  match s.translate w .write true done, s.storeAs w true done 8 x with
  | .ok p, .ok t => t.setTag p (mkTag 1 h.toNat (s.hart h).cptag)
  | _, _ => s

/-- A launch of core `c` whose harts are all placed and retired completes: the record is posted, and a request's completion word
is written (R284, R349). -/
def State.finishLaunch (s : State) (c : BitVec 10) (id : BitVec 48) : State :=
  match s.launches.find? fun l => l.id == id && coreOf l.hart == c with
  | none => s
  | some l =>
    if l.live ≠ 0 ∨ l.pending ≠ [] then s
    else
      let s := { s with launches := s.launches.filter fun x => !(x.id == id && coreOf x.hart == c) }
      let s := s.post c (eventOf 3 0 0 0 l.table.toNat)
      match l.request with
      | none => s
      | some (done, seq) => s.writeDone l.hart l.ptbr done (doneWord 0 seq)

/-- Every hart of a launch has retired, and its completion record is posted (R284) -/
def execLaunchComplete (core : BitVec 10) (id : BitVec 48) (s : State) : Result := .next (s.finishLaunch core id)

/-! ### EXIT and YIELD (R14, R15, R322, R323) -/

/-- The slot of the hart that moves becomes FREE, its launch counts it out, and harts that wait for a slot are placed. -/
def State.freeSlot (s : State) : State :=
  let isl := s.myIsland
  let c := s.myCore
  let loop := s.h.loop
  let s := { s with h := Hart.reset s.h.id }.serveAll c
  match loop with
  | none => s.placeMany isl none 512
  | some p =>
    let s := match s.launches.find? fun l => l.id == p.launch && coreOf l.hart == p.core with
      | none => s
      | some l => s.putLaunch { l with live := l.live - 1 }
    (s.placeMany isl none 512).finishLaunch p.core p.launch

/-- Retirement of the hart that moves, in the order of R15. -/
def State.retireHart (s : State) : State :=
  let s := s.drain.leaveGang
  ((((s.endStream 0).endStream 1).endStream 2).endStream 3).giveUpAll.freeSlot

/-- EXIT (R14, R15, R276, R323): the next T iteration at user level, else retirement -/
def execExit (s : State) : Result :=
  let next : Option (LoopPos × List Nat) :=
    if s.h.lvl = .user then s.h.loop.bind fun p => (nextCounts p.levels p.counts).map fun cs => (p, cs) else none
  match next with
  | none => .next s.retireHart
  | some (p, cs) =>
    let s := s.leaveGang.setG 4 p.args
    .next { s with h := { s.h with pc := p.entry, idx := indexRegs p.levels cs, loop := some { p with counts := cs } } }

/-- Whether a hart has an instruction ready to issue once the slot `n` has issued one. -/
def Hart.readyAfter (h : Hart) (n : BitVec 2) : Bool := h.slot == .run && !h.paused && h.yielding.filter (· != n) == []

/-- Whether a hart has an instruction ready to issue. -/
def Hart.ready (h : Hart) : Bool := h.slot == .run && !h.paused && h.yielding == []

/-- The other slots of the core whose harts are as `p` says. -/
def State.slotsWhere (s : State) (p : Hart → Bool) : List (BitVec 2) :=
  ([0, 1, 2, 3] : List (BitVec 2)).filter fun n => n != slotOf s.h.id && p (s.hart (s.myCore ++ n))

/-- YIELD (R322): the slots that it waits for have an instruction ready once this one has issued -/
def execYield (s : State) : Result :=
  .next ({ s with h := { s.h with credit := 0, yielding := s.slotsWhere fun h => h.readyAfter (slotOf s.h.id) } }.adv 4)

/-- The slots that a yielding hart still waits for: those that have not issued and have something to issue. -/
def State.yieldCheck (s : State) : State :=
  { s with h := { s.h with yielding := s.h.yielding.filter fun n => (s.slotsWhere Hart.ready).contains n } }

/-- Every other ready slot has issued, and the yielding slot goes on (R322) -/
def execYieldEnd (h : BitVec 12) (s : State) : Result := .next (s.onHart h fun s => s.yieldCheck)

/-! ### The dispatcher's requests (R348, R349) -/

/-- The completion code of a LAUNCH that trapped (Table 19-6). -/
def launchCode (cause : Nat) : Nat := if cause = 0x02 then 1 else if cause = 0x06 then 3 else 4

/-- Tabos posts an event record for a request that was not launched, and logs it (R349, R354). -/
def State.reportRequest (s : State) (code : Nat) (seq : Word) : State :=
  let r := TabosRec.request (BitVec.ofNat 3 (s.atollFirst s.myIsland)) code seq
  { s with tabos := { s.tabos with records := s.tabos.records ++ [r] } }.logTabos r

/-- Steps 1 and 2 of a request by the dispatcher, the hart that moves: TABLE, PTBR, DONE and SEQ of its entry. `ibt` is the IBT flag
of the module whose table it launches (R397). A DONE that is not a multiple of 8 faults (R98). -/
def State.serveRequest (s : State) (ibt : BitVec 1) (table ptbr done seq : Word) : State :=
  if !ptbr.getLsbD 0 || csrBad 0x407 ptbr then s.reportRequest 2 seq
  else
    let s := { s with h := { s.h with ptbr, abictl := ibt.setWidth 64 } }
    match s.storeAs ⟨ptbr, .supervisor, s.myCore⟩ true done 8 0 with
    | .error _ => s.reportRequest 5 seq
    | .ok t =>
      if done.toNat % 8 ≠ 0 then s.reportRequest 5 seq
      else match t.launch table (some (done, seq)) with
        | .error f => t.writeDone t.h.id ptbr done (doneWord (launchCode f.cause) seq)
        | .ok (_, t) => t

/-- Step 3 of a request: HEAD advances, as a release (R300, R349). -/
def State.advanceHead (s : State) (w : Who) (hid : HartId) (va taken : Word) : State :=
  match s.translate w .write true va, s.storeAs w true va 8 taken.toNat with
  | .ok p, .ok t => t.setTag p (mkTag 1 hid.toNat (s.hart hid).cptag)
  | _, _ => s

/-- The IBT flag of the module whose loop table stands at `table` under a PTBR (R397): as its latest load has told it. -/
def State.moduleIbt (s : State) (ptbr table : Word) : BitVec 1 :=
  ((s.tabos.modules.find? fun m => m.1 == ptbr && m.2.1 == table).map (·.2.2)).getD (Config.moduleIbt ptbr table)

/-- The WAITA on TAIL of the dispatcher, the hart that moves, returns: it has an edge whose producer is that of the word's tag, when it
has waited (R296, R297, R301, R348). -/
def State.tailSeen (s : State) (w : Who) (header : Word) (since : Option Nat) : State :=
  match s.translate w .read true header with
  | .error _ => s
  | .ok p =>
    let tag := if p.signal then s.tagAt p.key else 0
    s.arrivedSince since 2 (tagKind tag) (tagPid tag) (s.tagEdge tag)

/-- The dispatcher of an atoll takes the next request of its launch queue, once its WAITA on TAIL has returned (R348, R349). It waits
again when it has taken the last. -/
def execLaunchRequest (isl : BitVec 3) (s : State) : Result :=
  let first := s.atollFirst isl
  let fi : BitVec 3 := BitVec.ofNat 3 first
  let hid : HartId := BitVec.ofNat 12 (first * 0x200)
  match (s.tabos.queues[first]?).bind id with
  | none => .next s
  | some q =>
    if s.slotFree hid then .next s
    else
      let w : Who := ⟨Config.dispatcherPtbr fi, .supervisor, coreOf hid⟩
      match s.loadAs w true q.header 8 with
      | .error _ => .next s
      | .ok (tail, s) =>
        if BitVec.ofNat 64 tail = q.taken then .next s
        else
          match s.loadWords w (q.base + BitVec.ofNat 64 (32 * (q.taken.toNat % 2 ^ q.log2n))) 4 with
          | .error _ => .next s
          | .ok (xs, s) =>
            let x (i : Nat) : Word := (xs[i]?).getD 0
            let s := s.onHart hid fun t =>
              (t.tailSeen w q.header q.since).serveRequest (s.moduleIbt (x 1) (x 0)) (x 0) (x 1) (x 2) (x 3)
            let taken := q.taken + 1
            let since := if BitVec.ofNat 64 tail = taken then some s.clk else none
            let s := { s with tabos := { s.tabos with queues := s.tabos.queues.setIfInBounds first (some { q with taken, since }) } }
            .next (s.advanceHead w hid (q.header + 8) taken)

end Sys2Proof.Machine
end

