-- ==== Sys2Proof/Machine/Sys.lean ====
section
/-! DEFINITION. System and trap instructions, and the context image (21 R370 to R381, 20 R366, R369). -/

namespace Sys2Proof.Machine

/-! ### ECALL, BRK and ERET (R371 to R373) -/

/-- ECALL (R371); EIX is 0 (Table 20-1) -/
def execEcall (s : State) : Result := s.trap (Trap.pre 0x11 0)

/-- BRK (R371, R388): a breakpoint trap, or the freeze of the cluster when a debug stop is armed there -/
def execBrk (s : State) : Result :=
  if (s.cluster s.myCluster).stopen then .next ((s.freezeCluster s.myCluster 1 (some s.h.id) 0).adv 4) else
    s.trap (Trap.pre 0x10 0)

/-- The instructions that ERET fetches before it returns: the one at EPC, and those up to the last convoy member (R372). -/
def State.returnCode (s : State) : Except Flt (List Fetched × State) :=
  let h := s.h
  if h.part || h.replay then
    s.fetchUpTo ⟨h.ptbr, Level.ofCode (fld h.estatus 0 2), s.myCore⟩ h.lastNamed 512 (evenPc h.epc)
  else .ok ([], s)

/-- ERET (R372, R373) -/
def execEret (s : State) : Result :=
  s.check [(s.h.lvl == .user, 0x03, s.ir)] fun s =>
    let s := s.drain
    s.check [(decide (s.h.lvl.code < fld s.h.estatus 0 2), 0x03, s.ir)] fun s =>
      match s.returnCode with
      | .error f => s.trapFlt f
      | .ok (code, s) =>
        s.check
          [(s.h.part && s.h.tseqBad code.head?, 0x02, s.ir),
           (s.h.part && s.econvBad code, 0x02, s.ir)]
          fun s => .next s.returnTrap

/-! ### WFI (R374) -/

/-- The reason for which WFI returns now, the first of Table 21-3. -/
def State.wfiReason (s : State) : Option Word :=
  if (s.core s.myCore).events ≠ [] then some 0
  else if s.h.preq && s.h.pm then some 1
  else if s.timedOut then some 2
  else none

/-- WFI returns with its reason or waits. -/
def State.wfiTry (s : State) (d : BitVec 5) : State :=
  match s.wfiReason with
  | some x => s.comeBack d x
  | none => s.enterWait (.wfi d)

/-- WFI (R374) -/
def execWfi (d : BitVec 5) (s : State) : Result := .next (s.wfiTry d)

/-- A WFI that waits looks again (R374). -/
def State.wfiWake (s : State) : State := match s.h.slot with | .wait (.wfi d) _ => s.wfiTry d | _ => s

/-- An event record or a held pre-emption ends WFI (R374) -/
def execWfiWake (h : BitVec 12) (s : State) : Result := .next (s.onHart h fun s => s.wfiWake)

/-! ### TLBINV (R375, R376) -/

/-- Whether a selector names a cached leaf (Table 21-4). -/
def TlbEntry.selected (va sel : Word) (e : TlbEntry) : Bool :=
  let mode := fld sel 62 2
  let mine := e.asid.toNat == fld sel 0 12
  let global := e.pte.getLsbD 5
  let here := decide (e.base ≤ va.toNat) && decide (va.toNat < e.base + 2 ^ e.log2)
  mode == 0 || (mode == 1 && mine && !global) || (mode == 2 && here && (mine || global)) || (mode == 3 && here)

/-- Removes cached leaves from every core and cluster of the atoll of island `i`. -/
def State.dropLeaves (s : State) (i : BitVec 3) (p : TlbEntry → Bool) : State :=
  let keep (t : List TlbEntry) : List TlbEntry := t.filter fun e => !p e
  let cores := (s.cores.map (·.1)).filter fun c => s.inAtoll i (c / 128)
  let clusters := (s.clusters.map (·.1)).filter fun c => s.inAtoll i (c / 8)
  let s := cores.foldl (fun (s : State) c => s.setCore (BitVec.ofNat 10 c) { s.core (BitVec.ofNat 10 c) with
    tlb := keep (s.core (BitVec.ofNat 10 c)).tlb }) s
  clusters.foldl (fun (s : State) c => s.setCluster (BitVec.ofNat 6 c) { s.cluster (BitVec.ofNat 6 c) with
    tlb := keep (s.cluster (BitVec.ofNat 6 c)).tlb }) s

/-- Whether the tables still hold the mapping of a signal page that a translation has used. -/
def State.mapStands (s : State) (m : SignalMap) : Bool :=
  match s.walk m.island 0 m.base 3 (fld m.root 16 32 * 0x10000) with
  | .leaf e => frameAddr (fld e.pte 17 31) == m.frame && e.log2 == m.log2 && fld e.pte 12 2 == 1
  | _ => false

/-- Mappings of signal pages that the tables no longer hold are in use no more (R300, log 34). -/
def State.dropMaps (s : State) : State := { s with signalMaps := s.signalMaps.filter s.mapStands }

/-- TLBINV (R375, R376) -/
def execTlbinv (a b : BitVec 5) (s : State) : Result :=
  let va := s.getG a
  let sel := s.getG b
  s.check
    [(s.h.lvl == .user, 0x03, s.ir),
     (decide (fld sel 12 50 ≠ 0) || (decide (2 ≤ fld sel 62 2) && decide (0x000FFFFE00000000 ≤ va.toNat)), 0x02, s.ir)]
    fun s => .next ((s.dropLeaves s.myIsland (TlbEntry.selected va sel)).dropMaps.adv 4)

/-! ### FRQPOP (R377) -/

/-- FRQPOP (R377) -/
def execFrqpop (d : BitVec 5) (s : State) : Result :=
  s.check
    [(s.h.lvl == .user, 0x03, s.ir),
     (decide (d.toNat % 4 ≠ 0) || d == 0, 0x02, s.ir)]
    fun s =>
      let r : FaultRec := (s.h.frq.head?).getD ⟨0, 0, 0, 0⟩
      let t := { s with h := { s.h with frq := s.h.frq.tail } }
      .next ((((t.setG d r.va).setG (d + 1) r.info).setG (d + 2) r.pc).setGAdv (d + 3) r.who 4)

/-! ### Moving the context image (R379, R380) -/

/-- Where a transfer of the image stopped: the word, the fault, and the state with what was done. -/
structure CtxStop where
  word : Nat
  flt : Flt
  state : State

/-- Stores words `j` to `j + n - 1` of an image at `base`; no watch sees it, since they are no accesses of a load or store (R388). -/
def State.saveWords (s : State) (img : Nat → Word) (base : Word) : Nat → Nat → Except CtxStop State
  | 0, _ => .ok s
  | n + 1, j =>
    match s.storeAs s.who false (base + BitVec.ofNat 64 (8 * j)) 8 (img j).toNat with
    | .error f => .error ⟨j, f, s⟩
    | .ok t => State.saveWords t img base n (j + 1)

/-! ### CTXSAVE (R379) -/

/-- The addresses of `n` words from `base`. -/
def wordAddrs (base : Word) (n : Nat) : List Word := (List.range n).map fun j => base + BitVec.ofNat 64 (8 * j)

/-- Stream bindings end without a record and the registers become full (R379). -/
def State.dropStreams (s : State) : State :=
  { s with h := { s.h with streams := Vector.replicate 4 none, full := s.h.full.map fun _ => .full } }

/-- The effects of a CTXSAVE that completes. -/
def State.saved (s : State) : State :=
  let s := { s with h := { s.h with frq := [] } }.dropStreams
  (s.giveUpAll.adv 4).serveAll s.myCore

/-- CTXSAVE (R379) -/
def execCtxsave (s : State) : Result :=
  s.check
    [(s.h.lvl == .user, 0x03, s.ir),
     ((s.gangOf s.h.id).isSome, 0x02, s.ir)]
    fun s =>
      let s := s.drain
      let ws := s.holding
      let n := ctxWords ws
      let j := min (s.h.start / 8) n
      match s.saveWords (s.ctxWord ws) s.h.ctxa (n - j) j with
      | .error x =>
        if x.flt.cause = 0x13 then (x.state.loseMem 8 (wordAddrs s.h.ctxa n)).trapFlt x.flt
        else x.state.trapAt x.flt.cause (8 * x.word) x.flt.eaddr []
      | .ok s => .next s.saved

/-! ### CTXLOAD (R380, R381) -/

/-- Reads words `j` to `j + n - 1` of the image at `base`. -/
def State.readCtx (s : State) (base : Word) : Nat → Nat → Except CtxStop (List Nat × State)
  | 0, _ => .ok ([], s)
  | n + 1, j =>
    match s.loadAs s.who false (base + BitVec.ofNat 64 (8 * j)) 8 with
    | .error f => .error ⟨j, f, s⟩
    | .ok (x, t) =>
      match State.readCtx t base n (j + 1) with
      | .error e => .error e
      | .ok (xs, t) => .ok (x :: xs, t)

/-- Offsets 0 to 40,959 of an image. -/
abbrev CtxImage := BitVec 327680

/-- Word `j` of the low part of an image. -/
def ctxAt (img : CtxImage) (j : Nat) : Word := img.extractLsb' (64 * j) 64

/-- The image breaks R380 for the hart that moves. -/
def State.ctxBad (s : State) (img : CtxImage) : Bool :=
  let w := ctxAt img
  w 0 != 0x0203 || decide (fld (w 1) 11 53 ≠ 0) || w 2 != BitVec.ofNat 64 (8 * ctxWords (imageWants img)) ||
    decide (fld (w 4) 32 32 ≠ 0) || w 5 != 0 || w 6 != 0 || w 7 != 0 ||
    (ctxCsrs.mapIdx fun i c => c != 0x200 && c != 0x218 && s.csrRefused c (w (40 + i))).any (fun x => x) ||
    (List.range 16).any fun n => xBadHdr (w (3152 + 96 * n)).toNat

/-- Puts word `j` of the block and accumulator contents of an image that lists `ws` into what the hart that moves holds. -/
def State.putHeld (s : State) (ws : List Want) (j x : Nat) : State :=
  let i := j - 5120
  let nb := (blocksOf ws).length
  if i < 4096 * nb then
    let r := 8 * ((blocksOf ws)[i / 4096]?).getD 0 + i % 4096 / 512
    if s.h.holdsV r then { s with h := s.h.setImg r 1 (putElems 64 (s.h.vreg r).toNat (i % 512) [x]) } else s
  else
    let t := i - 4096 * nb
    let z := ((tilesOf ws)[t / 16512]?).getD 0
    let a := s.accum z
    if !s.holdsZ z then s
    else if t % 16512 < 16384 then s.setAccum z { a with acc := BitVec.ofNat 1048576 (putElems 64 a.acc.toNat (t % 16512) [x]) }
    else s.setAccum z { a with st := BitVec.ofNat 8192 (putElems 64 a.st.toNat (t % 16512 - 16384) [x]) }

/-- Reads words `j` to `j + n - 1` of the contents, each written as it arrives (R380 step 3). -/
def State.readHeld (s : State) (ws : List Want) (base : Word) : Nat → Nat → Except CtxStop State
  | 0, _ => .ok s
  | n + 1, j =>
    match s.loadAs s.who false (base + BitVec.ofNat 64 (8 * j)) 8 with
    | .error f => .error ⟨j, f, s⟩
    | .ok (x, t) => State.readHeld (t.putHeld ws j x) ws base n (j + 1)

/-- A CSR slot of the image as CTXLOAD writes it: HARTID and CTXSIZE are not loaded (R381). R380 names no check of the slot of GRANT:
any value is loaded, also one that is no multiple of 16 from 16 to 128, and SPAN is computed from it (DESIGN CHOICE, log 64). -/
def State.putCtxCsr (s : State) (c : Nat) (x : Word) : State :=
  if c = 0x200 ∨ c = 0x218 then s
  else if 0x201 ≤ c ∧ c ≤ 0x206 then { s with h := { s.h with idx := s.h.idx.setIfInBounds (c - 0x201) x } }
  else if c = 0x207 then { s with h := { s.h with grant := x } }
  else if c = 0x209 then { s with h := { s.h with tshp := x } }
  else if c = 0x219 then { s with h := { s.h with depcnt := x } }
  else s.csrPut c x

/-- The CSRs of the image, slot `i` on. -/
def State.putCtxCsrs (s : State) (img : CtxImage) (i : Nat) : List Nat → State
  | [] => s
  | c :: cs => State.putCtxCsrs (s.putCtxCsr c (ctxAt img (40 + i))) img (i + 1) cs

/-- The stream of slot `n` in the image: bound when its record is not all zero. Its record's address and its tag are not in the
image: free (log 7). -/
def State.ctxStream (s : State) (img : CtxImage) (n : Nat) : Option Stream :=
  let w (i : Nat) : Word := ctxAt img (168 + 8 * n + i)
  if (List.range 8).all fun i => w i == 0 then none
  else
    let pos := (w 7).toNat
    some
      { addr := Config.free (s.fresh + 2 * n)
        shape := Vector.ofFn fun i => if i.val = 7 then 0 else w i.val
        pos := pos
        prev := pos - s.h.span
        core := s.myCore
        tag := Config.free (s.fresh + 2 * n + 1)
        buf := [] }

/-- The records of the fault record queue in the image: up to the last that is not all zero. -/
def ctxFrq (img : CtxImage) : List FaultRec :=
  let r (n : Nat) : FaultRec := ⟨ctxAt img (104 + 4 * n), ctxAt img (105 + 4 * n), ctxAt img (106 + 4 * n), ctxAt img (107 + 4 * n)⟩
  (((List.range 16).map r).reverse.dropWhile fun x => x == ⟨0, 0, 0, 0⟩).reverse

/-- Reissues the delivery that stream `n` owes its registers saved as empty: the strip at its position before the latest advance
(R30). A read that faults delivers nothing: the registers keep the image's contents. -/
def State.redeliver (s : State) (empty : Nat) (n : BitVec 2) : State :=
  match s.h.streams[n.toNat]'n.isLt with
  | none => s
  | some q =>
    let b := bregOf q.shape
    let w := 8 * q.shape.bytes
    let regs := (List.range' b s.h.grp).filter fun r => empty.testBit r
    if q.shape.writes || regs.isEmpty then s
    else match s.readRun (s.streamWho q) q.shape (s.h.fillAt w) [] q.prev s.h.span with
      | .error _ => s
      | .ok (xs, s) =>
        let img := putElems w (s.h.img b s.h.grp) 0 xs
        { s with h := regs.foldl (fun (h : Hart) r =>
          h.promise h.stripGroups 0 (.stream n) r (r - b) 1 (elem 32768 img (r - b))) s.h }

/-- Writes every other section to the hart that moves (R380 step 4). -/
def State.putContext (s : State) (img : CtxImage) : State :=
  let w := ctxAt img
  let s := s.putCtxCsrs img 0 ctxCsrs
  let h := s.h
  let h := { h with
    g := Vector.ofFn fun i => if i.val = 0 then 0 else w (8 + i.val)
    k := Vector.ofFn fun i => if i.val = 0 then (h.k[0]?).getD 0 else img.extractLsb' (64 * (208 + 128 * (i.val - 1))) 8192
    pl := Vector.ofFn fun i => w (200 + i.val)
    e := Vector.ofFn fun i => img.extractLsb' (64 * (3152 + 96 * i.val)) 6144
    span := spanOf h.grant.toNat h.vtype
    full := h.full.map fun _ => .full
    frq := ctxFrq img
    vq := []
    tileTag := 0
    resume := []
    shelf := []
    watchHeld := none }
  let s := { s with h := h }
  let s := { s with
    h := { s.h with streams := Vector.ofFn fun n => s.ctxStream img n.val }
    fresh := s.fresh + 8 }
  let s := ([0, 1, 2, 3] : List (BitVec 2)).foldl (fun (s : State) z =>
    if s.holdsZ z then s.setAccum z { s.accum z with
      anchor := (w 3).extractLsb' (16 * z.toNat) 16
      taken := (w 1).getLsbD (7 + z.toNat) } else s) s
  let s := { s with h := s.h.mend fun b =>
    b.1 != 1 || decide (b.2 < 64) || (b.2 != 64 + 0x200 && b.2 != 64 + 0x218 && ctxCsrs.contains (b.2 - 64)) }
  (([0, 1, 2, 3] : List (BitVec 2)).foldl (fun (s : State) n => s.redeliver (fld (w 4) 0 32) n) s).adv 4

/-- Everything that a CTXLOAD writes but for the blocks and accumulators is undefined after its machine check (R385): g, mask, plan and
expansion registers, and the CSRs of the image other than those that the trap itself writes; free values that each can hold. -/
def State.loseContext (s : State) : State :=
  let s := ((List.range 32).drop 1).foldl (fun (s : State) n => s.loseG (BitVec.ofNat 5 n) 0x13) s
  let s := ((List.range 24).drop 1).foldl (fun (s : State) n =>
    { s.setK n ((Config.freeImage s.fresh).setWidth 8192) with fresh := s.fresh + 1 }) s
  let s := (List.range 8).foldl (fun (s : State) n =>
    { s.takeFree.2 with h := { s.h with pl := s.h.pl.setIfInBounds n s.takeFree.1 } }) s
  let s := (List.range 16).foldl (fun (s : State) n => s.loseE (BitVec.ofNat 5 n)) s
  let csrs := ctxCsrs.filter fun c =>
    !([0x200, 0x218, 0x400, 0x401, 0x402, 0x403, 0x404, 0x405, 0x40A] : List Nat).contains c
  let s := csrs.foldl (fun (s : State) c =>
    let t := s.takeFree.2
    let x : Word := if c = 0x207 then BitVec.ofNat 64 (16 * (s.takeFree.1.toNat % 8 + 1)) else s.takeFree.1
    if t.csrRefused c x && c != 0x207 then t else t.putCtxCsr c x) s
  { s with h := { s.h with span := spanOf s.h.grant.toNat s.h.vtype } }

/-- A machine check of CTXLOAD (R384, R385): EIX is 0, and what it writes is undefined. -/
def State.ctxCheck (s : State) (f : Flt) : Result :=
  match s.trap (Trap.pre f.cause f.eaddr) with
  | .next t => .next t.loseContext
  | y => y

/-- Steps 3 and 4 of CTXLOAD, from offset `o` of the contents. After a machine check the contents that step 3 writes are
undefined (R385). -/
def State.loadRest (s : State) (img : CtxImage) (o : Nat) : Result :=
  let ws := imageWants img
  let n := ctxWords ws
  let j := min (max 5120 (o / 8)) n
  match s.readHeld ws s.h.ctxa (n - j) j with
  | .error x =>
    if x.flt.cause = 0x13 then
      let t := (blocksOf ws).foldl (fun (s : State) b => s.loseV (8 * b) 8) x.state
      ((tilesOf ws).foldl (fun (s : State) z => s.loseZ z) t).ctxCheck x.flt
    else x.state.trapAt x.flt.cause (8 * x.word) x.flt.eaddr []
  | .ok s => .next (s.endWait.putContext img)

/-- Steps 2 to 4 of CTXLOAD: it waits until everything is acquired. -/
def State.loadHeld (s : State) (img : CtxImage) : Result :=
  let r := s.acquire (imageWants img)
  if r.1 then r.2.loadRest img 0 else .next (r.2.enterWait (.ctxload img))

/-- CTXLOAD (R380, R381). A fault at offsets 0 to 40,959 leaves EIX 0, also when it goes on with its contents: ERET then issues it
afresh (R369) -/
def execCtxload (s : State) : Result :=
  s.check [(s.h.lvl == .user, 0x03, s.ir)] fun s =>
    let s := s.drain
    let o := s.h.start
    match s.readCtx s.h.ctxa 5120 0 with
    | .error x => if x.flt.cause = 0x13 then s.ctxCheck x.flt else s.trap (Trap.pre x.flt.cause x.flt.eaddr)
    | .ok (xs, s) =>
      let img : CtxImage := BitVec.ofNat 327680 (packElems 64 xs)
      if 40960 ≤ o then s.loadRest img o
      else s.check [(s.ctxBad img, 0x02, s.h.ctxa)] fun s => (s.giveUpAll.serveAll s.myCore).loadHeld img

/-- A CTXLOAD that waits takes what it may and goes on when it has everything (R380). -/
def State.ctxloadWake (s : State) : Result :=
  match s.h.slot with
  | .wait (.ctxload img) _ => s.loadHeld img
  | _ => .next s

/-- A block or accumulator that CTXLOAD waits for is granted (R380) -/
def execCtxloadGrant (h : BitVec 12) (s : State) : Result := s.onHartR h fun s => s.ctxloadWake

end Sys2Proof.Machine
end

