-- ==== Sys2Proof/Machine/Arbiter.lean ====
section
/-! DEFINITION. What moves harts on besides their own instructions: queue heads, the lane arbiter, the sequencer, register arrivals,
timeouts, what comes due at an instruction boundary, landing pre-emptions, the governor (15 R285 to R289, R291, R293, 01 R12, R28,
R29, 04 R71, R72, 06 R97, 20 R367, R368, 17 R315, 22 R388). -/

namespace Sys2Proof.Machine

/-! ### The vector queue (R285, R308) -/

/-- Writes the begin event of a queue entry of the hart that moves, unless it is written (R308). -/
def State.beginEntry (s : State) (q : Queued) : State := if q.begun then s else s.traceEvent q.pipe false q.pc q.done

/-- Writes the events of a queue entry of the hart that moves that has completed (R308). -/
def State.endEntry (s : State) (q : Queued) : State := (s.beginEntry q).traceEvent q.pipe true q.pc q.units

/-- The head of the queue of the hart that moves completes and leaves; a hart with an empty queue has no credit (R286). -/
def State.headLeaves (s : State) : State :=
  match s.h.vq with
  | [] => s
  | q :: qs =>
    let t := s.endEntry q
    { t with h := { t.h with vq := qs, credit := if qs = [] then 0 else t.h.credit } }

/-- The head of the queue of the hart that moves runs one unit more; it leaves after the last. -/
def State.headUnit (s : State) : State :=
  match s.h.vq with
  | [] => s
  | q :: qs =>
    let t := s.beginEntry q
    if q.done + 1 < q.units then
      { t with h := { t.h with vq := { q with done := q.done + 1, beats := 0, begun := true } :: qs } }
    else { t with h := { t.h with vq := { q with begun := true } :: qs } }.headLeaves

/-- Whether the beat of a queue entry's next element group waits for memory replies: a load's, for a group of registers in which the
element group has not come (R286). -/
def Hart.waitsReplies (h : Hart) (q : Queued) : Bool :=
  q.dst.any fun r => (h.emptyIn [r]).isSome && decide (h.bytesReady r.1 r.2 / h.groupBytes ≤ q.done)

/-- Whether the head of a hart's queue is a ready head of the lanes: its sources are ready, for an instruction enters the queue once it
has read them (log 5), and once it has begun it does not wait for replies (R286). -/
def Hart.laneHead (h : Hart) : Bool := match h.vq with | q :: _ => !q.pipe.sequenced && !(q.begun && h.waitsReplies q) | [] => false

/-- Whether the head of a hart's queue is one that the sequencer runs. -/
def Hart.seqHead (h : Hart) : Bool := match h.vq with | q :: _ => q.pipe.sequenced | [] => false

/-- Whether the head of a hart's queue has units that still have to take effect (log 5). -/
def Hart.deferredHead (h : Hart) : Bool := match h.vq with | q :: _ => q.todo.isSome | [] => false

/-- Whether an entry of a hart's queue has units that still have to take effect. -/
def Hart.deferring (h : Hart) : Bool := h.vq.any fun q => q.todo.isSome

/-! ### The lane arbiter (R286, R287, Table 15-3) -/

/-- The lane groups of a slot's partition. -/
def laneGroups (lpart : Word) (n : BitVec 2) : List (BitVec 3) :=
  if fld lpart 0 2 = 0 then [0, 1, 2, 3, 4, 5, 6, 7]
  else if fld lpart 0 2 = 1 then (if n = 0 then [0, 1, 2, 3] else if n = 1 then [4, 5, 6, 7] else [])
  else [BitVec.ofNat 3 (2 * n.toNat), BitVec.ofNat 3 (2 * n.toNat + 1)]

/-- Lane groups that the hart's GRANT stands for: the beats of an element group on one lane group (R287). -/
def Hart.groupBeats (h : Hart) : Nat := max 1 (h.grant.toNat / 16)

/-- Lane groups to which the hart in slot `n` of core `c` may be bound at once: as its GRANT and the core's cap let it (R287, R289). -/
def State.laneCap (s : State) (c : BitVec 10) (n : BitVec 2) : Nat := max 1 (min (s.hart (c ++ n)).grant.toNat (s.core c).cap / 16)

/-- WSHARE of a hart: its share, the CSR's bits [3:0] (R286). -/
def Hart.share (h : Hart) : Nat := fld h.wshare 0 4

/-- The lane groups of core `c` whose beats have ended are free. -/
def State.freeLanes (s : State) (c : BitVec 10) : State :=
  s.setCore c { s.core c with bound := (s.core c).bound.filter fun b => decide (s.clk < b.until_) }

/-- A free lane group for slot `n` of core `c` that its hart may be bound to. -/
def State.laneFor (s : State) (c : BitVec 10) (n : BitVec 2) : Option (BitVec 3) :=
  let k := s.core c
  if (s.hart (c ++ n)).laneHead && decide ((k.bound.countP fun b => b.slot == n) < s.laneCap c n) then
    (laneGroups k.lpart n).find? fun g => k.bound.all fun b => b.lg != g
  else none

/-- The slots of one partition with slot `n`. -/
def partSlots (lpart : Word) (n : BitVec 2) : List (BitVec 2) := if fld lpart 0 2 = 0 then [0, 1, 2, 3] else [n]

/-- Whether no hart of the partition of slot `n` with WSHARE of 1 or more has a ready head (R286). -/
def State.idleLanes (s : State) (c : BitVec 10) (n : BitVec 2) : Bool :=
  (partSlots (s.core c).lpart n).all fun m => !((s.hart (c ++ m)).share != 0 && (s.hart (c ++ m)).laneHead)

/-- The visit of slot `n` of core `c` in a round goes on: its hart is credited once, and the slot is bound while it has credit and a lane
group is free; the visit ends otherwise. Whether the slot is bound next, and the state of the round (R286). -/
def State.visitSlot (s : State) (c : BitVec 10) (n : BitVec 2) : Bool × State :=
  let h := s.hart (c ++ n)
  let ready := h.laneHead && h.share != 0
  let on := (s.core c).credited.contains n
  let h := if ready && !on then { h with credit := h.credit + 64 * (h.share : Int) } else h
  let binds := ready && decide (0 < h.credit) && (s.laneFor c n).isSome
  let rest := (s.core c).credited.filter (· != n)
  let s := s.putHart h
  (binds, s.setCore c { s.core c with credited := if binds then n :: rest else rest })

/-- The rounds of the whole core go on from the slot whose turn it is, over at most `fuel` visits: the slot bound next, and the state of
the round. -/
def State.lanePick (s : State) (c : BitVec 10) : Nat → Option (BitVec 2) × State
  | 0 => (none, s)
  | fuel + 1 =>
    let n := (s.core c).visit
    let v := s.visitSlot c n
    if v.1 then (some n, v.2) else State.lanePick (v.2.setCore c { v.2.core c with visit := n + 1 }) c fuel

/-- A beat of a lane group runs: an element group takes GRANT/16 of them (R287). The first beat of a load sends its requests. -/
def State.headBeat (s : State) : State :=
  match s.h.vq with
  | [] => s
  | q :: qs =>
    let begun (s : State) (beats : Nat) : State :=
      { s.beginEntry q with h := { (s.beginEntry q).h with vq := { q with beats, begun := true } :: qs } }
    if s.h.waitsReplies q then begun s q.beats
    else if q.beats + 1 < s.h.groupBeats then begun s (q.beats + 1)
    else s.headUnit

/-- Binds lane group `g` to slot `n` of core `c` for a beat of `cy` cycles; a beat that then waits for memory replies releases the lane
groups of the slot (R286). -/
def State.bindLane (s : State) (c : BitVec 10) (n : BitVec 2) (g : BitVec 3) (cy : Nat) : State :=
  let k := s.core c
  let s := s.setCore c { k with bound := k.bound ++ [⟨g, n, s.clk + cy⟩] }
  let s := s.onHart (c ++ n) fun s =>
    { s with h := { s.h with credit := if s.h.share = 0 then s.h.credit else s.h.credit - cy } }.headBeat
  let k := s.core c
  let h := s.hart (c ++ n)
  if h.vq.head?.any fun q => q.begun && h.waitsReplies q then s.setCore c { k with bound := k.bound.filter fun b => b.slot != n } else s

/-- The slot of core `c` that the arbiter of slot `n`'s partition binds next, with its round's state (R286): a partition of one slot is
a round of one hart, and a hart of WSHARE 0 has only what the others leave. -/
def State.nextBound (s : State) (c : BitVec 10) (n : BitVec 2) : Option (BitVec 2) × State :=
  if s.idleLanes c n then (if (s.hart (c ++ n)).share = 0 then (some n, s) else (none, s))
  else if fld (s.core c).lpart 0 2 = 0 then s.lanePick c 5
  else
    let v := s.visitSlot c n
    let v := if v.1 then v else v.2.visitSlot c n
    (if v.1 then some n else none, v.2)

/-- The arbiter binds a lane group to slot `n` of core `c` for a beat, if it is that slot's turn. -/
def State.laneTurn (s : State) (c : BitVec 10) (n : BitVec 2) (cy : Nat) : State :=
  let s := s.freeLanes c
  match s.nextBound c n with
  | (some m, t) => if m = n then (match t.laneFor c n with | some g => t.bindLane c n g cy | none => t) else s
  | (none, t) => t

/-- A reply comes for the head of the queue of the hart that moves: an element group for each register group that waits for it. -/
def State.replyHead (s : State) : State :=
  match s.h.vq with
  | [] => s
  | q :: _ => q.dst.foldl (fun (s : State) r => match s.h.emptyIn [r] with | some v => s.arrival (BitVec.ofNat 5 v) | none => s) s

/-- The arbiter of the partition of the hart that moves binds the next lane group, to whichever hart it is due; what the hart's own head
waits for comes first. -/
def State.laneMove (s : State) : State :=
  if s.h.vq.head?.any fun q => q.begun && s.h.waitsReplies q then s.replyHead
  else
    let c := s.myCore
    let cy := s.takeFree.1.toNat % 64 + 1
    let s := s.takeFree.2.freeLanes c
    match s.nextBound c (slotOf s.h.id) with
    | (some m, t) => match t.laneFor c m with | some g => t.bindLane c m g cy | none => t
    | (none, t) => t

/-- Whether the clocks of a hart's cluster run and it issues: not while the cluster is frozen (R389). -/
def State.gated (s : State) (id : HartId) : Bool := (s.cluster (clusterOf (coreOf id))).freeze == .frozen

/-- The lane arbiter binds a lane group to a ready head for one beat, of 1 to 64 cy (R286) -/
def execLaneBinding (h : BitVec 12) (cy : BitVec 6) (s : State) : Result :=
  .next (if s.gated h then s else s.laneTurn (coreOf h) (slotOf h) (cy.toNat + 1))

/-! ### Register waits (R28, R29) -/

/-- The producer of the register that the hart that moves waits for writes on: an element group for a reader of element groups, else
all that is left. -/
def State.fillAwaited (s : State) : State :=
  match s.h.slot with
  | .wait (.reg r _ part _) _ =>
    match s.h.full[r.toNat]'r.isLt with
    | .full => s
    | .empty p => s.arrivals r (if part then 1 else p.groups - p.frontier)
  | _ => s

/-- A producer fills the register that a hart waits for (R28, R29): the waiting instruction issues at the hart's next move -/
def execRegisterWaitEnd (h : BitVec 12) (s : State) : Result := .next (if s.gated h then s else s.onHart h fun s => s.fillAwaited)

/-! ### Tile instructions whose units take effect in the sequencer (R188, R190, R191, R194, R291, log 5) -/

/-- The run of a tile instruction that may be part-way, from its bits (R55, Table 10-5): TMMA, TLDA, TSTA or TADD. -/
def execTile (w : Word) (s : State) : Result :=
  let f (n lo len : Nat) : BitVec n := BitVec.ofNat n (fld w lo len)
  let op := tileOpOf 4 w.toNat
  if op = 3 then
    execTmma (f 2 41 2) (f 5 50 5) (f 1 49 1) (f 5 44 5) (f 1 43 1) (f 4 37 4) (f 4 33 4) (f 3 30 3) (f 3 27 3) (f 1 26 1) (f 1 25 1) s
  else if op = 6 then execTadd (f 2 41 2) (f 2 0 2) s
  else s.tileMove (f 2 41 2) (f 5 50 5) (f 1 49 1) (f 5 44 5) (f 4 37 4) (f 1 24 1) (f 1 23 1) (f 5 0 5) (op == 5)

/-- What the unit of a deferred entry leaves of the hart that moves: its own place and its queue are those of `h`. -/
def Hart.backTo (h t : Hart) (vq : List Queued) : Hart :=
  { t with pc := h.pc, slot := h.slot, vq := vq, resume := h.resume, quota := none, landAt := h.landAt }

/-- The end event of a TSYNC in whose wait the hart that moves stands, when that is discarded (R12, R308). -/
def State.endTsync (s : State) : State := match s.h.slot with | .wait .tsync _ => s.traceEvent .tile true s.h.pc 0 | _ => s

/-- The state `t` in which the entry `q` of the hart of `s` has trapped, with the end event that shows how far it had come, and that of
a TSYNC behind it (R308). -/
def State.stopEntry (s : State) (q : Queued) (t : State) : State :=
  { ({ t with h := s.h }.traceEvent q.pipe true q.pc t.h.eix.toNat).endTsync with h := { t.h with credit := 0 } }

/-- The head of the queue of the hart that moves, a deferred tile instruction, runs its next unit: it goes on in its turn, leaves after
the last unit, or traps with what is behind it not done (R194). With `land` a pre-emption lands after so many units. A watch hit is due
once the instruction has completed, before what is behind it (R388). -/
def State.deferredUnit (s : State) (land : Option Nat) : State :=
  let h := s.h
  match h.vq with
  | [] => s
  | q :: qs =>
    match q.todo with
    | none => s.headUnit
    | some w =>
      let s0 := s.beginEntry q
      let u := usesOf s.useCtx 4 w.toNat
      let s1 := { s0 with
        ir := w
        h := { h with
          pc := q.pc
          vq := []
          slot := .run
          resume := [{ Resume.at q.pc q.done with prior := q.prior, own := true }]
          quota := if land.isSome then none else some (q.done + 1, none)
          landAt := land } }
      let mended (t : State) (upto : Nat) : List (Nat × Nat) := s1.h.repaired u 4 w.toNat upto t.h.bad
      match s1.runConsuming u 4 w.toNat (execTile w s1) with
      | .next t =>
        if t.trapped then s.stopEntry q { t with h := { t.h with bad := mended t t.h.eix.toNat } }
        else
          let seen := match t.h.watch with | some a => some a | none => t.h.watchHeld
          let t := { t with ir := s.ir }
          match t.h.slot with
          | .wait .. => { t.fillAwaited with h := h.backTo t.fillAwaited.h (q :: qs) }
          | _ =>
            if t.h.pc = q.pc then
              let x : Queued := { q with done := q.done + 1, begun := true, prior := t.h.prior }
              { t with h := { h.backTo t.h (x :: qs) with watch := h.watch, watchHeld := seen, bad := mended t (q.done + 1) } }
            else
              let t := { t with h := { h.backTo t.h ({ q with begun := true } :: qs) with
                watch := seen, watchHeld := none, bad := mended t (2 ^ 64) } }
              if seen.isSome then
                let back := (qs.head?.map (·.pc)).getD h.pc
                let t := t.headLeaves.endTsync
                { t with h := { t.h with vq := [], credit := 0, pc := back, slot := .run } }
              else t.headLeaves
      | _ => s

/-! ### The sequencer (R291) -/

/-- The next slot of core `c` with a pending unit, round robin. In a cluster that stops, an entry whose units still have to take effect
runs no unit more (R389). -/
def State.seqSlot (s : State) (c : BitVec 10) : Option (BitVec 2) :=
  let from_ := (s.core c).seqNext
  let stopping := (s.cluster (clusterOf c)).freeze == .stopping
  (([0, 1, 2, 3] : List (BitVec 2)).map fun i => from_ + i).find? fun n =>
    (s.hart (c ++ n)).seqHead && !(stopping && (s.hart (c ++ n)).deferredHead)

/-- The sequencer of core `c` runs one unit for the next hart in turn (R291). A trap of another hart is none of the hart that moves. -/
def State.seqUnit (s : State) (c : BitVec 10) : State :=
  match s.seqSlot c with
  | none => s
  | some n =>
    let id : HartId := c ++ n
    if s.gated id then s
    else
      let t := s.onHart id fun s => s.deferredUnit none
      { t with ir := s.ir, trapped := if id = s.h.id then t.trapped else s.trapped }.setCore c { t.core c with seqNext := n + 1 }

/-- The sequencer runs one unit for the next hart in turn (R291) -/
def execSequencerUnit (core : BitVec 10) (s : State) : Result := .next (s.seqUnit core)

/-- The head of the queue of the hart that moves goes on in its turn. -/
def State.headMove (s : State) : State := if s.h.seqHead then s.seqUnit s.myCore else s.laneMove

/-- The room in a full queue comes: its head goes on in its turn, and the scalar pipeline issues again once an entry has left (R285) -/
def execVectorQueueRoom (h : BitVec 12) (s : State) : Result :=
  .next (if s.gated h then s else s.onHart h fun s => if 16 ≤ s.h.vq.length then s.headMove else s)

/-- Time goes on until every lane group that is bound has ended its beat of at most 64 cy, and the arbiter of the partition of the hart
that moves binds the next (R286). -/
def State.laneWait (s : State) : State := { s with clk := s.clk + 64 }.laneMove

/-- What stands in the queue of the hart that moves and has had its effect finishes, up to the first entry that has not: the lane arbiter
and the sequencer serve the harts of the core in their turn (R286, R291). `fuel` bounds the turns. -/
def State.finishUpTo : Nat → State → State
  | 0, s => if s.h.vq = [] ∨ s.h.deferredHead then s else s.headLeaves
  | n + 1, s =>
    if s.h.vq = [] ∨ s.h.deferredHead then s
    else State.finishUpTo n (if s.h.seqHead then s.seqUnit s.myCore else s.laneWait)

/-- Turns that a queue can take: for each unit the beats of an element group, its reply and a turn of the round. -/
def Hart.turnsLeft (h : Hart) : Nat := h.vq.foldl (fun n q => n + (h.groupBeats + 2) * q.units + 1) 0

/-- What stands in the queue of the hart that moves finishes, with its events, in turn with the queues of the other harts of its core. -/
def State.finishQueue (s : State) : State :=
  if s.h.vq = [] then s
  else s.finishUpTo ((([0, 1, 2, 3] : List (BitVec 2)).map fun n => (s.hart (s.myCore ++ n)).turnsLeft).foldl (· + ·) 0)

/-- An operation of the hart that moves. What stands in its queue has completed before one that traps or that empties the queue (R87,
R359). -/
def State.afterQueue (s : State) (f : State → Result) : Result :=
  match f s with
  | .next t => if s.h.vq ≠ [] && (t.trapped || (t.hart s.h.id).vq == []) then f s.finishQueue else .next t
  | y => y

/-- A position of an instruction as a timeline event gives it: element group, step or chunk (R308). -/
def Hart.eventAt (h : Hart) (p : Pipe) (at_ : Nat) : Nat :=
  match p with
  | .tile => at_
  | .xexp => at_ / 32
  | .lanes | .special | .memory => at_ / h.groupElems

/-- The end events of instructions of the hart that moves that are interrupted (R308): those that stand begun at their points. -/
def State.endPoints (s : State) (rs : List Resume) : State :=
  rs.foldl (fun (s : State) r => match r.begun with | some p => s.traceEvent p true r.pc (s.h.eventAt p r.at_) | none => s) s

/-- The hart that moves is interrupted before the instruction at its PC does anything more: its queue finishes, and what has begun,
that instruction or a member of its convoy, has its end event (R308). -/
def State.interrupt (s : State) : State :=
  let s := s.finishQueue
  s.endPoints s.h.resume

/-! ### Timeouts (R12) -/

/-- The wait of the hart that moves ends with its timeout result when WTMO has expired, unless its condition holds (R12). -/
def State.timeout (s : State) : Result :=
  if !s.timedOut then .next s
  else match s.h.slot with
    | .wait (.waita ..) _ => s.waitaWake
    | .wait (.chwaitRec ..) _ => s.chwaitWake
    | .wait (.chwaitId ..) _ => s.chwaitWake
    | .wait (.qpop ..) _ => s.qpopWake
    | .wait (.gang d ..) _ => .next (s.leaveGang.comeBack d (-1))
    | .wait (.vacq ..) _ => .next s.vacqTry
    | .wait (.wfi _) _ => .next s.wfiWake
    | _ => .next s

/-- WTMO expires in a wait that honours it (R12) -/
def execWaitTimeout (h : BitVec 12) (s : State) : Result :=
  if s.gated h then .next s else s.onHartR h fun s => s.afterQueue State.timeout

/-! ### Pre-emption (R293, R367, R368) -/

/-- Whether a pending request may land. -/
def Hart.mayPreempt (h : Hart) : Bool := h.preq && !h.pm

/-- Whether words or registers fail their check or a machine check is held: the next instruction may raise a machine check, which comes
before all else at the boundary (R386). -/
def State.mayFail (s : State) : Bool := s.badMem != [] || s.h.bad != [] || s.h.mcheck.isSome

/-- The state in which a move has raised a machine check. -/
def State.checked (t : State) : Option State := if t.trapped && t.h.ecause == 0x13 then some t else none

/-- The pre-emption lands in the wait of a TSYNC, CHWAIT, WAITA or QPOP: at the instruction, with EIX 0 (R12). When it is issued again it
waits again, if only for the edge that it records then (R193, R297, R416, log 47). -/
def State.landWaited (s : State) : Result :=
  let h := s.h
  { s with h := { h with
    resume := { Resume.at h.pc 0 with own := true } :: h.resume.filter fun r => r.pc != h.pc } }.preempt { cause := 0x12 }

/-- The pre-emption lands in a TSYNC all of whose earlier tile instructions have completed; its end event is written (R308). -/
def State.landTsync (s : State) : Result := { s.endTsync with h := s.h }.landWaited

/-- The pre-emption lands at the oldest tile instruction whose units are not all run, after its current unit; what is behind it has
had no effect (R12, R194). When that unit was its last, the pre-emption lands before the instruction behind it. A machine check of
the unit behind comes first (R386). -/
def State.landDeferred (s : State) : Result :=
  let s0 := s.finishQueue
  let t := s0.deferredUnit (some 1)
  if t.trapped then .next ((if s.mayFail then (s0.deferredUnit (some 2)).checked else none).getD t)
  else match t.h.vq with
    | q :: _ =>
      match (if s.mayFail then (t.deferredUnit (some 1)).checked else none) with
      | some x => .next x
      | none =>
        let t := t.endTsync
        { t with h := { t.h with pc := q.pc, vq := [], credit := 0, slot := .run } }.preempt
          { cause := 0x12, eix := q.done, part := q.done != 0, raised := q.prior
            tseq := tseqOf (tileOpOf 4 ((q.todo.getD 0).toNat)) q.done (max 1 t.h.grant.toNat) }
    | [] =>
      match t.h.slot with
      | .wait .tsync _ => t.landTsync
      | _ => if t.h.watch.isSome || s.mayFail then .next t else t.preempt (t.h.trapHere 0x12 0)

/-- The pre-emption lands before the instruction at the PC. -/
def State.landHere (s : State) : Result :=
  if s.h.deferring then s.landDeferred
  else
    let s := s.interrupt
    s.preempt (s.h.trapHere 0x12 0)

/-- The pre-emption lands in the wait of the hart that moves, which leaves it (R12, R293). The wait of a strait QPUSH ends
first; a BAR whose departure has come departs first, and any other BAR keeps its target (R315). -/
def State.landInWait (s : State) : Result :=
  match s.h.slot with
  | .wait (.qpush _) _ => .next s
  | .wait (.bar _ _ _ target ..) _ =>
    let t := s.barTry
    match t.h.slot with
    | .wait .. => s.unwatch.finishQueue.preempt { cause := 0x12, eix := target.toNat, part := true }
    | _ => .next t
  | .wait .tsync _ => if s.h.deferring then s.landDeferred else s.finishQueue.landTsync
  | .wait (.gang ..) _ => s.leaveGang.landHere
  | .wait (.waita ..) _ | .wait (.chwaitRec ..) _ | .wait (.chwaitId ..) _ | .wait (.qpop ..) _ =>
    { s.unwatch with poppers := s.poppers.filter fun p => p.2 != s.h.id }.finishQueue.landWaited
  | _ => s.leaveFifos.landHere

/-! ### Boundaries (R71, R72, R97, R368, R388) -/

/-- Whether the parcels of an instruction are those of LAND: a 32-bit HINT with fn 0x01 (R61, R97). -/
def isLand (ps : List (BitVec 16)) : Bool :=
  ps.length == 2 && joinParcels ps &&& 0xFF8000FF == landBits
where
  /-- major and fn of LAND (Table 4-1, R108) -/
  landBits : Nat := 0xDF800001

/-- Whether the landing of the latest indirect branch fails its check: its target is not LAND (R97). A
target of which a parcel cannot be fetched takes the fault of its fetch, also where its first parcel is none of LAND's (R96; DESIGN
CHOICE, log 61). -/
def State.landingFails (s : State) : Bool :=
  match s.fetch s.who s.h.pc with
  | .error _ => false
  | .ok (ps, _) => !isLand ps

/-- The bits of EXIT (R323). -/
def exitBits : Nat := 0xCE800038

/-- Whether the next instruction is an EXIT that ends a T iteration (R14). -/
def State.exitsNext (s : State) : Bool :=
  s.h.lvl == .user && (s.h.loop.bind fun p => nextCounts p.levels p.counts).isSome &&
    (match s.fetch s.who s.h.pc with
     | .error _ => false
     | .ok (ps, _) => ps.length == 2 && joinParcels ps == exitBits)

/-- A watch hit that is due (R388): the trap 0x15, or the freeze of the cluster when STOPEN is 1. -/
def State.watchDue (s : State) (a : Word) : Result :=
  let s := { s with h := { s.h with watch := none } }
  if (s.cluster s.myCluster).stopen then .next (s.freezeCluster s.myCluster 2 (some s.h.id) a)
  else s.interrupt.trap { cause := 0x15, eaddr := a }

/-- Whether a pending pre-emption lands at the boundary at which the hart that moves stands: not before the units after which it is to
land, nor between the members of a resumed convoy (R293, R363). -/
def State.landsNow (s : State) : Bool :=
  s.h.mayPreempt && s.h.landAt.isNone && (s.h.resume == [] || (s.laggard.isNone && !s.betweenMembers))

/-- What is due at the boundary at which the hart that moves stands, in the order of R368, or the state in which its next instruction
issues. R368 does not name a watch hit: it comes first, so that a BARG that hits a watch takes its advisory in the handler (DESIGN
CHOICE, log 61). A deprecated instruction and the EXIT behind it that ends a T iteration fall together: EXIT then comes first, and the
advisory has EPC at the entry of the next iteration (R72, log 61). -/
def State.due (s : State) : Option Result × State :=
  match s.h.watch with
  | some a => (some (s.watchDue a), s)
  | none =>
    let ready := { s with h := { s.h with branch := none } }
    match s.h.advisory with
    | some a =>
      if s.exitsNext then (none, ready)
      else (some ({ s with h := { s.h with advisory := none } }.interrupt.trap { cause := 0x14, eaddr := a }), s)
    | none =>
      if s.h.branch.isSome && s.landingFails then (some (s.interrupt.trap { cause := 0x16, eaddr := s.h.branch.getD 0 }), s)
      else if s.landsNow then (some ready.landHere, ready)
      else (none, ready)

/-- A pending pre-emption lands (R368): at once in a wait or between instructions (`units` = 0), after what comes before it at that
boundary, or after that many units of the next instruction when that lets it be interrupted. A machine check that is held comes before it
(R386). -/
def execPreemption (h : BitVec 12) (units : Nat) (s : State) : Result :=
  if s.gated h || s.slotFree h || !(s.hart h).mayPreempt then .next s
  else s.onHartR h fun s =>
    match s.h.slot with
    | .run =>
      if units ≠ 0 then .next { s with h := { s.h with landAt := some units } }
      else
        let s := { s with h := { s.h with landAt := none } }
        if s.mayFail then .next s else match s.due.1 with | some r => r | none => .next s
    | _ => if s.h.mcheck.isSome then .next s else s.landInWait

/-! ### The governor (R289) -/

/-- The governor sets a core's lane cap to 16 (cap + 1), at most once every 4,096 cy (R289) -/
def execGovernorCapChange (core : BitVec 10) (cap : BitVec 3) (s : State) : Result :=
  let k := s.core core
  let due := match k.capAt with | none => true | some t => decide (t + 4096 ≤ s.clk)
  .next (if due then s.setCore core { k with cap := 16 * (cap.toNat + 1), capAt := some s.clk } else s)

end Sys2Proof.Machine
end

