-- ==== Sys2Proof/Machine/Debug.lean ====
section
/-! DEFINITION. Freezing a cluster and dumping it (22 R389 to R392). -/

namespace Sys2Proof.Machine

/-! ### Freezing (R389) -/

/-- Whether something of a hart is in execution, which finishes before its cluster stops (R389): an entry of the queue that has had its
effect, a vector instruction that is part-way at the PC, or members of a resumed convoy that are. A sequencer entry whose units take
effect as they run stands between two units, and stays queued like what has not begun. -/
def Hart.inExecution (h : Hart) : Bool :=
  h.vq.any (·.todo.isNone) ||
    (h.yielding == [] && (h.resume.any fun r => r.begun.isSome || (r.member && r.at_ != 0)) && (match h.slot with | .run => true | .wait (.reg ..) _ => true | _ => false))

/-- The clocks of a cluster that stops are gated, once everything in execution there has finished (R389) -/
def execClusterFrozen (cl : BitVec 6) (s : State) : Result :=
  let c := s.cluster cl
  .next (if c.freeze ≠ .stopping ∨ (s.clusterHarts cl).any (fun id => (s.hart id).inExecution) then s
    else s.setCluster cl { c with freeze := .frozen, cause := { c.cause with at_ := s.clk } })

/-! ### Dumps (R391, R392) -/

/-- What a dump has written. -/
structure DumpRun where
  state : State
  bytes : Nat
  records : Nat
  trunc : Bool := false
  fault : Option Word := none

/-- Stores the words of a list from word `i` at `base` + 8i: the state, or where it stopped. -/
def State.dumpWords (s : State) (w : Who) (base : Word) (i : Nat) : List Word → Except (Nat × Flt × State) State
  | [] => .ok s
  | x :: xs =>
    match s.storeAs w false (base + BitVec.ofNat 64 (8 * i)) 8 x.toNat with
    | .error e => .error (i, e, s)
    | .ok t => State.dumpWords t w base (i + 1) xs

/-- One record: left out when it would pass SIZE, cut short by a fault (R392 steps 3 and 4). -/
def DumpRun.record (w : Who) (base : Word) (size : Nat) (r : DumpRun) (ws : List Word) : DumpRun :=
  if r.trunc || r.fault.isSome then r
  else
    let n := 8 * ws.length
    if size < r.bytes + n then { r with trunc := true }
    else
      match r.state.dumpWords w (base + BitVec.ofNat 64 r.bytes) 0 ws with
      | .error (i, e, t) => { r with state := t, bytes := r.bytes + 8 * i, fault := some e.eaddr }
      | .ok t => { r with state := t, bytes := r.bytes + n, records := r.records + 1 }

/-- Word `i` of a dump's header (Table 22-6). -/
def headerWord (cl : BitVec 6) (done : Bool) (r : DumpRun) (need at_ i : Nat) : Word :=
  if i = 0 then BitVec.ofNat 64 (done.toNat * 2 ^ 63 + r.trunc.toNat * 2 ^ 62 + r.fault.isSome.toNat * 2 ^ 61 + 0x0203)
  else if i = 1 then cl.setWidth 64
  else if i = 2 then BitVec.ofNat 64 r.bytes
  else if i = 3 then BitVec.ofNat 64 need
  else if i = 4 then r.fault.getD 0
  else if i = 5 then BitVec.ofNat 64 r.records
  else if i = 6 then BitVec.ofNat 64 at_
  else 0

/-- DUMPCTL.RESULT of a dump whose header could be written. -/
def DumpRun.result (r : DumpRun) : Nat := if r.fault.isSome then 2 else if r.trunc then 1 else 0

/-- The eight words of a dump's header. -/
def headerWords (cl : BitVec 6) (done : Bool) (r : DumpRun) (need at_ : Nat) : List Word :=
  (List.range 8).map (headerWord cl done r need at_)

/-- The dump engine writes the records as they stood at the freeze and clears BUSY (R391, R392) -/
def execDumpComplete (s : State) : Result :=
  match s.dump with
  | none => .next s
  | some j =>
    let w : Who := ⟨j.ptbr, j.lvl, coreOf j.hart⟩
    let need := j.records.foldl (fun n ws => n + 8 * ws.length) 64
    let finish (t : State) (result : Nat) : State :=
      { t with dump := none, dumpctl := setFld (setFld t.dumpctl 63 1 0) 61 2 result }
    let first : DumpRun := { state := s, bytes := 64, records := 0 }
    match s.dumpWords w j.base 0 (headerWords j.sel false first need j.frozeAt) with
    | .error (_, _, t) => .next (finish t 3)
    | .ok t =>
      let r := j.records.foldl (DumpRun.record w j.base j.size) { first with state := t }
      match r.state.dumpWords w j.base 0 (headerWords j.sel true r need j.frozeAt) with
      | .error (_, _, t) => .next (finish t r.result)
      | .ok t => .next (finish t r.result)

end Sys2Proof.Machine
end

