-- ==== Sys2Proof/Machine/Branch.lean ====
section
/-! DEFINITION. Branches and jumps (06 R94 to R97). -/

namespace Sys2Proof.Machine

/-- Sets the PC; a target that cannot be fetched raises its fault at the next step (R96). -/
def State.jump (s : State) (pc : Word) : State := { s with h := { s.h with pc } }

/-- A conditional branch (R94). -/
def State.branchIf (s : State) (c : Bool) (off : Word) (len : Nat) : Result :=
  .next (if c then s.jump (s.h.pc + off) else s.adv len)

/-- BEQ (R94) -/
def execBeq (a b : BitVec 5) (o : BitVec 13) (s : State) : Result := s.branchIf (s.getG a == s.getG b) (offOf o) 4
/-- BNE (R94) -/
def execBne (a b : BitVec 5) (o : BitVec 13) (s : State) : Result := s.branchIf (s.getG a != s.getG b) (offOf o) 4
/-- BLT (R94) -/
def execBlt (a b : BitVec 5) (o : BitVec 13) (s : State) : Result :=
  s.branchIf (decide ((s.getG a).toInt < (s.getG b).toInt)) (offOf o) 4
/-- BGE (R94) -/
def execBge (a b : BitVec 5) (o : BitVec 13) (s : State) : Result :=
  s.branchIf (decide ((s.getG b).toInt ≤ (s.getG a).toInt)) (offOf o) 4
/-- BLTN (R94) -/
def execBltn (a b : BitVec 5) (o : BitVec 13) (s : State) : Result :=
  s.branchIf (decide ((s.getG a).toNat < (s.getG b).toNat)) (offOf o) 4
/-- BGEN (R94) -/
def execBgen (a b : BitVec 5) (o : BitVec 13) (s : State) : Result :=
  s.branchIf (decide ((s.getG b).toNat ≤ (s.getG a).toNat)) (offOf o) 4

/-- JAL (R95) -/
def execJal (d : BitVec 5) (o : BitVec 18) (s : State) : Result :=
  .next ((s.setG d (s.h.pc + 4)).jump (s.h.pc + offOf o))

/-- An indirect jump (R95, R97): a misaligned target traps before any effect; while landing is enabled the target must be
LAND, except for a return through lk (g1) without a link. -/
def State.indirect (s : State) (d a : BitVec 5) (imm : Word) : Result :=
  let target := s.getG a + imm
  s.check [(target.getLsbD 0, 0x06, target)] fun s =>
    let branch := if s.h.abictl.getLsbD 0 && !(d == 0 && a == 1) then some s.h.pc else none
    let t := (s.setG d (s.h.pc + 4)).jump target
    .next { t with h := { t.h with branch } }

/-- JALR (R95) -/
def execJalr (d a : BitVec 5) (i : BitVec 13) (s : State) : Result := s.indirect d a (immOf i)

end Sys2Proof.Machine
end

