-- ==== Sys2Proof/Machine/Compact.lean ====
section
/-! DEFINITION. Compact instructions (03 R57, R58): the effects of their 32-bit counterparts, two bytes long. -/

namespace Sys2Proof.Machine

/-- The register that a 3-bit field r′ names: g(4 + n) (R57). -/
def shortReg (r : BitVec 3) : BitVec 5 := 4 + r.setWidth 5

/-- Writes a g register and moves past a compact instruction. -/
def State.compact (s : State) (d : BitVec 5) (x : Word) : Result := .next (s.setGAdv d x 2)

/-- C.ADDI (R57) -/
def execCAddi (d : BitVec 5) (i : BitVec 8) (s : State) : Result := s.compact d (s.getG d + immOf i)
/-- C.MV (R57) -/
def execCMv (d sc : BitVec 5) (s : State) : Result := s.compact d (s.getG sc)
/-- C.ADD (R57) -/
def execCAdd (d sc : BitVec 5) (s : State) : Result := s.compact d (s.getG d + s.getG sc)
/-- C.SUB (R57) -/
def execCSub (d sc : BitVec 5) (s : State) : Result := s.compact d (s.getG d - s.getG sc)
/-- C.AND (R57) -/
def execCAnd (d sc : BitVec 5) (s : State) : Result := s.compact d (s.getG d &&& s.getG sc)
/-- C.OR (R57) -/
def execCOr (d sc : BitVec 5) (s : State) : Result := s.compact d (s.getG d ||| s.getG sc)
/-- C.XOR (R57) -/
def execCXor (d sc : BitVec 5) (s : State) : Result := s.compact d (s.getG d ^^^ s.getG sc)
/-- C.SLL (R57) -/
def execCSll (d sc : BitVec 5) (s : State) : Result := s.compact d (sllW (s.getG d) (s.getG sc))
/-- C.SRA (R57) -/
def execCSra (d sc : BitVec 5) (s : State) : Result := s.compact d (sraW (s.getG d) (s.getG sc))
/-- The address of a compact load or store: r′b + imm6 * 8 (R57). -/
def State.shortAddr (s : State) (b : BitVec 3) (i : BitVec 6) : Word := s.getG (shortReg b) + BitVec.ofNat 64 (8 * i.toNat)

/-- C.LD (R57, R98) -/
def execCLd (d b : BitVec 3) (i : BitVec 6) (s : State) : Result := s.loadG (shortReg d) 6 (s.shortAddr b i) 2
/-- C.ST (R57, R98) -/
def execCSt (sc b : BitVec 3) (i : BitVec 6) (s : State) : Result := s.storeG (s.getG (shortReg sc)) 6 (s.shortAddr b i) 2
/-- C.J (R57, R94) -/
def execCJ (o : BitVec 11) (s : State) : Result := .next (s.jump (s.h.pc + offOf o))
/-- C.BEQZ (R57, R94) -/
def execCBeqz (sc : BitVec 3) (o : BitVec 8) (s : State) : Result := s.branchIf (s.getG (shortReg sc) == 0) (offOf o) 2
/-- C.BNEZ (R57, R94) -/
def execCBnez (sc : BitVec 3) (o : BitVec 8) (s : State) : Result := s.branchIf (s.getG (shortReg sc) != 0) (offOf o) 2
/-- C.JR (R57, R95, R97) -/
def execCJr (sc : BitVec 5) (s : State) : Result := s.indirect 0 sc 0

/-- The register that LVD named when the compact form at the PC issued (R58, R59). -/
def Hart.lastDest (h : Hart) : BitVec 5 := h.lvdAtIssue.setWidth 5

/-- C.VADD (R58) -/
def execCVadd (d sc : BitVec 5) (s : State) : Result := s.vv ewAll d s.h.lastDest sc 0 0 0 (pureOp eAdd) 2
/-- C.VADD.X (R58) -/
def execCVaddX (d sc : BitVec 5) (s : State) : Result := s.vx ewAll d s.h.lastDest sc 0 0 (pureOp eAdd) 2
/-- C.VSUB (R58) -/
def execCVsub (d sc : BitVec 5) (s : State) : Result := s.vv ewAll d s.h.lastDest sc 0 0 0 (pureOp eSub) 2
/-- C.VSUB.X (R58) -/
def execCVsubX (d sc : BitVec 5) (s : State) : Result := s.vx ewAll d s.h.lastDest sc 0 0 (pureOp eSub) 2
/-- C.VMUL (R58) -/
def execCVmul (d sc : BitVec 5) (s : State) : Result := s.vv ewAll d s.h.lastDest sc 0 0 0 (pureOp eMul) 2
/-- C.VMUL.X (R58) -/
def execCVmulX (d sc : BitVec 5) (s : State) : Result := s.vx ewAll d s.h.lastDest sc 0 0 (pureOp eMul) 2
/-- C.VFADD (R58) -/
def execCVfadd (d sc : BitVec 5) (s : State) : Result := s.vv ewFloat d s.h.lastDest sc 0 0 0 eFadd 2
/-- C.VFADD.X (R58) -/
def execCVfaddX (d sc : BitVec 5) (s : State) : Result := s.vx ewFloat d s.h.lastDest sc 0 0 eFadd 2
/-- C.VFMUL (R58) -/
def execCVfmul (d sc : BitVec 5) (s : State) : Result := s.vv ewFloat d s.h.lastDest sc 0 0 0 eFmul 2
/-- C.VFMUL.X (R58) -/
def execCVfmulX (d sc : BitVec 5) (s : State) : Result := s.vx ewFloat d s.h.lastDest sc 0 0 eFmul 2
/-- C.VFFMA (R58) -/
def execCVffma (d sc : BitVec 5) (s : State) : Result := s.vfma d s.h.lastDest sc 0 0 0 false false 2
/-- C.VFFMA.X (R58) -/
def execCVffmaX (d sc : BitVec 5) (s : State) : Result := s.vfmaX d s.h.lastDest sc 0 0 false false 2
/-- C.VMAX (R58) -/
def execCVmax (d sc : BitVec 5) (s : State) : Result := s.vv ewAll d s.h.lastDest sc 0 0 0 (pureOp eMax) 2
/-- C.VMAX.X (R58) -/
def execCVmaxX (d sc : BitVec 5) (s : State) : Result := s.vx ewAll d s.h.lastDest sc 0 0 (pureOp eMax) 2
/-- C.VFMAX (R58) -/
def execCVfmax (d sc : BitVec 5) (s : State) : Result := s.vv ewFloat d s.h.lastDest sc 0 0 0 eFmax 2
/-- C.VFMAX.X (R58) -/
def execCVfmaxX (d sc : BitVec 5) (s : State) : Result := s.vx ewFloat d s.h.lastDest sc 0 0 eFmax 2

end Sys2Proof.Machine
end

