-- ==== Sys2Proof/Machine/Fleet.lean ====
section
/-! DEFINITION. The straits, the narrows, the host link and the traffic counters (19 R347, R351 to R353, 16 R302, R309, 17 R314,
R320, R326, 22 R382, R384, 02 R40, R47). -/

namespace Sys2Proof.Machine

/-! ### Messages from other packages (R302, R314, R320, R326, R352) -/

/-- On whose behalf an access from another package is made: the member's address space in the atoll of island `i`, with user
rights (R352). -/
def State.memberWho (s : State) (i : BitVec 3) : Who :=
  remoteWho (BitVec.ofNat 3 (s.atollFirst i)) ((((s.fleetGroup i).find? (fun m => m.pkg == s.tabos.pkg)).map (·.asid)).getD 0)

/-- A package arrival reaches the lowest package of the group and is counted (R314) -/
def execStraitBarArrival (m : StraitBar) (s : State) : Result := .next (s.fleetCount m)

/-- Whether a message is of a fleet barrier. -/
def StraitMsg.ofBar : StraitMsg → Bool
  | .barArrival .. | .barDeparture .. => true
  | .push .. | .copyWrite .. => false

/-- Whether a message is the package arrival of the fleet barrier of a word in the group given. -/
def StraitMsg.arrivalAt (g : List FleetMember) (va : Word) : StraitMsg → Bool
  | .barArrival p m => m.va == va && g.any fun x => x.pkg == p && x.atoll == m.isl
  | _ => false

/-- A departure reaches this package, and its local waiters depart (R298, R314): the package arrival that it answers has been taken. The
producer is the barrier unit of the package that completed the barrier (Table 16-4, kind 7). -/
def execStraitBarDeparture (m : StraitBar) (s : State) : Result :=
  let x : Word := BitVec.ofNat 64 (m.pkg.toNat * 2 ^ 12 + m.hart.toNat)
  let s := { s with outbox := s.outbox.eraseP (StraitMsg.arrivalAt (s.fleetGroup m.isl) m.va) }
  .next (s.fleetDepart m.isl m.va x 7 m.by_.pkg.toNat m.by_.edge).2

/-- The producer ID of a strait peer: port and sending package (Table 16-4). -/
def peerOf (x : Sender) : Nat := x.port.toNat * 2 ^ 12 + x.pkg.toNat

/-- A strait queue push is performed here and answered (R320, R352) -/
def execStraitQueuePush (m : StraitPush) (s : State) : Result :=
  let r := s.remotePush (s.memberWho m.isl) m.va m.data m.by_.edge 3 (peerOf m.by_)
  let t := { r.2.2 with replies := r.2.2.replies ++ [.pushed r.1] }
  match r.2.1 with
  | none => .next t
  | some key => t.servePopper key

/-- A write of a remote copy is translated and performed here; words of a signal page take the peer's tag (R300, R302, R352) -/
def execStraitCopyWrite (m : StraitWrite) (s : State) : Result :=
  let w := s.memberWho m.isl
  let n := m.data.length
  let x := packElems 8 (m.data.map (·.toNat))
  let tag := mkTag 3 (peerOf m.by_) m.by_.edge
  let r : Except Flt State := if !remoteAddr m.va then .error ⟨0x0A, m.va⟩ else s.writeSpan w tag m.va n n x
  match r with
  | .error f => .next { s with replies := s.replies ++ [.wrote (some f.eaddr)] }
  | .ok t => .next { t with replies := t.replies ++ [.wrote none] }

/-- A request of another package for an arrival record is answered from the ring of the island the edge names (R307, R326): the record
of just that edge, and when there is none the one that an ID of a tag stands for (R301). -/
def execStraitRecordFetch (_pkg : BitVec 12) (id : BitVec 64) (s : State) : Result :=
  let x := match s.findRecord false id with | some x => some x | none => s.findRecord true id
  .next { s with replies := s.replies ++ [.arrivalRecord (x.map (BitVec.ofNat 256))] }

/-! ### Links (R351, R353, R382) -/

/-- A flit is replayed: only time changes (R351) -/
def execStraitFlitReplay (_port : BitVec 5) (s : State) : Result := .next s

/-- A flit is replayed (R382): the error is counted on the link's island; whether the replay fails too is free (log 7) -/
def execNarrowsFlitReplay (link : BitVec 3) (s : State) : Result :=
  let n := if s.takeFree.1.getLsbD 0 then s.narrowsTries[link.toNat]'link.isLt + 1 else 0
  let s := { s.takeFree.2 with narrowsTries := s.narrowsTries.set link.toNat n link.isLt }
  .next (s.setIsland link { s.island link with corrected := (s.island link).corrected + 1 })

/-- A machine check reaches a hart that waits or has an access in flight; a frozen cluster holds it (R386), and so do tile instructions
whose units still have to run. -/
def State.checkHart (s : State) (id : HartId) (summary : Word) (lose : State → State) : State :=
  if s.gated id || (s.hart id).deferring then s.putHart { s.hart id with mcheck := some summary }
  else s.onHart id fun s => (lose s).unwatch.interrupt.takeTrap { cause := 0x13, eaddr := summary }

/-- Whether a hart waits in a fleet BAR of the atoll whose first island is in the set `x`, and gd. -/
def State.inFleetBar (s : State) (x : Word) (h : Hart) : Option (BitVec 5) :=
  match h.slot with
  | .wait (.bar d _ sc _ _ _ _) _ => if sc = 5 ∧ x.getLsbD (s.atollFirst (islandOf (coreOf h.id))) then some d else none
  | _ => none

/-- Every hart that waits in a fleet BAR of an affected group takes a machine check (R353). -/
def State.loseBars (s : State) (x : Word) : State :=
  s.harts.foldl (fun (s : State) h =>
    match s.inFleetBar x h with
    | none => s
    | some d =>
      let r := s.linkSummary 11
      r.2.checkHart h.id r.1 fun s => s.loseG d 0x13) s

/-- Whether a message went out by a port. -/
def StraitMsg.by_ (port : BitVec 5) : StraitMsg → Bool
  | .barArrival _ m => m.by_.port == port
  | .barDeparture _ m => m.by_.port == port
  | .push _ _ m => m.by_.port == port
  | .copyWrite _ m => m.by_.port == port

/-- A waiting strait QPUSH whose message was lost returns 2 (R353). -/
def State.losePushes (s : State) (port : BitVec 5) : State :=
  s.harts.foldl (fun (s : State) h =>
    match h.slot, (s.outbox.filter (StraitMsg.pushOf h.id)).getLast? with
    | .wait (.qpush d) _, some m => if m.by_ port then s.onHart h.id fun s => s.comeBack d 2 else s
    | _, _ => s) s

/-- A copy that has lost a message ends with ERR 7 (R353): the transfer at the head of its channel, whose messages are on the way. -/
def State.loseCopy (s : State) : StraitMsg → State
  | .copyWrite _ m =>
    let core := BitVec.ofNat 10 (m.by_.id.toNat / 8)
    let ch := BitVec.ofNat 3 m.by_.id.toNat
    match (s.chan core ch).queue with
    | [] => s
    | t :: ts => s.setChan core ch { s.chan core ch with queue := { t with outcome := some (7, 0) } :: ts }
  | _ => s

/-- Whether a message of a fleet barrier to a member of a fleet group went out by a port. -/
def StraitMsg.barTo (port : BitVec 5) (g : FleetMember) : StraitMsg → Bool
  | .barArrival p m => m.by_.port == port && p == g.pkg && m.isl == g.atoll
  | .barDeparture p m => m.by_.port == port && p == g.pkg && m.isl == g.atoll
  | _ => false

/-- The atolls, by first island, whose fleet group a port's loss affects: it has a member to which messages leave by the port, or to
which a message of a barrier is on its way there by an earlier route (R353). -/
def State.groupsBy (s : State) (port : BitVec 5) : Word :=
  BitVec.ofNat 64 (packElems 1 ((List.range 8).map fun i =>
    (((s.tabos.groups[i]?).getD []).any fun m =>
      (m.pkg != s.tabos.pkg && s.portTo m.pkg == some port) || s.outbox.any (StraitMsg.barTo port m)).toNat))

/-- A port is declared lost (R351, R353): new messages take another route, its messages in flight are not replayed, and the fleet
groups that used it are affected. -/
def execStraitPortLost (port : BitVec 5) (s : State) : Result :=
  if 18 ≤ port.toNat || s.portsLost.contains port then .next s
  else
    let x := s.groupsBy port
    let s := { s with portsLost := s.portsLost ++ [port] }.logTabos (.portLost port)
    let s := ((s.outbox.filter (StraitMsg.by_ port)).foldl State.loseCopy s).losePushes port
    let s := s.loseBars x
    .next { s with outbox := s.outbox.filter fun m => !m.by_ port }

/-- Whether a hart has a memory access in flight: a queue entry at memory or a register that memory fills. -/
def Hart.inFlight (h : Hart) : Bool :=
  h.vq.any (fun q => q.pipe == .memory) || (List.range 32).any fun r => !h.isFull r

/-- The registers that are empty lose what was on its way (R385). -/
def State.loseEmpty (s : State) : State :=
  (List.range 32).foldl (fun (s : State) r => if s.h.isFull r then s else
    let t := s.loseV r 1
    { t with h := t.h.mark r .full 1 }) s

/-- A narrows link fails after 16 failed replays of one flit (R382, Table 22-1): requesters with an access in flight take a machine
check. Which of them had it on this link is free (log 7). -/
def execNarrowsLinkFailed (link : BitVec 3) (s : State) : Result :=
  if s.narrowsFailed.contains link || decide (s.narrowsTries[link.toNat]'link.isLt < 16) then .next s
  else
    let s := { s with narrowsFailed := s.narrowsFailed ++ [link] }
    .next (s.harts.foldl (fun (s : State) h =>
      if h.inFlight && s.takeFree.1.getLsbD 0 then
        let r := s.takeFree.2.linkSummary 10
        r.2.checkHart h.id r.1 State.loseEmpty
      else s.takeFree.2) s)

/-- Each HBM stack is patrol-scrubbed: correctable errors are corrected and counted; how many there were is free (R382, log 7) -/
def execHbmPatrolScrub (stack : BitVec 3) (s : State) : Result :=
  let n := s.takeFree.1.toNat
  let s := s.takeFree.2
  .next (s.setIsland stack { s.island stack with corrected := (s.island stack).corrected + n })

/-- An island writes its counter block (R309) -/
def execTrafficCounterWrite (isl : BitVec 3) (s : State) : Result := .next (s.writeTraffic isl)

/-! ### The host (R40, R47, R347) -/

/-- The first island of the atoll that an LD presents (R342, R346): the lowest island that is the first of its atoll and names
the LD. -/
def State.ldFirst (s : State) (ld : BitVec 3) : Option (BitVec 3) :=
  ([0, 1, 2, 3, 4, 5, 6, 7] : List (BitVec 3)).find? fun i =>
    decide (s.atollFirst i = i.toNat) && decide (fld (s.island i).atoll 5 3 = ld.toNat)

/-- The physical address of HDM offset `o` of an LD, when `n` bytes from there lie in its range (R347). -/
def State.hdmKey (s : State) (ld : BitVec 3) (o : Word) (n : Nat) : Option Nat :=
  (s.ldFirst ld).bind fun i =>
    if o.toNat + n ≤ s.atollSize i * 0xC00000000 then some (i.toNat * 0xC00000000 + o.toNat) else none

/-- A host read of an LD's HDM returns the bytes (R347) -/
def execHostHdmRead (ld : BitVec 3) (o : BitVec 64) (n : Nat) (s : State) : Result :=
  match s.hdmKey ld o n with
  | none => .next s
  | some key => .next { s with replies := s.replies ++ [.hdm ((List.range n).map fun i => Memory.byte s.mem (key + i))] }

/-- A host write of an LD's HDM performs at package scope (R347) -/
def execHostHdmWrite (ld : BitVec 3) (o : BitVec 64) (data : List (BitVec 8)) (s : State) : Result :=
  match s.hdmKey ld o data.length with
  | none => .next s
  | some key => .next (s.poke key data.length (packElems 8 (data.map (·.toNat))))

/-- A snoop takes a host line from an island's host-line cache, with what the host writes there, if it writes (R40, R47) -/
def execHostLineCacheSnoop (isl : BitVec 3) (line : BitVec 42) (data : Option (BitVec 512)) (s : State) : Result :=
  let i := s.island isl
  let s := s.setIsland isl { i with lines := i.lines.filter fun l => l != line.toNat }
  match data with
  | none => .next s
  | some x => .next (if 0x800000000000 ≤ 64 * line.toNat then s.poke (64 * line.toNat) 64 x.toNat else s)

end Sys2Proof.Machine
end

