-- ==== Sys2Proof/Machine/ScalarFp.lean ====
section
/-! DEFINITION. Scalar floating point (06 R91 to R93): binary32 in bits [31:0], FST only, never a trap. -/

namespace Sys2Proof.Machine

/-- The low 32 bits of a g register. -/
def State.getF (s : State) (a : BitVec 5) : Nat := (s.getG a).toNat % 2 ^ 32

/-- Writes a result and its flags and moves on. -/
def State.fpDone (s : State) (d : BitVec 5) (r : Nat × Flags) : Result :=
  .next ((s.orFst r.2).setGAdv d (BitVec.ofNat 64 r.1) 4)

/-- The scalar binary32 value of a register. -/
def State.getFV (s : State) (a : BitVec 5) : FVal := Fmt.f32.unpack (s.getF a)

/-- FADD (R91) -/
def execFadd (d a b : BitVec 5) (s : State) : Result :=
  s.fpDone d (Fmt.f32.addV (frmOf s.h.rmode) (s.getFV a) (s.getFV b))
/-- FSUB (R91): the addends are x and -y (R153) -/
def execFsub (d a b : BitVec 5) (s : State) : Result :=
  s.fpDone d (Fmt.f32.addV (frmOf s.h.rmode) (s.getFV a) (s.getFV b).negate)
/-- FMUL (R91) -/
def execFmul (d a b : BitVec 5) (s : State) : Result :=
  s.fpDone d (Fmt.f32.mulV (frmOf s.h.rmode) (s.getFV a) (s.getFV b))
/-- FDIV (R91) -/
def execFdiv (d a b : BitVec 5) (s : State) : Result :=
  s.fpDone d (Fmt.f32.divV (frmOf s.h.rmode) (s.getFV a) (s.getFV b))
/-- FSQRT (R91) -/
def execFsqrt (d a : BitVec 5) (s : State) : Result := s.fpDone d (Fmt.f32.sqrtV (frmOf s.h.rmode) (s.getFV a))
/-- FMIN (R91) -/
def execFmin (d a b : BitVec 5) (s : State) : Result := s.fpDone d (Fmt.f32.minmax false (s.getF a) (s.getF b))
/-- FMAX (R91) -/
def execFmax (d a b : BitVec 5) (s : State) : Result := s.fpDone d (Fmt.f32.minmax true (s.getF a) (s.getF b))

/-- A scalar comparison: quiet ones raise NV for a signalling NaN only, others for any NaN, and a NaN gives 0 (R91). -/
def fcmp (quiet : Bool) (rel : FVal → FVal → Bool) (x y : FVal) : Nat × Flags :=
  if x.isNaN || y.isNaN then (0, if x.isS || y.isS || !quiet then fNV else 0) else ((rel x y).toNat, 0)

/-- FEQ (R91) -/
def execFeq (d a b : BitVec 5) (s : State) : Result := s.fpDone d (fcmp true FVal.eq (s.getFV a) (s.getFV b))
/-- FLT (R91) -/
def execFlt (d a b : BitVec 5) (s : State) : Result := s.fpDone d (fcmp false FVal.lt (s.getFV a) (s.getFV b))
/-- FLE (R91) -/
def execFle (d a b : BitVec 5) (s : State) : Result :=
  s.fpDone d (fcmp false (fun x y => !y.lt x) (s.getFV a) (s.getFV b))

/-- FCVT.F.S (R91, R92): the signed 64-bit integer under FRM -/
def execFcvtFS (d a : BitVec 5) (s : State) : Result :=
  s.fpDone d (Fmt.f32.ofInt (frmOf s.h.rmode) (s.getG a).toInt)
/-- FCVT.S.F (R91, R92): to a signed 64-bit integer under XRM -/
def execFcvtSF (d a : BitVec 5) (s : State) : Result :=
  let r := (s.getFV a).toInt (xrmOf s.h.rmode) (-2 ^ 63) (2 ^ 63 - 1)
  s.fpDone d (ofSigned 64 r.1, r.2)
/-- FCVT.F.H for binary16 (R91): exact -/
def execFcvtFH (d a : BitVec 5) (s : State) : Result :=
  s.fpDone d (Fmt.f16.convert .f32 .rne ((s.getG a).toNat % 2 ^ 16))
/-- FCVT.F.H for bfloat16 (R91): exact -/
def execFcvtFBf (d a : BitVec 5) (s : State) : Result :=
  s.fpDone d (Fmt.bf16.convert .f32 .rne ((s.getG a).toNat % 2 ^ 16))
/-- FCVT.H.F for binary16 (R91) -/
def execFcvtHF (d a : BitVec 5) (s : State) : Result :=
  s.fpDone d (Fmt.f32.convert .f16 (frmOf s.h.rmode) (s.getF a))
/-- FCVT.H.F for bfloat16 (R91) -/
def execFcvtBfF (d a : BitVec 5) (s : State) : Result :=
  s.fpDone d (Fmt.f32.convert .bf16 (frmOf s.h.rmode) (s.getF a))
/-- FCLASS (R91, Table 6-6): the class of the operand; a signalling NaN raises NV as in every other member -/
def execFclass (d a : BitVec 5) (s : State) : Result :=
  s.fpDone d (Fmt.f32.classify (s.getF a), if (s.getFV a).isS then fNV else 0)

/-- A fused operation (R93): the product's sign and the addend's sign are changed as the member says. -/
def State.fused (s : State) (d a b c : BitVec 5) (negP negA : Bool) : Result :=
  let x := s.getFV a
  let z := s.getFV c
  s.fpDone d (Fmt.f32.fmaV (frmOf s.h.rmode) (if negP then x.negate else x) (s.getFV b) (if negA then z.negate else z))

/-- FFMA (R93) -/
def execFfma (d a b c : BitVec 5) (s : State) : Result := s.fused d a b c false false
/-- FFMS (R93) -/
def execFfms (d a b c : BitVec 5) (s : State) : Result := s.fused d a b c false true
/-- FNMA (R93) -/
def execFnma (d a b c : BitVec 5) (s : State) : Result := s.fused d a b c true false
/-- FNMS (R93) -/
def execFnms (d a b c : BitVec 5) (s : State) : Result := s.fused d a b c true true

end Sys2Proof.Machine
end

