-- ==== Sys2Proof/Machine/Tabos.lean ====
section
/-! DEFINITION. Tabos: the mailbox, firmware, sensors, the thermal trip, reset and bring-up (19 R348, R349, R352, R354 to R357,
02 R41). What the spec leaves open of the formats is in log 41. -/

namespace Sys2Proof.Machine

/-! ### The mailbox (R354, Table 19-4) -/

/-- Gives a reply. -/
def State.reply (s : State) (r : Reply) : State := { s with replies := s.replies ++ [r] }

/-- The first island of the atoll that a command is for: a mailbox serves the LD's own atoll, and out of band (`oob`) Tabos is asked
for any atoll by its first island (R354). -/
def State.commandFor (s : State) (oob : Bool) (n : BitVec 3) : Option (BitVec 3) :=
  if oob then (if s.atollFirst n = n.toNat then some n else none) else s.ldFirst n

/-- Answers a command; one for no atoll is answered Invalid Input (DESIGN CHOICE, log 70). -/
def State.command (s : State) (oob : Bool) (n : BitVec 3) (k : BitVec 3 → State) : Result :=
  match s.commandFor oob n with
  | none => .next (s.reply .invalidInput)
  | some i => .next (k i)

/-- Whether a record concerns what the LD of island `i` may see: another atoll's harts and requests are not (R354). -/
def State.seen (s : State) (i : BitVec 3) : TabosRec → Bool
  | .machineCheck _ hart _ _ _ => s.inAtoll i (islandOf (coreOf hart)).toNat
  | .request isl _ _ => s.inAtoll i isl.toNat
  | _ => true

/-- The error counters of the islands of an atoll, or of every island out of band, which Tabos reports with the event records (R382,
log 49). -/
def State.errorCounts (s : State) (oob : Bool) (i : BitVec 3) : List Nat :=
  (([0, 1, 2, 3, 4, 5, 6, 7] : List (BitVec 3)).filter fun n => oob || s.inAtoll i n.toNat).map fun n => (s.island n).corrected

/-- Get Event Records -/
def State.getEventRecords (s : State) (oob : Bool) (n : BitVec 3) : Result :=
  s.command oob n fun i => s.reply (.records (s.tabos.records.filter fun r => oob || s.seen i r) (s.errorCounts oob i))

/-- Get Event Records -/
def execGetEventRecords (ld : BitVec 3) (s : State) : Result := s.getEventRecords false ld

/-- Get FW Info -/
def State.getFwInfo (s : State) (oob : Bool) (n : BitVec 3) : Result :=
  s.command oob n fun _ => s.reply (.fwInfo s.tabos.active ((s.tabos.slots[0]).map (·.version)) ((s.tabos.slots[1]).map (·.version)))

/-- Get FW Info -/
def execGetFwInfo (ld : BitVec 3) (s : State) : Result := s.getFwInfo false ld

/-- The rollback counter: what was fused at manufacture and what boots have raised it to (R355). -/
def State.rollbackNow (s : State) : Nat := max Config.rollback0 s.tabos.rollback

/-- Whether Tabos accepts an image (R355). -/
def State.imageOk (s : State) (x : FwImage) : Bool := Config.ed448Verify x.body x.signature && decide (s.rollbackNow ≤ x.version)

/-- Transfer FW (R355): an accepted image goes into the inactive slot, and the action is logged (R354) -/
def State.transferFw (s : State) (oob : Bool) (n : BitVec 3) (image : FwImage) : Result :=
  s.command oob n fun _ =>
    if s.imageOk image then
      let slot := ~~~s.tabos.active
      ({ s with tabos := { s.tabos with slots := s.tabos.slots.set slot.toNat (some image) slot.isLt } }.logTabos
        (.fwTransferred slot image.version)).reply .ok
    else s.reply .invalidInput

/-- Transfer FW -/
def execTransferFw (ld : BitVec 3) (image : FwImage) (s : State) : Result := s.transferFw false ld image

/-- Activate FW (R355): it takes effect at the next reset, and the action is logged (R354) -/
def State.activateFw (s : State) (oob : Bool) (n : BitVec 3) (slot : BitVec 1) : Result :=
  s.command oob n fun _ => ({ s with tabos := { s.tabos with next := slot } }.logTabos (.fwActivated slot)).reply .ok

/-- Activate FW -/
def execActivateFw (ld : BitVec 3) (slot : BitVec 1) (s : State) : Result := s.activateFw false ld slot

/-- Identify Memory Device: the HDM of the atoll -/
def State.identifyMemory (s : State) (oob : Bool) (n : BitVec 3) : Result :=
  s.command oob n fun i => s.reply (.identity (s.atollSize i * 0xC00000000))

/-- Identify Memory Device -/
def execIdentifyMemoryDevice (ld : BitVec 3) (s : State) : Result := s.identifyMemory false ld

/-- Whether the dispatcher of the atoll whose first island is `i` has requests it has not taken (R354). -/
def State.queueBusy (s : State) (i : BitVec 3) : Bool :=
  match (s.tabos.queues[i.toNat]?).bind (fun x => x) with
  | none => false
  | some q =>
    match s.loadAs ⟨Config.dispatcherPtbr i, .supervisor, i ++ (0 : BitVec 7)⟩ true q.header 8 with
    | .error _ => false
    | .ok (tail, _) => BitVec.ofNat 64 tail != q.taken

/-- Set launch queue (R348): the header is checked once, and an accepted one gives BASE and LOG2N -/
def State.setLaunchQueue (s : State) (oob : Bool) (n : BitVec 3) (hdr : BitVec 64) : Result :=
  s.command oob n fun i =>
    if s.queueBusy i then s.reply .busy
    else match s.loadWords ⟨Config.dispatcherPtbr i, .supervisor, i ++ (0 : BitVec 7)⟩ hdr 4 with
      | .error _ => s.reply .invalidInput
      | .ok (ws, t) =>
        let w (n : Nat) : Word := (ws[n]?).getD 0
        let n := fld (w 3) 0 4
        if decide (hdr.toNat % 64 ≠ 0) || decide (n < 1 ∨ 12 < n) || decide ((w 2).toNat % 32 ≠ 0) || decide (fld (w 3) 4 60 ≠ 0) then
          s.reply .invalidInput
        else
          let q : LaunchQueue := ⟨hdr, w 2, n, w 1, if w 0 = w 1 then some t.clk else none⟩
          { t with tabos := { t.tabos with queues := t.tabos.queues.set i.toNat (some q) i.isLt } }.reply .ok

/-- Set launch queue -/
def execSetLaunchQueue (ld : BitVec 3) (hdr : BitVec 64) (s : State) : Result := s.setLaunchQueue false ld hdr

/-- The readings that the LD of island `i` may see: 16 a island, one a stack, then the rails and the package power. -/
def State.readingsFor (s : State) (i : BitVec 3) : List (BitVec 64) :=
  let mine (n : Nat) : Bool := if n < 128 then s.inAtoll i (n / 16) else if n < 136 then s.inAtoll i (n - 128) else true
  ((s.tabos.sensors.mapIdx fun n x => if mine n then some x else none)).filterMap fun x => x

/-- The readings are refreshed: what they are is free (log 7). -/
def State.refreshed (s : State) : State :=
  let n := 137 + Config.rails
  { s with tabos := { s.tabos with sensors := (List.range n).map fun i => Config.free (s.fresh + i) }, fresh := s.fresh + n }

/-- Read sensors; the readings are there from the first command on (R354). -/
def State.sendSensors (s : State) (oob : Bool) (n : BitVec 3) : Result :=
  s.command oob n fun i =>
    let s := if s.tabos.sensors = [] then s.refreshed else s
    s.reply (.sensors (if oob then s.tabos.sensors else s.readingsFor i))

/-- Read sensors -/
def execReadSensors (ld : BitVec 3) (s : State) : Result := s.sendSensors false ld

/-- Read log: entries in the order logged, since the spec gives them no format (log 41) -/
def State.sendLog (s : State) (oob : Bool) (n : BitVec 3) (off len : Nat) : Result :=
  s.command oob n fun i => s.reply (.log (((s.tabos.log.filter fun r => oob || s.seen i r).drop off).take len))

/-- Read log -/
def execReadLog (ld : BitVec 3) (off len : Nat) (s : State) : Result := s.sendLog false ld off len

/-- Set fleet group (R352) -/
def State.setFleetGroup (s : State) (oob : Bool) (n : BitVec 3) (members : List FleetMember) : Result :=
  s.command oob n fun i =>
    { s with tabos := { s.tabos with groups := s.tabos.groups.set i.toNat members i.isLt } }.reply .ok

/-- Set fleet group -/
def execSetFleetGroup (ld : BitVec 3) (members : List FleetMember) (s : State) : Result := s.setFleetGroup false ld members

/-! ### Attestation (R356) -/

/-- The `n` bytes of a number, lowest first. -/
def bytesOf (x : Nat) (n : Nat) : List (BitVec 8) := (List.range n).map fun i => BitVec.ofNat 8 (x >>> (8 * i))

/-- The bytes of the image in a slot; the spec does not give those of the image of manufacture (log 41). -/
def slotBytes (x : Option FwImage) : List (BitVec 8) := match x with | none => [] | some f => f.body

/-- Get attestation report (R356): the measurement of the loaded configuration is free, since the spec does not say what it is made
from (log 41) -/
def State.attest (s : State) (oob : Bool) (n : BitVec 3) (nonce : BitVec 512) : Result :=
  s.command oob n fun i =>
    let islands : BitVec 8 := BitVec.ofNat 8 ((2 ^ s.atollSize i - 1) * 2 ^ s.atollFirst i)
    let a := Config.shake256 (slotBytes s.tabos.slots[0])
    let b := Config.shake256 (slotBytes s.tabos.slots[1])
    let c : BitVec 512 := (Config.freeImage s.fresh).setWidth 512
    let body := bytesOf nonce.toNat 64 ++ bytesOf s.tabos.pkg.toNat 2 ++ bytesOf islands.toNat 1 ++ bytesOf a.toNat 64 ++
      bytesOf b.toNat 64 ++ bytesOf c.toNat 64 ++ bytesOf Config.identityKey.toNat 57
    { s with fresh := s.fresh + 1 }.reply (.attestation nonce s.tabos.pkg islands a b c Config.identityKey (Config.ed448Sign body))

/-- Get attestation report -/
def execGetAttestationReport (ld : BitVec 3) (nonce : BitVec 512) (s : State) : Result := s.attest false ld nonce

/-- A command that Tabos takes out of band, over MCTP, for the atoll of first island `isl` (R354): the commands of Table 19-4, with
every atoll's records, readings and log in view. What is no command does nothing. -/
def State.outOfBand (s : State) (isl : BitVec 3) : Instr → Result
  | .getEventRecords _ => s.getEventRecords true isl
  | .getFwInfo _ => s.getFwInfo true isl
  | .transferFw _ image => s.transferFw true isl image
  | .activateFw _ slot => s.activateFw true isl slot
  | .identifyMemoryDevice _ => s.identifyMemory true isl
  | .setLaunchQueue _ hdr => s.setLaunchQueue true isl hdr
  | .readSensors _ => s.sendSensors true isl
  | .readLog _ off len => s.sendLog true isl off len
  | .getAttestationReport _ nonce => s.attest true isl nonce
  | .setFleetGroup _ members => s.setFleetGroup true isl members
  | _ => .next s

/-! ### Sensors, the thermal trip and reset (R354, R357, R41) -/

/-- The readings are refreshed: what they are is free (log 7) -/
def execSensorRefresh (s : State) : Result := .next s.refreshed

/-- A thermal trip stops every island clock, its cause is logged, which of the two it was being free (log 7), and the device reports
that it has failed (R357) -/
def execThermalTrip (s : State) : Result :=
  let cause : TripCause := if s.takeFree.1.getLsbD 0 then .junction else .power
  let s := s.takeFree.2.logTabos (.thermalTrip cause s.clk)
  .next { s with stopped := true, tabos := { s.tabos with failed := true, ready := false } }

/-- Package reset (R41, R355, R357): the part is as at reset; what is not on it or is kept without power stays: host memory, the
firmware slots with the image to boot, the rollback counter, Tabos's log and records, the package number and the routing table. -/
def execPackageReset (s : State) : Result :=
  let r := State.reset
  let t := s.tabos
  .next { r with
    mem := s.mem.filter fun c => decide (0x800000000000 ≤ c.1) && decide (c.1 < 2 ^ 48)
    badMem := s.badMem.filter fun w => decide (0x800000000000 ≤ w * 8) && decide (w * 8 < 2 ^ 48)
    tabos := { r.tabos with
      slots := t.slots, active := t.next, next := t.next, rollback := t.rollback, log := t.log, records := t.records, pkg := t.pkg, routes := t.routes }
    replies := s.replies
    outbox := s.outbox
    agenda := s.agenda
    ticks := s.ticks
    fresh := s.fresh }

/-! ### Bring-up (R355, R357) -/

/-- Whether the image in a slot boots: it verifies, and its boot completes. The image of manufacture (none was transferred) does
(log 41). -/
def State.slotBoots (s : State) (slot : BitVec 1) : Bool :=
  match s.tabos.slots[slot.toNat]'slot.isLt with
  | none => true
  | some x => s.imageOk x && Config.bootCompletes x.body s.fresh

/-- The security version of the image in a slot. -/
def State.slotVersion (s : State) (slot : BitVec 1) : Nat :=
  match s.tabos.slots[slot.toNat]'slot.isLt with
  | none => s.tabos.rollback
  | some x => x.version

/-- The dispatcher of the atoll whose first island is `i`, in slot H0 of its first core at supervisor level (19 How work arrives).
Where it starts and under which registers, the spec does not say (log 8). -/
def State.dispatcher (s : State) (i : BitVec 3) : Hart :=
  let id : HartId := i ++ (0 : BitVec 9)
  let grant := s.laneGrant (coreOf id)
  let g := ((Vector.replicate 32 (0 : Word)).set 2 (tcmQuarter 1)).set 3 (tcmQuarter 0)
  { Hart.reset id with
    slot := .run
    pc := evenPc (Config.dispatcherPc i)
    lvl := .supervisor
    g := g
    grant := BitVec.ofNat 64 grant
    span := spanOf grant 2
    tvec := Config.dispatcherTvec i
    fvec := Config.dispatcherFvec i
    ptbr := Config.dispatcherPtbr i }

/-- The dispatchers are placed, one an atoll. -/
def State.placeDispatchers (s : State) : State :=
  (([0, 1, 2, 3, 4, 5, 6, 7] : List (BitVec 3)).filter fun i => decide (s.atollFirst i = i.toNat)).foldl
    (fun (s : State) i => s.putHart (s.dispatcher i)) s

/-- Bring-up configures the atolls: each island takes the ATOLL and the HLCACHE that firmware gives it, when they are values that the
registers can hold (R47, R342, R357, log 8). -/
def State.configureAtolls (s : State) : State :=
  { s with islands := Vector.ofFn fun n : Fin 8 =>
      let i := s.islands[n.val]
      let x := Config.bootAtoll s.fresh (BitVec.ofNat 3 n.val)
      let y := Config.bootHlcache s.fresh (BitVec.ofNat 3 n.val)
      { i with
        atoll := if x.toNat &&& csrReserved 0x601 = 0 ∧ fld x 2 3 % 2 ^ fld x 0 2 = 0 then x else i.atoll
        hlcache := if y.toNat ≤ 8 then y else i.hlcache } }

/-- Tabos boots firmware, the atolls are configured and the dispatchers are placed; a boot that fails returns to the other slot. Both
are logged (R354, R355, R357). -/
def execFirmwareBoot (s : State) : Result :=
  if !s.booting || s.stopped then .next s
  else
    let a := s.tabos.active
    let t := { s with fresh := s.fresh + 1 }
    if s.slotBoots a then
      let t := { t with
        booting := false
        tabos := { t.tabos with rollback := max t.tabos.rollback (s.slotVersion a), ready := true } }.logTabos (.booted a)
      .next t.configureAtolls.placeDispatchers
    else .next ({ t with tabos := { t.tabos with active := ~~~a, next := ~~~a } }.logTabos (.bootFailed a))

end Sys2Proof.Machine
end

