-- ==== Sys2Proof/Machine/VecPerm.lean ====
section
/-! DEFINITION. Permutations, bit fields, tables, random numbers and scalar moves (09 R162 to R168). None of them is interrupted
part-way but VMOVGV, which is element-wise. -/

namespace Sys2Proof.Machine

/-- The common course of VPERM and VXFM with vector sources `srcs`: no source shares a register with vd (R146). -/
def State.perm (s : State) (d : BitVec 5) (srcs : List (BitVec 5 × BitVec 1)) (illegal : Bool)
    (op : State → Nat → Nat × Flags) : Result :=
  let g := s.h.grp
  let D : Regs := (d.toNat, g)
  let rs : List Regs := srcs.map fun p => (p.1.toNat, g)
  s.issue { dst := [D], srcs := srcs.map (fun p => ((p.1.toNat, g), p.2 == 1)), lvd := some d }
    (illegal || !aligned (D :: rs) || rs.any D.overlap) [] fun s => s.allElements 4 s.h.ew D (op s)

/-- The image of the group at a register. -/
def State.image (s : State) (a : BitVec 5) : Nat := s.h.img a.toNat s.h.grp

/-- Element-wise writing under the mask: `f i` for active i, else kept or zero (R143). -/
def State.permActive (s : State) (d : BitVec 5) (k : BitVec 3) (f : Nat → Nat) (i : Nat) : Nat × Flags :=
  s.h.govern k.toNat s.h.ew (s.image d) (fun i => (f i, 0)) i

/-- The number of active elements below `i`. -/
def Hart.activeBelow (h : Hart) (km i : Nat) : Nat := (List.range i).countP fun j => h.active km j

/-- VGATHERR (R162) -/
def execVgatherr (d a b : BitVec 5) (k : BitVec 3) (e f : BitVec 1) (s : State) : Result :=
  s.perm d [(a, e), (b, f)] false fun s =>
    let x := s.image a
    let y := s.image b
    s.permActive d k fun i => s.h.readElem s.h.ew x (s.h.readElem s.h.ew y i)

/-- VSLIDEUP (R162) -/
def execVslideup (d a b : BitVec 5) (k : BitVec 3) (e : BitVec 1) (s : State) : Result :=
  s.perm d [(a, e)] false fun s =>
    let x := s.image a
    let n := (s.getG b).toNat
    s.permActive d k fun i => if n ≤ i then s.h.readElem s.h.ew x (i - n) else s.h.fillAt s.h.ew

/-- VSLIDEDN (R162) -/
def execVslidedn (d a b : BitVec 5) (k : BitVec 3) (e : BitVec 1) (s : State) : Result :=
  s.perm d [(a, e)] false fun s =>
    let x := s.image a
    let n := (s.getG b).toNat
    s.permActive d k fun i => s.h.readElem s.h.ew x (i + n)

/-- VCOMPRESS (R163) -/
def execVcompress (d a : BitVec 5) (k : BitVec 3) (e : BitVec 1) (s : State) : Result :=
  s.perm d [(a, e)] false fun s =>
    let h := s.h
    let x := s.image a
    let old := s.image d
    let xs := ((List.range h.span).filter fun i => h.active k.toNat i).map fun i => h.readElem h.ew x i
    fun i => (match xs[i]? with | some y => y | none => if h.ip then 0 else elem h.ew old i, 0)

/-- VEXPAND (R162) -/
def execVexpand (d a : BitVec 5) (k : BitVec 3) (e : BitVec 1) (s : State) : Result :=
  s.perm d [(a, e)] false fun s =>
    let x := s.image a
    s.permActive d k fun i => s.h.readElem s.h.ew x (s.h.activeBelow k.toNat i)

/-- VIOTA (R162) -/
def execViota (d : BitVec 5) (k : BitVec 3) (s : State) : Result :=
  s.perm d [] false fun s => s.permActive d k fun i => s.h.activeBelow k.toNat i % 2 ^ s.h.ew

/-- VSCAN (R162) -/
def execVscan (d a : BitVec 5) (k : BitVec 3) (e : BitVec 1) (s : State) : Result :=
  s.perm d [(a, e)] false fun s =>
    let x := s.image a
    s.permActive d k fun i =>
      (((List.range (i + 1)).filter fun j => s.h.active k.toNat j).map fun j => s.h.readElem s.h.ew x j).sum % 2 ^ s.h.ew

/-- VBCAST (R162) -/
def execVbcast (d a b : BitVec 5) (k : BitVec 3) (e : BitVec 1) (s : State) : Result :=
  s.perm d [(a, e)] false fun s =>
    let y := s.h.readElem s.h.ew (s.image a) (s.getG b).toNat
    s.permActive d k fun _ => y

/-- VUNPACKB (R165): w - 1 in gs2[5:0], SG in gs2[6] -/
def execVunpackb (d a b : BitVec 5) (k : BitVec 3) (e : BitVec 1) (s : State) : Result :=
  let w := fld (s.getG b) 0 6 + 1
  let sg := (s.getG b).getLsbD 6
  s.perm d [(a, e)] (decide (s.h.ew < w)) fun s =>
    let str := s.image a % 2 ^ (s.h.span * s.h.ew)
    s.permActive d k fun i =>
      let x := elem w str i
      if sg then ofSigned s.h.ew (toSigned w x) else x

/-- VTBL (R166): one register, index modulo its element count. The rule speaks of one register of vs1 and of vs1's group; vs1 has
to be a multiple of G, and its whole group counts for the checks, the overlap and the e = 0 wait (DESIGN CHOICE, log 56) -/
def execVtbl (d a b : BitVec 5) (k : BitVec 3) (e f : BitVec 1) (s : State) : Result :=
  s.perm d [(a, e), (b, f)] false fun s =>
    let h := s.h
    let x := (h.vreg a.toNat).toNat
    let y := s.image b
    let t := max 1 (min (4096 / ewbOf h.vtype) h.span)
    s.permActive d k fun i => elem h.ew x (h.readElem h.ew y i % t)

/-- One round of Philox-4x32: counter words and key words (R167). -/
def philoxRound (c : Nat × Nat × Nat × Nat) (k0 k1 : Nat) : Nat × Nat × Nat × Nat :=
  let p0 := 0xD2511F53 * c.1
  let p1 := 0xCD9E8D57 * c.2.2.1
  (p1 / 2 ^ 32 ^^^ c.2.1 ^^^ k0, p1 % 2 ^ 32, p0 / 2 ^ 32 ^^^ c.2.2.2 ^^^ k1, p0 % 2 ^ 32)

/-- `n` rounds, the key advancing after each. -/
def philox : Nat → Nat × Nat × Nat × Nat → Nat → Nat → Nat × Nat × Nat × Nat
  | 0, c, _, _ => c
  | n + 1, c, k0, k1 => philox n (philoxRound c k0 k1) ((k0 + 0x9E3779B9) % 2 ^ 32) ((k1 + 0xBB67AE85) % 2 ^ 32)

/-- The random element of `w` bits for index `i` (R167). -/
def randElem (w : Nat) (key base : Word) (i : Nat) : Nat :=
  let c := philox 10 ((fld base 0 32 + i) % 2 ^ 32, fld base 32 32, 0, 0) (fld key 0 32) (fld key 32 32)
  if w = 64 then c.2.1 * 2 ^ 32 + c.1 else c.1 % 2 ^ w

/-- VRAND (R167) -/
def execVrand (d a b : BitVec 5) (k : BitVec 3) (s : State) : Result :=
  s.perm d [] false fun s => s.permActive d k fun i => randElem s.h.ew (s.getG a) (s.getG b) i

/-- VMOVGV (R168) -/
def execVmovgv (d a : BitVec 5) (k : BitVec 3) (s : State) : Result :=
  let D : Regs := (d.toNat, s.h.grp)
  s.issue { dst := [D], lvd := some d } (!aligned [D]) [] fun s =>
    let y := (s.getG a).toNat % 2 ^ s.h.ew
    s.elementwise 4 s.h.ew D (s.permActive d k fun _ => y)

/-- VMOVVG (R168): no vector destination -/
def execVmovvg (d a b : BitVec 5) (e : BitVec 1) (s : State) : Result :=
  let A : Regs := (a.toNat, s.h.grp)
  s.issue { srcs := [(A, e == 1)] } (!aligned [A]) [] fun s =>
    .next (s.setGAdv d (BitVec.ofNat 64 (s.h.readElem s.h.ew (s.image a) (s.getG b).toNat)) 4)

end Sys2Proof.Machine
end

