-- ==== Sys2Proof/Machine/Dispatch.lean ====
section
/-! DEFINITION. One arm per instruction: its meaning, or its refusal by name. -/

namespace Sys2Proof.Machine

def exec (i : Instr) (s : State) : Host.Outcome State Fault Refusal :=
  match i with
  | .add d a b => Sys2Proof.Machine.execAdd d a b s
  | .sub d a b => Sys2Proof.Machine.execSub d a b s
  | .and d a b => Sys2Proof.Machine.execAnd d a b s
  | .or d a b => Sys2Proof.Machine.execOr d a b s
  | .xor d a b => Sys2Proof.Machine.execXor d a b s
  | .andn d a b => Sys2Proof.Machine.execAndn d a b s
  | .sll d a b => Sys2Proof.Machine.execSll d a b s
  | .srl d a b => Sys2Proof.Machine.execSrl d a b s
  | .sra d a b => Sys2Proof.Machine.execSra d a b s
  | .slt d a b => Sys2Proof.Machine.execSlt d a b s
  | .sltn d a b => Sys2Proof.Machine.execSltn d a b s
  | .min d a b => Sys2Proof.Machine.execMin d a b s
  | .max d a b => Sys2Proof.Machine.execMax d a b s
  | .minn d a b => Sys2Proof.Machine.execMinn d a b s
  | .maxn d a b => Sys2Proof.Machine.execMaxn d a b s
  | .mul d a b => Sys2Proof.Machine.execMul d a b s
  | .mulh d a b => Sys2Proof.Machine.execMulh d a b s
  | .mulhn d a b => Sys2Proof.Machine.execMulhn d a b s
  | .div d a b => Sys2Proof.Machine.execDiv d a b s
  | .divn d a b => Sys2Proof.Machine.execDivn d a b s
  | .rem d a b => Sys2Proof.Machine.execRem d a b s
  | .remn d a b => Sys2Proof.Machine.execRemn d a b s
  | .clz d a => Sys2Proof.Machine.execClz d a s
  | .popc d a => Sys2Proof.Machine.execPopc d a s
  | .sext d a w => Sys2Proof.Machine.execSext d a w s
  | .zext d a w => Sys2Proof.Machine.execZext d a w s
  | .addi d a imm => Sys2Proof.Machine.execAddi d a imm s
  | .andi d a imm => Sys2Proof.Machine.execAndi d a imm s
  | .ori d a imm => Sys2Proof.Machine.execOri d a imm s
  | .xori d a imm => Sys2Proof.Machine.execXori d a imm s
  | .slti d a imm => Sys2Proof.Machine.execSlti d a imm s
  | .sltni d a imm => Sys2Proof.Machine.execSltni d a imm s
  | .slli d a n => Sys2Proof.Machine.execSlli d a n s
  | .srli d a n => Sys2Proof.Machine.execSrli d a n s
  | .srai d a n => Sys2Proof.Machine.execSrai d a n s
  | .lih d imm => Sys2Proof.Machine.execLih d imm s
  | .addpc d imm => Sys2Proof.Machine.execAddpc d imm s
  | .xform a b k e => Sys2Proof.Machine.execXform a b k e s
  | .xshift a b => Sys2Proof.Machine.execXshift a b s
  | .xtoloc a b => Sys2Proof.Machine.execXtoloc a b s
  | .xlshift a b => Sys2Proof.Machine.execXlshift a b s
  | .xeval a b c k e => Sys2Proof.Machine.execXeval a b c k e s
  | .xadmit a b c k e => Sys2Proof.Machine.execXadmit a b c k e s
  | .xdirect a b c k e => Sys2Proof.Machine.execXdirect a b c k e s
  | .xld a b => Sys2Proof.Machine.execXld a b s
  | .xst a b => Sys2Proof.Machine.execXst a b s
  | .xzero a b c => Sys2Proof.Machine.execXzero a b c s
  | .xord a b => Sys2Proof.Machine.execXord a b s
  | .xevalg a b c k e => Sys2Proof.Machine.execXevalg a b c k e s
  | .fadd d a b => Sys2Proof.Machine.execFadd d a b s
  | .fsub d a b => Sys2Proof.Machine.execFsub d a b s
  | .fmul d a b => Sys2Proof.Machine.execFmul d a b s
  | .fdiv d a b => Sys2Proof.Machine.execFdiv d a b s
  | .fsqrt d a => Sys2Proof.Machine.execFsqrt d a s
  | .fmin d a b => Sys2Proof.Machine.execFmin d a b s
  | .fmax d a b => Sys2Proof.Machine.execFmax d a b s
  | .feq d a b => Sys2Proof.Machine.execFeq d a b s
  | .flt d a b => Sys2Proof.Machine.execFlt d a b s
  | .fle d a b => Sys2Proof.Machine.execFle d a b s
  | .fcvtFS d a => Sys2Proof.Machine.execFcvtFS d a s
  | .fcvtSF d a => Sys2Proof.Machine.execFcvtSF d a s
  | .fcvtFH d a => Sys2Proof.Machine.execFcvtFH d a s
  | .fcvtFBf d a => Sys2Proof.Machine.execFcvtFBf d a s
  | .fcvtHF d a => Sys2Proof.Machine.execFcvtHF d a s
  | .fcvtBfF d a => Sys2Proof.Machine.execFcvtBfF d a s
  | .fclass d a => Sys2Proof.Machine.execFclass d a s
  | .ffma d a b c => Sys2Proof.Machine.execFfma d a b c s
  | .ffms d a b c => Sys2Proof.Machine.execFfms d a b c s
  | .fnma d a b c => Sys2Proof.Machine.execFnma d a b c s
  | .fnms d a b c => Sys2Proof.Machine.execFnms d a b c s
  | .beq a b o => Sys2Proof.Machine.execBeq a b o s
  | .bne a b o => Sys2Proof.Machine.execBne a b o s
  | .blt a b o => Sys2Proof.Machine.execBlt a b o s
  | .bge a b o => Sys2Proof.Machine.execBge a b o s
  | .bltn a b o => Sys2Proof.Machine.execBltn a b o s
  | .bgen a b o => Sys2Proof.Machine.execBgen a b o s
  | .jal d o => Sys2Proof.Machine.execJal d o s
  | .jalr d a imm => Sys2Proof.Machine.execJalr d a imm s
  | .lds g b w imm => Sys2Proof.Machine.execLds g b w imm s
  | .sts g b w imm => Sys2Proof.Machine.execSts g b w imm s
  | .ldo d a o sc x => Sys2Proof.Machine.execLdo d a o sc x s
  | .sto a b o sc x => Sys2Proof.Machine.execSto a b o sc x s
  | .amoAdd d a b o sc => Sys2Proof.Machine.execAmoAdd d a b o sc s
  | .amoAnd d a b o sc => Sys2Proof.Machine.execAmoAnd d a b o sc s
  | .amoOr d a b o sc => Sys2Proof.Machine.execAmoOr d a b o sc s
  | .amoXor d a b o sc => Sys2Proof.Machine.execAmoXor d a b o sc s
  | .amoMin d a b o sc => Sys2Proof.Machine.execAmoMin d a b o sc s
  | .amoMax d a b o sc => Sys2Proof.Machine.execAmoMax d a b o sc s
  | .amoSwap d a b o sc => Sys2Proof.Machine.execAmoSwap d a b o sc s
  | .amoCas d a b o sc => Sys2Proof.Machine.execAmoCas d a b o sc s
  | .amowAdd d a b o sc => Sys2Proof.Machine.execAmowAdd d a b o sc s
  | .amowAnd d a b o sc => Sys2Proof.Machine.execAmowAnd d a b o sc s
  | .amowOr d a b o sc => Sys2Proof.Machine.execAmowOr d a b o sc s
  | .amowXor d a b o sc => Sys2Proof.Machine.execAmowXor d a b o sc s
  | .amowMin d a b o sc => Sys2Proof.Machine.execAmowMin d a b o sc s
  | .amowMax d a b o sc => Sys2Proof.Machine.execAmowMax d a b o sc s
  | .amowSwap d a b o sc => Sys2Proof.Machine.execAmowSwap d a b o sc s
  | .amowCas d a b o sc => Sys2Proof.Machine.execAmowCas d a b o sc s
  | .fence o sc => Sys2Proof.Machine.execFence o sc s
  | .csrrd d c => Sys2Proof.Machine.execCsrrd d c s
  | .csrwr d a c => Sys2Proof.Machine.execCsrwr d a c s
  | .csrset d a c => Sys2Proof.Machine.execCsrset d a c s
  | .csrclr d a c => Sys2Proof.Machine.execCsrclr d a c s
  | .strip d => Sys2Proof.Machine.execStrip d s
  | .vsettype d a => Sys2Proof.Machine.execVsettype d a s
  | .limlt d a b => Sys2Proof.Machine.execLimlt d a b s
  | .limle d a b => Sys2Proof.Machine.execLimle d a b s
  | .limltn d a b => Sys2Proof.Machine.execLimltn d a b s
  | .setvl d a => Sys2Proof.Machine.execSetvl d a s
  | .mand d a b => Sys2Proof.Machine.execMand d a b s
  | .mor d a b => Sys2Proof.Machine.execMor d a b s
  | .mxor d a b => Sys2Proof.Machine.execMxor d a b s
  | .mandn d a b => Sys2Proof.Machine.execMandn d a b s
  | .mnot d a => Sys2Proof.Machine.execMnot d a s
  | .mcopy d a => Sys2Proof.Machine.execMcopy d a s
  | .mfill d => Sys2Proof.Machine.execMfill d s
  | .mzero d => Sys2Proof.Machine.execMzero d s
  | .mcount d a => Sys2Proof.Machine.execMcount d a s
  | .mfirst d a => Sys2Proof.Machine.execMfirst d a s
  | .mlast d a => Sys2Proof.Machine.execMlast d a s
  | .mfromg d a b => Sys2Proof.Machine.execMfromg d a b s
  | .mtog d a b => Sys2Proof.Machine.execMtog d a b s
  | .ecall => Sys2Proof.Machine.execEcall s
  | .eret => Sys2Proof.Machine.execEret s
  | .wfi d => Sys2Proof.Machine.execWfi d s
  | .brk => Sys2Proof.Machine.execBrk s
  | .tlbinv a b => Sys2Proof.Machine.execTlbinv a b s
  | .frqpop d => Sys2Proof.Machine.execFrqpop d s
  | .ctxsave => Sys2Proof.Machine.execCtxsave s
  | .ctxload => Sys2Proof.Machine.execCtxload s
  | .bar d a b sc => Sys2Proof.Machine.execBar d a b sc s
  | .waita d a b c => Sys2Proof.Machine.execWaita d a b c s
  | .chwait d a => Sys2Proof.Machine.execChwait d a s
  | .chwaitId d a b => Sys2Proof.Machine.execChwaitId d a b s
  | .qpush d a b => Sys2Proof.Machine.execQpush d a b s
  | .qpop d a => Sys2Proof.Machine.execQpop d a s
  | .qpopNb d a => Sys2Proof.Machine.execQpopNb d a s
  | .launch d a => Sys2Proof.Machine.execLaunch d a s
  | .yield => Sys2Proof.Machine.execYield s
  | .exit => Sys2Proof.Machine.execExit s
  | .barg d a b => Sys2Proof.Machine.execBarg d a b s
  | .vacq d imm => Sys2Proof.Machine.execVacq d imm s
  | .vacqFail d imm => Sys2Proof.Machine.execVacqFail d imm s
  | .vacqTile d imm => Sys2Proof.Machine.execVacqTile d imm s
  | .vacqTileFail d imm => Sys2Proof.Machine.execVacqTileFail d imm s
  | .vrel imm => Sys2Proof.Machine.execVrel imm s
  | .cpread d a b => Sys2Proof.Machine.execCpread d a b s
  | .cpmark d => Sys2Proof.Machine.execCpmark d s
  | .vadd d a b k e f => Sys2Proof.Machine.execVadd d a b k e f s
  | .vsub d a b k e f => Sys2Proof.Machine.execVsub d a b k e f s
  | .vmul d a b k e f => Sys2Proof.Machine.execVmul d a b k e f s
  | .vmulh d a b k e f => Sys2Proof.Machine.execVmulh d a b k e f s
  | .vmin d a b k e f => Sys2Proof.Machine.execVmin d a b k e f s
  | .vmax d a b k e f => Sys2Proof.Machine.execVmax d a b k e f s
  | .vminn d a b k e f => Sys2Proof.Machine.execVminn d a b k e f s
  | .vmaxn d a b k e f => Sys2Proof.Machine.execVmaxn d a b k e f s
  | .vand d a b k e f => Sys2Proof.Machine.execVand d a b k e f s
  | .vor d a b k e f => Sys2Proof.Machine.execVor d a b k e f s
  | .vxor d a b k e f => Sys2Proof.Machine.execVxor d a b k e f s
  | .vandn d a b k e f => Sys2Proof.Machine.execVandn d a b k e f s
  | .vsll d a b k e f => Sys2Proof.Machine.execVsll d a b k e f s
  | .vsrl d a b k e f => Sys2Proof.Machine.execVsrl d a b k e f s
  | .vsra d a b k e f => Sys2Proof.Machine.execVsra d a b k e f s
  | .vmerge d a b k e f => Sys2Proof.Machine.execVmerge d a b k e f s
  | .vsadd d a b k e f => Sys2Proof.Machine.execVsadd d a b k e f s
  | .vssub d a b k e f => Sys2Proof.Machine.execVssub d a b k e f s
  | .vnshr d a b k e f => Sys2Proof.Machine.execVnshr d a b k e f s
  | .vwmul d a b k e f => Sys2Proof.Machine.execVwmul d a b k e f s
  | .vwmac d a b k e f => Sys2Proof.Machine.execVwmac d a b k e f s
  | .vabs d a k e => Sys2Proof.Machine.execVabs d a k e s
  | .vmulhn d a b k e f => Sys2Proof.Machine.execVmulhn d a b k e f s
  | .vavg d a b k e f => Sys2Proof.Machine.execVavg d a b k e f s
  | .vaddX d a b k e => Sys2Proof.Machine.execVaddX d a b k e s
  | .vsubX d a b k e => Sys2Proof.Machine.execVsubX d a b k e s
  | .vmulX d a b k e => Sys2Proof.Machine.execVmulX d a b k e s
  | .vmulhX d a b k e => Sys2Proof.Machine.execVmulhX d a b k e s
  | .vminX d a b k e => Sys2Proof.Machine.execVminX d a b k e s
  | .vmaxX d a b k e => Sys2Proof.Machine.execVmaxX d a b k e s
  | .vminnX d a b k e => Sys2Proof.Machine.execVminnX d a b k e s
  | .vmaxnX d a b k e => Sys2Proof.Machine.execVmaxnX d a b k e s
  | .vandX d a b k e => Sys2Proof.Machine.execVandX d a b k e s
  | .vorX d a b k e => Sys2Proof.Machine.execVorX d a b k e s
  | .vxorX d a b k e => Sys2Proof.Machine.execVxorX d a b k e s
  | .vandnX d a b k e => Sys2Proof.Machine.execVandnX d a b k e s
  | .vsllX d a b k e => Sys2Proof.Machine.execVsllX d a b k e s
  | .vsrlX d a b k e => Sys2Proof.Machine.execVsrlX d a b k e s
  | .vsraX d a b k e => Sys2Proof.Machine.execVsraX d a b k e s
  | .vmergeX d a b k e => Sys2Proof.Machine.execVmergeX d a b k e s
  | .vfadd d a b k e f => Sys2Proof.Machine.execVfadd d a b k e f s
  | .vfsub d a b k e f => Sys2Proof.Machine.execVfsub d a b k e f s
  | .vfmul d a b k e f => Sys2Proof.Machine.execVfmul d a b k e f s
  | .vfdiv d a b k e f => Sys2Proof.Machine.execVfdiv d a b k e f s
  | .vfmin d a b k e f => Sys2Proof.Machine.execVfmin d a b k e f s
  | .vfmax d a b k e f => Sys2Proof.Machine.execVfmax d a b k e f s
  | .vfsqrt d a k e => Sys2Proof.Machine.execVfsqrt d a k e s
  | .vfabs d a k e => Sys2Proof.Machine.execVfabs d a k e s
  | .vffma d a b k e f => Sys2Proof.Machine.execVffma d a b k e f s
  | .vffms d a b k e f => Sys2Proof.Machine.execVffms d a b k e f s
  | .vfnma d a b k e f => Sys2Proof.Machine.execVfnma d a b k e f s
  | .vfnms d a b k e f => Sys2Proof.Machine.execVfnms d a b k e f s
  | .vfaddX d a b k e => Sys2Proof.Machine.execVfaddX d a b k e s
  | .vfsubX d a b k e => Sys2Proof.Machine.execVfsubX d a b k e s
  | .vfmulX d a b k e => Sys2Proof.Machine.execVfmulX d a b k e s
  | .vfdivX d a b k e => Sys2Proof.Machine.execVfdivX d a b k e s
  | .vfminX d a b k e => Sys2Proof.Machine.execVfminX d a b k e s
  | .vfmaxX d a b k e => Sys2Proof.Machine.execVfmaxX d a b k e s
  | .vffmaX d a b k e => Sys2Proof.Machine.execVffmaX d a b k e s
  | .vffmsX d a b k e => Sys2Proof.Machine.execVffmsX d a b k e s
  | .vfnmaX d a b k e => Sys2Proof.Machine.execVfnmaX d a b k e s
  | .vfnmsX d a b k e => Sys2Proof.Machine.execVfnmsX d a b k e s
  | .vrcp d a k e => Sys2Proof.Machine.execVrcp d a k e s
  | .vrsq d a k e => Sys2Proof.Machine.execVrsq d a k e s
  | .vexp2 d a k e => Sys2Proof.Machine.execVexp2 d a k e s
  | .vlog2 d a k e => Sys2Proof.Machine.execVlog2 d a k e s
  | .vcmpEq d a b k e f => Sys2Proof.Machine.execVcmpEq d a b k e f s
  | .vcmpNe d a b k e f => Sys2Proof.Machine.execVcmpNe d a b k e f s
  | .vcmpLt d a b k e f => Sys2Proof.Machine.execVcmpLt d a b k e f s
  | .vcmpLe d a b k e f => Sys2Proof.Machine.execVcmpLe d a b k e f s
  | .vcmpLtn d a b k e f => Sys2Proof.Machine.execVcmpLtn d a b k e f s
  | .vcmpLen d a b k e f => Sys2Proof.Machine.execVcmpLen d a b k e f s
  | .vcmpLtX d a b k e => Sys2Proof.Machine.execVcmpLtX d a b k e s
  | .vcmpGeX d a b k e => Sys2Proof.Machine.execVcmpGeX d a b k e s
  | .vfcmpFeq d a b k e f => Sys2Proof.Machine.execVfcmpFeq d a b k e f s
  | .vfcmpFne d a b k e f => Sys2Proof.Machine.execVfcmpFne d a b k e f s
  | .vfcmpFlt d a b k e f => Sys2Proof.Machine.execVfcmpFlt d a b k e f s
  | .vfcmpFle d a b k e f => Sys2Proof.Machine.execVfcmpFle d a b k e f s
  | .vfcmpFltX d a b k e => Sys2Proof.Machine.execVfcmpFltX d a b k e s
  | .vfcmpFgeX d a b k e => Sys2Proof.Machine.execVfcmpFgeX d a b k e s
  | .vfcmpFunord d a b k e f => Sys2Proof.Machine.execVfcmpFunord d a b k e f s
  | .vcvtFi d a u k e => Sys2Proof.Machine.execVcvtFi d a u k e s
  | .vcvtIf d a u k e => Sys2Proof.Machine.execVcvtIf d a u k e s
  | .vfwiden d a k e => Sys2Proof.Machine.execVfwiden d a k e s
  | .vfnarrow d a k e => Sys2Proof.Machine.execVfnarrow d a k e s
  | .vswiden d a k e => Sys2Proof.Machine.execVswiden d a k e s
  | .vzwiden d a k e => Sys2Proof.Machine.execVzwiden d a k e s
  | .vtrunc d a u k e => Sys2Proof.Machine.execVtrunc d a u k e s
  | .vredsum d a b k e f => Sys2Proof.Machine.execVredsum d a b k e f s
  | .vredmax d a b k e f => Sys2Proof.Machine.execVredmax d a b k e f s
  | .vredmin d a b k e f => Sys2Proof.Machine.execVredmin d a b k e f s
  | .vredmaxn d a b k e f => Sys2Proof.Machine.execVredmaxn d a b k e f s
  | .vredminn d a b k e f => Sys2Proof.Machine.execVredminn d a b k e f s
  | .vfredsum d a b k e f => Sys2Proof.Machine.execVfredsum d a b k e f s
  | .vfredmax d a b k e f => Sys2Proof.Machine.execVfredmax d a b k e f s
  | .vfredmin d a b k e f => Sys2Proof.Machine.execVfredmin d a b k e f s
  | .vgatherr d a b k e f => Sys2Proof.Machine.execVgatherr d a b k e f s
  | .vslideup d a b k e => Sys2Proof.Machine.execVslideup d a b k e s
  | .vslidedn d a b k e => Sys2Proof.Machine.execVslidedn d a b k e s
  | .vcompress d a k e => Sys2Proof.Machine.execVcompress d a k e s
  | .vexpand d a k e => Sys2Proof.Machine.execVexpand d a k e s
  | .viota d k => Sys2Proof.Machine.execViota d k s
  | .vscan d a k e => Sys2Proof.Machine.execVscan d a k e s
  | .vbcast d a b k e => Sys2Proof.Machine.execVbcast d a b k e s
  | .vunpackb d a b k e => Sys2Proof.Machine.execVunpackb d a b k e s
  | .vtbl d a b k e f => Sys2Proof.Machine.execVtbl d a b k e f s
  | .vrand d a b k => Sys2Proof.Machine.execVrand d a b k s
  | .vmovgv d a k => Sys2Proof.Machine.execVmovgv d a k s
  | .vmovvg d a b e => Sys2Proof.Machine.execVmovvg d a b e s
  | .planset p a => Sys2Proof.Machine.execPlanset p a s
  | .planget d p => Sys2Proof.Machine.execPlanget d p s
  | .vgchk d a p k e => Sys2Proof.Machine.execVgchk d a p k e s
  | .vpack d a k e p => Sys2Proof.Machine.execVpack d a k e p s
  | .vpackB d a k e p => Sys2Proof.Machine.execVpackB d a k e p s
  | .vconv d a b k e f p => Sys2Proof.Machine.execVconv d a b k e f p s
  | .vxtr d a n k e p => Sys2Proof.Machine.execVxtr d a n k e p s
  | .vld v b k f => Sys2Proof.Machine.execVld v b k f s
  | .vldff v b k f => Sys2Proof.Machine.execVldff v b k f s
  | .vlds v b x k f => Sys2Proof.Machine.execVlds v b x k f s
  | .vldx v b x k e w => Sys2Proof.Machine.execVldx v b x k e w s
  | .vst v b k e f => Sys2Proof.Machine.execVst v b k e f s
  | .vstn v b k e f => Sys2Proof.Machine.execVstn v b k e f s
  | .vsts v b x k e f => Sys2Proof.Machine.execVsts v b x k e f s
  | .vstx v b x k e w => Sys2Proof.Machine.execVstx v b x k e w s
  | .vldbp v b k p => Sys2Proof.Machine.execVldbp v b k p s
  | .vstbp v b k e p => Sys2Proof.Machine.execVstbp v b k e p s
  | .vspill v b => Sys2Proof.Machine.execVspill v b s
  | .vrefill v b => Sys2Proof.Machine.execVrefill v b s
  | .vamoAdd v b x k e => Sys2Proof.Machine.execVamoAdd v b x k e s
  | .vamoAnd v b x k e => Sys2Proof.Machine.execVamoAnd v b x k e s
  | .vamoOr v b x k e => Sys2Proof.Machine.execVamoOr v b x k e s
  | .vamoXor v b x k e => Sys2Proof.Machine.execVamoXor v b x k e s
  | .vamoMin v b x k e => Sys2Proof.Machine.execVamoMin v b x k e s
  | .vamoMax v b x k e => Sys2Proof.Machine.execVamoMax v b x k e s
  | .vamoSwap v b x k e => Sys2Proof.Machine.execVamoSwap v b x k e s
  | .strmdef d a => Sys2Proof.Machine.execStrmdef d a s
  | .strmend a => Sys2Proof.Machine.execStrmend a s
  | .copy d a => Sys2Proof.Machine.execCopy d a s
  | .evpop d => Sys2Proof.Machine.execEvpop d s
  | .gangbind d a b => Sys2Proof.Machine.execGangbind d a b s
  | .gangfree => Sys2Proof.Machine.execGangfree s
  | .vplane d a n k e => Sys2Proof.Machine.execVplane d a n k e s
  | .vtoplane d a k e => Sys2Proof.Machine.execVtoplane d a k e s
  | .vqscale d a b k e => Sys2Proof.Machine.execVqscale d a b k e s
  | .vnarrow d a k e => Sys2Proof.Machine.execVnarrow d a k e s
  | .vdeq d a n k e => Sys2Proof.Machine.execVdeq d a n k e s
  | .pref d a b => Sys2Proof.Machine.execPref d a b s
  | .land d a b => Sys2Proof.Machine.execLand d a b s
  | .pause d a b => Sys2Proof.Machine.execPause d a b s
  | .grantq d a b => Sys2Proof.Machine.execGrantq d a b s
  | .hintNop d a b f => Sys2Proof.Machine.execHintNop d a b f s
  | .cAddi d imm => Sys2Proof.Machine.execCAddi d imm s
  | .cMv d sc => Sys2Proof.Machine.execCMv d sc s
  | .cAdd d sc => Sys2Proof.Machine.execCAdd d sc s
  | .cSub d sc => Sys2Proof.Machine.execCSub d sc s
  | .cAnd d sc => Sys2Proof.Machine.execCAnd d sc s
  | .cOr d sc => Sys2Proof.Machine.execCOr d sc s
  | .cXor d sc => Sys2Proof.Machine.execCXor d sc s
  | .cSll d sc => Sys2Proof.Machine.execCSll d sc s
  | .cSra d sc => Sys2Proof.Machine.execCSra d sc s
  | .cLd d b imm => Sys2Proof.Machine.execCLd d b imm s
  | .cSt sc b imm => Sys2Proof.Machine.execCSt sc b imm s
  | .cJ o => Sys2Proof.Machine.execCJ o s
  | .cBeqz sc o => Sys2Proof.Machine.execCBeqz sc o s
  | .cBnez sc o => Sys2Proof.Machine.execCBnez sc o s
  | .cJr sc => Sys2Proof.Machine.execCJr sc s
  | .cVadd d sc => Sys2Proof.Machine.execCVadd d sc s
  | .cVsub d sc => Sys2Proof.Machine.execCVsub d sc s
  | .cVmul d sc => Sys2Proof.Machine.execCVmul d sc s
  | .cVfadd d sc => Sys2Proof.Machine.execCVfadd d sc s
  | .cVfmul d sc => Sys2Proof.Machine.execCVfmul d sc s
  | .cVffma d sc => Sys2Proof.Machine.execCVffma d sc s
  | .cVmax d sc => Sys2Proof.Machine.execCVmax d sc s
  | .cVfmax d sc => Sys2Proof.Machine.execCVfmax d sc s
  | .cVaddX d sc => Sys2Proof.Machine.execCVaddX d sc s
  | .cVsubX d sc => Sys2Proof.Machine.execCVsubX d sc s
  | .cVmulX d sc => Sys2Proof.Machine.execCVmulX d sc s
  | .cVfaddX d sc => Sys2Proof.Machine.execCVfaddX d sc s
  | .cVfmulX d sc => Sys2Proof.Machine.execCVfmulX d sc s
  | .cVffmaX d sc => Sys2Proof.Machine.execCVffmaX d sc s
  | .cVmaxX d sc => Sys2Proof.Machine.execCVmaxX d sc s
  | .cVfmaxX d sc => Sys2Proof.Machine.execCVfmaxX d sc s
  | .tshape z m n k => Sys2Proof.Machine.execTshape z m n k s
  | .twin z imm => Sys2Proof.Machine.execTwin z imm s
  | .tzero z => Sys2Proof.Machine.execTzero z s
  | .tmma z a sa b sb ta tb pa pb ea eb => Sys2Proof.Machine.execTmma z a sa b sb ta tb pa pb ea eb s
  | .tlda z a sa b t raw sm gm => Sys2Proof.Machine.execTlda z a sa b t raw sm gm s
  | .tsta z a sa b t raw sm gm => Sys2Proof.Machine.execTsta z a sa b t raw sm gm s
  | .tadd z zs => Sys2Proof.Machine.execTadd z zs s
  | .tsync => Sys2Proof.Machine.execTsync s
  | .tgang r c => Sys2Proof.Machine.execTgang r c s
  | .csrWrite csr d a => Sys2Proof.Machine.execCsrWrite csr d a s
  | .vtypeWrite d a => Sys2Proof.Machine.execVtypeWrite d a s
  | .lpartWrite d a => Sys2Proof.Machine.execLpartWrite d a s
  | .preq d a => Sys2Proof.Machine.execPreq d a s
  | .cplogWrite d a => Sys2Proof.Machine.execCplogWrite d a s
  | .trctlWrite d a => Sys2Proof.Machine.execTrctlWrite d a s
  | .atollWrite d a => Sys2Proof.Machine.execAtollWrite d a s
  | .dbgctlStop d a => Sys2Proof.Machine.execDbgctlStop d a s
  | .dbgctlGo d a => Sys2Proof.Machine.execDbgctlGo d a s
  | .clusterFrozen cl => Sys2Proof.Machine.execClusterFrozen cl s
  | .dumpctlGo d a => Sys2Proof.Machine.execDumpctlGo d a s
  | .dumpComplete => Sys2Proof.Machine.execDumpComplete s
  | .preemption h units => Sys2Proof.Machine.execPreemption h units s
  | .waitTimeout h => Sys2Proof.Machine.execWaitTimeout h s
  | .barDeparture h => Sys2Proof.Machine.execBarDeparture h s
  | .waitaWake h => Sys2Proof.Machine.execWaitaWake h s
  | .chwaitReturn h => Sys2Proof.Machine.execChwaitReturn h s
  | .qpopWake h => Sys2Proof.Machine.execQpopWake h s
  | .qpushReply h status => Sys2Proof.Machine.execQpushReply h status s
  | .tsyncReturn h => Sys2Proof.Machine.execTsyncReturn h s
  | .copyChannelRoom h => Sys2Proof.Machine.execCopyChannelRoom h s
  | .gangFormed cl cores => Sys2Proof.Machine.execGangFormed cl cores s
  | .vacqGrant h => Sys2Proof.Machine.execVacqGrant h s
  | .ctxloadGrant h => Sys2Proof.Machine.execCtxloadGrant h s
  | .wfiWake h => Sys2Proof.Machine.execWfiWake h s
  | .registerWaitEnd h => Sys2Proof.Machine.execRegisterWaitEnd h s
  | .producerArrival h r => Sys2Proof.Machine.execProducerArrival h r s
  | .vectorQueueRoom h => Sys2Proof.Machine.execVectorQueueRoom h s
  | .pauseEnd h => Sys2Proof.Machine.execPauseEnd h s
  | .yieldEnd h => Sys2Proof.Machine.execYieldEnd h s
  | .laneBinding h cy => Sys2Proof.Machine.execLaneBinding h cy s
  | .sequencerUnit core => Sys2Proof.Machine.execSequencerUnit core s
  | .streamPrefetch h n => Sys2Proof.Machine.execStreamPrefetch h n s
  | .gangStreamFetch cl cores n => Sys2Proof.Machine.execGangStreamFetch cl cores n s
  | .copyTransferStart core ch => Sys2Proof.Machine.execCopyTransferStart core ch s
  | .copyComplete core ch => Sys2Proof.Machine.execCopyComplete core ch s
  | .hartPlacement isl => Sys2Proof.Machine.execHartPlacement isl s
  | .launchComplete core id => Sys2Proof.Machine.execLaunchComplete core id s
  | .launchRequest isl => Sys2Proof.Machine.execLaunchRequest isl s
  | .governorCapChange core cap => Sys2Proof.Machine.execGovernorCapChange core cap s
  | .trafficCounterWrite isl => Sys2Proof.Machine.execTrafficCounterWrite isl s
  | .straitBarArrival m => Sys2Proof.Machine.execStraitBarArrival m s
  | .straitBarDeparture m => Sys2Proof.Machine.execStraitBarDeparture m s
  | .straitQueuePush m => Sys2Proof.Machine.execStraitQueuePush m s
  | .straitCopyWrite m => Sys2Proof.Machine.execStraitCopyWrite m s
  | .straitFlitReplay port => Sys2Proof.Machine.execStraitFlitReplay port s
  | .straitPortLost port => Sys2Proof.Machine.execStraitPortLost port s
  | .narrowsLinkFailed link => Sys2Proof.Machine.execNarrowsLinkFailed link s
  | .hostHdmRead ld o n => Sys2Proof.Machine.execHostHdmRead ld o n s
  | .hostHdmWrite ld o data => Sys2Proof.Machine.execHostHdmWrite ld o data s
  | .getEventRecords ld => Sys2Proof.Machine.execGetEventRecords ld s
  | .getFwInfo ld => Sys2Proof.Machine.execGetFwInfo ld s
  | .transferFw ld image => Sys2Proof.Machine.execTransferFw ld image s
  | .activateFw ld slot => Sys2Proof.Machine.execActivateFw ld slot s
  | .identifyMemoryDevice ld => Sys2Proof.Machine.execIdentifyMemoryDevice ld s
  | .setLaunchQueue ld hdr => Sys2Proof.Machine.execSetLaunchQueue ld hdr s
  | .readSensors ld => Sys2Proof.Machine.execReadSensors ld s
  | .readLog ld off len => Sys2Proof.Machine.execReadLog ld off len s
  | .getAttestationReport ld nonce => Sys2Proof.Machine.execGetAttestationReport ld nonce s
  | .setFleetGroup ld members => Sys2Proof.Machine.execSetFleetGroup ld members s
  | .sensorRefresh => Sys2Proof.Machine.execSensorRefresh s
  | .hbmPatrolScrub stack => Sys2Proof.Machine.execHbmPatrolScrub stack s
  | .thermalTrip => Sys2Proof.Machine.execThermalTrip s
  | .packageReset => Sys2Proof.Machine.execPackageReset s
  | .firmwareBoot => Sys2Proof.Machine.execFirmwareBoot s
  | .hostLineCacheSnoop isl line data => Sys2Proof.Machine.execHostLineCacheSnoop isl line data s
  | .narrowsFlitReplay link => Sys2Proof.Machine.execNarrowsFlitReplay link s
  | .straitRecordFetch pkg id => Sys2Proof.Machine.execStraitRecordFetch pkg id s

end Sys2Proof.Machine
end

