-- ==== Sys2Proof/Machine/Moves.lean ====
section
/-! DEFINITION. What one move of a hart is: what comes due at an instruction boundary, issuing the instruction at the PC, and what
a waiting hart waits for (01 R11, R12, 03 R50, 04 R71, R72, 06 R97, 15 R285, R293, 17 R322, 20 R361 to R368, R373, 22 R384 to
R389); which agent moves (log 3); and placing a word where the next step fetches (log 8). -/

namespace Sys2Proof.Machine

/-! ### Completion of an instruction (R285, R308, R364, R373) -/

/-- What is cleared when the last of the interrupted work has completed (R373); R365 clears REPLAY of an indexed access. -/
def Hart.settled (h : Hart) (indexed : Bool) : Hart :=
  let e := setFld (setFld (setFld h.estatus 5 1 0) 7 9 0) 19 3 0
  { h with
    eix := 0
    econv := 0
    tseq := setFld h.tseq 63 1 0
    estatus := if indexed then e else setFld e 6 1 0 }

/-- Whether an interrupted instruction still lies ahead of the PC: at it, or on the way from EPC past it. -/
def Hart.ahead (h : Hart) (r : Resume) : Bool :=
  r.pc == h.pc || (!r.own && decide (h.epc.toNat ≤ h.pc.toNat) && decide (h.pc.toNat ≤ r.pc.toNat))

/-- After an instruction of the hart has completed, the one at `done` when that is known: what is left of the interrupted work lies at
or after the PC. -/
def Hart.goneOn (h : Hart) (indexed : Bool) (done : Option Word := none) : Hart :=
  if h.resume = [] then h
  else
    let left := h.resume.filter fun r => done != some r.pc && h.ahead r
    let t := { h with resume := left }
    if h.resume.any (fun r => !r.own) && left.all (fun r => r.own) then t.settled indexed else t

/-- Units of execution of a queued instruction (R23, R188, R190, R191, R203). XDIRECT runs its blocks of 32 targets and 32 sources,
XLD and XST their 768 bytes, XORD the coefficients of the order of EORD. -/
def Hart.unitsOf (h : Hart) (p : Pipe) (u : Uses) (x : Fetched) : Nat :=
  let chunks (n : Nat) : Nat := max 1 ((n + 31) / 32)
  match p with
  | .tile => ((tileSteps h.shape (max 1 h.grant.toNat) x).map (·.2)).getD 1
  | .xexp =>
    if u.vr.length = 3 then chunks h.span * chunks h.span
    else if u.vr ≠ [] then chunks h.span
    else if u.gr.length = 1 then 24
    else if u.gr ≠ [] then 1
    else if u.er.length = 1 then chunks (xCount (fld h.eord 0 4))
    else chunks (xCount (xP (h.ereg ((u.ew.head?).getD 0))))
  | .lanes | .special | .memory => max 1 h.stripGroups

/-- Writes a timeline event of the hart `h0` as it was at the issue of an instruction. -/
def State.eventOf0 (s : State) (h0 : Hart) (p : Pipe) (isEnd : Bool) (pc : Word) (at_ : Nat) : State :=
  { { s with h := h0 }.traceEvent p isEnd pc at_ with h := s.h }

/-- A hart of the core has issued an instruction: slots that yield to it wait for it no more (R322). -/
def State.issued (s : State) (id : HartId) : State :=
  let go (h : Hart) : Hart :=
    if h.yielding ≠ [] ∧ coreOf h.id = coreOf id then { h with yielding := h.yielding.filter (· != slotOf id) } else h
  { s with others := s.others.map go }

/-- The pipe in which the begin event of the instruction at the PC stands without an end event. -/
def Hart.begunAt (h : Hart) (pc : Word) : Option Pipe := (h.resume.find? fun r => r.pc == pc).bind (·.begun)

/-- The begin event of an instruction of the hart `h0`, unless it was written before a wait. -/
def State.beginOnce (s : State) (h0 : Hart) (p : Pipe) (pc : Word) : State :=
  if (h0.begunAt pc).isSome then s else s.eventOf0 h0 p false pc (h0.eventAt p h0.start)

/-- The instruction at the PC stands part-way, for a register or for its next unit: a hit that it has made is due once it completes
(R388), its begin event is written once it has gone on (R308), and what it has written whole is good (R383). -/
def State.stopped0 (s : State) (h0 : Hart) (u : Uses) (x : Fetched) : State :=
  let seen := match s.h.watch with | some a => some a | none => s.h.watchHeld
  let s := { s with h := { s.h with watch := h0.watch, watchHeld := if s.h.watch = h0.watch then s.h.watchHeld else seen } }
  match u.pipe with
  | some p =>
    if s.h.start = h0.start ∧ !h0.resuming then s
    else
      let t := s.beginOnce h0 p x.pc
      { t with h := { t.h with
        bad := h0.stillBad t.h u x.len x.bits s.h.start
        resume := t.h.resume.map fun r => if r.pc = x.pc then { r with begun := some p } else r } }
  | none => s

/-- The register groups of the destinations of an instruction for which something is still to come. -/
def Hart.awaiting (h : Hart) (u : Uses) : List Regs :=
  let g := h.grp
  (u.vw.flatMap fun r => (List.range ((r.2 + g - 1) / g)).map fun i => (r.1 + g * i, min g (r.2 - g * i))).filter fun r => (h.emptyIn [r]).isSome

/-- After the instruction `x` of the hart `h0` has completed: hits that it made before it was interrupted are due, interrupted work that
has completed is settled, registers that it has written are good, and the queue takes it. -/
def State.completed (s : State) (h0 : Hart) (u : Uses) (x : Fetched) : State :=
  let s := { s with h := { (s.h.goneOn u.indexed (some x.pc)) with
    landAt := none
    watch := match s.h.watch with | some a => some a | none => s.h.watchHeld
    watchHeld := none
    bad := h0.stillBad s.h u x.len x.bits (2 ^ 64) } }
  match u.pipe with
  | some p =>
    let q : Queued := ⟨x.pc, p, h0.unitsOf p u x, h0.eventAt p h0.start, 0, (h0.begunAt x.pc).isSome, none, 0, s.h.awaiting u⟩
    { s with h := { s.h with vq := s.h.vq ++ [q], tileTag := if p = .tile then s.h.cptag else s.h.tileTag } }
  | none => s

/-- After a trap at the instruction `x` of the hart `h0`: what it has written whole is good, and it has its end event when it is part-way,
as have the members of its convoy that have begun (R308, R383). What a machine check's instruction and the members of its convoy name
as destinations is lost, but for a CSR that the trap has written since (R385, log 29). -/
def State.stoppedAt (s : State) (h0 : Hart) (u : Uses) (x : Fetched) : State :=
  let w : Who := ⟨h0.ptbr, h0.lvl, s.myCore⟩
  let s := if s.h.ecause = 0x13 then
      (s.loseUses { u with csr := u.csr.filter fun c => !trapWords.contains (1, 64 + c) } x.len x.bits).loseMembers w (h0.team.filter fun r => r.pc != x.pc)
    else { s with h := { s.h with bad := h0.stillBad s.h u x.len x.bits s.h.eix.toNat } }
  let s := match u.pipe with
    | some p => if s.h.part || (h0.begunAt x.pc).isSome then (s.beginOnce h0 p x.pc).eventOf0 h0 p true x.pc (h0.eventAt p s.h.eix.toNat) else s
    | none => s
  { ({ s with h := h0 }.endPoints (h0.resume.filter fun r => r.pc != x.pc)) with h := s.h }

/-- After the instruction `x` of the hart `h0` has run. -/
def State.finish (s : State) (h0 : Hart) (u : Uses) (x : Fetched) : State :=
  if s.h.id ≠ h0.id then s
  else if s.trapped then s.stoppedAt h0 u x
  else
    match s.h.slot with
    | .free => s
    | .wait (.reg ..) _ => s.stopped0 h0 u x
    | .wait .. => s
    | .run => if u.pipe.isSome ∧ s.h.pc = x.pc then s.stopped0 h0 u x else s.completed h0 u x

/-- Whether an instruction is a tile instruction whose units may take effect in the sequencer: TMMA, TLDA, TSTA or TADD (R194). -/
def Fetched.deferrable (x : Fetched) : Bool := ([3, 4, 5, 6] : List Nat).contains (tileOpOf x.len x.bits)

/-- A tile instruction enters the queue with its units still to run (log 5). -/
def State.queueTile (s : State) (u : Uses) (x : Fetched) : State :=
  let q : Queued := ⟨x.pc, .tile, s.h.unitsOf .tile u x, 0, 0, false, some (BitVec.ofNat 64 x.bits), 0, []⟩
  { s with h := { s.h with vq := s.h.vq ++ [q], tileTag := s.h.cptag, landAt := none } }.adv 8

/-- The instruction at the PC with the position of an instruction that has none (R361, Table 20-1). -/
def Hart.afresh (h : Hart) : Hart :=
  if h.resume = [] then h
  else { h with resume := h.resume.map fun r => if r.pc = h.pc then { r with at_ := 0 } else r }

/-- The effect of the instruction `i`, of the bits `x`. A machine check of the unit behind the one at which a pre-emption would land
comes first, and the pre-emption stays pending (R368, R386). -/
def State.effect (s : State) (u : Uses) (i : Instr) (x : Fetched) : Result :=
  let run (s : State) : Result := s.runConsuming u x.len x.bits (exec i s)
  match run s with
  | .next t =>
    if t.trapped && t.h.ecause == 0x12 && s.mayFail then
      match run { s with h := { s.h with landAt := s.h.landAt.map (· + 1) } } with
      | .next v => .next (v.checked.getD t)
      | _ => .next t
    else .next t
  | y => y

/-- Runs an instruction that has been fetched and decoded (`x`), on the hart that moves. A full queue makes it wait for room (R285).
While tile instructions stand in the queue with units to run, only such instructions and TSYNC issue (log 5). -/
def State.runInstr (s : State) (i : Instr) (x : Fetched) : Result :=
  let u := usesOf s.useCtx x.len x.bits
  let tsync := tileOpOf x.len x.bits == 7
  let s := { s with ir := BitVec.ofNat 64 x.bits }
  if u.pipe.isSome && decide (16 ≤ s.h.vq.length) then .next s.headMove
  else if s.h.defer && x.deferrable && s.h.resume == [] then .next ((s.queueTile u x).issued s.h.id)
  else if s.h.deferring && !tsync then .next s.headMove
  else
    let h := if u.pipe.isSome || u.goesOn then s.h else s.h.afresh
    let s := { s with h := { h with defer := s.h.defer && (tsync || x.deferrable) } }
    s.afterQueue fun s =>
      match s.effect u i x with
      | .next t => .next ((t.finish s.h u x).issued s.h.id)
      | y => y

/-- Issues the instruction at the PC: its fetch, its decoding, and its run (R49, R50, R63). -/
noncomputable def State.issueNext (s : State) : Result :=
  match s.fetch s.who s.h.pc with
  | .error f => if s.h.deferring then .next s.headMove else s.interrupt.trap (s.h.trapHere f.cause f.eaddr)
  | .ok (ps, s) =>
    match decodeParcels ps with
    | none =>
      if s.h.deferring then .next s.headMove
      else s.interrupt.trap { cause := 0x01, eaddr := BitVec.ofNat 64 (joinParcels ps), replay := s.h.replay && s.h.resuming }
    | some i => s.runInstr i (fetchedOf s.h.pc ps)

/-! ### A resumed convoy (R290, R363, R364, R386, R419) -/

/-- A trap of member `j` of the convoy of the hart `h0`: EPC is the head, ECONV holds what the bounds of R419 let it hold, CMEM names the
member, and EIX is its position. A machine check loses what all of them write, and does not resume (R363, R384 to R386). The other
members that have begun have their end events (R308), and the part holds on to what these registers do not record (log 53). -/
def State.memberTrap (s : State) (h0 : Hart) (w : Who) (j : Nat) : State :=
  let h := s.h
  let at_ := (h0.team[j]?.map (·.pc)).getD h0.pc
  let s := { ({ s with h := h0 }.endPoints (h0.resume.filter fun r => r.pc != at_)) with h := h }
  let points (rs : List Resume) : List Resume := rs.map fun r => { r with begun := none }
  if h.ecause = 0x13 then
    -- the members behind it are lost already, with what the failing one names
    let t := s.loseMembers w (h0.team.take j)
    let g := { t.h with epc := h0.pc, econv := 0 }
    { t with h := { g with shelf := g.shelve [] none false h0.shelf } }
  else
    let g := h0.groupElems
    let team := h0.team.mapIdx fun i r => if i = j then { r with at_ := h.eix.toNat } else r
    -- the member that has trapped need not stand at the end of an element group
    let ends (r : Resume) : Resume := { r with at_ := r.at_ / g * g }
    let n := max (j + 1) <| 1 + (recordable g (h0.start / g) ((team.mapIdx fun i r => if i = j then ends r else r).drop 1)).length
    let kept := team.drop n ++ (team.take n).mapIdx (fun i r => if i = j then { r with prior := 0 } else r) |>.filter fun r =>
      r.lvd.isSome || r.prior != 0 || (team.drop n).contains r
    let kept := kept ++ h0.resume.filter fun r => !r.member
    let hit := h.shelf.head?.bind fun x => if x.epc = at_ then x.watch else none
    let x := { h with
      epc := h0.pc
      econv := BitVec.ofNat 64 (econvOf h0.pc g ((team.take n).take 4))
      estatus := setFld (setFld h.estatus 5 1 1) 20 2 j }
    { s with h := { x with shelf := x.shelve (points kept) (match hit with | some a => some a | none => h0.watchHeld) true h0.shelf } }

/-- The register that LVD names for the instruction behind the one at `pc` (R59). -/
def State.lvdAfter (s : State) (pc : Word) : Word :=
  match s.fetch s.who pc with
  | .error _ => s.h.lvd
  | .ok (ps, _) =>
    match (usesOf s.useCtx ps.length (joinParcels ps)).vw with
    | [] => s.h.lvd
    | r :: _ => BitVec.ofNat 64 r.1

/-- Member `j` of the convoy, at `r`, runs to the end of its element group behind the one before it, at `prev`; what the members have
loaded has arrived (R290). A pre-emption lands at the head alone. -/
noncomputable def State.memberTurn (s : State) (j : Nat) (prev r : Resume) : Result :=
  let h := s.h
  let g := h.settleAll
  -- the members behind it have raised what they have raised (R115)
  let later : List Resume := (h.team.drop (j + 1)).map fun x => { x with begun := none }
  let s1 : State := { s with h := { g with
    pc := r.pc
    slot := .run
    lvd := s.lvdAfter prev.pc
    resume := r :: later
    landAt := none
    watch := none
    quota := some ((r.at_ / h.groupElems + 1) * h.groupElems, none) } }
  match s1.issueNext with
  | .next t =>
    if t.trapped then .next (t.memberTrap h s.who j)
    else
      let t := t.fillAwaited
      let now := (t.h.resume.head?).getD r
      .next { t with h := { t.h with
        pc := h.pc
        slot := h.slot
        lvd := h.lvd
        resume := h.resume.map fun x => if x.pc = r.pc then now else x
        landAt := h.landAt
        watch := h.watch
        quota := none } }
  | y => y

/-- The turn of member `j` of the convoy whose head stands at the PC. -/
noncomputable def State.turnOf (s : State) (j : Nat) : Result :=
  match s.h.team[j - 1]?, s.h.team[j]? with
  | some p, some r => s.memberTurn j p r
  | _, _ => s.issueNext

/-- Issues the instruction at the PC of the hart that moves. One that is the head of a resumed convoy keeps no more than two element
groups before the second of the members that can go on beside it, whose turn comes when the head has come so far (R290, R419); the
others follow in program order (R364). -/
noncomputable def State.issueTurn (s : State) : Result :=
  let h := s.h
  if !h.heads then s.issueNext
  else
    let cs := s.fellows.map fun r => r.at_ / h.groupElems
    match cs with
    | c0 :: c1 :: _ =>
      if h.stripGroups ≤ c1 + 2 then s.issueNext
      else if c0 < c1 + 2 then { s with h := { h with quota := some ((c1 + 2) * h.groupElems, none) } }.issueNext
      else match lastToGo cs with | none => s.issueNext | some j => s.turnOf j
    | _ => s.issueNext

/-! ### Boundaries (R71, R72, R97, R368, R386, R388) -/

/-- A machine check that was held is taken (R386), with the end events of what it interrupts (R308); a BAR that waits loses its
destination, a convoy what its members name, and registers what was to come over a narrows link that has failed (R353, R385). -/
def State.mcheckDue (s : State) (x : Word) : Result :=
  if s.h.deferring then .next s.headMove
  else
    let s := match s.h.slot with
      | .wait (.bar d ..) _ => (s.loseG d 0x13).unwatch
      | .wait (.gang ..) _ => s.leaveGang
      | .wait .. => s.unwatch.leaveFifos
      | _ => s
    let s := { s with h := { s.h with mcheck := none } }.interrupt
    let s := { s.endTsync with h := s.h }
    let s := s.loseMembers s.who s.h.team
    (if fld x 56 8 = 10 then s.loseEmpty else s).trap { cause := 0x13, eaddr := x }

/-- A machine check that the next instruction raises within its first unit; it comes before what else is due at the boundary (R386). -/
noncomputable def State.nextCheck (s : State) : Option Result :=
  let h := s.h
  if !s.mayFail then none
  else match { s with h := { h with preq := true, landAt := some 1, estatus := setFld h.estatus 18 1 0 } }.issueNext with
    | .next t => t.checked.map fun t => .next { t with h := { t.h with preq := h.preq } }
    | _ => none

/-- The hart that moves, in RUN: a member of a resumed convoy that stands within an element group completes it, what is due at the
boundary comes next, then its next instruction. -/
noncomputable def State.runMove (s : State) : Result :=
  let s := { s with h := s.h.goneOn false }
  match s.laggard, s.due with
  | some j, _ => s.turnOf j
  | none, (some r, t) => (t.nextCheck).getD r
  | none, (none, s) =>
    if s.h.paused then .next { s with h := { s.h with paused := false } }
    else
      let s := s.yieldCheck
      if s.h.yielding ≠ [] then .next s else s.issueTurn

/-! ### Waits (R11, R12) -/

/-- A copy channel of a core does what comes next. -/
def State.channelMove (s : State) (core : BitVec 10) (c : BitVec 3) : Result :=
  match (s.chan core c).queue with
  | [] => .next s
  | t :: _ => if t.outcome.isSome then execCopyComplete core c s else execCopyTransferStart core c s

/-- The lowest channel of a core that has a transfer. -/
def Core.busyChannel (k : Core) : Option (BitVec 3) :=
  ([0, 1, 2, 3, 4, 5, 6, 7] : List (BitVec 3)).find? fun c => !(k.chans[c.toNat]'c.isLt).queue.isEmpty

/-- The first channel of the core that has a transfer does what comes next. -/
def State.anyChannel (s : State) : Result :=
  match (s.core s.myCore).busyChannel with
  | none => .next s
  | some c => s.channelMove s.myCore c

/-- The lowest core that has a transfer, with its channel. -/
def State.busyEngine (s : State) : Option (BitVec 10 × BitVec 3) :=
  s.cores.findSome? fun (p : Nat × Core) => p.2.busyChannel.map fun c => (BitVec.ofNat 10 p.1, c)

/-- What fills the register that the hart that moves waits for: its producer, and for a gang stream the fetch first. -/
def State.produce (s : State) (r : BitVec 5) : Result :=
  match s.h.full[r.toNat]'r.isLt with
  | .empty p =>
    match p.by_, s.gangOf s.h.id with
    | .gang n _, some g => if (s.coming r p).isSome then .next s.fillAwaited else execGangStreamFetch s.myCluster g.cores n s
    | _, _ => .next s.fillAwaited
  | .full => .next s.fillAwaited

/-- The hart that moves, in WAIT: it leaves on its condition, a timeout or a pre-emption; otherwise what it waits for moves. -/
noncomputable def State.waitMove (s : State) : Result :=
  if s.h.mayPreempt && (match s.h.slot with | .wait (.qpush _) _ => false | _ => true) then s.landInWait
  else match s.h.slot with
    | .wait (.bar ..) _ => .next s.barTry
    | .wait (.waita ..) _ => if s.waitaReady || s.timedOut then s.afterQueue State.waitaWake else .next s
    | .wait (.chwaitRec ..) _ => if s.chwaitReady || s.timedOut then s.afterQueue State.chwaitWake else s.anyChannel
    | .wait (.chwaitId _ c _) _ => if s.chwaitReady || s.timedOut then s.afterQueue State.chwaitWake else s.channelMove s.myCore c
    | .wait (.qpop ..) _ => if s.qpopReady || s.timedOut then s.afterQueue State.qpopWake else .next s
    | .wait .tsync _ => .next (if s.h.tilePending then s.headMove else s.tsyncReturn)
    | .wait (.copy _ t) _ => if 16 ≤ (s.chan s.myCore t.ch).queue.length then s.channelMove s.myCore t.ch else s.copyRoom
    | .wait (.gang ..) _ => s.timeout
    | .wait (.vacq ..) _ => .next s.vacqTry
    | .wait (.ctxload _) _ => s.afterQueue State.ctxloadWake
    | .wait (.wfi _) _ => .next s.wfiWake
    | .wait (.reg r _ _ here) _ => if here || s.h.isFull r.toNat then s.issueTurn else s.produce r
    | .wait (.qpush _) _ => .next s
    | .free => .next s
    | .run => .next s

/-- One move of the hart that moves, in a cluster that runs: its wait, or what is next at its PC. -/
noncomputable def State.ownTurn (s : State) : Result :=
  match s.h.slot with
  | .free => .next s
  | .run => match s.h.mcheck with | some x => s.mcheckDue x | none => s.runMove
  | .wait .. => match s.h.mcheck with | some x => s.mcheckDue x | none => s.waitMove

/-- One move of the hart that moves. In a cluster that stops, what is in execution finishes; in a frozen one nothing moves (R389). -/
noncomputable def State.hartMove (s : State) : Result :=
  match (s.cluster s.myCluster).freeze with
  | .stopping =>
    if s.h.vq.any (·.todo.isNone) then .next s.headMove
    else if s.h.inExecution then s.ownTurn
    else execClusterFrozen s.myCluster s
  | .frozen => .next s
  | .running => s.ownTurn

/-! ### Which agent moves (log 3) -/

/-- A step that the opcode table lists without an encoding, and that is no CSR write: a CSR write is the instruction's. -/
def isEvent : Instr → Bool
  | .clusterFrozen .. | .dumpComplete | .preemption .. | .waitTimeout .. | .barDeparture .. | .waitaWake .. | .chwaitReturn .. => true
  | .qpopWake .. | .qpushReply .. | .tsyncReturn .. | .copyChannelRoom .. | .gangFormed .. | .vacqGrant .. | .ctxloadGrant .. => true
  | .wfiWake .. | .registerWaitEnd .. | .producerArrival .. | .vectorQueueRoom .. | .pauseEnd .. | .yieldEnd .. => true
  | .laneBinding .. | .sequencerUnit .. | .streamPrefetch .. | .gangStreamFetch .. | .copyTransferStart .. | .copyComplete .. => true
  | .hartPlacement .. | .launchComplete .. | .launchRequest .. | .governorCapChange .. | .trafficCounterWrite .. => true
  | .straitBarArrival .. | .straitBarDeparture .. | .straitQueuePush .. | .straitCopyWrite .. | .straitFlitReplay .. => true
  | .straitPortLost .. | .narrowsLinkFailed .. | .hostHdmRead .. | .hostHdmWrite .. | .getEventRecords .. | .getFwInfo .. => true
  | .transferFw .. | .activateFw .. | .identifyMemoryDevice .. | .setLaunchQueue .. | .readSensors .. | .readLog .. => true
  | .getAttestationReport .. | .setFleetGroup .. | .sensorRefresh | .hbmPatrolScrub .. | .thermalTrip | .packageReset => true
  | .firmwareBoot | .hostLineCacheSnoop .. | .narrowsFlitReplay .. | .straitRecordFetch .. => true
  | _ => false

/-- The hart that an event moves out of its wait, or whose slot it lets go on. -/
def eventHart : Instr → Option HartId
  | .barDeparture h | .waitaWake h | .chwaitReturn h | .qpopWake h | .qpushReply h _ | .tsyncReturn h | .copyChannelRoom h => some h
  | .vacqGrant h | .ctxloadGrant h | .wfiWake h | .pauseEnd h | .yieldEnd h | .streamPrefetch h _ => some h
  | _ => none

/-- Whether Tabos or the host link goes on with an event after a thermal trip has stopped the islands (R357). -/
def outlivesTrip : Instr → Bool
  | .getEventRecords .. | .getFwInfo .. | .transferFw .. | .activateFw .. | .identifyMemoryDevice .. | .readSensors .. => true
  | .readLog .. | .getAttestationReport .. | .sensorRefresh | .packageReset | .setLaunchQueue .. | .setFleetGroup .. => true
  | _ => false

/-- An event takes place, unless it would move a hart of a frozen cluster (R389). -/
def State.eventMove (s : State) (i : Instr) : Result :=
  if !isEvent i || (s.stopped && !outlivesTrip i) then .next s
  else match eventHart i with
    | some h =>
      if s.gated h then .next s
      else match exec i s with
        | .next t => if t.trapped && (s.hart h).vq != [] then exec i (s.onHart h State.finishQueue) else .next t
        | y => y
    | none => exec i s

/-- An entry of a list is taken out. -/
def dropAt {α : Type} (n : Nat) (xs : List α) : List α := xs.take n ++ xs.drop (n + 1)

/-- The agent that the agenda names moves. -/
noncomputable def State.move (s : State) : Input → Result
  | .event i => s.eventMove i
  | .hart h => if s.stopped then .next s else s.onHartR h State.hartMove
  | .evict c n =>
    let k := s.core c
    let cl := clusterOf c
    let x := s.cluster cl
    .next (if n < 64 then s.setCore c { k with tlb := dropAt n k.tlb } else s.setCluster cl { x with tlb := dropAt (n - 64) x.tlb })
  | .outOfBand isl i => if s.stopped && !outlivesTrip i then .next s else s.outOfBand isl i
  | .defer h => .next (if s.slotFree h then s else s.onHart h fun s => { s with h := { s.h with defer := true } })
  | .assignPackage n => .next { s with tabos := { s.tabos with pkg := n } }
  | .route dest port =>
    .next { s with tabos := { s.tabos with routes := (dest, port) :: s.tabos.routes.filter fun r => r.1 != dest } }
  | .delivered n => .next { s with outbox := if (s.outbox[n]?).any StraitMsg.ofBar then dropAt n s.outbox else s.outbox }
  | .loadModule ptbr table ibt =>
    let rest := s.tabos.modules.filter fun m => !(m.1 == ptbr && m.2.1 == table)
    .next { s with tabos := { s.tabos with modules := (ptbr, table, ibt) :: rest } }
  | .correctable isl => .next (s.setIsland isl { s.island isl with corrected := (s.island isl).corrected + 1 })
  | .corrupt key => .next { s with badMem := insertNat (key / 8) s.badMem }
  | .corruptReg h code idx =>
    if s.slotFree h then .next s
    else .next (s.onHart h fun s =>
      if s.h.bad.contains (code, idx) then s else { s with h := { s.h with bad := s.h.bad ++ [(code, idx)] } })

/-- The turn passes to the next hart that is not FREE, by rising number. -/
def State.rotate (s : State) : State :=
  match s.others.find? fun h => decide (s.h.id < h.id) with
  | some h => s.focus h.id
  | none => match s.others with | [] => s | h :: _ => s.focus h.id

/-- The hart whose turn it is moves and passes the turn on, also when an access has to wait. -/
noncomputable def State.hartTurn (s : State) : Result :=
  let s := if s.h.slot = .free then s.rotate else s
  match s.hartMove with
  | .next t => .next (if t.stall then s else t).rotate
  | y => y

/-- The copy channel whose turn it is: each fourth step is one of an engine that has a transfer (log 3). -/
def State.engineTurn (s : State) : Option (BitVec 10 × BitVec 3) := if s.ticks % 4 = 3 then s.busyEngine else none

/-- The step with an empty agenda: firmware boots, or a copy engine or a hart moves. -/
noncomputable def State.ownMove (s : State) : Result :=
  if s.booting then execFirmwareBoot s
  else match s.engineTurn with
    | some (k, c) => s.channelMove k c
    | none => s.hartTurn

/-- Time goes on (R306): the step has lasted some cycles. A step with an access that has to wait did not take place (R389). -/
def State.tick (s t : State) : State :=
  let t := if t.stall then s else t
  { t with clk := t.clk + Config.stepCycles s.ticks, ticks := s.ticks + 1, stall := false, trapped := false }

/-! ### Placing an instruction where the next step fetches (log 8) -/

/-- Stores parcels little-endian from a key. -/
def putParcels (m : Memory) (key : Nat) : List (BitVec 16) → Memory
  | [] => m
  | p :: ps => putParcels (Memory.write m key 2 p.toNat) (key + 2) ps

/-- The PC at which a hart can fetch: its own, unless that is odd, outside the translated range or within 8 bytes of the end of a
2 MiB page. -/
def fetchPc (pc : Word) : Word :=
  if pc.getLsbD 0 ∨ 0x000FFFFE00000000 ≤ pc.toNat + 8 ∨ 0x1FFFF8 < pc.toNat % 0x200000 then 0 else pc

/-- A table entry that points to the table in HBM at `pa` (R334). -/
def tablePte (pa : Nat) : Nat := 1 + pa / 0x1000 * 2 ^ 17

/-- A leaf of 2 MiB at `pa` in island `i`'s HBM that can be read and fetched (Table 18-4). -/
def leafPte (pa : Nat) (i : BitVec 3) (user : Bool) : Nat :=
  1 + 2 ^ 1 + 2 ^ 3 + user.toNat * 2 ^ 4 + 2 ^ 6 + 9 * 2 ^ 8 + i.toNat * 2 ^ 14 + pa / 0x1000 * 2 ^ 17

/-- Memory with `ps` at `pc`, and tables that map the page of `pc` to HBM of island `i`. -/
def mapped (m : Memory) (i : BitVec 3) (user : Bool) (pc : Nat) (ps : List (BitVec 16)) : Memory :=
  let base := i.toNat * 0xC00000000
  let m := Memory.write m (base + 0x10000 + 8 * bits pc 39 13) 8 (tablePte (base + 0x20000))
  let m := Memory.write m (base + 0x20000 + 8 * bits pc 30 9) 8 (tablePte (base + 0x21000))
  let m := Memory.write m (base + 0x21000 + 8 * bits pc 21 9) 8 (leafPte (base + 0x200000) i user)
  putParcels m (base + 0x200000 + pc % 0x200000) ps

/-- PTBR of those tables (Table 18-3), with the ASID of `old`. -/
def mappedPtbr (old : Word) (i : BitVec 3) : Word :=
  BitVec.ofNat 64 (1 + (i.toNat * 0xC00000000 + 0x10000) / 0x10000 * 2 ^ 16 + fld old 52 12 * 2 ^ 52)

/-- The hart that moves is in RUN with nothing due at the boundary, and the parcels stand at its PC. -/
def State.place (s : State) (ps : List (BitVec 16)) : State :=
  let h := s.h
  let isl := s.myIsland
  let pc := fetchPc h.pc
  let i := s.island isl
  let s := s.setIsland isl { i with atoll := if s.inAtoll isl isl.toNat then i.atoll else BitVec.ofNat 64 (isl.toNat * 4) }
  let s := s.setCore s.myCore { s.core s.myCore with tlb := [] }
  let s := s.setCluster s.myCluster { s.cluster s.myCluster with tlb := [], freeze := .running }
  { s with
    stopped := false
    booting := false
    agenda := []
    ticks := 0
    badMem := []
    mem := mapped s.mem isl (h.lvl == .user) pc.toNat ps
    h := { h with
      slot := .run
      pc := pc
      ptbr := mappedPtbr h.ptbr isl
      preq := false
      landAt := none
      watch := none
      watchHeld := none
      advisory := none
      branch := none
      mcheck := none
      resume := []
      quota := none
      defer := false
      paused := false
      yielding := []
      vq := []
      bad := [] } }

end Sys2Proof.Machine
end

