-- ==== Sys2Proof/Machine/Step.lean ====
section
/-! DEFINITION. One step of the part, and a word placed where the next step fetches it. -/

noncomputable section

namespace Sys2Proof.Machine

/-- One step: the agent that the agenda names moves, or with an empty agenda the hart whose turn it is (log 3). After a thermal
trip only what does not need the island clocks goes on, and with nothing left to do the part stands still (R357). -/
def step (s : State) : Host.Outcome State Fault Refusal :=
  let go (s : State) (r : Result) : Result := match r with | .next t => .next (s.tick t) | y => y
  match s.agenda with
  | x :: xs => go { s with agenda := xs } ({ s with agenda := xs }.move x)
  | [] => if s.stopped then .fault .clocksStopped else go s s.ownMove

/-- The table's word placed at the PC (log 8). -/
def State.withFetchWord (s : State) (nbits w : Nat) : State := s.place (parcelsOf (tableCode nbits w))

end Sys2Proof.Machine

end
end

