-- ==== Sys2Proof/Safety.lean ====
section
/-! DEFINITION. What counts as a safe run: steps that neither fault nor are refused. And the words in which the statements for
the provers speak of what an instruction reads, writes and leaves alone. -/

noncomputable section

namespace Sys2Proof.Safety

open Sys2Proof.Machine

/-- `t` is reached from `s` in `n` steps, none of which faults or is refused. -/
def Reaches : Nat → State → State → Prop
  | 0, s, t => s = t
  | n + 1, s, t => ∃ u, step s = .next u ∧ Reaches n u t

/-- Every run of `n` steps from `s` goes on. -/
def SafeFor (n : Nat) (s : State) : Prop := ∃ t, Reaches n s t

/-! ### Frames -/

/-- Every byte of memory outside the `n` bytes from `key` reads in `t` as in `s`. -/
def MemExcept (s t : State) (key n : Nat) : Prop :=
  ∀ a, a < key ∨ key + n ≤ a → Memory.byte t.mem a = Memory.byte s.mem a

/-- Every byte of memory reads in `t` as in `s`. -/
def SameMem (s t : State) : Prop := ∀ a, Memory.byte t.mem a = Memory.byte s.mem a

/-- gd takes `x` (g0 reads 0 still) and every other g register reads in `t` as in `s`. -/
def PutsG (s t : State) (d : BitVec 5) (x : Word) : Prop :=
  ∀ r : BitVec 5, t.getG r = if r = 0 then 0 else if r = d then x else s.getG r

/-- `t` differs from `s` only in the g registers and the PC of the hart that moves, and in what an access leaves besides its bytes: TLBs
(R339), host lines (R47), traffic counters (R309), a watch hit whose trap is due (R388), mappings of signal pages in use and tags (R300),
and what a WAITA of another hart has seen (R317). -/
def AccessFrame (s t : State) : Prop :=
  t = { s with
    h := { s.h with g := t.h.g, pc := t.h.pc, watch := t.h.watch }
    cores := t.cores, clusters := t.clusters, islands := t.islands
    mem := t.mem, badMem := t.badMem, dones := t.dones, tags := t.tags, signalMaps := t.signalMaps, watches := t.watches } ∧
  (∀ c, t.core c = { s.core c with tlb := (t.core c).tlb }) ∧
  (∀ c, t.cluster c = { s.cluster c with tlb := (t.cluster c).tlb }) ∧
  (∀ i, t.island i = { s.island i with rd := (t.island i).rd, wr := (t.island i).wr, lines := (t.island i).lines })

/-- The tags after an access at a place, but for the tag that the access itself may set (R300): where its page is of signal type and no
mapping in use shares a frame with it, the page is mapped afresh and its tags are 0. -/
def tagsAt (s : State) (p : Place) : List (Nat × BitVec 48) :=
  match p.leaf with
  | none => s.tags
  | some e =>
    let f := frameAddr (fld e.pte 17 31)
    if p.signal = true ∧ ∀ m ∈ s.signalMaps, m.frame + 2 ^ m.log2 ≤ f ∨ f + 2 ^ e.log2 ≤ m.frame then
      s.tags.filter fun t => decide (t.1 < f / 8) || decide ((f + 2 ^ e.log2) / 8 ≤ t.1)
    else s.tags

/-- The little-endian number in the `n` bytes from `key`. -/
def leNat (s : State) (key n : Nat) : Nat := ((List.range n).map fun j => (Memory.byte s.mem (key + j)).toNat * 256 ^ j).sum

/-- The access of the kind to `n` bytes at `va` by the hart that moves is performed at `p`: aligned, translated and allowed, no word of
it failing its check, and not held off by a frozen cluster. -/
def Reaching (s : State) (k : AccKind) (dev : Bool) (va : Word) (n : Nat) (p : Place) : Prop :=
  va.toNat % n = 0 ∧ s.translate s.who k dev va = .ok p ∧ s.failing p.key n = false ∧ s.heldOff s.myCore p = false

/-! ### Scalar memory instructions -/

/-- Bytes of a width code (Table 3-6 and R98): 1, 1, 2, 2, 4, 4, 8. -/
def codeBytes (w : BitVec 3) : Nat := if w.toNat < 2 then 1 else if w.toNat < 4 then 2 else if w.toNat < 6 then 4 else 8

/-- A scalar load as (gd, width code, address, bytes of the instruction). -/
def scalarLoad (s : State) : Instr → Option (BitVec 5 × BitVec 3 × Word × Nat)
  | .lds d b w i => some (d, w, s.getG b + i.signExtend 64, 4)
  | .ldo d a o sc w => if 1 < o.toNat ∨ sc = 5 then none else some (d, w, s.getG a, 4)
  | .cLd d b i => some (4 + d.setWidth 5, 6, s.getG (4 + b.setWidth 5) + BitVec.ofNat 64 (8 * i.toNat), 2)
  | _ => none

/-- A scalar store as (value, width code, address, bytes of the instruction, release). -/
def scalarStore (s : State) : Instr → Option (Word × BitVec 3 × Word × Nat × Bool)
  | .sts g b w i => some (s.getG g, w, s.getG b + i.signExtend 64, 4, false)
  | .sto a b o sc w => if o = 1 ∨ o = 3 ∨ sc = 5 then none else some (s.getG b, w, s.getG a, 4, o = 2)
  | .cSt x b i => some (s.getG (4 + x.setWidth 5), 6, s.getG (4 + b.setWidth 5) + BitVec.ofNat 64 (8 * i.toNat), 2, false)
  | _ => none

/-- An atomic as (gd, address register, operand register, ord, scope, bytes, new value from the old one and the operand). -/
def atomicOf (s : State) : Instr → Option (BitVec 5 × BitVec 5 × BitVec 5 × BitVec 2 × BitVec 3 × Nat × (Nat → Nat → Option Nat))
  | .amoAdd d a b o c => some (d, a, b, o, c, 8, fun x y => some ((x + y) % 2 ^ 64))
  | .amoAnd d a b o c => some (d, a, b, o, c, 8, fun x y => some (x &&& y))
  | .amoOr d a b o c => some (d, a, b, o, c, 8, fun x y => some (x ||| y))
  | .amoXor d a b o c => some (d, a, b, o, c, 8, fun x y => some (x ^^^ y))
  | .amoMin d a b o c => some (d, a, b, o, c, 8, fun x y => some (if toSigned 64 x < toSigned 64 y then x else y))
  | .amoMax d a b o c => some (d, a, b, o, c, 8, fun x y => some (if toSigned 64 y < toSigned 64 x then x else y))
  | .amoSwap d a b o c => some (d, a, b, o, c, 8, fun _ y => some y)
  | .amoCas d a b o c => some (d, a, b, o, c, 8, fun x y => if x = (s.getG d).toNat then some y else none)
  | .amowAdd d a b o c => some (d, a, b, o, c, 4, fun x y => some ((x + y) % 2 ^ 32))
  | .amowAnd d a b o c => some (d, a, b, o, c, 4, fun x y => some (x &&& y))
  | .amowOr d a b o c => some (d, a, b, o, c, 4, fun x y => some (x ||| y))
  | .amowXor d a b o c => some (d, a, b, o, c, 4, fun x y => some (x ^^^ y))
  | .amowMin d a b o c => some (d, a, b, o, c, 4, fun x y => some (if toSigned 32 x < toSigned 32 y then x else y))
  | .amowMax d a b o c => some (d, a, b, o, c, 4, fun x y => some (if toSigned 32 y < toSigned 32 x then x else y))
  | .amowSwap d a b o c => some (d, a, b, o, c, 4, fun _ y => some y)
  | .amowCas d a b o c => some (d, a, b, o, c, 4, fun x y => if x = (s.getG d).toNat % 2 ^ 32 then some y else none)
  | _ => none

/-! ### Masks and CSRs -/

/-- kd takes `x` (a write to k0 is discarded) and every other mask reads in `t` as in `s`. -/
def PutsK (s t : State) (d : BitVec 5) (x : BitVec 8192) : Prop :=
  ∀ n < 24, t.h.getK n = if n = 0 then s.h.getK 0 else if n = d.toNat then x else s.h.getK n

/-- Failing words of registers (log 29): none but those of `s` fail in `t`, and of those only some of `ws` may have become good (R383). -/
def GoodAgain (s t : State) (ws : List (Nat × Nat)) : Prop :=
  (∀ b ∈ t.h.bad, b ∈ s.h.bad) ∧ ∀ b ∈ s.h.bad, b ∉ ws → b ∈ t.h.bad

/-- `t` is `s` after an instruction of `len` bytes that wrote no more than masks. -/
def MaskFrame (s t : State) (len : Nat) : Prop :=
  t = { s with h := { s.h with k := t.h.k, pc := s.h.pc + BitVec.ofNat 64 len } }

/-- Numbers, as Table 1-8 and Table 18-2 give them, and values of the CSRs of the hart that moves that hold a register of its own. -/
def hartCsrs (h : Hart) : List (BitVec 11 × Word) :=
  ([(0x000, h.vtype), (0x001, h.fillv), (0x002, h.rmode), (0x003, h.fst), (0x004, h.ffx), (0x005, h.efc), (0x006, h.lvd),
   (0x008, h.eord), (0x00C, h.twin[0]), (0x00D, h.twin[1]), (0x00E, h.twin[2]), (0x00F, h.twin[3]), (0x010, h.evx[0]),
   (0x011, h.evx[1])] : List (BitVec 11 × Word)) ++
  ([(0x012, h.evx[2]), (0x013, h.evx[3]), (0x014, h.evx[4]), (0x015, h.evx[5]), (0x016, h.evx[6]),
   (0x017, h.evx[7]), (0x018, h.evx[8]), (0x020, h.prog), (0x021, h.progaddr), (0x022, h.cptag), (0x024, h.wtmo),
   (0x200, h.id.setWidth 64), (0x201, h.idx[0]), (0x202, h.idx[1]), (0x203, h.idx[2]), (0x204, h.idx[3]), (0x205, h.idx[4]),
   (0x206, h.idx[5])] : List (BitVec 11 × Word)) ++
  ([(0x207, h.grant), (0x209, h.tshp), (0x219, h.depcnt), (0x400, h.epc), (0x401, h.eix), (0x402, h.ecause),
   (0x403, h.eaddr), (0x404, h.estatus), (0x405, h.econv), (0x406, h.tvec), (0x407, h.ptbr), (0x408, h.wshare), (0x40A, h.tseq),
   (0x40E, h.ctxa), (0x413, h.escr), (0x414, h.abictl), (0x600, h.fvec)] : List (BitVec 11 × Word))

/-- Numbers and values of every assigned CSR as the hart that moves reads it (Table 1-8, Table 18-2, R34, R369, Table 22-3). -/
def csrsOf (s : State) : List (BitVec 11 × Word) :=
  let c := s.core s.myCore
  let i := s.island s.myIsland
  let blocks := (List.range 3).countP fun b => s.h.held.getLsbD b
  let tiles := ([0, 1, 2, 3] : List (BitVec 2)).countP fun z => s.holdsZ z
  let sel := s.cluster s.dbgsel
  ([(0x208, BitVec.ofNat 64 s.clk), (0x218, BitVec.ofNat 64 (40960 + 32768 * (1 + blocks) + 132096 * tiles)), (0x409, c.lpart), (0x40B, i.cplog),
    (0x40C, i.cpthr), (0x40D, 0), (0x40F, s.dumpa), (0x410, s.dumpctl),
    (0x411, BitVec.ofNat 64 (s.dbgsel.toNat * 64 + (if sel.freeze = .frozen then 32 else 0) + (if sel.stopen = true then 16 else 0))),
    (0x412, sel.dbgwp), (0x601, i.atoll), (0x602, i.trctl), (0x603, i.hlcache)] : List (BitVec 11 × Word)) ++
  (List.ofFn fun n : Fin 8 => (BitVec.ofNat 11 (0x210 + n.val), (c.chans[n]).chst.setWidth 64)) ++ hartCsrs s.h

/-- The level may reach the CSR (R32): numbers 0x400 to 0x5FF from supervisor, 0x600 to 0x7FF from firmware. -/
def LevelReaches (lvl : Level) (c : BitVec 11) : Prop :=
  (0x400 ≤ c.toNat ∧ c.toNat < 0x600 → lvl ≠ .user) ∧ (0x600 ≤ c.toNat → lvl = .firmware)

/-- The bits of writable CSRs that are reserved, which a write must leave 0 (R33; R32, R100, R115, R184, R194, R196, R288, R304, R308, R330,
R331, R342, R347, R360, R367, R378, R387, R390, R397): (CSR, lowest bit, number of bits). -/
def csrZeroBits : List (BitVec 11 × Nat × Nat) :=
  [(0x002, 6, 58), (0x003, 9, 55), (0x008, 5, 3), (0x008, 48, 16), (0x00C, 16, 48), (0x00D, 16, 48), (0x00E, 16, 48), (0x00F, 16, 48),
   (0x010, 13, 50), (0x011, 13, 50), (0x012, 13, 50), (0x013, 13, 50), (0x014, 13, 50), (0x015, 13, 50), (0x016, 13, 50), (0x017, 13, 50),
   (0x018, 13, 50)] ++
  [(0x404, 2, 3), (0x404, 22, 42), (0x407, 1, 15), (0x407, 48, 4), (0x409, 2, 62), (0x40A, 0, 28), (0x40A, 59, 4), (0x40B, 1, 7),
   (0x40C, 32, 32), (0x40D, 12, 51), (0x40E, 0, 6), (0x40F, 0, 6), (0x410, 40, 20), (0x411, 2, 2), (0x411, 12, 52), (0x414, 1, 63),
   (0x600, 0, 1), (0x601, 8, 56), (0x602, 1, 11), (0x603, 4, 60)]

/-- A ring or trace buffer of 2^(12 + size) bytes at `base` 4 KiB units of the island SRAM that may not stand: a reserved size, not
aligned to its size, or reaching the host-line cache of the island of the hart that moves, the highest HLCACHE x 4 MiB of 64 MiB (R47,
R304, R308). -/
def RingRefused (s : State) (base size : Nat) : Prop :=
  13 < size ∨ base * 2 ^ 12 % 2 ^ (12 + size) ≠ 0 ∨
    2 ^ 26 - ((s.island s.myIsland).hlcache.extractLsb' 0 4).toNat * 2 ^ 22 < base * 2 ^ 12 + 2 ^ (12 + size)

/-- The values that a write of CSR c raises illegal operand for (R33 step 4): a reserved bit that is not 0, and by CSR an illegal VTYPE,
or one that is not the gang's (R18, R275); a rounding code above 4 (R100); P of EORD above 8 (R196); a register number of PROGADDR above
5 (R297); a level of 3 in ESTATUS (R328); a partition that is reserved or leaves a slot that holds a hart (R288); a ring that may not
stand (R304, R308); a request without bit 63 or for a hart outside the atoll (R367); a dump of a cluster that is not frozen, on top of
another, or of a size that is no multiple of 64 (R390); a cluster outside the atoll, or a stop of the own one (R387); a reserved kind of
watch (R387); an atoll that does not begin at a multiple of its size, or on an island with another hart (R342); and a host-line cache of
more than 8 units (R347). -/
def CsrRefuses (s : State) (c : BitVec 11) (x : Word) : Prop :=
  let f (lo len : Nat) : Nat := (x.extractLsb' lo len).toNat
  (∃ p ∈ csrZeroBits, p.1 = c ∧ f p.2.1 p.2.2 ≠ 0) ∨
  (c = 0x000 ∧ (3 < f 0 3 ∨ 3 < f 3 3 ∨ (f 7 1 = 1 ∧ f 0 3 ≠ 1) ∨ f 8 56 ≠ 0 ∨ ∃ g ∈ (s.gangOf s.h.id).toList, x ≠ g.vtype)) ∨
  (c = 0x002 ∧ (4 < f 0 3 ∨ 4 < f 3 3)) ∨ (c = 0x008 ∧ 8 < f 0 4) ∨ (c = 0x021 ∧ 6 ≤ f 0 3) ∨ (c = 0x404 ∧ f 0 2 = 3) ∨
  (c = 0x409 ∧ (f 0 2 = 3 ∨ (f 0 2 = 1 ∧ ∃ n : BitVec 2, (n = 2 ∨ n = 3) ∧ (s.hart (s.myCore ++ n)).slot ≠ .free))) ∨
  (c = 0x40B ∧ RingRefused s (f 12 14) (f 8 4)) ∨ (c = 0x602 ∧ RingRefused s (f 12 14) (f 26 4)) ∨
  (c = 0x40D ∧ (f 63 1 = 0 ∨ s.inAtoll s.myIsland (f 9 3) = false)) ∨
  (c = 0x410 ∧ f 60 1 = 1 ∧ ((s.cluster s.dbgsel).freeze ≠ .frozen ∨ s.dumpctl.getLsbD 63 = true ∨ f 0 40 % 64 ≠ 0)) ∨
  (c = 0x411 ∧ (s.inAtoll s.myIsland (f 9 3) = false ∨ (f 0 1 = 1 ∧ f 6 6 = s.myCluster.toNat))) ∨
  (c = 0x412 ∧ f 1 2 = 3) ∨
  (c = 0x601 ∧ (f 2 3 % 2 ^ f 0 2 ≠ 0 ∨ ∃ y ∈ s.harts, y.id ≠ s.h.id ∧ islandOf (coreOf y.id) = s.myIsland)) ∨
  (c = 0x603 ∧ 8 < f 0 4)

/-- The writing CSR instructions, and the CSR write steps that the opcode table lists without an encoding, as (gd, CSR, value written
from the old one). -/
def csrWriter (s : State) : Instr → Option (BitVec 5 × BitVec 11 × (Word → Word))
  | .csrwr d a c => some (d, c, fun _ => s.getG a)
  | .csrset d a c => if a = 0 then none else some (d, c, fun t => t ||| s.getG a)
  | .csrclr d a c => if a = 0 then none else some (d, c, fun t => t &&& ~~~s.getG a)
  | .csrWrite c d a => some (d, c, fun _ => s.getG a)
  | .vtypeWrite d a => some (d, 0x000, fun _ => s.getG a)
  | .lpartWrite d a => some (d, 0x409, fun _ => s.getG a)
  | .preq d a => some (d, 0x40D, fun _ => s.getG a)
  | .cplogWrite d a => some (d, 0x40B, fun _ => s.getG a)
  | .trctlWrite d a => some (d, 0x602, fun _ => s.getG a)
  | .atollWrite d a => some (d, 0x601, fun _ => s.getG a)
  | .dbgctlStop d a => some (d, 0x411, fun _ => s.getG a ||| 1)
  | .dbgctlGo d a => some (d, 0x411, fun _ => s.getG a ||| 2)
  | .dumpctlGo d a => some (d, 0x410, fun _ => s.getG a ||| 0x1000000000000000)
  | _ => none

/-- The lists of the state are kept by rising key without the entries equal to their value at reset, and the numbers of cores and
clusters are those there are (R10). -/
def Canonical (s : State) : Prop :=
  Memory.wf s.mem = true ∧ SMap.wf Core.reset s.cores = true ∧ SMap.wf Cluster.reset s.clusters = true ∧
    SMap.wf 0 s.tags = true ∧ SMap.wf none s.dones = true ∧ (∀ c ∈ s.cores, c.1 < 1024) ∧ (∀ c ∈ s.clusters, c.1 < 64)

/-- The hart that moves has no stream bound, is in no gang, and no register of its own waits for a stream. -/
def NoStreams (s : State) : Prop :=
  s.h.streams = Vector.replicate 4 none ∧ s.gangOf s.h.id = none ∧
    s.h.awaits Producer.anyStream = false

/-- The hart that moves is in no gang and joins none (R275). -/
def InNoGang (s : State) : Prop := ∀ g ∈ (s.cluster s.myCluster).gangs, s.h.id ∉ g.members

/-! ### Exact arithmetic -/

/-- x / d rounded to an integer under a mode, by R113's words: the quotient rounded down or up. -/
def rndDiv (r : RM) (x : Int) (d : Nat) : Int :=
  let lo := x / (d : Int)
  let rest := x - lo * d
  let inner := if 0 ≤ x then lo else lo + 1
  let outer := if 0 ≤ x then lo + 1 else lo
  if rest = 0 then lo
  else match r with
    | .rne => if 2 * rest < d ∨ (2 * rest = d ∧ lo % 2 = 0) then lo else lo + 1
    | .rtz => inner
    | .rdn => lo
    | .rup => lo + 1
    | .rmm => if 2 * rest < d then lo else if 2 * rest = d then outer else lo + 1
    | .rod => if inner % 2 = 0 then outer else inner

/-- The exact t x 2^e, t not 0, in units of 2^q, as a fraction: numerator and denominator. -/
def inUnits (t e q : Int) : Int × Nat := (t * (2 ^ (e - q).toNat : Nat), 2 ^ (q - e).toNat)

/-- The exact t x 2^e, t not 0, rounded to a floating-point format (R31, R113): on the grid of the format, with exponents not bounded
above; NX when that is not exact; OF, with NX, when the result is not below 2^(bias + 1), which becomes an infinity, or the largest
finite value where the mode points toward zero or is ROD; UF when it is inexact and what the same rounding gives without a least
exponent lies below the smallest normal value. -/
def rndFloat (f : Fmt) (r : RM) (t e : Int) : Nat × Flags :=
  let top : Int := e + Nat.log2 t.natAbs
  let emin : Int := 1 - f.bias
  let rounded (q : Int) : Nat := (rndDiv r (inUnits t e q).1 (inUnits t e q).2).natAbs
  let q := max (top - f.frac) (emin - f.frac)
  let up := (q - (emin - f.frac)).toNat
  let sign := if t < 0 then f.signBit else 0
  if 2 ^ (2 * f.bias + f.frac) ≤ rounded q * 2 ^ up then
    (sign + if r = .rne ∨ r = .rmm ∨ (r = .rup ∧ 0 < t) ∨ (r = .rdn ∧ t < 0) then f.infBits else f.infBits - 1, fOF ||| fNX)
  else if (inUnits t e q).1 % (inUnits t e q).2 = 0 then (sign + (up * 2 ^ f.frac + rounded q), 0)
  else (sign + (up * 2 ^ f.frac + rounded q),
    fNX ||| if rounded (top - f.frac) < 2 ^ (emin - top + f.frac).toNat then fUF else 0)

/-- The integer of a magnitude and a sign. -/
def signed (neg : Bool) (m : Nat) : Int := if neg then -(m : Int) else m

/-- The code that an integer becomes under a header: ZP is added, and it is clamped to the range of P and S, with SAT (R121). -/
def clampedCode (hdr : Nat) (r : Int) : Int × Flags :=
  let P := hdr / 2 ^ 24 % 16
  let lo : Int := if hdr.testBit 28 then -2 ^ (P - 1) else 0
  let hi : Int := if hdr.testBit 28 then 2 ^ (P - 1) - 1 else 2 ^ P - 1
  let c := r + (hdr / 2 ^ 8 % 256 : Nat)
  if hi < c then (hi, fSAT) else if c < lo then (lo, fSAT) else (c, 0)

/-- VTOPLANE's code of a value under a header, and its flags (R180): x / 2^(E8 - 127) rounded to an integer, plus ZP, clamped. -/
def planeCode (hdr : Nat) (r : RM) (x : FVal) : Int × Flags :=
  let E : Int := (hdr % 256 : Nat) - 127
  match x with
  | .nan _ => ((hdr / 2 ^ 8 % 256 : Nat), fNV)
  | .inf neg => ((clampedCode hdr (if neg then -512 else 512)).1, fSAT)
  | .fin neg m e =>
    let u := inUnits (signed neg m) e E
    let c := clampedCode hdr (rndDiv r u.1 u.2)
    (c.1, c.2 ||| if u.1 % u.2 = 0 then 0 else fNX)

/-- The carry of the chain before an element whose block has the scale of `hdr`, when the last active element's block had that of E8 =
`prev` (R180): rounded into the new scale, with the flags. -/
def rescaled (hdr carry : Nat) (prev : Option Nat) : Nat × Flags :=
  match prev, Fmt.f32.unpack carry with
  | some p, .fin neg m e => if p = hdr % 256 ∨ m = 0 then (carry, 0) else rndFloat .f32 .rne (signed neg m) (e + p - (hdr % 256 : Nat))
  | _, _ => (carry, 0)

/-- VNARROW's code of a value under a header, the carry behind it, a binary32 pattern, and the flags (R121, R180): v is the value in code
units plus the carry, rounded once to binary32 under RNE; the code is v rounded to the nearest integer, ties to even, plus ZP, clamped;
the carry is what v leaves. -/
def chainCode (hdr carry : Nat) (prev : Option Nat) (x : FVal) : Int × Nat × Flags :=
  let E : Int := (hdr % 256 : Nat) - 127
  let c := rescaled hdr carry prev
  let nan : Int × Nat × Flags := ((hdr / 2 ^ 8 % 256 : Nat), 0, c.2 ||| fNV)
  let inf (neg : Bool) (fl : Flags) : Int × Nat × Flags := ((clampedCode hdr (if neg then -512 else 512)).1, 0, c.2 ||| fl ||| fSAT)
  match x, Fmt.f32.unpack c.1 with
  | .nan _, _ => nan
  | _, .nan _ => nan
  | .inf a, .inf b => if a = b then inf a 0 else nan
  | .inf a, .fin .. => inf a 0
  | .fin .., .inf b => inf b 0
  | .fin n1 m1 e1, .fin n2 m2 e2 =>
    let d := min (e1 - E) e2
    let t := (inUnits (signed n1 m1) (e1 - E) d).1 + (inUnits (signed n2 m2) e2 d).1
    let v : Nat × Flags := if t = 0 then (0, 0) else rndFloat .f32 .rne t d
    match Fmt.f32.unpack v.1 with
    | .nan _ => nan
    | .inf neg => inf neg v.2
    | .fin neg m e =>
      let u := inUnits (signed neg m) e 0
      let r := rndDiv .rne u.1 u.2
      let left := u.1 - r * u.2
      let code := clampedCode hdr r
      (code.1, if left = 0 then 0 else (rndFloat .f32 .rne left (min e 0)).1, c.2 ||| v.2 ||| code.2)

/-! ### Traps, contexts, waits -/

/-- The code of a level (R328). -/
def levelCode : Level → BitVec 2
  | .user => 0
  | .supervisor => 1
  | .firmware => 2

/-- The `n` bytes at `va` lie in the window through which core `c` reaches the scratchpad of its cluster (Table 2-1), 8-byte aligned,
at `key`; no word of them fails its check. -/
def ScratchOf (s : State) (c : BitVec 10) (va : Word) (n key : Nat) : Prop :=
  va.toNat % 8 = 0 ∧ 0x000FFFFE00000000 ≤ va.toNat ∧ va.toNat + n ≤ 0x000FFFFE00400000 ∧
    key = scratchKey (clusterOf c).toNat (va.toNat - 0x000FFFFE00000000) ∧ s.failing key n = false

/-- The same for the core of the hart that moves. -/
def Scratch (s : State) (va : Word) (n key : Nat) : Prop := ScratchOf s s.myCore va n key

/-- No hart waits for a vector block or an accumulator of the core. -/
def NoWaiters (s : State) : Prop :=
  (s.core s.myCore).vacqV = [] ∧ (s.core s.myCore).vacqZ = Vector.replicate 4 []

/-- No island logs critical-path records (R304). -/
def NoLog (s : State) : Prop := ∀ i, (s.island i).cplog.getLsbD 0 = false

/-- The low part of the context image at `key`: offsets 0 to 40,959 (Table 20-7). -/
def imageAt (s : State) (key : Nat) : BitVec 327680 := BitVec.ofNat 327680 (leNat s key 40960)

/-- The hart that moves holds the context of an image whose low part is `img` and whose contents lie at `key` in `s` (R380). -/
def CtxLoaded (s t : State) (img : BitVec 327680) (key : Nat) : Prop :=
  let w (j : Nat) : Word := img.extractLsb' (64 * j) 64
  (∀ r : BitVec 5, r ≠ 0 → t.getG r = w (8 + r.toNat)) ∧
  (∀ n, 1 ≤ n → n < 24 → t.h.getK n = img.extractLsb' (64 * (208 + 128 * (n - 1))) 8192) ∧
  (∀ n (h : n < 8), t.h.pl[n] = w (200 + n)) ∧
  (∀ n (h : n < 16), t.h.e[n] = img.extractLsb' (64 * (3152 + 96 * n)) 6144) ∧
  (∀ i c, ctxCsrs[i]? = some c → c ≠ 0x200 → c ≠ 0x218 → t.csrGet c = w (40 + i)) ∧
  t.h.span = spanOf t.h.grant.toNat t.h.vtype ∧ t.h.held = (w 1).extractLsb' 0 3 ∧
  (∀ r < 8, ∀ i < 512, elem 64 (t.h.vreg r).toNat i = leNat s (key + 8 * (5120 + 512 * r + i)) 8) ∧
  t.h.slot = .run ∧ t.h.pc = s.h.pc + 4 ∧ t.h.lvl = s.h.lvl ∧ SameMem s t ∧ t.others = s.others

/-- The hart that moves goes on after a wait, or after none: it runs, past an instruction of four bytes, gd holds `x`; the vector,
mask, plane and X registers and the level are as before. -/
def Returns (s t : State) (d : BitVec 5) (x : Word) : Prop :=
  PutsG s t d x ∧ t.h.pc = s.h.pc + 4 ∧ t.h.slot = .run ∧ t.h.v = s.h.v ∧ t.h.k = s.h.k ∧ t.h.pl = s.h.pl ∧ t.h.e = s.h.e ∧
    t.h.lvl = s.h.lvl ∧ t.h.vtype = s.h.vtype ∧ t.h.fst = s.h.fst

/-- The hart that moves waits at its instruction. -/
def Waits (s t : State) (w : Wait) : Prop :=
  (∃ since, t.h.slot = .wait w since) ∧ t.h.pc = s.h.pc ∧ t.h.g = s.h.g ∧ t.h.v = s.h.v ∧ t.h.k = s.h.k ∧ t.h.lvl = s.h.lvl

/-- The words 0 to `n - 1` of the record at `key`. -/
def wordsAt (s : State) (key : Nat) : Nat → List Word
  | 0 => []
  | n + 1 => BitVec.ofNat 64 (leNat s key 8) :: wordsAt s (key + 8) n

/-- `t` is `s` with fields of the hart that moves changed and nothing else. -/
def OnlyHart (s t : State) : Prop := t = { s with h := t.h }

/-- The record of a copy at `key`, read by the hart that moves, as a transfer not yet issued; DONE and ERR count as 0. -/
def recordAt (s : State) (va : Word) (key : Nat) : Transfer :=
  { id := 0, record := va, src := BitVec.ofNat 64 (leNat s key 8), dst := BitVec.ofNat 64 (leNat s (key + 8) 8)
    len := BitVec.ofNat 64 (leNat s (key + 16) 8), ctl := BitVec.ofNat 64 (leNat s (key + 24) 8 % 2 ^ 56)
    shape := none, hart := s.h.id, lvl := s.h.lvl, ptbr := s.h.ptbr, fillv := s.h.fillv, tag := s.h.cptag, outcome := none }

/-! ### Vector instructions -/

/-- A run of registers is a group: its base is a multiple of its size and it lies in v0 to v31 (R21). -/
def Group (r : Regs) : Prop := r.1 % r.2 = 0 ∧ r.1 + r.2 ≤ 32

/-- Every register of a run exists, is held and is full. -/
def Held (s : State) (r : Regs) : Prop := ∀ j, r.1 ≤ j → j < r.1 + r.2 → j < 32 ∧ s.h.holdsV j = true ∧ s.h.isFull j = true

/-- Two runs share no register. -/
def Apart (a b : Regs) : Prop := a.1 + a.2 ≤ b.1 ∨ b.1 + b.2 ≤ a.1

/-- The hart that moves runs its instruction from the start to the end: it does not wait, resumes nothing, no pre-emption lands in it,
and no stream is bound. (`quota` is none between steps.) -/
def Fresh (s : State) : Prop :=
  s.h.slot = .run ∧ s.h.resume = [] ∧ s.h.landing = none ∧ s.h.quota = none ∧ s.boundStreams = [] ∧ s.h.span ≤ 8192

/-- Register `r` once what the producer has still to write to it is there (R27): its contents when nothing is. -/
def comingV (s : State) (by_ : Producer) (r : Nat) : BitVec 32768 :=
  match s.h.full[r]? with
  | some (.empty p) => if p.by_ = by_ then p.img else s.h.vreg r
  | _ => s.h.vreg r

/-- The state in which everything that the producer has still to write to the registers of the hart that moves is there. -/
def arrivedBy (by_ : Producer) (s : State) : State := { s with h := { s.h with v := Vector.ofFn fun r => comingV s by_ r.val } }

/-- The same of the pipes. -/
def arrived (s : State) : State := arrivedBy .pipe s

/-- A full/empty state once what the producer has still to write is there, or will not come. -/
def doneBy (by_ : Producer) (f : Fullness) : Fullness :=
  match f with
  | .empty p => if p.by_ = by_ then .full else f
  | .full => .full

/-- Bytes of an element group (R23): GRANT x 8, and 1 for the GRANT of a FREE slot, which is 0 (log 1). -/
def groupBytes (s : State) : Nat := max 1 (8 * s.h.grant.toNat)

/-- Element groups of the strip (R23). -/
def stripGroups (s : State) : Nat := (s.h.span + s.h.groupElems - 1) / s.h.groupElems

/-- Of `total` element groups of a group of registers, those that have bytes in its register number `q`; a register with none counts one
(log 5). -/
def groupsOf (s : State) (total q : Nat) : Nat :=
  max 1 ((List.range total).countP fun j =>
    decide (groupBytes s * j < 4096 * (q + 1)) && decide (4096 * q < groupBytes s * (j + 1)))

/-- Every register of the run `D`, in groups of `g` registers with `total` element groups each, is empty for the producer, which has
written none of them yet (R27); every other register of `full` is as in `s`. -/
def EmptyRun (s : State) (by_ : Producer) (D : Regs) (g total : Nat) (full : Vector Fullness 32) : Prop :=
  (∀ r < 32, r < D.1 ∨ D.1 + D.2 ≤ r → full[r]? = s.h.full[r]?) ∧
  ∀ r, D.1 ≤ r → r < D.1 + D.2 → ∃ p, full[r]? = some (.empty p) ∧ p.by_ = by_ ∧ p.frontier = 0 ∧
    p.groups = groupsOf s total ((r - D.1) % g)

/-- Element i is active under mask k (Table 1-8a). -/
def isActive (s : State) (k : BitVec 3) (i : Nat) : Bool := k == 0 || (s.h.getK k.toNat).getLsbD i

/-- Element i of width w of the group of n registers at r. -/
def el (s : State) (r n w i : Nat) : Nat := elem w (s.h.img r n) i

/-- What an element becomes under mask k (R143): computed when active; else kept, or 0 with IP. -/
def masked (s : State) (k : BitVec 3) (w : Nat) (dst : Regs) (f : Nat → Nat × Flags) (i : Nat) : Nat × Flags :=
  if isActive s k i then f i else (if s.h.vtype.getLsbD 6 then 0 else el s dst.1 dst.2 w i, 0)

/-- FST and EVX after flags `f i` at the indices i below n (R114 to R116): a class raised at some index is set in FST, and its EVX
holds V and the least such index; the other classes stay. -/
def FlagsAfter (s t : State) (n : Nat) (f : Nat → Flags) : Prop :=
  (∀ c, 9 ≤ c → t.h.fst.getLsbD c = s.h.fst.getLsbD c) ∧
  ∀ c (h : c < 9),
    ((∀ i < n, (f i).getLsbD c = false) → t.h.fst.getLsbD c = s.h.fst.getLsbD c ∧ t.h.evx[c] = s.h.evx[c]) ∧
    ∀ i < n, (f i).getLsbD c = true → (∀ j < i, (f j).getLsbD c = false) →
      t.h.fst.getLsbD c = true ∧ t.h.evx[c] = BitVec.ofNat 64 (2 ^ 63 + i)

/-- The elements of width w below SPAN of the run `dst` have become those of `f`; its other elements, every other vector register and
everything else of the state but the flags, LVD (which names `dst`) and the PC, past `len` bytes, are as before. `full` is what the
full/empty states become. -/
def Elementwise (s t : State) (len w : Nat) (dst : Regs) (f : Nat → Nat × Flags) (full : Vector Fullness 32) : Prop :=
  (∀ i < s.h.span, el t dst.1 dst.2 w i = (f i).1 % 2 ^ w) ∧
  (∀ i, s.h.span ≤ i → w * (i + 1) ≤ 32768 * dst.2 → el t dst.1 dst.2 w i = el s dst.1 dst.2 w i) ∧
  (∀ r < 32, r < dst.1 ∨ dst.1 + dst.2 ≤ r → t.h.vreg r = s.h.vreg r) ∧
  FlagsAfter s t s.h.span (fun i => (f i).2) ∧
  t = { s with h := { s.h with
    v := t.h.v, fst := t.h.fst, evx := t.h.evx, full, lvd := BitVec.ofNat 64 dst.1, pc := s.h.pc + BitVec.ofNat 64 len } }

/-- The same of a member whose pipe writes `dst` after it has left (R27): the registers are empty, and once all has arrived the
elements of width w below SPAN are those of `f`, and the others of the run as before. -/
def ElementwiseLater (s t : State) (len w : Nat) (dst : Regs) (f : Nat → Nat × Flags) : Prop :=
  (∀ i < s.h.span, el (arrived t) dst.1 dst.2 w i = (f i).1 % 2 ^ w) ∧
  (∀ i, s.h.span ≤ i → w * (i + 1) ≤ 32768 * dst.2 → el (arrived t) dst.1 dst.2 w i = el s dst.1 dst.2 w i) ∧
  FlagsAfter s t s.h.span (fun i => (f i).2) ∧ EmptyRun s .pipe dst dst.2 (stripGroups s) t.h.full ∧
  t = { s with h := { s.h with
    fst := t.h.fst, evx := t.h.evx, full := t.h.full, lvd := BitVec.ofNat 64 dst.1, pc := s.h.pc + BitVec.ofNat 64 len } }

/-- The mask `kd` has become `f` below SPAN and 0 above (R157); a write to k0 is discarded; else only flags and PC change. -/
def Maskwise (s t : State) (kd : BitVec 5) (f : Nat → Bool × Flags) : Prop :=
  (∃ x, PutsK s t kd x ∧ ∀ i < 8192, x.getLsbD i = (decide (i < s.h.span) && (f i).1)) ∧
  FlagsAfter s t s.h.span (fun i => (f i).2) ∧
  t = { s with h := { s.h with k := t.h.k, fst := t.h.fst, evx := t.h.evx, pc := s.h.pc + 4 } }

/-- Form of an instruction with two vector sources. -/
abbrev FormVV := BitVec 5 → BitVec 5 → BitVec 5 → BitVec 3 → BitVec 1 → BitVec 1 → Instr
/-- Form of an instruction with a vector source and a g register. -/
abbrev FormVX := BitVec 5 → BitVec 5 → BitVec 5 → BitVec 3 → BitVec 1 → Instr
/-- Form of an instruction with one vector source. -/
abbrev FormV := BitVec 5 → BitVec 5 → BitVec 3 → BitVec 1 → Instr
/-- A function of two elements, under the hart's VTYPE and RMODE. -/
abbrev Fn2 := Hart → Nat → Nat → Nat × Flags

/-- An integer function of two elements of width w that raises nothing. -/
def int2 (f : Nat → Nat → Nat → Nat) : Fn2 := fun h x y => (f h.ew x y, 0)

/-- An integer clamped to the signed w-bit range, SAT when that changes it (R109). -/
def satTo (w : Nat) (x : Int) : Nat × Flags :=
  if 2 ^ (w - 1) - 1 < x then (2 ^ (w - 1) - 1, fSAT) else if x < -2 ^ (w - 1) then (2 ^ (w - 1), fSAT) else (ofSigned w x, 0)

/-- A floating-point function of the values of two elements under FRM. -/
def fp2 (f : Fmt → RM → FVal → FVal → Nat × Flags) : Fn2 := fun h x y =>
  f h.fmt (frmOf h.rmode) (h.fmt.unpack x) (h.fmt.unpack y)

/-- VIA and VIL: the functions that both have a form with two vector sources and one with a g register (R149, R150). -/
def intMembers : List (FormVV × FormVX × Fn2) :=
  [(.vadd, .vaddX, int2 fun w x y => (x + y) % 2 ^ w), (.vsub, .vsubX, int2 fun w x y => ofSigned w ((x : Int) - y)),
   (.vmul, .vmulX, int2 fun w x y => x * y % 2 ^ w),
   (.vmulh, .vmulhX, int2 fun w x y => ofSigned w (toSigned w x * toSigned w y / 2 ^ w)),
   (.vmin, .vminX, int2 fun w x y => if toSigned w x ≤ toSigned w y then x else y),
   (.vmax, .vmaxX, int2 fun w x y => if toSigned w y ≤ toSigned w x then x else y),
   (.vminn, .vminnX, int2 fun _ x y => if x ≤ y then x else y), (.vmaxn, .vmaxnX, int2 fun _ x y => if y ≤ x then x else y)] ++
  [(.vand, .vandX, int2 fun _ x y => x &&& y), (.vor, .vorX, int2 fun _ x y => x ||| y), (.vxor, .vxorX, int2 fun _ x y => x ^^^ y),
   (.vandn, .vandnX, int2 fun w x y => x &&& (2 ^ w - 1 - y)), (.vsll, .vsllX, int2 fun w x y => x * 2 ^ (y % w) % 2 ^ w),
   (.vsrl, .vsrlX, int2 fun w x y => x / 2 ^ (y % w)), (.vsra, .vsraX, int2 fun w x y => ofSigned w (toSigned w x / 2 ^ (y % w)))]

/-- VIS members of equal width with two vector sources (R149, R151). -/
def satMembers : List (FormVV × Fn2) :=
  [(.vsadd, fun h x y => satTo h.ew (toSigned h.ew x + toSigned h.ew y)),
   (.vssub, fun h x y => satTo h.ew (toSigned h.ew x - toSigned h.ew y)),
   (.vmulhn, int2 fun w x y => x * y / 2 ^ w),
   (.vavg, fun h x y => (ofSigned h.ew (roundDiv (xrmOf h.rmode) (toSigned h.ew x + toSigned h.ew y) 1), 0))]

/-- VFA: the functions with both forms (R153). -/
def fpMembers : List (FormVV × FormVX × Fn2) :=
  [(.vfadd, .vfaddX, fp2 fun f r x y => f.addV r x y), (.vfsub, .vfsubX, fp2 fun f r x y => f.addV r x y.negate),
   (.vfmul, .vfmulX, fp2 fun f r x y => f.mulV r x y), (.vfdiv, .vfdivX, fp2 fun f r x y => f.divV r x y),
   (.vfmin, .vfminX, fun h x y => h.fmt.minmax false x y), (.vfmax, .vfmaxX, fun h x y => h.fmt.minmax true x y)]

/-- VFMA: the forms with the signs of product and addend (R154): vd is the addend. -/
def fmaMembers : List (FormVV × FormVX × Bool × Bool) :=
  [(.vffma, .vffmaX, false, false), (.vffms, .vffmsX, false, true), (.vfnma, .vfnmaX, true, false), (.vfnms, .vfnmsX, true, true)]

/-- The fused function of elements x, y and the addend z. -/
def fma3 (negP negA : Bool) (h : Hart) (x y z : Nat) : Nat × Flags :=
  let P := h.fmt.unpack x
  let A := h.fmt.unpack z
  h.fmt.fmaV (frmOf h.rmode) (if negP then P.negate else P) (h.fmt.unpack y) (if negA then A.negate else A)

/-- Members with one vector source, of equal width; `fp` says that they accept the floating-point widths only (R145). -/
def unaryMembers (u : BitVec 1) : List (FormV × Bool × (Hart → Nat → Nat × Flags)) :=
  [(.vabs, false, fun h x => satTo h.ew (toSigned h.ew x).natAbs),
   (.vfsqrt, true, fun h x => h.fmt.sqrtV (frmOf h.rmode) (h.fmt.unpack x)),
   (.vfabs, true, fun h x => match h.fmt.unpack x with | .nan sg => h.fmt.nanOf sg | _ => (x % h.fmt.signBit, 0)),
   (fun d a k e => .vcvtFi d a u k e, true, fun h x => toIntElem h (xrmOf h.rmode) u x),
   (fun d a k e => .vtrunc d a u k e, true, fun h x => toIntElem h .rtz u x),
   (fun d a k e => .vcvtIf d a u k e, true, fun h x => h.fmt.ofInt (frmOf h.rmode) (if u = 1 then (x : Int) else toSigned h.ew x))]

/-- VSFU members (R155). -/
def sfuMembers : List (FormV × (Fmt → FVal → Nat × Flags)) :=
  [(.vrcp, Fmt.rcpV), (.vrsq, Fmt.rsqV), (.vexp2, Fmt.exp2V), (.vlog2, Fmt.log2V)]

/-- The compact vector forms: form with a vector source, form with a g register, the function, floating point (R58). -/
def compactMembers : List ((BitVec 5 → BitVec 5 → Instr) × (BitVec 5 → BitVec 5 → Instr) × Fn2 × Bool) :=
  [(.cVadd, .cVaddX, int2 fun w x y => (x + y) % 2 ^ w, false), (.cVsub, .cVsubX, int2 fun w x y => ofSigned w ((x : Int) - y), false),
   (.cVmul, .cVmulX, int2 fun w x y => x * y % 2 ^ w, false),
   (.cVmax, .cVmaxX, int2 fun w x y => if toSigned w y ≤ toSigned w x then x else y, false),
   (.cVfadd, .cVfaddX, fp2 fun f r x y => f.addV r x y, true), (.cVfmul, .cVfmulX, fp2 fun f r x y => f.mulV r x y, true),
   (.cVfmax, .cVfmaxX, fun h x y => h.fmt.minmax true x y, true)]

/-- The widths a member accepts (R145). -/
def widthOk (s : State) (fp : Bool) : Prop := if fp then s.h.ew = 16 ∨ s.h.ew = 32 else True

/-- Integer relations of VCMP (R157): (two vectors, vector and g register, relation). -/
def cmpVVs : List (FormVV × (Nat → Nat → Nat → Bool)) :=
  [(.vcmpEq, fun _ x y => x == y), (.vcmpNe, fun _ x y => x != y), (.vcmpLt, fun w x y => decide (toSigned w x < toSigned w y)),
   (.vcmpLe, fun w x y => decide (toSigned w x ≤ toSigned w y)), (.vcmpLtn, fun _ x y => decide (x < y)), (.vcmpLen, fun _ x y => decide (x ≤ y))]
/-- Integer relations with a g register. -/
def cmpVXs : List (FormVX × (Nat → Nat → Nat → Bool)) :=
  [(.vcmpLtX, fun w x y => decide (toSigned w x < toSigned w y)), (.vcmpGeX, fun w x y => decide (toSigned w y ≤ toSigned w x))]
/-- A floating-point relation (R158): `quiet` ones raise NV for a signalling NaN only, `nan` is the value with a NaN operand. -/
def fpCmp (quiet nan : Bool) (rel : FVal → FVal → Bool) (h : Hart) (x y : Nat) : Bool × Flags :=
  let X := h.fmt.unpack x
  let Y := h.fmt.unpack y
  (if X.isNaN || Y.isNaN then nan else rel X Y, if X.isS || Y.isS || ((X.isNaN || Y.isNaN) && !quiet) then fNV else 0)
/-- VFCMP with two vectors. -/
def fcmpVVs : List (FormVV × (Hart → Nat → Nat → Bool × Flags)) :=
  [(.vfcmpFeq, fpCmp true false FVal.eq), (.vfcmpFne, fpCmp true true fun x y => !x.eq y), (.vfcmpFlt, fpCmp false false FVal.lt),
   (.vfcmpFle, fpCmp false false fun x y => !y.lt x), (.vfcmpFunord, fpCmp true true fun _ _ => false)]
/-- VFCMP with a g register. -/
def fcmpVXs : List (FormVX × (Hart → Nat → Nat → Bool × Flags)) :=
  [(.vfcmpFltX, fpCmp false false FVal.lt), (.vfcmpFgeX, fpCmp false false fun x y => !x.lt y)]

/-- Integer reductions as a function on numbers (R161). -/
def redMembers : List (FormVV × (Nat → Nat → Nat → Nat)) :=
  [(.vredsum, fun w x y => (x + y) % 2 ^ w), (.vredmax, fun w x y => if toSigned w y ≤ toSigned w x then x else y),
   (.vredmin, fun w x y => if toSigned w x ≤ toSigned w y then x else y), (.vredmaxn, fun _ x y => if y ≤ x then x else y),
   (.vredminn, fun _ x y => if x ≤ y then x else y)]

/-- R140's folds of partials `p`: while L is not 0, partial l takes partial l + L for each l below L, and L is halved; `n` bounds
the rounds. -/
def redFold (op : Nat → Nat → Nat × Flags) : Nat → Nat → (Nat → Nat) → Nat → Nat
  | 0, _, p => p
  | n + 1, L, p => if L = 0 then p else redFold op n (L / 2) fun l => if l < L then (op (p l) (p (l + L))).1 else p l

/-! ### Vector memory -/

/-- Successive reads of `n` bytes by the hart that moves at the addresses, each performed as a scalar load's: the keys read at, the
numbers read, and the state left. -/
def LoadsFrom (n : Nat) : List Word → State → List (Nat × Nat) → State → Prop
  | [], s, ks, u => ks = [] ∧ u = s
  | va :: vas, s, ks, u => ∃ p x v r, s.translate s.who .read false va = .ok p ∧ s.load false va n = .ok (x, v) ∧
      LoadsFrom n vas v r u ∧ ks = (p.key, x) :: r

/-- Successive writes of `n` bytes by the hart that moves, (address, number), each performed as a scalar store's: the keys written
at and the state left. -/
def StoresTo (n : Nat) : List (Word × Nat) → State → List Nat → State → Prop
  | [], s, ks, u => ks = [] ∧ u = s
  | a :: as, s, ks, u => ∃ p v r, s.translate s.who .write false a.1 = .ok p ∧ s.store false a.1 n a.2 = .ok v ∧
      StoresTo n as v r u ∧ ks = p.key :: r

/-- Successive atomics of `n` bytes, (address, operand), each performed as a scalar atomic's: keys, old values, and the state left. -/
def AtomicsTo (n : Nat) (op : Nat → Nat → Nat) : List (Word × Nat) → State → List (Nat × Nat) → State → Prop
  | [], s, ks, u => ks = [] ∧ u = s
  | a :: as, s, ks, u => ∃ p old v r, s.rmw a.1 n (fun x => some (op x a.2)) = .ok (old, p, v) ∧ AtomicsTo n op as v r u ∧
      ks = (p.key, old) :: r

/-- Every number read is the little-endian number that stood at its key in `s`, and `t` reads as `s` everywhere. -/
def ReadsAre (s t : State) (n : Nat) (ks : List (Nat × Nat)) : Prop := (∀ p ∈ ks, p.2 = leNat s p.1 n) ∧ SameMem s t

/-- Every byte outside the `n` bytes from each key reads in `t` as in `s`; with keys whose bytes share none, the bytes from each
hold its number. -/
def WritesAre (s t : State) (n : Nat) (ks : List Nat) (xs : List Nat) : Prop :=
  (∀ a, (∀ k ∈ ks, a < k ∨ k + n ≤ a) → Memory.byte t.mem a = Memory.byte s.mem a) ∧
  (ks.Pairwise (fun k l => k + n ≤ l ∨ l + n ≤ k) → ∀ j, j < ks.length → leNat t (ks.getD j 0) n = xs.getD j 0 % 256 ^ n)

/-- The exact address is one of 64 bits. -/
def Fits (a : Int) : Prop := 0 ≤ a ∧ a < 2 ^ 64

/-- The indices below SPAN that are active under mask k, ascending. -/
def actives (s : State) (k : BitVec 3) : List Nat := (List.range s.h.span).filter fun i => isActive s k i

/-- The state once LVD names `v` (R59). -/
def named (s : State) (v : BitVec 5) : State := { s with h := { s.h with lvd := v.setWidth 64 } }

/-- `t` is `u`, past an instruction of four bytes, with the run `D` of vector registers, in groups of `g`, empty for its pipe; no vector
register has changed yet. -/
def Fills (s u t : State) (D : Regs) (g total : Nat) : Prop :=
  EmptyRun s .pipe D g total t.h.full ∧ t.h.v = s.h.v ∧
  t = { u with h := { u.h with v := t.h.v, full := t.h.full, ffx := t.h.ffx, pc := s.h.pc + 4 } }

/-- What a load leaves in field f of the groups at `v` once all has arrived (`t`): the numbers read, in the order of the active elements
and their F fields. -/
def FieldsAre (s t : State) (v : BitVec 5) (k : BitVec 3) (F : Nat) (xs : List Nat) : Prop :=
  ∀ f < F,
    (∀ i < s.h.span, el t (v.toNat + f * s.h.grp) s.h.grp s.h.ew i =
      if isActive s k i then xs.getD ((List.range i).countP (fun j => isActive s k j) * F + f) 0
      else if s.h.vtype.getLsbD 6 then 0 else el s (v.toNat + f * s.h.grp) s.h.grp s.h.ew i) ∧
    ∀ i, s.h.span ≤ i → s.h.ew * (i + 1) ≤ 32768 * s.h.grp →
      el t (v.toNat + f * s.h.grp) s.h.grp s.h.ew i = el s (v.toNat + f * s.h.grp) s.h.grp s.h.ew i

/-- The atomics of Table 14-3 in their vector form, on elements of width w. -/
def vamoMembers : List ((BitVec 5 → BitVec 5 → BitVec 5 → BitVec 3 → BitVec 1 → Instr) × (Nat → Nat → Nat → Nat)) :=
  [(.vamoAdd, fun w x y => (x + y) % 2 ^ w), (.vamoAnd, fun _ x y => x &&& y), (.vamoOr, fun _ x y => x ||| y),
   (.vamoXor, fun _ x y => x ^^^ y), (.vamoMin, fun w x y => if toSigned w x < toSigned w y then x else y),
   (.vamoMax, fun w x y => if toSigned w y < toSigned w x then x else y), (.vamoSwap, fun _ _ y => y)]

/-- Whether block b of 64 elements has an active one. -/
def blockOn (s : State) (k : BitVec 3) (b : Nat) : Bool := (actives s k).any fun i => i / 64 == b

/-- The blocks with an active element, ascending. -/
def blocksOn (s : State) (k : BitVec 3) : List Nat := (List.range ((s.h.span + 63) / 64)).filter fun b => blockOn s k b

/-- The registers of the image of SPAN elements from v (R176). -/
def imageOf (s : State) (v : BitVec 5) : Regs := (v.toNat, max 1 ((72 * ((s.h.span + 63) / 64) + 4095) / 4096))

/-- A header is valid (R120). -/
def HdrOk (x : Nat) : Prop :=
  x / 2 ^ 30 = 0 ∧ 1 ≤ x / 2 ^ 24 % 16 ∧ x / 2 ^ 24 % 16 ≤ 8 ∧ (x.testBit 29 = true ∨ x / 2 ^ 8 % 256 = 0) ∧ 1 ≤ x % 256 ∧ x % 256 ≤ 254

/-- Word q of a segment moved with n planes: the header and the words of planes below n and P; zero above. -/
def segWord (n hdr q x : Nat) : Nat := if q ≤ min n (hdr / 2 ^ 24 % 16) then x else 0

/-! ### Expansions and tiles -/

/-- FST keeps what it held, and only its flag bits may have been set. -/
def FlagsOnlySet (s t : State) : Prop :=
  ∀ c, (s.h.fst.getLsbD c = true → t.h.fst.getLsbD c = true) ∧ (9 ≤ c → t.h.fst.getLsbD c = s.h.fst.getLsbD c)

/-- Word j of 32 bits of expansion register n. -/
def xw (s : State) (n : BitVec 5) (j : Nat) : Nat := elem 32 (s.h.ereg n.toNat) j

/-- `t` is `s` past an X instruction that wrote expansion register `a` and flags alone: its word j is `f j` (j below 192). -/
def Expands (s t : State) (a : BitVec 5) (f : Nat → Nat) : Prop :=
  (∀ j < 192, xw t a j = f j) ∧ (∀ n < 16, n ≠ a.toNat → t.h.ereg n = s.h.ereg n) ∧ FlagsOnlySet s t ∧
    t = { s with h := { s.h with e := t.h.e, fst := t.h.fst, evx := t.h.evx, pc := s.h.pc + 4 } }

/-- A header word with its KIND (bits 6:5) replaced. -/
def withKind (x kind : Nat) : Nat := x % 32 + kind * 32 + x / 128 * 128

/-- Word j of a register whose first coefficients become `cs` and whose KIND becomes `kind`. -/
def coefWords (s : State) (a : BitVec 5) (kind : Nat) (cs : List Nat) (j : Nat) : Nat :=
  if j = 0 then withKind (xw s a 0) kind else if 8 ≤ j ∧ j - 8 < cs.length then cs.getD (j - 8) 0 else xw s a j

/-- The expansion register pair of R202: kinds, equal order, kernel and H. -/
def PairOk (s : State) (a b : BitVec 5) (src dst : Nat) : Prop :=
  xKind (s.h.ereg b.toNat) = src ∧ (xKind (s.h.ereg a.toNat) = 0 ∨ xKind (s.h.ereg a.toNat) = dst) ∧
    xw s a 0 % 32 = xw s b 0 % 32 ∧ xw s a 1 = xw s b 1

/-- A run of `m` groups of the hart that X members name (R201). -/
def XGroup (s : State) (v : BitVec 5) (m : Nat) : Prop :=
  v.toNat % s.h.grp = 0 ∧ v.toNat + m * s.h.grp ≤ 32 ∧ Held s (v.toNat, m * s.h.grp)

/-- Component q of element i of the groups at v, a binary32 pattern. -/
def xe (s : State) (v : BitVec 5) (q i : Nat) : XVal := (el s (v.toNat + q * s.h.grp) s.h.grp 32 i, 0)

/-- The point of element i of the groups at v. -/
def xpt (s : State) (v : BitVec 5) (i : Nat) : XVec := (xe s v 0 i, xe s v 1 i, xe s v 2 i)

/-- The H of EORD is positive and finite where the kernel needs it (R204). -/
def EordOk (s : State) : Prop :=
  s.h.eord.getLsbD 4 = true → ∃ m e, Fmt.f32.unpack (s.h.eord.toNat / 2 ^ 16 % 2 ^ 32) = .fin false m e ∧ m ≠ 0

/-- Acc of element i of accumulator z of the core of the hart that moves. -/
def zAcc (s : State) (z : BitVec 2) (i : Nat) : Nat := (s.accum z).val i
/-- The status of that element: 0 finite, 1 and 2 the infinities, 3 NaN. -/
def zSt (s : State) (z : BitVec 2) (i : Nat) : Nat := (s.accum z).status i

/-- The rectangle of the hart's tile: (m, n) of element i = 64 m + n, inside M and N of TSHP. -/
def inTile (s : State) (i : Nat) : Bool := decide (i / 64 < s.h.shape.m) && decide (i % 64 < s.h.shape.n)

/-- `t` is `u` past a tile instruction that wrote accumulator z and flags alone: Acc and status of element i are `f i`, the anchor
and the holder stay, and it is taken; flags are those of the elements. -/
def Accumulates (s u t : State) (z : BitVec 2) (f : Nat → Nat × Nat × Flags) : Prop :=
  (∀ i < 4096, (zAcc t z i, zSt t z i) = if inTile s i then ((f i).1, (f i).2.1) else (zAcc s z i, zSt s z i)) ∧
  (t.accum z).anchor = (s.accum z).anchor ∧ (t.accum z).holder = (s.accum z).holder ∧ (t.accum z).taken = true ∧
  (∀ y, y ≠ z → t.accum y = s.accum y) ∧ FlagsAfter s t 4096 (fun i => if inTile s i then (f i).2.2 else 0) ∧
  t = { u with cores := t.cores, h := { u.h with fst := t.h.fst, evx := t.h.evx, pc := s.h.pc + 8 } } ∧
  (∀ c, t.core c = { u.core c with z := (t.core c).z }) ∧ (∀ c, c ≠ s.myCore → t.core c = u.core c)

/-- The number in `n` bytes from byte c of storage row q of a tile operand: in its registers, rows one after the other, or in the
scratchpad of the cluster, where `off` places it (R186). -/
def opBytes (s : State) (o : TileOp) (q c n : Nat) : Nat :=
  match o.regs with
  | some _ => o.img / 2 ^ (8 * (q * o.rowBytes + c)) % 2 ^ (8 * n)
  | none => leNat s (scratchKey s.myCluster.toNat (o.off q c)) n

/-- Segment b of row r: nine words, each placed by itself. -/
def opSeg (s : State) (o : TileOp) (r b : Nat) : Nat := ((List.range 9).map fun j => opBytes s o r (72 * b + 8 * j) 8 * 2 ^ (64 * j)).sum

/-- The value at index k of row r of A, or of column r of B (R186, Table 8-3, R119). -/
def opVal (s : State) (o : TileOp) (r k : Nat) : FVal :=
  if tileBpn o.ty then
    let seg := opSeg s o r (k / 64)
    let u := prefixVal seg (seg % 2 ^ 64) 0 (k % 64) o.planes
    .fin (decide (u < 0)) u.natAbs ((seg % 256 : Nat) - 127)
  else denseVal o.ty (if o.isA then opBytes s o r (k * tileSize o.ty) (tileSize o.ty) else opBytes s o k (r * tileSize o.ty) (tileSize o.ty))

/-- TAG of the segment of block b of row r. -/
def opTag (s : State) (o : TileOp) (r b : Nat) : Nat := opBytes s o r (72 * b) 8 / 2 ^ 16 % 256

/-- An operand is one TMMA takes: its registers are held and full and lie in v0 to v31, or it lies aligned in the scratchpad, all of
it good (R183, R186); the segments have valid headers of its type with tags that count up (R139, R187). -/
def OpOk (s : State) (o : TileOp) (sa : BitVec 1) (a : BitVec 5) (e : BitVec 1) : Prop :=
  (match o.regs with
   | some r => r.1 + r.2 ≤ 32 ∧ Held s r
   | none => e = 0 ∧ a.toNat % 2 = 0 ∧ 2 ≤ a.toNat ∧ o.base % tileSize o.ty = 0 ∧ o.rp % tileSize o.ty = 0 ∧ o.tp % tileSize o.ty = 0 ∧
       (o.rho ≠ 0 → o.rowBytes ≤ o.rp) ∧
       ∀ q < o.storeRows, ∀ c < o.rowBytes / tileSize o.ty, o.off q (c * tileSize o.ty) + tileSize o.ty ≤ 0x400000 ∧
         s.failing (scratchKey s.myCluster.toNat (o.off q (c * tileSize o.ty))) (tileSize o.ty) = false) ∧
  (sa = 1 ↔ o.regs = none) ∧
  (tileBpn o.ty = true → ∀ r < o.rows, ∀ b < o.segs,
    let h := opBytes s o r (72 * b) 8
    HdrOk h ∧ (o.isA = true → h / 2 ^ 8 % 256 = 0) ∧ h.testBit 29 = (o.ty == 4) ∧
      (0 < b → opTag s o r b = (opTag s o r (b - 1) + 1) % 256))

/-- The products of a row and a column under anchor e, k ascending, added to an accumulator element (R123). -/
def dotFold (e : Int) (x y : Nat → FVal) (n : Nat) (a : Nat × Nat) : Nat × Nat × Flags :=
  (List.range n).foldl (fun (r : Nat × Nat × Flags) k =>
    let p := tileMul (x k) (y k)
    let q := accAdd e r.1 r.2.1 p.1 p.2
    (q.1, q.2.1, r.2.2 ||| q.2.2)) (a.1, a.2, 0)

/-- The rounding of element i of accumulator z into a float element (R125). -/
def zRounded (s : State) (z : BitVec 2) (ty i : Nat) : Nat × Flags := tileRounded (tileFmt ty) (frmOf s.h.rmode) (s.accum z) i

/-- The byte offset in its tile of part q, of `un` bytes, of element (m, n) of `size` bytes, for every part in the order of transfer:
(row, byte). -/
def tileParts (s : State) (size un : Nat) : List (Nat × Nat) :=
  (List.range s.h.shape.m).flatMap fun m => (List.range s.h.shape.n).flatMap fun n =>
    (List.range (size / un)).map fun q => (m, n * size + q * un)

/-- The status map of accumulator z as bytes (R190). -/
def statusMap (s : State) (z : BitVec 2) (b : Nat) : Nat :=
  let M := s.h.shape.m
  let N := s.h.shape.n
  ((List.range 4).map fun q =>
    if 4 * b + q < M * N then zSt s z (64 * ((4 * b + q) / N) + (4 * b + q) % N) * 4 ^ q else 0).sum
end Sys2Proof.Safety

end
end

