-- ==== Sys2Proof/Certificates/Slice0/Obligations.lean ====
section
/-! DEFINITION. The statements for the provers. Each docstring names the rules of spec/ that it formalises. -/

open Sys2Proof Sys2Proof.Machine Sys2Proof.Safety

/-- Writing x to gd and moving the PC past an instruction of n bytes: gd reads x (g0 still reads 0, the write is discarded),
every other g register reads as before, the PC is n higher, and every other field of the state is as it was. The results of
the scalar instructions are stated with this operation (setGAdv), so this is their frame. Every ALU member of Table 6-2 completes for
every state and operands: gd takes the value the table gives (DIV, DIVN, REM and REMN also for divisor 0; the quotient -2^63 / -1
wraps to -2^63 and its remainder is 0), the PC moves on by 4 and nothing else changes. (R88, R89.) -/
def Obligations.ScalarRegisterResults : Prop :=
  (∀ (s : State) (d : BitVec 5) (x : Word) (n : Nat),
    let t := s.setGAdv d x n
    (∀ r : BitVec 5, t.getG r = if r = 0 then 0 else if r = d then x else s.getG r) ∧
    t.h.pc = s.h.pc + BitVec.ofNat 64 n ∧
    t = { s with h := { s.h with g := t.h.g, pc := t.h.pc } }) ∧
  ∀ (s : State) (d a b w : BitVec 5),
    let x := s.getG a
    let y := s.getG b
    let n := y.toNat % 64
    let puts (i : Instr) (r : Word) : Prop := exec i s = .next (s.setGAdv d r 4)
    puts (.add d a b) (x + y) ∧ puts (.sub d a b) (x - y) ∧ puts (.and d a b) (x &&& y) ∧ puts (.or d a b) (x ||| y) ∧
    puts (.xor d a b) (x ^^^ y) ∧ puts (.andn d a b) (x &&& ~~~y) ∧
    puts (.sll d a b) (x <<< n) ∧ puts (.srl d a b) (x >>> n) ∧ puts (.sra d a b) (x.sshiftRight n) ∧
    puts (.slt d a b) (if x.toInt < y.toInt then 1 else 0) ∧ puts (.sltn d a b) (if x.toNat < y.toNat then 1 else 0) ∧
    puts (.min d a b) (if x.toInt < y.toInt then x else y) ∧ puts (.max d a b) (if x.toInt < y.toInt then y else x) ∧
    puts (.minn d a b) (if x.toNat < y.toNat then x else y) ∧ puts (.maxn d a b) (if x.toNat < y.toNat then y else x) ∧
    puts (.mul d a b) (x * y) ∧ puts (.mulh d a b) (BitVec.ofInt 64 (x.toInt * y.toInt / 2 ^ 64)) ∧
    puts (.mulhn d a b) (BitVec.ofNat 64 (x.toNat * y.toNat / 2 ^ 64)) ∧
    puts (.div d a b) (if y = 0 then -1 else BitVec.ofInt 64 (x.toInt.tdiv y.toInt)) ∧
    puts (.divn d a b) (if y = 0 then -1 else BitVec.ofNat 64 (x.toNat / y.toNat)) ∧
    puts (.rem d a b) (if y = 0 then x else BitVec.ofInt 64 (x.toInt.tmod y.toInt)) ∧
    puts (.remn d a b) (if y = 0 then x else BitVec.ofNat 64 (x.toNat % y.toNat)) ∧
    (∃ r : Nat, r ≤ 64 ∧ puts (.clz d a) (BitVec.ofNat 64 r) ∧ (∀ j < r, x.getLsbD (63 - j) = false) ∧
      (r < 64 → x.getLsbD (63 - r) = true)) ∧
    puts (.popc d a) (BitVec.ofNat 64 ((List.range 64).countP fun j => x.getLsbD j)) ∧
    (w.toNat < 3 → puts (.sext d a w) ((x.setWidth (8 * 2 ^ w.toNat)).signExtend 64)) ∧
    (w.toNat < 3 → puts (.zext d a w) ((x.setWidth (8 * 2 ^ w.toNat)).setWidth 64))

/-- Every immediate member of Table 6-4 and every integer CI or CR form of Table 3-4 completes for every state and operands with
the value of its table in gd; the immediates are sign-extended, the PC moves on by 4 (by 2 for a compact form) and nothing
else changes. (R90.) -/
def Obligations.ScalarImmediateResults : Prop :=
  ∀ (s : State) (d a : BitVec 5) (i13 : BitVec 13) (i12 : BitVec 12) (i11 : BitVec 11) (i18 : BitVec 18) (i8 : BitVec 8)
    (n : BitVec 6),
    let x := s.getG a
    let y := s.getG d
    let puts (i : Instr) (r : Word) : Prop := exec i s = .next (s.setGAdv d r 4)
    let putc (i : Instr) (r : Word) : Prop := exec i s = .next (s.setGAdv d r 2)
    puts (.addi d a i13) (x + i13.signExtend 64) ∧
    puts (.andi d a i11) (x &&& i11.signExtend 64) ∧ puts (.ori d a i11) (x ||| i11.signExtend 64) ∧
    puts (.xori d a i11) (x ^^^ i11.signExtend 64) ∧
    puts (.slti d a i12) (if x.toInt < (i12.signExtend 64).toInt then 1 else 0) ∧
    puts (.sltni d a i12) (if x.toNat < (i12.signExtend 64).toNat then 1 else 0) ∧
    puts (.slli d a n) (x <<< n.toNat) ∧ puts (.srli d a n) (x >>> n.toNat) ∧ puts (.srai d a n) (x.sshiftRight n.toNat) ∧
    puts (.lih d i18) (i18.signExtend 64 * 0x4000) ∧ puts (.addpc d i18) (s.h.pc + i18.signExtend 64 * 0x4000) ∧
    putc (.cAddi d i8) (y + i8.signExtend 64) ∧ putc (.cMv d a) x ∧ putc (.cAdd d a) (y + x) ∧ putc (.cSub d a) (y - x) ∧
    putc (.cAnd d a) (y &&& x) ∧ putc (.cOr d a) (y ||| x) ∧ putc (.cXor d a) (y ^^^ x) ∧
    putc (.cSll d a) (y <<< (x.toNat % 64)) ∧ putc (.cSra d a) (y.sshiftRight (x.toNat % 64))

/-- Every FP and FFMA member completes for every state and operands: gd takes the result of the named binary32 operation on the
low 32 bits of the sources (of all 64 for FCVT.F.S, of the low 16 for the widening conversions) under FRM, or XRM for
FCVT.S.F, zero-extended; the classes raised are OR-ed into FST, EVX is unchanged, the PC moves on by 4, and nothing else
changes. A signalling NaN operand raises NV in every member, FCLASS among them. (06 Scalar floating point, R91, R92, R93.) -/
def Obligations.ScalarFpResults : Prop :=
  ∀ (s : State) (d a b c : BitVec 5),
    let frm := frmOf s.h.rmode
    let lo (r : BitVec 5) : Nat := (s.getG r).toNat % 2 ^ 32
    let half (r : BitVec 5) : Nat := (s.getG r).toNat % 2 ^ 16
    let v (r : BitVec 5) : FVal := Fmt.f32.unpack (lo r)
    let cmp (quiet : Bool) (rel : Bool) (p : Nat × Flags) : Prop :=
      (if (v a).isNaN || (v b).isNaN then p.1 = 0 else p.1 = rel.toNat) ∧
      p.2 = if (v a).isS || (v b).isS || (!quiet && ((v a).isNaN || (v b).isNaN)) then fNV else 0
    let gives (i : Instr) (r : Nat × Flags) : Prop :=
      exec i s = .next ({ s with h := { s.h with fst := s.h.fst ||| r.2.setWidth 64 } }.setGAdv d (BitVec.ofNat 64 r.1) 4)
    gives (.fadd d a b) (Fmt.f32.addV frm (v a) (v b)) ∧ gives (.fsub d a b) (Fmt.f32.addV frm (v a) (v b).negate) ∧
    gives (.fmul d a b) (Fmt.f32.mulV frm (v a) (v b)) ∧ gives (.fdiv d a b) (Fmt.f32.divV frm (v a) (v b)) ∧
    gives (.fsqrt d a) (Fmt.f32.sqrtV frm (v a)) ∧
    gives (.fmin d a b) (Fmt.f32.minmax false (lo a) (lo b)) ∧ gives (.fmax d a b) (Fmt.f32.minmax true (lo a) (lo b)) ∧
    (∃ p, gives (.feq d a b) p ∧ cmp true ((v a).eq (v b)) p) ∧
    (∃ p, gives (.flt d a b) p ∧ cmp false ((v a).lt (v b)) p) ∧
    (∃ p, gives (.fle d a b) p ∧ cmp false (!(v b).lt (v a)) p) ∧
    gives (.fcvtFS d a) (Fmt.f32.ofInt frm (s.getG a).toInt) ∧
    (let r := (v a).toInt (xrmOf s.h.rmode) (-2 ^ 63) (2 ^ 63 - 1)
     gives (.fcvtSF d a) ((BitVec.ofInt 64 r.1).toNat, r.2)) ∧
    gives (.fcvtFH d a) (Fmt.f16.convert .f32 .rne (half a)) ∧ gives (.fcvtFBf d a) (Fmt.bf16.convert .f32 .rne (half a)) ∧
    gives (.fcvtHF d a) (Fmt.f32.convert .f16 frm (lo a)) ∧ gives (.fcvtBfF d a) (Fmt.f32.convert .bf16 frm (lo a)) ∧
    gives (.fclass d a) (Fmt.f32.classify (lo a), if (v a).isS then fNV else 0) ∧
    gives (.ffma d a b c) (Fmt.f32.fmaV frm (v a) (v b) (v c)) ∧
    gives (.ffms d a b c) (Fmt.f32.fmaV frm (v a) (v b) (v c).negate) ∧
    gives (.fnma d a b c) (Fmt.f32.fmaV frm (v a).negate (v b) (v c)) ∧
    gives (.fnms d a b c) (Fmt.f32.fmaV frm (v a).negate (v b) (v c).negate)

/-- Each conditional branch completes for every state and operands: when its comparison holds, PC := PC + sext(offset) x 2, else
the PC moves past the branch; nothing else changes. JAL completes always. JALR and C.JR (gd = g0, offset 0) complete for an
even target: gd := PC + 4, PC := the target formed from gs1 as read before gd is written, and a landing check is due exactly
when ABICTL enables it and the instruction is no return (gd = g0, source lk). For an odd target they take trap 0x06 before
any effect with EADDR the target. (R94, R95.) -/
def Obligations.BranchAndJumpResults : Prop :=
  (∀ (s : State) (a b : BitVec 5) (o : BitVec 13) (r : BitVec 3) (o8 : BitVec 8) (o11 : BitVec 11),
    let x := s.getG a
    let y := s.getG b
    let z := s.getG (4 + r.setWidth 5)
    let goes (i : Instr) (c : Prop) (off : Word) (len : Word) : Prop :=
      (c → exec i s = .next { s with h := { s.h with pc := s.h.pc + off } }) ∧
      (¬c → exec i s = .next { s with h := { s.h with pc := s.h.pc + len } })
    let off := o.signExtend 64 * 2
    goes (.beq a b o) (x = y) off 4 ∧ goes (.bne a b o) (x ≠ y) off 4 ∧
    goes (.blt a b o) (x.toInt < y.toInt) off 4 ∧ goes (.bge a b o) (y.toInt ≤ x.toInt) off 4 ∧
    goes (.bltn a b o) (x.toNat < y.toNat) off 4 ∧ goes (.bgen a b o) (y.toNat ≤ x.toNat) off 4 ∧
    goes (.cBeqz r o8) (z = 0) (o8.signExtend 64 * 2) 2 ∧ goes (.cBnez r o8) (z ≠ 0) (o8.signExtend 64 * 2) 2 ∧
    goes (.cJ o11) True (o11.signExtend 64 * 2) 2) ∧
  (∀ (s : State) (d a : BitVec 5) (i : BitVec 13) (o : BitVec 18),
    let indirect (j : Instr) (d : BitVec 5) (target : Word) : Prop :=
      (target.getLsbD 0 = false → ∃ t, exec j s = .next t ∧
        (∀ r : BitVec 5, t.getG r = if r = 0 then 0 else if r = d then s.h.pc + 4 else s.getG r) ∧
        t.h.pc = target ∧
        t.h.branch = (if s.h.abictl.getLsbD 0 = true ∧ ¬(d = 0 ∧ a = 1) then some s.h.pc else none) ∧
        t = { s with h := { s.h with g := t.h.g, pc := t.h.pc, branch := t.h.branch } }) ∧
      (target.getLsbD 0 = true → exec j s = s.trapPre 0x06 target)
    exec (.jal d o) s = .next { (s.setG d (s.h.pc + 4)) with
      h := { (s.setG d (s.h.pc + 4)).h with pc := s.h.pc + o.signExtend 64 * 2 } } ∧
    indirect (.jalr d a i) d (s.getG a + i.signExtend 64) ∧ indirect (.cJr a) 0 (s.getG a))

/-- Every well-formed LDS, LDO (ord 0 or 1, scope up to package) and C.LD whose address is aligned and reached completes: gd
takes the little-endian number in the n bytes at the translated address, sign-extended for the even width codes and zero-
extended for the odd ones; every byte of memory is unchanged, and so is every tag but those of a signal page that is mapped
afresh, which become 0; nothing else changes but the PC and what an access leaves besides its bytes. (When a page counts as mapped
afresh is the model's reading: log 34, DEDUCED.) (06 Scalar loads and stores, R98, R254, R64.) -/
def Obligations.ScalarLoadResults : Prop :=
  ∀ (s : State) (i : Instr) (d : BitVec 5) (w : BitVec 3) (va : Word) (len : Nat) (p : Place),
    i.WellFormed → scalarLoad s i = some (d, w, va, len) → Reaching s .read true va (codeBytes w) p →
    ∃ t, exec i s = .next t ∧
      PutsG s t d (if w.getLsbD 0 then BitVec.ofNat 64 (leNat s p.key (codeBytes w))
        else (BitVec.ofNat (8 * codeBytes w) (leNat s p.key (codeBytes w))).signExtend 64) ∧
      t.h.pc = s.h.pc + BitVec.ofNat 64 len ∧ SameMem s t ∧ t.tags = tagsAt s p ∧ t.badMem = s.badMem ∧ t.dones = s.dones ∧
      AccessFrame s t

/-- Every well-formed STS, STO (ord 0 or 2, scope up to package) and C.ST whose address is aligned and reached completes: the n
bytes at the translated address take the low n bytes of the source, little-endian, every other byte of memory is unchanged, and
so is every g register; the tag of the word changes exactly when an STO releases to a page of signal type, to one that carries
the hart's CPTAG, and the tags of a signal page that is mapped afresh are 0 before (when a page counts as mapped afresh is the
model's reading: log 34, DEDUCED). Nothing else changes but the PC and what an access leaves besides its bytes. (06 Scalar loads
and stores, R98, R254, R255.) -/
def Obligations.ScalarStoreResults : Prop :=
  ∀ (s : State) (i : Instr) (x : Word) (w : BitVec 3) (va : Word) (len : Nat) (release : Bool) (p : Place),
    i.WellFormed → Memory.wf s.mem = true → scalarStore s i = some (x, w, va, len, release) →
    Reaching s .write true va (codeBytes w) p →
    ∃ t, exec i s = .next t ∧
      (∀ j < codeBytes w, Memory.byte t.mem (p.key + j) = x.extractLsb' (8 * j) 8) ∧ MemExcept s t p.key (codeBytes w) ∧
      t.h.g = s.h.g ∧ t.h.pc = s.h.pc + BitVec.ofNat 64 len ∧ AccessFrame s t ∧
      (if release = true ∧ p.signal = true then t.tags = SMap.set 0 (tagsAt s p) (p.key / 8) s.hartTag else t.tags = tagsAt s p)

/-- Every AMO and AMOW of a scope up to package whose address is aligned and reached completes: gd takes the old value, sign-
extended from the width; the n bytes take OP(old, b) of Table 14-3 with b the low n bytes of gs2, except that a CAS whose
old value differs from gd writes nothing; every other byte is unchanged; an atomic of ord 2 or 3 that writes to a page of
signal type tags the word with the hart's CPTAG, and the tags of a signal page that is mapped afresh are 0 before (when a page
counts as mapped afresh is the model's reading: log 34, DEDUCED). Nothing
else changes but the PC and what an access leaves besides its bytes. (14 Scalar atomics, R256, R255.) -/
def Obligations.AtomicResults : Prop :=
  ∀ (s : State) (i : Instr) (d a b : BitVec 5) (o : BitVec 2) (sc : BitVec 3) (n : Nat) (f : Nat → Nat → Option Nat) (p : Place),
    Memory.wf s.mem = true → atomicOf s i = some (d, a, b, o, sc, n, f) → sc ≠ 5 →
    Reaching s .atomic false (s.getG a) n p →
    let old := leNat s p.key n
    let new := f old ((s.getG b).toNat % 2 ^ (8 * n))
    ∃ t, exec i s = .next t ∧
      PutsG s t d ((BitVec.ofNat (8 * n) old).signExtend 64) ∧ t.h.pc = s.h.pc + 4 ∧
      (∀ x, new = some x → (∀ j < n, Memory.byte t.mem (p.key + j) = (BitVec.ofNat (8 * n) x).extractLsb' (8 * j) 8) ∧
        MemExcept s t p.key n ∧
        t.tags = if 2 ≤ o.toNat ∧ p.signal = true then SMap.set 0 (tagsAt s p) (p.key / 8) s.hartTag else tagsAt s p) ∧
      (new = none → SameMem s t ∧ t.tags = tagsAt s p) ∧ AccessFrame s t

/-- An LDS, STS, LDO, STO, C.LD, C.ST, AMO or AMOW (ord and scope as the form admits) whose address is not a multiple of its
width takes trap 0x06 before any effect, with EADDR = the address. An aligned LDS, LDO, C.LD, STS, STO or C.ST whose
translation fails (with a cause other than machine check for a load) takes the trap of that failure before any effect; the
page-fault cause of a load is 0x07 and of a store or atomic 0x08, always with EADDR = the address. (R63, R98, R337.) -/
def Obligations.ScalarAccessTraps : Prop :=
  (∀ (s : State) (i : Instr), i.WellFormed →
    (∀ d w va len, scalarLoad s i = some (d, w, va, len) → va.toNat % codeBytes w ≠ 0 → exec i s = s.trapPre 0x06 va) ∧
    (∀ x w va len r, scalarStore s i = some (x, w, va, len, r) → va.toNat % codeBytes w ≠ 0 → exec i s = s.trapPre 0x06 va) ∧
    (∀ d a b o sc n f, atomicOf s i = some (d, a, b, o, sc, n, f) → sc ≠ 5 → (s.getG a).toNat % n ≠ 0 →
      exec i s = s.trapPre 0x06 (s.getG a))) ∧
  (∀ (s : State) (i : Instr), i.WellFormed →
    (∀ d w va len f, scalarLoad s i = some (d, w, va, len) → va.toNat % codeBytes w = 0 →
      s.translate s.who .read true va = .error f → f.cause ≠ 0x13 → exec i s = s.trapPre f.cause f.eaddr) ∧
    (∀ x w va len r f, scalarStore s i = some (x, w, va, len, r) → va.toNat % codeBytes w = 0 →
      s.translate s.who .write true va = .error f → exec i s = s.trapPre f.cause f.eaddr) ∧
    (∀ (w : Who) (k : AccKind) (dev : Bool) (va : Word) (f : Flt), s.translate w k dev va = .error f → f.cause ≠ 0x13 →
      f.eaddr = va ∧ (f.cause = 0x0A ∨ f.cause = match k with | .read => 0x07 | .write => 0x08 | .atomic => 0x08 | .fetch => 0x09)))

/-- At a level that reaches it, CSRRD of every assigned CSR puts its value into gd: of a CSR that holds a register of the hart, of its
core or of its island that register; of STEPCLK the count of cycles, of PREQ 0, of DBGWP the value of the cluster that
DBGCTL.SEL selects, of CTXSIZE the bytes of the context image for what the hart holds, of DBGCTL SEL, whether that cluster is
frozen, and its STOPEN; CSRSET and CSRCLR with gs1 = g0 read alike. The PC moves on by 4 and nothing else changes. At a level
that reaches it and with a value the CSR admits, CSRWR, CSRSET and CSRCLR of every assigned CSR that is not read-only, and the
write steps of the table, complete: gd takes the old value as read before the write and the PC moves on by 4. For a CSR without
behaviour of its own (those of the row CSR_WRITE) the CSR reads the new value, every other CSR reads as before; memory, the
vector, mask, plane and X registers and every other hart are unchanged. (What the others do, CsrWriteSteps states.) CSRRD,
CSRWR, CSRSET, CSRCLR and the write steps trap before any effect: illegal instruction (0x01) for an unassigned CSR; else
privileged (0x03) when the level does not reach it; else illegal instruction for a write to a read-only CSR; else illegal
operand (0x02) for a value that the CSR refuses: the reserved bits and values of each CSR are spelled out in CsrRefuses. (06 CSR access, R99, R32, R33, R34.) -/
def Obligations.CsrAccess : Prop :=
  (∀ (s : State) (d : BitVec 5) (c : BitVec 11) (v : Word), (c, v) ∈ csrsOf s → LevelReaches s.h.lvl c →
    exec (.csrrd d c) s = .next (s.setGAdv d v 4) ∧ exec (.csrset d 0 c) s = .next (s.setGAdv d v 4) ∧
    exec (.csrclr d 0 c) s = .next (s.setGAdv d v 4)) ∧
  (∀ (s : State) (c : BitVec 11), csrAssigned c.toNat = true → ∃ v, (c, v) ∈ csrsOf s) ∧
  (∀ (s : State) (i : Instr) (d : BitVec 5) (c : BitVec 11) (f : Word → Word),
    Canonical s → s.h.slot = .run → csrWriter s i = some (d, c, f) → csrAssigned c.toNat = true → c.toNat / 0x200 ≠ 1 →
    LevelReaches s.h.lvl c → ¬CsrRefuses s c (f (s.csrGet c.toNat)) →
    ∃ t, exec i s = .next t ∧ PutsG s t d (s.csrGet c.toNat) ∧ t.h.pc = s.h.pc + 4 ∧
      (csrPlain c = true → t.csrGet c.toNat = f (s.csrGet c.toNat) ∧
        (∀ c' : BitVec 11, c' ≠ c → t.csrGet c'.toNat = s.csrGet c'.toNat) ∧ SameMem s t ∧
        t.others = s.others ∧ t.h.v = s.h.v ∧ t.h.k = s.h.k ∧ t.h.pl = s.h.pl ∧ t.h.e = s.h.e ∧ t.h.lvl = s.h.lvl)) ∧
  (∀ (s : State) (i : Instr) (d : BitVec 5) (c : BitVec 11) (f : Word → Word), csrWriter s i = some (d, c, f) →
    (csrAssigned c.toNat = false → exec i s = s.trapPre 0x01 s.ir ∧ exec (.csrrd d c) s = s.trapPre 0x01 s.ir) ∧
    (csrAssigned c.toNat = true →
      (¬LevelReaches s.h.lvl c → exec i s = s.trapPre 0x03 s.ir ∧ exec (.csrrd d c) s = s.trapPre 0x03 s.ir) ∧
      (LevelReaches s.h.lvl c → (0x200 ≤ c.toNat ∧ c.toNat < 0x400 → exec i s = s.trapPre 0x01 s.ir) ∧
        (¬(0x200 ≤ c.toNat ∧ c.toNat < 0x400) → CsrRefuses s c (f (s.csrGet c.toNat)) →
          exec i s = s.trapPre 0x02 s.ir))))

/-- At a level that reaches the CSR and with a value it admits, each write of one of these CSRs, by CSRWR, CSRSET, CSRCLR or
the write step of the table, completes with the old value in gd, and the vector and mask registers, the level, FST and all of
memory stay. VTYPE: the value, and SPAN is recomputed under the GRANT in use. LPART: the core takes the mode. PREQ: the
request is pending in the target hart, when it is placed. CPLOG: its fields take the value, and position and counts restart at
0. TRCTL: the fields take the value and the trace position restarts. ATOLL: the island takes the value. DBGCTL: SEL selects a
cluster and STOPEN becomes that of the cluster; with STOP a running one begins to freeze with cause 3; with GO a frozen one
runs, and what its skid buffer held has been delivered (with an empty one, nothing else changes). DUMPCTL: SIZE takes the
value; with GO, BUSY is set and the dump of the selected cluster begins, with the records of its harts as they stand. (That STOP wins
over GO in one write, that GO does nothing to a cluster that is not frozen, and the level under which a dump writes are the model's
reading: log 21, DEDUCED.) (R101,
R104, R288, R367, R304, R308, R342, R387, R389, R390, R391.) -/
def Obligations.CsrWriteSteps : Prop :=
  ∀ (s : State) (i : Instr) (d : BitVec 5) (c : BitVec 11) (f : Word → Word), Canonical s → s.h.slot = .run →
    csrWriter s i = some (d, c, f) → LevelReaches s.h.lvl c → ¬CsrRefuses s c (f (s.csrGet c.toNat)) →
    let x := f (s.csrGet c.toNat)
    let sel : BitVec 6 := x.extractLsb' 6 6
    let keeps (t : State) : Prop := PutsG s t d (s.csrGet c.toNat) ∧ t.h.pc = s.h.pc + 4 ∧ SameMem s t ∧ t.h.v = s.h.v ∧ t.h.k = s.h.k ∧
      t.h.lvl = s.h.lvl ∧ t.h.fst = s.h.fst
    let done (P : State → Prop) : Prop := ∃ t, exec i s = .next t ∧ keeps t ∧ P t
    (c = 0x000 → done (fun t => t.h.vtype = x ∧
      t.h.span = min 8192 (s.h.grant.toNat * (4096 / 2 ^ (x.extractLsb' 0 2).toNat) * 2 ^ (x.extractLsb' 3 2).toNat / 128))) ∧
    (c = 0x409 → done (fun t => t.core s.myCore = { s.core s.myCore with lpart := x })) ∧
    (c = 0x40D → done (fun t => (t.hart (x.setWidth 12)).preq = ((s.hart (x.setWidth 12)).preq || !s.slotFree (x.setWidth 12)))) ∧
    (c = 0x40B → done (fun t => (t.island s.myIsland).cplog = (x.extractLsb' 0 26).setWidth 64)) ∧
    (c = 0x602 → done (fun t => (t.island s.myIsland).trpos = 0 ∧
      (t.island s.myIsland).trctl.extractLsb' 0 30 = x.extractLsb' 0 30 ∧
      (t.island s.myIsland).trctl.extractLsb' 31 13 = x.extractLsb' 31 13)) ∧
    (c = 0x601 → done (fun t => (t.island s.myIsland).atoll = x)) ∧
    (c = 0x411 → (s.cluster s.myCluster).freeze = .running →
      (((s.cluster sel).skid = [] ∨ x.getLsbD 1 = false) → done (fun t => t.dbgsel = sel ∧ (t.cluster sel).stopen = x.getLsbD 4 ∧
        (x.getLsbD 0 = true → (s.cluster sel).freeze = .running →
          (t.cluster sel).freeze = .stopping ∧ (t.cluster sel).cause.code = 3) ∧
        (x.getLsbD 0 = false → (t.cluster sel).freeze =
          if x.getLsbD 1 = true ∧ (s.cluster sel).freeze = .frozen then .running else (s.cluster sel).freeze))) ∧
      (x.getLsbD 0 = false → x.getLsbD 1 = true → (s.cluster sel).freeze = .frozen → ∃ t, exec i s = .next t ∧
        PutsG s t d (s.csrGet c.toNat) ∧ t.h.pc = s.h.pc + 4 ∧ (t.cluster sel).freeze = .running ∧ (t.cluster sel).skid = [])) ∧
    (c = 0x410 → done (fun t => t.dumpctl.extractLsb' 0 40 = x.extractLsb' 0 40 ∧
      (x.getLsbD 60 = false → t.dump = s.dump ∧ t.dumpctl.getLsbD 63 = s.dumpctl.getLsbD 63) ∧
      (x.getLsbD 60 = true → t.dumpctl.getLsbD 63 = true ∧ ∃ j, t.dump = some j ∧ j.sel = s.dbgsel ∧ j.hart = s.h.id ∧ j.lvl = s.h.lvl ∧
        j.ptbr = s.h.ptbr ∧ j.base = s.dumpa ∧ j.size = (x.extractLsb' 0 40).toNat ∧ j.frozeAt = (s.cluster s.dbgsel).cause.at_ ∧
        j.records = s.dumpRecords s.dbgsel)))

/-- Every KOP member that writes a mask, and the three loop-bound compares, complete for every state, every mask operand k0
to k23 (k0 reads 1 below SPAN, and a write to it is discarded) and every g register: kd takes, bit by bit, the value of Table 6-11 or R105, the
loop-bound compares by the exact values with no wrap; the PC moves on by 4 and nothing else changes. MCOUNT, MFIRST, MLAST
and MTOG complete for every state: gd takes the number of ones below SPAN, the lowest or highest index below SPAN of a one
(all ones when there is none), or the 64 bits of the mask that gs2[6:0] selects; the PC moves on by 4 and nothing else
changes. (R105, R107.) -/
def Obligations.MaskResults : Prop :=
  (∀ (s : State) (d a b : BitVec 5), s.h.span ≤ 8192 → d.toNat < 24 →
    let p (j : Nat) : Bool := (s.h.getK a.toNat).getLsbD j
    let q (j : Nat) : Bool := (s.h.getK b.toNat).getLsbD j
    let g (r : BitVec 5) : Word := s.getG r
    let w := (g b).toNat % 128
    let writes (i : Instr) (f : Nat → Bool) : Prop :=
      ∃ t x, exec i s = .next t ∧ PutsK s t d x ∧ MaskFrame s t 4 ∧ ∀ j < 8192, x.getLsbD j = f j
    (a.toNat < 24 → writes (.mnot d a) (fun j => !p j) ∧ writes (.mcopy d a) p ∧
      (b.toNat < 24 → writes (.mand d a b) (fun j => p j && q j) ∧ writes (.mor d a b) (fun j => p j || q j) ∧
        writes (.mxor d a b) (fun j => p j ^^ q j) ∧ writes (.mandn d a b) (fun j => p j && !q j))) ∧
    writes (.mfill d) (fun _ => true) ∧ writes (.mzero d) (fun _ => false) ∧
    writes (.mfromg d a b) (fun j => if j / 64 = w then (g a).getLsbD (j % 64) else (s.h.getK d.toNat).getLsbD j) ∧
    writes (.limlt d a b) (fun j => decide (j < s.h.span ∧ (g a).toInt + j < (g b).toInt)) ∧
    writes (.limle d a b) (fun j => decide (j < s.h.span ∧ (g a).toInt + j ≤ (g b).toInt)) ∧
    writes (.limltn d a b) (fun j => decide (j < s.h.span ∧ (g a).toNat + j < (g b).toNat)) ∧
    (∀ j < 8192, (s.h.getK 0).getLsbD j = decide (j < s.h.span))) ∧
  (∀ (s : State) (d a b : BitVec 5), s.h.span ≤ 8192 → a.toNat < 24 →
    let p (j : Nat) : Bool := (s.h.getK a.toNat).getLsbD j
    let puts (i : Instr) (P : Word → Prop) : Prop := ∃ x, exec i s = .next (s.setGAdv d x 4) ∧ P x
    puts (.mcount d a) (fun x => x = BitVec.ofNat 64 ((List.range s.h.span).countP p)) ∧
    puts (.mfirst d a) (fun x => ((∀ j < s.h.span, p j = false) → x = -1) ∧
      ∀ j < s.h.span, p j = true → (∀ i < j, p i = false) → x = BitVec.ofNat 64 j) ∧
    puts (.mlast d a) (fun x => ((∀ j < s.h.span, p j = false) → x = -1) ∧
      ∀ j < s.h.span, p j = true → (∀ i < s.h.span, j < i → p i = false) → x = BitVec.ofNat 64 j) ∧
    puts (.mtog d a b) (fun x => ∀ j < 64, x.getLsbD j = p (64 * ((s.getG b).toNat % 128) + j)))

/-- Without streams and outside a gang, STRIP and SETVL sample GRANT as the smaller of the partition's share and the governor's
cap and recompute SPAN = min(8192, GRANT x (4096 / EWB) x G / 128); STRIP puts SPAN into gd; SETVL puts n = min(gs1, SPAN)
into gd, sets exactly the bits below n of k1, and counts in DEPCNT. VSETTYPE with a legal VTYPE sets it, recomputes SPAN
under the GRANT in use and puts it into gd; with another it raises illegal operand. Nothing else changes but the PC and, for
SETVL, the advisory that is due. (R19, R103, R104, R106, R70, R289.) -/
def Obligations.StripResults : Prop :=
  ∀ (s : State) (d a : BitVec 5),
    let share := if fld (s.core s.myCore).lpart 0 2 = 0 then 128 else if fld (s.core s.myCore).lpart 0 2 = 1 then 64 else 32
    let grant := min share (s.core s.myCore).cap
    let spanFor (g : Nat) (vt : Word) : Nat :=
      min 8192 (g * (4096 / 2 ^ (vt.extractLsb' 0 2).toNat) * 2 ^ (vt.extractLsb' 3 2).toNat / 128)
    let span := spanFor grant s.h.vtype
    let n := min (s.getG a).toNat span
    (NoStreams s →
      exec (.strip d) s = .next ({ s with h := { s.h with grant := BitVec.ofNat 64 grant, span } }.setGAdv d (BitVec.ofNat 64 span) 4) ∧
      ∃ t, exec (.setvl d a) s = .next t ∧ PutsG s t d (BitVec.ofNat 64 n) ∧
        (∀ j < 8192, (t.h.getK 1).getLsbD j = decide (j < n)) ∧ (∀ r < 24, 1 < r → t.h.getK r = s.h.getK r) ∧
        t = { s with h := { s.h with
          g := t.h.g, k := t.h.k, grant := BitVec.ofNat 64 grant, span, depcnt := s.h.depcnt + 1, pc := s.h.pc + 4,
          advisory := if s.h.estatus.getLsbD 16 = true ∧ s.h.lvl = .user then some s.h.pc else none } }) ∧
    (s.vtypeOk (s.getG a) = true → exec (.vsettype d a) s =
      .next ({ s with h := { s.h with vtype := s.getG a, span := spanFor s.h.grant.toNat (s.getG a) } }.setGAdv d
        (BitVec.ofNat 64 (spanFor s.h.grant.toNat (s.getG a))) 4)) ∧
    (s.vtypeOk (s.getG a) = false → exec (.vsettype d a) s = s.trapPre 0x02 s.ir)

/-- PREF, LAND and every unassigned hint only move the PC on by 4, whatever their fields; so does FENCE with a scope up to
package; PAUSE also stops the issue of its slot until the pause ends. GRANTQ writes gd with the SPAN that a STRIP would
compute now, or leaves it (which of the two is a free choice, log 7), and writes nothing with gd = g0; only the check of a gd that
it writes may be good again (R383). (R61, R62, R108,
R257.) -/
def Obligations.HintsChangeNothing : Prop :=
  ∀ (s : State) (d a b : BitVec 5) (f : BitVec 8) (sc : BitVec 3),
    let past : State := { s with h := { s.h with pc := s.h.pc + 4 } }
    exec (.pref d a b) s = .next past ∧ exec (.land d a b) s = .next past ∧ exec (.hintNop d a b f) s = .next past ∧
    (sc.toNat < 5 → exec (.fence 3 sc) s = .next past) ∧
    exec (.pause d a b) s = .next { past with h := { past.h with paused := true } } ∧
    (∃ t, exec (.grantq d a b) s = .next t ∧ t = { past with h := { past.h with g := t.h.g, bad := t.h.bad }, fresh := t.fresh } ∧
      ((t.h.g = s.h.g ∧ t.h.bad = s.h.bad) ∨
        (PutsG s t d (BitVec.ofNat 64 (spanOf s.sampleGrant s.h.vtype)) ∧ GoodAgain s t [(1, d.toNat)])) ∧ (d = 0 → t.h.g = s.h.g)) ∧
    (∀ h t, exec (.pauseEnd h) s = .next t → (t.hart h).paused = false) ∧
    exec (.pauseEnd s.h.id) s = .next { s with h := { s.h with paused := false } }

/-- A trap before any effect, of any cause but machine check, of a hart that resumes nothing: EPC = PC, EIX = 0, ECAUSE and
EADDR as given, TSEQ and ECONV 0; ESTATUS.PLV is the level that was running, PART, REPLAY, FRAISED, CMEM and FRQOV are 0, WOVT
and DEPADV are kept and PM is 1; the hart enters supervisor level at TVEC, but from firmware level, and for an ECALL at
supervisor level, firmware level at FVEC, bit 0 of the PC being 0; the queue is empty, with the credit of an empty one, and
pending producers other than stream deliveries complete: their registers are full and hold what was to come. No other v
register, no g, k, pl or X register, no other special register, no memory and no other hart changes, and no check but those of
the registers written. (What the model holds over
a trap beside the saved registers, a watch hit that is still due, is its own: log 53, DESIGN CHOICE.) (20 Taking a trap, R359,
R360, R358, R328, R30, R50.) -/
def Obligations.TrapEntry : Prop :=
  ∀ (s : State) (cause : Nat) (eaddr : Word), s.h.resume = [] → cause ≠ 0x13 →
    let firm := s.h.lvl = .firmware ∨ (s.h.lvl = .supervisor ∧ cause = 0x11)
    let seen := match s.h.watch with | some a => some a | none => s.h.watchHeld
    ∃ t, s.trapPre cause eaddr = .next t ∧
      t.h.epc = s.h.pc ∧ t.h.eix = 0 ∧ t.h.ecause = BitVec.ofNat 64 cause ∧ t.h.eaddr = eaddr ∧ t.h.econv = 0 ∧ t.h.tseq = 0 ∧
      t.h.estatus.extractLsb' 0 2 = levelCode s.h.lvl ∧ t.h.estatus.extractLsb' 2 14 = 0 ∧
      t.h.estatus.extractLsb' 16 2 = s.h.estatus.extractLsb' 16 2 ∧ t.h.estatus.getLsbD 18 = true ∧ t.h.estatus.extractLsb' 19 45 = 0 ∧
      (firm → t.h.lvl = .firmware ∧ t.h.pc = s.h.fvec &&& ~~~1) ∧ (¬firm → t.h.lvl = .supervisor ∧ t.h.pc = s.h.tvec &&& ~~~1) ∧
      (∀ r < 32, t.h.full[r]? = (s.h.full[r]?).map (doneBy .pipe)) ∧
      (∀ b, b ∈ t.h.bad ↔ b ∈ s.h.bad ∧ ∀ c ∈ ([0x400, 0x401, 0x402, 0x403, 0x404, 0x405, 0x40A] : List Nat), b ≠ (1, 64 + c)) ∧
      (∀ x ∈ t.h.shelf, x ∈ s.h.shelf ∨ (seen ≠ none ∧ x.watch = seen ∧ x.points = [] ∧ x.epc = s.h.pc)) ∧
      t = { s with
        trapped := true
        h := { s.h with
          epc := t.h.epc, eix := t.h.eix, ecause := t.h.ecause, eaddr := t.h.eaddr, econv := t.h.econv, tseq := t.h.tseq
          estatus := t.h.estatus, lvl := t.h.lvl, pc := t.h.pc, v := (arrived s).h.v, full := t.h.full, slot := .run, vq := []
          landAt := none, branch := none, watch := none, watchHeld := none, quota := none, shelf := t.h.shelf, paused := false
          bad := t.h.bad, yielding := [], credit := if s.h.vq = [] then s.h.credit else 0 } }

/-- ECALL takes cause 0x11 with EADDR 0. BRK takes cause 0x10 with EADDR 0, both with EIX 0 whatever is resumed there, except
when a debug stop is armed for the cluster: then it takes no trap, the PC moves on, and a running cluster begins to freeze with
cause 1 and this hart as its author. At user level ERET, TLBINV, FRQPOP, CTXSAVE, CTXLOAD and CPMARK take trap 0x03 (privileged)
before any effect. (R371, R388, R329, R372, R375, R377, R379, R380, R327.) -/
def Obligations.CallsAndPrivilege : Prop :=
  (∀ s : State,
    exec .ecall s = s.trap (Trap.pre 0x11 0) ∧
    ((s.cluster s.myCluster).stopen = false → exec .brk s = s.trap (Trap.pre 0x10 0)) ∧
    ((s.cluster s.myCluster).stopen = true → ∃ t, exec .brk s = .next t ∧ t.h.pc = s.h.pc + 4 ∧ t.h.g = s.h.g ∧ t.mem = s.mem ∧
      ((s.cluster s.myCluster).freeze = .running → (t.cluster t.myCluster).freeze = .stopping ∧
        (t.cluster t.myCluster).cause.code = 1 ∧ (t.cluster t.myCluster).cause.hart = some s.h.id))) ∧
  (∀ (s : State) (d a b : BitVec 5), s.h.lvl = .user →
    ∀ i ∈ [Instr.eret, .tlbinv a b, .frqpop d, .ctxsave, .ctxload, .cpmark d], exec i s = s.trapPre 0x03 s.ir)

/-- At supervisor or firmware level, with ESTATUS.PLV not above the current level and PART = REPLAY = 0, ERET completes: the
level becomes that of PLV, PM becomes 0 and the other bits of ESTATUS stay, PC = EPC with bit 0 as 0; earlier instructions
complete first, so that pending producers other than stream deliveries have filled their registers; nothing else changes,
and nothing is resumed but what the model itself holds for a return to this level and EPC, or behind an instruction of four bytes there
(log 53, DESIGN CHOICE). At user level, and
with PLV above the current level, it takes trap 0x03. (21 ERET, R372, R373, R50.) -/
def Obligations.EretResults : Prop :=
  ∀ s : State,
    (s.h.lvl = .user → exec .eret s = s.trapPre 0x03 s.ir) ∧
    (s.h.lvl ≠ .user → (levelCode s.h.lvl).toNat < (s.h.estatus.extractLsb' 0 2).toNat → ∃ t, exec .eret s = .next t ∧
      t.h.ecause = 3 ∧ t.h.epc = s.h.pc) ∧
    (s.h.lvl ≠ .user → (s.h.estatus.extractLsb' 0 2).toNat ≤ (levelCode s.h.lvl).toNat →
      s.h.estatus.getLsbD 5 = false → s.h.estatus.getLsbD 6 = false →
      ∃ t, exec .eret s = .next t ∧ levelCode t.h.lvl = s.h.estatus.extractLsb' 0 2 ∧ t.h.pc = s.h.epc &&& ~~~1 ∧
        (∀ j < 64, t.h.estatus.getLsbD j = if j = 18 then false else s.h.estatus.getLsbD j) ∧
        (∀ r < 32, t.h.full[r]? = (s.h.full[r]?).map (doneBy .pipe)) ∧
        (match s.h.shelf.find? (fun x => (x.epc == t.h.pc || x.epc + 4 == t.h.pc) && fld x.status 0 2 == fld s.h.estatus 0 2) with
          | none => t.h.resume = [] ∧ t.h.watch = none ∧ t.h.watchHeld = none ∧ t.h.shelf = s.h.shelf
          | some x => (∀ r ∈ t.h.resume, r ∈ x.points) ∧ t.h.watch = (if x.mid = true then s.h.watch else x.watch) ∧
            t.h.shelf = s.h.shelf.erase x) ∧
        t = { s with h := { s.h with
          lvl := t.h.lvl, pc := t.h.pc, estatus := t.h.estatus, vq := [], v := (arrived s).h.v, full := t.h.full, landAt := none
          credit := if s.h.vq = [] then s.h.credit else 0
          resume := t.h.resume, watch := t.h.watch, watchHeld := t.h.watchHeld, shelf := t.h.shelf } })

/-- When a hart that resumes nothing takes a trap before any effect (any cause but machine check, from any level) and its
handler executes ERET at once, the hart stands again at the trapping instruction (its PC, whose bit 0 is 0), at the level it
had, with every g, k, pl and X register, every CSR but those trap entry writes, and all of memory as before, and with every
v register as the pending producers that complete before a trap leave it. (20 Taking a trap, 21 ERET, R359, R360, R373,
R30, R50.) -/
def Obligations.TrapThenReturn : Prop :=
  ∀ (s t : State) (cause : Nat) (eaddr : Word), s.h.resume = [] → cause ≠ 0x13 → s.trapPre cause eaddr = .next t →
    ∃ u, exec .eret t = .next u ∧ u.h.pc = s.h.pc &&& ~~~1 ∧ u.h.lvl = s.h.lvl ∧ u.h.g = s.h.g ∧ u.h.v = (arrived s).h.v ∧
      u.h.k = s.h.k ∧ u.h.pl = s.h.pl ∧ u.h.e = s.h.e ∧ u.mem = s.mem ∧ u.others = s.others ∧ u.cores = s.cores ∧
      (∀ c : BitVec 11, c.toNat < 0x400 ∨ 0x405 < c.toNat → c.toNat ≠ 0x40A → u.csrGet c.toNat = s.csrGet c.toNat)

/-- At supervisor or firmware level and with a selector and address that R375 allows, TLBINV completes: in every core and
cluster of the issuing hart's atoll exactly the cached leaves that Table 21-4 selects (0 all; 1 those of the ASID that are not
global; 2 those that cover the address and are of the ASID or global; 3 those that cover the address) are gone, in their
order; no other core or cluster changes; mappings of signal pages that the tables hold no more are in use no more (log 34);
the PC moves on by 4 and nothing else changes. With another selector it takes trap 0x02. At supervisor or firmware level and
with gd one of 4, 8, ..., 28, FRQPOP puts the four words of the oldest fault record into gd to gd + 3, zeros when there is
none, and removes it; the PC moves on by 4, nothing else changes. Another gd raises illegal operand. (21 TLBINV, R375, R376,
R377, R366.) -/
def Obligations.TlbinvAndFrqpop : Prop :=
  (∀ (s : State) (a b : BitVec 5), Canonical s → s.h.lvl ≠ .user →
    let va := (s.getG a).toNat
    let sel := s.getG b
    let mode := (sel.extractLsb' 62 2).toNat
    let covers (e : TlbEntry) : Prop := e.base ≤ va ∧ va < e.base + 2 ^ e.log2
    let mine (e : TlbEntry) : Prop := e.asid = sel.extractLsb' 0 12
    let isGlobal (e : TlbEntry) : Prop := e.pte.getLsbD 5 = true
    let gone (e : TlbEntry) : Prop := mode = 0 ∨ (mode = 1 ∧ mine e ∧ ¬isGlobal e) ∨
      (mode = 2 ∧ covers e ∧ (mine e ∨ isGlobal e)) ∨ (mode = 3 ∧ covers e)
    let bad : Prop := sel.extractLsb' 12 50 ≠ 0 ∨ (2 ≤ mode ∧ 0x000FFFFE00000000 ≤ va)
    let left (old new : List TlbEntry) : Prop := new.Sublist old ∧ ∀ e, e ∈ new ↔ e ∈ old ∧ ¬gone e
    (bad → exec (.tlbinv a b) s = s.trapPre 0x02 s.ir) ∧
    (¬bad → ∃ t, exec (.tlbinv a b) s = .next t ∧
      (∀ c : BitVec 10, t.core c = { s.core c with tlb := (t.core c).tlb } ∧
        (if s.inAtoll s.myIsland (c.toNat / 128) then left (s.core c).tlb (t.core c).tlb else (t.core c).tlb = (s.core c).tlb)) ∧
      (∀ c : BitVec 6, t.cluster c = { s.cluster c with tlb := (t.cluster c).tlb } ∧
        (if s.inAtoll s.myIsland (c.toNat / 8) then left (s.cluster c).tlb (t.cluster c).tlb
          else (t.cluster c).tlb = (s.cluster c).tlb)) ∧
      t.signalMaps.Sublist s.signalMaps ∧
      t = { s with h := { s.h with pc := s.h.pc + 4 }, cores := t.cores, clusters := t.clusters, signalMaps := t.signalMaps })) ∧
  (∀ (s : State) (d : BitVec 5), s.h.lvl ≠ .user →
    (d.toNat % 4 ≠ 0 ∨ d = 0 → exec (.frqpop d) s = s.trapPre 0x02 s.ir) ∧
    (d.toNat % 4 = 0 → d ≠ 0 → ∃ t, exec (.frqpop d) s = .next t ∧
      (∀ r : BitVec 5, t.getG r = if r = 0 then 0 else
        match s.h.frq with
        | [] => if r.toNat / 4 = d.toNat / 4 then 0 else s.getG r
        | x :: _ => if r = d then x.va else if r = d + 1 then x.info else if r = d + 2 then x.pc else if r = d + 3 then x.who
          else s.getG r) ∧
      t = { s with h := { s.h with g := t.h.g, frq := s.h.frq.drop 1, pc := s.h.pc + 4 } }))

/-- At supervisor or firmware level, outside a gang, from its start, with the image at CTXA inside the window on the own
scratchpad, CTXSAVE completes: every word of the image is the one that Table 20-7 and Table 20-8 give the state after
earlier instructions have completed, every other byte of memory is unchanged; the fault record queue empties, stream
bindings end, every vector register is full, every block but B0 and every accumulator is given up; g, k, pl and X registers
and the level stay; the PC moves on by 4. At supervisor or firmware level, from its start, with the image at CTXA inside the
window on the own scratchpad, no register saved as empty, contents that R380 allows, and every block and accumulator it
lists to be had at once, CTXLOAD completes: the g, k, pl and X registers, the CSRs of Table 20-8 (but HARTID and CTXSIZE),
SPAN and the registers of block B0 are those of the image; the level stays and the PC moves on by 4. A CTXLOAD that waits
ends likewise when the last block or accumulator it waits for is granted. (21 Context save and load, R379, R369, R380,
R381.) -/
def Obligations.ContextResults : Prop :=
  (∀ (s : State) (key : Nat), Canonical s → s.h.lvl ≠ .user → s.gangOf s.h.id = none → s.h.resume = [] → NoWaiters s →
    Scratch s s.h.ctxa (8 * ctxWords s.drain.holding) key →
    ∃ t, exec .ctxsave s = .next t ∧
      (∀ j < ctxWords s.drain.holding, leNat t (key + 8 * j) 8 = (s.drain.ctxWord s.drain.holding j).toNat) ∧
      MemExcept s t key (8 * ctxWords s.drain.holding) ∧
      t.h.frq = [] ∧ t.h.streams = Vector.replicate 4 none ∧ (∀ r < 32, t.h.full[r]? = some .full) ∧ t.h.held = 0 ∧
      (∀ z, t.holdsZ z = false) ∧ t.h.g = s.h.g ∧ t.h.k = s.h.k ∧ t.h.pl = s.h.pl ∧ t.h.e = s.h.e ∧ t.h.lvl = s.h.lvl ∧
      t.h.pc = s.h.pc + 4 ∧ t.others = s.others) ∧
  (∀ (s : State) (key : Nat), Canonical s → s.h.lvl ≠ .user →
    (let img := imageAt s key
     s.h.resume = [] → NoWaiters s → Scratch s s.h.ctxa (8 * ctxWords (imageWants img)) key → s.drain.ctxBad img = false → img.extractLsb' 256 64 = 0 →
     s.h.slot = .run → (s.drain.giveUpAll.acquire (imageWants img)).1 = true →
     ∃ t, exec .ctxload s = .next t ∧ CtxLoaded s t img key) ∧
    (∀ img since, s.h.slot = .wait (.ctxload img) since → img.extractLsb' 256 64 = 0 →
     Scratch s s.h.ctxa (8 * ctxWords (imageWants img)) key → s.h.held = 0 →
     (s.acquire (imageWants img)).1 = true →
     ∃ t, exec (.ctxloadGrant s.h.id) s = .next t ∧ CtxLoaded s t img key))

/-- WFI puts the first reason that holds into gd (0 an event record is queued, 1 a pre-emption is pending and held by PM, 2 WTMO
has expired) and the PC moves on by 4; that of two reasons that hold the first in this order is reported is the model's reading
(log 35, DEDUCED); with none the hart waits at the WFI. A WFI that waits looks in the same way when it
is woken. A hart that waits at a BAR and has its departure with value x and edge q: gd = x, CPTAG takes q unless it is 0,
and the hart runs on past the BAR; memory and the other harts are unchanged. A hart that waits for the reply to a QPUSH over
the straits goes on with the status of the reply in gd, its message being on the way no more; nothing else changes, but that the
check of gd may be good again (R383). (R374, R312, R297, R298, R320.) -/
def Obligations.WaitsEnd : Prop :=
  (∀ (s : State) (d : BitVec 5),
    let first : Option Word :=
      if (s.core s.myCore).events ≠ [] then some 0
      else if s.h.preq = true ∧ s.h.estatus.getLsbD 18 = true then some 1
      else if s.timedOut = true then some 2 else none
    let ends (i : Instr) : Prop := (∀ x, first = some x → ∃ t, exec i s = .next t ∧ GoodAgain s t [(1, d.toNat)] ∧
        t = { s with h := { s.h with slot := .run, bad := t.h.bad } }.setGAdv d x 4) ∧
      (first = none → ∃ t since, exec i s = .next t ∧
        t = { s with h := { s.h with slot := .wait (.wfi d) since, lag := t.h.lag } })
    ends (.wfi d) ∧ (∀ since, s.h.slot = .wait (.wfi d) since → ends (.wfiWake s.h.id))) ∧
  (∀ (s : State) (d : BitVec 5) (key : Nat) (sc : BitVec 3) (target x q : Word) (again old : Bool) (since : Nat),
    s.h.slot = .wait (.bar d key sc target again old (some (x, q))) since →
    ∃ t, exec (.barDeparture s.h.id) s = .next t ∧ Returns s t d x ∧ t.h.cptag = (if q = 0 then s.h.cptag else q) ∧
      t.mem = s.mem ∧ t.others = s.others) ∧
  (∀ (s : State) (d : BitVec 5) (status : BitVec 2) (since : Nat), s.h.slot = .wait (.qpush d) since →
    ∃ t, exec (.qpushReply s.h.id status) s = .next t ∧ GoodAgain s t [(1, d.toNat)] ∧
      (∀ m, m ∈ t.outbox ↔ m ∈ s.outbox ∧ ∀ pkg y, m ≠ .push pkg s.h.id y) ∧
      t = { s with h := { s.h with slot := .run, bad := t.h.bad }, outbox := t.outbox }.setGAdv d (status.setWidth 64) 4)

/-- A first BAR at a scope below fleet (BARG at package scope) with C = gs2[31:0] not 0 and the rest of gs2 0, on an aligned
word reached at p and, for the memory claims, with no critical-path log: the word goes from x to x + 1 and no other byte
changes. When x + 1 is a multiple of C the instruction completes: gd = this hart's ID, every other hart that waits there for
that target, which no other write has brought about yet, has its departure with the same value, and a BARG counts in DEPCNT. Otherwise, when no other hart waits for the
value x + 1, the hart waits for the next multiple of C. C = 0 raises illegal operand. (17 Barriers, R310, R311, R312, R316,
R70.) -/
def Obligations.BarArrival : Prop :=
  ∀ (s : State) (d a b : BitVec 5) (sc : BitVec 3) (p : Place) (i : Instr),
    (i = .bar d a b sc ∧ sc ≠ 5 ∨ i = .barg d a b ∧ sc = 4) → Memory.wf s.mem = true → s.h.resume = [] → s.h.slot = .run →
    let va := s.getG a
    let c := (s.getG b).toNat
    let x := leNat s p.key 8
    let y := (x + 1) % 2 ^ 64
    (c = 0 → exec i s = s.trapPre 0x02 s.ir) ∧
    (c ≠ 0 → c < 2 ^ 32 → s.wordAt va true = .ok p → Reaching s .atomic false va 8 p →
      ((y + c - 1) / c * c < 2 ^ 64) → ∃ t, exec i s = .next t ∧
      (NoLog s → leNat t p.key 8 = y ∧ MemExcept s t p.key 8) ∧
      (y % c = 0 → Returns s t d (s.h.id.setWidth 64) ∧
        (∀ h ∈ s.others, h.awaitsBar p.key (BitVec.ofNat 64 y) = true → s.hasHit h.id = false → ∃ u ∈ t.others, u.id = h.id ∧
          ∃ d' sc' old edge since, u.slot =
            .wait (.bar d' p.key sc' (BitVec.ofNat 64 y) false old (some (s.h.id.setWidth 64, edge))) since) ∧
        t.h.depcnt = s.h.depcnt + (if i = .barg d a b then 1 else 0)) ∧
      (y % c ≠ 0 → s.others.any (fun h => h.awaitsBar p.key (BitVec.ofNat 64 y) && !s.hasHit h.id) = false → ∃ old,
        Waits s t (.bar d p.key sc (BitVec.ofNat 64 ((y + c - 1) / c * c)) false old none)))

/-- WAITA on an aligned word reached at p (equal, not equal, signed and unsigned greater or equal by its condition field): when
the condition holds for the word read, gd = the word and the hart goes on; when it does not and WTMO has not expired, the hart
waits and watches the word; and a WAITA that waits looks in the same way when a write wakes it, but that gd is the first value
written since that met the condition, whatever was written then (the model's reading: log 35, DEDUCED). An unaligned address
raises misaligned. Without a critical-path log no memory changes. A store of a watched word that has not been what it is watched
for is seen exactly when its value meets the condition, or, for a barrier, has reached the target. CHWAIT on a record in the own
scratchpad: when DONE (bit 63) of its word 3 is 1, gd = word 3; CHWAIT on a channel and an ID that was issued: when the ID
counts as complete, gd = CHST of the channel. Otherwise the hart waits, unless WTMO has expired. A CHWAIT that waits looks in
the same way when the transfer completes. A channel or an ID that R318 does not allow (bits above them set, an ID of 0 or not
yet issued) raises illegal operand, an unaligned record misaligned. (17 WAITA, R317, R311, 17 CHWAIT, R318, R249.) -/
def Obligations.MemoryWaitsReturn : Prop :=
  (∀ (s : State) (d a b : BitVec 5) (c : BitVec 2) (va y : Word) (p : Place),
    s.wordAt va false = .ok p → s.failing p.key 8 = false →
    let w : Word := BitVec.ofNat 64 (leNat s p.key 8)
    let holds : Prop := if c = 0 then w = y else if c = 1 then w ≠ y else if c = 2 then y.toInt ≤ w.toInt else y.toNat ≤ w.toNat
    let looks (i : Instr) (seen : Option Word) : Prop :=
      (∀ x, seen = some x → ∃ t, exec i s = .next t ∧ Returns s t d x ∧ (NoLog s → SameMem s t)) ∧
      (seen = none →
        (holds → ∃ t, exec i s = .next t ∧ Returns s t d w ∧ (NoLog s → SameMem s t)) ∧
        (¬holds → s.timedOut = false → ∃ t, exec i s = .next t ∧ Waits s t (.waita d va c y) ∧ SameMem s t ∧
          ∃ x, t.watches.find? (fun x => x.hart == s.h.id) = some x ∧ x.key = p.key ∧ (x.until_ = .meets c y ∨ x ∈ s.watches)) ∧
        (¬holds → s.timedOut = true → ∃ t, exec i s = .next t ∧ Returns s t d w ∧ SameMem s t))
    (va = s.getG a → y = s.getG b → s.h.slot = .run →
      (va.toNat % 8 = 0 → looks (.waita d a b (c.setWidth 3)) none) ∧
      (va.toNat % 8 ≠ 0 → exec (.waita d a b (c.setWidth 3)) s = s.trapPre 0x06 va)) ∧
    (∀ since, s.h.slot = .wait (.waita d va c y) since →
      (∀ x ∈ s.watches, x.hart = s.h.id → x.key = p.key) →
      looks (.waitaWake s.h.id) (((s.watches.find? fun x => x.hart == s.h.id).bind (·.hit)).map (·.1)))) ∧
  (∀ (s : State) (x : Watch) (v : Word), Memory.wf s.mem = true → x ∈ s.watches → x.hit = none →
    ∃ z ∈ (s.poke x.key 8 v.toNat).watches, z.hart = x.hart ∧ z.key = x.key ∧
      z.hit.map (·.1) = match x.until_ with
        | .meets c y => if (c = 0 ∧ v = y) ∨ (c = 1 ∧ v ≠ y) ∨ (c = 2 ∧ y.toInt ≤ v.toInt) ∨ (c = 3 ∧ y.toNat ≤ v.toNat)
            then some v else none
        | .reaches y => if (v - y).toNat < 2 ^ 63 then some v else none) ∧
  (∀ (s : State) (d a b : BitVec 5) (va : Word) (key : Nat) (ch : BitVec 3) (id : BitVec 48),
    s.timedOut = false →
    let w3 : Word := BitVec.ofNat 64 (leNat s (key + 24) 8)
    let c := (s.core s.myCore).chans[ch.toNat]'ch.isLt
    let complete : Prop := (c.chst - id).toNat < 2 ^ 47
    let looksRec (i : Instr) : Prop :=
      (w3.getLsbD 63 = true → ∃ t, exec i s = .next t ∧ Returns s t d w3 ∧ (NoLog s → SameMem s t)) ∧
      (w3.getLsbD 63 = false → ∃ t, exec i s = .next t ∧ Waits s t (.chwaitRec d va) ∧ SameMem s t)
    let looksId (i : Instr) : Prop :=
      (complete → ∃ t, exec i s = .next t ∧ Returns s t d (c.chst.setWidth 64) ∧ (NoLog s → SameMem s t)) ∧
      (¬complete → ∃ t, exec i s = .next t ∧ Waits s t (.chwaitId d ch id) ∧ SameMem s t)
    (Scratch s va 32 key → (va = s.getG a → looksRec (.chwait d a)) ∧
      (∀ since, s.h.slot = .wait (.chwaitRec d va) since → looksRec (.chwaitReturn s.h.id))) ∧
    (s.getG a = ch.setWidth 64 → s.getG b = id.setWidth 64 → id ≠ 0 →
      ((c.counter - id).toNat < 2 ^ 47 → looksId (.chwaitId d a b)) ∧
      ((id - c.counter).toNat ≠ 0 → (id - c.counter).toNat ≤ 2 ^ 47 → exec (.chwaitId d a b) s = s.trapPre 0x02 s.ir)) ∧
    ((s.getG a).extractLsb' 3 61 ≠ 0 ∨ (s.getG b).extractLsb' 48 16 ≠ 0 ∨ (s.getG b).extractLsb' 0 48 = 0 →
      exec (.chwaitId d a b) s = s.trapPre 0x02 s.ir) ∧
    (va = s.getG a → va.toNat % 8 ≠ 0 → exec (.chwait d a) s = s.trapPre 0x06 va) ∧
    (∀ since, s.h.slot = .wait (.chwaitId d ch id) since → looksId (.chwaitReturn s.h.id)))

/-- QPUSH to a queue whose record and next entry lie in the own scratchpad, apart from each other, and which no hart waits on:
with room, the entry at BASE + 32 (TAIL mod 2^LOG2N) takes the word of gs2, this hart's CPTAG and its producer ID, TAIL goes up
by 1, no other byte of memory changes and gd = 0; full, gd = 1 and no memory changes. A record that R320 does not allow raises
illegal operand; an address that is no multiple of 32 raises misaligned, in QPOP too. QPOP with gd even and not 0, of a local
queue whose record and head entry lie in the own scratchpad: with an entry, gd = its data and gd + 1 = 0, HEAD goes up by 1 and
(without a critical-path log) no other byte of memory changes; empty, the form that does not wait puts 1 into gd + 1 and leaves
gd and all memory, and the other form waits. A QPOP that waits takes the entry in the same way when a push wakes it. An odd gd,
or 0, raises illegal operand. (17 Queues, R319, R320.) -/
def Obligations.QueueResults : Prop :=
  (∀ (s : State) (d a b : BitVec 5) (key ekey : Nat),
    let va := s.getG a
    let q : QueueRec := ⟨BitVec.ofNat 64 (leNat s key 8), BitVec.ofNat 64 (leNat s (key + 8) 8), BitVec.ofNat 64 (leNat s (key + 16) 8),
      BitVec.ofNat 64 (leNat s (key + 24) 8)⟩
    let e := q.base + BitVec.ofNat 64 (32 * (q.tail.toNat % 2 ^ (q.ctl.extractLsb' 0 5).toNat))
    Memory.wf s.mem = true → s.h.slot = .run → va.toNat % 32 = 0 → Scratch s va 32 key → (∀ w ∈ s.poppers, w.1 ≠ key) →
    (q.bad = true → ∃ t, exec (.qpush d a b) s = .next t ∧ t.h.ecause = 2 ∧ t.h.epc = s.h.pc ∧ SameMem s t) ∧
    (q.bad = false → q.ctl.getLsbD 44 = false →
      (2 ^ (q.ctl.extractLsb' 0 5).toNat ≤ (q.tail - q.head).toNat →
        ∃ t, exec (.qpush d a b) s = .next t ∧ Returns s t d 1 ∧ SameMem s t) ∧
      ((q.tail - q.head).toNat < 2 ^ (q.ctl.extractLsb' 0 5).toNat → Scratch s e 32 ekey → (ekey + 32 ≤ key ∨ key + 32 ≤ ekey) →
        ∃ t, exec (.qpush d a b) s = .next t ∧ Returns s t d 0 ∧
          leNat t ekey 8 = (s.getG b).toNat ∧ leNat t (ekey + 8) 8 = s.h.cptag.toNat ∧
          leNat t (ekey + 16) 8 = 2 ^ 28 + s.h.id.toNat ∧ leNat t (ekey + 24) 8 = 0 ∧
          leNat t (key + 8) 8 = (q.tail.toNat + 1) % 2 ^ 64 ∧
          (∀ x, (x < ekey ∨ ekey + 32 ≤ x) → (x < key + 8 ∨ key + 16 ≤ x) → Memory.byte t.mem x = Memory.byte s.mem x)))) ∧
  (∀ (s : State) (d a : BitVec 5) (va : Word) (key ekey : Nat),
    let q : QueueRec := ⟨BitVec.ofNat 64 (leNat s key 8), BitVec.ofNat 64 (leNat s (key + 8) 8), BitVec.ofNat 64 (leNat s (key + 16) 8),
      BitVec.ofNat 64 (leNat s (key + 24) 8)⟩
    let e := q.base + BitVec.ofNat 64 (32 * (q.head.toNat % 2 ^ (q.ctl.extractLsb' 0 5).toNat))
    let took (t : State) : Prop :=
      (∀ r : BitVec 5, t.getG r = if r = 0 then 0 else if r = d then BitVec.ofNat 64 (leNat s ekey 8) else if r = d + 1 then 0
        else s.getG r) ∧ t.h.pc = s.h.pc + 4 ∧ t.h.slot = .run ∧ t.h.v = s.h.v ∧ t.h.k = s.h.k ∧
      (NoLog s → leNat t key 8 = (q.head.toNat + 1) % 2 ^ 64 ∧ MemExcept s t key 8)
    (d.getLsbD 0 = true ∨ d = 0 → exec (.qpop d a) s = s.trapPre 0x02 s.ir ∧ exec (.qpopNb d a) s = s.trapPre 0x02 s.ir) ∧
    (d.getLsbD 0 = false → d ≠ 0 → (s.getG a).toNat % 32 ≠ 0 → exec (.qpop d a) s = s.trapPre 0x06 (s.getG a) ∧
      exec (.qpopNb d a) s = s.trapPre 0x06 (s.getG a)) ∧
    (∀ b, (s.getG a).toNat % 32 ≠ 0 → exec (.qpush d a b) s = s.trapPre 0x06 (s.getG a)) ∧
    (d.getLsbD 0 = false → d ≠ 0 → Memory.wf s.mem = true → va.toNat % 32 = 0 → Scratch s va 32 key → q.bad = false →
      q.ctl.getLsbD 44 = false →
      (q.head ≠ q.tail → Scratch s e 32 ekey →
        (va = s.getG a → s.h.slot = .run → (∃ t, exec (.qpop d a) s = .next t ∧ took t) ∧ ∃ t, exec (.qpopNb d a) s = .next t ∧ took t) ∧
        (∀ since, s.h.slot = .wait (.qpop d va) since → ∃ t, exec (.qpopWake s.h.id) s = .next t ∧ took t)) ∧
      (q.head = q.tail → va = s.getG a → s.h.slot = .run →
        (∃ t, exec (.qpopNb d a) s = .next t ∧ Returns s t (d + 1) 1 ∧ SameMem s t) ∧
        ∃ t, exec (.qpop d a) s = .next t ∧ Waits s t (.qpop d va) ∧ SameMem s t)))

/-- CPREAD from its start: with CPTAG 0, gd = 0 and no memory changes. With CPTAG naming a record x that its island's ring on
this package holds and no word of which fails, with prior edge 0, room for one record and an aligned buffer in the own scratchpad: the 32 bytes of the
buffer are x, no other byte changes, and gd = 1. An unaligned buffer raises misaligned. At supervisor or firmware level
CPMARK completes: gd = STEPCLK, every island's step origin becomes STEPCLK, the PC moves on by 4; the vector, mask and X
registers and the other harts are unchanged. (That a slot counts in which a record stands from before CPLOG was last
configured is the model's choice: log 75, DESIGN CHOICE.) (17 CPREAD, R326, R307, R327, R306.) -/
def Obligations.CriticalPathResults : Prop :=
  (∀ (s : State) (d a b : BitVec 5), s.h.resume = [] →
    let buf := s.getG a
    (buf.toNat % 8 ≠ 0 → exec (.cpread d a b) s = s.trapPre 0x06 buf) ∧
    (buf.toNat % 8 = 0 → s.h.cptag = 0 → ∃ t, exec (.cpread d a b) s = .next t ∧ t = s.setGAdv d 0 4) ∧
    (∀ x key, buf.toNat % 8 = 0 → Memory.wf s.mem = true → s.h.cptag ≠ 0 → s.inAtoll s.myIsland (s.h.cptag.extractLsb' 61 3).toNat = true →
      s.findRecord false s.h.cptag = some x → x < 2 ^ 256 → x / 2 ^ 64 % 2 ^ 64 = 0 → (b = 0 ∨ s.getG b ≠ 0) → Scratch s buf 32 key →
      (∀ k, s.recordKey false s.h.cptag = some k → s.failing k 32 = false) →
      ∃ t, exec (.cpread d a b) s = .next t ∧ PutsG s t d 1 ∧ t.h.pc = s.h.pc + 4 ∧ leNat t key 32 = x ∧ MemExcept s t key 32)) ∧
  (∀ (s : State) (d : BitVec 5), s.h.lvl ≠ .user →
    ∃ t, exec (.cpmark d) s = .next t ∧ PutsG s t d (BitVec.ofNat 64 s.clk) ∧ t.h.pc = s.h.pc + 4 ∧
      (∀ i, (t.island i).origin = BitVec.ofNat 64 s.clk) ∧ t.h.v = s.h.v ∧ t.h.k = s.h.k ∧ t.h.e = s.h.e ∧ t.others = s.others)

/-- VACQ of what the hart holds puts 1 into gd. Of what is free and no hart waits for, it puts 0 into gd and the hart holds
it: a block at zero with full registers, an accumulator at zero that has taken no product (and with anchor 0, which is the
model's choice: log 1, DESIGN CHOICE). Of what is not free, the form that fails puts 2 into gd and the other form waits; a
VACQ that waits is granted in the same way once it is free and no older hart waits. VREL of a block with a bound stream raises
illegal operand; of a block without, or of an accumulator, that is held it gives it up: it is no longer held and its contents
are zero for the next holder; of one not held it takes trap 0x05. (17 Register residency, R324, R325, R344, R17.) -/
def Obligations.ResidencyResults : Prop :=
  ∀ (s : State) (d : BitVec 5) (tile : Bool) (i : BitVec 5), Canonical s → (if tile then i.toNat < 4 else 1 ≤ i.toNat ∧ i.toNat ≤ 3) →
    let w : Want := if tile then .tile (i.setWidth 2) else .block i.toNat
    let stall : Instr := if tile then .vacqTile d i else .vacq d i
    let fails : Instr := if tile then .vacqTileFail d i else .vacqFail d i
    let rel : Instr := .vrel (if tile then i + 8 else i)
    let free : Prop := if tile then (s.accum (i.setWidth 2)).holder = none else 0 < s.freeBlocks s.myCore
    let granted (t : State) : Prop := PutsG s t d 0 ∧ t.h.pc = s.h.pc + 4 ∧ t.h.slot = .run ∧ t.holds w = true ∧ SameMem s t ∧
      (if tile then t.accum (i.setWidth 2) = ⟨0, 0, 0, false, some (slotOf s.h.id)⟩ ∧ t.h.v = s.h.v
        else ∀ r < 32, (r / 8 = i.toNat → t.h.vreg r = 0 ∧ t.h.isFull r = true) ∧ (r / 8 ≠ i.toNat → t.h.vreg r = s.h.vreg r))
    (s.holds w = true → exec stall s = .next (s.setGAdv d 1 4) ∧ exec fails s = .next (s.setGAdv d 1 4)) ∧
    (s.holds w = false → free → s.h.slot = .run → s.waiters s.myCore w = [] →
      (∃ t, exec stall s = .next t ∧ granted t) ∧ ∃ t, exec fails s = .next t ∧ granted t) ∧
    (s.holds w = false → ¬free → exec fails s = .next (s.setGAdv d 2 4) ∧ ∃ t, exec stall s = .next t ∧ Waits s t (.vacq d tile i)) ∧
    (∀ since rest, s.h.slot = .wait (.vacq d tile i) since → free → s.waiters s.myCore w = slotOf s.h.id :: rest →
      ∃ t, exec (.vacqGrant s.h.id) s = .next t ∧ granted t) ∧
    (tile = false → s.blockBound i.toNat = true → exec rel s = s.trapPre 0x02 s.ir) ∧
    (s.holds w = false → (tile = false → s.blockBound i.toNat = false) → ∃ n, exec rel s = s.trapPre 0x05 n) ∧
    (s.holds w = true → NoWaiters s → (tile = false → s.blockBound i.toNat = false) → ∃ t, exec rel s = .next t ∧
      t.holds w = false ∧ t.h.pc = s.h.pc + 4 ∧ t.h.g = s.h.g ∧ SameMem s t ∧
      (if tile then (t.accum (i.setWidth 2)).holder = none ∧ (t.accum (i.setWidth 2)).acc = 0
        else ∀ r < 32, r / 8 = i.toNat → t.h.vreg r = 0))

/-- LAUNCH of a valid loop table that has only T levels, with an eligible FREE slot on the issuing hart's island, completes: gd
= the core's launch counter plus 1, and the slot that R282 picks runs a hart at user level at the table's entry with its
argument in g4, the launcher's PTBR, TVEC and ABICTL, VTYPE 2, and the indexes of the first iteration in IDX; the hart
itself moves on by 4. A table that is not aligned to 16 bytes takes trap 0x06, and one that is not valid trap 0x02. (17
LAUNCH, R321, R278, R279, R282, R13.) -/
def Obligations.LaunchResults : Prop :=
  ∀ (s : State) (d a : BitVec 5), Canonical s →
    let va := s.getG a
    (va.toNat % 16 ≠ 0 → exec (.launch d a) s = s.trapPre 0x06 va) ∧
    (s.readTable s.who va = .error ⟨0x02, va⟩ → exec (.launch d a) s = s.trapPre 0x02 va) ∧
    (∀ (tb : LoopTable) (u : State) (id : HartId), s.readTable s.who va = .ok (tb, u) → (∀ l ∈ tb.levels, l.kind = .t) →
      s.launches = [] → s.h.slot = .run → s.pickSlot s.myIsland = some id →
      ∃ t, exec (.launch d a) s = .next t ∧ PutsG s t d (((s.core s.myCore).launchCtr + 1).setWidth 64) ∧ t.h.pc = s.h.pc + 4 ∧
        SameMem s t ∧ (t.hart id).slot = .run ∧ (t.hart id).pc = tb.entry ∧ (t.hart id).lvl = .user ∧ (t.hart id).g[4] = tb.args ∧
        (t.hart id).ptbr = s.h.ptbr ∧ (t.hart id).tvec = s.h.tvec ∧ (t.hart id).abictl = s.h.abictl ∧ (t.hart id).vtype = 2 ∧
        (∀ j (h : j < 6), (t.hart id).idx[j] =
          match tb.levels[j]? with | some l => (l.first.signExtend 64) | none => 0))

/-- EXIT at user level of a hart in no gang whose launch has a next T iteration: the hart goes on at the launch's entry with its
argument in g4 and the indexes of that iteration in IDX, and everything else stays. With none left, and no stream bound, no
hart waiting for what it holds and no launch with harts to place, the hart retires: its slot is FREE and the other harts
stay as they are; that above user level it retires with T iterations left is the model's reading (log 40, DEDUCED). YIELD
gives up the slot's credit and names the other slots of the core that have an instruction ready, a slot that only waits for
this one among them; the slot goes on when none of those is left that is still ready. (R14, R15, R322, R323.) -/
def Obligations.ExitAndYield : Prop :=
  ∀ s : State,
    (∀ p cs, s.h.lvl = .user → InNoGang s → s.h.loop = some p → nextCounts p.levels p.counts = some cs →
      ∃ t, exec .exit s = .next t ∧ PutsG s t 4 p.args ∧ t = { s with h := { s.h with
        g := t.h.g, pc := p.entry, idx := indexRegs p.levels cs, loop := some { p with counts := cs } } }) ∧
    ((s.h.lvl ≠ .user ∨ s.h.loop = none ∨ ∃ p, s.h.loop = some p ∧ nextCounts p.levels p.counts = none) →
      InNoGang s → s.h.streams = Vector.replicate 4 none → NoWaiters s → (∀ l ∈ s.launches, l.pending = [] ∧ l.request = none) →
      ∃ t, exec .exit s = .next t ∧ t.h = Hart.reset s.h.id ∧ t.others = s.others ∧ SameMem s t) ∧
    (∃ t, exec .yield s = .next t ∧ t = { s with h := { s.h with credit := 0, pc := s.h.pc + 4, yielding := t.h.yielding } } ∧
      ∀ n : BitVec 2, n ∈ t.h.yielding ↔ n ≠ slotOf s.h.id ∧ (s.hart (s.myCore ++ n)).slot = .run ∧
        (s.hart (s.myCore ++ n)).paused = false ∧ ∀ m ∈ (s.hart (s.myCore ++ n)).yielding, m = slotOf s.h.id) ∧
    (∃ t, exec (.yieldEnd s.h.id) s = .next t ∧ t = { s with h := { s.h with yielding := t.h.yielding } } ∧
      ∀ n : BitVec 2, n ∈ t.h.yielding ↔ n ∈ s.h.yielding ∧ n ≠ slotOf s.h.id ∧ (s.hart (s.myCore ++ n)).slot = .run ∧
        (s.hart (s.myCore ++ n)).paused = false ∧ (s.hart (s.myCore ++ n)).yielding = [])

/-- STRMDEF of a record in the own scratchpad that R239 allows, for no gang, whose group is held and overlaps no group bound
already: with a free stream number, the lowest one is bound to the record at position 0, with the core, CPTAG and PTBR of now,
and goes to gd; with none free, gd is all ones; the PC moves on by 4 and nothing else changes. An unaligned record takes trap
0x06, one that R239 does not allow trap 0x02 with the record's address. STRMEND of a bound stream outside a gang: the stream
is no longer bound, the registers for which a delivery of it is pending count as full, their contents stay, and exactly when
the record says so an end record is posted to the core's event queue; the PC moves on by 4; g registers and memory are
unchanged. A number above 3, or of no bound stream, takes trap 0x02. (14 STRMDEF, R271, R239, 14 STRMEND, R272, R30.) -/
def Obligations.StreamBindings : Prop :=
  (∀ (s : State) (d a : BitVec 5) (key : Nat),
    let va := s.getG a
    let sh : Shape := Vector.ofFn fun i => BitVec.ofNat 64 (leNat s (key + 8 * i.val) 8)
    let free (n : BitVec 2) : Prop := s.h.streams[n.toNat]'n.isLt = none
    (va.toNat % 8 ≠ 0 → exec (.strmdef d a) s = s.trapPre 0x06 va) ∧
    (Scratch s va 64 key → sh.bad s.h.grp = true → exec (.strmdef d a) s = s.trapPre 0x02 va) ∧
    (Scratch s va 64 key → sh.bad s.h.grp = false → sh[6].getLsbD 6 = false → s.gangOf s.h.id = none →
      (∀ q ∈ s.boundStreams, Regs.overlap (bregOf q.shape, s.h.grp) (bregOf sh, s.h.grp) = false) →
      s.h.notHeld [(bregOf sh, s.h.grp)] = none →
      ((∀ n, ¬free n) → exec (.strmdef d a) s = .next (s.setGAdv d (-1) 4)) ∧
      ∀ n : BitVec 2, free n → (∀ m : BitVec 2, m < n → ¬free m) → exec (.strmdef d a) s =
        .next ({ s with h := { s.h with
          streams := s.h.streams.set n.toNat (some ⟨va, sh, 0, 0, s.myCore, s.h.cptag, [], s.h.ptbr⟩) n.isLt } }.setGAdv d (n.setWidth 64) 4))) ∧
  (∀ (s : State) (a : BitVec 5), s.gangOf s.h.id = none →
    let x := s.getG a
    (3 < x.toNat ∨ s.h.streams[(x.setWidth 2).toNat]'(x.setWidth 2).isLt = none → exec (.strmend a) s = s.trapPre 0x02 s.ir) ∧
    (∀ q : Stream, x.toNat ≤ 3 → s.h.streams[(x.setWidth 2).toNat]'(x.setWidth 2).isLt = some q → ∃ t, exec (.strmend a) s = .next t ∧
      (∀ m : BitVec 2, t.h.streams[m.toNat]'m.isLt = if m = x.setWidth 2 then none else s.h.streams[m.toNat]'m.isLt) ∧
      (∀ r < 32, t.h.full[r]? = (s.h.full[r]?).map (doneBy (.stream (x.setWidth 2)))) ∧
      t.h.v = s.h.v ∧ t.h.g = s.h.g ∧ t.mem = s.mem ∧ t.h.pc = s.h.pc + 4 ∧
      (q.shape[6].getLsbD 14 = false → t.cores = s.cores) ∧
      (q.shape[6].getLsbD 14 = true → Canonical s → (s.core q.core).events.length < 64 → ∃ e,
        (t.core q.core).events = (s.core q.core).events ++ [e] ∧ e.w0 = BitVec.ofNat 64 (4 * 2 ^ 56 + (x.setWidth 2).toNat))))

/-- STRIP of a hart whose one stream is a read stream that has not delivered yet, of the current width, with its group held,
every position of the strip below LEN in bounds and reached: gd = SPAN, the registers are empty for that stream, which has
written none of their element groups yet, their contents are as before until it writes, element i of the group is then
position i of the stream, or FILLV at and above LEN, and the position advances by SPAN. The g registers but gd, the masks
and all of memory are unchanged. A prefetch of a read stream that has nothing prefetched, while no cluster is frozen, reads
some of its positions into the stream's buffer, each with the value that is there, and leaves no more than reads leave: no
register, no memory, no position, no event changes; a fault on the way reports nothing. One that has is left alone. A fetch
of a gang stream whose strip 0 is not fetched, owned by the hart that moves, whose positions are reached: the strip is kept
with the values read, element by element, and with none where each member puts its own FILLV (2^64 is no element's value); no
register and no memory changes. (13 Strips of a stream, R242, R103, R244, R246,
R27, R23.) -/
def Obligations.StreamStripsAndFetches : Prop :=
  (∀ (s : State) (d : BitVec 5) (n : BitVec 2) (q : Stream) (x : Nat → Nat),
    s.gangOf s.h.id = none → (∀ r, s.h.full[r]? ≠ none → s.h.isFull r = true) →
    (∀ m : BitVec 2, s.h.streams[m.toNat]'m.isLt = if m = n then some q else none) →
    q.pos = 0 → q.buf = [] → q.shape.writes = false → q.shape.ewc = fld s.h.vtype 0 2 → Regs.aligned (bregOf q.shape, s.h.grp) = true →
    s.h.notHeld [(bregOf q.shape, s.h.grp)] = none →
    let grant := s.sampleGrant
    let span := spanOf grant s.h.vtype
    let s₁ : State := { s with h := { s.h with grant := BitVec.ofNat 64 grant, span } }
    (∀ e < min span q.shape.len, q.shape.oob e = false ∧ s.readPos (s.streamWho q) q.shape (s.h.fillAt (8 * q.shape.bytes)) e = .ok (x e, s)) →
    (∀ e, x e < 2 ^ s.h.ew) → span ≤ 4096 / (s.h.ew / 8) * s.h.grp →
    ∃ t, exec (.strip d) s = .next t ∧ PutsG s t d (BitVec.ofNat 64 span) ∧ t.h.span = span ∧ t.h.grant = s₁.h.grant ∧
      EmptyRun s₁ (.stream n) (bregOf q.shape, s.h.grp) s.h.grp (stripGroups s₁) t.h.full ∧ t.h.v = s.h.v ∧
      (∀ i < span, el (arrivedBy (.stream n) t) (bregOf q.shape) s.h.grp s.h.ew i =
        if i < q.shape.len then x i else s.h.fillv.toNat % 2 ^ s.h.ew) ∧
      (t.h.streams[n.toNat]'n.isLt).map (fun q => (q.pos, q.prev)) = some (span, 0) ∧ t.h.k = s.h.k ∧ t.mem = s.mem ∧
      t.h.pc = s.h.pc + 4) ∧
  ((∀ (s : State) (n : BitVec 2), (∀ c, (s.cluster c).freeze ≠ .frozen) → ∃ t, exec (.streamPrefetch s.h.id n) s = .next t ∧
      t.h = { s.h with streams := t.h.streams } ∧ AccessFrame { s with h := t.h } t ∧ SameMem s t ∧
      (∀ m : BitVec 2, m ≠ n → t.h.streams[m.toNat]'m.isLt = s.h.streams[m.toNat]'m.isLt) ∧
      (∀ q, s.h.streams[n.toNat]'n.isLt = some q → q.shape.writes = false →
        (q.buf ≠ [] → t = s) ∧
        (q.buf = [] → ∃ b, t.h.streams[n.toNat]'n.isLt = some { q with buf := b, space := s.h.ptbr } ∧
          ∀ p ∈ b, q.pos ≤ p.1 ∧ p.1 < q.shape.len ∧ q.shape.oob p.1 = false ∧
            ∃ v u, v.h = s.h ∧ AccessFrame s v ∧ SameMem s v ∧ v.readPos (s.streamWho q) q.shape 0 p.1 = .ok (p.2, u)))) ∧
  (∀ (s : State) (g : Gang) (q : GangStream) (xs : List Nat), Canonical s →
    (s.cluster s.myCluster).gangs = [g] → g.grant.isSome = true → s.h.id ∈ g.members → g.streams = [q] → q.owner = s.h.id →
    q.fetched = [] → q.slowest = 0 →
    s.readRun (s.gangWho q) q.stream.shape (2 ^ 64) [] 0 s.h.span = .ok (xs, s) →
    ∃ t, exec (.gangStreamFetch s.myCluster g.cores q.num) s = .next t ∧
      (t.cluster s.myCluster).gangs = [{ g with streams := [{ q with
        fetched := [(0, xs.map fun x => if x = 2 ^ 64 then none else some x)] }] }] ∧ t.h = s.h ∧ t.mem = s.mem))

/-- GANGBIND on the hart's own core alone, with a legal VTYPE and no gang there, forms its gang at once: VTYPE is the one given,
GRANT what the lanes allow now, SPAN follows, gd = rank 0. With another core in the mask that has not joined, the hart
waits. When every core of a mask has joined, the gang forms (here: that of one core). GANGFREE leaves a formed gang of one,
which goes. A mask without the own core, with bits above 15, or with an illegal VTYPE takes trap 0x02. (14 Gangs, R275,
R276.) -/
def Obligations.GangResults : Prop :=
  ∀ (s : State) (d a b : BitVec 5), Canonical s →
    let m := s.getG a
    let vt := s.getG b
    let me := s.myCore.toNat % 16
    let cl := s.myCluster
    let joined (t : State) (d : BitVec 5) : Prop :=
      PutsG s t d 0 ∧ t.h.pc = s.h.pc + 4 ∧ t.h.slot = .run ∧ t.h.vtype = vt ∧ t.h.grant = BitVec.ofNat 64 (s.laneGrant s.myCore) ∧
        t.h.span = spanOf (s.laneGrant s.myCore) vt ∧ t.h.v = s.h.v ∧ t.mem = s.mem ∧
        ∃ g, (t.cluster cl).gangs = [g] ∧ g.members = [s.h.id] ∧ g.grant = some (s.laneGrant s.myCore) ∧ g.vtype = vt
    (m.extractLsb' 16 48 ≠ 0 ∨ m.getLsbD me = false ∨ legalVtype vt = false → exec (.gangbind d a b) s = s.trapPre 0x02 s.ir) ∧
    (legalVtype vt = true → (s.cluster cl).gangs = [] → s.laneGrant s.myCore ≤ 128 →
      (m.toNat = 2 ^ me → ∃ t, exec (.gangbind d a b) s = .next t ∧ joined t d) ∧
      (m.extractLsb' 16 48 = 0 → m.getLsbD me = true → (∃ j < 16, j ≠ me ∧ m.getLsbD j = true) →
        ∃ t, exec (.gangbind d a b) s = .next t ∧ Waits s t (.gang d (m.setWidth 16) vt))) ∧
    (∀ since, s.h.slot = .wait (.gang d (BitVec.ofNat 16 (2 ^ me)) vt) since → s.laneGrant s.myCore ≤ 128 →
      (s.cluster cl).gangs = [⟨BitVec.ofNat 16 (2 ^ me), vt, [s.h.id], none, 0, []⟩] →
      ∃ t, exec (.gangFormed cl (BitVec.ofNat 16 (2 ^ me))) s = .next t ∧ joined t d) ∧
    (∀ c g, (s.cluster cl).gangs = [⟨c, vt, [s.h.id], some g, 1, []⟩] → ∃ t, exec .gangfree s = .next t ∧
      (t.cluster cl).gangs = [] ∧ t.h.pc = s.h.pc + 4 ∧ t.h.g = s.h.g ∧ t.h.v = s.h.v ∧ t.mem = s.mem ∧
      t.h.tshp.extractLsb' 32 4 = 0)

/-- COPY of a record in the own scratchpad that R247 allows, without a shape: with room on its channel, gd = the next ID of the
channel, the transfer joins the channel's queue with the record's words and the hart's level, PTBR, FILLV and CPTAG, DONE
and ERR in the record become 0, and no other byte of memory changes; with 16 transfers there, the hart waits. A COPY that
waits issues in the same way when there is room. An unaligned record takes trap 0x06, one that R247 does not allow trap 0x02
with its address. EVPOP with gd even and not 0: gd and gd + 1 take the two words of the oldest record of the core's event
queue, which leaves it, or 0 when there is none; the PC moves on by 4. An odd gd, or 0, raises illegal operand. (14 COPY,
R273, R247, R249, R274, R252.) -/
def Obligations.CopyIssuesAndEvents : Prop :=
  (∀ (s : State) (d a : BitVec 5) (va : Word) (key : Nat), Canonical s →
    let r := recordAt s va key
    let ch := (s.core s.myCore).chans[r.ch.toNat]'r.ch.isLt
    let issued (t : State) (r : Transfer) (ch : Channel) : Prop := Returns s t d ((ch.counter + 1).setWidth 64) ∧
      (t.core s.myCore).chans[r.ch.toNat]'r.ch.isLt =
        { ch with counter := ch.counter + 1, queue := ch.queue ++ [{ r with id := ch.counter + 1 }] } ∧
      leNat t (key + 24) 8 = r.ctl.toNat ∧ MemExcept s t (key + 24) 8
    (va = s.getG a → va.toNat % 8 ≠ 0 → exec (.copy d a) s = s.trapPre 0x06 va) ∧
    (Scratch s va 32 key → va = s.getG a →
      (r.bad = true → exec (.copy d a) s = s.trapPre 0x02 va) ∧
      (r.bad = false → r.ctl.getLsbD 10 = false →
        (ch.queue.length < 16 → s.h.slot = .run → ∃ t, exec (.copy d a) s = .next t ∧ issued t r ch) ∧
        (16 ≤ ch.queue.length → ∃ t, exec (.copy d a) s = .next t ∧ Waits s t (.copy d r) ∧ SameMem s t))) ∧
    (∀ (r : Transfer) since, s.h.slot = .wait (.copy d r) since → Scratch s va 32 key → r.record = va → r.ctl.toNat < 2 ^ 56 →
      r.hart = s.h.id ∧ r.lvl = s.h.lvl ∧ r.ptbr = s.h.ptbr ∧ r.fillv = s.h.fillv ∧ r.tag = s.h.cptag →
      ((s.core s.myCore).chans[r.ch.toNat]'r.ch.isLt).queue.length < 16 →
      ∃ t, exec (.copyChannelRoom s.h.id) s = .next t ∧ issued t r ((s.core s.myCore).chans[r.ch.toNat]'r.ch.isLt))) ∧
  (∀ (s : State) (d : BitVec 5), Canonical s →
    (d.getLsbD 0 = true ∨ d = 0 → exec (.evpop d) s = s.trapPre 0x02 s.ir) ∧
    (d.getLsbD 0 = false → d ≠ 0 → ∃ t, exec (.evpop d) s = .next t ∧ t.h.pc = s.h.pc + 4 ∧ SameMem s t ∧
      (t.core s.myCore).events = (s.core s.myCore).events.drop 1 ∧
      ∀ r : BitVec 5, t.getG r = if r = 0 then 0 else
        if r = d then (match (s.core s.myCore).events with | [] => 0 | e :: _ => e.w0)
        else if r = d + 1 then (match (s.core s.myCore).events with | [] => 0 | e :: _ => e.w1) else s.getG r))

/-- A plain copy at the head of a channel of the core that moves, between places in its own scratchpad that do not overlap: the
engine moves all n bytes from source to destination, no other byte changes, and the transfer has met no error. Then it
completes: word 3 of the record shows DONE and ERR 0, CHST is the transfer's ID, it leaves the queue, and with EV an event
record is posted. (13 Copies, R247, R248, R249, R250.) -/
def Obligations.CopyMovesAndCompletes : Prop :=
  ∀ (s : State) (ch : BitVec 3) (r : Transfer) (rest : List Transfer) (sk dk key : Nat), Canonical s →
    (s.core s.myCore).chans[ch.toNat].queue = r :: rest → r.ch = ch → coreOf r.hart = s.myCore → r.shape = none →
    r.ctl.getLsbD 9 = false → r.ctl.getLsbD 44 = false →
    let n := (r.len.extractLsb' 0 40).toNat
    (r.outcome = none → Scratch s r.src n sk → Scratch s r.dst n dk → (sk + n ≤ dk ∨ dk + n ≤ sk) → 0 < n →
      ∃ t, exec (.copyTransferStart s.myCore ch) s = .next t ∧
        (∀ i < n, Memory.byte t.mem (dk + i) = Memory.byte s.mem (sk + i)) ∧ MemExcept s t dk n ∧ t.h = s.h ∧
        (t.core s.myCore).chans[ch.toNat] =
          { (s.core s.myCore).chans[ch.toNat] with queue := { r with outcome := some (0, 0) } :: rest }) ∧
    (r.outcome = some (0, 0) → Scratch s r.record 32 key → (s.core s.myCore).events.length < 64 → ∃ t,
      exec (.copyComplete s.myCore ch) s = .next t ∧ t.h = s.h ∧ MemExcept s t (key + 24) 8 ∧
        leNat t (key + 24) 8 = 2 ^ 63 + r.ctl.toNat % 2 ^ 56 ∧
        (t.core s.myCore).chans[ch.toNat].chst = r.id ∧ (t.core s.myCore).chans[ch.toNat].queue = rest ∧
        (r.ctl.getLsbD 11 = false → (t.core s.myCore).events = (s.core s.myCore).events) ∧
        (r.ctl.getLsbD 11 = true → ∃ e, (t.core s.myCore).events = (s.core s.myCore).events ++ [e] ∧
          e.w0 = BitVec.ofNat 64 (2 ^ 56 + r.id.toNat)))

/-- In a cluster that is not frozen and an island that does not trace, with no lane group bound. A ready head of the lanes is one
that has not begun, or whose next element group does not wait for a reply. A ready head of a partition of one slot, or of the
shared partition on its turn with credit, gets the lowest lane group of its partition for one beat: the beat's cycles come off
the slot's credit (to which its visit in a round has added 64 x WSHARE[3:0] once), the last of the GRANT/16 beats of an element
group completes a unit, and the head leaves with its last unit; a beat whose element group then waits for a reply completes
nothing and releases the lane groups, and the head is not bound again before the reply. A head of WSHARE 0 in a partition of
its own gets the lanes and no credit is counted. The sequencer runs one unit of a tile or X head when it is the slot's turn, and
the next slot's turn follows. A full queue's head goes on in the same way to make room, and a queue with room is left alone. An
arrival writes one more element group of an empty register, and with the last one that its producer has the register is full:
with GRANT a multiple of 16 from 16 to 128 and SPAN below its cap there are 4 x G of them a strip, and with G = 1 the fourth
arrival is the last. A wait for a register has what it waits for when its producer has written on: an element group for a reader
of element groups, else all that is left. TSYNC returns when no earlier tile or X instruction stands in the queue, at once or
after a wait, and waits otherwise, as it does when it has waited before. The governor sets a core's cap to 16 (cap + 1) when
4,096 cycles have passed since its last change, and not before. (That the lowest free lane group is bound, that a full queue's
head goes on by this event, and that a register wait completes all that is left at once are the model's choices: logs 3 and 5,
DESIGN CHOICE; a TSYNC that has waited before: log 47.) (R285, R286, R287, R291, R22, R23, R27, R28, R29, R193, R289.) -/
def Obligations.UnitsAndArrivals : Prop :=
  ∀ (s : State) (q : Queued) (qs : List Queued), Canonical s → s.gated s.h.id = false → (s.island s.myIsland).trctl.getLsbD 0 = false →
    let me := slotOf s.h.id
    let mode := ((s.core s.myCore).lpart.extractLsb' 0 2).toNat
    let share := (s.h.wshare.extractLsb' 0 4).toNat
    let waits (q : Queued) : Bool := q.dst.any fun r =>
      (s.h.emptyIn [r]).isSome && decide (s.h.bytesReady r.1 r.2 / groupBytes s ≤ q.done)
    let ready : Prop := q.pipe ≠ .tile ∧ q.pipe ≠ .xexp ∧ (q.begun = false ∨ waits q = false)
    let unit := if q.done + 1 < q.units then { q with done := q.done + 1, beats := 0, begun := true } :: qs else qs
    let beat := if waits q = true then { q with begun := true } :: qs
      else if q.beats + 1 < max 1 (s.h.grant.toNat / 16) then { q with beats := q.beats + 1, begun := true } :: qs else unit
    let tiles : Prop := (q.pipe = .tile ∨ q.pipe = .xexp) ∧ q.todo = none
    let own : Prop := mode = 2 ∨ mode = 1 ∧ me.toNat < 2
    let first : BitVec 3 := if mode = 0 then 0 else if mode = 1 then BitVec.ofNat 3 (4 * me.toNat) else BitVec.ofNat 3 (2 * me.toNat)
    let bound (t : State) (cy : BitVec 6) (c : Int) : Prop :=
      t.h = { s.h with vq := beat, credit := if beat = [] then 0 else c } ∧ t.mem = s.mem ∧ t.others = s.others ∧
        (t.core s.myCore).bound = (if (beat.head?.any fun r => r.begun && waits r) = true then [] else [⟨first, me, s.clk + (cy.toNat + 1)⟩])
    let visited : Int := if (s.core s.myCore).credited.contains me = true then s.h.credit else s.h.credit + 64 * (share : Int)
    let round : Int := if 0 < visited then visited else visited + 64 * (share : Int)
    (s.h.vq = q :: qs → (s.core s.myCore).bound = [] → ∀ cy : BitVec 6,
      (own → ready → share = 0 ∨ 0 < round → ∃ t, exec (.laneBinding s.h.id cy) s = .next t ∧
        bound t cy (if share = 0 then s.h.credit else round - (cy.toNat + 1))) ∧
      (own → q.pipe ≠ .tile → q.pipe ≠ .xexp → q.begun = true → waits q = true → ∃ t, exec (.laneBinding s.h.id cy) s = .next t ∧
        t.h = s.h ∧ t.mem = s.mem ∧ t.others = s.others ∧ (t.core s.myCore).bound = []) ∧
      (mode = 0 → ready → share ≠ 0 → (s.core s.myCore).visit = me → 0 < visited →
        ∃ t, exec (.laneBinding s.h.id cy) s = .next t ∧ bound t cy (visited - (cy.toNat + 1)) ∧
          (t.core s.myCore).visit = me ∧ (t.core s.myCore).credited.contains me = true)) ∧
    (s.h.vq = q :: qs → tiles → (s.core s.myCore).seqNext = me → ∃ t,
      exec (.sequencerUnit s.myCore) s = .next t ∧ t.h.vq = unit ∧ (t.core s.myCore).seqNext = me + 1 ∧
      t.h.v = s.h.v ∧ t.mem = s.mem) ∧
    (s.h.vq = q :: qs → 15 ≤ qs.length →
      (tiles → (s.core s.myCore).seqNext = me → ∃ t, exec (.vectorQueueRoom s.h.id) s = .next t ∧ t.h.vq = unit ∧ t.mem = s.mem) ∧
      (ready → (s.core s.myCore).bound = [] → own → share = 0 ∨ 0 < round →
        ∃ t, exec (.vectorQueueRoom s.h.id) s = .next t ∧ t.h.vq = beat ∧ t.mem = s.mem)) ∧
    (s.h.vq.length < 16 → exec (.vectorQueueRoom s.h.id) s = .next s) ∧
    (∀ (r : BitVec 5) (p : Pending), s.h.full[r.toNat]'r.isLt = .empty p → p.by_ = .pipe → (s.cluster s.myCluster).freeze = .running →
      (s.h.slot = .run → ∃ t, exec (.producerArrival s.h.id r) s = .next t ∧
        t = { s with h := { s.h with
          v := t.h.v
          full := s.h.full.set r.toNat (if p.frontier + 1 < p.groups then .empty { p with frontier := p.frontier + 1 } else .full) r.isLt } } ∧
        (∀ n < 32, n ≠ r.toNat → t.h.vreg n = s.h.vreg n) ∧
        (p.groups ≤ p.frontier + 1 → t.h.vreg r.toNat = p.img) ∧
        (p.frontier + 1 < p.groups → ∀ i < 4096, (t.h.vreg r.toNat).extractLsb' (8 * i) 8 =
          if i + p.off < (p.frontier + 1) * p.size then p.img.extractLsb' (8 * i) 8 else (s.h.vreg r.toNat).extractLsb' (8 * i) 8)) ∧
      ∀ src part since, s.h.slot = .wait (.reg r src part false) since → p.frontier < p.groups →
        ∃ t, exec (.registerWaitEnd s.h.id) s = .next t ∧ t.h.slot = .wait (.reg r src part true) since ∧
          t = { s with h := { s.h with v := t.h.v, full := t.h.full, slot := t.h.slot } } ∧
          t.h.full = s.h.full.set r.toNat (if part = true ∧ p.frontier + 1 < p.groups then .empty { p with frontier := p.frontier + 1 }
            else .full) r.isLt ∧
          (t.h.isFull r.toNat = true → t.h.vreg r.toNat = p.img) ∧ ∀ n < 32, n ≠ r.toNat → t.h.vreg n = s.h.vreg n) ∧
    (∀ m : Nat, 1 ≤ m → m ≤ 8 → s.h.grant = BitVec.ofNat 64 (16 * m) → legalVtype s.h.vtype = true →
      s.h.span = spanOf s.h.grant.toNat s.h.vtype → s.h.span < 8192 →
      stripGroups s = 4 * s.h.grp ∧ (s.h.grp = 1 → groupsOf s (stripGroups s) 0 = 4)) ∧
    ((s.h.vq.any fun q => q.pipe == .tile || q.pipe == .xexp) = false → NoLog s →
      (s.h.slot = .run → (∀ r ∈ s.h.resume, r.pc = s.h.pc → r.own = false) →
        ∃ t, exec .tsync s = .next t ∧ t.h.pc = s.h.pc + 8 ∧ t.h.slot = .run ∧ t.h.g = s.h.g ∧ SameMem s t) ∧
      ∀ since, s.h.slot = .wait .tsync since → ∃ t, exec (.tsyncReturn s.h.id) s = .next t ∧ t.h.pc = s.h.pc + 8 ∧
        t.h.slot = .run ∧ t.h.g = s.h.g ∧ SameMem s t) ∧
    ((s.h.vq.any fun q => q.pipe == .tile || q.pipe == .xexp) = true ∨ (∃ r ∈ s.h.resume, r.pc = s.h.pc ∧ r.own = true) →
      s.h.slot = .run → ∃ t, exec .tsync s = .next t ∧ Waits s t .tsync) ∧
    (∀ (c : BitVec 10) (cap : BitVec 3),
      (((s.core c).capAt = none ∨ ∃ t, (s.core c).capAt = some t ∧ t + 4096 ≤ s.clk) → ∃ t, exec (.governorCapChange c cap) s = .next t ∧
        t.core c = { s.core c with cap := 16 * (cap.toNat + 1), capAt := some s.clk } ∧ t = { s with cores := t.cores }) ∧
      (∀ u, (s.core c).capAt = some u → s.clk < u + 4096 → exec (.governorCapChange c cap) s = .next s))

/-- For a hart of a cluster that is not frozen, with nothing queued and nothing resumed: a pending request that PM does not hold
lands between instructions, where nothing else is due and no word or register fails its check, as trap 0x12 with EPC = PC,
EIX 0 and EADDR 0, and is no longer pending; an advisory that is due at the same boundary (and no EXIT follows that ends a T
iteration) is taken first, and the request stays pending; with a number of units the request is to land after so many units
of the next instruction (the model's choice: log 9, DESIGN CHOICE); in a BAR that waits, whose word has not been at its
target and with no machine check held, it lands with EIX the target of the barrier and PART 1; held by PM, or with
none pending, nothing happens. Once WTMO has expired, a CHWAIT on an ID returns CHST, a VACQ that cannot be granted returns
3 and WFI returns 2 when no other reason holds; before that nothing happens. The g registers but gd, the v registers but
those whose pipe completes first, and memory are unchanged throughout. (R12, R72, R293, R315, R318, R324, R367, R368, R374.) -/
def Obligations.PreemptionAndTimeouts : Prop :=
  ∀ s : State, s.gated s.h.id = false → s.h.vq = [] → s.h.resume = [] →
    let landed (t : State) (eix : Word) (part : Bool) : Prop := t.h.ecause = 0x12 ∧ t.h.epc = s.h.pc ∧ t.h.eix = eix ∧ t.h.eaddr = 0 ∧
      t.h.estatus.getLsbD 5 = part ∧ t.h.estatus.getLsbD 18 = true ∧ t.h.preq = false ∧ t.h.slot = .run ∧ t.h.g = s.h.g ∧
      t.h.v = (arrived s).h.v ∧ t.h.k = s.h.k ∧ t.mem = s.mem
    (s.h.slot ≠ .free → s.h.preq = true → s.h.estatus.getLsbD 18 = false →
      (s.h.slot = .run →
        (s.badMem = [] → s.h.bad = [] → s.h.mcheck = none → s.h.watch = none → s.h.branch = none →
          (s.h.advisory = none → ∃ t, exec (.preemption s.h.id 0) s = .next t ∧ landed t 0 false) ∧
          (∀ a, s.h.advisory = some a → s.h.lvl ≠ .user ∨ s.h.loop = none → ∃ t, exec (.preemption s.h.id 0) s = .next t ∧
            t.h.ecause = 0x14 ∧ t.h.epc = s.h.pc ∧ t.h.eaddr = a ∧ t.h.advisory = none ∧ t.h.preq = true ∧ t.h.g = s.h.g)) ∧
        ∀ n, n ≠ 0 → exec (.preemption s.h.id n) s = .next { s with h := { s.h with landAt := some n } }) ∧
      (∀ d key sc target again old since n, s.h.slot = .wait (.bar d key sc target again old none) since →
        s.h.mcheck = none → sc ≠ 5 → (∀ w ∈ s.watches, w.hart = s.h.id → w.hit = none) → 2 ^ 63 ≤ (BitVec.ofNat 64 (Memory.read s.mem key 8) - target).toNat →
        ∃ t, exec (.preemption s.h.id n) s = .next t ∧ landed t target true)) ∧
    (s.h.preq = false ∨ s.h.estatus.getLsbD 18 = true → ∀ n, exec (.preemption s.h.id n) s = .next s) ∧
    (s.timedOut = false → exec (.waitTimeout s.h.id) s = .next s) ∧
    (s.timedOut = true →
      (∀ d ch id since, s.h.slot = .wait (.chwaitId d ch id) since → 2 ^ 47 ≤ (((s.core s.myCore).chans[ch.toNat]'ch.isLt).chst - id).toNat →
        ∃ t, exec (.waitTimeout s.h.id) s = .next t ∧
          Returns s t d (((s.core s.myCore).chans[ch.toNat]'ch.isLt).chst.setWidth 64) ∧ t.mem = s.mem) ∧
      (∀ d i since, s.h.slot = .wait (.vacq d false i) since → s.freeBlocks s.myCore = 0 →
        ∃ t, exec (.waitTimeout s.h.id) s = .next t ∧ Returns s t d 3 ∧ t.mem = s.mem) ∧
      (∀ d since, s.h.slot = .wait (.wfi d) since → (s.core s.myCore).events = [] → s.h.preq = false →
        ∃ t, exec (.waitTimeout s.h.id) s = .next t ∧ Returns s t d 2 ∧ t.mem = s.mem))

/-- A cluster that stops in which nothing is in execution becomes frozen, with its cause kept and STEPCLK noted; registers, queues
and memory stay. While something of one of its harts is in execution, a queue entry that has had its effect or a vector
instruction or convoy that is part-way, the cluster does not become frozen; nor does one that does not stop. (What counts
as in execution is the model's reading: logs 5 and 21.) A dump with no record, and one with one record that fits its
buffer, into the scratchpad of the core that asked for it, writes the header of Table 22-6 (done, version 2.3, cluster
number, bytes written and needed, records, STEPCLK at the freeze), then the record's words, and no other byte, clears BUSY
and RESULT, and is no longer in progress; without a dump nothing happens. (R389, R390, R391, R392.) -/
def Obligations.FreezeAndDump : Prop :=
  ∀ (s : State) (cl : BitVec 6),
    (let busy (h : Hart) : Prop := (∃ q ∈ h.vq, q.todo = none) ∨ (h.yielding = [] ∧ (∃ r ∈ h.resume, r.begun ≠ none ∨ (r.member = true ∧ r.at_ ≠ 0)) ∧
       (h.slot = .run ∨ ∃ r a b c since, h.slot = .wait (.reg r a b c) since))
     (s.cluster cl).freeze = .stopping →
      ((∀ id : HartId, clusterOf (coreOf id) = cl → ¬busy (s.hart id)) → ∃ t, exec (.clusterFrozen cl) s = .next t ∧
        (t.cluster cl).freeze = .frozen ∧ (t.cluster cl).cause = { (s.cluster cl).cause with at_ := s.clk } ∧
        (t.cluster cl).stopen = (s.cluster cl).stopen ∧ t.h = s.h ∧ t.others = s.others ∧ t.mem = s.mem) ∧
      ∀ id : HartId, clusterOf (coreOf id) = cl → (s.hart id).slot ≠ .free → busy (s.hart id) → exec (.clusterFrozen cl) s = .next s) ∧
    ((s.cluster cl).freeze ≠ .stopping → exec (.clusterFrozen cl) s = .next s) ∧
    (s.dump = none → exec .dumpComplete s = .next s) ∧
    (∀ (j : DumpJob) (key : Nat) (ws : List Word), Memory.wf s.mem = true → s.dump = some j → (j.records = [] ∧ ws = [] ∨ j.records = [ws]) →
      let n := 64 + 8 * ws.length
      n ≤ j.size → ScratchOf s (coreOf j.hart) j.base n key →
      ∃ t, exec .dumpComplete s = .next t ∧ t.dump = none ∧ t.dumpctl.getLsbD 63 = false ∧ t.dumpctl.extractLsb' 61 2 = 0 ∧
        leNat t key 8 = 2 ^ 63 + 0x0203 ∧ leNat t (key + 8) 8 = j.sel.toNat ∧ leNat t (key + 16) 8 = n ∧ leNat t (key + 24) 8 = n ∧
        leNat t (key + 40) 8 = j.records.length ∧ leNat t (key + 48) 8 = j.frozeAt % 2 ^ 64 ∧
        (∀ i (h : i < ws.length), leNat t (key + 64 + 8 * i) 8 = (ws[i]).toNat) ∧
        MemExcept s t key n ∧ t.h = s.h ∧ t.others = s.others)

/-- The last hart of a launch that waits on an island, of a table without gangs, is placed on the slot that R282 picks once
there is one: it runs at the launch's entry with its argument in g4, and takes the launcher's CPTAG when it waited less than
CPTHR. A launch whose harts are all placed and retired, and that serves no request, ends with an event record of kind 3 that
names its table; another is left alone. The dispatcher takes the next request of its queue, with the edge of its wait on TAIL, sets
PTBR and, from the IBT flag of the module that the table belongs to (log 15), ABICTL, which the placed hart inherits, clears the
completion word and launches the table for that request, and HEAD goes up by 1 in the header. (R283, R284, R299, R348, R349, R282.) -/
def Obligations.LaunchEvents : Prop :=
  ∀ s : State, Canonical s →
    (∀ (isl : BitVec 3) (l : Launch) (k : Nat) (id : BitVec 12), s.h.slot ≠ .free → s.launches = [l] → l.pending = [(isl, k, k + 1)] →
      gangSize l.levels ≤ 1 → s.pickSlot isl = some id → ∃ t, exec (.hartPlacement isl) s = .next t ∧
        (t.hart id).slot = .run ∧ (t.hart id).pc = l.entry ∧ (t.hart id).lvl = .user ∧ (t.hart id).g[4] = l.args ∧ (t.hart id).ptbr = l.ptbr ∧
        (s.clk - l.issued < s.cpthr isl → islandOf (coreOf id) = isl → (t.hart id).cptag = l.tag) ∧
        t.launches = [{ l with live := l.live + 1, pending := [] }] ∧ t.h = s.h) ∧
    (∀ (l : Launch), s.launches = [l] → l.live = 0 → l.pending = [] → l.request = none → (s.core (coreOf l.hart)).events.length < 64 →
      ∃ t, exec (.launchComplete (coreOf l.hart) l.id) s = .next t ∧ t.launches = [] ∧ t.h = s.h ∧ t.mem = s.mem ∧
        ∃ e, (t.core (coreOf l.hart)).events = (s.core (coreOf l.hart)).events ++ [e] ∧ e.w0 = BitVec.ofNat 64 (3 * 2 ^ 56) ∧
          e.w1.extractLsb' 0 52 = l.table.extractLsb' 0 52) ∧
    (∀ (l : Launch), s.launches = [l] → (l.live ≠ 0 ∨ l.pending ≠ []) → exec (.launchComplete (coreOf l.hart) l.id) s = .next s) ∧
    (∀ (isl : BitVec 3) (q : LaunchQueue) (hk ek dk : Nat) (s1 s2 u : State) (tb : LoopTable) (id : BitVec 12),
      s.atollFirst isl = isl.toNat → s.h.id = isl ++ (0 : BitVec 9) → s.h.slot = .run → s.tabos.queues[isl.toNat]'isl.isLt = some q →
      Scratch s q.header 16 hk → BitVec.ofNat 64 (leNat s hk 8) ≠ q.taken →
      Scratch s (q.base + BitVec.ofNat 64 (32 * (q.taken.toNat % 2 ^ q.log2n))) 32 ek →
      let x (i : Nat) : Word := BitVec.ofNat 64 (leNat s (ek + 8 * i) 8)
      let ibt : BitVec 1 := s.moduleIbt (x 1) (x 0)
      let seen : State := s.tailSeen ⟨Config.dispatcherPtbr isl, .supervisor, s.myCore⟩ q.header q.since
      (x 1).getLsbD 0 = true → csrBad 0x407 (x 1) = false → Scratch s (x 2) 8 dk → (dk + 8 ≤ hk ∨ hk + 16 ≤ dk) →
      s1 = { seen with h := { seen.h with ptbr := x 1, abictl := ibt.setWidth 64 } } → s1.storeAs ⟨x 1, .supervisor, s.myCore⟩ true (x 2) 8 0 = .ok s2 →
      s2.readTable s2.who (x 0) = .ok (tb, u) → (∀ l ∈ tb.levels, l.kind = .t) → s.launches = [] → s2.pickSlot s.myIsland = some id →
      ∃ t, exec (.launchRequest isl) s = .next t ∧ (t.hart id).slot = .run ∧ (t.hart id).pc = tb.entry ∧
        (t.hart id).abictl = ibt.setWidth 64 ∧
        (∃ l, t.launches = [l] ∧ l.table = x 0 ∧ l.request = some (x 2, x 3) ∧ l.ptbr = x 1) ∧
        (t.tabos.queues[isl.toNat]'isl.isLt).map (·.taken) = some (q.taken + 1) ∧
        leNat t (hk + 8) 8 = (q.taken.toNat + 1) % 2 ^ 64 ∧ leNat t dk 8 = 0)

/-- A package arrival of a fleet barrier that is not the last is counted. A departure for which a local episode waits makes the
waiters of its target depart with the package and hart of the last arriver. Every push is answered with exactly one reply:
status 2, with nothing changed, for a window address or an unaligned record (log 37, DEDUCED; log 59, DESIGN CHOICE); to a queue
of the member's address space with room, for which no hart waits, status 0, and the entry at BASE + 32 (TAIL mod 2^LOG2N) takes
the word pushed, the sender's edge and the strait peer as its producer, TAIL goes up by 1 and no other byte changes; to a full
one status 1 and no byte changes. A write of a remote copy of at most 8 bytes within an aligned word puts its bytes and is
answered; a window address is answered with a fault. A record fetch is answered with the record of the edge, or of the one that
an ID of a tag stands for, or none. A strait flit replayed changes nothing; a narrows flit replayed, and a scrub, add to the
island's count of corrected errors. A lost port is noted once and its messages are gone, and a narrows link on which 16 replays
in a row of one flit have failed is noted once as failed (that these are counted there, and 16 in a row on a link: logs 49 and
45, DEDUCED). An island's traffic counters are written to the block that TRCTL names. (R302, R309, R314, R320, R326, R351, R352,
R353, R382.) -/
def Obligations.StraitsAndLinks : Prop :=
  ∀ s : State, Memory.wf s.mem = true →
    (∀ m : StraitBar, (s.fleetBar m.isl m.va).count + 1 < m.n.toNat → ∃ t, exec (.straitBarArrival m) s = .next t ∧
      (t.fleetBar m.isl m.va) = { s.fleetBar m.isl m.va with count := (s.fleetBar m.isl m.va).count + 1 } ∧ t = { s with fleetBars := t.fleetBars }) ∧
    (∀ (m : StraitBar) (e : FleetEpisode) (d : BitVec 5) (old : Bool) (since : Nat), (s.fleetBar m.isl m.va).local_ = [e] →
      s.h.slot = .wait (.bar d e.key 5 e.target false old none) since → ∃ t, exec (.straitBarDeparture m) s = .next t ∧
        (∃ q, t.h.slot = .wait (.bar d e.key 5 e.target false old (some (BitVec.ofNat 64 (m.pkg.toNat * 2 ^ 12 + m.hart.toNat), q))) since) ∧
        t.h.g = s.h.g ∧ (NoLog s → t.mem = s.mem)) ∧
    (∀ m : StraitPush, ∃ t st, exec (.straitQueuePush m) s = .next t ∧ t.replies = s.replies ++ [.pushed st]) ∧
    (∀ (m : StraitPush) (p : Place) (x : Nat) (u : State),
      let w := s.memberWho m.isl
      let q : QueueRec := ⟨BitVec.ofNat 64 (leNat s p.key 8), BitVec.ofNat 64 (leNat s (p.key + 8) 8), BitVec.ofNat 64 (leNat s (p.key + 16) 8),
        BitVec.ofNat 64 (leNat s (p.key + 24) 8)⟩
      let size := 2 ^ (q.ctl.extractLsb' 0 5).toNat
      let e := q.base + BitVec.ofNat 64 (32 * (q.tail.toNat % size))
      m.va.toNat < 0x000FFFFE00000000 → m.va.toNat % 32 = 0 → s.translate w .read false m.va = .ok p → s.translate w .write false m.va = .ok p →
      s.loadAs w false m.va 32 = .ok (x, u) → q.bad = false → e.toNat < 0x000FFFFE00000000 →
      (size ≤ (q.tail - q.head).toNat → ∃ t, exec (.straitQueuePush m) s = .next t ∧ t.replies = s.replies ++ [.pushed 1] ∧
        SameMem s t ∧ t.h = s.h) ∧
      (∀ (pe pt : Place) (u₁ u₂ : State) (y : Nat),
        (q.tail - q.head).toNat < size → u.translate w .write false e = .ok pe → u.storeAs w false e 32 y = .ok u₁ →
        y = m.data.toNat + m.by_.edge.toNat * 2 ^ 64 + (3 * 2 ^ 28 + m.by_.port.toNat * 2 ^ 12 + m.by_.pkg.toNat) * 2 ^ 128 →
        u₁.translate w .write false (m.va + 8) = .ok pt → u₁.storeAs w false (m.va + 8) 8 (q.tail + 1).toNat = .ok u₂ →
        pt.key = p.key + 8 → (pe.key + 32 ≤ p.key ∨ p.key + 32 ≤ pe.key) → (∀ z ∈ s.poppers, z.1 ≠ p.key) →
        ∃ t, exec (.straitQueuePush m) s = .next t ∧ t.replies = s.replies ++ [.pushed 0] ∧
          leNat t pe.key 8 = m.data.toNat ∧ leNat t (pe.key + 8) 8 = m.by_.edge.toNat ∧
          leNat t (pe.key + 16) 8 = 3 * 2 ^ 28 + m.by_.port.toNat * 2 ^ 12 + m.by_.pkg.toNat ∧ leNat t (pe.key + 24) 8 = 0 ∧
          leNat t (p.key + 8) 8 = (q.tail.toNat + 1) % 2 ^ 64 ∧ t.h = s.h ∧
          ∀ a, (a < pe.key ∨ pe.key + 32 ≤ a) → (a < p.key + 8 ∨ p.key + 16 ≤ a) → Memory.byte t.mem a = Memory.byte s.mem a)) ∧
    (∀ m : StraitPush, 0x000FFFFE00000000 ≤ m.va.toNat ∨ m.va.toNat % 32 ≠ 0 →
      exec (.straitQueuePush m) s = .next { s with replies := s.replies ++ [.pushed 2] }) ∧
    (∀ (m : StraitWrite) (p : Place), m.va.toNat < 0x000FFFFE00000000 → 0 < m.data.length → m.va.toNat % 8 + m.data.length ≤ 8 →
      s.translate (s.memberWho m.isl) .write false m.va = .ok p → s.failing p.key m.data.length = false →
      ∃ t, exec (.straitCopyWrite m) s = .next t ∧ t.replies = s.replies ++ [.wrote none] ∧
        (∀ i (h : i < m.data.length), Memory.byte t.mem (p.key + i) = m.data[i]) ∧ MemExcept s t p.key m.data.length ∧ t.h = s.h) ∧
    (∀ m : StraitWrite, 0x000FFFFE00000000 ≤ m.va.toNat →
      exec (.straitCopyWrite m) s = .next { s with replies := s.replies ++ [.wrote (some m.va)] }) ∧
    (∀ pkg id, exec (.straitRecordFetch pkg id) s =
      .next { s with replies := s.replies ++ [.arrivalRecord
        ((match s.findRecord false id with | some x => some x | none => s.findRecord true id).map (BitVec.ofNat 256))] }) ∧
    (∀ p, exec (.straitFlitReplay p) s = .next s) ∧
    (∀ i, (∃ t, exec (.narrowsFlitReplay i) s = .next t ∧ t.island i = { s.island i with corrected := (s.island i).corrected + 1 } ∧
        (t.narrowsTries[i.toNat]'i.isLt = (s.narrowsTries[i.toNat]'i.isLt) + 1 ∨ t.narrowsTries[i.toNat]'i.isLt = 0) ∧
        (∀ j : BitVec 3, j ≠ i → t.narrowsTries[j.toNat]'j.isLt = s.narrowsTries[j.toNat]'j.isLt) ∧
        t = { s with islands := t.islands, narrowsTries := t.narrowsTries, fresh := t.fresh }) ∧
      (∃ t n, exec (.hbmPatrolScrub i) s = .next t ∧ t.island i = { s.island i with corrected := (s.island i).corrected + n } ∧
        t = { s with islands := t.islands, fresh := t.fresh }) ∧
      (∃ t, exec (.trafficCounterWrite i) s = .next t ∧ t.h = s.h ∧
        let base := 0x7F0000000000 + i.toNat * 0x4000000 + ((s.island i).trctl.extractLsb' 31 13).toNat * 64
        (∀ j (h : j < 8), leNat t (base + 8 * j) 8 = (s.island i).rd[j].toNat ∧ leNat t (base + 64 + 8 * j) 8 = (s.island i).wr[j].toNat) ∧
          MemExcept s t base 128) ∧
      (i ∉ s.narrowsFailed → 16 ≤ s.narrowsTries[i.toNat]'i.isLt → ∃ t, exec (.narrowsLinkFailed i) s = .next t ∧
        t.narrowsFailed = s.narrowsFailed ++ [i]) ∧
      (i ∈ s.narrowsFailed ∨ s.narrowsTries[i.toNat]'i.isLt < 16 → exec (.narrowsLinkFailed i) s = .next s)) ∧
    (∀ p : BitVec 5, p.toNat < 18 → p ∉ s.portsLost → ∃ t, exec (.straitPortLost p) s = .next t ∧ t.portsLost = s.portsLost ++ [p] ∧
      t.outbox = s.outbox.filter (fun m => !m.by_ p))

/-- A host read of an LD's memory inside its range is answered with the bytes there, a host write puts its bytes and no other;
a snoop takes the line from the host-line cache and a write of the host puts the line. Each mailbox command of an LD that
presents an atoll (log 49) is answered with exactly one reply, and of one that presents none with Invalid Input (log 70, DESIGN
CHOICE); Read sensors gives the readings, which are there from the first command on; an image that verifies
and is not older than the rollback counter goes into the inactive slot, Activate names the slot of the next boot, Set fleet
group sets the group, and a launch queue with a good header in reach is set. A sensor refresh renews the readings. A thermal
trip stops the clocks, the device reports that it has failed, and the trip is the newest entry of the log, with its cause;
accepted images and activations are logged as well. A package reset leaves the state of reset but what lies off the part or is
kept without power: that HBM is zero after it is the model's choice (log 2, DESIGN CHOICE), and that host memory, firmware
slots, log and event records are kept is its reading (log 50, DEDUCED). A boot, from reset on, of an image that boots ends the
bring-up, configures ATOLL and HLCACHE and places a dispatcher at supervisor level on the first core of every atoll, at an even
address, and is logged (what it configures and where dispatchers start is free: log 8; what is accepted, activated and logged, and
when the launch queue counts as busy: log 41);
one of an image that does not boot goes back to the other slot. (R47, R347, R348, R352, R354, R355, R357, R41, R40.) -/
def Obligations.HostAndTabos : Prop :=
  ∀ s : State, Memory.wf s.mem = true →
    (∀ (ld : BitVec 3) (o : Word) (n key : Nat) (data : List (BitVec 8)), s.hdmKey ld o n = some key → data.length = n →
      exec (.hostHdmRead ld o n) s = .next { s with replies := s.replies ++ [.hdm ((List.range n).map fun i => Memory.byte s.mem (key + i))] } ∧
      ∃ t, exec (.hostHdmWrite ld o data) s = .next t ∧ (∀ i (h : i < data.length), Memory.byte t.mem (key + i) = data[i]) ∧
        MemExcept s t key n ∧ t.h = s.h) ∧
    (∀ (isl : BitVec 3) (line : BitVec 42) (x : BitVec 512), 0x800000000000 ≤ 64 * line.toNat →
      ∃ t u, exec (.hostLineCacheSnoop isl line none) s = .next t ∧ exec (.hostLineCacheSnoop isl line (some x)) s = .next u ∧
        line.toNat ∉ (t.island isl).lines ∧ line.toNat ∉ (u.island isl).lines ∧ t.mem = s.mem ∧
        (∀ i < 64, Memory.byte u.mem (64 * line.toNat + i) = x.extractLsb' (8 * i) 8) ∧ MemExcept s u (64 * line.toNat) 64) ∧
    (∀ (ld i : BitVec 3) (image : FwImage) (slot : BitVec 1) (hdr : Word) (off len : Nat) (nonce : BitVec 512) (g : List FleetMember),
      s.ldFirst ld = some i →
      (∀ c ∈ [Instr.getEventRecords ld, .getFwInfo ld, .identifyMemoryDevice ld, .readLog ld off len, .getAttestationReport ld nonce],
        ∃ r f, exec c s = .next { s with replies := s.replies ++ [r], fresh := f } ∧ r ≠ .invalidInput ∧ r ≠ .busy) ∧
      (∃ xs all f, exec (.readSensors ld) s = .next { s with
          tabos := { s.tabos with sensors := all }, replies := s.replies ++ [.sensors xs], fresh := f } ∧
        xs.Sublist all ∧ (s.tabos.sensors ≠ [] → all = s.tabos.sensors) ∧ (s.tabos.sensors = [] → all.length = 137 + Config.rails)) ∧
      (s.imageOk image = true → ∃ t, exec (.transferFw ld image) s = .next t ∧ t.replies = s.replies ++ [.ok] ∧
        t.tabos.slots[(~~~s.tabos.active).toNat]'(~~~s.tabos.active).isLt = some image ∧
        t.tabos.log.getLast? = some (.fwTransferred (~~~s.tabos.active) image.version) ∧
        t.tabos.slots[s.tabos.active.toNat]'s.tabos.active.isLt = s.tabos.slots[s.tabos.active.toNat]'s.tabos.active.isLt) ∧
      (s.imageOk image = false → exec (.transferFw ld image) s = .next { s with replies := s.replies ++ [.invalidInput] }) ∧
      (∃ t, exec (.activateFw ld slot) s = .next t ∧ t.tabos.log.getLast? = some (.fwActivated slot) ∧
        t = { s with tabos := { s.tabos with next := slot, log := t.tabos.log }, replies := s.replies ++ [.ok] }) ∧
      exec (.setFleetGroup ld g) s =
        .next { s with tabos := { s.tabos with groups := s.tabos.groups.set i.toNat g i.isLt }, replies := s.replies ++ [.ok] } ∧
      (∀ key, s.queueBusy i = false → ScratchOf s (i ++ (0 : BitVec 7)) hdr 32 key → hdr.toNat % 64 = 0 →
        1 ≤ leNat s (key + 24) 8 → leNat s (key + 24) 8 ≤ 12 → leNat s (key + 16) 8 % 32 = 0 →
        ∃ t, exec (.setLaunchQueue ld hdr) s = .next t ∧ t.replies = s.replies ++ [.ok] ∧ t.tabos.queues[i.toNat]'i.isLt =
          some ⟨hdr, BitVec.ofNat 64 (leNat s (key + 16) 8), leNat s (key + 24) 8, BitVec.ofNat 64 (leNat s (key + 8) 8),
            if leNat s key 8 = leNat s (key + 8) 8 then some s.clk else none⟩)) ∧
    (∀ (ld : BitVec 3) (image : FwImage) (slot : BitVec 1) (hdr : Word) (off len : Nat) (nonce : BitVec 512) (g : List FleetMember),
      s.ldFirst ld = none → ∀ c ∈ [Instr.getEventRecords ld, .getFwInfo ld, .transferFw ld image, .activateFw ld slot, .identifyMemoryDevice ld,
        .setLaunchQueue ld hdr, .readSensors ld, .readLog ld off len, .getAttestationReport ld nonce, .setFleetGroup ld g],
      exec c s = .next { s with replies := s.replies ++ [.invalidInput] }) ∧
    (∃ t, exec .sensorRefresh s = .next t ∧ t.tabos.sensors.length = 137 + Config.rails ∧
      t = { s with tabos := { s.tabos with sensors := t.tabos.sensors }, fresh := t.fresh }) ∧
    (∃ t c, exec .thermalTrip s = .next t ∧ t.stopped = true ∧ t.tabos.failed = true ∧ t.tabos.ready = false ∧
      t.tabos.log.getLast? = some (.thermalTrip c s.clk) ∧ t.h = s.h ∧ t.mem = s.mem) ∧
    (∃ t, exec .packageReset s = .next t ∧ t.h = Hart.reset 0 ∧ t.others = [] ∧ t.cores = [] ∧ t.clusters = [] ∧ t.islands = State.reset.islands ∧
      t.clk = 0 ∧ t.booting = true ∧ t.launches = [] ∧ t.tabos.slots = s.tabos.slots ∧ t.tabos.active = s.tabos.next ∧
      t.tabos.log = s.tabos.log ∧ t.tabos.records = s.tabos.records ∧
      ∀ a, Memory.byte t.mem a = if 0x800000000000 ≤ a ∧ a < 2 ^ 48 then Memory.byte s.mem a else 0) ∧
    (s.booting = true → s.stopped = false → s.h.slot = .free → s.others = [] →
      (s.slotBoots s.tabos.active = true → ∃ t, exec .firmwareBoot s = .next t ∧
        t.booting = false ∧ t.tabos.ready = true ∧ t.mem = s.mem ∧ t.tabos.log.getLast? = some (.booted s.tabos.active) ∧
        (∀ i, t.island i = { s.island i with atoll := (t.island i).atoll, hlcache := (t.island i).hlcache }) ∧
        ∀ i : BitVec 3, t.atollFirst i = i.toNat → (t.hart (i ++ (0 : BitVec 9))).lvl = .supervisor ∧
          (t.hart (i ++ (0 : BitVec 9))).slot = .run ∧ (t.hart (i ++ (0 : BitVec 9))).pc = Config.dispatcherPc i &&& ~~~1) ∧
      (s.slotBoots s.tabos.active = false → ∃ t, exec .firmwareBoot s = .next t ∧ t.booting = true ∧ t.tabos.active = ~~~s.tabos.active ∧
        t.tabos.log.getLast? = some (.bootFailed s.tabos.active) ∧ t.h = s.h ∧ t.others = [] ∧ t.mem = s.mem))

/-- Every VIA, VIL, VIS and VFA member of equal width, in its form with two vector sources and in its form with a g register, of
an accepted width, on groups that are held and full and that R146 allows, completes: element i below SPAN of vd is the named
function of the elements, when i is active, and keeps its value, or is 0 with IP, when it is not; a class that some element
raises is set in FST with the least such index in EVX (that VAVG raises no NX is the model's reading: log 17, DEDUCED); LVD names
vd. Elements at and above SPAN, every other register,
special register, flag and all of memory are unchanged. (09 Common rules, R142, R143, R144, R149, R150, R151, R153, R116.) -/
def Obligations.VectorTwoSources : Prop :=
  ∀ (s : State) (d a b : BitVec 5) (k : BitVec 3) (e f : BitVec 1), Fresh s →
    let g := s.h.grp
    let w := s.h.ew
    let D : Regs := (d.toNat, g)
    let A : Regs := (a.toNat, g)
    let B : Regs := (b.toNat, g)
    s.h.span * w ≤ 32768 * g → Group D → Group A → Held s D → Held s A →
    (∀ fp m, (fp = false ∧ m ∈ intMembers ∨ fp = true ∧ m ∈ fpMembers) → widthOk s fp →
      (Group B → Held s B → ∃ t, exec (m.1 d a b k e f) s = .next t ∧
        Elementwise s t 4 w D (masked s k w D fun i => m.2.2 s.h (el s a.toNat g w i) (el s b.toNat g w i)) s.h.full) ∧
      (∃ t, exec (m.2.1 d a b k e) s = .next t ∧
        Elementwise s t 4 w D (masked s k w D fun i => m.2.2 s.h (el s a.toNat g w i) ((s.getG b).toNat % 2 ^ w)) s.h.full)) ∧
    (∀ m ∈ satMembers, Group B → Held s B → ∃ t, exec (m.1 d a b k e f) s = .next t ∧
      Elementwise s t 4 w D (masked s k w D fun i => m.2 s.h (el s a.toNat g w i) (el s b.toNat g w i)) s.h.full)

/-- Every VFMA member in both forms (vd is the addend), VABS, VFSQRT, VFABS, the conversions of equal width, VMERGE in both
forms (an inactive element takes the second source), VMOVGV, the special-function members (vd becomes empty for its pipe, R27)
and every compact vector form (its first source is the register that LVD names) complete on held and full groups of an
accepted width with the named function at every active element below SPAN, under the same frame as the two-source members.
(09 Common rules, R58, R59, R149, R150, R153, R154, R155, R159, R168, R27.) -/
def Obligations.VectorFusedUnaryCompact : Prop :=
  ∀ (s : State) (d a b : BitVec 5) (k : BitVec 3) (e f u : BitVec 1), Fresh s →
    let g := s.h.grp
    let w := s.h.ew
    let D : Regs := (d.toNat, g)
    let A : Regs := (a.toNat, g)
    let B : Regs := (b.toNat, g)
    let L : Regs := (s.h.lvd.toNat % 32, g)
    let x (i : Nat) : Nat := el s a.toNat g w i
    let y (i : Nat) : Nat := el s b.toNat g w i
    let z (i : Nat) : Nat := el s d.toNat g w i
    let l (i : Nat) : Nat := el s (s.h.lvd.toNat % 32) g w i
    let gy : Nat := (s.getG b).toNat % 2 ^ w
    let gives (i : Instr) (fn : Nat → Nat × Flags) (len : Nat) : Prop := ∃ t, exec i s = .next t ∧ Elementwise s t len w D fn s.h.full
    s.h.span * w ≤ 32768 * g → Group D → Held s D →
    (Group A → Held s A →
      (∀ m ∈ fmaMembers, widthOk s true →
        (Group B → Held s B → gives (m.1 d a b k e f) (masked s k w D fun i => fma3 m.2.2.1 m.2.2.2 s.h (x i) (y i) (z i)) 4) ∧
        gives (m.2.1 d a b k e) (masked s k w D fun i => fma3 m.2.2.1 m.2.2.2 s.h (x i) gy (z i)) 4) ∧
      (∀ m ∈ unaryMembers u, widthOk s m.2.1 → gives (m.1 d a k e) (masked s k w D fun i => m.2.2 s.h (x i)) 4) ∧
      (Group B → Held s B → gives (.vmerge d a b k e f) (fun i => (if isActive s k i then x i else y i, 0)) 4) ∧
      gives (.vmergeX d a b k e) (fun i => (if isActive s k i then x i else gy, 0)) 4 ∧
      (∀ m ∈ sfuMembers, widthOk s true → ∃ t, exec (m.1 d a k e) s = .next t ∧
        ElementwiseLater s t 4 w D (masked s k w D fun i => m.2 s.h.fmt (s.h.fmt.unpack (x i))))) ∧
    gives (.vmovgv d a k) (masked s k w D fun _ => ((s.getG a).toNat % 2 ^ w, 0)) 4 ∧
    (Group L → Held s L →
      (∀ m ∈ compactMembers, widthOk s m.2.2.2 →
        (Group B → Held s B → gives (m.1 d b) (fun i => m.2.2.1 s.h (l i) (y i)) 2) ∧ gives (m.2.1 d b) (fun i => m.2.2.1 s.h (l i) gy) 2) ∧
      (widthOk s true → (Group B → Held s B → gives (.cVffma d b) (fun i => fma3 false false s.h (l i) (y i) (z i)) 2) ∧
        gives (.cVffmaX d b) (fun i => fma3 false false s.h (l i) gy (z i)) 2))

/-- For every integer two-source member: an empty destination register makes the hart wait, before any other check; else a group
that is misaligned, or a source that shares part of vd, raises illegal operand (0x02); else a register of a block not held
raises 0x05 with the lowest such register; else an empty register of a source with e = 1 raises 0x04 with it; none of these has
any effect of the instruction. A source read with e = 0 of which some registers are empty lets the instruction do the element
groups that are there, the registers being read in order, and the hart then waits at it for the first register that is not full,
at the position reached; LVD names vd by then. A floating-point member at another width than 16 or 32 raises illegal operand.
(R63, R145, R146, R147, R17, R28, R29, R59.) -/
def Obligations.VectorIssueChecks : Prop :=
  ∀ (s : State) (d a b : BitVec 5) (k : BitVec 3) (e f : BitVec 1), s.h.slot = .run → s.boundStreams = [] →
    let g := s.h.grp
    let D : Regs := (d.toNat, g)
    let A : Regs := (a.toNat, g)
    let B : Regs := (b.toNat, g)
    let inRun (r : Nat) (q : Regs) : Prop := q.1 ≤ r ∧ r < q.1 + q.2
    let empty (r : Nat) : Prop := s.h.isFull r = false
    let badForm : Prop := ¬Group D ∨ ¬Group A ∨ ¬Group B ∨ (¬Apart D A ∧ D ≠ A) ∨ (¬Apart D B ∧ D ≠ B)
    let away (r : Nat) : Prop := (inRun r D ∨ inRun r A ∨ inRun r B) ∧ s.h.holdsV r = false
    let hot (r : Nat) : Prop := (e = 1 ∧ inRun r A ∨ f = 1 ∧ inRun r B) ∧ empty r
    ∀ m ∈ intMembers,
      ((∃ r, inRun r D ∧ empty r) → ∃ t r, exec (m.1 d a b k e f) s = .next t ∧ Waits s t (.reg r false false false) ∧
        inRun r.toNat D ∧ empty r.toNat) ∧
      ((∀ r, inRun r D → ¬empty r) →
        (badForm → exec (m.1 d a b k e f) s = s.trapPre 0x02 s.ir) ∧
        (¬badForm → (∃ r, away r ∧ (∀ q, away q → r ≤ q) ∧ exec (m.1 d a b k e f) s = s.trapPre 0x05 (BitVec.ofNat 64 r)) ∨
          ((∀ r, ¬away r) ∧
            ((∃ r, hot r ∧ (∀ q, hot q → r ≤ q) ∧ exec (m.1 d a b k e f) s = s.trapPre 0x04 (BitVec.ofNat 64 r)) ∨
             ((∀ r, ¬hot r) ∧ (Fresh s → s.h.span * s.h.ew ≤ 32768 * g → ∀ C ∈ [A, B], ∀ o ∈ [A, B], A = B ∨ C ≠ o → (C = o ∨ Held s o) →
                ∀ q < g, ∀ p, (∀ j < q, s.h.isFull (C.1 + j) = true) → s.h.full[C.1 + q]? = some (.empty p) →
                let n := (4096 * q + min 4096 (p.frontier * p.size - p.off)) / ewbOf s.h.vtype / s.h.groupElems * s.h.groupElems
                n < s.h.span → ∃ t, exec (m.1 d a b k e f) s = .next t ∧
                  (∃ since, t.h.slot = .wait (.reg (BitVec.ofNat 5 (C.1 + q)) true true false) since) ∧ t.h.pc = s.h.pc ∧ t.h.start = n ∧
                  t.h.lvd = d.setWidth 64 ∧ t.h.g = s.h.g ∧ t.h.k = s.h.k ∧ t.h.full = s.h.full ∧ SameMem s t ∧
                  (∀ i < n, el t d.toNat g s.h.ew i =
                    (masked s k s.h.ew D (fun i => m.2.2 s.h (el s a.toNat g s.h.ew i) (el s b.toNat g s.h.ew i)) i).1 % 2 ^ s.h.ew) ∧
                  (∀ i, n ≤ i → s.h.ew * (i + 1) ≤ 32768 * g → el t d.toNat g s.h.ew i = el s d.toNat g s.h.ew i) ∧
                  ∀ r < 32, ¬inRun r D → t.h.vreg r = s.h.vreg r)))))) ∧
      ((∀ r, inRun r D → ¬empty r) → ∀ m ∈ fpMembers, s.h.ew ≠ 16 → s.h.ew ≠ 32 → exec (m.1 d a b k e f) s = s.trapPre 0x02 s.ir)

/-- VWMUL, VWMAC, VFWIDEN, VSWIDEN and VZWIDEN write the double-width group of vd, VNSHR and VFNARROW read one: on held and full
groups, apart from each other where R146 asks for it, of an accepted width and G below 8, they complete with the named
function at every active element below SPAN under the frame of the element-wise members. (That VNSHR raises SAT alone, never NX, is
the model's reading: log 17, DEDUCED.) (R145, R146, R151, R152, R159,
R160.) -/
def Obligations.VectorWideNarrow : Prop :=
  ∀ (s : State) (d a b : BitVec 5) (k : BitVec 3) (e f : BitVec 1), Fresh s → s.h.grp < 8 →
    let g := s.h.grp
    let w := s.h.ew
    let x (i : Nat) : Nat := el s a.toNat g w i
    let y (i : Nat) : Nat := el s b.toNat g w i
    let X (i : Nat) : Nat := el s a.toNat (2 * g) (2 * w) i
    let D : Regs := (d.toNat, g)
    let DD : Regs := (d.toNat, 2 * g)
    let A : Regs := (a.toNat, g)
    let AA : Regs := (a.toNat, 2 * g)
    let B : Regs := (b.toNat, g)
    let wide (i : Instr) (fn : Nat → Nat × Flags) : Prop := ∃ t, exec i s = .next t ∧ Elementwise s t 4 (2 * w) DD (masked s k (2 * w) DD fn) s.h.full
    let narrow (i : Instr) (fn : Nat → Nat × Flags) : Prop := ∃ t, exec i s = .next t ∧ Elementwise s t 4 w D (masked s k w D fn) s.h.full
    s.h.span * w ≤ 32768 * g →
    (Group DD → Held s DD → Group A → Held s A → Apart DD A →
      (w ≤ 32 → Group B → Held s B → Apart DD B →
        wide (.vwmul d a b k e f) (fun i => (ofSigned (2 * w) (toSigned w (x i) * toSigned w (y i)), 0)) ∧
        wide (.vwmac d a b k e f) (fun i =>
          (ofSigned (2 * w) ((el s d.toNat (2 * g) (2 * w) i : Int) + toSigned w (x i) * toSigned w (y i)), 0))) ∧
      (w ≤ 32 → wide (.vswiden d a k e) (fun i => (ofSigned (2 * w) (toSigned w (x i)), 0)) ∧ wide (.vzwiden d a k e) (fun i => (x i, 0))) ∧
      (w = 16 → wide (.vfwiden d a k e) (fun i => s.h.fmt.convert .f32 .rne (x i)))) ∧
    (Group D → Held s D → Group AA → Held s AA → Apart AA D →
      (w ≤ 32 → Group B → Held s B → Apart AA B → (Apart D B ∨ D = B) → narrow (.vnshr d a b k e f) (fun i =>
        satTo w (roundDiv (xrmOf s.h.rmode) (toSigned (2 * w) (X i)) (y i % (2 * w))))) ∧
      (w = 16 → narrow (.vfnarrow d a k e) (fun i => Fmt.f32.convert s.h.fmt (frmOf s.h.rmode) (X i))))

/-- Every VCMP and VFCMP member, of an accepted width, on held and full groups, completes: bit i of kd below SPAN is the named
relation of elements i when i is active, and 0 when it is not; bits at and above SPAN are 0; a write to k0 is discarded. The
signalling relations raise NV for any NaN, the quiet ones for a signalling NaN. No vector register, g register or byte of
memory changes. (R157, R158.) -/
def Obligations.VectorCompares : Prop :=
  ∀ (s : State) (d a b : BitVec 5) (k : BitVec 3) (e f : BitVec 1), Fresh s → d.toNat < 24 →
    let g := s.h.grp
    let w := s.h.ew
    let x (i : Nat) : Nat := el s a.toNat g w i
    let y (i : Nat) : Nat := el s b.toNat g w i
    let gy : Nat := (s.getG b).toNat % 2 ^ w
    let gives (i : Instr) (rel : Nat → Bool × Flags) : Prop := ∃ t, exec i s = .next t ∧
      Maskwise s t d (fun i => if isActive s k i then rel i else (false, 0))
    Group (a.toNat, g) → Held s (a.toNat, g) →
    (Group (b.toNat, g) → Held s (b.toNat, g) →
      (∀ m ∈ cmpVVs, gives (m.1 d a b k e f) (fun i => (m.2 w (x i) (y i), 0))) ∧
      (widthOk s true → ∀ m ∈ fcmpVVs, gives (m.1 d a b k e f) (fun i => m.2 s.h (x i) (y i)))) ∧
    (∀ m ∈ cmpVXs, gives (m.1 d a b k e) (fun i => (m.2 w (x i) gy, 0))) ∧
    (widthOk s true → ∀ m ∈ fcmpVXs, gives (m.1 d a b k e) (fun i => m.2 s.h (x i) gy))

/-- Every reduction of an accepted width, on held and full groups with vd apart from the first source, completes and writes
element 0 of vd alone: an integer reduction the function folded over the active elements in ascending order from element 0
of the second source; a floating-point one, for a GRANT that a hart can have (R22), R140's value: GRANT partials from +0, partial l
taking the active elements of index l modulo GRANT in ascending order, folded by halves, and last element 0 of the second source,
the operation being addition RNE, maximum or minimum; that an odd number of partials is halved with a floor, at GRANT 48, 80, 96 and
112, is the model's reading (log 18, DEDUCED). Flags may only be set. Every other element and register and all of memory
are unchanged. (R22, R140, R161.) -/
def Obligations.VectorReductions : Prop :=
  ∀ (s : State) (d a b : BitVec 5) (k : BitVec 3) (e f : BitVec 1), Fresh s → 0 < s.h.span →
    let g := s.h.grp
    let w := s.h.ew
    let y := el s b.toNat g w 0
    let xs := ((List.range s.h.span).filter fun i => isActive s k i).map fun i => el s a.toNat g w i
    let alone (t : State) (r : Nat) : Prop := el t d.toNat g w 0 = r % 2 ^ w ∧
      (∀ i, 0 < i → w * (i + 1) ≤ 32768 * g → el t d.toNat g w i = el s d.toNat g w i) ∧
      (∀ q < 32, q < d.toNat ∨ d.toNat + g ≤ q → t.h.vreg q = s.h.vreg q) ∧
      t = { s with h := { s.h with v := t.h.v, fst := t.h.fst, evx := t.h.evx, lvd := d.setWidth 64, pc := s.h.pc + 4 } }
    Group (d.toNat, g) → Held s (d.toNat, g) → Group (a.toNat, g) → Held s (a.toNat, g) → Group (b.toNat, g) → Held s (b.toNat, g) →
    Apart (d.toNat, g) (a.toNat, g) → (Apart (d.toNat, g) (b.toNat, g) ∨ d = b) →
    (∀ m ∈ redMembers, ∃ t, exec (m.1 d a b k e f) s = .next t ∧ alone t (xs.foldl (fun acc x => m.2 w acc x) y) ∧
      t.h.fst = s.h.fst ∧ t.h.evx = s.h.evx) ∧
    (widthOk s true → s.h.grant.toNat % 16 = 0 → 16 ≤ s.h.grant.toNat → s.h.grant.toNat ≤ 128 → ∀ (i : Instr) (op : Nat → Nat → Nat × Flags),
      (i = .vfredsum d a b k e f ∧ op = (fun x y => s.h.fmt.addV .rne (s.h.fmt.unpack x) (s.h.fmt.unpack y)) ∨
       i = .vfredmax d a b k e f ∧ op = (fun x y => s.h.fmt.minmax true x y) ∨
       i = .vfredmin d a b k e f ∧ op = (fun x y => s.h.fmt.minmax false x y)) →
      ∃ t, exec i s = .next t ∧ FlagsOnlySet s t ∧
        alone t (op (redFold op 8 (s.h.grant.toNat / 2) (fun l =>
          ((List.range s.h.span).filter fun i => isActive s k i && i % s.h.grant.toNat == l).foldl
            (fun p i => (op p (el s a.toNat g w i)).1) 0) 0) y).1)

/-- VGATHERR, VSLIDEUP, VSLIDEDN, VEXPAND, VIOTA, VSCAN, VBCAST, VUNPACKB, VTBL and VRAND, on held and full groups whose sources
share no register with vd, complete with the value that Table 9-6 to R167 give at every active element below SPAN (an index
at or above SPAN reads FILLV) under the frame of the element-wise members; VCOMPRESS puts the active elements, in order,
into the lowest elements; VMOVVG puts the element that gs2 names into gd. (R146, R162, R163, R164, R165, R166, R167, R168,
R25.) -/
def Obligations.VectorPermutes : Prop :=
  ∀ (s : State) (d a b : BitVec 5) (k : BitVec 3) (e f : BitVec 1), Fresh s →
    let g := s.h.grp
    let w := s.h.ew
    let n := s.h.span
    let fill := s.h.fillv.toNat % 2 ^ w
    let D : Regs := (d.toNat, g)
    let x (i : Nat) : Nat := if i < n then el s a.toNat g w i else fill
    let y (i : Nat) : Nat := el s b.toNat g w i
    let q := (s.getG b).toNat
    let below (i : Nat) : Nat := (List.range i).countP fun j => isActive s k j
    let gives (i : Instr) (fn : Nat → Nat) : Prop := ∃ t, exec i s = .next t ∧ Elementwise s t 4 w D (masked s k w D fun i => (fn i, 0)) s.h.full
    n * w ≤ 32768 * g → Group D → Held s D →
    gives (.viota d k) below ∧ gives (.vrand d a b k) (fun i => randElem w (s.getG a) (s.getG b) i) ∧
    (Group (a.toNat, g) → Held s (a.toNat, g) → Apart D (a.toNat, g) →
      gives (.vslideup d a b k e) (fun i => if q ≤ i then x (i - q) else fill) ∧ gives (.vslidedn d a b k e) (fun i => x (i + q)) ∧
      gives (.vexpand d a k e) (fun i => x (below i)) ∧ gives (.vbcast d a b k e) (fun _ => x q) ∧
      gives (.vscan d a k e) (fun i => ((((List.range (i + 1)).filter fun j => isActive s k j).map x).sum) % 2 ^ w) ∧
      ((s.getG b).toNat % 64 < w → gives (.vunpackb d a b k e) (fun i =>
        let v := elem ((s.getG b).toNat % 64 + 1) (s.h.img a.toNat g % 2 ^ (n * w)) i
        if (s.getG b).getLsbD 6 then ofSigned w (toSigned ((s.getG b).toNat % 64 + 1) v) else v)) ∧
      (∃ t, exec (.vcompress d a k e) s = .next t ∧ Elementwise s t 4 w D (fun i =>
        ((((List.range n).filter fun j => isActive s k j).map x).getD i (if s.h.vtype.getLsbD 6 then 0 else el s d.toNat g w i), 0)) s.h.full) ∧
      (Group (b.toNat, g) → Held s (b.toNat, g) → Apart D (b.toNat, g) →
        gives (.vgatherr d a b k e f) (fun i => x (y i)) ∧
        gives (.vtbl d a b k e f) (fun i => el s a.toNat 1 w (y i % max 1 (min (32768 / w) n))))) ∧
    (Group (a.toNat, g) → Held s (a.toNat, g) → ∃ t, exec (.vmovvg d a b e) s = .next t ∧
      t = s.setGAdv d (BitVec.ofNat 64 (x q)) 4)

/-- VLD, VLDFF, VLDS (F fields an element), VLDX, VREFILL and VLDBP, aligned, with the registers R260, R267 and R268 ask for
held and full and every address of an active element (a line, a word of an active segment) exact in 64 bits and readable in
turn, complete: the groups written are empty for the pipe, and once all has arrived each field of an active element is the
little-endian number at its address, an inactive element keeps its value or is 0 with IP, elements at and above SPAN and every
other register are unchanged; LVD names vd, FFX is SPAN after VLDFF. VLDBP takes valid headers and zeroes the plane words from
the lesser of p + 1 and P on. No byte of memory changes. (R258, R259, R260, R261, R262, R263, R264, R266, R267, R268.) -/
def Obligations.VectorLoadResults : Prop :=
  ∀ (s : State) (v b x : BitVec 5) (k f : BitVec 3) (e : BitVec 1) (iw : BitVec 2), Fresh s →
    s.h.span * s.h.ew ≤ 32768 * s.h.grp →
    let g := s.h.grp
    let n := s.h.ew / 8
    let F := f.toNat + 1
    let s₁ := named s v
    let acts := actives s k
    let base := (s.getG b).toNat
    let loads (i : Instr) (F : Nat) (a : Nat → Nat → Int) (ffx : Word) : Prop := ∀ ks u,
      (∀ j ∈ acts, ∀ q < F, Fits (a j q)) →
      LoadsFrom n (acts.flatMap fun j => (List.range F).map fun q => BitVec.ofInt 64 (a j q)) s₁ ks u →
      ∃ t, exec i s = .next t ∧ Fills s u t (v.toNat, F * g) g (stripGroups s) ∧ FieldsAre s (arrived t) v k F (ks.map (·.2)) ∧
        ReadsAre s t n ks ∧ t.h.ffx = ffx
    (v.toNat % g = 0 → Held s (v.toNat, F * g) → base % n = 0 →
      loads (.vld v b k f) F (fun j q => base + (j * F + q) * n) s.h.ffx ∧
      loads (.vldff v b k f) F (fun j q => base + (j * F + q) * n) (BitVec.ofNat 64 s.h.span) ∧
      ((s.getG x).toNat % n = 0 → loads (.vlds v b x k f) F (fun j q => base + j * (s.getG x).toInt + q * n) s.h.ffx)) ∧
    (let X : Regs := (x.toNat, max 1 (g * 2 ^ iw.toNat / n))
     Group (v.toNat, g) → Held s (v.toNat, g) → Group X → Held s X → X.2 ≤ 8 → Apart (v.toNat, g) X → base % n = 0 →
      loads (.vldx v b x k e iw) 1 (fun j _ => base + (el s X.1 X.2 (8 * 2 ^ iw.toNat) j * n : Nat)) s.h.ffx) ∧
    (v.toNat % 8 = 0 → Held s (v.toNat, 8) → base % 64 = 0 → base + 32768 ≤ 2 ^ 64 → ∀ ks u,
      LoadsFrom 64 ((List.range 512).map fun j => BitVec.ofNat 64 (base + 64 * j)) s₁ ks u →
      ∃ t, exec (.vrefill v b) s = .next t ∧ Fills s u t (v.toNat, 8) 8 ((32768 + groupBytes s - 1) / groupBytes s) ∧ t.h.ffx = s.h.ffx ∧
        (∀ j < 512, el (arrived t) v.toNat 8 512 j = (ks.map (·.2)).getD j 0) ∧ ReadsAre s t 64 ks) ∧
    (let V := imageOf s v
     let N := (s.h.span + 63) / 64
     Held s V → base % 8 = 0 → base + 72 * N ≤ 2 ^ 64 → ∀ ks u,
      LoadsFrom 8 ((blocksOn s k).flatMap fun j => (List.range 9).map fun q => BitVec.ofNat 64 (base + 72 * j + 8 * q)) s₁ ks u →
      let word (j q : Nat) : Nat := (ks.map (·.2)).getD (((List.range j).countP fun l => blockOn s k l) * 9 + q) 0
      (∀ j ∈ blocksOn s k, HdrOk (word j 0)) →
      ∃ t, exec (.vldbp v b k f) s = .next t ∧ Fills s u t V V.2 ((72 * N + groupBytes s - 1) / groupBytes s) ∧ t.h.ffx = s.h.ffx ∧ ReadsAre s t 8 ks ∧
        ∀ j q, q < 9 → 576 * (j + 1) ≤ 32768 * V.2 → el (arrived t) v.toNat V.2 64 (9 * j + q) =
          if j < N ∧ blockOn s k j then segWord F (word j 0) q (word j q) else el s v.toNat V.2 64 (9 * j + q))

/-- VST, VSTN, VSTS (F fields an element), VSTX, VSPILL and VSTBP, aligned, with the registers that R260, R267 and R268 ask for
held and full and every address of an active element (a line, a word of an active segment) exact in 64 bits and writable in
turn, complete: the bytes at each address take the field, every other byte of memory and every register is unchanged. VSTN
then adds the number of its active elements to PROG, stores PROG at PROGADDR and tags that word with the hart's CPTAG on a
signal page. VSTBP takes valid headers and writes zero plane words from the lesser of p + 1 and P on. (R232, R258, R259,
R260, R261, R262, R263, R265, R266, R267, R268, R300.) -/
def Obligations.VectorStoreResults : Prop :=
  ∀ (s : State) (v b x : BitVec 5) (k f : BitVec 3) (e : BitVec 1) (iw : BitVec 2), Fresh s → Memory.wf s.mem = true →
    let g := s.h.grp
    let w := s.h.ew
    let n := w / 8
    let F := f.toNat + 1
    let acts := actives s k
    let base := (s.getG b).toNat
    let data (j q : Nat) : Nat := el s (v.toNat + q * g) g w j
    let list (F : Nat) (a : Nat → Nat → Int) : List (Word × Nat) :=
      acts.flatMap fun j => (List.range F).map fun q => (BitVec.ofInt 64 (a j q), data j q)
    let stores (i : Instr) (F : Nat) (a : Nat → Nat → Int) : Prop := ∀ ks u,
      (∀ j ∈ acts, ∀ q < F, Fits (a j q)) → StoresTo n (list F a) s ks u →
      exec i s = .next (u.adv 4) ∧ u.h = { s.h with watch := u.h.watch } ∧ WritesAre s u n ks ((list F a).map (·.2))
    (v.toNat % g = 0 → Held s (v.toNat, F * g) → base % n = 0 →
      stores (.vst v b k e f) F (fun j q => base + (j * F + q) * n) ∧
      ((s.getG x).toNat % n = 0 → stores (.vsts v b x k e f) F (fun j q => base + j * (s.getG x).toInt + q * n)) ∧
      (s.h.progaddr.toNat % 8 < 5 → ∀ ks u p u',
        let a (j q : Nat) : Int := base + (j * F + q) * n
        let va : Word := s.h.progaddr &&& ~~~7
        let prog := s.h.prog + BitVec.ofNat 64 acts.length
        (∀ j ∈ acts, ∀ q < F, Fits (a j q)) → StoresTo n (list F a) s ks u → WritesAre s u n ks ((list F a).map (·.2)) ∧
        (u.store false va 8 prog.toNat = .ok u' → u'.translate u'.who .write true va = .ok p →
          exec (.vstn v b k e f) s = .next { u' with
            h := { u'.h with prog, pc := s.h.pc + 4 }
            tags := if p.signal then SMap.set 0 u'.tags (p.key / 8) (s.hartTag) else u'.tags
            watches := if p.signal then u'.watches.map (Watch.tagged p.key s.ticks (s.hartTag)) else u'.watches }))) ∧
    (let X : Regs := (x.toNat, max 1 (g * 2 ^ iw.toNat / n))
     Group (v.toNat, g) → Held s (v.toNat, g) → Group X → Held s X → X.2 ≤ 8 → base % n = 0 →
      stores (.vstx v b x k e iw) 1 (fun j _ => base + (el s X.1 X.2 (8 * 2 ^ iw.toNat) j * n : Nat))) ∧
    (v.toNat % 8 = 0 → Held s (v.toNat, 8) → base % 64 = 0 → base + 32768 ≤ 2 ^ 64 → ∀ ks u,
      let xs := (List.range 512).map fun j => (BitVec.ofNat 64 (base + 64 * j), el s v.toNat 8 512 j)
      StoresTo 64 xs s ks u → exec (.vspill v b) s = .next (u.adv 4) ∧ u.h = { s.h with watch := u.h.watch } ∧
        WritesAre s u 64 ks (xs.map (·.2))) ∧
    (let V := imageOf s v
     let word (j q : Nat) : Nat := el s v.toNat V.2 64 (9 * j + q)
     let xs := (blocksOn s k).flatMap fun j => (List.range 9).map fun q =>
       (BitVec.ofNat 64 (base + 72 * j + 8 * q), segWord F (word j 0) q (word j q))
     Held s V → base % 8 = 0 → base + 72 * ((s.h.span + 63) / 64) ≤ 2 ^ 64 → (∀ j ∈ blocksOn s k, HdrOk (word j 0)) → ∀ ks u,
      StoresTo 8 xs s ks u → exec (.vstbp v b k e f) s = .next (u.adv 4) ∧ u.h = { s.h with watch := u.h.watch } ∧
        WritesAre s u 8 ks (xs.map (·.2)))

/-- Every VAMO at 32 or 64 bits on groups that are held, full and apart, aligned, whose addresses are exact in 64 bits and
open to atomics in turn, completes: vd is empty for the pipe and takes the old values of its active elements; where no two
elements share bytes each old value is the number at its address and OP(old, element) of Table 14-3 stands there after; every
other byte of memory, inactive element (0 with IP), element at or above SPAN and register is unchanged. (R259, R260, R269, 14
Scalar atomics.) -/
def Obligations.VectorAtomicResults : Prop :=
  ∀ (s : State) (v b x : BitVec 5) (k : BitVec 3) (e : BitVec 1), Fresh s → Memory.wf s.mem = true → s.h.ew = 32 ∨ s.h.ew = 64 →
    s.h.span * s.h.ew ≤ 32768 * s.h.grp →
    let g := s.h.grp
    let w := s.h.ew
    let n := w / 8
    let acts := actives s k
    let base := (s.getG b).toNat
    let a (j : Nat) : Nat := base + el s x.toNat g w j * n
    Group (v.toNat, g) → Held s (v.toNat, g) → Group (x.toNat, g) → Held s (x.toNat, g) → Apart (v.toNat, g) (x.toNat, g) →
    base % n = 0 → (∀ j ∈ acts, a j < 2 ^ 64) →
    ∀ m ∈ vamoMembers, ∀ ks u,
      let xs := acts.map fun j => (BitVec.ofNat 64 (a j), el s v.toNat g w j)
      AtomicsTo n (m.2 w) xs (named s v) ks u →
      ∃ t, exec (m.1 v b x k e) s = .next t ∧ Fills s u t (v.toNat, g) g (stripGroups s) ∧ t.h.ffx = s.h.ffx ∧
        FieldsAre s (arrived t) v k 1 (ks.map (·.2)) ∧
        (∀ q, (∀ p ∈ ks, q < p.1 ∨ p.1 + n ≤ q) → Memory.byte t.mem q = Memory.byte s.mem q) ∧
        ((ks.map (·.1)).Pairwise (fun p q => p + n ≤ q ∨ q + n ≤ p) → ∀ j < ks.length,
          let p := ks.getD j (0, 0)
          p.2 = leNat s p.1 n ∧ leNat t p.1 n = m.2 w p.2 ((xs.map (·.2)).getD j 0))

/-- PLANSET stores a legal plan word and raises illegal operand for any other; PLANGET reads one. At 64 bits under a legal plan,
on groups that are held and full and apart where R170 to R173 ask for it, with G below 8 where a pair is named: VPACK gives
each active element the sum of its fields times 2^(S j) (2^(S (N-1-j)) for VPACK.B with REV); VXTR the window V(r, n); VGCHK
sets the bit of each active element whose every coefficient leaves room for one more product; VCONV, with MODE 1 or no
coefficient outside the capacity, adds the product of its sources and raises GOV where a coefficient is outside. The frame
is that of the element-wise members. (R127, R128, R129, R130, R131, R169, R170, R171, R172, R173, R175.) -/
def Obligations.PlanAndPackResults : Prop :=
  ∀ (s : State) (p d a b : BitVec 5) (k q : BitVec 3) (e f : BitVec 1) (c : BitVec 5),
    let legal (x : Word) : Prop := fld x 4 5 ≠ 0 ∧ (fld x 9 4 + 1) * (fld x 4 5 + 1) ≤ 64 ∧ fld x 4 5 + 1 ≤ fld x 16 7 ∧
      fld x 16 7 ≤ 2 * (fld x 4 5 + 1) ∧ fld x 24 40 = 0
    (p.toNat < 8 →
      (legal (s.getG a) → ∃ t, exec (.planset p a) s = .next t ∧
        (∀ r < 8, t.h.pl[r]? = if r = p.toNat then some (s.getG a) else s.h.pl[r]?) ∧
        t = { s with h := { s.h with pl := t.h.pl, pc := s.h.pc + 4 } }) ∧
      (¬legal (s.getG a) → exec (.planset p a) s = s.trapPre 0x02 s.ir) ∧
      ∃ t, exec (.planget d p) s = .next t ∧ PutsG s t d ((s.h.pl[p.toNat]?).getD 0) ∧
        t = { s with h := { s.h with g := t.h.g, pc := s.h.pc + 4 } }) ∧
    (let P := (s.h.pl[q.toNat]?).getD 0
     let W := fld P 0 4 + 1
     let S := fld P 4 5 + 1
     let N := fld P 9 4 + 1
     let X := fld P 16 7
     let signed : Bool := P.getLsbD 13 || P.getLsbD 14
     let g := s.h.grp
     let D : Regs := (d.toNat, g)
     let A : Regs := (a.toNat, g)
     let AA : Regs := (a.toNat, 2 * g)
     let coefAt (r : Int) (j : Nat) : Int := coef signed S X j r
     Fresh s → s.h.ew = 64 → legal P → s.h.span ≤ 512 * g →
      (Group D → Held s D → Group A → Held s A → N * W ≤ 64 →
        let field (sg : Bool) (i j : Nat) : Int :=
          let x := el s a.toNat g 64 i / 2 ^ (W * j) % 2 ^ W
          if sg then toSigned W x else x
        (∃ t, exec (.vpack d a k e q) s = .next t ∧ Elementwise s t 4 64 D (masked s k 64 D fun i =>
          (ofSigned 64 (((List.range N).map fun j => field (P.getLsbD 13) i j * (2 ^ (j * S) : Nat)).sum), 0)) s.h.full) ∧
        ∃ t, exec (.vpackB d a k e q) s = .next t ∧ Elementwise s t 4 64 D (masked s k 64 D fun i =>
          (ofSigned 64 (((List.range N).map fun j =>
            field (P.getLsbD 14) i j * (2 ^ ((if P.getLsbD 15 then N - 1 - j else j) * S) : Nat)).sum), 0)) s.h.full) ∧
      (g < 8 → Group AA → Held s AA →
        let r (i : Nat) : Int := toSigned 128 (el s a.toNat (2 * g) 128 i)
        (Group D → Held s D → Apart AA D → c.toNat ≤ 2 * N - 2 → ∃ t, exec (.vxtr d a c k e q) s = .next t ∧
          Elementwise s t 4 64 D (masked s k 64 D fun i => (ofSigned 64 (coefAt (r i) c.toNat), 0)) s.h.full) ∧
        (d.toNat < 24 → ∃ t, exec (.vgchk d a (q.setWidth 5) k e) s = .next t ∧ Maskwise s t d (fun i =>
          (isActive s k i && (List.range (2 * N - 1)).all fun j =>
            decide ((planCap P).1 + (if signed then (planBound P : Int) else 0) ≤ coefAt (r i) j) &&
            decide (coefAt (r i) j ≤ (planCap P).2 - planBound P), 0)))) ∧
      (let DD : Regs := (d.toNat, 2 * g)
       let B : Regs := (b.toNat, g)
       g < 8 → Group DD → Held s DD → Group A → Held s A → Group B → Held s B → Apart DD A → Apart DD B →
        let x (i : Nat) : Int := if P.getLsbD 13 then toSigned 64 (el s a.toNat g 64 i) else el s a.toNat g 64 i
        let y (i : Nat) : Int := if P.getLsbD 14 then toSigned 64 (el s b.toNat g 64 i) else el s b.toNat g 64 i
        let r (i : Nat) : Int := toSigned 128 (el s d.toNat (2 * g) 128 i)
        let beyond (i : Nat) : Bool := (guardFails P (r i) (convElem P (el s a.toNat g 64 i) (el s b.toNat g 64 i)).2).isSome
        (P.getLsbD 23 = true ∨ ∀ i < s.h.span, isActive s k i = true → beyond i = false) →
        ∃ t, exec (.vconv d a b k e f q) s = .next t ∧ Elementwise s t 4 128 DD (masked s k 128 DD fun i =>
          (ofSigned 128 (r i + x i * y i), if beyond i then fGOV else 0)) s.h.full))

/-- At an accepted width, on an image and a group that are held and full and share no register, with every covered header valid
(for VQSCALE: a template whose fields but E8 are valid): VPLANE gives the prefix value of each active element, clamped with
SAT, and VDEQ its float, in groups under the element-wise frame (vd empty for its pipe after VPLANE); VTOPLANE and VNARROW
write the code of each active element, plane 0 most significant, keep the others (ZP with IP) and zero plane words from P on:
VTOPLANE the value in units of 2^(E8 - 127) rounded to an integer under XRM, plus ZP, clamped, VNARROW the same of the value in
code units plus the carry, rounded to binary32 under RNE, with the carry of R121 from EFC to EFC, rescaled where the scale changes; VQSCALE writes the least scale that fits into the header of every block
with an active element, and raises SAT for the lowest active element whose term fits under none. Headers, and all else, are
unchanged. (That a code ZP beyond the range of P bits is stored as its low P bits is the model's choice: log 57, DESIGN CHOICE; when
VTOPLANE and the chain raise NX and how they round: logs 17 and 19; that a signalling NaN which VQSCALE skips raises nothing: log 72,
DESIGN CHOICE.) (R119, R120, R121, R176, R177, R179, R180, R181.) -/
def Obligations.PlaneResults : Prop :=
  ∀ (s : State) (d a n b : BitVec 5) (k : BitVec 3) (e : BitVec 1), Fresh s →
    let g := s.h.grp
    let w := s.h.ew
    let N := (s.h.span + 63) / 64
    let bit (t : State) (r : Regs) (j p i : Nat) : Bool := (t.h.img r.1 r.2).testBit (576 * j + 64 + 64 * p + i)
    let hdr (t : State) (r : Regs) (j : Nat) : Nat := el t r.1 r.2 64 (9 * j)
    let P (x : Nat) : Nat := x / 2 ^ 24 % 16
    s.h.span * w ≤ 32768 * g →
    (let D : Regs := (d.toNat, g)
     let A := imageOf s a
     Group D → Held s D → Held s A → Apart D A → (∀ j < N, HdrOk (hdr s A j)) →
      let pre (i : Nat) : Int := prefixVal (s.h.img A.1 A.2) (hdr s A (i / 64)) (i / 64) (i % 64) n.toNat
      (w = 8 ∨ w = 16 ∨ w = 32 → ∃ t, exec (.vplane d a n k e) s = .next t ∧
        ElementwiseLater s t 4 w D (masked s k w D fun i => satTo w (pre i))) ∧
      (w = 16 ∨ w = 32 → ∃ t, exec (.vdeq d a n k e) s = .next t ∧ Elementwise s t 4 w D (masked s k w D fun i =>
        s.h.fmt.round (frmOf s.h.rmode) (pre i < 0) (pre i).natAbs ((hdr s A (i / 64) % 256 : Nat) - 127) false) s.h.full)) ∧
    (let V : Regs := (a.toNat, g)
     let D := imageOf s d
     let x (i : Nat) : Nat := el s a.toNat g w i
     (w = 16 ∨ w = 32) → Group V → Held s V → Held s D → Apart D V →
      let rest (t : State) (efc : Word) : Prop := (∀ r < 32, r < D.1 ∨ D.1 + D.2 ≤ r → t.h.vreg r = s.h.vreg r) ∧
        t = { s with h := { s.h with
          v := t.h.v, fst := t.h.fst, evx := t.h.evx, efc, lvd := d.setWidth 64, pc := s.h.pc + 4 } }
      ((∀ j < N, HdrOk (hdr s D j)) →
        let coded (t : State) (c : Nat → Int) : Prop := ∀ j < N, hdr t D j = hdr s D j ∧ ∀ p < 8, ∀ i < 64,
          let h := hdr s D j
          bit t D j p i = (decide (p < P h) &&
            (if s.h.span ≤ 64 * j + i then bit s D j p i
             else if isActive s k (64 * j + i) then (ofSigned (P h) (c (64 * j + i))).testBit (P h - 1 - p)
             else if s.h.vtype.getLsbD 6 then (ofSigned (P h) (hdrZP h)).testBit (P h - 1 - p) else bit s D j p i))
        (let r (i : Nat) := planeCode (hdr s D (i / 64)) (xrmOf s.h.rmode) (s.h.fmt.unpack (x i))
         ∃ t, exec (.vtoplane d a k e) s = .next t ∧ coded t (fun i => (r i).1) ∧ rest t s.h.efc ∧
           FlagsAfter s t s.h.span (fun i => if isActive s k i then (r i).2 else 0)) ∧
        (∃ (t : State) (carry : Nat → Nat),
          let last (i : Nat) : Option Nat :=
            ((List.range i).reverse.find? fun j => isActive s k j).map fun j => hdr s D (j / 64) % 256
          let r (i : Nat) := chainCode (hdr s D (i / 64)) (carry i) (last i) (s.h.fmt.unpack (x i))
          carry 0 = s.h.efc.toNat % 2 ^ 32 ∧ (∀ i, carry (i + 1) = if isActive s k i then (r i).2.1 else carry i) ∧
          exec (.vnarrow d a k e) s = .next t ∧ coded t (fun i => (r i).1) ∧ rest t (BitVec.ofNat 64 (carry s.h.span)) ∧
          FlagsAfter s t s.h.span (fun i => if isActive s k i then (r i).2.2 else 0))) ∧
      (let T := (s.getG b).toNat
       let B := max 1 (if T.testBit 28 then 2 ^ (P T - 1) - 1 else 2 ^ P T - 1 - T / 2 ^ 8 % 256)
       let fits (j ex : Nat) : Prop := ∀ i, 64 * j ≤ i → i < 64 * (j + 1) → i < s.h.span → isActive s k i = true →
         ∀ v, scaleTerm (T.testBit 28) (s.h.fmt.unpack (x i)) = some v → (FVal.fin false B ((ex : Int) - 127)).lt v = false
       HdrOk (T / 256 * 256 + 1) → ∃ t, exec (.vqscale d a b k e) s = .next t ∧ rest t s.h.efc ∧
         FlagsAfter s t s.h.span (fun i => if isActive s k i = true ∧
           (∃ v, scaleTerm (T.testBit 28) (s.h.fmt.unpack (x i)) = some v ∧ (FVal.fin false B 127).lt v = true) then fSAT else 0) ∧
         ∀ j < N, (∀ q, 1 ≤ q → q < 9 → el t D.1 D.2 64 (9 * j + q) = el s D.1 D.2 64 (9 * j + q)) ∧
           (blockOn s k j = false → hdr t D j = hdr s D j) ∧
           (blockOn s k j = true → ∃ ex, 1 ≤ ex ∧ ex ≤ 254 ∧
             hdr t D j = ex + T / 2 ^ 8 % 256 * 2 ^ 8 + (T / 2 ^ 16 % 256 + j) % 256 * 2 ^ 16 + T / 2 ^ 24 % 2 ^ 6 * 2 ^ 24 ∧
             (∀ y, 1 ≤ y → y < ex → ¬fits j y) ∧ (fits j ex ∨ ex = 254 ∧ t.h.fst.getLsbD 5 = true))))

/-- XZERO (and its illegal operand), XORD, XSHIFT, XTOLOC, XLSHIFT, XLD and XST complete under R202, R204 and R213 with the
words of Ea that R204 and R206 to R209 give, each step one binary32 operation under RNE in the order of the rules, or with
the 96 words read or written; every other expansion register, every vector, g and mask register and, but for XST, all of
memory is unchanged; FST bits are only set. (R195, R197, R198, R202, R204, R206, R207, R208, R209, R213.) -/
def Obligations.ExpansionRegisterResults : Prop :=
  ∀ (s : State) (a b c : BitVec 5), Fresh s → a.toNat < 16 →
    let A := s.h.ereg a.toNat
    let B := s.h.ereg b.toNat
    let ca : XVec := ((xw s a 2, 0), (xw s a 3, 0), (xw s a 4, 0))
    let cb : XVec := ((xw s b 2, 0), (xw s b 3, 0), (xw s b 4, 0))
    let coef (n : BitVec 5) (g : XIdx) : XVal := (xw s n (8 + g.index), 0)
    let P := xP A
    (EordOk s → ∃ t, exec (.xzero a b c) s = .next t ∧ Expands s t a (fun j =>
      if j = 0 then s.h.eord.toNat % 32 else if j = 1 then (if s.h.eord.getLsbD 4 then s.h.eord.toNat / 2 ^ 16 % 2 ^ 32 else 0)
      else if j < 4 then elem 32 (s.getG b).toNat (j - 2) else if j < 6 then elem 32 (s.getG c).toNat (j - 4)
      else if 8 ≤ j ∧ j < 173 then 0 else xw s a j)) ∧
    (¬EordOk s → exec (.xzero a b c) s = s.trapPre 0x02 s.ir) ∧
    (b.toNat < 16 → ∃ t, exec (.xord a b) s = .next t ∧ Expands s t a (fun j =>
      let p := s.h.eord.toNat % 16
      if j = 0 then xw s b 0 / 16 * 16 + p else if j < 6 then xw s b j
      else if 8 ≤ j ∧ j < 8 + xCount p then (if j < 8 + xCount (xP B) then xw s b j else 0) else xw s a j)) ∧
    (b.toNat < 16 → a ≠ b → PairOk s a b 1 1 → ∃ t, exec (.xshift a b) s = .next t ∧
      Expands s t a (coefWords s a 1 ((xUpTo P).map fun g =>
        (((xUpTo g.deg).filter fun h => h.le g).foldl
          (fun acc h => xAdd acc (xMul (coef b h) (xProd (xTabs P true (xDiff cb ca)) (g.sub h)))) (coef a g)).1))) ∧
    (b.toNat < 16 → a ≠ b → PairOk s a b 1 2 → ∃ t, exec (.xtoloc a b) s = .next t ∧
      Expands s t a (coefWords s a 2 ((xUpTo P).map fun g =>
        ((xUpTo (P - g.deg)).foldl (fun acc h =>
          let term := xMul (xMul (coef b h) (xFact (h.add g) g)) (((xKernel A (xDiff ca cb)).1[(h.add g).index]?).getD (0, 0))
          xAdd acc (if h.deg % 2 = 1 then xNeg term else term)) (coef a g)).1))) ∧
    (b.toNat < 16 → a ≠ b → PairOk s a b 2 2 → ∃ t, exec (.xlshift a b) s = .next t ∧
      Expands s t a (coefWords s a 2 ((xUpTo P).map fun g =>
        (((xUpTo P).filter fun h => g.le h).foldl
          (fun acc h => xAdd acc (xMul (xMul (coef b h) (xFact h g)) (xProd (xTabs P true (xDiff ca cb)) (h.sub g)))) (coef a g)).1))) ∧
    ((s.getG b).toNat % 8 = 0 → (s.getG b).toNat + 768 ≤ 2 ^ 64 → ∀ ks u,
      let at_ (j : Nat) : Word := s.getG b + BitVec.ofNat 64 (8 * j)
      (LoadsFrom 8 ((List.range 96).map at_) s ks u →
        let x := (ks.map (·.2)).getD 0 0
        x / 2 ^ 7 % 2 ^ 25 = 0 → x % 16 ≤ 8 → x / 32 % 4 ≠ 3 →
        ∃ t, exec (.xld a b) s = .next t ∧ (∀ j < 96, elem 64 (t.h.ereg a.toNat) j = (ks.map (·.2)).getD j 0) ∧
          (∀ n < 16, n ≠ a.toNat → t.h.ereg n = s.h.ereg n) ∧ ReadsAre s t 8 ks ∧
          t = { u with h := { u.h with e := t.h.e, pc := s.h.pc + 4 } }) ∧
      ∀ js, StoresTo 8 ((List.range 96).map fun j => (at_ j, elem 64 A j)) s js u → Memory.wf s.mem = true →
        exec (.xst a b) s = .next (u.adv 4) ∧ u.h = { s.h with watch := u.h.watch } ∧
          WritesAre s u 8 js ((List.range 96).map fun j => elem 64 A j))

/-- At 32 bits, on groups that R201 admits, held and full: XFORM adds the terms of its active elements, in order, to the
coefficients of Ea and makes it KIND 1; XEVAL and XEVALG add the series of a KIND 2 register, term by term in coefficient order, to
the potential, and the gradient, of each active element; XADMIT sets the bits of the active elements it admits; XDIRECT adds to each active element
the kernel of every source, in order, a zero charge or distance skipped. An inactive element keeps its value or is 0 with
IP; every other register and all of memory are unchanged; FST bits are only set. (R198, R199, R200, R201, R202, R205, R210,
R211, R212.) -/
def Obligations.ExpansionVectorResults : Prop :=
  ∀ (s : State) (a b c : BitVec 5) (k : BitVec 3) (e : BitVec 1), Fresh s → s.h.ew = 32 → s.h.span ≤ 1024 * s.h.grp →
    let g := s.h.grp
    let p (i : Nat) : XVec := xpt s b i
    let centre (n : BitVec 5) : XVec := ((xw s n 2, 0), (xw s n 3, 0), (xw s n 4, 0))
    let vecs (t : State) (m : Nat) (f : Nat → Nat → Nat) : Prop :=
      (∀ q < m, ∀ i, 32 * (i + 1) ≤ 32768 * g → (xe t a q i).1 =
        if i < s.h.span ∧ isActive s k i = true then f q i else if i < s.h.span ∧ s.h.vtype.getLsbD 6 = true then 0 else (xe s a q i).1) ∧
      (∀ r < 32, r < a.toNat ∨ a.toNat + m * g ≤ r → t.h.vreg r = s.h.vreg r) ∧ FlagsOnlySet s t ∧
      t = { s with h := { s.h with
        v := t.h.v, fst := t.h.fst, evx := t.h.evx, lvd := a.setWidth 64, pc := s.h.pc + 4 } }
    (a.toNat < 16 → XGroup s b 4 → xKind (s.h.ereg a.toNat) ≠ 2 → ∃ t, exec (.xform a b k e) s = .next t ∧
      Expands s t a (coefWords s a 1 ((xUpTo (xP (s.h.ereg a.toNat))).map fun h =>
        ((actives s k).foldl (fun acc i => xAdd acc (xMul (xe s b 3 i)
          (xProd (xTabs (xP (s.h.ereg a.toNat)) true (xDiff (p i) (centre a))) h))) (xw s a (8 + h.index), 0)).1))) ∧
    (c.toNat < 16 → XGroup s b 3 → xKind (s.h.ereg c.toNat) = 2 →
      let L (h : XIdx) : XVal := (xw s c (8 + h.index), 0)
      let orders := xUpTo (xP (s.h.ereg c.toNat))
      let T (i : Nat) (h : XIdx) : XVal := xProd (xTabs (xP (s.h.ereg c.toNat)) false (xDiff (p i) (centre c))) h
      let val (q i : Nat) : Nat :=
        (if q = 0 then orders.foldl (fun acc h => xAdd acc (xMul (L h) (T i h))) (xe s a 0 i)
          else (orders.filter fun h => 1 ≤ h.at (q - 1)).foldl
            (fun acc h => xAdd acc (xMul (xMul (L h) (xInt (h.at (q - 1)))) (T i (h.down (q - 1) 1)))) (xe s a q i)).1
      (XGroup s a 1 → Apart (a.toNat, g) (b.toNat, 3 * g) → ∃ t, exec (.xeval a b c k e) s = .next t ∧ vecs t 1 val) ∧
      (XGroup s a 4 → Apart (a.toNat, 4 * g) (b.toNat, 3 * g) → ∃ t, exec (.xevalg a b c k e) s = .next t ∧ vecs t 4 val)) ∧
    (c.toNat < 16 → a.toNat < 24 → XGroup s b 4 →
      let theta : XVal := ((Fmt.f32.round .rne false (s.h.eord.toNat / 256 % 256) (-8) false).1, 0)
      ∃ t, exec (.xadmit a b c k e) s = .next t ∧ Maskwise s t a (fun i => if isActive s k i then
        let re := xAdd (xe s b 3 i) (xw s c 5, 0)
        xGe (xMul (xMul theta theta) (xSq (xDiff (p i) (centre c)))) (xMul re re) else (false, 0))) ∧
    (EordOk s → XGroup s a 1 → XGroup s b 3 → XGroup s c 4 → Apart (a.toNat, g) (b.toNat, 3 * g) → Apart (a.toNat, g) (c.toNat, 4 * g) →
      ∃ t, exec (.xdirect a b c k e) s = .next t ∧ vecs t 1 (fun _ i =>
        ((List.range s.h.span).foldl (fun (phi : XVal) j =>
          let r2 := xSq (xDiff (p i) (xpt s c j))
          if (xe s c 3 j).1 % 2 ^ 31 = 0 ∨ r2.1 = 0 then phi
          else
            let H : XVal := (s.h.eord.toNat / 2 ^ 16 % 2 ^ 32, 0)
            xAdd phi (xMul (xe s c 3 j) (if s.h.eord.getLsbD 4 then xExp (xNeg (xDiv r2 (xMul H H))) else xRsq r2)))
          (xe s a 0 i)).1))

/-- On accumulators that are held (and a shape with K nonzero for TMMA and TADD): TSHAPE sets M, N and K of TSHP; TWIN sets
TWIN[z], and raises illegal operand once z is taken; TZERO clears z under its TWIN as anchor; TMMA, for each type pair of Table
10-7 on operands in registers or the scratchpad that R139, R183 and R186 admit, adds to each element of the tile the products of
its row and column in ascending k, whatever GRANT is; TADD adds zs to zd, whatever WOVT is (the model's choice: log 62, DESIGN
CHOICE); TGANG sets its fields for the size of the gang and raises 0x18 else. (That a scratchpad offset is not reduced at
rotation 0 is the model's reading: log 33.) Other accumulators, elements outside the tile, registers and memory are unchanged.
(R123, R124, R133, R134, R183, R184, R185, R186, R187, R188, R191, R192.) -/
def Obligations.TileResults : Prop :=
  ∀ (s : State) (z y : BitVec 2) (m n : BitVec 6) (kk : BitVec 13) (i16 : BitVec 16) (rr cc : BitVec 2), Fresh s →
    (s.holdsZ z = true →
      (∃ t, exec (.tshape z m n kk) s = .next t ∧ fld t.h.tshp 0 6 = m.toNat ∧ fld t.h.tshp 8 6 = n.toNat ∧
        fld t.h.tshp 16 16 = kk.toNat + 1 ∧ (∀ b, (6 ≤ b ∧ b < 8) ∨ (14 ≤ b ∧ b < 16) ∨ 32 ≤ b → t.h.tshp.getLsbD b = s.h.tshp.getLsbD b) ∧
        t = { s with h := { s.h with tshp := t.h.tshp, pc := s.h.pc + 8 } }) ∧
      ((s.accum z).taken = false → ∃ t, exec (.twin z i16) s = .next t ∧
        (∀ q : Fin 4, t.h.twin[q] = if q.val = z.toNat then i16.setWidth 64 else s.h.twin[q]) ∧
        t = { s with h := { s.h with twin := t.h.twin, pc := s.h.pc + 8 } }) ∧
      (∃ t, exec (.tzero z) s = .next t ∧ (∀ i < 4096, zAcc t z i = 0 ∧ zSt t z i = 0) ∧ (t.accum z).taken = false ∧
        (∀ q : Fin 4, q.val = z.toNat → (t.accum z).anchor = s.h.twin[q].setWidth 16) ∧ (t.accum z).holder = (s.accum z).holder ∧
        (∀ x, x ≠ z → t.accum x = s.accum x) ∧ (∀ c, t.core c = { s.core c with z := (t.core c).z }) ∧
        (∀ c, c ≠ s.myCore → t.core c = s.core c) ∧ t = { s with cores := t.cores, h := { s.h with pc := s.h.pc + 8 } }) ∧
      (s.holdsZ y = true → s.h.shape.k ≠ 0 → ∃ t, exec (.tadd z y) s = .next t ∧ Accumulates s s t z (fun i =>
        taddElem (s.accum y).e (s.accum z).e (zAcc s y i) (zSt s y i) (zAcc s z i) (zSt s z i))) ∧
      (∀ (a b : BitVec 5) (sa sb ea eb : BitVec 1) (ta tb : BitVec 4) (pa pb : BitVec 3),
        let A := s.tileOp true sa a ta.toNat (pa.toNat + 1) s.h.shape.m s.h.shape.k s.gangPlace.1
        let B := s.tileOp false sb b tb.toNat (pb.toNat + 1) s.h.shape.n s.h.shape.k s.gangPlace.2
        let out (i : Nat) := dotFold (s.accum z).e (opVal s A (i / 64)) (opVal s B (i % 64)) s.h.shape.k (zAcc s z i, zSt s z i)
        (ta.toNat, tb.toNat) ∈ [(0, 0), (1, 1), (2, 2), (5, 5), (3, 3), (3, 4), (3, 1), (1, 3), (1, 4), (4, 3)] →
        s.h.shape.k ≠ 0 → OpOk s A sa a ea → OpOk s B sb b eb →
        (tileBpn ta.toNat = true → tileBpn tb.toNat = true → ∀ p < A.rows, ∀ q < B.rows, ∀ j < A.segs, opTag s A p j = opTag s B q j) →
        (s.h.wovt = true → ∀ i, inTile s i = true → (out i).2.2.getLsbD 7 = false) →
        ∃ t, exec (.tmma z a sa b sb ta tb pa pb ea eb) s = .next t ∧ SameMem s t ∧
          Accumulates s { s with h := { s.h with watch := t.h.watch } } t z out)) ∧
    (s.holdsZ z = true → (s.accum z).taken = true → exec (.twin z i16) s = s.trapPre 0x02 s.ir) ∧
    (let size := (rr.toNat + 1) * (cc.toNat + 1)
     let fit : Prop := match s.gangOf s.h.id with | none => size = 1 | some g => size = g.size
     (fit → ∃ t, exec (.tgang rr cc) s = .next t ∧ fld t.h.tshp 32 2 = rr.toNat ∧ fld t.h.tshp 34 2 = cc.toNat ∧
       (∀ b, b < 32 ∨ 36 ≤ b → t.h.tshp.getLsbD b = s.h.tshp.getLsbD b) ∧
       t = { s with h := { s.h with tshp := t.h.tshp, pc := s.h.pc + 8 } }) ∧
     (¬fit → exec (.tgang rr cc) s = s.trapPre 0x18 s.ir))

/-- On an accumulator that is held and a shape with K nonzero, TLDA and TSTA of a float type or raw, with or without the status
map, from and to the scratchpad layout of R186 or a base and a signed pitch, aligned and with every part readable or
writable in turn, complete: TLDA makes each element of the tile the value read, converted once under the anchor, or its 32
bytes with status finite or the map's, whatever WOVT is (the model's choice: log 62, DESIGN CHOICE; that an offset is not reduced at
rotation 0 is its reading: log 33); TSTA writes each element rounded once under FRM, or its 32 bytes and the map, raw
without a map only where every status is finite. All other elements, accumulators, registers and bytes are unchanged. (R123,
R125, R183, R186, R190.) -/
def Obligations.TileMemoryResults : Prop :=
  ∀ (s : State) (z : BitVec 2) (a b gm : BitVec 5) (sa raw sm : BitVec 1) (ty : BitVec 4),
    (Instr.tlda z a sa b ty raw sm gm).WellFormed → Fresh s → s.holdsZ z = true → s.h.shape.k ≠ 0 → (sa = 1 → a.toNat % 2 = 0 ∧ 2 ≤ a.toNat) →
    let o := s.tileOp true 1 a ty.toNat 0 0 0 0
    let size := if raw = 1 then 32 else tileSize ty.toNat
    let un := if raw = 1 then 8 else size
    let N := s.h.shape.n
    let MN := s.h.shape.m * N
    let parts := tileParts s size un
    let place (m c : Nat) : Int := if sa = 1 then 0x000FFFFE00000000 + o.off m c else (s.getG a).toNat + m * (s.getG b).toInt + c
    let vas : List Word := parts.map fun p => BitVec.ofInt 64 (place p.1 p.2)
    let mapAt : List Word := (List.range ((MN + 3) / 4)).map fun q => s.getG gm + BitVec.ofNat 64 q
    let idx (i : Nat) : Nat := i / 64 * N + i % 64
    (sa = 1 → o.base % un = 0 ∧ o.rp % un = 0 ∧ o.tp % un = 0 ∧ (o.rho ≠ 0 → N * size ≤ o.rp) ∧
      ∀ p ∈ parts, o.off p.1 p.2 + un ≤ 0x400000) →
    (sa = 0 → (s.getG a).toNat % un = 0 ∧ (s.getG b).toNat % un = 0 ∧ ∀ p ∈ parts, Fits (place p.1 p.2)) →
    (sm = 1 → (s.getG gm).toNat + (MN + 3) / 4 ≤ 2 ^ 64) →
    (∀ ks u ls v, LoadsFrom un vas s ks u → (if sm = 1 then LoadsFrom 1 mapAt u ls v else ls = [] ∧ v = u) →
      let x (i : Nat) : Nat := ((List.range (size / un)).map fun q => (ks.map (·.2)).getD (idx i * (size / un) + q) 0 * 2 ^ (8 * un * q)).sum
      ∃ t, exec (.tlda z a sa b ty raw sm gm) s = .next t ∧ ReadsAre s t un ks ∧ ReadsAre s t 1 ls ∧
        Accumulates s v t z (fun i =>
          if raw = 1 then (x i, if sm = 1 then (ls.map (·.2)).getD (idx i / 4) 0 / 4 ^ (idx i % 4) % 4 else 0, 0)
          else accAdd (s.accum z).e 0 0 ((tileFmt ty.toNat).unpack (x i)) ((tileFmt ty.toNat).unpack (x i)).isS)) ∧
    (Memory.wf s.mem = true → (raw = 1 → sm = 0 → ∀ i < 4096, inTile s i = true → zSt s z i = 0) → ∀ ks u ls v,
      let val (i : Nat) : Nat × Flags := if raw = 1 then (zAcc s z i, 0) else zRounded s z ty.toNat i
      let xs : List Nat := parts.map fun p => (val (64 * p.1 + p.2 / size)).1 / 2 ^ (8 * (p.2 % size)) % 256 ^ un
      let bytes : List Nat := (List.range ((MN + 3) / 4)).map fun q => statusMap s z q
      StoresTo un (vas.zip xs) s ks u → (if sm = 1 then StoresTo 1 (mapAt.zip bytes) u ls v else ls = [] ∧ v = u) →
      ∃ t, exec (.tsta z a sa b ty raw sm gm) s = .next t ∧
        FlagsAfter s t 4096 (fun i => if inTile s i then (val i).2 else 0) ∧
        t = { v with h := { v.h with fst := t.h.fst, evx := t.h.evx, pc := s.h.pc + 8 } } ∧ WritesAre s u un ks xs ∧
        (if sm = 1 then WritesAre u v 1 ls bytes else True))

/-- The arithmetic of tile elements, by exact integers. A product p of two operands is exact, NaN with a NaN operand or as infinity
times 0, and raises NV for the latter and for a signalling NaN. Added to Acc under anchor E: a NaN makes the status NaN; an infinity
sets a finite status and makes the other infinity NaN with NV; a finite p adds the integer nearest to p / 2^E, ties to even, modulo
2^256, whatever the status, with WIX when that is not exact and WOV when |p| is 2^(E + 224) or more. TADD combines the statuses in the
same way and adds Acc_s x 2^(Es - Ed) rounded in the same way, with WOV when that lies outside the 256-bit range, or Acc_s itself where
the anchors are equal. TSTA stores Acc x 2^E, rounded once to the format under the mode with NX, OF and UF as RND raises them, or the
infinity or default NaN of the status. (R123, R191, R125, R31, R113.) -/
def Obligations.TileArithmetic : Prop :=
  (∀ x y : FVal,
    let nan := x.isNaN || y.isNaN
    (nan = true → tileMul x y = (.nan false, x.isS || y.isS)) ∧
    (∀ a b m n e d, x = .fin a m e → y = .fin b n d → tileMul x y = (.fin (a ^^ b) (m * n) (e + d), false)) ∧
    (∀ a b n d, x = .inf a → y = .fin b n d → tileMul x y = (if n = 0 then .nan false else .inf (a ^^ b), decide (n = 0)) ∧
      tileMul y x = tileMul x y) ∧
    (∀ a b, x = .inf a → y = .inf b → tileMul x y = (.inf (a ^^ b), false))) ∧
  (∀ (E : Int) (acc st : Nat) (nv : Bool),
    let f : Flags := if nv then fNV else 0
    (∀ b, accAdd E acc st (.nan b) nv = (acc, 3, f)) ∧
    (∀ neg, accAdd E acc st (.inf neg) nv =
      if (st = 1 ∧ neg = true) ∨ (st = 2 ∧ neg = false) then (acc, 3, f ||| fNV)
      else (acc, if st = 0 then (if neg then 2 else 1) else st, f)) ∧
    ∀ neg m e, accAdd E acc st (.fin neg m e) nv =
      let u := inUnits (signed neg m) e E
      ((((acc : Int) + rndDiv .rne u.1 u.2) % 2 ^ 256).toNat, st,
        f ||| (if u.1 % u.2 = 0 then 0 else fWIX) ||| if u.2 * 2 ^ 224 ≤ u.1.natAbs then fWOV else 0)) ∧
  (∀ (Es Ed : Int) (accS stS accD stD : Nat), stS < 4 →
    let u := inUnits (toSigned 256 accS) Es Ed
    let r := rndDiv .rne u.1 u.2
    let clash : Prop := (stS = 1 ∧ stD = 2) ∨ (stS = 2 ∧ stD = 1)
    ∃ fl : Flags, taddElem Es Ed accS stS accD stD =
        ((((accD : Int) + if Es = Ed then toSigned 256 accS else r) % 2 ^ 256).toNat,
          if stS = 3 ∨ clash then 3 else if stD = 0 then stS else stD, fl) ∧
      (fl.getLsbD 0 = true ↔ clash) ∧ (fl.getLsbD 8 = true ↔ u.1 % u.2 ≠ 0) ∧
      (fl.getLsbD 7 = true ↔ Es ≠ Ed ∧ (r < -2 ^ 255 ∨ 2 ^ 255 ≤ r)) ∧ ∀ c, c ≠ 0 → c ≠ 7 → c ≠ 8 → fl.getLsbD c = false) ∧
  (∀ (f : Fmt) (r : RM) (a : Accum) (i : Nat),
    let v := toSigned 256 (a.val i)
    tileRounded f r a i =
      if a.status i = 1 then (f.infBits, 0) else if a.status i = 2 then (f.signBit + f.infBits, 0)
      else if a.status i = 3 then (f.nan, 0) else if v = 0 then (0, 0) else rndFloat f r v a.e)

/-- With nothing on the agenda, no copy engine due, the hart whose turn it is in RUN with nothing due at the boundary, no other
instruction resumed beside the one at the PC and no tile instruction queued with units to run: when the fetch at the PC gives
parcels (the first read little-endian at the place of the PC, their count by parcel 0) that decode to i, and i can enter the
queue, a step runs i with the instruction word noted, then what completion leaves (its queue entry and events), the turn passed
on and time gone on. Running it is exec of i where no failing register is consumed and no machine check is due beside a
pre-emption that lands in i. What stands in the queue finishes before an i that traps or empties the queue. Parcels that decode
to nothing raise illegal instruction (0x01). An instruction that Table 20-1 gives no position starts at 0. Which agent moves is
the model's own choice (log 3). (R49, R50, R63, R71, R72, R87.) -/
def Obligations.StepRunsTheDecodedInstruction : Prop :=
  ∀ (s u : State) (ps : List (BitVec 16)),
    s.agenda = [] → s.stopped = false → s.booting = false → s.engineTurn = none → (s.cluster s.myCluster).freeze = .running →
    s.h.slot = .run → s.h.mcheck = none → s.h.watch = none → s.h.advisory = none → s.h.branch = none →
    (s.h.resume = [] ∨ ∃ r, s.h.resume = [r] ∧ r.pc = s.h.pc) → s.h.defer = false → (∀ q ∈ s.h.vq, q.todo = none) →
    (s.h.mayPreempt = false ∨ s.h.landAt ≠ none) → s.h.paused = false → s.h.yielding = [] →
    s.fetch s.who s.h.pc = .ok (ps, u) →
    (∃ p p₀, s.translate s.who .fetch false s.h.pc = .ok p ∧ ps.head? = some p₀ ∧ p₀ = BitVec.ofNat 16 (leNat s p.key 2) ∧
      ps.length = parcelCount p₀.toNat) ∧
    (let illegal : Trap := { cause := 0x01, eaddr := BitVec.ofNat 64 (joinParcels ps), replay := u.h.replay && u.h.resuming }
     decodeParcels ps = none → step s = match u.interrupt.trap illegal with
      | .next t => .next (s.tick (if t.stall then s else t).rotate)
      | y => y) ∧
    ∀ i, decodeParcels ps = some i →
      let x := fetchedOf s.h.pc ps
      let us := usesOf u.useCtx x.len x.bits
      let v : State := { u with
        ir := BitVec.ofNat 64 x.bits
        h := if us.pipe.isSome = true ∨ us.goesOn = true then u.h
          else { u.h with resume := u.h.resume.map fun r => if r.pc = u.h.pc then { r with at_ := 0 } else r } }
      let run (w : State) : Result := match w.effect us i x with
        | .next t => .next ((t.finish w.h us x).issued w.h.id)
        | y => y
      (us.pipe.isSome = true → u.h.vq.length < 16) →
      (step s = match v.afterQueue run with
        | .next r => .next (s.tick (if r.stall then s else r).rotate)
        | y => y) ∧
      (u.h.vq = [] ∨ (∀ t, run v = .next t → t.trapped = false ∧ (t.hart v.h.id).vq ≠ []) → v.afterQueue run = run v) ∧
      (∀ t, u.h.vq ≠ [] → run v = .next t → t.trapped = true ∨ (t.hart v.h.id).vq = [] → v.afterQueue run = run v.finishQueue) ∧
      ∀ w, w.consumes us x.len x.bits = [] → (∀ t, exec i w = .next t → t.trapped = true → t.h.ecause = 0x12 → w.mayFail = false) →
        w.effect us i x = exec i w

/-- The words that chapters 3, 6, 9, 10, 11, 14, 17 and 21 write out for ADDI, ADD, VFMUL, C.VFFMA, STRIP, BLT, VPACK.B, TMMA,
XTOLOC, LDO, VST, AMO.ADD, WAITA and TLBINV decode to those instructions; C.JR of g0, a 32-bit word of the reserved major
0x1F and a tile word with a nonzero plane count on a type that has none decode to none. (R49, R52, R53, R55, R57, R60.) -/
def Obligations.DecodingOfWrittenOutWords : Prop :=
  decodeTableWord 32 0b110_000001_11000_00000_0000000000010 = some (.addi 24 0 2) ∧
  decodeTableWord 32 0xC010A600 = some (.add 4 5 6) ∧
  decodeTableWord 32 0b110_100101_00011_00001_00010_001_0_0_010 = some (.vfmul 3 1 2 1 0 0) ∧
  decodeTableWord 32 0xD28C2232 = some (.vfmul 3 1 2 1 1 0) ∧
  decodeTableWord 16 0b100_101_00100_00010 = some (.cVffma 4 2) ∧
  decodeTableWord 32 0xCD640000 = some (.strip 25) ∧
  decodeTableWord 32 0xC6399FF4 = some (.blt 14 12 0x1FF4) ∧
  decodeTableWord 32 0xD8906122 = some (.vpackB 4 3 1 0 2) ∧
  decodeTableWord 64 0xE184200000000000 = some (.tmma 0 1 0 2 0 0 0 0 0 0 0) ∧
  decodeTableWord 32 0xC3904000 = some (.xtoloc 1 0) ∧
  decodeTableWord 32 0xCA69A066 = some (.ldo 26 13 1 4 6) ∧
  decodeTableWord 32 0xDB89A040 = some (.vst 2 13 2 0 0) ∧
  decodeTableWord 32 0xCB6D9900 = some (.amoAdd 27 12 25 0 0) ∧
  decodeTableWord 32 0xCEFA7D0A = some (.waita 30 19 29 2) ∧
  decodeTableWord 32 0xCE01DB04 = some (.tlbinv 14 27) ∧
  decodeTableWord 16 0b011_11_00000_000000 = none ∧ decodeTableWord 32 0b110_011111_00000_00000_00000_00000000 = none ∧
  decodeTableWord 64 0xE184200040000000 = none

/-- For every well-formed instruction that has an encoding, with every operand at every value the encoding admits: the code has
16, 32 or 64 bits, decoding it gives the instruction back, so does decoding its parcels, and its first parcel announces its
length. (R49, R52, R55, R57, R58, R60.) -/
def Obligations.DecodeAndEncodeAgree : Prop :=
  ∀ (i : Instr) (c : Code), i.WellFormed → encode i = some c →
    (c.1 = 16 ∨ c.1 = 32 ∨ c.1 = 64) ∧ c.2 < 2 ^ c.1 ∧ decodeCode c = some i ∧ decodeParcels (parcelsOf c) = some i ∧
      ∃ p ps, parcelsOf c = p :: ps ∧ 16 * parcelCount p.toNat = c.1 ∧ (p :: ps).length = parcelCount p.toNat

/-- Whatever agent moves and whatever instruction or event runs: when the memory, the cores, the clusters, the tags and the
records of copies are listed by rising key without entries equal to their value at reset, and cores and clusters bear
numbers that exist, then so it is after the step. The form is the model's own; that a store changes the bytes stored and no
others rests on it. (R10, R40.) -/
def Obligations.StepKeepsTheCanonicalForm : Prop :=
  ∀ s t : State, Canonical s → step s = .next t → Canonical t

/-- At reset the lists of the state are in canonical form; every slot is FREE; every CSR of a hart, a core, an island or the
debug unit for which Table 1-8 or Table 18-2 gives a reset value has it (VTYPE 2, WSHARE 1, ATOLL that of an atoll of its own,
HLCACHE 4, the others 0), as the CSRs of hart `id` read; STEPCLK is 0; no island counts traffic. Values that the spec does
not state are zero by the model's choice (assumption log 1) and no part of this. (R32, R41, R47, R306.) -/
def Obligations.ResetState : Prop :=
  Canonical State.reset ∧ State.reset.h.slot = .free ∧ State.reset.others = [] ∧ State.reset.clk = 0 ∧
    (∀ (id : BitVec 12) (c : BitVec 11), csrAssigned c.toNat = true →
        (c.toNat < 0x200 ∨ 0x208 < c.toNat) → c.toNat ≠ 0x218 →
      (State.reset.focus id).csrGet c.toNat = if c = 0x000 then 2 else if c = 0x408 then 1
        else if c = 0x601 then BitVec.ofNat 64 (id.toNat / 512 * 0x24) else if c = 0x603 then 4 else 0) ∧
    (∀ id : BitVec 12, (State.reset.hart id).slot = .free ∧ (State.reset.hart id).streams.toList = [none, none, none, none]) ∧
    ∀ i : BitVec 3, (State.reset.island i).atoll = BitVec.ofNat 64 (i.toNat * 0x24) ∧ (State.reset.island i).hlcache = 4 ∧
      (State.reset.island i).rd = Vector.replicate 8 0 ∧ (State.reset.island i).wr = Vector.replicate 8 0
end

