-- ==== Sys2Proof/Laws/Arrival.lean ====
section
/-! SUPPORT. What the arrival of an element group at a register can do (01 R27, R28). -/

set_option Elab.async false

namespace Sys2Proof.Machine

/-- A hart in RUN waits for no register. -/
theorem wakeReg_run {s : State} (hs : s.h.slot = .run) (r : BitVec 5) (p : Producer) (last : Bool) : s.wakeReg r p last = s := by
  unfold State.wakeReg
  rw [hs]

/-- Nothing arrives at a full register. -/
theorem arrival_full {s : State} {r : BitVec 5} (hf : s.h.full[r.toNat]'r.isLt = .full) : s.arrival r = s := by
  unfold State.arrival
  rw [hf]

/-- An arrival from a load, VAMO, VSFU or VPLANE at a register for which the hart does not wait: the bytes up to the new frontier
are those of the image on its way, and with the last element group the register is full and holds it (R27). -/
theorem arrival_pipe {s : State} {r : BitVec 5} {p : Pending} (hs : s.h.slot = .run)
    (hp : s.h.full[r.toNat]'r.isLt = .empty p) (hb : p.by_ = .pipe) :
    s.arrival r = { s with h := { s.h with
      v := s.h.v.set r.toNat (if p.groups ≤ p.frontier + 1 then p.img
        else firstBytes (Pending.written { p with frontier := p.frontier + 1 }) p.img (s.h.v[r.toNat]'r.isLt)) r.isLt
      full := s.h.full.set r.toNat
        (if p.groups ≤ p.frontier + 1 then .full else .empty { p with frontier := p.frontier + 1 }) r.isLt } } := by
  have hc : s.coming r p = some p.img := by unfold State.coming; rw [hb]
  unfold State.arrival
  rw [hp]
  by_cases hl : p.groups ≤ p.frontier + 1
  · simp only [hc, hl, decide_true, if_true, hb, State.delivered]
    exact wakeReg_run (by exact hs) ..
  · simp only [hc, hl, decide_false, Bool.false_eq_true, if_false]
    exact wakeReg_run (by exact hs) ..

/-- A byte of an image whose first bytes have arrived. -/
theorem byte_firstBytes (n : Nat) (new old : BitVec 32768) (i : Nat) :
    (firstBytes n new old).extractLsb' (8 * i) 8 = if i < n then new.extractLsb' (8 * i) 8 else old.extractLsb' (8 * i) 8 := by
  have hsum : new.toNat % 2 ^ (8 * n) + old.toNat >>> (8 * n) <<< (8 * n) =
      (old.toNat >>> (8 * n)) <<< (8 * n) ||| new.toNat % 2 ^ (8 * n) := by
    rw [← Nat.shiftLeft_add_eq_or_of_lt (Nat.mod_lt _ (Nat.two_pow_pos _)), Nat.add_comm]
  apply BitVec.eq_of_getLsbD_eq
  intro j hj
  rw [apply_ite (fun x : BitVec 8 => x.getLsbD j)]
  simp only [BitVec.getLsbD_extractLsb', firstBytes, BitVec.getLsbD_ofNat, hsum, Nat.testBit_or, Nat.testBit_mod_two_pow,
    Nat.testBit_shiftLeft, Nat.testBit_shiftRight, hj, decide_true, Bool.true_and]
  by_cases hi : i < n
  · have h1 : ¬ 8 * n ≤ 8 * i + j := by omega
    have h2 : 8 * i + j < 8 * n := by omega
    by_cases hb : 8 * i + j < 32768
    · simp [hi, h1, h2, hb, BitVec.getLsbD]
    · simp [hi, hb, BitVec.getLsbD_of_ge _ _ (Nat.le_of_not_lt hb)]
  · have h1 : 8 * n ≤ 8 * i + j := by omega
    have h2 : ¬ 8 * i + j < 8 * n := by omega
    have h3 : 8 * n + (8 * i + j - 8 * n) = 8 * i + j := by omega
    by_cases hb : 8 * i + j < 32768
    · simp [hi, h1, h2, hb, BitVec.getLsbD, h3]
    · simp [hi, hb, BitVec.getLsbD_of_ge _ _ (Nat.le_of_not_lt hb)]

end Sys2Proof.Machine
end

