-- ==== Sys2Proof/Laws/Memory.lean ====
section
/-! SUPPORT. Sparse lists and memory: what is read back after a write, and that every operation keeps the canonical form. -/

set_option Elab.async false

namespace Sys2Proof.Machine

variable {α : Type} [DecidableEq α] {d : α}

/-! ### Sparse lists -/

/-- Below the keys of a list only its value `d` is read. -/
theorem SMap.get_of_lt {m : List (Nat × α)} {l a : Nat} (h : SMap.wfFrom d (some l) m = true) (ha : a ≤ l) : SMap.get d m a = d := by
  cases m with
  | nil => rfl
  | cons p m =>
    obtain ⟨k, v⟩ := p
    simp only [SMap.wfFrom, Bool.and_eq_true, decide_eq_true_eq] at h
    unfold SMap.get
    rw [if_pos (by omega)]

/-- A lower bound may be lowered. -/
theorem SMap.wfFrom_mono {m : List (Nat × α)} {l l' : Nat} (h : SMap.wfFrom d (some l) m = true) (hl : l' ≤ l) :
    SMap.wfFrom d (some l') m = true := by
  cases m with
  | nil => rfl
  | cons p m =>
    obtain ⟨k, v⟩ := p
    simp only [SMap.wfFrom, Bool.and_eq_true, decide_eq_true_eq] at h ⊢
    exact ⟨⟨by omega, h.1.2⟩, h.2⟩

/-- A bound may be dropped. -/
theorem SMap.wfFrom_none {m : List (Nat × α)} {l : Nat} (h : SMap.wfFrom d (some l) m = true) : SMap.wfFrom d none m = true := by
  cases m with
  | nil => rfl
  | cons p m =>
    obtain ⟨k, v⟩ := p
    simp only [SMap.wfFrom, Bool.and_eq_true, decide_eq_true_eq] at h ⊢
    exact ⟨⟨trivial, h.1.2⟩, h.2⟩

/-- What an entry set above a bound leaves above it. -/
theorem SMap.wfFrom_set {m : List (Nat × α)} {l a : Nat} (x : α) (h : SMap.wfFrom d (some l) m = true) (ha : l < a) :
    SMap.wfFrom d (some l) (SMap.set d m a x) = true := by
  induction m generalizing l with
  | nil =>
    unfold SMap.set
    split
    · rfl
    · rename_i hx; simp [SMap.wfFrom, ha, hx]
  | cons p m ih =>
    obtain ⟨k, v⟩ := p
    simp only [SMap.wfFrom, Bool.and_eq_true, decide_eq_true_eq] at h
    unfold SMap.set
    split
    · split
      · simp [SMap.wfFrom, h]
      · rename_i h1 h2; simp [SMap.wfFrom, h, ha, h1, h2]
    · split
      · split
        · exact SMap.wfFrom_mono h.2 (by omega)
        · rename_i h1 h2 h3; simp [SMap.wfFrom, h, ha, h3, h2 ▸ h.2]
      · have := ih h.2 (by omega)
        simp [SMap.wfFrom, h, this]

/-- Setting an entry keeps the canonical form. -/
theorem SMap.wf_set {m : List (Nat × α)} (a : Nat) (x : α) (h : SMap.wf d m = true) : SMap.wf d (SMap.set d m a x) = true := by
  unfold SMap.wf at *
  cases m with
  | nil =>
    unfold SMap.set
    split
    · rfl
    · rename_i hx; simp [SMap.wfFrom, hx]
  | cons p m =>
    obtain ⟨k, v⟩ := p
    simp only [SMap.wfFrom, Bool.and_eq_true, decide_eq_true_eq] at h
    unfold SMap.set
    split
    · split
      · simp [SMap.wfFrom, h]
      · rename_i h1 h2; simp [SMap.wfFrom, h, h1, h2]
    · split
      · split
        · exact SMap.wfFrom_none h.2
        · rename_i h1 h2 h3; simp [SMap.wfFrom, h3, h2 ▸ h.2]
      · have := SMap.wfFrom_set x h.2 (a := a) (by omega)
        simp [SMap.wfFrom, h, this]

/-- What is read above a bound after an entry is set. -/
theorem SMap.getFrom_set {m : List (Nat × α)} {l a : Nat} (x : α) (b : Nat) (h : SMap.wfFrom d (some l) m = true) (ha : l < a) :
    SMap.get d (SMap.set d m a x) b = if b = a then x else SMap.get d m b := by
  induction m generalizing l with
  | nil =>
    unfold SMap.set
    split
    · rename_i hx; simp [SMap.get, hx]
    · by_cases hb : b = a
      · simp [SMap.get, hb]
      · simp [SMap.get, hb]
  | cons p m ih =>
    obtain ⟨k, v⟩ := p
    simp only [SMap.wfFrom, Bool.and_eq_true, decide_eq_true_eq] at h
    unfold SMap.set
    split
    · rename_i hk
      have hlow : ∀ c, c ≤ a → SMap.get d ((k, v) :: m) c = d := fun c hc => by unfold SMap.get; rw [if_pos (by omega)]
      split
      · rename_i hx
        by_cases hb : b = a
        · rw [if_pos hb, hb, hlow a le_rfl, hx]
        · rw [if_neg hb]
      · by_cases hb : b = a
        · rw [if_pos hb, hb]; simp [SMap.get]
        · rw [if_neg hb]
          by_cases hlt : b < a
          · rw [hlow b hlt.le]; unfold SMap.get; rw [if_pos hlt]
          · rw [SMap.get, if_neg hlt, if_neg hb]
    · split
      · rename_i h1 hk
        subst hk
        split
        · rename_i hx
          by_cases hb : b = a
          · rw [if_pos hb, hb, SMap.get_of_lt h.2 le_rfl, hx]
          · rw [if_neg hb]
            by_cases hlt : b < a
            · rw [SMap.get_of_lt h.2 hlt.le]; unfold SMap.get; rw [if_pos hlt]
            · conv_rhs => rw [SMap.get, if_neg hlt, if_neg hb]
        · by_cases hb : b = a
          · rw [if_pos hb, hb]; simp [SMap.get]
          · rw [if_neg hb]
            by_cases hlt : b < a
            · simp [SMap.get, hlt]
            · simp [SMap.get, hlt, hb]
      · have hka : k < a := by omega
        have := ih h.2 hka
        by_cases hlt : b < k
        · have hb : b ≠ a := by omega
          simp [SMap.get, hlt, hb]
        · by_cases hbk : b = k
          · have hb : b ≠ a := by omega
            subst hbk; simp [SMap.get, hb]
          · rw [SMap.get, if_neg hlt, if_neg hbk, this]
            conv_rhs => rw [SMap.get, if_neg hlt, if_neg hbk]

/-- A list in canonical form reads what was set, and elsewhere what it read before. -/
theorem SMap.get_set {m : List (Nat × α)} (a b : Nat) (x : α) (h : SMap.wf d m = true) :
    SMap.get d (SMap.set d m a x) b = if b = a then x else SMap.get d m b := by
  unfold SMap.wf at h
  cases m with
  | nil =>
    unfold SMap.set
    split
    · rename_i hx; simp [SMap.get, hx]
    · by_cases hb : b = a
      · simp [SMap.get, hb]
      · simp [SMap.get, hb]
  | cons p m =>
    obtain ⟨k, v⟩ := p
    simp only [SMap.wfFrom, Bool.and_eq_true, decide_eq_true_eq] at h
    by_cases hk : 0 < a ∧ 0 < k
    · exact SMap.getFrom_set x b (l := 0) (by simp [SMap.wfFrom, h, hk.2]) hk.1
    · -- a or k is 0: the entry stands at the head
      by_cases hka : k < a
      · rw [SMap.set, if_neg (by omega), if_neg (by omega)]
        have := SMap.getFrom_set x b h.2 hka
        by_cases hlt : b < k
        · have hb : b ≠ a := by omega
          simp [SMap.get, hlt, hb]
        · by_cases hbk : b = k
          · have hb : b ≠ a := by omega
            subst hbk; simp [SMap.get, hb]
          · rw [SMap.get, if_neg hlt, if_neg hbk, this]
            conv_rhs => rw [SMap.get, if_neg hlt, if_neg hbk]
      · have ha : a = 0 := by omega
        subst ha
        unfold SMap.set
        by_cases h0 : 0 < k
        · rw [if_pos h0]
          split
          · rename_i hx
            by_cases hb : b = 0
            · rw [if_pos hb, hb, hx]; unfold SMap.get; rw [if_pos h0]
            · rw [if_neg hb]
          · by_cases hb : b = 0
            · rw [if_pos hb, hb]; simp [SMap.get]
            · rw [if_neg hb, SMap.get, if_neg (by omega), if_neg hb]
        · have hk0 : k = 0 := by omega
          subst hk0
          rw [if_neg h0, if_pos rfl]
          split
          · rename_i hx
            by_cases hb : b = 0
            · rw [if_pos hb, hb, SMap.get_of_lt h.2 le_rfl, hx]
            · rw [if_neg hb]; conv_rhs => rw [SMap.get, if_neg (by omega), if_neg hb]
          · by_cases hb : b = 0
            · rw [if_pos hb, hb]; simp [SMap.get]
            · rw [if_neg hb, SMap.get, if_neg (by omega), if_neg hb]; conv_rhs => rw [SMap.get, if_neg (by omega), if_neg hb]

/-- Keys below a bound stay below it. -/
theorem SMap.keys_set {m : List (Nat × α)} {n : Nat} (a : Nat) (x : α) (h : ∀ p ∈ m, p.1 < n) (ha : a < n) :
    ∀ p ∈ SMap.set d m a x, p.1 < n := by
  induction m with
  | nil =>
    unfold SMap.set
    split
    · simp
    · intro p hp; rw [List.mem_singleton] at hp; subst hp; exact ha
  | cons q m ih =>
    obtain ⟨k, v⟩ := q
    have hk : k < n := h (k, v) (by simp)
    have hm : ∀ p ∈ m, p.1 < n := fun p hp => h p (by simp [hp])
    unfold SMap.set
    split
    · split
      · exact h
      · intro p hp
        rcases List.mem_cons.mp hp with rfl | hp
        · exact ha
        · exact h p hp
    · split
      · split
        · exact hm
        · intro p hp
          rcases List.mem_cons.mp hp with rfl | hp
          · exact ha
          · exact hm p hp
      · intro p hp
        rcases List.mem_cons.mp hp with rfl | hp
        · exact hk
        · exact ih hm p hp

/-- Filtering keeps the canonical form. -/
theorem SMap.wf_filter {m : List (Nat × α)} (f : Nat × α → Bool) (h : SMap.wf d m = true) : SMap.wf d (m.filter f) = true := by
  have key : ∀ (m : List (Nat × α)) (l : Nat), SMap.wfFrom d (some l) m = true → SMap.wfFrom d (some l) (m.filter f) = true := by
    intro m
    induction m with
    | nil => intro l _; rfl
    | cons p m ih =>
      obtain ⟨k, v⟩ := p
      intro l h
      simp only [SMap.wfFrom, Bool.and_eq_true, decide_eq_true_eq] at h
      rw [List.filter_cons]
      split
      · simp [SMap.wfFrom, h, ih k h.2]
      · exact SMap.wfFrom_mono (ih k h.2) (by omega)
  unfold SMap.wf at *
  cases m with
  | nil => rfl
  | cons p m =>
    obtain ⟨k, v⟩ := p
    simp only [SMap.wfFrom, Bool.and_eq_true, decide_eq_true_eq] at h
    rw [List.filter_cons]
    split
    · simp [SMap.wfFrom, h, key m k h.2]
    · exact SMap.wfFrom_none (key m k h.2)

/-! ### Memory -/

/-- Reading a byte back. -/
theorem Memory.byte_setByte (m : Memory) (a b : Nat) (x : Byte) (h : Memory.wf m = true) :
    Memory.byte (Memory.setByte m a x) b = if b = a then x else Memory.byte m b := SMap.get_set a b x h

/-- Storing a byte keeps the canonical form. -/
theorem Memory.wf_setByte (m : Memory) (a : Nat) (x : Byte) (h : Memory.wf m = true) : Memory.wf (Memory.setByte m a x) = true :=
  SMap.wf_set a x h

/-- Storing bytes keeps the canonical form. -/
theorem Memory.wf_write (n : Nat) : ∀ (m : Memory) (a x : Nat), Memory.wf m = true → Memory.wf (Memory.write m a n x) = true := by
  induction n with
  | zero => intro m a x h; exact h
  | succ n ih => intro m a x h; exact ih _ _ _ (Memory.wf_setByte m a _ h)

/-- Reading bytes back: those written hold the number little-endian, every other one is unchanged. -/
theorem Memory.byte_write (n : Nat) : ∀ (m : Memory) (a x b : Nat), Memory.wf m = true →
    Memory.byte (Memory.write m a n x) b =
      if a ≤ b ∧ b < a + n then BitVec.ofNat 8 (x / 256 ^ (b - a)) else Memory.byte m b := by
  induction n with
  | zero => intro m a x b _; rw [if_neg (by omega)]; rfl
  | succ n ih =>
    intro m a x b h
    rw [Memory.write, ih _ _ _ _ (Memory.wf_setByte m a _ h), Memory.byte_setByte m a b _ h]
    by_cases hb : b = a
    · subst hb
      rw [if_neg (by omega), if_pos rfl, if_pos (by omega), Nat.sub_self, pow_zero, Nat.div_one]
    · rw [if_neg hb]
      by_cases hin : a + 1 ≤ b ∧ b < a + 1 + n
      · rw [if_pos hin, if_pos (by omega), Nat.div_div_eq_div_mul]
        congr 2
        rw [show b - a = b - (a + 1) + 1 by omega, pow_succ, Nat.mul_comm]
      · rw [if_neg hin, if_neg (by omega)]

/-- A number of n bytes is below 256^n. -/
theorem Memory.read_lt (n : Nat) : ∀ (m : Memory) (a : Nat), Memory.read m a n < 256 ^ n := by
  induction n with
  | zero => intro m a; simp [Memory.read]
  | succ n ih =>
    intro m a
    have := ih m (a + 1)
    have hb := (Memory.byte m a).isLt
    rw [Memory.read, pow_succ]
    omega

/-- Reading depends on the bytes read alone. -/
theorem Memory.read_congr (n : Nat) : ∀ (m m' : Memory) (a : Nat), (∀ j < n, Memory.byte m (a + j) = Memory.byte m' (a + j)) →
    Memory.read m a n = Memory.read m' a n := by
  induction n with
  | zero => intro m m' a _; rfl
  | succ n ih =>
    intro m m' a h
    rw [Memory.read, Memory.read, ih m m' (a + 1) (fun j hj => by have := h (j + 1) (by omega); rwa [show a + (j + 1) = a + 1 + j by omega] at this)]
    have := h 0 (by omega)
    rw [Nat.add_zero] at this
    rw [this]

/-- A number written is read back, cut to its bytes. -/
theorem Memory.read_write (n : Nat) : ∀ (m : Memory) (a x : Nat), Memory.wf m = true →
    Memory.read (Memory.write m a n x) a n = x % 256 ^ n := by
  induction n with
  | zero => intro m a x _; simp [Memory.read, Nat.mod_one]
  | succ n ih =>
    intro m a x h
    have hw := Memory.wf_setByte m a (BitVec.ofNat 8 x) h
    rw [Memory.read, Memory.write, ih _ _ _ hw, Memory.byte_write n _ _ _ _ hw, if_neg (by omega),
      Memory.byte_setByte m a a _ h, if_pos rfl, BitVec.toNat_ofNat, show 256 ^ (n + 1) = 256 * 256 ^ n by
        rw [pow_succ, Nat.mul_comm], Nat.mod_mul]

/-- A write elsewhere is not read. -/
theorem Memory.read_write_apart (m : Memory) (a x b n k : Nat) (h : Memory.wf m = true) (hd : a + n ≤ b ∨ b + k ≤ a) :
    Memory.read (Memory.write m a n x) b k = Memory.read m b k :=
  Memory.read_congr k _ _ b fun j hj => by rw [Memory.byte_write n m a x (b + j) h, if_neg (by omega)]

/-- Memory at reset is in canonical form. -/
theorem State.reset_mem_wf : Memory.wf State.reset.mem = true := rfl

end Sys2Proof.Machine
end

