-- ==== Sys2Proof/Laws/State.lean ====
section
/-! SUPPORT. What each update of the state leaves, field by field. -/

set_option Elab.async false

namespace Sys2Proof.Machine

/-! ### A g register, the PC, both, a mask, the end of a wait -/

@[simp] theorem State.setG_others (s : State) (d : BitVec 5) (x : Word) : (s.setG d x).others = s.others := rfl
@[simp] theorem State.setG_cores (s : State) (d : BitVec 5) (x : Word) : (s.setG d x).cores = s.cores := rfl
@[simp] theorem State.setG_clusters (s : State) (d : BitVec 5) (x : Word) : (s.setG d x).clusters = s.clusters := rfl
@[simp] theorem State.setG_islands (s : State) (d : BitVec 5) (x : Word) : (s.setG d x).islands = s.islands := rfl
@[simp] theorem State.setG_mem (s : State) (d : BitVec 5) (x : Word) : (s.setG d x).mem = s.mem := rfl
@[simp] theorem State.setG_badMem (s : State) (d : BitVec 5) (x : Word) : (s.setG d x).badMem = s.badMem := rfl
@[simp] theorem State.setG_tags (s : State) (d : BitVec 5) (x : Word) : (s.setG d x).tags = s.tags := rfl
@[simp] theorem State.setG_dones (s : State) (d : BitVec 5) (x : Word) : (s.setG d x).dones = s.dones := rfl
@[simp] theorem State.setG_episodes (s : State) (d : BitVec 5) (x : Word) : (s.setG d x).episodes = s.episodes := rfl
@[simp] theorem State.setG_fleetBars (s : State) (d : BitVec 5) (x : Word) : (s.setG d x).fleetBars = s.fleetBars := rfl
@[simp] theorem State.setG_launches (s : State) (d : BitVec 5) (x : Word) : (s.setG d x).launches = s.launches := rfl
@[simp] theorem State.setG_poppers (s : State) (d : BitVec 5) (x : Word) : (s.setG d x).poppers = s.poppers := rfl
@[simp] theorem State.setG_watches (s : State) (d : BitVec 5) (x : Word) : (s.setG d x).watches = s.watches := rfl
@[simp] theorem State.setG_signalMaps (s : State) (d : BitVec 5) (x : Word) : (s.setG d x).signalMaps = s.signalMaps := rfl
@[simp] theorem State.setG_clk (s : State) (d : BitVec 5) (x : Word) : (s.setG d x).clk = s.clk := rfl
@[simp] theorem State.setG_dumpa (s : State) (d : BitVec 5) (x : Word) : (s.setG d x).dumpa = s.dumpa := rfl
@[simp] theorem State.setG_dumpctl (s : State) (d : BitVec 5) (x : Word) : (s.setG d x).dumpctl = s.dumpctl := rfl
@[simp] theorem State.setG_dbgsel (s : State) (d : BitVec 5) (x : Word) : (s.setG d x).dbgsel = s.dbgsel := rfl
@[simp] theorem State.setG_dump (s : State) (d : BitVec 5) (x : Word) : (s.setG d x).dump = s.dump := rfl
@[simp] theorem State.setG_tabos (s : State) (d : BitVec 5) (x : Word) : (s.setG d x).tabos = s.tabos := rfl
@[simp] theorem State.setG_replies (s : State) (d : BitVec 5) (x : Word) : (s.setG d x).replies = s.replies := rfl
@[simp] theorem State.setG_outbox (s : State) (d : BitVec 5) (x : Word) : (s.setG d x).outbox = s.outbox := rfl
@[simp] theorem State.setG_portsLost (s : State) (d : BitVec 5) (x : Word) : (s.setG d x).portsLost = s.portsLost := rfl
@[simp] theorem State.setG_narrowsFailed (s : State) (d : BitVec 5) (x : Word) : (s.setG d x).narrowsFailed = s.narrowsFailed := rfl
@[simp] theorem State.setG_narrowsTries (s : State) (d : BitVec 5) (x : Word) : (s.setG d x).narrowsTries = s.narrowsTries := rfl
@[simp] theorem State.setG_stopped (s : State) (d : BitVec 5) (x : Word) : (s.setG d x).stopped = s.stopped := rfl
@[simp] theorem State.setG_booting (s : State) (d : BitVec 5) (x : Word) : (s.setG d x).booting = s.booting := rfl
@[simp] theorem State.setG_agenda (s : State) (d : BitVec 5) (x : Word) : (s.setG d x).agenda = s.agenda := rfl
@[simp] theorem State.setG_ticks (s : State) (d : BitVec 5) (x : Word) : (s.setG d x).ticks = s.ticks := rfl
@[simp] theorem State.setG_fresh (s : State) (d : BitVec 5) (x : Word) : (s.setG d x).fresh = s.fresh := rfl
@[simp] theorem State.setG_ir (s : State) (d : BitVec 5) (x : Word) : (s.setG d x).ir = s.ir := rfl
@[simp] theorem State.setG_stall (s : State) (d : BitVec 5) (x : Word) : (s.setG d x).stall = s.stall := rfl
@[simp] theorem State.setG_trapped (s : State) (d : BitVec 5) (x : Word) : (s.setG d x).trapped = s.trapped := rfl
@[simp] theorem State.setG_h_id (s : State) (d : BitVec 5) (x : Word) : (s.setG d x).h.id = s.h.id := rfl
@[simp] theorem State.setG_h_slot (s : State) (d : BitVec 5) (x : Word) : (s.setG d x).h.slot = s.h.slot := rfl
@[simp] theorem State.setG_h_pc (s : State) (d : BitVec 5) (x : Word) : (s.setG d x).h.pc = s.h.pc := rfl
@[simp] theorem State.setG_h_lvl (s : State) (d : BitVec 5) (x : Word) : (s.setG d x).h.lvl = s.h.lvl := rfl
@[simp] theorem State.setG_h_v (s : State) (d : BitVec 5) (x : Word) : (s.setG d x).h.v = s.h.v := rfl
@[simp] theorem State.setG_h_held (s : State) (d : BitVec 5) (x : Word) : (s.setG d x).h.held = s.h.held := rfl
@[simp] theorem State.setG_h_full (s : State) (d : BitVec 5) (x : Word) : (s.setG d x).h.full = s.h.full := rfl
@[simp] theorem State.setG_h_k (s : State) (d : BitVec 5) (x : Word) : (s.setG d x).h.k = s.h.k := rfl
@[simp] theorem State.setG_h_pl (s : State) (d : BitVec 5) (x : Word) : (s.setG d x).h.pl = s.h.pl := rfl
@[simp] theorem State.setG_h_e (s : State) (d : BitVec 5) (x : Word) : (s.setG d x).h.e = s.h.e := rfl
@[simp] theorem State.setG_h_vtype (s : State) (d : BitVec 5) (x : Word) : (s.setG d x).h.vtype = s.h.vtype := rfl
@[simp] theorem State.setG_h_fillv (s : State) (d : BitVec 5) (x : Word) : (s.setG d x).h.fillv = s.h.fillv := rfl
@[simp] theorem State.setG_h_rmode (s : State) (d : BitVec 5) (x : Word) : (s.setG d x).h.rmode = s.h.rmode := rfl
@[simp] theorem State.setG_h_fst (s : State) (d : BitVec 5) (x : Word) : (s.setG d x).h.fst = s.h.fst := rfl
@[simp] theorem State.setG_h_ffx (s : State) (d : BitVec 5) (x : Word) : (s.setG d x).h.ffx = s.h.ffx := rfl
@[simp] theorem State.setG_h_efc (s : State) (d : BitVec 5) (x : Word) : (s.setG d x).h.efc = s.h.efc := rfl
@[simp] theorem State.setG_h_lvd (s : State) (d : BitVec 5) (x : Word) : (s.setG d x).h.lvd = s.h.lvd := rfl
@[simp] theorem State.setG_h_eord (s : State) (d : BitVec 5) (x : Word) : (s.setG d x).h.eord = s.h.eord := rfl
@[simp] theorem State.setG_h_twin (s : State) (d : BitVec 5) (x : Word) : (s.setG d x).h.twin = s.h.twin := rfl
@[simp] theorem State.setG_h_evx (s : State) (d : BitVec 5) (x : Word) : (s.setG d x).h.evx = s.h.evx := rfl
@[simp] theorem State.setG_h_prog (s : State) (d : BitVec 5) (x : Word) : (s.setG d x).h.prog = s.h.prog := rfl
@[simp] theorem State.setG_h_progaddr (s : State) (d : BitVec 5) (x : Word) : (s.setG d x).h.progaddr = s.h.progaddr := rfl
@[simp] theorem State.setG_h_cptag (s : State) (d : BitVec 5) (x : Word) : (s.setG d x).h.cptag = s.h.cptag := rfl
@[simp] theorem State.setG_h_wtmo (s : State) (d : BitVec 5) (x : Word) : (s.setG d x).h.wtmo = s.h.wtmo := rfl
@[simp] theorem State.setG_h_idx (s : State) (d : BitVec 5) (x : Word) : (s.setG d x).h.idx = s.h.idx := rfl
@[simp] theorem State.setG_h_grant (s : State) (d : BitVec 5) (x : Word) : (s.setG d x).h.grant = s.h.grant := rfl
@[simp] theorem State.setG_h_span (s : State) (d : BitVec 5) (x : Word) : (s.setG d x).h.span = s.h.span := rfl
@[simp] theorem State.setG_h_tshp (s : State) (d : BitVec 5) (x : Word) : (s.setG d x).h.tshp = s.h.tshp := rfl
@[simp] theorem State.setG_h_depcnt (s : State) (d : BitVec 5) (x : Word) : (s.setG d x).h.depcnt = s.h.depcnt := rfl
@[simp] theorem State.setG_h_epc (s : State) (d : BitVec 5) (x : Word) : (s.setG d x).h.epc = s.h.epc := rfl
@[simp] theorem State.setG_h_eix (s : State) (d : BitVec 5) (x : Word) : (s.setG d x).h.eix = s.h.eix := rfl
@[simp] theorem State.setG_h_ecause (s : State) (d : BitVec 5) (x : Word) : (s.setG d x).h.ecause = s.h.ecause := rfl
@[simp] theorem State.setG_h_eaddr (s : State) (d : BitVec 5) (x : Word) : (s.setG d x).h.eaddr = s.h.eaddr := rfl
@[simp] theorem State.setG_h_estatus (s : State) (d : BitVec 5) (x : Word) : (s.setG d x).h.estatus = s.h.estatus := rfl
@[simp] theorem State.setG_h_econv (s : State) (d : BitVec 5) (x : Word) : (s.setG d x).h.econv = s.h.econv := rfl
@[simp] theorem State.setG_h_tvec (s : State) (d : BitVec 5) (x : Word) : (s.setG d x).h.tvec = s.h.tvec := rfl
@[simp] theorem State.setG_h_ptbr (s : State) (d : BitVec 5) (x : Word) : (s.setG d x).h.ptbr = s.h.ptbr := rfl
@[simp] theorem State.setG_h_wshare (s : State) (d : BitVec 5) (x : Word) : (s.setG d x).h.wshare = s.h.wshare := rfl
@[simp] theorem State.setG_h_tseq (s : State) (d : BitVec 5) (x : Word) : (s.setG d x).h.tseq = s.h.tseq := rfl
@[simp] theorem State.setG_h_ctxa (s : State) (d : BitVec 5) (x : Word) : (s.setG d x).h.ctxa = s.h.ctxa := rfl
@[simp] theorem State.setG_h_escr (s : State) (d : BitVec 5) (x : Word) : (s.setG d x).h.escr = s.h.escr := rfl
@[simp] theorem State.setG_h_abictl (s : State) (d : BitVec 5) (x : Word) : (s.setG d x).h.abictl = s.h.abictl := rfl
@[simp] theorem State.setG_h_fvec (s : State) (d : BitVec 5) (x : Word) : (s.setG d x).h.fvec = s.h.fvec := rfl
@[simp] theorem State.setG_h_frq (s : State) (d : BitVec 5) (x : Word) : (s.setG d x).h.frq = s.h.frq := rfl
@[simp] theorem State.setG_h_streams (s : State) (d : BitVec 5) (x : Word) : (s.setG d x).h.streams = s.h.streams := rfl
@[simp] theorem State.setG_h_vq (s : State) (d : BitVec 5) (x : Word) : (s.setG d x).h.vq = s.h.vq := rfl
@[simp] theorem State.setG_h_tileTag (s : State) (d : BitVec 5) (x : Word) : (s.setG d x).h.tileTag = s.h.tileTag := rfl
@[simp] theorem State.setG_h_credit (s : State) (d : BitVec 5) (x : Word) : (s.setG d x).h.credit = s.h.credit := rfl
@[simp] theorem State.setG_h_preq (s : State) (d : BitVec 5) (x : Word) : (s.setG d x).h.preq = s.h.preq := rfl
@[simp] theorem State.setG_h_landAt (s : State) (d : BitVec 5) (x : Word) : (s.setG d x).h.landAt = s.h.landAt := rfl
@[simp] theorem State.setG_h_branch (s : State) (d : BitVec 5) (x : Word) : (s.setG d x).h.branch = s.h.branch := rfl
@[simp] theorem State.setG_h_advisory (s : State) (d : BitVec 5) (x : Word) : (s.setG d x).h.advisory = s.h.advisory := rfl
@[simp] theorem State.setG_h_watch (s : State) (d : BitVec 5) (x : Word) : (s.setG d x).h.watch = s.h.watch := rfl
@[simp] theorem State.setG_h_watchHeld (s : State) (d : BitVec 5) (x : Word) : (s.setG d x).h.watchHeld = s.h.watchHeld := rfl
@[simp] theorem State.setG_h_mcheck (s : State) (d : BitVec 5) (x : Word) : (s.setG d x).h.mcheck = s.h.mcheck := rfl
@[simp] theorem State.setG_h_paused (s : State) (d : BitVec 5) (x : Word) : (s.setG d x).h.paused = s.h.paused := rfl
@[simp] theorem State.setG_h_yielding (s : State) (d : BitVec 5) (x : Word) : (s.setG d x).h.yielding = s.h.yielding := rfl
@[simp] theorem State.setG_h_loop (s : State) (d : BitVec 5) (x : Word) : (s.setG d x).h.loop = s.h.loop := rfl
@[simp] theorem State.setG_h_resume (s : State) (d : BitVec 5) (x : Word) : (s.setG d x).h.resume = s.h.resume := rfl
@[simp] theorem State.setG_h_quota (s : State) (d : BitVec 5) (x : Word) : (s.setG d x).h.quota = s.h.quota := rfl
@[simp] theorem State.setG_h_defer (s : State) (d : BitVec 5) (x : Word) : (s.setG d x).h.defer = s.h.defer := rfl
@[simp] theorem State.setG_h_shelf (s : State) (d : BitVec 5) (x : Word) : (s.setG d x).h.shelf = s.h.shelf := rfl
@[simp] theorem State.setG_h_lag (s : State) (d : BitVec 5) (x : Word) : (s.setG d x).h.lag = s.h.lag := rfl
@[simp] theorem State.setG_h_bad (s : State) (d : BitVec 5) (x : Word) : (s.setG d x).h.bad = s.h.bad := rfl

@[simp] theorem State.adv_others (s : State) (n : Nat) : (s.adv n).others = s.others := rfl
@[simp] theorem State.adv_cores (s : State) (n : Nat) : (s.adv n).cores = s.cores := rfl
@[simp] theorem State.adv_clusters (s : State) (n : Nat) : (s.adv n).clusters = s.clusters := rfl
@[simp] theorem State.adv_islands (s : State) (n : Nat) : (s.adv n).islands = s.islands := rfl
@[simp] theorem State.adv_mem (s : State) (n : Nat) : (s.adv n).mem = s.mem := rfl
@[simp] theorem State.adv_badMem (s : State) (n : Nat) : (s.adv n).badMem = s.badMem := rfl
@[simp] theorem State.adv_tags (s : State) (n : Nat) : (s.adv n).tags = s.tags := rfl
@[simp] theorem State.adv_dones (s : State) (n : Nat) : (s.adv n).dones = s.dones := rfl
@[simp] theorem State.adv_episodes (s : State) (n : Nat) : (s.adv n).episodes = s.episodes := rfl
@[simp] theorem State.adv_fleetBars (s : State) (n : Nat) : (s.adv n).fleetBars = s.fleetBars := rfl
@[simp] theorem State.adv_launches (s : State) (n : Nat) : (s.adv n).launches = s.launches := rfl
@[simp] theorem State.adv_poppers (s : State) (n : Nat) : (s.adv n).poppers = s.poppers := rfl
@[simp] theorem State.adv_watches (s : State) (n : Nat) : (s.adv n).watches = s.watches := rfl
@[simp] theorem State.adv_signalMaps (s : State) (n : Nat) : (s.adv n).signalMaps = s.signalMaps := rfl
@[simp] theorem State.adv_clk (s : State) (n : Nat) : (s.adv n).clk = s.clk := rfl
@[simp] theorem State.adv_dumpa (s : State) (n : Nat) : (s.adv n).dumpa = s.dumpa := rfl
@[simp] theorem State.adv_dumpctl (s : State) (n : Nat) : (s.adv n).dumpctl = s.dumpctl := rfl
@[simp] theorem State.adv_dbgsel (s : State) (n : Nat) : (s.adv n).dbgsel = s.dbgsel := rfl
@[simp] theorem State.adv_dump (s : State) (n : Nat) : (s.adv n).dump = s.dump := rfl
@[simp] theorem State.adv_tabos (s : State) (n : Nat) : (s.adv n).tabos = s.tabos := rfl
@[simp] theorem State.adv_replies (s : State) (n : Nat) : (s.adv n).replies = s.replies := rfl
@[simp] theorem State.adv_outbox (s : State) (n : Nat) : (s.adv n).outbox = s.outbox := rfl
@[simp] theorem State.adv_portsLost (s : State) (n : Nat) : (s.adv n).portsLost = s.portsLost := rfl
@[simp] theorem State.adv_narrowsFailed (s : State) (n : Nat) : (s.adv n).narrowsFailed = s.narrowsFailed := rfl
@[simp] theorem State.adv_narrowsTries (s : State) (n : Nat) : (s.adv n).narrowsTries = s.narrowsTries := rfl
@[simp] theorem State.adv_stopped (s : State) (n : Nat) : (s.adv n).stopped = s.stopped := rfl
@[simp] theorem State.adv_booting (s : State) (n : Nat) : (s.adv n).booting = s.booting := rfl
@[simp] theorem State.adv_agenda (s : State) (n : Nat) : (s.adv n).agenda = s.agenda := rfl
@[simp] theorem State.adv_ticks (s : State) (n : Nat) : (s.adv n).ticks = s.ticks := rfl
@[simp] theorem State.adv_fresh (s : State) (n : Nat) : (s.adv n).fresh = s.fresh := rfl
@[simp] theorem State.adv_ir (s : State) (n : Nat) : (s.adv n).ir = s.ir := rfl
@[simp] theorem State.adv_stall (s : State) (n : Nat) : (s.adv n).stall = s.stall := rfl
@[simp] theorem State.adv_trapped (s : State) (n : Nat) : (s.adv n).trapped = s.trapped := rfl
@[simp] theorem State.adv_h_id (s : State) (n : Nat) : (s.adv n).h.id = s.h.id := rfl
@[simp] theorem State.adv_h_slot (s : State) (n : Nat) : (s.adv n).h.slot = s.h.slot := rfl
@[simp] theorem State.adv_h_lvl (s : State) (n : Nat) : (s.adv n).h.lvl = s.h.lvl := rfl
@[simp] theorem State.adv_h_g (s : State) (n : Nat) : (s.adv n).h.g = s.h.g := rfl
@[simp] theorem State.adv_h_v (s : State) (n : Nat) : (s.adv n).h.v = s.h.v := rfl
@[simp] theorem State.adv_h_held (s : State) (n : Nat) : (s.adv n).h.held = s.h.held := rfl
@[simp] theorem State.adv_h_full (s : State) (n : Nat) : (s.adv n).h.full = s.h.full := rfl
@[simp] theorem State.adv_h_k (s : State) (n : Nat) : (s.adv n).h.k = s.h.k := rfl
@[simp] theorem State.adv_h_pl (s : State) (n : Nat) : (s.adv n).h.pl = s.h.pl := rfl
@[simp] theorem State.adv_h_e (s : State) (n : Nat) : (s.adv n).h.e = s.h.e := rfl
@[simp] theorem State.adv_h_vtype (s : State) (n : Nat) : (s.adv n).h.vtype = s.h.vtype := rfl
@[simp] theorem State.adv_h_fillv (s : State) (n : Nat) : (s.adv n).h.fillv = s.h.fillv := rfl
@[simp] theorem State.adv_h_rmode (s : State) (n : Nat) : (s.adv n).h.rmode = s.h.rmode := rfl
@[simp] theorem State.adv_h_fst (s : State) (n : Nat) : (s.adv n).h.fst = s.h.fst := rfl
@[simp] theorem State.adv_h_ffx (s : State) (n : Nat) : (s.adv n).h.ffx = s.h.ffx := rfl
@[simp] theorem State.adv_h_efc (s : State) (n : Nat) : (s.adv n).h.efc = s.h.efc := rfl
@[simp] theorem State.adv_h_lvd (s : State) (n : Nat) : (s.adv n).h.lvd = s.h.lvd := rfl
@[simp] theorem State.adv_h_eord (s : State) (n : Nat) : (s.adv n).h.eord = s.h.eord := rfl
@[simp] theorem State.adv_h_twin (s : State) (n : Nat) : (s.adv n).h.twin = s.h.twin := rfl
@[simp] theorem State.adv_h_evx (s : State) (n : Nat) : (s.adv n).h.evx = s.h.evx := rfl
@[simp] theorem State.adv_h_prog (s : State) (n : Nat) : (s.adv n).h.prog = s.h.prog := rfl
@[simp] theorem State.adv_h_progaddr (s : State) (n : Nat) : (s.adv n).h.progaddr = s.h.progaddr := rfl
@[simp] theorem State.adv_h_cptag (s : State) (n : Nat) : (s.adv n).h.cptag = s.h.cptag := rfl
@[simp] theorem State.adv_h_wtmo (s : State) (n : Nat) : (s.adv n).h.wtmo = s.h.wtmo := rfl
@[simp] theorem State.adv_h_idx (s : State) (n : Nat) : (s.adv n).h.idx = s.h.idx := rfl
@[simp] theorem State.adv_h_grant (s : State) (n : Nat) : (s.adv n).h.grant = s.h.grant := rfl
@[simp] theorem State.adv_h_span (s : State) (n : Nat) : (s.adv n).h.span = s.h.span := rfl
@[simp] theorem State.adv_h_tshp (s : State) (n : Nat) : (s.adv n).h.tshp = s.h.tshp := rfl
@[simp] theorem State.adv_h_depcnt (s : State) (n : Nat) : (s.adv n).h.depcnt = s.h.depcnt := rfl
@[simp] theorem State.adv_h_epc (s : State) (n : Nat) : (s.adv n).h.epc = s.h.epc := rfl
@[simp] theorem State.adv_h_eix (s : State) (n : Nat) : (s.adv n).h.eix = s.h.eix := rfl
@[simp] theorem State.adv_h_ecause (s : State) (n : Nat) : (s.adv n).h.ecause = s.h.ecause := rfl
@[simp] theorem State.adv_h_eaddr (s : State) (n : Nat) : (s.adv n).h.eaddr = s.h.eaddr := rfl
@[simp] theorem State.adv_h_estatus (s : State) (n : Nat) : (s.adv n).h.estatus = s.h.estatus := rfl
@[simp] theorem State.adv_h_econv (s : State) (n : Nat) : (s.adv n).h.econv = s.h.econv := rfl
@[simp] theorem State.adv_h_tvec (s : State) (n : Nat) : (s.adv n).h.tvec = s.h.tvec := rfl
@[simp] theorem State.adv_h_ptbr (s : State) (n : Nat) : (s.adv n).h.ptbr = s.h.ptbr := rfl
@[simp] theorem State.adv_h_wshare (s : State) (n : Nat) : (s.adv n).h.wshare = s.h.wshare := rfl
@[simp] theorem State.adv_h_tseq (s : State) (n : Nat) : (s.adv n).h.tseq = s.h.tseq := rfl
@[simp] theorem State.adv_h_ctxa (s : State) (n : Nat) : (s.adv n).h.ctxa = s.h.ctxa := rfl
@[simp] theorem State.adv_h_escr (s : State) (n : Nat) : (s.adv n).h.escr = s.h.escr := rfl
@[simp] theorem State.adv_h_abictl (s : State) (n : Nat) : (s.adv n).h.abictl = s.h.abictl := rfl
@[simp] theorem State.adv_h_fvec (s : State) (n : Nat) : (s.adv n).h.fvec = s.h.fvec := rfl
@[simp] theorem State.adv_h_frq (s : State) (n : Nat) : (s.adv n).h.frq = s.h.frq := rfl
@[simp] theorem State.adv_h_streams (s : State) (n : Nat) : (s.adv n).h.streams = s.h.streams := rfl
@[simp] theorem State.adv_h_vq (s : State) (n : Nat) : (s.adv n).h.vq = s.h.vq := rfl
@[simp] theorem State.adv_h_tileTag (s : State) (n : Nat) : (s.adv n).h.tileTag = s.h.tileTag := rfl
@[simp] theorem State.adv_h_credit (s : State) (n : Nat) : (s.adv n).h.credit = s.h.credit := rfl
@[simp] theorem State.adv_h_preq (s : State) (n : Nat) : (s.adv n).h.preq = s.h.preq := rfl
@[simp] theorem State.adv_h_landAt (s : State) (n : Nat) : (s.adv n).h.landAt = s.h.landAt := rfl
@[simp] theorem State.adv_h_branch (s : State) (n : Nat) : (s.adv n).h.branch = s.h.branch := rfl
@[simp] theorem State.adv_h_advisory (s : State) (n : Nat) : (s.adv n).h.advisory = s.h.advisory := rfl
@[simp] theorem State.adv_h_watch (s : State) (n : Nat) : (s.adv n).h.watch = s.h.watch := rfl
@[simp] theorem State.adv_h_watchHeld (s : State) (n : Nat) : (s.adv n).h.watchHeld = s.h.watchHeld := rfl
@[simp] theorem State.adv_h_mcheck (s : State) (n : Nat) : (s.adv n).h.mcheck = s.h.mcheck := rfl
@[simp] theorem State.adv_h_paused (s : State) (n : Nat) : (s.adv n).h.paused = s.h.paused := rfl
@[simp] theorem State.adv_h_yielding (s : State) (n : Nat) : (s.adv n).h.yielding = s.h.yielding := rfl
@[simp] theorem State.adv_h_loop (s : State) (n : Nat) : (s.adv n).h.loop = s.h.loop := rfl
@[simp] theorem State.adv_h_resume (s : State) (n : Nat) : (s.adv n).h.resume = s.h.resume := rfl
@[simp] theorem State.adv_h_quota (s : State) (n : Nat) : (s.adv n).h.quota = s.h.quota := rfl
@[simp] theorem State.adv_h_defer (s : State) (n : Nat) : (s.adv n).h.defer = s.h.defer := rfl
@[simp] theorem State.adv_h_shelf (s : State) (n : Nat) : (s.adv n).h.shelf = s.h.shelf := rfl
@[simp] theorem State.adv_h_lag (s : State) (n : Nat) : (s.adv n).h.lag = s.h.lag := rfl
@[simp] theorem State.adv_h_bad (s : State) (n : Nat) : (s.adv n).h.bad = s.h.bad := rfl

@[simp] theorem State.adv_h_pc (s : State) (n : Nat) : (s.adv n).h.pc = s.h.pc + BitVec.ofNat 64 n := rfl

@[simp] theorem State.setGAdv_others (s : State) (d : BitVec 5) (x : Word) (n : Nat) : (s.setGAdv d x n).others = s.others := rfl
@[simp] theorem State.setGAdv_cores (s : State) (d : BitVec 5) (x : Word) (n : Nat) : (s.setGAdv d x n).cores = s.cores := rfl
@[simp] theorem State.setGAdv_clusters (s : State) (d : BitVec 5) (x : Word) (n : Nat) : (s.setGAdv d x n).clusters = s.clusters := rfl
@[simp] theorem State.setGAdv_islands (s : State) (d : BitVec 5) (x : Word) (n : Nat) : (s.setGAdv d x n).islands = s.islands := rfl
@[simp] theorem State.setGAdv_mem (s : State) (d : BitVec 5) (x : Word) (n : Nat) : (s.setGAdv d x n).mem = s.mem := rfl
@[simp] theorem State.setGAdv_badMem (s : State) (d : BitVec 5) (x : Word) (n : Nat) : (s.setGAdv d x n).badMem = s.badMem := rfl
@[simp] theorem State.setGAdv_tags (s : State) (d : BitVec 5) (x : Word) (n : Nat) : (s.setGAdv d x n).tags = s.tags := rfl
@[simp] theorem State.setGAdv_dones (s : State) (d : BitVec 5) (x : Word) (n : Nat) : (s.setGAdv d x n).dones = s.dones := rfl
@[simp] theorem State.setGAdv_episodes (s : State) (d : BitVec 5) (x : Word) (n : Nat) : (s.setGAdv d x n).episodes = s.episodes := rfl
@[simp] theorem State.setGAdv_fleetBars (s : State) (d : BitVec 5) (x : Word) (n : Nat) : (s.setGAdv d x n).fleetBars = s.fleetBars := rfl
@[simp] theorem State.setGAdv_launches (s : State) (d : BitVec 5) (x : Word) (n : Nat) : (s.setGAdv d x n).launches = s.launches := rfl
@[simp] theorem State.setGAdv_poppers (s : State) (d : BitVec 5) (x : Word) (n : Nat) : (s.setGAdv d x n).poppers = s.poppers := rfl
@[simp] theorem State.setGAdv_watches (s : State) (d : BitVec 5) (x : Word) (n : Nat) : (s.setGAdv d x n).watches = s.watches := rfl
@[simp] theorem State.setGAdv_signalMaps (s : State) (d : BitVec 5) (x : Word) (n : Nat) : (s.setGAdv d x n).signalMaps = s.signalMaps := rfl
@[simp] theorem State.setGAdv_clk (s : State) (d : BitVec 5) (x : Word) (n : Nat) : (s.setGAdv d x n).clk = s.clk := rfl
@[simp] theorem State.setGAdv_dumpa (s : State) (d : BitVec 5) (x : Word) (n : Nat) : (s.setGAdv d x n).dumpa = s.dumpa := rfl
@[simp] theorem State.setGAdv_dumpctl (s : State) (d : BitVec 5) (x : Word) (n : Nat) : (s.setGAdv d x n).dumpctl = s.dumpctl := rfl
@[simp] theorem State.setGAdv_dbgsel (s : State) (d : BitVec 5) (x : Word) (n : Nat) : (s.setGAdv d x n).dbgsel = s.dbgsel := rfl
@[simp] theorem State.setGAdv_dump (s : State) (d : BitVec 5) (x : Word) (n : Nat) : (s.setGAdv d x n).dump = s.dump := rfl
@[simp] theorem State.setGAdv_tabos (s : State) (d : BitVec 5) (x : Word) (n : Nat) : (s.setGAdv d x n).tabos = s.tabos := rfl
@[simp] theorem State.setGAdv_replies (s : State) (d : BitVec 5) (x : Word) (n : Nat) : (s.setGAdv d x n).replies = s.replies := rfl
@[simp] theorem State.setGAdv_outbox (s : State) (d : BitVec 5) (x : Word) (n : Nat) : (s.setGAdv d x n).outbox = s.outbox := rfl
@[simp] theorem State.setGAdv_portsLost (s : State) (d : BitVec 5) (x : Word) (n : Nat) : (s.setGAdv d x n).portsLost = s.portsLost := rfl
@[simp] theorem State.setGAdv_narrowsFailed (s : State) (d : BitVec 5) (x : Word) (n : Nat) : (s.setGAdv d x n).narrowsFailed = s.narrowsFailed := rfl
@[simp] theorem State.setGAdv_narrowsTries (s : State) (d : BitVec 5) (x : Word) (n : Nat) : (s.setGAdv d x n).narrowsTries = s.narrowsTries := rfl
@[simp] theorem State.setGAdv_stopped (s : State) (d : BitVec 5) (x : Word) (n : Nat) : (s.setGAdv d x n).stopped = s.stopped := rfl
@[simp] theorem State.setGAdv_booting (s : State) (d : BitVec 5) (x : Word) (n : Nat) : (s.setGAdv d x n).booting = s.booting := rfl
@[simp] theorem State.setGAdv_agenda (s : State) (d : BitVec 5) (x : Word) (n : Nat) : (s.setGAdv d x n).agenda = s.agenda := rfl
@[simp] theorem State.setGAdv_ticks (s : State) (d : BitVec 5) (x : Word) (n : Nat) : (s.setGAdv d x n).ticks = s.ticks := rfl
@[simp] theorem State.setGAdv_fresh (s : State) (d : BitVec 5) (x : Word) (n : Nat) : (s.setGAdv d x n).fresh = s.fresh := rfl
@[simp] theorem State.setGAdv_ir (s : State) (d : BitVec 5) (x : Word) (n : Nat) : (s.setGAdv d x n).ir = s.ir := rfl
@[simp] theorem State.setGAdv_stall (s : State) (d : BitVec 5) (x : Word) (n : Nat) : (s.setGAdv d x n).stall = s.stall := rfl
@[simp] theorem State.setGAdv_trapped (s : State) (d : BitVec 5) (x : Word) (n : Nat) : (s.setGAdv d x n).trapped = s.trapped := rfl
@[simp] theorem State.setGAdv_h_id (s : State) (d : BitVec 5) (x : Word) (n : Nat) : (s.setGAdv d x n).h.id = s.h.id := rfl
@[simp] theorem State.setGAdv_h_slot (s : State) (d : BitVec 5) (x : Word) (n : Nat) : (s.setGAdv d x n).h.slot = s.h.slot := rfl
@[simp] theorem State.setGAdv_h_lvl (s : State) (d : BitVec 5) (x : Word) (n : Nat) : (s.setGAdv d x n).h.lvl = s.h.lvl := rfl
@[simp] theorem State.setGAdv_h_v (s : State) (d : BitVec 5) (x : Word) (n : Nat) : (s.setGAdv d x n).h.v = s.h.v := rfl
@[simp] theorem State.setGAdv_h_held (s : State) (d : BitVec 5) (x : Word) (n : Nat) : (s.setGAdv d x n).h.held = s.h.held := rfl
@[simp] theorem State.setGAdv_h_full (s : State) (d : BitVec 5) (x : Word) (n : Nat) : (s.setGAdv d x n).h.full = s.h.full := rfl
@[simp] theorem State.setGAdv_h_k (s : State) (d : BitVec 5) (x : Word) (n : Nat) : (s.setGAdv d x n).h.k = s.h.k := rfl
@[simp] theorem State.setGAdv_h_pl (s : State) (d : BitVec 5) (x : Word) (n : Nat) : (s.setGAdv d x n).h.pl = s.h.pl := rfl
@[simp] theorem State.setGAdv_h_e (s : State) (d : BitVec 5) (x : Word) (n : Nat) : (s.setGAdv d x n).h.e = s.h.e := rfl
@[simp] theorem State.setGAdv_h_vtype (s : State) (d : BitVec 5) (x : Word) (n : Nat) : (s.setGAdv d x n).h.vtype = s.h.vtype := rfl
@[simp] theorem State.setGAdv_h_fillv (s : State) (d : BitVec 5) (x : Word) (n : Nat) : (s.setGAdv d x n).h.fillv = s.h.fillv := rfl
@[simp] theorem State.setGAdv_h_rmode (s : State) (d : BitVec 5) (x : Word) (n : Nat) : (s.setGAdv d x n).h.rmode = s.h.rmode := rfl
@[simp] theorem State.setGAdv_h_fst (s : State) (d : BitVec 5) (x : Word) (n : Nat) : (s.setGAdv d x n).h.fst = s.h.fst := rfl
@[simp] theorem State.setGAdv_h_ffx (s : State) (d : BitVec 5) (x : Word) (n : Nat) : (s.setGAdv d x n).h.ffx = s.h.ffx := rfl
@[simp] theorem State.setGAdv_h_efc (s : State) (d : BitVec 5) (x : Word) (n : Nat) : (s.setGAdv d x n).h.efc = s.h.efc := rfl
@[simp] theorem State.setGAdv_h_lvd (s : State) (d : BitVec 5) (x : Word) (n : Nat) : (s.setGAdv d x n).h.lvd = s.h.lvd := rfl
@[simp] theorem State.setGAdv_h_eord (s : State) (d : BitVec 5) (x : Word) (n : Nat) : (s.setGAdv d x n).h.eord = s.h.eord := rfl
@[simp] theorem State.setGAdv_h_twin (s : State) (d : BitVec 5) (x : Word) (n : Nat) : (s.setGAdv d x n).h.twin = s.h.twin := rfl
@[simp] theorem State.setGAdv_h_evx (s : State) (d : BitVec 5) (x : Word) (n : Nat) : (s.setGAdv d x n).h.evx = s.h.evx := rfl
@[simp] theorem State.setGAdv_h_prog (s : State) (d : BitVec 5) (x : Word) (n : Nat) : (s.setGAdv d x n).h.prog = s.h.prog := rfl
@[simp] theorem State.setGAdv_h_progaddr (s : State) (d : BitVec 5) (x : Word) (n : Nat) : (s.setGAdv d x n).h.progaddr = s.h.progaddr := rfl
@[simp] theorem State.setGAdv_h_cptag (s : State) (d : BitVec 5) (x : Word) (n : Nat) : (s.setGAdv d x n).h.cptag = s.h.cptag := rfl
@[simp] theorem State.setGAdv_h_wtmo (s : State) (d : BitVec 5) (x : Word) (n : Nat) : (s.setGAdv d x n).h.wtmo = s.h.wtmo := rfl
@[simp] theorem State.setGAdv_h_idx (s : State) (d : BitVec 5) (x : Word) (n : Nat) : (s.setGAdv d x n).h.idx = s.h.idx := rfl
@[simp] theorem State.setGAdv_h_grant (s : State) (d : BitVec 5) (x : Word) (n : Nat) : (s.setGAdv d x n).h.grant = s.h.grant := rfl
@[simp] theorem State.setGAdv_h_span (s : State) (d : BitVec 5) (x : Word) (n : Nat) : (s.setGAdv d x n).h.span = s.h.span := rfl
@[simp] theorem State.setGAdv_h_tshp (s : State) (d : BitVec 5) (x : Word) (n : Nat) : (s.setGAdv d x n).h.tshp = s.h.tshp := rfl
@[simp] theorem State.setGAdv_h_depcnt (s : State) (d : BitVec 5) (x : Word) (n : Nat) : (s.setGAdv d x n).h.depcnt = s.h.depcnt := rfl
@[simp] theorem State.setGAdv_h_epc (s : State) (d : BitVec 5) (x : Word) (n : Nat) : (s.setGAdv d x n).h.epc = s.h.epc := rfl
@[simp] theorem State.setGAdv_h_eix (s : State) (d : BitVec 5) (x : Word) (n : Nat) : (s.setGAdv d x n).h.eix = s.h.eix := rfl
@[simp] theorem State.setGAdv_h_ecause (s : State) (d : BitVec 5) (x : Word) (n : Nat) : (s.setGAdv d x n).h.ecause = s.h.ecause := rfl
@[simp] theorem State.setGAdv_h_eaddr (s : State) (d : BitVec 5) (x : Word) (n : Nat) : (s.setGAdv d x n).h.eaddr = s.h.eaddr := rfl
@[simp] theorem State.setGAdv_h_estatus (s : State) (d : BitVec 5) (x : Word) (n : Nat) : (s.setGAdv d x n).h.estatus = s.h.estatus := rfl
@[simp] theorem State.setGAdv_h_econv (s : State) (d : BitVec 5) (x : Word) (n : Nat) : (s.setGAdv d x n).h.econv = s.h.econv := rfl
@[simp] theorem State.setGAdv_h_tvec (s : State) (d : BitVec 5) (x : Word) (n : Nat) : (s.setGAdv d x n).h.tvec = s.h.tvec := rfl
@[simp] theorem State.setGAdv_h_ptbr (s : State) (d : BitVec 5) (x : Word) (n : Nat) : (s.setGAdv d x n).h.ptbr = s.h.ptbr := rfl
@[simp] theorem State.setGAdv_h_wshare (s : State) (d : BitVec 5) (x : Word) (n : Nat) : (s.setGAdv d x n).h.wshare = s.h.wshare := rfl
@[simp] theorem State.setGAdv_h_tseq (s : State) (d : BitVec 5) (x : Word) (n : Nat) : (s.setGAdv d x n).h.tseq = s.h.tseq := rfl
@[simp] theorem State.setGAdv_h_ctxa (s : State) (d : BitVec 5) (x : Word) (n : Nat) : (s.setGAdv d x n).h.ctxa = s.h.ctxa := rfl
@[simp] theorem State.setGAdv_h_escr (s : State) (d : BitVec 5) (x : Word) (n : Nat) : (s.setGAdv d x n).h.escr = s.h.escr := rfl
@[simp] theorem State.setGAdv_h_abictl (s : State) (d : BitVec 5) (x : Word) (n : Nat) : (s.setGAdv d x n).h.abictl = s.h.abictl := rfl
@[simp] theorem State.setGAdv_h_fvec (s : State) (d : BitVec 5) (x : Word) (n : Nat) : (s.setGAdv d x n).h.fvec = s.h.fvec := rfl
@[simp] theorem State.setGAdv_h_frq (s : State) (d : BitVec 5) (x : Word) (n : Nat) : (s.setGAdv d x n).h.frq = s.h.frq := rfl
@[simp] theorem State.setGAdv_h_streams (s : State) (d : BitVec 5) (x : Word) (n : Nat) : (s.setGAdv d x n).h.streams = s.h.streams := rfl
@[simp] theorem State.setGAdv_h_vq (s : State) (d : BitVec 5) (x : Word) (n : Nat) : (s.setGAdv d x n).h.vq = s.h.vq := rfl
@[simp] theorem State.setGAdv_h_tileTag (s : State) (d : BitVec 5) (x : Word) (n : Nat) : (s.setGAdv d x n).h.tileTag = s.h.tileTag := rfl
@[simp] theorem State.setGAdv_h_credit (s : State) (d : BitVec 5) (x : Word) (n : Nat) : (s.setGAdv d x n).h.credit = s.h.credit := rfl
@[simp] theorem State.setGAdv_h_preq (s : State) (d : BitVec 5) (x : Word) (n : Nat) : (s.setGAdv d x n).h.preq = s.h.preq := rfl
@[simp] theorem State.setGAdv_h_landAt (s : State) (d : BitVec 5) (x : Word) (n : Nat) : (s.setGAdv d x n).h.landAt = s.h.landAt := rfl
@[simp] theorem State.setGAdv_h_branch (s : State) (d : BitVec 5) (x : Word) (n : Nat) : (s.setGAdv d x n).h.branch = s.h.branch := rfl
@[simp] theorem State.setGAdv_h_advisory (s : State) (d : BitVec 5) (x : Word) (n : Nat) : (s.setGAdv d x n).h.advisory = s.h.advisory := rfl
@[simp] theorem State.setGAdv_h_watch (s : State) (d : BitVec 5) (x : Word) (n : Nat) : (s.setGAdv d x n).h.watch = s.h.watch := rfl
@[simp] theorem State.setGAdv_h_watchHeld (s : State) (d : BitVec 5) (x : Word) (n : Nat) : (s.setGAdv d x n).h.watchHeld = s.h.watchHeld := rfl
@[simp] theorem State.setGAdv_h_mcheck (s : State) (d : BitVec 5) (x : Word) (n : Nat) : (s.setGAdv d x n).h.mcheck = s.h.mcheck := rfl
@[simp] theorem State.setGAdv_h_paused (s : State) (d : BitVec 5) (x : Word) (n : Nat) : (s.setGAdv d x n).h.paused = s.h.paused := rfl
@[simp] theorem State.setGAdv_h_yielding (s : State) (d : BitVec 5) (x : Word) (n : Nat) : (s.setGAdv d x n).h.yielding = s.h.yielding := rfl
@[simp] theorem State.setGAdv_h_loop (s : State) (d : BitVec 5) (x : Word) (n : Nat) : (s.setGAdv d x n).h.loop = s.h.loop := rfl
@[simp] theorem State.setGAdv_h_resume (s : State) (d : BitVec 5) (x : Word) (n : Nat) : (s.setGAdv d x n).h.resume = s.h.resume := rfl
@[simp] theorem State.setGAdv_h_quota (s : State) (d : BitVec 5) (x : Word) (n : Nat) : (s.setGAdv d x n).h.quota = s.h.quota := rfl
@[simp] theorem State.setGAdv_h_defer (s : State) (d : BitVec 5) (x : Word) (n : Nat) : (s.setGAdv d x n).h.defer = s.h.defer := rfl
@[simp] theorem State.setGAdv_h_shelf (s : State) (d : BitVec 5) (x : Word) (n : Nat) : (s.setGAdv d x n).h.shelf = s.h.shelf := rfl
@[simp] theorem State.setGAdv_h_lag (s : State) (d : BitVec 5) (x : Word) (n : Nat) : (s.setGAdv d x n).h.lag = s.h.lag := rfl
@[simp] theorem State.setGAdv_h_bad (s : State) (d : BitVec 5) (x : Word) (n : Nat) : (s.setGAdv d x n).h.bad = s.h.bad := rfl

@[simp] theorem State.setGAdv_h_pc (s : State) (d : BitVec 5) (x : Word) (n : Nat) :
    (s.setGAdv d x n).h.pc = s.h.pc + BitVec.ofNat 64 n := rfl

@[simp] theorem State.setK_others (s : State) (n : Nat) (x : BitVec 8192) : (s.setK n x).others = s.others := rfl
@[simp] theorem State.setK_cores (s : State) (n : Nat) (x : BitVec 8192) : (s.setK n x).cores = s.cores := rfl
@[simp] theorem State.setK_clusters (s : State) (n : Nat) (x : BitVec 8192) : (s.setK n x).clusters = s.clusters := rfl
@[simp] theorem State.setK_islands (s : State) (n : Nat) (x : BitVec 8192) : (s.setK n x).islands = s.islands := rfl
@[simp] theorem State.setK_mem (s : State) (n : Nat) (x : BitVec 8192) : (s.setK n x).mem = s.mem := rfl
@[simp] theorem State.setK_badMem (s : State) (n : Nat) (x : BitVec 8192) : (s.setK n x).badMem = s.badMem := rfl
@[simp] theorem State.setK_tags (s : State) (n : Nat) (x : BitVec 8192) : (s.setK n x).tags = s.tags := rfl
@[simp] theorem State.setK_dones (s : State) (n : Nat) (x : BitVec 8192) : (s.setK n x).dones = s.dones := rfl
@[simp] theorem State.setK_episodes (s : State) (n : Nat) (x : BitVec 8192) : (s.setK n x).episodes = s.episodes := rfl
@[simp] theorem State.setK_fleetBars (s : State) (n : Nat) (x : BitVec 8192) : (s.setK n x).fleetBars = s.fleetBars := rfl
@[simp] theorem State.setK_launches (s : State) (n : Nat) (x : BitVec 8192) : (s.setK n x).launches = s.launches := rfl
@[simp] theorem State.setK_poppers (s : State) (n : Nat) (x : BitVec 8192) : (s.setK n x).poppers = s.poppers := rfl
@[simp] theorem State.setK_watches (s : State) (n : Nat) (x : BitVec 8192) : (s.setK n x).watches = s.watches := rfl
@[simp] theorem State.setK_signalMaps (s : State) (n : Nat) (x : BitVec 8192) : (s.setK n x).signalMaps = s.signalMaps := rfl
@[simp] theorem State.setK_clk (s : State) (n : Nat) (x : BitVec 8192) : (s.setK n x).clk = s.clk := rfl
@[simp] theorem State.setK_dumpa (s : State) (n : Nat) (x : BitVec 8192) : (s.setK n x).dumpa = s.dumpa := rfl
@[simp] theorem State.setK_dumpctl (s : State) (n : Nat) (x : BitVec 8192) : (s.setK n x).dumpctl = s.dumpctl := rfl
@[simp] theorem State.setK_dbgsel (s : State) (n : Nat) (x : BitVec 8192) : (s.setK n x).dbgsel = s.dbgsel := rfl
@[simp] theorem State.setK_dump (s : State) (n : Nat) (x : BitVec 8192) : (s.setK n x).dump = s.dump := rfl
@[simp] theorem State.setK_tabos (s : State) (n : Nat) (x : BitVec 8192) : (s.setK n x).tabos = s.tabos := rfl
@[simp] theorem State.setK_replies (s : State) (n : Nat) (x : BitVec 8192) : (s.setK n x).replies = s.replies := rfl
@[simp] theorem State.setK_outbox (s : State) (n : Nat) (x : BitVec 8192) : (s.setK n x).outbox = s.outbox := rfl
@[simp] theorem State.setK_portsLost (s : State) (n : Nat) (x : BitVec 8192) : (s.setK n x).portsLost = s.portsLost := rfl
@[simp] theorem State.setK_narrowsFailed (s : State) (n : Nat) (x : BitVec 8192) : (s.setK n x).narrowsFailed = s.narrowsFailed := rfl
@[simp] theorem State.setK_narrowsTries (s : State) (n : Nat) (x : BitVec 8192) : (s.setK n x).narrowsTries = s.narrowsTries := rfl
@[simp] theorem State.setK_stopped (s : State) (n : Nat) (x : BitVec 8192) : (s.setK n x).stopped = s.stopped := rfl
@[simp] theorem State.setK_booting (s : State) (n : Nat) (x : BitVec 8192) : (s.setK n x).booting = s.booting := rfl
@[simp] theorem State.setK_agenda (s : State) (n : Nat) (x : BitVec 8192) : (s.setK n x).agenda = s.agenda := rfl
@[simp] theorem State.setK_ticks (s : State) (n : Nat) (x : BitVec 8192) : (s.setK n x).ticks = s.ticks := rfl
@[simp] theorem State.setK_fresh (s : State) (n : Nat) (x : BitVec 8192) : (s.setK n x).fresh = s.fresh := rfl
@[simp] theorem State.setK_ir (s : State) (n : Nat) (x : BitVec 8192) : (s.setK n x).ir = s.ir := rfl
@[simp] theorem State.setK_stall (s : State) (n : Nat) (x : BitVec 8192) : (s.setK n x).stall = s.stall := rfl
@[simp] theorem State.setK_trapped (s : State) (n : Nat) (x : BitVec 8192) : (s.setK n x).trapped = s.trapped := rfl
@[simp] theorem State.setK_h_id (s : State) (n : Nat) (x : BitVec 8192) : (s.setK n x).h.id = s.h.id := rfl
@[simp] theorem State.setK_h_slot (s : State) (n : Nat) (x : BitVec 8192) : (s.setK n x).h.slot = s.h.slot := rfl
@[simp] theorem State.setK_h_pc (s : State) (n : Nat) (x : BitVec 8192) : (s.setK n x).h.pc = s.h.pc := rfl
@[simp] theorem State.setK_h_lvl (s : State) (n : Nat) (x : BitVec 8192) : (s.setK n x).h.lvl = s.h.lvl := rfl
@[simp] theorem State.setK_h_g (s : State) (n : Nat) (x : BitVec 8192) : (s.setK n x).h.g = s.h.g := rfl
@[simp] theorem State.setK_h_v (s : State) (n : Nat) (x : BitVec 8192) : (s.setK n x).h.v = s.h.v := rfl
@[simp] theorem State.setK_h_held (s : State) (n : Nat) (x : BitVec 8192) : (s.setK n x).h.held = s.h.held := rfl
@[simp] theorem State.setK_h_full (s : State) (n : Nat) (x : BitVec 8192) : (s.setK n x).h.full = s.h.full := rfl
@[simp] theorem State.setK_h_pl (s : State) (n : Nat) (x : BitVec 8192) : (s.setK n x).h.pl = s.h.pl := rfl
@[simp] theorem State.setK_h_e (s : State) (n : Nat) (x : BitVec 8192) : (s.setK n x).h.e = s.h.e := rfl
@[simp] theorem State.setK_h_vtype (s : State) (n : Nat) (x : BitVec 8192) : (s.setK n x).h.vtype = s.h.vtype := rfl
@[simp] theorem State.setK_h_fillv (s : State) (n : Nat) (x : BitVec 8192) : (s.setK n x).h.fillv = s.h.fillv := rfl
@[simp] theorem State.setK_h_rmode (s : State) (n : Nat) (x : BitVec 8192) : (s.setK n x).h.rmode = s.h.rmode := rfl
@[simp] theorem State.setK_h_fst (s : State) (n : Nat) (x : BitVec 8192) : (s.setK n x).h.fst = s.h.fst := rfl
@[simp] theorem State.setK_h_ffx (s : State) (n : Nat) (x : BitVec 8192) : (s.setK n x).h.ffx = s.h.ffx := rfl
@[simp] theorem State.setK_h_efc (s : State) (n : Nat) (x : BitVec 8192) : (s.setK n x).h.efc = s.h.efc := rfl
@[simp] theorem State.setK_h_lvd (s : State) (n : Nat) (x : BitVec 8192) : (s.setK n x).h.lvd = s.h.lvd := rfl
@[simp] theorem State.setK_h_eord (s : State) (n : Nat) (x : BitVec 8192) : (s.setK n x).h.eord = s.h.eord := rfl
@[simp] theorem State.setK_h_twin (s : State) (n : Nat) (x : BitVec 8192) : (s.setK n x).h.twin = s.h.twin := rfl
@[simp] theorem State.setK_h_evx (s : State) (n : Nat) (x : BitVec 8192) : (s.setK n x).h.evx = s.h.evx := rfl
@[simp] theorem State.setK_h_prog (s : State) (n : Nat) (x : BitVec 8192) : (s.setK n x).h.prog = s.h.prog := rfl
@[simp] theorem State.setK_h_progaddr (s : State) (n : Nat) (x : BitVec 8192) : (s.setK n x).h.progaddr = s.h.progaddr := rfl
@[simp] theorem State.setK_h_cptag (s : State) (n : Nat) (x : BitVec 8192) : (s.setK n x).h.cptag = s.h.cptag := rfl
@[simp] theorem State.setK_h_wtmo (s : State) (n : Nat) (x : BitVec 8192) : (s.setK n x).h.wtmo = s.h.wtmo := rfl
@[simp] theorem State.setK_h_idx (s : State) (n : Nat) (x : BitVec 8192) : (s.setK n x).h.idx = s.h.idx := rfl
@[simp] theorem State.setK_h_grant (s : State) (n : Nat) (x : BitVec 8192) : (s.setK n x).h.grant = s.h.grant := rfl
@[simp] theorem State.setK_h_span (s : State) (n : Nat) (x : BitVec 8192) : (s.setK n x).h.span = s.h.span := rfl
@[simp] theorem State.setK_h_tshp (s : State) (n : Nat) (x : BitVec 8192) : (s.setK n x).h.tshp = s.h.tshp := rfl
@[simp] theorem State.setK_h_depcnt (s : State) (n : Nat) (x : BitVec 8192) : (s.setK n x).h.depcnt = s.h.depcnt := rfl
@[simp] theorem State.setK_h_epc (s : State) (n : Nat) (x : BitVec 8192) : (s.setK n x).h.epc = s.h.epc := rfl
@[simp] theorem State.setK_h_eix (s : State) (n : Nat) (x : BitVec 8192) : (s.setK n x).h.eix = s.h.eix := rfl
@[simp] theorem State.setK_h_ecause (s : State) (n : Nat) (x : BitVec 8192) : (s.setK n x).h.ecause = s.h.ecause := rfl
@[simp] theorem State.setK_h_eaddr (s : State) (n : Nat) (x : BitVec 8192) : (s.setK n x).h.eaddr = s.h.eaddr := rfl
@[simp] theorem State.setK_h_estatus (s : State) (n : Nat) (x : BitVec 8192) : (s.setK n x).h.estatus = s.h.estatus := rfl
@[simp] theorem State.setK_h_econv (s : State) (n : Nat) (x : BitVec 8192) : (s.setK n x).h.econv = s.h.econv := rfl
@[simp] theorem State.setK_h_tvec (s : State) (n : Nat) (x : BitVec 8192) : (s.setK n x).h.tvec = s.h.tvec := rfl
@[simp] theorem State.setK_h_ptbr (s : State) (n : Nat) (x : BitVec 8192) : (s.setK n x).h.ptbr = s.h.ptbr := rfl
@[simp] theorem State.setK_h_wshare (s : State) (n : Nat) (x : BitVec 8192) : (s.setK n x).h.wshare = s.h.wshare := rfl
@[simp] theorem State.setK_h_tseq (s : State) (n : Nat) (x : BitVec 8192) : (s.setK n x).h.tseq = s.h.tseq := rfl
@[simp] theorem State.setK_h_ctxa (s : State) (n : Nat) (x : BitVec 8192) : (s.setK n x).h.ctxa = s.h.ctxa := rfl
@[simp] theorem State.setK_h_escr (s : State) (n : Nat) (x : BitVec 8192) : (s.setK n x).h.escr = s.h.escr := rfl
@[simp] theorem State.setK_h_abictl (s : State) (n : Nat) (x : BitVec 8192) : (s.setK n x).h.abictl = s.h.abictl := rfl
@[simp] theorem State.setK_h_fvec (s : State) (n : Nat) (x : BitVec 8192) : (s.setK n x).h.fvec = s.h.fvec := rfl
@[simp] theorem State.setK_h_frq (s : State) (n : Nat) (x : BitVec 8192) : (s.setK n x).h.frq = s.h.frq := rfl
@[simp] theorem State.setK_h_streams (s : State) (n : Nat) (x : BitVec 8192) : (s.setK n x).h.streams = s.h.streams := rfl
@[simp] theorem State.setK_h_vq (s : State) (n : Nat) (x : BitVec 8192) : (s.setK n x).h.vq = s.h.vq := rfl
@[simp] theorem State.setK_h_tileTag (s : State) (n : Nat) (x : BitVec 8192) : (s.setK n x).h.tileTag = s.h.tileTag := rfl
@[simp] theorem State.setK_h_credit (s : State) (n : Nat) (x : BitVec 8192) : (s.setK n x).h.credit = s.h.credit := rfl
@[simp] theorem State.setK_h_preq (s : State) (n : Nat) (x : BitVec 8192) : (s.setK n x).h.preq = s.h.preq := rfl
@[simp] theorem State.setK_h_landAt (s : State) (n : Nat) (x : BitVec 8192) : (s.setK n x).h.landAt = s.h.landAt := rfl
@[simp] theorem State.setK_h_branch (s : State) (n : Nat) (x : BitVec 8192) : (s.setK n x).h.branch = s.h.branch := rfl
@[simp] theorem State.setK_h_advisory (s : State) (n : Nat) (x : BitVec 8192) : (s.setK n x).h.advisory = s.h.advisory := rfl
@[simp] theorem State.setK_h_watch (s : State) (n : Nat) (x : BitVec 8192) : (s.setK n x).h.watch = s.h.watch := rfl
@[simp] theorem State.setK_h_watchHeld (s : State) (n : Nat) (x : BitVec 8192) : (s.setK n x).h.watchHeld = s.h.watchHeld := rfl
@[simp] theorem State.setK_h_mcheck (s : State) (n : Nat) (x : BitVec 8192) : (s.setK n x).h.mcheck = s.h.mcheck := rfl
@[simp] theorem State.setK_h_paused (s : State) (n : Nat) (x : BitVec 8192) : (s.setK n x).h.paused = s.h.paused := rfl
@[simp] theorem State.setK_h_yielding (s : State) (n : Nat) (x : BitVec 8192) : (s.setK n x).h.yielding = s.h.yielding := rfl
@[simp] theorem State.setK_h_loop (s : State) (n : Nat) (x : BitVec 8192) : (s.setK n x).h.loop = s.h.loop := rfl
@[simp] theorem State.setK_h_resume (s : State) (n : Nat) (x : BitVec 8192) : (s.setK n x).h.resume = s.h.resume := rfl
@[simp] theorem State.setK_h_quota (s : State) (n : Nat) (x : BitVec 8192) : (s.setK n x).h.quota = s.h.quota := rfl
@[simp] theorem State.setK_h_defer (s : State) (n : Nat) (x : BitVec 8192) : (s.setK n x).h.defer = s.h.defer := rfl
@[simp] theorem State.setK_h_shelf (s : State) (n : Nat) (x : BitVec 8192) : (s.setK n x).h.shelf = s.h.shelf := rfl
@[simp] theorem State.setK_h_lag (s : State) (n : Nat) (x : BitVec 8192) : (s.setK n x).h.lag = s.h.lag := rfl
@[simp] theorem State.setK_h_bad (s : State) (n : Nat) (x : BitVec 8192) : (s.setK n x).h.bad = s.h.bad := rfl

@[simp] theorem State.endWait_others (s : State) : s.endWait.others = s.others := rfl
@[simp] theorem State.endWait_cores (s : State) : s.endWait.cores = s.cores := rfl
@[simp] theorem State.endWait_clusters (s : State) : s.endWait.clusters = s.clusters := rfl
@[simp] theorem State.endWait_islands (s : State) : s.endWait.islands = s.islands := rfl
@[simp] theorem State.endWait_mem (s : State) : s.endWait.mem = s.mem := rfl
@[simp] theorem State.endWait_badMem (s : State) : s.endWait.badMem = s.badMem := rfl
@[simp] theorem State.endWait_tags (s : State) : s.endWait.tags = s.tags := rfl
@[simp] theorem State.endWait_dones (s : State) : s.endWait.dones = s.dones := rfl
@[simp] theorem State.endWait_episodes (s : State) : s.endWait.episodes = s.episodes := rfl
@[simp] theorem State.endWait_fleetBars (s : State) : s.endWait.fleetBars = s.fleetBars := rfl
@[simp] theorem State.endWait_launches (s : State) : s.endWait.launches = s.launches := rfl
@[simp] theorem State.endWait_poppers (s : State) : s.endWait.poppers = s.poppers := rfl
@[simp] theorem State.endWait_watches (s : State) : s.endWait.watches = s.watches := rfl
@[simp] theorem State.endWait_signalMaps (s : State) : s.endWait.signalMaps = s.signalMaps := rfl
@[simp] theorem State.endWait_clk (s : State) : s.endWait.clk = s.clk := rfl
@[simp] theorem State.endWait_dumpa (s : State) : s.endWait.dumpa = s.dumpa := rfl
@[simp] theorem State.endWait_dumpctl (s : State) : s.endWait.dumpctl = s.dumpctl := rfl
@[simp] theorem State.endWait_dbgsel (s : State) : s.endWait.dbgsel = s.dbgsel := rfl
@[simp] theorem State.endWait_dump (s : State) : s.endWait.dump = s.dump := rfl
@[simp] theorem State.endWait_tabos (s : State) : s.endWait.tabos = s.tabos := rfl
@[simp] theorem State.endWait_replies (s : State) : s.endWait.replies = s.replies := rfl
@[simp] theorem State.endWait_outbox (s : State) : s.endWait.outbox = s.outbox := rfl
@[simp] theorem State.endWait_portsLost (s : State) : s.endWait.portsLost = s.portsLost := rfl
@[simp] theorem State.endWait_narrowsFailed (s : State) : s.endWait.narrowsFailed = s.narrowsFailed := rfl
@[simp] theorem State.endWait_narrowsTries (s : State) : s.endWait.narrowsTries = s.narrowsTries := rfl
@[simp] theorem State.endWait_stopped (s : State) : s.endWait.stopped = s.stopped := rfl
@[simp] theorem State.endWait_booting (s : State) : s.endWait.booting = s.booting := rfl
@[simp] theorem State.endWait_agenda (s : State) : s.endWait.agenda = s.agenda := rfl
@[simp] theorem State.endWait_ticks (s : State) : s.endWait.ticks = s.ticks := rfl
@[simp] theorem State.endWait_fresh (s : State) : s.endWait.fresh = s.fresh := rfl
@[simp] theorem State.endWait_ir (s : State) : s.endWait.ir = s.ir := rfl
@[simp] theorem State.endWait_stall (s : State) : s.endWait.stall = s.stall := rfl
@[simp] theorem State.endWait_trapped (s : State) : s.endWait.trapped = s.trapped := rfl
@[simp] theorem State.endWait_h_id (s : State) : s.endWait.h.id = s.h.id := rfl
@[simp] theorem State.endWait_h_pc (s : State) : s.endWait.h.pc = s.h.pc := rfl
@[simp] theorem State.endWait_h_lvl (s : State) : s.endWait.h.lvl = s.h.lvl := rfl
@[simp] theorem State.endWait_h_g (s : State) : s.endWait.h.g = s.h.g := rfl
@[simp] theorem State.endWait_h_v (s : State) : s.endWait.h.v = s.h.v := rfl
@[simp] theorem State.endWait_h_held (s : State) : s.endWait.h.held = s.h.held := rfl
@[simp] theorem State.endWait_h_full (s : State) : s.endWait.h.full = s.h.full := rfl
@[simp] theorem State.endWait_h_k (s : State) : s.endWait.h.k = s.h.k := rfl
@[simp] theorem State.endWait_h_pl (s : State) : s.endWait.h.pl = s.h.pl := rfl
@[simp] theorem State.endWait_h_e (s : State) : s.endWait.h.e = s.h.e := rfl
@[simp] theorem State.endWait_h_vtype (s : State) : s.endWait.h.vtype = s.h.vtype := rfl
@[simp] theorem State.endWait_h_fillv (s : State) : s.endWait.h.fillv = s.h.fillv := rfl
@[simp] theorem State.endWait_h_rmode (s : State) : s.endWait.h.rmode = s.h.rmode := rfl
@[simp] theorem State.endWait_h_fst (s : State) : s.endWait.h.fst = s.h.fst := rfl
@[simp] theorem State.endWait_h_ffx (s : State) : s.endWait.h.ffx = s.h.ffx := rfl
@[simp] theorem State.endWait_h_efc (s : State) : s.endWait.h.efc = s.h.efc := rfl
@[simp] theorem State.endWait_h_lvd (s : State) : s.endWait.h.lvd = s.h.lvd := rfl
@[simp] theorem State.endWait_h_eord (s : State) : s.endWait.h.eord = s.h.eord := rfl
@[simp] theorem State.endWait_h_twin (s : State) : s.endWait.h.twin = s.h.twin := rfl
@[simp] theorem State.endWait_h_evx (s : State) : s.endWait.h.evx = s.h.evx := rfl
@[simp] theorem State.endWait_h_prog (s : State) : s.endWait.h.prog = s.h.prog := rfl
@[simp] theorem State.endWait_h_progaddr (s : State) : s.endWait.h.progaddr = s.h.progaddr := rfl
@[simp] theorem State.endWait_h_cptag (s : State) : s.endWait.h.cptag = s.h.cptag := rfl
@[simp] theorem State.endWait_h_wtmo (s : State) : s.endWait.h.wtmo = s.h.wtmo := rfl
@[simp] theorem State.endWait_h_idx (s : State) : s.endWait.h.idx = s.h.idx := rfl
@[simp] theorem State.endWait_h_grant (s : State) : s.endWait.h.grant = s.h.grant := rfl
@[simp] theorem State.endWait_h_span (s : State) : s.endWait.h.span = s.h.span := rfl
@[simp] theorem State.endWait_h_tshp (s : State) : s.endWait.h.tshp = s.h.tshp := rfl
@[simp] theorem State.endWait_h_depcnt (s : State) : s.endWait.h.depcnt = s.h.depcnt := rfl
@[simp] theorem State.endWait_h_epc (s : State) : s.endWait.h.epc = s.h.epc := rfl
@[simp] theorem State.endWait_h_eix (s : State) : s.endWait.h.eix = s.h.eix := rfl
@[simp] theorem State.endWait_h_ecause (s : State) : s.endWait.h.ecause = s.h.ecause := rfl
@[simp] theorem State.endWait_h_eaddr (s : State) : s.endWait.h.eaddr = s.h.eaddr := rfl
@[simp] theorem State.endWait_h_estatus (s : State) : s.endWait.h.estatus = s.h.estatus := rfl
@[simp] theorem State.endWait_h_econv (s : State) : s.endWait.h.econv = s.h.econv := rfl
@[simp] theorem State.endWait_h_tvec (s : State) : s.endWait.h.tvec = s.h.tvec := rfl
@[simp] theorem State.endWait_h_ptbr (s : State) : s.endWait.h.ptbr = s.h.ptbr := rfl
@[simp] theorem State.endWait_h_wshare (s : State) : s.endWait.h.wshare = s.h.wshare := rfl
@[simp] theorem State.endWait_h_tseq (s : State) : s.endWait.h.tseq = s.h.tseq := rfl
@[simp] theorem State.endWait_h_ctxa (s : State) : s.endWait.h.ctxa = s.h.ctxa := rfl
@[simp] theorem State.endWait_h_escr (s : State) : s.endWait.h.escr = s.h.escr := rfl
@[simp] theorem State.endWait_h_abictl (s : State) : s.endWait.h.abictl = s.h.abictl := rfl
@[simp] theorem State.endWait_h_fvec (s : State) : s.endWait.h.fvec = s.h.fvec := rfl
@[simp] theorem State.endWait_h_frq (s : State) : s.endWait.h.frq = s.h.frq := rfl
@[simp] theorem State.endWait_h_streams (s : State) : s.endWait.h.streams = s.h.streams := rfl
@[simp] theorem State.endWait_h_vq (s : State) : s.endWait.h.vq = s.h.vq := rfl
@[simp] theorem State.endWait_h_tileTag (s : State) : s.endWait.h.tileTag = s.h.tileTag := rfl
@[simp] theorem State.endWait_h_credit (s : State) : s.endWait.h.credit = s.h.credit := rfl
@[simp] theorem State.endWait_h_preq (s : State) : s.endWait.h.preq = s.h.preq := rfl
@[simp] theorem State.endWait_h_landAt (s : State) : s.endWait.h.landAt = s.h.landAt := rfl
@[simp] theorem State.endWait_h_branch (s : State) : s.endWait.h.branch = s.h.branch := rfl
@[simp] theorem State.endWait_h_advisory (s : State) : s.endWait.h.advisory = s.h.advisory := rfl
@[simp] theorem State.endWait_h_watch (s : State) : s.endWait.h.watch = s.h.watch := rfl
@[simp] theorem State.endWait_h_watchHeld (s : State) : s.endWait.h.watchHeld = s.h.watchHeld := rfl
@[simp] theorem State.endWait_h_mcheck (s : State) : s.endWait.h.mcheck = s.h.mcheck := rfl
@[simp] theorem State.endWait_h_paused (s : State) : s.endWait.h.paused = s.h.paused := rfl
@[simp] theorem State.endWait_h_yielding (s : State) : s.endWait.h.yielding = s.h.yielding := rfl
@[simp] theorem State.endWait_h_loop (s : State) : s.endWait.h.loop = s.h.loop := rfl
@[simp] theorem State.endWait_h_resume (s : State) : s.endWait.h.resume = s.h.resume := rfl
@[simp] theorem State.endWait_h_quota (s : State) : s.endWait.h.quota = s.h.quota := rfl
@[simp] theorem State.endWait_h_defer (s : State) : s.endWait.h.defer = s.h.defer := rfl
@[simp] theorem State.endWait_h_shelf (s : State) : s.endWait.h.shelf = s.h.shelf := rfl
@[simp] theorem State.endWait_h_lag (s : State) : s.endWait.h.lag = s.h.lag := rfl
@[simp] theorem State.endWait_h_bad (s : State) : s.endWait.h.bad = s.h.bad := rfl

@[simp] theorem State.endWait_h_slot (s : State) : s.endWait.h.slot = .run := rfl

/-! ### Failing register words, and the return from a wait -/

/-- Making words good changes nothing else, and leaves only words that failed. -/
theorem Hart.mend_frame (h : Hart) (p : Nat × Nat → Bool) :
    h.mend p = { h with bad := (h.mend p).bad } ∧ ∀ b, b ∈ (h.mend p).bad ↔ b ∈ h.bad ∧ p b = false := by
  unfold Hart.mend
  split
  · rename_i hb
    exact ⟨rfl, by simp [hb]⟩
  · exact ⟨rfl, fun b => by simp⟩

/-- Where no word fails there is none to make good. -/
theorem Hart.mend_good {h : Hart} (hb : h.bad = []) (p : Nat × Nat → Bool) : h.mend p = h := by simp [Hart.mend, hb]

/-- Taking an edge changes CPTAG and which words fail alone (R297, R383). -/
theorem State.setCptag_frame (s : State) (e : Word) :
    s.setCptag e = { s with h := { s.h with cptag := e, bad := (s.setCptag e).h.bad } } := by
  show ({ s with h := Hart.mend _ _ } : State) = _
  rw [(Hart.mend_frame _ _).1]
  rfl

/-- A hart that did not wait comes back as from any instruction that writes gd. -/
theorem State.comeBack_run {s : State} (h : s.h.slot = .run) (d : BitVec 5) (x : Word) : s.comeBack d x = s.setGAdv d x 4 := by
  have e : s.endWait = s := by
    show { s with h := { s.h with slot := .run } } = s
    rw [← h]
  unfold State.comeBack
  rw [h, e]

/-- The return from a wait writes gd and the PC, ends the wait, and beyond that changes at most which words fail. -/
theorem State.comeBack_frame (s : State) (d : BitVec 5) (x : Word) :
    let t := s.endWait.setGAdv d x 4
    s.comeBack d x = { t with h := { t.h with bad := (s.comeBack d x).h.bad } } ∧ ∀ b ∈ (s.comeBack d x).h.bad, b ∈ s.h.bad := by
  unfold State.comeBack
  split
  · rw [(Hart.mend_frame s.h _).1]
    exact ⟨rfl, fun b hb => (((Hart.mend_frame s.h _).2 b).mp hb).1⟩
  · exact ⟨rfl, fun _ hb => hb⟩

/-! ### A core, a cluster, an island, bytes of memory -/

@[simp] theorem State.setCore_others (s : State) (c : BitVec 10) (x : Core) : (s.setCore c x).others = s.others := rfl
@[simp] theorem State.setCore_clusters (s : State) (c : BitVec 10) (x : Core) : (s.setCore c x).clusters = s.clusters := rfl
@[simp] theorem State.setCore_islands (s : State) (c : BitVec 10) (x : Core) : (s.setCore c x).islands = s.islands := rfl
@[simp] theorem State.setCore_mem (s : State) (c : BitVec 10) (x : Core) : (s.setCore c x).mem = s.mem := rfl
@[simp] theorem State.setCore_badMem (s : State) (c : BitVec 10) (x : Core) : (s.setCore c x).badMem = s.badMem := rfl
@[simp] theorem State.setCore_tags (s : State) (c : BitVec 10) (x : Core) : (s.setCore c x).tags = s.tags := rfl
@[simp] theorem State.setCore_dones (s : State) (c : BitVec 10) (x : Core) : (s.setCore c x).dones = s.dones := rfl
@[simp] theorem State.setCore_episodes (s : State) (c : BitVec 10) (x : Core) : (s.setCore c x).episodes = s.episodes := rfl
@[simp] theorem State.setCore_fleetBars (s : State) (c : BitVec 10) (x : Core) : (s.setCore c x).fleetBars = s.fleetBars := rfl
@[simp] theorem State.setCore_launches (s : State) (c : BitVec 10) (x : Core) : (s.setCore c x).launches = s.launches := rfl
@[simp] theorem State.setCore_poppers (s : State) (c : BitVec 10) (x : Core) : (s.setCore c x).poppers = s.poppers := rfl
@[simp] theorem State.setCore_watches (s : State) (c : BitVec 10) (x : Core) : (s.setCore c x).watches = s.watches := rfl
@[simp] theorem State.setCore_signalMaps (s : State) (c : BitVec 10) (x : Core) : (s.setCore c x).signalMaps = s.signalMaps := rfl
@[simp] theorem State.setCore_clk (s : State) (c : BitVec 10) (x : Core) : (s.setCore c x).clk = s.clk := rfl
@[simp] theorem State.setCore_dumpa (s : State) (c : BitVec 10) (x : Core) : (s.setCore c x).dumpa = s.dumpa := rfl
@[simp] theorem State.setCore_dumpctl (s : State) (c : BitVec 10) (x : Core) : (s.setCore c x).dumpctl = s.dumpctl := rfl
@[simp] theorem State.setCore_dbgsel (s : State) (c : BitVec 10) (x : Core) : (s.setCore c x).dbgsel = s.dbgsel := rfl
@[simp] theorem State.setCore_dump (s : State) (c : BitVec 10) (x : Core) : (s.setCore c x).dump = s.dump := rfl
@[simp] theorem State.setCore_tabos (s : State) (c : BitVec 10) (x : Core) : (s.setCore c x).tabos = s.tabos := rfl
@[simp] theorem State.setCore_replies (s : State) (c : BitVec 10) (x : Core) : (s.setCore c x).replies = s.replies := rfl
@[simp] theorem State.setCore_outbox (s : State) (c : BitVec 10) (x : Core) : (s.setCore c x).outbox = s.outbox := rfl
@[simp] theorem State.setCore_portsLost (s : State) (c : BitVec 10) (x : Core) : (s.setCore c x).portsLost = s.portsLost := rfl
@[simp] theorem State.setCore_narrowsFailed (s : State) (c : BitVec 10) (x : Core) : (s.setCore c x).narrowsFailed = s.narrowsFailed := rfl
@[simp] theorem State.setCore_narrowsTries (s : State) (c : BitVec 10) (x : Core) : (s.setCore c x).narrowsTries = s.narrowsTries := rfl
@[simp] theorem State.setCore_stopped (s : State) (c : BitVec 10) (x : Core) : (s.setCore c x).stopped = s.stopped := rfl
@[simp] theorem State.setCore_booting (s : State) (c : BitVec 10) (x : Core) : (s.setCore c x).booting = s.booting := rfl
@[simp] theorem State.setCore_agenda (s : State) (c : BitVec 10) (x : Core) : (s.setCore c x).agenda = s.agenda := rfl
@[simp] theorem State.setCore_ticks (s : State) (c : BitVec 10) (x : Core) : (s.setCore c x).ticks = s.ticks := rfl
@[simp] theorem State.setCore_fresh (s : State) (c : BitVec 10) (x : Core) : (s.setCore c x).fresh = s.fresh := rfl
@[simp] theorem State.setCore_ir (s : State) (c : BitVec 10) (x : Core) : (s.setCore c x).ir = s.ir := rfl
@[simp] theorem State.setCore_stall (s : State) (c : BitVec 10) (x : Core) : (s.setCore c x).stall = s.stall := rfl
@[simp] theorem State.setCore_trapped (s : State) (c : BitVec 10) (x : Core) : (s.setCore c x).trapped = s.trapped := rfl
@[simp] theorem State.setCore_h (s : State) (c : BitVec 10) (x : Core) : (s.setCore c x).h = s.h := rfl

@[simp] theorem State.setCluster_others (s : State) (c : BitVec 6) (x : Cluster) : (s.setCluster c x).others = s.others := rfl
@[simp] theorem State.setCluster_cores (s : State) (c : BitVec 6) (x : Cluster) : (s.setCluster c x).cores = s.cores := rfl
@[simp] theorem State.setCluster_islands (s : State) (c : BitVec 6) (x : Cluster) : (s.setCluster c x).islands = s.islands := rfl
@[simp] theorem State.setCluster_mem (s : State) (c : BitVec 6) (x : Cluster) : (s.setCluster c x).mem = s.mem := rfl
@[simp] theorem State.setCluster_badMem (s : State) (c : BitVec 6) (x : Cluster) : (s.setCluster c x).badMem = s.badMem := rfl
@[simp] theorem State.setCluster_tags (s : State) (c : BitVec 6) (x : Cluster) : (s.setCluster c x).tags = s.tags := rfl
@[simp] theorem State.setCluster_dones (s : State) (c : BitVec 6) (x : Cluster) : (s.setCluster c x).dones = s.dones := rfl
@[simp] theorem State.setCluster_episodes (s : State) (c : BitVec 6) (x : Cluster) : (s.setCluster c x).episodes = s.episodes := rfl
@[simp] theorem State.setCluster_fleetBars (s : State) (c : BitVec 6) (x : Cluster) : (s.setCluster c x).fleetBars = s.fleetBars := rfl
@[simp] theorem State.setCluster_launches (s : State) (c : BitVec 6) (x : Cluster) : (s.setCluster c x).launches = s.launches := rfl
@[simp] theorem State.setCluster_poppers (s : State) (c : BitVec 6) (x : Cluster) : (s.setCluster c x).poppers = s.poppers := rfl
@[simp] theorem State.setCluster_watches (s : State) (c : BitVec 6) (x : Cluster) : (s.setCluster c x).watches = s.watches := rfl
@[simp] theorem State.setCluster_signalMaps (s : State) (c : BitVec 6) (x : Cluster) : (s.setCluster c x).signalMaps = s.signalMaps := rfl
@[simp] theorem State.setCluster_clk (s : State) (c : BitVec 6) (x : Cluster) : (s.setCluster c x).clk = s.clk := rfl
@[simp] theorem State.setCluster_dumpa (s : State) (c : BitVec 6) (x : Cluster) : (s.setCluster c x).dumpa = s.dumpa := rfl
@[simp] theorem State.setCluster_dumpctl (s : State) (c : BitVec 6) (x : Cluster) : (s.setCluster c x).dumpctl = s.dumpctl := rfl
@[simp] theorem State.setCluster_dbgsel (s : State) (c : BitVec 6) (x : Cluster) : (s.setCluster c x).dbgsel = s.dbgsel := rfl
@[simp] theorem State.setCluster_dump (s : State) (c : BitVec 6) (x : Cluster) : (s.setCluster c x).dump = s.dump := rfl
@[simp] theorem State.setCluster_tabos (s : State) (c : BitVec 6) (x : Cluster) : (s.setCluster c x).tabos = s.tabos := rfl
@[simp] theorem State.setCluster_replies (s : State) (c : BitVec 6) (x : Cluster) : (s.setCluster c x).replies = s.replies := rfl
@[simp] theorem State.setCluster_outbox (s : State) (c : BitVec 6) (x : Cluster) : (s.setCluster c x).outbox = s.outbox := rfl
@[simp] theorem State.setCluster_portsLost (s : State) (c : BitVec 6) (x : Cluster) : (s.setCluster c x).portsLost = s.portsLost := rfl
@[simp] theorem State.setCluster_narrowsFailed (s : State) (c : BitVec 6) (x : Cluster) : (s.setCluster c x).narrowsFailed = s.narrowsFailed := rfl
@[simp] theorem State.setCluster_narrowsTries (s : State) (c : BitVec 6) (x : Cluster) : (s.setCluster c x).narrowsTries = s.narrowsTries := rfl
@[simp] theorem State.setCluster_stopped (s : State) (c : BitVec 6) (x : Cluster) : (s.setCluster c x).stopped = s.stopped := rfl
@[simp] theorem State.setCluster_booting (s : State) (c : BitVec 6) (x : Cluster) : (s.setCluster c x).booting = s.booting := rfl
@[simp] theorem State.setCluster_agenda (s : State) (c : BitVec 6) (x : Cluster) : (s.setCluster c x).agenda = s.agenda := rfl
@[simp] theorem State.setCluster_ticks (s : State) (c : BitVec 6) (x : Cluster) : (s.setCluster c x).ticks = s.ticks := rfl
@[simp] theorem State.setCluster_fresh (s : State) (c : BitVec 6) (x : Cluster) : (s.setCluster c x).fresh = s.fresh := rfl
@[simp] theorem State.setCluster_ir (s : State) (c : BitVec 6) (x : Cluster) : (s.setCluster c x).ir = s.ir := rfl
@[simp] theorem State.setCluster_stall (s : State) (c : BitVec 6) (x : Cluster) : (s.setCluster c x).stall = s.stall := rfl
@[simp] theorem State.setCluster_trapped (s : State) (c : BitVec 6) (x : Cluster) : (s.setCluster c x).trapped = s.trapped := rfl
@[simp] theorem State.setCluster_h (s : State) (c : BitVec 6) (x : Cluster) : (s.setCluster c x).h = s.h := rfl

@[simp] theorem State.setIsland_others (s : State) (i : BitVec 3) (x : Island) : (s.setIsland i x).others = s.others := rfl
@[simp] theorem State.setIsland_cores (s : State) (i : BitVec 3) (x : Island) : (s.setIsland i x).cores = s.cores := rfl
@[simp] theorem State.setIsland_clusters (s : State) (i : BitVec 3) (x : Island) : (s.setIsland i x).clusters = s.clusters := rfl
@[simp] theorem State.setIsland_mem (s : State) (i : BitVec 3) (x : Island) : (s.setIsland i x).mem = s.mem := rfl
@[simp] theorem State.setIsland_badMem (s : State) (i : BitVec 3) (x : Island) : (s.setIsland i x).badMem = s.badMem := rfl
@[simp] theorem State.setIsland_tags (s : State) (i : BitVec 3) (x : Island) : (s.setIsland i x).tags = s.tags := rfl
@[simp] theorem State.setIsland_dones (s : State) (i : BitVec 3) (x : Island) : (s.setIsland i x).dones = s.dones := rfl
@[simp] theorem State.setIsland_episodes (s : State) (i : BitVec 3) (x : Island) : (s.setIsland i x).episodes = s.episodes := rfl
@[simp] theorem State.setIsland_fleetBars (s : State) (i : BitVec 3) (x : Island) : (s.setIsland i x).fleetBars = s.fleetBars := rfl
@[simp] theorem State.setIsland_launches (s : State) (i : BitVec 3) (x : Island) : (s.setIsland i x).launches = s.launches := rfl
@[simp] theorem State.setIsland_poppers (s : State) (i : BitVec 3) (x : Island) : (s.setIsland i x).poppers = s.poppers := rfl
@[simp] theorem State.setIsland_watches (s : State) (i : BitVec 3) (x : Island) : (s.setIsland i x).watches = s.watches := rfl
@[simp] theorem State.setIsland_signalMaps (s : State) (i : BitVec 3) (x : Island) : (s.setIsland i x).signalMaps = s.signalMaps := rfl
@[simp] theorem State.setIsland_clk (s : State) (i : BitVec 3) (x : Island) : (s.setIsland i x).clk = s.clk := rfl
@[simp] theorem State.setIsland_dumpa (s : State) (i : BitVec 3) (x : Island) : (s.setIsland i x).dumpa = s.dumpa := rfl
@[simp] theorem State.setIsland_dumpctl (s : State) (i : BitVec 3) (x : Island) : (s.setIsland i x).dumpctl = s.dumpctl := rfl
@[simp] theorem State.setIsland_dbgsel (s : State) (i : BitVec 3) (x : Island) : (s.setIsland i x).dbgsel = s.dbgsel := rfl
@[simp] theorem State.setIsland_dump (s : State) (i : BitVec 3) (x : Island) : (s.setIsland i x).dump = s.dump := rfl
@[simp] theorem State.setIsland_tabos (s : State) (i : BitVec 3) (x : Island) : (s.setIsland i x).tabos = s.tabos := rfl
@[simp] theorem State.setIsland_replies (s : State) (i : BitVec 3) (x : Island) : (s.setIsland i x).replies = s.replies := rfl
@[simp] theorem State.setIsland_outbox (s : State) (i : BitVec 3) (x : Island) : (s.setIsland i x).outbox = s.outbox := rfl
@[simp] theorem State.setIsland_portsLost (s : State) (i : BitVec 3) (x : Island) : (s.setIsland i x).portsLost = s.portsLost := rfl
@[simp] theorem State.setIsland_narrowsFailed (s : State) (i : BitVec 3) (x : Island) : (s.setIsland i x).narrowsFailed = s.narrowsFailed := rfl
@[simp] theorem State.setIsland_narrowsTries (s : State) (i : BitVec 3) (x : Island) : (s.setIsland i x).narrowsTries = s.narrowsTries := rfl
@[simp] theorem State.setIsland_stopped (s : State) (i : BitVec 3) (x : Island) : (s.setIsland i x).stopped = s.stopped := rfl
@[simp] theorem State.setIsland_booting (s : State) (i : BitVec 3) (x : Island) : (s.setIsland i x).booting = s.booting := rfl
@[simp] theorem State.setIsland_agenda (s : State) (i : BitVec 3) (x : Island) : (s.setIsland i x).agenda = s.agenda := rfl
@[simp] theorem State.setIsland_ticks (s : State) (i : BitVec 3) (x : Island) : (s.setIsland i x).ticks = s.ticks := rfl
@[simp] theorem State.setIsland_fresh (s : State) (i : BitVec 3) (x : Island) : (s.setIsland i x).fresh = s.fresh := rfl
@[simp] theorem State.setIsland_ir (s : State) (i : BitVec 3) (x : Island) : (s.setIsland i x).ir = s.ir := rfl
@[simp] theorem State.setIsland_stall (s : State) (i : BitVec 3) (x : Island) : (s.setIsland i x).stall = s.stall := rfl
@[simp] theorem State.setIsland_trapped (s : State) (i : BitVec 3) (x : Island) : (s.setIsland i x).trapped = s.trapped := rfl
@[simp] theorem State.setIsland_h (s : State) (i : BitVec 3) (x : Island) : (s.setIsland i x).h = s.h := rfl

@[simp] theorem State.poke_others (s : State) (key n x : Nat) : (s.poke key n x).others = s.others := rfl
@[simp] theorem State.poke_cores (s : State) (key n x : Nat) : (s.poke key n x).cores = s.cores := rfl
@[simp] theorem State.poke_clusters (s : State) (key n x : Nat) : (s.poke key n x).clusters = s.clusters := rfl
@[simp] theorem State.poke_islands (s : State) (key n x : Nat) : (s.poke key n x).islands = s.islands := rfl
@[simp] theorem State.poke_tags (s : State) (key n x : Nat) : (s.poke key n x).tags = s.tags := rfl
@[simp] theorem State.poke_episodes (s : State) (key n x : Nat) : (s.poke key n x).episodes = s.episodes := rfl
@[simp] theorem State.poke_fleetBars (s : State) (key n x : Nat) : (s.poke key n x).fleetBars = s.fleetBars := rfl
@[simp] theorem State.poke_launches (s : State) (key n x : Nat) : (s.poke key n x).launches = s.launches := rfl
@[simp] theorem State.poke_poppers (s : State) (key n x : Nat) : (s.poke key n x).poppers = s.poppers := rfl
@[simp] theorem State.poke_signalMaps (s : State) (key n x : Nat) : (s.poke key n x).signalMaps = s.signalMaps := rfl
@[simp] theorem State.poke_clk (s : State) (key n x : Nat) : (s.poke key n x).clk = s.clk := rfl
@[simp] theorem State.poke_dumpa (s : State) (key n x : Nat) : (s.poke key n x).dumpa = s.dumpa := rfl
@[simp] theorem State.poke_dumpctl (s : State) (key n x : Nat) : (s.poke key n x).dumpctl = s.dumpctl := rfl
@[simp] theorem State.poke_dbgsel (s : State) (key n x : Nat) : (s.poke key n x).dbgsel = s.dbgsel := rfl
@[simp] theorem State.poke_dump (s : State) (key n x : Nat) : (s.poke key n x).dump = s.dump := rfl
@[simp] theorem State.poke_tabos (s : State) (key n x : Nat) : (s.poke key n x).tabos = s.tabos := rfl
@[simp] theorem State.poke_replies (s : State) (key n x : Nat) : (s.poke key n x).replies = s.replies := rfl
@[simp] theorem State.poke_outbox (s : State) (key n x : Nat) : (s.poke key n x).outbox = s.outbox := rfl
@[simp] theorem State.poke_portsLost (s : State) (key n x : Nat) : (s.poke key n x).portsLost = s.portsLost := rfl
@[simp] theorem State.poke_narrowsFailed (s : State) (key n x : Nat) : (s.poke key n x).narrowsFailed = s.narrowsFailed := rfl
@[simp] theorem State.poke_narrowsTries (s : State) (key n x : Nat) : (s.poke key n x).narrowsTries = s.narrowsTries := rfl
@[simp] theorem State.poke_stopped (s : State) (key n x : Nat) : (s.poke key n x).stopped = s.stopped := rfl
@[simp] theorem State.poke_booting (s : State) (key n x : Nat) : (s.poke key n x).booting = s.booting := rfl
@[simp] theorem State.poke_agenda (s : State) (key n x : Nat) : (s.poke key n x).agenda = s.agenda := rfl
@[simp] theorem State.poke_ticks (s : State) (key n x : Nat) : (s.poke key n x).ticks = s.ticks := rfl
@[simp] theorem State.poke_fresh (s : State) (key n x : Nat) : (s.poke key n x).fresh = s.fresh := rfl
@[simp] theorem State.poke_ir (s : State) (key n x : Nat) : (s.poke key n x).ir = s.ir := rfl
@[simp] theorem State.poke_stall (s : State) (key n x : Nat) : (s.poke key n x).stall = s.stall := rfl
@[simp] theorem State.poke_trapped (s : State) (key n x : Nat) : (s.poke key n x).trapped = s.trapped := rfl
@[simp] theorem State.poke_h (s : State) (key n x : Nat) : (s.poke key n x).h = s.h := rfl

@[simp] theorem State.poke_mem (s : State) (key n x : Nat) : (s.poke key n x).mem = Memory.write s.mem key n x := rfl

/-! ### Reading a g register back -/

/-- g0 reads 0 (R16). -/
@[simp] theorem State.getG_zero (s : State) : s.getG 0 = 0 := rfl

/-- A g register reads what was written to it, g0 still 0, and every other one what it read before (R16, R53). -/
theorem State.getG_setG (s : State) (d r : BitVec 5) (x : Word) :
    (s.setG d x).getG r = if r = 0 then 0 else if r = d then x else s.getG r := by
  unfold State.getG
  by_cases hr : r = 0
  · rw [if_pos hr, if_pos hr]
  · rw [if_neg hr, if_neg hr, if_neg hr]
    show (if d = 0 then s.h.g else s.h.g.set d.toNat x d.isLt)[r.toNat] = _
    by_cases h : r = d
    · subst h; simp only [if_neg hr, if_true, Vector.getElem_set_self]
    · rw [if_neg h]
      have : d.toNat ≠ r.toNat := fun h' => h (BitVec.eq_of_toNat_eq h'.symm)
      split
      · rfl
      · rw [Vector.getElem_set_ne _ _ this]

@[simp] theorem State.getG_adv (s : State) (n : Nat) (r : BitVec 5) : (s.adv n).getG r = s.getG r := rfl

theorem State.getG_setGAdv (s : State) (d r : BitVec 5) (x : Word) (n : Nat) :
    (s.setGAdv d x n).getG r = if r = 0 then 0 else if r = d then x else s.getG r := State.getG_setG s d r x

@[simp] theorem State.getG_setK (s : State) (n : Nat) (x : BitVec 8192) (r : BitVec 5) : (s.setK n x).getG r = s.getG r := rfl
@[simp] theorem State.getG_setCore (s : State) (c : BitVec 10) (x : Core) (r : BitVec 5) : (s.setCore c x).getG r = s.getG r := rfl
@[simp] theorem State.getG_poke (s : State) (key n x : Nat) (r : BitVec 5) : (s.poke key n x).getG r = s.getG r := rfl

/-- A mask reads what was written to it, k0 ones below SPAN still (R24). -/
theorem Hart.getK_setK (h : Hart) (n m : Nat) (x : BitVec 8192) (hn : n < 24) :
    (h.setK n x).getK m = if m = 0 then h.getK 0 else if m = n then x else h.getK m := by
  unfold Hart.getK Hart.setK
  by_cases hm : m = 0
  · simp [hm]
  · by_cases h0 : n = 0
    · have : m ≠ n := fun h => hm (h.trans h0)
      simp [hm, h0]
    · by_cases h : m = n
      · subst h; simp [hm, hn]
      · have : n ≠ m := fun h' => h h'.symm
        simp [hm, h0, h, this]

/-- An island reads what was put there. -/
theorem State.island_setIsland (s : State) (i j : BitVec 3) (x : Island) :
    (s.setIsland i x).island j = if j = i then x else s.island j := by
  unfold State.island State.setIsland
  by_cases h : j = i
  · subst h; simp
  · have : i.toNat ≠ j.toNat := fun h' => h (BitVec.eq_of_toNat_eq h'.symm)
    simp [h, this]

end Sys2Proof.Machine
end

