-- ==== Sys2Proof/Laws/Ops.lean ====
section
/-! SUPPORT. What each shared operation can do, said once: cores and clusters, accesses, tags, checks, traps, waits. -/

set_option Elab.async false

namespace Sys2Proof.Machine

open Sys2Proof.Safety

/-! ### Cores, clusters, islands -/

/-- Core `c` after core `c'` is replaced. -/
theorem State.core_setCore {s : State} (h : SMap.wf Core.reset s.cores = true) (c c' : BitVec 10) (x : Core) :
    (s.setCore c' x).core c = if c = c' then x else s.core c := by
  unfold State.core State.setCore
  rw [SMap.get_set c'.toNat c.toNat x h]
  simp only [BitVec.toNat_inj]

/-- Cluster `c` after cluster `c'` is replaced. -/
theorem State.cluster_setCluster {s : State} (h : SMap.wf Cluster.reset s.clusters = true) (c c' : BitVec 6) (x : Cluster) :
    (s.setCluster c' x).cluster c = if c = c' then x else s.cluster c := by
  unfold State.cluster State.setCluster
  rw [SMap.get_set c'.toNat c.toNat x h]
  simp only [BitVec.toNat_inj]

@[simp] theorem State.core_setCluster (s : State) (c : BitVec 10) (c' : BitVec 6) (x : Cluster) :
    (s.setCluster c' x).core c = s.core c := rfl
@[simp] theorem State.cluster_setCore (s : State) (c : BitVec 6) (c' : BitVec 10) (x : Core) :
    (s.setCore c' x).cluster c = s.cluster c := rfl
@[simp] theorem State.island_setCore (s : State) (i : BitVec 3) (c' : BitVec 10) (x : Core) :
    (s.setCore c' x).island i = s.island i := rfl
@[simp] theorem State.island_setCluster (s : State) (i : BitVec 3) (c' : BitVec 6) (x : Cluster) :
    (s.setCluster c' x).island i = s.island i := rfl
@[simp] theorem State.core_setIsland (s : State) (c : BitVec 10) (i : BitVec 3) (x : Island) :
    (s.setIsland i x).core c = s.core c := rfl
@[simp] theorem State.cluster_setIsland (s : State) (c : BitVec 6) (i : BitVec 3) (x : Island) :
    (s.setIsland i x).cluster c = s.cluster c := rfl

/-- Replacing a core keeps the canonical form. -/
theorem State.canonical_setCore {s : State} (h : Canonical s) (c : BitVec 10) (x : Core) : Canonical (s.setCore c x) :=
  ⟨h.1, SMap.wf_set _ _ h.2.1, h.2.2.1, h.2.2.2.1, h.2.2.2.2.1, SMap.keys_set _ _ h.2.2.2.2.2.1 c.isLt, h.2.2.2.2.2.2⟩

/-- Replacing a cluster keeps the canonical form. -/
theorem State.canonical_setCluster {s : State} (h : Canonical s) (c : BitVec 6) (x : Cluster) : Canonical (s.setCluster c x) :=
  ⟨h.1, h.2.1, SMap.wf_set _ _ h.2.2.1, h.2.2.2.1, h.2.2.2.2.1, h.2.2.2.2.2.1, SMap.keys_set _ _ h.2.2.2.2.2.2 c.isLt⟩

/-- Replacing an island keeps the canonical form. -/
theorem State.canonical_setIsland {s : State} (h : Canonical s) (i : BitVec 3) (x : Island) : Canonical (s.setIsland i x) := h

/-- The canonical form speaks of five lists only. -/
theorem State.canonical_of_lists {s t : State} (h : Canonical s) (hm : t.mem = s.mem) (hc : t.cores = s.cores)
    (hk : t.clusters = s.clusters) (ht : t.tags = s.tags) (hd : t.dones = s.dones) : Canonical t := by
  unfold Canonical at *
  rw [hm, hc, hk, ht, hd]
  exact h

/-! ### Stores and tags -/

/-- Storing bytes keeps the canonical form. -/
theorem State.canonical_poke {s : State} (h : Canonical s) (key n x : Nat) : Canonical (s.poke key n x) := by
  refine ⟨Memory.wf_write n _ _ _ h.1, h.2.1, h.2.2.1, h.2.2.2.1, ?_, h.2.2.2.2.2.1, h.2.2.2.2.2.2⟩
  show SMap.wf none (if s.dones = [] then [] else _) = true
  split
  · rfl
  · exact SMap.wf_filter _ h.2.2.2.2.1

/-- A byte after `n` bytes of `x` are stored at `key`. -/
theorem State.byte_poke {s : State} (h : Memory.wf s.mem = true) (key n x b : Nat) :
    Memory.byte (s.poke key n x).mem b =
      if key ≤ b ∧ b < key + n then BitVec.ofNat 8 (x / 256 ^ (b - key)) else Memory.byte s.mem b :=
  Memory.byte_write n s.mem key x b h

/-- No byte outside those stored changes. -/
theorem State.memExcept_poke {s : State} (h : Memory.wf s.mem = true) (key n x : Nat) : MemExcept s (s.poke key n x) key n := by
  intro a ha
  rw [State.byte_poke h, if_neg (by omega)]

/-- Setting a tag keeps the canonical form. -/
theorem State.canonical_setTag {s : State} (h : Canonical s) (p : Place) (t : BitVec 48) : Canonical (s.setTag p t) := by
  unfold State.setTag
  split
  · exact ⟨h.1, h.2.1, h.2.2.1, SMap.wf_set _ _ h.2.2.2.1, h.2.2.2.2.1, h.2.2.2.2.2.1, h.2.2.2.2.2.2⟩
  · exact h

/-! ### Accesses -/

/-- A mapping of a signal page changes the mappings in use and the tags alone. -/
theorem State.mapSignal_frame (s : State) (w : Who) (e : TlbEntry) :
    s.mapSignal w e = { s with signalMaps := (s.mapSignal w e).signalMaps, tags := (s.mapSignal w e).tags } := by
  unfold State.mapSignal
  dsimp only
  split <;> rfl

/-- A mapping of a signal page keeps the canonical form. -/
theorem State.canonical_mapSignal {s : State} (h : Canonical s) (w : Who) (e : TlbEntry) : Canonical (s.mapSignal w e) := by
  unfold State.mapSignal
  dsimp only
  split
  · exact h
  · refine ⟨h.1, h.2.1, h.2.2.1, ?_, h.2.2.2.2.1, h.2.2.2.2.2.1, h.2.2.2.2.2.2⟩
    dsimp only
    split
    · exact SMap.wf_filter _ h.2.2.2.1
    · exact h.2.2.2.1

/-- Holding an access off changes the stall alone. -/
theorem State.holdAccess_frame (s : State) (c : BitVec 10) (p : Place) :
    s.holdAccess c p = { s with stall := (s.holdAccess c p).stall } := by
  unfold State.holdAccess
  split <;> rfl

/-- A TLB entry changes TLBs, mappings in use and tags alone. -/
theorem State.fillTlb_frame (s : State) (w : Who) (p : Place) :
    s.fillTlb w p = { s with
      cores := (s.fillTlb w p).cores, clusters := (s.fillTlb w p).clusters
      signalMaps := (s.fillTlb w p).signalMaps, tags := (s.fillTlb w p).tags } := by
  unfold State.fillTlb
  split
  · rfl
  · dsimp only
    split
    · rw [State.mapSignal_frame]; rfl
    · rfl

/-- Counting changes an island alone. -/
theorem State.countTraffic_frame (s : State) (c : BitVec 10) (p : Place) (rd wr : Nat) :
    s.countTraffic c p rd wr = { s with islands := (s.countTraffic c p rd wr).islands } := by
  unfold State.countTraffic
  split
  · rfl
  · dsimp only
    split <;> rfl

/-- Everything an access leaves besides its bytes. -/
theorem State.account_frame (s : State) (w : Who) (p : Place) (rd wr : Nat) :
    s.account w p rd wr = { s with
      stall := (s.account w p rd wr).stall
      cores := (s.account w p rd wr).cores
      clusters := (s.account w p rd wr).clusters
      islands := (s.account w p rd wr).islands
      signalMaps := (s.account w p rd wr).signalMaps
      tags := (s.account w p rd wr).tags } := by
  unfold State.account
  rw [State.countTraffic_frame, State.fillTlb_frame, State.holdAccess_frame]

@[simp] theorem State.account_mem (s : State) (w : Who) (p : Place) (rd wr : Nat) : (s.account w p rd wr).mem = s.mem := by
  rw [State.account_frame]
@[simp] theorem State.account_h (s : State) (w : Who) (p : Place) (rd wr : Nat) : (s.account w p rd wr).h = s.h := by
  rw [State.account_frame]
@[simp] theorem State.account_others (s : State) (w : Who) (p : Place) (rd wr : Nat) :
    (s.account w p rd wr).others = s.others := by
  rw [State.account_frame]
@[simp] theorem State.account_badMem (s : State) (w : Who) (p : Place) (rd wr : Nat) :
    (s.account w p rd wr).badMem = s.badMem := by
  rw [State.account_frame]
@[simp] theorem State.account_watches (s : State) (w : Who) (p : Place) (rd wr : Nat) :
    (s.account w p rd wr).watches = s.watches := by
  rw [State.account_frame]
@[simp] theorem State.account_dones (s : State) (w : Who) (p : Place) (rd wr : Nat) :
    (s.account w p rd wr).dones = s.dones := by
  rw [State.account_frame]

/-- An access to a page that is not of signal type leaves the tags. -/
theorem State.account_tags {s : State} {w : Who} {p : Place} (rd wr : Nat) (h : p.signal = false) :
    (s.account w p rd wr).tags = s.tags := by
  unfold State.account
  rw [State.countTraffic_frame]
  show ((s.holdAccess w.core p).fillTlb w p).tags = s.tags
  unfold State.fillTlb
  rw [State.holdAccess_frame]
  cases p.leaf <;> simp [h, State.setCore, State.setCluster]

/-- An access that is not held off sets no stall. -/
theorem State.account_stall {s : State} {w : Who} {p : Place} (rd wr : Nat) (h : s.heldOff w.core p = false) :
    (s.account w p rd wr).stall = s.stall := by
  unfold State.account
  rw [State.countTraffic_frame, State.fillTlb_frame]
  simp [State.holdAccess, h]

/-- An access keeps the canonical form. -/
theorem State.canonical_account {s : State} (h : Canonical s) (w : Who) (p : Place) (rd wr : Nat) :
    Canonical (s.account w p rd wr) := by
  have h1 : Canonical (s.holdAccess w.core p) := by rw [State.holdAccess_frame]; exact h
  have h2 : Canonical ((s.holdAccess w.core p).fillTlb w p) := by
    unfold State.fillTlb
    split
    · exact h1
    · dsimp only
      split
      · exact State.canonical_mapSignal (State.canonical_setCluster (State.canonical_setCore h1 _ _) _ _) _ _
      · exact State.canonical_setCluster (State.canonical_setCore h1 _ _) _ _
  unfold State.account
  rw [State.countTraffic_frame]
  exact h2

/-- A read succeeds exactly at a place without failing words, and gives the number there. -/
theorem State.loadAs_ok {s : State} {w : Who} {dev : Bool} {va : Word} {n x : Nat} {t : State} :
    s.loadAs w dev va n = .ok (x, t) ↔
      ∃ p, s.translate w .read dev va = .ok p ∧ s.failing p.key n = false ∧ x = Memory.read s.mem p.key n ∧
        t = s.account w p n 0 := by
  unfold State.loadAs
  constructor
  · intro h
    split at h
    · exact absurd h (by simp)
    · rename_i p hp
      split at h
      · exact absurd h (by simp)
      · rename_i hf
        simp only [Except.ok.injEq, Prod.mk.injEq] at h
        exact ⟨p, hp, by simpa using hf, h.1.symm, h.2.symm⟩
  · rintro ⟨p, hp, hf, rfl, rfl⟩
    rw [hp]
    simp [hf]

/-- A write succeeds exactly at a place where no word that it would only partly replace fails. -/
theorem State.storeAs_ok {s : State} {w : Who} {dev : Bool} {va : Word} {n x : Nat} {t : State} :
    s.storeAs w dev va n x = .ok t ↔
      ∃ p, s.translate w .write dev va = .ok p ∧ (n < 8 → s.failing p.key n = false) ∧
        t = (s.account w p 0 n).poke p.key n x := by
  unfold State.storeAs
  constructor
  · intro h
    split at h
    · exact absurd h (by simp)
    · rename_i p hp
      split at h
      · exact absurd h (by simp)
      · rename_i hf
        simp only [Except.ok.injEq] at h
        exact ⟨p, hp, fun hn => by simpa [hn] using hf, h.symm⟩
  · rintro ⟨p, hp, hf, rfl⟩
    rw [hp]
    by_cases hn : n < 8
    · simp [hf hn]
    · simp [hn]

/-- A read by the hart that moves. -/
theorem State.load_ok {s : State} {dev : Bool} {va : Word} {n x : Nat} {t : State} :
    s.load dev va n = .ok (x, t) ↔
      ∃ p, s.translate s.who .read dev va = .ok p ∧ s.failing p.key n = false ∧ x = Memory.read s.mem p.key n ∧
        t = (s.account s.who p n 0).noteWatch .read va n := by
  unfold State.load
  constructor
  · intro h
    split at h
    · exact absurd h (by simp)
    · rename_i y u hl
      obtain ⟨p, h1, h2, h3, h4⟩ := State.loadAs_ok.mp hl
      simp only [Except.ok.injEq, Prod.mk.injEq] at h
      exact ⟨p, h1, h2, h.1 ▸ h3, by rw [← h.2, h4]⟩
  · rintro ⟨p, h1, h2, rfl, rfl⟩
    rw [State.loadAs_ok.mpr ⟨p, h1, h2, rfl, rfl⟩]

/-- A write by the hart that moves. -/
theorem State.store_ok {s : State} {dev : Bool} {va : Word} {n x : Nat} {t : State} :
    s.store dev va n x = .ok t ↔
      ∃ p, s.translate s.who .write dev va = .ok p ∧ (n < 8 → s.failing p.key n = false) ∧
        t = ((s.account s.who p 0 n).poke p.key n x).noteWatch .write va n := by
  unfold State.store
  constructor
  · intro h
    split at h
    · exact absurd h (by simp)
    · rename_i u hl
      obtain ⟨p, h1, h2, h3⟩ := State.storeAs_ok.mp hl
      simp only [Except.ok.injEq] at h
      exact ⟨p, h1, h2, by rw [← h, h3]⟩
  · rintro ⟨p, h1, h2, rfl⟩
    rw [State.storeAs_ok.mpr ⟨p, h1, h2, rfl⟩]

/-- An atomic succeeds exactly at a place without failing words: the old number, and the new one stored when there is one. -/
theorem State.rmw_ok {s : State} {va : Word} {n : Nat} {f : Nat → Option Nat} {old : Nat} {p : Place} {t : State} :
    s.rmw va n f = .ok (old, p, t) ↔
      s.translate s.who .atomic false va = .ok p ∧ s.failing p.key n = false ∧ old = Memory.read s.mem p.key n ∧
        t = (match f old with
          | none => (s.account s.who p n n).noteWatch .atomic va n
          | some x => ((s.account s.who p n n).noteWatch .atomic va n).poke p.key n x) := by
  unfold State.rmw
  constructor
  · intro h
    split at h
    · exact absurd h (by simp)
    · rename_i q hp
      split at h
      · exact absurd h (by simp)
      · rename_i hf
        simp only [Except.ok.injEq, Prod.mk.injEq] at h
        obtain ⟨h1, rfl, h2⟩ := h
        exact ⟨hp, by simpa using hf, h1.symm, by rw [← h2, ← h1]; all_goals (cases f (Memory.read s.mem q.key n) <;> rfl)⟩
  · rintro ⟨hp, hf, rfl, rfl⟩
    rw [hp]
    simp only [hf]
    rfl

/-- A watch hit changes the watch alone. -/
theorem State.noteWatch_frame (s : State) (k : AccKind) (va : Word) (n : Nat) :
    s.noteWatch k va n = { s with h := { s.h with watch := (s.noteWatch k va n).h.watch } } := by
  unfold State.noteWatch
  split <;> rfl

@[simp] theorem State.noteWatch_mem (s : State) (k : AccKind) (va : Word) (n : Nat) : (s.noteWatch k va n).mem = s.mem := by
  rw [State.noteWatch_frame]

/-- Noting a watch hit keeps the canonical form. -/
theorem State.canonical_noteWatch {s : State} (h : Canonical s) (k : AccKind) (va : Word) (n : Nat) :
    Canonical (s.noteWatch k va n) := by
  rw [State.noteWatch_frame]; exact h

/-- A read keeps the canonical form. -/
theorem State.canonical_load {s t : State} {dev : Bool} {va : Word} {n x : Nat} (h : Canonical s) (hl : s.load dev va n = .ok (x, t)) :
    Canonical t := by
  obtain ⟨p, -, -, -, rfl⟩ := State.load_ok.mp hl
  exact State.canonical_noteWatch (State.canonical_account h _ _ _ _) _ _ _

/-- A write keeps the canonical form. -/
theorem State.canonical_store {s t : State} {dev : Bool} {va : Word} {n x : Nat} (h : Canonical s) (hl : s.store dev va n x = .ok t) :
    Canonical t := by
  obtain ⟨p, -, -, rfl⟩ := State.store_ok.mp hl
  exact State.canonical_noteWatch (State.canonical_poke (State.canonical_account h _ _ _ _) _ _ _) _ _ _

/-- An atomic keeps the canonical form. -/
theorem State.canonical_rmw {s t : State} {va : Word} {n : Nat} {f : Nat → Option Nat} {old : Nat} {p : Place} (h : Canonical s)
    (hl : s.rmw va n f = .ok (old, p, t)) : Canonical t := by
  obtain ⟨-, -, -, rfl⟩ := State.rmw_ok.mp hl
  have h1 := State.canonical_noteWatch (State.canonical_account h s.who p n n) .atomic va n
  cases f old with
  | none => exact h1
  | some x => exact State.canonical_poke h1 _ _ _

/-! ### Translation -/

/-- An access through the window on the own scratchpad (Table 2-1). -/
theorem State.translate_scratch {s : State} {w : Who} {k : AccKind} {dev : Bool} {va : Word} (hk : k ≠ .fetch)
    (h0 : 0x000FFFFE00000000 ≤ va.toNat) (h1 : va.toNat < 0x000FFFFE00400000) :
    s.translate w k dev va =
      .ok ⟨scratchKey (clusterOf w.core).toNat (va.toNat - 0x000FFFFE00000000), islandOf w.core, false, false, none⟩ := by
  unfold State.translate
  have hf : (k == .fetch) = false := by cases k <;> first | rfl | contradiction
  simp only [hf]
  rw [if_neg (by omega), if_pos h0, if_neg (by decide), if_pos h1]

/-- An access through a leaf (R331 to R337). -/
theorem State.translate_leaf {s : State} {w : Who} {k : AccKind} {dev : Bool} {va : Word} {e : TlbEntry}
    (h0 : va.toNat < 0x000FFFFE00000000) (hb : w.ptbr.getLsbD 0 = true) (hl : s.leafFor w va.toNat = .leaf e) :
    s.translate w k dev va = s.checkLeaf w k dev va e := by
  unfold State.translate
  simp only [hb, hl]
  rw [if_neg (by omega), if_neg (by omega), if_neg (by decide)]

/-- Outside the windows nothing is reached without an address space (R331). -/
theorem State.translate_off {s : State} {w : Who} {k : AccKind} {dev : Bool} {va : Word} (h0 : va.toNat < 0x000FFFFE00000000)
    (hb : w.ptbr.getLsbD 0 = false) : s.translate w k dev va = .error ⟨k.pageFault, va⟩ := by
  unfold State.translate
  simp only [hb]
  rw [if_neg (by omega), if_neg (by omega), if_pos (by decide)]

/-! ### Checks and waits -/

/-- No check fails exactly when each is false. -/
theorem firstFailing_none {cs : List (Bool × Nat × Word)} : firstFailing cs = none ↔ ∀ c ∈ cs, c.1 = false := by
  induction cs with
  | nil => simp [firstFailing]
  | cons c cs ih =>
    obtain ⟨b, c⟩ := c
    cases b <;> simp [firstFailing, ih]

/-- An instruction whose checks pass goes on. -/
theorem State.check_pass {s : State} {cs : List (Bool × Nat × Word)} {k : State → Result} (h : ∀ c ∈ cs, c.1 = false) :
    s.check cs k = k s := by
  unfold State.check
  rw [firstFailing_none.mpr h]

/-- The first check that fails decides the trap. -/
theorem State.check_fail {s : State} {cs ds : List (Bool × Nat × Word)} {c : Nat} {a : Word} {k : State → Result}
    (h : ∀ c ∈ cs, c.1 = false) : s.check (cs ++ (true, c, a) :: ds) k = s.trapPre c a := by
  have : firstFailing (cs ++ (true, c, a) :: ds) = some (c, a) := by
    induction cs with
    | nil => rfl
    | cons x xs ih =>
      obtain ⟨b, y⟩ := x
      have hb : b = false := h (b, y) (by simp)
      subst hb
      exact ih fun z hz => h z (by simp [hz])
  unfold State.check
  rw [this]

/-- A checked instruction traps or goes on. -/
theorem State.check_cases {s : State} {cs : List (Bool × Nat × Word)} {k : State → Result} :
    (∃ c a, (true, c, a) ∈ cs ∧ s.check cs k = s.trapPre c a) ∨ ((∀ c ∈ cs, c.1 = false) ∧ s.check cs k = k s) := by
  unfold State.check
  cases h : firstFailing cs with
  | none => exact .inr ⟨firstFailing_none.mp h, rfl⟩
  | some x =>
    refine .inl ⟨x.1, x.2, ?_, rfl⟩
    induction cs with
    | nil => simp [firstFailing] at h
    | cons c cs ih =>
      obtain ⟨b, y⟩ := c
      cases b with
      | true => simp [firstFailing] at h; subst h; simp
      | false => simp only [firstFailing, Bool.false_eq_true, if_false] at h; exact List.mem_cons_of_mem _ (ih h)

/-- A hart that enters a wait changes its slot state and its count of frozen cycles alone. -/
theorem State.enterWait_frame (s : State) (w : Wait) :
    s.enterWait w = { s with h := { s.h with slot := (s.enterWait w).h.slot, lag := (s.enterWait w).h.lag } } ∧ ∃ since, (s.enterWait w).h.slot = .wait w since := by
  unfold State.enterWait
  split
  · rename_i w' since h
    split
    · rename_i hw
      subst hw
      exact ⟨rfl, since, h⟩
    · exact ⟨rfl, since, rfl⟩
  · exact ⟨rfl, s.clk, rfl⟩

/-! ### Traps -/

/-- A delivery to a register changes it and its full/empty state alone. -/
theorem Hart.deliver_frame (h : Hart) (p : Producer → Bool) (r : Nat) :
    h.deliver p r = { h with v := (h.deliver p r).v, full := (h.deliver p r).full } := by
  unfold Hart.deliver
  split
  · split <;> rfl
  · rfl

/-- Completing what the pipes have pending changes vector registers and their full/empty states alone (R30). -/
theorem Hart.settleAll_frame (h : Hart) : h.settleAll = { h with v := h.settleAll.v, full := h.settleAll.full } := by
  have step : ∀ (rs : List Nat) (v : Vector (BitVec 32768) 32) (f : Vector Fullness 32),
      ∃ v' f', rs.foldl Hart.settle { h with v := v, full := f } = { h with v := v', full := f' } := by
    intro rs
    induction rs with
    | nil => exact fun v f => ⟨v, f, rfl⟩
    | cons r rs ih =>
      intro v f
      show ∃ v' f', rs.foldl Hart.settle (Hart.deliver { h with v := v, full := f } (· == .pipe) r) = _
      rw [Hart.deliver_frame]
      exact ih _ _
  unfold Hart.settleAll
  split
  · rfl
  · obtain ⟨v, f, e⟩ := step (List.range 32) h.v h.full
    rw [show ({ h with v := h.v, full := h.full } : Hart) = h from rfl] at e
    rw [e]

/-- Trap entry field by field (R359, R360) of a hart that resumes nothing. -/
theorem State.enterTrap_fields {s : State} (t : Trap) (hr : s.h.resume = []) :
    let u := s.enterTrap t
    u.h.epc = s.h.pc ∧ u.h.eix = BitVec.ofNat 64 t.eix ∧ u.h.ecause = BitVec.ofNat 64 t.cause ∧ u.h.eaddr = t.eaddr ∧
    u.h.estatus = trapEstatus s.h.estatus s.h.lvl t.part t.replay t.frqov t.raised ∧ u.h.econv = 0 ∧ u.h.tseq = t.tseq ∧
    u.h.lvl = trapLevel s.h.lvl t.cause ∧ u.h.slot = .run ∧
    u.h.pc = evenPc (if trapLevel s.h.lvl t.cause = .firmware then s.h.fvec else s.h.tvec) ∧ u.h.resume = [] := by
  have hc : s.h.convoy t = [] := by simp [Hart.convoy, Hart.heads, Hart.resuming, hr]
  simp [State.enterTrap, Hart.saved, hc]

/-- Trap entry leaves everything of the state but the hart that moves. -/
theorem State.enterTrap_frame (s : State) (t : Trap) :
    s.enterTrap t = { s with trapped := true, h := (s.enterTrap t).h } := rfl

@[simp] theorem State.enterTrap_g (s : State) (t : Trap) : (s.enterTrap t).h.g = s.h.g := by
  simp only [State.enterTrap, Hart.saved]; rw [Hart.settleAll_frame]
@[simp] theorem State.enterTrap_k (s : State) (t : Trap) : (s.enterTrap t).h.k = s.h.k := by
  simp only [State.enterTrap, Hart.saved]; rw [Hart.settleAll_frame]
@[simp] theorem State.enterTrap_pl (s : State) (t : Trap) : (s.enterTrap t).h.pl = s.h.pl := by
  simp only [State.enterTrap, Hart.saved]; rw [Hart.settleAll_frame]
@[simp] theorem State.enterTrap_e (s : State) (t : Trap) : (s.enterTrap t).h.e = s.h.e := by
  simp only [State.enterTrap, Hart.saved]; rw [Hart.settleAll_frame]
@[simp] theorem State.enterTrap_vtype (s : State) (t : Trap) : (s.enterTrap t).h.vtype = s.h.vtype := by
  simp only [State.enterTrap, Hart.saved]; rw [Hart.settleAll_frame]
@[simp] theorem State.enterTrap_fst (s : State) (t : Trap) : (s.enterTrap t).h.fst = s.h.fst := by
  simp only [State.enterTrap, Hart.saved]; rw [Hart.settleAll_frame]
/-- Trap entry completes what the pipes have pending (R30). -/
@[simp] theorem State.enterTrap_v (s : State) (t : Trap) : (s.enterTrap t).h.v = s.h.settleAll.v := rfl
@[simp] theorem State.enterTrap_full (s : State) (t : Trap) : (s.enterTrap t).h.full = s.h.settleAll.full := rfl
@[simp] theorem State.enterTrap_mem (s : State) (t : Trap) : (s.enterTrap t).mem = s.mem := rfl
@[simp] theorem State.enterTrap_others (s : State) (t : Trap) : (s.enterTrap t).others = s.others := rfl

/-- A trap of any cause but machine check is the entry alone. -/
theorem State.takeTrap_eq {s : State} {t : Trap} (h : t.cause ≠ 0x13) : s.takeTrap t = s.enterTrap t := by
  unfold State.takeTrap
  rw [if_neg h]

/-- A trap keeps the canonical form. -/
theorem State.canonical_takeTrap {s : State} (h : Canonical s) (t : Trap) : Canonical (s.takeTrap t) := by
  unfold State.takeTrap
  split <;> exact h

/-- A trap always gives a next state. -/
theorem State.trap_next (s : State) (t : Trap) : s.trap t = .next (s.takeTrap t) := rfl

/-- A trap before any effect always gives a next state. -/
theorem State.trapPre_next (s : State) (c : Nat) (a : Word) : ∃ t, s.trapPre c a = .next t := ⟨_, rfl⟩

end Sys2Proof.Machine
end

