-- ==== Sys2Proof/Laws/PerInstr.lean ====
section
/-! SUPPORT. Decoding the encoding of an instruction: one lemma per constructor (03 R49 to R60). -/

set_option Elab.async false

namespace Sys2Proof.Laws

/-- A 32-bit word gives its fields back (R52). -/
theorem decode32_word32 {maj d a b fn : Nat} (hm : maj < 64) (hd : d < 32) (ha : a < 32) (hb : b < 32) (hf : fn < 256) :
    decode32 (word32 maj d a b fn) = (decFields maj d a b fn).filter Instr.wf := by
  have h0 : word32 maj d a b fn / 0x20000000 % 8 = 6 := by unfold word32; omega
  have h1 : word32 maj d a b fn / 0x800000 % 64 = maj := by unfold word32; omega
  have h2 : word32 maj d a b fn / 0x40000 % 32 = d := by unfold word32; omega
  have h3 : word32 maj d a b fn / 0x2000 % 32 = a := by unfold word32; omega
  have h4 : word32 maj d a b fn / 0x100 % 32 = b := by unfold word32; omega
  have h5 : word32 maj d a b fn % 0x100 = fn := by unfold word32; omega
  unfold decode32
  rw [if_pos h0, h1, h2, h3, h4, h5]

/-- A tile word gives its fields back (R55). -/
theorem decode64_word64 {op a sa b sb z ta tb pa pb ea eb x : Nat} (h : op < 64) (ha : a < 32) (hsa : sa < 2) (hb : b < 32)
    (hsb : sb < 2) (hz : z < 4) (hta : ta < 16) (htb : tb < 16) (hpa : pa < 8) (hpb : pb < 8) (hea : ea < 2) (heb : eb < 2)
    (hx : x < 2 ^ 25) :
    decode64 (word64 op a sa b sb z ta tb pa pb ea eb x) = (decTile op a sa b sb z ta tb pa pb ea eb x).filter Instr.wf := by
  generalize hw : word64 op a sa b sb z ta tb pa pb ea eb x = w
  unfold word64 at hw
  obtain ⟨q1, e1⟩ : ∃ q, q = 7 * 64 + op := ⟨_, rfl⟩
  obtain ⟨q2, e2⟩ : ∃ q, q = q1 * 32 + a := ⟨_, rfl⟩
  obtain ⟨q3, e3⟩ : ∃ q, q = q2 * 2 + sa := ⟨_, rfl⟩
  obtain ⟨q4, e4⟩ : ∃ q, q = q3 * 32 + b := ⟨_, rfl⟩
  obtain ⟨q5, e5⟩ : ∃ q, q = q4 * 2 + sb := ⟨_, rfl⟩
  obtain ⟨q6, e6⟩ : ∃ q, q = q5 * 4 + z := ⟨_, rfl⟩
  obtain ⟨q7, e7⟩ : ∃ q, q = q6 * 16 + ta := ⟨_, rfl⟩
  obtain ⟨q8, e8⟩ : ∃ q, q = q7 * 16 + tb := ⟨_, rfl⟩
  obtain ⟨q9, e9⟩ : ∃ q, q = q8 * 8 + pa := ⟨_, rfl⟩
  obtain ⟨q10, e10⟩ : ∃ q, q = q9 * 8 + pb := ⟨_, rfl⟩
  obtain ⟨q11, e11⟩ : ∃ q, q = q10 * 2 + ea := ⟨_, rfl⟩
  obtain ⟨q12, e12⟩ : ∃ q, q = q11 * 2 + eb := ⟨_, rfl⟩
  have hq : w = q12 * 2 ^ 25 + x := by
    rw [← hw, e12, e11, e10, e9, e8, e7, e6, e5, e4, e3, e2, e1]; ring
  have d12 : w / 2 ^ 25 = q12 := by clear hw; omega
  have h13 : w % 2 ^ 25 = x := by clear hw; omega
  clear hw hq
  have d11 : w / 2 ^ 26 = q11 := by
    rw [show (2 : Nat) ^ 26 = 2 ^ 25 * 2 from rfl, ← Nat.div_div_eq_div_mul, d12, e12]; omega
  have d10 : w / 2 ^ 27 = q10 := by
    rw [show (2 : Nat) ^ 27 = 2 ^ 26 * 2 from rfl, ← Nat.div_div_eq_div_mul, d11, e11]; omega
  have d9 : w / 2 ^ 30 = q9 := by
    rw [show (2 : Nat) ^ 30 = 2 ^ 27 * 8 from rfl, ← Nat.div_div_eq_div_mul, d10, e10]; omega
  have d8 : w / 2 ^ 33 = q8 := by
    rw [show (2 : Nat) ^ 33 = 2 ^ 30 * 8 from rfl, ← Nat.div_div_eq_div_mul, d9, e9]; omega
  have d7 : w / 2 ^ 37 = q7 := by
    rw [show (2 : Nat) ^ 37 = 2 ^ 33 * 16 from rfl, ← Nat.div_div_eq_div_mul, d8, e8]; omega
  have d6 : w / 2 ^ 41 = q6 := by
    rw [show (2 : Nat) ^ 41 = 2 ^ 37 * 16 from rfl, ← Nat.div_div_eq_div_mul, d7, e7]; omega
  have d5 : w / 2 ^ 43 = q5 := by
    rw [show (2 : Nat) ^ 43 = 2 ^ 41 * 4 from rfl, ← Nat.div_div_eq_div_mul, d6, e6]; omega
  have d4 : w / 2 ^ 44 = q4 := by
    rw [show (2 : Nat) ^ 44 = 2 ^ 43 * 2 from rfl, ← Nat.div_div_eq_div_mul, d5, e5]; omega
  have d3 : w / 2 ^ 49 = q3 := by
    rw [show (2 : Nat) ^ 49 = 2 ^ 44 * 32 from rfl, ← Nat.div_div_eq_div_mul, d4, e4]; omega
  have d2 : w / 2 ^ 50 = q2 := by
    rw [show (2 : Nat) ^ 50 = 2 ^ 49 * 2 from rfl, ← Nat.div_div_eq_div_mul, d3, e3]; omega
  have d1 : w / 2 ^ 55 = q1 := by
    rw [show (2 : Nat) ^ 55 = 2 ^ 50 * 32 from rfl, ← Nat.div_div_eq_div_mul, d2, e2]; omega
  have h0 : w / 2 ^ 61 % 8 = 7 := by
    rw [show (2 : Nat) ^ 61 = 2 ^ 55 * 64 from rfl, ← Nat.div_div_eq_div_mul, d1, e1]; omega
  have h1 : w / 2 ^ 55 % 64 = op := by rw [d1, e1]; omega
  have h2 : w / 2 ^ 50 % 32 = a := by rw [d2, e2]; omega
  have h3 : w / 2 ^ 49 % 2 = sa := by rw [d3, e3]; omega
  have h4 : w / 2 ^ 44 % 32 = b := by rw [d4, e4]; omega
  have h5 : w / 2 ^ 43 % 2 = sb := by rw [d5, e5]; omega
  have h6 : w / 2 ^ 41 % 4 = z := by rw [d6, e6]; omega
  have h7 : w / 2 ^ 37 % 16 = ta := by rw [d7, e7]; omega
  have h8 : w / 2 ^ 33 % 16 = tb := by rw [d8, e8]; omega
  have h9 : w / 2 ^ 30 % 8 = pa := by rw [d9, e9]; omega
  have h10 : w / 2 ^ 27 % 8 = pb := by rw [d10, e10]; omega
  have h11 : w / 2 ^ 26 % 2 = ea := by rw [d11, e11]; omega
  have h12 : w / 2 ^ 25 % 2 = eb := by rw [d12, e12]; omega
  unfold decode64
  rw [if_pos h0, h1, h2, h3, h4, h5, h6, h7, h8, h9, h10, h11, h12, h13]

/-- A candidate that is the well-formed instruction passes the decoder's last test. -/
theorem filter_wf {i j : Instr} (h : i = j) (hw : j.WellFormed) : (some i).filter Instr.wf = some j := by
  subst h; exact Option.filter_some_pos hw

/-- Decoding the code, or the parcels, of an encoded well-formed instruction gives it back; the code has 16, 32 or 64 bits, and
the first parcel announces how many. -/
def RoundTrip.Statement (i : Instr) : Prop :=
  ∀ c : Code, i.WellFormed → encode i = some c →
    (c.1 = 16 ∨ c.1 = 32 ∨ c.1 = 64) ∧ c.2 < 2 ^ c.1 ∧ decodeCode c = some i ∧ decodeParcels (parcelsOf c) = some i ∧
      ∃ p ps, parcelsOf c = p :: ps ∧ 16 * parcelCount p.toNat = c.1 ∧ (p :: ps).length = parcelCount p.toNat

/-- A row without an encoding. -/
theorem roundTrip_none {i : Instr} (h : encode i = none) : RoundTrip.Statement i := fun c _ hc => by rw [h] at hc; cases hc

/-- The decoder by length. -/
theorem decodeCode_16 (w : Nat) : decodeCode (16, w) = decode16 w := rfl
theorem decodeCode_32 (w : Nat) : decodeCode (32, w) = decode32 w := rfl
theorem decodeCode_64 (w : Nat) : decodeCode (64, w) = decode64 w := rfl

/-- The parcels of a code. -/
theorem parcelsOf_16 (w : Nat) : parcelsOf (16, w) = [.ofNat 16 w] := rfl
theorem parcelsOf_32 (w : Nat) : parcelsOf (32, w) = [.ofNat 16 (w / 0x10000), .ofNat 16 w] := rfl
theorem parcelsOf_64 (w : Nat) : parcelsOf (64, w) =
    [.ofNat 16 (w / 2 ^ 48), .ofNat 16 (w / 2 ^ 32), .ofNat 16 (w / 2 ^ 16), .ofNat 16 w] := rfl

/-- The decoder by the number of parcels. -/
theorem decodeParcels_one (p : BitVec 16) : decodeParcels [p] = decode16 (joinParcels [p]) := rfl
theorem decodeParcels_two (p q : BitVec 16) : decodeParcels [p, q] = decode32 (joinParcels [p, q]) := rfl
theorem decodeParcels_four (p q r s : BitVec 16) : decodeParcels [p, q, r, s] = decode64 (joinParcels [p, q, r, s]) := rfl

/-- A compact form. -/
theorem roundTrip16 {i : Instr} (w : Nat) (he : encode i = some (16, w)) (hw : w < 2 ^ 16) (hc : w / 8192 ≤ 5)
    (h : i.WellFormed → decode16 w = some i) : RoundTrip.Statement i := by
  intro c wf hc'
  rw [he, Option.some.injEq] at hc'
  subst hc'
  have e : (BitVec.ofNat 16 w).toNat = w := by rw [BitVec.toNat_ofNat]; omega
  refine ⟨.inl rfl, hw, (decodeCode_16 w).trans (h wf), ?_, .ofNat 16 w, [], parcelsOf_16 w, ?_, ?_⟩
  · rw [parcelsOf_16, decodeParcels_one]
    have : joinParcels [.ofNat 16 w] = w := by simp only [joinParcels, e, List.length_nil]; omega
    rw [this]; exact h wf
  · rw [e]; unfold parcelCount; rw [if_pos (by omega)]
  · rw [e]; unfold parcelCount; rw [if_pos (by omega)]; rfl

/-- A 32-bit instruction. -/
theorem roundTrip32 {i : Instr} (maj d a b fn : Nat) (he : encode i = some (32, word32 maj d a b fn))
    (hm : maj < 64) (hd : d < 32) (ha : a < 32) (hb : b < 32) (hf : fn < 256)
    (h : i.WellFormed → (decFields maj d a b fn).filter Instr.wf = some i) : RoundTrip.Statement i := by
  intro c wf hc'
  rw [he, Option.some.injEq] at hc'
  subst hc'
  have hd32 : decode32 (word32 maj d a b fn) = some i := by rw [decode32_word32 hm hd ha hb hf]; exact h wf
  have hw : word32 maj d a b fn < 2 ^ 32 ∧ word32 maj d a b fn / 0x20000000 = 6 := by unfold word32; omega
  revert hd32 hw
  generalize word32 maj d a b fn = w
  intro hd32 hw
  have e1 : (BitVec.ofNat 16 (w / 0x10000)).toNat = w / 0x10000 := by rw [BitVec.toNat_ofNat]; omega
  have e2 : (BitVec.ofNat 16 w).toNat = w % 2 ^ 16 := BitVec.toNat_ofNat _ _
  have hj : joinParcels [.ofNat 16 (w / 0x10000), .ofNat 16 w] = w := by
    simp only [joinParcels, e1, e2, List.length_nil, List.length_cons]; omega
  have hp : parcelCount (w / 0x10000) = 2 := by unfold parcelCount; rw [if_neg (by omega), if_pos (by omega)]
  refine ⟨.inr (.inl rfl), hw.1, (decodeCode_32 w).trans hd32, ?_, .ofNat 16 (w / 0x10000), [.ofNat 16 w], parcelsOf_32 w, ?_, ?_⟩
  · rw [parcelsOf_32, decodeParcels_two, hj]; exact hd32
  · rw [e1, hp]
  · rw [e1, hp]; rfl

/-- Four parcels of a number of 64 bits. -/
theorem parcels4 (w : Nat) (hw : w < 2 ^ 64) :
    w / 281474976710656 % 65536 * 281474976710656 +
      (w / 4294967296 % 65536 * 4294967296 + (w / 65536 % 65536 * 65536 + w % 65536)) = w := by omega

/-- A tile instruction. -/
theorem roundTrip64 {i : Instr} (op a sa b sb z ta tb pa pb ea eb x : Nat)
    (he : encode i = some (64, word64 op a sa b sb z ta tb pa pb ea eb x)) (hop : op < 64) (ha : a < 32) (hsa : sa < 2) (hb : b < 32)
    (hsb : sb < 2) (hz : z < 4) (hta : ta < 16) (htb : tb < 16) (hpa : pa < 8) (hpb : pb < 8) (hea : ea < 2) (heb : eb < 2)
    (hx : x < 2 ^ 25) (h : i.WellFormed → (decTile op a sa b sb z ta tb pa pb ea eb x).filter Instr.wf = some i) :
    RoundTrip.Statement i := by
  intro c wf hc'
  rw [he, Option.some.injEq] at hc'
  subst hc'
  have hd64 : decode64 (word64 op a sa b sb z ta tb pa pb ea eb x) = some i := by
    rw [decode64_word64 hop ha hsa hb hsb hz hta htb hpa hpb hea heb hx]; exact h wf
  have hw : word64 op a sa b sb z ta tb pa pb ea eb x < 2 ^ 64 ∧ word64 op a sa b sb z ta tb pa pb ea eb x / 2 ^ 61 = 7 := by
    have : word64 op a sa b sb z ta tb pa pb ea eb x < 8 * 2 ^ 61 ∧ 7 * 2 ^ 61 ≤ word64 op a sa b sb z ta tb pa pb ea eb x := by
      unfold word64; constructor <;> omega
    revert this; generalize word64 op a sa b sb z ta tb pa pb ea eb x = w; intro h; constructor <;> omega
  revert hd64 hw
  generalize word64 op a sa b sb z ta tb pa pb ea eb x = w
  intro hd64 hw
  have e1 : (BitVec.ofNat 16 (w / 2 ^ 48)).toNat = w / 2 ^ 48 := by rw [BitVec.toNat_ofNat]; omega
  have hj : joinParcels [.ofNat 16 (w / 2 ^ 48), .ofNat 16 (w / 2 ^ 32), .ofNat 16 (w / 2 ^ 16), .ofNat 16 w] = w := by
    have h := parcels4 w hw.1
    simp only [joinParcels, BitVec.toNat_ofNat, List.length_nil, List.length_cons, Nat.reducePow, Nat.reduceAdd]
    omega
  have hp : parcelCount (w / 2 ^ 48) = 4 := by unfold parcelCount; rw [if_neg (by omega), if_neg (by omega)]
  refine ⟨.inr (.inr rfl), hw.1, (decodeCode_64 w).trans hd64, ?_, .ofNat 16 (w / 2 ^ 48), [.ofNat 16 (w / 2 ^ 32), .ofNat 16 (w / 2 ^ 16), .ofNat 16 w],
    parcelsOf_64 w, ?_, ?_⟩
  · rw [parcelsOf_64, decodeParcels_four, hj]; exact hd64
  · rw [e1, hp]
  · rw [e1, hp]; rfl

theorem RoundTrip.add (d a b : BitVec 5) : RoundTrip.Statement (.add d a b) := by
  have := d.isLt
  have := a.isLt
  have := b.isLt
  refine roundTrip32 0x00 d.toNat a.toNat b.toNat 0 rfl (by decide) (by omega) (by omega) (by omega) (by omega) fun hw => ?_
  show (dec00 d.toNat a.toNat b.toNat 0).filter Instr.wf = _
  unfold dec00
  repeat (first | rw [if_neg (by omega)] | rw [if_pos (by omega)])
  refine filter_wf ?_ hw
  try simp only [BitVec.ofNat_toNat, BitVec.setWidth_eq]
  try congr 1 <;> (apply BitVec.eq_of_toNat_eq; simp only [BitVec.toNat_ofNat]; omega)

theorem RoundTrip.sub (d a b : BitVec 5) : RoundTrip.Statement (.sub d a b) := by
  have := d.isLt
  have := a.isLt
  have := b.isLt
  refine roundTrip32 0x00 d.toNat a.toNat b.toNat 1 rfl (by decide) (by omega) (by omega) (by omega) (by omega) fun hw => ?_
  show (dec00 d.toNat a.toNat b.toNat 1).filter Instr.wf = _
  unfold dec00
  repeat (first | rw [if_neg (by omega)] | rw [if_pos (by omega)])
  refine filter_wf ?_ hw
  try simp only [BitVec.ofNat_toNat, BitVec.setWidth_eq]
  try congr 1 <;> (apply BitVec.eq_of_toNat_eq; simp only [BitVec.toNat_ofNat]; omega)

theorem RoundTrip.and (d a b : BitVec 5) : RoundTrip.Statement (.and d a b) := by
  have := d.isLt
  have := a.isLt
  have := b.isLt
  refine roundTrip32 0x00 d.toNat a.toNat b.toNat 2 rfl (by decide) (by omega) (by omega) (by omega) (by omega) fun hw => ?_
  show (dec00 d.toNat a.toNat b.toNat 2).filter Instr.wf = _
  unfold dec00
  repeat (first | rw [if_neg (by omega)] | rw [if_pos (by omega)])
  refine filter_wf ?_ hw
  try simp only [BitVec.ofNat_toNat, BitVec.setWidth_eq]
  try congr 1 <;> (apply BitVec.eq_of_toNat_eq; simp only [BitVec.toNat_ofNat]; omega)

theorem RoundTrip.or (d a b : BitVec 5) : RoundTrip.Statement (.or d a b) := by
  have := d.isLt
  have := a.isLt
  have := b.isLt
  refine roundTrip32 0x00 d.toNat a.toNat b.toNat 3 rfl (by decide) (by omega) (by omega) (by omega) (by omega) fun hw => ?_
  show (dec00 d.toNat a.toNat b.toNat 3).filter Instr.wf = _
  unfold dec00
  repeat (first | rw [if_neg (by omega)] | rw [if_pos (by omega)])
  refine filter_wf ?_ hw
  try simp only [BitVec.ofNat_toNat, BitVec.setWidth_eq]
  try congr 1 <;> (apply BitVec.eq_of_toNat_eq; simp only [BitVec.toNat_ofNat]; omega)

theorem RoundTrip.xor (d a b : BitVec 5) : RoundTrip.Statement (.xor d a b) := by
  have := d.isLt
  have := a.isLt
  have := b.isLt
  refine roundTrip32 0x00 d.toNat a.toNat b.toNat 4 rfl (by decide) (by omega) (by omega) (by omega) (by omega) fun hw => ?_
  show (dec00 d.toNat a.toNat b.toNat 4).filter Instr.wf = _
  unfold dec00
  repeat (first | rw [if_neg (by omega)] | rw [if_pos (by omega)])
  refine filter_wf ?_ hw
  try simp only [BitVec.ofNat_toNat, BitVec.setWidth_eq]
  try congr 1 <;> (apply BitVec.eq_of_toNat_eq; simp only [BitVec.toNat_ofNat]; omega)

theorem RoundTrip.andn (d a b : BitVec 5) : RoundTrip.Statement (.andn d a b) := by
  have := d.isLt
  have := a.isLt
  have := b.isLt
  refine roundTrip32 0x00 d.toNat a.toNat b.toNat 5 rfl (by decide) (by omega) (by omega) (by omega) (by omega) fun hw => ?_
  show (dec00 d.toNat a.toNat b.toNat 5).filter Instr.wf = _
  unfold dec00
  repeat (first | rw [if_neg (by omega)] | rw [if_pos (by omega)])
  refine filter_wf ?_ hw
  try simp only [BitVec.ofNat_toNat, BitVec.setWidth_eq]
  try congr 1 <;> (apply BitVec.eq_of_toNat_eq; simp only [BitVec.toNat_ofNat]; omega)

theorem RoundTrip.sll (d a b : BitVec 5) : RoundTrip.Statement (.sll d a b) := by
  have := d.isLt
  have := a.isLt
  have := b.isLt
  refine roundTrip32 0x00 d.toNat a.toNat b.toNat 6 rfl (by decide) (by omega) (by omega) (by omega) (by omega) fun hw => ?_
  show (dec00 d.toNat a.toNat b.toNat 6).filter Instr.wf = _
  unfold dec00
  repeat (first | rw [if_neg (by omega)] | rw [if_pos (by omega)])
  refine filter_wf ?_ hw
  try simp only [BitVec.ofNat_toNat, BitVec.setWidth_eq]
  try congr 1 <;> (apply BitVec.eq_of_toNat_eq; simp only [BitVec.toNat_ofNat]; omega)

theorem RoundTrip.srl (d a b : BitVec 5) : RoundTrip.Statement (.srl d a b) := by
  have := d.isLt
  have := a.isLt
  have := b.isLt
  refine roundTrip32 0x00 d.toNat a.toNat b.toNat 7 rfl (by decide) (by omega) (by omega) (by omega) (by omega) fun hw => ?_
  show (dec00 d.toNat a.toNat b.toNat 7).filter Instr.wf = _
  unfold dec00
  repeat (first | rw [if_neg (by omega)] | rw [if_pos (by omega)])
  refine filter_wf ?_ hw
  try simp only [BitVec.ofNat_toNat, BitVec.setWidth_eq]
  try congr 1 <;> (apply BitVec.eq_of_toNat_eq; simp only [BitVec.toNat_ofNat]; omega)

theorem RoundTrip.sra (d a b : BitVec 5) : RoundTrip.Statement (.sra d a b) := by
  have := d.isLt
  have := a.isLt
  have := b.isLt
  refine roundTrip32 0x00 d.toNat a.toNat b.toNat 8 rfl (by decide) (by omega) (by omega) (by omega) (by omega) fun hw => ?_
  show (dec00 d.toNat a.toNat b.toNat 8).filter Instr.wf = _
  unfold dec00
  repeat (first | rw [if_neg (by omega)] | rw [if_pos (by omega)])
  refine filter_wf ?_ hw
  try simp only [BitVec.ofNat_toNat, BitVec.setWidth_eq]
  try congr 1 <;> (apply BitVec.eq_of_toNat_eq; simp only [BitVec.toNat_ofNat]; omega)

theorem RoundTrip.slt (d a b : BitVec 5) : RoundTrip.Statement (.slt d a b) := by
  have := d.isLt
  have := a.isLt
  have := b.isLt
  refine roundTrip32 0x00 d.toNat a.toNat b.toNat 9 rfl (by decide) (by omega) (by omega) (by omega) (by omega) fun hw => ?_
  show (dec00 d.toNat a.toNat b.toNat 9).filter Instr.wf = _
  unfold dec00
  repeat (first | rw [if_neg (by omega)] | rw [if_pos (by omega)])
  refine filter_wf ?_ hw
  try simp only [BitVec.ofNat_toNat, BitVec.setWidth_eq]
  try congr 1 <;> (apply BitVec.eq_of_toNat_eq; simp only [BitVec.toNat_ofNat]; omega)

theorem RoundTrip.sltn (d a b : BitVec 5) : RoundTrip.Statement (.sltn d a b) := by
  have := d.isLt
  have := a.isLt
  have := b.isLt
  refine roundTrip32 0x00 d.toNat a.toNat b.toNat 10 rfl (by decide) (by omega) (by omega) (by omega) (by omega) fun hw => ?_
  show (dec00 d.toNat a.toNat b.toNat 10).filter Instr.wf = _
  unfold dec00
  repeat (first | rw [if_neg (by omega)] | rw [if_pos (by omega)])
  refine filter_wf ?_ hw
  try simp only [BitVec.ofNat_toNat, BitVec.setWidth_eq]
  try congr 1 <;> (apply BitVec.eq_of_toNat_eq; simp only [BitVec.toNat_ofNat]; omega)

theorem RoundTrip.min (d a b : BitVec 5) : RoundTrip.Statement (.min d a b) := by
  have := d.isLt
  have := a.isLt
  have := b.isLt
  refine roundTrip32 0x00 d.toNat a.toNat b.toNat 11 rfl (by decide) (by omega) (by omega) (by omega) (by omega) fun hw => ?_
  show (dec00 d.toNat a.toNat b.toNat 11).filter Instr.wf = _
  unfold dec00
  repeat (first | rw [if_neg (by omega)] | rw [if_pos (by omega)])
  refine filter_wf ?_ hw
  try simp only [BitVec.ofNat_toNat, BitVec.setWidth_eq]
  try congr 1 <;> (apply BitVec.eq_of_toNat_eq; simp only [BitVec.toNat_ofNat]; omega)

theorem RoundTrip.max (d a b : BitVec 5) : RoundTrip.Statement (.max d a b) := by
  have := d.isLt
  have := a.isLt
  have := b.isLt
  refine roundTrip32 0x00 d.toNat a.toNat b.toNat 12 rfl (by decide) (by omega) (by omega) (by omega) (by omega) fun hw => ?_
  show (dec00 d.toNat a.toNat b.toNat 12).filter Instr.wf = _
  unfold dec00
  repeat (first | rw [if_neg (by omega)] | rw [if_pos (by omega)])
  refine filter_wf ?_ hw
  try simp only [BitVec.ofNat_toNat, BitVec.setWidth_eq]
  try congr 1 <;> (apply BitVec.eq_of_toNat_eq; simp only [BitVec.toNat_ofNat]; omega)

theorem RoundTrip.minn (d a b : BitVec 5) : RoundTrip.Statement (.minn d a b) := by
  have := d.isLt
  have := a.isLt
  have := b.isLt
  refine roundTrip32 0x00 d.toNat a.toNat b.toNat 13 rfl (by decide) (by omega) (by omega) (by omega) (by omega) fun hw => ?_
  show (dec00 d.toNat a.toNat b.toNat 13).filter Instr.wf = _
  unfold dec00
  repeat (first | rw [if_neg (by omega)] | rw [if_pos (by omega)])
  refine filter_wf ?_ hw
  try simp only [BitVec.ofNat_toNat, BitVec.setWidth_eq]
  try congr 1 <;> (apply BitVec.eq_of_toNat_eq; simp only [BitVec.toNat_ofNat]; omega)

theorem RoundTrip.maxn (d a b : BitVec 5) : RoundTrip.Statement (.maxn d a b) := by
  have := d.isLt
  have := a.isLt
  have := b.isLt
  refine roundTrip32 0x00 d.toNat a.toNat b.toNat 14 rfl (by decide) (by omega) (by omega) (by omega) (by omega) fun hw => ?_
  show (dec00 d.toNat a.toNat b.toNat 14).filter Instr.wf = _
  unfold dec00
  repeat (first | rw [if_neg (by omega)] | rw [if_pos (by omega)])
  refine filter_wf ?_ hw
  try simp only [BitVec.ofNat_toNat, BitVec.setWidth_eq]
  try congr 1 <;> (apply BitVec.eq_of_toNat_eq; simp only [BitVec.toNat_ofNat]; omega)

theorem RoundTrip.mul (d a b : BitVec 5) : RoundTrip.Statement (.mul d a b) := by
  have := d.isLt
  have := a.isLt
  have := b.isLt
  refine roundTrip32 0x00 d.toNat a.toNat b.toNat 16 rfl (by decide) (by omega) (by omega) (by omega) (by omega) fun hw => ?_
  show (dec00 d.toNat a.toNat b.toNat 16).filter Instr.wf = _
  unfold dec00
  repeat (first | rw [if_neg (by omega)] | rw [if_pos (by omega)])
  refine filter_wf ?_ hw
  try simp only [BitVec.ofNat_toNat, BitVec.setWidth_eq]
  try congr 1 <;> (apply BitVec.eq_of_toNat_eq; simp only [BitVec.toNat_ofNat]; omega)

theorem RoundTrip.mulh (d a b : BitVec 5) : RoundTrip.Statement (.mulh d a b) := by
  have := d.isLt
  have := a.isLt
  have := b.isLt
  refine roundTrip32 0x00 d.toNat a.toNat b.toNat 17 rfl (by decide) (by omega) (by omega) (by omega) (by omega) fun hw => ?_
  show (dec00 d.toNat a.toNat b.toNat 17).filter Instr.wf = _
  unfold dec00
  repeat (first | rw [if_neg (by omega)] | rw [if_pos (by omega)])
  refine filter_wf ?_ hw
  try simp only [BitVec.ofNat_toNat, BitVec.setWidth_eq]
  try congr 1 <;> (apply BitVec.eq_of_toNat_eq; simp only [BitVec.toNat_ofNat]; omega)

theorem RoundTrip.mulhn (d a b : BitVec 5) : RoundTrip.Statement (.mulhn d a b) := by
  have := d.isLt
  have := a.isLt
  have := b.isLt
  refine roundTrip32 0x00 d.toNat a.toNat b.toNat 18 rfl (by decide) (by omega) (by omega) (by omega) (by omega) fun hw => ?_
  show (dec00 d.toNat a.toNat b.toNat 18).filter Instr.wf = _
  unfold dec00
  repeat (first | rw [if_neg (by omega)] | rw [if_pos (by omega)])
  refine filter_wf ?_ hw
  try simp only [BitVec.ofNat_toNat, BitVec.setWidth_eq]
  try congr 1 <;> (apply BitVec.eq_of_toNat_eq; simp only [BitVec.toNat_ofNat]; omega)

theorem RoundTrip.div (d a b : BitVec 5) : RoundTrip.Statement (.div d a b) := by
  have := d.isLt
  have := a.isLt
  have := b.isLt
  refine roundTrip32 0x00 d.toNat a.toNat b.toNat 19 rfl (by decide) (by omega) (by omega) (by omega) (by omega) fun hw => ?_
  show (dec00 d.toNat a.toNat b.toNat 19).filter Instr.wf = _
  unfold dec00
  repeat (first | rw [if_neg (by omega)] | rw [if_pos (by omega)])
  refine filter_wf ?_ hw
  try simp only [BitVec.ofNat_toNat, BitVec.setWidth_eq]
  try congr 1 <;> (apply BitVec.eq_of_toNat_eq; simp only [BitVec.toNat_ofNat]; omega)

theorem RoundTrip.divn (d a b : BitVec 5) : RoundTrip.Statement (.divn d a b) := by
  have := d.isLt
  have := a.isLt
  have := b.isLt
  refine roundTrip32 0x00 d.toNat a.toNat b.toNat 20 rfl (by decide) (by omega) (by omega) (by omega) (by omega) fun hw => ?_
  show (dec00 d.toNat a.toNat b.toNat 20).filter Instr.wf = _
  unfold dec00
  repeat (first | rw [if_neg (by omega)] | rw [if_pos (by omega)])
  refine filter_wf ?_ hw
  try simp only [BitVec.ofNat_toNat, BitVec.setWidth_eq]
  try congr 1 <;> (apply BitVec.eq_of_toNat_eq; simp only [BitVec.toNat_ofNat]; omega)

theorem RoundTrip.rem (d a b : BitVec 5) : RoundTrip.Statement (.rem d a b) := by
  have := d.isLt
  have := a.isLt
  have := b.isLt
  refine roundTrip32 0x00 d.toNat a.toNat b.toNat 21 rfl (by decide) (by omega) (by omega) (by omega) (by omega) fun hw => ?_
  show (dec00 d.toNat a.toNat b.toNat 21).filter Instr.wf = _
  unfold dec00
  repeat (first | rw [if_neg (by omega)] | rw [if_pos (by omega)])
  refine filter_wf ?_ hw
  try simp only [BitVec.ofNat_toNat, BitVec.setWidth_eq]
  try congr 1 <;> (apply BitVec.eq_of_toNat_eq; simp only [BitVec.toNat_ofNat]; omega)

theorem RoundTrip.remn (d a b : BitVec 5) : RoundTrip.Statement (.remn d a b) := by
  have := d.isLt
  have := a.isLt
  have := b.isLt
  refine roundTrip32 0x00 d.toNat a.toNat b.toNat 22 rfl (by decide) (by omega) (by omega) (by omega) (by omega) fun hw => ?_
  show (dec00 d.toNat a.toNat b.toNat 22).filter Instr.wf = _
  unfold dec00
  repeat (first | rw [if_neg (by omega)] | rw [if_pos (by omega)])
  refine filter_wf ?_ hw
  try simp only [BitVec.ofNat_toNat, BitVec.setWidth_eq]
  try congr 1 <;> (apply BitVec.eq_of_toNat_eq; simp only [BitVec.toNat_ofNat]; omega)

theorem RoundTrip.clz (d a : BitVec 5) : RoundTrip.Statement (.clz d a) := by
  have := d.isLt
  have := a.isLt
  refine roundTrip32 0x00 d.toNat a.toNat 0 24 rfl (by decide) (by omega) (by omega) (by omega) (by omega) fun hw => ?_
  show (dec00 d.toNat a.toNat 0 24).filter Instr.wf = _
  unfold dec00
  repeat (first | rw [if_neg (by omega)] | rw [if_pos (by omega)])
  refine filter_wf ?_ hw
  try simp only [BitVec.ofNat_toNat, BitVec.setWidth_eq]
  try congr 1 <;> (apply BitVec.eq_of_toNat_eq; simp only [BitVec.toNat_ofNat]; omega)

theorem RoundTrip.popc (d a : BitVec 5) : RoundTrip.Statement (.popc d a) := by
  have := d.isLt
  have := a.isLt
  refine roundTrip32 0x00 d.toNat a.toNat 0 25 rfl (by decide) (by omega) (by omega) (by omega) (by omega) fun hw => ?_
  show (dec00 d.toNat a.toNat 0 25).filter Instr.wf = _
  unfold dec00
  repeat (first | rw [if_neg (by omega)] | rw [if_pos (by omega)])
  refine filter_wf ?_ hw
  try simp only [BitVec.ofNat_toNat, BitVec.setWidth_eq]
  try congr 1 <;> (apply BitVec.eq_of_toNat_eq; simp only [BitVec.toNat_ofNat]; omega)

theorem RoundTrip.sext (d a w : BitVec 5) : RoundTrip.Statement (.sext d a w) := by
  have := d.isLt
  have := a.isLt
  have := w.isLt
  refine roundTrip32 0x00 d.toNat a.toNat w.toNat 26 rfl (by decide) (by omega) (by omega) (by omega) (by omega) fun hw => ?_
  show (dec00 d.toNat a.toNat w.toNat 26).filter Instr.wf = _
  unfold dec00
  repeat (first | rw [if_neg (by omega)] | rw [if_pos (by omega)])
  refine filter_wf ?_ hw
  try simp only [BitVec.ofNat_toNat, BitVec.setWidth_eq]
  try congr 1 <;> (apply BitVec.eq_of_toNat_eq; simp only [BitVec.toNat_ofNat]; omega)

theorem RoundTrip.zext (d a w : BitVec 5) : RoundTrip.Statement (.zext d a w) := by
  have := d.isLt
  have := a.isLt
  have := w.isLt
  refine roundTrip32 0x00 d.toNat a.toNat w.toNat 27 rfl (by decide) (by omega) (by omega) (by omega) (by omega) fun hw => ?_
  show (dec00 d.toNat a.toNat w.toNat 27).filter Instr.wf = _
  unfold dec00
  repeat (first | rw [if_neg (by omega)] | rw [if_pos (by omega)])
  refine filter_wf ?_ hw
  try simp only [BitVec.ofNat_toNat, BitVec.setWidth_eq]
  try congr 1 <;> (apply BitVec.eq_of_toNat_eq; simp only [BitVec.toNat_ofNat]; omega)

theorem RoundTrip.addi (d a : BitVec 5) (i : BitVec 13) : RoundTrip.Statement (.addi d a i) := by
  have := d.isLt
  have := a.isLt
  have := i.isLt
  refine roundTrip32 0x01 d.toNat a.toNat (i.toNat / 256) (i.toNat % 256) rfl (by decide) (by omega) (by omega) (by omega) (by omega) fun hw => ?_
  show (dec01 d.toNat a.toNat (i.toNat / 256) (i.toNat % 256)).filter Instr.wf = _
  unfold dec01
  repeat (first | rw [if_neg (by omega)] | rw [if_pos (by omega)])
  refine filter_wf ?_ hw
  try simp only [BitVec.ofNat_toNat, BitVec.setWidth_eq]
  try congr 1 <;> (apply BitVec.eq_of_toNat_eq; simp only [BitVec.toNat_ofNat]; omega)

theorem RoundTrip.andi (d a : BitVec 5) (i : BitVec 11) : RoundTrip.Statement (.andi d a i) := by
  have := d.isLt
  have := a.isLt
  have := i.isLt
  refine roundTrip32 0x02 d.toNat a.toNat (i.toNat / 256) (i.toNat % 256) rfl (by decide) (by omega) (by omega) (by omega) (by omega) fun hw => ?_
  show (dec02 d.toNat a.toNat (i.toNat / 256) (i.toNat % 256)).filter Instr.wf = _
  unfold dec02
  repeat (first | rw [if_neg (by omega)] | rw [if_pos (by omega)])
  refine filter_wf ?_ hw
  try simp only [BitVec.ofNat_toNat, BitVec.setWidth_eq]
  try congr 1 <;> (apply BitVec.eq_of_toNat_eq; simp only [BitVec.toNat_ofNat]; omega)

theorem RoundTrip.ori (d a : BitVec 5) (i : BitVec 11) : RoundTrip.Statement (.ori d a i) := by
  have := d.isLt
  have := a.isLt
  have := i.isLt
  refine roundTrip32 0x02 d.toNat a.toNat (i.toNat / 256 + 8) (i.toNat % 256) rfl (by decide) (by omega) (by omega) (by omega) (by omega) fun hw => ?_
  show (dec02 d.toNat a.toNat (i.toNat / 256 + 8) (i.toNat % 256)).filter Instr.wf = _
  unfold dec02
  repeat (first | rw [if_neg (by omega)] | rw [if_pos (by omega)])
  refine filter_wf ?_ hw
  try simp only [BitVec.ofNat_toNat, BitVec.setWidth_eq]
  try congr 1 <;> (apply BitVec.eq_of_toNat_eq; simp only [BitVec.toNat_ofNat]; omega)

theorem RoundTrip.xori (d a : BitVec 5) (i : BitVec 11) : RoundTrip.Statement (.xori d a i) := by
  have := d.isLt
  have := a.isLt
  have := i.isLt
  refine roundTrip32 0x02 d.toNat a.toNat (i.toNat / 256 + 16) (i.toNat % 256) rfl (by decide) (by omega) (by omega) (by omega) (by omega) fun hw => ?_
  show (dec02 d.toNat a.toNat (i.toNat / 256 + 16) (i.toNat % 256)).filter Instr.wf = _
  unfold dec02
  repeat (first | rw [if_neg (by omega)] | rw [if_pos (by omega)])
  refine filter_wf ?_ hw
  try simp only [BitVec.ofNat_toNat, BitVec.setWidth_eq]
  try congr 1 <;> (apply BitVec.eq_of_toNat_eq; simp only [BitVec.toNat_ofNat]; omega)

theorem RoundTrip.slti (d a : BitVec 5) (i : BitVec 12) : RoundTrip.Statement (.slti d a i) := by
  have := d.isLt
  have := a.isLt
  have := i.isLt
  refine roundTrip32 0x03 d.toNat a.toNat (i.toNat / 256) (i.toNat % 256) rfl (by decide) (by omega) (by omega) (by omega) (by omega) fun hw => ?_
  show (dec03 d.toNat a.toNat (i.toNat / 256) (i.toNat % 256)).filter Instr.wf = _
  unfold dec03
  repeat (first | rw [if_neg (by omega)] | rw [if_pos (by omega)])
  refine filter_wf ?_ hw
  try simp only [BitVec.ofNat_toNat, BitVec.setWidth_eq]
  try congr 1 <;> (apply BitVec.eq_of_toNat_eq; simp only [BitVec.toNat_ofNat]; omega)

theorem RoundTrip.sltni (d a : BitVec 5) (i : BitVec 12) : RoundTrip.Statement (.sltni d a i) := by
  have := d.isLt
  have := a.isLt
  have := i.isLt
  refine roundTrip32 0x03 d.toNat a.toNat (i.toNat / 256 + 16) (i.toNat % 256) rfl (by decide) (by omega) (by omega) (by omega) (by omega) fun hw => ?_
  show (dec03 d.toNat a.toNat (i.toNat / 256 + 16) (i.toNat % 256)).filter Instr.wf = _
  unfold dec03
  repeat (first | rw [if_neg (by omega)] | rw [if_pos (by omega)])
  refine filter_wf ?_ hw
  try simp only [BitVec.ofNat_toNat, BitVec.setWidth_eq]
  try congr 1 <;> (apply BitVec.eq_of_toNat_eq; simp only [BitVec.toNat_ofNat]; omega)

theorem RoundTrip.slli (d a : BitVec 5) (n : BitVec 6) : RoundTrip.Statement (.slli d a n) := by
  have := d.isLt
  have := a.isLt
  have := n.isLt
  refine roundTrip32 0x04 d.toNat a.toNat 0 n.toNat rfl (by decide) (by omega) (by omega) (by omega) (by omega) fun hw => ?_
  show (dec04 d.toNat a.toNat 0 n.toNat).filter Instr.wf = _
  unfold dec04
  repeat (first | rw [if_neg (by omega)] | rw [if_pos (by omega)])
  refine filter_wf ?_ hw
  try simp only [BitVec.ofNat_toNat, BitVec.setWidth_eq]
  try congr 1 <;> (apply BitVec.eq_of_toNat_eq; simp only [BitVec.toNat_ofNat]; omega)

theorem RoundTrip.srli (d a : BitVec 5) (n : BitVec 6) : RoundTrip.Statement (.srli d a n) := by
  have := d.isLt
  have := a.isLt
  have := n.isLt
  refine roundTrip32 0x04 d.toNat a.toNat 8 n.toNat rfl (by decide) (by omega) (by omega) (by omega) (by omega) fun hw => ?_
  show (dec04 d.toNat a.toNat 8 n.toNat).filter Instr.wf = _
  unfold dec04
  repeat (first | rw [if_neg (by omega)] | rw [if_pos (by omega)])
  refine filter_wf ?_ hw
  try simp only [BitVec.ofNat_toNat, BitVec.setWidth_eq]
  try congr 1 <;> (apply BitVec.eq_of_toNat_eq; simp only [BitVec.toNat_ofNat]; omega)

theorem RoundTrip.srai (d a : BitVec 5) (n : BitVec 6) : RoundTrip.Statement (.srai d a n) := by
  have := d.isLt
  have := a.isLt
  have := n.isLt
  refine roundTrip32 0x04 d.toNat a.toNat 16 n.toNat rfl (by decide) (by omega) (by omega) (by omega) (by omega) fun hw => ?_
  show (dec04 d.toNat a.toNat 16 n.toNat).filter Instr.wf = _
  unfold dec04
  repeat (first | rw [if_neg (by omega)] | rw [if_pos (by omega)])
  refine filter_wf ?_ hw
  try simp only [BitVec.ofNat_toNat, BitVec.setWidth_eq]
  try congr 1 <;> (apply BitVec.eq_of_toNat_eq; simp only [BitVec.toNat_ofNat]; omega)

theorem RoundTrip.lih (d : BitVec 5) (i : BitVec 18) : RoundTrip.Statement (.lih d i) := by
  have := d.isLt
  have := i.isLt
  refine roundTrip32 0x05 d.toNat (i.toNat / 8192) (i.toNat / 256 % 32) (i.toNat % 256) rfl (by decide) (by omega) (by omega) (by omega) (by omega) fun hw => ?_
  show (dec05 d.toNat (i.toNat / 8192) (i.toNat / 256 % 32) (i.toNat % 256)).filter Instr.wf = _
  unfold dec05
  repeat (first | rw [if_neg (by omega)] | rw [if_pos (by omega)])
  refine filter_wf ?_ hw
  try simp only [BitVec.ofNat_toNat, BitVec.setWidth_eq]
  try congr 1 <;> (apply BitVec.eq_of_toNat_eq; simp only [BitVec.toNat_ofNat]; omega)

theorem RoundTrip.addpc (d : BitVec 5) (i : BitVec 18) : RoundTrip.Statement (.addpc d i) := by
  have := d.isLt
  have := i.isLt
  refine roundTrip32 0x06 d.toNat (i.toNat / 8192) (i.toNat / 256 % 32) (i.toNat % 256) rfl (by decide) (by omega) (by omega) (by omega) (by omega) fun hw => ?_
  show (dec06 d.toNat (i.toNat / 8192) (i.toNat / 256 % 32) (i.toNat % 256)).filter Instr.wf = _
  unfold dec06
  repeat (first | rw [if_neg (by omega)] | rw [if_pos (by omega)])
  refine filter_wf ?_ hw
  try simp only [BitVec.ofNat_toNat, BitVec.setWidth_eq]
  try congr 1 <;> (apply BitVec.eq_of_toNat_eq; simp only [BitVec.toNat_ofNat]; omega)

theorem RoundTrip.xform (a b : BitVec 5) (k : BitVec 3) (e : BitVec 1) : RoundTrip.Statement (.xform a b k e) := by
  have := a.isLt
  have := b.isLt
  have := k.isLt
  have := e.isLt
  refine roundTrip32 0x07 (a.toNat / 16) ((a.toNat % 16) * 2 + b.toNat / 16) ((b.toNat % 16) * 2) (k.toNat * 2 + e.toNat) rfl (by decide) (by omega) (by omega) (by omega) (by omega) fun hw => ?_
  show (dec07 (a.toNat / 16) ((a.toNat % 16) * 2 + b.toNat / 16) ((b.toNat % 16) * 2) (k.toNat * 2 + e.toNat)).filter Instr.wf = _
  unfold dec07
  repeat (first | rw [if_neg (by omega)] | rw [if_pos (by omega)])
  refine filter_wf ?_ hw
  try simp only [BitVec.ofNat_toNat, BitVec.setWidth_eq]
  try congr 1 <;> (apply BitVec.eq_of_toNat_eq; simp only [BitVec.toNat_ofNat]; omega)

theorem RoundTrip.xshift (a b : BitVec 5) : RoundTrip.Statement (.xshift a b) := by
  have := a.isLt
  have := b.isLt
  refine roundTrip32 0x07 (a.toNat / 16 + 2) ((a.toNat % 16) * 2 + b.toNat / 16) ((b.toNat % 16) * 2) 0 rfl (by decide) (by omega) (by omega) (by omega) (by omega) fun hw => ?_
  show (dec07 (a.toNat / 16 + 2) ((a.toNat % 16) * 2 + b.toNat / 16) ((b.toNat % 16) * 2) 0).filter Instr.wf = _
  unfold dec07
  repeat (first | rw [if_neg (by omega)] | rw [if_pos (by omega)])
  refine filter_wf ?_ hw
  try simp only [BitVec.ofNat_toNat, BitVec.setWidth_eq]
  try congr 1 <;> (apply BitVec.eq_of_toNat_eq; simp only [BitVec.toNat_ofNat]; omega)

theorem RoundTrip.xtoloc (a b : BitVec 5) : RoundTrip.Statement (.xtoloc a b) := by
  have := a.isLt
  have := b.isLt
  refine roundTrip32 0x07 (a.toNat / 16 + 4) ((a.toNat % 16) * 2 + b.toNat / 16) ((b.toNat % 16) * 2) 0 rfl (by decide) (by omega) (by omega) (by omega) (by omega) fun hw => ?_
  show (dec07 (a.toNat / 16 + 4) ((a.toNat % 16) * 2 + b.toNat / 16) ((b.toNat % 16) * 2) 0).filter Instr.wf = _
  unfold dec07
  repeat (first | rw [if_neg (by omega)] | rw [if_pos (by omega)])
  refine filter_wf ?_ hw
  try simp only [BitVec.ofNat_toNat, BitVec.setWidth_eq]
  try congr 1 <;> (apply BitVec.eq_of_toNat_eq; simp only [BitVec.toNat_ofNat]; omega)

theorem RoundTrip.xlshift (a b : BitVec 5) : RoundTrip.Statement (.xlshift a b) := by
  have := a.isLt
  have := b.isLt
  refine roundTrip32 0x07 (a.toNat / 16 + 6) ((a.toNat % 16) * 2 + b.toNat / 16) ((b.toNat % 16) * 2) 0 rfl (by decide) (by omega) (by omega) (by omega) (by omega) fun hw => ?_
  show (dec07 (a.toNat / 16 + 6) ((a.toNat % 16) * 2 + b.toNat / 16) ((b.toNat % 16) * 2) 0).filter Instr.wf = _
  unfold dec07
  repeat (first | rw [if_neg (by omega)] | rw [if_pos (by omega)])
  refine filter_wf ?_ hw
  try simp only [BitVec.ofNat_toNat, BitVec.setWidth_eq]
  try congr 1 <;> (apply BitVec.eq_of_toNat_eq; simp only [BitVec.toNat_ofNat]; omega)

theorem RoundTrip.xeval (a b c : BitVec 5) (k : BitVec 3) (e : BitVec 1) : RoundTrip.Statement (.xeval a b c k e) := by
  have := a.isLt
  have := b.isLt
  have := c.isLt
  have := k.isLt
  have := e.isLt
  refine roundTrip32 0x07 (a.toNat / 16 + 8) ((a.toNat % 16) * 2 + b.toNat / 16) ((b.toNat % 16) * 2 + c.toNat / 16) ((c.toNat % 16) * 16 + k.toNat * 2 + e.toNat) rfl (by decide) (by omega) (by omega) (by omega) (by omega) fun hw => ?_
  show (dec07 (a.toNat / 16 + 8) ((a.toNat % 16) * 2 + b.toNat / 16) ((b.toNat % 16) * 2 + c.toNat / 16) ((c.toNat % 16) * 16 + k.toNat * 2 + e.toNat)).filter Instr.wf = _
  unfold dec07
  repeat (first | rw [if_neg (by omega)] | rw [if_pos (by omega)])
  refine filter_wf ?_ hw
  try simp only [BitVec.ofNat_toNat, BitVec.setWidth_eq]
  try congr 1 <;> (apply BitVec.eq_of_toNat_eq; simp only [BitVec.toNat_ofNat]; omega)

theorem RoundTrip.xadmit (a b c : BitVec 5) (k : BitVec 3) (e : BitVec 1) : RoundTrip.Statement (.xadmit a b c k e) := by
  have := a.isLt
  have := b.isLt
  have := c.isLt
  have := k.isLt
  have := e.isLt
  refine roundTrip32 0x07 (a.toNat / 16 + 10) ((a.toNat % 16) * 2 + b.toNat / 16) ((b.toNat % 16) * 2 + c.toNat / 16) ((c.toNat % 16) * 16 + k.toNat * 2 + e.toNat) rfl (by decide) (by omega) (by omega) (by omega) (by omega) fun hw => ?_
  show (dec07 (a.toNat / 16 + 10) ((a.toNat % 16) * 2 + b.toNat / 16) ((b.toNat % 16) * 2 + c.toNat / 16) ((c.toNat % 16) * 16 + k.toNat * 2 + e.toNat)).filter Instr.wf = _
  unfold dec07
  repeat (first | rw [if_neg (by omega)] | rw [if_pos (by omega)])
  refine filter_wf ?_ hw
  try simp only [BitVec.ofNat_toNat, BitVec.setWidth_eq]
  try congr 1 <;> (apply BitVec.eq_of_toNat_eq; simp only [BitVec.toNat_ofNat]; omega)

theorem RoundTrip.xdirect (a b c : BitVec 5) (k : BitVec 3) (e : BitVec 1) : RoundTrip.Statement (.xdirect a b c k e) := by
  have := a.isLt
  have := b.isLt
  have := c.isLt
  have := k.isLt
  have := e.isLt
  refine roundTrip32 0x07 (a.toNat / 16 + 12) ((a.toNat % 16) * 2 + b.toNat / 16) ((b.toNat % 16) * 2 + c.toNat / 16) ((c.toNat % 16) * 16 + k.toNat * 2 + e.toNat) rfl (by decide) (by omega) (by omega) (by omega) (by omega) fun hw => ?_
  show (dec07 (a.toNat / 16 + 12) ((a.toNat % 16) * 2 + b.toNat / 16) ((b.toNat % 16) * 2 + c.toNat / 16) ((c.toNat % 16) * 16 + k.toNat * 2 + e.toNat)).filter Instr.wf = _
  unfold dec07
  repeat (first | rw [if_neg (by omega)] | rw [if_pos (by omega)])
  refine filter_wf ?_ hw
  try simp only [BitVec.ofNat_toNat, BitVec.setWidth_eq]
  try congr 1 <;> (apply BitVec.eq_of_toNat_eq; simp only [BitVec.toNat_ofNat]; omega)

theorem RoundTrip.xld (a b : BitVec 5) : RoundTrip.Statement (.xld a b) := by
  have := a.isLt
  have := b.isLt
  refine roundTrip32 0x07 (a.toNat / 16 + 14) ((a.toNat % 16) * 2 + b.toNat / 16) ((b.toNat % 16) * 2) 0 rfl (by decide) (by omega) (by omega) (by omega) (by omega) fun hw => ?_
  show (dec07 (a.toNat / 16 + 14) ((a.toNat % 16) * 2 + b.toNat / 16) ((b.toNat % 16) * 2) 0).filter Instr.wf = _
  unfold dec07
  repeat (first | rw [if_neg (by omega)] | rw [if_pos (by omega)])
  refine filter_wf ?_ hw
  try simp only [BitVec.ofNat_toNat, BitVec.setWidth_eq]
  try congr 1 <;> (apply BitVec.eq_of_toNat_eq; simp only [BitVec.toNat_ofNat]; omega)

theorem RoundTrip.xst (a b : BitVec 5) : RoundTrip.Statement (.xst a b) := by
  have := a.isLt
  have := b.isLt
  refine roundTrip32 0x07 (a.toNat / 16 + 16) ((a.toNat % 16) * 2 + b.toNat / 16) ((b.toNat % 16) * 2) 0 rfl (by decide) (by omega) (by omega) (by omega) (by omega) fun hw => ?_
  show (dec07 (a.toNat / 16 + 16) ((a.toNat % 16) * 2 + b.toNat / 16) ((b.toNat % 16) * 2) 0).filter Instr.wf = _
  unfold dec07
  repeat (first | rw [if_neg (by omega)] | rw [if_pos (by omega)])
  refine filter_wf ?_ hw
  try simp only [BitVec.ofNat_toNat, BitVec.setWidth_eq]
  try congr 1 <;> (apply BitVec.eq_of_toNat_eq; simp only [BitVec.toNat_ofNat]; omega)

theorem RoundTrip.xzero (a b c : BitVec 5) : RoundTrip.Statement (.xzero a b c) := by
  have := a.isLt
  have := b.isLt
  have := c.isLt
  refine roundTrip32 0x07 (a.toNat / 16 + 18) ((a.toNat % 16) * 2 + b.toNat / 16) ((b.toNat % 16) * 2 + c.toNat / 16) ((c.toNat % 16) * 16) rfl (by decide) (by omega) (by omega) (by omega) (by omega) fun hw => ?_
  show (dec07 (a.toNat / 16 + 18) ((a.toNat % 16) * 2 + b.toNat / 16) ((b.toNat % 16) * 2 + c.toNat / 16) ((c.toNat % 16) * 16)).filter Instr.wf = _
  unfold dec07
  repeat (first | rw [if_neg (by omega)] | rw [if_pos (by omega)])
  refine filter_wf ?_ hw
  try simp only [BitVec.ofNat_toNat, BitVec.setWidth_eq]
  try congr 1 <;> (apply BitVec.eq_of_toNat_eq; simp only [BitVec.toNat_ofNat]; omega)

theorem RoundTrip.xord (a b : BitVec 5) : RoundTrip.Statement (.xord a b) := by
  have := a.isLt
  have := b.isLt
  refine roundTrip32 0x07 (a.toNat / 16 + 20) ((a.toNat % 16) * 2 + b.toNat / 16) ((b.toNat % 16) * 2) 0 rfl (by decide) (by omega) (by omega) (by omega) (by omega) fun hw => ?_
  show (dec07 (a.toNat / 16 + 20) ((a.toNat % 16) * 2 + b.toNat / 16) ((b.toNat % 16) * 2) 0).filter Instr.wf = _
  unfold dec07
  repeat (first | rw [if_neg (by omega)] | rw [if_pos (by omega)])
  refine filter_wf ?_ hw
  try simp only [BitVec.ofNat_toNat, BitVec.setWidth_eq]
  try congr 1 <;> (apply BitVec.eq_of_toNat_eq; simp only [BitVec.toNat_ofNat]; omega)

theorem RoundTrip.xevalg (a b c : BitVec 5) (k : BitVec 3) (e : BitVec 1) : RoundTrip.Statement (.xevalg a b c k e) := by
  have := a.isLt
  have := b.isLt
  have := c.isLt
  have := k.isLt
  have := e.isLt
  refine roundTrip32 0x07 (a.toNat / 16 + 22) ((a.toNat % 16) * 2 + b.toNat / 16) ((b.toNat % 16) * 2 + c.toNat / 16) ((c.toNat % 16) * 16 + k.toNat * 2 + e.toNat) rfl (by decide) (by omega) (by omega) (by omega) (by omega) fun hw => ?_
  show (dec07 (a.toNat / 16 + 22) ((a.toNat % 16) * 2 + b.toNat / 16) ((b.toNat % 16) * 2 + c.toNat / 16) ((c.toNat % 16) * 16 + k.toNat * 2 + e.toNat)).filter Instr.wf = _
  unfold dec07
  repeat (first | rw [if_neg (by omega)] | rw [if_pos (by omega)])
  refine filter_wf ?_ hw
  try simp only [BitVec.ofNat_toNat, BitVec.setWidth_eq]
  try congr 1 <;> (apply BitVec.eq_of_toNat_eq; simp only [BitVec.toNat_ofNat]; omega)

theorem RoundTrip.fadd (d a b : BitVec 5) : RoundTrip.Statement (.fadd d a b) := by
  have := d.isLt
  have := a.isLt
  have := b.isLt
  refine roundTrip32 0x08 d.toNat a.toNat b.toNat 0 rfl (by decide) (by omega) (by omega) (by omega) (by omega) fun hw => ?_
  show (dec08 d.toNat a.toNat b.toNat 0).filter Instr.wf = _
  unfold dec08
  repeat (first | rw [if_neg (by omega)] | rw [if_pos (by omega)])
  refine filter_wf ?_ hw
  try simp only [BitVec.ofNat_toNat, BitVec.setWidth_eq]
  try congr 1 <;> (apply BitVec.eq_of_toNat_eq; simp only [BitVec.toNat_ofNat]; omega)

theorem RoundTrip.fsub (d a b : BitVec 5) : RoundTrip.Statement (.fsub d a b) := by
  have := d.isLt
  have := a.isLt
  have := b.isLt
  refine roundTrip32 0x08 d.toNat a.toNat b.toNat 1 rfl (by decide) (by omega) (by omega) (by omega) (by omega) fun hw => ?_
  show (dec08 d.toNat a.toNat b.toNat 1).filter Instr.wf = _
  unfold dec08
  repeat (first | rw [if_neg (by omega)] | rw [if_pos (by omega)])
  refine filter_wf ?_ hw
  try simp only [BitVec.ofNat_toNat, BitVec.setWidth_eq]
  try congr 1 <;> (apply BitVec.eq_of_toNat_eq; simp only [BitVec.toNat_ofNat]; omega)

theorem RoundTrip.fmul (d a b : BitVec 5) : RoundTrip.Statement (.fmul d a b) := by
  have := d.isLt
  have := a.isLt
  have := b.isLt
  refine roundTrip32 0x08 d.toNat a.toNat b.toNat 2 rfl (by decide) (by omega) (by omega) (by omega) (by omega) fun hw => ?_
  show (dec08 d.toNat a.toNat b.toNat 2).filter Instr.wf = _
  unfold dec08
  repeat (first | rw [if_neg (by omega)] | rw [if_pos (by omega)])
  refine filter_wf ?_ hw
  try simp only [BitVec.ofNat_toNat, BitVec.setWidth_eq]
  try congr 1 <;> (apply BitVec.eq_of_toNat_eq; simp only [BitVec.toNat_ofNat]; omega)

theorem RoundTrip.fdiv (d a b : BitVec 5) : RoundTrip.Statement (.fdiv d a b) := by
  have := d.isLt
  have := a.isLt
  have := b.isLt
  refine roundTrip32 0x08 d.toNat a.toNat b.toNat 3 rfl (by decide) (by omega) (by omega) (by omega) (by omega) fun hw => ?_
  show (dec08 d.toNat a.toNat b.toNat 3).filter Instr.wf = _
  unfold dec08
  repeat (first | rw [if_neg (by omega)] | rw [if_pos (by omega)])
  refine filter_wf ?_ hw
  try simp only [BitVec.ofNat_toNat, BitVec.setWidth_eq]
  try congr 1 <;> (apply BitVec.eq_of_toNat_eq; simp only [BitVec.toNat_ofNat]; omega)

theorem RoundTrip.fsqrt (d a : BitVec 5) : RoundTrip.Statement (.fsqrt d a) := by
  have := d.isLt
  have := a.isLt
  refine roundTrip32 0x08 d.toNat a.toNat 0 4 rfl (by decide) (by omega) (by omega) (by omega) (by omega) fun hw => ?_
  show (dec08 d.toNat a.toNat 0 4).filter Instr.wf = _
  unfold dec08
  repeat (first | rw [if_neg (by omega)] | rw [if_pos (by omega)])
  refine filter_wf ?_ hw
  try simp only [BitVec.ofNat_toNat, BitVec.setWidth_eq]
  try congr 1 <;> (apply BitVec.eq_of_toNat_eq; simp only [BitVec.toNat_ofNat]; omega)

theorem RoundTrip.fmin (d a b : BitVec 5) : RoundTrip.Statement (.fmin d a b) := by
  have := d.isLt
  have := a.isLt
  have := b.isLt
  refine roundTrip32 0x08 d.toNat a.toNat b.toNat 5 rfl (by decide) (by omega) (by omega) (by omega) (by omega) fun hw => ?_
  show (dec08 d.toNat a.toNat b.toNat 5).filter Instr.wf = _
  unfold dec08
  repeat (first | rw [if_neg (by omega)] | rw [if_pos (by omega)])
  refine filter_wf ?_ hw
  try simp only [BitVec.ofNat_toNat, BitVec.setWidth_eq]
  try congr 1 <;> (apply BitVec.eq_of_toNat_eq; simp only [BitVec.toNat_ofNat]; omega)

theorem RoundTrip.fmax (d a b : BitVec 5) : RoundTrip.Statement (.fmax d a b) := by
  have := d.isLt
  have := a.isLt
  have := b.isLt
  refine roundTrip32 0x08 d.toNat a.toNat b.toNat 6 rfl (by decide) (by omega) (by omega) (by omega) (by omega) fun hw => ?_
  show (dec08 d.toNat a.toNat b.toNat 6).filter Instr.wf = _
  unfold dec08
  repeat (first | rw [if_neg (by omega)] | rw [if_pos (by omega)])
  refine filter_wf ?_ hw
  try simp only [BitVec.ofNat_toNat, BitVec.setWidth_eq]
  try congr 1 <;> (apply BitVec.eq_of_toNat_eq; simp only [BitVec.toNat_ofNat]; omega)

theorem RoundTrip.feq (d a b : BitVec 5) : RoundTrip.Statement (.feq d a b) := by
  have := d.isLt
  have := a.isLt
  have := b.isLt
  refine roundTrip32 0x08 d.toNat a.toNat b.toNat 8 rfl (by decide) (by omega) (by omega) (by omega) (by omega) fun hw => ?_
  show (dec08 d.toNat a.toNat b.toNat 8).filter Instr.wf = _
  unfold dec08
  repeat (first | rw [if_neg (by omega)] | rw [if_pos (by omega)])
  refine filter_wf ?_ hw
  try simp only [BitVec.ofNat_toNat, BitVec.setWidth_eq]
  try congr 1 <;> (apply BitVec.eq_of_toNat_eq; simp only [BitVec.toNat_ofNat]; omega)

theorem RoundTrip.flt (d a b : BitVec 5) : RoundTrip.Statement (.flt d a b) := by
  have := d.isLt
  have := a.isLt
  have := b.isLt
  refine roundTrip32 0x08 d.toNat a.toNat b.toNat 9 rfl (by decide) (by omega) (by omega) (by omega) (by omega) fun hw => ?_
  show (dec08 d.toNat a.toNat b.toNat 9).filter Instr.wf = _
  unfold dec08
  repeat (first | rw [if_neg (by omega)] | rw [if_pos (by omega)])
  refine filter_wf ?_ hw
  try simp only [BitVec.ofNat_toNat, BitVec.setWidth_eq]
  try congr 1 <;> (apply BitVec.eq_of_toNat_eq; simp only [BitVec.toNat_ofNat]; omega)

theorem RoundTrip.fle (d a b : BitVec 5) : RoundTrip.Statement (.fle d a b) := by
  have := d.isLt
  have := a.isLt
  have := b.isLt
  refine roundTrip32 0x08 d.toNat a.toNat b.toNat 10 rfl (by decide) (by omega) (by omega) (by omega) (by omega) fun hw => ?_
  show (dec08 d.toNat a.toNat b.toNat 10).filter Instr.wf = _
  unfold dec08
  repeat (first | rw [if_neg (by omega)] | rw [if_pos (by omega)])
  refine filter_wf ?_ hw
  try simp only [BitVec.ofNat_toNat, BitVec.setWidth_eq]
  try congr 1 <;> (apply BitVec.eq_of_toNat_eq; simp only [BitVec.toNat_ofNat]; omega)

theorem RoundTrip.fcvtFS (d a : BitVec 5) : RoundTrip.Statement (.fcvtFS d a) := by
  have := d.isLt
  have := a.isLt
  refine roundTrip32 0x08 d.toNat a.toNat 0 12 rfl (by decide) (by omega) (by omega) (by omega) (by omega) fun hw => ?_
  show (dec08 d.toNat a.toNat 0 12).filter Instr.wf = _
  unfold dec08
  repeat (first | rw [if_neg (by omega)] | rw [if_pos (by omega)])
  refine filter_wf ?_ hw
  try simp only [BitVec.ofNat_toNat, BitVec.setWidth_eq]
  try congr 1 <;> (apply BitVec.eq_of_toNat_eq; simp only [BitVec.toNat_ofNat]; omega)

theorem RoundTrip.fcvtSF (d a : BitVec 5) : RoundTrip.Statement (.fcvtSF d a) := by
  have := d.isLt
  have := a.isLt
  refine roundTrip32 0x08 d.toNat a.toNat 0 13 rfl (by decide) (by omega) (by omega) (by omega) (by omega) fun hw => ?_
  show (dec08 d.toNat a.toNat 0 13).filter Instr.wf = _
  unfold dec08
  repeat (first | rw [if_neg (by omega)] | rw [if_pos (by omega)])
  refine filter_wf ?_ hw
  try simp only [BitVec.ofNat_toNat, BitVec.setWidth_eq]
  try congr 1 <;> (apply BitVec.eq_of_toNat_eq; simp only [BitVec.toNat_ofNat]; omega)

theorem RoundTrip.fcvtFH (d a : BitVec 5) : RoundTrip.Statement (.fcvtFH d a) := by
  have := d.isLt
  have := a.isLt
  refine roundTrip32 0x08 d.toNat a.toNat 0 14 rfl (by decide) (by omega) (by omega) (by omega) (by omega) fun hw => ?_
  show (dec08 d.toNat a.toNat 0 14).filter Instr.wf = _
  unfold dec08
  repeat (first | rw [if_neg (by omega)] | rw [if_pos (by omega)])
  refine filter_wf ?_ hw
  try simp only [BitVec.ofNat_toNat, BitVec.setWidth_eq]
  try congr 1 <;> (apply BitVec.eq_of_toNat_eq; simp only [BitVec.toNat_ofNat]; omega)

theorem RoundTrip.fcvtFBf (d a : BitVec 5) : RoundTrip.Statement (.fcvtFBf d a) := by
  have := d.isLt
  have := a.isLt
  refine roundTrip32 0x08 d.toNat a.toNat 1 14 rfl (by decide) (by omega) (by omega) (by omega) (by omega) fun hw => ?_
  show (dec08 d.toNat a.toNat 1 14).filter Instr.wf = _
  unfold dec08
  repeat (first | rw [if_neg (by omega)] | rw [if_pos (by omega)])
  refine filter_wf ?_ hw
  try simp only [BitVec.ofNat_toNat, BitVec.setWidth_eq]
  try congr 1 <;> (apply BitVec.eq_of_toNat_eq; simp only [BitVec.toNat_ofNat]; omega)

theorem RoundTrip.fcvtHF (d a : BitVec 5) : RoundTrip.Statement (.fcvtHF d a) := by
  have := d.isLt
  have := a.isLt
  refine roundTrip32 0x08 d.toNat a.toNat 0 15 rfl (by decide) (by omega) (by omega) (by omega) (by omega) fun hw => ?_
  show (dec08 d.toNat a.toNat 0 15).filter Instr.wf = _
  unfold dec08
  repeat (first | rw [if_neg (by omega)] | rw [if_pos (by omega)])
  refine filter_wf ?_ hw
  try simp only [BitVec.ofNat_toNat, BitVec.setWidth_eq]
  try congr 1 <;> (apply BitVec.eq_of_toNat_eq; simp only [BitVec.toNat_ofNat]; omega)

theorem RoundTrip.fcvtBfF (d a : BitVec 5) : RoundTrip.Statement (.fcvtBfF d a) := by
  have := d.isLt
  have := a.isLt
  refine roundTrip32 0x08 d.toNat a.toNat 1 15 rfl (by decide) (by omega) (by omega) (by omega) (by omega) fun hw => ?_
  show (dec08 d.toNat a.toNat 1 15).filter Instr.wf = _
  unfold dec08
  repeat (first | rw [if_neg (by omega)] | rw [if_pos (by omega)])
  refine filter_wf ?_ hw
  try simp only [BitVec.ofNat_toNat, BitVec.setWidth_eq]
  try congr 1 <;> (apply BitVec.eq_of_toNat_eq; simp only [BitVec.toNat_ofNat]; omega)

theorem RoundTrip.fclass (d a : BitVec 5) : RoundTrip.Statement (.fclass d a) := by
  have := d.isLt
  have := a.isLt
  refine roundTrip32 0x08 d.toNat a.toNat 0 16 rfl (by decide) (by omega) (by omega) (by omega) (by omega) fun hw => ?_
  show (dec08 d.toNat a.toNat 0 16).filter Instr.wf = _
  unfold dec08
  repeat (first | rw [if_neg (by omega)] | rw [if_pos (by omega)])
  refine filter_wf ?_ hw
  try simp only [BitVec.ofNat_toNat, BitVec.setWidth_eq]
  try congr 1 <;> (apply BitVec.eq_of_toNat_eq; simp only [BitVec.toNat_ofNat]; omega)

theorem RoundTrip.ffma (d a b c : BitVec 5) : RoundTrip.Statement (.ffma d a b c) := by
  have := d.isLt
  have := a.isLt
  have := b.isLt
  have := c.isLt
  refine roundTrip32 0x09 d.toNat a.toNat b.toNat (c.toNat * 8) rfl (by decide) (by omega) (by omega) (by omega) (by omega) fun hw => ?_
  show (dec09 d.toNat a.toNat b.toNat (c.toNat * 8)).filter Instr.wf = _
  unfold dec09
  repeat (first | rw [if_neg (by omega)] | rw [if_pos (by omega)])
  refine filter_wf ?_ hw
  try simp only [BitVec.ofNat_toNat, BitVec.setWidth_eq]
  try congr 1 <;> (apply BitVec.eq_of_toNat_eq; simp only [BitVec.toNat_ofNat]; omega)

theorem RoundTrip.ffms (d a b c : BitVec 5) : RoundTrip.Statement (.ffms d a b c) := by
  have := d.isLt
  have := a.isLt
  have := b.isLt
  have := c.isLt
  refine roundTrip32 0x09 d.toNat a.toNat b.toNat (c.toNat * 8 + 1) rfl (by decide) (by omega) (by omega) (by omega) (by omega) fun hw => ?_
  show (dec09 d.toNat a.toNat b.toNat (c.toNat * 8 + 1)).filter Instr.wf = _
  unfold dec09
  repeat (first | rw [if_neg (by omega)] | rw [if_pos (by omega)])
  refine filter_wf ?_ hw
  try simp only [BitVec.ofNat_toNat, BitVec.setWidth_eq]
  try congr 1 <;> (apply BitVec.eq_of_toNat_eq; simp only [BitVec.toNat_ofNat]; omega)

theorem RoundTrip.fnma (d a b c : BitVec 5) : RoundTrip.Statement (.fnma d a b c) := by
  have := d.isLt
  have := a.isLt
  have := b.isLt
  have := c.isLt
  refine roundTrip32 0x09 d.toNat a.toNat b.toNat (c.toNat * 8 + 2) rfl (by decide) (by omega) (by omega) (by omega) (by omega) fun hw => ?_
  show (dec09 d.toNat a.toNat b.toNat (c.toNat * 8 + 2)).filter Instr.wf = _
  unfold dec09
  repeat (first | rw [if_neg (by omega)] | rw [if_pos (by omega)])
  refine filter_wf ?_ hw
  try simp only [BitVec.ofNat_toNat, BitVec.setWidth_eq]
  try congr 1 <;> (apply BitVec.eq_of_toNat_eq; simp only [BitVec.toNat_ofNat]; omega)

theorem RoundTrip.fnms (d a b c : BitVec 5) : RoundTrip.Statement (.fnms d a b c) := by
  have := d.isLt
  have := a.isLt
  have := b.isLt
  have := c.isLt
  refine roundTrip32 0x09 d.toNat a.toNat b.toNat (c.toNat * 8 + 3) rfl (by decide) (by omega) (by omega) (by omega) (by omega) fun hw => ?_
  show (dec09 d.toNat a.toNat b.toNat (c.toNat * 8 + 3)).filter Instr.wf = _
  unfold dec09
  repeat (first | rw [if_neg (by omega)] | rw [if_pos (by omega)])
  refine filter_wf ?_ hw
  try simp only [BitVec.ofNat_toNat, BitVec.setWidth_eq]
  try congr 1 <;> (apply BitVec.eq_of_toNat_eq; simp only [BitVec.toNat_ofNat]; omega)

theorem RoundTrip.beq (a b : BitVec 5) (o : BitVec 13) : RoundTrip.Statement (.beq a b o) := by
  have := a.isLt
  have := b.isLt
  have := o.isLt
  refine roundTrip32 0x0A a.toNat b.toNat (o.toNat / 256) (o.toNat % 256) rfl (by decide) (by omega) (by omega) (by omega) (by omega) fun hw => ?_
  show (dec0A a.toNat b.toNat (o.toNat / 256) (o.toNat % 256)).filter Instr.wf = _
  unfold dec0A
  repeat (first | rw [if_neg (by omega)] | rw [if_pos (by omega)])
  refine filter_wf ?_ hw
  try simp only [BitVec.ofNat_toNat, BitVec.setWidth_eq]
  try congr 1 <;> (apply BitVec.eq_of_toNat_eq; simp only [BitVec.toNat_ofNat]; omega)

theorem RoundTrip.bne (a b : BitVec 5) (o : BitVec 13) : RoundTrip.Statement (.bne a b o) := by
  have := a.isLt
  have := b.isLt
  have := o.isLt
  refine roundTrip32 0x0B a.toNat b.toNat (o.toNat / 256) (o.toNat % 256) rfl (by decide) (by omega) (by omega) (by omega) (by omega) fun hw => ?_
  show (dec0B a.toNat b.toNat (o.toNat / 256) (o.toNat % 256)).filter Instr.wf = _
  unfold dec0B
  repeat (first | rw [if_neg (by omega)] | rw [if_pos (by omega)])
  refine filter_wf ?_ hw
  try simp only [BitVec.ofNat_toNat, BitVec.setWidth_eq]
  try congr 1 <;> (apply BitVec.eq_of_toNat_eq; simp only [BitVec.toNat_ofNat]; omega)

theorem RoundTrip.blt (a b : BitVec 5) (o : BitVec 13) : RoundTrip.Statement (.blt a b o) := by
  have := a.isLt
  have := b.isLt
  have := o.isLt
  refine roundTrip32 0x0C a.toNat b.toNat (o.toNat / 256) (o.toNat % 256) rfl (by decide) (by omega) (by omega) (by omega) (by omega) fun hw => ?_
  show (dec0C a.toNat b.toNat (o.toNat / 256) (o.toNat % 256)).filter Instr.wf = _
  unfold dec0C
  repeat (first | rw [if_neg (by omega)] | rw [if_pos (by omega)])
  refine filter_wf ?_ hw
  try simp only [BitVec.ofNat_toNat, BitVec.setWidth_eq]
  try congr 1 <;> (apply BitVec.eq_of_toNat_eq; simp only [BitVec.toNat_ofNat]; omega)

theorem RoundTrip.bge (a b : BitVec 5) (o : BitVec 13) : RoundTrip.Statement (.bge a b o) := by
  have := a.isLt
  have := b.isLt
  have := o.isLt
  refine roundTrip32 0x0D a.toNat b.toNat (o.toNat / 256) (o.toNat % 256) rfl (by decide) (by omega) (by omega) (by omega) (by omega) fun hw => ?_
  show (dec0D a.toNat b.toNat (o.toNat / 256) (o.toNat % 256)).filter Instr.wf = _
  unfold dec0D
  repeat (first | rw [if_neg (by omega)] | rw [if_pos (by omega)])
  refine filter_wf ?_ hw
  try simp only [BitVec.ofNat_toNat, BitVec.setWidth_eq]
  try congr 1 <;> (apply BitVec.eq_of_toNat_eq; simp only [BitVec.toNat_ofNat]; omega)

theorem RoundTrip.bltn (a b : BitVec 5) (o : BitVec 13) : RoundTrip.Statement (.bltn a b o) := by
  have := a.isLt
  have := b.isLt
  have := o.isLt
  refine roundTrip32 0x0E a.toNat b.toNat (o.toNat / 256) (o.toNat % 256) rfl (by decide) (by omega) (by omega) (by omega) (by omega) fun hw => ?_
  show (dec0E a.toNat b.toNat (o.toNat / 256) (o.toNat % 256)).filter Instr.wf = _
  unfold dec0E
  repeat (first | rw [if_neg (by omega)] | rw [if_pos (by omega)])
  refine filter_wf ?_ hw
  try simp only [BitVec.ofNat_toNat, BitVec.setWidth_eq]
  try congr 1 <;> (apply BitVec.eq_of_toNat_eq; simp only [BitVec.toNat_ofNat]; omega)

theorem RoundTrip.bgen (a b : BitVec 5) (o : BitVec 13) : RoundTrip.Statement (.bgen a b o) := by
  have := a.isLt
  have := b.isLt
  have := o.isLt
  refine roundTrip32 0x0F a.toNat b.toNat (o.toNat / 256) (o.toNat % 256) rfl (by decide) (by omega) (by omega) (by omega) (by omega) fun hw => ?_
  show (dec0F a.toNat b.toNat (o.toNat / 256) (o.toNat % 256)).filter Instr.wf = _
  unfold dec0F
  repeat (first | rw [if_neg (by omega)] | rw [if_pos (by omega)])
  refine filter_wf ?_ hw
  try simp only [BitVec.ofNat_toNat, BitVec.setWidth_eq]
  try congr 1 <;> (apply BitVec.eq_of_toNat_eq; simp only [BitVec.toNat_ofNat]; omega)

theorem RoundTrip.jal (d : BitVec 5) (o : BitVec 18) : RoundTrip.Statement (.jal d o) := by
  have := d.isLt
  have := o.isLt
  refine roundTrip32 0x10 d.toNat (o.toNat / 8192) (o.toNat / 256 % 32) (o.toNat % 256) rfl (by decide) (by omega) (by omega) (by omega) (by omega) fun hw => ?_
  show (dec10 d.toNat (o.toNat / 8192) (o.toNat / 256 % 32) (o.toNat % 256)).filter Instr.wf = _
  unfold dec10
  repeat (first | rw [if_neg (by omega)] | rw [if_pos (by omega)])
  refine filter_wf ?_ hw
  try simp only [BitVec.ofNat_toNat, BitVec.setWidth_eq]
  try congr 1 <;> (apply BitVec.eq_of_toNat_eq; simp only [BitVec.toNat_ofNat]; omega)

theorem RoundTrip.jalr (d a : BitVec 5) (i : BitVec 13) : RoundTrip.Statement (.jalr d a i) := by
  have := d.isLt
  have := a.isLt
  have := i.isLt
  refine roundTrip32 0x11 d.toNat a.toNat (i.toNat / 256) (i.toNat % 256) rfl (by decide) (by omega) (by omega) (by omega) (by omega) fun hw => ?_
  show (dec11 d.toNat a.toNat (i.toNat / 256) (i.toNat % 256)).filter Instr.wf = _
  unfold dec11
  repeat (first | rw [if_neg (by omega)] | rw [if_pos (by omega)])
  refine filter_wf ?_ hw
  try simp only [BitVec.ofNat_toNat, BitVec.setWidth_eq]
  try congr 1 <;> (apply BitVec.eq_of_toNat_eq; simp only [BitVec.toNat_ofNat]; omega)

theorem RoundTrip.lds (g b : BitVec 5) (w : BitVec 3) (i : BitVec 10) : RoundTrip.Statement (.lds g b w i) := by
  have := g.isLt
  have := b.isLt
  have := w.isLt
  have := i.isLt
  refine roundTrip32 0x12 g.toNat b.toNat (w.toNat * 4 + i.toNat / 256) (i.toNat % 256) rfl (by decide) (by omega) (by omega) (by omega) (by omega) fun hw => ?_
  show (dec12 g.toNat b.toNat (w.toNat * 4 + i.toNat / 256) (i.toNat % 256)).filter Instr.wf = _
  unfold dec12
  repeat (first | rw [if_neg (by omega)] | rw [if_pos (by omega)])
  refine filter_wf ?_ hw
  try simp only [BitVec.ofNat_toNat, BitVec.setWidth_eq]
  try congr 1 <;> (apply BitVec.eq_of_toNat_eq; simp only [BitVec.toNat_ofNat]; omega)

theorem RoundTrip.sts (g b : BitVec 5) (w : BitVec 3) (i : BitVec 10) : RoundTrip.Statement (.sts g b w i) := by
  have := g.isLt
  have := b.isLt
  have := w.isLt
  have := i.isLt
  refine roundTrip32 0x13 g.toNat b.toNat (w.toNat * 4 + i.toNat / 256) (i.toNat % 256) rfl (by decide) (by omega) (by omega) (by omega) (by omega) fun hw => ?_
  show (dec13 g.toNat b.toNat (w.toNat * 4 + i.toNat / 256) (i.toNat % 256)).filter Instr.wf = _
  unfold dec13
  repeat (first | rw [if_neg (by omega)] | rw [if_pos (by omega)])
  refine filter_wf ?_ hw
  try simp only [BitVec.ofNat_toNat, BitVec.setWidth_eq]
  try congr 1 <;> (apply BitVec.eq_of_toNat_eq; simp only [BitVec.toNat_ofNat]; omega)

theorem RoundTrip.ldo (d a : BitVec 5) (o : BitVec 2) (s x : BitVec 3) : RoundTrip.Statement (.ldo d a o s x) := by
  have := d.isLt
  have := a.isLt
  have := o.isLt
  have := s.isLt
  have := x.isLt
  refine roundTrip32 0x14 d.toNat a.toNat 0 (o.toNat * 64 + s.toNat * 8 + x.toNat) rfl (by decide) (by omega) (by omega) (by omega) (by omega) fun hw => ?_
  show (dec14 d.toNat a.toNat 0 (o.toNat * 64 + s.toNat * 8 + x.toNat)).filter Instr.wf = _
  unfold dec14
  repeat (first | rw [if_neg (by omega)] | rw [if_pos (by omega)])
  refine filter_wf ?_ hw
  try simp only [BitVec.ofNat_toNat, BitVec.setWidth_eq]
  try congr 1 <;> (apply BitVec.eq_of_toNat_eq; simp only [BitVec.toNat_ofNat]; omega)

theorem RoundTrip.sto (a b : BitVec 5) (o : BitVec 2) (s x : BitVec 3) : RoundTrip.Statement (.sto a b o s x) := by
  have := a.isLt
  have := b.isLt
  have := o.isLt
  have := s.isLt
  have := x.isLt
  refine roundTrip32 0x15 0 a.toNat b.toNat (o.toNat * 64 + s.toNat * 8 + x.toNat) rfl (by decide) (by omega) (by omega) (by omega) (by omega) fun hw => ?_
  show (dec15 0 a.toNat b.toNat (o.toNat * 64 + s.toNat * 8 + x.toNat)).filter Instr.wf = _
  unfold dec15
  repeat (first | rw [if_neg (by omega)] | rw [if_pos (by omega)])
  refine filter_wf ?_ hw
  try simp only [BitVec.ofNat_toNat, BitVec.setWidth_eq]
  try congr 1 <;> (apply BitVec.eq_of_toNat_eq; simp only [BitVec.toNat_ofNat]; omega)

theorem RoundTrip.amoAdd (d a b : BitVec 5) (o : BitVec 2) (s : BitVec 3) : RoundTrip.Statement (.amoAdd d a b o s) := by
  have := d.isLt
  have := a.isLt
  have := b.isLt
  have := o.isLt
  have := s.isLt
  refine roundTrip32 0x16 d.toNat a.toNat b.toNat (o.toNat * 64 + s.toNat * 8) rfl (by decide) (by omega) (by omega) (by omega) (by omega) fun hw => ?_
  show (dec16 d.toNat a.toNat b.toNat (o.toNat * 64 + s.toNat * 8)).filter Instr.wf = _
  unfold dec16
  repeat (first | rw [if_neg (by omega)] | rw [if_pos (by omega)])
  refine filter_wf ?_ hw
  try simp only [BitVec.ofNat_toNat, BitVec.setWidth_eq]
  try congr 1 <;> (apply BitVec.eq_of_toNat_eq; simp only [BitVec.toNat_ofNat]; omega)

theorem RoundTrip.amoAnd (d a b : BitVec 5) (o : BitVec 2) (s : BitVec 3) : RoundTrip.Statement (.amoAnd d a b o s) := by
  have := d.isLt
  have := a.isLt
  have := b.isLt
  have := o.isLt
  have := s.isLt
  refine roundTrip32 0x16 d.toNat a.toNat b.toNat (o.toNat * 64 + s.toNat * 8 + 1) rfl (by decide) (by omega) (by omega) (by omega) (by omega) fun hw => ?_
  show (dec16 d.toNat a.toNat b.toNat (o.toNat * 64 + s.toNat * 8 + 1)).filter Instr.wf = _
  unfold dec16
  repeat (first | rw [if_neg (by omega)] | rw [if_pos (by omega)])
  refine filter_wf ?_ hw
  try simp only [BitVec.ofNat_toNat, BitVec.setWidth_eq]
  try congr 1 <;> (apply BitVec.eq_of_toNat_eq; simp only [BitVec.toNat_ofNat]; omega)

theorem RoundTrip.amoOr (d a b : BitVec 5) (o : BitVec 2) (s : BitVec 3) : RoundTrip.Statement (.amoOr d a b o s) := by
  have := d.isLt
  have := a.isLt
  have := b.isLt
  have := o.isLt
  have := s.isLt
  refine roundTrip32 0x16 d.toNat a.toNat b.toNat (o.toNat * 64 + s.toNat * 8 + 2) rfl (by decide) (by omega) (by omega) (by omega) (by omega) fun hw => ?_
  show (dec16 d.toNat a.toNat b.toNat (o.toNat * 64 + s.toNat * 8 + 2)).filter Instr.wf = _
  unfold dec16
  repeat (first | rw [if_neg (by omega)] | rw [if_pos (by omega)])
  refine filter_wf ?_ hw
  try simp only [BitVec.ofNat_toNat, BitVec.setWidth_eq]
  try congr 1 <;> (apply BitVec.eq_of_toNat_eq; simp only [BitVec.toNat_ofNat]; omega)

theorem RoundTrip.amoXor (d a b : BitVec 5) (o : BitVec 2) (s : BitVec 3) : RoundTrip.Statement (.amoXor d a b o s) := by
  have := d.isLt
  have := a.isLt
  have := b.isLt
  have := o.isLt
  have := s.isLt
  refine roundTrip32 0x16 d.toNat a.toNat b.toNat (o.toNat * 64 + s.toNat * 8 + 3) rfl (by decide) (by omega) (by omega) (by omega) (by omega) fun hw => ?_
  show (dec16 d.toNat a.toNat b.toNat (o.toNat * 64 + s.toNat * 8 + 3)).filter Instr.wf = _
  unfold dec16
  repeat (first | rw [if_neg (by omega)] | rw [if_pos (by omega)])
  refine filter_wf ?_ hw
  try simp only [BitVec.ofNat_toNat, BitVec.setWidth_eq]
  try congr 1 <;> (apply BitVec.eq_of_toNat_eq; simp only [BitVec.toNat_ofNat]; omega)

theorem RoundTrip.amoMin (d a b : BitVec 5) (o : BitVec 2) (s : BitVec 3) : RoundTrip.Statement (.amoMin d a b o s) := by
  have := d.isLt
  have := a.isLt
  have := b.isLt
  have := o.isLt
  have := s.isLt
  refine roundTrip32 0x16 d.toNat a.toNat b.toNat (o.toNat * 64 + s.toNat * 8 + 4) rfl (by decide) (by omega) (by omega) (by omega) (by omega) fun hw => ?_
  show (dec16 d.toNat a.toNat b.toNat (o.toNat * 64 + s.toNat * 8 + 4)).filter Instr.wf = _
  unfold dec16
  repeat (first | rw [if_neg (by omega)] | rw [if_pos (by omega)])
  refine filter_wf ?_ hw
  try simp only [BitVec.ofNat_toNat, BitVec.setWidth_eq]
  try congr 1 <;> (apply BitVec.eq_of_toNat_eq; simp only [BitVec.toNat_ofNat]; omega)

theorem RoundTrip.amoMax (d a b : BitVec 5) (o : BitVec 2) (s : BitVec 3) : RoundTrip.Statement (.amoMax d a b o s) := by
  have := d.isLt
  have := a.isLt
  have := b.isLt
  have := o.isLt
  have := s.isLt
  refine roundTrip32 0x16 d.toNat a.toNat b.toNat (o.toNat * 64 + s.toNat * 8 + 5) rfl (by decide) (by omega) (by omega) (by omega) (by omega) fun hw => ?_
  show (dec16 d.toNat a.toNat b.toNat (o.toNat * 64 + s.toNat * 8 + 5)).filter Instr.wf = _
  unfold dec16
  repeat (first | rw [if_neg (by omega)] | rw [if_pos (by omega)])
  refine filter_wf ?_ hw
  try simp only [BitVec.ofNat_toNat, BitVec.setWidth_eq]
  try congr 1 <;> (apply BitVec.eq_of_toNat_eq; simp only [BitVec.toNat_ofNat]; omega)

theorem RoundTrip.amoSwap (d a b : BitVec 5) (o : BitVec 2) (s : BitVec 3) : RoundTrip.Statement (.amoSwap d a b o s) := by
  have := d.isLt
  have := a.isLt
  have := b.isLt
  have := o.isLt
  have := s.isLt
  refine roundTrip32 0x16 d.toNat a.toNat b.toNat (o.toNat * 64 + s.toNat * 8 + 6) rfl (by decide) (by omega) (by omega) (by omega) (by omega) fun hw => ?_
  show (dec16 d.toNat a.toNat b.toNat (o.toNat * 64 + s.toNat * 8 + 6)).filter Instr.wf = _
  unfold dec16
  repeat (first | rw [if_neg (by omega)] | rw [if_pos (by omega)])
  refine filter_wf ?_ hw
  try simp only [BitVec.ofNat_toNat, BitVec.setWidth_eq]
  try congr 1 <;> (apply BitVec.eq_of_toNat_eq; simp only [BitVec.toNat_ofNat]; omega)

theorem RoundTrip.amoCas (d a b : BitVec 5) (o : BitVec 2) (s : BitVec 3) : RoundTrip.Statement (.amoCas d a b o s) := by
  have := d.isLt
  have := a.isLt
  have := b.isLt
  have := o.isLt
  have := s.isLt
  refine roundTrip32 0x16 d.toNat a.toNat b.toNat (o.toNat * 64 + s.toNat * 8 + 7) rfl (by decide) (by omega) (by omega) (by omega) (by omega) fun hw => ?_
  show (dec16 d.toNat a.toNat b.toNat (o.toNat * 64 + s.toNat * 8 + 7)).filter Instr.wf = _
  unfold dec16
  repeat (first | rw [if_neg (by omega)] | rw [if_pos (by omega)])
  refine filter_wf ?_ hw
  try simp only [BitVec.ofNat_toNat, BitVec.setWidth_eq]
  try congr 1 <;> (apply BitVec.eq_of_toNat_eq; simp only [BitVec.toNat_ofNat]; omega)

theorem RoundTrip.amowAdd (d a b : BitVec 5) (o : BitVec 2) (s : BitVec 3) : RoundTrip.Statement (.amowAdd d a b o s) := by
  have := d.isLt
  have := a.isLt
  have := b.isLt
  have := o.isLt
  have := s.isLt
  refine roundTrip32 0x17 d.toNat a.toNat b.toNat (o.toNat * 64 + s.toNat * 8) rfl (by decide) (by omega) (by omega) (by omega) (by omega) fun hw => ?_
  show (dec17 d.toNat a.toNat b.toNat (o.toNat * 64 + s.toNat * 8)).filter Instr.wf = _
  unfold dec17
  repeat (first | rw [if_neg (by omega)] | rw [if_pos (by omega)])
  refine filter_wf ?_ hw
  try simp only [BitVec.ofNat_toNat, BitVec.setWidth_eq]
  try congr 1 <;> (apply BitVec.eq_of_toNat_eq; simp only [BitVec.toNat_ofNat]; omega)

theorem RoundTrip.amowAnd (d a b : BitVec 5) (o : BitVec 2) (s : BitVec 3) : RoundTrip.Statement (.amowAnd d a b o s) := by
  have := d.isLt
  have := a.isLt
  have := b.isLt
  have := o.isLt
  have := s.isLt
  refine roundTrip32 0x17 d.toNat a.toNat b.toNat (o.toNat * 64 + s.toNat * 8 + 1) rfl (by decide) (by omega) (by omega) (by omega) (by omega) fun hw => ?_
  show (dec17 d.toNat a.toNat b.toNat (o.toNat * 64 + s.toNat * 8 + 1)).filter Instr.wf = _
  unfold dec17
  repeat (first | rw [if_neg (by omega)] | rw [if_pos (by omega)])
  refine filter_wf ?_ hw
  try simp only [BitVec.ofNat_toNat, BitVec.setWidth_eq]
  try congr 1 <;> (apply BitVec.eq_of_toNat_eq; simp only [BitVec.toNat_ofNat]; omega)

theorem RoundTrip.amowOr (d a b : BitVec 5) (o : BitVec 2) (s : BitVec 3) : RoundTrip.Statement (.amowOr d a b o s) := by
  have := d.isLt
  have := a.isLt
  have := b.isLt
  have := o.isLt
  have := s.isLt
  refine roundTrip32 0x17 d.toNat a.toNat b.toNat (o.toNat * 64 + s.toNat * 8 + 2) rfl (by decide) (by omega) (by omega) (by omega) (by omega) fun hw => ?_
  show (dec17 d.toNat a.toNat b.toNat (o.toNat * 64 + s.toNat * 8 + 2)).filter Instr.wf = _
  unfold dec17
  repeat (first | rw [if_neg (by omega)] | rw [if_pos (by omega)])
  refine filter_wf ?_ hw
  try simp only [BitVec.ofNat_toNat, BitVec.setWidth_eq]
  try congr 1 <;> (apply BitVec.eq_of_toNat_eq; simp only [BitVec.toNat_ofNat]; omega)

theorem RoundTrip.amowXor (d a b : BitVec 5) (o : BitVec 2) (s : BitVec 3) : RoundTrip.Statement (.amowXor d a b o s) := by
  have := d.isLt
  have := a.isLt
  have := b.isLt
  have := o.isLt
  have := s.isLt
  refine roundTrip32 0x17 d.toNat a.toNat b.toNat (o.toNat * 64 + s.toNat * 8 + 3) rfl (by decide) (by omega) (by omega) (by omega) (by omega) fun hw => ?_
  show (dec17 d.toNat a.toNat b.toNat (o.toNat * 64 + s.toNat * 8 + 3)).filter Instr.wf = _
  unfold dec17
  repeat (first | rw [if_neg (by omega)] | rw [if_pos (by omega)])
  refine filter_wf ?_ hw
  try simp only [BitVec.ofNat_toNat, BitVec.setWidth_eq]
  try congr 1 <;> (apply BitVec.eq_of_toNat_eq; simp only [BitVec.toNat_ofNat]; omega)

theorem RoundTrip.amowMin (d a b : BitVec 5) (o : BitVec 2) (s : BitVec 3) : RoundTrip.Statement (.amowMin d a b o s) := by
  have := d.isLt
  have := a.isLt
  have := b.isLt
  have := o.isLt
  have := s.isLt
  refine roundTrip32 0x17 d.toNat a.toNat b.toNat (o.toNat * 64 + s.toNat * 8 + 4) rfl (by decide) (by omega) (by omega) (by omega) (by omega) fun hw => ?_
  show (dec17 d.toNat a.toNat b.toNat (o.toNat * 64 + s.toNat * 8 + 4)).filter Instr.wf = _
  unfold dec17
  repeat (first | rw [if_neg (by omega)] | rw [if_pos (by omega)])
  refine filter_wf ?_ hw
  try simp only [BitVec.ofNat_toNat, BitVec.setWidth_eq]
  try congr 1 <;> (apply BitVec.eq_of_toNat_eq; simp only [BitVec.toNat_ofNat]; omega)

theorem RoundTrip.amowMax (d a b : BitVec 5) (o : BitVec 2) (s : BitVec 3) : RoundTrip.Statement (.amowMax d a b o s) := by
  have := d.isLt
  have := a.isLt
  have := b.isLt
  have := o.isLt
  have := s.isLt
  refine roundTrip32 0x17 d.toNat a.toNat b.toNat (o.toNat * 64 + s.toNat * 8 + 5) rfl (by decide) (by omega) (by omega) (by omega) (by omega) fun hw => ?_
  show (dec17 d.toNat a.toNat b.toNat (o.toNat * 64 + s.toNat * 8 + 5)).filter Instr.wf = _
  unfold dec17
  repeat (first | rw [if_neg (by omega)] | rw [if_pos (by omega)])
  refine filter_wf ?_ hw
  try simp only [BitVec.ofNat_toNat, BitVec.setWidth_eq]
  try congr 1 <;> (apply BitVec.eq_of_toNat_eq; simp only [BitVec.toNat_ofNat]; omega)

theorem RoundTrip.amowSwap (d a b : BitVec 5) (o : BitVec 2) (s : BitVec 3) : RoundTrip.Statement (.amowSwap d a b o s) := by
  have := d.isLt
  have := a.isLt
  have := b.isLt
  have := o.isLt
  have := s.isLt
  refine roundTrip32 0x17 d.toNat a.toNat b.toNat (o.toNat * 64 + s.toNat * 8 + 6) rfl (by decide) (by omega) (by omega) (by omega) (by omega) fun hw => ?_
  show (dec17 d.toNat a.toNat b.toNat (o.toNat * 64 + s.toNat * 8 + 6)).filter Instr.wf = _
  unfold dec17
  repeat (first | rw [if_neg (by omega)] | rw [if_pos (by omega)])
  refine filter_wf ?_ hw
  try simp only [BitVec.ofNat_toNat, BitVec.setWidth_eq]
  try congr 1 <;> (apply BitVec.eq_of_toNat_eq; simp only [BitVec.toNat_ofNat]; omega)

theorem RoundTrip.amowCas (d a b : BitVec 5) (o : BitVec 2) (s : BitVec 3) : RoundTrip.Statement (.amowCas d a b o s) := by
  have := d.isLt
  have := a.isLt
  have := b.isLt
  have := o.isLt
  have := s.isLt
  refine roundTrip32 0x17 d.toNat a.toNat b.toNat (o.toNat * 64 + s.toNat * 8 + 7) rfl (by decide) (by omega) (by omega) (by omega) (by omega) fun hw => ?_
  show (dec17 d.toNat a.toNat b.toNat (o.toNat * 64 + s.toNat * 8 + 7)).filter Instr.wf = _
  unfold dec17
  repeat (first | rw [if_neg (by omega)] | rw [if_pos (by omega)])
  refine filter_wf ?_ hw
  try simp only [BitVec.ofNat_toNat, BitVec.setWidth_eq]
  try congr 1 <;> (apply BitVec.eq_of_toNat_eq; simp only [BitVec.toNat_ofNat]; omega)

theorem RoundTrip.fence (o : BitVec 2) (s : BitVec 3) : RoundTrip.Statement (.fence o s) := by
  have := o.isLt
  have := s.isLt
  refine roundTrip32 0x18 0 0 0 (o.toNat * 64 + s.toNat * 8) rfl (by decide) (by omega) (by omega) (by omega) (by omega) fun hw => ?_
  show (dec18 0 0 0 (o.toNat * 64 + s.toNat * 8)).filter Instr.wf = _
  unfold dec18
  repeat (first | rw [if_neg (by omega)] | rw [if_pos (by omega)])
  refine filter_wf ?_ hw
  try simp only [BitVec.ofNat_toNat, BitVec.setWidth_eq]
  try congr 1 <;> (apply BitVec.eq_of_toNat_eq; simp only [BitVec.toNat_ofNat]; omega)

theorem RoundTrip.csrrd (d : BitVec 5) (c : BitVec 11) : RoundTrip.Statement (.csrrd d c) := by
  have := d.isLt
  have := c.isLt
  refine roundTrip32 0x19 d.toNat 0 (c.toNat / 256) (c.toNat % 256) rfl (by decide) (by omega) (by omega) (by omega) (by omega) fun hw => ?_
  show (dec19 d.toNat 0 (c.toNat / 256) (c.toNat % 256)).filter Instr.wf = _
  unfold dec19
  repeat (first | rw [if_neg (by omega)] | rw [if_pos (by omega)])
  refine filter_wf ?_ hw
  try simp only [BitVec.ofNat_toNat, BitVec.setWidth_eq]
  try congr 1 <;> (apply BitVec.eq_of_toNat_eq; simp only [BitVec.toNat_ofNat]; omega)

theorem RoundTrip.csrwr (d a : BitVec 5) (c : BitVec 11) : RoundTrip.Statement (.csrwr d a c) := by
  have := d.isLt
  have := a.isLt
  have := c.isLt
  refine roundTrip32 0x19 d.toNat a.toNat (c.toNat / 256 + 8) (c.toNat % 256) rfl (by decide) (by omega) (by omega) (by omega) (by omega) fun hw => ?_
  show (dec19 d.toNat a.toNat (c.toNat / 256 + 8) (c.toNat % 256)).filter Instr.wf = _
  unfold dec19
  repeat (first | rw [if_neg (by omega)] | rw [if_pos (by omega)])
  refine filter_wf ?_ hw
  try simp only [BitVec.ofNat_toNat, BitVec.setWidth_eq]
  try congr 1 <;> (apply BitVec.eq_of_toNat_eq; simp only [BitVec.toNat_ofNat]; omega)

theorem RoundTrip.csrset (d a : BitVec 5) (c : BitVec 11) : RoundTrip.Statement (.csrset d a c) := by
  have := d.isLt
  have := a.isLt
  have := c.isLt
  refine roundTrip32 0x19 d.toNat a.toNat (c.toNat / 256 + 16) (c.toNat % 256) rfl (by decide) (by omega) (by omega) (by omega) (by omega) fun hw => ?_
  show (dec19 d.toNat a.toNat (c.toNat / 256 + 16) (c.toNat % 256)).filter Instr.wf = _
  unfold dec19
  repeat (first | rw [if_neg (by omega)] | rw [if_pos (by omega)])
  refine filter_wf ?_ hw
  try simp only [BitVec.ofNat_toNat, BitVec.setWidth_eq]
  try congr 1 <;> (apply BitVec.eq_of_toNat_eq; simp only [BitVec.toNat_ofNat]; omega)

theorem RoundTrip.csrclr (d a : BitVec 5) (c : BitVec 11) : RoundTrip.Statement (.csrclr d a c) := by
  have := d.isLt
  have := a.isLt
  have := c.isLt
  refine roundTrip32 0x19 d.toNat a.toNat (c.toNat / 256 + 24) (c.toNat % 256) rfl (by decide) (by omega) (by omega) (by omega) (by omega) fun hw => ?_
  show (dec19 d.toNat a.toNat (c.toNat / 256 + 24) (c.toNat % 256)).filter Instr.wf = _
  unfold dec19
  repeat (first | rw [if_neg (by omega)] | rw [if_pos (by omega)])
  refine filter_wf ?_ hw
  try simp only [BitVec.ofNat_toNat, BitVec.setWidth_eq]
  try congr 1 <;> (apply BitVec.eq_of_toNat_eq; simp only [BitVec.toNat_ofNat]; omega)

theorem RoundTrip.strip (d : BitVec 5) : RoundTrip.Statement (.strip d) := by
  have := d.isLt
  refine roundTrip32 0x1A d.toNat 0 0 0 rfl (by decide) (by omega) (by omega) (by omega) (by omega) fun hw => ?_
  show (dec1A d.toNat 0 0 0).filter Instr.wf = _
  unfold dec1A
  repeat (first | rw [if_neg (by omega)] | rw [if_pos (by omega)])
  refine filter_wf ?_ hw
  try simp only [BitVec.ofNat_toNat, BitVec.setWidth_eq]
  try congr 1 <;> (apply BitVec.eq_of_toNat_eq; simp only [BitVec.toNat_ofNat]; omega)

theorem RoundTrip.vsettype (d a : BitVec 5) : RoundTrip.Statement (.vsettype d a) := by
  have := d.isLt
  have := a.isLt
  refine roundTrip32 0x1A d.toNat a.toNat 0 1 rfl (by decide) (by omega) (by omega) (by omega) (by omega) fun hw => ?_
  show (dec1A d.toNat a.toNat 0 1).filter Instr.wf = _
  unfold dec1A
  repeat (first | rw [if_neg (by omega)] | rw [if_pos (by omega)])
  refine filter_wf ?_ hw
  try simp only [BitVec.ofNat_toNat, BitVec.setWidth_eq]
  try congr 1 <;> (apply BitVec.eq_of_toNat_eq; simp only [BitVec.toNat_ofNat]; omega)

theorem RoundTrip.limlt (d a b : BitVec 5) : RoundTrip.Statement (.limlt d a b) := by
  have := d.isLt
  have := a.isLt
  have := b.isLt
  refine roundTrip32 0x1A d.toNat a.toNat b.toNat 8 rfl (by decide) (by omega) (by omega) (by omega) (by omega) fun hw => ?_
  show (dec1A d.toNat a.toNat b.toNat 8).filter Instr.wf = _
  unfold dec1A
  repeat (first | rw [if_neg (by omega)] | rw [if_pos (by omega)])
  refine filter_wf ?_ hw
  try simp only [BitVec.ofNat_toNat, BitVec.setWidth_eq]
  try congr 1 <;> (apply BitVec.eq_of_toNat_eq; simp only [BitVec.toNat_ofNat]; omega)

theorem RoundTrip.limle (d a b : BitVec 5) : RoundTrip.Statement (.limle d a b) := by
  have := d.isLt
  have := a.isLt
  have := b.isLt
  refine roundTrip32 0x1A d.toNat a.toNat b.toNat 9 rfl (by decide) (by omega) (by omega) (by omega) (by omega) fun hw => ?_
  show (dec1A d.toNat a.toNat b.toNat 9).filter Instr.wf = _
  unfold dec1A
  repeat (first | rw [if_neg (by omega)] | rw [if_pos (by omega)])
  refine filter_wf ?_ hw
  try simp only [BitVec.ofNat_toNat, BitVec.setWidth_eq]
  try congr 1 <;> (apply BitVec.eq_of_toNat_eq; simp only [BitVec.toNat_ofNat]; omega)

theorem RoundTrip.limltn (d a b : BitVec 5) : RoundTrip.Statement (.limltn d a b) := by
  have := d.isLt
  have := a.isLt
  have := b.isLt
  refine roundTrip32 0x1A d.toNat a.toNat b.toNat 10 rfl (by decide) (by omega) (by omega) (by omega) (by omega) fun hw => ?_
  show (dec1A d.toNat a.toNat b.toNat 10).filter Instr.wf = _
  unfold dec1A
  repeat (first | rw [if_neg (by omega)] | rw [if_pos (by omega)])
  refine filter_wf ?_ hw
  try simp only [BitVec.ofNat_toNat, BitVec.setWidth_eq]
  try congr 1 <;> (apply BitVec.eq_of_toNat_eq; simp only [BitVec.toNat_ofNat]; omega)

theorem RoundTrip.setvl (d a : BitVec 5) : RoundTrip.Statement (.setvl d a) := by
  have := d.isLt
  have := a.isLt
  refine roundTrip32 0x1A d.toNat a.toNat 0 63 rfl (by decide) (by omega) (by omega) (by omega) (by omega) fun hw => ?_
  show (dec1A d.toNat a.toNat 0 63).filter Instr.wf = _
  unfold dec1A
  repeat (first | rw [if_neg (by omega)] | rw [if_pos (by omega)])
  refine filter_wf ?_ hw
  try simp only [BitVec.ofNat_toNat, BitVec.setWidth_eq]
  try congr 1 <;> (apply BitVec.eq_of_toNat_eq; simp only [BitVec.toNat_ofNat]; omega)

theorem RoundTrip.mand (d a b : BitVec 5) : RoundTrip.Statement (.mand d a b) := by
  have := d.isLt
  have := a.isLt
  have := b.isLt
  refine roundTrip32 0x1B d.toNat a.toNat b.toNat 0 rfl (by decide) (by omega) (by omega) (by omega) (by omega) fun hw => ?_
  show (dec1B d.toNat a.toNat b.toNat 0).filter Instr.wf = _
  unfold dec1B
  repeat (first | rw [if_neg (by omega)] | rw [if_pos (by omega)])
  refine filter_wf ?_ hw
  try simp only [BitVec.ofNat_toNat, BitVec.setWidth_eq]
  try congr 1 <;> (apply BitVec.eq_of_toNat_eq; simp only [BitVec.toNat_ofNat]; omega)

theorem RoundTrip.mor (d a b : BitVec 5) : RoundTrip.Statement (.mor d a b) := by
  have := d.isLt
  have := a.isLt
  have := b.isLt
  refine roundTrip32 0x1B d.toNat a.toNat b.toNat 1 rfl (by decide) (by omega) (by omega) (by omega) (by omega) fun hw => ?_
  show (dec1B d.toNat a.toNat b.toNat 1).filter Instr.wf = _
  unfold dec1B
  repeat (first | rw [if_neg (by omega)] | rw [if_pos (by omega)])
  refine filter_wf ?_ hw
  try simp only [BitVec.ofNat_toNat, BitVec.setWidth_eq]
  try congr 1 <;> (apply BitVec.eq_of_toNat_eq; simp only [BitVec.toNat_ofNat]; omega)

theorem RoundTrip.mxor (d a b : BitVec 5) : RoundTrip.Statement (.mxor d a b) := by
  have := d.isLt
  have := a.isLt
  have := b.isLt
  refine roundTrip32 0x1B d.toNat a.toNat b.toNat 2 rfl (by decide) (by omega) (by omega) (by omega) (by omega) fun hw => ?_
  show (dec1B d.toNat a.toNat b.toNat 2).filter Instr.wf = _
  unfold dec1B
  repeat (first | rw [if_neg (by omega)] | rw [if_pos (by omega)])
  refine filter_wf ?_ hw
  try simp only [BitVec.ofNat_toNat, BitVec.setWidth_eq]
  try congr 1 <;> (apply BitVec.eq_of_toNat_eq; simp only [BitVec.toNat_ofNat]; omega)

theorem RoundTrip.mandn (d a b : BitVec 5) : RoundTrip.Statement (.mandn d a b) := by
  have := d.isLt
  have := a.isLt
  have := b.isLt
  refine roundTrip32 0x1B d.toNat a.toNat b.toNat 3 rfl (by decide) (by omega) (by omega) (by omega) (by omega) fun hw => ?_
  show (dec1B d.toNat a.toNat b.toNat 3).filter Instr.wf = _
  unfold dec1B
  repeat (first | rw [if_neg (by omega)] | rw [if_pos (by omega)])
  refine filter_wf ?_ hw
  try simp only [BitVec.ofNat_toNat, BitVec.setWidth_eq]
  try congr 1 <;> (apply BitVec.eq_of_toNat_eq; simp only [BitVec.toNat_ofNat]; omega)

theorem RoundTrip.mnot (d a : BitVec 5) : RoundTrip.Statement (.mnot d a) := by
  have := d.isLt
  have := a.isLt
  refine roundTrip32 0x1B d.toNat a.toNat 0 4 rfl (by decide) (by omega) (by omega) (by omega) (by omega) fun hw => ?_
  show (dec1B d.toNat a.toNat 0 4).filter Instr.wf = _
  unfold dec1B
  repeat (first | rw [if_neg (by omega)] | rw [if_pos (by omega)])
  refine filter_wf ?_ hw
  try simp only [BitVec.ofNat_toNat, BitVec.setWidth_eq]
  try congr 1 <;> (apply BitVec.eq_of_toNat_eq; simp only [BitVec.toNat_ofNat]; omega)

theorem RoundTrip.mcopy (d a : BitVec 5) : RoundTrip.Statement (.mcopy d a) := by
  have := d.isLt
  have := a.isLt
  refine roundTrip32 0x1B d.toNat a.toNat 0 5 rfl (by decide) (by omega) (by omega) (by omega) (by omega) fun hw => ?_
  show (dec1B d.toNat a.toNat 0 5).filter Instr.wf = _
  unfold dec1B
  repeat (first | rw [if_neg (by omega)] | rw [if_pos (by omega)])
  refine filter_wf ?_ hw
  try simp only [BitVec.ofNat_toNat, BitVec.setWidth_eq]
  try congr 1 <;> (apply BitVec.eq_of_toNat_eq; simp only [BitVec.toNat_ofNat]; omega)

theorem RoundTrip.mfill (d : BitVec 5) : RoundTrip.Statement (.mfill d) := by
  have := d.isLt
  refine roundTrip32 0x1B d.toNat 0 0 6 rfl (by decide) (by omega) (by omega) (by omega) (by omega) fun hw => ?_
  show (dec1B d.toNat 0 0 6).filter Instr.wf = _
  unfold dec1B
  repeat (first | rw [if_neg (by omega)] | rw [if_pos (by omega)])
  refine filter_wf ?_ hw
  try simp only [BitVec.ofNat_toNat, BitVec.setWidth_eq]
  try congr 1 <;> (apply BitVec.eq_of_toNat_eq; simp only [BitVec.toNat_ofNat]; omega)

theorem RoundTrip.mzero (d : BitVec 5) : RoundTrip.Statement (.mzero d) := by
  have := d.isLt
  refine roundTrip32 0x1B d.toNat 0 0 7 rfl (by decide) (by omega) (by omega) (by omega) (by omega) fun hw => ?_
  show (dec1B d.toNat 0 0 7).filter Instr.wf = _
  unfold dec1B
  repeat (first | rw [if_neg (by omega)] | rw [if_pos (by omega)])
  refine filter_wf ?_ hw
  try simp only [BitVec.ofNat_toNat, BitVec.setWidth_eq]
  try congr 1 <;> (apply BitVec.eq_of_toNat_eq; simp only [BitVec.toNat_ofNat]; omega)

theorem RoundTrip.mcount (d a : BitVec 5) : RoundTrip.Statement (.mcount d a) := by
  have := d.isLt
  have := a.isLt
  refine roundTrip32 0x1B d.toNat a.toNat 0 8 rfl (by decide) (by omega) (by omega) (by omega) (by omega) fun hw => ?_
  show (dec1B d.toNat a.toNat 0 8).filter Instr.wf = _
  unfold dec1B
  repeat (first | rw [if_neg (by omega)] | rw [if_pos (by omega)])
  refine filter_wf ?_ hw
  try simp only [BitVec.ofNat_toNat, BitVec.setWidth_eq]
  try congr 1 <;> (apply BitVec.eq_of_toNat_eq; simp only [BitVec.toNat_ofNat]; omega)

theorem RoundTrip.mfirst (d a : BitVec 5) : RoundTrip.Statement (.mfirst d a) := by
  have := d.isLt
  have := a.isLt
  refine roundTrip32 0x1B d.toNat a.toNat 0 9 rfl (by decide) (by omega) (by omega) (by omega) (by omega) fun hw => ?_
  show (dec1B d.toNat a.toNat 0 9).filter Instr.wf = _
  unfold dec1B
  repeat (first | rw [if_neg (by omega)] | rw [if_pos (by omega)])
  refine filter_wf ?_ hw
  try simp only [BitVec.ofNat_toNat, BitVec.setWidth_eq]
  try congr 1 <;> (apply BitVec.eq_of_toNat_eq; simp only [BitVec.toNat_ofNat]; omega)

theorem RoundTrip.mlast (d a : BitVec 5) : RoundTrip.Statement (.mlast d a) := by
  have := d.isLt
  have := a.isLt
  refine roundTrip32 0x1B d.toNat a.toNat 0 10 rfl (by decide) (by omega) (by omega) (by omega) (by omega) fun hw => ?_
  show (dec1B d.toNat a.toNat 0 10).filter Instr.wf = _
  unfold dec1B
  repeat (first | rw [if_neg (by omega)] | rw [if_pos (by omega)])
  refine filter_wf ?_ hw
  try simp only [BitVec.ofNat_toNat, BitVec.setWidth_eq]
  try congr 1 <;> (apply BitVec.eq_of_toNat_eq; simp only [BitVec.toNat_ofNat]; omega)

theorem RoundTrip.mfromg (d a b : BitVec 5) : RoundTrip.Statement (.mfromg d a b) := by
  have := d.isLt
  have := a.isLt
  have := b.isLt
  refine roundTrip32 0x1B d.toNat a.toNat b.toNat 11 rfl (by decide) (by omega) (by omega) (by omega) (by omega) fun hw => ?_
  show (dec1B d.toNat a.toNat b.toNat 11).filter Instr.wf = _
  unfold dec1B
  repeat (first | rw [if_neg (by omega)] | rw [if_pos (by omega)])
  refine filter_wf ?_ hw
  try simp only [BitVec.ofNat_toNat, BitVec.setWidth_eq]
  try congr 1 <;> (apply BitVec.eq_of_toNat_eq; simp only [BitVec.toNat_ofNat]; omega)

theorem RoundTrip.mtog (d a b : BitVec 5) : RoundTrip.Statement (.mtog d a b) := by
  have := d.isLt
  have := a.isLt
  have := b.isLt
  refine roundTrip32 0x1B d.toNat a.toNat b.toNat 12 rfl (by decide) (by omega) (by omega) (by omega) (by omega) fun hw => ?_
  show (dec1B d.toNat a.toNat b.toNat 12).filter Instr.wf = _
  unfold dec1B
  repeat (first | rw [if_neg (by omega)] | rw [if_pos (by omega)])
  refine filter_wf ?_ hw
  try simp only [BitVec.ofNat_toNat, BitVec.setWidth_eq]
  try congr 1 <;> (apply BitVec.eq_of_toNat_eq; simp only [BitVec.toNat_ofNat]; omega)

theorem RoundTrip.ecall : RoundTrip.Statement (.ecall) := by
  refine roundTrip32 0x1C 0 0 0 0 rfl (by decide) (by omega) (by omega) (by omega) (by omega) fun hw => ?_
  show (dec1C 0 0 0 0).filter Instr.wf = _
  unfold dec1C
  repeat (first | rw [if_neg (by omega)] | rw [if_pos (by omega)])
  exact filter_wf rfl hw

theorem RoundTrip.eret : RoundTrip.Statement (.eret) := by
  refine roundTrip32 0x1C 0 0 0 1 rfl (by decide) (by omega) (by omega) (by omega) (by omega) fun hw => ?_
  show (dec1C 0 0 0 1).filter Instr.wf = _
  unfold dec1C
  repeat (first | rw [if_neg (by omega)] | rw [if_pos (by omega)])
  exact filter_wf rfl hw

theorem RoundTrip.wfi (d : BitVec 5) : RoundTrip.Statement (.wfi d) := by
  have := d.isLt
  refine roundTrip32 0x1C d.toNat 0 0 2 rfl (by decide) (by omega) (by omega) (by omega) (by omega) fun hw => ?_
  show (dec1C d.toNat 0 0 2).filter Instr.wf = _
  unfold dec1C
  repeat (first | rw [if_neg (by omega)] | rw [if_pos (by omega)])
  refine filter_wf ?_ hw
  try simp only [BitVec.ofNat_toNat, BitVec.setWidth_eq]
  try congr 1 <;> (apply BitVec.eq_of_toNat_eq; simp only [BitVec.toNat_ofNat]; omega)

theorem RoundTrip.brk : RoundTrip.Statement (.brk) := by
  refine roundTrip32 0x1C 0 0 0 3 rfl (by decide) (by omega) (by omega) (by omega) (by omega) fun hw => ?_
  show (dec1C 0 0 0 3).filter Instr.wf = _
  unfold dec1C
  repeat (first | rw [if_neg (by omega)] | rw [if_pos (by omega)])
  exact filter_wf rfl hw

theorem RoundTrip.tlbinv (a b : BitVec 5) : RoundTrip.Statement (.tlbinv a b) := by
  have := a.isLt
  have := b.isLt
  refine roundTrip32 0x1C 0 a.toNat b.toNat 4 rfl (by decide) (by omega) (by omega) (by omega) (by omega) fun hw => ?_
  show (dec1C 0 a.toNat b.toNat 4).filter Instr.wf = _
  unfold dec1C
  repeat (first | rw [if_neg (by omega)] | rw [if_pos (by omega)])
  refine filter_wf ?_ hw
  try simp only [BitVec.ofNat_toNat, BitVec.setWidth_eq]
  try congr 1 <;> (apply BitVec.eq_of_toNat_eq; simp only [BitVec.toNat_ofNat]; omega)

theorem RoundTrip.frqpop (d : BitVec 5) : RoundTrip.Statement (.frqpop d) := by
  have := d.isLt
  refine roundTrip32 0x1C d.toNat 0 0 5 rfl (by decide) (by omega) (by omega) (by omega) (by omega) fun hw => ?_
  show (dec1C d.toNat 0 0 5).filter Instr.wf = _
  unfold dec1C
  repeat (first | rw [if_neg (by omega)] | rw [if_pos (by omega)])
  refine filter_wf ?_ hw
  try simp only [BitVec.ofNat_toNat, BitVec.setWidth_eq]
  try congr 1 <;> (apply BitVec.eq_of_toNat_eq; simp only [BitVec.toNat_ofNat]; omega)

theorem RoundTrip.ctxsave : RoundTrip.Statement (.ctxsave) := by
  refine roundTrip32 0x1C 0 0 0 6 rfl (by decide) (by omega) (by omega) (by omega) (by omega) fun hw => ?_
  show (dec1C 0 0 0 6).filter Instr.wf = _
  unfold dec1C
  repeat (first | rw [if_neg (by omega)] | rw [if_pos (by omega)])
  exact filter_wf rfl hw

theorem RoundTrip.ctxload : RoundTrip.Statement (.ctxload) := by
  refine roundTrip32 0x1C 0 0 0 7 rfl (by decide) (by omega) (by omega) (by omega) (by omega) fun hw => ?_
  show (dec1C 0 0 0 7).filter Instr.wf = _
  unfold dec1C
  repeat (first | rw [if_neg (by omega)] | rw [if_pos (by omega)])
  exact filter_wf rfl hw

theorem RoundTrip.bar (d a b : BitVec 5) (s : BitVec 3) : RoundTrip.Statement (.bar d a b s) := by
  have := d.isLt
  have := a.isLt
  have := b.isLt
  have := s.isLt
  refine roundTrip32 0x1D d.toNat a.toNat b.toNat s.toNat rfl (by decide) (by omega) (by omega) (by omega) (by omega) fun hw => ?_
  show (dec1D d.toNat a.toNat b.toNat s.toNat).filter Instr.wf = _
  unfold dec1D
  repeat (first | rw [if_neg (by omega)] | rw [if_pos (by omega)])
  refine filter_wf ?_ hw
  try simp only [BitVec.ofNat_toNat, BitVec.setWidth_eq]
  try congr 1 <;> (apply BitVec.eq_of_toNat_eq; simp only [BitVec.toNat_ofNat]; omega)

theorem RoundTrip.waita (d a b : BitVec 5) (c : BitVec 3) : RoundTrip.Statement (.waita d a b c) := by
  have := d.isLt
  have := a.isLt
  have := b.isLt
  have := c.isLt
  refine roundTrip32 0x1D d.toNat a.toNat b.toNat (c.toNat + 8) rfl (by decide) (by omega) (by omega) (by omega) (by omega) fun hw => ?_
  show (dec1D d.toNat a.toNat b.toNat (c.toNat + 8)).filter Instr.wf = _
  unfold dec1D
  repeat (first | rw [if_neg (by omega)] | rw [if_pos (by omega)])
  refine filter_wf ?_ hw
  try simp only [BitVec.ofNat_toNat, BitVec.setWidth_eq]
  try congr 1 <;> (apply BitVec.eq_of_toNat_eq; simp only [BitVec.toNat_ofNat]; omega)

theorem RoundTrip.chwait (d a : BitVec 5) : RoundTrip.Statement (.chwait d a) := by
  have := d.isLt
  have := a.isLt
  refine roundTrip32 0x1D d.toNat a.toNat 0 16 rfl (by decide) (by omega) (by omega) (by omega) (by omega) fun hw => ?_
  show (dec1D d.toNat a.toNat 0 16).filter Instr.wf = _
  unfold dec1D
  repeat (first | rw [if_neg (by omega)] | rw [if_pos (by omega)])
  refine filter_wf ?_ hw
  try simp only [BitVec.ofNat_toNat, BitVec.setWidth_eq]
  try congr 1 <;> (apply BitVec.eq_of_toNat_eq; simp only [BitVec.toNat_ofNat]; omega)

theorem RoundTrip.chwaitId (d a b : BitVec 5) : RoundTrip.Statement (.chwaitId d a b) := by
  have := d.isLt
  have := a.isLt
  have := b.isLt
  refine roundTrip32 0x1D d.toNat a.toNat b.toNat 16 rfl (by decide) (by omega) (by omega) (by omega) (by omega) fun hw => ?_
  have hb : b.toNat ≠ 0 := fun h0 => by
    have h : (b.toNat != 0) = true := hw
    rw [h0] at h; exact absurd h (by decide)
  show (dec1D d.toNat a.toNat b.toNat 16).filter Instr.wf = _
  unfold dec1D
  repeat (first | rw [if_neg (by omega)] | rw [if_pos (by omega)])
  refine filter_wf ?_ hw
  try simp only [BitVec.ofNat_toNat, BitVec.setWidth_eq]
  try congr 1 <;> (apply BitVec.eq_of_toNat_eq; simp only [BitVec.toNat_ofNat]; omega)

theorem RoundTrip.qpush (d a b : BitVec 5) : RoundTrip.Statement (.qpush d a b) := by
  have := d.isLt
  have := a.isLt
  have := b.isLt
  refine roundTrip32 0x1D d.toNat a.toNat b.toNat 24 rfl (by decide) (by omega) (by omega) (by omega) (by omega) fun hw => ?_
  show (dec1D d.toNat a.toNat b.toNat 24).filter Instr.wf = _
  unfold dec1D
  repeat (first | rw [if_neg (by omega)] | rw [if_pos (by omega)])
  refine filter_wf ?_ hw
  try simp only [BitVec.ofNat_toNat, BitVec.setWidth_eq]
  try congr 1 <;> (apply BitVec.eq_of_toNat_eq; simp only [BitVec.toNat_ofNat]; omega)

theorem RoundTrip.qpop (d a : BitVec 5) : RoundTrip.Statement (.qpop d a) := by
  have := d.isLt
  have := a.isLt
  refine roundTrip32 0x1D d.toNat a.toNat 0 33 rfl (by decide) (by omega) (by omega) (by omega) (by omega) fun hw => ?_
  show (dec1D d.toNat a.toNat 0 33).filter Instr.wf = _
  unfold dec1D
  repeat (first | rw [if_neg (by omega)] | rw [if_pos (by omega)])
  refine filter_wf ?_ hw
  try simp only [BitVec.ofNat_toNat, BitVec.setWidth_eq]
  try congr 1 <;> (apply BitVec.eq_of_toNat_eq; simp only [BitVec.toNat_ofNat]; omega)

theorem RoundTrip.qpopNb (d a : BitVec 5) : RoundTrip.Statement (.qpopNb d a) := by
  have := d.isLt
  have := a.isLt
  refine roundTrip32 0x1D d.toNat a.toNat 0 32 rfl (by decide) (by omega) (by omega) (by omega) (by omega) fun hw => ?_
  show (dec1D d.toNat a.toNat 0 32).filter Instr.wf = _
  unfold dec1D
  repeat (first | rw [if_neg (by omega)] | rw [if_pos (by omega)])
  refine filter_wf ?_ hw
  try simp only [BitVec.ofNat_toNat, BitVec.setWidth_eq]
  try congr 1 <;> (apply BitVec.eq_of_toNat_eq; simp only [BitVec.toNat_ofNat]; omega)

theorem RoundTrip.launch (d a : BitVec 5) : RoundTrip.Statement (.launch d a) := by
  have := d.isLt
  have := a.isLt
  refine roundTrip32 0x1D d.toNat a.toNat 0 40 rfl (by decide) (by omega) (by omega) (by omega) (by omega) fun hw => ?_
  show (dec1D d.toNat a.toNat 0 40).filter Instr.wf = _
  unfold dec1D
  repeat (first | rw [if_neg (by omega)] | rw [if_pos (by omega)])
  refine filter_wf ?_ hw
  try simp only [BitVec.ofNat_toNat, BitVec.setWidth_eq]
  try congr 1 <;> (apply BitVec.eq_of_toNat_eq; simp only [BitVec.toNat_ofNat]; omega)

theorem RoundTrip.yield : RoundTrip.Statement (.yield) := by
  refine roundTrip32 0x1D 0 0 0 48 rfl (by decide) (by omega) (by omega) (by omega) (by omega) fun hw => ?_
  show (dec1D 0 0 0 48).filter Instr.wf = _
  unfold dec1D
  repeat (first | rw [if_neg (by omega)] | rw [if_pos (by omega)])
  exact filter_wf rfl hw

theorem RoundTrip.exit : RoundTrip.Statement (.exit) := by
  refine roundTrip32 0x1D 0 0 0 56 rfl (by decide) (by omega) (by omega) (by omega) (by omega) fun hw => ?_
  show (dec1D 0 0 0 56).filter Instr.wf = _
  unfold dec1D
  repeat (first | rw [if_neg (by omega)] | rw [if_pos (by omega)])
  exact filter_wf rfl hw

theorem RoundTrip.barg (d a b : BitVec 5) : RoundTrip.Statement (.barg d a b) := by
  have := d.isLt
  have := a.isLt
  have := b.isLt
  refine roundTrip32 0x1D d.toNat a.toNat b.toNat 248 rfl (by decide) (by omega) (by omega) (by omega) (by omega) fun hw => ?_
  show (dec1D d.toNat a.toNat b.toNat 248).filter Instr.wf = _
  unfold dec1D
  repeat (first | rw [if_neg (by omega)] | rw [if_pos (by omega)])
  refine filter_wf ?_ hw
  try simp only [BitVec.ofNat_toNat, BitVec.setWidth_eq]
  try congr 1 <;> (apply BitVec.eq_of_toNat_eq; simp only [BitVec.toNat_ofNat]; omega)

theorem RoundTrip.vacq (d i : BitVec 5) : RoundTrip.Statement (.vacq d i) := by
  have := d.isLt
  have := i.isLt
  refine roundTrip32 0x1E d.toNat i.toNat 0 0 rfl (by decide) (by omega) (by omega) (by omega) (by omega) fun hw => ?_
  show (dec1E d.toNat i.toNat 0 0).filter Instr.wf = _
  unfold dec1E
  repeat (first | rw [if_neg (by omega)] | rw [if_pos (by omega)])
  refine filter_wf ?_ hw
  try simp only [BitVec.ofNat_toNat, BitVec.setWidth_eq]
  try congr 1 <;> (apply BitVec.eq_of_toNat_eq; simp only [BitVec.toNat_ofNat]; omega)

theorem RoundTrip.vacqFail (d i : BitVec 5) : RoundTrip.Statement (.vacqFail d i) := by
  have := d.isLt
  have := i.isLt
  refine roundTrip32 0x1E d.toNat i.toNat 0 1 rfl (by decide) (by omega) (by omega) (by omega) (by omega) fun hw => ?_
  show (dec1E d.toNat i.toNat 0 1).filter Instr.wf = _
  unfold dec1E
  repeat (first | rw [if_neg (by omega)] | rw [if_pos (by omega)])
  refine filter_wf ?_ hw
  try simp only [BitVec.ofNat_toNat, BitVec.setWidth_eq]
  try congr 1 <;> (apply BitVec.eq_of_toNat_eq; simp only [BitVec.toNat_ofNat]; omega)

theorem RoundTrip.vacqTile (d i : BitVec 5) : RoundTrip.Statement (.vacqTile d i) := by
  have := d.isLt
  have := i.isLt
  refine roundTrip32 0x1E d.toNat i.toNat 0 2 rfl (by decide) (by omega) (by omega) (by omega) (by omega) fun hw => ?_
  show (dec1E d.toNat i.toNat 0 2).filter Instr.wf = _
  unfold dec1E
  repeat (first | rw [if_neg (by omega)] | rw [if_pos (by omega)])
  refine filter_wf ?_ hw
  try simp only [BitVec.ofNat_toNat, BitVec.setWidth_eq]
  try congr 1 <;> (apply BitVec.eq_of_toNat_eq; simp only [BitVec.toNat_ofNat]; omega)

theorem RoundTrip.vacqTileFail (d i : BitVec 5) : RoundTrip.Statement (.vacqTileFail d i) := by
  have := d.isLt
  have := i.isLt
  refine roundTrip32 0x1E d.toNat i.toNat 0 3 rfl (by decide) (by omega) (by omega) (by omega) (by omega) fun hw => ?_
  show (dec1E d.toNat i.toNat 0 3).filter Instr.wf = _
  unfold dec1E
  repeat (first | rw [if_neg (by omega)] | rw [if_pos (by omega)])
  refine filter_wf ?_ hw
  try simp only [BitVec.ofNat_toNat, BitVec.setWidth_eq]
  try congr 1 <;> (apply BitVec.eq_of_toNat_eq; simp only [BitVec.toNat_ofNat]; omega)

theorem RoundTrip.vrel (i : BitVec 5) : RoundTrip.Statement (.vrel i) := by
  have := i.isLt
  refine roundTrip32 0x1E 0 i.toNat 0 8 rfl (by decide) (by omega) (by omega) (by omega) (by omega) fun hw => ?_
  show (dec1E 0 i.toNat 0 8).filter Instr.wf = _
  unfold dec1E
  repeat (first | rw [if_neg (by omega)] | rw [if_pos (by omega)])
  refine filter_wf ?_ hw
  try simp only [BitVec.ofNat_toNat, BitVec.setWidth_eq]
  try congr 1 <;> (apply BitVec.eq_of_toNat_eq; simp only [BitVec.toNat_ofNat]; omega)

theorem RoundTrip.cpread (d a b : BitVec 5) : RoundTrip.Statement (.cpread d a b) := by
  have := d.isLt
  have := a.isLt
  have := b.isLt
  refine roundTrip32 0x1E d.toNat a.toNat b.toNat 16 rfl (by decide) (by omega) (by omega) (by omega) (by omega) fun hw => ?_
  show (dec1E d.toNat a.toNat b.toNat 16).filter Instr.wf = _
  unfold dec1E
  repeat (first | rw [if_neg (by omega)] | rw [if_pos (by omega)])
  refine filter_wf ?_ hw
  try simp only [BitVec.ofNat_toNat, BitVec.setWidth_eq]
  try congr 1 <;> (apply BitVec.eq_of_toNat_eq; simp only [BitVec.toNat_ofNat]; omega)

theorem RoundTrip.cpmark (d : BitVec 5) : RoundTrip.Statement (.cpmark d) := by
  have := d.isLt
  refine roundTrip32 0x1E d.toNat 0 0 24 rfl (by decide) (by omega) (by omega) (by omega) (by omega) fun hw => ?_
  show (dec1E d.toNat 0 0 24).filter Instr.wf = _
  unfold dec1E
  repeat (first | rw [if_neg (by omega)] | rw [if_pos (by omega)])
  refine filter_wf ?_ hw
  try simp only [BitVec.ofNat_toNat, BitVec.setWidth_eq]
  try congr 1 <;> (apply BitVec.eq_of_toNat_eq; simp only [BitVec.toNat_ofNat]; omega)

theorem RoundTrip.vadd (d a b : BitVec 5) (k : BitVec 3) (e f : BitVec 1) : RoundTrip.Statement (.vadd d a b k e f) := by
  have := d.isLt
  have := a.isLt
  have := b.isLt
  have := k.isLt
  have := e.isLt
  have := f.isLt
  refine roundTrip32 0x20 d.toNat a.toNat b.toNat (k.toNat * 32 + e.toNat * 16 + f.toNat * 8) rfl (by decide) (by omega) (by omega) (by omega) (by omega) fun hw => ?_
  show (dec20 d.toNat a.toNat b.toNat (k.toNat * 32 + e.toNat * 16 + f.toNat * 8)).filter Instr.wf = _
  unfold dec20
  repeat (first | rw [if_neg (by omega)] | rw [if_pos (by omega)])
  refine filter_wf ?_ hw
  try simp only [BitVec.ofNat_toNat, BitVec.setWidth_eq]
  try congr 1 <;> (apply BitVec.eq_of_toNat_eq; simp only [BitVec.toNat_ofNat]; omega)

theorem RoundTrip.vsub (d a b : BitVec 5) (k : BitVec 3) (e f : BitVec 1) : RoundTrip.Statement (.vsub d a b k e f) := by
  have := d.isLt
  have := a.isLt
  have := b.isLt
  have := k.isLt
  have := e.isLt
  have := f.isLt
  refine roundTrip32 0x20 d.toNat a.toNat b.toNat (k.toNat * 32 + e.toNat * 16 + f.toNat * 8 + 1) rfl (by decide) (by omega) (by omega) (by omega) (by omega) fun hw => ?_
  show (dec20 d.toNat a.toNat b.toNat (k.toNat * 32 + e.toNat * 16 + f.toNat * 8 + 1)).filter Instr.wf = _
  unfold dec20
  repeat (first | rw [if_neg (by omega)] | rw [if_pos (by omega)])
  refine filter_wf ?_ hw
  try simp only [BitVec.ofNat_toNat, BitVec.setWidth_eq]
  try congr 1 <;> (apply BitVec.eq_of_toNat_eq; simp only [BitVec.toNat_ofNat]; omega)

theorem RoundTrip.vmul (d a b : BitVec 5) (k : BitVec 3) (e f : BitVec 1) : RoundTrip.Statement (.vmul d a b k e f) := by
  have := d.isLt
  have := a.isLt
  have := b.isLt
  have := k.isLt
  have := e.isLt
  have := f.isLt
  refine roundTrip32 0x20 d.toNat a.toNat b.toNat (k.toNat * 32 + e.toNat * 16 + f.toNat * 8 + 2) rfl (by decide) (by omega) (by omega) (by omega) (by omega) fun hw => ?_
  show (dec20 d.toNat a.toNat b.toNat (k.toNat * 32 + e.toNat * 16 + f.toNat * 8 + 2)).filter Instr.wf = _
  unfold dec20
  repeat (first | rw [if_neg (by omega)] | rw [if_pos (by omega)])
  refine filter_wf ?_ hw
  try simp only [BitVec.ofNat_toNat, BitVec.setWidth_eq]
  try congr 1 <;> (apply BitVec.eq_of_toNat_eq; simp only [BitVec.toNat_ofNat]; omega)

theorem RoundTrip.vmulh (d a b : BitVec 5) (k : BitVec 3) (e f : BitVec 1) : RoundTrip.Statement (.vmulh d a b k e f) := by
  have := d.isLt
  have := a.isLt
  have := b.isLt
  have := k.isLt
  have := e.isLt
  have := f.isLt
  refine roundTrip32 0x20 d.toNat a.toNat b.toNat (k.toNat * 32 + e.toNat * 16 + f.toNat * 8 + 3) rfl (by decide) (by omega) (by omega) (by omega) (by omega) fun hw => ?_
  show (dec20 d.toNat a.toNat b.toNat (k.toNat * 32 + e.toNat * 16 + f.toNat * 8 + 3)).filter Instr.wf = _
  unfold dec20
  repeat (first | rw [if_neg (by omega)] | rw [if_pos (by omega)])
  refine filter_wf ?_ hw
  try simp only [BitVec.ofNat_toNat, BitVec.setWidth_eq]
  try congr 1 <;> (apply BitVec.eq_of_toNat_eq; simp only [BitVec.toNat_ofNat]; omega)

theorem RoundTrip.vmin (d a b : BitVec 5) (k : BitVec 3) (e f : BitVec 1) : RoundTrip.Statement (.vmin d a b k e f) := by
  have := d.isLt
  have := a.isLt
  have := b.isLt
  have := k.isLt
  have := e.isLt
  have := f.isLt
  refine roundTrip32 0x20 d.toNat a.toNat b.toNat (k.toNat * 32 + e.toNat * 16 + f.toNat * 8 + 4) rfl (by decide) (by omega) (by omega) (by omega) (by omega) fun hw => ?_
  show (dec20 d.toNat a.toNat b.toNat (k.toNat * 32 + e.toNat * 16 + f.toNat * 8 + 4)).filter Instr.wf = _
  unfold dec20
  repeat (first | rw [if_neg (by omega)] | rw [if_pos (by omega)])
  refine filter_wf ?_ hw
  try simp only [BitVec.ofNat_toNat, BitVec.setWidth_eq]
  try congr 1 <;> (apply BitVec.eq_of_toNat_eq; simp only [BitVec.toNat_ofNat]; omega)

theorem RoundTrip.vmax (d a b : BitVec 5) (k : BitVec 3) (e f : BitVec 1) : RoundTrip.Statement (.vmax d a b k e f) := by
  have := d.isLt
  have := a.isLt
  have := b.isLt
  have := k.isLt
  have := e.isLt
  have := f.isLt
  refine roundTrip32 0x20 d.toNat a.toNat b.toNat (k.toNat * 32 + e.toNat * 16 + f.toNat * 8 + 5) rfl (by decide) (by omega) (by omega) (by omega) (by omega) fun hw => ?_
  show (dec20 d.toNat a.toNat b.toNat (k.toNat * 32 + e.toNat * 16 + f.toNat * 8 + 5)).filter Instr.wf = _
  unfold dec20
  repeat (first | rw [if_neg (by omega)] | rw [if_pos (by omega)])
  refine filter_wf ?_ hw
  try simp only [BitVec.ofNat_toNat, BitVec.setWidth_eq]
  try congr 1 <;> (apply BitVec.eq_of_toNat_eq; simp only [BitVec.toNat_ofNat]; omega)

theorem RoundTrip.vminn (d a b : BitVec 5) (k : BitVec 3) (e f : BitVec 1) : RoundTrip.Statement (.vminn d a b k e f) := by
  have := d.isLt
  have := a.isLt
  have := b.isLt
  have := k.isLt
  have := e.isLt
  have := f.isLt
  refine roundTrip32 0x20 d.toNat a.toNat b.toNat (k.toNat * 32 + e.toNat * 16 + f.toNat * 8 + 6) rfl (by decide) (by omega) (by omega) (by omega) (by omega) fun hw => ?_
  show (dec20 d.toNat a.toNat b.toNat (k.toNat * 32 + e.toNat * 16 + f.toNat * 8 + 6)).filter Instr.wf = _
  unfold dec20
  repeat (first | rw [if_neg (by omega)] | rw [if_pos (by omega)])
  refine filter_wf ?_ hw
  try simp only [BitVec.ofNat_toNat, BitVec.setWidth_eq]
  try congr 1 <;> (apply BitVec.eq_of_toNat_eq; simp only [BitVec.toNat_ofNat]; omega)

theorem RoundTrip.vmaxn (d a b : BitVec 5) (k : BitVec 3) (e f : BitVec 1) : RoundTrip.Statement (.vmaxn d a b k e f) := by
  have := d.isLt
  have := a.isLt
  have := b.isLt
  have := k.isLt
  have := e.isLt
  have := f.isLt
  refine roundTrip32 0x20 d.toNat a.toNat b.toNat (k.toNat * 32 + e.toNat * 16 + f.toNat * 8 + 7) rfl (by decide) (by omega) (by omega) (by omega) (by omega) fun hw => ?_
  show (dec20 d.toNat a.toNat b.toNat (k.toNat * 32 + e.toNat * 16 + f.toNat * 8 + 7)).filter Instr.wf = _
  unfold dec20
  repeat (first | rw [if_neg (by omega)] | rw [if_pos (by omega)])
  refine filter_wf ?_ hw
  try simp only [BitVec.ofNat_toNat, BitVec.setWidth_eq]
  try congr 1 <;> (apply BitVec.eq_of_toNat_eq; simp only [BitVec.toNat_ofNat]; omega)

theorem RoundTrip.vand (d a b : BitVec 5) (k : BitVec 3) (e f : BitVec 1) : RoundTrip.Statement (.vand d a b k e f) := by
  have := d.isLt
  have := a.isLt
  have := b.isLt
  have := k.isLt
  have := e.isLt
  have := f.isLt
  refine roundTrip32 0x21 d.toNat a.toNat b.toNat (k.toNat * 32 + e.toNat * 16 + f.toNat * 8) rfl (by decide) (by omega) (by omega) (by omega) (by omega) fun hw => ?_
  show (dec21 d.toNat a.toNat b.toNat (k.toNat * 32 + e.toNat * 16 + f.toNat * 8)).filter Instr.wf = _
  unfold dec21
  repeat (first | rw [if_neg (by omega)] | rw [if_pos (by omega)])
  refine filter_wf ?_ hw
  try simp only [BitVec.ofNat_toNat, BitVec.setWidth_eq]
  try congr 1 <;> (apply BitVec.eq_of_toNat_eq; simp only [BitVec.toNat_ofNat]; omega)

theorem RoundTrip.vor (d a b : BitVec 5) (k : BitVec 3) (e f : BitVec 1) : RoundTrip.Statement (.vor d a b k e f) := by
  have := d.isLt
  have := a.isLt
  have := b.isLt
  have := k.isLt
  have := e.isLt
  have := f.isLt
  refine roundTrip32 0x21 d.toNat a.toNat b.toNat (k.toNat * 32 + e.toNat * 16 + f.toNat * 8 + 1) rfl (by decide) (by omega) (by omega) (by omega) (by omega) fun hw => ?_
  show (dec21 d.toNat a.toNat b.toNat (k.toNat * 32 + e.toNat * 16 + f.toNat * 8 + 1)).filter Instr.wf = _
  unfold dec21
  repeat (first | rw [if_neg (by omega)] | rw [if_pos (by omega)])
  refine filter_wf ?_ hw
  try simp only [BitVec.ofNat_toNat, BitVec.setWidth_eq]
  try congr 1 <;> (apply BitVec.eq_of_toNat_eq; simp only [BitVec.toNat_ofNat]; omega)

theorem RoundTrip.vxor (d a b : BitVec 5) (k : BitVec 3) (e f : BitVec 1) : RoundTrip.Statement (.vxor d a b k e f) := by
  have := d.isLt
  have := a.isLt
  have := b.isLt
  have := k.isLt
  have := e.isLt
  have := f.isLt
  refine roundTrip32 0x21 d.toNat a.toNat b.toNat (k.toNat * 32 + e.toNat * 16 + f.toNat * 8 + 2) rfl (by decide) (by omega) (by omega) (by omega) (by omega) fun hw => ?_
  show (dec21 d.toNat a.toNat b.toNat (k.toNat * 32 + e.toNat * 16 + f.toNat * 8 + 2)).filter Instr.wf = _
  unfold dec21
  repeat (first | rw [if_neg (by omega)] | rw [if_pos (by omega)])
  refine filter_wf ?_ hw
  try simp only [BitVec.ofNat_toNat, BitVec.setWidth_eq]
  try congr 1 <;> (apply BitVec.eq_of_toNat_eq; simp only [BitVec.toNat_ofNat]; omega)

theorem RoundTrip.vandn (d a b : BitVec 5) (k : BitVec 3) (e f : BitVec 1) : RoundTrip.Statement (.vandn d a b k e f) := by
  have := d.isLt
  have := a.isLt
  have := b.isLt
  have := k.isLt
  have := e.isLt
  have := f.isLt
  refine roundTrip32 0x21 d.toNat a.toNat b.toNat (k.toNat * 32 + e.toNat * 16 + f.toNat * 8 + 3) rfl (by decide) (by omega) (by omega) (by omega) (by omega) fun hw => ?_
  show (dec21 d.toNat a.toNat b.toNat (k.toNat * 32 + e.toNat * 16 + f.toNat * 8 + 3)).filter Instr.wf = _
  unfold dec21
  repeat (first | rw [if_neg (by omega)] | rw [if_pos (by omega)])
  refine filter_wf ?_ hw
  try simp only [BitVec.ofNat_toNat, BitVec.setWidth_eq]
  try congr 1 <;> (apply BitVec.eq_of_toNat_eq; simp only [BitVec.toNat_ofNat]; omega)

theorem RoundTrip.vsll (d a b : BitVec 5) (k : BitVec 3) (e f : BitVec 1) : RoundTrip.Statement (.vsll d a b k e f) := by
  have := d.isLt
  have := a.isLt
  have := b.isLt
  have := k.isLt
  have := e.isLt
  have := f.isLt
  refine roundTrip32 0x21 d.toNat a.toNat b.toNat (k.toNat * 32 + e.toNat * 16 + f.toNat * 8 + 4) rfl (by decide) (by omega) (by omega) (by omega) (by omega) fun hw => ?_
  show (dec21 d.toNat a.toNat b.toNat (k.toNat * 32 + e.toNat * 16 + f.toNat * 8 + 4)).filter Instr.wf = _
  unfold dec21
  repeat (first | rw [if_neg (by omega)] | rw [if_pos (by omega)])
  refine filter_wf ?_ hw
  try simp only [BitVec.ofNat_toNat, BitVec.setWidth_eq]
  try congr 1 <;> (apply BitVec.eq_of_toNat_eq; simp only [BitVec.toNat_ofNat]; omega)

theorem RoundTrip.vsrl (d a b : BitVec 5) (k : BitVec 3) (e f : BitVec 1) : RoundTrip.Statement (.vsrl d a b k e f) := by
  have := d.isLt
  have := a.isLt
  have := b.isLt
  have := k.isLt
  have := e.isLt
  have := f.isLt
  refine roundTrip32 0x21 d.toNat a.toNat b.toNat (k.toNat * 32 + e.toNat * 16 + f.toNat * 8 + 5) rfl (by decide) (by omega) (by omega) (by omega) (by omega) fun hw => ?_
  show (dec21 d.toNat a.toNat b.toNat (k.toNat * 32 + e.toNat * 16 + f.toNat * 8 + 5)).filter Instr.wf = _
  unfold dec21
  repeat (first | rw [if_neg (by omega)] | rw [if_pos (by omega)])
  refine filter_wf ?_ hw
  try simp only [BitVec.ofNat_toNat, BitVec.setWidth_eq]
  try congr 1 <;> (apply BitVec.eq_of_toNat_eq; simp only [BitVec.toNat_ofNat]; omega)

theorem RoundTrip.vsra (d a b : BitVec 5) (k : BitVec 3) (e f : BitVec 1) : RoundTrip.Statement (.vsra d a b k e f) := by
  have := d.isLt
  have := a.isLt
  have := b.isLt
  have := k.isLt
  have := e.isLt
  have := f.isLt
  refine roundTrip32 0x21 d.toNat a.toNat b.toNat (k.toNat * 32 + e.toNat * 16 + f.toNat * 8 + 6) rfl (by decide) (by omega) (by omega) (by omega) (by omega) fun hw => ?_
  show (dec21 d.toNat a.toNat b.toNat (k.toNat * 32 + e.toNat * 16 + f.toNat * 8 + 6)).filter Instr.wf = _
  unfold dec21
  repeat (first | rw [if_neg (by omega)] | rw [if_pos (by omega)])
  refine filter_wf ?_ hw
  try simp only [BitVec.ofNat_toNat, BitVec.setWidth_eq]
  try congr 1 <;> (apply BitVec.eq_of_toNat_eq; simp only [BitVec.toNat_ofNat]; omega)

theorem RoundTrip.vmerge (d a b : BitVec 5) (k : BitVec 3) (e f : BitVec 1) : RoundTrip.Statement (.vmerge d a b k e f) := by
  have := d.isLt
  have := a.isLt
  have := b.isLt
  have := k.isLt
  have := e.isLt
  have := f.isLt
  refine roundTrip32 0x21 d.toNat a.toNat b.toNat (k.toNat * 32 + e.toNat * 16 + f.toNat * 8 + 7) rfl (by decide) (by omega) (by omega) (by omega) (by omega) fun hw => ?_
  show (dec21 d.toNat a.toNat b.toNat (k.toNat * 32 + e.toNat * 16 + f.toNat * 8 + 7)).filter Instr.wf = _
  unfold dec21
  repeat (first | rw [if_neg (by omega)] | rw [if_pos (by omega)])
  refine filter_wf ?_ hw
  try simp only [BitVec.ofNat_toNat, BitVec.setWidth_eq]
  try congr 1 <;> (apply BitVec.eq_of_toNat_eq; simp only [BitVec.toNat_ofNat]; omega)

theorem RoundTrip.vsadd (d a b : BitVec 5) (k : BitVec 3) (e f : BitVec 1) : RoundTrip.Statement (.vsadd d a b k e f) := by
  have := d.isLt
  have := a.isLt
  have := b.isLt
  have := k.isLt
  have := e.isLt
  have := f.isLt
  refine roundTrip32 0x22 d.toNat a.toNat b.toNat (k.toNat * 32 + e.toNat * 16 + f.toNat * 8) rfl (by decide) (by omega) (by omega) (by omega) (by omega) fun hw => ?_
  show (dec22 d.toNat a.toNat b.toNat (k.toNat * 32 + e.toNat * 16 + f.toNat * 8)).filter Instr.wf = _
  unfold dec22
  repeat (first | rw [if_neg (by omega)] | rw [if_pos (by omega)])
  refine filter_wf ?_ hw
  try simp only [BitVec.ofNat_toNat, BitVec.setWidth_eq]
  try congr 1 <;> (apply BitVec.eq_of_toNat_eq; simp only [BitVec.toNat_ofNat]; omega)

theorem RoundTrip.vssub (d a b : BitVec 5) (k : BitVec 3) (e f : BitVec 1) : RoundTrip.Statement (.vssub d a b k e f) := by
  have := d.isLt
  have := a.isLt
  have := b.isLt
  have := k.isLt
  have := e.isLt
  have := f.isLt
  refine roundTrip32 0x22 d.toNat a.toNat b.toNat (k.toNat * 32 + e.toNat * 16 + f.toNat * 8 + 1) rfl (by decide) (by omega) (by omega) (by omega) (by omega) fun hw => ?_
  show (dec22 d.toNat a.toNat b.toNat (k.toNat * 32 + e.toNat * 16 + f.toNat * 8 + 1)).filter Instr.wf = _
  unfold dec22
  repeat (first | rw [if_neg (by omega)] | rw [if_pos (by omega)])
  refine filter_wf ?_ hw
  try simp only [BitVec.ofNat_toNat, BitVec.setWidth_eq]
  try congr 1 <;> (apply BitVec.eq_of_toNat_eq; simp only [BitVec.toNat_ofNat]; omega)

theorem RoundTrip.vnshr (d a b : BitVec 5) (k : BitVec 3) (e f : BitVec 1) : RoundTrip.Statement (.vnshr d a b k e f) := by
  have := d.isLt
  have := a.isLt
  have := b.isLt
  have := k.isLt
  have := e.isLt
  have := f.isLt
  refine roundTrip32 0x22 d.toNat a.toNat b.toNat (k.toNat * 32 + e.toNat * 16 + f.toNat * 8 + 2) rfl (by decide) (by omega) (by omega) (by omega) (by omega) fun hw => ?_
  show (dec22 d.toNat a.toNat b.toNat (k.toNat * 32 + e.toNat * 16 + f.toNat * 8 + 2)).filter Instr.wf = _
  unfold dec22
  repeat (first | rw [if_neg (by omega)] | rw [if_pos (by omega)])
  refine filter_wf ?_ hw
  try simp only [BitVec.ofNat_toNat, BitVec.setWidth_eq]
  try congr 1 <;> (apply BitVec.eq_of_toNat_eq; simp only [BitVec.toNat_ofNat]; omega)

theorem RoundTrip.vwmul (d a b : BitVec 5) (k : BitVec 3) (e f : BitVec 1) : RoundTrip.Statement (.vwmul d a b k e f) := by
  have := d.isLt
  have := a.isLt
  have := b.isLt
  have := k.isLt
  have := e.isLt
  have := f.isLt
  refine roundTrip32 0x22 d.toNat a.toNat b.toNat (k.toNat * 32 + e.toNat * 16 + f.toNat * 8 + 3) rfl (by decide) (by omega) (by omega) (by omega) (by omega) fun hw => ?_
  show (dec22 d.toNat a.toNat b.toNat (k.toNat * 32 + e.toNat * 16 + f.toNat * 8 + 3)).filter Instr.wf = _
  unfold dec22
  repeat (first | rw [if_neg (by omega)] | rw [if_pos (by omega)])
  refine filter_wf ?_ hw
  try simp only [BitVec.ofNat_toNat, BitVec.setWidth_eq]
  try congr 1 <;> (apply BitVec.eq_of_toNat_eq; simp only [BitVec.toNat_ofNat]; omega)

theorem RoundTrip.vwmac (d a b : BitVec 5) (k : BitVec 3) (e f : BitVec 1) : RoundTrip.Statement (.vwmac d a b k e f) := by
  have := d.isLt
  have := a.isLt
  have := b.isLt
  have := k.isLt
  have := e.isLt
  have := f.isLt
  refine roundTrip32 0x22 d.toNat a.toNat b.toNat (k.toNat * 32 + e.toNat * 16 + f.toNat * 8 + 4) rfl (by decide) (by omega) (by omega) (by omega) (by omega) fun hw => ?_
  show (dec22 d.toNat a.toNat b.toNat (k.toNat * 32 + e.toNat * 16 + f.toNat * 8 + 4)).filter Instr.wf = _
  unfold dec22
  repeat (first | rw [if_neg (by omega)] | rw [if_pos (by omega)])
  refine filter_wf ?_ hw
  try simp only [BitVec.ofNat_toNat, BitVec.setWidth_eq]
  try congr 1 <;> (apply BitVec.eq_of_toNat_eq; simp only [BitVec.toNat_ofNat]; omega)

theorem RoundTrip.vabs (d a : BitVec 5) (k : BitVec 3) (e : BitVec 1) : RoundTrip.Statement (.vabs d a k e) := by
  have := d.isLt
  have := a.isLt
  have := k.isLt
  have := e.isLt
  refine roundTrip32 0x22 d.toNat a.toNat 0 (k.toNat * 32 + e.toNat * 16 + 5) rfl (by decide) (by omega) (by omega) (by omega) (by omega) fun hw => ?_
  show (dec22 d.toNat a.toNat 0 (k.toNat * 32 + e.toNat * 16 + 5)).filter Instr.wf = _
  unfold dec22
  repeat (first | rw [if_neg (by omega)] | rw [if_pos (by omega)])
  refine filter_wf ?_ hw
  try simp only [BitVec.ofNat_toNat, BitVec.setWidth_eq]
  try congr 1 <;> (apply BitVec.eq_of_toNat_eq; simp only [BitVec.toNat_ofNat]; omega)

theorem RoundTrip.vmulhn (d a b : BitVec 5) (k : BitVec 3) (e f : BitVec 1) : RoundTrip.Statement (.vmulhn d a b k e f) := by
  have := d.isLt
  have := a.isLt
  have := b.isLt
  have := k.isLt
  have := e.isLt
  have := f.isLt
  refine roundTrip32 0x22 d.toNat a.toNat b.toNat (k.toNat * 32 + e.toNat * 16 + f.toNat * 8 + 6) rfl (by decide) (by omega) (by omega) (by omega) (by omega) fun hw => ?_
  show (dec22 d.toNat a.toNat b.toNat (k.toNat * 32 + e.toNat * 16 + f.toNat * 8 + 6)).filter Instr.wf = _
  unfold dec22
  repeat (first | rw [if_neg (by omega)] | rw [if_pos (by omega)])
  refine filter_wf ?_ hw
  try simp only [BitVec.ofNat_toNat, BitVec.setWidth_eq]
  try congr 1 <;> (apply BitVec.eq_of_toNat_eq; simp only [BitVec.toNat_ofNat]; omega)

theorem RoundTrip.vavg (d a b : BitVec 5) (k : BitVec 3) (e f : BitVec 1) : RoundTrip.Statement (.vavg d a b k e f) := by
  have := d.isLt
  have := a.isLt
  have := b.isLt
  have := k.isLt
  have := e.isLt
  have := f.isLt
  refine roundTrip32 0x22 d.toNat a.toNat b.toNat (k.toNat * 32 + e.toNat * 16 + f.toNat * 8 + 7) rfl (by decide) (by omega) (by omega) (by omega) (by omega) fun hw => ?_
  show (dec22 d.toNat a.toNat b.toNat (k.toNat * 32 + e.toNat * 16 + f.toNat * 8 + 7)).filter Instr.wf = _
  unfold dec22
  repeat (first | rw [if_neg (by omega)] | rw [if_pos (by omega)])
  refine filter_wf ?_ hw
  try simp only [BitVec.ofNat_toNat, BitVec.setWidth_eq]
  try congr 1 <;> (apply BitVec.eq_of_toNat_eq; simp only [BitVec.toNat_ofNat]; omega)

theorem RoundTrip.vaddX (d a b : BitVec 5) (k : BitVec 3) (e : BitVec 1) : RoundTrip.Statement (.vaddX d a b k e) := by
  have := d.isLt
  have := a.isLt
  have := b.isLt
  have := k.isLt
  have := e.isLt
  refine roundTrip32 0x23 d.toNat a.toNat b.toNat (k.toNat * 32 + e.toNat * 16) rfl (by decide) (by omega) (by omega) (by omega) (by omega) fun hw => ?_
  show (dec23 d.toNat a.toNat b.toNat (k.toNat * 32 + e.toNat * 16)).filter Instr.wf = _
  unfold dec23
  repeat (first | rw [if_neg (by omega)] | rw [if_pos (by omega)])
  refine filter_wf ?_ hw
  try simp only [BitVec.ofNat_toNat, BitVec.setWidth_eq]
  try congr 1 <;> (apply BitVec.eq_of_toNat_eq; simp only [BitVec.toNat_ofNat]; omega)

theorem RoundTrip.vsubX (d a b : BitVec 5) (k : BitVec 3) (e : BitVec 1) : RoundTrip.Statement (.vsubX d a b k e) := by
  have := d.isLt
  have := a.isLt
  have := b.isLt
  have := k.isLt
  have := e.isLt
  refine roundTrip32 0x23 d.toNat a.toNat b.toNat (k.toNat * 32 + e.toNat * 16 + 1) rfl (by decide) (by omega) (by omega) (by omega) (by omega) fun hw => ?_
  show (dec23 d.toNat a.toNat b.toNat (k.toNat * 32 + e.toNat * 16 + 1)).filter Instr.wf = _
  unfold dec23
  repeat (first | rw [if_neg (by omega)] | rw [if_pos (by omega)])
  refine filter_wf ?_ hw
  try simp only [BitVec.ofNat_toNat, BitVec.setWidth_eq]
  try congr 1 <;> (apply BitVec.eq_of_toNat_eq; simp only [BitVec.toNat_ofNat]; omega)

theorem RoundTrip.vmulX (d a b : BitVec 5) (k : BitVec 3) (e : BitVec 1) : RoundTrip.Statement (.vmulX d a b k e) := by
  have := d.isLt
  have := a.isLt
  have := b.isLt
  have := k.isLt
  have := e.isLt
  refine roundTrip32 0x23 d.toNat a.toNat b.toNat (k.toNat * 32 + e.toNat * 16 + 2) rfl (by decide) (by omega) (by omega) (by omega) (by omega) fun hw => ?_
  show (dec23 d.toNat a.toNat b.toNat (k.toNat * 32 + e.toNat * 16 + 2)).filter Instr.wf = _
  unfold dec23
  repeat (first | rw [if_neg (by omega)] | rw [if_pos (by omega)])
  refine filter_wf ?_ hw
  try simp only [BitVec.ofNat_toNat, BitVec.setWidth_eq]
  try congr 1 <;> (apply BitVec.eq_of_toNat_eq; simp only [BitVec.toNat_ofNat]; omega)

theorem RoundTrip.vmulhX (d a b : BitVec 5) (k : BitVec 3) (e : BitVec 1) : RoundTrip.Statement (.vmulhX d a b k e) := by
  have := d.isLt
  have := a.isLt
  have := b.isLt
  have := k.isLt
  have := e.isLt
  refine roundTrip32 0x23 d.toNat a.toNat b.toNat (k.toNat * 32 + e.toNat * 16 + 3) rfl (by decide) (by omega) (by omega) (by omega) (by omega) fun hw => ?_
  show (dec23 d.toNat a.toNat b.toNat (k.toNat * 32 + e.toNat * 16 + 3)).filter Instr.wf = _
  unfold dec23
  repeat (first | rw [if_neg (by omega)] | rw [if_pos (by omega)])
  refine filter_wf ?_ hw
  try simp only [BitVec.ofNat_toNat, BitVec.setWidth_eq]
  try congr 1 <;> (apply BitVec.eq_of_toNat_eq; simp only [BitVec.toNat_ofNat]; omega)

theorem RoundTrip.vminX (d a b : BitVec 5) (k : BitVec 3) (e : BitVec 1) : RoundTrip.Statement (.vminX d a b k e) := by
  have := d.isLt
  have := a.isLt
  have := b.isLt
  have := k.isLt
  have := e.isLt
  refine roundTrip32 0x23 d.toNat a.toNat b.toNat (k.toNat * 32 + e.toNat * 16 + 4) rfl (by decide) (by omega) (by omega) (by omega) (by omega) fun hw => ?_
  show (dec23 d.toNat a.toNat b.toNat (k.toNat * 32 + e.toNat * 16 + 4)).filter Instr.wf = _
  unfold dec23
  repeat (first | rw [if_neg (by omega)] | rw [if_pos (by omega)])
  refine filter_wf ?_ hw
  try simp only [BitVec.ofNat_toNat, BitVec.setWidth_eq]
  try congr 1 <;> (apply BitVec.eq_of_toNat_eq; simp only [BitVec.toNat_ofNat]; omega)

theorem RoundTrip.vmaxX (d a b : BitVec 5) (k : BitVec 3) (e : BitVec 1) : RoundTrip.Statement (.vmaxX d a b k e) := by
  have := d.isLt
  have := a.isLt
  have := b.isLt
  have := k.isLt
  have := e.isLt
  refine roundTrip32 0x23 d.toNat a.toNat b.toNat (k.toNat * 32 + e.toNat * 16 + 5) rfl (by decide) (by omega) (by omega) (by omega) (by omega) fun hw => ?_
  show (dec23 d.toNat a.toNat b.toNat (k.toNat * 32 + e.toNat * 16 + 5)).filter Instr.wf = _
  unfold dec23
  repeat (first | rw [if_neg (by omega)] | rw [if_pos (by omega)])
  refine filter_wf ?_ hw
  try simp only [BitVec.ofNat_toNat, BitVec.setWidth_eq]
  try congr 1 <;> (apply BitVec.eq_of_toNat_eq; simp only [BitVec.toNat_ofNat]; omega)

theorem RoundTrip.vminnX (d a b : BitVec 5) (k : BitVec 3) (e : BitVec 1) : RoundTrip.Statement (.vminnX d a b k e) := by
  have := d.isLt
  have := a.isLt
  have := b.isLt
  have := k.isLt
  have := e.isLt
  refine roundTrip32 0x23 d.toNat a.toNat b.toNat (k.toNat * 32 + e.toNat * 16 + 6) rfl (by decide) (by omega) (by omega) (by omega) (by omega) fun hw => ?_
  show (dec23 d.toNat a.toNat b.toNat (k.toNat * 32 + e.toNat * 16 + 6)).filter Instr.wf = _
  unfold dec23
  repeat (first | rw [if_neg (by omega)] | rw [if_pos (by omega)])
  refine filter_wf ?_ hw
  try simp only [BitVec.ofNat_toNat, BitVec.setWidth_eq]
  try congr 1 <;> (apply BitVec.eq_of_toNat_eq; simp only [BitVec.toNat_ofNat]; omega)

theorem RoundTrip.vmaxnX (d a b : BitVec 5) (k : BitVec 3) (e : BitVec 1) : RoundTrip.Statement (.vmaxnX d a b k e) := by
  have := d.isLt
  have := a.isLt
  have := b.isLt
  have := k.isLt
  have := e.isLt
  refine roundTrip32 0x23 d.toNat a.toNat b.toNat (k.toNat * 32 + e.toNat * 16 + 7) rfl (by decide) (by omega) (by omega) (by omega) (by omega) fun hw => ?_
  show (dec23 d.toNat a.toNat b.toNat (k.toNat * 32 + e.toNat * 16 + 7)).filter Instr.wf = _
  unfold dec23
  repeat (first | rw [if_neg (by omega)] | rw [if_pos (by omega)])
  refine filter_wf ?_ hw
  try simp only [BitVec.ofNat_toNat, BitVec.setWidth_eq]
  try congr 1 <;> (apply BitVec.eq_of_toNat_eq; simp only [BitVec.toNat_ofNat]; omega)

theorem RoundTrip.vandX (d a b : BitVec 5) (k : BitVec 3) (e : BitVec 1) : RoundTrip.Statement (.vandX d a b k e) := by
  have := d.isLt
  have := a.isLt
  have := b.isLt
  have := k.isLt
  have := e.isLt
  refine roundTrip32 0x24 d.toNat a.toNat b.toNat (k.toNat * 32 + e.toNat * 16) rfl (by decide) (by omega) (by omega) (by omega) (by omega) fun hw => ?_
  show (dec24 d.toNat a.toNat b.toNat (k.toNat * 32 + e.toNat * 16)).filter Instr.wf = _
  unfold dec24
  repeat (first | rw [if_neg (by omega)] | rw [if_pos (by omega)])
  refine filter_wf ?_ hw
  try simp only [BitVec.ofNat_toNat, BitVec.setWidth_eq]
  try congr 1 <;> (apply BitVec.eq_of_toNat_eq; simp only [BitVec.toNat_ofNat]; omega)

theorem RoundTrip.vorX (d a b : BitVec 5) (k : BitVec 3) (e : BitVec 1) : RoundTrip.Statement (.vorX d a b k e) := by
  have := d.isLt
  have := a.isLt
  have := b.isLt
  have := k.isLt
  have := e.isLt
  refine roundTrip32 0x24 d.toNat a.toNat b.toNat (k.toNat * 32 + e.toNat * 16 + 1) rfl (by decide) (by omega) (by omega) (by omega) (by omega) fun hw => ?_
  show (dec24 d.toNat a.toNat b.toNat (k.toNat * 32 + e.toNat * 16 + 1)).filter Instr.wf = _
  unfold dec24
  repeat (first | rw [if_neg (by omega)] | rw [if_pos (by omega)])
  refine filter_wf ?_ hw
  try simp only [BitVec.ofNat_toNat, BitVec.setWidth_eq]
  try congr 1 <;> (apply BitVec.eq_of_toNat_eq; simp only [BitVec.toNat_ofNat]; omega)

theorem RoundTrip.vxorX (d a b : BitVec 5) (k : BitVec 3) (e : BitVec 1) : RoundTrip.Statement (.vxorX d a b k e) := by
  have := d.isLt
  have := a.isLt
  have := b.isLt
  have := k.isLt
  have := e.isLt
  refine roundTrip32 0x24 d.toNat a.toNat b.toNat (k.toNat * 32 + e.toNat * 16 + 2) rfl (by decide) (by omega) (by omega) (by omega) (by omega) fun hw => ?_
  show (dec24 d.toNat a.toNat b.toNat (k.toNat * 32 + e.toNat * 16 + 2)).filter Instr.wf = _
  unfold dec24
  repeat (first | rw [if_neg (by omega)] | rw [if_pos (by omega)])
  refine filter_wf ?_ hw
  try simp only [BitVec.ofNat_toNat, BitVec.setWidth_eq]
  try congr 1 <;> (apply BitVec.eq_of_toNat_eq; simp only [BitVec.toNat_ofNat]; omega)

theorem RoundTrip.vandnX (d a b : BitVec 5) (k : BitVec 3) (e : BitVec 1) : RoundTrip.Statement (.vandnX d a b k e) := by
  have := d.isLt
  have := a.isLt
  have := b.isLt
  have := k.isLt
  have := e.isLt
  refine roundTrip32 0x24 d.toNat a.toNat b.toNat (k.toNat * 32 + e.toNat * 16 + 3) rfl (by decide) (by omega) (by omega) (by omega) (by omega) fun hw => ?_
  show (dec24 d.toNat a.toNat b.toNat (k.toNat * 32 + e.toNat * 16 + 3)).filter Instr.wf = _
  unfold dec24
  repeat (first | rw [if_neg (by omega)] | rw [if_pos (by omega)])
  refine filter_wf ?_ hw
  try simp only [BitVec.ofNat_toNat, BitVec.setWidth_eq]
  try congr 1 <;> (apply BitVec.eq_of_toNat_eq; simp only [BitVec.toNat_ofNat]; omega)

theorem RoundTrip.vsllX (d a b : BitVec 5) (k : BitVec 3) (e : BitVec 1) : RoundTrip.Statement (.vsllX d a b k e) := by
  have := d.isLt
  have := a.isLt
  have := b.isLt
  have := k.isLt
  have := e.isLt
  refine roundTrip32 0x24 d.toNat a.toNat b.toNat (k.toNat * 32 + e.toNat * 16 + 4) rfl (by decide) (by omega) (by omega) (by omega) (by omega) fun hw => ?_
  show (dec24 d.toNat a.toNat b.toNat (k.toNat * 32 + e.toNat * 16 + 4)).filter Instr.wf = _
  unfold dec24
  repeat (first | rw [if_neg (by omega)] | rw [if_pos (by omega)])
  refine filter_wf ?_ hw
  try simp only [BitVec.ofNat_toNat, BitVec.setWidth_eq]
  try congr 1 <;> (apply BitVec.eq_of_toNat_eq; simp only [BitVec.toNat_ofNat]; omega)

theorem RoundTrip.vsrlX (d a b : BitVec 5) (k : BitVec 3) (e : BitVec 1) : RoundTrip.Statement (.vsrlX d a b k e) := by
  have := d.isLt
  have := a.isLt
  have := b.isLt
  have := k.isLt
  have := e.isLt
  refine roundTrip32 0x24 d.toNat a.toNat b.toNat (k.toNat * 32 + e.toNat * 16 + 5) rfl (by decide) (by omega) (by omega) (by omega) (by omega) fun hw => ?_
  show (dec24 d.toNat a.toNat b.toNat (k.toNat * 32 + e.toNat * 16 + 5)).filter Instr.wf = _
  unfold dec24
  repeat (first | rw [if_neg (by omega)] | rw [if_pos (by omega)])
  refine filter_wf ?_ hw
  try simp only [BitVec.ofNat_toNat, BitVec.setWidth_eq]
  try congr 1 <;> (apply BitVec.eq_of_toNat_eq; simp only [BitVec.toNat_ofNat]; omega)

theorem RoundTrip.vsraX (d a b : BitVec 5) (k : BitVec 3) (e : BitVec 1) : RoundTrip.Statement (.vsraX d a b k e) := by
  have := d.isLt
  have := a.isLt
  have := b.isLt
  have := k.isLt
  have := e.isLt
  refine roundTrip32 0x24 d.toNat a.toNat b.toNat (k.toNat * 32 + e.toNat * 16 + 6) rfl (by decide) (by omega) (by omega) (by omega) (by omega) fun hw => ?_
  show (dec24 d.toNat a.toNat b.toNat (k.toNat * 32 + e.toNat * 16 + 6)).filter Instr.wf = _
  unfold dec24
  repeat (first | rw [if_neg (by omega)] | rw [if_pos (by omega)])
  refine filter_wf ?_ hw
  try simp only [BitVec.ofNat_toNat, BitVec.setWidth_eq]
  try congr 1 <;> (apply BitVec.eq_of_toNat_eq; simp only [BitVec.toNat_ofNat]; omega)

theorem RoundTrip.vmergeX (d a b : BitVec 5) (k : BitVec 3) (e : BitVec 1) : RoundTrip.Statement (.vmergeX d a b k e) := by
  have := d.isLt
  have := a.isLt
  have := b.isLt
  have := k.isLt
  have := e.isLt
  refine roundTrip32 0x24 d.toNat a.toNat b.toNat (k.toNat * 32 + e.toNat * 16 + 7) rfl (by decide) (by omega) (by omega) (by omega) (by omega) fun hw => ?_
  show (dec24 d.toNat a.toNat b.toNat (k.toNat * 32 + e.toNat * 16 + 7)).filter Instr.wf = _
  unfold dec24
  repeat (first | rw [if_neg (by omega)] | rw [if_pos (by omega)])
  refine filter_wf ?_ hw
  try simp only [BitVec.ofNat_toNat, BitVec.setWidth_eq]
  try congr 1 <;> (apply BitVec.eq_of_toNat_eq; simp only [BitVec.toNat_ofNat]; omega)

theorem RoundTrip.vfadd (d a b : BitVec 5) (k : BitVec 3) (e f : BitVec 1) : RoundTrip.Statement (.vfadd d a b k e f) := by
  have := d.isLt
  have := a.isLt
  have := b.isLt
  have := k.isLt
  have := e.isLt
  have := f.isLt
  refine roundTrip32 0x25 d.toNat a.toNat b.toNat (k.toNat * 32 + e.toNat * 16 + f.toNat * 8) rfl (by decide) (by omega) (by omega) (by omega) (by omega) fun hw => ?_
  show (dec25 d.toNat a.toNat b.toNat (k.toNat * 32 + e.toNat * 16 + f.toNat * 8)).filter Instr.wf = _
  unfold dec25
  repeat (first | rw [if_neg (by omega)] | rw [if_pos (by omega)])
  refine filter_wf ?_ hw
  try simp only [BitVec.ofNat_toNat, BitVec.setWidth_eq]
  try congr 1 <;> (apply BitVec.eq_of_toNat_eq; simp only [BitVec.toNat_ofNat]; omega)

theorem RoundTrip.vfsub (d a b : BitVec 5) (k : BitVec 3) (e f : BitVec 1) : RoundTrip.Statement (.vfsub d a b k e f) := by
  have := d.isLt
  have := a.isLt
  have := b.isLt
  have := k.isLt
  have := e.isLt
  have := f.isLt
  refine roundTrip32 0x25 d.toNat a.toNat b.toNat (k.toNat * 32 + e.toNat * 16 + f.toNat * 8 + 1) rfl (by decide) (by omega) (by omega) (by omega) (by omega) fun hw => ?_
  show (dec25 d.toNat a.toNat b.toNat (k.toNat * 32 + e.toNat * 16 + f.toNat * 8 + 1)).filter Instr.wf = _
  unfold dec25
  repeat (first | rw [if_neg (by omega)] | rw [if_pos (by omega)])
  refine filter_wf ?_ hw
  try simp only [BitVec.ofNat_toNat, BitVec.setWidth_eq]
  try congr 1 <;> (apply BitVec.eq_of_toNat_eq; simp only [BitVec.toNat_ofNat]; omega)

theorem RoundTrip.vfmul (d a b : BitVec 5) (k : BitVec 3) (e f : BitVec 1) : RoundTrip.Statement (.vfmul d a b k e f) := by
  have := d.isLt
  have := a.isLt
  have := b.isLt
  have := k.isLt
  have := e.isLt
  have := f.isLt
  refine roundTrip32 0x25 d.toNat a.toNat b.toNat (k.toNat * 32 + e.toNat * 16 + f.toNat * 8 + 2) rfl (by decide) (by omega) (by omega) (by omega) (by omega) fun hw => ?_
  show (dec25 d.toNat a.toNat b.toNat (k.toNat * 32 + e.toNat * 16 + f.toNat * 8 + 2)).filter Instr.wf = _
  unfold dec25
  repeat (first | rw [if_neg (by omega)] | rw [if_pos (by omega)])
  refine filter_wf ?_ hw
  try simp only [BitVec.ofNat_toNat, BitVec.setWidth_eq]
  try congr 1 <;> (apply BitVec.eq_of_toNat_eq; simp only [BitVec.toNat_ofNat]; omega)

theorem RoundTrip.vfdiv (d a b : BitVec 5) (k : BitVec 3) (e f : BitVec 1) : RoundTrip.Statement (.vfdiv d a b k e f) := by
  have := d.isLt
  have := a.isLt
  have := b.isLt
  have := k.isLt
  have := e.isLt
  have := f.isLt
  refine roundTrip32 0x25 d.toNat a.toNat b.toNat (k.toNat * 32 + e.toNat * 16 + f.toNat * 8 + 3) rfl (by decide) (by omega) (by omega) (by omega) (by omega) fun hw => ?_
  show (dec25 d.toNat a.toNat b.toNat (k.toNat * 32 + e.toNat * 16 + f.toNat * 8 + 3)).filter Instr.wf = _
  unfold dec25
  repeat (first | rw [if_neg (by omega)] | rw [if_pos (by omega)])
  refine filter_wf ?_ hw
  try simp only [BitVec.ofNat_toNat, BitVec.setWidth_eq]
  try congr 1 <;> (apply BitVec.eq_of_toNat_eq; simp only [BitVec.toNat_ofNat]; omega)

theorem RoundTrip.vfmin (d a b : BitVec 5) (k : BitVec 3) (e f : BitVec 1) : RoundTrip.Statement (.vfmin d a b k e f) := by
  have := d.isLt
  have := a.isLt
  have := b.isLt
  have := k.isLt
  have := e.isLt
  have := f.isLt
  refine roundTrip32 0x25 d.toNat a.toNat b.toNat (k.toNat * 32 + e.toNat * 16 + f.toNat * 8 + 4) rfl (by decide) (by omega) (by omega) (by omega) (by omega) fun hw => ?_
  show (dec25 d.toNat a.toNat b.toNat (k.toNat * 32 + e.toNat * 16 + f.toNat * 8 + 4)).filter Instr.wf = _
  unfold dec25
  repeat (first | rw [if_neg (by omega)] | rw [if_pos (by omega)])
  refine filter_wf ?_ hw
  try simp only [BitVec.ofNat_toNat, BitVec.setWidth_eq]
  try congr 1 <;> (apply BitVec.eq_of_toNat_eq; simp only [BitVec.toNat_ofNat]; omega)

theorem RoundTrip.vfmax (d a b : BitVec 5) (k : BitVec 3) (e f : BitVec 1) : RoundTrip.Statement (.vfmax d a b k e f) := by
  have := d.isLt
  have := a.isLt
  have := b.isLt
  have := k.isLt
  have := e.isLt
  have := f.isLt
  refine roundTrip32 0x25 d.toNat a.toNat b.toNat (k.toNat * 32 + e.toNat * 16 + f.toNat * 8 + 5) rfl (by decide) (by omega) (by omega) (by omega) (by omega) fun hw => ?_
  show (dec25 d.toNat a.toNat b.toNat (k.toNat * 32 + e.toNat * 16 + f.toNat * 8 + 5)).filter Instr.wf = _
  unfold dec25
  repeat (first | rw [if_neg (by omega)] | rw [if_pos (by omega)])
  refine filter_wf ?_ hw
  try simp only [BitVec.ofNat_toNat, BitVec.setWidth_eq]
  try congr 1 <;> (apply BitVec.eq_of_toNat_eq; simp only [BitVec.toNat_ofNat]; omega)

theorem RoundTrip.vfsqrt (d a : BitVec 5) (k : BitVec 3) (e : BitVec 1) : RoundTrip.Statement (.vfsqrt d a k e) := by
  have := d.isLt
  have := a.isLt
  have := k.isLt
  have := e.isLt
  refine roundTrip32 0x25 d.toNat a.toNat 0 (k.toNat * 32 + e.toNat * 16 + 6) rfl (by decide) (by omega) (by omega) (by omega) (by omega) fun hw => ?_
  show (dec25 d.toNat a.toNat 0 (k.toNat * 32 + e.toNat * 16 + 6)).filter Instr.wf = _
  unfold dec25
  repeat (first | rw [if_neg (by omega)] | rw [if_pos (by omega)])
  refine filter_wf ?_ hw
  try simp only [BitVec.ofNat_toNat, BitVec.setWidth_eq]
  try congr 1 <;> (apply BitVec.eq_of_toNat_eq; simp only [BitVec.toNat_ofNat]; omega)

theorem RoundTrip.vfabs (d a : BitVec 5) (k : BitVec 3) (e : BitVec 1) : RoundTrip.Statement (.vfabs d a k e) := by
  have := d.isLt
  have := a.isLt
  have := k.isLt
  have := e.isLt
  refine roundTrip32 0x25 d.toNat a.toNat 0 (k.toNat * 32 + e.toNat * 16 + 7) rfl (by decide) (by omega) (by omega) (by omega) (by omega) fun hw => ?_
  show (dec25 d.toNat a.toNat 0 (k.toNat * 32 + e.toNat * 16 + 7)).filter Instr.wf = _
  unfold dec25
  repeat (first | rw [if_neg (by omega)] | rw [if_pos (by omega)])
  refine filter_wf ?_ hw
  try simp only [BitVec.ofNat_toNat, BitVec.setWidth_eq]
  try congr 1 <;> (apply BitVec.eq_of_toNat_eq; simp only [BitVec.toNat_ofNat]; omega)

theorem RoundTrip.vffma (d a b : BitVec 5) (k : BitVec 3) (e f : BitVec 1) : RoundTrip.Statement (.vffma d a b k e f) := by
  have := d.isLt
  have := a.isLt
  have := b.isLt
  have := k.isLt
  have := e.isLt
  have := f.isLt
  refine roundTrip32 0x26 d.toNat a.toNat b.toNat (k.toNat * 32 + e.toNat * 16 + f.toNat * 8) rfl (by decide) (by omega) (by omega) (by omega) (by omega) fun hw => ?_
  show (dec26 d.toNat a.toNat b.toNat (k.toNat * 32 + e.toNat * 16 + f.toNat * 8)).filter Instr.wf = _
  unfold dec26
  repeat (first | rw [if_neg (by omega)] | rw [if_pos (by omega)])
  refine filter_wf ?_ hw
  try simp only [BitVec.ofNat_toNat, BitVec.setWidth_eq]
  try congr 1 <;> (apply BitVec.eq_of_toNat_eq; simp only [BitVec.toNat_ofNat]; omega)

theorem RoundTrip.vffms (d a b : BitVec 5) (k : BitVec 3) (e f : BitVec 1) : RoundTrip.Statement (.vffms d a b k e f) := by
  have := d.isLt
  have := a.isLt
  have := b.isLt
  have := k.isLt
  have := e.isLt
  have := f.isLt
  refine roundTrip32 0x26 d.toNat a.toNat b.toNat (k.toNat * 32 + e.toNat * 16 + f.toNat * 8 + 1) rfl (by decide) (by omega) (by omega) (by omega) (by omega) fun hw => ?_
  show (dec26 d.toNat a.toNat b.toNat (k.toNat * 32 + e.toNat * 16 + f.toNat * 8 + 1)).filter Instr.wf = _
  unfold dec26
  repeat (first | rw [if_neg (by omega)] | rw [if_pos (by omega)])
  refine filter_wf ?_ hw
  try simp only [BitVec.ofNat_toNat, BitVec.setWidth_eq]
  try congr 1 <;> (apply BitVec.eq_of_toNat_eq; simp only [BitVec.toNat_ofNat]; omega)

theorem RoundTrip.vfnma (d a b : BitVec 5) (k : BitVec 3) (e f : BitVec 1) : RoundTrip.Statement (.vfnma d a b k e f) := by
  have := d.isLt
  have := a.isLt
  have := b.isLt
  have := k.isLt
  have := e.isLt
  have := f.isLt
  refine roundTrip32 0x26 d.toNat a.toNat b.toNat (k.toNat * 32 + e.toNat * 16 + f.toNat * 8 + 2) rfl (by decide) (by omega) (by omega) (by omega) (by omega) fun hw => ?_
  show (dec26 d.toNat a.toNat b.toNat (k.toNat * 32 + e.toNat * 16 + f.toNat * 8 + 2)).filter Instr.wf = _
  unfold dec26
  repeat (first | rw [if_neg (by omega)] | rw [if_pos (by omega)])
  refine filter_wf ?_ hw
  try simp only [BitVec.ofNat_toNat, BitVec.setWidth_eq]
  try congr 1 <;> (apply BitVec.eq_of_toNat_eq; simp only [BitVec.toNat_ofNat]; omega)

theorem RoundTrip.vfnms (d a b : BitVec 5) (k : BitVec 3) (e f : BitVec 1) : RoundTrip.Statement (.vfnms d a b k e f) := by
  have := d.isLt
  have := a.isLt
  have := b.isLt
  have := k.isLt
  have := e.isLt
  have := f.isLt
  refine roundTrip32 0x26 d.toNat a.toNat b.toNat (k.toNat * 32 + e.toNat * 16 + f.toNat * 8 + 3) rfl (by decide) (by omega) (by omega) (by omega) (by omega) fun hw => ?_
  show (dec26 d.toNat a.toNat b.toNat (k.toNat * 32 + e.toNat * 16 + f.toNat * 8 + 3)).filter Instr.wf = _
  unfold dec26
  repeat (first | rw [if_neg (by omega)] | rw [if_pos (by omega)])
  refine filter_wf ?_ hw
  try simp only [BitVec.ofNat_toNat, BitVec.setWidth_eq]
  try congr 1 <;> (apply BitVec.eq_of_toNat_eq; simp only [BitVec.toNat_ofNat]; omega)

theorem RoundTrip.vfaddX (d a b : BitVec 5) (k : BitVec 3) (e : BitVec 1) : RoundTrip.Statement (.vfaddX d a b k e) := by
  have := d.isLt
  have := a.isLt
  have := b.isLt
  have := k.isLt
  have := e.isLt
  refine roundTrip32 0x27 d.toNat a.toNat b.toNat (k.toNat * 32 + e.toNat * 16) rfl (by decide) (by omega) (by omega) (by omega) (by omega) fun hw => ?_
  show (dec27 d.toNat a.toNat b.toNat (k.toNat * 32 + e.toNat * 16)).filter Instr.wf = _
  unfold dec27
  repeat (first | rw [if_neg (by omega)] | rw [if_pos (by omega)])
  refine filter_wf ?_ hw
  try simp only [BitVec.ofNat_toNat, BitVec.setWidth_eq]
  try congr 1 <;> (apply BitVec.eq_of_toNat_eq; simp only [BitVec.toNat_ofNat]; omega)

theorem RoundTrip.vfsubX (d a b : BitVec 5) (k : BitVec 3) (e : BitVec 1) : RoundTrip.Statement (.vfsubX d a b k e) := by
  have := d.isLt
  have := a.isLt
  have := b.isLt
  have := k.isLt
  have := e.isLt
  refine roundTrip32 0x27 d.toNat a.toNat b.toNat (k.toNat * 32 + e.toNat * 16 + 1) rfl (by decide) (by omega) (by omega) (by omega) (by omega) fun hw => ?_
  show (dec27 d.toNat a.toNat b.toNat (k.toNat * 32 + e.toNat * 16 + 1)).filter Instr.wf = _
  unfold dec27
  repeat (first | rw [if_neg (by omega)] | rw [if_pos (by omega)])
  refine filter_wf ?_ hw
  try simp only [BitVec.ofNat_toNat, BitVec.setWidth_eq]
  try congr 1 <;> (apply BitVec.eq_of_toNat_eq; simp only [BitVec.toNat_ofNat]; omega)

theorem RoundTrip.vfmulX (d a b : BitVec 5) (k : BitVec 3) (e : BitVec 1) : RoundTrip.Statement (.vfmulX d a b k e) := by
  have := d.isLt
  have := a.isLt
  have := b.isLt
  have := k.isLt
  have := e.isLt
  refine roundTrip32 0x27 d.toNat a.toNat b.toNat (k.toNat * 32 + e.toNat * 16 + 2) rfl (by decide) (by omega) (by omega) (by omega) (by omega) fun hw => ?_
  show (dec27 d.toNat a.toNat b.toNat (k.toNat * 32 + e.toNat * 16 + 2)).filter Instr.wf = _
  unfold dec27
  repeat (first | rw [if_neg (by omega)] | rw [if_pos (by omega)])
  refine filter_wf ?_ hw
  try simp only [BitVec.ofNat_toNat, BitVec.setWidth_eq]
  try congr 1 <;> (apply BitVec.eq_of_toNat_eq; simp only [BitVec.toNat_ofNat]; omega)

theorem RoundTrip.vfdivX (d a b : BitVec 5) (k : BitVec 3) (e : BitVec 1) : RoundTrip.Statement (.vfdivX d a b k e) := by
  have := d.isLt
  have := a.isLt
  have := b.isLt
  have := k.isLt
  have := e.isLt
  refine roundTrip32 0x27 d.toNat a.toNat b.toNat (k.toNat * 32 + e.toNat * 16 + 3) rfl (by decide) (by omega) (by omega) (by omega) (by omega) fun hw => ?_
  show (dec27 d.toNat a.toNat b.toNat (k.toNat * 32 + e.toNat * 16 + 3)).filter Instr.wf = _
  unfold dec27
  repeat (first | rw [if_neg (by omega)] | rw [if_pos (by omega)])
  refine filter_wf ?_ hw
  try simp only [BitVec.ofNat_toNat, BitVec.setWidth_eq]
  try congr 1 <;> (apply BitVec.eq_of_toNat_eq; simp only [BitVec.toNat_ofNat]; omega)

theorem RoundTrip.vfminX (d a b : BitVec 5) (k : BitVec 3) (e : BitVec 1) : RoundTrip.Statement (.vfminX d a b k e) := by
  have := d.isLt
  have := a.isLt
  have := b.isLt
  have := k.isLt
  have := e.isLt
  refine roundTrip32 0x27 d.toNat a.toNat b.toNat (k.toNat * 32 + e.toNat * 16 + 4) rfl (by decide) (by omega) (by omega) (by omega) (by omega) fun hw => ?_
  show (dec27 d.toNat a.toNat b.toNat (k.toNat * 32 + e.toNat * 16 + 4)).filter Instr.wf = _
  unfold dec27
  repeat (first | rw [if_neg (by omega)] | rw [if_pos (by omega)])
  refine filter_wf ?_ hw
  try simp only [BitVec.ofNat_toNat, BitVec.setWidth_eq]
  try congr 1 <;> (apply BitVec.eq_of_toNat_eq; simp only [BitVec.toNat_ofNat]; omega)

theorem RoundTrip.vfmaxX (d a b : BitVec 5) (k : BitVec 3) (e : BitVec 1) : RoundTrip.Statement (.vfmaxX d a b k e) := by
  have := d.isLt
  have := a.isLt
  have := b.isLt
  have := k.isLt
  have := e.isLt
  refine roundTrip32 0x27 d.toNat a.toNat b.toNat (k.toNat * 32 + e.toNat * 16 + 5) rfl (by decide) (by omega) (by omega) (by omega) (by omega) fun hw => ?_
  show (dec27 d.toNat a.toNat b.toNat (k.toNat * 32 + e.toNat * 16 + 5)).filter Instr.wf = _
  unfold dec27
  repeat (first | rw [if_neg (by omega)] | rw [if_pos (by omega)])
  refine filter_wf ?_ hw
  try simp only [BitVec.ofNat_toNat, BitVec.setWidth_eq]
  try congr 1 <;> (apply BitVec.eq_of_toNat_eq; simp only [BitVec.toNat_ofNat]; omega)

theorem RoundTrip.vffmaX (d a b : BitVec 5) (k : BitVec 3) (e : BitVec 1) : RoundTrip.Statement (.vffmaX d a b k e) := by
  have := d.isLt
  have := a.isLt
  have := b.isLt
  have := k.isLt
  have := e.isLt
  refine roundTrip32 0x28 d.toNat a.toNat b.toNat (k.toNat * 32 + e.toNat * 16) rfl (by decide) (by omega) (by omega) (by omega) (by omega) fun hw => ?_
  show (dec28 d.toNat a.toNat b.toNat (k.toNat * 32 + e.toNat * 16)).filter Instr.wf = _
  unfold dec28
  repeat (first | rw [if_neg (by omega)] | rw [if_pos (by omega)])
  refine filter_wf ?_ hw
  try simp only [BitVec.ofNat_toNat, BitVec.setWidth_eq]
  try congr 1 <;> (apply BitVec.eq_of_toNat_eq; simp only [BitVec.toNat_ofNat]; omega)

theorem RoundTrip.vffmsX (d a b : BitVec 5) (k : BitVec 3) (e : BitVec 1) : RoundTrip.Statement (.vffmsX d a b k e) := by
  have := d.isLt
  have := a.isLt
  have := b.isLt
  have := k.isLt
  have := e.isLt
  refine roundTrip32 0x28 d.toNat a.toNat b.toNat (k.toNat * 32 + e.toNat * 16 + 1) rfl (by decide) (by omega) (by omega) (by omega) (by omega) fun hw => ?_
  show (dec28 d.toNat a.toNat b.toNat (k.toNat * 32 + e.toNat * 16 + 1)).filter Instr.wf = _
  unfold dec28
  repeat (first | rw [if_neg (by omega)] | rw [if_pos (by omega)])
  refine filter_wf ?_ hw
  try simp only [BitVec.ofNat_toNat, BitVec.setWidth_eq]
  try congr 1 <;> (apply BitVec.eq_of_toNat_eq; simp only [BitVec.toNat_ofNat]; omega)

theorem RoundTrip.vfnmaX (d a b : BitVec 5) (k : BitVec 3) (e : BitVec 1) : RoundTrip.Statement (.vfnmaX d a b k e) := by
  have := d.isLt
  have := a.isLt
  have := b.isLt
  have := k.isLt
  have := e.isLt
  refine roundTrip32 0x28 d.toNat a.toNat b.toNat (k.toNat * 32 + e.toNat * 16 + 2) rfl (by decide) (by omega) (by omega) (by omega) (by omega) fun hw => ?_
  show (dec28 d.toNat a.toNat b.toNat (k.toNat * 32 + e.toNat * 16 + 2)).filter Instr.wf = _
  unfold dec28
  repeat (first | rw [if_neg (by omega)] | rw [if_pos (by omega)])
  refine filter_wf ?_ hw
  try simp only [BitVec.ofNat_toNat, BitVec.setWidth_eq]
  try congr 1 <;> (apply BitVec.eq_of_toNat_eq; simp only [BitVec.toNat_ofNat]; omega)

theorem RoundTrip.vfnmsX (d a b : BitVec 5) (k : BitVec 3) (e : BitVec 1) : RoundTrip.Statement (.vfnmsX d a b k e) := by
  have := d.isLt
  have := a.isLt
  have := b.isLt
  have := k.isLt
  have := e.isLt
  refine roundTrip32 0x28 d.toNat a.toNat b.toNat (k.toNat * 32 + e.toNat * 16 + 3) rfl (by decide) (by omega) (by omega) (by omega) (by omega) fun hw => ?_
  show (dec28 d.toNat a.toNat b.toNat (k.toNat * 32 + e.toNat * 16 + 3)).filter Instr.wf = _
  unfold dec28
  repeat (first | rw [if_neg (by omega)] | rw [if_pos (by omega)])
  refine filter_wf ?_ hw
  try simp only [BitVec.ofNat_toNat, BitVec.setWidth_eq]
  try congr 1 <;> (apply BitVec.eq_of_toNat_eq; simp only [BitVec.toNat_ofNat]; omega)

theorem RoundTrip.vrcp (d a : BitVec 5) (k : BitVec 3) (e : BitVec 1) : RoundTrip.Statement (.vrcp d a k e) := by
  have := d.isLt
  have := a.isLt
  have := k.isLt
  have := e.isLt
  refine roundTrip32 0x29 d.toNat a.toNat 0 (k.toNat * 32 + e.toNat * 16) rfl (by decide) (by omega) (by omega) (by omega) (by omega) fun hw => ?_
  show (dec29 d.toNat a.toNat 0 (k.toNat * 32 + e.toNat * 16)).filter Instr.wf = _
  unfold dec29
  repeat (first | rw [if_neg (by omega)] | rw [if_pos (by omega)])
  refine filter_wf ?_ hw
  try simp only [BitVec.ofNat_toNat, BitVec.setWidth_eq]
  try congr 1 <;> (apply BitVec.eq_of_toNat_eq; simp only [BitVec.toNat_ofNat]; omega)

theorem RoundTrip.vrsq (d a : BitVec 5) (k : BitVec 3) (e : BitVec 1) : RoundTrip.Statement (.vrsq d a k e) := by
  have := d.isLt
  have := a.isLt
  have := k.isLt
  have := e.isLt
  refine roundTrip32 0x29 d.toNat a.toNat 0 (k.toNat * 32 + e.toNat * 16 + 1) rfl (by decide) (by omega) (by omega) (by omega) (by omega) fun hw => ?_
  show (dec29 d.toNat a.toNat 0 (k.toNat * 32 + e.toNat * 16 + 1)).filter Instr.wf = _
  unfold dec29
  repeat (first | rw [if_neg (by omega)] | rw [if_pos (by omega)])
  refine filter_wf ?_ hw
  try simp only [BitVec.ofNat_toNat, BitVec.setWidth_eq]
  try congr 1 <;> (apply BitVec.eq_of_toNat_eq; simp only [BitVec.toNat_ofNat]; omega)

theorem RoundTrip.vexp2 (d a : BitVec 5) (k : BitVec 3) (e : BitVec 1) : RoundTrip.Statement (.vexp2 d a k e) := by
  have := d.isLt
  have := a.isLt
  have := k.isLt
  have := e.isLt
  refine roundTrip32 0x29 d.toNat a.toNat 0 (k.toNat * 32 + e.toNat * 16 + 2) rfl (by decide) (by omega) (by omega) (by omega) (by omega) fun hw => ?_
  show (dec29 d.toNat a.toNat 0 (k.toNat * 32 + e.toNat * 16 + 2)).filter Instr.wf = _
  unfold dec29
  repeat (first | rw [if_neg (by omega)] | rw [if_pos (by omega)])
  refine filter_wf ?_ hw
  try simp only [BitVec.ofNat_toNat, BitVec.setWidth_eq]
  try congr 1 <;> (apply BitVec.eq_of_toNat_eq; simp only [BitVec.toNat_ofNat]; omega)

theorem RoundTrip.vlog2 (d a : BitVec 5) (k : BitVec 3) (e : BitVec 1) : RoundTrip.Statement (.vlog2 d a k e) := by
  have := d.isLt
  have := a.isLt
  have := k.isLt
  have := e.isLt
  refine roundTrip32 0x29 d.toNat a.toNat 0 (k.toNat * 32 + e.toNat * 16 + 3) rfl (by decide) (by omega) (by omega) (by omega) (by omega) fun hw => ?_
  show (dec29 d.toNat a.toNat 0 (k.toNat * 32 + e.toNat * 16 + 3)).filter Instr.wf = _
  unfold dec29
  repeat (first | rw [if_neg (by omega)] | rw [if_pos (by omega)])
  refine filter_wf ?_ hw
  try simp only [BitVec.ofNat_toNat, BitVec.setWidth_eq]
  try congr 1 <;> (apply BitVec.eq_of_toNat_eq; simp only [BitVec.toNat_ofNat]; omega)

theorem RoundTrip.vcmpEq (d a b : BitVec 5) (k : BitVec 3) (e f : BitVec 1) : RoundTrip.Statement (.vcmpEq d a b k e f) := by
  have := d.isLt
  have := a.isLt
  have := b.isLt
  have := k.isLt
  have := e.isLt
  have := f.isLt
  refine roundTrip32 0x2A d.toNat a.toNat b.toNat (k.toNat * 32 + e.toNat * 16 + f.toNat * 8) rfl (by decide) (by omega) (by omega) (by omega) (by omega) fun hw => ?_
  show (dec2A d.toNat a.toNat b.toNat (k.toNat * 32 + e.toNat * 16 + f.toNat * 8)).filter Instr.wf = _
  unfold dec2A
  repeat (first | rw [if_neg (by omega)] | rw [if_pos (by omega)])
  refine filter_wf ?_ hw
  try simp only [BitVec.ofNat_toNat, BitVec.setWidth_eq]
  try congr 1 <;> (apply BitVec.eq_of_toNat_eq; simp only [BitVec.toNat_ofNat]; omega)

theorem RoundTrip.vcmpNe (d a b : BitVec 5) (k : BitVec 3) (e f : BitVec 1) : RoundTrip.Statement (.vcmpNe d a b k e f) := by
  have := d.isLt
  have := a.isLt
  have := b.isLt
  have := k.isLt
  have := e.isLt
  have := f.isLt
  refine roundTrip32 0x2A d.toNat a.toNat b.toNat (k.toNat * 32 + e.toNat * 16 + f.toNat * 8 + 1) rfl (by decide) (by omega) (by omega) (by omega) (by omega) fun hw => ?_
  show (dec2A d.toNat a.toNat b.toNat (k.toNat * 32 + e.toNat * 16 + f.toNat * 8 + 1)).filter Instr.wf = _
  unfold dec2A
  repeat (first | rw [if_neg (by omega)] | rw [if_pos (by omega)])
  refine filter_wf ?_ hw
  try simp only [BitVec.ofNat_toNat, BitVec.setWidth_eq]
  try congr 1 <;> (apply BitVec.eq_of_toNat_eq; simp only [BitVec.toNat_ofNat]; omega)

theorem RoundTrip.vcmpLt (d a b : BitVec 5) (k : BitVec 3) (e f : BitVec 1) : RoundTrip.Statement (.vcmpLt d a b k e f) := by
  have := d.isLt
  have := a.isLt
  have := b.isLt
  have := k.isLt
  have := e.isLt
  have := f.isLt
  refine roundTrip32 0x2A d.toNat a.toNat b.toNat (k.toNat * 32 + e.toNat * 16 + f.toNat * 8 + 2) rfl (by decide) (by omega) (by omega) (by omega) (by omega) fun hw => ?_
  show (dec2A d.toNat a.toNat b.toNat (k.toNat * 32 + e.toNat * 16 + f.toNat * 8 + 2)).filter Instr.wf = _
  unfold dec2A
  repeat (first | rw [if_neg (by omega)] | rw [if_pos (by omega)])
  refine filter_wf ?_ hw
  try simp only [BitVec.ofNat_toNat, BitVec.setWidth_eq]
  try congr 1 <;> (apply BitVec.eq_of_toNat_eq; simp only [BitVec.toNat_ofNat]; omega)

theorem RoundTrip.vcmpLe (d a b : BitVec 5) (k : BitVec 3) (e f : BitVec 1) : RoundTrip.Statement (.vcmpLe d a b k e f) := by
  have := d.isLt
  have := a.isLt
  have := b.isLt
  have := k.isLt
  have := e.isLt
  have := f.isLt
  refine roundTrip32 0x2A d.toNat a.toNat b.toNat (k.toNat * 32 + e.toNat * 16 + f.toNat * 8 + 3) rfl (by decide) (by omega) (by omega) (by omega) (by omega) fun hw => ?_
  show (dec2A d.toNat a.toNat b.toNat (k.toNat * 32 + e.toNat * 16 + f.toNat * 8 + 3)).filter Instr.wf = _
  unfold dec2A
  repeat (first | rw [if_neg (by omega)] | rw [if_pos (by omega)])
  refine filter_wf ?_ hw
  try simp only [BitVec.ofNat_toNat, BitVec.setWidth_eq]
  try congr 1 <;> (apply BitVec.eq_of_toNat_eq; simp only [BitVec.toNat_ofNat]; omega)

theorem RoundTrip.vcmpLtn (d a b : BitVec 5) (k : BitVec 3) (e f : BitVec 1) : RoundTrip.Statement (.vcmpLtn d a b k e f) := by
  have := d.isLt
  have := a.isLt
  have := b.isLt
  have := k.isLt
  have := e.isLt
  have := f.isLt
  refine roundTrip32 0x2A d.toNat a.toNat b.toNat (k.toNat * 32 + e.toNat * 16 + f.toNat * 8 + 4) rfl (by decide) (by omega) (by omega) (by omega) (by omega) fun hw => ?_
  show (dec2A d.toNat a.toNat b.toNat (k.toNat * 32 + e.toNat * 16 + f.toNat * 8 + 4)).filter Instr.wf = _
  unfold dec2A
  repeat (first | rw [if_neg (by omega)] | rw [if_pos (by omega)])
  refine filter_wf ?_ hw
  try simp only [BitVec.ofNat_toNat, BitVec.setWidth_eq]
  try congr 1 <;> (apply BitVec.eq_of_toNat_eq; simp only [BitVec.toNat_ofNat]; omega)

theorem RoundTrip.vcmpLen (d a b : BitVec 5) (k : BitVec 3) (e f : BitVec 1) : RoundTrip.Statement (.vcmpLen d a b k e f) := by
  have := d.isLt
  have := a.isLt
  have := b.isLt
  have := k.isLt
  have := e.isLt
  have := f.isLt
  refine roundTrip32 0x2A d.toNat a.toNat b.toNat (k.toNat * 32 + e.toNat * 16 + f.toNat * 8 + 5) rfl (by decide) (by omega) (by omega) (by omega) (by omega) fun hw => ?_
  show (dec2A d.toNat a.toNat b.toNat (k.toNat * 32 + e.toNat * 16 + f.toNat * 8 + 5)).filter Instr.wf = _
  unfold dec2A
  repeat (first | rw [if_neg (by omega)] | rw [if_pos (by omega)])
  refine filter_wf ?_ hw
  try simp only [BitVec.ofNat_toNat, BitVec.setWidth_eq]
  try congr 1 <;> (apply BitVec.eq_of_toNat_eq; simp only [BitVec.toNat_ofNat]; omega)

theorem RoundTrip.vcmpLtX (d a b : BitVec 5) (k : BitVec 3) (e : BitVec 1) : RoundTrip.Statement (.vcmpLtX d a b k e) := by
  have := d.isLt
  have := a.isLt
  have := b.isLt
  have := k.isLt
  have := e.isLt
  refine roundTrip32 0x2A d.toNat a.toNat b.toNat (k.toNat * 32 + e.toNat * 16 + 6) rfl (by decide) (by omega) (by omega) (by omega) (by omega) fun hw => ?_
  show (dec2A d.toNat a.toNat b.toNat (k.toNat * 32 + e.toNat * 16 + 6)).filter Instr.wf = _
  unfold dec2A
  repeat (first | rw [if_neg (by omega)] | rw [if_pos (by omega)])
  refine filter_wf ?_ hw
  try simp only [BitVec.ofNat_toNat, BitVec.setWidth_eq]
  try congr 1 <;> (apply BitVec.eq_of_toNat_eq; simp only [BitVec.toNat_ofNat]; omega)

theorem RoundTrip.vcmpGeX (d a b : BitVec 5) (k : BitVec 3) (e : BitVec 1) : RoundTrip.Statement (.vcmpGeX d a b k e) := by
  have := d.isLt
  have := a.isLt
  have := b.isLt
  have := k.isLt
  have := e.isLt
  refine roundTrip32 0x2A d.toNat a.toNat b.toNat (k.toNat * 32 + e.toNat * 16 + 7) rfl (by decide) (by omega) (by omega) (by omega) (by omega) fun hw => ?_
  show (dec2A d.toNat a.toNat b.toNat (k.toNat * 32 + e.toNat * 16 + 7)).filter Instr.wf = _
  unfold dec2A
  repeat (first | rw [if_neg (by omega)] | rw [if_pos (by omega)])
  refine filter_wf ?_ hw
  try simp only [BitVec.ofNat_toNat, BitVec.setWidth_eq]
  try congr 1 <;> (apply BitVec.eq_of_toNat_eq; simp only [BitVec.toNat_ofNat]; omega)

theorem RoundTrip.vfcmpFeq (d a b : BitVec 5) (k : BitVec 3) (e f : BitVec 1) : RoundTrip.Statement (.vfcmpFeq d a b k e f) := by
  have := d.isLt
  have := a.isLt
  have := b.isLt
  have := k.isLt
  have := e.isLt
  have := f.isLt
  refine roundTrip32 0x2B d.toNat a.toNat b.toNat (k.toNat * 32 + e.toNat * 16 + f.toNat * 8) rfl (by decide) (by omega) (by omega) (by omega) (by omega) fun hw => ?_
  show (dec2B d.toNat a.toNat b.toNat (k.toNat * 32 + e.toNat * 16 + f.toNat * 8)).filter Instr.wf = _
  unfold dec2B
  repeat (first | rw [if_neg (by omega)] | rw [if_pos (by omega)])
  refine filter_wf ?_ hw
  try simp only [BitVec.ofNat_toNat, BitVec.setWidth_eq]
  try congr 1 <;> (apply BitVec.eq_of_toNat_eq; simp only [BitVec.toNat_ofNat]; omega)

theorem RoundTrip.vfcmpFne (d a b : BitVec 5) (k : BitVec 3) (e f : BitVec 1) : RoundTrip.Statement (.vfcmpFne d a b k e f) := by
  have := d.isLt
  have := a.isLt
  have := b.isLt
  have := k.isLt
  have := e.isLt
  have := f.isLt
  refine roundTrip32 0x2B d.toNat a.toNat b.toNat (k.toNat * 32 + e.toNat * 16 + f.toNat * 8 + 1) rfl (by decide) (by omega) (by omega) (by omega) (by omega) fun hw => ?_
  show (dec2B d.toNat a.toNat b.toNat (k.toNat * 32 + e.toNat * 16 + f.toNat * 8 + 1)).filter Instr.wf = _
  unfold dec2B
  repeat (first | rw [if_neg (by omega)] | rw [if_pos (by omega)])
  refine filter_wf ?_ hw
  try simp only [BitVec.ofNat_toNat, BitVec.setWidth_eq]
  try congr 1 <;> (apply BitVec.eq_of_toNat_eq; simp only [BitVec.toNat_ofNat]; omega)

theorem RoundTrip.vfcmpFlt (d a b : BitVec 5) (k : BitVec 3) (e f : BitVec 1) : RoundTrip.Statement (.vfcmpFlt d a b k e f) := by
  have := d.isLt
  have := a.isLt
  have := b.isLt
  have := k.isLt
  have := e.isLt
  have := f.isLt
  refine roundTrip32 0x2B d.toNat a.toNat b.toNat (k.toNat * 32 + e.toNat * 16 + f.toNat * 8 + 2) rfl (by decide) (by omega) (by omega) (by omega) (by omega) fun hw => ?_
  show (dec2B d.toNat a.toNat b.toNat (k.toNat * 32 + e.toNat * 16 + f.toNat * 8 + 2)).filter Instr.wf = _
  unfold dec2B
  repeat (first | rw [if_neg (by omega)] | rw [if_pos (by omega)])
  refine filter_wf ?_ hw
  try simp only [BitVec.ofNat_toNat, BitVec.setWidth_eq]
  try congr 1 <;> (apply BitVec.eq_of_toNat_eq; simp only [BitVec.toNat_ofNat]; omega)

theorem RoundTrip.vfcmpFle (d a b : BitVec 5) (k : BitVec 3) (e f : BitVec 1) : RoundTrip.Statement (.vfcmpFle d a b k e f) := by
  have := d.isLt
  have := a.isLt
  have := b.isLt
  have := k.isLt
  have := e.isLt
  have := f.isLt
  refine roundTrip32 0x2B d.toNat a.toNat b.toNat (k.toNat * 32 + e.toNat * 16 + f.toNat * 8 + 3) rfl (by decide) (by omega) (by omega) (by omega) (by omega) fun hw => ?_
  show (dec2B d.toNat a.toNat b.toNat (k.toNat * 32 + e.toNat * 16 + f.toNat * 8 + 3)).filter Instr.wf = _
  unfold dec2B
  repeat (first | rw [if_neg (by omega)] | rw [if_pos (by omega)])
  refine filter_wf ?_ hw
  try simp only [BitVec.ofNat_toNat, BitVec.setWidth_eq]
  try congr 1 <;> (apply BitVec.eq_of_toNat_eq; simp only [BitVec.toNat_ofNat]; omega)

theorem RoundTrip.vfcmpFltX (d a b : BitVec 5) (k : BitVec 3) (e : BitVec 1) : RoundTrip.Statement (.vfcmpFltX d a b k e) := by
  have := d.isLt
  have := a.isLt
  have := b.isLt
  have := k.isLt
  have := e.isLt
  refine roundTrip32 0x2B d.toNat a.toNat b.toNat (k.toNat * 32 + e.toNat * 16 + 4) rfl (by decide) (by omega) (by omega) (by omega) (by omega) fun hw => ?_
  show (dec2B d.toNat a.toNat b.toNat (k.toNat * 32 + e.toNat * 16 + 4)).filter Instr.wf = _
  unfold dec2B
  repeat (first | rw [if_neg (by omega)] | rw [if_pos (by omega)])
  refine filter_wf ?_ hw
  try simp only [BitVec.ofNat_toNat, BitVec.setWidth_eq]
  try congr 1 <;> (apply BitVec.eq_of_toNat_eq; simp only [BitVec.toNat_ofNat]; omega)

theorem RoundTrip.vfcmpFgeX (d a b : BitVec 5) (k : BitVec 3) (e : BitVec 1) : RoundTrip.Statement (.vfcmpFgeX d a b k e) := by
  have := d.isLt
  have := a.isLt
  have := b.isLt
  have := k.isLt
  have := e.isLt
  refine roundTrip32 0x2B d.toNat a.toNat b.toNat (k.toNat * 32 + e.toNat * 16 + 5) rfl (by decide) (by omega) (by omega) (by omega) (by omega) fun hw => ?_
  show (dec2B d.toNat a.toNat b.toNat (k.toNat * 32 + e.toNat * 16 + 5)).filter Instr.wf = _
  unfold dec2B
  repeat (first | rw [if_neg (by omega)] | rw [if_pos (by omega)])
  refine filter_wf ?_ hw
  try simp only [BitVec.ofNat_toNat, BitVec.setWidth_eq]
  try congr 1 <;> (apply BitVec.eq_of_toNat_eq; simp only [BitVec.toNat_ofNat]; omega)

theorem RoundTrip.vfcmpFunord (d a b : BitVec 5) (k : BitVec 3) (e f : BitVec 1) : RoundTrip.Statement (.vfcmpFunord d a b k e f) := by
  have := d.isLt
  have := a.isLt
  have := b.isLt
  have := k.isLt
  have := e.isLt
  have := f.isLt
  refine roundTrip32 0x2B d.toNat a.toNat b.toNat (k.toNat * 32 + e.toNat * 16 + f.toNat * 8 + 6) rfl (by decide) (by omega) (by omega) (by omega) (by omega) fun hw => ?_
  show (dec2B d.toNat a.toNat b.toNat (k.toNat * 32 + e.toNat * 16 + f.toNat * 8 + 6)).filter Instr.wf = _
  unfold dec2B
  repeat (first | rw [if_neg (by omega)] | rw [if_pos (by omega)])
  refine filter_wf ?_ hw
  try simp only [BitVec.ofNat_toNat, BitVec.setWidth_eq]
  try congr 1 <;> (apply BitVec.eq_of_toNat_eq; simp only [BitVec.toNat_ofNat]; omega)

theorem RoundTrip.vcvtFi (d a : BitVec 5) (u : BitVec 1) (k : BitVec 3) (e : BitVec 1) : RoundTrip.Statement (.vcvtFi d a u k e) := by
  have := d.isLt
  have := a.isLt
  have := u.isLt
  have := k.isLt
  have := e.isLt
  refine roundTrip32 0x2C d.toNat a.toNat u.toNat (k.toNat * 32 + e.toNat * 16) rfl (by decide) (by omega) (by omega) (by omega) (by omega) fun hw => ?_
  show (dec2C d.toNat a.toNat u.toNat (k.toNat * 32 + e.toNat * 16)).filter Instr.wf = _
  unfold dec2C
  repeat (first | rw [if_neg (by omega)] | rw [if_pos (by omega)])
  refine filter_wf ?_ hw
  try simp only [BitVec.ofNat_toNat, BitVec.setWidth_eq]
  try congr 1 <;> (apply BitVec.eq_of_toNat_eq; simp only [BitVec.toNat_ofNat]; omega)

theorem RoundTrip.vcvtIf (d a : BitVec 5) (u : BitVec 1) (k : BitVec 3) (e : BitVec 1) : RoundTrip.Statement (.vcvtIf d a u k e) := by
  have := d.isLt
  have := a.isLt
  have := u.isLt
  have := k.isLt
  have := e.isLt
  refine roundTrip32 0x2C d.toNat a.toNat u.toNat (k.toNat * 32 + e.toNat * 16 + 1) rfl (by decide) (by omega) (by omega) (by omega) (by omega) fun hw => ?_
  show (dec2C d.toNat a.toNat u.toNat (k.toNat * 32 + e.toNat * 16 + 1)).filter Instr.wf = _
  unfold dec2C
  repeat (first | rw [if_neg (by omega)] | rw [if_pos (by omega)])
  refine filter_wf ?_ hw
  try simp only [BitVec.ofNat_toNat, BitVec.setWidth_eq]
  try congr 1 <;> (apply BitVec.eq_of_toNat_eq; simp only [BitVec.toNat_ofNat]; omega)

theorem RoundTrip.vfwiden (d a : BitVec 5) (k : BitVec 3) (e : BitVec 1) : RoundTrip.Statement (.vfwiden d a k e) := by
  have := d.isLt
  have := a.isLt
  have := k.isLt
  have := e.isLt
  refine roundTrip32 0x2C d.toNat a.toNat 0 (k.toNat * 32 + e.toNat * 16 + 2) rfl (by decide) (by omega) (by omega) (by omega) (by omega) fun hw => ?_
  show (dec2C d.toNat a.toNat 0 (k.toNat * 32 + e.toNat * 16 + 2)).filter Instr.wf = _
  unfold dec2C
  repeat (first | rw [if_neg (by omega)] | rw [if_pos (by omega)])
  refine filter_wf ?_ hw
  try simp only [BitVec.ofNat_toNat, BitVec.setWidth_eq]
  try congr 1 <;> (apply BitVec.eq_of_toNat_eq; simp only [BitVec.toNat_ofNat]; omega)

theorem RoundTrip.vfnarrow (d a : BitVec 5) (k : BitVec 3) (e : BitVec 1) : RoundTrip.Statement (.vfnarrow d a k e) := by
  have := d.isLt
  have := a.isLt
  have := k.isLt
  have := e.isLt
  refine roundTrip32 0x2C d.toNat a.toNat 0 (k.toNat * 32 + e.toNat * 16 + 3) rfl (by decide) (by omega) (by omega) (by omega) (by omega) fun hw => ?_
  show (dec2C d.toNat a.toNat 0 (k.toNat * 32 + e.toNat * 16 + 3)).filter Instr.wf = _
  unfold dec2C
  repeat (first | rw [if_neg (by omega)] | rw [if_pos (by omega)])
  refine filter_wf ?_ hw
  try simp only [BitVec.ofNat_toNat, BitVec.setWidth_eq]
  try congr 1 <;> (apply BitVec.eq_of_toNat_eq; simp only [BitVec.toNat_ofNat]; omega)

theorem RoundTrip.vswiden (d a : BitVec 5) (k : BitVec 3) (e : BitVec 1) : RoundTrip.Statement (.vswiden d a k e) := by
  have := d.isLt
  have := a.isLt
  have := k.isLt
  have := e.isLt
  refine roundTrip32 0x2C d.toNat a.toNat 0 (k.toNat * 32 + e.toNat * 16 + 4) rfl (by decide) (by omega) (by omega) (by omega) (by omega) fun hw => ?_
  show (dec2C d.toNat a.toNat 0 (k.toNat * 32 + e.toNat * 16 + 4)).filter Instr.wf = _
  unfold dec2C
  repeat (first | rw [if_neg (by omega)] | rw [if_pos (by omega)])
  refine filter_wf ?_ hw
  try simp only [BitVec.ofNat_toNat, BitVec.setWidth_eq]
  try congr 1 <;> (apply BitVec.eq_of_toNat_eq; simp only [BitVec.toNat_ofNat]; omega)

theorem RoundTrip.vzwiden (d a : BitVec 5) (k : BitVec 3) (e : BitVec 1) : RoundTrip.Statement (.vzwiden d a k e) := by
  have := d.isLt
  have := a.isLt
  have := k.isLt
  have := e.isLt
  refine roundTrip32 0x2C d.toNat a.toNat 0 (k.toNat * 32 + e.toNat * 16 + 5) rfl (by decide) (by omega) (by omega) (by omega) (by omega) fun hw => ?_
  show (dec2C d.toNat a.toNat 0 (k.toNat * 32 + e.toNat * 16 + 5)).filter Instr.wf = _
  unfold dec2C
  repeat (first | rw [if_neg (by omega)] | rw [if_pos (by omega)])
  refine filter_wf ?_ hw
  try simp only [BitVec.ofNat_toNat, BitVec.setWidth_eq]
  try congr 1 <;> (apply BitVec.eq_of_toNat_eq; simp only [BitVec.toNat_ofNat]; omega)

theorem RoundTrip.vtrunc (d a : BitVec 5) (u : BitVec 1) (k : BitVec 3) (e : BitVec 1) : RoundTrip.Statement (.vtrunc d a u k e) := by
  have := d.isLt
  have := a.isLt
  have := u.isLt
  have := k.isLt
  have := e.isLt
  refine roundTrip32 0x2C d.toNat a.toNat u.toNat (k.toNat * 32 + e.toNat * 16 + 6) rfl (by decide) (by omega) (by omega) (by omega) (by omega) fun hw => ?_
  show (dec2C d.toNat a.toNat u.toNat (k.toNat * 32 + e.toNat * 16 + 6)).filter Instr.wf = _
  unfold dec2C
  repeat (first | rw [if_neg (by omega)] | rw [if_pos (by omega)])
  refine filter_wf ?_ hw
  try simp only [BitVec.ofNat_toNat, BitVec.setWidth_eq]
  try congr 1 <;> (apply BitVec.eq_of_toNat_eq; simp only [BitVec.toNat_ofNat]; omega)

theorem RoundTrip.vredsum (d a b : BitVec 5) (k : BitVec 3) (e f : BitVec 1) : RoundTrip.Statement (.vredsum d a b k e f) := by
  have := d.isLt
  have := a.isLt
  have := b.isLt
  have := k.isLt
  have := e.isLt
  have := f.isLt
  refine roundTrip32 0x2D d.toNat a.toNat b.toNat (k.toNat * 32 + e.toNat * 16 + f.toNat * 8) rfl (by decide) (by omega) (by omega) (by omega) (by omega) fun hw => ?_
  show (dec2D d.toNat a.toNat b.toNat (k.toNat * 32 + e.toNat * 16 + f.toNat * 8)).filter Instr.wf = _
  unfold dec2D
  repeat (first | rw [if_neg (by omega)] | rw [if_pos (by omega)])
  refine filter_wf ?_ hw
  try simp only [BitVec.ofNat_toNat, BitVec.setWidth_eq]
  try congr 1 <;> (apply BitVec.eq_of_toNat_eq; simp only [BitVec.toNat_ofNat]; omega)

theorem RoundTrip.vredmax (d a b : BitVec 5) (k : BitVec 3) (e f : BitVec 1) : RoundTrip.Statement (.vredmax d a b k e f) := by
  have := d.isLt
  have := a.isLt
  have := b.isLt
  have := k.isLt
  have := e.isLt
  have := f.isLt
  refine roundTrip32 0x2D d.toNat a.toNat b.toNat (k.toNat * 32 + e.toNat * 16 + f.toNat * 8 + 1) rfl (by decide) (by omega) (by omega) (by omega) (by omega) fun hw => ?_
  show (dec2D d.toNat a.toNat b.toNat (k.toNat * 32 + e.toNat * 16 + f.toNat * 8 + 1)).filter Instr.wf = _
  unfold dec2D
  repeat (first | rw [if_neg (by omega)] | rw [if_pos (by omega)])
  refine filter_wf ?_ hw
  try simp only [BitVec.ofNat_toNat, BitVec.setWidth_eq]
  try congr 1 <;> (apply BitVec.eq_of_toNat_eq; simp only [BitVec.toNat_ofNat]; omega)

theorem RoundTrip.vredmin (d a b : BitVec 5) (k : BitVec 3) (e f : BitVec 1) : RoundTrip.Statement (.vredmin d a b k e f) := by
  have := d.isLt
  have := a.isLt
  have := b.isLt
  have := k.isLt
  have := e.isLt
  have := f.isLt
  refine roundTrip32 0x2D d.toNat a.toNat b.toNat (k.toNat * 32 + e.toNat * 16 + f.toNat * 8 + 2) rfl (by decide) (by omega) (by omega) (by omega) (by omega) fun hw => ?_
  show (dec2D d.toNat a.toNat b.toNat (k.toNat * 32 + e.toNat * 16 + f.toNat * 8 + 2)).filter Instr.wf = _
  unfold dec2D
  repeat (first | rw [if_neg (by omega)] | rw [if_pos (by omega)])
  refine filter_wf ?_ hw
  try simp only [BitVec.ofNat_toNat, BitVec.setWidth_eq]
  try congr 1 <;> (apply BitVec.eq_of_toNat_eq; simp only [BitVec.toNat_ofNat]; omega)

theorem RoundTrip.vredmaxn (d a b : BitVec 5) (k : BitVec 3) (e f : BitVec 1) : RoundTrip.Statement (.vredmaxn d a b k e f) := by
  have := d.isLt
  have := a.isLt
  have := b.isLt
  have := k.isLt
  have := e.isLt
  have := f.isLt
  refine roundTrip32 0x2D d.toNat a.toNat b.toNat (k.toNat * 32 + e.toNat * 16 + f.toNat * 8 + 3) rfl (by decide) (by omega) (by omega) (by omega) (by omega) fun hw => ?_
  show (dec2D d.toNat a.toNat b.toNat (k.toNat * 32 + e.toNat * 16 + f.toNat * 8 + 3)).filter Instr.wf = _
  unfold dec2D
  repeat (first | rw [if_neg (by omega)] | rw [if_pos (by omega)])
  refine filter_wf ?_ hw
  try simp only [BitVec.ofNat_toNat, BitVec.setWidth_eq]
  try congr 1 <;> (apply BitVec.eq_of_toNat_eq; simp only [BitVec.toNat_ofNat]; omega)

theorem RoundTrip.vredminn (d a b : BitVec 5) (k : BitVec 3) (e f : BitVec 1) : RoundTrip.Statement (.vredminn d a b k e f) := by
  have := d.isLt
  have := a.isLt
  have := b.isLt
  have := k.isLt
  have := e.isLt
  have := f.isLt
  refine roundTrip32 0x2D d.toNat a.toNat b.toNat (k.toNat * 32 + e.toNat * 16 + f.toNat * 8 + 4) rfl (by decide) (by omega) (by omega) (by omega) (by omega) fun hw => ?_
  show (dec2D d.toNat a.toNat b.toNat (k.toNat * 32 + e.toNat * 16 + f.toNat * 8 + 4)).filter Instr.wf = _
  unfold dec2D
  repeat (first | rw [if_neg (by omega)] | rw [if_pos (by omega)])
  refine filter_wf ?_ hw
  try simp only [BitVec.ofNat_toNat, BitVec.setWidth_eq]
  try congr 1 <;> (apply BitVec.eq_of_toNat_eq; simp only [BitVec.toNat_ofNat]; omega)

theorem RoundTrip.vfredsum (d a b : BitVec 5) (k : BitVec 3) (e f : BitVec 1) : RoundTrip.Statement (.vfredsum d a b k e f) := by
  have := d.isLt
  have := a.isLt
  have := b.isLt
  have := k.isLt
  have := e.isLt
  have := f.isLt
  refine roundTrip32 0x2D d.toNat a.toNat b.toNat (k.toNat * 32 + e.toNat * 16 + f.toNat * 8 + 5) rfl (by decide) (by omega) (by omega) (by omega) (by omega) fun hw => ?_
  show (dec2D d.toNat a.toNat b.toNat (k.toNat * 32 + e.toNat * 16 + f.toNat * 8 + 5)).filter Instr.wf = _
  unfold dec2D
  repeat (first | rw [if_neg (by omega)] | rw [if_pos (by omega)])
  refine filter_wf ?_ hw
  try simp only [BitVec.ofNat_toNat, BitVec.setWidth_eq]
  try congr 1 <;> (apply BitVec.eq_of_toNat_eq; simp only [BitVec.toNat_ofNat]; omega)

theorem RoundTrip.vfredmax (d a b : BitVec 5) (k : BitVec 3) (e f : BitVec 1) : RoundTrip.Statement (.vfredmax d a b k e f) := by
  have := d.isLt
  have := a.isLt
  have := b.isLt
  have := k.isLt
  have := e.isLt
  have := f.isLt
  refine roundTrip32 0x2D d.toNat a.toNat b.toNat (k.toNat * 32 + e.toNat * 16 + f.toNat * 8 + 6) rfl (by decide) (by omega) (by omega) (by omega) (by omega) fun hw => ?_
  show (dec2D d.toNat a.toNat b.toNat (k.toNat * 32 + e.toNat * 16 + f.toNat * 8 + 6)).filter Instr.wf = _
  unfold dec2D
  repeat (first | rw [if_neg (by omega)] | rw [if_pos (by omega)])
  refine filter_wf ?_ hw
  try simp only [BitVec.ofNat_toNat, BitVec.setWidth_eq]
  try congr 1 <;> (apply BitVec.eq_of_toNat_eq; simp only [BitVec.toNat_ofNat]; omega)

theorem RoundTrip.vfredmin (d a b : BitVec 5) (k : BitVec 3) (e f : BitVec 1) : RoundTrip.Statement (.vfredmin d a b k e f) := by
  have := d.isLt
  have := a.isLt
  have := b.isLt
  have := k.isLt
  have := e.isLt
  have := f.isLt
  refine roundTrip32 0x2D d.toNat a.toNat b.toNat (k.toNat * 32 + e.toNat * 16 + f.toNat * 8 + 7) rfl (by decide) (by omega) (by omega) (by omega) (by omega) fun hw => ?_
  show (dec2D d.toNat a.toNat b.toNat (k.toNat * 32 + e.toNat * 16 + f.toNat * 8 + 7)).filter Instr.wf = _
  unfold dec2D
  repeat (first | rw [if_neg (by omega)] | rw [if_pos (by omega)])
  refine filter_wf ?_ hw
  try simp only [BitVec.ofNat_toNat, BitVec.setWidth_eq]
  try congr 1 <;> (apply BitVec.eq_of_toNat_eq; simp only [BitVec.toNat_ofNat]; omega)

theorem RoundTrip.vgatherr (d a b : BitVec 5) (k : BitVec 3) (e f : BitVec 1) : RoundTrip.Statement (.vgatherr d a b k e f) := by
  have := d.isLt
  have := a.isLt
  have := b.isLt
  have := k.isLt
  have := e.isLt
  have := f.isLt
  refine roundTrip32 0x2E d.toNat a.toNat b.toNat (k.toNat * 32 + e.toNat * 16 + f.toNat * 8) rfl (by decide) (by omega) (by omega) (by omega) (by omega) fun hw => ?_
  show (dec2E d.toNat a.toNat b.toNat (k.toNat * 32 + e.toNat * 16 + f.toNat * 8)).filter Instr.wf = _
  unfold dec2E
  repeat (first | rw [if_neg (by omega)] | rw [if_pos (by omega)])
  refine filter_wf ?_ hw
  try simp only [BitVec.ofNat_toNat, BitVec.setWidth_eq]
  try congr 1 <;> (apply BitVec.eq_of_toNat_eq; simp only [BitVec.toNat_ofNat]; omega)

theorem RoundTrip.vslideup (d a b : BitVec 5) (k : BitVec 3) (e : BitVec 1) : RoundTrip.Statement (.vslideup d a b k e) := by
  have := d.isLt
  have := a.isLt
  have := b.isLt
  have := k.isLt
  have := e.isLt
  refine roundTrip32 0x2E d.toNat a.toNat b.toNat (k.toNat * 32 + e.toNat * 16 + 1) rfl (by decide) (by omega) (by omega) (by omega) (by omega) fun hw => ?_
  show (dec2E d.toNat a.toNat b.toNat (k.toNat * 32 + e.toNat * 16 + 1)).filter Instr.wf = _
  unfold dec2E
  repeat (first | rw [if_neg (by omega)] | rw [if_pos (by omega)])
  refine filter_wf ?_ hw
  try simp only [BitVec.ofNat_toNat, BitVec.setWidth_eq]
  try congr 1 <;> (apply BitVec.eq_of_toNat_eq; simp only [BitVec.toNat_ofNat]; omega)

theorem RoundTrip.vslidedn (d a b : BitVec 5) (k : BitVec 3) (e : BitVec 1) : RoundTrip.Statement (.vslidedn d a b k e) := by
  have := d.isLt
  have := a.isLt
  have := b.isLt
  have := k.isLt
  have := e.isLt
  refine roundTrip32 0x2E d.toNat a.toNat b.toNat (k.toNat * 32 + e.toNat * 16 + 2) rfl (by decide) (by omega) (by omega) (by omega) (by omega) fun hw => ?_
  show (dec2E d.toNat a.toNat b.toNat (k.toNat * 32 + e.toNat * 16 + 2)).filter Instr.wf = _
  unfold dec2E
  repeat (first | rw [if_neg (by omega)] | rw [if_pos (by omega)])
  refine filter_wf ?_ hw
  try simp only [BitVec.ofNat_toNat, BitVec.setWidth_eq]
  try congr 1 <;> (apply BitVec.eq_of_toNat_eq; simp only [BitVec.toNat_ofNat]; omega)

theorem RoundTrip.vcompress (d a : BitVec 5) (k : BitVec 3) (e : BitVec 1) : RoundTrip.Statement (.vcompress d a k e) := by
  have := d.isLt
  have := a.isLt
  have := k.isLt
  have := e.isLt
  refine roundTrip32 0x2E d.toNat a.toNat 0 (k.toNat * 32 + e.toNat * 16 + 3) rfl (by decide) (by omega) (by omega) (by omega) (by omega) fun hw => ?_
  show (dec2E d.toNat a.toNat 0 (k.toNat * 32 + e.toNat * 16 + 3)).filter Instr.wf = _
  unfold dec2E
  repeat (first | rw [if_neg (by omega)] | rw [if_pos (by omega)])
  refine filter_wf ?_ hw
  try simp only [BitVec.ofNat_toNat, BitVec.setWidth_eq]
  try congr 1 <;> (apply BitVec.eq_of_toNat_eq; simp only [BitVec.toNat_ofNat]; omega)

theorem RoundTrip.vexpand (d a : BitVec 5) (k : BitVec 3) (e : BitVec 1) : RoundTrip.Statement (.vexpand d a k e) := by
  have := d.isLt
  have := a.isLt
  have := k.isLt
  have := e.isLt
  refine roundTrip32 0x2E d.toNat a.toNat 0 (k.toNat * 32 + e.toNat * 16 + 4) rfl (by decide) (by omega) (by omega) (by omega) (by omega) fun hw => ?_
  show (dec2E d.toNat a.toNat 0 (k.toNat * 32 + e.toNat * 16 + 4)).filter Instr.wf = _
  unfold dec2E
  repeat (first | rw [if_neg (by omega)] | rw [if_pos (by omega)])
  refine filter_wf ?_ hw
  try simp only [BitVec.ofNat_toNat, BitVec.setWidth_eq]
  try congr 1 <;> (apply BitVec.eq_of_toNat_eq; simp only [BitVec.toNat_ofNat]; omega)

theorem RoundTrip.viota (d : BitVec 5) (k : BitVec 3) : RoundTrip.Statement (.viota d k) := by
  have := d.isLt
  have := k.isLt
  refine roundTrip32 0x2E d.toNat 0 0 (k.toNat * 32 + 5) rfl (by decide) (by omega) (by omega) (by omega) (by omega) fun hw => ?_
  show (dec2E d.toNat 0 0 (k.toNat * 32 + 5)).filter Instr.wf = _
  unfold dec2E
  repeat (first | rw [if_neg (by omega)] | rw [if_pos (by omega)])
  refine filter_wf ?_ hw
  try simp only [BitVec.ofNat_toNat, BitVec.setWidth_eq]
  try congr 1 <;> (apply BitVec.eq_of_toNat_eq; simp only [BitVec.toNat_ofNat]; omega)

theorem RoundTrip.vscan (d a : BitVec 5) (k : BitVec 3) (e : BitVec 1) : RoundTrip.Statement (.vscan d a k e) := by
  have := d.isLt
  have := a.isLt
  have := k.isLt
  have := e.isLt
  refine roundTrip32 0x2E d.toNat a.toNat 0 (k.toNat * 32 + e.toNat * 16 + 6) rfl (by decide) (by omega) (by omega) (by omega) (by omega) fun hw => ?_
  show (dec2E d.toNat a.toNat 0 (k.toNat * 32 + e.toNat * 16 + 6)).filter Instr.wf = _
  unfold dec2E
  repeat (first | rw [if_neg (by omega)] | rw [if_pos (by omega)])
  refine filter_wf ?_ hw
  try simp only [BitVec.ofNat_toNat, BitVec.setWidth_eq]
  try congr 1 <;> (apply BitVec.eq_of_toNat_eq; simp only [BitVec.toNat_ofNat]; omega)

theorem RoundTrip.vbcast (d a b : BitVec 5) (k : BitVec 3) (e : BitVec 1) : RoundTrip.Statement (.vbcast d a b k e) := by
  have := d.isLt
  have := a.isLt
  have := b.isLt
  have := k.isLt
  have := e.isLt
  refine roundTrip32 0x2E d.toNat a.toNat b.toNat (k.toNat * 32 + e.toNat * 16 + 7) rfl (by decide) (by omega) (by omega) (by omega) (by omega) fun hw => ?_
  show (dec2E d.toNat a.toNat b.toNat (k.toNat * 32 + e.toNat * 16 + 7)).filter Instr.wf = _
  unfold dec2E
  repeat (first | rw [if_neg (by omega)] | rw [if_pos (by omega)])
  refine filter_wf ?_ hw
  try simp only [BitVec.ofNat_toNat, BitVec.setWidth_eq]
  try congr 1 <;> (apply BitVec.eq_of_toNat_eq; simp only [BitVec.toNat_ofNat]; omega)

theorem RoundTrip.vunpackb (d a b : BitVec 5) (k : BitVec 3) (e : BitVec 1) : RoundTrip.Statement (.vunpackb d a b k e) := by
  have := d.isLt
  have := a.isLt
  have := b.isLt
  have := k.isLt
  have := e.isLt
  refine roundTrip32 0x2F d.toNat a.toNat b.toNat (k.toNat * 32 + e.toNat * 16) rfl (by decide) (by omega) (by omega) (by omega) (by omega) fun hw => ?_
  show (dec2F d.toNat a.toNat b.toNat (k.toNat * 32 + e.toNat * 16)).filter Instr.wf = _
  unfold dec2F
  repeat (first | rw [if_neg (by omega)] | rw [if_pos (by omega)])
  refine filter_wf ?_ hw
  try simp only [BitVec.ofNat_toNat, BitVec.setWidth_eq]
  try congr 1 <;> (apply BitVec.eq_of_toNat_eq; simp only [BitVec.toNat_ofNat]; omega)

theorem RoundTrip.vtbl (d a b : BitVec 5) (k : BitVec 3) (e f : BitVec 1) : RoundTrip.Statement (.vtbl d a b k e f) := by
  have := d.isLt
  have := a.isLt
  have := b.isLt
  have := k.isLt
  have := e.isLt
  have := f.isLt
  refine roundTrip32 0x2F d.toNat a.toNat b.toNat (k.toNat * 32 + e.toNat * 16 + f.toNat * 8 + 1) rfl (by decide) (by omega) (by omega) (by omega) (by omega) fun hw => ?_
  show (dec2F d.toNat a.toNat b.toNat (k.toNat * 32 + e.toNat * 16 + f.toNat * 8 + 1)).filter Instr.wf = _
  unfold dec2F
  repeat (first | rw [if_neg (by omega)] | rw [if_pos (by omega)])
  refine filter_wf ?_ hw
  try simp only [BitVec.ofNat_toNat, BitVec.setWidth_eq]
  try congr 1 <;> (apply BitVec.eq_of_toNat_eq; simp only [BitVec.toNat_ofNat]; omega)

theorem RoundTrip.vrand (d a b : BitVec 5) (k : BitVec 3) : RoundTrip.Statement (.vrand d a b k) := by
  have := d.isLt
  have := a.isLt
  have := b.isLt
  have := k.isLt
  refine roundTrip32 0x2F d.toNat a.toNat b.toNat (k.toNat * 32 + 2) rfl (by decide) (by omega) (by omega) (by omega) (by omega) fun hw => ?_
  show (dec2F d.toNat a.toNat b.toNat (k.toNat * 32 + 2)).filter Instr.wf = _
  unfold dec2F
  repeat (first | rw [if_neg (by omega)] | rw [if_pos (by omega)])
  refine filter_wf ?_ hw
  try simp only [BitVec.ofNat_toNat, BitVec.setWidth_eq]
  try congr 1 <;> (apply BitVec.eq_of_toNat_eq; simp only [BitVec.toNat_ofNat]; omega)

theorem RoundTrip.vmovgv (d a : BitVec 5) (k : BitVec 3) : RoundTrip.Statement (.vmovgv d a k) := by
  have := d.isLt
  have := a.isLt
  have := k.isLt
  refine roundTrip32 0x2F d.toNat a.toNat 0 (k.toNat * 32 + 3) rfl (by decide) (by omega) (by omega) (by omega) (by omega) fun hw => ?_
  show (dec2F d.toNat a.toNat 0 (k.toNat * 32 + 3)).filter Instr.wf = _
  unfold dec2F
  repeat (first | rw [if_neg (by omega)] | rw [if_pos (by omega)])
  refine filter_wf ?_ hw
  try simp only [BitVec.ofNat_toNat, BitVec.setWidth_eq]
  try congr 1 <;> (apply BitVec.eq_of_toNat_eq; simp only [BitVec.toNat_ofNat]; omega)

theorem RoundTrip.vmovvg (d a b : BitVec 5) (e : BitVec 1) : RoundTrip.Statement (.vmovvg d a b e) := by
  have := d.isLt
  have := a.isLt
  have := b.isLt
  have := e.isLt
  refine roundTrip32 0x2F d.toNat a.toNat b.toNat (e.toNat * 16 + 4) rfl (by decide) (by omega) (by omega) (by omega) (by omega) fun hw => ?_
  show (dec2F d.toNat a.toNat b.toNat (e.toNat * 16 + 4)).filter Instr.wf = _
  unfold dec2F
  repeat (first | rw [if_neg (by omega)] | rw [if_pos (by omega)])
  refine filter_wf ?_ hw
  try simp only [BitVec.ofNat_toNat, BitVec.setWidth_eq]
  try congr 1 <;> (apply BitVec.eq_of_toNat_eq; simp only [BitVec.toNat_ofNat]; omega)

theorem RoundTrip.planset (p a : BitVec 5) : RoundTrip.Statement (.planset p a) := by
  have := p.isLt
  have := a.isLt
  refine roundTrip32 0x30 p.toNat a.toNat 0 0 rfl (by decide) (by omega) (by omega) (by omega) (by omega) fun hw => ?_
  show (dec30 p.toNat a.toNat 0 0).filter Instr.wf = _
  unfold dec30
  repeat (first | rw [if_neg (by omega)] | rw [if_pos (by omega)])
  refine filter_wf ?_ hw
  try simp only [BitVec.ofNat_toNat, BitVec.setWidth_eq]
  try congr 1 <;> (apply BitVec.eq_of_toNat_eq; simp only [BitVec.toNat_ofNat]; omega)

theorem RoundTrip.planget (d p : BitVec 5) : RoundTrip.Statement (.planget d p) := by
  have := d.isLt
  have := p.isLt
  refine roundTrip32 0x30 d.toNat p.toNat 0 1 rfl (by decide) (by omega) (by omega) (by omega) (by omega) fun hw => ?_
  show (dec30 d.toNat p.toNat 0 1).filter Instr.wf = _
  unfold dec30
  repeat (first | rw [if_neg (by omega)] | rw [if_pos (by omega)])
  refine filter_wf ?_ hw
  try simp only [BitVec.ofNat_toNat, BitVec.setWidth_eq]
  try congr 1 <;> (apply BitVec.eq_of_toNat_eq; simp only [BitVec.toNat_ofNat]; omega)

theorem RoundTrip.vgchk (d a p : BitVec 5) (k : BitVec 3) (e : BitVec 1) : RoundTrip.Statement (.vgchk d a p k e) := by
  have := d.isLt
  have := a.isLt
  have := p.isLt
  have := k.isLt
  have := e.isLt
  refine roundTrip32 0x30 d.toNat a.toNat p.toNat (k.toNat * 32 + e.toNat * 16 + 2) rfl (by decide) (by omega) (by omega) (by omega) (by omega) fun hw => ?_
  show (dec30 d.toNat a.toNat p.toNat (k.toNat * 32 + e.toNat * 16 + 2)).filter Instr.wf = _
  unfold dec30
  repeat (first | rw [if_neg (by omega)] | rw [if_pos (by omega)])
  refine filter_wf ?_ hw
  try simp only [BitVec.ofNat_toNat, BitVec.setWidth_eq]
  try congr 1 <;> (apply BitVec.eq_of_toNat_eq; simp only [BitVec.toNat_ofNat]; omega)

theorem RoundTrip.vpack (d a : BitVec 5) (k : BitVec 3) (e : BitVec 1) (p : BitVec 3) : RoundTrip.Statement (.vpack d a k e p) := by
  have := d.isLt
  have := a.isLt
  have := k.isLt
  have := e.isLt
  have := p.isLt
  refine roundTrip32 0x31 d.toNat a.toNat 0 (k.toNat * 32 + e.toNat * 16 + p.toNat) rfl (by decide) (by omega) (by omega) (by omega) (by omega) fun hw => ?_
  show (dec31 d.toNat a.toNat 0 (k.toNat * 32 + e.toNat * 16 + p.toNat)).filter Instr.wf = _
  unfold dec31
  repeat (first | rw [if_neg (by omega)] | rw [if_pos (by omega)])
  refine filter_wf ?_ hw
  try simp only [BitVec.ofNat_toNat, BitVec.setWidth_eq]
  try congr 1 <;> (apply BitVec.eq_of_toNat_eq; simp only [BitVec.toNat_ofNat]; omega)

theorem RoundTrip.vpackB (d a : BitVec 5) (k : BitVec 3) (e : BitVec 1) (p : BitVec 3) : RoundTrip.Statement (.vpackB d a k e p) := by
  have := d.isLt
  have := a.isLt
  have := k.isLt
  have := e.isLt
  have := p.isLt
  refine roundTrip32 0x31 d.toNat a.toNat 1 (k.toNat * 32 + e.toNat * 16 + p.toNat) rfl (by decide) (by omega) (by omega) (by omega) (by omega) fun hw => ?_
  show (dec31 d.toNat a.toNat 1 (k.toNat * 32 + e.toNat * 16 + p.toNat)).filter Instr.wf = _
  unfold dec31
  repeat (first | rw [if_neg (by omega)] | rw [if_pos (by omega)])
  refine filter_wf ?_ hw
  try simp only [BitVec.ofNat_toNat, BitVec.setWidth_eq]
  try congr 1 <;> (apply BitVec.eq_of_toNat_eq; simp only [BitVec.toNat_ofNat]; omega)

theorem RoundTrip.vconv (d a b : BitVec 5) (k : BitVec 3) (e f : BitVec 1) (p : BitVec 3) : RoundTrip.Statement (.vconv d a b k e f p) := by
  have := d.isLt
  have := a.isLt
  have := b.isLt
  have := k.isLt
  have := e.isLt
  have := f.isLt
  have := p.isLt
  refine roundTrip32 0x32 d.toNat a.toNat b.toNat (k.toNat * 32 + e.toNat * 16 + f.toNat * 8 + p.toNat) rfl (by decide) (by omega) (by omega) (by omega) (by omega) fun hw => ?_
  show (dec32 d.toNat a.toNat b.toNat (k.toNat * 32 + e.toNat * 16 + f.toNat * 8 + p.toNat)).filter Instr.wf = _
  unfold dec32
  repeat (first | rw [if_neg (by omega)] | rw [if_pos (by omega)])
  refine filter_wf ?_ hw
  try simp only [BitVec.ofNat_toNat, BitVec.setWidth_eq]
  try congr 1 <;> (apply BitVec.eq_of_toNat_eq; simp only [BitVec.toNat_ofNat]; omega)

theorem RoundTrip.vxtr (d a n : BitVec 5) (k : BitVec 3) (e : BitVec 1) (p : BitVec 3) : RoundTrip.Statement (.vxtr d a n k e p) := by
  have := d.isLt
  have := a.isLt
  have := n.isLt
  have := k.isLt
  have := e.isLt
  have := p.isLt
  refine roundTrip32 0x33 d.toNat a.toNat n.toNat (k.toNat * 32 + e.toNat * 16 + p.toNat) rfl (by decide) (by omega) (by omega) (by omega) (by omega) fun hw => ?_
  show (dec33 d.toNat a.toNat n.toNat (k.toNat * 32 + e.toNat * 16 + p.toNat)).filter Instr.wf = _
  unfold dec33
  repeat (first | rw [if_neg (by omega)] | rw [if_pos (by omega)])
  refine filter_wf ?_ hw
  try simp only [BitVec.ofNat_toNat, BitVec.setWidth_eq]
  try congr 1 <;> (apply BitVec.eq_of_toNat_eq; simp only [BitVec.toNat_ofNat]; omega)

theorem RoundTrip.vld (v b : BitVec 5) (k f : BitVec 3) : RoundTrip.Statement (.vld v b k f) := by
  have := v.isLt
  have := b.isLt
  have := k.isLt
  have := f.isLt
  refine roundTrip32 0x34 v.toNat b.toNat 0 (k.toNat * 32 + f.toNat) rfl (by decide) (by omega) (by omega) (by omega) (by omega) fun hw => ?_
  show (dec34 v.toNat b.toNat 0 (k.toNat * 32 + f.toNat)).filter Instr.wf = _
  unfold dec34
  repeat (first | rw [if_neg (by omega)] | rw [if_pos (by omega)])
  refine filter_wf ?_ hw
  try simp only [BitVec.ofNat_toNat, BitVec.setWidth_eq]
  try congr 1 <;> (apply BitVec.eq_of_toNat_eq; simp only [BitVec.toNat_ofNat]; omega)

theorem RoundTrip.vldff (v b : BitVec 5) (k f : BitVec 3) : RoundTrip.Statement (.vldff v b k f) := by
  have := v.isLt
  have := b.isLt
  have := k.isLt
  have := f.isLt
  refine roundTrip32 0x34 v.toNat b.toNat 0 (k.toNat * 32 + f.toNat + 8) rfl (by decide) (by omega) (by omega) (by omega) (by omega) fun hw => ?_
  show (dec34 v.toNat b.toNat 0 (k.toNat * 32 + f.toNat + 8)).filter Instr.wf = _
  unfold dec34
  repeat (first | rw [if_neg (by omega)] | rw [if_pos (by omega)])
  refine filter_wf ?_ hw
  try simp only [BitVec.ofNat_toNat, BitVec.setWidth_eq]
  try congr 1 <;> (apply BitVec.eq_of_toNat_eq; simp only [BitVec.toNat_ofNat]; omega)

theorem RoundTrip.vlds (v b x : BitVec 5) (k f : BitVec 3) : RoundTrip.Statement (.vlds v b x k f) := by
  have := v.isLt
  have := b.isLt
  have := x.isLt
  have := k.isLt
  have := f.isLt
  refine roundTrip32 0x35 v.toNat b.toNat x.toNat (k.toNat * 32 + f.toNat) rfl (by decide) (by omega) (by omega) (by omega) (by omega) fun hw => ?_
  show (dec35 v.toNat b.toNat x.toNat (k.toNat * 32 + f.toNat)).filter Instr.wf = _
  unfold dec35
  repeat (first | rw [if_neg (by omega)] | rw [if_pos (by omega)])
  refine filter_wf ?_ hw
  try simp only [BitVec.ofNat_toNat, BitVec.setWidth_eq]
  try congr 1 <;> (apply BitVec.eq_of_toNat_eq; simp only [BitVec.toNat_ofNat]; omega)

theorem RoundTrip.vldx (v b x : BitVec 5) (k : BitVec 3) (e : BitVec 1) (w : BitVec 2) : RoundTrip.Statement (.vldx v b x k e w) := by
  have := v.isLt
  have := b.isLt
  have := x.isLt
  have := k.isLt
  have := e.isLt
  have := w.isLt
  refine roundTrip32 0x36 v.toNat b.toNat x.toNat (k.toNat * 32 + e.toNat * 16 + w.toNat) rfl (by decide) (by omega) (by omega) (by omega) (by omega) fun hw => ?_
  show (dec36 v.toNat b.toNat x.toNat (k.toNat * 32 + e.toNat * 16 + w.toNat)).filter Instr.wf = _
  unfold dec36
  repeat (first | rw [if_neg (by omega)] | rw [if_pos (by omega)])
  refine filter_wf ?_ hw
  try simp only [BitVec.ofNat_toNat, BitVec.setWidth_eq]
  try congr 1 <;> (apply BitVec.eq_of_toNat_eq; simp only [BitVec.toNat_ofNat]; omega)

theorem RoundTrip.vst (v b : BitVec 5) (k : BitVec 3) (e : BitVec 1) (f : BitVec 3) : RoundTrip.Statement (.vst v b k e f) := by
  have := v.isLt
  have := b.isLt
  have := k.isLt
  have := e.isLt
  have := f.isLt
  refine roundTrip32 0x37 v.toNat b.toNat 0 (k.toNat * 32 + e.toNat * 16 + f.toNat) rfl (by decide) (by omega) (by omega) (by omega) (by omega) fun hw => ?_
  show (dec37 v.toNat b.toNat 0 (k.toNat * 32 + e.toNat * 16 + f.toNat)).filter Instr.wf = _
  unfold dec37
  repeat (first | rw [if_neg (by omega)] | rw [if_pos (by omega)])
  refine filter_wf ?_ hw
  try simp only [BitVec.ofNat_toNat, BitVec.setWidth_eq]
  try congr 1 <;> (apply BitVec.eq_of_toNat_eq; simp only [BitVec.toNat_ofNat]; omega)

theorem RoundTrip.vstn (v b : BitVec 5) (k : BitVec 3) (e : BitVec 1) (f : BitVec 3) : RoundTrip.Statement (.vstn v b k e f) := by
  have := v.isLt
  have := b.isLt
  have := k.isLt
  have := e.isLt
  have := f.isLt
  refine roundTrip32 0x37 v.toNat b.toNat 0 (k.toNat * 32 + e.toNat * 16 + f.toNat + 8) rfl (by decide) (by omega) (by omega) (by omega) (by omega) fun hw => ?_
  show (dec37 v.toNat b.toNat 0 (k.toNat * 32 + e.toNat * 16 + f.toNat + 8)).filter Instr.wf = _
  unfold dec37
  repeat (first | rw [if_neg (by omega)] | rw [if_pos (by omega)])
  refine filter_wf ?_ hw
  try simp only [BitVec.ofNat_toNat, BitVec.setWidth_eq]
  try congr 1 <;> (apply BitVec.eq_of_toNat_eq; simp only [BitVec.toNat_ofNat]; omega)

theorem RoundTrip.vsts (v b x : BitVec 5) (k : BitVec 3) (e : BitVec 1) (f : BitVec 3) : RoundTrip.Statement (.vsts v b x k e f) := by
  have := v.isLt
  have := b.isLt
  have := x.isLt
  have := k.isLt
  have := e.isLt
  have := f.isLt
  refine roundTrip32 0x38 v.toNat b.toNat x.toNat (k.toNat * 32 + e.toNat * 16 + f.toNat) rfl (by decide) (by omega) (by omega) (by omega) (by omega) fun hw => ?_
  show (dec38 v.toNat b.toNat x.toNat (k.toNat * 32 + e.toNat * 16 + f.toNat)).filter Instr.wf = _
  unfold dec38
  repeat (first | rw [if_neg (by omega)] | rw [if_pos (by omega)])
  refine filter_wf ?_ hw
  try simp only [BitVec.ofNat_toNat, BitVec.setWidth_eq]
  try congr 1 <;> (apply BitVec.eq_of_toNat_eq; simp only [BitVec.toNat_ofNat]; omega)

theorem RoundTrip.vstx (v b x : BitVec 5) (k : BitVec 3) (e : BitVec 1) (w : BitVec 2) : RoundTrip.Statement (.vstx v b x k e w) := by
  have := v.isLt
  have := b.isLt
  have := x.isLt
  have := k.isLt
  have := e.isLt
  have := w.isLt
  refine roundTrip32 0x39 v.toNat b.toNat x.toNat (k.toNat * 32 + e.toNat * 16 + w.toNat) rfl (by decide) (by omega) (by omega) (by omega) (by omega) fun hw => ?_
  show (dec39 v.toNat b.toNat x.toNat (k.toNat * 32 + e.toNat * 16 + w.toNat)).filter Instr.wf = _
  unfold dec39
  repeat (first | rw [if_neg (by omega)] | rw [if_pos (by omega)])
  refine filter_wf ?_ hw
  try simp only [BitVec.ofNat_toNat, BitVec.setWidth_eq]
  try congr 1 <;> (apply BitVec.eq_of_toNat_eq; simp only [BitVec.toNat_ofNat]; omega)

theorem RoundTrip.vldbp (v b : BitVec 5) (k p : BitVec 3) : RoundTrip.Statement (.vldbp v b k p) := by
  have := v.isLt
  have := b.isLt
  have := k.isLt
  have := p.isLt
  refine roundTrip32 0x3A v.toNat b.toNat 0 (k.toNat * 32 + p.toNat * 2) rfl (by decide) (by omega) (by omega) (by omega) (by omega) fun hw => ?_
  show (dec3A v.toNat b.toNat 0 (k.toNat * 32 + p.toNat * 2)).filter Instr.wf = _
  unfold dec3A
  repeat (first | rw [if_neg (by omega)] | rw [if_pos (by omega)])
  refine filter_wf ?_ hw
  try simp only [BitVec.ofNat_toNat, BitVec.setWidth_eq]
  try congr 1 <;> (apply BitVec.eq_of_toNat_eq; simp only [BitVec.toNat_ofNat]; omega)

theorem RoundTrip.vstbp (v b : BitVec 5) (k : BitVec 3) (e : BitVec 1) (p : BitVec 3) : RoundTrip.Statement (.vstbp v b k e p) := by
  have := v.isLt
  have := b.isLt
  have := k.isLt
  have := e.isLt
  have := p.isLt
  refine roundTrip32 0x3A v.toNat b.toNat 0 (k.toNat * 32 + e.toNat * 16 + p.toNat * 2 + 1) rfl (by decide) (by omega) (by omega) (by omega) (by omega) fun hw => ?_
  show (dec3A v.toNat b.toNat 0 (k.toNat * 32 + e.toNat * 16 + p.toNat * 2 + 1)).filter Instr.wf = _
  unfold dec3A
  repeat (first | rw [if_neg (by omega)] | rw [if_pos (by omega)])
  refine filter_wf ?_ hw
  try simp only [BitVec.ofNat_toNat, BitVec.setWidth_eq]
  try congr 1 <;> (apply BitVec.eq_of_toNat_eq; simp only [BitVec.toNat_ofNat]; omega)

theorem RoundTrip.vspill (v b : BitVec 5) : RoundTrip.Statement (.vspill v b) := by
  have := v.isLt
  have := b.isLt
  refine roundTrip32 0x3B v.toNat b.toNat 0 0 rfl (by decide) (by omega) (by omega) (by omega) (by omega) fun hw => ?_
  show (dec3B v.toNat b.toNat 0 0).filter Instr.wf = _
  unfold dec3B
  repeat (first | rw [if_neg (by omega)] | rw [if_pos (by omega)])
  refine filter_wf ?_ hw
  try simp only [BitVec.ofNat_toNat, BitVec.setWidth_eq]
  try congr 1 <;> (apply BitVec.eq_of_toNat_eq; simp only [BitVec.toNat_ofNat]; omega)

theorem RoundTrip.vrefill (v b : BitVec 5) : RoundTrip.Statement (.vrefill v b) := by
  have := v.isLt
  have := b.isLt
  refine roundTrip32 0x3B v.toNat b.toNat 0 1 rfl (by decide) (by omega) (by omega) (by omega) (by omega) fun hw => ?_
  show (dec3B v.toNat b.toNat 0 1).filter Instr.wf = _
  unfold dec3B
  repeat (first | rw [if_neg (by omega)] | rw [if_pos (by omega)])
  refine filter_wf ?_ hw
  try simp only [BitVec.ofNat_toNat, BitVec.setWidth_eq]
  try congr 1 <;> (apply BitVec.eq_of_toNat_eq; simp only [BitVec.toNat_ofNat]; omega)

theorem RoundTrip.vamoAdd (v b x : BitVec 5) (k : BitVec 3) (e : BitVec 1) : RoundTrip.Statement (.vamoAdd v b x k e) := by
  have := v.isLt
  have := b.isLt
  have := x.isLt
  have := k.isLt
  have := e.isLt
  refine roundTrip32 0x3C v.toNat b.toNat x.toNat (k.toNat * 32 + e.toNat * 16) rfl (by decide) (by omega) (by omega) (by omega) (by omega) fun hw => ?_
  show (dec3C v.toNat b.toNat x.toNat (k.toNat * 32 + e.toNat * 16)).filter Instr.wf = _
  unfold dec3C
  repeat (first | rw [if_neg (by omega)] | rw [if_pos (by omega)])
  refine filter_wf ?_ hw
  try simp only [BitVec.ofNat_toNat, BitVec.setWidth_eq]
  try congr 1 <;> (apply BitVec.eq_of_toNat_eq; simp only [BitVec.toNat_ofNat]; omega)

theorem RoundTrip.vamoAnd (v b x : BitVec 5) (k : BitVec 3) (e : BitVec 1) : RoundTrip.Statement (.vamoAnd v b x k e) := by
  have := v.isLt
  have := b.isLt
  have := x.isLt
  have := k.isLt
  have := e.isLt
  refine roundTrip32 0x3C v.toNat b.toNat x.toNat (k.toNat * 32 + e.toNat * 16 + 1) rfl (by decide) (by omega) (by omega) (by omega) (by omega) fun hw => ?_
  show (dec3C v.toNat b.toNat x.toNat (k.toNat * 32 + e.toNat * 16 + 1)).filter Instr.wf = _
  unfold dec3C
  repeat (first | rw [if_neg (by omega)] | rw [if_pos (by omega)])
  refine filter_wf ?_ hw
  try simp only [BitVec.ofNat_toNat, BitVec.setWidth_eq]
  try congr 1 <;> (apply BitVec.eq_of_toNat_eq; simp only [BitVec.toNat_ofNat]; omega)

theorem RoundTrip.vamoOr (v b x : BitVec 5) (k : BitVec 3) (e : BitVec 1) : RoundTrip.Statement (.vamoOr v b x k e) := by
  have := v.isLt
  have := b.isLt
  have := x.isLt
  have := k.isLt
  have := e.isLt
  refine roundTrip32 0x3C v.toNat b.toNat x.toNat (k.toNat * 32 + e.toNat * 16 + 2) rfl (by decide) (by omega) (by omega) (by omega) (by omega) fun hw => ?_
  show (dec3C v.toNat b.toNat x.toNat (k.toNat * 32 + e.toNat * 16 + 2)).filter Instr.wf = _
  unfold dec3C
  repeat (first | rw [if_neg (by omega)] | rw [if_pos (by omega)])
  refine filter_wf ?_ hw
  try simp only [BitVec.ofNat_toNat, BitVec.setWidth_eq]
  try congr 1 <;> (apply BitVec.eq_of_toNat_eq; simp only [BitVec.toNat_ofNat]; omega)

theorem RoundTrip.vamoXor (v b x : BitVec 5) (k : BitVec 3) (e : BitVec 1) : RoundTrip.Statement (.vamoXor v b x k e) := by
  have := v.isLt
  have := b.isLt
  have := x.isLt
  have := k.isLt
  have := e.isLt
  refine roundTrip32 0x3C v.toNat b.toNat x.toNat (k.toNat * 32 + e.toNat * 16 + 3) rfl (by decide) (by omega) (by omega) (by omega) (by omega) fun hw => ?_
  show (dec3C v.toNat b.toNat x.toNat (k.toNat * 32 + e.toNat * 16 + 3)).filter Instr.wf = _
  unfold dec3C
  repeat (first | rw [if_neg (by omega)] | rw [if_pos (by omega)])
  refine filter_wf ?_ hw
  try simp only [BitVec.ofNat_toNat, BitVec.setWidth_eq]
  try congr 1 <;> (apply BitVec.eq_of_toNat_eq; simp only [BitVec.toNat_ofNat]; omega)

theorem RoundTrip.vamoMin (v b x : BitVec 5) (k : BitVec 3) (e : BitVec 1) : RoundTrip.Statement (.vamoMin v b x k e) := by
  have := v.isLt
  have := b.isLt
  have := x.isLt
  have := k.isLt
  have := e.isLt
  refine roundTrip32 0x3C v.toNat b.toNat x.toNat (k.toNat * 32 + e.toNat * 16 + 4) rfl (by decide) (by omega) (by omega) (by omega) (by omega) fun hw => ?_
  show (dec3C v.toNat b.toNat x.toNat (k.toNat * 32 + e.toNat * 16 + 4)).filter Instr.wf = _
  unfold dec3C
  repeat (first | rw [if_neg (by omega)] | rw [if_pos (by omega)])
  refine filter_wf ?_ hw
  try simp only [BitVec.ofNat_toNat, BitVec.setWidth_eq]
  try congr 1 <;> (apply BitVec.eq_of_toNat_eq; simp only [BitVec.toNat_ofNat]; omega)

theorem RoundTrip.vamoMax (v b x : BitVec 5) (k : BitVec 3) (e : BitVec 1) : RoundTrip.Statement (.vamoMax v b x k e) := by
  have := v.isLt
  have := b.isLt
  have := x.isLt
  have := k.isLt
  have := e.isLt
  refine roundTrip32 0x3C v.toNat b.toNat x.toNat (k.toNat * 32 + e.toNat * 16 + 5) rfl (by decide) (by omega) (by omega) (by omega) (by omega) fun hw => ?_
  show (dec3C v.toNat b.toNat x.toNat (k.toNat * 32 + e.toNat * 16 + 5)).filter Instr.wf = _
  unfold dec3C
  repeat (first | rw [if_neg (by omega)] | rw [if_pos (by omega)])
  refine filter_wf ?_ hw
  try simp only [BitVec.ofNat_toNat, BitVec.setWidth_eq]
  try congr 1 <;> (apply BitVec.eq_of_toNat_eq; simp only [BitVec.toNat_ofNat]; omega)

theorem RoundTrip.vamoSwap (v b x : BitVec 5) (k : BitVec 3) (e : BitVec 1) : RoundTrip.Statement (.vamoSwap v b x k e) := by
  have := v.isLt
  have := b.isLt
  have := x.isLt
  have := k.isLt
  have := e.isLt
  refine roundTrip32 0x3C v.toNat b.toNat x.toNat (k.toNat * 32 + e.toNat * 16 + 6) rfl (by decide) (by omega) (by omega) (by omega) (by omega) fun hw => ?_
  show (dec3C v.toNat b.toNat x.toNat (k.toNat * 32 + e.toNat * 16 + 6)).filter Instr.wf = _
  unfold dec3C
  repeat (first | rw [if_neg (by omega)] | rw [if_pos (by omega)])
  refine filter_wf ?_ hw
  try simp only [BitVec.ofNat_toNat, BitVec.setWidth_eq]
  try congr 1 <;> (apply BitVec.eq_of_toNat_eq; simp only [BitVec.toNat_ofNat]; omega)

theorem RoundTrip.strmdef (d a : BitVec 5) : RoundTrip.Statement (.strmdef d a) := by
  have := d.isLt
  have := a.isLt
  refine roundTrip32 0x3D d.toNat a.toNat 0 0 rfl (by decide) (by omega) (by omega) (by omega) (by omega) fun hw => ?_
  show (dec3D d.toNat a.toNat 0 0).filter Instr.wf = _
  unfold dec3D
  repeat (first | rw [if_neg (by omega)] | rw [if_pos (by omega)])
  refine filter_wf ?_ hw
  try simp only [BitVec.ofNat_toNat, BitVec.setWidth_eq]
  try congr 1 <;> (apply BitVec.eq_of_toNat_eq; simp only [BitVec.toNat_ofNat]; omega)

theorem RoundTrip.strmend (a : BitVec 5) : RoundTrip.Statement (.strmend a) := by
  have := a.isLt
  refine roundTrip32 0x3D 0 a.toNat 0 1 rfl (by decide) (by omega) (by omega) (by omega) (by omega) fun hw => ?_
  show (dec3D 0 a.toNat 0 1).filter Instr.wf = _
  unfold dec3D
  repeat (first | rw [if_neg (by omega)] | rw [if_pos (by omega)])
  refine filter_wf ?_ hw
  try simp only [BitVec.ofNat_toNat, BitVec.setWidth_eq]
  try congr 1 <;> (apply BitVec.eq_of_toNat_eq; simp only [BitVec.toNat_ofNat]; omega)

theorem RoundTrip.copy (d a : BitVec 5) : RoundTrip.Statement (.copy d a) := by
  have := d.isLt
  have := a.isLt
  refine roundTrip32 0x3D d.toNat a.toNat 0 2 rfl (by decide) (by omega) (by omega) (by omega) (by omega) fun hw => ?_
  show (dec3D d.toNat a.toNat 0 2).filter Instr.wf = _
  unfold dec3D
  repeat (first | rw [if_neg (by omega)] | rw [if_pos (by omega)])
  refine filter_wf ?_ hw
  try simp only [BitVec.ofNat_toNat, BitVec.setWidth_eq]
  try congr 1 <;> (apply BitVec.eq_of_toNat_eq; simp only [BitVec.toNat_ofNat]; omega)

theorem RoundTrip.evpop (d : BitVec 5) : RoundTrip.Statement (.evpop d) := by
  have := d.isLt
  refine roundTrip32 0x3D d.toNat 0 0 3 rfl (by decide) (by omega) (by omega) (by omega) (by omega) fun hw => ?_
  show (dec3D d.toNat 0 0 3).filter Instr.wf = _
  unfold dec3D
  repeat (first | rw [if_neg (by omega)] | rw [if_pos (by omega)])
  refine filter_wf ?_ hw
  try simp only [BitVec.ofNat_toNat, BitVec.setWidth_eq]
  try congr 1 <;> (apply BitVec.eq_of_toNat_eq; simp only [BitVec.toNat_ofNat]; omega)

theorem RoundTrip.gangbind (d a b : BitVec 5) : RoundTrip.Statement (.gangbind d a b) := by
  have := d.isLt
  have := a.isLt
  have := b.isLt
  refine roundTrip32 0x3D d.toNat a.toNat b.toNat 4 rfl (by decide) (by omega) (by omega) (by omega) (by omega) fun hw => ?_
  show (dec3D d.toNat a.toNat b.toNat 4).filter Instr.wf = _
  unfold dec3D
  repeat (first | rw [if_neg (by omega)] | rw [if_pos (by omega)])
  refine filter_wf ?_ hw
  try simp only [BitVec.ofNat_toNat, BitVec.setWidth_eq]
  try congr 1 <;> (apply BitVec.eq_of_toNat_eq; simp only [BitVec.toNat_ofNat]; omega)

theorem RoundTrip.gangfree : RoundTrip.Statement (.gangfree) := by
  refine roundTrip32 0x3D 0 0 0 5 rfl (by decide) (by omega) (by omega) (by omega) (by omega) fun hw => ?_
  show (dec3D 0 0 0 5).filter Instr.wf = _
  unfold dec3D
  repeat (first | rw [if_neg (by omega)] | rw [if_pos (by omega)])
  exact filter_wf rfl hw

theorem RoundTrip.vplane (d a n : BitVec 5) (k : BitVec 3) (e : BitVec 1) : RoundTrip.Statement (.vplane d a n k e) := by
  have := d.isLt
  have := a.isLt
  have := n.isLt
  have := k.isLt
  have := e.isLt
  refine roundTrip32 0x3E d.toNat a.toNat n.toNat (k.toNat * 32 + e.toNat * 16) rfl (by decide) (by omega) (by omega) (by omega) (by omega) fun hw => ?_
  show (dec3E d.toNat a.toNat n.toNat (k.toNat * 32 + e.toNat * 16)).filter Instr.wf = _
  unfold dec3E
  repeat (first | rw [if_neg (by omega)] | rw [if_pos (by omega)])
  refine filter_wf ?_ hw
  try simp only [BitVec.ofNat_toNat, BitVec.setWidth_eq]
  try congr 1 <;> (apply BitVec.eq_of_toNat_eq; simp only [BitVec.toNat_ofNat]; omega)

theorem RoundTrip.vtoplane (d a : BitVec 5) (k : BitVec 3) (e : BitVec 1) : RoundTrip.Statement (.vtoplane d a k e) := by
  have := d.isLt
  have := a.isLt
  have := k.isLt
  have := e.isLt
  refine roundTrip32 0x3E d.toNat a.toNat 0 (k.toNat * 32 + e.toNat * 16 + 1) rfl (by decide) (by omega) (by omega) (by omega) (by omega) fun hw => ?_
  show (dec3E d.toNat a.toNat 0 (k.toNat * 32 + e.toNat * 16 + 1)).filter Instr.wf = _
  unfold dec3E
  repeat (first | rw [if_neg (by omega)] | rw [if_pos (by omega)])
  refine filter_wf ?_ hw
  try simp only [BitVec.ofNat_toNat, BitVec.setWidth_eq]
  try congr 1 <;> (apply BitVec.eq_of_toNat_eq; simp only [BitVec.toNat_ofNat]; omega)

theorem RoundTrip.vqscale (d a b : BitVec 5) (k : BitVec 3) (e : BitVec 1) : RoundTrip.Statement (.vqscale d a b k e) := by
  have := d.isLt
  have := a.isLt
  have := b.isLt
  have := k.isLt
  have := e.isLt
  refine roundTrip32 0x3E d.toNat a.toNat b.toNat (k.toNat * 32 + e.toNat * 16 + 2) rfl (by decide) (by omega) (by omega) (by omega) (by omega) fun hw => ?_
  show (dec3E d.toNat a.toNat b.toNat (k.toNat * 32 + e.toNat * 16 + 2)).filter Instr.wf = _
  unfold dec3E
  repeat (first | rw [if_neg (by omega)] | rw [if_pos (by omega)])
  refine filter_wf ?_ hw
  try simp only [BitVec.ofNat_toNat, BitVec.setWidth_eq]
  try congr 1 <;> (apply BitVec.eq_of_toNat_eq; simp only [BitVec.toNat_ofNat]; omega)

theorem RoundTrip.vnarrow (d a : BitVec 5) (k : BitVec 3) (e : BitVec 1) : RoundTrip.Statement (.vnarrow d a k e) := by
  have := d.isLt
  have := a.isLt
  have := k.isLt
  have := e.isLt
  refine roundTrip32 0x3E d.toNat a.toNat 0 (k.toNat * 32 + e.toNat * 16 + 3) rfl (by decide) (by omega) (by omega) (by omega) (by omega) fun hw => ?_
  show (dec3E d.toNat a.toNat 0 (k.toNat * 32 + e.toNat * 16 + 3)).filter Instr.wf = _
  unfold dec3E
  repeat (first | rw [if_neg (by omega)] | rw [if_pos (by omega)])
  refine filter_wf ?_ hw
  try simp only [BitVec.ofNat_toNat, BitVec.setWidth_eq]
  try congr 1 <;> (apply BitVec.eq_of_toNat_eq; simp only [BitVec.toNat_ofNat]; omega)

theorem RoundTrip.vdeq (d a n : BitVec 5) (k : BitVec 3) (e : BitVec 1) : RoundTrip.Statement (.vdeq d a n k e) := by
  have := d.isLt
  have := a.isLt
  have := n.isLt
  have := k.isLt
  have := e.isLt
  refine roundTrip32 0x3E d.toNat a.toNat n.toNat (k.toNat * 32 + e.toNat * 16 + 4) rfl (by decide) (by omega) (by omega) (by omega) (by omega) fun hw => ?_
  show (dec3E d.toNat a.toNat n.toNat (k.toNat * 32 + e.toNat * 16 + 4)).filter Instr.wf = _
  unfold dec3E
  repeat (first | rw [if_neg (by omega)] | rw [if_pos (by omega)])
  refine filter_wf ?_ hw
  try simp only [BitVec.ofNat_toNat, BitVec.setWidth_eq]
  try congr 1 <;> (apply BitVec.eq_of_toNat_eq; simp only [BitVec.toNat_ofNat]; omega)

theorem RoundTrip.pref (d a b : BitVec 5) : RoundTrip.Statement (.pref d a b) := by
  have := d.isLt
  have := a.isLt
  have := b.isLt
  refine roundTrip32 0x3F d.toNat a.toNat b.toNat 0 rfl (by decide) (by omega) (by omega) (by omega) (by omega) fun hw => ?_
  show (dec3F d.toNat a.toNat b.toNat 0).filter Instr.wf = _
  unfold dec3F
  repeat (first | rw [if_neg (by omega)] | rw [if_pos (by omega)])
  refine filter_wf ?_ hw
  try simp only [BitVec.ofNat_toNat, BitVec.setWidth_eq]
  try congr 1 <;> (apply BitVec.eq_of_toNat_eq; simp only [BitVec.toNat_ofNat]; omega)

theorem RoundTrip.land (d a b : BitVec 5) : RoundTrip.Statement (.land d a b) := by
  have := d.isLt
  have := a.isLt
  have := b.isLt
  refine roundTrip32 0x3F d.toNat a.toNat b.toNat 1 rfl (by decide) (by omega) (by omega) (by omega) (by omega) fun hw => ?_
  show (dec3F d.toNat a.toNat b.toNat 1).filter Instr.wf = _
  unfold dec3F
  repeat (first | rw [if_neg (by omega)] | rw [if_pos (by omega)])
  refine filter_wf ?_ hw
  try simp only [BitVec.ofNat_toNat, BitVec.setWidth_eq]
  try congr 1 <;> (apply BitVec.eq_of_toNat_eq; simp only [BitVec.toNat_ofNat]; omega)

theorem RoundTrip.pause (d a b : BitVec 5) : RoundTrip.Statement (.pause d a b) := by
  have := d.isLt
  have := a.isLt
  have := b.isLt
  refine roundTrip32 0x3F d.toNat a.toNat b.toNat 2 rfl (by decide) (by omega) (by omega) (by omega) (by omega) fun hw => ?_
  show (dec3F d.toNat a.toNat b.toNat 2).filter Instr.wf = _
  unfold dec3F
  repeat (first | rw [if_neg (by omega)] | rw [if_pos (by omega)])
  refine filter_wf ?_ hw
  try simp only [BitVec.ofNat_toNat, BitVec.setWidth_eq]
  try congr 1 <;> (apply BitVec.eq_of_toNat_eq; simp only [BitVec.toNat_ofNat]; omega)

theorem RoundTrip.grantq (d a b : BitVec 5) : RoundTrip.Statement (.grantq d a b) := by
  have := d.isLt
  have := a.isLt
  have := b.isLt
  refine roundTrip32 0x3F d.toNat a.toNat b.toNat 4 rfl (by decide) (by omega) (by omega) (by omega) (by omega) fun hw => ?_
  show (dec3F d.toNat a.toNat b.toNat 4).filter Instr.wf = _
  unfold dec3F
  repeat (first | rw [if_neg (by omega)] | rw [if_pos (by omega)])
  refine filter_wf ?_ hw
  try simp only [BitVec.ofNat_toNat, BitVec.setWidth_eq]
  try congr 1 <;> (apply BitVec.eq_of_toNat_eq; simp only [BitVec.toNat_ofNat]; omega)

theorem RoundTrip.hintNop (d a b : BitVec 5) (f : BitVec 8) : RoundTrip.Statement (.hintNop d a b f) := by
  have := d.isLt
  have := a.isLt
  have := b.isLt
  have := f.isLt
  refine roundTrip32 0x3F d.toNat a.toNat b.toNat f.toNat rfl (by decide) (by omega) (by omega) (by omega) (by omega) fun hw => ?_
  have hf : f.toNat ≠ 0 ∧ f.toNat ≠ 1 ∧ f.toNat ≠ 2 ∧ f.toNat ≠ 4 := by
    have h : (f.toNat != 0 && f.toNat != 1 && f.toNat != 2 && f.toNat != 4) = true := hw
    simpa [and_assoc] using h
  show (dec3F d.toNat a.toNat b.toNat f.toNat).filter Instr.wf = _
  unfold dec3F
  repeat (first | rw [if_neg (by omega)] | rw [if_pos (by omega)])
  refine filter_wf ?_ hw
  try simp only [BitVec.ofNat_toNat, BitVec.setWidth_eq]
  try congr 1 <;> (apply BitVec.eq_of_toNat_eq; simp only [BitVec.toNat_ofNat]; omega)

theorem RoundTrip.cAddi (d : BitVec 5) (i : BitVec 8) : RoundTrip.Statement (.cAddi d i) := by
  have := d.isLt
  have := i.isLt
  refine roundTrip16 (0 + d.toNat * 256 + i.toNat) rfl (by omega) (by omega) fun hw => ?_
  unfold decode16
  repeat (first | rw [if_neg (by omega)] | rw [if_pos (by omega)])
  refine filter_wf ?_ hw
  try simp only [BitVec.ofNat_toNat, BitVec.setWidth_eq]
  try congr 1 <;> (apply BitVec.eq_of_toNat_eq; simp only [BitVec.toNat_ofNat]; omega)

theorem RoundTrip.cMv (d s : BitVec 5) : RoundTrip.Statement (.cMv d s) := by
  have := d.isLt
  have := s.isLt
  refine roundTrip16 (8192 + d.toNat * 32 + s.toNat) rfl (by omega) (by omega) fun hw => ?_
  unfold decode16
  repeat (first | rw [if_neg (by omega)] | rw [if_pos (by omega)])
  refine filter_wf ?_ hw
  try simp only [BitVec.ofNat_toNat, BitVec.setWidth_eq]
  try congr 1 <;> (apply BitVec.eq_of_toNat_eq; simp only [BitVec.toNat_ofNat]; omega)

theorem RoundTrip.cAdd (d s : BitVec 5) : RoundTrip.Statement (.cAdd d s) := by
  have := d.isLt
  have := s.isLt
  refine roundTrip16 (9216 + d.toNat * 32 + s.toNat) rfl (by omega) (by omega) fun hw => ?_
  unfold decode16
  repeat (first | rw [if_neg (by omega)] | rw [if_pos (by omega)])
  refine filter_wf ?_ hw
  try simp only [BitVec.ofNat_toNat, BitVec.setWidth_eq]
  try congr 1 <;> (apply BitVec.eq_of_toNat_eq; simp only [BitVec.toNat_ofNat]; omega)

theorem RoundTrip.cSub (d s : BitVec 5) : RoundTrip.Statement (.cSub d s) := by
  have := d.isLt
  have := s.isLt
  refine roundTrip16 (10240 + d.toNat * 32 + s.toNat) rfl (by omega) (by omega) fun hw => ?_
  unfold decode16
  repeat (first | rw [if_neg (by omega)] | rw [if_pos (by omega)])
  refine filter_wf ?_ hw
  try simp only [BitVec.ofNat_toNat, BitVec.setWidth_eq]
  try congr 1 <;> (apply BitVec.eq_of_toNat_eq; simp only [BitVec.toNat_ofNat]; omega)

theorem RoundTrip.cAnd (d s : BitVec 5) : RoundTrip.Statement (.cAnd d s) := by
  have := d.isLt
  have := s.isLt
  refine roundTrip16 (11264 + d.toNat * 32 + s.toNat) rfl (by omega) (by omega) fun hw => ?_
  unfold decode16
  repeat (first | rw [if_neg (by omega)] | rw [if_pos (by omega)])
  refine filter_wf ?_ hw
  try simp only [BitVec.ofNat_toNat, BitVec.setWidth_eq]
  try congr 1 <;> (apply BitVec.eq_of_toNat_eq; simp only [BitVec.toNat_ofNat]; omega)

theorem RoundTrip.cOr (d s : BitVec 5) : RoundTrip.Statement (.cOr d s) := by
  have := d.isLt
  have := s.isLt
  refine roundTrip16 (12288 + d.toNat * 32 + s.toNat) rfl (by omega) (by omega) fun hw => ?_
  unfold decode16
  repeat (first | rw [if_neg (by omega)] | rw [if_pos (by omega)])
  refine filter_wf ?_ hw
  try simp only [BitVec.ofNat_toNat, BitVec.setWidth_eq]
  try congr 1 <;> (apply BitVec.eq_of_toNat_eq; simp only [BitVec.toNat_ofNat]; omega)

theorem RoundTrip.cXor (d s : BitVec 5) : RoundTrip.Statement (.cXor d s) := by
  have := d.isLt
  have := s.isLt
  refine roundTrip16 (13312 + d.toNat * 32 + s.toNat) rfl (by omega) (by omega) fun hw => ?_
  unfold decode16
  repeat (first | rw [if_neg (by omega)] | rw [if_pos (by omega)])
  refine filter_wf ?_ hw
  try simp only [BitVec.ofNat_toNat, BitVec.setWidth_eq]
  try congr 1 <;> (apply BitVec.eq_of_toNat_eq; simp only [BitVec.toNat_ofNat]; omega)

theorem RoundTrip.cSll (d s : BitVec 5) : RoundTrip.Statement (.cSll d s) := by
  have := d.isLt
  have := s.isLt
  refine roundTrip16 (14336 + d.toNat * 32 + s.toNat) rfl (by omega) (by omega) fun hw => ?_
  unfold decode16
  repeat (first | rw [if_neg (by omega)] | rw [if_pos (by omega)])
  refine filter_wf ?_ hw
  try simp only [BitVec.ofNat_toNat, BitVec.setWidth_eq]
  try congr 1 <;> (apply BitVec.eq_of_toNat_eq; simp only [BitVec.toNat_ofNat]; omega)

theorem RoundTrip.cSra (d s : BitVec 5) : RoundTrip.Statement (.cSra d s) := by
  have := d.isLt
  have := s.isLt
  refine roundTrip16 (15360 + d.toNat * 32 + s.toNat) rfl (by omega) (by omega) fun hw => ?_
  unfold decode16
  repeat (first | rw [if_neg (by omega)] | rw [if_pos (by omega)])
  refine filter_wf ?_ hw
  try simp only [BitVec.ofNat_toNat, BitVec.setWidth_eq]
  try congr 1 <;> (apply BitVec.eq_of_toNat_eq; simp only [BitVec.toNat_ofNat]; omega)

theorem RoundTrip.cLd (d b : BitVec 3) (i : BitVec 6) : RoundTrip.Statement (.cLd d b i) := by
  have := d.isLt
  have := b.isLt
  have := i.isLt
  refine roundTrip16 (16384 + d.toNat * 512 + b.toNat * 64 + i.toNat) rfl (by omega) (by omega) fun hw => ?_
  unfold decode16
  repeat (first | rw [if_neg (by omega)] | rw [if_pos (by omega)])
  refine filter_wf ?_ hw
  try simp only [BitVec.ofNat_toNat, BitVec.setWidth_eq]
  try congr 1 <;> (apply BitVec.eq_of_toNat_eq; simp only [BitVec.toNat_ofNat]; omega)

theorem RoundTrip.cSt (s b : BitVec 3) (i : BitVec 6) : RoundTrip.Statement (.cSt s b i) := by
  have := s.isLt
  have := b.isLt
  have := i.isLt
  refine roundTrip16 (20480 + s.toNat * 512 + b.toNat * 64 + i.toNat) rfl (by omega) (by omega) fun hw => ?_
  unfold decode16
  repeat (first | rw [if_neg (by omega)] | rw [if_pos (by omega)])
  refine filter_wf ?_ hw
  try simp only [BitVec.ofNat_toNat, BitVec.setWidth_eq]
  try congr 1 <;> (apply BitVec.eq_of_toNat_eq; simp only [BitVec.toNat_ofNat]; omega)

theorem RoundTrip.cJ (o : BitVec 11) : RoundTrip.Statement (.cJ o) := by
  have := o.isLt
  refine roundTrip16 (24576 + o.toNat) rfl (by omega) (by omega) fun hw => ?_
  unfold decode16
  repeat (first | rw [if_neg (by omega)] | rw [if_pos (by omega)])
  refine filter_wf ?_ hw
  try simp only [BitVec.ofNat_toNat, BitVec.setWidth_eq]
  try congr 1 <;> (apply BitVec.eq_of_toNat_eq; simp only [BitVec.toNat_ofNat]; omega)

theorem RoundTrip.cBeqz (s : BitVec 3) (o : BitVec 8) : RoundTrip.Statement (.cBeqz s o) := by
  have := s.isLt
  have := o.isLt
  refine roundTrip16 (26624 + s.toNat * 256 + o.toNat) rfl (by omega) (by omega) fun hw => ?_
  unfold decode16
  repeat (first | rw [if_neg (by omega)] | rw [if_pos (by omega)])
  refine filter_wf ?_ hw
  try simp only [BitVec.ofNat_toNat, BitVec.setWidth_eq]
  try congr 1 <;> (apply BitVec.eq_of_toNat_eq; simp only [BitVec.toNat_ofNat]; omega)

theorem RoundTrip.cBnez (s : BitVec 3) (o : BitVec 8) : RoundTrip.Statement (.cBnez s o) := by
  have := s.isLt
  have := o.isLt
  refine roundTrip16 (28672 + s.toNat * 256 + o.toNat) rfl (by omega) (by omega) fun hw => ?_
  unfold decode16
  repeat (first | rw [if_neg (by omega)] | rw [if_pos (by omega)])
  refine filter_wf ?_ hw
  try simp only [BitVec.ofNat_toNat, BitVec.setWidth_eq]
  try congr 1 <;> (apply BitVec.eq_of_toNat_eq; simp only [BitVec.toNat_ofNat]; omega)

theorem RoundTrip.cJr (s : BitVec 5) : RoundTrip.Statement (.cJr s) := by
  have := s.isLt
  refine roundTrip16 (30720 + s.toNat * 64) rfl (by omega) (by omega) fun hw => ?_
  unfold decode16
  repeat (first | rw [if_neg (by omega)] | rw [if_pos (by omega)])
  refine filter_wf ?_ hw
  try simp only [BitVec.ofNat_toNat, BitVec.setWidth_eq]
  try congr 1 <;> (apply BitVec.eq_of_toNat_eq; simp only [BitVec.toNat_ofNat]; omega)

theorem RoundTrip.cVadd (d s : BitVec 5) : RoundTrip.Statement (.cVadd d s) := by
  have := d.isLt
  have := s.isLt
  refine roundTrip16 (32768 + d.toNat * 32 + s.toNat) rfl (by omega) (by omega) fun hw => ?_
  unfold decode16
  repeat (first | rw [if_neg (by omega)] | rw [if_pos (by omega)])
  refine filter_wf ?_ hw
  try simp only [BitVec.ofNat_toNat, BitVec.setWidth_eq]
  try congr 1 <;> (apply BitVec.eq_of_toNat_eq; simp only [BitVec.toNat_ofNat]; omega)

theorem RoundTrip.cVsub (d s : BitVec 5) : RoundTrip.Statement (.cVsub d s) := by
  have := d.isLt
  have := s.isLt
  refine roundTrip16 (33792 + d.toNat * 32 + s.toNat) rfl (by omega) (by omega) fun hw => ?_
  unfold decode16
  repeat (first | rw [if_neg (by omega)] | rw [if_pos (by omega)])
  refine filter_wf ?_ hw
  try simp only [BitVec.ofNat_toNat, BitVec.setWidth_eq]
  try congr 1 <;> (apply BitVec.eq_of_toNat_eq; simp only [BitVec.toNat_ofNat]; omega)

theorem RoundTrip.cVmul (d s : BitVec 5) : RoundTrip.Statement (.cVmul d s) := by
  have := d.isLt
  have := s.isLt
  refine roundTrip16 (34816 + d.toNat * 32 + s.toNat) rfl (by omega) (by omega) fun hw => ?_
  unfold decode16
  repeat (first | rw [if_neg (by omega)] | rw [if_pos (by omega)])
  refine filter_wf ?_ hw
  try simp only [BitVec.ofNat_toNat, BitVec.setWidth_eq]
  try congr 1 <;> (apply BitVec.eq_of_toNat_eq; simp only [BitVec.toNat_ofNat]; omega)

theorem RoundTrip.cVfadd (d s : BitVec 5) : RoundTrip.Statement (.cVfadd d s) := by
  have := d.isLt
  have := s.isLt
  refine roundTrip16 (35840 + d.toNat * 32 + s.toNat) rfl (by omega) (by omega) fun hw => ?_
  unfold decode16
  repeat (first | rw [if_neg (by omega)] | rw [if_pos (by omega)])
  refine filter_wf ?_ hw
  try simp only [BitVec.ofNat_toNat, BitVec.setWidth_eq]
  try congr 1 <;> (apply BitVec.eq_of_toNat_eq; simp only [BitVec.toNat_ofNat]; omega)

theorem RoundTrip.cVfmul (d s : BitVec 5) : RoundTrip.Statement (.cVfmul d s) := by
  have := d.isLt
  have := s.isLt
  refine roundTrip16 (36864 + d.toNat * 32 + s.toNat) rfl (by omega) (by omega) fun hw => ?_
  unfold decode16
  repeat (first | rw [if_neg (by omega)] | rw [if_pos (by omega)])
  refine filter_wf ?_ hw
  try simp only [BitVec.ofNat_toNat, BitVec.setWidth_eq]
  try congr 1 <;> (apply BitVec.eq_of_toNat_eq; simp only [BitVec.toNat_ofNat]; omega)

theorem RoundTrip.cVffma (d s : BitVec 5) : RoundTrip.Statement (.cVffma d s) := by
  have := d.isLt
  have := s.isLt
  refine roundTrip16 (37888 + d.toNat * 32 + s.toNat) rfl (by omega) (by omega) fun hw => ?_
  unfold decode16
  repeat (first | rw [if_neg (by omega)] | rw [if_pos (by omega)])
  refine filter_wf ?_ hw
  try simp only [BitVec.ofNat_toNat, BitVec.setWidth_eq]
  try congr 1 <;> (apply BitVec.eq_of_toNat_eq; simp only [BitVec.toNat_ofNat]; omega)

theorem RoundTrip.cVmax (d s : BitVec 5) : RoundTrip.Statement (.cVmax d s) := by
  have := d.isLt
  have := s.isLt
  refine roundTrip16 (38912 + d.toNat * 32 + s.toNat) rfl (by omega) (by omega) fun hw => ?_
  unfold decode16
  repeat (first | rw [if_neg (by omega)] | rw [if_pos (by omega)])
  refine filter_wf ?_ hw
  try simp only [BitVec.ofNat_toNat, BitVec.setWidth_eq]
  try congr 1 <;> (apply BitVec.eq_of_toNat_eq; simp only [BitVec.toNat_ofNat]; omega)

theorem RoundTrip.cVfmax (d s : BitVec 5) : RoundTrip.Statement (.cVfmax d s) := by
  have := d.isLt
  have := s.isLt
  refine roundTrip16 (39936 + d.toNat * 32 + s.toNat) rfl (by omega) (by omega) fun hw => ?_
  unfold decode16
  repeat (first | rw [if_neg (by omega)] | rw [if_pos (by omega)])
  refine filter_wf ?_ hw
  try simp only [BitVec.ofNat_toNat, BitVec.setWidth_eq]
  try congr 1 <;> (apply BitVec.eq_of_toNat_eq; simp only [BitVec.toNat_ofNat]; omega)

theorem RoundTrip.cVaddX (d s : BitVec 5) : RoundTrip.Statement (.cVaddX d s) := by
  have := d.isLt
  have := s.isLt
  refine roundTrip16 (40960 + d.toNat * 32 + s.toNat) rfl (by omega) (by omega) fun hw => ?_
  unfold decode16
  repeat (first | rw [if_neg (by omega)] | rw [if_pos (by omega)])
  refine filter_wf ?_ hw
  try simp only [BitVec.ofNat_toNat, BitVec.setWidth_eq]
  try congr 1 <;> (apply BitVec.eq_of_toNat_eq; simp only [BitVec.toNat_ofNat]; omega)

theorem RoundTrip.cVsubX (d s : BitVec 5) : RoundTrip.Statement (.cVsubX d s) := by
  have := d.isLt
  have := s.isLt
  refine roundTrip16 (41984 + d.toNat * 32 + s.toNat) rfl (by omega) (by omega) fun hw => ?_
  unfold decode16
  repeat (first | rw [if_neg (by omega)] | rw [if_pos (by omega)])
  refine filter_wf ?_ hw
  try simp only [BitVec.ofNat_toNat, BitVec.setWidth_eq]
  try congr 1 <;> (apply BitVec.eq_of_toNat_eq; simp only [BitVec.toNat_ofNat]; omega)

theorem RoundTrip.cVmulX (d s : BitVec 5) : RoundTrip.Statement (.cVmulX d s) := by
  have := d.isLt
  have := s.isLt
  refine roundTrip16 (43008 + d.toNat * 32 + s.toNat) rfl (by omega) (by omega) fun hw => ?_
  unfold decode16
  repeat (first | rw [if_neg (by omega)] | rw [if_pos (by omega)])
  refine filter_wf ?_ hw
  try simp only [BitVec.ofNat_toNat, BitVec.setWidth_eq]
  try congr 1 <;> (apply BitVec.eq_of_toNat_eq; simp only [BitVec.toNat_ofNat]; omega)

theorem RoundTrip.cVfaddX (d s : BitVec 5) : RoundTrip.Statement (.cVfaddX d s) := by
  have := d.isLt
  have := s.isLt
  refine roundTrip16 (44032 + d.toNat * 32 + s.toNat) rfl (by omega) (by omega) fun hw => ?_
  unfold decode16
  repeat (first | rw [if_neg (by omega)] | rw [if_pos (by omega)])
  refine filter_wf ?_ hw
  try simp only [BitVec.ofNat_toNat, BitVec.setWidth_eq]
  try congr 1 <;> (apply BitVec.eq_of_toNat_eq; simp only [BitVec.toNat_ofNat]; omega)

theorem RoundTrip.cVfmulX (d s : BitVec 5) : RoundTrip.Statement (.cVfmulX d s) := by
  have := d.isLt
  have := s.isLt
  refine roundTrip16 (45056 + d.toNat * 32 + s.toNat) rfl (by omega) (by omega) fun hw => ?_
  unfold decode16
  repeat (first | rw [if_neg (by omega)] | rw [if_pos (by omega)])
  refine filter_wf ?_ hw
  try simp only [BitVec.ofNat_toNat, BitVec.setWidth_eq]
  try congr 1 <;> (apply BitVec.eq_of_toNat_eq; simp only [BitVec.toNat_ofNat]; omega)

theorem RoundTrip.cVffmaX (d s : BitVec 5) : RoundTrip.Statement (.cVffmaX d s) := by
  have := d.isLt
  have := s.isLt
  refine roundTrip16 (46080 + d.toNat * 32 + s.toNat) rfl (by omega) (by omega) fun hw => ?_
  unfold decode16
  repeat (first | rw [if_neg (by omega)] | rw [if_pos (by omega)])
  refine filter_wf ?_ hw
  try simp only [BitVec.ofNat_toNat, BitVec.setWidth_eq]
  try congr 1 <;> (apply BitVec.eq_of_toNat_eq; simp only [BitVec.toNat_ofNat]; omega)

theorem RoundTrip.cVmaxX (d s : BitVec 5) : RoundTrip.Statement (.cVmaxX d s) := by
  have := d.isLt
  have := s.isLt
  refine roundTrip16 (47104 + d.toNat * 32 + s.toNat) rfl (by omega) (by omega) fun hw => ?_
  unfold decode16
  repeat (first | rw [if_neg (by omega)] | rw [if_pos (by omega)])
  refine filter_wf ?_ hw
  try simp only [BitVec.ofNat_toNat, BitVec.setWidth_eq]
  try congr 1 <;> (apply BitVec.eq_of_toNat_eq; simp only [BitVec.toNat_ofNat]; omega)

theorem RoundTrip.cVfmaxX (d s : BitVec 5) : RoundTrip.Statement (.cVfmaxX d s) := by
  have := d.isLt
  have := s.isLt
  refine roundTrip16 (48128 + d.toNat * 32 + s.toNat) rfl (by omega) (by omega) fun hw => ?_
  unfold decode16
  repeat (first | rw [if_neg (by omega)] | rw [if_pos (by omega)])
  refine filter_wf ?_ hw
  try simp only [BitVec.ofNat_toNat, BitVec.setWidth_eq]
  try congr 1 <;> (apply BitVec.eq_of_toNat_eq; simp only [BitVec.toNat_ofNat]; omega)

theorem RoundTrip.tshape (z : BitVec 2) (m n : BitVec 6) (k : BitVec 13) : RoundTrip.Statement (.tshape z m n k) := by
  have := z.isLt
  have := m.isLt
  have := n.isLt
  have := k.isLt
  refine roundTrip64 0 0 0 0 0 z.toNat 0 0 0 0 0 0 (m.toNat * 524288 + n.toNat * 8192 + k.toNat) rfl (by omega) (by omega) (by omega) (by omega) (by omega) (by omega) (by omega) (by omega) (by omega) (by omega) (by omega) (by omega) (by omega) fun hw => ?_
  unfold decTile
  repeat (first | rw [if_neg (by omega)] | rw [if_pos (by omega)])
  refine filter_wf ?_ hw
  try simp only [BitVec.ofNat_toNat, BitVec.setWidth_eq]
  try congr 1 <;> (apply BitVec.eq_of_toNat_eq; simp only [BitVec.toNat_ofNat]; omega)

theorem RoundTrip.twin (z : BitVec 2) (i : BitVec 16) : RoundTrip.Statement (.twin z i) := by
  have := z.isLt
  have := i.isLt
  refine roundTrip64 1 0 0 0 0 z.toNat 0 0 0 0 0 0 i.toNat rfl (by omega) (by omega) (by omega) (by omega) (by omega) (by omega) (by omega) (by omega) (by omega) (by omega) (by omega) (by omega) (by omega) fun hw => ?_
  unfold decTile
  repeat (first | rw [if_neg (by omega)] | rw [if_pos (by omega)])
  refine filter_wf ?_ hw
  try simp only [BitVec.ofNat_toNat, BitVec.setWidth_eq]
  try congr 1 <;> (apply BitVec.eq_of_toNat_eq; simp only [BitVec.toNat_ofNat]; omega)

theorem RoundTrip.tzero (z : BitVec 2) : RoundTrip.Statement (.tzero z) := by
  have := z.isLt
  refine roundTrip64 2 0 0 0 0 z.toNat 0 0 0 0 0 0 0 rfl (by omega) (by omega) (by omega) (by omega) (by omega) (by omega) (by omega) (by omega) (by omega) (by omega) (by omega) (by omega) (by omega) fun hw => ?_
  unfold decTile
  repeat (first | rw [if_neg (by omega)] | rw [if_pos (by omega)])
  refine filter_wf ?_ hw
  try simp only [BitVec.ofNat_toNat, BitVec.setWidth_eq]
  try congr 1 <;> (apply BitVec.eq_of_toNat_eq; simp only [BitVec.toNat_ofNat]; omega)

theorem RoundTrip.tmma (z : BitVec 2) (a : BitVec 5) (sa : BitVec 1) (b : BitVec 5) (sb : BitVec 1) (ta tb : BitVec 4) (pa pb : BitVec 3) (ea eb : BitVec 1) : RoundTrip.Statement (.tmma z a sa b sb ta tb pa pb ea eb) := by
  have := z.isLt
  have := a.isLt
  have := sa.isLt
  have := b.isLt
  have := sb.isLt
  have := ta.isLt
  have := tb.isLt
  have := pa.isLt
  have := pb.isLt
  have := ea.isLt
  have := eb.isLt
  refine roundTrip64 3 a.toNat sa.toNat b.toNat sb.toNat z.toNat ta.toNat tb.toNat pa.toNat pb.toNat ea.toNat eb.toNat 0 rfl (by omega) (by omega) (by omega) (by omega) (by omega) (by omega) (by omega) (by omega) (by omega) (by omega) (by omega) (by omega) (by omega) fun hw => ?_
  unfold decTile
  repeat (first | rw [if_neg (by omega)] | rw [if_pos (by omega)])
  refine filter_wf ?_ hw
  try simp only [BitVec.ofNat_toNat, BitVec.setWidth_eq]
  try congr 1 <;> (apply BitVec.eq_of_toNat_eq; simp only [BitVec.toNat_ofNat]; omega)

theorem RoundTrip.tlda (z : BitVec 2) (a : BitVec 5) (sa : BitVec 1) (b : BitVec 5) (t : BitVec 4) (raw sm : BitVec 1) (gm : BitVec 5) : RoundTrip.Statement (.tlda z a sa b t raw sm gm) := by
  have := z.isLt
  have := a.isLt
  have := sa.isLt
  have := b.isLt
  have := t.isLt
  have := raw.isLt
  have := sm.isLt
  have := gm.isLt
  refine roundTrip64 4 a.toNat sa.toNat b.toNat 0 z.toNat t.toNat 0 0 0 0 0 (raw.toNat * 16777216 + sm.toNat * 8388608 + gm.toNat) rfl (by omega) (by omega) (by omega) (by omega) (by omega) (by omega) (by omega) (by omega) (by omega) (by omega) (by omega) (by omega) (by omega) fun hw => ?_
  unfold decTile
  repeat (first | rw [if_neg (by omega)] | rw [if_pos (by omega)])
  refine filter_wf ?_ hw
  try simp only [BitVec.ofNat_toNat, BitVec.setWidth_eq]
  try congr 1 <;> (apply BitVec.eq_of_toNat_eq; simp only [BitVec.toNat_ofNat]; omega)

theorem RoundTrip.tsta (z : BitVec 2) (a : BitVec 5) (sa : BitVec 1) (b : BitVec 5) (t : BitVec 4) (raw sm : BitVec 1) (gm : BitVec 5) : RoundTrip.Statement (.tsta z a sa b t raw sm gm) := by
  have := z.isLt
  have := a.isLt
  have := sa.isLt
  have := b.isLt
  have := t.isLt
  have := raw.isLt
  have := sm.isLt
  have := gm.isLt
  refine roundTrip64 5 a.toNat sa.toNat b.toNat 0 z.toNat t.toNat 0 0 0 0 0 (raw.toNat * 16777216 + sm.toNat * 8388608 + gm.toNat) rfl (by omega) (by omega) (by omega) (by omega) (by omega) (by omega) (by omega) (by omega) (by omega) (by omega) (by omega) (by omega) (by omega) fun hw => ?_
  unfold decTile
  repeat (first | rw [if_neg (by omega)] | rw [if_pos (by omega)])
  refine filter_wf ?_ hw
  try simp only [BitVec.ofNat_toNat, BitVec.setWidth_eq]
  try congr 1 <;> (apply BitVec.eq_of_toNat_eq; simp only [BitVec.toNat_ofNat]; omega)

theorem RoundTrip.tadd (z zs : BitVec 2) : RoundTrip.Statement (.tadd z zs) := by
  have := z.isLt
  have := zs.isLt
  refine roundTrip64 6 0 0 0 0 z.toNat 0 0 0 0 0 0 zs.toNat rfl (by omega) (by omega) (by omega) (by omega) (by omega) (by omega) (by omega) (by omega) (by omega) (by omega) (by omega) (by omega) (by omega) fun hw => ?_
  unfold decTile
  repeat (first | rw [if_neg (by omega)] | rw [if_pos (by omega)])
  refine filter_wf ?_ hw
  try simp only [BitVec.ofNat_toNat, BitVec.setWidth_eq]
  try congr 1 <;> (apply BitVec.eq_of_toNat_eq; simp only [BitVec.toNat_ofNat]; omega)

theorem RoundTrip.tsync : RoundTrip.Statement (.tsync) := by
  refine roundTrip64 7 0 0 0 0 0 0 0 0 0 0 0 0 rfl (by omega) (by omega) (by omega) (by omega) (by omega) (by omega) (by omega) (by omega) (by omega) (by omega) (by omega) (by omega) (by omega) fun hw => ?_
  unfold decTile
  repeat (first | rw [if_neg (by omega)] | rw [if_pos (by omega)])
  exact filter_wf rfl hw

theorem RoundTrip.tgang (r c : BitVec 2) : RoundTrip.Statement (.tgang r c) := by
  have := r.isLt
  have := c.isLt
  refine roundTrip64 8 0 0 0 0 0 0 0 0 0 0 0 (r.toNat * 4 + c.toNat) rfl (by omega) (by omega) (by omega) (by omega) (by omega) (by omega) (by omega) (by omega) (by omega) (by omega) (by omega) (by omega) (by omega) fun hw => ?_
  unfold decTile
  repeat (first | rw [if_neg (by omega)] | rw [if_pos (by omega)])
  refine filter_wf ?_ hw
  try simp only [BitVec.ofNat_toNat, BitVec.setWidth_eq]
  try congr 1 <;> (apply BitVec.eq_of_toNat_eq; simp only [BitVec.toNat_ofNat]; omega)

theorem RoundTrip.csrWrite (csr : BitVec 11) (d a : BitVec 5) : RoundTrip.Statement (.csrWrite csr d a) := roundTrip_none rfl

theorem RoundTrip.vtypeWrite (d a : BitVec 5) : RoundTrip.Statement (.vtypeWrite d a) := roundTrip_none rfl

theorem RoundTrip.lpartWrite (d a : BitVec 5) : RoundTrip.Statement (.lpartWrite d a) := roundTrip_none rfl

theorem RoundTrip.preq (d a : BitVec 5) : RoundTrip.Statement (.preq d a) := roundTrip_none rfl

theorem RoundTrip.cplogWrite (d a : BitVec 5) : RoundTrip.Statement (.cplogWrite d a) := roundTrip_none rfl

theorem RoundTrip.trctlWrite (d a : BitVec 5) : RoundTrip.Statement (.trctlWrite d a) := roundTrip_none rfl

theorem RoundTrip.atollWrite (d a : BitVec 5) : RoundTrip.Statement (.atollWrite d a) := roundTrip_none rfl

theorem RoundTrip.dbgctlStop (d a : BitVec 5) : RoundTrip.Statement (.dbgctlStop d a) := roundTrip_none rfl

theorem RoundTrip.dbgctlGo (d a : BitVec 5) : RoundTrip.Statement (.dbgctlGo d a) := roundTrip_none rfl

theorem RoundTrip.clusterFrozen (cl : BitVec 6) : RoundTrip.Statement (.clusterFrozen cl) := roundTrip_none rfl

theorem RoundTrip.dumpctlGo (d a : BitVec 5) : RoundTrip.Statement (.dumpctlGo d a) := roundTrip_none rfl

theorem RoundTrip.dumpComplete : RoundTrip.Statement (.dumpComplete) := roundTrip_none rfl

theorem RoundTrip.preemption (h : BitVec 12) (units : Nat) : RoundTrip.Statement (.preemption h units) := roundTrip_none rfl

theorem RoundTrip.waitTimeout (h : BitVec 12) : RoundTrip.Statement (.waitTimeout h) := roundTrip_none rfl

theorem RoundTrip.barDeparture (h : BitVec 12) : RoundTrip.Statement (.barDeparture h) := roundTrip_none rfl

theorem RoundTrip.waitaWake (h : BitVec 12) : RoundTrip.Statement (.waitaWake h) := roundTrip_none rfl

theorem RoundTrip.chwaitReturn (h : BitVec 12) : RoundTrip.Statement (.chwaitReturn h) := roundTrip_none rfl

theorem RoundTrip.qpopWake (h : BitVec 12) : RoundTrip.Statement (.qpopWake h) := roundTrip_none rfl

theorem RoundTrip.qpushReply (h : BitVec 12) (status : BitVec 2) : RoundTrip.Statement (.qpushReply h status) := roundTrip_none rfl

theorem RoundTrip.tsyncReturn (h : BitVec 12) : RoundTrip.Statement (.tsyncReturn h) := roundTrip_none rfl

theorem RoundTrip.copyChannelRoom (h : BitVec 12) : RoundTrip.Statement (.copyChannelRoom h) := roundTrip_none rfl

theorem RoundTrip.gangFormed (cl : BitVec 6) (cores : BitVec 16) : RoundTrip.Statement (.gangFormed cl cores) := roundTrip_none rfl

theorem RoundTrip.vacqGrant (h : BitVec 12) : RoundTrip.Statement (.vacqGrant h) := roundTrip_none rfl

theorem RoundTrip.ctxloadGrant (h : BitVec 12) : RoundTrip.Statement (.ctxloadGrant h) := roundTrip_none rfl

theorem RoundTrip.wfiWake (h : BitVec 12) : RoundTrip.Statement (.wfiWake h) := roundTrip_none rfl

theorem RoundTrip.registerWaitEnd (h : BitVec 12) : RoundTrip.Statement (.registerWaitEnd h) := roundTrip_none rfl

theorem RoundTrip.producerArrival (h : BitVec 12) (r : BitVec 5) : RoundTrip.Statement (.producerArrival h r) := roundTrip_none rfl

theorem RoundTrip.vectorQueueRoom (h : BitVec 12) : RoundTrip.Statement (.vectorQueueRoom h) := roundTrip_none rfl

theorem RoundTrip.pauseEnd (h : BitVec 12) : RoundTrip.Statement (.pauseEnd h) := roundTrip_none rfl

theorem RoundTrip.yieldEnd (h : BitVec 12) : RoundTrip.Statement (.yieldEnd h) := roundTrip_none rfl

theorem RoundTrip.laneBinding (h : BitVec 12) (cy : BitVec 6) : RoundTrip.Statement (.laneBinding h cy) := roundTrip_none rfl

theorem RoundTrip.sequencerUnit (core : BitVec 10) : RoundTrip.Statement (.sequencerUnit core) := roundTrip_none rfl

theorem RoundTrip.streamPrefetch (h : BitVec 12) (n : BitVec 2) : RoundTrip.Statement (.streamPrefetch h n) := roundTrip_none rfl

theorem RoundTrip.gangStreamFetch (cl : BitVec 6) (cores : BitVec 16) (n : BitVec 2) : RoundTrip.Statement (.gangStreamFetch cl cores n) := roundTrip_none rfl

theorem RoundTrip.copyTransferStart (core : BitVec 10) (ch : BitVec 3) : RoundTrip.Statement (.copyTransferStart core ch) := roundTrip_none rfl

theorem RoundTrip.copyComplete (core : BitVec 10) (ch : BitVec 3) : RoundTrip.Statement (.copyComplete core ch) := roundTrip_none rfl

theorem RoundTrip.hartPlacement (isl : BitVec 3) : RoundTrip.Statement (.hartPlacement isl) := roundTrip_none rfl

theorem RoundTrip.launchComplete (core : BitVec 10) (id : BitVec 48) : RoundTrip.Statement (.launchComplete core id) := roundTrip_none rfl

theorem RoundTrip.launchRequest (isl : BitVec 3) : RoundTrip.Statement (.launchRequest isl) := roundTrip_none rfl

theorem RoundTrip.governorCapChange (core : BitVec 10) (cap : BitVec 3) : RoundTrip.Statement (.governorCapChange core cap) := roundTrip_none rfl

theorem RoundTrip.trafficCounterWrite (isl : BitVec 3) : RoundTrip.Statement (.trafficCounterWrite isl) := roundTrip_none rfl

theorem RoundTrip.straitBarArrival (m : StraitBar) : RoundTrip.Statement (.straitBarArrival m) := roundTrip_none rfl

theorem RoundTrip.straitBarDeparture (m : StraitBar) : RoundTrip.Statement (.straitBarDeparture m) := roundTrip_none rfl

theorem RoundTrip.straitQueuePush (m : StraitPush) : RoundTrip.Statement (.straitQueuePush m) := roundTrip_none rfl

theorem RoundTrip.straitCopyWrite (m : StraitWrite) : RoundTrip.Statement (.straitCopyWrite m) := roundTrip_none rfl

theorem RoundTrip.straitFlitReplay (port : BitVec 5) : RoundTrip.Statement (.straitFlitReplay port) := roundTrip_none rfl

theorem RoundTrip.straitPortLost (port : BitVec 5) : RoundTrip.Statement (.straitPortLost port) := roundTrip_none rfl

theorem RoundTrip.narrowsLinkFailed (link : BitVec 3) : RoundTrip.Statement (.narrowsLinkFailed link) := roundTrip_none rfl

theorem RoundTrip.hostHdmRead (ld : BitVec 3) (o : BitVec 64) (n : Nat) : RoundTrip.Statement (.hostHdmRead ld o n) := roundTrip_none rfl

theorem RoundTrip.hostHdmWrite (ld : BitVec 3) (o : BitVec 64) (data : List (BitVec 8)) : RoundTrip.Statement (.hostHdmWrite ld o data) := roundTrip_none rfl

theorem RoundTrip.getEventRecords (ld : BitVec 3) : RoundTrip.Statement (.getEventRecords ld) := roundTrip_none rfl

theorem RoundTrip.getFwInfo (ld : BitVec 3) : RoundTrip.Statement (.getFwInfo ld) := roundTrip_none rfl

theorem RoundTrip.transferFw (ld : BitVec 3) (image : FwImage) : RoundTrip.Statement (.transferFw ld image) := roundTrip_none rfl

theorem RoundTrip.activateFw (ld : BitVec 3) (slot : BitVec 1) : RoundTrip.Statement (.activateFw ld slot) := roundTrip_none rfl

theorem RoundTrip.identifyMemoryDevice (ld : BitVec 3) : RoundTrip.Statement (.identifyMemoryDevice ld) := roundTrip_none rfl

theorem RoundTrip.setLaunchQueue (ld : BitVec 3) (hdr : BitVec 64) : RoundTrip.Statement (.setLaunchQueue ld hdr) := roundTrip_none rfl

theorem RoundTrip.readSensors (ld : BitVec 3) : RoundTrip.Statement (.readSensors ld) := roundTrip_none rfl

theorem RoundTrip.readLog (ld : BitVec 3) (off len : Nat) : RoundTrip.Statement (.readLog ld off len) := roundTrip_none rfl

theorem RoundTrip.getAttestationReport (ld : BitVec 3) (nonce : BitVec 512) : RoundTrip.Statement (.getAttestationReport ld nonce) := roundTrip_none rfl

theorem RoundTrip.setFleetGroup (ld : BitVec 3) (members : List FleetMember) : RoundTrip.Statement (.setFleetGroup ld members) := roundTrip_none rfl

theorem RoundTrip.sensorRefresh : RoundTrip.Statement (.sensorRefresh) := roundTrip_none rfl

theorem RoundTrip.hbmPatrolScrub (stack : BitVec 3) : RoundTrip.Statement (.hbmPatrolScrub stack) := roundTrip_none rfl

theorem RoundTrip.thermalTrip : RoundTrip.Statement .thermalTrip := roundTrip_none rfl

theorem RoundTrip.packageReset : RoundTrip.Statement (.packageReset) := roundTrip_none rfl

theorem RoundTrip.firmwareBoot : RoundTrip.Statement (.firmwareBoot) := roundTrip_none rfl

theorem RoundTrip.hostLineCacheSnoop (isl : BitVec 3) (line : BitVec 42) (data : Option (BitVec 512)) : RoundTrip.Statement (.hostLineCacheSnoop isl line data) := roundTrip_none rfl

theorem RoundTrip.narrowsFlitReplay (link : BitVec 3) : RoundTrip.Statement (.narrowsFlitReplay link) := roundTrip_none rfl

theorem RoundTrip.straitRecordFetch (pkg : BitVec 12) (id : BitVec 64) : RoundTrip.Statement (.straitRecordFetch pkg id) := roundTrip_none rfl

end Sys2Proof.Laws
end

