-- ==== Sys2Proof/Laws/Queue.lean ====
section
/-! SUPPORT. What finishes before an operation that empties the queue, what a beat waits for, and what a hart watches (15 R285, R286,
17 R312, R317, 22 R383). -/

set_option Elab.async false

namespace Sys2Proof.Machine

/-! ### The queue -/

/-- An empty queue has nothing to finish. -/
theorem State.finishQueue_empty {s : State} (h : s.h.vq = []) : s.finishQueue = s := by
  unfold State.finishQueue
  rw [if_pos h]

/-- With an empty queue an operation runs as it is. -/
theorem State.afterQueue_empty {s : State} (f : State → Result) (h : s.h.vq = []) : s.afterQueue f = f s := by
  unfold State.afterQueue
  split <;> simp_all

/-- An operation runs in the state as it is, or in that in which the queue has finished. -/
theorem State.afterQueue_cases (s : State) (f : State → Result) : s.afterQueue f = f s ∨ s.afterQueue f = f s.finishQueue := by
  unfold State.afterQueue
  split
  · split
    · exact .inr rfl
    · rename_i h _
      exact .inl h.symm
  · exact .inl rfl

/-- An operation that neither traps nor empties the queue of its hart runs as it is. -/
theorem State.afterQueue_keeps {s t : State} {f : State → Result} (hf : f s = .next t) (ht : t.trapped = false)
    (hq : (t.hart s.h.id).vq ≠ []) : s.afterQueue f = .next t := by
  unfold State.afterQueue
  simp [hf, ht, hq]

/-- A queue entry that fills no register waits for no reply. -/
theorem Hart.waitsReplies_none {h : Hart} {q : Queued} (hd : q.dst = []) : h.waitsReplies q = false := by
  simp [Hart.waitsReplies, hd]

/-- The visit of a slot changes that hart's credit and what its core's round has credited. -/
theorem State.visitSlot_frame (s : State) (c : BitVec 10) (n : BitVec 2) :
    ∃ cr rest, (s.visitSlot c n).2 = (s.putHart { s.hart (c ++ n) with credit := cr }).setCore c
      { (s.putHart { s.hart (c ++ n) with credit := cr }).core c with credited := rest } := by
  have e : ∀ (b : Bool) (h : Hart) (x : Int), (if b = true then { h with credit := x } else h) =
      { h with credit := if b = true then x else h.credit } := by
    intro b h x
    cases b <;> rfl
  unfold State.visitSlot
  dsimp only
  rw [e]
  exact ⟨_, _, rfl⟩

/-! ### What a hart watches -/

/-- Ending a watch changes nothing else. -/
theorem State.unwatch_frame (s : State) : s.unwatch = { s with watches := s.unwatch.watches } := rfl

/-- Beginning a watch changes nothing else. -/
theorem State.watchWord_frame (s : State) (key : Nat) (u : Until) :
    s.watchWord key u = { s with watches := (s.watchWord key u).watches } := by
  unfold State.watchWord
  dsimp only
  split <;> split <;> rfl

/-- A hart in RUN has seen nothing yet of what it will wait for. -/
theorem State.watched_run {s : State} (h : s.h.slot = .run) : s.watched = none := by unfold State.watched; rw [h]

/-- A watch that has been met keeps what met it. -/
theorem Watch.see_hit {w : Watch} {x : BitVec 64 × BitVec 48 × Nat} (h : w.hit = some x) (m : Memory) (tag : BitVec 48) (n : Nat) :
    w.see m tag n = w := by
  simp [Watch.see, h]

/-! ### Points at which work goes on -/

/-- With nothing resumed, LVD is what it holds. -/
theorem Hart.lvdAtIssue_fresh {h : Hart} (hr : h.resume = []) : h.lvdAtIssue = h.lvd := by simp [Hart.lvdAtIssue, hr]

/-- With nothing resumed, no instruction heads a convoy. -/
theorem Hart.heads_fresh {h : Hart} (hr : h.resume = []) : h.heads = false := by simp [Hart.heads, hr]

/-- With every register full, a tile instruction runs at once. -/
theorem State.readSteps_full {s : State} {srcs : List (Regs × Bool)} {need : Nat → List (Nat × Nat)} {total : Nat} {k : State → Result}
    (h : s.h.emptyIn (srcs.map (·.1)) = none) : s.readSteps srcs need total k = k (s.carryReads (s.unread (openReads srcs))).endWait := by
  unfold State.readSteps
  rw [h]
  rfl

end Sys2Proof.Machine
end

