-- ==== Sys2Proof/Laws/Vector.lean ====
section
/-! SUPPORT. Vector instructions: elements and images, groups held and full, the course from issue to completion, the flags. -/

set_option Elab.async false

namespace Sys2Proof.Machine

open Sys2Proof.Safety

/-! ### Elements of images -/

/-- An element has the bits of its place. -/
theorem testBit_elem (w img i j : Nat) : (elem w img i).testBit j = (decide (j < w) && img.testBit (w * i + j)) := by
  unfold elem
  rw [Nat.testBit_mod_two_pow, Nat.testBit_shiftRight]

/-- An element is a number of its width. -/
theorem elem_lt (w img i : Nat) : elem w img i < 2 ^ w := Nat.mod_lt _ (Nat.two_pow_pos w)

/-- Packed elements fill their width alone. -/
theorem packElems_lt (w : Nat) (xs : List Nat) : packElems w xs < 2 ^ (w * xs.length) := by
  induction xs with
  | nil => simp [packElems]
  | cons x xs ih =>
    have h1 : x % 2 ^ w < 2 ^ w := Nat.mod_lt _ (Nat.two_pow_pos w)
    rw [packElems, Nat.shiftLeft_eq, List.length_cons, Nat.mul_succ, pow_add]
    have : (packElems w xs + 1) * 2 ^ w ≤ 2 ^ (w * xs.length) * 2 ^ w := Nat.mul_le_mul_right _ ih
    rw [Nat.add_mul] at this
    omega

/-- An element of packed ones. -/
theorem elem_packElems (w : Nat) (xs : List Nat) (i : Nat) : elem w (packElems w xs) i = xs.getD i 0 % 2 ^ w := by
  induction xs generalizing i with
  | nil => simp [packElems, elem]
  | cons x xs ih =>
    have h1 : x % 2 ^ w < 2 ^ w := Nat.mod_lt _ (Nat.two_pow_pos w)
    have hp : packElems w (x :: xs) = 2 ^ w * packElems w xs + x % 2 ^ w := by
      rw [packElems, Nat.shiftLeft_eq, Nat.mul_comm, Nat.add_comm]
    apply Nat.eq_of_testBit_eq
    intro j
    rw [testBit_elem, hp, Nat.testBit_two_pow_mul_add _ h1]
    by_cases hj : j < w
    · cases i with
      | zero => simp [hj]
      | succ i =>
        have h2 : ¬ w * (i + 1) + j < w := by rw [Nat.mul_succ]; omega
        have h3 : w * (i + 1) + j - w = w * i + j := by rw [Nat.mul_succ]; omega
        rw [if_neg h2, h3, List.getD_cons_succ, ← ih i, testBit_elem]
    · simp [hj]

/-- A number in three parts, bit by bit. -/
theorem testBit_three {a b p q : Nat} (c : Nat) (ha : a < 2 ^ p) (hb : b < 2 ^ q) (j : Nat) :
    (a + b <<< p + c <<< (p + q)).testBit j =
      if j < p then a.testBit j else if j < p + q then b.testBit (j - p) else c.testBit (j - (p + q)) := by
  have h1 : a + b <<< p + c <<< (p + q) = 2 ^ p * (2 ^ q * c + b) + a := by
    rw [Nat.shiftLeft_eq, Nat.shiftLeft_eq, pow_add]; ring
  rw [h1, Nat.testBit_two_pow_mul_add _ ha]
  split
  · rfl
  · rw [Nat.testBit_two_pow_mul_add _ hb]
    by_cases h : j < p + q
    · rw [if_pos (by omega), if_pos h]
    · rw [if_neg (by omega), if_neg h, Nat.sub_sub]

/-- The elements after some are put: those of the list at their places, the others as before. -/
theorem elem_putElems (w img start : Nat) (xs : List Nat) (i : Nat) :
    elem w (putElems w img start xs) i =
      if start ≤ i ∧ i < start + xs.length then xs.getD (i - start) 0 % 2 ^ w else elem w img i := by
  have ha : img % 2 ^ (w * start) < 2 ^ (w * start) := Nat.mod_lt _ (Nat.two_pow_pos _)
  have hput : putElems w img start xs = img % 2 ^ (w * start) + packElems w xs <<< (w * start) +
      (img >>> (w * (start + xs.length))) <<< (w * start + w * xs.length) := by
    unfold putElems; rw [Nat.mul_add]
  apply Nat.eq_of_testBit_eq
  intro j
  rw [testBit_elem, hput, testBit_three _ ha (packElems_lt w xs)]
  by_cases hj : j < w
  · simp only [hj, decide_true, Bool.true_and]
    by_cases h1 : i < start
    · have : w * i + w ≤ w * start := by rw [← Nat.mul_succ]; exact Nat.mul_le_mul_left w h1
      rw [if_pos (by omega), if_neg (by omega), testBit_elem, Nat.testBit_mod_two_pow]
      simp [hj]; omega
    · obtain ⟨d, rfl⟩ : ∃ d, i = start + d := ⟨i - start, by omega⟩
      have h0 : w * (start + d) = w * start + w * d := Nat.mul_add ..
      rw [if_neg (by omega)]
      by_cases h2 : d < xs.length
      · have : w * d + w ≤ w * xs.length := by rw [← Nat.mul_succ]; exact Nat.mul_le_mul_left w h2
        rw [if_pos (by omega), if_pos (by omega), Nat.add_sub_cancel_left, ← elem_packElems, testBit_elem]
        simp only [hj, decide_true, Bool.true_and]
        congr 1; omega
      · have : w * xs.length ≤ w * d := Nat.mul_le_mul_left w (by omega)
        rw [if_neg (by omega), if_neg (by omega), testBit_elem, Nat.testBit_shiftRight, Nat.mul_add]
        simp only [hj, decide_true, Bool.true_and]
        congr 1; omega
  · by_cases h : start ≤ i ∧ i < start + xs.length
    · rw [if_pos h, Nat.testBit_mod_two_pow]; simp [hj]
    · rw [if_neg h, testBit_elem]; simp [hj]

/-- A number in two parts, bit by bit. -/
theorem testBit_two {a p : Nat} (b : Nat) (ha : a < 2 ^ p) (j : Nat) :
    (a + b <<< p).testBit j = if j < p then a.testBit j else b.testBit (j - p) := by
  rw [Nat.shiftLeft_eq, Nat.add_comm, Nat.mul_comm, Nat.testBit_two_pow_mul_add _ ha]

/-! ### Images of registers -/

/-- The image is that of the first register below that of the others. -/
theorem img_succ (h : Hart) (r n : Nat) : h.img r (n + 1) = (h.vreg r).toNat + h.img (r + 1) n <<< 32768 := rfl

/-- The image depends on the vector registers alone. -/
theorem img_congr {h h' : Hart} (hv : h'.v = h.v) (r n : Nat) : h'.img r n = h.img r n := by
  induction n generalizing r with
  | zero => rfl
  | succ n ih => rw [img_succ, img_succ, ih, Hart.vreg, Hart.vreg, hv]

/-- A bit of the image is a bit of its register. -/
theorem testBit_img (h : Hart) (r n j : Nat) :
    (h.img r n).testBit j = (decide (j < 32768 * n) && (h.vreg (r + j / 32768)).getLsbD (j % 32768)) := by
  induction n generalizing r j with
  | zero => rw [Nat.mul_zero]; simp only [Nat.not_lt_zero, decide_false, Bool.false_and]; exact Nat.zero_testBit j
  | succ n ih =>
    rw [img_succ, testBit_two _ (h.vreg r).isLt]
    by_cases hj : j < 32768
    · rw [if_pos hj, Nat.div_eq_of_lt hj, Nat.mod_eq_of_lt hj]
      have : j < 32768 * (n + 1) := by omega
      simp [this, BitVec.getLsbD]
    · rw [if_neg hj, ih]
      have h1 : r + 1 + (j - 32768) / 32768 = r + j / 32768 := by omega
      have h2 : (j - 32768) % 32768 = j % 32768 := by omega
      have h3 : decide (j - 32768 < 32768 * n) = decide (j < 32768 * (n + 1)) := decide_eq_decide.mpr (by omega)
      rw [h1, h2, h3]

/-- An image is a number of its bytes. -/
theorem img_lt (h : Hart) (r n : Nat) : h.img r n < 2 ^ (32768 * n) := by
  apply Nat.lt_pow_two_of_testBit
  intro j hj
  rw [testBit_img]
  simp; omega

/-- Writing an image changes vector registers alone. -/
theorem setImg_frame (h : Hart) (r n x : Nat) : h.setImg r n x = { h with v := (h.setImg r n x).v } := by
  induction n generalizing h r x with
  | zero => rfl
  | succ n ih => rw [Hart.setImg, ih]

/-- A register after an image is written. -/
theorem vreg_setImg (h : Hart) (r n x m : Nat) :
    (h.setImg r n x).vreg m =
      if r ≤ m ∧ m < r + n ∧ m < 32 then BitVec.ofNat 32768 (x >>> (32768 * (m - r))) else h.vreg m := by
  induction n generalizing h r x with
  | zero => rw [if_neg (by omega)]; rfl
  | succ n ih =>
    rw [Hart.setImg, ih]
    by_cases h1 : r + 1 ≤ m ∧ m < r + 1 + n ∧ m < 32
    · rw [if_pos h1, if_pos (by omega), ← Nat.shiftRight_add]
      congr 2; omega
    · rw [if_neg h1]
      unfold Hart.vreg
      simp only [Vector.getElem?_setIfInBounds]
      by_cases h2 : r = m
      · subst h2
        by_cases h3 : r < 32
        · simp [h3]
        · simp [h3]
      · rw [if_neg h2, if_neg (by omega)]

/-- The image read back. -/
theorem img_setImg (h : Hart) (r n x : Nat) (hr : r + n ≤ 32) : (h.setImg r n x).img r n = x % 2 ^ (32768 * n) := by
  apply Nat.eq_of_testBit_eq
  intro j
  rw [testBit_img, Nat.testBit_mod_two_pow, vreg_setImg]
  by_cases hj : j < 32768 * n
  · have h1 : j / 32768 < n := by omega
    rw [if_pos (by omega), Nat.add_sub_cancel_left]
    simp only [hj, decide_true, Bool.true_and, BitVec.getLsbD, BitVec.toNat_ofNat, Nat.testBit_mod_two_pow, Nat.testBit_shiftRight]
    have h2 : j % 32768 < 32768 := Nat.mod_lt _ (by omega)
    have h3 : 32768 * (j / 32768) + j % 32768 = j := by omega
    simp [h2, h3]
  · simp [hj]

/-- An image of registers that a write does not touch. -/
theorem img_setImg_apart (h : Hart) (r n x q m : Nat) (hd : r + n ≤ q ∨ q + m ≤ r) : (h.setImg r n x).img q m = h.img q m := by
  apply Nat.eq_of_testBit_eq
  intro j
  rw [testBit_img, testBit_img, vreg_setImg]
  by_cases hj : j < 32768 * m
  · rw [if_neg (by omega)]
  · simp [hj]

/-! ### Registers held and full -/

/-- Every register of a run is held. -/
theorem firstNotHeld_none {h : Hart} {r n : Nat} : h.firstNotHeld r n = none ↔ ∀ j, r ≤ j → j < r + n → h.holdsV j = true := by
  induction n generalizing r with
  | zero => simp [Hart.firstNotHeld]; intro j h1 h2; omega
  | succ n ih =>
    unfold Hart.firstNotHeld
    constructor
    · intro hh j h1 h2
      split at hh
      · rename_i hr
        by_cases hj : j = r
        · exact hj ▸ hr
        · exact ih.mp hh j (by omega) (by omega)
      · exact absurd hh (by simp)
    · intro hh
      rw [if_pos (hh r le_rfl (by omega))]
      exact ih.mpr fun j h1 h2 => hh j (by omega) (by omega)

/-- Every register of a run is full. -/
theorem firstEmpty_none {h : Hart} {r n : Nat} : h.firstEmpty r n = none ↔ ∀ j, r ≤ j → j < r + n → h.isFull j = true := by
  induction n generalizing r with
  | zero => simp [Hart.firstEmpty]; intro j h1 h2; omega
  | succ n ih =>
    unfold Hart.firstEmpty
    constructor
    · intro hh j h1 h2
      split at hh
      · rename_i hr
        by_cases hj : j = r
        · exact hj ▸ hr
        · exact ih.mp hh j (by omega) (by omega)
      · exact absurd hh (by simp)
    · intro hh
      rw [if_pos (hh r le_rfl (by omega))]
      exact ih.mpr fun j h1 h2 => hh j (by omega) (by omega)

/-- There is no least number exactly when there is none. -/
theorem leastOf_none {xs : List (Option Nat)} : leastOf xs = none ↔ ∀ x ∈ xs, x = none := by
  induction xs with
  | nil => simp [leastOf]
  | cons x xs ih =>
    cases x with
    | none => simp [leastOf, ih]
    | some x => unfold leastOf; split <;> simp

/-- Runs that are held name no register that is not. -/
theorem notHeld_none {s : State} {rs : List Regs} (h : ∀ r ∈ rs, Held s r) : s.h.notHeld rs = none := by
  unfold Hart.notHeld
  rw [leastOf_none]
  intro x hx
  obtain ⟨r, hr, rfl⟩ := List.mem_map.mp hx
  exact firstNotHeld_none.mpr fun j h1 h2 => (h r hr j h1 h2).2.1

/-- Runs that are full have no empty register. -/
theorem emptyIn_none {s : State} {rs : List Regs} (h : ∀ r ∈ rs, Held s r) : s.h.emptyIn rs = none := by
  unfold Hart.emptyIn
  rw [leastOf_none]
  intro x hx
  obtain ⟨r, hr, rfl⟩ := List.mem_map.mp hx
  exact firstEmpty_none.mpr fun j h1 h2 => (h r hr j h1 h2).2.2

/-! ### The course of a vector instruction -/

/-- A hart that does not wait reads all of the registers. -/
theorem unread_run {s : State} (h : s.h.slot = .run) (rs : List Nat) : s.unread rs = rs := by
  unfold State.unread
  rw [h]

/-- A running hart's wait is over. -/
theorem endWait_run {s : State} (h : s.h.slot = .run) : s.endWait = s := by
  have : s.endWait = { s with h := { s.h with slot := s.h.slot } } := by unfold State.endWait; rw [h]
  exact this

/-- Sources with e = 0 that are full are read without a wait. -/
theorem readOpen_full {s : State} {srcs : List (Regs × Bool)} {k : State → Result} (hs : s.h.slot = .run)
    (hb : s.boundStreams = []) (hf : ∀ p ∈ srcs, Held s p.1) : s.readOpen srcs k = k s := by
  unfold State.readOpen
  have hfull : ∀ r ∈ openReads srcs, s.h.isFull r = true := by
    intro r hr
    obtain ⟨p, hp, hr⟩ := List.mem_flatMap.mp hr
    have hp' := (List.mem_filter.mp hp).1
    obtain ⟨h1, h2⟩ := List.mem_range'_1.mp hr
    exact (hf p hp' r h1 h2).2.2
  have hnone : (openReads srcs).find? (fun r => !s.h.isFull r) = none := by
    rw [List.find?_eq_none]
    intro r hr
    simp [hfull r hr]
  simp only [unread_run hs, hnone, State.carryReads, hb, List.isEmpty_nil, if_true, endWait_run hs]

/-- Reads without a wait change CPTAG and which words fail alone. -/
theorem carryReads_frame (s : State) (rs : List Nat) :
    s.carryReads rs = { s with h := { s.h with cptag := (s.carryReads rs).h.cptag, bad := (s.carryReads rs).h.bad } } := by
  have step : ∀ (rs : List Nat) (x : Word) (b : List (Nat × Nat)) (f : State → Nat → State),
      (∀ u r, ∃ y c, f u r = { u with h := { u.h with cptag := y, bad := c } }) →
      ∃ y c, rs.foldl f { s with h := { s.h with cptag := x, bad := b } } = { s with h := { s.h with cptag := y, bad := c } } := by
    intro rs
    induction rs with
    | nil => exact fun x b f _ => ⟨x, b, rfl⟩
    | cons r rs ih =>
      intro x b f hf
      obtain ⟨y, c, hy⟩ := hf { s with h := { s.h with cptag := x, bad := b } } r
      rw [List.foldl_cons, hy]
      exact ih y c f hf
  unfold State.carryReads
  split
  · rfl
  · obtain ⟨y, c, hy⟩ := step rs s.h.cptag s.h.bad _ (fun u r => by
      show ∃ y c, (if u.streamEdge r = 0 then u else u.setCptag (u.streamEdge r)) = _
      split
      · exact ⟨u.h.cptag, u.h.bad, rfl⟩
      · exact ⟨_, _, State.setCptag_frame _ _⟩)
    rw [show ({ s with h := { s.h with cptag := s.h.cptag, bad := s.h.bad } } : State) = s from rfl] at hy
    rw [hy]

/-- With no stream bound, reads leave the state. -/
theorem carryReads_free {s : State} (hb : s.boundStreams = []) (rs : List Nat) : s.carryReads rs = s := by
  simp [State.carryReads, hb]

/-- Naming a destination changes LVD alone. -/
theorem setLvd_frame (s : State) (l : Option (BitVec 5)) : s.setLvd l = { s with h := { s.h with lvd := (s.setLvd l).h.lvd } } := by
  cases l <;> rfl

/-- Sources that are full are read at once, element group by element group (R28). -/
theorem readChained_full {s : State} {u : VecUse} {k : State → Result} (hs : s.h.slot = .run) (hb : s.boundStreams = [])
    (hc : ∀ c ∈ u.chain, Held s c.1) : s.readChained u k = k s := by
  have he : s.h.emptyIn (u.chain.map s.h.toRead) = none := by
    refine emptyIn_none fun r hr => ?_
    obtain ⟨c, hc', rfl⟩ := List.mem_map.mp hr
    intro j h1 h2
    have hp : Hart.passed c s.h.start ≤ c.1.2 := Nat.min_le_left _ _
    simp only [Hart.toRead] at h1 h2
    exact hc c hc' j (by omega) (by omega)
  unfold State.readChained
  simp only [he]
  rw [carryReads_free hb, endWait_run hs]

/-- An instruction whose runs are held and full and whose checks pass goes on, LVD set; a compact form keeps what LVD held. -/
theorem issue_ready {s : State} {u : VecUse} {more : List (Bool × Nat × Word)} {k : State → Result} (hs : s.h.slot = .run)
    (hb : s.boundStreams = []) (hd : ∀ r ∈ u.dst, Held s r) (hf : ∀ p ∈ u.srcs, Held s p.1) (hc : ∀ c ∈ u.chain, Held s c.1)
    (hm : ∀ c ∈ more, c.1 = false) :
    s.issue u false more k = k ((if u.compact then { s with h := s.h.holdLvd } else s).setLvd u.lvd) := by
  have hall : ∀ r ∈ u.all, Held s r := by
    intro r hr
    rcases List.mem_append.mp hr with h | h
    · exact hd r h
    · obtain ⟨p, hp, rfl⟩ := List.mem_map.mp h
      exact hf p hp
  have htrap : ∀ r ∈ u.trapping, Held s r := by
    intro r hr
    obtain ⟨p, hp, rfl⟩ := List.mem_map.mp hr
    exact hf p (List.mem_filter.mp hp).1
  have hl : ∃ l rs, (if u.compact then { s with h := s.h.holdLvd } else s).setLvd u.lvd =
      { s with h := { s.h with lvd := l, resume := rs } } := by
    rw [setLvd_frame]
    split
    · exact ⟨_, _, rfl⟩
    · exact ⟨_, s.h.resume, rfl⟩
  unfold State.issue
  rw [emptyIn_none hd, notHeld_none hall, emptyIn_none htrap]
  simp only
  rw [State.check_pass]
  · obtain ⟨l, rs, hl⟩ := hl
    rw [hl]
    split
    · exact readOpen_full hs hb hf
    · exact readChained_full hs hb hc
  · intro c hc
    simp only [List.mem_cons] at hc
    rcases hc with rfl | rfl | rfl | hc
    · rfl
    · rfl
    · rfl
    · exact hm c hc

/-- Reads of whole registers: a wait, or the instruction goes on; CPTAG takes the edges of what is read (R28, R297). -/
theorem readOpen_cases (s : State) (srcs : List (Regs × Bool)) (k : State → Result) :
    (∃ x b r, s.readOpen srcs k = State.waitReg { s with h := { s.h with cptag := x, bad := b } } r true false) ∨
    (∃ x b, s.readOpen srcs k = k { s with h := { s.h with cptag := x, bad := b, slot := .run } }) := by
  unfold State.readOpen
  simp only
  split
  · rw [carryReads_frame]
    exact .inl ⟨_, _, _, rfl⟩
  · rw [carryReads_frame]
    exact .inr ⟨_, _, rfl⟩

/-- Where the running instruction has to stop is all that this changes (R28). -/
theorem Hart.stopFor_frame (h : Hart) (n w : Nat) : h.stopFor n w = { h with quota := (h.stopFor n w).quota } := by
  unfold Hart.stopFor
  split
  · split <;> rfl
  · rfl

/-- Reads element group by element group: a wait, or the instruction goes on, to stop before what is not there (R28, R147). -/
theorem readChained_cases (s : State) (u : VecUse) (k : State → Result) :
    (∃ x b r, s.readChained u k = State.waitReg { s with h := { s.h with cptag := x, bad := b } } r true true) ∨
    (∃ x b q, s.readChained u k = k { s with h := { s.h with cptag := x, bad := b, slot := .run, quota := q } }) := by
  have go : ∀ (t : State) (x : Word) (b : List (Nat × Nat)) (q : Option (Nat × Option (BitVec 5))), t = { s with h := { s.h with cptag := x, bad := b, quota := q } } →
      ∃ x b q, k t.endWait = k { s with h := { s.h with cptag := x, bad := b, slot := .run, quota := q } } := by
    rintro t x b q rfl
    exact ⟨x, b, q, rfl⟩
  unfold State.readChained
  simp only
  split
  · split
    · rw [carryReads_frame, carryReads_frame s]
      exact .inr (go _ _ _ s.h.quota rfl)
    · split
      · rw [carryReads_frame]
        exact .inl ⟨_, _, _, rfl⟩
      · rw [carryReads_frame, Hart.stopFor_frame]
        exact .inr (go _ _ _ _ rfl)
  · rw [carryReads_frame]
    exact .inr (go _ _ _ s.h.quota rfl)

/-- Everything an issue can do: wait for a destination register, trap before any effect, wait for a source register (with LVD set and the
edges of the registers read before it in CPTAG), or go on with no more than CPTAG, which words fail, LVD, what a compact form keeps of
it, the wait and where to stop changed. -/
theorem issue_cases (s : State) (u : VecUse) (illegal : Bool) (more : List (Bool × Nat × Word)) (k : State → Result) :
    (∃ r, s.issue u illegal more k = s.waitReg r false false) ∨
    (∃ c a, s.issue u illegal more k = s.trapPre c a) ∨
    (∃ cptag bad lvd resume r part, s.issue u illegal more k =
      State.waitReg { s with h := { s.h with cptag, bad, lvd, resume } } r true part) ∨
    (∃ cptag bad lvd resume quota, s.issue u illegal more k =
      k { s with h := { s.h with cptag, bad, lvd, resume, slot := .run, quota } }) := by
  have hl : ∃ l rs, (if u.compact then { s with h := s.h.holdLvd } else s).setLvd u.lvd =
      { s with h := { s.h with lvd := l, resume := rs } } := by
    rw [setLvd_frame]
    split
    · exact ⟨_, _, rfl⟩
    · exact ⟨_, s.h.resume, rfl⟩
  unfold State.issue
  split
  · exact .inl ⟨_, rfl⟩
  · rcases State.check_cases (s := s) (cs := (illegal, 0x02, s.ir) ::
        ((s.h.notHeld u.all).isSome, 0x05, BitVec.ofNat 64 ((s.h.notHeld u.all).getD 0)) ::
        ((s.h.emptyIn u.trapping).isSome, 0x04, BitVec.ofNat 64 ((s.h.emptyIn u.trapping).getD 0)) :: more)
      (k := fun s =>
        let s := (if u.compact then { s with h := s.h.holdLvd } else s).setLvd u.lvd
        if u.chain = [] then s.readOpen u.srcs k else s.readChained u k) with ⟨c, a, -, h⟩ | ⟨-, h⟩
    · exact .inr (.inl ⟨c, a, h⟩)
    · obtain ⟨l, rs, hl⟩ := hl
      rw [h]
      simp only [hl]
      refine .inr (.inr ?_)
      split
      · rcases readOpen_cases { s with h := { s.h with lvd := l, resume := rs } } u.srcs k with ⟨x, b, r, e⟩ | ⟨x, b, e⟩
        · exact .inl ⟨x, b, l, rs, r, false, e⟩
        · exact .inr ⟨x, b, l, rs, s.h.quota, e⟩
      · rcases readChained_cases { s with h := { s.h with lvd := l, resume := rs } } u k with ⟨x, b, r, e⟩ | ⟨x, b, q, e⟩
        · exact .inl ⟨x, b, l, rs, r, true, e⟩
        · exact .inr ⟨x, b, l, rs, q, e⟩

/-- Naming a destination changes LVD alone. -/
theorem setLvd_some (s : State) (r : BitVec 5) : s.setLvd (some r) = { s with h := { s.h with lvd := r.setWidth 64 } } := rfl

/-- An instruction that resumes nothing starts at its first element. -/
theorem start_fresh {h : Hart} (hr : h.resume = []) : h.start = 0 := by unfold Hart.start; rw [hr]

/-- An instruction that resumes nothing has raised nothing yet. -/
theorem prior_fresh {h : Hart} (hr : h.resume = []) : h.prior = 0 := by
  unfold Hart.prior
  rw [hr]

/-- With no pre-emption to land and nothing to wait for, a run goes to the end. -/
theorem stopAt_none {h : Hart} (hl : h.landing = none) (hq : h.quota = none) (unit total : Nat) : h.stopAt unit total = total := by
  unfold Hart.stopAt
  rw [hl, hq]

/-! ### Flags -/

/-- The classes raised are those of some element. -/
theorem classes_raisedFrom (start : Nat) (xs : List (Nat × Flags)) (c : Nat) :
    (raisedFrom start xs).classes.getLsbD c = true ↔ ∃ x ∈ xs, x.2.getLsbD c = true := by
  induction xs generalizing start with
  | nil => simp [raisedFrom, Raised.classes]
  | cons x xs ih =>
    obtain ⟨v, f⟩ := x
    unfold raisedFrom
    split
    · rename_i hf
      rw [ih]
      simp [hf]
    · simp [Raised.classes, BitVec.getLsbD_or, ih]

/-- The lowest index that raised a class, when one did. -/
theorem lowest_raisedFrom (start : Nat) (xs : List (Nat × Flags)) (c i : Nat) (hi : i < xs.length)
    (hc : (xs[i]).2.getLsbD c = true) (hlow : ∀ j (hj : j < i), (xs[j]'(by omega)).2.getLsbD c = false) :
    (raisedFrom start xs).lowest c = some (start + i) := by
  have ge : ∀ (xs : List (Nat × Flags)) (start j : Nat), (raisedFrom start xs).lowest c = some j → start ≤ j := by
    intro xs
    induction xs with
    | nil => intro start j h; simp [raisedFrom, Raised.lowest] at h
    | cons x xs ih =>
      obtain ⟨v, f⟩ := x
      intro start j h
      unfold raisedFrom at h
      split at h
      · have := ih _ _ h; omega
      · rw [Raised.lowest] at h
        split at h
        · have := ih _ _ h; omega
        · simp at h; omega
        · rename_i j' hj'
          have := ih _ _ hj'
          simp at h; omega
  induction xs generalizing start i with
  | nil => simp at hi
  | cons x xs ih =>
    obtain ⟨v, f⟩ := x
    cases i with
    | zero =>
      simp only [List.getElem_cons_zero] at hc
      have hf : f ≠ 0 := by rintro rfl; simp at hc
      unfold raisedFrom
      rw [if_neg hf, Raised.lowest, hc]
      split
      · simp_all
      · simp
      · rename_i j hj
        have := ge _ _ _ hj
        simp; omega
    | succ i =>
      have h0 : f.getLsbD c = false := hlow 0 (by omega)
      have hi' : i < xs.length := by simpa using hi
      have hrec := ih (start + 1) i hi' (by simpa using hc) fun j hj => by
        have := hlow (j + 1) (by omega)
        simpa using this
      unfold raisedFrom
      split
      · rw [hrec]; congr 1; omega
      · rw [Raised.lowest, h0, hrec]
        simp; omega

/-- With no element that raised a class there is no index. -/
theorem lowest_raisedFrom_none (start : Nat) (xs : List (Nat × Flags)) (c : Nat) (h : ∀ x ∈ xs, x.2.getLsbD c = false) :
    (raisedFrom start xs).lowest c = none := by
  induction xs generalizing start with
  | nil => rfl
  | cons x xs ih =>
    obtain ⟨v, f⟩ := x
    have hf : f.getLsbD c = false := h (v, f) (by simp)
    unfold raisedFrom
    split
    · exact ih _ fun x hx => h x (by simp [hx])
    · rw [Raised.lowest, hf]
      exact ih _ fun x hx => h x (by simp [hx])

/-- The hart after its flags are raised differs in FST and EVX alone. -/
theorem raise_frame (h : Hart) (p : Flags) (fl : Raised) :
    h.raise p fl = { h with fst := (h.raise p fl).fst, evx := (h.raise p fl).evx } := rfl

/-- Nothing behind an instruction that resumes nothing has raised a class before it. -/
theorem laterRaised_fresh {h : Hart} (hr : h.resume = []) : h.laterRaised = 0 := by
  unfold Hart.laterRaised
  rw [hr]
  rfl

/-- FST and EVX after an instruction that ran from its first element to element n. -/
theorem flagsAfter_raise {s t : State} {n : Nat} {f : Nat → Nat × Flags} (hn : n ≤ 8192) (hr : s.h.resume = [])
    (ht : t.h.fst = (s.h.raise 0 (raisedFrom 0 ((List.range n).map f))).fst)
    (he : t.h.evx = (s.h.raise 0 (raisedFrom 0 ((List.range n).map f))).evx) : FlagsAfter s t n (fun i => (f i).2) := by
  set fl := raisedFrom 0 ((List.range n).map f) with hfl
  have hcl : ∀ c, fl.classes.getLsbD c = true ↔ ∃ i < n, (f i).2.getLsbD c = true := by
    intro c
    rw [hfl, classes_raisedFrom]
    simp
  have hfst : t.h.fst = s.h.fst ||| fl.classes.setWidth 64 := ht
  have hevx : ∀ c (hc : c < 9), t.h.evx[c] = evxStep fl 0 c s.h.evx[c] := by
    intro c hc
    have : t.h.evx = if fl.classes = 0 then s.h.evx else s.h.evx.mapIdx (fun c old => evxStep fl 0 c old) := by
      simpa [Hart.raise, laterRaised_fresh hr] using he
    simp only [this]
    split
    · rename_i h0
      have hnone : fl.lowest c = none := by
        apply lowest_raisedFrom_none
        intro x hx
        by_contra hx'
        have : fl.classes.getLsbD c = true := (classes_raisedFrom 0 _ c).mpr ⟨x, hx, by simpa using hx'⟩
        rw [h0] at this
        simp at this
      unfold evxStep
      rw [hnone]
    · simp
  refine ⟨?_, ?_⟩
  · intro c hc
    rw [hfst, BitVec.getLsbD_or, BitVec.getLsbD_setWidth]
    have : fl.classes.getLsbD c = false := BitVec.getLsbD_of_ge _ _ hc
    simp [this]
  · intro c hc
    have hbit : t.h.fst.getLsbD c = (s.h.fst.getLsbD c || fl.classes.getLsbD c) := by
      rw [hfst, BitVec.getLsbD_or, BitVec.getLsbD_setWidth]
      have : c < 64 := by omega
      simp [this]
    refine ⟨?_, ?_⟩
    · intro hall
      have h1 : fl.classes.getLsbD c = false := by
        by_contra h
        obtain ⟨i, hi, hx⟩ := (hcl c).mp (by simpa using h)
        rw [hall i hi] at hx
        exact absurd hx (by simp)
      have h2 : fl.lowest c = none := lowest_raisedFrom_none 0 _ c (by
        intro x hx
        obtain ⟨i, hi, rfl⟩ := List.mem_map.mp hx
        exact hall i (List.mem_range.mp hi))
      refine ⟨by rw [hbit, h1, Bool.or_false], ?_⟩
      rw [hevx c hc, evxStep, h2]
    · intro i hi hx hlow
      have h1 : fl.classes.getLsbD c = true := (hcl c).mpr ⟨i, hi, hx⟩
      have h2 : fl.lowest c = some (0 + i) := by
        refine lowest_raisedFrom 0 ((List.range n).map f) c i (by simpa using hi) (by simpa using hx) ?_
        intro j hj
        have := hlow j hj
        simpa using this
      refine ⟨by rw [hbit, h1, Bool.or_true], ?_⟩
      rw [hevx c hc, evxStep, h2]
      have : i % 8192 = i := by omega
      simp [evxOf, this]

/-! ### Runs over the elements -/

/-- A hart that resumes nothing has nothing to let go of when a compact form completes. -/
theorem Hart.freeLvd_fresh {h : Hart} (hr : h.resume = []) : h.freeLvd = h := by
  cases h
  simp only [Hart.freeLvd] at hr ⊢
  subst hr
  rfl

/-- What a compact form keeps of LVD while it runs is gone when it completes (R58). -/
theorem Hart.freeLvd_holdLvd {h : Hart} (hr : h.resume = []) : h.holdLvd.freeLvd = h := by
  cases h
  simp only at hr
  subst hr
  simp [Hart.freeLvd, Hart.holdLvd, Resume.at]

/-- A compact form that issues runs from its start, with no flag class raised before. -/
theorem Hart.holdLvd_start {h : Hart} (hr : h.resume = []) : h.holdLvd.start = 0 ∧ h.holdLvd.prior = 0 := by
  simp [Hart.start, Hart.prior, Hart.holdLvd, hr, Resume.at]

/-- What an element-wise run leaves, with nothing that interrupts it: `f i` in every element below SPAN, the rest of the registers
unchanged, the flags raised, the PC past the instruction. -/
theorem elementwise_fresh {s : State} {len w : Nat} {dst : Regs} {f : Nat → Nat × Flags} (hr : s.h.resume = [])
    (hl : s.h.landing = none) (hq : s.h.quota = none) (hspan : s.h.span ≤ 8192) (hw : w * s.h.span ≤ 32768 * dst.2) (hdst : dst.1 + dst.2 ≤ 32)
    (hlvd : s.h.lvd = BitVec.ofNat 64 dst.1) :
    ∃ t, s.elementwise len w dst f = .next t ∧ Elementwise s t len w dst f s.h.full := by
  unfold State.elementwise
  have hprior : ∀ x, (s.h.setImg dst.1 dst.2 x).prior = 0 := fun x => prior_fresh (by rw [setImg_frame]; exact hr)
  have hfree : ∀ x, (if len = 2 then (s.h.setImg dst.1 dst.2 x).freeLvd else s.h.setImg dst.1 dst.2 x) = s.h.setImg dst.1 dst.2 x := by
    intro x
    rw [Hart.freeLvd_fresh (by rw [setImg_frame]; exact hr), ite_self]
  simp only [stopAt_none hl hq, start_fresh hr, Nat.sub_zero, Nat.lt_irrefl, if_false, State.retire, hprior, hfree]
  refine ⟨_, rfl, ?_⟩
  set xs := (List.range' 0 s.h.span).map f with hxs
  have hlen : (xs.map (·.1)).length = s.h.span := by simp [hxs]
  have hv : ∀ i, w * (i + 1) ≤ 32768 * dst.2 →
      elem w ((s.h.setImg dst.1 dst.2 (putElems w (s.h.img dst.1 dst.2) 0 (xs.map (·.1)))).img dst.1 dst.2) i =
        if i < s.h.span then (f i).1 % 2 ^ w else elem w (s.h.img dst.1 dst.2) i := by
    intro i hi
    rw [img_setImg _ _ _ _ hdst]
    have hcut : ∀ x, elem w (x % 2 ^ (32768 * dst.2)) i = elem w x i := by
      intro x
      apply Nat.eq_of_testBit_eq
      intro j
      rw [testBit_elem, testBit_elem, Nat.testBit_mod_two_pow]
      by_cases hj : j < w
      · have : w * i + j < 32768 * dst.2 := by rw [Nat.mul_succ] at hi; omega
        simp [this]
      · simp [hj]
    rw [hcut, elem_putElems, hlen]
    by_cases h : i < s.h.span
    · rw [if_pos (by omega), if_pos h]
      simp [hxs, h]
    · rw [if_neg (by omega), if_neg h]
  refine ⟨?_, ?_, ?_, ?_, ?_⟩
  · intro i hi
    have h1 : w * (i + 1) ≤ 32768 * dst.2 := le_trans (Nat.mul_le_mul_left w hi) hw
    have := hv i h1
    rw [if_pos hi] at this
    rw [← this, el]
    refine congrArg (elem w · i) ?_
    apply img_congr
    rfl
  · intro i hi h1
    have := hv i h1
    rw [if_neg (by omega)] at this
    rw [el, el, ← this]
    refine congrArg (elem w · i) ?_
    apply img_congr
    rfl
  · intro r _ ho
    have := vreg_setImg s.h dst.1 dst.2 (putElems w (s.h.img dst.1 dst.2) 0 (xs.map (·.1))) r
    rw [if_neg (by omega)] at this
    exact this
  · have hrange : List.range' 0 s.h.span = List.range s.h.span := List.range_eq_range'.symm
    apply flagsAfter_raise hspan hr
    · simp only [State.adv, Hart.raise]
      rw [setImg_frame, hxs, hrange]
    · simp only [State.adv, Hart.raise, Hart.laterRaised]
      rw [setImg_frame, hxs, hrange]
      rfl
  · have hs : s.h.lvd = BitVec.ofNat 64 dst.1 := hlvd
    rw [← hs]
    simp only [State.adv, Hart.raise]
    rw [setImg_frame]

end Sys2Proof.Machine
end

