-- ==== Sys2Proof/Tests/Slice0.lean ====
section
/-! SUPPORT. The model's own tests. Expected values are the spec's: its encodings, its tables and its worked examples. Then, for each
statement with hypotheses, a state and operands that meet them (witness_…). -/

noncomputable section

set_option Elab.async false

namespace Sys2Proof.Tests

open Sys2Proof.Machine Sys2Proof.Safety

/-! ### Well-formedness: each check refuses an ill-formed term, and admits the boundary value below it -/

/-- Expansion registers past e15 (R200). -/
theorem test_wf_expansion : ([.xform 16 0 0 0, .xshift 16 0, .xshift 0 16, .xtoloc 16 0, .xtoloc 0 16, .xlshift 16 0, .xlshift 0 16,
    .xeval 0 0 16 0 0, .xadmit 24 0 0 0 0, .xadmit 0 0 16 0 0, .xld 16 0, .xst 16 0, .xzero 16 0 0, .xord 16 0, .xord 0 16,
    .xevalg 0 0 16 0 0] : List Instr).all (fun i => !i.wf) = true ∧
    ([.xform 15 31 7 1, .xshift 15 15, .xeval 31 31 15 7 1, .xadmit 23 31 15 7 1] : List Instr).all Instr.wf = true := by decide

/-- Reserved width and scope codes (R60, R98, R217). -/
theorem test_wf_memory : ([.sext 0 0 3, .zext 0 0 3, .lds 0 0 7 0, .sts 0 0 1 0, .sts 0 0 7 0, .ldo 0 0 0 0 7, .ldo 0 0 0 6 0, .sto 0 0 0 0 1,
    .sto 0 0 0 6 0] : List Instr).all (fun i => !i.wf) = true ∧
    ([.sext 0 0 2, .lds 0 0 6 0, .sts 0 0 6 0, .ldo 0 0 3 5 6, .sto 0 0 3 5 6] : List Instr).all Instr.wf = true := by decide

/-- Reserved scopes of atomics, fences and barriers (R217, R256, R310). -/
theorem test_wf_scopes : ([.amoAdd 0 0 0 0 6, .amoAnd 0 0 0 0 6, .amoOr 0 0 0 0 6, .amoXor 0 0 0 0 6, .amoMin 0 0 0 0 6, .amoMax 0 0 0 0 6,
    .amoSwap 0 0 0 0 6, .amoCas 0 0 0 0 7, .amowAdd 0 0 0 0 6, .amowAnd 0 0 0 0 6, .amowOr 0 0 0 0 6, .amowXor 0 0 0 0 6, .amowMin 0 0 0 0 6,
    .amowMax 0 0 0 0 6, .amowSwap 0 0 0 0 6, .amowCas 0 0 0 0 7, .fence 3 6, .bar 0 0 0 6, .waita 0 0 0 4] : List Instr).all
      (fun i => !i.wf) = true ∧
    ([.amoAdd 0 0 0 3 5, .amowCas 0 0 0 3 5, .fence 3 5, .bar 0 0 0 5, .waita 0 0 0 3] : List Instr).all Instr.wf = true := by decide

/-- Masks past k23 (R60). -/
theorem test_wf_masks : ([.limlt 24 0 0, .limle 24 0 0, .limltn 24 0 0, .mand 24 0 0, .mand 0 24 0, .mand 0 0 24, .mor 24 0 0, .mor 0 24 0,
    .mor 0 0 24, .mxor 24 0 0, .mxor 0 24 0, .mxor 0 0 24, .mandn 24 0 0, .mandn 0 24 0, .mandn 0 0 24] : List Instr).all
      (fun i => !i.wf) = true ∧
    ([.mnot 24 0, .mnot 0 24, .mcopy 24 0, .mcopy 0 24, .mfill 24, .mzero 24, .mcount 0 24, .mfirst 0 24, .mlast 0 24, .mfromg 24 0 0,
    .mtog 0 24 0] : List Instr).all (fun i => !i.wf) = true ∧
    ([.mand 23 23 23, .mnot 23 23, .mcount 31 23, .mfromg 23 31 31, .mtog 31 23 31] : List Instr).all Instr.wf = true := by decide

/-- Compares into masks past k23 (R157). -/
theorem test_wf_compares : ([.vcmpEq 24 0 0 0 0 0, .vcmpNe 24 0 0 0 0 0, .vcmpLt 24 0 0 0 0 0, .vcmpLe 24 0 0 0 0 0, .vcmpLtn 24 0 0 0 0 0,
    .vcmpLen 24 0 0 0 0 0, .vcmpLtX 24 0 0 0 0, .vcmpGeX 24 0 0 0 0, .vfcmpFeq 24 0 0 0 0 0, .vfcmpFne 24 0 0 0 0 0, .vfcmpFlt 24 0 0 0 0 0,
    .vfcmpFle 24 0 0 0 0 0, .vfcmpFltX 24 0 0 0 0, .vfcmpFgeX 24 0 0 0 0, .vfcmpFunord 24 0 0 0 0 0] : List Instr).all (fun i => !i.wf) = true ∧
    ([.vcmpEq 23 31 31 7 1 1, .vfcmpFunord 23 31 31 7 1 1] : List Instr).all Instr.wf = true := by decide

/-- Indexes of VACQ and VREL, a transfer ID of 0, plan registers past pl7, plane counts (R318, R324, R170, R177, R180). -/
theorem test_wf_indexes : ([.chwaitId 0 0 0, .vacq 0 0, .vacq 0 4, .vacqFail 0 0, .vacqFail 0 4, .vacqTile 0 4, .vacqTileFail 0 4, .vrel 0,
    .vrel 4, .vrel 7, .vrel 12, .planset 8 0, .planget 0 8, .vgchk 24 0 0 0 0, .vgchk 0 0 8 0 0, .vplane 0 0 0 0 0, .vplane 0 0 9 0 0,
    .vdeq 0 0 0 0 0, .vdeq 0 0 9 0 0] : List Instr).all (fun i => !i.wf) = true ∧
    ([.chwaitId 0 0 1, .vacq 0 1, .vacq 0 3, .vacqTile 0 0, .vacqTile 0 3, .vrel 1, .vrel 3, .vrel 8, .vrel 11, .planset 7 31, .vgchk 23 31 7 7 1,
    .vplane 0 0 1 0 0, .vdeq 0 0 8 0 0] : List Instr).all Instr.wf = true := by decide

/-- Hints with a meaning of their own, the two compact parcels that are reserved (R57, R61). -/
theorem test_wf_hints_compact : ([.hintNop 0 0 0 0, .hintNop 0 0 0 1, .hintNop 0 0 0 2, .hintNop 0 0 0 4, .cAddi 0 0, .cJr 0] : List Instr).all
      (fun i => !i.wf) = true ∧
    ([.hintNop 0 0 0 3, .hintNop 0 0 0 255, .cAddi 0 1, .cAddi 1 0, .cJr 1] : List Instr).all Instr.wf = true := by decide

/-- Operand types and plane counts of a tile instruction, e-bits of scratchpad operands, the forms of R190 (R56, R190). -/
theorem test_wf_tile : ([.tmma 0 0 0 0 0 6 0 0 0 0 0, .tmma 0 0 0 0 0 0 6 0 0 0 0, .tmma 0 0 0 0 0 5 0 1 0 0 0, .tmma 0 0 0 0 0 0 0 0 1 0 0,
    .tmma 0 2 1 0 0 0 0 0 0 1 0, .tmma 0 0 0 2 1 0 0 0 0 0 1, .tlda 0 0 0 0 3 0 0 0, .tlda 0 0 0 0 1 1 0 0, .tlda 0 0 0 0 0 0 1 0,
    .tsta 0 0 0 0 0 1 0 1, .tsta 0 2 1 1 0 0 0 0] : List Instr).all (fun i => !i.wf) = true ∧
    ([.tmma 3 31 0 31 0 3 4 7 7 1 1, .tmma 0 2 1 2 1 5 5 0 0 0 0, .tlda 3 2 1 0 2 0 0 0, .tsta 3 31 0 31 0 1 1 31] : List Instr).all
      Instr.wf = true := by decide

/-- The row of plain CSR writes is not for a CSR whose write has a row of its own (R33, R101). -/
theorem test_wf_csr : ([.csrWrite 0x000 0 0, .csrWrite 0x409 0 0, .csrWrite 0x602 0 0] : List Instr).all (fun i => !i.wf) = true ∧
    (Instr.csrWrite 0x001 0 0).wf = true := by decide

/-! ### Decoding: words written out from the spec's encodings -/

/-- Every word of the list decodes to its instruction. -/
def decodesAll : List (Nat × Nat × Instr) → Bool
  | [] => true
  | (n, w, i) :: r => decodeTableWord n w == some i && decodesAll r

/-- Words written from the match bits and field positions of the opcode table (04, Tables 4-2 to 4-6). -/
theorem test_words_1 : decodesAll [
  (32, 0xC024CD00, .add 9 6 13),
  (32, 0xC024CD01, .sub 9 6 13),
  (32, 0xC024CD02, .and 9 6 13),
  (32, 0xC024CD03, .or 9 6 13),
  (32, 0xC024CD04, .xor 9 6 13),
  (32, 0xC024CD05, .andn 9 6 13),
  (32, 0xC024CD06, .sll 9 6 13),
  (32, 0xC024CD07, .srl 9 6 13),
  (32, 0xC024CD08, .sra 9 6 13),
  (32, 0xC024CD09, .slt 9 6 13),
  (32, 0xC024CD0A, .sltn 9 6 13),
  (32, 0xC024CD0B, .min 9 6 13),
  (32, 0xC024CD0C, .max 9 6 13),
  (32, 0xC024CD0D, .minn 9 6 13),
  (32, 0xC024CD0E, .maxn 9 6 13),
  (32, 0xC024CD10, .mul 9 6 13),
  (32, 0xC024CD11, .mulh 9 6 13),
  (32, 0xC024CD12, .mulhn 9 6 13),
  (32, 0xC024CD13, .div 9 6 13),
  (32, 0xC024CD14, .divn 9 6 13),
  (32, 0xC024CD15, .rem 9 6 13),
  (32, 0xC024CD16, .remn 9 6 13),
  (32, 0xC024C018, .clz 9 6),
  (32, 0xC024C019, .popc 9 6),
  (32, 0xC024C21A, .sext 9 6 2),
  (32, 0xC024C11B, .zext 9 6 1),
  (32, 0xC0A4D555, .addi 9 6 5461),
  (32, 0xC124C555, .andi 9 6 1365),
  (32, 0xC124CD55, .ori 9 6 1365),
  (32, 0xC124D555, .xori 9 6 1365)] = true := by decide +kernel

/-- Words written from the match bits and field positions of the opcode table (04, Tables 4-2 to 4-6). -/
theorem test_words_2 : decodesAll [
  (32, 0xC1A4CAAB, .slti 9 6 2731),
  (32, 0xC1A4DAAB, .sltni 9 6 2731),
  (32, 0xC224C00D, .slli 9 6 13),
  (32, 0xC224C80D, .srli 9 6 13),
  (32, 0xC224D00D, .srai 9 6 13),
  (32, 0xC2A6AAAB, .lih 9 174763),
  (32, 0xC326AAAB, .addpc 9 174763),
  (32, 0xC3824C0B, .xform 9 6 5 1),
  (32, 0xC38A4C00, .xshift 9 6),
  (32, 0xC3924C00, .xtoloc 9 6),
  (32, 0xC39A4C00, .xlshift 9 6),
  (32, 0xC3A24CD7, .xeval 9 6 13 3 1),
  (32, 0xC3AA4CD7, .xadmit 9 6 13 3 1),
  (32, 0xC3B24CD7, .xdirect 9 6 13 3 1),
  (32, 0xC3BA4C00, .xld 9 6),
  (32, 0xC3C24C00, .xst 9 6),
  (32, 0xC3CA4CD0, .xzero 9 6 13),
  (32, 0xC3D24C00, .xord 9 6),
  (32, 0xC3DA4CD7, .xevalg 9 6 13 3 1),
  (32, 0xC424CD00, .fadd 9 6 13),
  (32, 0xC424CD01, .fsub 9 6 13),
  (32, 0xC424CD02, .fmul 9 6 13),
  (32, 0xC424CD03, .fdiv 9 6 13),
  (32, 0xC424C004, .fsqrt 9 6),
  (32, 0xC424CD05, .fmin 9 6 13),
  (32, 0xC424CD06, .fmax 9 6 13),
  (32, 0xC424CD08, .feq 9 6 13),
  (32, 0xC424CD09, .flt 9 6 13),
  (32, 0xC424CD0A, .fle 9 6 13),
  (32, 0xC424C00C, .fcvtFS 9 6)] = true := by decide +kernel

/-- Words written from the match bits and field positions of the opcode table (04, Tables 4-2 to 4-6). -/
theorem test_words_3 : decodesAll [
  (32, 0xC424C00D, .fcvtSF 9 6),
  (32, 0xC424C00E, .fcvtFH 9 6),
  (32, 0xC424C10E, .fcvtFBf 9 6),
  (32, 0xC424C00F, .fcvtHF 9 6),
  (32, 0xC424C10F, .fcvtBfF 9 6),
  (32, 0xC424C010, .fclass 9 6),
  (32, 0xC4A4CD18, .ffma 9 6 13 3),
  (32, 0xC4A4CD19, .ffms 9 6 13 3),
  (32, 0xC4A4CD1A, .fnma 9 6 13 3),
  (32, 0xC4A4CD1B, .fnms 9 6 13 3),
  (32, 0xC524D555, .beq 9 6 5461),
  (32, 0xC5A4D555, .bne 9 6 5461),
  (32, 0xC624D555, .blt 9 6 5461),
  (32, 0xC6A4D555, .bge 9 6 5461),
  (32, 0xC724D555, .bltn 9 6 5461),
  (32, 0xC7A4D555, .bgen 9 6 5461),
  (32, 0xC826AAAB, .jal 9 174763),
  (32, 0xC8A4D555, .jalr 9 6 5461),
  (32, 0xC924D6AB, .lds 9 6 5 683),
  (32, 0xC9A4D2AB, .sts 9 6 4 683),
  (32, 0xCA24C05D, .ldo 9 6 1 3 5),
  (32, 0xCA81265C, .sto 9 6 1 3 4),
  (32, 0xCB24CDE0, .amoAdd 9 6 13 3 4),
  (32, 0xCB24CDE1, .amoAnd 9 6 13 3 4),
  (32, 0xCB24CDE2, .amoOr 9 6 13 3 4),
  (32, 0xCB24CDE3, .amoXor 9 6 13 3 4),
  (32, 0xCB24CDE4, .amoMin 9 6 13 3 4),
  (32, 0xCB24CDE5, .amoMax 9 6 13 3 4),
  (32, 0xCB24CDE6, .amoSwap 9 6 13 3 4),
  (32, 0xCB24CDE7, .amoCas 9 6 13 3 4)] = true := by decide +kernel

/-- Words written from the match bits and field positions of the opcode table (04, Tables 4-2 to 4-6). -/
theorem test_words_4 : decodesAll [
  (32, 0xCBA4CDE0, .amowAdd 9 6 13 3 4),
  (32, 0xCBA4CDE1, .amowAnd 9 6 13 3 4),
  (32, 0xCBA4CDE2, .amowOr 9 6 13 3 4),
  (32, 0xCBA4CDE3, .amowXor 9 6 13 3 4),
  (32, 0xCBA4CDE4, .amowMin 9 6 13 3 4),
  (32, 0xCBA4CDE5, .amowMax 9 6 13 3 4),
  (32, 0xCBA4CDE6, .amowSwap 9 6 13 3 4),
  (32, 0xCBA4CDE7, .amowCas 9 6 13 3 4),
  (32, 0xCC0000E0, .fence 3 4),
  (32, 0xCCA40006, .csrrd 9 6),
  (32, 0xCCA4C80D, .csrwr 9 6 13),
  (32, 0xCCA4D00D, .csrset 9 6 13),
  (32, 0xCCA4D80D, .csrclr 9 6 13),
  (32, 0xCD240000, .strip 9),
  (32, 0xCD24C001, .vsettype 9 6),
  (32, 0xCD24CD08, .limlt 9 6 13),
  (32, 0xCD24CD09, .limle 9 6 13),
  (32, 0xCD24CD0A, .limltn 9 6 13),
  (32, 0xCD24C03F, .setvl 9 6),
  (32, 0xCDA4CD00, .mand 9 6 13),
  (32, 0xCDA4CD01, .mor 9 6 13),
  (32, 0xCDA4CD02, .mxor 9 6 13),
  (32, 0xCDA4CD03, .mandn 9 6 13),
  (32, 0xCDA4C004, .mnot 9 6),
  (32, 0xCDA4C005, .mcopy 9 6),
  (32, 0xCDA40006, .mfill 9),
  (32, 0xCDA40007, .mzero 9),
  (32, 0xCDA4C008, .mcount 9 6),
  (32, 0xCDA4C009, .mfirst 9 6),
  (32, 0xCDA4C00A, .mlast 9 6)] = true := by decide +kernel

/-- Words written from the match bits and field positions of the opcode table (04, Tables 4-2 to 4-6). -/
theorem test_words_5 : decodesAll [
  (32, 0xCDA4CD0B, .mfromg 9 6 13),
  (32, 0xCDA4CD0C, .mtog 9 6 13),
  (32, 0xCE000000, .ecall),
  (32, 0xCE000001, .eret),
  (32, 0xCE240002, .wfi 9),
  (32, 0xCE000003, .brk),
  (32, 0xCE012604, .tlbinv 9 6),
  (32, 0xCE240005, .frqpop 9),
  (32, 0xCE000006, .ctxsave),
  (32, 0xCE000007, .ctxload),
  (32, 0xCEA4CD04, .bar 9 6 13 4),
  (32, 0xCEA4CD0A, .waita 9 6 13 2),
  (32, 0xCEA4C010, .chwait 9 6),
  (32, 0xCEA4CD10, .chwaitId 9 6 13),
  (32, 0xCEA4CD18, .qpush 9 6 13),
  (32, 0xCEA4C021, .qpop 9 6),
  (32, 0xCEA4C020, .qpopNb 9 6),
  (32, 0xCEA4C028, .launch 9 6),
  (32, 0xCE800030, .yield),
  (32, 0xCE800038, .exit),
  (32, 0xCEA4CDF8, .barg 9 6 13),
  (32, 0xCF244000, .vacq 9 2),
  (32, 0xCF244001, .vacqFail 9 2),
  (32, 0xCF246002, .vacqTile 9 3),
  (32, 0xCF246003, .vacqTileFail 9 3),
  (32, 0xCF012008, .vrel 9),
  (32, 0xCF24CD10, .cpread 9 6 13),
  (32, 0xCF240018, .cpmark 9),
  (32, 0xD024CD78, .vadd 9 6 13 3 1 1),
  (32, 0xD024CD79, .vsub 9 6 13 3 1 1)] = true := by decide +kernel

/-- Words written from the match bits and field positions of the opcode table (04, Tables 4-2 to 4-6). -/
theorem test_words_6 : decodesAll [
  (32, 0xD024CD7A, .vmul 9 6 13 3 1 1),
  (32, 0xD024CD7B, .vmulh 9 6 13 3 1 1),
  (32, 0xD024CD7C, .vmin 9 6 13 3 1 1),
  (32, 0xD024CD7D, .vmax 9 6 13 3 1 1),
  (32, 0xD024CD7E, .vminn 9 6 13 3 1 1),
  (32, 0xD024CD7F, .vmaxn 9 6 13 3 1 1),
  (32, 0xD0A4CD78, .vand 9 6 13 3 1 1),
  (32, 0xD0A4CD79, .vor 9 6 13 3 1 1),
  (32, 0xD0A4CD7A, .vxor 9 6 13 3 1 1),
  (32, 0xD0A4CD7B, .vandn 9 6 13 3 1 1),
  (32, 0xD0A4CD7C, .vsll 9 6 13 3 1 1),
  (32, 0xD0A4CD7D, .vsrl 9 6 13 3 1 1),
  (32, 0xD0A4CD7E, .vsra 9 6 13 3 1 1),
  (32, 0xD0A4CD7F, .vmerge 9 6 13 3 1 1),
  (32, 0xD124CD78, .vsadd 9 6 13 3 1 1),
  (32, 0xD124CD79, .vssub 9 6 13 3 1 1),
  (32, 0xD124CD7A, .vnshr 9 6 13 3 1 1),
  (32, 0xD124CD7B, .vwmul 9 6 13 3 1 1),
  (32, 0xD124CD7C, .vwmac 9 6 13 3 1 1),
  (32, 0xD124C0B5, .vabs 9 6 5 1),
  (32, 0xD124CD7E, .vmulhn 9 6 13 3 1 1),
  (32, 0xD124CD7F, .vavg 9 6 13 3 1 1),
  (32, 0xD1A4CD70, .vaddX 9 6 13 3 1),
  (32, 0xD1A4CD71, .vsubX 9 6 13 3 1),
  (32, 0xD1A4CD72, .vmulX 9 6 13 3 1),
  (32, 0xD1A4CD73, .vmulhX 9 6 13 3 1),
  (32, 0xD1A4CD74, .vminX 9 6 13 3 1),
  (32, 0xD1A4CD75, .vmaxX 9 6 13 3 1),
  (32, 0xD1A4CD76, .vminnX 9 6 13 3 1),
  (32, 0xD1A4CD77, .vmaxnX 9 6 13 3 1)] = true := by decide +kernel

/-- Words written from the match bits and field positions of the opcode table (04, Tables 4-2 to 4-6). -/
theorem test_words_7 : decodesAll [
  (32, 0xD224CD70, .vandX 9 6 13 3 1),
  (32, 0xD224CD71, .vorX 9 6 13 3 1),
  (32, 0xD224CD72, .vxorX 9 6 13 3 1),
  (32, 0xD224CD73, .vandnX 9 6 13 3 1),
  (32, 0xD224CD74, .vsllX 9 6 13 3 1),
  (32, 0xD224CD75, .vsrlX 9 6 13 3 1),
  (32, 0xD224CD76, .vsraX 9 6 13 3 1),
  (32, 0xD224CD77, .vmergeX 9 6 13 3 1),
  (32, 0xD2A4CD78, .vfadd 9 6 13 3 1 1),
  (32, 0xD2A4CD79, .vfsub 9 6 13 3 1 1),
  (32, 0xD2A4CD7A, .vfmul 9 6 13 3 1 1),
  (32, 0xD2A4CD7B, .vfdiv 9 6 13 3 1 1),
  (32, 0xD2A4CD7C, .vfmin 9 6 13 3 1 1),
  (32, 0xD2A4CD7D, .vfmax 9 6 13 3 1 1),
  (32, 0xD2A4C0B6, .vfsqrt 9 6 5 1),
  (32, 0xD2A4C0B7, .vfabs 9 6 5 1),
  (32, 0xD324CD78, .vffma 9 6 13 3 1 1),
  (32, 0xD324CD79, .vffms 9 6 13 3 1 1),
  (32, 0xD324CD7A, .vfnma 9 6 13 3 1 1),
  (32, 0xD324CD7B, .vfnms 9 6 13 3 1 1),
  (32, 0xD3A4CD70, .vfaddX 9 6 13 3 1),
  (32, 0xD3A4CD71, .vfsubX 9 6 13 3 1),
  (32, 0xD3A4CD72, .vfmulX 9 6 13 3 1),
  (32, 0xD3A4CD73, .vfdivX 9 6 13 3 1),
  (32, 0xD3A4CD74, .vfminX 9 6 13 3 1),
  (32, 0xD3A4CD75, .vfmaxX 9 6 13 3 1),
  (32, 0xD424CD70, .vffmaX 9 6 13 3 1),
  (32, 0xD424CD71, .vffmsX 9 6 13 3 1),
  (32, 0xD424CD72, .vfnmaX 9 6 13 3 1),
  (32, 0xD424CD73, .vfnmsX 9 6 13 3 1)] = true := by decide +kernel

/-- Words written from the match bits and field positions of the opcode table (04, Tables 4-2 to 4-6). -/
theorem test_words_8 : decodesAll [
  (32, 0xD4A4C0B0, .vrcp 9 6 5 1),
  (32, 0xD4A4C0B1, .vrsq 9 6 5 1),
  (32, 0xD4A4C0B2, .vexp2 9 6 5 1),
  (32, 0xD4A4C0B3, .vlog2 9 6 5 1),
  (32, 0xD524CD78, .vcmpEq 9 6 13 3 1 1),
  (32, 0xD524CD79, .vcmpNe 9 6 13 3 1 1),
  (32, 0xD524CD7A, .vcmpLt 9 6 13 3 1 1),
  (32, 0xD524CD7B, .vcmpLe 9 6 13 3 1 1),
  (32, 0xD524CD7C, .vcmpLtn 9 6 13 3 1 1),
  (32, 0xD524CD7D, .vcmpLen 9 6 13 3 1 1),
  (32, 0xD524CD76, .vcmpLtX 9 6 13 3 1),
  (32, 0xD524CD77, .vcmpGeX 9 6 13 3 1),
  (32, 0xD5A4CD78, .vfcmpFeq 9 6 13 3 1 1),
  (32, 0xD5A4CD79, .vfcmpFne 9 6 13 3 1 1),
  (32, 0xD5A4CD7A, .vfcmpFlt 9 6 13 3 1 1),
  (32, 0xD5A4CD7B, .vfcmpFle 9 6 13 3 1 1),
  (32, 0xD5A4CD74, .vfcmpFltX 9 6 13 3 1),
  (32, 0xD5A4CD75, .vfcmpFgeX 9 6 13 3 1),
  (32, 0xD5A4CD7E, .vfcmpFunord 9 6 13 3 1 1),
  (32, 0xD624C170, .vcvtFi 9 6 1 3 1),
  (32, 0xD624C171, .vcvtIf 9 6 1 3 1),
  (32, 0xD624C0B2, .vfwiden 9 6 5 1),
  (32, 0xD624C0B3, .vfnarrow 9 6 5 1),
  (32, 0xD624C0B4, .vswiden 9 6 5 1),
  (32, 0xD624C0B5, .vzwiden 9 6 5 1),
  (32, 0xD624C176, .vtrunc 9 6 1 3 1),
  (32, 0xD6A4CD78, .vredsum 9 6 13 3 1 1),
  (32, 0xD6A4CD79, .vredmax 9 6 13 3 1 1),
  (32, 0xD6A4CD7A, .vredmin 9 6 13 3 1 1),
  (32, 0xD6A4CD7B, .vredmaxn 9 6 13 3 1 1)] = true := by decide +kernel

/-- Words written from the match bits and field positions of the opcode table (04, Tables 4-2 to 4-6). -/
theorem test_words_9 : decodesAll [
  (32, 0xD6A4CD7C, .vredminn 9 6 13 3 1 1),
  (32, 0xD6A4CD7D, .vfredsum 9 6 13 3 1 1),
  (32, 0xD6A4CD7E, .vfredmax 9 6 13 3 1 1),
  (32, 0xD6A4CD7F, .vfredmin 9 6 13 3 1 1),
  (32, 0xD724CD78, .vgatherr 9 6 13 3 1 1),
  (32, 0xD724CD71, .vslideup 9 6 13 3 1),
  (32, 0xD724CD72, .vslidedn 9 6 13 3 1),
  (32, 0xD724C0B3, .vcompress 9 6 5 1),
  (32, 0xD724C0B4, .vexpand 9 6 5 1),
  (32, 0xD72400C5, .viota 9 6),
  (32, 0xD724C0B6, .vscan 9 6 5 1),
  (32, 0xD724CD77, .vbcast 9 6 13 3 1),
  (32, 0xD7A4CD70, .vunpackb 9 6 13 3 1),
  (32, 0xD7A4CD79, .vtbl 9 6 13 3 1 1),
  (32, 0xD7A4CD62, .vrand 9 6 13 3),
  (32, 0xD7A4C0A3, .vmovgv 9 6 5),
  (32, 0xD7A4CD14, .vmovvg 9 6 13 1),
  (32, 0xD814C000, .planset 5 6),
  (32, 0xD824A001, .planget 9 5),
  (32, 0xD824C572, .vgchk 9 6 5 3 1),
  (32, 0xD8A4C0B5, .vpack 9 6 5 1 5),
  (32, 0xD8A4C1B5, .vpackB 9 6 5 1 5),
  (32, 0xD924CD7E, .vconv 9 6 13 3 1 1 6),
  (32, 0xD9A4CD71, .vxtr 9 6 13 3 1 1),
  (32, 0xDA24C0A3, .vld 9 6 5 3),
  (32, 0xDA24C0AB, .vldff 9 6 5 3),
  (32, 0xDAA4CD65, .vlds 9 6 13 3 5),
  (32, 0xDB24CD71, .vldx 9 6 13 3 1 1),
  (32, 0xDBA4C0B5, .vst 9 6 5 1 5),
  (32, 0xDBA4C0BD, .vstn 9 6 5 1 5)] = true := by decide +kernel

/-- Words written from the match bits and field positions of the opcode table (04, Tables 4-2 to 4-6). -/
theorem test_words_10 : decodesAll [
  (32, 0xDC24CD71, .vsts 9 6 13 3 1 1),
  (32, 0xDCA4CD71, .vstx 9 6 13 3 1 1),
  (32, 0xDD24C0A6, .vldbp 9 6 5 3),
  (32, 0xDD24C0BB, .vstbp 9 6 5 1 5),
  (32, 0xDDA4C000, .vspill 9 6),
  (32, 0xDDA4C001, .vrefill 9 6),
  (32, 0xDE24CD70, .vamoAdd 9 6 13 3 1),
  (32, 0xDE24CD71, .vamoAnd 9 6 13 3 1),
  (32, 0xDE24CD72, .vamoOr 9 6 13 3 1),
  (32, 0xDE24CD73, .vamoXor 9 6 13 3 1),
  (32, 0xDE24CD74, .vamoMin 9 6 13 3 1),
  (32, 0xDE24CD75, .vamoMax 9 6 13 3 1),
  (32, 0xDE24CD76, .vamoSwap 9 6 13 3 1),
  (32, 0xDEA4C000, .strmdef 9 6),
  (32, 0xDE812001, .strmend 9),
  (32, 0xDEA4C002, .copy 9 6),
  (32, 0xDEA40003, .evpop 9),
  (32, 0xDEA4CD04, .gangbind 9 6 13),
  (32, 0xDE800005, .gangfree),
  (32, 0xDF24C570, .vplane 9 6 5 3 1),
  (32, 0xDF24C0B1, .vtoplane 9 6 5 1),
  (32, 0xDF24CD72, .vqscale 9 6 13 3 1),
  (32, 0xDF24C0B3, .vnarrow 9 6 5 1),
  (32, 0xDF24C574, .vdeq 9 6 5 3 1),
  (32, 0xDFA4CD00, .pref 9 6 13),
  (32, 0xDFA4CD01, .land 9 6 13),
  (32, 0xDFA4CD02, .pause 9 6 13),
  (32, 0xDFA4CD04, .grantq 9 6 13),
  (32, 0xDFA4CD9B, .hintNop 9 6 13 155)] = true := by decide +kernel

/-- Compact parcels of Table 3-4 and Table 3-5. -/
theorem test_words_compact : decodesAll [
  (16, 0x09AB, .cAddi 9 171),
  (16, 0x2126, .cMv 9 6),
  (16, 0x2526, .cAdd 9 6),
  (16, 0x2926, .cSub 9 6),
  (16, 0x2D26, .cAnd 9 6),
  (16, 0x3126, .cOr 9 6),
  (16, 0x3526, .cXor 9 6),
  (16, 0x3926, .cSll 9 6),
  (16, 0x3D26, .cSra 9 6),
  (16, 0x43AD, .cLd 1 6 45),
  (16, 0x59AD, .cSt 4 6 45),
  (16, 0x6555, .cJ 1365),
  (16, 0x6CAB, .cBeqz 4 171),
  (16, 0x74AB, .cBnez 4 171),
  (16, 0x7A40, .cJr 9),
  (16, 0x8126, .cVadd 9 6),
  (16, 0x8526, .cVsub 9 6),
  (16, 0x8926, .cVmul 9 6),
  (16, 0x8D26, .cVfadd 9 6),
  (16, 0x9126, .cVfmul 9 6),
  (16, 0x9526, .cVffma 9 6),
  (16, 0x9926, .cVmax 9 6),
  (16, 0x9D26, .cVfmax 9 6),
  (16, 0xA126, .cVaddX 9 6),
  (16, 0xA526, .cVsubX 9 6),
  (16, 0xA926, .cVmulX 9 6),
  (16, 0xAD26, .cVfaddX 9 6),
  (16, 0xB126, .cVfmulX 9 6),
  (16, 0xB526, .cVffmaX 9 6),
  (16, 0xB926, .cVmaxX 9 6),
  (16, 0xBD26, .cVfmaxX 9 6)] = true := by decide +kernel

/-- Tile instructions from the fields of Table 3-3 and the layouts of Table 10-5. -/
theorem test_words_tile : decodesAll [
  (64, 0xE00004000020E009, .tshape 2 4 7 9),
  (64, 0xE080020000008005, .twin 1 0x8005),
  (64, 0xE100060000000000, .tzero 3),
  (64, 0xE1984A68AC000000, .tmma 1 6 0 4 1 3 4 2 5 1 0),
  (64, 0xE224D44000000000, .tlda 2 9 0 13 2 0 0 0),
  (64, 0xE226040001800015, .tlda 2 9 1 0 0 1 1 21),
  (64, 0xE2A4D42000000000, .tsta 2 9 0 13 1 0 0 0),
  (64, 0xE2A4D60001800015, .tsta 3 9 0 13 0 1 1 21),
  (64, 0xE300020000000002, .tadd 1 2),
  (64, 0xE380000000000000, .tsync),
  (64, 0xE400000000000009, .tgang 2 1)] = true := by decide +kernel

/-- Words that the spec gives beside their assembly (06, 11, 14, 17, 21, 23). -/
theorem test_spec_words : decodesAll [
  (32, 0xCD05CC08, .limlt 1 14 12),
  (32, 0xCDE82008, .mcount 26 1),
  (32, 0xC6399FF4, .blt 14 12 0x1FF4),
  (32, 0xC3C83BE0, .xzero 0 29 30),
  (32, 0xC3800802, .xform 0 4 1 0),
  (32, 0xC3904000, .xtoloc 1 0),
  (32, 0xC3A00214, .xeval 0 1 1 2 0),
  (32, 0xCA69A066, .ldo 26 13 1 4 6),
  (32, 0xCA81B9A6, .sto 13 25 2 4 6),
  (32, 0xCB6D9900, .amoAdd 27 12 25 0 0),
  (32, 0xCC0000D8, .fence 3 3),
  (32, 0xCEFA7D04, .bar 30 19 29 4),
  (32, 0xCEFA7D0A, .waita 30 19 29 2),
  (32, 0xCE822010, .chwait 0 17),
  (32, 0xCEE0A028, .launch 24 5),
  (32, 0xCE800038, .exit),
  (32, 0xCF6C0002, .vacqTile 27 0),
  (32, 0xCF62A010, .cpread 24 21 0),
  (32, 0xCE000000, .ecall),
  (32, 0xCE000001, .eret),
  (32, 0xCE000003, .brk),
  (32, 0xCE000006, .ctxsave),
  (32, 0xCE000007, .ctxload),
  (32, 0xDF800001, .land 0 0 0),
  (32, 0xC37C0000, .addpc 31 0),
  (32, 0xC0FFE014, .addi 31 31 20),
  (32, 0xCA7BE066, .ldo 30 31 1 4 6),
  (32, 0xC883C000, .jalr 0 30 0)] = true := by decide +kernel

/-- Words that the program chapters give (24 to 28, and 04). -/
theorem test_spec_words_programs : decodesAll [
  (32, 0xD80B8000, .planset 2 28),
  (32, 0xD8882021, .vpack 2 1 1 0 1),
  (32, 0xD8906122, .vpackB 4 3 1 0 2),
  (32, 0xD9184422, .vconv 6 2 4 1 0 0 2),
  (32, 0xD994C121, .vxtr 5 6 1 1 0 1),
  (32, 0xD98CC222, .vxtr 3 6 2 1 0 2),
  (32, 0xDA134023, .vld 4 26 1 3),
  (32, 0xC3A8C824, .xadmit 3 4 2 2 0),
  (32, 0xCDE0600C, .mtog 24 3 0),
  (32, 0xC3B00242, .xdirect 0 1 4 1 0),
  (32, 0xCB037D00, .amoAdd 0 27 29 0 0),
  (32, 0xCEE21903, .bar 24 16 25 3),
  (32, 0xC0781E0A, .sltn 30 0 30),
  (32, 0xC463A00C, .fcvtFS 24 29),
  (32, 0xDB09C122, .vldx 2 14 1 1 0 2),
  (32, 0xCE600005, .frqpop 24),
  (32, 0xCE031F04, .tlbinv 24 31),
  (32, 0xDB008B21, .vldx 0 4 11 1 0 1),
  (32, 0xD6300022, .vfwiden 12 0 1 0),
  (32, 0xD3098E20, .vffma 2 12 14 1 0 0),
  (32, 0xD7918004, .vmovvg 4 12 0 0),
  (32, 0xCC83A824, .csrwr 0 29 0x024),
  (32, 0xCD640000, .strip 25)] = true := by decide +kernel

/-- Tile words that the spec gives (10, 29). -/
theorem test_spec_words_tile : decodesAll [
  (64, 0xE00000000018600F, .tshape 0 3 3 15),
  (64, 0xE08000000000FFF8, .twin 0 0xFFF8),
  (64, 0xE184200000000000, .tmma 0 1 0 2 0 0 0 0 0 0 0),
  (64, 0xE2B9C00000000000, .tsta 0 14 0 28 0 0 0 0),
  (64, 0xE2F5C00001000000, .tsta 0 29 0 28 0 1 0 0),
  (64, 0xE275C20001000000, .tlda 1 29 0 28 0 1 0 0),
  (64, 0xE300000000000001, .tadd 0 1)] = true := by decide +kernel
/-- Words that R60 refuses: a reserved major, a reserved funct, a nonzero field that must be 0, C.JR of g0, the all-zero parcel's
neighbour of C.ADDI, a reserved tile op, and a wrong length. -/
theorem test_refused_words : ([(32, 0xCF800000), (32, 0xC000001F), (32, 0xCE001000), (16, 0x7800), (16, 0x0000), (64, 0xE480000000000000),
    (64, 0xE184200040000000), (32, 0xE000)] : List (Nat × Nat)).all (fun x => decodeTableWord x.1 x.2 == none) = true := by decide +kernel

/-! ### Small states -/

/-- A hart that runs at user level with SPAN 2 elements of 32 bits, all blocks held. -/
def base : State := { State.reset with h := { Hart.reset 0 with slot := .run, grant := 1, span := 2, held := 7 } }

/-- The same at another level. -/
def atLevel (l : Level) (s : State) : State := { s with h := { s.h with lvl := l } }

/-- `s` with g registers. -/
def withG (s : State) (xs : List (BitVec 5 × Word)) : State := xs.foldl (fun (s : State) p => s.setG p.1 p.2) s

/-- `s` with 8-byte words in the scratchpad of cluster 0, by offset. -/
def withWords (s : State) (xs : List (Nat × Nat)) : State := xs.foldl (fun (s : State) p => s.poke (scratchKey 0 p.1) 8 p.2) s

/-- `s` with its hart in a wait. -/
def waiting (s : State) (w : Wait) : State := { s with h := { s.h with slot := .wait w 0 } }

/-- The virtual address of an offset of the scratchpad window (Table 2-1). -/
def win (o : Nat) : Word := BitVec.ofNat 64 (0x000FFFFE00000000 + o)

/-- Whether an access is performed. -/
def reaches (s : State) (k : AccKind) (dev : Bool) (va : Word) (n : Nat) : Bool :=
  match s.translate s.who k dev va with
  | .error _ => false
  | .ok p => decide (va.toNat % n = 0) && !s.failing p.key n && !s.heldOff s.myCore p

theorem reaching_of {s : State} {k : AccKind} {dev : Bool} {va : Word} {n : Nat} (h : reaches s k dev va n = true) :
    ∃ p, Reaching s k dev va n p := by
  unfold reaches at h
  split at h
  · exact absurd h (by simp)
  · rename_i p hp
    simp only [Bool.and_eq_true, decide_eq_true_eq, Bool.not_eq_true'] at h
    exact ⟨p, h.1.1, hp, h.1.2, h.2⟩

/-- Whether an access fails. -/
def failsAt (s : State) (k : AccKind) (dev : Bool) (va : Word) : Bool :=
  match s.translate s.who k dev va with
  | .error f => f.cause != 0x13
  | .ok _ => false

theorem fails_of {s : State} {k : AccKind} {dev : Bool} {va : Word} (h : failsAt s k dev va = true) :
    ∃ f, s.translate s.who k dev va = .error f ∧ f.cause ≠ 0x13 := by
  unfold failsAt at h
  split at h
  · rename_i f hf
    exact ⟨f, hf, by simpa using h⟩
  · exact absurd h (by simp)

/-- Runs with every block held and every register full hold each run of registers. -/
theorem held_all {s : State} (hh : s.h.held = 7) (hf : s.h.full = Vector.replicate 32 .full) {r : Regs} (hr : r.1 + r.2 ≤ 32) : Held s r := by
  intro j _ h2
  have hj : j < 32 := by omega
  refine ⟨hj, ?_, ?_⟩
  · unfold Hart.holdsV
    rw [hh]
    interval_cases j <;> rfl
  · unfold Hart.isFull
    rw [hf]
    simp [hj]

/-! ### Witnesses: states and operands that meet the hypotheses of the statements -/

theorem witness_ScalarRegisterResults : ((2 : BitVec 5).toNat < 3 ∧ (0 : BitVec 5).toNat < 3) ∧ ∃ r, r < 64 ∧
    (base.getG 1).getLsbD (63 - r) = false := ⟨by decide, 0, by decide, by decide +kernel⟩

/-- A comparison that holds and one that does not; an even and an odd target; a return and no return. -/
theorem witness_BranchAndJumpResults : base.getG 5 = base.getG 6 ∧ (withG base [(5, 1)]).getG 5 ≠ (withG base [(5, 1)]).getG 6 ∧
    ((withG base [(5, 1)]).getG 5 + (1 : BitVec 13).signExtend 64).getLsbD 0 = false ∧
    ((withG base [(5, 1)]).getG 5 + (0 : BitVec 13).signExtend 64).getLsbD 0 = true := by decide +kernel

/-- Each load form at its width: 1, 2, 4 and 8 bytes, the last at the last word of the window. -/
theorem witness_ScalarLoadResults :
    let s := withG base [(4, win 0x3FFFF8), (5, win 0x3FFFFF)]
    (∃ p, (Instr.lds 6 4 6 0).WellFormed ∧ scalarLoad s (.lds 6 4 6 0) = some (6, 6, win 0x3FFFF8, 4) ∧ Reaching s .read true (win 0x3FFFF8) (codeBytes 6) p) ∧
    (∃ p, (Instr.lds 6 5 1 0).WellFormed ∧ scalarLoad s (.lds 6 5 1 0) = some (6, 1, win 0x3FFFFF, 4) ∧ Reaching s .read true (win 0x3FFFFF) (codeBytes 1) p) ∧
    (∃ p, (Instr.ldo 6 4 1 4 5).WellFormed ∧ scalarLoad s (.ldo 6 4 1 4 5) = some (6, 5, win 0x3FFFF8, 4) ∧ Reaching s .read true (win 0x3FFFF8) (codeBytes 5) p) ∧
    ∃ p, (Instr.cLd 2 0 0).WellFormed ∧ scalarLoad s (.cLd 2 0 0) = some (6, 6, win 0x3FFFF8, 2) ∧ Reaching s .read true (win 0x3FFFF8) (codeBytes 6) p := by
  intro s
  obtain ⟨p1, h1⟩ := reaching_of (s := s) (k := .read) (dev := true) (va := win 0x3FFFF8) (n := codeBytes 6) (by decide +kernel)
  obtain ⟨p2, h2⟩ := reaching_of (s := s) (k := .read) (dev := true) (va := win 0x3FFFFF) (n := codeBytes 1) (by decide +kernel)
  obtain ⟨p3, h3⟩ := reaching_of (s := s) (k := .read) (dev := true) (va := win 0x3FFFF8) (n := codeBytes 5) (by decide +kernel)
  exact ⟨⟨p1, rfl, by decide +kernel, h1⟩, ⟨p2, rfl, by decide +kernel, h2⟩, ⟨p3, rfl, by decide +kernel, h3⟩, ⟨p1, rfl, by decide +kernel, h1⟩⟩

theorem witness_ScalarStoreResults :
    let s := withG base [(4, win 0x3FFFF8), (5, 0x1122334455667788)]
    Memory.wf s.mem = true ∧
    (∃ p, (Instr.sts 5 4 6 0).WellFormed ∧ scalarStore s (.sts 5 4 6 0) = some (0x1122334455667788, 6, win 0x3FFFF8, 4, false) ∧ Reaching s .write true (win 0x3FFFF8) (codeBytes 6) p) ∧
    (∃ p, (Instr.sto 4 5 2 4 0).WellFormed ∧ scalarStore s (.sto 4 5 2 4 0) = some (0x1122334455667788, 0, win 0x3FFFF8, 4, true) ∧ Reaching s .write true (win 0x3FFFF8) (codeBytes 0) p) ∧
    ∃ p, (Instr.cSt 1 0 0).WellFormed ∧ scalarStore s (.cSt 1 0 0) = some (0x1122334455667788, 6, win 0x3FFFF8, 2, false) ∧ Reaching s .write true (win 0x3FFFF8) (codeBytes 6) p := by
  intro s
  obtain ⟨p1, h1⟩ := reaching_of (s := s) (k := .write) (dev := true) (va := win 0x3FFFF8) (n := codeBytes 6) (by decide +kernel)
  obtain ⟨p2, h2⟩ := reaching_of (s := s) (k := .write) (dev := true) (va := win 0x3FFFF8) (n := codeBytes 0) (by decide +kernel)
  exact ⟨by decide +kernel, ⟨p1, rfl, by decide +kernel, h1⟩, ⟨p2, rfl, by decide +kernel, h2⟩, ⟨p1, rfl, by decide +kernel, h1⟩⟩

/-- An atomic of 8 bytes that writes, one of 4 bytes, and a compare-and-swap that fails. -/
theorem witness_AtomicResults :
    let s := withG base [(4, win 0x3FFFF8), (5, 7), (6, 1)]
    Memory.wf s.mem = true ∧
    (∃ f p, atomicOf s (.amoAdd 3 4 5 3 4) = some (3, 4, 5, 3, 4, 8, f) ∧ f 0 7 = some 7 ∧ Reaching s .atomic false (s.getG 4) 8 p) ∧
    (∃ f p, atomicOf s (.amowSwap 3 4 5 0 0) = some (3, 4, 5, 0, 0, 4, f) ∧ f 0 7 = some 7 ∧ Reaching s .atomic false (s.getG 4) 4 p) ∧
    ∃ f p, atomicOf s (.amoCas 6 4 5 0 0) = some (6, 4, 5, 0, 0, 8, f) ∧ f 0 7 = none ∧ Reaching s .atomic false (s.getG 4) 8 p := by
  intro s
  obtain ⟨p1, h1⟩ := reaching_of (s := s) (k := .atomic) (dev := false) (va := s.getG 4) (n := 8) (by decide +kernel)
  obtain ⟨p2, h2⟩ := reaching_of (s := s) (k := .atomic) (dev := false) (va := s.getG 4) (n := 4) (by decide +kernel)
  exact ⟨by decide +kernel, ⟨_, p1, rfl, by decide +kernel, h1⟩, ⟨_, p2, rfl, by decide +kernel, h2⟩, ⟨_, p1, rfl, by decide +kernel, h1⟩⟩

/-- Misaligned by one; aligned and not translated (PTBR is not enabled). -/
theorem witness_ScalarAccessTraps :
    let s := withG base [(4, win 1), (5, 0x1000)]
    (scalarLoad s (.lds 6 4 6 0) = some (6, 6, win 1, 4) ∧ (win 1).toNat % codeBytes 6 ≠ 0) ∧
    (scalarStore s (.sts 6 4 6 0) = some (0, 6, win 1, 4, false) ∧ (win 1).toNat % codeBytes 6 ≠ 0) ∧
    (∃ f, atomicOf s (.amoAdd 3 4 5 0 0) = some (3, 4, 5, 0, 0, 8, f) ∧ (s.getG 4).toNat % 8 ≠ 0) ∧
    (scalarLoad s (.lds 6 5 6 0) = some (6, 6, 0x1000, 4) ∧ (0x1000 : Word).toNat % codeBytes 6 = 0 ∧
      ∃ f, s.translate s.who .read true 0x1000 = .error f ∧ f.cause ≠ 0x13) ∧
    (scalarStore s (.sts 6 5 6 0) = some (0, 6, 0x1000, 4, false) ∧ (0x1000 : Word).toNat % codeBytes 6 = 0 ∧
      ∃ f, s.translate s.who .write true 0x1000 = .error f ∧ f.cause ≠ 0x13) := by
  intro s
  refine ⟨by decide +kernel, by decide +kernel, ⟨_, rfl, by decide +kernel⟩, ⟨by decide +kernel, by decide, ?_⟩, ⟨by decide +kernel, by decide, ?_⟩⟩
  · exact fails_of (by decide +kernel)
  · exact fails_of (by decide +kernel)

/-- Whether CSR c refuses x. -/
def refuses (s : State) (c : BitVec 11) (x : Word) : Bool := @decide (CsrRefuses s c x) (by delta CsrRefuses RingRefused; infer_instance)

theorem refuses_iff {s : State} {c : BitVec 11} {x : Word} : refuses s c x = true ↔ CsrRefuses s c x := @decide_eq_true_iff _ (_)

/-- What an instruction writes and whether the level reaches the CSR and the CSR admits the value. -/
def writesTo (s : State) (i : Instr) (c : BitVec 11) : Bool :=
  match csrWriter s i with
  | some (_, c', f) => decide (c' = c) && !refuses s c (f (s.csrGet c.toNat)) &&
      decide ((0x400 ≤ c.toNat ∧ c.toNat < 0x600 → s.h.lvl ≠ .user) ∧ (0x600 ≤ c.toNat → s.h.lvl = .firmware))
  | none => false

theorem writesTo_of {s : State} {i : Instr} {c : BitVec 11} (h : writesTo s i c = true) :
    ∃ d f, csrWriter s i = some (d, c, f) ∧ LevelReaches s.h.lvl c ∧ ¬CsrRefuses s c (f (s.csrGet c.toNat)) := by
  unfold writesTo at h
  split at h
  · rename_i d c' f hf
    simp only [Bool.and_eq_true, decide_eq_true_eq, Bool.not_eq_true'] at h
    obtain ⟨⟨rfl, h2⟩, h3⟩ := h
    exact ⟨d, f, hf, h3, fun hr => by simp [refuses_iff.mpr hr] at h2⟩
  · exact absurd h (by simp)

/-- The least value that each CSR with values of its own refuses and the one beside it that it admits, where no other bit stands in the
way: (CSR, refused, admitted). -/
theorem witness_CsrRefuses :
    let s := { (base.setCluster 1 { Cluster.reset with freeze := .frozen }) with dbgsel := 1 }
    ([(0x000, 4, 3), (0x000, 0x20, 0x18), (0x000, 0x80, 0x81), (0x000, 0x100, 0x40), (0x002, 5, 4), (0x002, 0x28, 0x20), (0x003, 0x200, 0x1FF),
      (0x008, 9, 8), (0x021, 6, 5), (0x404, 3, 2), (0x409, 3, 2), (0x409, 4, 1), (0x40B, 0xE00, 0xD00), (0x40B, 0x1100, 0x2100),
      (0x40B, 0x3000D00, 0x0000D01), (0x40D, 0, 0x8000000000000000), (0x40D, 0x8000000000000200, 0x80000000000001FF),
      (0x410, 0x1000000000000001, 0x1000000000000040), (0x411, 1, 0x41), (0x411, 0x200, 0x1C0), (0x412, 6, 4), (0x414, 2, 1), (0x601, 5, 4),
      (0x602, 0x38000000, 0x34000000), (0x602, 0x4001000, 0x4002000), (0x603, 9, 8)] :
      List (BitVec 11 × Word × Word)).all (fun p => refuses s p.1 p.2.1 && !refuses s p.1 p.2.2) = true := by decide +kernel

/-- CSRs of each kind, read at a level that reaches them; writable ones that take the value, plain or not; one that refuses it, a
read-only one, one that the level does not reach, and a number that is not assigned. -/
theorem witness_CsrAccess :
    let s := atLevel .firmware base
    ((0x600, s.h.fvec) ∈ csrsOf s ∧ (0x217, 0) ∈ csrsOf s ∧ (0x218, 172032) ∈ csrsOf s ∧ (0x411, 0) ∈ csrsOf s ∧ LevelReaches s.h.lvl 0x600) ∧
    (Canonical s ∧ s.h.slot = .run ∧ csrAssigned 0x001 = true ∧ csrPlain 0x001 = true ∧ csrPlain 0x000 = false ∧ (0x001 : BitVec 11).toNat / 0x200 ≠ 1) ∧
    (∃ d f, csrWriter s (.csrwr 3 5 0x001) = some (d, 0x001, f) ∧ LevelReaches s.h.lvl 0x001 ∧
      ¬CsrRefuses s 0x001 (f (s.csrGet (0x001 : BitVec 11).toNat))) ∧
    (∃ d f, csrWriter s (.csrset 3 5 0x000) = some (d, 0x000, f) ∧ LevelReaches s.h.lvl 0x000 ∧
      ¬CsrRefuses s 0x000 (f (s.csrGet (0x000 : BitVec 11).toNat))) ∧
    csrAssigned 0x7FF = false ∧ (¬LevelReaches base.h.lvl 0x400 ∧ csrAssigned 0x400 = true) ∧ csrAssigned 0x200 = true ∧
    CsrRefuses (withG base [(5, 4)]) 0x000 ((withG base [(5, 4)]).getG 5) := by
  refine ⟨⟨by decide +kernel, by decide +kernel, by decide +kernel, by decide +kernel, by unfold LevelReaches; decide +kernel⟩,
    ⟨by unfold Canonical; decide +kernel, by decide +kernel, by decide +kernel, by decide +kernel, by decide +kernel, by decide⟩,
    writesTo_of (by decide +kernel), writesTo_of (by decide +kernel), by decide +kernel,
    ⟨by unfold LevelReaches; decide +kernel, by decide +kernel⟩, by decide +kernel, refuses_iff.mp (by decide +kernel)⟩

/-- Each CSR whose write has steps of its own takes the value, from the lowest level that reaches it, on clusters that run and that are
frozen. -/
theorem witness_CsrWriteSteps :
    let u := withG base [(5, 2), (6, 0x8000000000000000), (7, 0x40)]
    let s := atLevel .supervisor u
    let m := atLevel .firmware u
    let f : State := { s.setCluster 1 { Cluster.reset with freeze := .frozen } with dbgsel := 1 }
    (∀ x ∈ [u, s, m, f], Canonical x ∧ x.h.slot = .run) ∧
    (∀ p ∈ [(u, Instr.vtypeWrite 3 5, (0x000 : BitVec 11)), (u, .csrwr 3 5 0x000, 0x000), (s, .lpartWrite 3 5, 0x409), (s, .preq 3 6, 0x40D),
      (s, .cplogWrite 3 0, 0x40B), (m, .trctlWrite 3 0, 0x602), (m, .atollWrite 3 0, 0x601), (s, .dbgctlStop 3 7, 0x411),
      (f, .dbgctlGo 3 7, 0x411), (f, .dumpctlGo 3 7, 0x410)],
      ∃ d g, csrWriter p.1 p.2.1 = some (d, p.2.2, g) ∧ LevelReaches p.1.h.lvl p.2.2 ∧
        ¬CsrRefuses p.1 p.2.2 (g (p.1.csrGet p.2.2.toNat))) ∧
    (s.cluster s.myCluster).freeze = .running ∧ (f.cluster ((f.getG 7).extractLsb' 6 6)).freeze = .frozen ∧ (f.getG 7).getLsbD 0 = false := by
  intro u s m f
  refine ⟨by unfold Canonical; decide +kernel, ?_, by decide +kernel, by decide +kernel, by decide +kernel⟩
  intro p hp
  apply writesTo_of
  revert p
  decide +kernel

theorem witness_MaskResults : base.h.span ≤ 8192 ∧ (23 : BitVec 5).toNat < 24 ∧ (0 : BitVec 5).toNat < 24 ∧
    (∀ j < base.h.span, (base.h.getK 1).getLsbD j = false) ∧
    ((base.setK 1 3).h.getK 1).getLsbD 1 = true := by decide +kernel

/-- No streams; a VTYPE that is legal and one that is not. -/
theorem witness_StripResults : NoStreams base ∧ base.vtypeOk (withG base [(5, 2)] |>.getG 5) = true ∧
    base.vtypeOk (withG base [(5, 4)] |>.getG 5) = false := by
  refine ⟨?_, by decide +kernel, by decide +kernel⟩
  unfold NoStreams
  decide +kernel

theorem witness_HintsChangeNothing : (4 : BitVec 3).toNat < 5 ∧ ∃ t, exec (.pauseEnd base.h.id) base = .next t := ⟨by decide, _, rfl⟩

/-- Both kinds of entry: into supervisor level, and into firmware level; causes on both sides of machine check. -/
theorem witness_TrapEntry : base.h.resume = [] ∧ 0x12 ≠ 0x13 ∧ 0x18 ≠ 0x13 ∧ base.h.lvl = .user ∧ (atLevel .supervisor base).h.lvl = .supervisor ∧
    (atLevel .firmware base).h.resume = [] := by decide +kernel

theorem witness_TrapThenReturn : base.h.resume = [] ∧ 0x18 ≠ 0x13 ∧ ∃ t, base.trapPre 0x18 0 = .next t := ⟨by decide +kernel, by decide, _, rfl⟩

/-- A debug stop that is armed and one that is not. -/
theorem witness_CallsAndPrivilege :
    let s := base.setCluster 0 { Cluster.reset with stopen := true }
    (base.cluster base.myCluster).stopen = false ∧ (s.cluster s.myCluster).stopen = true ∧ (s.cluster s.myCluster).freeze = .running ∧
    base.h.lvl = .user := by decide +kernel

/-- PLV equal to the level (completes) and above it (privileged). -/
theorem witness_EretResults :
    let s := atLevel .supervisor base
    let up : State := { s with h := { s.h with estatus := 2 } }
    let eq : State := { s with h := { s.h with estatus := 0x40001 } }
    ((levelCode up.h.lvl).toNat < (up.h.estatus.extractLsb' 0 2).toNat ∧ up.h.lvl ≠ .user) ∧
    ((eq.h.estatus.extractLsb' 0 2).toNat ≤ (levelCode eq.h.lvl).toNat ∧ eq.h.estatus.getLsbD 5 = false ∧ eq.h.estatus.getLsbD 6 = false ∧
      eq.h.lvl ≠ .user) := by decide +kernel

/-- A selector that R375 allows, for each mode; one with a reserved bit; the lowest address that modes 2 and 3 do not take. -/
theorem witness_TlbinvAndFrqpop :
    let s := withG (atLevel .supervisor base) [(4, 0x000FFFFDFFFFFFFF), (5, 0xC000000000000000), (6, 0x1000), (7, 0x000FFFFE00000000)]
    Canonical s ∧ s.h.lvl ≠ .user ∧ (s.getG 5).extractLsb' 12 50 = 0 ∧ (s.getG 4).toNat < 0x000FFFFE00000000 ∧
    (s.getG 6).extractLsb' 12 50 ≠ 0 ∧ 0x000FFFFE00000000 ≤ (s.getG 7).toNat ∧
    (28 : BitVec 5).toNat % 4 = 0 ∧ (28 : BitVec 5) ≠ 0 ∧ (30 : BitVec 5).toNat % 4 ≠ 0 := by
  unfold Canonical
  decide +kernel

/-- The low part of an image: version 2.3, its length, nothing held, all else 0 (Table 20-7). -/
def imageWords : BitVec 327680 := BitVec.ofNat 327680 (0x0203 + 8 * ctxWords [] * 2 ^ 128)

/-- A hart at supervisor level with CTXA at the window's start, where that image lies. -/
def saver : State := withWords { (atLevel .supervisor base) with h := { (atLevel .supervisor base).h with ctxa := win 0, held := 0 } }
  [(0, 0x0203), (16, 8 * ctxWords [])]

/-- CTXSAVE at the window's start. -/
theorem witness_ContextResults_save : Canonical saver ∧ saver.h.lvl ≠ .user ∧ saver.gangOf saver.h.id = none ∧ saver.h.resume = [] ∧
    NoWaiters saver ∧ Scratch saver saver.h.ctxa (8 * ctxWords saver.drain.holding) (scratchKey 0 0) := by
  unfold Canonical NoWaiters Scratch ScratchOf
  decide +kernel

/-- CTXLOAD of that image. -/
theorem witness_ContextResults_load : Scratch saver saver.h.ctxa (8 * ctxWords (imageWants imageWords)) (scratchKey 0 0) ∧
    saver.drain.ctxBad imageWords = false ∧ imageWords.extractLsb' 256 64 = 0 ∧ saver.h.slot = .run ∧
    (saver.drain.giveUpAll.acquire (imageWants imageWords)).1 = true := by
  unfold Scratch ScratchOf
  decide +kernel

/-- A CTXLOAD that waited and is granted. -/
theorem witness_ContextResults_grant :
    let u := waiting saver (.ctxload imageWords)
    u.h.slot = .wait (.ctxload imageWords) 0 ∧ u.h.held = 0 ∧ (u.acquire (imageWants imageWords)).1 = true ∧ Canonical u ∧
      Scratch u u.h.ctxa (8 * ctxWords (imageWants imageWords)) (scratchKey 0 0) := by
  unfold Canonical Scratch ScratchOf
  decide +kernel

/-- Above the keys listed only the value that is not listed is read. -/
theorem get_above {α : Type} [DecidableEq α] {d : α} {m : List (Nat × α)} {b : Nat} (h : ∀ p ∈ m, p.1 < b) : SMap.get d m b = d := by
  induction m with
  | nil => rfl
  | cons p m ih =>
    have h1 : p.1 < b := h p (by simp)
    rw [SMap.get, if_neg (by omega), if_neg (by omega)]
    exact ih fun q hq => h q (by simp [hq])

/-- A number in two parts of memory. -/
theorem leNat_add (s : State) (key a n : Nat) : leNat s key (a + n) = leNat s key a + 256 ^ a * leNat s (key + a) n := by
  unfold leNat
  rw [List.range_add, List.map_append, List.sum_append, List.map_map, ← List.sum_map_mul_left]
  congr 2
  apply List.map_congr_left
  intro j _
  simp only [Function.comp_apply, pow_add, Nat.add_assoc]
  ring

/-- The memory of that hart holds the image. -/
theorem witness_ContextResults_image : imageAt saver (scratchKey 0 0) = imageWords := by
  have hz : leNat saver (scratchKey 0 0 + 24) 40936 = 0 := by
    have hall : ∀ p ∈ saver.mem, p.1 < scratchKey 0 0 + 24 := by decide +kernel
    unfold leNat
    apply List.sum_eq_zero
    intro x hx
    obtain ⟨j, -, rfl⟩ := List.mem_map.mp hx
    have : Memory.byte saver.mem (scratchKey 0 0 + 24 + j) = 0 := get_above fun p hp => by have := hall p hp; omega
    rw [this]
    exact Nat.zero_mul _
  have h24 : leNat saver (scratchKey 0 0) 24 = 0x0203 + 8 * ctxWords [] * 2 ^ 128 := by decide +kernel
  have := leNat_add saver (scratchKey 0 0) 24 40936
  rw [hz, h24, Nat.mul_zero] at this
  exact congrArg (BitVec.ofNat 327680) this

/-- WFI with each first reason and with none; a departure that has come; a QPUSH over the straits. -/
theorem witness_WaitsEnd :
    let e := base.setCore 0 { Core.reset with events := [⟨0, 0⟩] }
    let p : State := { base with h := { base.h with preq := true, estatus := 0x40000 } }
    let o := { (waiting base (.wfi 6)) with clk := 5, h := { (waiting base (.wfi 6)).h with wtmo := 5 } }
    (e.core e.myCore).events ≠ [] ∧ (p.h.preq = true ∧ p.h.estatus.getLsbD 18 = true) ∧ o.timedOut = true ∧ base.timedOut = false ∧
    o.h.slot = .wait (.wfi 6) 0 ∧
    (waiting base (.bar 6 0 4 1 false false (some (7, 0)))).h.slot = .wait (.bar 6 0 4 1 false false (some (7, 0))) 0 ∧
    (waiting base (.qpush 6)).h.slot = .wait (.qpush 6) 0 := by decide +kernel

/-- Whether an aligned word is reached for a BAR or WAITA. -/
def wordReached (s : State) (va : Word) (w : Bool) : Bool := match s.wordAt va w with | .error _ => false | .ok p => !s.failing p.key 8

theorem wordReached_of {s : State} {va : Word} {w : Bool} (h : wordReached s va w = true) :
    ∃ p, s.wordAt va w = .ok p ∧ s.failing p.key 8 = false := by
  unfold wordReached at h
  split at h
  · exact absurd h (by simp)
  · rename_i p hp
    exact ⟨p, hp, by simpa using h⟩

/-- A BAR on a word of the scratchpad that completes with the arrival (C = 1), and one that waits (C = 2); C = 0. -/
theorem witness_BarArrival :
    let s := withG base [(4, win 0), (5, 1), (6, 2)]
    Memory.wf s.mem = true ∧ s.h.resume = [] ∧ s.h.slot = .run ∧ s.getG 0 = 0 ∧ (s.getG 5).toNat ≠ 0 ∧ (s.getG 6).toNat < 2 ^ 32 ∧
    (∃ p, s.wordAt (win 0) true = .ok p ∧ Reaching s .atomic false (win 0) 8 p ∧ leNat s p.key 8 = 0) ∧
    (0 + 1) % 2 ^ 64 % 1 = 0 ∧ (0 + 1) % 2 ^ 64 % 2 ≠ 0 ∧ s.others.any (fun h => h.awaitsBar (scratchKey 0 0) 1 && !s.hasHit h.id) = false ∧
    (let w : Hart := { Hart.reset 1 with slot := .wait (.bar 6 (scratchKey 0 0) 4 1 false false none) 0 }
     let t : State := { s with others := [w] }
     w.awaitsBar (scratchKey 0 0) 1 = true ∧ t.hasHit w.id = false) := by
  refine ⟨by decide +kernel, by decide +kernel, by decide +kernel, by decide +kernel, by decide +kernel, by decide +kernel, ?_, by decide, by decide,
    by decide +kernel, by decide +kernel⟩
  refine ⟨⟨scratchKey 0 0, 0, false, false, none⟩, ?_, ?_, ?_⟩
  · decide +kernel
  · unfold Reaching; decide +kernel
  · decide +kernel

/-- WAITA whose condition holds and one whose condition does not, before and after its time; CHWAIT on a record that is done and one
that is not, on an ID that counts as complete and one that does not; an ID not
issued, a channel, an ID and a zero ID that are illegal, and an unaligned record. -/
theorem witness_MemoryWaitsReturn :
    let s := withG base [(4, win 0), (5, 1), (6, 1), (7, win 32)]
    let d := withWords s [(24, 0x8000000000000000)]
    let c := s.setCore 0 { Core.reset with chans := Core.reset.chans.set 1 { Core.reset.chans[1] with counter := 1, chst := 1 } }
    let i := s.setCore 0 { Core.reset with chans := Core.reset.chans.set 1 { Core.reset.chans[1] with counter := 1 } }
    (∃ p, s.wordAt (win 0) false = .ok p ∧ s.failing p.key 8 = false ∧ leNat s p.key 8 = 0) ∧
    s.timedOut = false ∧
    (Scratch d (win 0) 32 (scratchKey 0 0) ∧ (BitVec.ofNat 64 (leNat d (scratchKey 0 0 + 24) 8)).getLsbD 63 = true) ∧
    (Scratch s (win 32) 32 (scratchKey 0 32) ∧ (BitVec.ofNat 64 (leNat s (scratchKey 0 32 + 24) 8)).getLsbD 63 = false) ∧
    (c.getG 5 = (1 : BitVec 3).setWidth 64 ∧ c.getG 6 = (1 : BitVec 48).setWidth 64 ∧
      (((c.core c.myCore).chans[1]).counter - 1).toNat < 2 ^ 47 ∧ (((c.core c.myCore).chans[1]).chst - 1).toNat < 2 ^ 47) ∧
    ((((i.core i.myCore).chans[1]).counter - 1).toNat < 2 ^ 47 ∧ ¬(((i.core i.myCore).chans[1]).chst - 1).toNat < 2 ^ 47) ∧
    ((1 : BitVec 48) - ((s.core s.myCore).chans[1]).counter).toNat ≠ 0 ∧
    (((withG s [(5, 8)]).getG 5).extractLsb' 3 61 ≠ 0 ∧ ((withG s [(6, 0x1000000000001)]).getG 6).extractLsb' 48 16 ≠ 0 ∧
      (s.getG 0).extractLsb' 0 48 = 0 ∧ (win 1).toNat % 8 ≠ 0) ∧
    (waiting s (.waita 3 (win 0) 1 0)).h.slot = .wait (.waita 3 (win 0) 1 0) 0 ∧
    (waiting s (.chwaitRec 3 (win 0))).h.slot = .wait (.chwaitRec 3 (win 0)) 0 ∧
    (waiting s (.chwaitId 3 1 1)).h.slot = .wait (.chwaitId 3 1 1) 0 ∧
    ({ waiting s (.waita 3 (win 0) 1 0) with clk := 9, h := { (waiting s (.waita 3 (win 0) 1 0)).h with wtmo := 9 } } : State).timedOut = true := by
  refine ⟨⟨⟨scratchKey 0 0, 0, false, false, none⟩, ?_, ?_, ?_⟩, ?_⟩
  · decide +kernel
  · decide +kernel
  · decide +kernel
  · unfold Scratch ScratchOf; decide +kernel

/-- A WAITA that waits, on a word that it watches: nothing seen yet, and a value seen. -/
theorem witness_MemoryWaitsReturn_watch :
    let s (hit : Option (BitVec 64 × BitVec 48 × Nat)) : State :=
      { waiting base (.waita 3 (win 0) 1 0) with watches := [⟨0, scratchKey 0 0, .meets 1 0, hit⟩] }
    ∀ hit ∈ [none, some (7, 0, 3)], (s hit).h.slot = .wait (.waita 3 (win 0) 1 0) 0 ∧
      (∀ x ∈ (s hit).watches, x.hart = (s hit).h.id → x.key = scratchKey 0 0) ∧
      (((s hit).watches.find? fun x => x.hart == (s hit).h.id).bind (·.hit)) = hit ∧ Memory.wf (s hit).mem = true ∧
      ∃ x ∈ (s hit).watches, x.hit = hit := by
  decide +kernel

/-- A word watched for a condition and one watched for a barrier's target, neither of which has been met. -/
theorem witness_MemoryWaitsReturn_seen : ∀ u ∈ [Until.meets 2 5, .reaches 5],
    let s : State := { base with watches := [⟨0, scratchKey 0 0, u, none⟩] }
    Memory.wf s.mem = true ∧ (⟨0, scratchKey 0 0, u, none⟩ : Watch) ∈ s.watches := by
  decide +kernel

/-- A queue of two entries at the window's start with its entries above it: empty, with one entry, full, and a record that R320 does
not allow (LOG2N 0 and a base that is not aligned). -/
theorem witness_QueueResults :
    let s := withG base [(4, win 0), (5, 7)]
    let rec_ (hd tl : Nat) : State := withWords s [(0, hd), (8, tl), (16, 0x000FFFFE00000040), (24, 1)]
    let q (s : State) : QueueRec := ⟨BitVec.ofNat 64 (leNat s (scratchKey 0 0) 8), BitVec.ofNat 64 (leNat s (scratchKey 0 8) 8),
      BitVec.ofNat 64 (leNat s (scratchKey 0 16) 8), BitVec.ofNat 64 (leNat s (scratchKey 0 24) 8)⟩
    (∀ p ∈ [(0, 0), (0, 1), (0, 2)], Memory.wf (rec_ p.1 p.2).mem = true ∧ Scratch (rec_ p.1 p.2) (win 0) 32 (scratchKey 0 0) ∧
      (q (rec_ p.1 p.2)).bad = false ∧ (q (rec_ p.1 p.2)).ctl.getLsbD 44 = false) ∧
    ((q (rec_ 0 1)).tail - (q (rec_ 0 1)).head).toNat < 2 ^ ((q (rec_ 0 1)).ctl.extractLsb' 0 5).toNat ∧
    (q (rec_ 0 1)).head ≠ (q (rec_ 0 1)).tail ∧ (q (rec_ 0 0)).head = (q (rec_ 0 0)).tail ∧
    2 ^ ((q (rec_ 0 2)).ctl.extractLsb' 0 5).toNat ≤ ((q (rec_ 0 2)).tail - (q (rec_ 0 2)).head).toNat ∧
    Scratch (rec_ 0 1) (win 0x60) 32 (scratchKey 0 0x60) ∧ Scratch (rec_ 0 1) (win 0x40) 32 (scratchKey 0 0x40) ∧
    (win 0).toNat % 32 = 0 ∧ ((withG s [(4, win 8)]).getG 4).toNat % 32 ≠ 0 ∧ s.poppers = [] ∧ (q s).bad = true ∧
    (waiting s (.qpop 6 (win 0))).h.slot = .wait (.qpop 6 (win 0)) 0 := by
  unfold Scratch ScratchOf
  decide +kernel

/-- CPTAG 0, and CPTAG of a record in the ring of island 0 (128 records at the start of its SRAM). -/
theorem witness_CriticalPathResults :
    let s := withG base [(4, win 0)]
    let r : State := { s.poke (sramKey 0 0) 32 (1 + 5 * 2 ^ 128) with h := { s.h with cptag := 1 } }
    let u := r.setIsland 0 { r.island 0 with cplog := 1 }
    s.h.resume = [] ∧ (win 0).toNat % 8 = 0 ∧ (win 1).toNat % 8 ≠ 0 ∧ s.h.cptag = 0 ∧
    (u.h.resume = [] ∧ Memory.wf u.mem = true ∧ u.h.cptag ≠ 0 ∧ u.inAtoll u.myIsland (u.h.cptag.extractLsb' 61 3).toNat = true ∧
      u.findRecord false u.h.cptag = some (1 + 5 * 2 ^ 128) ∧ 1 + 5 * 2 ^ 128 < 2 ^ 256 ∧ (1 + 5 * 2 ^ 128) / 2 ^ 64 % 2 ^ 64 = 0 ∧
      Scratch u (win 0) 32 (scratchKey 0 0) ∧ u.recordKey false u.h.cptag = some (sramKey 0 0) ∧ u.failing (sramKey 0 0) 32 = false) ∧
    (atLevel .supervisor s).h.lvl ≠ .user := by
  unfold Scratch ScratchOf
  decide +kernel

/-- A block and an accumulator held, free, and taken by another slot; a waiter that is served. -/
theorem witness_ResidencyResults :
    let s : State := { base with h := { base.h with held := 1 } }
    let z := s.setCore 0 { Core.reset with z := Core.reset.z.set 3 { Core.reset.z[3] with holder := some 0 } }
    let y := s.setCore 0 { Core.reset with z := Core.reset.z.set 3 { Core.reset.z[3] with holder := some 1 } }
    let w := (waiting s (.vacq 6 false 3)).setCore 0 { Core.reset with vacqV := [0] }
    Canonical s ∧ Canonical z ∧ s.holds (.block 1) = true ∧ s.holds (.block 3) = false ∧ 0 < s.freeBlocks s.myCore ∧
    s.waiters s.myCore (.block 3) = [] ∧ z.holds (.tile 3) = true ∧ y.holds (.tile 3) = false ∧ (y.accum 3).holder ≠ none ∧
    (s.accum 3).holder = none ∧ NoWaiters z ∧ s.blockBound 1 = false ∧
    (w.h.slot = .wait (.vacq 6 false 3) 0 ∧ Canonical w ∧ w.waiters w.myCore (.block 3) = [slotOf w.h.id] ∧ 0 < w.freeBlocks w.myCore) := by
  unfold Canonical NoWaiters
  decide +kernel

/-- Whether a loop table can be read, has only T levels, and a slot is free. -/
def launchable (s : State) (va : Word) : Bool :=
  match s.readTable s.who va with
  | .error _ => false
  | .ok (tb, _) => tb.levels.all (fun l => decide (l.kind = .t)) && (s.pickSlot s.myIsland).isSome

theorem launchable_of {s : State} {va : Word} (h : launchable s va = true) :
    ∃ tb u id, s.readTable s.who va = .ok (tb, u) ∧ (∀ l ∈ tb.levels, l.kind = .t) ∧ s.pickSlot s.myIsland = some id := by
  unfold launchable at h
  split at h
  · exact absurd h (by simp)
  · rename_i tb u hr
    simp only [Bool.and_eq_true, List.all_eq_true, decide_eq_true_eq, Option.isSome_iff_exists] at h
    exact ⟨tb, u, h.2.choose, hr, h.1, h.2.choose_spec⟩

/-- A loop table of one T level with 2 iterations, at the window's start: entry 0x1000, argument 5. -/
def table (s : State) : State := withWords s [(0, 0x1000), (8, 5), (16, 2), (24, 0x10500000001)]

/-- A table that is valid, one that is not (no level is last), one that is not aligned. -/
theorem witness_LaunchResults :
    let s := withG (table base) [(5, win 0), (6, win 8), (7, win 64)]
    Canonical s ∧ (s.getG 6).toNat % 16 ≠ 0 ∧ s.launches = [] ∧ s.h.slot = .run ∧
    s.readTable s.who (s.getG 7) = .error ⟨0x02, s.getG 7⟩ ∧
    ∃ tb u id, s.readTable s.who (s.getG 5) = .ok (tb, u) ∧ (∀ l ∈ tb.levels, l.kind = .t) ∧ s.pickSlot s.myIsland = some id := by
  intro s
  refine ⟨by unfold Canonical; decide +kernel, by decide +kernel, by decide +kernel, by decide +kernel, by decide +kernel, launchable_of (by decide +kernel)⟩

/-- A launch whose next iteration there is, and one at its last; no loop; the levels above user. -/
theorem witness_ExitAndYield :
    let l : LoopLevel := ⟨.t, 2, 0, 1, 1⟩
    let p (c : Nat) : LoopPos := ⟨0, 1, 0x1000, 5, [l], [c]⟩
    let s (c : Nat) : State := { base with h := { base.h with loop := some (p c) } }
    (∀ c ∈ [0, 1], (s c).h.lvl = .user ∧ InNoGang (s c) ∧ (s c).h.loop = some (p c) ∧ NoWaiters (s c) ∧
      (s c).h.streams = Vector.replicate 4 none ∧ (s c).launches = []) ∧
    nextCounts (p 0).levels (p 0).counts = some [1] ∧ nextCounts (p 1).levels (p 1).counts = none ∧
    base.h.loop = none ∧ (atLevel .supervisor base).h.lvl ≠ .user := by
  unfold NoWaiters InNoGang
  decide +kernel

/-- A shape record of a read stream of two elements of 32 bits from window offset 256, BREG v8, no end record. -/
def shapeWords (o : Nat) : List (Nat × Nat) := [(o, 0x000FFFFE00000100), (o + 8, 2), (o + 16, 0x400000002 + 0x20000), (o + 48, 0x402)]

/-- The record as words. -/
def shapeAt (s : State) (o : Nat) : Shape := Vector.ofFn fun i => BitVec.ofNat 64 (leNat s (scratchKey 0 (o + 8 * i.val)) 8)

/-- The stream of that record. -/
def stream (s : State) : Stream := ⟨win 0, shapeAt s 0, 0, 0, 0, 0, [], 0⟩

/-- A record that R239 allows, one that it does not, with a stream number free and with none; a bound stream, with and without an end
record. -/
theorem witness_StreamBindings :
    let s := withG (withWords base (shapeWords 0 ++ [(64 + 56, 1)])) [(4, win 0), (5, win 64), (6, 4), (7, win 1)]
    let q := stream s
    let b : State := { s with h := { s.h with streams := s.h.streams.set 0 (some q) } }
    let e : State := { s with h := { s.h with streams := s.h.streams.set 0 (some { q with shape := q.shape.set 6 0x4402 }) } }
    (Scratch s (win 0) 64 (scratchKey 0 0) ∧ (shapeAt s 0).bad s.h.grp = false ∧ (shapeAt s 0)[6].getLsbD 6 = false ∧
      s.gangOf s.h.id = none ∧ s.boundStreams = [] ∧ s.h.notHeld [(bregOf (shapeAt s 0), s.h.grp)] = none ∧ s.h.streams[0] = none) ∧
    (Scratch s (win 64) 64 (scratchKey 0 64) ∧ (shapeAt s 64).bad s.h.grp = true) ∧ (win 1).toNat % 8 ≠ 0 ∧
    (b.gangOf b.h.id = none ∧ (b.getG 0).toNat ≤ 3 ∧ b.h.streams[0] = some q ∧ q.shape[6].getLsbD 14 = false) ∧
    (Canonical e ∧ (e.h.streams[0].map fun q => q.shape[6].getLsbD 14) = some true ∧ ((e.core 0).events).length < 64) ∧
    3 < (s.getG 6).toNat := by
  unfold Canonical Scratch ScratchOf
  decide +kernel

/-- Four streams bound: none is free. -/
theorem witness_StreamBindings_full : ∀ n : BitVec 2,
    ({ base with h := { base.h with streams := Vector.replicate 4 (some (stream base)) } } : State).h.streams[n.toNat]'n.isLt ≠ none := by
  decide +kernel

/-- Whether every position below LEN is in bounds and reads the value given, leaving the state. -/
def readsAll (s : State) (q : Stream) (x : Nat → Nat) : Bool :=
  (List.range q.shape.len).all fun e => !q.shape.oob e &&
    decide (s.readPos (s.streamWho q) q.shape (s.h.fillAt (8 * q.shape.bytes)) e = .ok (x e, s))

/-- A hart whose one stream has delivered nothing yet, with LEN 2 below SPAN. -/
theorem witness_StreamStrips :
    let s := withWords base (shapeWords 0 ++ [(256, 0x2222222211111111)])
    let q := stream s
    let b : State := { s with h := { s.h with streams := s.h.streams.set 0 (some q) } }
    let x (e : Nat) : Nat := if e = 0 then 0x11111111 else 0x22222222
    b.gangOf b.h.id = none ∧ (∀ r < 32, b.h.isFull r = true) ∧ b.h.full[32]? = none ∧ (∀ c, (b.cluster c).freeze ≠ .frozen) ∧
    b.h.streams[0] = some q ∧ q.pos = 0 ∧ q.buf = [] ∧ q.shape.writes = false ∧ q.shape.ewc = fld b.h.vtype 0 2 ∧ q.shape.len = 2 ∧
    Regs.aligned (bregOf q.shape, b.h.grp) = true ∧ b.h.notHeld [(bregOf q.shape, b.h.grp)] = none ∧ readsAll b q x = true ∧
    spanOf b.sampleGrant b.h.vtype ≤ 4096 / (b.h.ew / 8) * b.h.grp := by
  decide +kernel

/-- A gang of one whose stream's strip 0 is not fetched. -/
theorem witness_GangStreamFetch :
    let s := withWords base (shapeWords 0)
    let q : GangStream := ⟨0, 0, stream s, [(0, 0)], []⟩
    let g : Gang := ⟨1, 2, [0], some 1, 1, [q]⟩
    let u := s.setCluster 0 { Cluster.reset with gangs := [g] }
    Canonical u ∧ (u.cluster u.myCluster).gangs = [g] ∧ g.streams = [q] ∧ q.owner = u.h.id ∧ q.fetched = [] ∧ q.slowest = 0 ∧
    u.readRun (u.gangWho q) q.stream.shape (u.h.fillAt (8 * q.stream.shape.bytes)) [] 0 u.h.span = .ok ([0, 0], u) := by
  unfold Canonical
  decide +kernel

/-- A mask of the own core alone, one with another core, one without the own core, a VTYPE that is not legal; gangs that form and that
are left. -/
theorem witness_GangResults :
    let s := withG base [(4, 1), (5, 3), (6, 2), (7, 4)]
    let w := (waiting s (.gang 6 1 2)).setCluster 0 { Cluster.reset with gangs := [⟨1, 2, [0], none, 0, []⟩] }
    let f := s.setCluster 0 { Cluster.reset with gangs := [⟨1, 2, [0], some 1, 1, []⟩] }
    Canonical s ∧ legalVtype (s.getG 6) = true ∧ legalVtype (s.getG 7) = false ∧ (s.cluster s.myCluster).gangs = [] ∧
    s.laneGrant s.myCore ≤ 128 ∧ (s.getG 4).toNat = 2 ^ 0 ∧ ((s.getG 5).extractLsb' 16 48 = 0 ∧ (s.getG 5).getLsbD 0 = true ∧
      (s.getG 5).getLsbD 1 = true) ∧ (s.getG 6).getLsbD 0 = false ∧
    (Canonical w ∧ w.h.slot = .wait (.gang 6 (BitVec.ofNat 16 (2 ^ 0)) 2) 0 ∧ (w.cluster w.myCluster).gangs = [⟨BitVec.ofNat 16 (2 ^ 0), 2, [w.h.id], none, 0, []⟩]) ∧
    (Canonical f ∧ (f.cluster f.myCluster).gangs = [⟨1, 2, [f.h.id], some 1, 1, []⟩]) := by
  unfold Canonical
  decide +kernel

/-- A copy record at window offset 0: 16 bytes from offset 64 to offset 128 on channel 1. -/
def copyWords : List (Nat × Nat) := [(0, 0x000FFFFE00000040), (8, 0x000FFFFE00000080), (16, 16), (24, 1), (64, 0x1122334455667788)]

/-- Its transfer. -/
def transfer (o : Option (BitVec 7 × BitVec 64)) : Transfer := ⟨1, win 0, win 64, win 128, 16, 1, none, 0, .user, 0, 0, 0, o⟩

/-- A record that R247 allows with room on its channel and with none; a record that it does not; a COPY that waited; an event queue with
a record and without. -/
theorem witness_CopyIssuesAndEvents :
    let s := withG (withWords base (copyWords ++ [(32 + 24, 8)])) [(4, win 0), (5, win 32), (6, win 1)]
    let full := s.setCore 0 { Core.reset with chans := Core.reset.chans.set 1 { Core.reset.chans[1] with queue := List.replicate 16 (transfer none) } }
    let w := waiting s (.copy 6 { transfer none with id := 0 })
    let e := base.setCore 0 { Core.reset with events := [⟨1, 2⟩] }
    (Canonical s ∧ Scratch s (win 0) 32 (scratchKey 0 0) ∧ (recordAt s (win 0) (scratchKey 0 0)).bad = false ∧
      (recordAt s (win 0) (scratchKey 0 0)).ctl.getLsbD 10 = false ∧ (recordAt s (win 0) (scratchKey 0 0)).ch = 1 ∧
      (((s.core s.myCore).chans[1]).queue).length < 16 ∧ s.h.slot = .run) ∧
    (Canonical full ∧ 16 ≤ (((full.core full.myCore).chans[1]).queue).length ∧ Scratch full (win 0) 32 (scratchKey 0 0)) ∧
    (Scratch s (win 32) 32 (scratchKey 0 32) ∧ (recordAt s (win 32) (scratchKey 0 32)).bad = true) ∧ (win 1).toNat % 8 ≠ 0 ∧
    (w.h.slot = .wait (.copy 6 { transfer none with id := 0 }) 0 ∧ (transfer none).record = win 0 ∧ (transfer none).ctl.toNat < 2 ^ 56 ∧
      (transfer none).hart = w.h.id ∧ (transfer none).lvl = w.h.lvl ∧ (transfer none).ptbr = w.h.ptbr ∧ (transfer none).fillv = w.h.fillv ∧
      (transfer none).tag = w.h.cptag) ∧
    (Canonical e ∧ (6 : BitVec 5).getLsbD 0 = false ∧ (e.core e.myCore).events = [⟨1, 2⟩] ∧ (base.core base.myCore).events = []) := by
  unfold Canonical Scratch ScratchOf
  decide +kernel

/-- The transfer at the head of its channel, before and after its data have moved, with and without an event record. -/
theorem witness_CopyMovesAndCompletes :
    let s (t : Transfer) : State := (withWords base copyWords).setCore 0
      { Core.reset with chans := Core.reset.chans.set 1 { Core.reset.chans[1] with counter := 1, queue := [t] } }
    (∀ t ∈ [transfer none, transfer (some (0, 0)), { transfer (some (0, 0)) with ctl := 0x801 }], Canonical (s t) ∧
      ((s t).core (s t).myCore).chans[1].queue = [t] ∧ t.ch = 1 ∧ coreOf t.hart = (s t).myCore ∧ t.shape = none ∧ t.ctl.getLsbD 9 = false ∧
      t.ctl.getLsbD 44 = false ∧ ((s t).core (s t).myCore).events.length < 64 ∧ Scratch (s t) t.record 32 (scratchKey 0 0) ∧
      Scratch (s t) t.src 16 (scratchKey 0 64) ∧ Scratch (s t) t.dst 16 (scratchKey 0 128) ∧ (t.len.extractLsb' 0 40).toNat = 16) ∧
    scratchKey 0 64 + 16 ≤ scratchKey 0 128 := by
  unfold Canonical Scratch ScratchOf
  decide +kernel

/-- Whether the next beat of a queue head waits for a reply (R285, R286). -/
def beatWaits (s : State) (q : Queued) : Bool :=
  q.dst.any fun r => (s.h.emptyIn [r]).isSome && decide (s.h.bytesReady r.1 r.2 / groupBytes s ≤ q.done)

/-- What is asked for a queue head to be bound, and the mode of its partition (R285, R286). -/
def bindable (s : State) (mode : Nat) : Bool :=
  !s.gated s.h.id && !(s.island s.myIsland).trctl.getLsbD 0 && (s.core s.myCore).bound.isEmpty &&
    (s.core s.myCore).credited.isEmpty && ((s.core s.myCore).lpart.extractLsb' 0 2).toNat == mode

/-- A queue entry of three units, and a hart of WSHARE 1 with `n` of them. -/
def entry (p : Pipe) : Queued := ⟨0, p, 3, 0, 0, false, none, 0, []⟩
def queueing (p : Pipe) (n : Nat) : State := { base with h := { base.h with wshare := 1, vq := List.replicate n (entry p) } }

/-- The same in a partition of its own. -/
def inOwn (s : State) : State := s.setCore 0 { Core.reset with lpart := 2 }

/-- Queued entries of a lane pipe and of the tile pipe in a shared partition and in one of its own, with room and without; a head of
WSHARE 0, one whose credit a visit does not restore, and one whose next element group waits for a reply. -/
theorem witness_UnitsAndArrivals :
    let y : Queued := { entry .memory with begun := true, dst := [(31, 1)] }
    let w : State := inOwn { base with h := { base.h with vq := [y], full := base.h.full.set 31 (.empty ⟨0, 4, 512, 0, .pipe, 0⟩) } }
    let z : State := inOwn { base with h := { base.h with wshare := 0, vq := [entry .lanes] } }
    let o (c : Int) : State := inOwn { queueing .lanes 16 with h := { (queueing .lanes 16).h with credit := c } }
    (∀ u ∈ [queueing .lanes 1, o 0, o (-70), w, z], Canonical u) ∧
    (bindable (queueing .lanes 1) 0 = true ∧ (queueing .lanes 1).h.vq = [entry .lanes] ∧
      ((queueing .lanes 1).core (queueing .lanes 1).myCore).visit = slotOf (queueing .lanes 1).h.id ∧ 0 < (queueing .lanes 1).h.credit + 64 * 1) ∧
    ((∀ c ∈ [(0 : Int), -70], bindable (o c) 2 = true ∧ (o c).h.vq = entry .lanes :: List.replicate 15 (entry .lanes) ∧
      0 < (o c).h.credit + 64 + 64) ∧ (o (-70)).h.credit + 64 ≤ 0) ∧
    (bindable w 2 = true ∧ w.h.vq = [y] ∧ beatWaits w y = true) ∧
    (bindable z 2 = true ∧ z.h.vq = [entry .lanes] ∧ (z.h.wshare.extractLsb' 0 4).toNat = 0) ∧
    (∀ n ∈ [1, 16], (queueing .tile n).h.vq = entry .tile :: List.replicate (n - 1) (entry .tile) ∧
      ((queueing .tile n).core (queueing .tile n).myCore).seqNext = slotOf (queueing .tile n).h.id) := by
  unfold Canonical
  decide +kernel

/-- An empty register of the pipe with one group left and with more, a strip of four element groups, TSYNC with nothing to wait for,
with something, and after a wait that a trap ended, the governor before and after 4,096 cycles. -/
theorem witness_UnitsAndArrivals_rest :
    let r (n : Nat) : State := { base with h := { base.h with full := base.h.full.set 31 (.empty ⟨0, n, 128, 0, .pipe, 0⟩) } }
    let g (at_ : Option Nat) : State := { base.setCore 5 { Core.reset with capAt := at_ } with clk := 4096 }
    let c : State := { base with h := { base.h with grant := 64, span := spanOf 64 2 } }
    let m : State := { base with h := { base.h with resume := [⟨base.h.pc, 0, 0, true, none, false, none, 0⟩] } }
    (∀ n ∈ [1, 4], (r n).h.full[31] = .empty ⟨0, n, 128, 0, .pipe, 0⟩ ∧ ((r n).cluster (r n).myCluster).freeze = .running ∧
      ∀ part, (waiting (r n) (.reg 31 true part false)).h.slot = .wait (.reg 31 true part false) 0) ∧
    (c.h.grant = BitVec.ofNat 64 (16 * 4) ∧ legalVtype c.h.vtype = true ∧ c.h.span = spanOf c.h.grant.toNat c.h.vtype ∧ c.h.span < 8192 ∧
      c.h.grp = 1) ∧
    (base.h.vq = [] ∧ NoLog base ∧ base.h.slot = .run ∧ base.h.resume = []) ∧ (waiting base .tsync).h.slot = .wait .tsync 0 ∧
    ((queueing .tile 1).h.vq.any fun q => q.pipe == .tile || q.pipe == .xexp) = true ∧
    (∃ x ∈ m.h.resume, x.pc = m.h.pc ∧ x.own = true) ∧ m.h.slot = .run ∧
    ((g none).core 5).capAt = none ∧ (((g (some 0)).core 5).capAt = some 0 ∧ 0 + 4096 ≤ (g (some 0)).clk) ∧
    (((g (some 1)).core 5).capAt = some 1 ∧ (g (some 1)).clk < 1 + 4096) := by
  unfold NoLog
  decide +kernel

/-- A request that lands between instructions, in a BAR that waits, and that PM holds; WTMO expired in each of the three waits, and not
expired. -/
theorem witness_PreemptionAndTimeouts :
    let p : State := { base with h := { base.h with preq := true } }
    let b : State := { waiting p (.bar 6 (scratchKey 0 0) 4 1 false false none) with others := [] }
    let m : State := { base with h := { base.h with preq := true, estatus := 0x40000 } }
    let t (w : Wait) : State := { waiting base w with clk := 7, h := { (waiting base w).h with wtmo := 7 } }
    let z : State := { t (.vacq 6 false 1) with others := [{ Hart.reset 1 with slot := .run, held := 7 }, { Hart.reset 2 with slot := .run, held := 7 },
      { Hart.reset 3 with slot := .run, held := 7 }] }
    (p.gated p.h.id = false ∧ p.h.vq = [] ∧ p.h.resume = [] ∧ p.h.slot = .run ∧ p.h.preq = true ∧ p.h.estatus.getLsbD 18 = false ∧
      p.badMem = [] ∧ p.h.bad = [] ∧ p.h.mcheck = none ∧ p.h.watch = none ∧ p.h.branch = none ∧ p.h.advisory = none ∧ p.h.loop = none) ∧
    (b.h.slot = .wait (.bar 6 (scratchKey 0 0) 4 1 false false none) 0 ∧ b.h.slot ≠ .free ∧ b.h.mcheck = none ∧
      (∀ w ∈ b.watches, w.hart = b.h.id → w.hit = none) ∧
      2 ^ 63 ≤ (BitVec.ofNat 64 (Memory.read b.mem (scratchKey 0 0) 8) - 1).toNat) ∧
    m.h.estatus.getLsbD 18 = true ∧ base.h.preq = false ∧ base.timedOut = false ∧
    ((t (.chwaitId 6 1 1)).timedOut = true ∧ (t (.chwaitId 6 1 1)).h.slot = .wait (.chwaitId 6 1 1) 0 ∧
      2 ^ 47 ≤ ((((t (.chwaitId 6 1 1)).core (t (.chwaitId 6 1 1)).myCore).chans[1]).chst - 1).toNat) ∧
    (z.timedOut = true ∧ z.h.slot = .wait (.vacq 6 false 1) 0 ∧ z.freeBlocks z.myCore = 0) ∧
    ((t (.wfi 6)).timedOut = true ∧ (t (.wfi 6)).h.slot = .wait (.wfi 6) 0 ∧ ((t (.wfi 6)).core (t (.wfi 6)).myCore).events = [] ∧
      (t (.wfi 6)).h.preq = false) := by
  decide +kernel

/-- A cluster that stops in which nothing is in execution, one whose hart has an entry that has had its effect and one whose hart has
begun a vector instruction that it waits to go on with, one that does not stop, no dump, and dumps into the window of core 0 without a record and with
one. -/
theorem witness_FreezeAndDump :
    let s := (base.setCluster 0 { Cluster.reset with freeze := .stopping }).setCluster 1 { Cluster.reset with freeze := .stopping }
    let d (rs : List (List Word)) : State := { base with dump := some ⟨1, 0, .firmware, 0, win 0, 80, 5, rs⟩ }
    let b₁ : State := { s with h := { s.h with vq := [entry .lanes] } }
    let b₂ : State := { waiting s (.reg 31 true true false) with
      h := { (waiting s (.reg 31 true true false)).h with resume := [⟨s.h.pc, 1, 0, false, some .lanes, false, none, 0⟩] } }
    ((s.cluster s.myCluster).freeze = .stopping ∧ s.others = [] ∧ s.h.slot ≠ .free ∧ s.h.vq = [] ∧ s.h.resume = []) ∧
    ((b₁.cluster b₁.myCluster).freeze = .stopping ∧ b₁.h.slot ≠ .free ∧ ∃ q ∈ b₁.h.vq, q.todo = none) ∧
    ((b₂.cluster b₂.myCluster).freeze = .stopping ∧ b₂.h.slot = .wait (.reg 31 true true false) 0 ∧ b₂.h.yielding = [] ∧
      ∃ r ∈ b₂.h.resume, r.begun ≠ none ∨ (r.member = true ∧ r.at_ ≠ 0)) ∧
    (base.cluster 0).freeze ≠ .stopping ∧ base.dump = none ∧
    (∀ rs ∈ [[], [[1, 2]]], Memory.wf (d rs).mem = true ∧ (d rs).dump = some ⟨1, 0, .firmware, 0, win 0, 80, 5, rs⟩) ∧ 64 + 8 * 2 ≤ 80 ∧
    ScratchOf (d []) (coreOf 0) (win 0) 80 (scratchKey 0 0) ∧ ScratchOf (d []) (coreOf 0) (win 0) 64 (scratchKey 0 0) := by
  unfold ScratchOf
  decide +kernel

/-- A launch with one hart to place on island 0; the same with none left and none alive; one with a hart alive. -/
def launchOf (pending : List (BitVec 3 × Nat × Nat)) (live : Nat) : Launch :=
  ⟨1, 0, win 0, 0x1000, 5, [⟨.t, 2, 0, 1, 1⟩], 0, 0, 0, 0, 0, pending, 0, 1, live, none⟩

theorem witness_LaunchEvents :
    let s (l : Launch) : State := { base with launches := [l] }
    (Canonical (s (launchOf [(0, 0, 1)] 0)) ∧ (s (launchOf [(0, 0, 1)] 0)).h.slot ≠ .free ∧ gangSize (launchOf [(0, 0, 1)] 0).levels ≤ 1 ∧
      ((s (launchOf [(0, 0, 1)] 0)).pickSlot 0).isSome = true) ∧
    ((launchOf [] 0).live = 0 ∧ (launchOf [] 0).pending = [] ∧ (launchOf [] 0).request = none ∧
      ((s (launchOf [] 0)).core (coreOf (launchOf [] 0).hart)).events.length < 64) ∧
    (launchOf [] 1).live ≠ 0 ∧ (launchOf [(0, 0, 1)] 0).pending ≠ [] := by
  unfold Canonical
  decide +kernel

/-- A dispatcher whose queue holds one request: header at window offset 0, entries at 64, done word at 512, table at 256. -/
def dispatcher : State :=
  let s := withWords base [(0, 1), (64, 0x000FFFFE00000100), (72, 1), (80, 0x000FFFFE00000200), (88, 9), (256, 0x1000), (264, 5), (272, 2),
    (280, 0x10500000001)]
  { s with tabos := { s.tabos with queues := s.tabos.queues.set 0 (some ⟨win 0, win 64, 1, 0, none⟩) } }

/-- Whether the request's done word can be cleared and its table launched. -/
def dispatchable (s : State) : Bool :=
  let u := s.tailSeen ⟨Config.dispatcherPtbr 0, .supervisor, s.myCore⟩ (win 0) none
  match ({ u with h := { u.h with ptbr := 1, abictl := (s.moduleIbt 1 (win 256)).setWidth 64 } } : State).storeAs ⟨1, .supervisor, s.myCore⟩ true (win 512) 8 0 with
  | .error _ => false
  | .ok s2 => launchable s2 (win 256) && decide (s2.myIsland = s.myIsland)

theorem witness_LaunchEvents_request :
    let s := dispatcher
    Canonical s ∧ s.atollFirst 0 = 0 ∧ s.h.id = (0 : BitVec 3) ++ (0 : BitVec 9) ∧ s.h.slot = .run ∧
    s.tabos.queues[0] = some ⟨win 0, win 64, 1, 0, none⟩ ∧ Scratch s (win 0) 16 (scratchKey 0 0) ∧
    BitVec.ofNat 64 (leNat s (scratchKey 0 0) 8) ≠ 0 ∧ Scratch s (win 64 + BitVec.ofNat 64 (32 * ((0 : Word).toNat % 2 ^ 1))) 32 (scratchKey 0 64) ∧
    BitVec.ofNat 64 (leNat s (scratchKey 0 64) 8) = win 256 ∧ BitVec.ofNat 64 (leNat s (scratchKey 0 72) 8) = 1 ∧
    BitVec.ofNat 64 (leNat s (scratchKey 0 80) 8) = win 512 ∧ (1 : Word).getLsbD 0 = true ∧ csrBad 0x407 1 = false ∧
    Scratch s (win 512) 8 (scratchKey 0 512) ∧ scratchKey 0 0 + 16 ≤ scratchKey 0 512 ∧ s.launches = [] ∧ dispatchable s = true := by
  unfold Canonical Scratch ScratchOf
  decide +kernel

/-- A fleet barrier with an arrival that is not the last; a local episode that waits; pushes that are turned away; links and ports. -/
theorem witness_StraitsAndLinks :
    let m : StraitBar := ⟨0, 0x1000, 2, 7, 3, ⟨3, 7, 0, 7, 17⟩⟩
    let f : State := { waiting base (.bar 6 0x1000 5 1 false false none) with fleetBars := [⟨0, 0x1000, 1, [⟨1, 0x1000, 0, 0, 0⟩]⟩] }
    Memory.wf base.mem = true ∧ (base.fleetBar m.isl m.va).count + 1 < m.n.toNat ∧
    ((f.fleetBar m.isl m.va).local_ = [⟨1, 0x1000, 0, 0, 0⟩] ∧ f.h.slot = .wait (.bar 6 0x1000 5 1 false false none) 0 ∧ NoLog f) ∧
    0x000FFFFE00000000 ≤ (win 0).toNat ∧ (0x1001 : Word).toNat % 32 ≠ 0 ∧ base.poppers = [] ∧
    (0 : BitVec 3) ∉ base.narrowsFailed ∧ (0 : BitVec 3) ∈ ({ base with narrowsFailed := [0] } : State).narrowsFailed ∧
    (17 : BitVec 5).toNat < 18 ∧ (17 : BitVec 5) ∉ base.portsLost := by
  unfold NoLog
  decide +kernel

/-- A leaf that maps virtual page 1 to HBM frame 16 of island 0, for user reads and writes of every address space (Table 18-4). -/
def leaf : TlbEntry := ⟨0, 0x1000, 12, 0x2000F7⟩

/-- The serving group translates with a page table (R326). -/
theorem remote_ptbr (a b : Nat) : (BitVec.ofNat 64 (1 + a * 2 ^ 16 + b * 2 ^ 52)).getLsbD 0 = true := by
  have h : (1 + a * 2 ^ 16 + b * 2 ^ 52).testBit 0 = true := by rw [Nat.testBit_zero]; simp; omega
  rw [BitVec.getLsbD_ofNat, h]
  rfl

/-- The walker and core that serve a push of address space `a` (R326). -/
def server (a : Word) : Who := ⟨a, .user, 0⟩

theorem member_server {s : State} (h : (s.memberWho 0).core = 0) : ∃ a, s.memberWho 0 = server a ∧ a.getLsbD 0 = true :=
  ⟨(s.memberWho 0).ptbr, by
    have eta : ∀ w : Who, w.lvl = .user → w.core = 0 → w = server w.ptbr := by rintro ⟨a, b, c⟩ rfl rfl; rfl
    exact eta _ rfl h, remote_ptbr _ _⟩

/-- Every address of virtual page 1 is reached through `leaf`, whatever the address space, while the serving core holds it. -/
theorem leaf_reach {s : State} {a : Word} {k : AccKind} {va : Word} {n : Nat} (ha : a.getLsbD 0 = true)
    (ht : ((s.core 0).tlb ++ (s.cluster (clusterOf 0)).tlb).head? = some leaf) (hn : va.toNat = n) (h0 : n < 0x000FFFFE00000000)
    (hs : ∀ b, leaf.serves b n = true) :
    s.translate (server a) k false va = s.checkLeaf (server 0) k false va leaf := by
  have hl : s.leafFor (server a) va.toNat = .leaf leaf := by
    obtain ⟨es, he⟩ : ∃ es, (s.core 0).tlb ++ (s.cluster (clusterOf 0)).tlb = leaf :: es := by
      match h : (s.core 0).tlb ++ (s.cluster (clusterOf 0)).tlb, ht with
      | e :: es, ht => exact ⟨es, by simpa using ht⟩
    unfold State.leafFor
    simp only [server, he, List.find?, hn, hs]
  rw [State.translate_leaf (by omega) ha hl]
  rfl

theorem leaf_serves {n : Nat} (h : leaf.serves 0 n = true) : ∀ b, leaf.serves b n = true := by
  intro b
  unfold TlbEntry.serves at h ⊢
  rw [show leaf.pte.getLsbD 5 = true by decide +kernel, Bool.or_true] at h ⊢
  exact h

/-- A remote write whose address the leaf of the serving core maps. -/
theorem witness_StraitsAndLinks_write :
    let s := base.setCore 0 { Core.reset with tlb := [leaf] }
    ∃ p, s.translate (s.memberWho 0) .write false 0x1000 = .ok p ∧ s.failing p.key 8 = false := by
  intro s
  obtain ⟨a, hw, ha⟩ := member_server (s := s) (by decide +kernel)
  rw [hw]
  exact ⟨⟨0x10000, 0, true, false, some leaf⟩, (leaf_reach ha (by decide +kernel) (n := 0x1000) (by decide) (by decide)
    (leaf_serves (by decide +kernel))).trans (by decide +kernel), by decide +kernel⟩

/-- A queue of two entries at virtual 0x1000 of page 1, its entries at 0x1040, with `tail` entries. -/
def pushed (tail : Nat) : State :=
  [(0, 0), (8, tail), (16, 0x1040), (24, 1)].foldl (fun (s : State) (p : Nat × Nat) => s.poke (0x10000 + p.1) 8 p.2)
    (base.setCore 0 { Core.reset with tlb := [leaf] })

/-- What an access of the server leaves does not depend on its address space, but on a signal page. -/
theorem account_server (s : State) (a : Word) (p : Place) (rd wr : Nat) (hp : p.signal = false) :
    s.account (server a) p rd wr = s.account (server 0) p rd wr := by
  unfold State.account State.fillTlb
  simp only [hp, server]
  rfl

/-- The record's place, and the first entry's. -/
def recPlace : Place := ⟨0x10000, 0, true, false, some leaf⟩
def entryPlace : Place := ⟨0x10040, 0, true, false, some leaf⟩
def tailPlace : Place := ⟨0x10008, 0, true, false, some leaf⟩

/-- The states of a push of `x` to `pushed 0`: after the record's read, the entry's write and the write of TAIL. -/
def pushRead (n : Nat) : State := (pushed n).account (server 0) recPlace 32 0
def pushEntry (y : Nat) : State := ((pushRead 0).account (server 0) entryPlace 0 32).poke 0x10040 32 y
def pushTail (y : Nat) : State := ((pushEntry y).account (server 0) tailPlace 0 8).poke 0x10008 8 1

/-- A full queue and one with room, reached by the serving group of the member. -/
theorem witness_StraitsAndLinks_push :
    let w := (pushed 0).memberWho 0
    let y := 5 + 7 * 2 ^ 64 + (3 * 2 ^ 28 + 17 * 2 ^ 12 + 3) * 2 ^ 128
    (0x1000 : Word).toNat < 0x000FFFFE00000000 ∧ (0x1000 : Word).toNat % 32 = 0 ∧
    (∀ n ∈ [0, 2], (pushed n).translate w .read false 0x1000 = .ok recPlace ∧ (pushed n).translate w .write false 0x1000 = .ok recPlace ∧
      (pushed n).loadAs w false 0x1000 32 = .ok (Memory.read (pushed n).mem 0x10000 32, pushRead n) ∧ Memory.wf (pushed n).mem = true ∧
      leNat (pushed n) 0x10000 8 = 0 ∧ leNat (pushed n) 0x10008 8 = n ∧ leNat (pushed n) 0x10010 8 = 0x1040 ∧
      leNat (pushed n) 0x10018 8 = 1 ∧ (pushed n).poppers = []) ∧
    QueueRec.bad ⟨0, 0, 0x1040, 1⟩ = false ∧ (pushRead 0).translate w .write false 0x1040 = .ok entryPlace ∧
    (pushRead 0).storeAs w false 0x1040 32 y = .ok (pushEntry y) ∧
    (pushEntry y).translate w .write false 0x1008 = .ok tailPlace ∧ (pushEntry y).storeAs w false 0x1008 8 1 = .ok (pushTail y) := by
  intro w y
  obtain ⟨a, hw, ha⟩ : ∃ a, w = server a ∧ a.getLsbD 0 = true := member_server (by decide +kernel)
  clear_value w
  subst hw
  have reach : ∀ (s : State) (k : AccKind) (n : Nat), ((s.core 0).tlb ++ (s.cluster (clusterOf 0)).tlb).head? = some leaf →
      n = 0x1000 ∨ n = 0x1008 ∨ n = 0x1040 → s.translate (server a) k false (BitVec.ofNat 64 n) =
        s.checkLeaf (server 0) k false (BitVec.ofNat 64 n) leaf := by
    intro s k n ht hn
    have hs : leaf.serves 0 n = true ∧ (BitVec.ofNat 64 n).toNat = n ∧ n < 0x000FFFFE00000000 := by
      rcases hn with rfl | rfl | rfl <;> decide +kernel
    exact leaf_reach ha ht hs.2.1 hs.2.2 (leaf_serves hs.1)
  have st : ∀ (s : State) (p : Place) (n m x : Nat), ((s.core 0).tlb ++ (s.cluster (clusterOf 0)).tlb).head? = some leaf →
      n = 0x1000 ∨ n = 0x1008 ∨ n = 0x1040 → s.checkLeaf (server 0) .write false (BitVec.ofNat 64 n) leaf = .ok p → p.signal = false →
      s.failing p.key m = false →
      s.storeAs (server a) false (BitVec.ofNat 64 n) m x = .ok ((s.account (server 0) p 0 m).poke p.key m x) := by
    intro s p n m x ht hn hc hp hf
    rw [State.storeAs_ok]
    exact ⟨p, (reach s .write n ht hn).trans hc, fun _ => hf, by rw [account_server s a p _ _ hp]⟩
  refine ⟨by decide, by decide, ?_, by decide, ?_, ?_, ?_, ?_⟩
  · have key : ∀ n ∈ [0, 2], ((pushed n).core 0).tlb ++ ((pushed n).cluster (clusterOf 0)).tlb = [leaf] ∧
        (pushed n).checkLeaf (server 0) .read false 0x1000 leaf = .ok recPlace ∧ (pushed n).checkLeaf (server 0) .write false 0x1000 leaf = .ok recPlace ∧
        (pushed n).failing 0x10000 32 = false ∧ Memory.wf (pushed n).mem = true ∧
        leNat (pushed n) 0x10000 8 = 0 ∧ leNat (pushed n) 0x10008 8 = n ∧ leNat (pushed n) 0x10010 8 = 0x1040 ∧
        leNat (pushed n) 0x10018 8 = 1 ∧ (pushed n).poppers = [] := by decide +kernel
    intro n hn
    obtain ⟨h1, h2, h3, h4, h5⟩ := key n hn
    have ht : (((pushed n).core 0).tlb ++ ((pushed n).cluster (clusterOf 0)).tlb).head? = some leaf := by rw [h1]; rfl
    refine ⟨(reach _ .read 0x1000 ht (.inl rfl)).trans h2, (reach _ .write 0x1000 ht (.inl rfl)).trans h3, ?_, h5⟩
    rw [State.loadAs_ok]
    exact ⟨recPlace, (reach _ .read 0x1000 ht (.inl rfl)).trans h2, h4, rfl, (account_server _ a recPlace 32 0 rfl).symm⟩
  · exact (reach _ .write 0x1040 (by decide +kernel) (.inr (.inr rfl))).trans (by decide +kernel)
  · exact st _ entryPlace 0x1040 32 _ (by decide +kernel) (.inr (.inr rfl)) (by decide +kernel) rfl (by decide +kernel)
  · exact (reach _ .write 0x1008 (by decide +kernel) (.inr (.inl rfl))).trans (by decide +kernel)
  · exact st _ tailPlace 0x1008 8 _ (by decide +kernel) (.inr (.inl rfl)) (by decide +kernel) rfl (by decide +kernel)

/-- An LD that presents island 0 and one that presents none; an address in its range; a host line; a queue header in reach; a boot. -/
theorem witness_HostAndTabos :
    let s := withWords base [(16, 0x000FFFFE00000100), (24, 1)]
    Memory.wf s.mem = true ∧ s.hdmKey 0 0 8 = some 0 ∧ 0x800000000000 ≤ 64 * (0x20000000000 : BitVec 42).toNat ∧ s.ldFirst 0 = some 0 ∧
    (State.setIsland base 1 { State.reset.island 1 with atoll := 0 }).ldFirst 1 = none ∧ s.queueBusy 0 = false ∧
    ScratchOf s ((0 : BitVec 3) ++ (0 : BitVec 7)) (win 0) 32 (scratchKey 0 0) ∧ (win 0).toNat % 64 = 0 ∧ leNat s (scratchKey 0 24) 8 = 1 ∧
    leNat s (scratchKey 0 16) 8 % 32 = 0 ∧
    State.reset.booting = true ∧ State.reset.stopped = false ∧ State.reset.slotBoots State.reset.tabos.active = true ∧
    State.reset.h.slot = .free ∧ State.reset.others = [] := by
  unfold ScratchOf
  decide +kernel

/-- An image that verifies is accepted, and one older than the counter is not. -/
theorem witness_HostAndTabos_image :
    (∀ x : FwImage, Config.ed448Verify x.body x.signature = true → base.rollbackNow ≤ x.version → base.imageOk x = true) ∧
    ({ base with tabos := { base.tabos with rollback := 1 } } : State).imageOk ⟨0, [], []⟩ = false := by
  refine ⟨fun x h1 h2 => by unfold State.imageOk; simp [h1, h2], ?_⟩
  unfold State.imageOk State.rollbackNow
  simp

/-- The state after a word is placed, its fetch and its decoding, with room in the queue and nothing that fails its check. -/
def fetchesTo (s : State) (i : Instr) : Bool :=
  match s.fetch s.who s.h.pc with
  | .error _ => false
  | .ok (ps, u) =>
    let x := fetchedOf s.h.pc ps
    let us := usesOf u.useCtx x.len x.bits
    decide (decodeParcels ps = some i) && (!us.pipe.isSome || decide (u.h.vq.length < 16)) && (u.consumes us x.len x.bits).isEmpty &&
      !u.mayFail

/-- What a step asks for beside the fetch. -/
def runnable (s : State) : Bool :=
  s.agenda.isEmpty && !s.stopped && !s.booting && s.engineTurn.isNone && (s.cluster s.myCluster).freeze == .running &&
    s.h.slot == .run && s.h.mcheck.isNone && s.h.watch.isNone && s.h.advisory.isNone && s.h.branch.isNone && !s.h.defer &&
    s.h.vq.all (fun q => q.todo.isNone) && (!s.h.mayPreempt || s.h.landAt.isSome) && !s.h.paused && s.h.yielding.isEmpty

/-- ADDI placed at the PC of reset: everything a step asks for, also with a point resumed at the PC, with a pre-emption that is to land
after two units, and with a queue entry. -/
theorem witness_StepRunsTheDecodedInstruction :
    let s := State.reset.withFetchWord 32 0xC0E00002
    let r : State := { s with h := { s.h with resume := [⟨s.h.pc, 3, 0, false, none, false, none, 0⟩] } }
    let p : State := { s with h := { s.h with preq := true, landAt := some 2 } }
    let q : State := { s with h := { s.h with vq := [entry .lanes] } }
    (∀ u ∈ [s, r, p, q], runnable u = true ∧ fetchesTo u (.addi 24 0 2) = true) ∧ s.h.resume = [] ∧
      (r.h.resume = [⟨s.h.pc, 3, 0, false, none, false, none, 0⟩]) ∧ p.h.mayPreempt = true ∧ q.h.vq ≠ [] := by
  decide +kernel

/-- ECALL behind a queue entry: it traps. -/
theorem witness_StepRunsTheDecodedInstruction_trap :
    let s := State.reset.withFetchWord 32 0xCE000000
    let q : State := { s with h := { s.h with vq := [entry .lanes] } }
    runnable q = true ∧ fetchesTo q .ecall = true ∧ q.h.vq ≠ [] ∧
      (match exec .ecall q with | .next t => t.trapped | _ => false) = true := by
  decide +kernel

/-- A word that decodes to nothing, placed likewise. -/
theorem witness_StepRunsTheDecodedInstruction_none :
    let s := State.reset.withFetchWord 32 0xCF800000
    (match s.fetch s.who s.h.pc with | .error _ => false | .ok (ps, _) => decide (decodeParcels ps = none)) = true := by
  decide +kernel

/-- A well-formed instruction of each length has a code. -/
theorem witness_DecodeAndEncodeAgree : (∃ c, encode (.cAddi 1 0) = some c ∧ (Instr.cAddi 1 0).WellFormed) ∧
    (∃ c, encode (.addi 31 31 0x1FFF) = some c ∧ (Instr.addi 31 31 0x1FFF).WellFormed) ∧
    ∃ c, encode (.tmma 3 31 0 31 0 3 4 7 7 1 1) = some c ∧ (Instr.tmma 3 31 0 31 0 3 4 7 7 1 1).WellFormed :=
  ⟨⟨_, rfl, rfl⟩, ⟨_, rfl, rfl⟩, ⟨_, rfl, rfl⟩⟩

/-- Reset is in canonical form, and a step from it goes on. -/
theorem witness_StepKeepsTheCanonicalForm : Canonical State.reset ∧ ∃ t, step State.reset = .next t := by
  refine ⟨by unfold Canonical; decide +kernel, ?_⟩
  have hs : step State.reset = (match State.reset.ownMove with | .next t => .next (State.reset.tick t) | y => y) := rfl
  have ho : State.reset.ownMove = execFirmwareBoot State.reset := rfl
  have hb : ∃ t, execFirmwareBoot State.reset = .next t := by
    unfold execFirmwareBoot
    dsimp only
    split
    · exact ⟨_, rfl⟩
    · split <;> exact ⟨_, rfl⟩
  obtain ⟨t, ht⟩ := hb
  rw [hs, ho, ht]
  exact ⟨_, rfl⟩

/-- `base` with a VTYPE. -/
def withType (vt : Word) : State := { base with h := { base.h with vtype := vt } }

/-- Its registers are held and full, whatever the VTYPE. -/
theorem held_type (vt : Word) {r : Regs} (hr : r.1 + r.2 ≤ 32) : Held (withType vt) r :=
  held_all (s := withType vt) rfl rfl hr

theorem fresh_type (vt : Word) : Fresh (withType vt) := by
  have hb : base.boundStreams = [] := by decide +kernel
  have hs : base.h.span ≤ 8192 := by decide +kernel
  exact ⟨rfl, rfl, rfl, rfl, hb, hs⟩

/-- Groups of eight registers, up to v31, at a width that floats accept; of one register, at one that they do not. -/
theorem witness_VectorTwoSources :
    Fresh (withType 26) ∧ (withType 26).h.span * (withType 26).h.ew ≤ 32768 * (withType 26).h.grp ∧ (withType 26).h.grp = 8 ∧
    Group (24, 8) ∧ Group (0, 8) ∧ Group (16, 8) ∧ Held (withType 26) (24, 8) ∧ Held (withType 26) (0, 8) ∧ Held (withType 26) (16, 8) ∧
    widthOk (withType 26) true ∧ Fresh (withType 0) ∧ ¬widthOk (withType 0) true ∧ widthOk (withType 0) false := by
  refine ⟨fresh_type 26, by decide +kernel, by decide +kernel, by unfold Safety.Group; decide, by unfold Safety.Group; decide, by unfold Safety.Group; decide,
    held_type 26 (by decide), held_type 26 (by decide), held_type 26 (by decide), ?_, fresh_type 0, ?_, ?_⟩ <;> unfold widthOk <;> decide +kernel

theorem witness_VectorFusedUnaryCompact : Fresh (withType 2) ∧ (withType 2).h.span * (withType 2).h.ew ≤ 32768 * (withType 2).h.grp ∧
    Group (31, 1) ∧ Group ((withType 2).h.lvd.toNat % 32, 1) ∧ Held (withType 2) (31, 1) ∧ Held (withType 2) (30, 1) ∧
    Held (withType 2) ((withType 2).h.lvd.toNat % 32, 1) ∧ widthOk (withType 2) true := by
  refine ⟨fresh_type 2, by decide +kernel, by unfold Safety.Group; decide, by unfold Safety.Group; decide +kernel, held_type 2 (by decide), held_type 2 (by decide),
    held_type 2 (by decide +kernel), ?_⟩
  unfold widthOk
  decide +kernel

/-- An empty destination; a misaligned group; a block not held; an empty source, with e = 1 and with e = 0; a width of 8. -/
theorem witness_VectorIssueChecks :
    let em (r : Nat) : State := { base with h := { base.h with full := base.h.full.setIfInBounds r (.empty ⟨0, 4, 8, 0, .pipe, 0⟩) } }
    let b0 : State := { base with h := { base.h with held := 0 } }
    (base.h.slot = .run ∧ base.boundStreams = [] ∧ (em 3).boundStreams = [] ∧ b0.boundStreams = []) ∧ (em 3).h.isFull 3 = false ∧
    (em 3).h.isFull 4 = true ∧ ¬Group (1, 2) ∧ Group (8, 1) ∧ b0.h.holdsV 8 = false ∧ b0.h.holdsV 7 = true ∧ (em 31).h.isFull 31 = false ∧
    (withType 0).h.ew ≠ 16 ∧ (withType 0).h.ew ≠ 32 := by
  unfold Safety.Group
  decide +kernel

/-- A source v31 with e = 0 of which one element group of two elements is there and SPAN is 4, and one of which nothing is there. -/
theorem witness_VectorIssueChecks_chain : ∀ f ∈ [0, 1],
    let p : Pending := ⟨f, 2, 8, 0, .pipe, 0⟩
    let s : State := { withType 2 with h := { (withType 2).h with span := 4, full := base.h.full.set 31 (.empty p) } }
    Fresh s ∧ s.h.span * s.h.ew ≤ 32768 * s.h.grp ∧ s.h.grp = 1 ∧ s.h.full[31]? = some (.empty p) ∧ s.h.holdsV 31 = true ∧
    (∀ r < 31, s.h.isFull r = true ∧ s.h.holdsV r = true) ∧
    (4096 * 0 + min 4096 (p.frontier * p.size - p.off)) / ewbOf s.h.vtype / s.h.groupElems * s.h.groupElems = 2 * f ∧ 2 * f < s.h.span := by
  unfold Fresh
  decide +kernel

/-- Widths 32 and 16, wide groups of two registers, apart. -/
theorem witness_VectorWideNarrow : ∀ vt ∈ [(2 : Word), 1], Fresh (withType vt) ∧ (withType vt).h.grp < 8 ∧ (withType vt).h.ew ≤ 32 ∧
    (withType vt).h.span * (withType vt).h.ew ≤ 32768 * (withType vt).h.grp ∧ Group (30, 2) ∧ Held (withType vt) (30, 2) ∧ Group (0, 1) ∧
    Held (withType vt) (0, 1) ∧ Group (1, 1) ∧ Held (withType vt) (1, 1) ∧ Apart (30, 2) (0, 1) ∧ Apart (30, 2) (1, 1) ∧ (withType 1).h.ew = 16 := by
  intro vt h
  simp only [List.mem_cons, List.not_mem_nil, or_false] at h
  refine ⟨fresh_type vt, ?_, ?_, ?_, by unfold Safety.Group; decide, held_type vt (by decide), by unfold Safety.Group; decide, held_type vt (by decide),
    by unfold Safety.Group; decide, held_type vt (by decide), by unfold Apart; decide, by unfold Apart; decide, by decide +kernel⟩ <;>
    (rcases h with rfl | rfl <;> decide +kernel)

theorem witness_VectorCompares : Fresh (withType 2) ∧ (23 : BitVec 5).toNat < 24 ∧ Group (31, 1) ∧ Held (withType 2) (31, 1) ∧ Held (withType 2) (0, 1) ∧
    widthOk (withType 2) true := by
  refine ⟨fresh_type 2, by decide, by unfold Safety.Group; decide, held_type 2 (by decide), held_type 2 (by decide), ?_⟩
  unfold widthOk
  decide +kernel

/-- A mask of element 0 alone, under a GRANT. -/
def maskOne (n : Word) : State := let s := (withType 2).setK 1 1; { s with h := { s.h with grant := n } }

/-- The least and the largest GRANT, and those under which the halves are odd. -/
theorem witness_VectorReductions : ∀ n ∈ [(16 : Word), 48, 80, 96, 112, 128],
    Fresh (maskOne n) ∧ 0 < (maskOne n).h.span ∧ Group (31, 1) ∧ Held (maskOne n) (31, 1) ∧ Held (maskOne n) (0, 1) ∧ Apart (31, 1) (0, 1) ∧
    widthOk (maskOne n) true ∧ (maskOne n).h.grant.toNat % 16 = 0 ∧ 16 ≤ (maskOne n).h.grant.toNat ∧ (maskOne n).h.grant.toNat ≤ 128 ∧
    isActive (maskOne n) 1 0 = true ∧ isActive (maskOne n) 1 1 = false := by
  have mk : ∀ n : Word, Fresh (maskOne n) ∧ (maskOne n).h.held = 7 ∧ (maskOne n).h.full = Vector.replicate 32 .full ∧ 0 < (maskOne n).h.span ∧
      widthOk (maskOne n) true ∧ (maskOne n).h.grant = n ∧ isActive (maskOne n) 1 0 = true ∧ isActive (maskOne n) 1 1 = false := by
    intro n
    have h : Fresh ((withType 2).setK 1 1) := by unfold Fresh; decide +kernel
    have hp : 0 < ((withType 2).setK 1 1).h.span := by decide +kernel
    have hw : widthOk ((withType 2).setK 1 1) true := by unfold widthOk; decide +kernel
    have ha : isActive ((withType 2).setK 1 1) 1 0 = true ∧ isActive ((withType 2).setK 1 1) 1 1 = false := by decide +kernel
    exact ⟨h, rfl, rfl, hp, hw, rfl, ha.1, ha.2⟩
  intro n hn
  obtain ⟨h1, h2, h3, h4, h5, h6, h7, h8⟩ := mk n
  have hh : ∀ {r : Regs}, r.1 + r.2 ≤ 32 → Held (maskOne n) r := fun hr => held_all h2 h3 hr
  refine ⟨h1, h4, by unfold Safety.Group; decide, hh (by decide), hh (by decide), by unfold Apart; decide, h5, ?_, ?_, ?_, h7, h8⟩ <;>
    (rw [h6]; simp only [List.mem_cons, List.not_mem_nil, or_false] at hn; rcases hn with rfl | rfl | rfl | rfl | rfl | rfl <;> decide)

theorem witness_VectorPermutes : Fresh (withType 2) ∧ (withType 2).h.span * (withType 2).h.ew ≤ 32768 * (withType 2).h.grp ∧ Group (31, 1) ∧
    Held (withType 2) (31, 1) ∧ Group (0, 1) ∧ Held (withType 2) (0, 1) ∧ Apart (31, 1) (0, 1) ∧
    ((withType 2).getG 0).toNat % 64 < (withType 2).h.ew := by
  refine ⟨fresh_type 2, by decide +kernel, by unfold Safety.Group; decide, held_type 2 (by decide), by unfold Safety.Group; decide, held_type 2 (by decide),
    by unfold Apart; decide, by decide +kernel⟩

/-- The addresses lie in the window on the own scratchpad. -/
def inWindow (vas : List Word) : Prop := ∀ va ∈ vas, 0x000FFFFE00000000 ≤ va.toNat ∧ va.toNat < 0x000FFFFE00400000

/-- With no failing word nothing fails. -/
theorem failing_none {s : State} (h : s.badMem = []) (k n : Nat) : s.failing k n = false := by
  unfold State.failing State.badIn
  rw [h]
  rfl

theorem noteWatch_badMem (s : State) (k : AccKind) (va : Word) (n : Nat) : (s.noteWatch k va n).badMem = s.badMem := by
  rw [State.noteWatch_frame]

/-- One address in the window translates to some place, whatever the kind of the data access. -/
theorem window_place {s : State} {k : AccKind} {va : Word} (hk : k ≠ .fetch) (h0 : 0x000FFFFE00000000 ≤ va.toNat ∧ va.toNat < 0x000FFFFE00400000) :
    ∃ p, s.translate s.who k false va = .ok p := ⟨_, State.translate_scratch hk h0.1 h0.2⟩

/-- Reads in the window succeed one after the other. -/
theorem loads_window {n : Nat} {vas : List Word} (hv : inWindow vas) : ∀ {s : State}, s.badMem = [] → ∃ ks u, LoadsFrom n vas s ks u := by
  induction vas with
  | nil => exact fun {s} _ => ⟨[], s, rfl, rfl⟩
  | cons va vas ih =>
    intro s hs
    obtain ⟨p, hp⟩ := window_place (s := s) (k := .read) (by decide) (hv va (List.mem_cons_self ..))
    have hl := State.load_ok.mpr ⟨p, hp, failing_none hs _ n, rfl, rfl⟩
    obtain ⟨ks, u, hu⟩ := ih (fun x hx => hv x (List.mem_cons_of_mem _ hx)) (s := (s.account s.who p n 0).noteWatch .read va n)
      (by rw [noteWatch_badMem, State.account_badMem]; exact hs)
    exact ⟨_, u, p, _, _, ks, hp, hl, hu, rfl⟩

/-- Writes in the window succeed one after the other. -/
theorem stores_window {n : Nat} {as : List (Word × Nat)} (hv : inWindow (as.map (·.1))) :
    ∀ {s : State}, s.badMem = [] → ∃ ks u, StoresTo n as s ks u := by
  induction as with
  | nil => exact fun {s} _ => ⟨[], s, rfl, rfl⟩
  | cons a as ih =>
    intro s hs
    obtain ⟨p, hp⟩ := window_place (s := s) (k := .write) (by decide) (hv a.1 (List.mem_cons_self ..))
    have hl := State.store_ok (x := a.2).mpr ⟨p, hp, fun _ => failing_none hs _ n, rfl⟩
    have hb : (((s.account s.who p 0 n).poke p.key n a.2).noteWatch .write a.1 n).badMem = [] := by
      rw [noteWatch_badMem]
      unfold State.poke
      simp only [State.account_badMem, hs, if_pos]
    obtain ⟨ks, u, hu⟩ := ih (fun x hx => hv x (List.mem_cons_of_mem _ hx)) hb
    exact ⟨_, u, p, _, ks, hp, hl, hu, rfl⟩

/-- Atomics in the window succeed one after the other. -/
theorem atomics_window {n : Nat} {op : Nat → Nat → Nat} {as : List (Word × Nat)} (hv : inWindow (as.map (·.1))) :
    ∀ {s : State}, s.badMem = [] → ∃ ks u, AtomicsTo n op as s ks u := by
  induction as with
  | nil => exact fun {s} _ => ⟨[], s, rfl, rfl⟩
  | cons a as ih =>
    intro s hs
    obtain ⟨p, hp⟩ := window_place (s := s) (k := .atomic) (by decide) (hv a.1 (List.mem_cons_self ..))
    have hl := State.rmw_ok (f := fun x => some (op x a.2)).mpr ⟨hp, failing_none hs _ n, rfl, rfl⟩
    have hb : (((s.account s.who p n n).noteWatch .atomic a.1 n).poke p.key n (op (Memory.read s.mem p.key n) a.2)).badMem = [] := by
      unfold State.poke
      simp only [noteWatch_badMem, State.account_badMem, hs, if_pos]
    obtain ⟨ks, u, hu⟩ := ih (fun x hx => hv x (List.mem_cons_of_mem _ hx)) hb
    exact ⟨_, u, p, _, _, ks, hl, hu, rfl⟩

/-- `base` with g2 = window offset 0, g3 = 8, and a segment header (E8 127, P 4) at the start of the scratchpad and of v8. -/
def mover : State :=
  let s := withWords (withG base [(2, win 0), (3, 8)]) [(0, 0x0400007F)]
  { s with h := { s.h with v := s.h.v.set 8 0x0400007F } }

theorem held_mover {r : Regs} (hr : r.1 + r.2 ≤ 32) : Held mover r := held_all (s := mover) rfl rfl hr

theorem fresh_mover : Fresh mover := by
  refine ⟨by decide +kernel, by decide +kernel, by decide +kernel, by decide +kernel, by decide +kernel, by decide +kernel⟩

theorem g2_mover : (mover.getG 2).toNat = 0x000FFFFE00000000 := by decide +kernel

theorem act_mover : actives mover 0 = [0, 1] := by decide +kernel

theorem blk_mover : blocksOn mover 0 = [0] := by decide +kernel

theorem bad_named (r : Nat) : (named mover r).badMem = [] := rfl

theorem el_mover : el mover 0 1 32 0 = 0 := by decide +kernel

theorem hdr_mover : el mover 8 1 64 0 = 0x0400007F := by decide +kernel

theorem bad_mover : mover.badMem = [] := by decide +kernel

/-- Two fields of two elements; indices of 32 bits; a segment of one block. -/
theorem witness_VectorLoadResults :
    Fresh mover ∧ mover.h.span * mover.h.ew ≤ 32768 * mover.h.grp ∧ (mover.getG 2).toNat % 4 = 0 ∧ (mover.getG 3).toNat % 4 = 0 ∧
    Held mover (30, 2 * 1) ∧ Group (31, 1) ∧ Held mover (31, 1) ∧ Apart (31, 1) (0, 1) ∧ max 1 (mover.h.grp * 2 ^ (2 : BitVec 2).toNat / 4) = 1 ∧
    (∀ j ∈ actives mover 0, ∀ q < 2, Fits ((mover.getG 2).toNat + (j * 2 + q) * 4 : Nat)) ∧
    (∃ ks u, LoadsFrom 4 ((actives mover 0).flatMap fun (j : Nat) => (List.range 2).map fun (q : Nat) =>
      BitVec.ofInt 64 (((mover.getG 2).toNat : Int) + (j * 2 + q) * 4)) (named mover 30) ks u) ∧
    (∃ ks u, LoadsFrom 8 ((blocksOn mover 0).flatMap fun (j : Nat) => (List.range 9).map fun (q : Nat) =>
      BitVec.ofNat 64 ((mover.getG 2).toNat + 72 * j + 8 * q)) (named mover 31) ks u) ∧ HdrOk 0x0400007F ∧
    ((mover.getG 2).toNat % 64 = 0 ∧ (mover.getG 2).toNat + 32768 ≤ 2 ^ 64 ∧ (24 : BitVec 5).toNat % 8 = 0 ∧ Held mover (24, 8)) := by
  have e : (mover.getG 2).toNat % 64 = 0 ∧ (mover.getG 2).toNat + 32768 ≤ 2 ^ 64 := by rw [g2_mover]; decide
  have w1 : inWindow ((actives mover 0).flatMap fun (j : Nat) => (List.range 2).map fun (q : Nat) =>
      BitVec.ofInt 64 (((mover.getG 2).toNat : Int) + (j * 2 + q) * 4)) := by
    rw [g2_mover, act_mover]
    intro va h
    simp only [List.mem_flatMap, List.mem_map, List.mem_range, List.mem_cons, List.not_mem_nil, or_false] at h
    obtain ⟨j, hj, q, hq, rfl⟩ := h
    rw [BitVec.toNat_ofInt]
    omega
  have w2 : inWindow ((blocksOn mover 0).flatMap fun (j : Nat) => (List.range 9).map fun (q : Nat) =>
      BitVec.ofNat 64 ((mover.getG 2).toNat + 72 * j + 8 * q)) := by
    rw [g2_mover, blk_mover]
    intro va h
    simp only [List.mem_flatMap, List.mem_map, List.mem_range, List.mem_cons, List.not_mem_nil, or_false] at h
    obtain ⟨j, hj, q, hq, rfl⟩ := h
    rw [BitVec.toNat_ofNat]
    omega
  refine ⟨fresh_mover, by decide +kernel, by rw [g2_mover], by decide +kernel, held_mover (by decide), by unfold Safety.Group; decide,
    held_mover (by decide), by unfold Apart; decide, by decide +kernel, ?_, loads_window w1 (bad_named _), loads_window w2 (bad_named _),
    by unfold HdrOk; decide, e.1, e.2, by decide, held_mover (by decide)⟩
  rw [act_mover, g2_mover]
  intro j hj q hq
  simp only [List.mem_cons, List.not_mem_nil, or_false] at hj
  unfold Fits
  omega

/-- 512 lines from the start of the window. -/
theorem lines_window : inWindow ((List.range 512).map fun j => BitVec.ofNat 64 ((mover.getG 2).toNat + 64 * j)) := by
  rw [g2_mover]
  intro va h
  simp only [List.mem_map, List.mem_range] at h
  obtain ⟨j, hj, rfl⟩ := h
  rw [BitVec.toNat_ofNat]
  omega

/-- VREFILL: 512 lines of the scratchpad. -/
theorem witness_VectorLoadResults_refill : ∃ ks u, LoadsFrom 64 ((List.range 512).map fun j => BitVec.ofNat 64 ((mover.getG 2).toNat + 64 * j))
    (named mover 24) ks u :=
  loads_window lines_window (bad_named _)

/-- The same stores; PROGADDR 0 in the window; a header in v8. -/
theorem witness_VectorStoreResults :
    let m : State := { mover with h := { mover.h with progaddr := win 64 } }
    Memory.wf mover.mem = true ∧
    (∃ ks u, StoresTo 4 ((actives mover 0).flatMap fun (j : Nat) => (List.range 2).map fun (q : Nat) =>
      (BitVec.ofInt 64 (((mover.getG 2).toNat : Int) + (j * 2 + q) * 4), el mover (8 + q) 1 32 j)) mover ks u) ∧
    (m.h.progaddr.toNat % 8 < 5 ∧ (match m.store false (m.h.progaddr &&& ~~~7) 8 2 with | .error _ => false | .ok u => reaches u .write true (win 64) 8) = true) ∧
    (∀ j ∈ blocksOn mover 0, HdrOk (el mover 8 1 64 (9 * j + 0))) ∧
    (∃ ks u, StoresTo 8 ((blocksOn mover 0).flatMap fun (j : Nat) => (List.range 9).map fun (q : Nat) =>
      (BitVec.ofNat 64 ((mover.getG 2).toNat + 72 * j + 8 * q), el mover 8 1 64 (9 * j + q))) mover ks u) := by
  have hw : Memory.wf mover.mem = true := by decide +kernel
  have hp : (win 64).toNat % 8 < 5 ∧ (match ({ mover with h := { mover.h with progaddr := win 64 } } : State).store false (win 64 &&& ~~~7) 8 2 with
      | .error _ => false | .ok u => reaches u .write true (win 64) 8) = true := by decide +kernel
  refine ⟨hw, stores_window ?_ bad_mover, hp, ?_, stores_window ?_ bad_mover⟩
  · rw [g2_mover, act_mover]
    intro va h
    simp only [List.map_flatMap, List.map_map, List.mem_flatMap, List.mem_map, List.mem_range, List.mem_cons, List.not_mem_nil, or_false, Function.comp] at h
    obtain ⟨j, hj, q, hq, rfl⟩ := h
    rw [BitVec.toNat_ofInt]
    omega
  · rw [blk_mover]
    intro j hj
    simp only [List.mem_cons, List.not_mem_nil, or_false] at hj
    subst hj
    rw [Nat.mul_zero, Nat.add_zero, hdr_mover]
    unfold HdrOk
    decide
  · rw [g2_mover, blk_mover]
    intro va h
    simp only [List.map_flatMap, List.map_map, List.mem_flatMap, List.mem_map, List.mem_range, List.mem_cons, List.not_mem_nil, or_false, Function.comp] at h
    obtain ⟨j, hj, q, hq, rfl⟩ := h
    rw [BitVec.toNat_ofNat]
    omega

/-- VSPILL: the contents of v24 to v31, all zero. -/
theorem witness_VectorStoreResults_spill : ∃ ks u, StoresTo 64 ((List.range 512).map fun j =>
    (BitVec.ofNat 64 ((mover.getG 2).toNat + 64 * j), el mover 24 8 512 j)) mover ks u := by
  refine stores_window ?_ bad_mover
  rw [List.map_map]
  exact lines_window

theorem witness_VectorAtomicResults :
    (mover.h.ew = 32 ∨ mover.h.ew = 64) ∧ Group (31, 1) ∧ Held mover (31, 1) ∧ Held mover (0, 1) ∧ Apart (31, 1) (0, 1) ∧
    (∀ j ∈ actives mover 0, (mover.getG 2).toNat + el mover 0 1 32 j * 4 < 2 ^ 64) ∧
    ∃ ks u, AtomicsTo 4 (fun x y => (x + y) % 2 ^ 32) ((actives mover 0).map fun j =>
      (BitVec.ofNat 64 ((mover.getG 2).toNat + el mover 0 1 32 j * 4), el mover 31 1 32 j)) (named mover 31) ks u := by
  have e0 : mover.h.ew = 32 := by decide +kernel
  have e1 : el mover 0 1 32 1 = 0 := by decide +kernel
  refine ⟨.inl e0, by unfold Safety.Group; decide, held_mover (by decide), held_mover (by decide), by unfold Apart; decide, ?_, atomics_window ?_ (bad_named _)⟩
  · rw [act_mover, g2_mover]
    intro j hj
    simp only [List.mem_cons, List.not_mem_nil, or_false] at hj
    rcases hj with rfl | rfl
    · rw [el_mover]; omega
    · rw [e1]; omega
  · rw [act_mover, g2_mover]
    intro va h
    simp only [List.map_cons, List.map_nil, el_mover, e1, List.mem_cons, List.not_mem_nil, or_false, or_self] at h
    rw [h, BitVec.toNat_ofNat]
    omega

/-- `s` with a hart state made of the same blocks and registers still holds and fills every run. -/
theorem fresh_of {s : State} (h1 : s.h.slot = .run) (h2 : s.h.resume = []) (h3 : s.h.landing = none) (h0 : s.h.quota = none)
    (h4 : s.boundStreams = []) (h5 : s.h.span ≤ 8192) : Fresh s := ⟨h1, h2, h3, h0, h4, h5⟩

/-- EW 64 and a plan word in g4 and PL1. -/
def packer (x : Word) : State :=
  { withType 3 with h := { (withType 3).h with g := (withType 3).h.g.set 4 x, pl := (withType 3).h.pl.set 1 x } }

/-- W 4, S 8, N 2, X 8, unsigned, MODE 0, and the same with MODE 1. -/
def plan0 : Word := 0x80273
def plan1 : Word := 0x880273

theorem held_packer (x : Word) {r : Regs} (hr : r.1 + r.2 ≤ 32) : Held (packer x) r := held_all (s := packer x) rfl rfl hr

theorem fresh_packer (x : Word) : Fresh (packer x) := by
  have h1 : base.boundStreams = [] := by decide +kernel
  have h2 : base.h.span ≤ 8192 := by decide +kernel
  exact ⟨rfl, rfl, rfl, rfl, h1, h2⟩

theorem witness_PlanAndPackResults :
    let legal (x : Word) : Prop := fld x 4 5 ≠ 0 ∧ (fld x 9 4 + 1) * (fld x 4 5 + 1) ≤ 64 ∧ fld x 4 5 + 1 ≤ fld x 16 7 ∧
      fld x 16 7 ≤ 2 * (fld x 4 5 + 1) ∧ fld x 24 40 = 0
    let s := packer plan0
    let P := (s.h.pl[(1 : BitVec 3).toNat]?).getD 0
    legal (s.getG 4) ∧ ¬legal (s.getG 0) ∧ s.h.ew = 64 ∧ legal P ∧ s.h.grp = 1 ∧ s.h.span ≤ 512 ∧ (fld P 9 4 + 1) * (fld P 0 4 + 1) ≤ 64 ∧
    Group (31, 1) ∧ Group (0, 1) ∧ Group (2, 1) ∧ Group (4, 2) ∧ Apart (4, 2) (31, 1) ∧ Apart (4, 2) (2, 1) ∧ Apart (4, 2) (0, 1) ∧
    (2 : BitVec 5).toNat ≤ 2 * (fld P 9 4 + 1) - 2 ∧ ((packer plan1).h.pl[1]?).map (fun x => x.getLsbD 23) = some true := by
  unfold Safety.Group Apart
  decide +kernel

/-- With MODE 0 and products of zeros no coefficient is outside the capacity. -/
theorem witness_PlanAndPackResults_guard :
    ∀ i < (packer plan0).h.span, isActive (packer plan0) 0 i = true →
      (guardFails (((packer plan0).h.pl[1]?).getD 0) (toSigned 128 (el (packer plan0) 4 2 128 i))
        (convElem (((packer plan0).h.pl[1]?).getD 0) (el (packer plan0) 0 1 64 i) (el (packer plan0) 2 1 64 i)).2).isSome = false := by
  decide +kernel

/-- EW 32, and 8 for VPLANE; v0 and v16 begin with a header (E8 127, P 4); g4 is a template. -/
def planar (vt : Word) : State :=
  let s := withG (withType vt) [(4, 0x0400007F)]
  { s with h := { s.h with v := (s.h.v.set 0 0x0400007F).set 16 0x0400007F } }

theorem held_planar (vt : Word) {r : Regs} (hr : r.1 + r.2 ≤ 32) : Held (planar vt) r := held_all (s := planar vt) rfl rfl hr

theorem fresh_planar (vt : Word) : Fresh (planar vt) := by
  have h1 : base.boundStreams = [] := by decide +kernel
  have h2 : base.h.span ≤ 8192 := by decide +kernel
  exact ⟨rfl, rfl, rfl, rfl, h1, h2⟩

theorem witness_PlaneResults :
    (planar 0).h.ew = 8 ∧ (planar 2).h.ew = 32 ∧ (planar 2).h.span * 32 ≤ 32768 * (planar 2).h.grp ∧ ((planar 2).h.span + 63) / 64 = 1 ∧
    imageOf (planar 2) 0 = (0, 1) ∧ imageOf (planar 2) 16 = (16, 1) ∧ imageOf (planar 0) 0 = (0, 1) ∧ Group (31, 1) ∧ Group (8, 1) ∧
    Apart (31, 1) (0, 1) ∧ Apart (16, 1) (8, 1) ∧ el (planar 2) 0 1 64 0 = 0x0400007F ∧ el (planar 2) 16 1 64 0 = 0x0400007F ∧
    el (planar 0) 0 1 64 0 = 0x0400007F ∧ HdrOk 0x0400007F ∧ HdrOk (((planar 2).getG 4).toNat / 256 * 256 + 1) := by
  unfold Safety.Group Apart HdrOk
  decide +kernel

/-- Zero-point 0x85 of an activation of 4 planes, which 4 bits do not hold; inactive positions take it (VTYPE[6]), and element 1 is
inactive. A template of one plane and the largest binary32 number, under no scale of which it fits. -/
def planarZp : State :=
  let s := (withG (withType 0x42) [(4, 0x0100007F)]).setK 1 1
  { s with h := { s.h with v := ((s.h.v.set 0 0x2400857F).set 16 0x2400857F).set 8 0x7F7FFFFF } }

theorem witness_PlaneResults_zero_point :
    (planarZp.h.ew = 32 ∧ planarZp.h.vtype.getLsbD 6 = true ∧ planarZp.h.span * 32 ≤ 32768 * planarZp.h.grp ∧
      el planarZp 16 1 64 0 = 0x2400857F ∧ HdrOk 0x2400857F ∧ isActive planarZp 1 0 = true ∧ isActive planarZp 1 1 = false) ∧
    HdrOk ((planarZp.getG 4).toNat / 256 * 256 + 1) ∧ (planarZp.getG 4).toNat.testBit 28 = false ∧
    (scaleTerm false (planarZp.h.fmt.unpack (el planarZp 8 1 32 0))).any (fun v => (FVal.fin false 1 127).lt v) = true := by
  unfold HdrOk
  decide +kernel

/-- e2 is KIND 2, and e3 KIND 1, of order 1; EORD asks for an H that it does not have, or has (1.0). -/
def expander (eo : Word) : State :=
  let s := withG (withType 2) [(4, win 0)]
  { s with h := { s.h with eord := eo, e := (s.h.e.set 2 (1 + 64)).set 3 (1 + 32) } }

theorem held_expander (eo : Word) {r : Regs} (hr : r.1 + r.2 ≤ 32) : Held (expander eo) r := held_all (s := expander eo) rfl rfl hr

theorem fresh_expander (eo : Word) : Fresh (expander eo) := by
  have h1 : base.boundStreams = [] := by decide +kernel
  have h2 : base.h.span ≤ 8192 := by decide +kernel
  exact ⟨rfl, rfl, rfl, rfl, h1, h2⟩

theorem eordOk_zero : EordOk (expander 0) := by
  intro h
  exact absurd h (by decide +kernel)

theorem eordOk_one : EordOk (expander 0x3F8000000010) := by
  intro _
  exact ⟨2 ^ 23, -23, by decide +kernel, by decide⟩

theorem not_eordOk : ¬EordOk (expander 0x10) := by
  intro h
  obtain ⟨m, e, h1, h2⟩ := h (by decide +kernel)
  have h3 : Fmt.f32.unpack ((expander 0x10).h.eord.toNat / 2 ^ 16 % 2 ^ 32) = .fin false 0 (-149) := by decide +kernel
  rw [h3] at h1
  injection h1 with _ h4
  exact h2 h4.symm

/-- A list of addresses that was computed. -/
theorem inWindow_of {vas : List Word}
    (h : (vas.all fun va => decide (0x000FFFFE00000000 ≤ va.toNat) && decide (va.toNat < 0x000FFFFE00400000)) = true) : inWindow vas := by
  intro va hv
  have := List.all_eq_true.mp h va hv
  simp only [Bool.and_eq_true, decide_eq_true_eq] at this
  exact this

theorem witness_ExpansionRegisterResults :
    let s := { expander 0 with h := { (expander 0).h with e := (expander 0).h.e.set 4 1 } }
    PairOk s 4 3 1 1 ∧ PairOk s 2 3 1 2 ∧ PairOk s 4 3 1 2 ∧ PairOk s 4 2 2 2 ∧ (s.getG 4).toNat % 8 = 0 ∧ (s.getG 4).toNat + 768 ≤ 2 ^ 64 ∧
    Memory.wf s.mem = true := by
  unfold PairOk
  decide +kernel

theorem words_expander : inWindow ((List.range 96).map fun j => (expander 0).getG 4 + BitVec.ofNat 64 (8 * j)) :=
  inWindow_of (by decide +kernel)

/-- XLD of zeros reads a header that it takes. -/
theorem witness_ExpansionRegisterResults_load : ∃ ks u,
    LoadsFrom 8 ((List.range 96).map fun j => (expander 0).getG 4 + BitVec.ofNat 64 (8 * j)) (expander 0) ks u ∧
    (let x := (ks.map (·.2)).getD 0 0
     x / 2 ^ 7 % 2 ^ 25 = 0 ∧ x % 16 ≤ 8 ∧ x / 32 % 4 ≠ 3) := by
  have hb : (expander 0).badMem = [] := by decide +kernel
  obtain ⟨ks, u, h⟩ := loads_window words_expander (n := 8) hb
  refine ⟨ks, u, h, ?_⟩
  have e : ((List.range 96).map fun j => (expander 0).getG 4 + BitVec.ofNat 64 (8 * j)) =
      ((expander 0).getG 4 + BitVec.ofNat 64 (8 * 0)) :: ((List.range 95).map Nat.succ).map fun j => (expander 0).getG 4 + BitVec.ofNat 64 (8 * j) := rfl
  rw [e] at h
  obtain ⟨p, x, v, r, -, hl, -, rfl⟩ := h
  have hz : (match (expander 0).load false ((expander 0).getG 4 + BitVec.ofNat 64 (8 * 0)) 8 with
      | .ok y => y.1 == 0 | .error _ => false) = true := by decide +kernel
  rw [hl] at hz
  have hx : x = 0 := by simpa using hz
  simp [hx]

theorem witness_ExpansionRegisterResults_store : ∃ js u,
    StoresTo 8 ((List.range 96).map fun j => ((expander 0).getG 4 + BitVec.ofNat 64 (8 * j), elem 64 ((expander 0).h.ereg 2) j)) (expander 0) js u := by
  refine stores_window ?_ (by decide +kernel)
  rw [List.map_map]
  exact words_expander

/-- Four, three and one groups of one register, apart; KIND 1 in e3, KIND 2 in e2. -/
theorem witness_ExpansionVectorResults :
    let s := expander 0
    s.h.ew = 32 ∧ s.h.span ≤ 1024 * s.h.grp ∧ XGroup s 4 4 ∧ xKind (s.h.ereg 3) ≠ 2 ∧ XGroup s 4 3 ∧ xKind (s.h.ereg 2) = 2 ∧ XGroup s 31 1 ∧
    XGroup s 20 4 ∧ Apart (31, s.h.grp) (4, 3 * s.h.grp) ∧ Apart (20, 4 * s.h.grp) (4, 3 * s.h.grp) ∧ XGroup s 8 4 ∧
    Apart (31, s.h.grp) (8, 4 * s.h.grp) := by
  have hg : (expander 0).h.grp = 1 := by decide +kernel
  have hx (v : BitVec 5) (m : Nat) (h : v.toNat + m * 1 ≤ 32) : XGroup (expander 0) v m := by
    unfold XGroup
    rw [hg]
    exact ⟨Nat.mod_one _, h, held_expander 0 h⟩
  simp only [hg]
  refine ⟨by decide +kernel, by decide +kernel, hx 4 4 (by decide), by decide +kernel, hx 4 3 (by decide), by decide +kernel, hx 31 1 (by decide),
    hx 20 4 (by decide), by unfold Apart; decide, by unfold Apart; decide, hx 8 4 (by decide), by unfold Apart; decide⟩

/-- A tile of 2 by 2 with K 1; z0 and z1 held, z2 held by another slot, `tk` whether z0 is taken; pairs g2 (row pitch 64), g6 (BPN)
and g8 (pitch 64, rotation 1); g4 = window offset 0, g5 = 64; segments in v8 (two's complement) and v16 (unsigned, zero point 3). -/
def tiler (tk : Bool) : State :=
  let s := withWords (withG base [(2, 64 * 2 ^ 32), (6, 4096 + 80 * 2 ^ 32), (8, 64 * 2 ^ 32), (9, 2 ^ 32), (4, win 0), (5, 64)])
    [(4096, 0x0400007F), (4176, 0x0400007F)]
  let zs := ((Core.reset.z.set 0 { Core.reset.z[0] with holder := some 0, taken := tk }).set 1 { Core.reset.z[1] with holder := some 0 }).set 2
    { Core.reset.z[2] with holder := some 1 }
  let s := s.setCore 0 { Core.reset with z := zs }
  { s with h := { s.h with
    tshp := 0x10101
    v := (s.h.v.set 8 (0x0400007F + 0x0400007F * 2 ^ 576)).set 16 (0x2400037F + 0x2400037F * 2 ^ 576) } }

theorem held_tiler (tk : Bool) {r : Regs} (hr : r.1 + r.2 ≤ 32) : Held (tiler tk) r := by
  have h1 (b : Bool) : (tiler b).h.held = 7 := by cases b <;> decide +kernel
  have h2 (b : Bool) : (tiler b).h.full = Vector.replicate 32 .full := by cases b <;> decide +kernel
  exact held_all (h1 tk) (h2 tk) hr

theorem fresh_tiler (tk : Bool) : Fresh (tiler tk) := by
  have h (b : Bool) : (tiler b).h.slot = .run ∧ (tiler b).h.resume = [] ∧ (tiler b).h.landing = none ∧ (tiler b).h.quota = none ∧
      (tiler b).boundStreams = [] ∧ (tiler b).h.span ≤ 8192 := by cases b <;> decide +kernel
  exact h tk

theorem witness_TileResults :
    let s := tiler false
    s.holdsZ 0 = true ∧ s.holdsZ 1 = true ∧ s.holdsZ 2 = false ∧ (s.accum 0).taken = false ∧ s.h.shape.k ≠ 0 ∧ s.h.wovt = false ∧
    (tiler true).holdsZ 0 = true ∧ ((tiler true).accum 0).taken = true ∧ s.gangOf s.h.id = none := by
  decide +kernel

/-- An operand in registers. -/
theorem opOk_regs {s : State} {o : TileOp} {a : BitVec 5} {e : BitVec 1} {r : Regs} (hr : o.regs = some r) (h32 : r.1 + r.2 ≤ 32) (hh : Held s r)
    (hb : tileBpn o.ty = true → ∀ r < o.rows, ∀ b < o.segs,
      let h := opBytes s o r (72 * b) 8
      HdrOk h ∧ (o.isA = true → h / 2 ^ 8 % 256 = 0) ∧ h.testBit 29 = (o.ty == 4) ∧
        (0 < b → opTag s o r b = (opTag s o r (b - 1) + 1) % 256)) : OpOk s o 0 a e := by
  unfold OpOk
  rw [hr]
  exact ⟨⟨h32, hh⟩, ⟨fun h => absurd h (by decide), fun h => by cases h⟩, hb⟩

/-- An operand in the scratchpad. -/
theorem opOk_scratch {s : State} {o : TileOp} {a : BitVec 5} (hr : o.regs = none)
    (h1 : a.toNat % 2 = 0 ∧ 2 ≤ a.toNat ∧ o.base % tileSize o.ty = 0 ∧ o.rp % tileSize o.ty = 0 ∧ o.tp % tileSize o.ty = 0 ∧
       (o.rho ≠ 0 → o.rowBytes ≤ o.rp) ∧
       ∀ q < o.storeRows, ∀ c < o.rowBytes / tileSize o.ty, o.off q (c * tileSize o.ty) + tileSize o.ty ≤ 0x400000 ∧
         s.failing (scratchKey s.myCluster.toNat (o.off q (c * tileSize o.ty))) (tileSize o.ty) = false)
    (hb : tileBpn o.ty = true → ∀ r < o.rows, ∀ b < o.segs,
      let h := opBytes s o r (72 * b) 8
      HdrOk h ∧ (o.isA = true → h / 2 ^ 8 % 256 = 0) ∧ h.testBit 29 = (o.ty == 4) ∧
        (0 < b → opTag s o r b = (opTag s o r (b - 1) + 1) % 256)) : OpOk s o 1 a 0 := by
  unfold OpOk
  rw [hr]
  exact ⟨⟨rfl, h1⟩, ⟨fun _ => rfl, fun _ => rfl⟩, hb⟩

/-- TMMA's operands: FP32 in registers; FP32 in the scratchpad with and without rotation; BPN of both types in registers, whose tags
agree; BPN in the scratchpad. -/
theorem witness_TileResults_operands :
    let s := tiler false
    OpOk s (s.tileOp true 0 4 0 1 2 1 0) 0 4 0 ∧ OpOk s (s.tileOp false 0 5 0 1 2 1 0) 0 5 0 ∧ OpOk s (s.tileOp true 1 2 0 1 2 1 0) 1 2 0 ∧
    OpOk s (s.tileOp true 1 8 0 1 2 1 0) 1 8 0 ∧ OpOk s (s.tileOp true 0 8 3 8 2 1 0) 0 8 0 ∧ OpOk s (s.tileOp false 0 16 4 8 2 1 0) 0 16 0 ∧
    OpOk s (s.tileOp true 1 6 3 8 2 1 0) 1 6 0 ∧
    (∀ p < 2, ∀ q < 2, ∀ j < (s.tileOp true 0 8 3 8 2 1 0).segs,
      opTag s (s.tileOp true 0 8 3 8 2 1 0) p j = opTag s (s.tileOp false 0 16 4 8 2 1 0) q j) := by
  refine ⟨opOk_regs (r := (4, 1)) (by decide +kernel) (by decide) (held_tiler _ (by decide)) (fun h => absurd h (by decide +kernel)),
    opOk_regs (r := (5, 1)) (by decide +kernel) (by decide) (held_tiler _ (by decide)) (fun h => absurd h (by decide +kernel)),
    opOk_scratch (by decide +kernel) (by decide +kernel) (fun h => absurd h (by decide +kernel)),
    opOk_scratch (by decide +kernel) (by decide +kernel) (fun h => absurd h (by decide +kernel)),
    opOk_regs (r := (8, 1)) (by decide +kernel) (by decide) (held_tiler _ (by decide)) (by unfold HdrOk; decide +kernel),
    opOk_regs (r := (16, 1)) (by decide +kernel) (by decide) (held_tiler _ (by decide)) (by unfold HdrOk; decide +kernel),
    opOk_scratch (by decide +kernel) (by decide +kernel) (by unfold HdrOk; decide +kernel), by decide +kernel⟩

/-- TLDA and TSTA: FP64 elements at base and pitch; raw elements and a status map of one byte at g4. -/
theorem parts_tiler : tileParts (tiler false) 8 8 = [(0, 0), (0, 8), (1, 0), (1, 8)] ∧ (tiler false).h.shape.n = 2 ∧ (tiler false).h.shape.m = 2 := by
  decide +kernel

theorem witness_TileMemoryResults :
    let s := tiler false
    let o := s.tileOp true 1 2 3 0 0 0 0
    let raws := tileParts s 32 8
    (Instr.tlda 0 4 0 5 0 0 0 0).WellFormed ∧ (Instr.tlda 0 2 1 0 0 1 1 4).WellFormed ∧ s.holdsZ 0 = true ∧
    (∀ p ∈ raws, o.off p.1 p.2 + 8 ≤ 0x400000) ∧ o.base % 8 = 0 ∧ o.rp % 8 = 0 ∧ o.tp % 8 = 0 ∧ o.rho = 0 ∧
    (s.tileOp true 1 8 3 0 0 0 0).rho = 1 ∧ 2 * 32 ≤ (s.tileOp true 1 8 3 0 0 0 0).rp ∧
    (∀ p ∈ raws, (s.tileOp true 1 8 3 0 0 0 0).off p.1 p.2 + 8 ≤ 0x400000) ∧
    (s.getG 4).toNat % 8 = 0 ∧ (s.getG 5).toNat % 8 = 0 ∧
    (∀ p ∈ raws, 0 ≤ ((s.getG 4).toNat : Int) + p.1 * (s.getG 5).toInt + p.2 ∧ ((s.getG 4).toNat : Int) + p.1 * (s.getG 5).toInt + p.2 < 2 ^ 64) ∧
    (s.getG 4).toNat + 1 ≤ 2 ^ 64 ∧ Memory.wf s.mem = true ∧ s.badMem = [] ∧ (∀ i < 70, inTile s i = true → zSt s 0 i = 0) := by
  unfold Instr.WellFormed
  decide +kernel

/-- The addresses of the raw transfer by base and pitch, and of its map. -/
theorem raw_window : inWindow ((tileParts (tiler false) 32 8).map fun p =>
    BitVec.ofInt 64 ((((tiler false).getG 4).toNat : Int) + p.1 * ((tiler false).getG 5).toInt + p.2)) := inWindow_of (by decide +kernel)

theorem map_window : inWindow ((List.range 1).map fun q => (tiler false).getG 4 + BitVec.ofNat 64 q) := inWindow_of (by decide +kernel)

/-- Reads change no word's check, and writes make none fail. -/
theorem loads_badMem {n : Nat} {vas : List Word} : ∀ {s : State} {ks : List (Nat × Nat)} {u : State}, LoadsFrom n vas s ks u → u.badMem = s.badMem := by
  induction vas with
  | nil => rintro s ks u ⟨-, rfl⟩; rfl
  | cons va vas ih =>
    rintro s ks u ⟨p, x, v, r, -, hl, hr, -⟩
    obtain ⟨q, -, -, -, rfl⟩ := State.load_ok.mp hl
    rw [ih hr, noteWatch_badMem, State.account_badMem]

theorem stores_badMem {n : Nat} {as : List (Word × Nat)} : ∀ {s : State} {ks : List Nat} {u : State}, StoresTo n as s ks u → s.badMem = [] →
    u.badMem = [] := by
  induction as with
  | nil => rintro s ks u ⟨-, rfl⟩ h; exact h
  | cons a as ih =>
    rintro s ks u ⟨p, v, r, -, hl, hr, -⟩ h
    obtain ⟨q, -, -, rfl⟩ := State.store_ok.mp hl
    refine ih hr ?_
    rw [noteWatch_badMem]
    unfold State.poke
    simp only [State.account_badMem, h, if_pos]

theorem bad_tiler : (tiler false).badMem = [] := by decide +kernel

theorem witness_TileMemoryResults_reads :
    let s := tiler false
    ∃ ks u, LoadsFrom 8 ((tileParts s 32 8).map fun p => BitVec.ofInt 64 (((s.getG 4).toNat : Int) + p.1 * (s.getG 5).toInt + p.2)) s ks u ∧
      ∃ ls v, LoadsFrom 1 ((List.range 1).map fun q => s.getG 4 + BitVec.ofNat 64 q) u ls v := by
  obtain ⟨ks, u, h⟩ := loads_window (n := 8) raw_window bad_tiler
  exact ⟨ks, u, h, loads_window map_window ((loads_badMem h).trans bad_tiler)⟩

theorem witness_TileMemoryResults_writes (xs bytes : List Nat) :
    let s := tiler false
    ∃ ks u, StoresTo 8 (((tileParts s 32 8).map fun p => BitVec.ofInt 64 (((s.getG 4).toNat : Int) + p.1 * (s.getG 5).toInt + p.2)).zip xs) s ks u ∧
      ∃ ls v, StoresTo 1 (((List.range 1).map fun q => s.getG 4 + BitVec.ofNat 64 q).zip bytes) u ls v := by
  have sub {vas : List Word} {ys : List Nat} (h : inWindow vas) : inWindow ((vas.zip ys).map (·.1)) := by
    intro va hv
    obtain ⟨⟨a, y⟩, hm, rfl⟩ := List.mem_map.mp hv
    exact h a (List.of_mem_zip hm).1
  obtain ⟨ks, u, h⟩ := stores_window (n := 8) (sub raw_window) bad_tiler
  exact ⟨ks, u, h, stores_window (sub map_window) (stores_badMem h bad_tiler)⟩

/-- A gang of two with the hart as a member, and one without it. -/
theorem witness_TileResults_gang :
    let g (m : List HartId) : State := (tiler false).setCluster 0 { Cluster.reset with gangs := [⟨3, 2, m, some 1, 2, []⟩] }
    ((g [0, 16]).gangOf (g [0, 16]).h.id).map (·.size) = some 2 ∧ (g [16]).gangOf (g [16]).h.id = none := by
  decide +kernel

/-- A source of each status, infinities that clash, and the arithmetic at its edges: a tie goes to even, 2^224 units overflow the window
and one unit less does not, a NaN, an infinity times 0, and elements of each status. -/
theorem witness_TileArithmetic :
    (0 < 4 ∧ 1 < 4 ∧ 2 < 4 ∧ 3 < 4) ∧ ((1 = 1 ∧ 2 = 2) ∨ (1 = 2 ∧ 2 = 1)) ∧
    (rndDiv .rne 1 2 = 0 ∧ rndDiv .rne 3 2 = 2 ∧ inUnits (signed true 3) 1 2 = (-3, 2) ∧ inUnits (signed false 3) 3 2 = (6, 1)) ∧
    (tileMul (.nan true) (.fin false 1 0) = (.nan false, true) ∧ tileMul (.inf true) (.fin false 0 0) = (.nan false, true) ∧
      tileMul (.inf true) (.inf true) = (.inf false, false)) ∧
    (accAdd 0 0 0 (.fin false 1 224) false = (2 ^ 224, 0, fWOV) ∧ accAdd 0 0 0 (.fin false (2 ^ 224 - 1) 0) false = (2 ^ 224 - 1, 0, 0) ∧
      accAdd 1 0 0 (.fin true 3 0) false = (2 ^ 256 - 2, 0, fWIX)) ∧
    (let a : Accum := { Accum.zero with st := 0b11100100, acc := 8 * 2 ^ 768 }
     a.status 0 = 0 ∧ a.status 1 = 1 ∧ a.status 2 = 2 ∧ a.status 3 = 3) := by
  decide +kernel

/-! ### One step each of the spec's worked examples -/

/-- What an instruction leaves. -/
def after {α : Type} (r : Host.Outcome State Fault Refusal) (f : State → α) : Option α :=
  match r with
  | .next t => some (f t)
  | _ => none

/-- `base` with a VTYPE, a SPAN and values of v registers. -/
def loaded (vt : Word) (n : Nat) (vs : List (Fin 32 × Nat)) : State :=
  { withType vt with h := { (withType vt).h with span := n, v := vs.foldl (fun (v : Vector (BitVec 32768) 32) p => v.set p.1 (BitVec.ofNat _ p.2)) (withType vt).h.v } }

/-- Elements of `w` bits, the first lowest. -/
def packs (w : Nat) : List Nat → Nat
  | [] => 0
  | x :: xs => x + 2 ^ w * packs w xs

/-- Tables 7-6 and 7-7. -/
def narrower : State := loaded 2 64 [(8, packs 32 [0x3EC00000, 0x3EC00000, 0x3EC00000, 0x40180000, 0x41100000, 0xBF400000]), (16, 0x1400007F)]

theorem test_vnarrow_chain : after (exec (.vnarrow 16 8 0 0) narrower) (fun t =>
    ((List.range 9).map fun q => el t 16 1 64 q, t.h.efc, t.h.fst.getLsbD 5)) =
    some ([0x1400007F, 0x20, 0x30, 0x38, 0x32, 0, 0, 0, 0], 0xBE800000, true) := by decide +kernel

/-- The two-plane prefix of that segment, under EW 8. -/
theorem test_vplane_prefix : after (exec (.vplane 8 16 2 0 0) (loaded 0 64 [(16, packs 64 [0x1400007F, 0x20, 0x30, 0x38, 0x32])])) (fun t =>
    (List.range 6).map fun i => el (arrived t) 8 1 8 i) = some [0, 0, 0, 0, 4, 252] := by decide +kernel

/-- R181's example: the largest magnitude is 9.0. -/
theorem test_vqscale_block : after (exec (.vqscale 16 8 5 0 0) (withG narrower [(5, 0x14000000)])) (fun t => el t 16 1 64 0) =
    some 0x14000080 := by decide +kernel

/-- Plan P16 of Table 8-2 (MODE 0), and P8. -/
def convolver (x : Word) (vs : List (Fin 32 × Nat)) : State :=
  { loaded 3 1 vs with h := { (loaded 3 1 vs).h with pl := (loaded 3 1 vs).h.pl.set 1 x } }

theorem test_vpack_fields : after (exec (.vpack 5 1 0 0 1) (convolver 0x10E2F3 [(1, 0xE3)])) (fun t => el t 5 1 64 0) =
    some 0xFFFFFFFFFFFE0003 := by decide +kernel

theorem test_vpackB_reverses : after (exec (.vpackB 5 1 0 0 1) (convolver 0x10E2F3 [(1, 0x4B)])) (fun t => el t 5 1 64 0) =
    some 0xFFFFFFFFFFFB0004 := by decide +kernel

theorem test_vconv_product : after (exec (.vconv 8 1 2 0 0 0 1) (convolver 0x10E2F3 [(1, 0xFFFFFFFFFFFE0003), (2, 0xFFFFFFFFFFFB0004)]))
    (fun t => el t 8 2 128 0) = some 42948165644 := by decide +kernel

theorem test_vxtr_coefficient : after (exec (.vxtr 5 8 1 0 0 1) (convolver 0x10E2F3 [(8, 42948165644)])) (fun t => el t 5 1 64 0) =
    some (2 ^ 64 - 23) := by decide +kernel

/-- R131's example: E_1 = 128 is outside the capacity under P8. -/
theorem test_vconv_guard : after (exec (.vconv 8 1 2 0 0 0 1) (convolver 0x8E273 [(1, 0xFFFFFFFFFFFFF7F8), (2, 0xFFFFFFFFFFFFF7F8)]))
    (fun t => (t.h.ecause, t.h.eaddr, el t 8 2 128 0)) = some (0x0B, 1, 0) := by decide +kernel

/-- R153's example: 291/16 and 2040/16 from a pair of 16 bits to 8. -/
theorem test_vnshr_clamps : after (exec (.vnshr 5 8 2 0 0 0) (loaded 0 2 [(8, packs 16 [0x0123, 0x07F8]), (2, packs 8 [4, 4])]))
    (fun t => (el t 5 1 8 0, el t 5 1 8 1, t.h.fst.getLsbD 5)) = some (18, 127, true) := by decide +kernel

/-- One rounding: (1 + 2^−23)(1 − 2^−23) − 1 is −2^−46. -/
theorem test_vffma_once : after (exec (.vffma 5 1 2 0 0 0) (loaded 2 1 [(1, 0x3F800001), (2, 0x3F7FFFFE), (5, 0xBF800000)]))
    (fun t => el t 5 1 32 0) = some 0xA8800000 := by decide +kernel

/-- R160's example under XRM = ROD: 2.5 and 3.25. -/
theorem test_vcvtFi_odd : after (exec (.vcvtFi 5 1 0 0 0) (let s := loaded 2 2 [(1, packs 32 [0x40200000, 0x40500000])]
    { s with h := { s.h with rmode := 0x28 } })) (fun t => (el t 5 1 32 0, el t 5 1 32 1)) = some (3, 3) := by decide +kernel

/-- R165's example. -/
theorem test_vunpackb_signed : after (exec (.vunpackb 5 1 4 0 0) (withG (loaded 0 2 [(1, 0x9C)]) [(4, 3 + 64)])) (fun t =>
    (el t 5 1 8 0, el t 5 1 8 1)) = some (0xFC, 0xF9) := by decide +kernel

/-- Table 25-3: four unit charges at −1, 1, −0.5 and 0.5. -/
theorem test_xform_moments : after (exec (.xform 0 4 0 0) (let s := loaded 2 4 [(4, packs 32 [0xBF800000, 0x3F800000, 0xBF000000, 0x3F000000]),
    (7, packs 32 [0x3F800000, 0x3F800000, 0x3F800000, 0x3F800000])]
    { s with h := { s.h with e := s.h.e.set 0 4 } })) (fun t => [0, 1, 4, 10, 20].map fun q => xw t 0 (8 + q)) =
    some [0x40800000, 0, 0x3FA00000, 0, 0x3DB55555] := by decide +kernel

/-- Table 10-10's cancellation, with one column: 2^24 + 1 − 2^24 under TWIN −8 is 256. -/
theorem test_tmma_exact : after (exec (.tmma 0 4 0 5 0 0 0 0 0 0 0) (let s := loaded 2 1 [(4, packs 32 [0x4B800000, 0x3F800000, 0xCB800000]),
      (5, packs 32 [0x3F800000, 0x3F800000, 0x3F800000])]
    let s := s.setCore 0 { Core.reset with z := Core.reset.z.set 0 { Core.reset.z[0] with holder := some 0, anchor := 0xFFF8 } }
    { s with h := { s.h with tshp := 0x30000 } })) (fun t => zAcc t 0 0) = some 256 := by decide +kernel

/-- The load of 1.0 in one LIH. -/
theorem test_lih_one : after (exec (.lih 29 0xFE00) base) (fun t => t.getG 29) = some 0x3F800000 := by decide +kernel

/-- R65's example: 2.5 and −2.5 to an integer under RDN. -/
theorem test_fcvtSF_down : after (exec (.fcvtSF 5 4) (let s := withG base [(4, 0xC0200000)]
    { s with h := { s.h with rmode := 0x10 } })) (fun t => t.getG 5) = some (-3) := by decide +kernel

end Sys2Proof.Tests

end
end

section
/-! PROOFS. Memory, the window of an own scratchpad and the hart slots: what reads give after a filter, after reads through the
window, and after a hart is put back. -/

namespace Sys2Proof.Machine

open Sys2Proof.Safety

/-! ### Bytes and numbers in memory -/

/-- Keeping the entries whose key passes leaves those values, and `d` elsewhere. -/
theorem SMap.getFrom_filter_key {α : Type} [DecidableEq α] {d : α} (p : Nat → Bool) (a : Nat) :
    ∀ (m : List (Nat × α)) (lo : Option Nat), SMap.wfFrom d lo m = true →
      SMap.get d (m.filter fun c => p c.1) a = if p a then SMap.get d m a else d := by
  intro m
  induction m with
  | nil => intro _ _; simp [SMap.get]
  | cons c m ih =>
    obtain ⟨k, v⟩ := c
    intro lo h
    simp only [SMap.wfFrom, Bool.and_eq_true] at h
    have hm : SMap.wfFrom d (some k) m = true := h.2
    have hlow : a ≤ k → SMap.get d m a = d := SMap.get_of_lt hm
    rw [List.filter_cons]
    by_cases hk : p k = true
    · rw [if_pos hk]
      unfold SMap.get
      rw [ih _ hm]
      by_cases hak : a = k
      · subst hak; simp [hk]
      · by_cases hlt : a < k <;> simp [hlt, hak]
    · rw [if_neg hk, ih _ hm]
      by_cases hak : a = k
      · subst hak; simp [hk]
      · by_cases hlt : a < k
        · simp [SMap.get, hlt, hlow hlt.le]
        · simp [SMap.get, hlt, hak]

/-- Memory of which only the keys that pass are kept: their bytes stay and every other one is 0. -/
theorem Memory.byte_filter_key {m : Memory} (h : Memory.wf m = true) (p : Nat → Bool) (a : Nat) :
    Memory.byte (m.filter fun c => p c.1) a = if p a then Memory.byte m a else 0 :=
  SMap.getFrom_filter_key p a m none h

/-- The number that the statements speak of is the one that an access reads. -/
theorem leNat_eq_read (s : State) (n : Nat) : ∀ key, leNat s key n = Memory.read s.mem key n := by
  induction n with
  | zero => intro key; rfl
  | succ n ih =>
    intro key
    have hrest : leNat s key (n + 1) = (Memory.byte s.mem key).toNat + 256 * leNat s (key + 1) n := by
      unfold leNat
      rw [List.range_succ_eq_map, List.map_cons, List.sum_cons, List.map_map, ← List.sum_map_mul_left]
      congr 1
      · simp
      · congr 1
        apply List.map_congr_left
        intro j _
        simp only [Function.comp_apply, Nat.succ_eq_add_one, pow_succ, show key + (j + 1) = key + 1 + j by omega]
        ring
    rw [hrest, ih, Memory.read]

/-- A number of n bytes is below 256^n. -/
theorem leNat_lt (s : State) (key n : Nat) : leNat s key n < 256 ^ n := by
  rw [leNat_eq_read]
  exact Memory.read_lt n s.mem key

/-- Byte `i` of packed bytes. -/
theorem byte_packElems (bs : List (BitVec 8)) (i : Nat) (h : i < bs.length) :
    BitVec.ofNat 8 (packElems 8 (bs.map (·.toNat)) / 256 ^ i) = bs[i] := by
  apply BitVec.eq_of_toNat_eq
  have hi : (bs.map (·.toNat)).getD i 0 = bs[i].toNat := by simp [h]
  have he := elem_packElems 8 (bs.map (·.toNat)) i
  rw [hi, Nat.mod_eq_of_lt bs[i].isLt, elem, Nat.shiftRight_eq_div_pow, Nat.pow_mul] at he
  rw [BitVec.toNat_ofNat]
  exact he

/-- Byte `i` of a number as stored. -/
theorem byte_of_toNat {n : Nat} (x : BitVec n) (i : Nat) : BitVec.ofNat 8 (x.toNat / 256 ^ i) = x.extractLsb' (8 * i) 8 := by
  apply BitVec.eq_of_toNat_eq
  rw [BitVec.toNat_ofNat, BitVec.extractLsb'_toNat, Nat.shiftRight_eq_div_pow, Nat.pow_mul]

/-! ### Reads through the window on an own scratchpad -/

/-- An access through a window, which no table translates, leaves nothing besides its bytes (R309, R339, R389). -/
theorem State.account_window (s : State) (w : Who) {p : Place} (rd wr : Nat) (ht : p.translated = false) (hl : p.leaf = none) :
    s.account w p rd wr = s := by
  simp [State.account, State.holdAccess, State.heldOff, State.fillTlb, State.countTraffic, ht, hl]

/-- Where no word fails, none fails in a part. -/
theorem State.failing_part {s : State} {key n k m : Nat} (h : s.failing key n = false) (hk : key ≤ k) (hm : k + m ≤ key + n) :
    s.failing k m = false := by
  simp only [State.failing, State.badIn, Bool.not_eq_false', List.isEmpty_iff, List.filter_eq_nil_iff, Bool.and_eq_true,
    decide_eq_true_eq] at h ⊢
  intro w hw hin
  exact h w hw ⟨(Nat.div_le_div_right hk).trans hin.1, by omega⟩

/-- Bytes of a window from a multiple of 8 on are bytes of it. -/
theorem scratchOf_part {s : State} {c : BitVec 10} {va : Word} {n key : Nat} (h : ScratchOf s c va n key) {o m : Nat}
    (ho : o % 8 = 0) (hm : o + m ≤ n) : ScratchOf s c (va + BitVec.ofNat 64 o) m (key + o) := by
  obtain ⟨h8, hlo, hhi, hkey, hf⟩ := h
  have ha : (va + BitVec.ofNat 64 o).toNat = va.toNat + o := by
    rw [BitVec.toNat_add, BitVec.toNat_ofNat]
    omega
  refine ⟨by omega, by omega, by omega, ?_, State.failing_part hf (by omega) (by omega)⟩
  rw [hkey, ha]
  unfold scratchKey
  omega

/-- A read through the window gives the number there and leaves the state (Table 2-1). -/
theorem State.loadAs_scratch {s : State} {w : Who} {va : Word} {n key : Nat} (h : ScratchOf s w.core va n key) (hn : 0 < n)
    (dev : Bool) : s.loadAs w dev va n = .ok (leNat s key n, s) := by
  obtain ⟨-, hlo, hhi, hkey, hf⟩ := h
  have hp : s.translate w .read dev va = .ok ⟨key, islandOf w.core, false, false, none⟩ := by
    rw [State.translate_scratch (by decide) hlo (by omega), hkey]
  exact State.loadAs_ok.mpr ⟨_, hp, hf, leNat_eq_read s n key, (State.account_window s w n 0 rfl rfl).symm⟩

/-- Words read through the window. -/
theorem State.loadWords_scratch {s : State} {w : Who} : ∀ (m : Nat) {va : Word} {key : Nat}, ScratchOf s w.core va (8 * m) key →
    s.loadWords w va m = .ok ((List.range m).map fun j => BitVec.ofNat 64 (leNat s (key + 8 * j) 8), s) := by
  intro m
  induction m with
  | zero => intro _ _ _; rfl
  | succ m ih =>
    intro va key h
    have hhead : ScratchOf s w.core va 8 key := by simpa using scratchOf_part h (o := 0) (m := 8) rfl (by omega)
    have htail : ScratchOf s w.core (va + 8) (8 * m) (key + 8) := scratchOf_part h (o := 8) rfl (by omega)
    rw [State.loadWords, State.loadAs_scratch hhead (by omega)]
    simp only [ih htail, List.range_succ_eq_map, List.map_cons, List.map_map]
    congr 3
    apply List.map_congr_left
    intro j _
    simp only [Function.comp_apply, Nat.succ_eq_add_one, show key + 8 + 8 * j = key + 8 * (j + 1) by omega]

/-! ### Hart slots -/

/-- The first entry with a number in a list into which a hart that is not FREE was put. -/
theorem find_insertHart {x : Hart} (hx : x.slot ≠ .free) (id : HartId) (ys : List Hart) :
    (insertHart x ys).find? (fun y => y.id == id) = if x.id = id then some x else ys.find? (fun y => y.id == id) := by
  induction ys with
  | nil => by_cases h : x.id = id <;> simp [insertHart, hx, h]
  | cons y ys ih =>
    unfold insertHart
    by_cases h : x.id = id
    · subst h
      by_cases hxy : x.id = y.id
      · simp [hx, hxy]
      · by_cases hlt : x.id < y.id
        · simp [hx, hxy, hlt]
        · simp [hxy, hlt, Ne.symm hxy, ih]
    · by_cases hxy : x.id = y.id
      · simp [hx, ← hxy, h]
      · by_cases hlt : x.id < y.id
        · simp [hx, hxy, hlt, h]
        · simp only [if_neg hxy, if_neg hlt, List.find?_cons, ih, if_neg h]

/-- A hart that is not FREE is found under its number once it was put back, and every other one as before. -/
theorem State.hart_putHart {x : Hart} (hx : x.slot ≠ .free) (s : State) (id : HartId) :
    (s.putHart x).hart id = if id = x.id then x else s.hart id := by
  unfold State.putHart
  by_cases hm : x.id = s.h.id
  · rw [if_pos hm]
    by_cases h : id = x.id
    · simp [State.hart, h]
    · have : id ≠ s.h.id := hm ▸ h
      simp [State.hart, h, this]
  · rw [if_neg hm]
    unfold State.hart
    by_cases h : id = x.id
    · subst h
      simp [hm, find_insertHart hx]
    · by_cases hi : id = s.h.id
      · simp [hi, Ne.symm hm]
      · simp [hi, h, find_insertHart hx, Ne.symm h]

/-- Putting a hart back changes harts alone. -/
theorem State.putHart_frame (s : State) (x : Hart) :
    s.putHart x = { s with h := (s.putHart x).h, others := (s.putHart x).others } := by
  unfold State.putHart
  split <;> rfl

end Sys2Proof.Machine
end

section
/-! PROOFS. The host link, the mailbox, the thermal trip, package reset and bring-up (19 R347, R348, R352, R354, R355, R357, 02 R40,
R41, R47). -/

namespace Sys2Proof.Machine

open Sys2Proof.Safety

/-! ### The host link -/

/-- A host read inside an LD's range is answered with the bytes there (R347). -/
theorem exec_hostHdmRead {s : State} {ld : BitVec 3} {o : Word} {n key : Nat} (hk : s.hdmKey ld o n = some key) :
    exec (.hostHdmRead ld o n) s =
      .next { s with replies := s.replies ++ [.hdm ((List.range n).map fun i => Memory.byte s.mem (key + i))] } := by
  show execHostHdmRead ld o n s = _
  simp only [execHostHdmRead, hk]

/-- A host write inside an LD's range stores its bytes (R347). -/
theorem exec_hostHdmWrite {s : State} {ld : BitVec 3} {o : Word} {data : List (BitVec 8)} {key : Nat}
    (hk : s.hdmKey ld o data.length = some key) :
    exec (.hostHdmWrite ld o data) s = .next (s.poke key data.length (packElems 8 (data.map (·.toNat)))) := by
  show execHostHdmWrite ld o data s = _
  simp only [execHostHdmWrite, hk]

/-- The bytes of a list after they were stored, each at its place. -/
theorem State.byte_poke_bytes {s : State} (hw : Memory.wf s.mem = true) (key : Nat) (data : List (BitVec 8)) (i : Nat)
    (h : i < data.length) :
    Memory.byte (s.poke key data.length (packElems 8 (data.map (·.toNat)))).mem (key + i) = data[i] := by
  rw [State.byte_poke hw, if_pos ⟨by omega, by omega⟩, Nat.add_sub_cancel_left, byte_packElems data i h]

/-- The state once a host line has left an island's host-line cache (R47). -/
def State.dropLine (s : State) (isl : BitVec 3) (line : Nat) : State :=
  s.setIsland isl { s.island isl with lines := (s.island isl).lines.filter fun l => l != line }

theorem State.dropLine_not_mem (s : State) (isl : BitVec 3) (line : Nat) : line ∉ ((s.dropLine isl line).island isl).lines := by
  unfold State.dropLine
  rw [State.island_setIsland, if_pos rfl]
  simp

@[simp] theorem State.island_poke (s : State) (key n x : Nat) (i : BitVec 3) : (s.poke key n x).island i = s.island i := rfl

/-- A snoop without data takes the line (R40). -/
theorem exec_snoop (s : State) (isl : BitVec 3) (line : BitVec 42) :
    exec (.hostLineCacheSnoop isl line none) s = .next (s.dropLine isl line.toNat) := rfl

/-- A write of the host takes the line and stores it (R40). -/
theorem exec_snoop_write (s : State) (isl : BitVec 3) {line : BitVec 42} (x : BitVec 512) (hl : 0x800000000000 ≤ 64 * line.toNat) :
    exec (.hostLineCacheSnoop isl line (some x)) s = .next ((s.dropLine isl line.toNat).poke (64 * line.toNat) 64 x.toNat) := by
  show execHostLineCacheSnoop isl line (some x) s = _
  simp only [execHostLineCacheSnoop, if_pos hl]
  rfl

/-- Byte `i` of a word after it was stored. -/
theorem State.byte_poke_word {s : State} (hw : Memory.wf s.mem = true) (key n : Nat) {w : Nat} (x : BitVec w) (i : Nat) (h : i < n) :
    Memory.byte (s.poke key n x.toNat).mem (key + i) = x.extractLsb' (8 * i) 8 := by
  rw [State.byte_poke hw, if_pos ⟨by omega, by omega⟩, Nat.add_sub_cancel_left, byte_of_toNat]

/-! ### Tabos's log -/

/-- The entry just logged is the newest one, whatever the log overwrites (R354). -/
theorem State.logTabos_last (s : State) (r : TabosRec) : (s.logTabos r).tabos.log.getLast? = some r := by
  show ((s.tabos.log ++ [r]).drop _).getLast? = some r
  rw [List.getLast?_drop, if_neg (by simp), List.getLast?_concat]

/-! ### The mailbox -/

/-- A command of an LD that presents an atoll is answered for it (R354). -/
theorem State.command_of {s : State} {ld i : BitVec 3} (h : s.ldFirst ld = some i) (k : BitVec 3 → State) :
    s.command false ld k = .next (k i) := by
  have hc : s.commandFor false ld = some i := h
  simp only [State.command, hc]

/-- One of an LD that presents none is answered Invalid Input (log 70). -/
theorem State.command_none {s : State} {ld : BitVec 3} (h : s.ldFirst ld = none) (k : BitVec 3 → State) :
    s.command false ld k = .next { s with replies := s.replies ++ [.invalidInput] } := by
  have hc : s.commandFor false ld = none := h
  simp only [State.command, hc]
  rfl

/-- The commands that only ask give one reply each, and change nothing but the number of the next free value. -/
theorem exec_query {s : State} {ld i : BitVec 3} (h : s.ldFirst ld = some i) (off len : Nat) (nonce : BitVec 512) :
    ∀ c ∈ [Instr.getEventRecords ld, .getFwInfo ld, .identifyMemoryDevice ld, .readLog ld off len, .getAttestationReport ld nonce],
      ∃ r f, exec c s = .next { s with replies := s.replies ++ [r], fresh := f } ∧ r ≠ .invalidInput ∧ r ≠ .busy := by
  simp only [List.forall_mem_cons, List.not_mem_nil, false_implies, implies_true, and_true]
  refine ⟨⟨_, s.fresh, State.command_of h _, ?_⟩, ⟨_, s.fresh, State.command_of h _, ?_⟩, ⟨_, s.fresh, State.command_of h _, ?_⟩,
    ⟨_, s.fresh, State.command_of h _, ?_⟩, ⟨_, s.fresh + 1, State.command_of h _, ?_⟩⟩ <;> exact ⟨nofun, nofun⟩

/-- Without an atoll every command is answered Invalid Input (log 70). -/
theorem exec_command_none {s : State} {ld : BitVec 3} (h : s.ldFirst ld = none) (image : FwImage) (slot : BitVec 1) (hdr : Word)
    (off len : Nat) (nonce : BitVec 512) (g : List FleetMember) :
    ∀ c ∈ [Instr.getEventRecords ld, .getFwInfo ld, .transferFw ld image, .activateFw ld slot, .identifyMemoryDevice ld,
        .setLaunchQueue ld hdr, .readSensors ld, .readLog ld off len, .getAttestationReport ld nonce, .setFleetGroup ld g],
      exec c s = .next { s with replies := s.replies ++ [.invalidInput] } := by
  simp only [List.forall_mem_cons, List.not_mem_nil, false_implies, implies_true, and_true]
  refine ⟨?_, ?_, ?_, ?_, ?_, ?_, ?_, ?_, ?_, ?_⟩ <;> exact State.command_none h _

/-- The entries of a list whose index passes form a sublist. -/
theorem filterMap_mapIdx_sublist {α : Type} (l : List α) : ∀ p : Nat → Bool,
    ((l.mapIdx fun n x => if p n then some x else none).filterMap fun x => x).Sublist l := by
  induction l with
  | nil => intro p; simp
  | cons x l ih =>
    intro p
    rw [List.mapIdx_cons]
    by_cases h : p 0 = true
    · simpa [h] using (ih fun n => p (n + 1)).cons_cons x
    · simpa [h] using (ih fun n => p (n + 1)).cons x

/-- What an LD may see of the readings are readings. -/
theorem State.readingsFor_sublist (s : State) (i : BitVec 3) : (s.readingsFor i).Sublist s.tabos.sensors :=
  filterMap_mapIdx_sublist s.tabos.sensors _

/-- Readings that were refreshed: 16 an island, one a stack, the rails and the package power. -/
theorem State.refreshed_length (s : State) : s.refreshed.tabos.sensors.length = 137 + Config.rails := by
  simp [State.refreshed]

/-- Read sensors answers with readings that are there, and refreshes them first where there are none yet (R354). -/
theorem exec_readSensors {s : State} {ld i : BitVec 3} (h : s.ldFirst ld = some i) :
    ∃ xs all f, exec (.readSensors ld) s = .next { s with
        tabos := { s.tabos with sensors := all }, replies := s.replies ++ [.sensors xs], fresh := f } ∧
      xs.Sublist all ∧ (s.tabos.sensors ≠ [] → all = s.tabos.sensors) ∧ (s.tabos.sensors = [] → all.length = 137 + Config.rails) := by
  have he : exec (.readSensors ld) s = .next ((if s.tabos.sensors = [] then s.refreshed else s).reply
      (.sensors ((if s.tabos.sensors = [] then s.refreshed else s).readingsFor i))) := State.command_of h _
  by_cases h0 : s.tabos.sensors = []
  · rw [if_pos h0] at he
    exact ⟨s.refreshed.readingsFor i, s.refreshed.tabos.sensors, s.refreshed.fresh, he, s.refreshed.readingsFor_sublist i,
      fun hne => absurd h0 hne, fun _ => s.refreshed_length⟩
  · rw [if_neg h0] at he
    exact ⟨s.readingsFor i, s.tabos.sensors, s.fresh, he, s.readingsFor_sublist i, fun _ => rfl, fun hz => absurd hz h0⟩

/-- The state once an image was accepted: it stands in the inactive slot, and this is logged and answered (R354, R355). -/
def State.acceptFw (s : State) (image : FwImage) : State :=
  let slot := ~~~s.tabos.active
  ({ s with tabos := { s.tabos with slots := s.tabos.slots.set slot.toNat (some image) slot.isLt } }.logTabos
    (.fwTransferred slot image.version)).reply .ok

theorem exec_transferFw {s : State} {ld i : BitVec 3} (h : s.ldFirst ld = some i) (image : FwImage) :
    exec (.transferFw ld image) s = .next (if s.imageOk image then s.acceptFw image else s.reply .invalidInput) :=
  State.command_of h _

/-- An accepted image goes into the inactive slot and leaves the active one (R355). -/
theorem State.acceptFw_slots (s : State) (image : FwImage) :
    (s.acceptFw image).tabos.slots[(~~~s.tabos.active).toNat]'(~~~s.tabos.active).isLt = some image ∧
      (s.acceptFw image).tabos.slots[s.tabos.active.toNat]'s.tabos.active.isLt =
        s.tabos.slots[s.tabos.active.toNat]'s.tabos.active.isLt := by
  have hne : ∀ a : BitVec 1, (~~~a).toNat ≠ a.toNat := by decide
  exact ⟨Vector.getElem_set_self (~~~s.tabos.active).isLt, Vector.getElem_set_ne (~~~s.tabos.active).isLt s.tabos.active.isLt (hne _)⟩

/-- The launch queue that the header at `key`, of address `hdr`, gives (R348). -/
def State.queueAt (s : State) (hdr : Word) (key : Nat) : LaunchQueue :=
  ⟨hdr, BitVec.ofNat 64 (leNat s (key + 16) 8), leNat s (key + 24) 8, BitVec.ofNat 64 (leNat s (key + 8) 8),
    if leNat s key 8 = leNat s (key + 8) 8 then some s.clk else none⟩

/-- A small number as a field at bit 0, and what lies above that. -/
theorem fld_small {x : Nat} (hx : x < 16) : fld (BitVec.ofNat 64 x) 0 4 = x ∧ fld (BitVec.ofNat 64 x) 4 60 = 0 := by
  unfold fld bits
  rw [BitVec.toNat_ofNat, Nat.mod_eq_of_lt (by omega), Nat.shiftRight_eq_div_pow, Nat.shiftRight_eq_div_pow]
  omega

/-- Two words of memory are equal as words exactly when the numbers are. -/
theorem ofNat_leNat_inj (s : State) (k l : Nat) :
    BitVec.ofNat 64 (leNat s k 8) = BitVec.ofNat 64 (leNat s l 8) ↔ leNat s k 8 = leNat s l 8 := by
  have hk := leNat_lt s k 8
  have hl := leNat_lt s l 8
  rw [← BitVec.toNat_inj, BitVec.toNat_ofNat, BitVec.toNat_ofNat]
  omega

/-- Set launch queue with a good header in reach of a dispatcher that is not busy sets the queue (R348). -/
theorem exec_setLaunchQueue {s : State} {ld i : BitVec 3} (h : s.ldFirst ld = some i) {hdr : Word} {key : Nat}
    (hb : s.queueBusy i = false) (hs : ScratchOf s (i ++ (0 : BitVec 7)) hdr 32 key) (ha : hdr.toNat % 64 = 0)
    (h1 : 1 ≤ leNat s (key + 24) 8) (h12 : leNat s (key + 24) 8 ≤ 12) (h32 : leNat s (key + 16) 8 % 32 = 0) :
    exec (.setLaunchQueue ld hdr) s =
      .next ({ s with tabos := { s.tabos with queues := s.tabos.queues.set i.toNat (some (s.queueAt hdr key)) i.isLt } }.reply .ok) := by
  obtain ⟨hlow, hhigh⟩ := fld_small (x := leNat s (key + 24) 8) (by omega)
  have hw := State.loadWords_scratch (w := ⟨Config.dispatcherPtbr i, .supervisor, i ++ (0 : BitVec 7)⟩) 4 hs
  show s.setLaunchQueue false ld hdr = _
  unfold State.setLaunchQueue
  rw [State.command_of h]
  simp only [hb, Bool.false_eq_true, if_false, hw]
  simp [List.range_succ, hlow, hhigh, ha, h32, Nat.one_le_iff_ne_zero.mp h1, Nat.not_lt.mpr h12, ofNat_leNat_inj, State.queueAt]

/-! ### The thermal trip and package reset -/

/-- A thermal trip stops the clocks, and the device reports that it has failed; the trip is logged (R357). -/
theorem exec_thermalTrip (s : State) : ∃ t c, exec .thermalTrip s = .next t ∧ t.stopped = true ∧ t.tabos.failed = true ∧
    t.tabos.ready = false ∧ t.tabos.log.getLast? = some (.thermalTrip c s.clk) ∧ t.h = s.h ∧ t.mem = s.mem :=
  ⟨_, _, rfl, rfl, rfl, rfl, State.logTabos_last _ _, rfl, rfl⟩

/-- A package reset leaves host memory as it is and zero elsewhere (R41, log 2, log 50). -/
theorem byte_hostMemory {m : Memory} (h : Memory.wf m = true) (a : Nat) :
    Memory.byte (m.filter fun c => decide (0x800000000000 ≤ c.1) && decide (c.1 < 2 ^ 48)) a =
      if 0x800000000000 ≤ a ∧ a < 2 ^ 48 then Memory.byte m a else 0 := by
  rw [Memory.byte_filter_key h fun k => decide (0x800000000000 ≤ k) && decide (k < 2 ^ 48)]
  simp only [Bool.and_eq_true, decide_eq_true_eq]

/-! ### Bring-up -/

/-- A hart as the dispatcher of the atoll whose first island is `i` starts (log 8). -/
def Hart.StartsDispatcher (i : BitVec 3) (h : Hart) : Prop :=
  h.lvl = .supervisor ∧ h.slot = .run ∧ h.pc = Config.dispatcherPc i &&& ~~~1

theorem State.dispatcher_starts (s : State) (i : BitVec 3) : (s.dispatcher i).StartsDispatcher i := ⟨rfl, rfl, rfl⟩

/-- Placing the dispatcher of one atoll puts it on that atoll's first core, and leaves those of the others. -/
theorem State.putDispatcher_starts {s : State} {i j : BitVec 3}
    (h : j = i ∨ (s.hart (j ++ (0 : BitVec 9))).StartsDispatcher j) :
    ((s.putHart (s.dispatcher i)).hart (j ++ (0 : BitVec 9))).StartsDispatcher j := by
  rw [State.hart_putHart (by exact Slot.noConfusion)]
  by_cases hid : j ++ (0 : BitVec 9) = (s.dispatcher i).id
  · have hfirst : ∀ x : BitVec 3, (x ++ (0 : BitVec 9)).extractLsb' 9 3 = x := by decide
    have hji : j = i := by
      rw [← hfirst j, hid]
      exact hfirst i
    rw [if_pos hid, hji]
    exact s.dispatcher_starts i
  · rw [if_neg hid]
    exact h.resolve_left fun hji => hid (hji ▸ rfl)

/-- Placing the dispatchers of some atolls puts each where it starts. -/
theorem placed_starts {j : BitVec 3} : ∀ (l : List (BitVec 3)) (s : State),
    (j ∈ l ∨ (s.hart (j ++ (0 : BitVec 9))).StartsDispatcher j) →
      ((l.foldl (fun (s : State) i => s.putHart (s.dispatcher i)) s).hart (j ++ (0 : BitVec 9))).StartsDispatcher j := by
  intro l
  induction l with
  | nil => intro s h; simpa using h
  | cons i l ih =>
    intro s h
    rw [List.mem_cons, or_assoc] at h
    refine ih _ ?_
    rcases h with hji | hl | hs
    · exact .inr (State.putDispatcher_starts (.inl hji))
    · exact .inl hl
    · exact .inr (State.putDispatcher_starts (.inr hs))

/-- Placing dispatchers changes harts alone. -/
theorem placed_frame : ∀ (l : List (BitVec 3)) (s : State),
    l.foldl (fun (s : State) i => s.putHart (s.dispatcher i)) s = { s with
      h := (l.foldl (fun (s : State) i => s.putHart (s.dispatcher i)) s).h
      others := (l.foldl (fun (s : State) i => s.putHart (s.dispatcher i)) s).others } := by
  intro l
  induction l with
  | nil => intro s; rfl
  | cons i l ih => intro s; rw [List.foldl_cons, ih, State.putHart_frame]

theorem State.placeDispatchers_frame (s : State) :
    s.placeDispatchers = { s with h := s.placeDispatchers.h, others := s.placeDispatchers.others } := placed_frame _ s

/-- Every island that is the first of its atoll has its dispatcher. -/
theorem State.placeDispatchers_starts {s : State} {i : BitVec 3} (h : s.atollFirst i = i.toNat) :
    (s.placeDispatchers.hart (i ++ (0 : BitVec 9))).StartsDispatcher i := by
  have hall : ∀ i : BitVec 3, i ∈ ([0, 1, 2, 3, 4, 5, 6, 7] : List (BitVec 3)) := by decide
  exact placed_starts _ s (.inl (List.mem_filter.mpr ⟨hall i, by simpa using h⟩))

/-- Configuring the atolls changes ATOLL and HLCACHE alone (R47, R342). -/
theorem State.configureAtolls_island (s : State) (i : BitVec 3) :
    s.configureAtolls.island i =
      { s.island i with atoll := (s.configureAtolls.island i).atoll, hlcache := (s.configureAtolls.island i).hlcache } := by
  simp [State.island, State.configureAtolls]

/-- The state of a boot that goes on, before the atolls are configured: what Tabos keeps of it, and the log (R355, R357). -/
def State.booted (s : State) : State :=
  { s with
    fresh := s.fresh + 1
    booting := false
    tabos := { s.tabos with rollback := max s.tabos.rollback (s.slotVersion s.tabos.active), ready := true } }.logTabos
      (.booted s.tabos.active)

theorem exec_firmwareBoot {s : State} (hb : s.booting = true) (hs : s.stopped = false) (h : s.slotBoots s.tabos.active = true) :
    exec .firmwareBoot s = .next s.booted.configureAtolls.placeDispatchers := by
  show execFirmwareBoot s = _
  unfold execFirmwareBoot
  rw [if_neg (by simp [hb, hs])]
  exact if_pos h

/-- A boot of an image that boots ends the bring-up: the atolls are configured, and each has its dispatcher (R357). -/
theorem exec_firmwareBoot_places {s : State} (hb : s.booting = true) (hs : s.stopped = false)
    (h : s.slotBoots s.tabos.active = true) : ∃ t, exec .firmwareBoot s = .next t ∧
      t.booting = false ∧ t.tabos.ready = true ∧ t.mem = s.mem ∧ t.tabos.log.getLast? = some (.booted s.tabos.active) ∧
      (∀ i, t.island i = { s.island i with atoll := (t.island i).atoll, hlcache := (t.island i).hlcache }) ∧
      ∀ i : BitVec 3, t.atollFirst i = i.toNat → (t.hart (i ++ (0 : BitVec 9))).StartsDispatcher i := by
  have hisl : ∀ i, s.booted.configureAtolls.placeDispatchers.island i = s.booted.configureAtolls.island i := by
    intro i; rw [State.placeDispatchers_frame]; rfl
  refine ⟨_, exec_firmwareBoot hb hs h, ?_, ?_, ?_, ?_, fun i => ?_, fun i hi => ?_⟩
  · rw [State.placeDispatchers_frame]; rfl
  · rw [State.placeDispatchers_frame]; rfl
  · rw [State.placeDispatchers_frame]; rfl
  · rw [State.placeDispatchers_frame]
    exact State.logTabos_last _ _
  · rw [hisl]
    exact State.configureAtolls_island s.booted i
  · refine State.placeDispatchers_starts ?_
    unfold State.atollFirst at hi ⊢
    rwa [hisl] at hi

/-- A boot of an image that does not boot goes back to the other slot (R355). -/
theorem exec_firmwareBoot_fails {s : State} (hb : s.booting = true) (hs : s.stopped = false)
    (h : s.slotBoots s.tabos.active = false) : ∃ t, exec .firmwareBoot s = .next t ∧ t.booting = true ∧
      t.tabos.active = ~~~s.tabos.active ∧ t.tabos.log.getLast? = some (.bootFailed s.tabos.active) ∧ t.h = s.h ∧
      t.others = s.others ∧ t.mem = s.mem := by
  have he : exec .firmwareBoot s = .next ({ s with
      fresh := s.fresh + 1
      tabos := { s.tabos with active := ~~~s.tabos.active, next := ~~~s.tabos.active } }.logTabos (.bootFailed s.tabos.active)) := by
    show execFirmwareBoot s = _
    unfold execFirmwareBoot
    rw [if_neg (by simp [hb, hs])]
    exact if_neg (by simp [h])
  exact ⟨_, he, hb, rfl, State.logTabos_last _ _, rfl, rfl, rfl⟩

/-- Settles O38, part by part: the host link, the mailbox with an atoll and without one, sensors, trip, reset and bring-up. -/
theorem hostAndTabos : Obligations.HostAndTabos := by
  unfold Obligations.HostAndTabos
  intro s hw
  refine ⟨?read, ?snoop, ?mailbox, ?none, ⟨_, rfl, s.refreshed_length, rfl⟩, exec_thermalTrip s, ?reset, ?boot⟩
  case read =>
    rintro ld o n key data hk rfl
    exact ⟨exec_hostHdmRead hk, _, exec_hostHdmWrite hk, State.byte_poke_bytes hw key data, State.memExcept_poke hw _ _ _, rfl⟩
  case snoop =>
    intro isl line x hl
    refine ⟨_, _, exec_snoop s isl line, exec_snoop_write s isl x hl, s.dropLine_not_mem isl _, ?_, rfl, fun i hi => ?_, ?_⟩
    · rw [State.island_poke]
      exact s.dropLine_not_mem isl _
    · exact State.byte_poke_word (s := s.dropLine isl line.toNat) hw _ _ x i hi
    · exact State.memExcept_poke (s := s.dropLine isl line.toNat) hw _ _ _
  case mailbox =>
    intro ld i image slot hdr off len nonce g hld
    refine ⟨exec_query hld off len nonce, exec_readSensors hld, fun hok => ?_, fun hno => ?_, ?_, State.command_of hld _, ?_⟩
    · obtain ⟨hin, hact⟩ := s.acceptFw_slots image
      exact ⟨s.acceptFw image, by rw [exec_transferFw hld, if_pos hok], rfl, hin, State.logTabos_last _ _, hact⟩
    · rw [exec_transferFw hld, hno]
      rfl
    · exact ⟨_, State.command_of hld _, State.logTabos_last _ _, rfl⟩
    · intro key hb hs ha h1 h12 h32
      exact ⟨_, exec_setLaunchQueue hld hb hs ha h1 h12 h32, rfl, Vector.getElem_set_self _⟩
  case none =>
    intro ld image slot hdr off len nonce g hld
    exact exec_command_none hld image slot hdr off len nonce g
  case reset =>
    exact ⟨_, rfl, rfl, rfl, rfl, rfl, rfl, rfl, rfl, rfl, rfl, rfl, rfl, rfl, byte_hostMemory hw⟩
  case boot =>
    intro hb hs _ ho
    refine ⟨exec_firmwareBoot_places hb hs, fun h => ?_⟩
    rw [← ho]
    exact exec_firmwareBoot_fails hb hs h

end Sys2Proof.Machine
end

section
/-! PROOFS. The encoding (03 R49 to R60): the round trip of every instruction, and the words that the spec writes out. -/

namespace Sys2Proof.Laws

/-- Every instruction comes back from its encoding, by its constructor. -/
theorem roundTrip : (i : Instr) → RoundTrip.Statement i
  | .add d a b => RoundTrip.add d a b
  | .sub d a b => RoundTrip.sub d a b
  | .and d a b => RoundTrip.and d a b
  | .or d a b => RoundTrip.or d a b
  | .xor d a b => RoundTrip.xor d a b
  | .andn d a b => RoundTrip.andn d a b
  | .sll d a b => RoundTrip.sll d a b
  | .srl d a b => RoundTrip.srl d a b
  | .sra d a b => RoundTrip.sra d a b
  | .slt d a b => RoundTrip.slt d a b
  | .sltn d a b => RoundTrip.sltn d a b
  | .min d a b => RoundTrip.min d a b
  | .max d a b => RoundTrip.max d a b
  | .minn d a b => RoundTrip.minn d a b
  | .maxn d a b => RoundTrip.maxn d a b
  | .mul d a b => RoundTrip.mul d a b
  | .mulh d a b => RoundTrip.mulh d a b
  | .mulhn d a b => RoundTrip.mulhn d a b
  | .div d a b => RoundTrip.div d a b
  | .divn d a b => RoundTrip.divn d a b
  | .rem d a b => RoundTrip.rem d a b
  | .remn d a b => RoundTrip.remn d a b
  | .clz d a => RoundTrip.clz d a
  | .popc d a => RoundTrip.popc d a
  | .sext d a w => RoundTrip.sext d a w
  | .zext d a w => RoundTrip.zext d a w
  | .addi d a i => RoundTrip.addi d a i
  | .andi d a i => RoundTrip.andi d a i
  | .ori d a i => RoundTrip.ori d a i
  | .xori d a i => RoundTrip.xori d a i
  | .slti d a i => RoundTrip.slti d a i
  | .sltni d a i => RoundTrip.sltni d a i
  | .slli d a n => RoundTrip.slli d a n
  | .srli d a n => RoundTrip.srli d a n
  | .srai d a n => RoundTrip.srai d a n
  | .lih d i => RoundTrip.lih d i
  | .addpc d i => RoundTrip.addpc d i
  | .xform a b k e => RoundTrip.xform a b k e
  | .xshift a b => RoundTrip.xshift a b
  | .xtoloc a b => RoundTrip.xtoloc a b
  | .xlshift a b => RoundTrip.xlshift a b
  | .xeval a b c k e => RoundTrip.xeval a b c k e
  | .xadmit a b c k e => RoundTrip.xadmit a b c k e
  | .xdirect a b c k e => RoundTrip.xdirect a b c k e
  | .xld a b => RoundTrip.xld a b
  | .xst a b => RoundTrip.xst a b
  | .xzero a b c => RoundTrip.xzero a b c
  | .xord a b => RoundTrip.xord a b
  | .xevalg a b c k e => RoundTrip.xevalg a b c k e
  | .fadd d a b => RoundTrip.fadd d a b
  | .fsub d a b => RoundTrip.fsub d a b
  | .fmul d a b => RoundTrip.fmul d a b
  | .fdiv d a b => RoundTrip.fdiv d a b
  | .fsqrt d a => RoundTrip.fsqrt d a
  | .fmin d a b => RoundTrip.fmin d a b
  | .fmax d a b => RoundTrip.fmax d a b
  | .feq d a b => RoundTrip.feq d a b
  | .flt d a b => RoundTrip.flt d a b
  | .fle d a b => RoundTrip.fle d a b
  | .fcvtFS d a => RoundTrip.fcvtFS d a
  | .fcvtSF d a => RoundTrip.fcvtSF d a
  | .fcvtFH d a => RoundTrip.fcvtFH d a
  | .fcvtFBf d a => RoundTrip.fcvtFBf d a
  | .fcvtHF d a => RoundTrip.fcvtHF d a
  | .fcvtBfF d a => RoundTrip.fcvtBfF d a
  | .fclass d a => RoundTrip.fclass d a
  | .ffma d a b c => RoundTrip.ffma d a b c
  | .ffms d a b c => RoundTrip.ffms d a b c
  | .fnma d a b c => RoundTrip.fnma d a b c
  | .fnms d a b c => RoundTrip.fnms d a b c
  | .beq a b o => RoundTrip.beq a b o
  | .bne a b o => RoundTrip.bne a b o
  | .blt a b o => RoundTrip.blt a b o
  | .bge a b o => RoundTrip.bge a b o
  | .bltn a b o => RoundTrip.bltn a b o
  | .bgen a b o => RoundTrip.bgen a b o
  | .jal d o => RoundTrip.jal d o
  | .jalr d a i => RoundTrip.jalr d a i
  | .lds g b w i => RoundTrip.lds g b w i
  | .sts g b w i => RoundTrip.sts g b w i
  | .ldo d a o s x => RoundTrip.ldo d a o s x
  | .sto a b o s x => RoundTrip.sto a b o s x
  | .amoAdd d a b o s => RoundTrip.amoAdd d a b o s
  | .amoAnd d a b o s => RoundTrip.amoAnd d a b o s
  | .amoOr d a b o s => RoundTrip.amoOr d a b o s
  | .amoXor d a b o s => RoundTrip.amoXor d a b o s
  | .amoMin d a b o s => RoundTrip.amoMin d a b o s
  | .amoMax d a b o s => RoundTrip.amoMax d a b o s
  | .amoSwap d a b o s => RoundTrip.amoSwap d a b o s
  | .amoCas d a b o s => RoundTrip.amoCas d a b o s
  | .amowAdd d a b o s => RoundTrip.amowAdd d a b o s
  | .amowAnd d a b o s => RoundTrip.amowAnd d a b o s
  | .amowOr d a b o s => RoundTrip.amowOr d a b o s
  | .amowXor d a b o s => RoundTrip.amowXor d a b o s
  | .amowMin d a b o s => RoundTrip.amowMin d a b o s
  | .amowMax d a b o s => RoundTrip.amowMax d a b o s
  | .amowSwap d a b o s => RoundTrip.amowSwap d a b o s
  | .amowCas d a b o s => RoundTrip.amowCas d a b o s
  | .fence o s => RoundTrip.fence o s
  | .csrrd d c => RoundTrip.csrrd d c
  | .csrwr d a c => RoundTrip.csrwr d a c
  | .csrset d a c => RoundTrip.csrset d a c
  | .csrclr d a c => RoundTrip.csrclr d a c
  | .strip d => RoundTrip.strip d
  | .vsettype d a => RoundTrip.vsettype d a
  | .limlt d a b => RoundTrip.limlt d a b
  | .limle d a b => RoundTrip.limle d a b
  | .limltn d a b => RoundTrip.limltn d a b
  | .setvl d a => RoundTrip.setvl d a
  | .mand d a b => RoundTrip.mand d a b
  | .mor d a b => RoundTrip.mor d a b
  | .mxor d a b => RoundTrip.mxor d a b
  | .mandn d a b => RoundTrip.mandn d a b
  | .mnot d a => RoundTrip.mnot d a
  | .mcopy d a => RoundTrip.mcopy d a
  | .mfill d => RoundTrip.mfill d
  | .mzero d => RoundTrip.mzero d
  | .mcount d a => RoundTrip.mcount d a
  | .mfirst d a => RoundTrip.mfirst d a
  | .mlast d a => RoundTrip.mlast d a
  | .mfromg d a b => RoundTrip.mfromg d a b
  | .mtog d a b => RoundTrip.mtog d a b
  | .ecall => RoundTrip.ecall
  | .eret => RoundTrip.eret
  | .wfi d => RoundTrip.wfi d
  | .brk => RoundTrip.brk
  | .tlbinv a b => RoundTrip.tlbinv a b
  | .frqpop d => RoundTrip.frqpop d
  | .ctxsave => RoundTrip.ctxsave
  | .ctxload => RoundTrip.ctxload
  | .bar d a b s => RoundTrip.bar d a b s
  | .waita d a b c => RoundTrip.waita d a b c
  | .chwait d a => RoundTrip.chwait d a
  | .chwaitId d a b => RoundTrip.chwaitId d a b
  | .qpush d a b => RoundTrip.qpush d a b
  | .qpop d a => RoundTrip.qpop d a
  | .qpopNb d a => RoundTrip.qpopNb d a
  | .launch d a => RoundTrip.launch d a
  | .yield => RoundTrip.yield
  | .exit => RoundTrip.exit
  | .barg d a b => RoundTrip.barg d a b
  | .vacq d i => RoundTrip.vacq d i
  | .vacqFail d i => RoundTrip.vacqFail d i
  | .vacqTile d i => RoundTrip.vacqTile d i
  | .vacqTileFail d i => RoundTrip.vacqTileFail d i
  | .vrel i => RoundTrip.vrel i
  | .cpread d a b => RoundTrip.cpread d a b
  | .cpmark d => RoundTrip.cpmark d
  | .vadd d a b k e f => RoundTrip.vadd d a b k e f
  | .vsub d a b k e f => RoundTrip.vsub d a b k e f
  | .vmul d a b k e f => RoundTrip.vmul d a b k e f
  | .vmulh d a b k e f => RoundTrip.vmulh d a b k e f
  | .vmin d a b k e f => RoundTrip.vmin d a b k e f
  | .vmax d a b k e f => RoundTrip.vmax d a b k e f
  | .vminn d a b k e f => RoundTrip.vminn d a b k e f
  | .vmaxn d a b k e f => RoundTrip.vmaxn d a b k e f
  | .vand d a b k e f => RoundTrip.vand d a b k e f
  | .vor d a b k e f => RoundTrip.vor d a b k e f
  | .vxor d a b k e f => RoundTrip.vxor d a b k e f
  | .vandn d a b k e f => RoundTrip.vandn d a b k e f
  | .vsll d a b k e f => RoundTrip.vsll d a b k e f
  | .vsrl d a b k e f => RoundTrip.vsrl d a b k e f
  | .vsra d a b k e f => RoundTrip.vsra d a b k e f
  | .vmerge d a b k e f => RoundTrip.vmerge d a b k e f
  | .vsadd d a b k e f => RoundTrip.vsadd d a b k e f
  | .vssub d a b k e f => RoundTrip.vssub d a b k e f
  | .vnshr d a b k e f => RoundTrip.vnshr d a b k e f
  | .vwmul d a b k e f => RoundTrip.vwmul d a b k e f
  | .vwmac d a b k e f => RoundTrip.vwmac d a b k e f
  | .vabs d a k e => RoundTrip.vabs d a k e
  | .vmulhn d a b k e f => RoundTrip.vmulhn d a b k e f
  | .vavg d a b k e f => RoundTrip.vavg d a b k e f
  | .vaddX d a b k e => RoundTrip.vaddX d a b k e
  | .vsubX d a b k e => RoundTrip.vsubX d a b k e
  | .vmulX d a b k e => RoundTrip.vmulX d a b k e
  | .vmulhX d a b k e => RoundTrip.vmulhX d a b k e
  | .vminX d a b k e => RoundTrip.vminX d a b k e
  | .vmaxX d a b k e => RoundTrip.vmaxX d a b k e
  | .vminnX d a b k e => RoundTrip.vminnX d a b k e
  | .vmaxnX d a b k e => RoundTrip.vmaxnX d a b k e
  | .vandX d a b k e => RoundTrip.vandX d a b k e
  | .vorX d a b k e => RoundTrip.vorX d a b k e
  | .vxorX d a b k e => RoundTrip.vxorX d a b k e
  | .vandnX d a b k e => RoundTrip.vandnX d a b k e
  | .vsllX d a b k e => RoundTrip.vsllX d a b k e
  | .vsrlX d a b k e => RoundTrip.vsrlX d a b k e
  | .vsraX d a b k e => RoundTrip.vsraX d a b k e
  | .vmergeX d a b k e => RoundTrip.vmergeX d a b k e
  | .vfadd d a b k e f => RoundTrip.vfadd d a b k e f
  | .vfsub d a b k e f => RoundTrip.vfsub d a b k e f
  | .vfmul d a b k e f => RoundTrip.vfmul d a b k e f
  | .vfdiv d a b k e f => RoundTrip.vfdiv d a b k e f
  | .vfmin d a b k e f => RoundTrip.vfmin d a b k e f
  | .vfmax d a b k e f => RoundTrip.vfmax d a b k e f
  | .vfsqrt d a k e => RoundTrip.vfsqrt d a k e
  | .vfabs d a k e => RoundTrip.vfabs d a k e
  | .vffma d a b k e f => RoundTrip.vffma d a b k e f
  | .vffms d a b k e f => RoundTrip.vffms d a b k e f
  | .vfnma d a b k e f => RoundTrip.vfnma d a b k e f
  | .vfnms d a b k e f => RoundTrip.vfnms d a b k e f
  | .vfaddX d a b k e => RoundTrip.vfaddX d a b k e
  | .vfsubX d a b k e => RoundTrip.vfsubX d a b k e
  | .vfmulX d a b k e => RoundTrip.vfmulX d a b k e
  | .vfdivX d a b k e => RoundTrip.vfdivX d a b k e
  | .vfminX d a b k e => RoundTrip.vfminX d a b k e
  | .vfmaxX d a b k e => RoundTrip.vfmaxX d a b k e
  | .vffmaX d a b k e => RoundTrip.vffmaX d a b k e
  | .vffmsX d a b k e => RoundTrip.vffmsX d a b k e
  | .vfnmaX d a b k e => RoundTrip.vfnmaX d a b k e
  | .vfnmsX d a b k e => RoundTrip.vfnmsX d a b k e
  | .vrcp d a k e => RoundTrip.vrcp d a k e
  | .vrsq d a k e => RoundTrip.vrsq d a k e
  | .vexp2 d a k e => RoundTrip.vexp2 d a k e
  | .vlog2 d a k e => RoundTrip.vlog2 d a k e
  | .vcmpEq d a b k e f => RoundTrip.vcmpEq d a b k e f
  | .vcmpNe d a b k e f => RoundTrip.vcmpNe d a b k e f
  | .vcmpLt d a b k e f => RoundTrip.vcmpLt d a b k e f
  | .vcmpLe d a b k e f => RoundTrip.vcmpLe d a b k e f
  | .vcmpLtn d a b k e f => RoundTrip.vcmpLtn d a b k e f
  | .vcmpLen d a b k e f => RoundTrip.vcmpLen d a b k e f
  | .vcmpLtX d a b k e => RoundTrip.vcmpLtX d a b k e
  | .vcmpGeX d a b k e => RoundTrip.vcmpGeX d a b k e
  | .vfcmpFeq d a b k e f => RoundTrip.vfcmpFeq d a b k e f
  | .vfcmpFne d a b k e f => RoundTrip.vfcmpFne d a b k e f
  | .vfcmpFlt d a b k e f => RoundTrip.vfcmpFlt d a b k e f
  | .vfcmpFle d a b k e f => RoundTrip.vfcmpFle d a b k e f
  | .vfcmpFltX d a b k e => RoundTrip.vfcmpFltX d a b k e
  | .vfcmpFgeX d a b k e => RoundTrip.vfcmpFgeX d a b k e
  | .vfcmpFunord d a b k e f => RoundTrip.vfcmpFunord d a b k e f
  | .vcvtFi d a u k e => RoundTrip.vcvtFi d a u k e
  | .vcvtIf d a u k e => RoundTrip.vcvtIf d a u k e
  | .vfwiden d a k e => RoundTrip.vfwiden d a k e
  | .vfnarrow d a k e => RoundTrip.vfnarrow d a k e
  | .vswiden d a k e => RoundTrip.vswiden d a k e
  | .vzwiden d a k e => RoundTrip.vzwiden d a k e
  | .vtrunc d a u k e => RoundTrip.vtrunc d a u k e
  | .vredsum d a b k e f => RoundTrip.vredsum d a b k e f
  | .vredmax d a b k e f => RoundTrip.vredmax d a b k e f
  | .vredmin d a b k e f => RoundTrip.vredmin d a b k e f
  | .vredmaxn d a b k e f => RoundTrip.vredmaxn d a b k e f
  | .vredminn d a b k e f => RoundTrip.vredminn d a b k e f
  | .vfredsum d a b k e f => RoundTrip.vfredsum d a b k e f
  | .vfredmax d a b k e f => RoundTrip.vfredmax d a b k e f
  | .vfredmin d a b k e f => RoundTrip.vfredmin d a b k e f
  | .vgatherr d a b k e f => RoundTrip.vgatherr d a b k e f
  | .vslideup d a b k e => RoundTrip.vslideup d a b k e
  | .vslidedn d a b k e => RoundTrip.vslidedn d a b k e
  | .vcompress d a k e => RoundTrip.vcompress d a k e
  | .vexpand d a k e => RoundTrip.vexpand d a k e
  | .viota d k => RoundTrip.viota d k
  | .vscan d a k e => RoundTrip.vscan d a k e
  | .vbcast d a b k e => RoundTrip.vbcast d a b k e
  | .vunpackb d a b k e => RoundTrip.vunpackb d a b k e
  | .vtbl d a b k e f => RoundTrip.vtbl d a b k e f
  | .vrand d a b k => RoundTrip.vrand d a b k
  | .vmovgv d a k => RoundTrip.vmovgv d a k
  | .vmovvg d a b e => RoundTrip.vmovvg d a b e
  | .planset p a => RoundTrip.planset p a
  | .planget d p => RoundTrip.planget d p
  | .vgchk d a p k e => RoundTrip.vgchk d a p k e
  | .vpack d a k e p => RoundTrip.vpack d a k e p
  | .vpackB d a k e p => RoundTrip.vpackB d a k e p
  | .vconv d a b k e f p => RoundTrip.vconv d a b k e f p
  | .vxtr d a n k e p => RoundTrip.vxtr d a n k e p
  | .vld v b k f => RoundTrip.vld v b k f
  | .vldff v b k f => RoundTrip.vldff v b k f
  | .vlds v b x k f => RoundTrip.vlds v b x k f
  | .vldx v b x k e w => RoundTrip.vldx v b x k e w
  | .vst v b k e f => RoundTrip.vst v b k e f
  | .vstn v b k e f => RoundTrip.vstn v b k e f
  | .vsts v b x k e f => RoundTrip.vsts v b x k e f
  | .vstx v b x k e w => RoundTrip.vstx v b x k e w
  | .vldbp v b k p => RoundTrip.vldbp v b k p
  | .vstbp v b k e p => RoundTrip.vstbp v b k e p
  | .vspill v b => RoundTrip.vspill v b
  | .vrefill v b => RoundTrip.vrefill v b
  | .vamoAdd v b x k e => RoundTrip.vamoAdd v b x k e
  | .vamoAnd v b x k e => RoundTrip.vamoAnd v b x k e
  | .vamoOr v b x k e => RoundTrip.vamoOr v b x k e
  | .vamoXor v b x k e => RoundTrip.vamoXor v b x k e
  | .vamoMin v b x k e => RoundTrip.vamoMin v b x k e
  | .vamoMax v b x k e => RoundTrip.vamoMax v b x k e
  | .vamoSwap v b x k e => RoundTrip.vamoSwap v b x k e
  | .strmdef d a => RoundTrip.strmdef d a
  | .strmend a => RoundTrip.strmend a
  | .copy d a => RoundTrip.copy d a
  | .evpop d => RoundTrip.evpop d
  | .gangbind d a b => RoundTrip.gangbind d a b
  | .gangfree => RoundTrip.gangfree
  | .vplane d a n k e => RoundTrip.vplane d a n k e
  | .vtoplane d a k e => RoundTrip.vtoplane d a k e
  | .vqscale d a b k e => RoundTrip.vqscale d a b k e
  | .vnarrow d a k e => RoundTrip.vnarrow d a k e
  | .vdeq d a n k e => RoundTrip.vdeq d a n k e
  | .pref d a b => RoundTrip.pref d a b
  | .land d a b => RoundTrip.land d a b
  | .pause d a b => RoundTrip.pause d a b
  | .grantq d a b => RoundTrip.grantq d a b
  | .hintNop d a b f => RoundTrip.hintNop d a b f
  | .cAddi d i => RoundTrip.cAddi d i
  | .cMv d s => RoundTrip.cMv d s
  | .cAdd d s => RoundTrip.cAdd d s
  | .cSub d s => RoundTrip.cSub d s
  | .cAnd d s => RoundTrip.cAnd d s
  | .cOr d s => RoundTrip.cOr d s
  | .cXor d s => RoundTrip.cXor d s
  | .cSll d s => RoundTrip.cSll d s
  | .cSra d s => RoundTrip.cSra d s
  | .cLd d b i => RoundTrip.cLd d b i
  | .cSt s b i => RoundTrip.cSt s b i
  | .cJ o => RoundTrip.cJ o
  | .cBeqz s o => RoundTrip.cBeqz s o
  | .cBnez s o => RoundTrip.cBnez s o
  | .cJr s => RoundTrip.cJr s
  | .cVadd d s => RoundTrip.cVadd d s
  | .cVsub d s => RoundTrip.cVsub d s
  | .cVmul d s => RoundTrip.cVmul d s
  | .cVfadd d s => RoundTrip.cVfadd d s
  | .cVfmul d s => RoundTrip.cVfmul d s
  | .cVffma d s => RoundTrip.cVffma d s
  | .cVmax d s => RoundTrip.cVmax d s
  | .cVfmax d s => RoundTrip.cVfmax d s
  | .cVaddX d s => RoundTrip.cVaddX d s
  | .cVsubX d s => RoundTrip.cVsubX d s
  | .cVmulX d s => RoundTrip.cVmulX d s
  | .cVfaddX d s => RoundTrip.cVfaddX d s
  | .cVfmulX d s => RoundTrip.cVfmulX d s
  | .cVffmaX d s => RoundTrip.cVffmaX d s
  | .cVmaxX d s => RoundTrip.cVmaxX d s
  | .cVfmaxX d s => RoundTrip.cVfmaxX d s
  | .tshape z m n k => RoundTrip.tshape z m n k
  | .twin z i => RoundTrip.twin z i
  | .tzero z => RoundTrip.tzero z
  | .tmma z a sa b sb ta tb pa pb ea eb => RoundTrip.tmma z a sa b sb ta tb pa pb ea eb
  | .tlda z a sa b t raw sm gm => RoundTrip.tlda z a sa b t raw sm gm
  | .tsta z a sa b t raw sm gm => RoundTrip.tsta z a sa b t raw sm gm
  | .tadd z zs => RoundTrip.tadd z zs
  | .tsync => RoundTrip.tsync
  | .tgang r c => RoundTrip.tgang r c
  | .csrWrite csr d a => RoundTrip.csrWrite csr d a
  | .vtypeWrite d a => RoundTrip.vtypeWrite d a
  | .lpartWrite d a => RoundTrip.lpartWrite d a
  | .preq d a => RoundTrip.preq d a
  | .cplogWrite d a => RoundTrip.cplogWrite d a
  | .trctlWrite d a => RoundTrip.trctlWrite d a
  | .atollWrite d a => RoundTrip.atollWrite d a
  | .dbgctlStop d a => RoundTrip.dbgctlStop d a
  | .dbgctlGo d a => RoundTrip.dbgctlGo d a
  | .clusterFrozen cl => RoundTrip.clusterFrozen cl
  | .dumpctlGo d a => RoundTrip.dumpctlGo d a
  | .dumpComplete => RoundTrip.dumpComplete
  | .preemption h units => RoundTrip.preemption h units
  | .waitTimeout h => RoundTrip.waitTimeout h
  | .barDeparture h => RoundTrip.barDeparture h
  | .waitaWake h => RoundTrip.waitaWake h
  | .chwaitReturn h => RoundTrip.chwaitReturn h
  | .qpopWake h => RoundTrip.qpopWake h
  | .qpushReply h status => RoundTrip.qpushReply h status
  | .tsyncReturn h => RoundTrip.tsyncReturn h
  | .copyChannelRoom h => RoundTrip.copyChannelRoom h
  | .gangFormed cl cores => RoundTrip.gangFormed cl cores
  | .vacqGrant h => RoundTrip.vacqGrant h
  | .ctxloadGrant h => RoundTrip.ctxloadGrant h
  | .wfiWake h => RoundTrip.wfiWake h
  | .registerWaitEnd h => RoundTrip.registerWaitEnd h
  | .producerArrival h r => RoundTrip.producerArrival h r
  | .vectorQueueRoom h => RoundTrip.vectorQueueRoom h
  | .pauseEnd h => RoundTrip.pauseEnd h
  | .yieldEnd h => RoundTrip.yieldEnd h
  | .laneBinding h cy => RoundTrip.laneBinding h cy
  | .sequencerUnit core => RoundTrip.sequencerUnit core
  | .streamPrefetch h n => RoundTrip.streamPrefetch h n
  | .gangStreamFetch cl cores n => RoundTrip.gangStreamFetch cl cores n
  | .copyTransferStart core ch => RoundTrip.copyTransferStart core ch
  | .copyComplete core ch => RoundTrip.copyComplete core ch
  | .hartPlacement isl => RoundTrip.hartPlacement isl
  | .launchComplete core id => RoundTrip.launchComplete core id
  | .launchRequest isl => RoundTrip.launchRequest isl
  | .governorCapChange core cap => RoundTrip.governorCapChange core cap
  | .trafficCounterWrite isl => RoundTrip.trafficCounterWrite isl
  | .straitBarArrival m => RoundTrip.straitBarArrival m
  | .straitBarDeparture m => RoundTrip.straitBarDeparture m
  | .straitQueuePush m => RoundTrip.straitQueuePush m
  | .straitCopyWrite m => RoundTrip.straitCopyWrite m
  | .straitFlitReplay port => RoundTrip.straitFlitReplay port
  | .straitPortLost port => RoundTrip.straitPortLost port
  | .narrowsLinkFailed link => RoundTrip.narrowsLinkFailed link
  | .hostHdmRead ld o n => RoundTrip.hostHdmRead ld o n
  | .hostHdmWrite ld o data => RoundTrip.hostHdmWrite ld o data
  | .getEventRecords ld => RoundTrip.getEventRecords ld
  | .getFwInfo ld => RoundTrip.getFwInfo ld
  | .transferFw ld image => RoundTrip.transferFw ld image
  | .activateFw ld slot => RoundTrip.activateFw ld slot
  | .identifyMemoryDevice ld => RoundTrip.identifyMemoryDevice ld
  | .setLaunchQueue ld hdr => RoundTrip.setLaunchQueue ld hdr
  | .readSensors ld => RoundTrip.readSensors ld
  | .readLog ld off len => RoundTrip.readLog ld off len
  | .getAttestationReport ld nonce => RoundTrip.getAttestationReport ld nonce
  | .setFleetGroup ld members => RoundTrip.setFleetGroup ld members
  | .sensorRefresh => RoundTrip.sensorRefresh
  | .hbmPatrolScrub stack => RoundTrip.hbmPatrolScrub stack
  | .thermalTrip => RoundTrip.thermalTrip
  | .packageReset => RoundTrip.packageReset
  | .firmwareBoot => RoundTrip.firmwareBoot
  | .hostLineCacheSnoop isl line data => RoundTrip.hostLineCacheSnoop isl line data
  | .narrowsFlitReplay link => RoundTrip.narrowsFlitReplay link
  | .straitRecordFetch pkg id => RoundTrip.straitRecordFetch pkg id

/-- Settles O58: the round trip of every constructor. -/
theorem decodeAndEncodeAgree : Obligations.DecodeAndEncodeAgree := by
  unfold Obligations.DecodeAndEncodeAgree
  intro i c hw he
  exact roundTrip i c hw he

/-- Settles O57, word by word: each is decoded to its fields, and these to the instruction or to none. -/
theorem decodingOfWrittenOutWords : Obligations.DecodingOfWrittenOutWords := by
  unfold Obligations.DecodingOfWrittenOutWords
  refine ⟨rfl, rfl, rfl, rfl, rfl, rfl, rfl, rfl, rfl, rfl, rfl, rfl, rfl, rfl, rfl, rfl, rfl, rfl⟩

end Sys2Proof.Laws
end

section
/-! PROOFS. The hints and FENCE (03 R61, R62, 06 R108, 14 R257): they move the PC on, but for what PAUSE and GRANTQ do. -/

namespace Sys2Proof.Machine

open Sys2Proof.Safety

/-! ### The harts of a state after a hart was put into the list -/

/-- What stands in a list into which a hart was put is that hart, or stood there before. -/
theorem mem_insertHart {x y : Hart} {ys : List Hart} (h : y ∈ insertHart x ys) : y = x ∨ y ∈ ys := by
  induction ys with
  | nil =>
    unfold insertHart at h
    split at h
    · exact absurd h List.not_mem_nil
    · exact .inl (List.mem_singleton.mp h)
  | cons z zs ih =>
    unfold insertHart at h
    split_ifs at h
    · exact .inr (List.mem_cons_of_mem z h)
    · exact (List.mem_cons.mp h).imp_right (List.mem_cons_of_mem z)
    · exact .inr h
    · exact List.mem_cons.mp h
    · exact (List.mem_cons.mp h).elim (fun hz => .inr (hz ▸ List.mem_cons_self)) fun hz =>
        (ih hz).imp_right (List.mem_cons_of_mem z)

/-- The hart found under a number bears it. -/
theorem State.hart_id (s : State) (id : HartId) : (s.hart id).id = id := by
  unfold State.hart
  split
  · rename_i h
    exact h.symm
  · cases hf : s.others.find? (fun x => x.id == id) with
    | none => rfl
    | some x => simpa using List.find?_some hf

/-- The hart that moves once a number is made the one that moves. -/
theorem State.focus_h (s : State) (id : HartId) : (s.focus id).h = s.hart id := by
  unfold State.focus State.hart
  split <;> rfl

/-- A hart found under a number is the one that moves, one of the others, or a FREE slot. -/
theorem State.hart_cases (s : State) (id : HartId) :
    (id = s.h.id ∧ s.hart id = s.h) ∨ (∃ y ∈ s.others, y.id = id ∧ s.hart id = y) ∨ s.hart id = Hart.reset id := by
  unfold State.hart
  split
  · rename_i h
    exact .inl ⟨h, rfl⟩
  · cases hf : s.others.find? (fun x => x.id == id) with
    | none => exact .inr (.inr rfl)
    | some y => exact .inr (.inl ⟨y, List.mem_of_find?_eq_some hf, by simpa using List.find?_some hf, rfl⟩)

/-- After an operation of the hart `id` on itself alone, that hart is what the operation made of it, or its slot is FREE. -/
theorem State.hart_onHart (s : State) (id : HartId) (f : Hart → Hart) (hf : (f (s.hart id)).id = id) :
    (s.onHart id fun u => { u with h := f u.h }).hart id = f (s.hart id) ∨
      (s.onHart id fun u => { u with h := f u.h }).hart id = Hart.reset id := by
  unfold State.onHart
  dsimp only
  rw [State.focus_h s id]
  by_cases hid : id = s.h.id
  · left
    have hs : s.hart id = s.h := by unfold State.hart; rw [if_pos hid]
    rw [hs] at hf ⊢
    have hm : s.focus id = s := by unfold State.focus; rw [if_pos hid]
    rw [hm]
    have hback : ({ s with h := f s.h } : State).focus s.h.id = { s with h := f s.h } := by
      unfold State.focus
      rw [if_pos (by rw [hf, hid])]
    rw [hback]
    unfold State.hart
    rw [if_pos hf.symm]
  · have ho : (s.focus id).others = insertHart s.h (s.others.filter fun x => x.id != id) := by
      unfold State.focus
      rw [if_neg hid]
    have hne : s.h.id ≠ (f (s.hart id)).id := by rw [hf]; exact Ne.symm hid
    set u : State := { s.focus id with h := f (s.hart id) } with hu
    have hfo : u.focus s.h.id =
        { u with h := u.hart s.h.id, others := insertHart u.h (u.others.filter fun x => x.id != s.h.id) } := by
      unfold State.focus
      rw [if_neg hne]
    rcases State.hart_cases (u.focus s.h.id) id with ⟨h, -⟩ | ⟨y, hy, hyid, h⟩ | h
    · rw [State.focus_h, State.hart_id] at h
      exact absurd h hid
    · rw [hfo] at hy
      rcases mem_insertHart hy with rfl | hy
      · exact .inl h
      · rcases mem_insertHart (ho ▸ (List.mem_filter.mp hy).1) with rfl | hy
        · exact absurd hyid.symm hid
        · simpa [hyid] using (List.mem_filter.mp hy).2
    · exact .inr h

/-! ### PAUSE ends -/

/-- A slot whose pause has ended is not paused. -/
theorem pauseEnd_not_paused {s t : State} {id : HartId} (h : exec (.pauseEnd id) s = .next t) : (t.hart id).paused = false := by
  have ht : t = s.onHart id fun u => { u with h := { u.h with paused := false } } := (Host.Outcome.next.inj h).symm
  subst ht
  rcases State.hart_onHart s id (fun h => { h with paused := false }) (State.hart_id s id) with e | e
  · rw [e]
  · rw [e]
    rfl

/-- The end of the pause of the slot that moves clears its pause alone. -/
theorem exec_pauseEnd_self (s : State) : exec (.pauseEnd s.h.id) s = .next { s with h := { s.h with paused := false } } := by
  show Host.Outcome.next (s.onHart s.h.id _) = _
  unfold State.onHart State.focus
  simp only [if_true]

/-! ### GRANTQ -/

/-- GRANTQ leaves gd, or writes SPAN to it and makes its word good; beyond that it changes the PC and the count of free values (R62). -/
theorem exec_grantq (s : State) (d a b : BitVec 5) :
    let past : State := { s with h := { s.h with pc := s.h.pc + 4 } }
    ∃ t, exec (.grantq d a b) s = .next t ∧ t = { past with h := { past.h with g := t.h.g, bad := t.h.bad }, fresh := t.fresh } ∧
      ((t.h.g = s.h.g ∧ t.h.bad = s.h.bad) ∨
        (PutsG s t d (BitVec.ofNat 64 (spanOf s.sampleGrant s.h.vtype)) ∧ GoodAgain s t [(1, d.toNat)])) ∧ (d = 0 → t.h.g = s.h.g) := by
  intro past
  have he : exec (.grantq d a b) s = .next ((if s.takeFree.1.getLsbD 0 then
      ({ s.takeFree.2 with h := s.h.mend fun b => b == (1, d.toNat) } : State).setG d (BitVec.ofNat 64 (spanOf s.sampleGrant s.h.vtype))
      else s.takeFree.2).adv 4) := rfl
  rw [he]
  obtain ⟨hm, hbad⟩ := Hart.mend_frame s.h fun b => b == (1, d.toNat)
  split
  · refine ⟨_, rfl, ?_, .inr ⟨fun r => ?_, fun w hw => ((hbad w).mp hw).1, fun w hw hd => (hbad w).mpr ⟨hw, ?_⟩⟩, ?_⟩
    · simp only [State.adv, State.setG]
      rw [hm]
      rfl
    · rw [State.getG_adv, State.getG_setG]
      simp only [State.getG]
      rw [hm]
    · simpa using hd
    · rintro rfl
      show (s.h.mend _).g = _
      rw [hm]
  · exact ⟨_, rfl, rfl, .inl ⟨rfl, rfl⟩, fun _ => rfl⟩

/-- FENCE up to package scope passes its check (R257). -/
theorem exec_fence {s : State} {sc : BitVec 3} (h : sc.toNat < 5) : exec (.fence 3 sc) s = .next (s.adv 4) := by
  have hsc : sc ≠ 5 := fun e => absurd (e ▸ h) (by decide)
  show execFence 3 sc s = _
  unfold execFence
  rw [State.check_pass (by simpa using hsc)]

/-- Settles O13: each hint is what its arm does; PAUSE, its end and GRANTQ by their lemmas. -/
theorem hintsChangeNothing : Obligations.HintsChangeNothing := by
  unfold Obligations.HintsChangeNothing
  intro s d a b f sc past
  exact ⟨rfl, rfl, rfl, exec_fence, rfl, exec_grantq s d a b, fun _ _ => pauseEnd_not_paused, exec_pauseEnd_self s⟩

end Sys2Proof.Machine
end

section
/-! PROOFS. Scalar accesses that are misaligned or that translation refuses (03 R63, 06 R98, 18 R337). -/

namespace Sys2Proof.Machine

open Sys2Proof.Safety

/-! ### What refuses an access -/

/-- An answer to an access of kind `k` at `va` that, where it refuses for anything but a failing word of a table, names `va` and the page
fault of the kind or an access violation (R337). -/
def Answered (k : AccKind) (va : Word) (r : Except Flt Place) : Prop :=
  ∀ f, r = .error f → f.cause ≠ 0x13 → f.eaddr = va ∧ (f.cause = 0x0A ∨ f.cause = k.pageFault)

theorem Answered.place {k : AccKind} {va : Word} (p : Place) : Answered k va (.ok p) := nofun

theorem Answered.page (k : AccKind) (va : Word) : Answered k va (.error ⟨k.pageFault, va⟩) := by
  rintro f ⟨⟩ -
  exact ⟨rfl, .inr rfl⟩

theorem Answered.violation (k : AccKind) (va : Word) : Answered k va (.error ⟨0x0A, va⟩) := by
  rintro f ⟨⟩ -
  exact ⟨rfl, .inl rfl⟩

theorem Answered.failing {k : AccKind} {va : Word} (x : Word) : Answered k va (.error ⟨0x13, x⟩) := by
  rintro f ⟨⟩ hc
  exact absurd rfl hc

theorem Answered.ite {k : AccKind} {va : Word} {c : Prop} [Decidable c] {r q : Except Flt Place} (hr : Answered k va r)
    (hq : Answered k va q) : Answered k va (if c then r else q) := by
  split
  · exact hr
  · exact hq

/-- The checks against a leaf, in the order of Table 18-6 (R337). -/
theorem State.checkLeaf_answered (s : State) (w : Who) (k : AccKind) (dev : Bool) (va : Word) (e : TlbEntry) :
    Answered k va (s.checkLeaf w k dev va e) := by
  have page := Answered.page k va
  have viol := Answered.violation k va
  exact page.ite (page.ite (viol.ite (page.ite (page.ite (viol.ite (viol.ite (viol.ite (viol.ite (.place _)))))))))

/-- What translation refuses, other than for a failing table word, it refuses at the address (R35 to R39, R337). -/
theorem State.translate_answered (s : State) (w : Who) (k : AccKind) (dev : Bool) (va : Word) :
    Answered k va (s.translate w k dev va) := by
  have page := Answered.page k va
  have viol := Answered.violation k va
  unfold State.translate
  refine viol.ite (.ite (viol.ite (.ite (.place _) (.ite (.place _) viol))) (page.ite ?_))
  split
  · exact page
  · exact viol
  · exact .failing _
  · exact s.checkLeaf_answered w k dev va _

/-- A load faults where its translation does. -/
theorem State.load_error {s : State} {dev : Bool} {va : Word} {n : Nat} {f : Flt} (h : s.translate s.who .read dev va = .error f) :
    s.load dev va n = .error f := by
  simp only [State.load, State.loadAs, h]

/-- A store faults where its translation does. -/
theorem State.store_error {s : State} {dev : Bool} {va : Word} {n x : Nat} {f : Flt}
    (h : s.translate s.who .write dev va = .error f) : s.store dev va n x = .error f := by
  simp only [State.store, State.storeAs, h]

/-- Where a store's translation fails there is nothing to lose. -/
theorem State.trapStore_error {s : State} {n : Nat} {va : Word} {f : Flt} (h : s.translate s.who .write true va = .error f) :
    s.trapStore n va f = s.trapPre f.cause f.eaddr := by
  have hl : s.loseBytes n va = s := by simp only [State.loseBytes, State.loseBytesAs, h]
  simp only [State.trapStore, hl, ite_self, State.trapFlt]

/-! ### The shared courses -/

/-- The bytes of a width code, in the model and in the statements. -/
theorem widthBytes_eq : ∀ w : BitVec 3, widthBytes w = codeBytes w := by decide

/-- A misaligned load traps. -/
theorem State.loadG_misaligned {s : State} {d : BitVec 5} {w : BitVec 3} {va : Word} {len : Nat}
    (h : va.toNat % codeBytes w ≠ 0) : s.loadG d w va len = s.trapPre 0x06 va := by
  unfold State.loadG
  simp only [widthBytes_eq, h, ne_eq, not_false_eq_true, decide_true]
  exact State.check_fail (cs := []) (by simp)

/-- An aligned load that translation refuses traps, with gd as it was. -/
theorem State.loadG_refused {s : State} {d : BitVec 5} {w : BitVec 3} {va : Word} {len : Nat} {f : Flt}
    (ha : va.toNat % codeBytes w = 0) (ht : s.translate s.who .read true va = .error f) (hc : f.cause ≠ 0x13) :
    s.loadG d w va len = s.trapPre f.cause f.eaddr := by
  unfold State.loadG
  rw [State.check_pass (by simp [widthBytes_eq, ha])]
  simp only [State.load_error ht, State.loseG, if_neg hc, State.trapFlt]

/-- A misaligned store traps. -/
theorem State.storeG_misaligned {s : State} {x : Word} {w : BitVec 3} {va : Word} {len : Nat}
    (h : va.toNat % codeBytes w ≠ 0) : s.storeG x w va len = s.trapPre 0x06 va := by
  unfold State.storeG
  simp only [widthBytes_eq, h, ne_eq, not_false_eq_true, decide_true]
  exact State.check_fail (cs := []) (by simp)

/-- An aligned store that translation refuses traps. -/
theorem State.storeG_refused {s : State} {x : Word} {w : BitVec 3} {va : Word} {len : Nat} {f : Flt}
    (ha : va.toNat % codeBytes w = 0) (ht : s.translate s.who .write true va = .error f) :
    s.storeG x w va len = s.trapPre f.cause f.eaddr := by
  unfold State.storeG
  rw [State.check_pass (by simp [widthBytes_eq, ha])]
  simp only [State.store_error ht, State.trapStore_error ht]

/-- A misaligned atomic traps. -/
theorem State.amo_misaligned {s : State} {d a b : BitVec 5} {o : BitVec 2} {sc : BitVec 3} {n : Nat} {f : Nat → Nat → Option Nat}
    (hs : sc ≠ 5) (h : (s.getG a).toNat % n ≠ 0) : s.amo d a b o sc n f = s.trapPre 0x06 (s.getG a) := by
  unfold State.amo
  simp only [h, ne_eq, not_false_eq_true, decide_true]
  exact State.check_fail (cs := [(sc == 5, 0x02, s.ir)]) (by simpa using hs)

/-! ### The instructions -/

/-- A scalar load runs as the shared course says. -/
theorem exec_scalarLoad {s : State} {i : Instr} {d : BitVec 5} {w : BitVec 3} {va : Word} {len : Nat}
    (h : scalarLoad s i = some (d, w, va, len)) : exec i s = s.loadG d w va len := by
  unfold scalarLoad at h
  split at h
  case h_1 d' b' w' i' =>
    obtain ⟨rfl, rfl, rfl, rfl⟩ := by simpa only [Option.some.injEq, Prod.mk.injEq] using h
    rfl
  case h_2 d' a' o' sc' w' =>
    split_ifs at h with hos
    obtain ⟨rfl, rfl, rfl, rfl⟩ := by simpa only [Option.some.injEq, Prod.mk.injEq] using h
    show execLdo _ _ _ _ _ s = _
    unfold execLdo
    rw [State.check_pass (by simpa [not_or] using hos)]
  case h_3 d' b' i' =>
    obtain ⟨rfl, rfl, rfl, rfl⟩ := by simpa only [Option.some.injEq, Prod.mk.injEq] using h
    rfl
  case h_4 => exact absurd h nofun

/-- A scalar store: STS and C.ST run as the shared course says, STO with the tag of a release beside it. -/
theorem exec_scalarStore {s : State} {i : Instr} {x : Word} {w : BitVec 3} {va : Word} {len : Nat} {r : Bool}
    (h : scalarStore s i = some (x, w, va, len, r)) :
    (va.toNat % codeBytes w ≠ 0 → exec i s = s.trapPre 0x06 va) ∧
    ∀ f, va.toNat % codeBytes w = 0 → s.translate s.who .write true va = .error f → exec i s = s.trapPre f.cause f.eaddr := by
  unfold scalarStore at h
  split at h
  case h_1 g b w' i' =>
    obtain ⟨rfl, rfl, rfl, rfl, rfl⟩ := by simpa only [Option.some.injEq, Prod.mk.injEq] using h
    exact ⟨State.storeG_misaligned, fun f => State.storeG_refused⟩
  case h_2 a b o sc w' =>
    split_ifs at h with hos
    obtain ⟨rfl, rfl, rfl, rfl, rfl⟩ := by simpa only [Option.some.injEq, Prod.mk.injEq] using h
    have hpass : ∀ c ∈ [(!(o == 0 || o == 2) || sc == 5, 0x02, s.ir)], c.1 = false := by
      have : ∀ (o : BitVec 2) (sc : BitVec 3), ¬(o = 1 ∨ o = 3 ∨ sc = 5) → (!(o == 0 || o == 2) || sc == 5) = false := by decide
      simpa using this o sc hos
    have he : exec (.sto a b o sc w') s = execSto a b o sc w' s := rfl
    rw [he]
    unfold execSto
    rw [State.check_pass hpass]
    refine ⟨fun ha => ?_, fun f ha ht => ?_⟩
    · simp only [widthBytes_eq, ha, ne_eq, not_false_eq_true, decide_true]
      exact State.check_fail (cs := []) (by simp)
    · rw [State.check_pass (by simp [widthBytes_eq, ha])]
      simp only [State.store_error ht, State.trapStore_error ht]
  case h_3 y b i' =>
    obtain ⟨rfl, rfl, rfl, rfl, rfl⟩ := by simpa only [Option.some.injEq, Prod.mk.injEq] using h
    exact ⟨State.storeG_misaligned, fun f => State.storeG_refused⟩
  case h_4 => exact absurd h nofun

/-- An atomic runs as the shared course says. -/
theorem exec_atomicOf {s : State} {i : Instr} {d a b : BitVec 5} {o : BitVec 2} {sc : BitVec 3} {n : Nat}
    {f : Nat → Nat → Option Nat} (h : atomicOf s i = some (d, a, b, o, sc, n, f)) : ∃ g, exec i s = s.amo d a b o sc n g := by
  unfold atomicOf at h
  split at h
  case h_17 => exact absurd h nofun
  all_goals
    simp only [Option.some.injEq, Prod.mk.injEq] at h
    obtain ⟨rfl, rfl, rfl, rfl, rfl, rfl, -⟩ := h
    exact ⟨_, rfl⟩

/-- Settles O8: misaligned accesses, then those that translation refuses, then what it refuses for. -/
theorem scalarAccessTraps : Obligations.ScalarAccessTraps := by
  unfold Obligations.ScalarAccessTraps
  refine ⟨fun s i _ => ⟨fun d w va len h ha => ?_, fun x w va len r h => (exec_scalarStore h).1, fun d a b o sc n f h hs ha => ?_⟩,
    fun s i _ => ⟨fun d w va len f h ha ht hc => ?_, fun x w va len r f h => (exec_scalarStore h).2 f, fun w k dev va f h hc => ?_⟩⟩
  · rw [exec_scalarLoad h, State.loadG_misaligned ha]
  · obtain ⟨g, hg⟩ := exec_atomicOf h
    rw [hg, State.amo_misaligned hs ha]
  · rw [exec_scalarLoad h, State.loadG_refused ha ht hc]
  · obtain ⟨ha, hf⟩ := s.translate_answered w k dev va f h hc
    exact ⟨ha, by cases k <;> exact hf⟩

end Sys2Proof.Machine
end

section
/-! PROOFS. The course of an element-wise vector instruction from its issue to its completion (09 R142 to R148, 03 R58, R59), and the
members with fused, single, merged and compact sources. -/

namespace Sys2Proof.Machine

open Sys2Proof.Safety

/-! ### The state in which an instruction does its work -/

/-- The state at the work of an instruction that has issued: LVD and what a compact form keeps of it are all that has changed. -/
def State.issuing (s : State) (rs : List Resume) (l : Word) : State := { s with h := { s.h with resume := rs, lvd := l } }

/-- Naming a destination, and keeping what LVD held, leads to such a state. -/
theorem State.issuing_named (s : State) (c : Bool) (d : BitVec 5) :
    (if c then { s with h := s.h.holdLvd } else s).setLvd (some d) =
      s.issuing (if c then s.h.holdLvd.resume else s.h.resume) (d.setWidth 64) := by
  cases c <;> rfl

@[simp] theorem State.img_issuing (s : State) (rs : List Resume) (l : Word) (r n : Nat) : (s.issuing rs l).h.img r n = s.h.img r n :=
  img_congr (h := s.h) (h' := (s.issuing rs l).h) rfl r n

/-- An element below SPAN is read as it stands. -/
theorem State.readElem_issuing (s : State) (rs : List Resume) (l : Word) (r n : Nat) {i : Nat} (hi : i < s.h.span) :
    (s.issuing rs l).h.readElem s.h.ew (s.h.img r n) i = el s r n s.h.ew i := if_pos hi

/-- An index below SPAN is active as the statements say. -/
theorem Hart.active_of_lt {s : State} {k : BitVec 3} {i : Nat} (hi : i < s.h.span) : s.h.active k.toNat i = isActive s k i := by
  have hk : (k.toNat == 0) = (k == 0) := by
    rw [Bool.eq_iff_iff, beq_iff_eq, beq_iff_eq]
    exact ⟨fun h => BitVec.eq_of_toNat_eq h, fun h => congrArg BitVec.toNat h⟩
  simp only [Hart.active, isActive, hi, decide_true, Bool.true_and, hk]

/-- Below SPAN an element is governed as the statements say (R143). -/
theorem State.govern_issuing (s : State) (rs : List Resume) (l : Word) (k : BitVec 3) (w : Nat) (D : Regs) (f : Nat → Nat × Flags)
    {i : Nat} (hi : i < s.h.span) :
    (s.issuing rs l).h.govern k.toNat w (s.h.img D.1 D.2) f i = masked s k w D f i := by
  have hact : (s.issuing rs l).h.active k.toNat i = isActive s k i := Hart.active_of_lt hi
  unfold Hart.govern masked
  rw [hact]
  rfl

/-- Under k0 every element is computed. -/
theorem masked_zero (s : State) (w : Nat) (D : Regs) (f : Nat → Nat × Flags) : masked s 0 w D f = f := by
  funext i
  simp [masked, isActive]

/-- An element under a mask depends on the function at its index alone. -/
theorem masked_congr {s : State} {k : BitVec 3} {w : Nat} {D : Regs} {f g : Nat → Nat × Flags} {i : Nat} (h : f i = g i) :
    masked s k w D f i = masked s k w D g i := by
  unfold masked
  rw [h]

/-! ### Groups and widths -/

/-- The model's test for groups is that of the statements (R21). -/
theorem aligned_iff {rs : List Regs} : aligned rs = true ↔ ∀ r ∈ rs, Safety.Group r := by
  simp only [aligned, List.all_eq_true, Regs.aligned, Bool.and_eq_true, decide_eq_true_eq, Safety.Group]

/-- Groups of one size that share a register are the same. -/
theorem partly_groups {g x y : Nat} (hx : Safety.Group (x, g)) (hy : Safety.Group (y, g)) : Regs.partly (x, g) (y, g) = false := by
  obtain ⟨p, rfl⟩ : g ∣ x := Nat.dvd_of_mod_eq_zero hx.1
  obtain ⟨q, rfl⟩ : g ∣ y := Nat.dvd_of_mod_eq_zero hy.1
  unfold Regs.partly Regs.overlap
  by_cases h : p = q
  · subst h
    simp
  · have hapart : ¬(g * p < g * q + g ∧ g * q < g * p + g) := by
      rintro ⟨h1, h2⟩
      rw [← Nat.mul_succ] at h1 h2
      have := Nat.lt_of_mul_lt_mul_left h1
      have := Nat.lt_of_mul_lt_mul_left h2
      omega
    simpa using fun h1 h2 => absurd ⟨h1, h2⟩ hapart

/-- Every width of a VTYPE is one of the four (Table 1-5). -/
theorem Hart.ewIn_all (h : Hart) : h.ewIn ewAll = true := by
  have hlt : fld h.vtype 0 2 < 4 := Nat.mod_lt _ (by decide)
  have hall : ∀ n < 4, ewAll.contains (8 * 2 ^ n) = true := by decide
  exact hall _ hlt

/-- The floating-point widths, in the model and in the statements (R145). -/
theorem Hart.ewIn_float {s : State} (h : widthOk s true) : s.h.ewIn ewFloat = true := by
  rcases (show s.h.ew = 16 ∨ s.h.ew = 32 from h) with h | h <;> simp [Hart.ewIn, ewFloat, h]

/-! ### The end of a run -/

/-- FST and EVX depend on the flags at the indices of the run alone. -/
theorem flagsAfter_congr {s t : State} {n : Nat} {f g : Nat → Flags} (h : FlagsAfter s t n f) (hfg : ∀ i < n, f i = g i) :
    FlagsAfter s t n g := by
  obtain ⟨hhigh, hlow⟩ := h
  refine ⟨hhigh, fun c hc => ⟨fun h0 => (hlow c hc).1 fun i hi => by rw [hfg i hi, h0 i hi], fun i hi h1 hleast => ?_⟩⟩
  refine (hlow c hc).2 i hi (by rw [hfg i hi, h1]) fun j hj => ?_
  rw [hfg j (hj.trans hi), hleast j hj]

/-- What an element-wise run leaves depends on the function below SPAN alone. -/
theorem elementwise_congr {s t : State} {len w : Nat} {D : Regs} {f g : Nat → Nat × Flags} {full : Vector Fullness 32}
    (h : Elementwise s t len w D f full) (hfg : ∀ i < s.h.span, f i = g i) : Elementwise s t len w D g full := by
  obtain ⟨hin, hout, hregs, hflags, hrest⟩ := h
  exact ⟨fun i hi => hfg i hi ▸ hin i hi, hout, hregs, flagsAfter_congr hflags fun i hi => by rw [hfg i hi], hrest⟩

/-- The register that LVD held before does not matter to what the run leaves. -/
theorem elementwise_of_issuing {s t : State} {l : Word} {len w : Nat} {D : Regs} {f : Nat → Nat × Flags} {full : Vector Fullness 32}
    (h : Elementwise (s.issuing s.h.resume l) t len w D f full) : Elementwise s t len w D f full := by
  obtain ⟨hin, hout, hregs, hflags, hrest⟩ := h
  refine ⟨hin, fun i hi hw => ?_, hregs, hflags, hrest⟩
  rw [hout i hi hw, el, el, State.img_issuing]

/-- The vector registers after an image is written depend on those before alone. -/
theorem setImg_v_congr {h h' : Hart} (hv : h'.v = h.v) (r n x : Nat) : (h'.setImg r n x).v = (h.setImg r n x).v := by
  induction n generalizing h h' r x with
  | zero => exact hv
  | succ n ih =>
    rw [Hart.setImg, Hart.setImg]
    exact ih (by rw [hv]) _ _

/-- Where nothing else is resumed, nothing is once a compact form completes. -/
theorem Hart.freeLvd_of_done (h : Hart) {rs : List Resume}
    (hrs : rs.filter (fun r => !(r.pc == h.pc && r.own && r.lvd.isSome)) = []) :
    ({ h with resume := rs } : Hart).freeLvd = { h with resume := [] } := by
  simp only [Hart.freeLvd, hrs]

/-- A compact form that runs to its end leaves what it would leave without keeping what LVD held (R58). -/
theorem elementwise_holdLvd {s : State} {w : Nat} {D : Regs} {f : Nat → Nat × Flags} (l : Word) (hr : s.h.resume = [])
    (hl : s.h.landing = none) (hq : s.h.quota = none) :
    (s.issuing s.h.holdLvd.resume l).elementwise 2 w D f = (s.issuing s.h.resume l).elementwise 2 w D f := by
  set u := s.issuing s.h.holdLvd.resume l with hu
  set v := s.issuing s.h.resume l with hv
  have hstart : u.h.start = v.h.start := (Hart.holdLvd_start hr).1.trans (start_fresh hr).symm
  have hstop : u.h.stopAt u.h.groupElems u.h.span = v.h.stopAt v.h.groupElems v.h.span := by
    rw [stopAt_none (h := u.h) hl hq, stopAt_none (h := v.h) hl hq]
    rfl
  have himg : u.h.img D.1 D.2 = v.h.img D.1 D.2 := by rw [hu, hv, State.img_issuing, State.img_issuing]
  have hheld : s.h.holdLvd.resume.filter (fun r => !(r.pc == s.h.pc && r.own && r.lvd.isSome)) = [] := by
    simp [Hart.holdLvd, hr, Resume.at]
  have hfree : ∀ x, (u.h.setImg D.1 D.2 x).freeLvd = (v.h.setImg D.1 D.2 x).freeLvd := by
    intro x
    rw [setImg_frame u.h, setImg_frame v.h, setImg_v_congr (h := v.h) (h' := u.h) rfl]
    set h : Hart := { v.h with v := (v.h.setImg D.1 D.2 x).v }
    exact (Hart.freeLvd_of_done h hheld).trans (Hart.freeLvd_of_done h (rs := s.h.resume) (by rw [hr]; rfl)).symm
  have hprior : ∀ x, (u.h.setImg D.1 D.2 x).prior = (v.h.setImg D.1 D.2 x).prior := by
    intro x
    rw [setImg_frame u.h, setImg_frame v.h]
    exact (Hart.holdLvd_start hr).2.trans (prior_fresh hr).symm
  have hspan : u.h.span = v.h.span := rfl
  unfold State.elementwise
  simp only [hstart, hstop, himg]
  rw [stopAt_none (h := v.h) hl hq, hspan, if_neg (Nat.lt_irrefl _), if_neg (Nat.lt_irrefl _)]
  simp only [State.retire, if_true, hfree, hprior]
  rfl

/-! ### From the issue to the end -/

/-- A register names a group of the hart that is held and full. -/
def Usable (s : State) (r : BitVec 5) : Prop := Safety.Group (r.toNat, s.h.grp) ∧ Held s (r.toNat, s.h.grp)

/-- An element-wise instruction whose checks pass, with its registers held and full, runs to its end: its work sees the registers as they
were at its issue. -/
theorem issue_elementwise {s : State} {u : VecUse} {d : BitVec 5} {len w g : Nat} {k : State → Result}
    {f : List Resume → Word → Nat → Nat × Flags} {F : Nat → Nat × Flags} (hF : Fresh s) (hu : u.lvd = some d)
    (hc : u.compact = (len == 2)) (hd : ∀ r ∈ u.dst, Held s r) (hs : ∀ p ∈ u.srcs, Held s p.1) (hch : ∀ c ∈ u.chain, Held s c.1)
    (hspan : s.h.span * w ≤ 32768 * g) (hin : d.toNat + g ≤ 32)
    (hk : ∀ rs l, k (s.issuing rs l) = (s.issuing rs l).elementwise len w (d.toNat, g) (f rs l))
    (hf : ∀ rs l, ∀ i < s.h.span, f rs l i = F i) :
    ∃ t, s.issue u false [] k = .next t ∧ Elementwise s t len w (d.toNat, g) F s.h.full := by
  obtain ⟨hrun, hres, hland, hquota, hbound, hmax⟩ := hF
  have hlvd : d.setWidth 64 = BitVec.ofNat 64 d.toNat := (BitVec.ofNat_toNat 64 d).symm
  have hends : ∀ rs, ∃ t, (s.issuing s.h.resume (d.setWidth 64)).elementwise len w (d.toNat, g) (f rs (d.setWidth 64)) = .next t ∧
      Elementwise s t len w (d.toNat, g) F s.h.full := by
    intro rs
    obtain ⟨t, ht, hel⟩ := elementwise_fresh (s := s.issuing s.h.resume (d.setWidth 64)) (len := len) (w := w) (dst := (d.toNat, g))
      (f := f rs (d.setWidth 64)) hres hland hquota hmax (by rw [Nat.mul_comm]; exact hspan) hin hlvd
    exact ⟨t, ht, elementwise_congr (elementwise_of_issuing hel) (hf rs _)⟩
  rw [issue_ready hrun hbound hd hs hch (by simp), hu, State.issuing_named, hk]
  by_cases h2 : len = 2
  · subst h2
    rw [if_pos (show u.compact = true from hc), elementwise_holdLvd _ hres hland hquota]
    exact hends _
  · rw [if_neg (by simpa [hc] using h2)]
    exact hends _

section Members

variable {s : State} {ws : List Nat} {d a b : BitVec 5}

/-- A member with two vector sources passes its checks (R145, R146). -/
theorem twoSources_legal (hw : s.h.ewIn ws = true) (hD : Usable s d) (hA : Usable s a) (hB : Usable s b) :
    (!s.h.ewIn ws || !aligned [(d.toNat, s.h.grp), (a.toNat, s.h.grp), (b.toNat, s.h.grp)] ||
      Regs.partly (d.toNat, s.h.grp) (a.toNat, s.h.grp) || Regs.partly (d.toNat, s.h.grp) (b.toNat, s.h.grp)) = false := by
  have hal : aligned [(d.toNat, s.h.grp), (a.toNat, s.h.grp), (b.toNat, s.h.grp)] = true :=
    aligned_iff.mpr (by simpa using ⟨hD.1, hA.1, hB.1⟩)
  rw [hw, hal, partly_groups hD.1 hA.1, partly_groups hD.1 hB.1]
  rfl

/-- A member with one vector source passes its checks. -/
theorem oneSource_legal (hw : s.h.ewIn ws = true) (hD : Usable s d) (hA : Usable s a) :
    (!s.h.ewIn ws || !aligned [(d.toNat, s.h.grp), (a.toNat, s.h.grp)] ||
      Regs.partly (d.toNat, s.h.grp) (a.toNat, s.h.grp)) = false := by
  have hal : aligned [(d.toNat, s.h.grp), (a.toNat, s.h.grp)] = true := aligned_iff.mpr (by simpa using ⟨hD.1, hA.1⟩)
  rw [hw, hal, partly_groups hD.1 hA.1]
  rfl

/-- The operation of the model computes the function of the statements on elements of its width, whatever is resumed and LVD holds. -/
def Computes (op : ElemOp) (fn : Fn2) : Prop :=
  ∀ (s : State) (rs : List Resume) (l : Word) (x y : Nat), x < 2 ^ s.h.ew → y < 2 ^ s.h.ew → op (s.issuing rs l).h x y = fn s.h x y

variable {k : BitVec 3} {e f : BitVec 1} {op : ElemOp} {fn : Fn2} {len : Nat} (hF : Fresh s)
  (hspan : s.h.span * s.h.ew ≤ 32768 * s.h.grp) (hD : Usable s d) (hA : Usable s a) (hB : Usable s b)
include hF hspan hD hA

/-- A member of equal width with two vector sources (R143). -/
theorem State.vv_gives (hB : Usable s b) (hw : s.h.ewIn ws = true) (hop : Computes op fn) :
    ∃ t, s.vv ws d a b k e f op len = .next t ∧ Elementwise s t len s.h.ew (d.toNat, s.h.grp)
      (masked s k s.h.ew (d.toNat, s.h.grp) fun i => fn s.h (el s a.toNat s.h.grp s.h.ew i) (el s b.toNat s.h.grp s.h.ew i)) s.h.full := by
  unfold State.vv
  simp only [twoSources_legal hw hD hA hB]
  refine issue_elementwise hF rfl rfl (by simpa using hD.2) (by simpa using ⟨hA.2, hB.2⟩) (by simpa using ⟨hA.2, hB.2⟩) hspan hD.1.2
    (fun _ _ => rfl) fun rs l i hi => ?_
  simp only [State.img_issuing]
  refine (s.govern_issuing rs l k _ (d.toNat, s.h.grp) _ hi).trans (masked_congr ?_)
  exact (congrArg₂ (op _) (s.readElem_issuing rs l _ _ hi) (s.readElem_issuing rs l _ _ hi)).trans
    (hop s rs l _ _ (elem_lt _ _ _) (elem_lt _ _ _))

/-- A member of equal width with a g register (R144). -/
theorem State.vx_gives (hw : s.h.ewIn ws = true) (hop : Computes op fn) :
    ∃ t, s.vx ws d a b k e op len = .next t ∧ Elementwise s t len s.h.ew (d.toNat, s.h.grp)
      (masked s k s.h.ew (d.toNat, s.h.grp) fun i => fn s.h (el s a.toNat s.h.grp s.h.ew i) ((s.getG b).toNat % 2 ^ s.h.ew))
      s.h.full := by
  unfold State.vx
  simp only [oneSource_legal hw hD hA]
  refine issue_elementwise hF rfl rfl (by simpa using hD.2) (by simpa using hA.2) (by simpa using hA.2) hspan hD.1.2
    (fun _ _ => rfl) fun rs l i hi => ?_
  simp only [State.img_issuing]
  refine (s.govern_issuing rs l k _ (d.toNat, s.h.grp) _ hi).trans (masked_congr ?_)
  exact (congrArg (op _ · _) (s.readElem_issuing rs l _ _ hi)).trans
    (hop s rs l _ _ (elem_lt _ _ _) (Nat.mod_lt _ (Nat.two_pow_pos _)))

/-- A member of equal width with one vector source. -/
theorem State.v1_gives (hw : s.h.ewIn ws = true) {op fn : Hart → Nat → Nat × Flags}
    (hop : ∀ rs l x, op (s.issuing rs l).h x = fn s.h x) :
    ∃ t, s.v1 ws d a k e op = .next t ∧ Elementwise s t 4 s.h.ew (d.toNat, s.h.grp)
      (masked s k s.h.ew (d.toNat, s.h.grp) fun i => fn s.h (el s a.toNat s.h.grp s.h.ew i)) s.h.full := by
  unfold State.v1
  simp only [oneSource_legal hw hD hA]
  refine issue_elementwise hF rfl rfl (by simpa using hD.2) (by simpa using hA.2) (by simpa using hA.2) hspan hD.1.2
    (fun _ _ => rfl) fun rs l i hi => ?_
  simp only [State.img_issuing]
  refine (s.govern_issuing rs l k _ (d.toNat, s.h.grp) _ hi).trans (masked_congr ?_)
  exact (congrArg (op _) (s.readElem_issuing rs l _ _ hi)).trans (hop rs l _)

/-- A fused member with two vector sources: vd is the addend (R154). -/
theorem State.vfma_gives (hB : Usable s b) (hw : s.h.ewIn ewFloat = true) (negP negA : Bool) :
    ∃ t, s.vfma d a b k e f negP negA len = .next t ∧ Elementwise s t len s.h.ew (d.toNat, s.h.grp)
      (masked s k s.h.ew (d.toNat, s.h.grp) fun i => fma3 negP negA s.h (el s a.toNat s.h.grp s.h.ew i)
        (el s b.toNat s.h.grp s.h.ew i) (el s d.toNat s.h.grp s.h.ew i)) s.h.full := by
  unfold State.vfma
  simp only [twoSources_legal hw hD hA hB]
  refine issue_elementwise hF rfl rfl (by simpa using hD.2) (by simpa using ⟨hA.2, hB.2⟩) (by simpa using ⟨hA.2, hB.2⟩) hspan hD.1.2
    (fun _ _ => rfl) fun rs l i hi => ?_
  simp only [State.img_issuing]
  refine (s.govern_issuing rs l k _ (d.toNat, s.h.grp) _ hi).trans (masked_congr ?_)
  exact congrArg₂ (fun x y => fma3 negP negA s.h x y (el s d.toNat s.h.grp s.h.ew i)) (s.readElem_issuing rs l _ _ hi)
    (s.readElem_issuing rs l _ _ hi)

/-- A fused member with a g register (R154). -/
theorem State.vfmaX_gives (hw : s.h.ewIn ewFloat = true) (negP negA : Bool) :
    ∃ t, s.vfmaX d a b k e negP negA len = .next t ∧ Elementwise s t len s.h.ew (d.toNat, s.h.grp)
      (masked s k s.h.ew (d.toNat, s.h.grp) fun i => fma3 negP negA s.h (el s a.toNat s.h.grp s.h.ew i)
        ((s.getG b).toNat % 2 ^ s.h.ew) (el s d.toNat s.h.grp s.h.ew i)) s.h.full := by
  unfold State.vfmaX
  simp only [oneSource_legal hw hD hA]
  refine issue_elementwise hF rfl rfl (by simpa using hD.2) (by simpa using hA.2) (by simpa using hA.2) hspan hD.1.2
    (fun _ _ => rfl) fun rs l i hi => ?_
  simp only [State.img_issuing]
  refine (s.govern_issuing rs l k _ (d.toNat, s.h.grp) _ hi).trans (masked_congr ?_)
  exact congrArg (fun x => fma3 negP negA s.h x ((s.getG b).toNat % 2 ^ s.h.ew) (el s d.toNat s.h.grp s.h.ew i))
    (s.readElem_issuing rs l _ _ hi)

/-- VMERGE takes the second source where the mask is 0 (R150). -/
theorem exec_vmerge (hB : Usable s b) : ∃ t, exec (.vmerge d a b k e f) s = .next t ∧
    Elementwise s t 4 s.h.ew (d.toNat, s.h.grp)
      (fun i => (if isActive s k i then el s a.toNat s.h.grp s.h.ew i else el s b.toNat s.h.grp s.h.ew i, 0)) s.h.full := by
  show ∃ t, execVmerge d a b k e f s = .next t ∧ _
  have hlegal := twoSources_legal s.h.ewIn_all hD hA hB
  rw [s.h.ewIn_all, Bool.not_true, Bool.false_or] at hlegal
  unfold execVmerge
  simp only [hlegal]
  refine issue_elementwise hF rfl rfl (by simpa using hD.2) (by simpa using ⟨hA.2, hB.2⟩) (by simpa using ⟨hA.2, hB.2⟩) hspan hD.1.2
    (fun _ _ => rfl) fun rs l i hi => ?_
  have hact : (s.issuing rs l).h.active k.toNat i = isActive s k i := Hart.active_of_lt hi
  simp only [State.img_issuing, Hart.merge, hact]
  exact congrArg₂ (fun x y => (if isActive s k i = true then x else y, (0 : Flags))) (s.readElem_issuing rs l _ _ hi)
    (s.readElem_issuing rs l _ _ hi)

/-- VMERGE.X takes the g register where the mask is 0 (R150). -/
theorem exec_vmergeX : ∃ t, exec (.vmergeX d a b k e) s = .next t ∧ Elementwise s t 4 s.h.ew (d.toNat, s.h.grp)
      (fun i => (if isActive s k i then el s a.toNat s.h.grp s.h.ew i else (s.getG b).toNat % 2 ^ s.h.ew, 0)) s.h.full := by
  show ∃ t, execVmergeX d a b k e s = .next t ∧ _
  have hlegal := oneSource_legal s.h.ewIn_all hD hA
  rw [s.h.ewIn_all, Bool.not_true, Bool.false_or] at hlegal
  unfold execVmergeX
  simp only [hlegal]
  refine issue_elementwise hF rfl rfl (by simpa using hD.2) (by simpa using hA.2) (by simpa using hA.2) hspan hD.1.2
    (fun _ _ => rfl) fun rs l i hi => ?_
  have hact : (s.issuing rs l).h.active k.toNat i = isActive s k i := Hart.active_of_lt hi
  simp only [State.img_issuing, Hart.merge, hact]
  exact congrArg (fun x => (if isActive s k i = true then x else (s.getG b).toNat % 2 ^ s.h.ew, (0 : Flags)))
    (s.readElem_issuing rs l _ _ hi)

omit hA in
/-- VMOVGV puts the g register into every active element (R168). -/
theorem exec_vmovgv : ∃ t, exec (.vmovgv d a k) s = .next t ∧ Elementwise s t 4 s.h.ew (d.toNat, s.h.grp)
      (masked s k s.h.ew (d.toNat, s.h.grp) fun _ => ((s.getG a).toNat % 2 ^ s.h.ew, 0)) s.h.full := by
  show ∃ t, execVmovgv d a k s = .next t ∧ _
  have hlegal : (!aligned [(d.toNat, s.h.grp)]) = false := by
    rw [aligned_iff.mpr (by simpa using hD.1)]
    rfl
  unfold execVmovgv
  simp only [hlegal]
  refine issue_elementwise hF rfl rfl (by simpa using hD.2) (by simp) (by simp) hspan hD.1.2 (fun _ _ => rfl) fun rs l i hi => ?_
  simp only [State.permActive, State.image, State.img_issuing]
  exact s.govern_issuing rs l k _ (d.toNat, s.h.grp) _ hi

end Members

end Sys2Proof.Machine
end

section
/-! PROOFS. What the element operations compute (09 R149 to R155, R159), and the members whose pipe writes vd after they have left
(01 R27). -/

namespace Sys2Proof.Machine

open Sys2Proof.Safety

/-! ### Element operations -/

theorem computes_add : Computes (pureOp eAdd) (int2 fun w x y => (x + y) % 2 ^ w) := fun _ _ _ _ _ _ _ => rfl

theorem computes_sub : Computes (pureOp eSub) (int2 fun w x y => ofSigned w ((x : Int) - y)) := by
  intro s rs l x y hx hy
  have hcast : (x : Int) - y + (2 ^ s.h.ew : Nat) = ((x + 2 ^ s.h.ew - y : Nat) : Int) := by omega
  show ((x + 2 ^ s.h.ew - y) % 2 ^ s.h.ew, (0 : Flags)) = (ofSigned s.h.ew ((x : Int) - y), 0)
  unfold ofSigned
  rw [← Int.add_emod_right, hcast, ← Int.natCast_emod, Int.toNat_natCast]

theorem computes_mul : Computes (pureOp eMul) (int2 fun w x y => x * y % 2 ^ w) := fun _ _ _ _ _ _ _ => rfl

theorem computes_max : Computes (pureOp eMax) (int2 fun w x y => if toSigned w y ≤ toSigned w x then x else y) := by
  intro s rs l x y _ _
  show (if toSigned s.h.ew x < toSigned s.h.ew y then y else x, (0 : Flags)) = (if toSigned s.h.ew y ≤ toSigned s.h.ew x then x else y, 0)
  by_cases h : toSigned s.h.ew x < toSigned s.h.ew y
  · rw [if_pos h, if_neg (not_le.mpr h)]
  · rw [if_neg h, if_pos (not_lt.mp h)]

theorem computes_fadd : Computes eFadd (fp2 fun f r x y => f.addV r x y) := fun _ _ _ _ _ _ _ => rfl

theorem computes_fmul : Computes eFmul (fp2 fun f r x y => f.mulV r x y) := fun _ _ _ _ _ _ _ => rfl

theorem computes_fmax : Computes eFmax (fun h x y => h.fmt.minmax true x y) := fun _ _ _ _ _ _ _ => rfl

/-- The clamp of the model is that of the statements (R109). -/
theorem clampS_eq (w : Nat) (x : Int) : clampS w x = satTo w x := by
  unfold clampS satTo
  have hp : ((2 ^ (w - 1) : Nat) : Int) = 2 ^ (w - 1) := by push_cast; rfl
  rw [hp]
  congr 1
  exact propext (by omega)

/-- Every member with one source computes its function, whatever is resumed and LVD holds. -/
theorem exec_unary {s : State} {d a : BitVec 5} {k : BitVec 3} {e u : BitVec 1} (hF : Fresh s)
    (hspan : s.h.span * s.h.ew ≤ 32768 * s.h.grp) (hD : Usable s d) (hA : Usable s a) :
    ∀ m ∈ unaryMembers u, widthOk s m.2.1 → ∃ t, exec (m.1 d a k e) s = .next t ∧ Elementwise s t 4 s.h.ew (d.toNat, s.h.grp)
      (masked s k s.h.ew (d.toNat, s.h.grp) fun i => m.2.2 s.h (el s a.toNat s.h.grp s.h.ew i)) s.h.full := by
  have float := fun (hw : widthOk s true) (fn : Hart → Nat → Nat × Flags) (hop : ∀ rs l x, fn (s.issuing rs l).h x = fn s.h x) =>
    State.v1_gives (k := k) (e := e) hF hspan hD hA (Hart.ewIn_float hw) hop
  simp only [unaryMembers, List.forall_mem_cons, List.not_mem_nil, false_implies, implies_true, and_true]
  refine ⟨fun _ => ?abs, fun hw => ?sqrt, fun hw => ?fabs, fun hw => ?cvtFi, fun hw => ?trunc, fun hw => ?cvtIf⟩
  case abs =>
    exact State.v1_gives hF hspan hD hA s.h.ewIn_all (op := fun h x => clampS h.ew (toSigned h.ew x).natAbs)
      (fn := fun h x => satTo h.ew (toSigned h.ew x).natAbs) fun _ _ _ => clampS_eq _ _
  case sqrt => exact float hw (fun h x => h.fmt.sqrtV (frmOf h.rmode) (h.fmt.unpack x)) fun _ _ _ => rfl
  case fabs => exact float hw (fun h x => h.fmt.absV x) fun _ _ _ => rfl
  case cvtFi => exact float hw (fun h x => toIntElem h (xrmOf h.rmode) u x) fun _ _ _ => rfl
  case trunc => exact float hw (fun h x => toIntElem h .rtz u x) fun _ _ _ => rfl
  case cvtIf =>
    exact float hw (fun h x => h.fmt.ofInt (frmOf h.rmode) (if u = 1 then (x : Int) else toSigned h.ew x)) fun _ _ _ => rfl

/-- Every fused member, in both forms (R154). -/
theorem exec_fused {s : State} {d a b : BitVec 5} {k : BitVec 3} {e f : BitVec 1} (hF : Fresh s)
    (hspan : s.h.span * s.h.ew ≤ 32768 * s.h.grp) (hD : Usable s d) (hA : Usable s a) (hw : widthOk s true) :
    ∀ m ∈ fmaMembers,
      (Usable s b → ∃ t, exec (m.1 d a b k e f) s = .next t ∧ Elementwise s t 4 s.h.ew (d.toNat, s.h.grp)
        (masked s k s.h.ew (d.toNat, s.h.grp) fun i => fma3 m.2.2.1 m.2.2.2 s.h (el s a.toNat s.h.grp s.h.ew i)
          (el s b.toNat s.h.grp s.h.ew i) (el s d.toNat s.h.grp s.h.ew i)) s.h.full) ∧
      ∃ t, exec (m.2.1 d a b k e) s = .next t ∧ Elementwise s t 4 s.h.ew (d.toNat, s.h.grp)
        (masked s k s.h.ew (d.toNat, s.h.grp) fun i => fma3 m.2.2.1 m.2.2.2 s.h (el s a.toNat s.h.grp s.h.ew i)
          ((s.getG b).toNat % 2 ^ s.h.ew) (el s d.toNat s.h.grp s.h.ew i)) s.h.full := by
  have both := fun negP negA => And.intro (fun hB : Usable s b =>
    State.vfma_gives (k := k) (e := e) (f := f) (len := 4) hF hspan hD hA hB (Hart.ewIn_float hw) negP negA)
    (State.vfmaX_gives (b := b) (k := k) (e := e) (len := 4) hF hspan hD hA (Hart.ewIn_float hw) negP negA)
  simp only [fmaMembers, List.forall_mem_cons, List.not_mem_nil, false_implies, implies_true, and_true]
  exact ⟨both false false, both false true, both true false, both true true⟩

/-! ### Compact forms (R58) -/

/-- The first source of a compact form is the register that LVD names. -/
theorem Hart.lastDest_toNat {h : Hart} (hr : h.resume = []) : h.lastDest.toNat = h.lvd.toNat % 32 := by
  unfold Hart.lastDest
  rw [Hart.lvdAtIssue_fresh hr]
  exact BitVec.toNat_setWidth 5 h.lvd

/-- A compact member and its form with a g register: what their 32-bit counterparts do under k0. -/
theorem compact_gives {s : State} {ws : List Nat} {d b : BitVec 5} {op : ElemOp} {fn : Fn2} (hF : Fresh s)
    (hspan : s.h.span * s.h.ew ≤ 32768 * s.h.grp) (hD : Usable s d) (hL : Usable s s.h.lastDest) (hw : s.h.ewIn ws = true)
    (hop : Computes op fn) :
    (Usable s b → ∃ t, s.vv ws d s.h.lastDest b 0 0 0 op 2 = .next t ∧ Elementwise s t 2 s.h.ew (d.toNat, s.h.grp)
      (fun i => fn s.h (el s (s.h.lvd.toNat % 32) s.h.grp s.h.ew i) (el s b.toNat s.h.grp s.h.ew i)) s.h.full) ∧
    ∃ t, s.vx ws d s.h.lastDest b 0 0 op 2 = .next t ∧ Elementwise s t 2 s.h.ew (d.toNat, s.h.grp)
      (fun i => fn s.h (el s (s.h.lvd.toNat % 32) s.h.grp s.h.ew i) ((s.getG b).toNat % 2 ^ s.h.ew)) s.h.full := by
  obtain ⟨hrun, hres, hrest⟩ := hF
  have hvv := fun hB : Usable s b => State.vv_gives (k := 0) (e := 0) (f := 0) (len := 2) ⟨hrun, hres, hrest⟩ hspan hD hL hB hw hop
  have hvx := State.vx_gives (b := b) (k := 0) (e := 0) (len := 2) ⟨hrun, hres, hrest⟩ hspan hD hL hw hop
  simp only [masked_zero, Hart.lastDest_toNat hres] at hvv hvx
  exact ⟨hvv, hvx⟩

/-- Every compact member but the fused one. -/
theorem exec_compact {s : State} {d b : BitVec 5} (hF : Fresh s) (hspan : s.h.span * s.h.ew ≤ 32768 * s.h.grp) (hD : Usable s d)
    (hL : Usable s s.h.lastDest) : ∀ m ∈ compactMembers, widthOk s m.2.2.2 →
      (Usable s b → ∃ t, exec (m.1 d b) s = .next t ∧ Elementwise s t 2 s.h.ew (d.toNat, s.h.grp)
        (fun i => m.2.2.1 s.h (el s (s.h.lvd.toNat % 32) s.h.grp s.h.ew i) (el s b.toNat s.h.grp s.h.ew i)) s.h.full) ∧
      ∃ t, exec (m.2.1 d b) s = .next t ∧ Elementwise s t 2 s.h.ew (d.toNat, s.h.grp)
        (fun i => m.2.2.1 s.h (el s (s.h.lvd.toNat % 32) s.h.grp s.h.ew i) ((s.getG b).toNat % 2 ^ s.h.ew)) s.h.full := by
  have onInt {op : ElemOp} {fn : Fn2} := compact_gives (b := b) (op := op) (fn := fn) hF hspan hD hL s.h.ewIn_all
  have onFloat {op : ElemOp} {fn : Fn2} (hw : widthOk s true) :=
    compact_gives (b := b) (op := op) (fn := fn) hF hspan hD hL (Hart.ewIn_float hw)
  simp only [compactMembers, List.forall_mem_cons, List.not_mem_nil, false_implies, implies_true, and_true]
  exact ⟨fun _ => onInt computes_add, fun _ => onInt computes_sub, fun _ => onInt computes_mul, fun _ => onInt computes_max,
    fun hw => onFloat hw computes_fadd, fun hw => onFloat hw computes_fmul, fun hw => onFloat hw computes_fmax⟩

/-- The compact fused form, in both forms. -/
theorem exec_compact_fused {s : State} {d b : BitVec 5} (hF : Fresh s) (hspan : s.h.span * s.h.ew ≤ 32768 * s.h.grp)
    (hD : Usable s d) (hL : Usable s s.h.lastDest) (hw : widthOk s true) :
    (Usable s b → ∃ t, exec (.cVffma d b) s = .next t ∧ Elementwise s t 2 s.h.ew (d.toNat, s.h.grp)
      (fun i => fma3 false false s.h (el s (s.h.lvd.toNat % 32) s.h.grp s.h.ew i) (el s b.toNat s.h.grp s.h.ew i)
        (el s d.toNat s.h.grp s.h.ew i)) s.h.full) ∧
    ∃ t, exec (.cVffmaX d b) s = .next t ∧ Elementwise s t 2 s.h.ew (d.toNat, s.h.grp)
      (fun i => fma3 false false s.h (el s (s.h.lvd.toNat % 32) s.h.grp s.h.ew i) ((s.getG b).toNat % 2 ^ s.h.ew)
        (el s d.toNat s.h.grp s.h.ew i)) s.h.full := by
  obtain ⟨hrun, hres, hrest⟩ := hF
  have hvv := fun hB : Usable s b => State.vfma_gives (k := 0) (e := 0) (f := 0) (len := 2) ⟨hrun, hres, hrest⟩ hspan hD hL hB
    (Hart.ewIn_float hw) false false
  have hvx := State.vfmaX_gives (b := b) (k := 0) (e := 0) (len := 2) ⟨hrun, hres, hrest⟩ hspan hD hL (Hart.ewIn_float hw) false false
  simp only [masked_zero, Hart.lastDest_toNat hres] at hvv hvx
  exact ⟨hvv, hvx⟩

/-! ### A pipe that writes later (R27) -/

/-- Of the numbers below `n` those of an interval are as many as it reaches. -/
theorem countP_interval (n a b : Nat) : (List.range n).countP (fun j => decide (j < b) && decide (a ≤ j)) = min n b - a := by
  induction n with
  | zero => simp
  | succ n ih =>
    rw [List.range_succ, List.countP_append, ih, List.countP_singleton]
    by_cases h : n < b ∧ a ≤ n
    · rw [if_pos (by simpa using h)]
      omega
    · rw [if_neg (by simpa using h)]
      omega

/-- The model counts the element groups that have bytes in a register as the statements do (R23, R27). -/
theorem groupsOf_eq (s : State) (total q : Nat) :
    groupsOf s total q = max 1 (min total ((4096 * (q + 1) + s.h.groupBytes - 1) / s.h.groupBytes) - 4096 * q / s.h.groupBytes) := by
  have hsize : groupBytes s = s.h.groupBytes := by
    unfold groupBytes Hart.groupBytes
    rw [Nat.mul_comm]
  have hpos : 0 < s.h.groupBytes := Nat.lt_of_lt_of_le Nat.one_pos (Nat.le_max_left _ _)
  unfold groupsOf
  rw [hsize, ← countP_interval]
  congr 1
  refine List.countP_congr fun j _ => ?_
  have hlow : 4096 * q < s.h.groupBytes * (j + 1) ↔ 4096 * q / s.h.groupBytes ≤ j := by
    rw [Nat.mul_comm s.h.groupBytes, ← Nat.div_lt_iff_lt_mul hpos, Nat.lt_succ_iff]
  have hhigh : s.h.groupBytes * j < 4096 * (q + 1) ↔ j < (4096 * (q + 1) + s.h.groupBytes - 1) / s.h.groupBytes := by
    rw [← Nat.add_one_le_iff (n := j), Nat.le_div_iff_mul_le hpos, Nat.add_mul j 1, Nat.mul_comm s.h.groupBytes j]
    omega
  simp only [Bool.and_eq_true, decide_eq_true_eq, hlow, hhigh]

/-- What is pending at a register of which nothing is written yet. -/
theorem Hart.pendingAt_new (s : State) (total q : Nat) (by_ : Producer) (img : BitVec 32768) :
    ∃ p, s.h.pendingAt total 0 q by_ img = some p ∧ p.by_ = by_ ∧ p.frontier = 0 ∧ p.groups = groupsOf s total q ∧ p.img = img := by
  unfold Hart.pendingAt
  dsimp only
  rw [Nat.zero_sub, if_neg (by omega)]
  exact ⟨_, rfl, rfl, rfl, (groupsOf_eq s total q).symm, rfl⟩

/-- What is pending depends on GRANT alone. -/
theorem Hart.pendingAt_full (h : Hart) (full : Vector Fullness 32) (total done q : Nat) (by_ : Producer) (img : BitVec 32768) :
    ({ h with full } : Hart).pendingAt total done q by_ img = h.pendingAt total done q by_ img := rfl

/-- A promise of which nothing is written yet empties its registers, each for what is to come, and changes nothing else. -/
theorem promise_new {s : State} {total : Nat} {by_ : Producer} : ∀ (n : Nat) (r q img : Nat) (full : Vector Fullness 32),
    ∃ full' : Vector Fullness 32, ({ s.h with full } : Hart).promise total 0 by_ r q n img = { s.h with full := full' } ∧
      (∀ m < 32, m < r ∨ r + n ≤ m → full'[m]? = full[m]?) ∧
      ∀ m, r ≤ m → m < r + n → m < 32 → ∃ p, full'[m]? = some (.empty p) ∧ p.by_ = by_ ∧ p.frontier = 0 ∧
        p.groups = groupsOf s total (q + (m - r)) ∧ p.img = BitVec.ofNat 32768 (img >>> (32768 * (m - r))) := by
  intro n
  induction n with
  | zero => exact fun r q img full => ⟨full, rfl, fun _ _ _ => rfl, fun m h1 h2 => absurd h1 (by omega)⟩
  | succ n ih =>
    intro r q img full
    obtain ⟨p, hp, hby, hfront, hgroups, himg⟩ := Hart.pendingAt_new s total q by_ (BitVec.ofNat 32768 img)
    obtain ⟨full', he, hout, hin⟩ := ih (r + 1) (q + 1) (img >>> 32768) (full.setIfInBounds r (.empty p))
    refine ⟨full', ?_, fun m hm ho => ?_, fun m h1 h2 hm => ?_⟩
    · rw [Hart.promise, Hart.pendingAt_full, hp]
      exact he
    · rw [hout m hm (by omega), Vector.getElem?_setIfInBounds_ne (by omega)]
    · by_cases hmr : m = r
      · subst hmr
        refine ⟨p, ?_, hby, hfront, by simpa using hgroups, by simpa using himg⟩
        rw [hout m hm (by omega)]
        simp [hm]
      · obtain ⟨x, hx, hxby, hxfront, hxgroups, hximg⟩ := hin m (by omega) (by omega) hm
        refine ⟨x, hx, hxby, hxfront, ?_, ?_⟩
        · rw [hxgroups]
          congr 1
          omega
        · rw [hximg, ← Nat.shiftRight_add]
          congr 2
          omega

/-- The image depends on its registers alone. -/
theorem img_congr_vreg {h h' : Hart} {r n : Nat} (hv : ∀ m, r ≤ m → m < r + n → h'.vreg m = h.vreg m) :
    h'.img r n = h.img r n := by
  induction n generalizing r with
  | zero => rfl
  | succ n ih => rw [img_succ, img_succ, ih fun m h1 h2 => hv m (by omega) (by omega), hv r le_rfl (by omega)]

/-- A register for which an image is pending holds it once all has arrived. -/
theorem vreg_arrived {t : State} {m : Nat} {p : Pending} (hm : m < 32) (hp : t.h.full[m]? = some (.empty p)) (hby : p.by_ = .pipe) :
    (arrived t).h.vreg m = p.img := by
  have hcoming : comingV t .pipe m = p.img := by
    unfold comingV
    rw [hp]
    exact if_pos hby
  show ((Vector.ofFn fun r : Fin 32 => comingV t .pipe r.val)[m]?).getD 0 = p.img
  rw [← hcoming, Vector.getElem?_ofFn, dif_pos hm]
  rfl

/-- The elements of registers into which elements from the first on are put. -/
theorem elem_setImg_put (h : Hart) {r n w i : Nat} (hr : r + n ≤ 32) (xs : List Nat) (hi : w * (i + 1) ≤ 32768 * n) :
    elem w ((h.setImg r n (putElems w (h.img r n) 0 xs)).img r n) i =
      if i < xs.length then xs.getD i 0 % 2 ^ w else elem w (h.img r n) i := by
  have hcut : ∀ x, elem w (x % 2 ^ (32768 * n)) i = elem w x i := by
    intro x
    apply Nat.eq_of_testBit_eq
    intro j
    rw [testBit_elem, testBit_elem, Nat.testBit_mod_two_pow]
    by_cases hj : j < w
    · have hlt : w * i + j < 32768 * n := by
        rw [Nat.mul_succ] at hi
        omega
      simp [hlt]
    · simp [hj]
  rw [img_setImg _ _ _ _ hr, hcut, elem_putElems]
  simp only [Nat.zero_le, true_and, Nat.zero_add, Nat.sub_zero]

/-- The state after a special-function member has left: LVD names vd, and its pipe is to write the image `img`. -/
theorem State.vsfu_leaves {s : State} {d a : BitVec 5} {k : BitVec 3} {e : BitVec 1} (hF : Fresh s) (hD : Usable s d) (hA : Usable s a)
    (hw : widthOk s true) (f : Fmt → FVal → Nat × Flags) :
    s.vsfu d a k e f = ({ s with
      h := (s.issuing s.h.resume (d.setWidth 64)).h.promiseGroup .pipe (d.toNat, s.h.grp)
        (putElems s.h.ew (s.h.img d.toNat s.h.grp) 0 (((List.range s.h.span).map
          (masked s k s.h.ew (d.toNat, s.h.grp) fun i => f s.h.fmt (s.h.fmt.unpack (el s a.toNat s.h.grp s.h.ew i)))).map Prod.fst)) } :
      State).retire 4 (raisedFrom 0 ((List.range s.h.span).map
        (masked s k s.h.ew (d.toNat, s.h.grp) fun i => f s.h.fmt (s.h.fmt.unpack (el s a.toNat s.h.grp s.h.ew i))))) := by
  obtain ⟨hrun, hres, hland, hquota, hbound, hmax⟩ := hF
  have hys : (List.range s.h.span).map ((s.issuing s.h.resume (d.setWidth 64)).h.govern k.toNat s.h.ew (s.h.img d.toNat s.h.grp)
        fun i => f s.h.fmt (s.h.fmt.unpack ((s.issuing s.h.resume (d.setWidth 64)).h.readElem s.h.ew (s.h.img a.toNat s.h.grp) i))) =
      (List.range s.h.span).map
        (masked s k s.h.ew (d.toNat, s.h.grp) fun i => f s.h.fmt (s.h.fmt.unpack (el s a.toNat s.h.grp s.h.ew i))) := by
    refine List.map_congr_left fun i hi => ?_
    have hlt : i < s.h.span := List.mem_range.mp hi
    rw [s.govern_issuing s.h.resume _ k _ (d.toNat, s.h.grp) _ hlt]
    refine masked_congr ?_
    rw [s.readElem_issuing _ _ _ _ hlt]
  unfold State.vsfu
  simp only [oneSource_legal (Hart.ewIn_float hw) hD hA]
  rw [issue_ready hrun hbound (by simpa using hD.2) (by simpa using hA.2) (by simp) (by simp)]
  simp only [State.issuing_named, State.img_issuing, ← hys]
  rfl

/-- What a pipe that is to write the elements `F` below SPAN of `dst` leaves, and brings (R27). -/
theorem elementwiseLater_of_promise {s : State} {l : Word} {dst : Regs} {w : Nat} {F : Nat → Nat × Flags} (hr : s.h.resume = [])
    (hmax : s.h.span ≤ 8192) (hspan : s.h.span * w ≤ 32768 * dst.2) (hdst : dst.1 + dst.2 ≤ 32) (hlvd : l = BitVec.ofNat 64 dst.1) :
    ∃ t, ({ s with
        h := (s.issuing s.h.resume l).h.promiseGroup .pipe dst
          (putElems w (s.h.img dst.1 dst.2) 0 (((List.range s.h.span).map F).map Prod.fst)) } : State).retire 4
          (raisedFrom 0 ((List.range s.h.span).map F)) = .next t ∧ ElementwiseLater s t 4 w dst F := by
  subst hlvd
  set l := BitVec.ofNat 64 dst.1
  set xs := ((List.range s.h.span).map F).map Prod.fst with hxs
  set img := putElems w (s.h.img dst.1 dst.2) 0 xs with himg
  obtain ⟨full, he, hout, hin⟩ := promise_new (s := s.issuing s.h.resume l) (total := stripGroups s) (by_ := .pipe) dst.2 dst.1 0 img
    s.h.full
  have hpromise : (s.issuing s.h.resume l).h.promiseGroup .pipe dst img = { (s.issuing s.h.resume l).h with full } := by
    rw [← he]
    unfold Hart.promiseGroup
    rw [start_fresh (h := (s.issuing s.h.resume l).h) hr, Nat.zero_div]
    rfl
  rw [hpromise]
  unfold State.retire
  rw [if_neg (by decide), prior_fresh (h := ({ (s.issuing s.h.resume l).h with full } : Hart)) hr]
  refine ⟨_, rfl, ?_⟩
  set t : State := ({ s with h := ({ (s.issuing s.h.resume l).h with full } : Hart).raise 0 (raisedFrom 0 ((List.range s.h.span).map F)) } :
    State).adv 4 with ht
  have hvreg : ∀ m, dst.1 ≤ m → m < dst.1 + dst.2 → (arrived t).h.vreg m = (s.h.setImg dst.1 dst.2 img).vreg m := by
    intro m h1 h2
    obtain ⟨p, hp, hby, -, -, hpi⟩ := hin m h1 h2 (by omega)
    rw [vreg_arrived (t := t) (by omega) hp hby, hpi, vreg_setImg, if_pos (by omega)]
  have hel : ∀ i, w * (i + 1) ≤ 32768 * dst.2 → el (arrived t) dst.1 dst.2 w i =
      if i < s.h.span then xs.getD i 0 % 2 ^ w else el s dst.1 dst.2 w i := by
    intro i hi
    rw [el, img_congr_vreg hvreg, himg, elem_setImg_put _ hdst _ hi, hxs, List.length_map, List.length_map, List.length_range]
    rfl
  refine ⟨fun i hi => ?_, fun i hi hw => ?_, flagsAfter_raise hmax hr rfl rfl, ⟨fun r hr ho => hout r hr ho, fun r h1 h2 => ?_⟩, rfl⟩
  · have hlast : w * (i + 1) ≤ 32768 * dst.2 := by
      rw [Nat.mul_comm]
      exact (Nat.mul_le_mul_right w hi).trans hspan
    rw [hel i hlast, if_pos hi]
    congr 1
    simp [hxs, hi]
  · rw [hel i hw, if_neg (by omega)]
  · obtain ⟨p, hp, hby, hfront, hgroups, -⟩ := hin r h1 h2 (by omega)
    refine ⟨p, hp, hby, hfront, ?_⟩
    rw [hgroups, Nat.zero_add, Nat.mod_eq_of_lt (show r - dst.1 < dst.2 by omega)]
    rfl

/-- A special-function member leaves at once; its pipe writes vd (R27, R155). -/
theorem State.vsfu_gives {s : State} {d a : BitVec 5} {k : BitVec 3} {e : BitVec 1} (hF : Fresh s)
    (hspan : s.h.span * s.h.ew ≤ 32768 * s.h.grp) (hD : Usable s d) (hA : Usable s a) (hw : widthOk s true)
    (f : Fmt → FVal → Nat × Flags) :
    ∃ t, s.vsfu d a k e f = .next t ∧ ElementwiseLater s t 4 s.h.ew (d.toNat, s.h.grp)
      (masked s k s.h.ew (d.toNat, s.h.grp) fun i => f s.h.fmt (s.h.fmt.unpack (el s a.toNat s.h.grp s.h.ew i))) := by
  rw [State.vsfu_leaves hF hD hA hw f]
  obtain ⟨hrun, hres, hland, hquota, hbound, hmax⟩ := hF
  exact elementwiseLater_of_promise hres hmax hspan hD.1.2 (BitVec.ofNat_toNat 64 d).symm

/-- Every special-function member. -/
theorem exec_sfu {s : State} {d a : BitVec 5} {k : BitVec 3} {e : BitVec 1} (hF : Fresh s)
    (hspan : s.h.span * s.h.ew ≤ 32768 * s.h.grp) (hD : Usable s d) (hA : Usable s a) (hw : widthOk s true) :
    ∀ m ∈ sfuMembers, ∃ t, exec (m.1 d a k e) s = .next t ∧ ElementwiseLater s t 4 s.h.ew (d.toNat, s.h.grp)
      (masked s k s.h.ew (d.toNat, s.h.grp) fun i => m.2 s.h.fmt (s.h.fmt.unpack (el s a.toNat s.h.grp s.h.ew i))) := by
  simp only [sfuMembers, List.forall_mem_cons, List.not_mem_nil, false_implies, implies_true, and_true]
  have gives := State.vsfu_gives (k := k) (e := e) hF hspan hD hA hw
  exact ⟨gives Fmt.rcpV, gives Fmt.rsqV, gives Fmt.exp2V, gives Fmt.log2V⟩

/-- Settles O40: each family by the course of its members. -/
theorem vectorFusedUnaryCompact : Obligations.VectorFusedUnaryCompact := by
  unfold Obligations.VectorFusedUnaryCompact
  intro s d a b k e f u hF g w D A B L x y z l gy gives hspan hDg hDh
  have hD : Usable s d := ⟨hDg, hDh⟩
  refine ⟨fun hAg hAh => ?_, exec_vmovgv hF hspan hD, fun hLg hLh => ?_⟩
  · have hA : Usable s a := ⟨hAg, hAh⟩
    refine ⟨fun m hm hw => ?_, exec_unary hF hspan hD hA, fun hBg hBh => exec_vmerge hF hspan hD hA ⟨hBg, hBh⟩, exec_vmergeX hF hspan hD hA,
      fun m hm hw => exec_sfu hF hspan hD hA hw m hm⟩
    obtain ⟨hvv, hvx⟩ := exec_fused (b := b) (f := f) hF hspan hD hA hw m hm
    exact ⟨fun hBg hBh => hvv ⟨hBg, hBh⟩, hvx⟩
  · obtain ⟨hrun, hres, hrest⟩ := hF
    have hL : Usable s s.h.lastDest := by
      unfold Usable
      rw [Hart.lastDest_toNat hres]
      exact ⟨hLg, hLh⟩
    refine ⟨fun m hm hw => ?_, fun hw => ?_⟩
    · obtain ⟨hvv, hvx⟩ := exec_compact (b := b) ⟨hrun, hres, hrest⟩ hspan hD hL m hm hw
      exact ⟨fun hBg hBh => hvv ⟨hBg, hBh⟩, hvx⟩
    · obtain ⟨hvv, hvx⟩ := exec_compact_fused (b := b) ⟨hrun, hres, hrest⟩ hspan hD hL hw
      exact ⟨fun hBg hBh => hvv ⟨hBg, hBh⟩, hvx⟩

end Sys2Proof.Machine
end

section
/-! PROOFS. Why the wait for a source that is not there, as it is stated, does not hold in every state (09 R147). -/

namespace Sys2Proof.Machine

open Sys2Proof.Safety

/-- Pending of a register all of whose 4096 bytes are written. -/
def writtenOut : Pending := { frontier := 1, groups := 1, size := 4096, off := 0, by_ := .pipe, img := 0 }

/-- A hart with a strip of 1024 elements of 32 bits in element groups of 6, whose v1 is empty with all its bytes written. -/
def hartWrittenOut : Hart :=
  { Hart.reset 0 with slot := .run, grant := 3, span := 1024, full := (Hart.reset 0).full.setIfInBounds 1 (.empty writtenOut) }

/-- The reset state with that hart. -/
def stateWrittenOut : State := { State.reset with h := hartWrittenOut }

theorem stateWrittenOut_fresh : Fresh stateWrittenOut := ⟨rfl, rfl, rfl, rfl, rfl, by decide⟩

theorem stateWrittenOut_grp : stateWrittenOut.h.grp = 1 := by decide

/-- The destination and the second source are held and full. -/
theorem stateWrittenOut_held {r : Nat} (hr : r = 0 ∨ r = 2) : Held stateWrittenOut (r, stateWrittenOut.h.grp) := by
  rw [stateWrittenOut_grp]
  intro j hj hj'
  obtain rfl : j = r := by omega
  rcases hr with rfl | rfl
  · exact ⟨by decide, by decide, by decide⟩
  · exact ⟨by decide, by decide, by decide⟩

/-- Where the elements that are there reach SPAN, an instruction that reads element group by element group goes on without a wait. -/
theorem readChained_ready {s : State} {u : VecUse} {k : State → Result} {n : Nat} {r : Regs} (hs : s.h.slot = .run)
    (hb : s.boundStreams = []) (hn : s.h.scarcest (if u.unit = 0 then s.h.groupElems else u.unit) u.chain = some (n, r))
    (hspan : s.h.span ≤ n) : s.readChained u k = k s := by
  unfold State.readChained
  simp only [hn, carryReads_free hb, endWait_run hs]
  split
  · next heq =>
    cases heq
    rw [if_pos hspan]
  · rfl

/-- VADD runs to its end there: every element of its source can be read. -/
theorem exec_writtenOut : ∃ t, exec (.vadd 0 1 2 0 0 0) stateWrittenOut = .next t ∧ t.h.slot = .run := by
  obtain ⟨hrun, hres, hland, hquota, hbound, hmax⟩ := stateWrittenOut_fresh
  set s := stateWrittenOut.setLvd (some 0) with hs
  obtain ⟨t, ht, -, -, -, -, hframe⟩ := elementwise_fresh (s := s) (len := 4) (w := s.h.ew) (dst := (0, s.h.grp))
    (f := s.h.govern 0 s.h.ew (s.h.img 0 s.h.grp) fun i => pureOp eAdd s.h (s.h.readElem s.h.ew (s.h.img 1 s.h.grp) i)
      (s.h.readElem s.h.ew (s.h.img 2 s.h.grp) i)) hres hland hquota hmax (by decide) (by decide) rfl
  refine ⟨t, ?_, by rw [hframe]; rfl⟩
  rw [← ht]
  show stateWrittenOut.vv ewAll 0 1 2 0 0 0 (pureOp eAdd) = _
  unfold State.vv State.issue
  have hempty : stateWrittenOut.h.emptyIn [((0 : BitVec 5).toNat, stateWrittenOut.h.grp)] = none := by decide
  simp only [hempty]
  rw [State.check_pass (by decide)]
  rw [if_neg (List.cons_ne_nil _ _)]
  refine readChained_ready (n := 1024) (r := (1, 1)) hrun hbound ?_ ?_
  · decide
  · decide

/-- Refutes O41: v1 may be empty although its producer has written all its bytes. The statement counts whole element groups of those
bytes, here 1020 of 1024 elements, and says that VADD waits there; the model takes such a register for read to its end, and VADD
completes. -/
theorem not_vectorIssueChecks : ¬ Obligations.VectorIssueChecks := by
  unfold Obligations.VectorIssueChecks
  intro h
  obtain ⟨-, hfull, -⟩ := h stateWrittenOut 0 1 2 0 0 0 rfl rfl _ List.mem_cons_self
  have hdst : ∀ r, 0 ≤ r ∧ r < 0 + stateWrittenOut.h.grp → ¬stateWrittenOut.h.isFull r = false := by
    rintro r ⟨h1, h2⟩
    simp [(stateWrittenOut_held (.inl rfl) r h1 h2).2.2]
  obtain ⟨-, hform⟩ := hfull hdst
  rw [stateWrittenOut_grp] at hform
  rcases hform (by simp [Safety.Group, Apart]) with ⟨r, ⟨hin, haway⟩, -⟩ | ⟨-, ⟨r, ⟨hhot, -⟩, -⟩ | ⟨-, hwait⟩⟩
  · have hr : r < 8 := by
      simp at hin
      omega
    simp [Hart.holdsV, hr] at haway
  · simp at hhot
  · obtain ⟨t, ht, ⟨since, hslot⟩, -⟩ := hwait stateWrittenOut_fresh (by decide) (1, 1) (by decide) (2, 1) (by decide) (by decide)
      (.inr (stateWrittenOut_held (.inr rfl))) 0 (by decide) writtenOut nofun rfl (by decide)
    obtain ⟨t', ht', hrun⟩ := exec_writtenOut
    have heq : t = t' := by
      have := ht.symm.trans ht'
      simpa using this
    rw [heq, hrun] at hslot
    exact absurd hslot nofun

end Sys2Proof.Machine
end

section
/-! PROOFS. From a step to the instruction at the PC: the turn, the boundary, the fetch and the decoding (03 R49, R50, R63, 04 R71, R72,
R87). -/

namespace Sys2Proof.Machine

open Sys2Proof.Safety

/-! ### Fetch (R49, R50) -/

section Fetch

variable {s u : State} {w : Who} {pc : Word} {p : BitVec 16} {ps : List (BitVec 16)}

/-- A parcel that is fetched is that at the place of its address, and fetching it leaves memory and the hart. -/
theorem State.fetchParcel_ok (h : s.fetchParcel w pc = .ok (p, u)) :
    u.h = s.h ∧ ∃ x, s.translate w .fetch false pc = .ok x ∧ p = BitVec.ofNat 16 (Memory.read s.mem x.key 2) := by
  unfold State.fetchParcel at h
  split at h
  · exact absurd h nofun
  · next x hx =>
    split at h
    · exact absurd h nofun
    · obtain ⟨rfl, rfl⟩ := by simpa using h
      exact ⟨s.account_h w x 2 0, x, hx, rfl⟩

/-- Fetching `n` parcels gives `n`, and leaves the hart. -/
theorem State.fetchMore_ok {n : Nat} (h : s.fetchMore w pc n = .ok (ps, u)) : u.h = s.h ∧ ps.length = n := by
  induction n generalizing s pc ps with
  | zero =>
    obtain ⟨rfl, rfl⟩ := by simpa [State.fetchMore] using h
    exact ⟨rfl, rfl⟩
  | succ n ih =>
    unfold State.fetchMore at h
    split at h
    · exact absurd h nofun
    · next p t hp =>
      split at h
      · exact absurd h nofun
      · next qs t' hq =>
        obtain ⟨rfl, rfl⟩ := by simpa using h
        obtain ⟨hh, hlen⟩ := ih hq
        exact ⟨hh.trans (State.fetchParcel_ok hp).1, congrArg (· + 1) hlen⟩

theorem parcelCount_pos (n : Nat) : 0 < parcelCount n := by
  unfold parcelCount
  split
  · decide
  · split <;> decide

/-- A fetch gives parcel 0 and as many as it announces, and leaves the hart. -/
theorem State.fetch_ok (h : s.fetch w pc = .ok (ps, u)) :
    u.h = s.h ∧ ∃ x p, s.translate w .fetch false pc = .ok x ∧ ps.head? = some p ∧
      p = BitVec.ofNat 16 (Memory.read s.mem x.key 2) ∧ ps.length = parcelCount p.toNat := by
  unfold State.fetch at h
  split at h
  · exact absurd h nofun
  · next p t hp =>
    split at h
    · exact absurd h nofun
    · next qs t' hq =>
      obtain ⟨rfl, rfl⟩ := by simpa using h
      obtain ⟨hh, x, hx, hread⟩ := State.fetchParcel_ok hp
      obtain ⟨hh', hlen⟩ := State.fetchMore_ok hq
      refine ⟨hh'.trans hh, x, p, hx, rfl, hread, ?_⟩
      rw [List.length_cons, hlen, Nat.sub_add_cancel (parcelCount_pos _)]

end Fetch

/-! ### A boundary at which nothing is due (R71, R72) -/

/-- Nothing else is resumed than the instruction at the PC. -/
def Hart.ResumesHere (h : Hart) : Prop := h.resume = [] ∨ ∃ r, h.resume = [r] ∧ r.pc = h.pc

/-- What is resumed at the PC is not gone past. -/
theorem Hart.goneOn_here {h : Hart} (hr : h.ResumesHere) : h.goneOn false = h := by
  unfold Hart.goneOn
  rcases hr with hr | ⟨r, hr, hpc⟩
  · rw [if_pos hr]
  · have hleft : h.resume.filter (fun r => none != some r.pc && h.ahead r) = h.resume := by
      rw [hr]
      simp [Hart.ahead, hpc]
    have hkeeps : (h.resume.any (fun r => !r.own) && h.resume.all (fun r => r.own)) = false := by
      rw [hr]
      simp
    rw [if_neg (by simp [hr])]
    simp only [hleft, hkeeps]
    rfl

/-- Then no convoy has members behind its head. -/
theorem State.fellows_here {s : State} (hr : s.h.ResumesHere) : s.fellows.length ≤ 1 := by
  have hteam : s.h.team.length ≤ 1 := by
    refine (List.length_filter_le _ _).trans ?_
    rcases hr with hr | ⟨r, hr, -⟩ <;> simp [hr]
  unfold State.fellows
  dsimp only
  split
  · exact Nat.zero_le _
  · exact le_rfl
  · next r rs hrs ht =>
    rw [ht] at hteam
    exact absurd (by simpa using hteam) hrs

theorem State.laggard_here {s : State} (hr : s.h.ResumesHere) : s.laggard = none := by
  unfold State.laggard
  split
  · unfold Hart.laggard
    refine List.find?_eq_none.mpr fun j hj => ?_
    have := State.fellows_here hr
    have : j = 0 := by
      have := List.mem_range.mp hj
      omega
    simp [this]
  · rfl

/-- Then the turn is that of the instruction at the PC. -/
theorem State.issueTurn_here {s : State} (hr : s.h.ResumesHere) : s.issueTurn = s.issueNext := by
  have hlen := State.fellows_here hr
  unfold State.issueTurn
  dsimp only
  split
  · rfl
  · split
    · next c0 c1 cs hcs =>
      have := congrArg List.length hcs
      rw [List.length_map, List.length_cons, List.length_cons] at this
      omega
    · rfl

/-- The hart that moves is in RUN and nothing is due at the boundary before its PC. -/
structure Undisturbed (s : State) : Prop where
  agenda : s.agenda = []
  stopped : s.stopped = false
  booting : s.booting = false
  engine : s.engineTurn = none
  freeze : (s.cluster s.myCluster).freeze = .running
  slot : s.h.slot = .run
  mcheck : s.h.mcheck = none
  watch : s.h.watch = none
  advisory : s.h.advisory = none
  branch : s.h.branch = none
  resumes : s.h.ResumesHere
  preempt : s.h.mayPreempt = false ∨ s.h.landAt ≠ none
  paused : s.h.paused = false
  yielding : s.h.yielding = []

namespace Undisturbed

variable {s : State} (hs : Undisturbed s)
include hs

theorem due_none : s.due = (none, s) := by
  have hlands : s.landsNow = false := by
    unfold State.landsNow
    rcases hs.preempt with h | h
    · simp [h]
    · obtain ⟨n, hn⟩ := Option.ne_none_iff_exists'.mp h
      simp [hn]
  have hbranch : ({ s.h with branch := none } : Hart) = s.h := by rw [← hs.branch]
  unfold State.due
  split
  · next a h => exact absurd (hs.watch.symm.trans h) nofun
  · dsimp only
    split
    · next a h => exact absurd (hs.advisory.symm.trans h) nofun
    · rw [if_neg (by simp [hs.branch]), if_neg (by simp [hlands]), hbranch]

/-- The hart issues the instruction at its PC. -/
theorem runMove_eq : s.runMove = s.issueNext := by
  have hgone : ({ s with h := s.h.goneOn false } : State) = s := by rw [Hart.goneOn_here hs.resumes]
  have hyield : s.yieldCheck = s := by
    unfold State.yieldCheck
    rw [hs.yielding, List.filter_nil, ← hs.yielding]
  unfold State.runMove
  simp only [hgone, State.laggard_here hs.resumes, hs.due_none, hs.paused, hyield, hs.yielding, State.issueTurn_here hs.resumes]
  simp

/-- The step is the issue of that instruction; then the turn passes on and time goes on. -/
theorem step_eq : step s = match s.issueNext with
    | .next t => .next (s.tick (if t.stall then s else t).rotate)
    | y => y := by
  have hmove : s.hartMove = s.issueNext := by
    unfold State.hartMove
    rw [hs.freeze]
    show s.ownTurn = _
    unfold State.ownTurn
    simp only [hs.slot, hs.mcheck, hs.runMove_eq]
  have hturn : s.ownMove = match s.issueNext with
      | .next t => .next (if t.stall then s else t).rotate
      | y => y := by
    unfold State.ownMove State.hartTurn
    simp [hs.booting, hs.engine, hs.slot, hmove] <;> rfl
  unfold step
  simp only [hs.agenda, hs.stopped, hturn]
  cases s.issueNext <;> rfl

end Undisturbed

/-! ### The run of what is decoded (R63, R87) -/

/-- The state in which the instruction `x` runs: its word is noted, and it starts at 0 when Table 20-1 gives it no position. -/
def State.readied (u : State) (us : Uses) (x : Fetched) : State :=
  { u with
    ir := BitVec.ofNat 64 x.bits
    h := if us.pipe.isSome = true ∨ us.goesOn = true then u.h
      else { u.h with resume := u.h.resume.map fun r => if r.pc = u.h.pc then { r with at_ := 0 } else r } }

/-- The effect of an instruction with what its completion leaves. -/
def State.runs (us : Uses) (i : Instr) (x : Fetched) (w : State) : Result :=
  match w.effect us i x with
  | .next t => .next ((t.finish w.h us x).issued w.h.id)
  | y => y

/-- An instruction that resumes at the PC starts at 0. -/
theorem Hart.afresh_eq (h : Hart) :
    h.afresh = { h with resume := h.resume.map fun r => if r.pc = h.pc then { r with at_ := 0 } else r } := by
  unfold Hart.afresh
  split
  · next hr =>
    cases h
    subst hr
    rfl
  · rfl

/-- An instruction that can enter the queue, with no tile instruction in it that has units to run, runs now. -/
theorem State.runInstr_eq {u : State} {i : Instr} {x : Fetched} (hdefer : u.h.defer = false) (hq : u.h.deferring = false)
    (hroom : (usesOf u.useCtx x.len x.bits).pipe.isSome = true → u.h.vq.length < 16) :
    u.runInstr i x = (u.readied (usesOf u.useCtx x.len x.bits) x).afterQueue (State.runs (usesOf u.useCtx x.len x.bits) i x) := by
  set us := usesOf u.useCtx x.len x.bits with hus
  have hfull : (us.pipe.isSome && decide (16 ≤ u.h.vq.length)) = false := by
    cases hp : us.pipe.isSome with
    | false => rfl
    | true => simpa using hroom hp
  have hready : ({ u with
        ir := BitVec.ofNat 64 x.bits
        h := { (if us.pipe.isSome || us.goesOn then u.h else u.h.afresh) with
          defer := u.h.defer && (tileOpOf x.len x.bits == 7 || x.deferrable) } } : State) = u.readied us x := by
    unfold State.readied
    rw [hdefer, Bool.false_and, Hart.afresh_eq]
    by_cases hc : us.pipe.isSome = true ∨ us.goesOn = true
    · rw [if_pos hc, if_pos (by simpa using hc), ← hdefer]
    · rw [if_neg hc, if_neg (by simpa using hc), ← hdefer]
  unfold State.runInstr
  rw [← hready, ← hus]
  simp only [hfull, hdefer, hq]
  rfl

/-- The effect of an instruction is that of `exec` where no failing register is consumed and no machine check is due beside a pre-emption
that lands in it. -/
theorem State.effect_eq {w : State} {us : Uses} {i : Instr} {x : Fetched} (hc : w.consumes us x.len x.bits = [])
    (hm : ∀ t, exec i w = .next t → t.trapped = true → t.h.ecause = 0x12 → w.mayFail = false) : w.effect us i x = exec i w := by
  have hrun : w.runConsuming us x.len x.bits (exec i w) = exec i w := by
    unfold State.runConsuming
    simp only [hc, if_true, ite_self]
  unfold State.effect
  simp only [hrun]
  split
  · next t ht =>
    rw [if_neg ?_, ht]
    intro h
    simp only [Bool.and_eq_true, beq_iff_eq] at h
    obtain ⟨⟨htrap, hcause⟩, hfail⟩ := h
    simp [hm t ht htrap hcause] at hfail
  · rfl

/-- What stands in the queue finishes before an operation that traps or empties it. -/
theorem State.afterQueue_finishes {s t : State} {f : State → Result} (hq : s.h.vq ≠ []) (hf : f s = .next t)
    (ht : t.trapped = true ∨ (t.hart s.h.id).vq = []) : s.afterQueue f = f s.finishQueue := by
  unfold State.afterQueue
  rcases ht with ht | ht <;> simp [hf, hq, ht]

/-- Before any other operation it goes on. -/
theorem State.afterQueue_leaves {s : State} {f : State → Result}
    (h : s.h.vq = [] ∨ ∀ t, f s = .next t → t.trapped = false ∧ (t.hart s.h.id).vq ≠ []) : s.afterQueue f = f s := by
  rcases h with h | h
  · exact State.afterQueue_empty f h
  · match hf : f s with
    | .next t => exact State.afterQueue_keeps hf (h t hf).1 (h t hf).2
    | .refused _ => simp [State.afterQueue, hf]
    | .fault _ => simp [State.afterQueue, hf]

@[simp] theorem State.readied_vq (u : State) (us : Uses) (x : Fetched) : (u.readied us x).h.vq = u.h.vq := by
  unfold State.readied
  dsimp only
  split <;> rfl

/-- Settles O56: the step issues the instruction at the PC, whose fetch leaves the hart, and which runs when it has been decoded. -/
theorem stepRunsTheDecodedInstruction : Obligations.StepRunsTheDecodedInstruction := by
  unfold Obligations.StepRunsTheDecodedInstruction
  intro s u ps hagenda hstopped hbooting hengine hfreeze hslot hmcheck hwatch hadvisory hbranch hresume hdefer hq hpre hpaused hyield hfetch
  have hs : Undisturbed s := ⟨hagenda, hstopped, hbooting, hengine, hfreeze, hslot, hmcheck, hwatch, hadvisory, hbranch, hresume, hpre,
    hpaused, hyield⟩
  obtain ⟨hh, p, p₀, htr, hhead, hread, hlen⟩ := State.fetch_ok hfetch
  have hdeferring : u.h.deferring = false := by
    rw [hh]
    exact List.any_eq_false.mpr fun q hmem => by simp [hq q hmem]
  refine ⟨⟨p, p₀, htr, hhead, by rw [leNat_eq_read, hread], hlen⟩, fun hnone => ?_, fun i hi hroom => ⟨?_, ?_, ?_, ?_⟩⟩
  · rw [hs.step_eq]
    unfold State.issueNext
    simp only [hfetch, hnone, hdeferring]
    rfl
  · have hissue : s.issueNext = u.runInstr i (fetchedOf s.h.pc ps) := by
      unfold State.issueNext
      simp only [hfetch, hi, hh]
    rw [hs.step_eq, hissue, State.runInstr_eq (by rw [hh, hdefer]) hdeferring hroom]
    rfl
  · intro h
    exact State.afterQueue_leaves (s := u.readied _ _) (f := State.runs _ i _) (by rw [State.readied_vq]; exact h)
  · intro t hvq hrun ht
    exact State.afterQueue_finishes (s := u.readied _ _) (f := State.runs _ i _) (by rw [State.readied_vq]; exact hvq) hrun ht
  · intro w hc hm
    exact State.effect_eq hc hm

end Sys2Proof.Machine
end

section
/-! PROOFS. Integer register and immediate instructions (06 R88 to R90, 03 R57). -/

namespace Sys2Proof.Machine

/-! ### The operation by which a scalar instruction ends -/

/-- Past it gd and the PC are all that has changed. -/
theorem State.setGAdv_frame (s : State) (d : BitVec 5) (x : Word) (n : Nat) :
    s.setGAdv d x n = { s with h := { s.h with g := (s.setGAdv d x n).h.g, pc := (s.setGAdv d x n).h.pc } } := rfl

theorem State.setGAdv_pc (s : State) (d : BitVec 5) (x : Word) (n : Nat) :
    (s.setGAdv d x n).h.pc = s.h.pc + BitVec.ofNat 64 n := rfl

/-! ### Values of the ALU members (Table 6-2) -/

theorem boolWord_decide (p : Prop) [Decidable p] : boolWord (decide p) = if p then 1 else 0 := by
  unfold boolWord
  simp only [decide_eq_true_eq]

/-- The model counts one bits as the statements do. -/
theorem onesBelow_eq (x n : Nat) : onesBelow x n = (List.range n).countP fun j => x.testBit j := by
  induction n with
  | zero => rfl
  | succ n ih =>
    rw [onesBelow, ih, List.range_succ, List.countP_append, List.countP_singleton, Nat.testBit_eq_decide_div_mod_eq,
      Nat.shiftRight_eq_div_pow, Nat.add_comm]
    rcases Nat.mod_two_eq_zero_or_one (x / 2 ^ n) with h | h <;> simp [h]

theorem popcW_eq (x : Word) : popcW x = BitVec.ofNat 64 ((List.range 64).countP fun j => x.getLsbD j) := by
  rw [popcW, onesBelow_eq]
  rfl

/-- CLZ counts the zero bits above the highest one bit. -/
theorem clzW_eq (x : Word) : ∃ r : Nat, r ≤ 64 ∧ clzW x = BitVec.ofNat 64 r ∧ (∀ j < r, x.getLsbD (63 - j) = false) ∧
    (r < 64 → x.getLsbD (63 - r) = true) := by
  by_cases h0 : x = 0
  · refine ⟨64, le_rfl, by rw [clzW, if_pos h0]; rfl, fun j _ => by rw [h0]; exact BitVec.getLsbD_zero, fun h => absurd h (lt_irrefl _)⟩
  · have hne : x.toNat ≠ 0 := fun h => h0 (BitVec.eq_of_toNat_eq h)
    have htop : Nat.log2 x.toNat < 64 := (Nat.log2_lt hne).mpr x.isLt
    refine ⟨63 - Nat.log2 x.toNat, by omega, by rw [clzW, if_neg h0], fun j hj => ?_, fun _ => ?_⟩
    · exact Nat.testBit_lt_two_pow (Nat.lt_log2_self.trans_le (Nat.pow_le_pow_right (by decide) (by omega)))
    · rw [show 63 - (63 - Nat.log2 x.toNat) = Nat.log2 x.toNat by omega]
      exact Nat.testBit_log2 hne

/-- The signed number of the low bits is that of the bits as a word of their own. -/
theorem toSigned_eq (n : Nat) (hn : 0 < n) (x : Nat) : toSigned n x = (BitVec.ofNat n x).toInt := by
  have hp : 2 ^ n = 2 * 2 ^ (n - 1) := by rw [← pow_succ']; congr 1; omega
  unfold toSigned
  rw [BitVec.toInt_eq_toNat_cond, BitVec.toNat_ofNat]
  congr 1
  exact propext (by omega)

/-- Sign extension, in the model and in the statements. -/
theorem sext_eq (n : Nat) (hn : 0 < n) (x : Nat) : sext n x = (BitVec.ofNat n x).signExtend 64 := by
  rw [sext, toSigned_eq n hn]
  rfl

theorem sextW_eq (w : Nat) (x : Word) : sextW w x = (x.setWidth (8 * 2 ^ w)).signExtend 64 := by
  rw [sextW, sext_eq _ (by positivity), BitVec.ofNat_toNat]

theorem zextW_eq (w : Nat) (x : Word) : zextW w x = (x.setWidth (8 * 2 ^ w)).setWidth 64 := by
  apply BitVec.eq_of_toNat_eq
  simp [zextW]

/-- Settles O1: the frame of the operation, and the value of each member. -/
theorem scalarRegisterResults : Obligations.ScalarRegisterResults := by
  unfold Obligations.ScalarRegisterResults
  refine ⟨fun s d x n => ⟨fun r => s.getG_setGAdv d r x n, s.setGAdv_pc d x n, s.setGAdv_frame d x n⟩, fun s d a b w => ?_⟩
  obtain ⟨r, hr, hclz, hzeros, hone⟩ := clzW_eq (s.getG a)
  have value {i : Instr} {x y : Word} (hi : exec i s = .next (s.setGAdv d x 4)) (h : x = y) : exec i s = .next (s.setGAdv d y 4) :=
    h ▸ hi
  exact ⟨rfl, rfl, rfl, rfl, rfl, rfl, rfl, rfl, rfl, value rfl (boolWord_decide _), value rfl (boolWord_decide _), rfl, rfl, rfl, rfl, rfl,
    rfl, rfl, rfl, rfl, rfl, rfl, ⟨r, hr, value rfl hclz, hzeros, hone⟩, value rfl (popcW_eq _), fun _ => value rfl (sextW_eq _ _),
    fun _ => value rfl (zextW_eq _ _)⟩

/-! ### Immediates -/

/-- An immediate of 2^14 units. -/
theorem immOf_shift (i : BitVec 18) : immOf i <<< 14 = i.signExtend 64 * 0x4000 := by
  rw [immOf, BitVec.shiftLeft_eq_mul_twoPow]
  rfl

/-- Settles O2: the value of each member. -/
theorem scalarImmediateResults : Obligations.ScalarImmediateResults := by
  unfold Obligations.ScalarImmediateResults
  intro s d a i13 i12 i11 i18 i8 n
  have value {i : Instr} {x y : Word} (hi : exec i s = .next (s.setGAdv d x 4)) (h : x = y) : exec i s = .next (s.setGAdv d y 4) :=
    h ▸ hi
  exact ⟨rfl, rfl, rfl, rfl, value rfl (boolWord_decide _), value rfl (boolWord_decide _), rfl, rfl, rfl, value rfl (immOf_shift i18),
    value rfl (congrArg _ (immOf_shift i18)), rfl, rfl, rfl, rfl, rfl, rfl, rfl, rfl, rfl⟩

end Sys2Proof.Machine
end

section
/-! PROOFS. Scalar floating point (06 R91 to R93), and branches and jumps (06 R94 to R97). -/

namespace Sys2Proof.Machine

open Sys2Proof.Safety

/-! ### Scalar floating point -/

/-- What is no NaN is no signalling one. -/
theorem FVal.isS_of_isNaN {x : FVal} (h : x.isNaN = false) : x.isS = false := by
  cases x with
  | nan => exact absurd h nofun
  | _ => rfl

/-- The pattern of a signed number, as a word. -/
theorem ofSigned_eq (n : Nat) (x : Int) : ofSigned n x = (BitVec.ofInt n x).toNat := (BitVec.toNat_ofInt x).symm

/-- A comparison gives 0 for a NaN, and raises NV for a signalling one, and for any where it is not quiet (R91). -/
theorem fcmp_spec (quiet : Bool) (rel : FVal → FVal → Bool) (x y : FVal) :
    (if x.isNaN || y.isNaN then (fcmp quiet rel x y).1 = 0 else (fcmp quiet rel x y).1 = (rel x y).toNat) ∧
      (fcmp quiet rel x y).2 = if x.isS || y.isS || (!quiet && (x.isNaN || y.isNaN)) then fNV else 0 := by
  unfold fcmp
  by_cases h : (x.isNaN || y.isNaN) = true
  · rw [if_pos h, if_pos h, h, Bool.and_true]
    exact ⟨rfl, rfl⟩
  · have hno : (x.isNaN || y.isNaN) = false := (Bool.not_eq_true _).mp h
    obtain ⟨hx, hy⟩ := Bool.or_eq_false_iff.mp hno
    rw [if_neg h, if_neg h, hno, FVal.isS_of_isNaN hx, FVal.isS_of_isNaN hy, Bool.and_false]
    exact ⟨rfl, rfl⟩

/-- FCVT.S.F puts the signed number into gd (R92). -/
theorem exec_fcvtSF (s : State) (d a : BitVec 5) :
    exec (.fcvtSF d a) s = s.fpDone d ((BitVec.ofInt 64 ((s.getFV a).toInt (xrmOf s.h.rmode) (-2 ^ 63) (2 ^ 63 - 1)).1).toNat,
      ((s.getFV a).toInt (xrmOf s.h.rmode) (-2 ^ 63) (2 ^ 63 - 1)).2) := by
  rw [← ofSigned_eq]
  rfl

/-- Settles O3: each member ends in its operation; the comparisons by their lemma. -/
theorem scalarFpResults : Obligations.ScalarFpResults := by
  unfold Obligations.ScalarFpResults
  intro s d a b c
  exact ⟨rfl, rfl, rfl, rfl, rfl, rfl, rfl, ⟨_, rfl, fcmp_spec true FVal.eq _ _⟩, ⟨_, rfl, fcmp_spec false FVal.lt _ _⟩,
    ⟨_, rfl, fcmp_spec false (fun x y => !y.lt x) _ _⟩, rfl, exec_fcvtSF s d a, rfl, rfl, rfl, rfl, rfl, rfl, rfl, rfl, rfl⟩

/-! ### Branches and jumps -/

/-- An offset counts halfwords (R53). -/
theorem offOf_eq {n : Nat} (o : BitVec n) : offOf o = o.signExtend 64 * 2 := by
  rw [offOf, BitVec.shiftLeft_eq_mul_twoPow]
  rfl

/-- A conditional branch goes to its target or past itself (R94). -/
theorem State.branchIf_goes (s : State) {p : Prop} {c : Bool} (hc : c = true ↔ p) {n : Nat} (o : BitVec n) (len : Nat) :
    (p → s.branchIf c (offOf o) len = .next { s with h := { s.h with pc := s.h.pc + o.signExtend 64 * 2 } }) ∧
      (¬p → s.branchIf c (offOf o) len = .next { s with h := { s.h with pc := s.h.pc + BitVec.ofNat 64 len } }) := by
  unfold State.branchIf
  refine ⟨fun h => ?_, fun h => ?_⟩
  · rw [if_pos (hc.mpr h), offOf_eq]
    rfl
  · rw [if_neg (fun hp => h (hc.mp hp))]
    rfl

/-- An indirect jump with an even target goes there with its link, and a landing check is due where the register asks for it and the
jump is no return (R95, R97). -/
theorem State.indirect_even {s : State} {d a : BitVec 5} {imm : Word} (h : (s.getG a + imm).getLsbD 0 = false) :
    ∃ t, s.indirect d a imm = .next t ∧
      (∀ r : BitVec 5, t.getG r = if r = 0 then 0 else if r = d then s.h.pc + 4 else s.getG r) ∧ t.h.pc = s.getG a + imm ∧
      t.h.branch = (if s.h.abictl.getLsbD 0 = true ∧ ¬(d = 0 ∧ a = 1) then some s.h.pc else none) ∧
      t = { s with h := { s.h with g := t.h.g, pc := t.h.pc, branch := t.h.branch } } := by
  unfold State.indirect
  rw [State.check_pass (by simpa using h)]
  refine ⟨_, rfl, fun r => s.getG_setG d r _, rfl, ?_, rfl⟩
  simp only [Bool.and_eq_true, Bool.not_eq_true', Bool.and_eq_false_iff, beq_eq_false_iff_ne, ne_eq, not_and_or]

/-- One with an odd target traps before any effect (R95). -/
theorem State.indirect_odd {s : State} {d a : BitVec 5} {imm : Word} (h : (s.getG a + imm).getLsbD 0 = true) :
    s.indirect d a imm = s.trapPre 0x06 (s.getG a + imm) := by
  unfold State.indirect
  simp only [h]
  exact State.check_fail (cs := []) (by simp)

/-- Settles O4: the branches by their comparisons, then JAL and the indirect jumps. -/
theorem branchAndJumpResults : Obligations.BranchAndJumpResults := by
  unfold Obligations.BranchAndJumpResults
  refine ⟨fun s a b o r o8 o11 => ?_, fun s d a i o => ⟨?_, ?_, ?_⟩⟩
  · have onOrder {p : Prop} [Decidable p] := s.branchIf_goes (p := p) (c := decide p) decide_eq_true_iff o 4
    exact ⟨s.branchIf_goes beq_iff_eq o 4, s.branchIf_goes bne_iff_ne o 4, onOrder, onOrder, onOrder, onOrder,
      s.branchIf_goes beq_iff_eq o8 2, s.branchIf_goes bne_iff_ne o8 2, s.branchIf_goes (c := true) (by simp) o11 2⟩
  · rw [← offOf_eq]
    rfl
  · exact ⟨State.indirect_even, State.indirect_odd⟩
  · have ht : s.getG a + 0 = s.getG a := BitVec.add_zero _
    rw [← ht]
    exact ⟨State.indirect_even, State.indirect_odd⟩

end Sys2Proof.Machine
end

section
/-! PROOFS. Mask logic, the loop-bound compares, and what mask members put into g registers (06 R105, R107). -/

namespace Sys2Proof.Machine

open Sys2Proof.Safety

/-! ### Writing a mask -/

/-- A member that writes a mask writes that mask and moves the PC on. -/
theorem State.setKAdv_writes (s : State) (d : BitVec 5) (hd : d.toNat < 24) (x : BitVec 8192) :
    ∃ t, s.setKAdv d x = .next t ∧ PutsK s t d x ∧ MaskFrame s t 4 :=
  ⟨_, rfl, fun n _ => s.h.getK_setK d.toNat n x hd, rfl⟩

/-- Bit `j` of the mask with the low `n` bits set. -/
theorem getLsbD_lowMask {n j : Nat} (hn : n ≤ 8192) : (lowMask n).getLsbD j = decide (j < n) := by
  rw [lowMask, BitVec.getLsbD_ofNat, Nat.min_eq_left hn, Nat.testBit_two_pow_sub_one]
  by_cases h : j < n
  · simp [h, h.trans_le hn]
  · simp [h]

/-- The bits of a loop-bound compare: those below SPAN whose index is below the bound (R105). -/
theorem getLsbD_limit {span j : Nat} (h : span ≤ 8192) (n : Int) :
    (lowMask (min n.toNat span)).getLsbD j = decide (j < span ∧ (j : Int) < n) := by
  rw [getLsbD_lowMask ((Nat.min_le_right _ _).trans h)]
  exact decide_eq_decide.mpr (by omega)

/-- A bit of a piece of 64 bits put into a mask: piece `w` takes `x`, the other bits stay (R107). -/
theorem getLsbD_piece (k : BitVec 8192) (x : Word) (w : Nat) {j : Nat} (hj : j < 8192) :
    ((k &&& ~~~(BitVec.ofNat 8192 (2 ^ 64 - 1) <<< (64 * w))) ||| (x.setWidth 8192 <<< (64 * w))).getLsbD j =
      if j / 64 = w then x.getLsbD (j % 64) else k.getLsbD j := by
  have hones : ∀ i, (BitVec.ofNat 8192 (2 ^ 64 - 1)).getLsbD i = (decide (i < 8192) && decide (i < 64)) := by
    intro i
    rw [BitVec.getLsbD_ofNat, Nat.testBit_two_pow_sub_one]
  simp only [BitVec.getLsbD_or, BitVec.getLsbD_and, BitVec.getLsbD_not, BitVec.getLsbD_shiftLeft, BitVec.getLsbD_setWidth, hones, hj,
    decide_true, Bool.true_and]
  by_cases hw : j / 64 = w
  · have hlow : ¬j < 64 * w := by omega
    have hin : j - 64 * w < 64 := by omega
    have hmod : j % 64 = j - 64 * w := by omega
    have hsmall : j - 64 * w < 8192 := by omega
    simp [hw, hlow, hin, hmod, hsmall]
  · by_cases hlow : j < 64 * w
    · simp [hw, hlow]
    · have hout : ¬j - 64 * w < 64 := by omega
      simp [hw, hlow, hout, BitVec.getLsbD_of_ge x _ (Nat.le_of_not_lt hout)]

/-! ### Indices and counts of ones -/

/-- Bit `j` of a mask cut to SPAN. -/
theorem testBit_maskBelow (s : State) (a : BitVec 5) (j : Nat) :
    (s.maskBelow a).testBit j = (decide (j < s.h.span) && (s.h.getK a.toNat).getLsbD j) :=
  Nat.testBit_mod_two_pow _ _ _

/-- The lowest one of the `n` bits from `i`: none when they are all 0. -/
theorem lowestBit_none {x i n : Nat} (h : ∀ j, i ≤ j → j < i + n → x.testBit j = false) : lowestBit x i n = none := by
  induction n generalizing i with
  | zero => rfl
  | succ n ih =>
    rw [lowestBit, h i le_rfl (by omega), if_neg Bool.false_ne_true]
    exact ih fun j h1 h2 => h j (by omega) (by omega)

/-- And the index of a one with only zeros below it. -/
theorem lowestBit_some {x i n j : Nat} (h1 : i ≤ j) (h2 : j < i + n) (hone : x.testBit j = true)
    (hzero : ∀ k, i ≤ k → k < j → x.testBit k = false) : lowestBit x i n = some j := by
  induction n generalizing i with
  | zero => omega
  | succ n ih =>
    rw [lowestBit]
    by_cases hij : i = j
    · rw [hij, if_pos hone]
    · rw [hzero i le_rfl (by omega), if_neg Bool.false_ne_true]
      exact ih (by omega) (by omega) fun k hk => hzero k (by omega)

/-- The highest one of a number. -/
theorem log2_of_highest {x j : Nat} (hone : x.testBit j = true) (hzero : ∀ i, j < i → x.testBit i = false) :
    x ≠ 0 ∧ Nat.log2 x = j := by
  have hne : x ≠ 0 := fun h => by simp [h] at hone
  refine ⟨hne, le_antisymm (not_lt.mp fun hlt => ?_) ((Nat.le_log2 hne).mpr (Nat.ge_two_pow_of_testBit hone))⟩
  exact absurd (Nat.testBit_log2 hne) (by simp [hzero _ hlt])

section Indices

variable {s : State} {a : BitVec 5}

/-- No one below SPAN. -/
theorem maskBelow_zero (h : ∀ j < s.h.span, (s.h.getK a.toNat).getLsbD j = false) (j : Nat) : (s.maskBelow a).testBit j = false := by
  rw [testBit_maskBelow]
  by_cases hj : j < s.h.span
  · rw [h j hj, Bool.and_false]
  · simp [hj]

/-- MCOUNT counts the ones below SPAN. -/
theorem count_maskBelow (s : State) (a : BitVec 5) :
    onesBelow (s.maskBelow a) s.h.span = (List.range s.h.span).countP fun j => (s.h.getK a.toNat).getLsbD j := by
  rw [onesBelow_eq]
  refine List.countP_congr fun j hj => ?_
  rw [testBit_maskBelow, List.mem_range.mp hj |> decide_eq_true, Bool.true_and]

/-- MFIRST: the lowest one below SPAN, all ones when there is none. -/
theorem first_maskBelow (s : State) (a : BitVec 5) :
    ((∀ j < s.h.span, (s.h.getK a.toNat).getLsbD j = false) → indexWord (lowestBit (s.maskBelow a) 0 s.h.span) = -1) ∧
    ∀ j < s.h.span, (s.h.getK a.toNat).getLsbD j = true → (∀ i < j, (s.h.getK a.toNat).getLsbD i = false) →
      indexWord (lowestBit (s.maskBelow a) 0 s.h.span) = BitVec.ofNat 64 j := by
  refine ⟨fun h => ?_, fun j hj hone hzero => ?_⟩
  · rw [lowestBit_none fun j _ _ => maskBelow_zero h j]
    rfl
  · rw [lowestBit_some (j := j) (Nat.zero_le j) (by omega) (by rw [testBit_maskBelow, hone]; simpa using hj) fun i _ hi => by
      rw [testBit_maskBelow, hzero i hi, Bool.and_false]]
    rfl

/-- MLAST: the highest one below SPAN, all ones when there is none. -/
theorem last_maskBelow (s : State) (a : BitVec 5) :
    let last := indexWord (if s.maskBelow a = 0 then none else some (Nat.log2 (s.maskBelow a)))
    ((∀ j < s.h.span, (s.h.getK a.toNat).getLsbD j = false) → last = -1) ∧
    ∀ j < s.h.span, (s.h.getK a.toNat).getLsbD j = true → (∀ i < s.h.span, j < i → (s.h.getK a.toNat).getLsbD i = false) →
      last = BitVec.ofNat 64 j := by
  refine ⟨fun h => ?_, fun j hj hone hzero => ?_⟩
  · have h0 : s.maskBelow a = 0 := Nat.eq_of_testBit_eq fun j => by rw [maskBelow_zero h, Nat.zero_testBit]
    rw [h0]
    rfl
  · obtain ⟨hne, hlog⟩ := log2_of_highest (x := s.maskBelow a) (j := j) (by rw [testBit_maskBelow, hone]; simpa using hj) fun i hi => by
      rw [testBit_maskBelow]
      by_cases hs : i < s.h.span
      · rw [hzero i hs hi, Bool.and_false]
      · simp [hs]
    rw [if_neg hne, hlog]
    rfl

end Indices

/-- MTOG gives the piece that its operand selects. -/
theorem getLsbD_selected (k : BitVec 8192) (w : Nat) {j : Nat} (hj : j < 64) :
    ((k >>> (64 * w)).setWidth 64).getLsbD j = k.getLsbD (64 * w + j) := by
  simp [hj]

/-- Settles O11: mask writes bit by bit, then what goes to g registers. -/
theorem maskResults : Obligations.MaskResults := by
  unfold Obligations.MaskResults
  refine ⟨fun s d a b hspan hd => ?_, fun s d a b hspan ha => ?_⟩
  · intro p q g w writes
    have bits {i : Instr} {x : BitVec 8192} {f : Nat → Bool} (hi : exec i s = s.setKAdv d x) (hf : ∀ j < 8192, x.getLsbD j = f j) :
        writes i f := by
      obtain ⟨t, ht, hk, hframe⟩ := s.setKAdv_writes d hd x
      exact ⟨t, x, hi.trans ht, hk, hframe, hf⟩
    have bound {i : Instr} {n : Int} {f : Nat → Bool} (hi : exec i s = s.limit d n)
        (hf : ∀ j < 8192, decide (j < s.h.span ∧ (j : Int) < n) = f j) : writes i f :=
      bits hi fun j hj => (getLsbD_limit hspan n).trans (hf j hj)
    refine ⟨fun _ => ⟨bits rfl fun j hj => ?_, bits rfl fun j hj => rfl, fun _ => ⟨bits rfl fun j hj => ?_, bits rfl fun j hj => ?_,
      bits rfl fun j hj => ?_, bits rfl fun j hj => ?_⟩⟩, bits rfl fun j hj => ?_, bits rfl fun j hj => ?_,
      bits rfl fun j hj => getLsbD_piece _ _ _ hj, bound rfl fun j hj => ?_, bound rfl fun j hj => ?_, bound rfl fun j hj => ?_,
      fun j hj => getLsbD_lowMask hspan⟩
    · simp [hj, p, State.getK]
    · exact BitVec.getLsbD_and
    · exact BitVec.getLsbD_or
    · exact BitVec.getLsbD_xor
    · simp [hj, p, q, State.getK]
    · exact BitVec.getLsbD_allOnes.trans (decide_eq_true hj)
    · exact BitVec.getLsbD_zero
    all_goals
      simp only [g]
      exact decide_eq_decide.mpr (by omega)
  · intro p puts
    exact ⟨⟨_, rfl, congrArg _ (count_maskBelow s a)⟩, ⟨_, rfl, first_maskBelow s a⟩, ⟨_, rfl, last_maskBelow s a⟩,
      ⟨_, rfl, fun j hj => getLsbD_selected _ _ hj⟩⟩

end Sys2Proof.Machine
end

section
/-! PROOFS. Scalar loads and stores that are performed (06 R98, 14 R254, R255): what an access leaves besides its bytes, that a second
translation finds the leaf of the first, and the results. -/

namespace Sys2Proof.Machine

open Sys2Proof.Safety

/-! ### What an access leaves besides its bytes -/

/-- Where the value put is not that of an unlisted entry, a list reads back what was put, whatever its form. -/
theorem SMap.get_set_of_ne {α : Type} [DecidableEq α] {d x : α} (hx : x ≠ d) (m : List (Nat × α)) (a b : Nat) :
    SMap.get d (SMap.set d m a x) b = if b = a then x else SMap.get d m b := by
  induction m with
  | nil =>
    rw [SMap.set, if_neg hx]
    by_cases h : b = a
    · simp [SMap.get, h]
    · simp [SMap.get, h]
  | cons c m ih =>
    obtain ⟨k, v⟩ := c
    unfold SMap.set
    rw [if_neg hx, if_neg hx]
    by_cases hak : a < k
    · rw [if_pos hak]
      by_cases h : b = a
      · simp [SMap.get, h]
      · by_cases hba : b < a
        · simp [SMap.get, h, hba, hba.trans hak]
        · simp [SMap.get, h, hba]
    · rw [if_neg hak]
      by_cases hk : a = k
      · subst hk
        by_cases h : b = a
        · simp [SMap.get, h]
        · simp [SMap.get, h]
      · rw [if_neg hk, SMap.get, ih]
        by_cases hbk : b < k
        · have h : b ≠ a := by omega
          simp [SMap.get, hbk, h]
        · by_cases h : b = k
          · have hne : b ≠ a := by omega
            simp [SMap.get, h, Ne.symm hk]
          · simp [SMap.get, hbk, h]

/-- A TLB with a leaf put into it is not empty. -/
theorem tlbFill_ne_nil {n : Nat} (hn : 0 < n) (t : List TlbEntry) (e : TlbEntry) : tlbFill n t e ≠ [] := by
  unfold tlbFill
  split
  · rename_i h
    exact List.ne_nil_of_mem (List.contains_iff_mem.mp h)
  · simpa using hn.ne'

/-- The TLB of a core after an access with a leaf (R339). -/
theorem State.core_fillTlb {s : State} {w : Who} {p : Place} {e : TlbEntry} (he : p.leaf = some e) (c : BitVec 10) :
    (s.fillTlb w p).core c = { s.core c with
      tlb := if c = w.core then tlbFill 64 (s.core c).tlb e else (s.core c).tlb } := by
  have hcores : (s.fillTlb w p).cores = (s.setCore w.core { s.core w.core with tlb := tlbFill 64 (s.core w.core).tlb e }).cores := by
    unfold State.fillTlb
    rw [he]
    dsimp only
    split
    · rw [State.mapSignal_frame]
      rfl
    · rfl
  have hne : { s.core w.core with tlb := tlbFill 64 (s.core w.core).tlb e } ≠ Core.reset := fun h =>
    tlbFill_ne_nil (n := 64) (by decide) _ _ (congrArg Core.tlb h)
  unfold State.core at hne ⊢
  rw [hcores]
  refine (SMap.get_set_of_ne hne s.cores w.core.toNat c.toNat).trans ?_
  by_cases h : c = w.core
  · subst h
    rw [if_pos rfl, if_pos rfl]
  · rw [if_neg (fun h' => h (BitVec.eq_of_toNat_eq h')), if_neg h]

/-- The TLB of a cluster after an access with a leaf (R339). -/
theorem State.cluster_fillTlb {s : State} {w : Who} {p : Place} {e : TlbEntry} (he : p.leaf = some e) (c : BitVec 6) :
    (s.fillTlb w p).cluster c = { s.cluster c with
      tlb := if c = clusterOf w.core then tlbFill 2048 (s.cluster c).tlb e else (s.cluster c).tlb } := by
  have hclusters : (s.fillTlb w p).clusters = (s.setCluster (clusterOf w.core)
      { s.cluster (clusterOf w.core) with tlb := tlbFill 2048 (s.cluster (clusterOf w.core)).tlb e }).clusters := by
    unfold State.fillTlb
    rw [he]
    dsimp only
    split
    · rw [State.mapSignal_frame]
      rfl
    · rfl
  have hne : { s.cluster (clusterOf w.core) with tlb := tlbFill 2048 (s.cluster (clusterOf w.core)).tlb e } ≠ Cluster.reset := fun h =>
    tlbFill_ne_nil (n := 2048) (by decide) _ _ (congrArg Cluster.tlb h)
  unfold State.cluster at hne ⊢
  rw [hclusters]
  refine (SMap.get_set_of_ne hne s.clusters (clusterOf w.core).toNat c.toNat).trans ?_
  by_cases h : c = clusterOf w.core
  · subst h
    rw [if_pos rfl, if_pos rfl]
  · rw [if_neg (fun h' => h (BitVec.eq_of_toNat_eq h')), if_neg h]

/-- An access without a leaf leaves the TLBs. -/
theorem State.fillTlb_none {s : State} {w : Who} {p : Place} (he : p.leaf = none) : s.fillTlb w p = s := by
  unfold State.fillTlb
  rw [he]

section Account

variable (s : State) (w : Who) (p : Place) (rd wr : Nat)

/-- The cores after an access are those after its leaf was put into the TLBs. -/
theorem State.core_account (c : BitVec 10) : (s.account w p rd wr).core c = (s.fillTlb w p).core c := by
  have h : (s.account w p rd wr).core c = ((s.holdAccess w.core p).fillTlb w p).core c := by
    unfold State.account
    rw [State.countTraffic_frame]
    rfl
  rw [h, State.holdAccess_frame]
  cases he : p.leaf with
  | none => rw [State.fillTlb_none he, State.fillTlb_none he]; rfl
  | some e => rw [State.core_fillTlb he, State.core_fillTlb he]; rfl

/-- The clusters likewise. -/
theorem State.cluster_account (c : BitVec 6) : (s.account w p rd wr).cluster c = (s.fillTlb w p).cluster c := by
  have h : (s.account w p rd wr).cluster c = ((s.holdAccess w.core p).fillTlb w p).cluster c := by
    unfold State.account
    rw [State.countTraffic_frame]
    rfl
  rw [h, State.holdAccess_frame]
  cases he : p.leaf with
  | none => rw [State.fillTlb_none he, State.fillTlb_none he]; rfl
  | some e => rw [State.cluster_fillTlb he, State.cluster_fillTlb he]; rfl

/-- An access changes the TLB of a core alone. -/
theorem State.core_account_tlb (c : BitVec 10) :
    (s.account w p rd wr).core c = { s.core c with tlb := ((s.account w p rd wr).core c).tlb } := by
  rw [State.core_account]
  cases he : p.leaf with
  | none => rw [State.fillTlb_none he]
  | some e => rw [State.core_fillTlb he]

/-- And the TLB of a cluster. -/
theorem State.cluster_account_tlb (c : BitVec 6) :
    (s.account w p rd wr).cluster c = { s.cluster c with tlb := ((s.account w p rd wr).cluster c).tlb } := by
  rw [State.cluster_account]
  cases he : p.leaf with
  | none => rw [State.fillTlb_none he]
  | some e => rw [State.cluster_fillTlb he]

/-- Counting changes the counters and host lines of an island alone (R47, R309). -/
theorem State.island_countTraffic (c : BitVec 10) (i : BitVec 3) :
    (s.countTraffic c p rd wr).island i = { s.island i with
      rd := ((s.countTraffic c p rd wr).island i).rd
      wr := ((s.countTraffic c p rd wr).island i).wr
      lines := ((s.countTraffic c p rd wr).island i).lines } := by
  unfold State.countTraffic
  split
  · rfl
  · dsimp only
    split
    · rfl
    · rw [State.island_setIsland]
      split
      · rename_i h
        rw [h]
      · rfl

/-- An access changes the counters and host lines of an island alone. -/
theorem State.island_account (i : BitVec 3) :
    (s.account w p rd wr).island i = { s.island i with
      rd := ((s.account w p rd wr).island i).rd
      wr := ((s.account w p rd wr).island i).wr
      lines := ((s.account w p rd wr).island i).lines } := by
  have h : ((s.holdAccess w.core p).fillTlb w p).island i = s.island i := by
    rw [State.fillTlb_frame, State.holdAccess_frame]
    rfl
  unfold State.account
  rw [State.island_countTraffic, h]

end Account

/-- The tags once the page of a leaf is mapped as a signal page: 0 in its frame where no mapping in use shares it (R300, log 34). -/
def State.tagsMapped (s : State) (e : TlbEntry) : List (Nat × BitVec 48) :=
  let f := frameAddr (fld e.pte 17 31)
  if ∀ m ∈ s.signalMaps, m.frame + 2 ^ m.log2 ≤ f ∨ f + 2 ^ e.log2 ≤ m.frame then
    s.tags.filter fun t => decide (t.1 < f / 8) || decide ((f + 2 ^ e.log2) / 8 ≤ t.1)
  else s.tags

theorem State.mapSignal_tags (s : State) (w : Who) (e : TlbEntry) : (s.mapSignal w e).tags = s.tagsMapped e := by
  unfold State.mapSignal State.tagsMapped
  dsimp only
  generalize frameAddr (fld e.pte 17 31) = f
  have hpos := Nat.two_pow_pos e.log2
  split
  · rename_i hin
    rw [if_neg]
    intro h
    have := h _ (List.contains_iff_mem.mp hin)
    dsimp only at this
    omega
  · by_cases h : ∀ m ∈ s.signalMaps, m.frame + 2 ^ m.log2 ≤ f ∨ f + 2 ^ e.log2 ≤ m.frame
    · rw [if_pos h, if_pos]
      · refine List.filter_congr fun t _ => ?_
        simp only [Bool.not_and, ← decide_not, not_le, not_lt]
      · rw [Bool.not_eq_true', List.any_eq_false]
        intro m hm
        have := h m hm
        simp only [Bool.and_eq_true, decide_eq_true_eq]
        omega
    · rw [if_neg h, if_neg]
      rw [Bool.not_eq_true', List.any_eq_false]
      refine fun hall => h fun m hm => ?_
      have := hall m hm
      simp only [Bool.and_eq_true, decide_eq_true_eq] at this
      omega

/-- The tags after a leaf was put into the TLBs. -/
theorem State.fillTlb_tags {s u : State} (w : Who) (p : Place) (htags : s.tags = u.tags) (hmaps : s.signalMaps = u.signalMaps) :
    (s.fillTlb w p).tags = tagsAt u p := by
  unfold State.fillTlb tagsAt
  cases p.leaf with
  | none => exact htags
  | some e =>
    have hmapped : s.tagsMapped e = u.tagsMapped e := by
      unfold State.tagsMapped
      rw [htags, hmaps]
    dsimp only
    cases p.signal with
    | false =>
      rw [if_neg Bool.false_ne_true, if_neg (fun h => Bool.false_ne_true h.1)]
      exact htags
    | true =>
      rw [if_pos rfl, State.mapSignal_tags]
      simp only [true_and]
      exact hmapped

/-- The tags after an access, which sets none itself. -/
theorem State.account_tags_eq (s : State) (w : Who) (p : Place) (rd wr : Nat) : (s.account w p rd wr).tags = tagsAt s p := by
  unfold State.account
  rw [State.countTraffic_frame]
  refine State.fillTlb_tags w p ?_ ?_
  · rw [State.holdAccess_frame]
  · rw [State.holdAccess_frame]

/-- A state with the cores, clusters and islands of an access is within its frame when nothing else has changed. -/
theorem accessFrame_of_account {s t : State} {w : Who} {p : Place} {rd wr : Nat} (hc : t.cores = (s.account w p rd wr).cores)
    (hk : t.clusters = (s.account w p rd wr).clusters) (hi : t.islands = (s.account w p rd wr).islands)
    (ht : t = { s with
      h := { s.h with g := t.h.g, pc := t.h.pc, watch := t.h.watch }
      cores := t.cores, clusters := t.clusters, islands := t.islands
      mem := t.mem, badMem := t.badMem, dones := t.dones, tags := t.tags, signalMaps := t.signalMaps, watches := t.watches }) :
    AccessFrame s t := by
  refine ⟨ht, fun c => ?_, fun c => ?_, fun i => ?_⟩
  · have h : t.core c = (s.account w p rd wr).core c := by rw [State.core, hc]; rfl
    rw [h]
    exact s.core_account_tlb w p rd wr c
  · have h : t.cluster c = (s.account w p rd wr).cluster c := by rw [State.cluster, hk]; rfl
    rw [h]
    exact s.cluster_account_tlb w p rd wr c
  · have h : t.island i = (s.account w p rd wr).island i := by simp only [State.island, hi]
    rw [h]
    exact s.island_account w p rd wr i

/-! ### A second translation of an access -/

/-- A walk whose leaf, if it ends at one, serves the address. -/
def Walk.Serves (asid : BitVec 12) (va : Nat) (r : Walk) : Prop := ∀ e, r = .leaf e → e.serves asid va = true

theorem Walk.Serves.ite {asid : BitVec 12} {va : Nat} {c : Prop} [Decidable c] {r q : Walk} (hr : r.Serves asid va)
    (hq : q.Serves asid va) : (if c then r else q).Serves asid va := by
  split
  · exact hr
  · exact hq

/-- The page of a leaf found by a walk holds the address (R332, R339). -/
theorem State.walk_serves (s : State) (i : BitVec 3) (asid : BitVec 12) (va : Nat) :
    ∀ l table : Nat, (s.walk i asid va l table).Serves asid va := by
  have leaf : ∀ (b : Nat) (pte : Word), Walk.Serves asid va (.leaf ⟨asid, va / 2 ^ b * 2 ^ b, b, pte⟩) := by
    rintro b pte e ⟨⟩
    have hlow := Nat.div_mul_le_self va (2 ^ b)
    have hhigh := Nat.lt_div_mul_add (a := va) (Nat.two_pow_pos b)
    simp [TlbEntry.serves, hlow, hhigh]
  have fault : Walk.fault.Serves asid va := nofun
  have violation : Walk.violation.Serves asid va := nofun
  have failing : ∀ key, (Walk.failing key).Serves asid va := fun _ => nofun
  intro l
  induction l with
  | zero =>
    intro table
    exact .ite fault (.ite violation (.ite (failing _) (.ite fault (.ite fault (.ite fault (.ite (.ite fault fault)
      (.ite fault (.ite fault (.ite fault (leaf _ _))))))))))
  | succ l ih =>
    intro table
    exact .ite fault (.ite violation (.ite (failing _) (.ite fault (.ite fault (.ite fault (.ite (.ite fault (ih _))
      (.ite fault (.ite fault (.ite fault (leaf _ _))))))))))

/-- The leaf found for an address serves it (R339, R340). -/
theorem State.leafFor_serves {s : State} {w : Who} {va : Nat} {e : TlbEntry} (h : s.leafFor w va = .leaf e) :
    e.serves (BitVec.ofNat 12 (fld w.ptbr 52 12)) va = true := by
  unfold State.leafFor at h
  dsimp only at h
  split at h
  · rename_i x hx
    obtain rfl := Walk.leaf.inj h
    exact List.find?_some (p := fun e : TlbEntry => e.serves (BitVec.ofNat 12 (fld w.ptbr 52 12)) va) hx
  · exact s.walk_serves _ _ va _ _ e h

/-- Of a TLB into which a leaf that serves an address has been put, where it was what was found there, it is the first that serves. -/
theorem find_tlbFill {p : TlbEntry → Bool} {e : TlbEntry} (hp : p e = true) {n : Nat} (hn : 0 < n) (t : List TlbEntry)
    (h : ∀ x, t.find? p = some x → x = e) : (tlbFill n t e).find? p = some e := by
  unfold tlbFill
  split
  · rename_i hin
    cases hf : t.find? p with
    | none => exact absurd hp (by simpa using List.find?_eq_none.mp hf e (List.contains_iff_mem.mp hin))
    | some x => rw [h x hf]
  · obtain ⟨m, rfl⟩ := Nat.exists_eq_succ_of_ne_zero hn.ne'
    rw [List.take_succ_cons, List.find?_cons, hp]

/-- Once a leaf has been put into the TLB of the core, it is found again. -/
theorem State.leafFor_again {s t : State} {w : Who} {va : Nat} {e : TlbEntry} (h : s.leafFor w va = .leaf e)
    (ht : (t.core w.core).tlb = tlbFill 64 (s.core w.core).tlb e) : t.leafFor w va = .leaf e := by
  have hserves := State.leafFor_serves h
  have hfirst : ∀ x, (s.core w.core).tlb.find? (fun e => e.serves (BitVec.ofNat 12 (fld w.ptbr 52 12)) va) = some x → x = e := by
    intro x hx
    unfold State.leafFor at h
    dsimp only at h
    rw [List.find?_append, hx] at h
    exact Walk.leaf.inj h
  have hfind := find_tlbFill (p := fun e => e.serves (BitVec.ofNat 12 (fld w.ptbr 52 12)) va) hserves (n := 64) (by decide) _ hfirst
  unfold State.leafFor
  dsimp only
  rw [ht, List.find?_append, hfind]
  rfl

/-- Checks against a leaf depend on the atolls and the host-line caches alone. -/
theorem State.checkLeaf_congr {s t : State} (hl : ∀ i, (t.island i).hlcache = (s.island i).hlcache)
    (ha : ∀ i, (t.island i).atoll = (s.island i).atoll) (w : Who) (k : AccKind) (dev : Bool) (va : Word) (e : TlbEntry) :
    t.checkLeaf w k dev va e = s.checkLeaf w k dev va e := by
  have hr : ∀ pa, t.reachable pa = s.reachable pa := fun pa => by unfold State.reachable; rw [hl]
  have hin : ∀ i j, t.inAtoll i j = s.inAtoll i j := fun i j => by
    unfold State.inAtoll State.atollFirst State.atollSize
    rw [ha]
  unfold State.checkLeaf
  simp only [hr, hin]

/-- What a refusal stands before has been given when there is a place. -/
theorem ok_of_ite {c : Prop} [Decidable c] {f : Flt} {r : Except Flt Place} {p : Place} (h : (if c then .error f else r) = .ok p) :
    r = .ok p := by
  split at h
  · exact absurd h nofun
  · exact h

/-- The place of an access through a leaf names the leaf. -/
theorem State.checkLeaf_leaf {s : State} {w : Who} {k : AccKind} {dev : Bool} {va : Word} {e : TlbEntry} {p : Place}
    (h : s.checkLeaf w k dev va e = .ok p) : p.leaf = some e := by
  unfold State.checkLeaf at h
  have h := ok_of_ite (ok_of_ite (ok_of_ite (ok_of_ite (ok_of_ite (ok_of_ite (ok_of_ite (ok_of_ite (ok_of_ite h))))))))
  rw [← Except.ok.inj h]

/-- An access that is translated goes through a leaf, or through a window whatever the state (R35 to R39). -/
theorem State.translate_ok {s : State} {w : Who} {k : AccKind} {dev : Bool} {va : Word} {p : Place}
    (h : s.translate w k dev va = .ok p) :
    (va.toNat < 0x000FFFFE00000000 ∧ w.ptbr.getLsbD 0 = true ∧
      ∃ e, s.leafFor w va.toNat = .leaf e ∧ s.checkLeaf w k dev va e = .ok p) ∨ ∀ t : State, t.translate w k dev va = .ok p := by
  by_cases h0 : va.toNat < 0x000FFFFE00000000
  · left
    cases hb : w.ptbr.getLsbD 0 with
    | false => exact absurd ((State.translate_off h0 hb).symm.trans h) nofun
    | true =>
      unfold State.translate at h
      simp only [hb] at h
      rw [if_neg (by omega), if_neg (by omega), if_neg (by decide)] at h
      split at h
      · exact absurd h nofun
      · exact absurd h nofun
      · exact absurd h nofun
      · rename_i e he
        exact ⟨h0, rfl, e, he, h⟩
  · right
    intro t
    rw [← h]
    unfold State.translate
    by_cases hhigh : 2 ^ 52 ≤ va.toNat
    · rw [if_pos hhigh, if_pos hhigh]
    · rw [if_neg hhigh, if_pos (not_lt.mp h0), if_neg hhigh, if_pos (not_lt.mp h0)]

/-- An access that has been performed is translated to the same place again, whatever it has stored: its leaf stands in the TLB of the
core (R339). -/
theorem State.translate_again {s t : State} {w : Who} {k : AccKind} {dev : Bool} {va : Word} {p : Place}
    (h : s.translate w k dev va = .ok p) (ht : ∀ e, p.leaf = some e → (t.core w.core).tlb = tlbFill 64 (s.core w.core).tlb e)
    (hl : ∀ i, (t.island i).hlcache = (s.island i).hlcache) (ha : ∀ i, (t.island i).atoll = (s.island i).atoll) :
    t.translate w k dev va = .ok p := by
  rcases State.translate_ok h with ⟨h0, hb, e, he, hc⟩ | hwindow
  · rw [State.translate_leaf h0 hb (State.leafFor_again he (ht e (State.checkLeaf_leaf hc))), State.checkLeaf_congr hl ha, hc]
  · exact hwindow t

/-! ### The results -/

/-- The number a load puts into gd: sign-extended for the even width codes, zero-extended for the odd ones (R98). -/
theorem extendLoad_eq (w : BitVec 3) (x : Nat) : extendLoad w x =
    if w.getLsbD 0 then BitVec.ofNat 64 x else (BitVec.ofNat (8 * codeBytes w) x).signExtend 64 := by
  have hodd : ∀ w : BitVec 3, w.toNat % 2 = 0 ↔ ¬w.getLsbD 0 = true := by decide
  have hpos : ∀ w : BitVec 3, 0 < 8 * codeBytes w := by decide
  unfold extendLoad
  rw [widthBytes_eq, sext_eq _ (hpos w)]
  by_cases h : w.getLsbD 0 = true
  · rw [if_neg (fun h' => (hodd w).mp h' h), if_pos h]
  · rw [if_pos ((hodd w).mpr h), if_neg h]

/-- What an access that is not held off leaves besides its bytes. -/
theorem State.account_frame_reached {s : State} {w : Who} {p : Place} (rd wr : Nat) (h : s.heldOff w.core p = false) :
    s.account w p rd wr = { s with
      cores := (s.account w p rd wr).cores
      clusters := (s.account w p rd wr).clusters
      islands := (s.account w p rd wr).islands
      signalMaps := (s.account w p rd wr).signalMaps
      tags := (s.account w p rd wr).tags } := by
  conv_lhs => rw [State.account_frame, State.account_stall rd wr h]

@[simp] theorem State.noteWatch_getG (s : State) (k : AccKind) (va : Word) (n : Nat) (r : BitVec 5) :
    (s.noteWatch k va n).getG r = s.getG r := by
  rw [State.noteWatch_frame]
  rfl

@[simp] theorem State.account_getG (s : State) (w : Who) (p : Place) (rd wr : Nat) (r : BitVec 5) :
    (s.account w p rd wr).getG r = s.getG r := by
  unfold State.getG
  rw [State.account_h]

/-- The state once `n` bytes have been read at a place. -/
def State.loaded (s : State) (p : Place) (va : Word) (n : Nat) : State := (s.account s.who p n 0).noteWatch .read va n

/-- It is as before but for what an access leaves. -/
theorem State.loaded_frame {s : State} {p : Place} (va : Word) (n : Nat) (h : s.heldOff s.myCore p = false) :
    s.loaded p va n = { s with
      h := { s.h with watch := (s.loaded p va n).h.watch }
      cores := (s.loaded p va n).cores
      clusters := (s.loaded p va n).clusters
      islands := (s.loaded p va n).islands
      signalMaps := (s.loaded p va n).signalMaps
      tags := (s.loaded p va n).tags } := by
  unfold State.loaded
  rw [State.noteWatch_frame, State.account_frame_reached (w := s.who) n 0 h]

/-- A load that is performed puts what it has read into gd (R98). -/
theorem State.loadG_reached {s : State} {d : BitVec 5} {w : BitVec 3} {va : Word} {len : Nat} {p : Place}
    (h : Reaching s .read true va (codeBytes w) p) : s.loadG d w va len =
      .next ((s.loaded p va (codeBytes w)).setGAdv d (extendLoad w (leNat s p.key (codeBytes w))) len) := by
  obtain ⟨ha, ht, hf, -⟩ := h
  have hload : s.load true va (codeBytes w) = .ok (leNat s p.key (codeBytes w), s.loaded p va (codeBytes w)) :=
    State.load_ok.mpr ⟨p, ht, hf, leNat_eq_read _ _ _, rfl⟩
  unfold State.loadG
  rw [State.check_pass (by simp [widthBytes_eq, ha])]
  simp only [widthBytes_eq, hload]

/-- Settles O5: the load is performed at its place, and leaves nothing but what an access leaves. -/
theorem scalarLoadResults : Obligations.ScalarLoadResults := by
  unfold Obligations.ScalarLoadResults
  intro s i d w va len p _ hi hr
  obtain ⟨-, -, -, hheld⟩ := id hr
  have hframe := State.loaded_frame va (codeBytes w) hheld
  have hacc := State.noteWatch_frame (s.account s.who p (codeBytes w) 0) .read va (codeBytes w)
  have htags : (s.loaded p va (codeBytes w)).tags = tagsAt s p := by
    rw [State.loaded, hacc]
    exact s.account_tags_eq _ _ _ _
  refine ⟨_, (exec_scalarLoad hi).trans (State.loadG_reached hr), fun r => ?_, ?_, fun a => ?_, htags, ?_, ?_, ?_⟩
  · rw [State.getG_setGAdv, extendLoad_eq]
    simp [State.loaded]
  · rw [State.setGAdv_pc, hframe]
  · rw [State.setGAdv_frame, hframe]
  · rw [State.setGAdv_frame, hframe]
  · rw [State.setGAdv_frame, hframe]
  · refine accessFrame_of_account (w := s.who) (p := p) (rd := codeBytes w) (wr := 0) ?_ ?_ ?_ ?_
    · rw [State.setGAdv_frame, State.loaded, hacc]
    · rw [State.setGAdv_frame, State.loaded, hacc]
    · rw [State.setGAdv_frame, State.loaded, hacc]
    · rw [State.setGAdv_frame, hframe]

/-- The state once the low `n` bytes of `x` have been stored at a place. -/
def State.stored (s : State) (p : Place) (va : Word) (n x : Nat) : State :=
  ((s.account s.who p 0 n).poke p.key n x).noteWatch .write va n

/-- It is as before but for what a store leaves. -/
theorem State.stored_frame {s : State} {p : Place} (va : Word) (n x : Nat) (h : s.heldOff s.myCore p = false) :
    s.stored p va n x = { s with
      h := { s.h with watch := (s.stored p va n x).h.watch }
      cores := (s.stored p va n x).cores
      clusters := (s.stored p va n x).clusters
      islands := (s.stored p va n x).islands
      mem := (s.stored p va n x).mem
      badMem := (s.stored p va n x).badMem
      dones := (s.stored p va n x).dones
      tags := (s.stored p va n x).tags
      signalMaps := (s.stored p va n x).signalMaps
      watches := (s.stored p va n x).watches } := by
  unfold State.stored
  rw [State.noteWatch_frame, State.account_frame_reached (w := s.who) 0 n h]
  rfl

section Stored

variable (s : State) (p : Place) (va : Word) (n x : Nat)

theorem State.stored_cores : (s.stored p va n x).cores = (s.account s.who p 0 n).cores := by
  rw [State.stored, State.noteWatch_frame]
  rfl

theorem State.stored_clusters : (s.stored p va n x).clusters = (s.account s.who p 0 n).clusters := by
  rw [State.stored, State.noteWatch_frame]
  rfl

theorem State.stored_islands : (s.stored p va n x).islands = (s.account s.who p 0 n).islands := by
  rw [State.stored, State.noteWatch_frame]
  rfl

theorem State.stored_mem : (s.stored p va n x).mem = Memory.write s.mem p.key n x := by
  rw [State.stored, State.noteWatch_mem, State.poke_mem, State.account_mem]

theorem State.stored_tags : (s.stored p va n x).tags = tagsAt s p := by
  rw [State.stored, State.noteWatch_frame]
  exact s.account_tags_eq _ _ _ _

end Stored

/-- A store that is performed is translated to its place again. -/
theorem State.translate_stored {s : State} {p : Place} {va : Word} (n x : Nat) (h : s.translate s.who .write true va = .ok p) :
    (s.stored p va n x).translate s.who .write true va = .ok p := by
  have hcore : (s.stored p va n x).core s.myCore = (s.fillTlb s.who p).core s.myCore := by
    rw [← s.core_account s.who p 0 n, State.core, s.stored_cores]
    rfl
  have hisland : ∀ i, (s.stored p va n x).island i = (s.account s.who p 0 n).island i := by
    intro i
    unfold State.island
    simp only [s.stored_islands]
  refine State.translate_again h (fun e he => ?_) (fun i => ?_) fun i => ?_
  · show ((s.stored p va n x).core s.myCore).tlb = _
    rw [hcore, State.core_fillTlb he]
    exact if_pos rfl
  · rw [hisland, State.island_account]
  · rw [hisland, State.island_account]

/-- The tag of a release is that of the place of the store, with the hart's CPTAG (R255, R300). -/
theorem State.tagWrite_stored {s : State} {p : Place} {va : Word} (n x : Nat) (h : s.translate s.who .write true va = .ok p)
    (hheld : s.heldOff s.myCore p = false) :
    (s.stored p va n x).tagWrite va = (s.stored p va n x).setTag p s.hartTag := by
  have hwho : (s.stored p va n x).who = s.who := by
    rw [State.stored_frame va n x hheld]
    rfl
  have htag : (s.stored p va n x).hartTag = s.hartTag := by
    rw [State.stored_frame va n x hheld]
    rfl
  unfold State.tagWrite
  rw [hwho, State.translate_stored n x h, ← htag]

/-- The state past a store, with the tag that a release sets. -/
def State.pastStore (s : State) (p : Place) (va : Word) (n x : Nat) (release : Bool) (len : Nat) : State :=
  (if release then (s.stored p va n x).setTag p s.hartTag else s.stored p va n x).adv len

/-- A store that is performed (R98). -/
theorem State.store_reached {s : State} {va : Word} {n : Nat} {p : Place} (h : Reaching s .write true va n p) (x : Nat) :
    s.store true va n x = .ok (s.stored p va n x) := by
  obtain ⟨-, ht, hf, -⟩ := h
  exact State.store_ok.mpr ⟨p, ht, fun _ => hf, rfl⟩

theorem State.storeG_reached {s : State} {x : Word} {w : BitVec 3} {va : Word} {len : Nat} {p : Place}
    (h : Reaching s .write true va (codeBytes w) p) : s.storeG x w va len =
      .next (s.pastStore p va (codeBytes w) (x.toNat % 2 ^ (8 * codeBytes w)) false len) := by
  unfold State.storeG
  rw [State.check_pass (by simp [widthBytes_eq, h.1])]
  simp only [widthBytes_eq, State.store_reached h]
  rfl

/-- Every scalar store that is performed (R98, R254, R255). -/
theorem exec_scalarStore_reached {s : State} {i : Instr} {x : Word} {w : BitVec 3} {va : Word} {len : Nat} {r : Bool} {p : Place}
    (hi : scalarStore s i = some (x, w, va, len, r)) (h : Reaching s .write true va (codeBytes w) p) :
    exec i s = .next (s.pastStore p va (codeBytes w) (x.toNat % 2 ^ (8 * codeBytes w)) r len) := by
  unfold scalarStore at hi
  split at hi
  case h_1 g b w' i' =>
    obtain ⟨rfl, rfl, rfl, rfl, rfl⟩ := by simpa only [Option.some.injEq, Prod.mk.injEq] using hi
    exact State.storeG_reached h
  case h_2 a b o sc w' =>
    split_ifs at hi with hos
    obtain ⟨rfl, rfl, rfl, rfl, rfl⟩ := by simpa only [Option.some.injEq, Prod.mk.injEq] using hi
    have hpass : ∀ (o : BitVec 2) (sc : BitVec 3), ¬(o = 1 ∨ o = 3 ∨ sc = 5) → (!(o == 0 || o == 2) || sc == 5) = false := by decide
    obtain ⟨ha, ht, -, hheld⟩ := id h
    show execSto a b o sc w' s = _
    unfold execSto
    rw [State.check_pass (by simpa using hpass o sc hos), State.check_pass (by simp [widthBytes_eq, ha])]
    simp only [widthBytes_eq, State.store_reached h, State.tagWrite_stored _ _ ht hheld, State.pastStore, decide_eq_true_eq]
  case h_3 y b i' =>
    obtain ⟨rfl, rfl, rfl, rfl, rfl⟩ := by simpa only [Option.some.injEq, Prod.mk.injEq] using hi
    exact State.storeG_reached h
  case h_4 => exact absurd hi nofun

/-- Setting a tag changes tags and what watches have seen. -/
theorem State.setTag_frame (s : State) (p : Place) (t : BitVec 48) :
    s.setTag p t = { s with
      tags := if p.signal then SMap.set 0 s.tags (p.key / 8) t else s.tags
      watches := (s.setTag p t).watches } := by
  unfold State.setTag
  split <;> rfl

/-- A byte of the low bytes of a word. -/
theorem byte_of_low (x : Word) {n j : Nat} (hj : j < n) :
    BitVec.ofNat 8 (x.toNat % 2 ^ (8 * n) / 256 ^ j) = x.extractLsb' (8 * j) 8 := by
  rw [← BitVec.toNat_setWidth, byte_of_toNat]
  apply BitVec.eq_of_getLsbD_eq
  intro i hi
  have hin : 8 * j + i < 8 * n := by omega
  simp [hi, hin]

/-- Past a store nothing else has changed. -/
theorem State.pastStore_frame {s : State} {p : Place} (va : Word) (n x : Nat) (r : Bool) (len : Nat)
    (h : s.heldOff s.myCore p = false) :
    s.pastStore p va n x r len = { s.stored p va n x with
      h := { s.h with pc := s.h.pc + BitVec.ofNat 64 len, watch := (s.stored p va n x).h.watch }
      tags := if r = true ∧ p.signal = true then SMap.set 0 (tagsAt s p) (p.key / 8) s.hartTag else tagsAt s p
      watches := (s.pastStore p va n x r len).watches } := by
  have hh : (s.stored p va n x).h = { s.h with watch := (s.stored p va n x).h.watch } := by
    conv_lhs => rw [State.stored_frame va n x h]
  unfold State.pastStore
  cases r with
  | false =>
    rw [if_neg Bool.false_ne_true, if_neg (fun h => Bool.false_ne_true h.1), ← s.stored_tags p va n x]
    unfold State.adv
    rw [hh]
  | true =>
    simp only [if_true, true_and, ← s.stored_tags p va n x]
    unfold State.adv
    rw [State.setTag_frame, hh]

/-- Settles O6: the store is performed at its place, its bytes are there, and it leaves nothing but what an access leaves. -/
theorem scalarStoreResults : Obligations.ScalarStoreResults := by
  unfold Obligations.ScalarStoreResults
  intro s i x w va len r p _ hwf hi hr
  obtain ⟨-, -, -, hheld⟩ := id hr
  have hpast := State.pastStore_frame va (codeBytes w) (x.toNat % 2 ^ (8 * codeBytes w)) r len hheld
  have hbyte : ∀ a, Memory.byte (s.pastStore p va (codeBytes w) (x.toNat % 2 ^ (8 * codeBytes w)) r len).mem a =
      if p.key ≤ a ∧ a < p.key + codeBytes w then BitVec.ofNat 8 (x.toNat % 2 ^ (8 * codeBytes w) / 256 ^ (a - p.key))
      else Memory.byte s.mem a := by
    intro a
    rw [hpast]
    show Memory.byte (s.stored p va _ _).mem a = _
    rw [State.stored_mem, Memory.byte_write _ _ _ _ _ hwf]
  refine ⟨_, exec_scalarStore_reached hi hr, fun j hj => ?_, fun a ha => ?_, ?_, ?_, ?_, ?_⟩
  · rw [hbyte, if_pos ⟨by omega, by omega⟩, Nat.add_sub_cancel_left, byte_of_low x hj]
  · rw [hbyte, if_neg (by omega)]
  · rw [hpast]
  · rw [hpast]
  · refine accessFrame_of_account (w := s.who) (p := p) (rd := 0) (wr := codeBytes w) ?_ ?_ ?_ ?_
    · rw [hpast, ← State.stored_cores]
    · rw [hpast, ← State.stored_clusters]
    · rw [hpast, ← State.stored_islands]
    · rw [hpast, State.stored_frame _ _ _ hheld]
  · rw [hpast]
    split <;> rfl

end Sys2Proof.Machine
end

section
/-! PROOFS. Reading CSRs and the checks of an access (01 R32 to R34, 06 R99). -/

namespace Sys2Proof.Machine

open Sys2Proof.Safety

/-! ### Fields -/

/-- A field, in the model and in the statements. -/
theorem fld_eq (x : Word) (lo len : Nat) : fld x lo len = (x.extractLsb' lo len).toNat := by
  rw [fld, bits, BitVec.extractLsb'_toNat]

/-- A field of one bit. -/
theorem getLsbD_iff_fld (x : Word) (j : Nat) : x.getLsbD j = true ↔ fld x j 1 = 1 := by
  rw [BitVec.getLsbD, Nat.testBit_eq_decide_div_mod_eq, decide_eq_true_eq, fld, bits, Nat.shiftRight_eq_div_pow, pow_one]

/-! ### Numbers that are assigned (Table 1-8, Table 18-2) -/

/-- The ranges of assigned numbers: first, and how many. -/
def csrRanges : List (Nat × Nat) :=
  [(0x000, 7), (0x008, 1), (0x00C, 13), (0x020, 3), (0x024, 1), (0x200, 10), (0x210, 10), (0x400, 21), (0x600, 4)]

theorem csrAssigned_iff (n : Nat) : csrAssigned n = true ↔ ∃ r ∈ csrRanges, r.1 ≤ n ∧ n < r.1 + r.2 := by
  simp only [csrAssigned, csrRanges, List.exists_mem_cons_iff, List.not_mem_nil, false_and, exists_false, or_false, Bool.or_eq_true,
    Bool.and_eq_true, decide_eq_true_eq, beq_iff_eq]
  omega

/-- The numbers of the CSRs that the statements list, in their order. -/
def csrNumbers : List (BitVec 11) := (csrsOf State.reset).map Prod.fst

theorem csrsOf_numbers (s : State) : (csrsOf s).map Prod.fst = csrNumbers := by
  simp [csrNumbers, csrsOf, hartCsrs]

/-- Every assigned number is listed. -/
theorem mem_csrNumbers {c : BitVec 11} (h : csrAssigned c.toNat = true) : c ∈ csrNumbers := by
  obtain ⟨r, hr, hlo, hhi⟩ := (csrAssigned_iff _).mp h
  have hlisted : ∀ r ∈ csrRanges, ∀ j < r.2, BitVec.ofNat 11 (r.1 + j) ∈ csrNumbers := by decide +kernel
  have := hlisted r hr (c.toNat - r.1) (by omega)
  rwa [Nat.add_sub_cancel' hlo, BitVec.ofNat_toNat, BitVec.setWidth_eq] at this

/-! ### Values as read -/

/-- CTXSIZE counts what the hart holds (R369). -/
theorem State.ctxSize_eq (s : State) : s.ctxSize = 40960 + 32768 * (1 + (List.range 3).countP fun b => s.h.held.getLsbD b) +
    132096 * ([0, 1, 2, 3] : List (BitVec 2)).countP fun z => s.holdsZ z := by
  have hcount : ∀ b : Bool, b.toNat = if b = true then 1 else 0 := by decide
  have hblocks : State.ctxSize.onesBelow3 s.h.held = (List.range 3).countP fun b => s.h.held.getLsbD b := by
    simp only [State.ctxSize.onesBelow3, List.range_succ, List.range_zero, List.nil_append, hcount,
      List.cons_append, List.countP_cons, List.countP_nil]
    omega
  have htiles : ((List.finRange 4).countP fun z => s.holdsZ (BitVec.ofNat 2 z.val)) =
      ([0, 1, 2, 3] : List (BitVec 2)).countP fun z => s.holdsZ z :=
    (List.countP_map (p := fun z => s.holdsZ z) (f := fun z : Fin 4 => BitVec.ofNat 2 z.val) (l := List.finRange 4)).symm
  rw [State.ctxSize, hblocks, htiles]

/-- DBGCTL as read (Table 22-3). -/
theorem State.dbgctl_eq (s : State) : s.dbgctl = BitVec.ofNat 64 (s.dbgsel.toNat * 64 +
    (if (s.cluster s.dbgsel).freeze = .frozen then 32 else 0) + (if (s.cluster s.dbgsel).stopen = true then 16 else 0)) := by
  unfold State.dbgctl
  dsimp only
  congr 2
  · by_cases h : (s.cluster s.dbgsel).freeze = .frozen <;> simp [h]
  · cases (s.cluster s.dbgsel).stopen <;> rfl

/-- Every CSR listed is assigned. -/
theorem csrsOf_assigned {s : State} {c : BitVec 11} {v : Word} (h : (c, v) ∈ csrsOf s) : csrAssigned c.toNat = true := by
  have hlisted : (csrNumbers.all fun c => csrAssigned c.toNat) = true := by decide +kernel
  exact List.all_eq_true.mp hlisted c (csrsOf_numbers s ▸ List.mem_map_of_mem (f := Prod.fst) h)

/-- Every CSR listed reads as listed. -/
theorem csrsOf_read (s : State) : ∀ p ∈ csrsOf s, s.csrGet p.1.toNat = p.2 := by
  unfold csrsOf hartCsrs
  simp only [← State.ctxSize_eq, ← State.dbgctl_eq, List.forall_mem_append, List.forall_mem_cons, List.not_mem_nil, false_implies,
    implies_true, and_true, List.forall_mem_ofFn_iff]
  refine ⟨⟨?shared, ?channels⟩, ?own⟩
  case shared => simp [State.csrGet]
  case own => simp [State.csrGet]
  case channels =>
    intro n
    fin_cases n <;> simp [State.csrGet]

/-! ### The checks of an access (R33) -/

/-- Numbers of class 2 are of the supervisor's levels, of class 3 of firmware (R32). -/
theorem csrPrivileged_iff (lvl : Level) (c : BitVec 11) : csrPrivileged lvl c.toNat = true ↔ ¬LevelReaches lvl c := by
  have hclass : c.toNat < 0x800 := c.isLt
  have h2 : c.toNat / 0x200 = 2 ↔ 0x400 ≤ c.toNat ∧ c.toNat < 0x600 := by omega
  have h3 : c.toNat / 0x200 = 3 ↔ 0x600 ≤ c.toNat := by omega
  simp only [csrPrivileged, LevelReaches, Bool.or_eq_true, Bool.and_eq_true, beq_iff_eq, bne_iff_ne, h2, h3, not_and_or,
    Classical.not_imp, not_not]

/-- Numbers of class 1 are read-only (R32). -/
theorem readOnly_iff (c : BitVec 11) : c.toNat / 0x200 = 1 ↔ 0x200 ≤ c.toNat ∧ c.toNat < 0x400 := by omega

/-- A writing CSR instruction is an access that puts the value of its row. -/
theorem exec_csrWriter {s : State} {i : Instr} {d : BitVec 5} {c : BitVec 11} {f : Word → Word} (h : csrWriter s i = some (d, c, f)) :
    exec i s = s.csrAccess d c (some f) := by
  cases i
  all_goals simp only [csrWriter, reduceCtorEq, Option.some.injEq, Prod.mk.injEq, Option.ite_none_left_eq_some] at h
  case csrset d a c =>
    obtain ⟨ha, rfl, rfl, rfl⟩ := h
    exact congrArg (s.csrAccess d c) (if_neg ha)
  case csrclr d a c =>
    obtain ⟨ha, rfl, rfl, rfl⟩ := h
    exact congrArg (s.csrAccess d c) (if_neg ha)
  all_goals
    obtain ⟨rfl, rfl, rfl⟩ := h
    rfl

/-- A read passes the checks when the number is assigned and the level reaches it. -/
theorem csrAccess_read {s : State} {d : BitVec 5} {c : BitVec 11} (hassigned : csrAssigned c.toNat = true) (hreach : LevelReaches s.h.lvl c) :
    s.csrAccess d c none = .next (s.setGAdv d (s.csrGet c.toNat) 4) := by
  have hlevel := Bool.eq_false_iff.mpr (mt (csrPrivileged_iff s.h.lvl c).mp (not_not.mpr hreach))
  unfold State.csrAccess
  exact State.check_pass (by simp [hassigned, hlevel])

/-- A write passes them when besides the number is not a read-only one and its value is admitted. -/
theorem csrAccess_write {s : State} {d : BitVec 5} {c : BitVec 11} {f : Word → Word} (hassigned : csrAssigned c.toNat = true)
    (hreach : LevelReaches s.h.lvl c) (hwritable : c.toNat / 0x200 ≠ 1) (hvalue : s.csrRefused c.toNat (f (s.csrGet c.toNat)) = false) :
    s.csrAccess d c (some f) = .next ((s.csrPut c.toNat (f (s.csrGet c.toNat))).setGAdv d (s.csrGet c.toNat) 4) := by
  have hlevel := Bool.eq_false_iff.mpr (mt (csrPrivileged_iff s.h.lvl c).mp (not_not.mpr hreach))
  unfold State.csrAccess
  exact State.check_pass (by simp [hassigned, hlevel, hwritable, hvalue])

theorem csrAccess_unassigned {s : State} {d : BitVec 5} {c : BitVec 11} {new : Option (Word → Word)}
    (h : csrAssigned c.toNat = false) : s.csrAccess d c new = s.trapPre 0x01 s.ir := by
  unfold State.csrAccess
  dsimp only
  rw [h]
  exact State.check_fail (cs := []) (by simp)

theorem csrAccess_privileged {s : State} {d : BitVec 5} {c : BitVec 11} {new : Option (Word → Word)}
    (hassigned : csrAssigned c.toNat = true) (h : ¬LevelReaches s.h.lvl c) : s.csrAccess d c new = s.trapPre 0x03 s.ir := by
  unfold State.csrAccess
  dsimp only
  rw [hassigned, (csrPrivileged_iff s.h.lvl c).mpr h]
  exact State.check_fail (cs := [(false, 0x01, s.ir)]) (by simp)

theorem csrAccess_readOnly {s : State} {d : BitVec 5} {c : BitVec 11} {f : Word → Word} (hassigned : csrAssigned c.toNat = true)
    (hreach : LevelReaches s.h.lvl c) (h : c.toNat / 0x200 = 1) : s.csrAccess d c (some f) = s.trapPre 0x01 s.ir := by
  have hlevel := Bool.eq_false_iff.mpr (mt (csrPrivileged_iff s.h.lvl c).mp (not_not.mpr hreach))
  rw [State.csrAccess, hassigned, hlevel, h]
  exact State.check_fail (cs := [(false, 0x01, s.ir), (false, 0x03, s.ir)]) (by simp)

theorem csrAccess_refused {s : State} {d : BitVec 5} {c : BitVec 11} {f : Word → Word} (hassigned : csrAssigned c.toNat = true)
    (hreach : LevelReaches s.h.lvl c) (hwritable : c.toNat / 0x200 ≠ 1)
    (h : s.csrRefused c.toNat (f (s.csrGet c.toNat)) = true) : s.csrAccess d c (some f) = s.trapPre 0x02 s.ir := by
  have hlevel := Bool.eq_false_iff.mpr (mt (csrPrivileged_iff s.h.lvl c).mp (not_not.mpr hreach))
  rw [State.csrAccess, hassigned, hlevel]
  simp only [h, hwritable, Option.isSome_some, Bool.true_and, Bool.not_true, beq_false_of_ne, ne_eq, not_false_eq_true]
  exact State.check_fail (cs := [(false, 0x01, s.ir), (false, 0x03, s.ir), (false, 0x01, s.ir)]) (by simp)

end Sys2Proof.Machine
end

section
/-! PROOFS. The values that a write of a CSR refuses (01 R33 step 4). -/

namespace Sys2Proof.Machine

open Sys2Proof.Safety

/-! ### Reserved bits -/

/-- The bits of fields, given as lowest bit and number of bits. -/
def fieldMask : List (Nat × Nat) → Nat
  | [] => 0
  | p :: ps => (2 ^ p.2 - 1) <<< p.1 ||| fieldMask ps

/-- A word has a bit in a field when the field is not 0. -/
theorem and_field_ne_zero (n lo len : Nat) : n &&& (2 ^ len - 1) <<< lo ≠ 0 ↔ bits n lo len ≠ 0 := by
  have h : n &&& (2 ^ len - 1) <<< lo = bits n lo len <<< lo := by
    rw [bits, ← Nat.and_two_pow_sub_one_eq_mod, Nat.shiftLeft_and_distrib]
    apply Nat.eq_of_testBit_eq
    intro j
    simp only [Nat.testBit_and, Nat.testBit_shiftLeft, Nat.testBit_shiftRight]
    by_cases hj : lo ≤ j
    · simp [hj]
    · simp [hj]
  rw [h, Nat.shiftLeft_eq]
  simp

theorem and_fieldMask_ne_zero (n : Nat) (ps : List (Nat × Nat)) : n &&& fieldMask ps ≠ 0 ↔ ∃ p ∈ ps, bits n p.1 p.2 ≠ 0 := by
  induction ps with
  | nil => simp [fieldMask]
  | cons p ps ih =>
    rw [List.exists_mem_cons_iff, ← ih, ← and_field_ne_zero, fieldMask, Nat.and_or_distrib_left, Ne, Nat.or_eq_zero_iff, not_and_or]

/-- The reserved fields of a CSR. -/
def zeroFields (c : BitVec 11) : List (Nat × Nat) := (csrZeroBits.filter fun p => p.1 = c).map Prod.snd

/-- The ranges of numbers of CSRs with reserved bits: first, and how many. -/
def reservedRanges : List (Nat × Nat) := [(0x002, 2), (0x008, 1), (0x00C, 13), (0x404, 1), (0x407, 1), (0x409, 9), (0x414, 1), (0x600, 4)]

theorem csrReserved_eq_zero {n : Nat} (h : ∀ r ∈ reservedRanges, ¬(r.1 ≤ n ∧ n < r.1 + r.2)) : csrReserved n = 0 := by
  simp only [reservedRanges, List.forall_mem_cons, List.not_mem_nil, false_implies, implies_true, and_true] at h
  unfold csrReserved
  iterate 21 rw [if_neg (by omega)]

/-- Those CSRs are listed. -/
theorem mem_csrZeroBits {c : BitVec 11} (h : csrReserved c.toNat ≠ 0) : c ∈ csrZeroBits.map Prod.fst := by
  have hlisted : ∀ r ∈ reservedRanges, ∀ j < r.2, BitVec.ofNat 11 (r.1 + j) ∈ csrZeroBits.map Prod.fst := by decide +kernel
  by_contra hc
  refine h (csrReserved_eq_zero fun r hr hrange => hc ?_)
  have := hlisted r hr (c.toNat - r.1) (by omega)
  rwa [Nat.add_sub_cancel' hrange.1, BitVec.ofNat_toNat, BitVec.setWidth_eq] at this

/-- The reserved bits of the model are those of the statements. -/
theorem csrReserved_eq (c : BitVec 11) : csrReserved c.toNat = fieldMask (zeroFields c) := by
  by_cases hc : c ∈ csrZeroBits.map Prod.fst
  · have hlisted : ((csrZeroBits.map Prod.fst).all fun c => csrReserved c.toNat == fieldMask (zeroFields c)) = true := by decide +kernel
    exact eq_of_beq (List.all_eq_true.mp hlisted c hc)
  · have hnone : zeroFields c = [] := by
      rw [zeroFields, List.map_eq_nil_iff, List.filter_eq_nil_iff]
      intro p hp
      simp only [decide_eq_true_eq]
      rintro rfl
      exact hc (List.mem_map_of_mem hp)
    rw [hnone, fieldMask]
    by_contra h
    exact hc (mem_csrZeroBits h)

theorem reserved_iff (c : BitVec 11) (x : Word) :
    x.toNat &&& csrReserved c.toNat ≠ 0 ↔ ∃ p ∈ csrZeroBits, p.1 = c ∧ (x.extractLsb' p.2.1 p.2.2).toNat ≠ 0 := by
  rw [csrReserved_eq, and_fieldMask_ne_zero, zeroFields]
  simp [List.mem_filter, bits, and_assoc]

/-! ### Refusals of one CSR -/

/-- An illegal VTYPE (R18). -/
theorem legalVtype_eq_false_iff (x : Word) :
    legalVtype x = false ↔ 3 < fld x 0 3 ∨ 3 < fld x 3 3 ∨ (fld x 7 1 = 1 ∧ fld x 0 3 ≠ 1) ∨ fld x 8 56 ≠ 0 := by
  have hwidth : x.getLsbD 2 = true ↔ 3 < fld x 0 3 := by
    rw [getLsbD_iff_fld]
    simp only [fld, bits, Nat.shiftRight_eq_div_pow]
    omega
  have hgroup : x.getLsbD 5 = true ↔ 3 < fld x 3 3 := by
    rw [getLsbD_iff_fld]
    simp only [fld, bits, Nat.shiftRight_eq_div_pow]
    omega
  rw [← hwidth, ← hgroup, ← getLsbD_iff_fld, Bool.eq_false_iff]
  simp only [legalVtype, Bool.and_eq_true, Bool.or_eq_true, Bool.not_eq_true', decide_eq_true_eq, Ne]
  cases x.getLsbD 2 <;> cases x.getLsbD 5 <;> cases x.getLsbD 7 <;> simp [imp_iff_not_or]

/-- A VTYPE that a hart may not take: an illegal one, or not that of its gang (R18, R275). -/
theorem vtypeRefused_iff (s : State) (x : Word) : legalVtype x = false ∨ s.vtypeOk x = false ↔
    3 < fld x 0 3 ∨ 3 < fld x 3 3 ∨ (fld x 7 1 = 1 ∧ fld x 0 3 ≠ 1) ∨ fld x 8 56 ≠ 0 ∨
      ∃ g, s.gangOf s.h.id = some g ∧ x ≠ g.vtype := by
  have hgang : legalVtype x = false ∨ s.vtypeOk x = false ↔ legalVtype x = false ∨ ∃ g, s.gangOf s.h.id = some g ∧ x ≠ g.vtype := by
    unfold State.vtypeOk
    cases s.gangOf s.h.id <;> cases legalVtype x <;> simp
  rw [hgang, legalVtype_eq_false_iff]
  simp only [or_assoc]

/-- A field of one bit, set. -/
theorem getElem_iff_fld (x : Word) (j : Nat) (h : j < 64) : x[j] = true ↔ fld x j 1 = 1 := by
  rw [← BitVec.getLsbD_eq_getElem h, getLsbD_iff_fld]

/-- A field of one bit, clear. -/
theorem getElem_eq_false_iff_fld (x : Word) (j : Nat) (h : j < 64) : x[j] = false ↔ fld x j 1 = 0 := by
  have hbit : fld x j 1 < 2 := Nat.mod_lt _ (by decide)
  rw [← Bool.not_eq_true, getElem_iff_fld]
  omega

/-- A ring or a trace buffer that may not stand (R304, R308). -/
theorem ringRefused_iff (s : State) (base size : Nat) :
    ringRefused base size (fld (s.island s.myIsland).hlcache 0 4) = true ↔ RingRefused s base size := by
  simp [ringRefused, RingRefused, fld_eq, or_assoc]

/-- A slot that holds a hart. -/
theorem slotFree_eq_false_iff (s : State) (id : HartId) : s.slotFree id = false ↔ (s.hart id).slot ≠ .free := by
  simp [State.slotFree]

/-- The CSRs with refusals of their own. -/
def refusingCsrs : List (BitVec 11) :=
  [0x000, 0x002, 0x008, 0x021, 0x404, 0x409, 0x40B, 0x40D, 0x410, 0x411, 0x412, 0x601, 0x602, 0x603]

theorem csrRefuses_iff (s : State) (c : BitVec 11) (x : Word) : CsrRefuses s c x ↔ s.csrRefused c.toNat x = true := by
  unfold CsrRefuses State.csrRefused csrBad
  simp only [Bool.or_eq_true, decide_eq_true_eq, or_assoc]
  refine or_congr (reserved_iff c x).symm ?_
  by_cases hc : c ∈ refusingCsrs
  · simp only [refusingCsrs, List.mem_cons, List.not_mem_nil, or_false] at hc
    simp only [← fld_eq]
    rcases hc with rfl | rfl | rfl | rfl | rfl | rfl | rfl | rfl | rfl | rfl | rfl | rfl | rfl | rfl
    all_goals simp [vtypeRefused_iff, ringRefused_iff, slotFree_eq_false_iff, getElem_iff_fld, getElem_eq_false_iff_fld, or_assoc]
  · simp only [refusingCsrs, List.mem_cons, List.not_mem_nil, or_false, not_or] at hc
    have hn := hc
    simp only [BitVec.toNat_eq, BitVec.reduceToNat] at hn
    simp only [hc, false_and, or_false]
    simp [hn]

end Sys2Proof.Machine
end

section
/-! PROOFS. What the writes of CSRs do (06 R99, R101). -/

namespace Sys2Proof.Machine

open Sys2Proof.Safety

/-- A CSR takes `x` and every other CSR reads as before. -/
def PutsCsr (s t : State) (n : Nat) (x : Word) : Prop := t.csrGet n = x ∧ ∀ m, m ≠ n → t.csrGet m = s.csrGet m

/-- The numbers of the CSRs that hold a register of the hart and have no behaviour of their own, but for TWIN and EVX. -/
def ownNumbers : List Nat :=
  [0x001, 0x002, 0x003, 0x004, 0x005, 0x006, 0x008, 0x020, 0x021, 0x022, 0x024, 0x400, 0x401, 0x402, 0x403, 0x404, 0x405, 0x406, 0x407,
   0x408, 0x40A, 0x40E, 0x413, 0x414, 0x600]

theorem csrPut_own (s : State) {n : Nat} (hn : n ∈ ownNumbers) (x : Word) : PutsCsr s (s.csrPut n x) n x := by
  simp only [ownNumbers, List.mem_cons, List.not_mem_nil, or_false] at hn
  rcases hn with rfl | rfl | rfl | rfl | rfl | rfl | rfl | rfl | rfl | rfl | rfl | rfl | rfl | rfl | rfl | rfl | rfl | rfl | rfl | rfl |
    rfl | rfl | rfl | rfl | rfl
  all_goals
    simp only [State.csrPut, Nat.reduceEqDiff, Nat.reduceLeDiff, reduceIte, and_false, false_and]
    refine ⟨rfl, fun m hm => ?_⟩
    unfold State.csrGet
    dsimp only
    rw [if_neg hm, if_neg hm]
    rfl

theorem csrGet_twin (s : State) {n : Nat} (h : 0x00C ≤ n ∧ n ≤ 0x00F) : s.csrGet n = (s.h.twin[n - 0x00C]?).getD 0 := by
  unfold State.csrGet
  iterate 8 rw [if_neg (by omega)]
  rw [if_pos h]

theorem csrGet_evx (s : State) {n : Nat} (h : 0x010 ≤ n ∧ n ≤ 0x018) : s.csrGet n = (s.h.evx[n - 0x010]?).getD 0 := by
  unfold State.csrGet
  iterate 9 rw [if_neg (by omega)]
  rw [if_pos h]

theorem csrPut_twin_eq (s : State) {n : Nat} (h : 0x00C ≤ n ∧ n ≤ 0x00F) (x : Word) :
    s.csrPut n x = { s with h := { s.h with twin := s.h.twin.setIfInBounds (n - 0x00C) x } } := by
  unfold State.csrPut
  iterate 8 rw [if_neg (by omega)]
  rw [if_pos h]

theorem csrPut_evx_eq (s : State) {n : Nat} (h : 0x010 ≤ n ∧ n ≤ 0x018) (x : Word) :
    s.csrPut n x = { s with h := { s.h with evx := s.h.evx.setIfInBounds (n - 0x010) x } } := by
  unfold State.csrPut
  iterate 9 rw [if_neg (by omega)]
  rw [if_pos h]

theorem csrPut_twin (s : State) {n : Nat} (h : 0x00C ≤ n ∧ n ≤ 0x00F) (x : Word) : PutsCsr s (s.csrPut n x) n x := by
  rw [csrPut_twin_eq s h]
  refine ⟨?written, fun m hm => ?_⟩
  case written =>
    rw [csrGet_twin _ h, Vector.getElem?_setIfInBounds_self_of_lt (by omega), Option.getD_some]
  by_cases hr : 0x00C ≤ m ∧ m ≤ 0x00F
  · rw [csrGet_twin _ hr, csrGet_twin _ hr, Vector.getElem?_setIfInBounds_ne (by omega)]
  · unfold State.csrGet
    dsimp only
    rw [if_neg hr, if_neg hr]
    rfl

theorem csrPut_evx (s : State) {n : Nat} (h : 0x010 ≤ n ∧ n ≤ 0x018) (x : Word) : PutsCsr s (s.csrPut n x) n x := by
  rw [csrPut_evx_eq s h]
  refine ⟨?written, fun m hm => ?_⟩
  case written =>
    rw [csrGet_evx _ h, Vector.getElem?_setIfInBounds_self_of_lt (by omega), Option.getD_some]
  by_cases hr : 0x010 ≤ m ∧ m ≤ 0x018
  · rw [csrGet_evx _ hr, csrGet_evx _ hr, Vector.getElem?_setIfInBounds_ne (by omega)]
  · unfold State.csrGet
    dsimp only
    rw [if_neg hr, if_neg hr]
    rfl

/-! ### CSRs of the island, the cluster and the package -/

theorem csrPut_cpthr (s : State) (x : Word) : PutsCsr s (s.csrPut 0x40C x) 0x40C x := by
  have hget : (s.csrPut 0x40C x).island (s.csrPut 0x40C x).myIsland = { s.island s.myIsland with cpthr := x } :=
    (State.island_setIsland s _ _ _).trans (if_pos rfl)
  refine ⟨congrArg Island.cpthr hget, fun m hm => ?_⟩
  unfold State.csrGet
  dsimp only
  rw [if_neg hm, if_neg hm, hget]
  rfl

theorem csrPut_hlcache (s : State) (x : Word) : PutsCsr s (s.csrPut 0x603 x) 0x603 x := by
  have hget : (s.csrPut 0x603 x).island (s.csrPut 0x603 x).myIsland = { s.island s.myIsland with hlcache := x, lines := [] } :=
    (State.island_setIsland s _ _ _).trans (if_pos rfl)
  refine ⟨congrArg Island.hlcache hget, fun m hm => ?_⟩
  unfold State.csrGet
  dsimp only
  rw [if_neg hm, if_neg hm, hget]
  rfl

theorem csrPut_dumpa (s : State) (x : Word) : PutsCsr s (s.csrPut 0x40F x) 0x40F x := by
  have hput : s.csrPut 0x40F x = { s with dumpa := x } := rfl
  refine ⟨rfl, fun m hm => ?_⟩
  rw [hput]
  unfold State.csrGet
  dsimp only
  rw [if_neg hm, if_neg hm]
  rfl

theorem csrPut_dbgwp {s : State} (hwf : SMap.wf Cluster.reset s.clusters = true) (x : Word) : PutsCsr s (s.csrPut 0x412 x) 0x412 x := by
  have hget : (s.csrPut 0x412 x).cluster (s.csrPut 0x412 x).dbgsel = { s.cluster s.dbgsel with dbgwp := x } :=
    (State.cluster_setCluster hwf _ _ _).trans (if_pos rfl)
  have hdbgctl : (s.csrPut 0x412 x).dbgctl = s.dbgctl := by
    unfold State.dbgctl
    rw [hget]
    rfl
  refine ⟨congrArg Cluster.dbgwp hget, fun m hm => ?_⟩
  unfold State.csrGet
  dsimp only
  rw [if_neg hm, if_neg hm, hdbgctl]
  rfl

/-- A CSR without behaviour of its own reads the value written, and the others read as before. -/
theorem csrPut_plain {s : State} (hwf : SMap.wf Cluster.reset s.clusters = true) {n : Nat} (hassigned : csrAssigned n = true)
    (hclass : n / 0x200 ≠ 1) (hplain : n ∉ csrSpecial) (x : Word) : PutsCsr s (s.csrPut n x) n x := by
  rw [csrAssigned_iff] at hassigned
  simp only [csrRanges, List.exists_mem_cons_iff, List.not_mem_nil, false_and, exists_false, or_false] at hassigned
  simp only [csrSpecial, List.mem_cons, List.not_mem_nil, or_false, not_or] at hplain
  by_cases htwin : 0x00C ≤ n ∧ n ≤ 0x00F
  · exact csrPut_twin s htwin x
  by_cases hevx : 0x010 ≤ n ∧ n ≤ 0x018
  · exact csrPut_evx s hevx x
  by_cases hown : n ∈ ownNumbers
  · exact csrPut_own s hown x
  simp only [ownNumbers, List.mem_cons, List.not_mem_nil, or_false, not_or] at hown
  have hrest : n = 0x40C ∨ n = 0x40F ∨ n = 0x412 ∨ n = 0x603 := by omega
  rcases hrest with rfl | rfl | rfl | rfl
  · exact csrPut_cpthr s x
  · exact csrPut_dumpa s x
  · exact csrPut_dbgwp hwf x
  · exact csrPut_hlcache s x

/-! ### What a write leaves -/

/-- `t` is `s` but for CSRs: the registers that instructions work on, the PC, the level, memory and the other harts are as before. -/
structure CsrFrame (s t : State) : Prop where
  mem : t.mem = s.mem
  others : t.others = s.others
  id : t.h.id = s.h.id
  pc : t.h.pc = s.h.pc
  lvl : t.h.lvl = s.h.lvl
  g : t.h.g = s.h.g
  v : t.h.v = s.h.v
  k : t.h.k = s.h.k
  pl : t.h.pl = s.h.pl
  e : t.h.e = s.h.e

theorem CsrFrame.ite {s a b : State} {p : Prop} [Decidable p] (ha : CsrFrame s a) (hb : CsrFrame s b) : CsrFrame s (if p then a else b) := by
  split <;> assumption

/-- Every write but those of PREQ and DBGCTL stays within the CSRs. -/
theorem csrPut_frame (s : State) {n : Nat} (hpreq : n ≠ 0x40D) (hdbg : n ≠ 0x411) (x : Word) : CsrFrame s (s.csrPut n x) := by
  unfold State.csrPut State.putDumpctl
  dsimp only
  rw [if_neg hpreq, if_neg hdbg]
  repeat' apply CsrFrame.ite
  all_goals exact ⟨rfl, rfl, rfl, rfl, rfl, rfl, rfl, rfl, rfl, rfl⟩

/-- The old value goes to gd of the state written. -/
theorem putsG_setGAdv {s u : State} (hg : u.h.g = s.h.g) (d : BitVec 5) (x : Word) (n : Nat) : PutsG s (u.setGAdv d x n) d x := by
  intro r
  have hget : u.getG r = s.getG r := by rw [State.getG, State.getG, hg]
  rw [State.getG_setGAdv, hget]

end Sys2Proof.Machine
end

section
/-! PROOFS. What resuming a cluster leaves: the replies of its skid buffer reach registers of harts (22 R389). -/

namespace Sys2Proof.Machine

open Sys2Proof.Safety

/-! ### What an arrival leaves -/

/-- From `s` to `t` the hart that moves keeps its number, g registers and PC, and goes on running if it ran; no cluster has become
frozen or running, and no skid buffer has changed. -/
structure Drains (s t : State) : Prop where
  id : t.h.id = s.h.id
  pc : t.h.pc = s.h.pc
  g : t.h.g = s.h.g
  run : s.h.slot = .run → t.h.slot = .run
  wf : SMap.wf Cluster.reset s.clusters = true → SMap.wf Cluster.reset t.clusters = true
  gate : SMap.wf Cluster.reset s.clusters = true → ∀ c, (t.cluster c).freeze = (s.cluster c).freeze ∧ (t.cluster c).skid = (s.cluster c).skid

/-- Besides the other harts stay. -/
structure Arrives (s t : State) : Prop extends Drains s t where
  others : t.others = s.others

theorem Drains.refl (s : State) : Drains s s := ⟨rfl, rfl, rfl, fun h => h, fun h => h, fun _ _ => ⟨rfl, rfl⟩⟩

theorem Drains.trans {s t u : State} (a : Drains s t) (b : Drains t u) : Drains s u where
  id := b.id.trans a.id
  pc := b.pc.trans a.pc
  g := b.g.trans a.g
  run h := b.run (a.run h)
  wf h := b.wf (a.wf h)
  gate h c := ⟨(b.gate (a.wf h) c).1.trans (a.gate h c).1, (b.gate (a.wf h) c).2.trans (a.gate h c).2⟩

theorem Arrives.refl (s : State) : Arrives s s := ⟨.refl s, rfl⟩

theorem Arrives.trans {s t u : State} (a : Arrives s t) (b : Arrives t u) : Arrives s u :=
  ⟨a.toDrains.trans b.toDrains, b.others.trans a.others⟩

/-- A change of neither the clusters nor the other harts. -/
theorem Arrives.of_eq {s t : State} (hc : t.clusters = s.clusters) (others : t.others = s.others) (id : t.h.id = s.h.id)
    (pc : t.h.pc = s.h.pc) (g : t.h.g = s.h.g) (run : s.h.slot = .run → t.h.slot = .run) : Arrives s t where
  id := id
  pc := pc
  g := g
  run := run
  wf h := hc ▸ h
  gate _ c := by
    have : t.cluster c = s.cluster c := by rw [State.cluster, State.cluster, hc]
    exact ⟨by rw [this], by rw [this]⟩
  others := others

/-- The same with the slot as it was. -/
theorem Arrives.of_rfl {s t : State} (hc : t.clusters = s.clusters) (others : t.others = s.others) (id : t.h.id = s.h.id)
    (pc : t.h.pc = s.h.pc) (g : t.h.g = s.h.g) (slot : t.h.slot = s.h.slot) : Arrives s t :=
  .of_eq hc others id pc g fun h => slot.trans h

theorem arrives_setCptag (s : State) (x : Word) : Arrives s (s.setCptag x) := by
  unfold State.setCptag Hart.mend
  split <;> exact .of_rfl rfl rfl rfl rfl rfl rfl

theorem arrives_newEdge (s : State) (isl : BitVec 3) (wkind waiter pkind pid : Nat) (prior : Word) (began : Nat) :
    Arrives s (s.newEdge isl wkind waiter pkind pid prior began).2 := by
  unfold State.newEdge
  dsimp only
  split <;> exact .of_rfl rfl rfl rfl rfl rfl rfl

theorem arrives_carry (s : State) (edge : Word) : Arrives s (s.carry edge) := by
  unfold State.carry
  split
  · exact .refl s
  · exact arrives_setCptag s edge

theorem arrives_arrivedSince (s : State) (since : Option Nat) (wkind pkind pid : Nat) (prior : Word) :
    Arrives s (s.arrivedSince since wkind pkind pid prior) := by
  cases since with
  | none => exact arrives_carry s prior
  | some t =>
    unfold State.arrivedSince
    dsimp only
    split
    · exact (arrives_newEdge s _ _ _ _ _ _ _).trans (arrives_setCptag _ _)
    · exact arrives_carry s prior

theorem arrives_streamArrived (s : State) (p : Producer) : Arrives s (s.streamArrived p) := by
  unfold State.streamArrived
  split
  · split
    · exact .refl s
    · exact arrives_arrivedSince s _ _ _ _ _
  · split
    · exact .refl s
    · exact arrives_arrivedSince s _ _ _ _ _
  · exact .refl s

theorem arrives_post (s : State) (c : BitVec 10) (r : EventRec) : Arrives s (s.post c r) := by
  unfold State.post
  dsimp only
  split <;> exact .of_rfl rfl rfl rfl rfl rfl rfl

theorem arrives_streamEnded (s : State) (n : BitVec 2) (q : Stream) : Arrives s (s.streamEnded n q) := by
  unfold State.streamEnded
  split
  · exact arrives_post s _ _
  · exact .refl s

/-- A stream that ends no longer fills registers. -/
theorem arrives_unbound (s : State) (p : Producer → Bool) (streams : Vector (Option Stream) 4) :
    Arrives s { s with h := { s.h.dropPending p with streams := streams } } := .of_rfl rfl rfl rfl rfl rfl rfl

theorem arrives_endStream (s : State) (n : BitVec 2) : Arrives s (s.endStream n) := by
  unfold State.endStream
  split
  · exact .refl s
  · exact (arrives_unbound s _ _).trans (arrives_streamEnded _ n _)

theorem arrives_finishStream (s : State) (n : BitVec 2) : Arrives s (s.finishStream n) := by
  unfold State.finishStream
  split
  · exact .refl s
  · split
    · exact arrives_endStream s n
    · exact .refl s

/-- A cluster of which gangs change. -/
theorem arrives_setGangs (s : State) (c : BitVec 6) (gs : List Gang) : Arrives s (s.setCluster c { s.cluster c with gangs := gs }) where
  id := rfl
  pc := rfl
  g := rfl
  run h := h
  wf h := SMap.wf_set _ _ h
  gate h c' := by
    rw [State.cluster_setCluster h]
    split
    · next hc => exact ⟨by rw [hc], by rw [hc]⟩
    · exact ⟨rfl, rfl⟩
  others := rfl

theorem arrives_mapGangStreams (s : State) (f : List GangStream → List GangStream) : Arrives s (s.mapGangStreams f) := by
  unfold State.mapGangStreams
  split
  · exact .refl s
  · exact arrives_setGangs s _ _

theorem arrives_finishGang (s : State) (n : BitVec 2) : Arrives s (s.finishGang n) := by
  have hleft (q : GangStream) (left : List (HartId × Nat)) :
      Arrives s (if left = [] then s.mapGangStreams fun qs => qs.filter fun x => !x.same q else s.putGangStream { q with at_ := left }) := by
    split <;> exact arrives_mapGangStreams s _
  unfold State.finishGang
  split
  · exact .refl s
  · split
    · exact .refl s
    · dsimp only
      split
      · split
        · exact (hleft _ _).trans (arrives_streamEnded _ n _)
        · exact hleft _ _
      · exact .refl s

theorem arrives_delivered (s : State) (p : Producer) : Arrives s (s.delivered p) := by
  cases p with
  | stream n => exact arrives_finishStream s n
  | gang n _ => exact arrives_finishGang s n
  | pipe => exact .refl s

theorem arrives_wakeReg (s : State) (r : BitVec 5) (p : Producer) (last : Bool) : Arrives s (s.wakeReg r p last) := by
  unfold State.wakeReg
  split
  · next w src part since hslot =>
    split
    · have hwoken : Arrives s (if src then s.streamArrived p else s) := by
        split
        · exact arrives_streamArrived s p
        · exact .refl s
      exact { hwoken with run := fun h => absurd (hslot.symm.trans h) (by simp) }
    · exact .refl s
  · exact .refl s

/-- What a producer writes to registers. -/
theorem arrives_fill (s : State) (v : Vector (BitVec 32768) 32) (full : Vector Fullness 32) :
    Arrives s { s with h := { s.h with v := v, full := full } } := .of_rfl rfl rfl rfl rfl rfl rfl

/-- The last of it, and what is not the last. -/
theorem arrives_wake (s : State) (r : BitVec 5) (p : Producer) (last : Bool) :
    Arrives s (if last then (s.wakeReg r p last).delivered p else s.wakeReg r p last) := by
  split
  · exact (arrives_wakeReg s r p last).trans (arrives_delivered _ p)
  · exact arrives_wakeReg s r p last

theorem arrives_arrival (s : State) (r : BitVec 5) : Arrives s (s.arrival r) := by
  unfold State.arrival
  split
  · exact .refl s
  · split
    · exact .refl s
    · exact (arrives_fill s _ _).trans (arrives_wake _ r _ _)

/-! ### The skid buffer -/

/-- A reply reaches a register of a hart; the one that moves is running. -/
theorem drains_drainOne {s : State} (hrun : s.h.slot = .run) (p : HartId × BitVec 5) : Drains s (s.drainOne p) := by
  change Drains s (((s.focus p.1).arrival p.2).focus s.h.id)
  by_cases hown : p.1 = s.h.id
  · have hfocus : s.focus p.1 = s := by rw [State.focus, if_pos hown]
    have harrives := arrives_arrival s p.2
    rw [hfocus, State.focus, if_pos harrives.id.symm]
    exact harrives.toDrains
  · have harrives := arrives_arrival (s.focus p.1) p.2
    generalize hu : (s.focus p.1).arrival p.2 = u at harrives
    have hid : u.h.id = p.1 := by rw [harrives.id, State.focus_h, State.hart_id]
    have hothers : u.others = insertHart s.h (s.others.filter fun x => x.id != p.1) := by
      rw [harrives.others, State.focus, if_neg hown]
    have hclusters : (s.focus p.1).clusters = s.clusters := by rw [State.focus, if_neg hown]
    have hback : (u.focus s.h.id).h = s.h := by
      rw [State.focus_h, State.hart, hid, if_neg (Ne.symm hown), hothers, find_insertHart (by simp [hrun]), if_pos rfl]
      rfl
    have hkept : (u.focus s.h.id).clusters = u.clusters := by rw [State.focus, hid, if_neg (Ne.symm hown)]
    have hcluster (c : BitVec 6) : (u.focus s.h.id).cluster c = u.cluster c := by rw [State.cluster, State.cluster, hkept]
    have hbefore (c : BitVec 6) : (s.focus p.1).cluster c = s.cluster c := by rw [State.cluster, State.cluster, hclusters]
    exact {
      id := by rw [hback]
      pc := by rw [hback]
      g := by rw [hback]
      run := fun h => by rw [hback, h]
      wf := fun h => by
        rw [hkept]
        exact harrives.wf (hclusters ▸ h)
      gate := fun h c => by
        rw [hcluster, ← hbefore]
        exact harrives.gate (hclusters ▸ h) c }

theorem drains_skid {s : State} (hrun : s.h.slot = .run) (skid : List (HartId × BitVec 5)) : Drains s (skid.foldl State.drainOne s) := by
  induction skid generalizing s with
  | nil => exact .refl s
  | cons p skid ih => exact (drains_drainOne hrun p).trans (ih ((drains_drainOne hrun p).run hrun))

/-! ### Resuming a cluster -/

/-- A hart that runs counts no wait. -/
theorem thaw_run {h : Hart} (hrun : h.slot = .run) (since clk : Nat) : h.thaw since clk = h := by
  unfold Hart.thaw
  rw [hrun]

/-- The state in which the skid buffer of cluster `cl` drains: it is ungated, and its skid buffer taken out. -/
def State.ungated (s : State) (cl : BitVec 6) : State := s.setCluster cl { s.cluster cl with freeze := .running, skid := [] }

theorem ungated_gate {s : State} (hwf : SMap.wf Cluster.reset s.clusters = true) (cl : BitVec 6) :
    (s.ungated cl).cluster cl = { s.cluster cl with freeze := .running, skid := [] } :=
  (State.cluster_setCluster hwf _ _ _).trans (if_pos rfl)

/-- Resuming a frozen cluster delivers what its skid buffer holds; of the hart that moves, which runs, it changes nothing more. -/
theorem unfreeze_frozen {s : State} {cl : BitVec 6} (hrun : s.h.slot = .run) (hfrozen : (s.cluster cl).freeze = .frozen) :
    ∃ os, s.unfreeze cl = { (s.cluster cl).skid.foldl State.drainOne (s.ungated cl) with others := os } := by
  generalize ht : (s.cluster cl).skid.foldl State.drainOne (s.ungated cl) = t
  have hkeeps : t.h.slot = .run := ht ▸ (drains_skid (s := s.ungated cl) hrun _).run hrun
  unfold State.unfreeze
  rw [if_neg (not_not.mpr hfrozen), ← State.ungated, ht]
  dsimp only
  rw [thaw_run hkeeps, ite_self]
  exact ⟨_, rfl⟩

/-- Resuming a cluster that is not frozen does nothing. -/
theorem unfreeze_of_not_frozen {s : State} {cl : BitVec 6} (h : (s.cluster cl).freeze ≠ .frozen) : s.unfreeze cl = s := by
  unfold State.unfreeze
  exact if_pos h

/-- Resuming keeps the g registers and the PC of the hart that moves, which runs. -/
theorem unfreeze_own {s : State} (hrun : s.h.slot = .run) (cl : BitVec 6) : (s.unfreeze cl).h.g = s.h.g ∧ (s.unfreeze cl).h.pc = s.h.pc := by
  by_cases hfrozen : (s.cluster cl).freeze = .frozen
  · obtain ⟨os, h⟩ := unfreeze_frozen hrun hfrozen
    have hdrains := drains_skid (s := s.ungated cl) hrun (s.cluster cl).skid
    rw [h]
    exact ⟨hdrains.g, hdrains.pc⟩
  · rw [unfreeze_of_not_frozen hfrozen]
    exact ⟨rfl, rfl⟩

/-- A frozen cluster that was resumed runs, and its skid buffer is empty. -/
theorem unfreeze_gate {s : State} {cl : BitVec 6} (hrun : s.h.slot = .run) (hwf : SMap.wf Cluster.reset s.clusters = true)
    (hfrozen : (s.cluster cl).freeze = .frozen) :
    ((s.unfreeze cl).cluster cl).freeze = .running ∧ ((s.unfreeze cl).cluster cl).skid = [] := by
  obtain ⟨os, h⟩ := unfreeze_frozen hrun hfrozen
  obtain ⟨hfreeze, hskid⟩ := (drains_skid (s := s.ungated cl) hrun (s.cluster cl).skid).gate (SMap.wf_set _ _ hwf) cl
  rw [ungated_gate hwf] at hfreeze hskid
  rw [h]
  exact ⟨hfreeze, hskid⟩

/-! ### A write of DBGCTL -/

/-- The state after SEL and STOPEN of a DBGCTL value were written. -/
def State.selected (s : State) (x : Word) : State :=
  { s with dbgsel := BitVec.ofNat 6 (fld x 6 6) }.setCluster (BitVec.ofNat 6 (fld x 6 6))
    { s.cluster (BitVec.ofNat 6 (fld x 6 6)) with stopen := x.getLsbD 4 }

/-- The same after GO. -/
def State.resumed (s : State) (x : Word) : State :=
  if x.getLsbD 1 then (s.selected x).unfreeze (BitVec.ofNat 6 (fld x 6 6)) else s.selected x

theorem putDbgctl_eq (s : State) (x : Word) : s.putDbgctl x =
    if x.getLsbD 0 then (s.resumed x).freezeCluster (BitVec.ofNat 6 (fld x 6 6)) 3 none 0 else s.resumed x := rfl

theorem freezeCluster_h (s : State) (cl : BitVec 6) (code : Nat) (hart : Option HartId) (waddr : Word) :
    (s.freezeCluster cl code hart waddr).h = s.h := by
  unfold State.freezeCluster
  dsimp only
  split <;> rfl

theorem putDbgctl_own {s : State} (hrun : s.h.slot = .run) (x : Word) :
    (s.putDbgctl x).h.g = s.h.g ∧ (s.putDbgctl x).h.pc = s.h.pc := by
  have hresumed : (s.resumed x).h.g = s.h.g ∧ (s.resumed x).h.pc = s.h.pc := by
    unfold State.resumed
    split
    · exact unfreeze_own (s := s.selected x) hrun _
    · exact ⟨rfl, rfl⟩
  rw [putDbgctl_eq]
  split
  · rw [freezeCluster_h]
    exact hresumed
  · exact hresumed

end Sys2Proof.Machine
end

section
/-! PROOFS. CSR accesses: what they read, write, leave and refuse (06 R99). -/

namespace Sys2Proof.Machine

open Sys2Proof.Safety

/-! ### A write of PREQ -/

/-- Posting a request changes of the hart that moves no more than whether one is pending. -/
theorem postPreq_h (s : State) (id : HartId) : ∃ p, (s.postPreq id).h = { s.h with preq := p } := by
  unfold State.postPreq
  split
  · exact ⟨s.h.preq, rfl⟩
  · unfold State.putHart
    split
    · next hid =>
      have hown : id = s.h.id := (State.hart_id s id).symm.trans hid
      exact ⟨true, by rw [State.hart, if_pos hown]⟩
    · exact ⟨s.h.preq, rfl⟩

theorem postPreq_mem (s : State) (id : HartId) : (s.postPreq id).mem = s.mem := by
  unfold State.postPreq
  split
  · rfl
  · rw [State.putHart_frame]

/-- A request is pending in a hart when it was before, or the slot is not FREE. -/
theorem postPreq_preq (s : State) (id : HartId) : ((s.postPreq id).hart id).preq = ((s.hart id).preq || !s.slotFree id) := by
  unfold State.postPreq
  cases hfree : s.slotFree id with
  | true => simp
  | false =>
    cases hpending : (s.hart id).preq with
    | true => simp [hpending]
    | false =>
      have hput := State.hart_putHart (x := { s.hart id with preq := true }) ((slotFree_eq_false_iff s id).mp hfree) s id
      rw [if_pos (State.hart_id s id).symm] at hput
      simp [hput]

/-! ### The access -/

/-- Every write keeps the g registers and the PC of the hart that moves, which runs. -/
theorem csrPut_own_regs {s : State} (hrun : s.h.slot = .run) (n : Nat) (x : Word) :
    (s.csrPut n x).h.g = s.h.g ∧ (s.csrPut n x).h.pc = s.h.pc := by
  by_cases hpreq : n = 0x40D
  · subst hpreq
    obtain ⟨p, hp⟩ := postPreq_h s (BitVec.ofNat 12 (fld x 0 12))
    change (s.postPreq _).h.g = _ ∧ (s.postPreq _).h.pc = _
    rw [hp]
    exact ⟨rfl, rfl⟩
  by_cases hdbg : n = 0x411
  · subst hdbg
    exact putDbgctl_own hrun x
  exact ⟨(csrPut_frame s hpreq hdbg x).g, (csrPut_frame s hpreq hdbg x).pc⟩

theorem csrPlain_iff (c : BitVec 11) : csrPlain c = true ↔ c.toNat ∉ csrSpecial := by simp [csrPlain]

/-- What a write of a CSR without behaviour of its own leaves. -/
theorem csrPut_plain_frame (s : State) {n : Nat} (hplain : n ∉ csrSpecial) (x : Word) : CsrFrame s (s.csrPut n x) :=
  csrPut_frame s (fun h => hplain (by simp [h, csrSpecial])) (fun h => hplain (by simp [h, csrSpecial])) x

/-- A write with an admitted value completes: the value is put, the old one goes to gd, and the PC moves on. -/
theorem exec_write {s : State} {i : Instr} {d : BitVec 5} {c : BitVec 11} {f : Word → Word} (hw : csrWriter s i = some (d, c, f))
    (hassigned : csrAssigned c.toNat = true) (hclass : c.toNat / 0x200 ≠ 1) (hreach : LevelReaches s.h.lvl c)
    (hvalue : ¬CsrRefuses s c (f (s.csrGet c.toNat))) :
    exec i s = .next ((s.csrPut c.toNat (f (s.csrGet c.toNat))).setGAdv d (s.csrGet c.toNat) 4) := by
  rw [exec_csrWriter hw]
  exact csrAccess_write hassigned hreach hclass (Bool.eq_false_iff.mpr (mt (csrRefuses_iff s c _).mpr hvalue))

/-- Writing gd and moving the PC changes no CSR. -/
theorem csrGet_setGAdv (s : State) (d : BitVec 5) (x : Word) (n m : Nat) : (s.setGAdv d x n).csrGet m = s.csrGet m := rfl

/-- Settles O9: the checks in their order, what the CSRs read, and what a write puts and leaves. -/
theorem csrAccess : Obligations.CsrAccess := by
  unfold Obligations.CsrAccess
  refine ⟨?reads, ?listed, ?writes, ?traps⟩
  case reads =>
    intro s d c v hv hreach
    have hread : s.csrAccess d c none = .next (s.setGAdv d v 4) := by
      rw [csrAccess_read (csrsOf_assigned hv) hreach, csrsOf_read s _ hv]
    exact ⟨hread, hread, hread⟩
  case listed =>
    intro s c hassigned
    have hmem := mem_csrNumbers hassigned
    rw [← csrsOf_numbers s] at hmem
    obtain ⟨p, hp, rfl⟩ := List.mem_map.mp hmem
    exact ⟨p.2, hp⟩
  case writes =>
    intro s i d c f hcanon hrun hw hassigned hclass hreach hvalue
    obtain ⟨_, _, hwf, _⟩ := hcanon
    obtain ⟨hg, hpc⟩ := csrPut_own_regs hrun c.toNat (f (s.csrGet c.toNat))
    refine ⟨_, exec_write hw hassigned hclass hreach hvalue, putsG_setGAdv hg d _ 4, ?_, fun hplain => ?_⟩
    · rw [State.setGAdv_pc, hpc]
      rfl
    · have hspecial := (csrPlain_iff c).mp hplain
      obtain ⟨hself, hother⟩ := csrPut_plain hwf hassigned hclass hspecial (f (s.csrGet c.toNat))
      have hframe := csrPut_plain_frame s hspecial (f (s.csrGet c.toNat))
      simp only [csrGet_setGAdv]
      exact ⟨hself, fun c' hc' => hother _ (mt BitVec.eq_of_toNat_eq hc'), fun a => congrArg (Memory.byte · a) hframe.mem, hframe.others,
        hframe.v, hframe.k, hframe.pl, hframe.e, hframe.lvl⟩
  case traps =>
    intro s i d c f hw
    rw [exec_csrWriter hw]
    refine ⟨fun h => ⟨csrAccess_unassigned h, csrAccess_unassigned h⟩, fun hassigned =>
      ⟨fun h => ⟨csrAccess_privileged hassigned h, csrAccess_privileged hassigned h⟩, fun hreach => ⟨fun h => ?_, fun h hvalue => ?_⟩⟩⟩
    · exact csrAccess_readOnly hassigned hreach ((readOnly_iff c).mpr h)
    · exact csrAccess_refused hassigned hreach (mt (readOnly_iff c).mp h) ((csrRefuses_iff s c _).mp hvalue)

end Sys2Proof.Machine
end

section
/-! PROOFS. The writes of CSRs with behaviour of their own (06 R101, 15 R288, 16 R304, R308, 18 R342, 20 R367, 22 R387 to R391). -/

namespace Sys2Proof.Machine

open Sys2Proof.Safety

/-! ### Fields of the values written -/

theorem setFld_toNat (x : Word) (lo len v : Nat) :
    (setFld x lo len v).toNat = (x.toNat - x.toNat / 2 ^ lo % 2 ^ len * 2 ^ lo + v % 2 ^ len * 2 ^ lo) % 2 ^ 64 := by
  rw [setFld, BitVec.toNat_ofNat, bits, Nat.shiftRight_eq_div_pow, Nat.shiftLeft_eq, Nat.shiftLeft_eq]

/-- Two words agree in a field when the field has the same value. -/
theorem extractLsb'_eq_of_div_mod {x y : Word} {lo len : Nat} (h : x.toNat / 2 ^ lo % 2 ^ len = y.toNat / 2 ^ lo % 2 ^ len) :
    x.extractLsb' lo len = y.extractLsb' lo len := by
  apply BitVec.eq_of_toNat_eq
  simpa only [BitVec.extractLsb'_toNat, Nat.shiftRight_eq_div_pow] using h

/-- The fields of TRCTL below the position, without FULL, are those of the value written. -/
theorem trctl_fields (x : Word) :
    (setFld (setFld x 30 1 0) 44 20 0).extractLsb' 0 30 = x.extractLsb' 0 30 ∧
      (setFld (setFld x 30 1 0) 44 20 0).extractLsb' 31 13 = x.extractLsb' 31 13 := by
  have hx := x.isLt
  constructor
  all_goals
    apply extractLsb'_eq_of_div_mod
    rw [setFld_toNat, setFld_toNat]
    omega

/-- SIZE of DUMPCTL takes the value. -/
theorem dumpctl_size (y x : Word) : (setFld y 0 40 (fld x 0 40)).extractLsb' 0 40 = x.extractLsb' 0 40 := by
  have hy := y.isLt
  apply extractLsb'_eq_of_div_mod
  rw [setFld_toNat, fld, bits, Nat.shiftRight_eq_div_pow]
  omega

/-- BUSY of DUMPCTL stays when SIZE is written. -/
theorem dumpctl_busy (y x : Word) : (setFld y 0 40 (fld x 0 40)).getLsbD 63 = y.getLsbD 63 := by
  have hy := y.isLt
  rw [Bool.eq_iff_iff, getLsbD_iff_fld, getLsbD_iff_fld]
  simp only [fld, bits, Nat.shiftRight_eq_div_pow, setFld_toNat]
  omega

theorem dumpctl_go (x : Word) : (BitVec.ofNat 64 (2 ^ 63 + fld x 0 40)).extractLsb' 0 40 = x.extractLsb' 0 40 ∧
    (BitVec.ofNat 64 (2 ^ 63 + fld x 0 40)).getLsbD 63 = true := by
  constructor
  · apply extractLsb'_eq_of_div_mod
    rw [BitVec.toNat_ofNat, fld, bits, Nat.shiftRight_eq_div_pow]
    omega
  · rw [getLsbD_iff_fld]
    simp only [fld, bits, Nat.shiftRight_eq_div_pow, BitVec.toNat_ofNat]
    omega

/-- The hart that a value of PREQ names, and the cluster that one of DBGCTL selects. -/
theorem ofNat_fld (x : Word) (lo len : Nat) : BitVec.ofNat len (fld x lo len) = x.extractLsb' lo len := by
  rw [fld_eq, BitVec.ofNat_toNat, BitVec.setWidth_eq]

theorem ofNat_fld_zero (x : Word) (len : Nat) : BitVec.ofNat len (fld x 0 len) = x.setWidth len := by
  apply BitVec.eq_of_toNat_eq
  simp [fld, bits]

theorem ofNat_fld_setWidth (x : Word) (len n : Nat) : BitVec.ofNat n (fld x 0 len) = (x.extractLsb' 0 len).setWidth n := by
  apply BitVec.eq_of_toNat_eq
  rw [fld_eq, BitVec.toNat_ofNat, BitVec.toNat_setWidth]

/-! ### What the writes leave -/

/-- The write of a CSR with behaviour of its own leaves memory, the registers that instructions work on, the PC, the level and FST. -/
structure WriteFrame (s u : State) : Prop where
  mem : u.mem = s.mem
  pc : u.h.pc = s.h.pc
  g : u.h.g = s.h.g
  v : u.h.v = s.h.v
  k : u.h.k = s.h.k
  lvl : u.h.lvl = s.h.lvl
  fst : u.h.fst = s.h.fst

/-- Where the hart that moves and memory stay. -/
theorem WriteFrame.of_h {s u : State} (mem : u.mem = s.mem) (h : u.h = s.h) : WriteFrame s u where
  mem := mem
  pc := by rw [h]
  g := by rw [h]
  v := by rw [h]
  k := by rw [h]
  lvl := by rw [h]
  fst := by rw [h]

/-- What stays once the old value is in gd. -/
theorem WriteFrame.keeps {s u : State} (h : WriteFrame s u) (d : BitVec 5) (x : Word) :
    PutsG s (u.setGAdv d x 4) d x ∧ (u.setGAdv d x 4).h.pc = s.h.pc + 4 ∧ SameMem s (u.setGAdv d x 4) ∧ (u.setGAdv d x 4).h.v = s.h.v ∧
      (u.setGAdv d x 4).h.k = s.h.k ∧ (u.setGAdv d x 4).h.lvl = s.h.lvl ∧ (u.setGAdv d x 4).h.fst = s.h.fst := by
  refine ⟨putsG_setGAdv h.g d x 4, ?_, fun a => congrArg (Memory.byte · a) h.mem, h.v, h.k, h.lvl, h.fst⟩
  rw [State.setGAdv_pc, h.pc]
  rfl

/-- A hart's pending request is not changed by a write of gd. -/
theorem preq_setGAdv (s : State) (d : BitVec 5) (x : Word) (n : Nat) (id : HartId) :
    ((s.setGAdv d x n).hart id).preq = (s.hart id).preq := by
  unfold State.hart
  by_cases h : id = s.h.id
  · rw [if_pos h, if_pos (show id = (s.setGAdv d x n).h.id from h)]
    rfl
  · rw [if_neg h, if_neg (show ¬id = (s.setGAdv d x n).h.id from h)]
    rfl

theorem postPreq_frame (s : State) (id : HartId) : WriteFrame s (s.postPreq id) := by
  obtain ⟨p, hp⟩ := postPreq_h s id
  exact ⟨postPreq_mem s id, by rw [hp], by rw [hp], by rw [hp], by rw [hp], by rw [hp], by rw [hp]⟩

/-! ### DBGCTL, when nothing is delivered -/

theorem selected_cluster {s : State} (hwf : SMap.wf Cluster.reset s.clusters = true) (x : Word) :
    (s.selected x).cluster (BitVec.ofNat 6 (fld x 6 6)) =
      { s.cluster (BitVec.ofNat 6 (fld x 6 6)) with stopen := x.getLsbD 4 } :=
  (State.cluster_setCluster hwf _ _ _).trans (if_pos rfl)

/-- GO to a cluster with an empty skid buffer ungates it when it is frozen, and changes nothing more of the hart that moves. -/
theorem unfreeze_empty {s : State} {cl : BitVec 6} (hrun : s.h.slot = .run) (hskid : (s.cluster cl).skid = []) :
    ∃ os, s.unfreeze cl = { (if (s.cluster cl).freeze = .frozen then s.ungated cl else s) with others := os } := by
  by_cases hfrozen : (s.cluster cl).freeze = .frozen
  · obtain ⟨os, h⟩ := unfreeze_frozen hrun hfrozen
    rw [hskid] at h
    exact ⟨os, by rw [h, if_pos hfrozen]; rfl⟩
  · rw [unfreeze_of_not_frozen hfrozen, if_neg hfrozen]
    exact ⟨s.others, rfl⟩

/-- After SEL, STOPEN and GO, when GO delivers nothing: the clusters are well-formed, and which the selected one is. -/
theorem resumed_of_empty {s : State} (hrun : s.h.slot = .run) (hwf : SMap.wf Cluster.reset s.clusters = true) {x : Word}
    (hnone : (s.cluster (BitVec.ofNat 6 (fld x 6 6))).skid = [] ∨ x.getLsbD 1 = false) :
    (s.resumed x).mem = s.mem ∧ (s.resumed x).h = s.h ∧ (s.resumed x).dbgsel = BitVec.ofNat 6 (fld x 6 6) ∧
      SMap.wf Cluster.reset (s.resumed x).clusters = true ∧
      ((s.resumed x).cluster (BitVec.ofNat 6 (fld x 6 6))).stopen = x.getLsbD 4 ∧
      ((s.resumed x).cluster (BitVec.ofNat 6 (fld x 6 6))).freeze =
        if x.getLsbD 1 = true ∧ (s.cluster (BitVec.ofNat 6 (fld x 6 6))).freeze = .frozen then .running
        else (s.cluster (BitVec.ofNat 6 (fld x 6 6))).freeze := by
  have hsel := selected_cluster hwf x
  have hwf' : SMap.wf Cluster.reset (s.selected x).clusters = true := SMap.wf_set _ _ hwf
  unfold State.resumed
  cases hgo : x.getLsbD 1 with
  | false => exact ⟨rfl, rfl, rfl, hwf', by rw [if_neg (by simp), hsel], by rw [if_neg (by simp), hsel, if_neg (by simp)]⟩
  | true =>
    obtain ⟨os, hos⟩ := unfreeze_empty (s := s.selected x) (cl := BitVec.ofNat 6 (fld x 6 6)) hrun
      (by rw [hsel]; exact hnone.resolve_right (by simp [hgo]))
    have hothers (u : State) : State.cluster { u with others := os } = u.cluster := rfl
    rw [if_pos rfl, hos, hothers]
    simp only [true_and]
    have hfreeze : ((s.selected x).cluster (BitVec.ofNat 6 (fld x 6 6))).freeze = (s.cluster (BitVec.ofNat 6 (fld x 6 6))).freeze := by rw [hsel]
    rw [← hfreeze]
    split
    · have hgate := ungated_gate hwf' (BitVec.ofNat 6 (fld x 6 6))
      exact ⟨rfl, rfl, rfl, SMap.wf_set _ _ hwf', by rw [hgate, hsel], by rw [hgate]⟩
    · exact ⟨rfl, rfl, rfl, hwf', by rw [hsel], rfl⟩

/-- STOP to a running cluster begins to freeze it; to another it does nothing. -/
theorem freezeCluster_cluster {s : State} (hwf : SMap.wf Cluster.reset s.clusters = true) (cl : BitVec 6) (code : Nat) (hart : Option HartId)
    (waddr : Word) : (s.freezeCluster cl code hart waddr).cluster cl = if (s.cluster cl).freeze = .running then
      { s.cluster cl with freeze := .stopping, cause := ⟨code, hart, waddr, s.clk⟩ } else s.cluster cl := by
  unfold State.freezeCluster
  dsimp only
  split
  · exact (State.cluster_setCluster hwf _ _ _).trans (if_pos rfl)
  · rfl

theorem freezeCluster_dbgsel (s : State) (cl : BitVec 6) (code : Nat) (hart : Option HartId) (waddr : Word) :
    (s.freezeCluster cl code hart waddr).dbgsel = s.dbgsel := by
  unfold State.freezeCluster
  dsimp only
  split <;> rfl

theorem freezeCluster_mem (s : State) (cl : BitVec 6) (code : Nat) (hart : Option HartId) (waddr : Word) :
    (s.freezeCluster cl code hart waddr).mem = s.mem := by
  unfold State.freezeCluster
  dsimp only
  split <;> rfl

/-- A write of DBGCTL that delivers nothing: what it leaves, and the cluster selected. -/
theorem putDbgctl_of_empty {s : State} (hrun : s.h.slot = .run) (hwf : SMap.wf Cluster.reset s.clusters = true) {x : Word} {sel : BitVec 6}
    (hsel : BitVec.ofNat 6 (fld x 6 6) = sel) (hnone : (s.cluster sel).skid = [] ∨ x.getLsbD 1 = false) :
    WriteFrame s (s.putDbgctl x) ∧ (s.putDbgctl x).dbgsel = sel ∧ ((s.putDbgctl x).cluster sel).stopen = x.getLsbD 4 ∧
      (x.getLsbD 0 = true → (s.cluster sel).freeze = .running →
        ((s.putDbgctl x).cluster sel).freeze = .stopping ∧ ((s.putDbgctl x).cluster sel).cause.code = 3) ∧
      (x.getLsbD 0 = false → ((s.putDbgctl x).cluster sel).freeze =
        if x.getLsbD 1 = true ∧ (s.cluster sel).freeze = .frozen then .running else (s.cluster sel).freeze) := by
  subst hsel
  obtain ⟨hmem, hh, hdbgsel, hwf', hstopen, hfreeze⟩ := resumed_of_empty hrun hwf hnone
  rw [putDbgctl_eq]
  cases hstop : x.getLsbD 0 with
  | false =>
    rw [if_neg (by simp)]
    exact ⟨.of_h hmem hh, hdbgsel, hstopen, fun h => absurd h (by simp), fun _ => hfreeze⟩
  | true =>
    rw [if_pos rfl, freezeCluster_dbgsel, freezeCluster_cluster hwf']
    refine ⟨.of_h ((freezeCluster_mem _ _ _ _ _).trans hmem) ((freezeCluster_h _ _ _ _ _).trans hh), hdbgsel, ?_, fun _ hrunning => ?_,
      fun h => absurd h (by simp)⟩
    · split <;> exact hstopen
    · rw [if_pos (hfreeze.trans (by rw [hrunning, if_neg (by simp)]))]
      exact ⟨rfl, rfl⟩

/-- A write of DBGCTL with GO and without STOP that resumes a frozen cluster. -/
theorem putDbgctl_go {s : State} (hrun : s.h.slot = .run) (hwf : SMap.wf Cluster.reset s.clusters = true) {x : Word} {sel : BitVec 6}
    (hsel : BitVec.ofNat 6 (fld x 6 6) = sel) (hstop : x.getLsbD 0 = false) (hgo : x.getLsbD 1 = true) (hfrozen : (s.cluster sel).freeze = .frozen) :
    ((s.putDbgctl x).cluster sel).freeze = .running ∧ ((s.putDbgctl x).cluster sel).skid = [] := by
  subst hsel
  have hselected := selected_cluster hwf x
  rw [putDbgctl_eq, State.resumed, hstop, hgo, if_neg (by simp), if_pos rfl]
  exact unfreeze_gate (s := s.selected x) hrun (SMap.wf_set _ _ hwf) (by rw [hselected]; exact hfrozen)

/-! ### DUMPCTL -/

/-- What a write of DUMPCTL starts: with GO a dump of the selected cluster, otherwise none (R390). -/
theorem putDumpctl_fields (s : State) (x : Word) : (s.putDumpctl x).dumpctl.extractLsb' 0 40 = x.extractLsb' 0 40 ∧
    (x.getLsbD 60 = false → (s.putDumpctl x).dump = s.dump ∧ (s.putDumpctl x).dumpctl.getLsbD 63 = s.dumpctl.getLsbD 63) ∧
    (x.getLsbD 60 = true → (s.putDumpctl x).dumpctl.getLsbD 63 = true ∧ (s.putDumpctl x).dump =
      some ⟨s.dbgsel, s.h.id, s.h.lvl, s.h.ptbr, s.dumpa, fld x 0 40, (s.cluster s.dbgsel).cause.at_, s.dumpRecords s.dbgsel⟩) := by
  unfold State.putDumpctl
  cases hgo : x.getLsbD 60 with
  | false =>
    rw [if_neg (by simp)]
    exact ⟨dumpctl_size s.dumpctl x, fun _ => ⟨rfl, dumpctl_busy s.dumpctl x⟩, fun h => absurd h (by simp)⟩
  | true =>
    rw [if_pos rfl]
    exact ⟨(dumpctl_go x).1, fun h => absurd h (by simp), fun _ => ⟨(dumpctl_go x).2, rfl⟩⟩

theorem putDumpctl_frame (s : State) (x : Word) : WriteFrame s (s.putDumpctl x) := by
  unfold State.putDumpctl
  split <;> exact .of_h rfl rfl

/-- Settles O10: the write of each CSR with behaviour of its own, by what the model puts for it. -/
theorem csrWriteSteps : Obligations.CsrWriteSteps := by
  unfold Obligations.CsrWriteSteps
  intro s i d c f hcanon hrun hw hreach hvalue
  obtain ⟨_, hcores, hclusters, _⟩ := hcanon
  have hstep := exec_write hw (hreach := hreach) (hvalue := hvalue)
  generalize f (s.csrGet c.toNat) = x at hstep
  dsimp only
  refine ⟨?vtype, ?lpart, ?preq, ?cplog, ?trctl, ?atoll, ?dbgctl, ?dumpctl⟩
  case vtype =>
    rintro rfl
    exact ⟨_, hstep rfl (by decide), WriteFrame.keeps (u := s.csrPut 0x000 x) ⟨rfl, rfl, rfl, rfl, rfl, rfl, rfl⟩ d _, rfl,
      by rw [← fld_eq, ← fld_eq]; rfl⟩
  case lpart =>
    rintro rfl
    exact ⟨_, hstep rfl (by decide), WriteFrame.keeps (u := s.csrPut 0x409 x) (.of_h rfl rfl) d _,
      (State.core_setCore hcores _ _ _).trans (if_pos rfl)⟩
  case preq =>
    rintro rfl
    refine ⟨_, hstep rfl (by decide), WriteFrame.keeps (postPreq_frame s _) d _, ?_⟩
    rw [preq_setGAdv, ← ofNat_fld_zero]
    exact postPreq_preq s _
  case cplog =>
    rintro rfl
    refine ⟨_, hstep rfl (by decide), WriteFrame.keeps (u := s.csrPut 0x40B x) (.of_h rfl rfl) d _, ?_⟩
    rw [← ofNat_fld_setWidth]
    exact congrArg Island.cplog ((State.island_setIsland s _ _ _).trans (if_pos rfl))
  case trctl =>
    rintro rfl
    refine ⟨_, hstep rfl (by decide), WriteFrame.keeps (u := s.csrPut 0x602 x) (.of_h rfl rfl) d _, ?_⟩
    have hisland := (State.island_setIsland s s.myIsland s.myIsland
      { s.island s.myIsland with trctl := setFld (setFld x 30 1 0) 44 20 0, trpos := 0 }).trans (if_pos rfl)
    have htrctl := congrArg Island.trctl hisland
    exact ⟨congrArg Island.trpos hisland, (congrArg (·.extractLsb' 0 30) htrctl).trans (trctl_fields x).1,
      (congrArg (·.extractLsb' 31 13) htrctl).trans (trctl_fields x).2⟩
  case atoll =>
    rintro rfl
    exact ⟨_, hstep rfl (by decide), WriteFrame.keeps (u := s.csrPut 0x601 x) (.of_h rfl rfl) d _,
      congrArg Island.atoll ((State.island_setIsland s _ _ _).trans (if_pos rfl))⟩
  case dbgctl =>
    rintro rfl -
    refine ⟨fun hnone => ?_, fun hstop hgo hfrozen => ?_⟩
    · obtain ⟨hframe, hfields⟩ := putDbgctl_of_empty hrun hclusters (ofNat_fld x 6 6) hnone
      exact ⟨_, hstep rfl (by decide), hframe.keeps d _, hfields⟩
    · obtain ⟨hg, hpc⟩ := putDbgctl_own hrun x
      refine ⟨_, hstep rfl (by decide), putsG_setGAdv hg d _ 4, ?_, putDbgctl_go hrun hclusters (ofNat_fld x 6 6) hstop hgo hfrozen⟩
      exact (State.setGAdv_pc _ d _ 4).trans (congrArg (· + BitVec.ofNat 64 4) hpc)
  case dumpctl =>
    rintro rfl
    obtain ⟨hsize, hnone, hstarts⟩ := putDumpctl_fields s x
    refine ⟨_, hstep rfl (by decide), (putDumpctl_frame s x).keeps d _, hsize, hnone, fun hgo => ?_⟩
    obtain ⟨hbusy, hdump⟩ := hstarts hgo
    exact ⟨hbusy, _, hdump, rfl, rfl, rfl, rfl, rfl, fld_eq x 0 40, rfl, rfl⟩

end Sys2Proof.Machine
end

section
/-! PROOFS. Rounding by exact integers (01 R31, 07 R113): the magnitude that is shifted and rounded is the quotient of exact integers rounded
under the mode, to an integer and to a floating-point format. -/

namespace Sys2Proof.Machine

open Sys2Proof.Safety

/-! ### Quotients and fractions -/

@[simp] theorem signed_natAbs (neg : Bool) (m : Nat) : (signed neg m).natAbs = m := by
  cases neg <;> simp [signed]

theorem signed_mul (neg : Bool) (m c : Nat) : signed neg m * c = signed neg (m * c) := by
  cases neg <;> simp [signed]

/-- A quotient of a multiple rounds to itself. -/
theorem rndDiv_one (r : RM) (x : Int) : rndDiv r x 1 = x := by simp [rndDiv]

/-- Rounding depends on the quotient alone. -/
theorem rndDiv_mul_right (r : RM) (x : Int) (d : Nat) {c : Nat} (hc : 0 < c) : rndDiv r (x * c) (d * c) = rndDiv r x d := by
  have hlo : x * c / ((d * c : Nat) : Int) = x / (d : Int) := by
    rw [Nat.cast_mul]
    exact Int.mul_ediv_mul_of_pos_left _ _ (by exact_mod_cast hc)
  have hrest : x * c - x / (d : Int) * ((d * c : Nat) : Int) = (x - x / (d : Int) * d) * c := by push_cast; ring
  have hc' : (0 : Int) < c := by exact_mod_cast hc
  unfold rndDiv
  dsimp only
  rw [hlo, hrest]
  generalize x - x / (d : Int) * d = rest
  have hz : rest * c = 0 ↔ rest = 0 := by simp [hc.ne']
  have hlt : 2 * (rest * c) < ((d * c : Nat) : Int) ↔ 2 * rest < d := by
    rw [Nat.cast_mul, ← mul_assoc]
    exact ⟨fun h => lt_of_mul_lt_mul_right h hc'.le, fun h => mul_lt_mul_of_pos_right h hc'⟩
  have heq : 2 * (rest * c) = ((d * c : Nat) : Int) ↔ 2 * rest = d := by
    rw [Nat.cast_mul, ← mul_assoc]
    exact mul_left_inj' hc'.ne'
  have hsign : 0 ≤ x * c ↔ 0 ≤ x := ⟨fun h => nonneg_of_mul_nonneg_left h hc', fun h => Int.mul_nonneg h hc'.le⟩
  simp only [hz, hlt, heq, hsign]

/-- An integer of a sign and a magnitude divided by a power of two: quotient and rest by those of the magnitude. -/
theorem signed_ediv {m D q t : Nat} (neg : Bool) (hm : m = D * q + t) (ht : t < D) :
    signed neg m / (D : Int) = if neg = true then (if t = 0 then -(q : Int) else -(q + 1)) else (q : Int) := by
  have hD : (0 : Int) < D := by omega
  cases neg with
  | false =>
    simp only [signed, Bool.false_eq_true, if_false]
    refine ((Int.ediv_emod_unique (r := (t : Int)) hD).mpr ⟨?_, by omega, by omega⟩).1
    subst hm; push_cast; ring
  | true =>
    simp only [signed, if_true]
    split
    · next h =>
      refine ((Int.ediv_emod_unique (r := 0) hD).mpr ⟨?_, le_rfl, hD⟩).1
      subst hm h; push_cast; ring
    · next h =>
      refine ((Int.ediv_emod_unique (r := (D : Int) - t) hD).mpr ⟨?_, by omega, by omega⟩).1
      subst hm; push_cast; ring

/-- Whether a magnitude lies above, at or below half a step of 2^d. -/
theorem half_step (d t : Nat) (ht : t < 2 ^ d) :
    (if d = 0 then false else decide (2 ^ d / 2 < t) || (t == 2 ^ d / 2 && false)) = decide (2 ^ d < 2 * t) ∧
    (if d = 0 then false else t == 2 ^ d / 2 && !false) = decide (2 ^ d = 2 * t) := by
  cases d with
  | zero => simp at ht; simp [ht]
  | succ d =>
    have h2 : 2 ^ (d + 1) = 2 * 2 ^ d := by rw [pow_succ, Nat.mul_comm]
    have hhalf : 2 ^ (d + 1) / 2 = 2 ^ d := by omega
    rw [hhalf, h2]
    refine ⟨?_, ?_⟩
    · simp
    · simp [Bool.beq_eq_decide_eq, eq_comm]

/-- Rounding a magnitude by a shift rounds the quotient of the integer by the power of two. -/
theorem rndDiv_signed (r : RM) (neg : Bool) (m d : Nat) :
    rndDiv r (signed neg m) (2 ^ d) = signed neg (roundShift r neg m false d).1 := by
  have ht : m % 2 ^ d < 2 ^ d := Nat.mod_lt _ (Nat.two_pow_pos d)
  have hm : m = 2 ^ d * (m / 2 ^ d) + m % 2 ^ d := (Nat.div_add_mod m (2 ^ d)).symm
  obtain ⟨hgt, htie⟩ := half_step d _ ht
  unfold roundShift rndDiv
  dsimp only
  rw [hgt, htie, signed_ediv neg hm ht, Nat.shiftRight_eq_div_pow, Bool.or_false]
  generalize m / 2 ^ d = q at *
  generalize m % 2 ^ d = t at *
  generalize 2 ^ d = D at *
  subst hm
  by_cases h0 : t = 0
  · subst h0
    have hrest : signed neg (D * q + 0) - (if neg = true then if (0 : Nat) = 0 then -(q : Int) else -((q : Int) + 1) else (q : Int)) * D = 0 := by
      cases neg <;> simp [signed] <;> ring
    have hD : D ≠ 0 := by omega
    rw [hrest, if_pos rfl]
    cases r <;> cases neg <;> simp [signed, RM.away, hD]
  · have hsign : 0 ≤ signed neg (D * q + t) ↔ neg = false := by
      cases neg
      · simp [signed]; positivity
      · simp only [signed, if_true]
        have : 0 ≤ (D : Int) * q := by positivity
        push_cast
        simp
        omega
    have hrest : signed neg (D * q + t) - (if neg = true then if t = 0 then -(q : Int) else -((q : Int) + 1) else (q : Int)) * D =
        if neg = true then (D : Int) - t else t := by
      cases neg <;> simp [signed, h0] <;> ring
    have hD : (D : Int) - t ≠ 0 := by omega
    rw [hrest]
    simp only [hsign, if_neg h0]
    clear hgt htie hrest hsign
    cases neg with
    | false => cases r <;> simp [signed, RM.away, h0] <;> split_ifs <;> omega
    | true => cases r <;> simp [signed, RM.away, h0, hD] <;> split_ifs <;> omega

/-- Whether a magnitude shifted loses bits. -/
theorem roundShift_inexact (r : RM) (neg : Bool) (m d : Nat) :
    (roundShift r neg m false d).2 = decide (signed neg m % ((2 ^ d : Nat) : Int) ≠ 0) := by
  have hdvd : signed neg m % ((2 ^ d : Nat) : Int) = 0 ↔ m % 2 ^ d = 0 := by
    rw [← Int.dvd_iff_emod_eq_zero, ← Nat.dvd_iff_mod_eq_zero, ← Int.natCast_dvd_natCast]
    cases neg <;> simp [signed]
  unfold roundShift
  simp only [Bool.or_false, ne_eq, hdvd]
  rw [Bool.eq_iff_iff]
  simp

/-- An exact magnitude times 2^(e - q) rounds to an integer as its exact fraction in units of 2^q does. -/
theorem roundInt_eq (r : RM) (neg : Bool) (m : Nat) (e q : Int) :
    roundInt r neg m (e - q) false =
      (rndDiv r (inUnits (signed neg m) e q).1 (inUnits (signed neg m) e q).2,
        decide ((inUnits (signed neg m) e q).1 % ((inUnits (signed neg m) e q).2 : Int) ≠ 0)) := by
  unfold roundInt inUnits
  dsimp only
  by_cases h : 0 ≤ e - q
  · have hz : (q - e).toNat = 0 := by omega
    rw [if_pos h, hz, signed_mul, pow_zero, rndDiv_one, Nat.shiftLeft_eq]
    simp [signed]
  · have hz : (e - q).toNat = 0 := by omega
    have hd : (-(e - q)).toNat = (q - e).toNat := by omega
    rw [if_neg h, hz, hd, pow_zero, Nat.cast_one, mul_one, rndDiv_signed, ← roundShift_inexact r]
    rfl

/-! ### Rounding to a format -/

/-- A magnitude times 2^e on the grid of the multiples of 2^q, and whether that is inexact. -/
def gridMag (r : RM) (neg : Bool) (m : Nat) (e q : Int) : Nat × Bool :=
  if q ≤ e then (m <<< (e - q).toNat, false) else roundShift r neg m false (q - e).toNat

theorem roundInt_gridMag (r : RM) (neg : Bool) (m : Nat) (e q : Int) :
    roundInt r neg m (e - q) false = (signed neg (gridMag r neg m e q).1, (gridMag r neg m e q).2) := by
  unfold roundInt gridMag
  have hd : -(e - q) = q - e := by ring
  by_cases h : q ≤ e
  · rw [if_pos h, if_pos (by omega)]; rfl
  · rw [if_neg h, if_neg (by omega), hd]; rfl

/-- Bits put below a number leave what it is in other units. -/
theorem inUnits_scale (t e q : Int) (k : Nat) : ∃ c, 0 < c ∧
    inUnits (t * (2 ^ k : Nat)) (e - k) q = ((inUnits t e q).1 * (c : Nat), (inUnits t e q).2 * c) := by
  unfold inUnits
  refine ⟨2 ^ ((q - (e - k)).toNat - (q - e).toNat), Nat.two_pow_pos _, ?_⟩
  dsimp only
  rw [mul_assoc, mul_assoc, ← Nat.cast_mul, ← Nat.cast_mul, ← pow_add, ← pow_add, ← pow_add]
  congr 4 <;> omega

/-- The grid of a magnitude with bits put below it is that of the exact fraction. -/
theorem gridMag_eq (r : RM) (neg : Bool) (m : Nat) (e q : Int) (k : Nat) :
    gridMag r neg (m * 2 ^ k) (e - k) q =
      ((rndDiv r (inUnits (signed neg m) e q).1 (inUnits (signed neg m) e q).2).natAbs,
        decide ((inUnits (signed neg m) e q).1 % ((inUnits (signed neg m) e q).2 : Int) ≠ 0)) := by
  have h := (roundInt_gridMag r neg (m * 2 ^ k) (e - k) q).symm.trans (roundInt_eq r neg _ _ q)
  obtain ⟨c, hc, hu⟩ := inUnits_scale (signed neg m) e q k
  rw [← signed_mul, hu] at h
  obtain ⟨hmag, hexact⟩ := Prod.mk.inj h
  dsimp only at hmag hexact
  rw [rndDiv_mul_right r _ _ hc] at hmag
  rw [Nat.cast_mul, mul_comm _ (c : Int), mul_comm _ (c : Int), Int.mul_emod_mul_of_pos _ _ (by exact_mod_cast hc)] at hexact
  have hz : ∀ x : Int, c * x = 0 ↔ x = 0 := fun x => by simp [hc.ne']
  simp only [ne_eq, hz] at hexact
  rw [← hmag, signed_natAbs]
  exact Prod.ext rfl hexact

/-- A magnitude rounded by a shift is its quotient or the next number. -/
theorem roundShift_near (r : RM) (neg : Bool) (m d : Nat) :
    m / 2 ^ d ≤ (roundShift r neg m false d).1 ∧ (roundShift r neg m false d).1 ≤ m / 2 ^ d + 1 := by
  unfold roundShift
  rw [Nat.shiftRight_eq_div_pow]
  generalize m / 2 ^ d = n
  dsimp only
  generalize RM.away _ _ _ _ _ _ = up
  cases up <;> simp

/-- On a grid no finer than that of F + 1 bits a magnitude is at most 2^(F + 1). -/
theorem gridMag_le (r : RM) (neg : Bool) {m F : Nat} {e q : Int} (hq : e + Nat.log2 m - F ≤ q) :
    (gridMag r neg m e q).1 ≤ 2 ^ (F + 1) := by
  have hm : m < 2 ^ (Nat.log2 m + 1) := Nat.lt_log2_self
  unfold gridMag
  split
  · next h =>
    rw [Nat.shiftLeft_eq]
    calc m * 2 ^ (e - q).toNat ≤ 2 ^ (Nat.log2 m + 1) * 2 ^ (e - q).toNat := Nat.mul_le_mul_right _ hm.le
      _ = 2 ^ (Nat.log2 m + 1 + (e - q).toNat) := (pow_add ..).symm
      _ ≤ 2 ^ (F + 1) := Nat.pow_le_pow_right (by omega) (by omega)
  · next h =>
    refine (roundShift_near r neg m _).2.trans ?_
    have : m / 2 ^ (q - e).toNat < 2 ^ (F + 1) := by
      rw [Nat.div_lt_iff_lt_mul (Nat.two_pow_pos _), ← pow_add]
      exact hm.trans_le (Nat.pow_le_pow_right (by omega) (by omega))
    omega

/-- On a grid no coarser than that of F + 1 bits a magnitude is at least 2^F. -/
theorem le_gridMag (r : RM) (neg : Bool) {m F : Nat} {e q : Int} (hm : m ≠ 0) (hq : q ≤ e + Nat.log2 m - F) :
    2 ^ F ≤ (gridMag r neg m e q).1 := by
  have hm : 2 ^ Nat.log2 m ≤ m := Nat.log2_self_le hm
  unfold gridMag
  split
  · next h =>
    rw [Nat.shiftLeft_eq]
    calc 2 ^ F ≤ 2 ^ (Nat.log2 m + (e - q).toNat) := Nat.pow_le_pow_right (by omega) (by omega)
      _ = 2 ^ Nat.log2 m * 2 ^ (e - q).toNat := pow_add ..
      _ ≤ m * 2 ^ (e - q).toNat := Nat.mul_le_mul_right _ hm
  · next h =>
    refine le_trans ?_ (roundShift_near r neg m _).1
    rw [Nat.le_div_iff_mul_le (Nat.two_pow_pos _), ← pow_add]
    exact le_trans (Nat.pow_le_pow_right (by omega) (by omega)) hm

/-- A magnitude of n at exponent `up` above the least reaches the pattern of infinity when its value reaches 2^(bias + 1). -/
theorem reaches_infinity {F b up n : Nat} (hb : 1 ≤ b) (hle : n ≤ 2 ^ (F + 1)) (hge : 0 < up → 2 ^ F ≤ n) :
    (2 * b + 1) * 2 ^ F ≤ up * 2 ^ F + n ↔ 2 ^ (2 * b + F) ≤ n * 2 ^ up := by
  have hpos : 0 < 2 ^ F := Nat.two_pow_pos F
  rw [pow_succ] at hle
  rcases lt_or_ge up (2 * b - 1) with hlow | hhigh
  · have hl : up * 2 ^ F ≤ (2 * b - 2) * 2 ^ F := Nat.mul_le_mul_right _ (by omega)
    have hr : n * 2 ^ up ≤ 2 ^ F * 2 * 2 ^ (2 * b - 2) := Nat.mul_le_mul hle (Nat.pow_le_pow_right (by omega) (by omega))
    obtain ⟨c, hc⟩ : ∃ c, 2 * b = c + 2 := ⟨2 * b - 2, by omega⟩
    rw [hc, Nat.add_sub_cancel] at hl hr
    rw [hc]
    have hlt : 2 ^ F * 2 * 2 ^ c < 2 ^ (c + 2 + F) := by
      rw [pow_add, pow_add]
      have : 0 < 2 ^ F * 2 ^ c := by positivity
      nlinarith
    constructor
    · intro h; nlinarith
    · intro h; omega
  · have hn := hge (by omega)
    rcases Nat.lt_or_ge up (2 * b) with hup | hup
    · obtain rfl : up = 2 * b - 1 := by omega
      obtain ⟨c, hc⟩ : ∃ c, 2 * b = c + 1 := ⟨2 * b - 1, by omega⟩
      rw [hc, Nat.add_sub_cancel, show 2 ^ (c + 1 + F) = 2 * 2 ^ F * 2 ^ c by ring,
        Nat.mul_le_mul_right_iff (Nat.two_pow_pos c)]
      constructor <;> intro h <;> nlinarith
    · have hl : 2 * b * 2 ^ F ≤ up * 2 ^ F := Nat.mul_le_mul_right _ hup
      have hr : 2 ^ F * 2 ^ (2 * b) ≤ n * 2 ^ up := Nat.mul_le_mul hn (Nat.pow_le_pow_right (by omega) hup)
      rw [← pow_add, Nat.add_comm] at hr
      exact iff_of_true (by nlinarith) hr

theorem Fmt.one_le_bias (f : Fmt) : 1 ≤ f.bias := by cases f <;> decide

theorem Fmt.infBits_eq (f : Fmt) : f.infBits = (2 * f.bias + 1) * 2 ^ f.frac := by cases f <;> decide

theorem log2_mul_two_pow {m : Nat} (hm : m ≠ 0) (k : Nat) : Nat.log2 (m * 2 ^ k) = Nat.log2 m + k := by
  rw [Nat.log2_eq_log_two, Nat.log2_eq_log_two]
  induction k with
  | zero => simp
  | succ k ih => rw [pow_succ, ← mul_assoc, Nat.log_mul_base (by omega) (Nat.mul_ne_zero hm (Nat.two_pow_pos k).ne'), ih]; rfl

/-- What a magnitude below the smallest normal exponent rounds to without a least exponent lies below the smallest normal value. -/
theorem below_normal {top emin : Int} {F n : Nat} (hle : n ≤ 2 ^ (F + 1)) (hge : 2 ^ F ≤ n) :
    (decide (top < emin) && !(decide (top = emin - 1) && n == 2 ^ (F + 1))) = decide (n < 2 ^ (emin - top + F).toNat) := by
  rw [Bool.eq_iff_iff]
  rcases lt_trichotomy top (emin - 1) with h | h | h
  · have h2 : 2 ^ (F + 1) < 2 ^ (emin - top + F).toNat := Nat.pow_lt_pow_right (by omega) (by omega)
    have h3 : top < emin := by omega
    simp [h.ne, h3]
    omega
  · have h2 : (emin - top + F).toNat = F + 1 := by omega
    rw [h2]
    simp [h]
    omega
  · have h2 : 2 ^ (emin - top + F).toNat ≤ 2 ^ F := Nat.pow_le_pow_right (by omega) (by omega)
    have h3 : ¬ top < emin := by omega
    simp [h3]
    omega

/-- Rounding an exact magnitude to a format is rounding by exact integers (01 R31, 07 R113). -/
theorem Fmt.round_eq (f : Fmt) (r : RM) (neg : Bool) {m : Nat} (e : Int) (hm : m ≠ 0) :
    f.round r neg m e false = rndFloat f r (signed neg m) e := by
  have hm16 : m * 16 ≠ 0 := by omega
  have hlog : Nat.log2 (m * 16) = Nat.log2 m + 4 := log2_mul_two_pow hm 4
  have hgrid : ∀ q, gridMag r neg (m * 16) (e - 4) q = _ := fun q => gridMag_eq r neg m e q 4
  have htop : e - 4 + (Nat.log2 (m * 16) : Int) = e + Nat.log2 m := by rw [hlog]; push_cast; ring
  have hneg : signed neg m < 0 ↔ neg = true := by cases neg <;> simp [signed]; omega
  have hpos : 0 < signed neg m ↔ neg = false := by cases neg <;> simp [signed]; omega
  unfold Fmt.round rndFloat
  rw [if_neg (by simp [hm])]
  dsimp only
  rw [htop, signed_natAbs]
  have hrd : ∀ q, (if q ≤ e - 4 then ((m * 16) <<< (e - 4 - q).toNat, false) else roundShift r neg (m * 16) false (q - (e - 4)).toNat) =
      gridMag r neg (m * 16) (e - 4) q := fun q => rfl
  simp only [hrd]
  generalize hemin : 1 - (f.bias : Int) = emin
  generalize hq : max (e + (Nat.log2 m : Int) - f.frac) (emin - f.frac) = q
  have hle : (gridMag r neg (m * 16) (e - 4) q).1 ≤ 2 ^ (f.frac + 1) := gridMag_le r neg (by omega)
  have hge : 0 < (q - (emin - f.frac)).toNat → 2 ^ f.frac ≤ (gridMag r neg (m * 16) (e - 4) q).1 := fun h =>
    le_gridMag r neg hm16 (by omega)
  have hinf := reaches_infinity f.one_le_bias hle hge
  rw [← f.infBits_eq] at hinf
  have htiny := below_normal (top := e + Nat.log2 m) (emin := emin)
    (gridMag_le r neg (m := m * 16) (F := f.frac) (e := e - 4) (q := e + Nat.log2 m - f.frac) (by omega))
    (le_gridMag r neg hm16 (by omega))
  have hup : r.away neg true true false true = true ↔
      r = .rne ∨ r = .rmm ∨ (r = .rup ∧ 0 < signed neg m) ∨ (r = .rdn ∧ signed neg m < 0) := by
    rw [hneg, hpos]
    cases r <;> simp [RM.away]
  rw [htiny, if_congr hinf rfl rfl]
  simp only [hup, hneg, hgrid]
  by_cases hexact : (inUnits (signed neg m) e q).1 % ((inUnits (signed neg m) e q).2 : Int) = 0
  · simp [hexact]
  · simp [hexact]

end Sys2Proof.Machine
end

section
/-! PROOFS. The arithmetic of tile elements by exact integers (07 R123, R125, 10 R191). -/

namespace Sys2Proof.Machine

open Sys2Proof.Safety

/-! ### The exact product -/

theorem tileMul_nan {x y : FVal} (h : (x.isNaN || y.isNaN) = true) : tileMul x y = (.nan false, x.isS || y.isS) := by
  cases x <;> cases y <;> simp_all [tileMul, FVal.isNaN, FVal.isS]

theorem tileMul_inf_fin (a b : Bool) (n : Nat) (d : Int) :
    tileMul (.inf a) (.fin b n d) = (if n = 0 then .nan false else .inf (a ^^ b), decide (n = 0)) ∧
      tileMul (.fin b n d) (.inf a) = tileMul (.inf a) (.fin b n d) := by
  have hsign : (b != a) = (a != b) := by cases a <;> cases b <;> rfl
  by_cases h : n = 0 <;> simp [tileMul, h, hsign]

/-! ### Sums into Acc -/

/-- A magnitude reaches 2^k in units of 2^q when its leading bit does. -/
theorem le_inUnits_iff {m : Nat} (neg : Bool) (e q : Int) (k : Nat) :
    (inUnits (signed neg m) e q).2 * 2 ^ k ≤ (inUnits (signed neg m) e q).1.natAbs ↔ m ≠ 0 ∧ q + k ≤ Nat.log2 m + e := by
  have habs : (inUnits (signed neg m) e q).1.natAbs = m * 2 ^ (e - q).toNat := by
    simp only [inUnits]
    rw [signed_mul, signed_natAbs]
  rw [habs]
  simp only [inUnits]
  rw [← pow_add]
  by_cases h0 : m = 0
  · simp [h0]
  · have hlog : Nat.log2 (m * 2 ^ (e - q).toNat) = Nat.log2 m + (e - q).toNat := log2_mul_two_pow h0 _
    have h1 : m * 2 ^ (e - q).toNat ≠ 0 := Nat.mul_ne_zero h0 (Nat.two_pow_pos _).ne'
    rw [← Nat.le_log2 h1, hlog]
    omega

theorem ofSigned_256 (x : Int) : ofSigned 256 x = (x % 2 ^ 256).toNat := by unfold ofSigned; norm_num

/-- A finite product added to Acc: the nearest integer in units of the anchor, modulo 2^256, with WIX and WOV (R123). -/
theorem accAdd_fin (E : Int) (acc st : Nat) (neg : Bool) (m : Nat) (e : Int) (nv : Bool) :
    let u := inUnits (signed neg m) e E
    accAdd E acc st (.fin neg m e) nv = ((((acc : Int) + rndDiv .rne u.1 u.2) % 2 ^ 256).toNat, st,
      (if nv then fNV else 0) ||| (if u.1 % u.2 = 0 then 0 else fWIX) ||| if u.2 * 2 ^ 224 ≤ u.1.natAbs then fWOV else 0) := by
  intro u
  have hwov : u.2 * 2 ^ 224 ≤ u.1.natAbs ↔ m ≠ 0 ∧ E + 224 ≤ Nat.log2 m + e := le_inUnits_iff neg e E 224
  simp only [accAdd, roundInt_eq, ofSigned_256, decide_eq_true_eq, ite_not, ne_eq]
  rw [if_congr hwov rfl rfl]

theorem toSigned_signed (x : Int) : signed (decide (x < 0)) x.natAbs = x := by
  unfold signed
  by_cases h : x < 0
  · simp [h, abs_of_neg h]
  · simp [h, abs_of_nonneg (not_lt.mp h)]

/-! ### The sum of two elements -/

/-- A flag class has its bit and no other. -/
theorem getLsbD_flag {k : Nat} (hk : k < 9) (c : Nat) : (BitVec.ofNat 9 (2 ^ k)).getLsbD c = decide (c = k) := by
  rw [BitVec.getLsbD_ofNat, Nat.testBit_two_pow]
  by_cases h : c = k
  · simp [h, hk]
  · simp [h, Ne.symm h]

theorem getLsbD_fNV (c : Nat) : fNV.getLsbD c = decide (c = 0) := getLsbD_flag (k := 0) (by decide) c
theorem getLsbD_fWOV (c : Nat) : fWOV.getLsbD c = decide (c = 7) := getLsbD_flag (k := 7) (by decide) c
theorem getLsbD_fWIX (c : Nat) : fWIX.getLsbD c = decide (c = 8) := getLsbD_flag (k := 8) (by decide) c

/-- A class raised on a condition. -/
theorem getLsbD_flag_if {p : Prop} [Decidable p] (f : Flags) (c : Nat) :
    (if p then f else 0).getLsbD c = (decide p && f.getLsbD c) := by
  by_cases h : p <;> simp [h]

/-- The flags of a sum, class by class. -/
theorem sumFlags {clash inexact wide : Prop} [Decidable clash] [Decidable inexact] [Decidable wide] {fl : Flags}
    (hfl : fl = (if clash then fNV else 0) ||| (if inexact then fWIX else 0) ||| if wide then fWOV else 0) :
    (fl.getLsbD 0 = true ↔ clash) ∧ (fl.getLsbD 8 = true ↔ inexact) ∧ (fl.getLsbD 7 = true ↔ wide) ∧
      ∀ c, c ≠ 0 → c ≠ 7 → c ≠ 8 → fl.getLsbD c = false := by
  have hbit : ∀ c, fl.getLsbD c = (decide clash && decide (c = 0) || decide inexact && decide (c = 8) ||
      decide wide && decide (c = 7)) := by
    intro c
    rw [hfl]
    simp only [BitVec.getLsbD_or, getLsbD_flag_if, getLsbD_fNV, getLsbD_fWIX, getLsbD_fWOV]
  refine ⟨by rw [hbit]; simp, by rw [hbit]; simp, by rw [hbit]; simp, fun c h0 h7 h8 => by rw [hbit]; simp [h0, h7, h8]⟩

/-- The status and the flag of a sum of two elements (R191): those of the infinity or NaN of the source added. -/
theorem taddStatus (Ed : Int) (accD stD : Nat) {stS : Nat} (hS : stS < 4) :
    (if stS = 3 then accAdd Ed accD stD (.nan false) false else if stS = 0 then (accD, stD, 0)
      else accAdd Ed accD stD (.inf (stS == 2)) false).2 =
      (if stS = 3 ∨ (stS = 1 ∧ stD = 2) ∨ (stS = 2 ∧ stD = 1) then 3 else if stD = 0 then stS else stD,
        if (stS = 1 ∧ stD = 2) ∨ (stS = 2 ∧ stD = 1) then fNV else 0) := by
  interval_cases stS
  · by_cases h : stD = 0 <;> simp [h]
  · by_cases h : stD = 2 <;> simp [accAdd, h]
  · by_cases h : stD = 1 <;> simp [accAdd, h]
  · simp [accAdd]

/-- One element of TADD: the status, the sum of Acc in units of the anchor of zd, and the flags (R191). -/
theorem taddElem_eq (Es Ed : Int) (accS accD stD : Nat) {stS : Nat} (hS : stS < 4) :
    let u := inUnits (toSigned 256 accS) Es Ed
    let r := rndDiv .rne u.1 u.2
    let clash : Prop := (stS = 1 ∧ stD = 2) ∨ (stS = 2 ∧ stD = 1)
    taddElem Es Ed accS stS accD stD =
      ((((accD : Int) + if Es = Ed then toSigned 256 accS else r) % 2 ^ 256).toNat,
        if stS = 3 ∨ clash then 3 else if stD = 0 then stS else stD,
        (if clash then fNV else 0) ||| (if u.1 % u.2 ≠ 0 then fWIX else 0) |||
          if Es ≠ Ed ∧ (r < -2 ^ 255 ∨ 2 ^ 255 ≤ r) then fWOV else 0) := by
  intro u r clash
  have hround : (if Es = Ed then (toSigned 256 accS, false) else
      roundInt .rne (decide (toSigned 256 accS < 0)) (toSigned 256 accS).natAbs (Es - Ed) false) =
      (if Es = Ed then toSigned 256 accS else r, decide (u.1 % (u.2 : Int) ≠ 0)) := by
    split
    · next h =>
      have : u.2 = 1 := by simp [u, inUnits, h]
      simp [this]
    · rw [roundInt_eq, toSigned_signed]
  unfold taddElem
  dsimp only
  rw [hround, taddStatus Ed accD stD hS, ofSigned_256]
  by_cases h : Es = Ed
  · simp [h, clash]
  · simp [h, clash]

/-! ### The rounding of a store -/

theorem tileRounded_eq (f : Fmt) (r : RM) (a : Accum) (i : Nat) :
    let v := toSigned 256 (a.val i)
    tileRounded f r a i =
      if a.status i = 1 then (f.infBits, 0) else if a.status i = 2 then (f.signBit + f.infBits, 0)
      else if a.status i = 3 then (f.nan, 0) else if v = 0 then (0, 0) else rndFloat f r v a.e := by
  intro v
  have hfin : f.round r (decide (v < 0)) v.natAbs a.e false = if v = 0 then (0, 0) else rndFloat f r v a.e := by
    split
    · next h => simp [h, Fmt.round]
    · next h => rw [Fmt.round_eq f r _ _ (Int.natAbs_ne_zero.mpr h), toSigned_signed]
  simp only [tileRounded, Fmt.inf, hfin, v, Bool.false_eq_true, if_false, if_true, Nat.add_zero, Nat.add_comm f.signBit]

/-- Settles O55: products and sums by their cases, each rounding by the rounding of exact integers. -/
theorem tileArithmetic : Obligations.TileArithmetic := by
  unfold Obligations.TileArithmetic
  refine ⟨fun x y => ⟨tileMul_nan, ?_, ?_, ?_⟩, fun E acc st nv => ⟨fun _ => rfl, fun neg => ?_, fun neg m e => ?_⟩,
    fun Es Ed accS stS accD stD hS => ⟨_, taddElem_eq Es Ed accS accD stD hS, sumFlags rfl⟩, tileRounded_eq⟩
  · rintro a b m n e d rfl rfl
    rfl
  · rintro a b n d rfl rfl
    exact tileMul_inf_fin a b n d
  · rintro a b rfl rfl
    rfl
  · cases neg <;> simp [accAdd]
  · exact accAdd_fin E acc st neg m e nv

end Sys2Proof.Machine
end

section
/-! PROOFS. Flags raised at indices in any order (07 R114 to R116): FST and EVX by what was raised at each index. -/

namespace Sys2Proof.Machine

open Sys2Proof.Safety

/-- A class is raised when some index raised it. -/
theorem getLsbD_classes (fl : Raised) (c : Nat) : fl.classes.getLsbD c = true ↔ ∃ x ∈ fl, x.2.getLsbD c = true := by
  induction fl with
  | nil => simp [Raised.classes]
  | cons x fl ih =>
    obtain ⟨i, f⟩ := x
    simp [Raised.classes, BitVec.getLsbD_or, ih]

/-- No index raised a class when there is no lowest one. -/
theorem lowest_eq_none {fl : Raised} {c : Nat} : fl.lowest c = none ↔ ∀ x ∈ fl, x.2.getLsbD c = false := by
  induction fl with
  | nil => simp [Raised.lowest]
  | cons x fl ih =>
    obtain ⟨i, f⟩ := x
    rw [Raised.lowest, List.forall_mem_cons]
    cases hf : f.getLsbD c with
    | false => simp [ih]
    | true => split <;> simp_all

/-- The lowest index that raised a class is an index that raised it, and no higher than any. -/
theorem lowest_spec {fl : Raised} {c k : Nat} (h : fl.lowest c = some k) :
    (∃ x ∈ fl, x.1 = k ∧ x.2.getLsbD c = true) ∧ ∀ x ∈ fl, x.2.getLsbD c = true → k ≤ x.1 := by
  induction fl generalizing k with
  | nil => simp [Raised.lowest] at h
  | cons x fl ih =>
    obtain ⟨i, f⟩ := x
    rw [Raised.lowest] at h
    rw [List.forall_mem_cons]
    simp only [List.mem_cons, exists_eq_or_imp]
    cases hf : f.getLsbD c with
    | false =>
      rw [hf] at h
      obtain ⟨hmem, hle⟩ := ih h
      exact ⟨.inr hmem, nofun, hle⟩
    | true =>
      rw [hf] at h
      cases hl : Raised.lowest fl c with
      | none =>
        rw [hl] at h
        obtain rfl : i = k := by simpa using h
        exact ⟨.inl ⟨rfl, rfl⟩, fun _ => le_rfl, fun x hx hbit => absurd (lowest_eq_none.mp hl x hx) (by simp [hbit])⟩
      | some j =>
        rw [hl] at h
        obtain rfl : min i j = k := by simpa using h
        obtain ⟨hmem, hle⟩ := ih hl
        refine ⟨?_, fun _ => Nat.min_le_left i j, fun x hx hbit => (Nat.min_le_right i j).trans (hle x hx hbit)⟩
        rcases Nat.le_total i j with hij | hij
        · exact .inl ⟨(Nat.min_eq_left hij).symm, rfl⟩
        · rw [Nat.min_eq_right hij]
          exact .inr hmem

/-- An index that raised a class and is no higher than any that did is the lowest. -/
theorem lowest_eq_some {fl : Raised} {c i : Nat} (hi : ∃ x ∈ fl, x.1 = i ∧ x.2.getLsbD c = true)
    (hmin : ∀ x ∈ fl, x.2.getLsbD c = true → i ≤ x.1) : fl.lowest c = some i := by
  obtain ⟨x, hx, rfl, hbit⟩ := hi
  cases h : fl.lowest c with
  | none => exact absurd (lowest_eq_none.mp h x hx) (by simp [hbit])
  | some k =>
    obtain ⟨⟨y, hy, rfl, hybit⟩, hle⟩ := lowest_spec h
    rw [Nat.le_antisymm (hle x hx hbit) (hmin y hy hybit)]

/-- Flags raised are those of `F` at the indices below n: each raised flag is one of its index, and of each class the least index that
has it raised it. -/
structure RaisesAs (fl : Raised) (n : Nat) (F : Nat → Flags) : Prop where
  of_mem : ∀ x ∈ fl, ∀ c, x.2.getLsbD c = true → x.1 < n ∧ (F x.1).getLsbD c = true
  least : ∀ c, ∀ i < n, (F i).getLsbD c = true → (∀ j < i, (F j).getLsbD c = false) → ∃ x ∈ fl, x.1 = i ∧ x.2.getLsbD c = true

/-- FST and EVX of an instruction that resumes nothing, by the flags at the indices (R114 to R116). -/
theorem flagsAfter_of_raises {s t : State} {h : Hart} {fl : Raised} {n : Nat} {F : Nat → Flags} (hfl : RaisesAs fl n F) (hn : n ≤ 8192)
    (hr : h.resume = []) (hfst : h.fst = s.h.fst) (hevx : h.evx = s.h.evx) (htf : t.h.fst = (h.raise 0 fl).fst)
    (hte : t.h.evx = (h.raise 0 fl).evx) : FlagsAfter s t n F := by
  have hclass : ∀ c, t.h.fst.getLsbD c = (s.h.fst.getLsbD c || fl.classes.getLsbD c) := by
    intro c
    rw [htf, ← hfst]
    simp only [Hart.raise, BitVec.getLsbD_or, BitVec.getLsbD_setWidth]
    by_cases hc : c < 64
    · simp [hc]
    · simp [hc, BitVec.getLsbD_of_ge fl.classes c (by omega)]
  have hstep : ∀ c (hc : c < 9), t.h.evx[c] = evxStep fl 0 c s.h.evx[c] := by
    intro c hc
    have hraise : t.h.evx = if fl.classes = 0 then s.h.evx else s.h.evx.mapIdx (fun c old => evxStep fl 0 c old) := by
      simpa [Hart.raise, laterRaised_fresh hr, hevx] using hte
    simp only [hraise]
    split
    · next h0 =>
      have hnone : fl.lowest c = none := lowest_eq_none.mpr fun x hx => by
        by_contra hbit
        have : fl.classes.getLsbD c = true := (getLsbD_classes fl c).mpr ⟨x, hx, by simpa using hbit⟩
        simp [h0] at this
      simp [evxStep, hnone]
    · simp
  refine ⟨fun c hc => ?_, fun c hc => ⟨fun hall => ?_, fun i hi hbit hleast => ?_⟩⟩
  · simp [hclass, BitVec.getLsbD_of_ge fl.classes c hc]
  · have hnone : ∀ x ∈ fl, x.2.getLsbD c = false := fun x hx => by
      by_contra hbit
      obtain ⟨hlt, hF⟩ := hfl.of_mem x hx c (by simpa using hbit)
      simp [hall _ hlt] at hF
    have hclasses : fl.classes.getLsbD c = false := by
      by_contra hbit
      obtain ⟨x, hx, hxbit⟩ := (getLsbD_classes fl c).mp (by simpa using hbit)
      simp [hnone x hx] at hxbit
    rw [hclass, hclasses, Bool.or_false, hstep c hc, evxStep, lowest_eq_none.mpr hnone]
    exact ⟨rfl, rfl⟩
  · have hex := hfl.least c i hi hbit hleast
    have hlow : fl.lowest c = some i := lowest_eq_some hex fun x hx hxbit => by
      by_contra hlt
      have := hleast x.1 (by omega)
      simp [(hfl.of_mem x hx c hxbit).2] at this
    obtain ⟨x, hx, -, hxbit⟩ := hex
    have hmod : i % 8192 = i := Nat.mod_eq_of_lt (by omega)
    rw [hclass, (getLsbD_classes fl c).mpr ⟨x, hx, hxbit⟩, Bool.or_true, hstep c hc, evxStep, hlow]
    simp [evxOf, hmod]

/-- Flags kept where they are not 0 raise as their indices do. -/
theorem raisesAs_of_mem {fl : Raised} {n : Nat} {F : Nat → Flags} (hmem : ∀ x ∈ fl, x.1 < n ∧ x.2 = F x.1)
    (hall : ∀ i < n, F i ≠ 0 → (i, F i) ∈ fl) : RaisesAs fl n F where
  of_mem x hx c hc := by
    obtain ⟨hlt, heq⟩ := hmem x hx
    exact ⟨hlt, heq ▸ hc⟩
  least c i hi hc _ := ⟨_, hall i hi (by rintro h; simp [h] at hc), rfl, hc⟩

end Sys2Proof.Machine
end

section
/-! PROOFS. Images of BPN segments bit by bit (07 R118 to R121, 10 R176 to R181): what a code written into one leaves and changes. -/

namespace Sys2Proof.Machine

open Sys2Proof.Safety

/-! ### Fields of a number -/

/-- A number in three parts around a field. -/
theorem around_field (x a n : Nat) : x % 2 ^ a + (x >>> a % 2 ^ n) <<< a + (x >>> (a + n)) <<< (a + n) = x := by
  rw [Nat.shiftLeft_eq, Nat.shiftLeft_eq, Nat.shiftRight_eq_div_pow, Nat.shiftRight_eq_div_pow, pow_add, ← Nat.div_div_eq_div_mul,
    ← Nat.mul_assoc, Nat.mul_right_comm]
  have h1 := Nat.div_add_mod x (2 ^ a)
  have h2 := Nat.div_add_mod (x / 2 ^ a) (2 ^ n)
  generalize x / 2 ^ a = y at *
  generalize y / 2 ^ n = z at *
  generalize x % 2 ^ a = l at *
  generalize y % 2 ^ n = k at *
  subst h2
  rw [← h1]
  ring

/-- A field replaced: the bits of the new one at its place, the others as before. -/
theorem testBit_replace {v n : Nat} (x a : Nat) (hv : v < 2 ^ n) (j : Nat) :
    (x - (x >>> a % 2 ^ n) <<< a + v <<< a).testBit j =
      if a ≤ j ∧ j < a + n then v.testBit (j - a) else x.testBit j := by
  have hsplit := around_field x a n
  have hlow : x % 2 ^ a < 2 ^ a := Nat.mod_lt _ (Nat.two_pow_pos a)
  have hfield : x >>> a % 2 ^ n < 2 ^ n := Nat.mod_lt _ (Nat.two_pow_pos n)
  have hnew : x - (x >>> a % 2 ^ n) <<< a + v <<< a = x % 2 ^ a + v <<< a + (x >>> (a + n)) <<< (a + n) := by
    have hswap : ∀ l f h v y : Nat, l + f + h = y → y - f + v = l + v + h := by omega
    exact hswap _ _ _ _ _ hsplit
  have hold : x.testBit j = _ := congrArg (Nat.testBit · j) hsplit.symm
  rw [hnew, hold, testBit_three _ hlow hv, testBit_three _ hlow hfield]
  by_cases h1 : j < a
  · rw [if_pos h1, if_pos h1, if_neg (by omega)]
  · by_cases h2 : j < a + n
    · rw [if_neg h1, if_pos h2, if_pos (by omega)]
    · rw [if_neg h1, if_neg h2, if_neg (by omega), if_neg h1, if_neg h2]

/-- A field made zero. -/
theorem testBit_clear (x a n j : Nat) :
    (x - (x >>> a % 2 ^ n) <<< a).testBit j = (!(decide (a ≤ j) && decide (j < a + n)) && x.testBit j) := by
  have h := testBit_replace x a (Nat.two_pow_pos n) j
  rw [Nat.zero_shiftLeft, Nat.add_zero, Nat.zero_testBit] at h
  rw [h]
  by_cases hj : a ≤ j ∧ j < a + n
  · simp [hj.1, hj.2]
  · rw [if_neg hj]
    simp only [← Bool.decide_and, hj]
    simp

theorem testBit_putBit (x i : Nat) (b : Bool) (j : Nat) : (putBit x i b).testBit j = if j = i then b else x.testBit j := by
  have hbit : x >>> i % 2 ^ 1 = (x.testBit i).toNat := by
    rw [pow_one, Nat.shiftRight_eq_div_pow, Nat.toNat_testBit]
  have hput : putBit x i b = x - (x >>> i % 2 ^ 1) <<< i + b.toNat <<< i := by
    have hle : (x >>> i % 2 ^ 1) <<< i ≤ x := by
      have hle : ∀ l f h y : Nat, l + f + h = y → f ≤ y := by omega
      exact hle _ _ _ _ (around_field x i 1)
    rw [hbit, Nat.shiftLeft_eq] at hle ⊢
    rw [Nat.shiftLeft_eq]
    unfold putBit
    cases hx : x.testBit i <;> cases b <;> simp_all
  rw [hput, testBit_replace x i (n := 1) (by cases b <;> decide)]
  by_cases h : j = i
  · subst h
    cases b <;> simp
  · rw [if_neg h, if_neg (by omega)]

/-! ### A code in the planes of a block -/

/-- Bits put at places of their own: each place has the last bit put there. -/
theorem testBit_putBits (pos : Nat → Nat) (v : Nat → Bool) (img n j : Nat) (hinj : ∀ t < n, ∀ u < n, pos t = pos u → t = u) :
    (∀ t < n, pos t = j → ((List.range n).foldl (fun m t => putBit m (pos t) (v t)) img).testBit j = v t) ∧
    ((∀ t < n, pos t ≠ j) → ((List.range n).foldl (fun m t => putBit m (pos t) (v t)) img).testBit j = img.testBit j) := by
  induction n with
  | zero => simp
  | succ n ih =>
    obtain ⟨hin, hout⟩ := ih fun t ht u hu => hinj t (by omega) u (by omega)
    simp only [List.range_succ, List.foldl_append, List.foldl_cons, List.foldl_nil, testBit_putBit]
    refine ⟨fun t ht hj => ?_, fun h => ?_⟩
    · by_cases htn : t = n
      · subst htn
        rw [if_pos hj.symm]
      · rw [if_neg fun h => htn (hinj t ht n (by omega) (hj.trans h)), hin t (by omega) hj]
    · rw [if_neg (Ne.symm (h n (by omega))), hout fun t ht => h t (by omega)]

/-- Places of bits in planes are apart. -/
theorem planeBit_inj {b t j b' t' j' : Nat} (ht : t < 8) (hj : j < 64) (ht' : t' < 8) (hj' : j' < 64) :
    planeBit b t j = planeBit b' t' j' ↔ b = b' ∧ t = t' ∧ j = j' := by
  unfold planeBit
  omega

/-- The plane words from P on of a block are those bits. -/
theorem planeBit_high {b p b' t j : Nat} (hp : p ≤ 8) (ht : t < 8) (hj : j < 64) :
    (planeBit b p 0 ≤ planeBit b' t j ∧ planeBit b' t j < planeBit b p 0 + 64 * (8 - p)) ↔ b' = b ∧ p ≤ t := by
  unfold planeBit
  omega

/-- A bit of a block's header lies in no plane. -/
theorem header_high {b p b' q : Nat} (hp : p ≤ 8) (hq : q < 64) :
    ¬(planeBit b p 0 ≤ 576 * b' + q ∧ 576 * b' + q < planeBit b p 0 + 64 * (8 - p)) := by
  unfold planeBit
  omega

/-- The planes of an image after the plane words from P on of a block are cleared (R180). -/
theorem testBit_clearHigh {img hdr b b' t j : Nat} (hp : hdrP hdr ≤ 8) (ht : t < 8) (hj : j < 64) :
    (clearHigh img hdr b).testBit (planeBit b' t j) =
      (!(decide (b' = b) && decide (hdrP hdr ≤ t)) && img.testBit (planeBit b' t j)) := by
  unfold clearHigh
  rw [testBit_clear, ← Bool.decide_and, decide_eq_decide.mpr (planeBit_high hp ht hj), Bool.decide_and]

theorem testBit_clearHigh_header {img hdr b b' q : Nat} (hp : hdrP hdr ≤ 8) (hq : q < 64) :
    (clearHigh img hdr b).testBit (576 * b' + q) = img.testBit (576 * b' + q) := by
  unfold clearHigh
  rw [testBit_clear, ← Bool.decide_and, decide_eq_false (header_high hp hq)]
  rfl

/-- Writing a code is putting its bits and clearing the plane words above. -/
theorem putCode_eq (img hdr b j : Nat) (code : Int) :
    putCode img hdr b j code = clearHigh ((List.range (hdrP hdr)).foldl (fun m t =>
      putBit m (planeBit b t j) ((ofSigned (hdrP hdr) code).testBit (hdrP hdr - 1 - t))) img) hdr b := rfl

/-- The planes of an image after the code of an element is written (R180). -/
theorem testBit_putCode {img hdr b j b' t i : Nat} (code : Int) (hp : hdrP hdr ≤ 8) (hj : j < 64) (ht : t < 8) (hi : i < 64) :
    (putCode img hdr b j code).testBit (planeBit b' t i) =
      if b' = b ∧ hdrP hdr ≤ t then false
      else if b' = b ∧ i = j then (ofSigned (hdrP hdr) code).testBit (hdrP hdr - 1 - t)
      else img.testBit (planeBit b' t i) := by
  rw [putCode_eq, testBit_clearHigh hp ht hi]
  obtain ⟨hin, hout⟩ := testBit_putBits (fun t => planeBit b t j)
    (fun t => (ofSigned (hdrP hdr) code).testBit (hdrP hdr - 1 - t)) img (hdrP hdr) (planeBit b' t i)
    fun t ht u hu h => ((planeBit_inj (by omega) hj (by omega) hj).mp h).2.1
  by_cases hhigh : b' = b ∧ hdrP hdr ≤ t
  · simp [hhigh]
  · rw [if_neg hhigh, ← Bool.decide_and, decide_eq_false hhigh, Bool.not_false, Bool.true_and]
    by_cases hat : b' = b ∧ i = j
    · obtain ⟨rfl, rfl⟩ := hat
      rw [if_pos ⟨rfl, rfl⟩]
      exact hin t (by omega) rfl
    · rw [if_neg hat]
      refine hout fun u hu h => ?_
      obtain ⟨rfl, rfl, rfl⟩ := (planeBit_inj (by omega) hj ht hi).mp h
      exact hat ⟨rfl, rfl⟩

theorem testBit_putCode_header {img hdr b j b' q : Nat} (code : Int) (hp : hdrP hdr ≤ 8) (hj : j < 64) (hq : q < 64) :
    (putCode img hdr b j code).testBit (576 * b' + q) = img.testBit (576 * b' + q) := by
  rw [putCode_eq, testBit_clearHigh_header hp hq]
  refine (testBit_putBits (fun t => planeBit b t j) _ img (hdrP hdr) (576 * b' + q) fun t ht u hu h => ?_).2 fun t ht h => ?_
  · simp only [planeBit] at h
    omega
  · simp only [planeBit] at h
    omega

/-! ### Headers -/

/-- The header of a block is a word of the image. -/
theorem blockHdr_eq (img b : Nat) : blockHdr img b = elem 64 img (9 * b) := by
  unfold blockHdr elem
  rw [show 64 * (9 * b) = 576 * b by ring]

theorem testBit_blockHdr (img b q : Nat) : (blockHdr img b).testBit q = (decide (q < 64) && img.testBit (576 * b + q)) := by
  rw [blockHdr_eq, testBit_elem, show 64 * (9 * b) = 576 * b by ring]

/-- The header depends on its bits alone. -/
theorem blockHdr_congr {img img' b : Nat} (h : ∀ q < 64, img'.testBit (576 * b + q) = img.testBit (576 * b + q)) :
    blockHdr img' b = blockHdr img b := by
  apply Nat.eq_of_testBit_eq
  intro q
  rw [testBit_blockHdr, testBit_blockHdr]
  by_cases hq : q < 64
  · rw [h q hq]
  · simp [hq]

/-- The fields of a valid header in the statements' form and in the model's (R120). -/
theorem hdrFieldsOk_of {x : Nat} (h30 : x / 2 ^ 30 = 0) (h1 : 1 ≤ x / 2 ^ 24 % 16) (h8 : x / 2 ^ 24 % 16 ≤ 8)
    (hz : x.testBit 29 = true ∨ x / 2 ^ 8 % 256 = 0) : hdrFieldsOk x = true := by
  simp only [hdrFieldsOk, bits, hdrP, hdrA, hdrZP, Nat.shiftRight_eq_div_pow, h30, Bool.and_eq_true, Bool.or_eq_true, decide_eq_true_eq]
  exact ⟨⟨⟨rfl, h1⟩, h8⟩, hz⟩

theorem hdrValid_of {x : Nat} (h : HdrOk x) : hdrValid x = true := by
  obtain ⟨h30, h1, h8, hz, hlo, hhi⟩ := h
  have he8 : hdrE8 x = x % 256 := rfl
  simp only [hdrValid, hdrFieldsOk_of h30 h1 h8 hz, he8, Bool.true_and, Bool.and_eq_true, decide_eq_true_eq]
  exact ⟨hlo, hhi⟩

theorem hdrP_eq (x : Nat) : hdrP x = x / 2 ^ 24 % 16 := by rw [hdrP, bits, Nat.shiftRight_eq_div_pow]; rfl
theorem hdrZP_eq (x : Nat) : hdrZP x = x / 2 ^ 8 % 256 := by rw [hdrZP, bits, Nat.shiftRight_eq_div_pow]; rfl
theorem hdrE8_eq (x : Nat) : hdrE8 x = x % 256 := rfl

/-- With every covered header valid there is no bad one. -/
theorem badHeader_none {h : Hart} {img : Nat} (hv : ∀ b < h.blocks, hdrValid (blockHdr img b) = true) : h.badHeader img = none := by
  have hnone : (List.range' (h.start / 64) (h.blocks - h.start / 64)).find? (fun b => !hdrValid (blockHdr img b)) = none := by
    rw [List.find?_eq_none]
    intro b hb
    rw [List.mem_range'_1] at hb
    simp [hv b (by omega)]
  unfold Hart.badHeader
  rw [hnone]

/-! ### The chain of a narrowing -/

section Chain

variable (h : Hart) (km xs : Nat) (f : Narrow) (c : Chain)

/-- The narrowing up to element i. -/
def Hart.narrowed (i : Nat) : Chain := (List.range i).foldl (h.narrowOne km xs f) c

/-- What element i of a narrowing becomes, when it is active: its code, the carry behind it and its flags. -/
def Hart.narrowCode (i : Nat) : Int × Nat × Flags :=
  f (blockHdr c.img (i / 64)) (h.narrowed km xs f c i) (h.readElem h.ew xs i)

theorem Hart.narrowed_succ (i : Nat) : h.narrowed km xs f c (i + 1) = h.narrowOne km xs f (h.narrowed km xs f c i) i := by
  unfold Hart.narrowed
  rw [List.range_succ, List.foldl_append]
  rfl

/-- The image after an element: its code, or ZP, or no more than clear plane words above (R180). -/
theorem Hart.narrowOne_img (i : Nat) : (h.narrowOne km xs f c i).img =
    if h.active km i then putCode c.img (blockHdr c.img (i / 64)) (i / 64) (i % 64) (f (blockHdr c.img (i / 64)) c (h.readElem h.ew xs i)).1
    else if h.ip then putCode c.img (blockHdr c.img (i / 64)) (i / 64) (i % 64) (zeroCode (blockHdr c.img (i / 64)))
    else clearHigh c.img (blockHdr c.img (i / 64)) (i / 64) := by
  unfold Hart.narrowOne
  dsimp only
  split <;> rfl

/-- The bit in plane t that an element gives: of its code `r`, of ZP, or as before. -/
def Hart.codeBit (i t : Nat) (r : Int) : Bool :=
  let P := hdrP (blockHdr c.img (i / 64))
  if h.active km i then (ofSigned P r).testBit (P - 1 - t)
  else if h.ip then (ofSigned P (zeroCode (blockHdr c.img (i / 64)))).testBit (P - 1 - t)
  else c.img.testBit (planeBit (i / 64) t (i % 64))

/-- The planes after one element. -/
theorem Hart.narrowOne_bit {i b t j : Nat} (hp : hdrP (blockHdr c.img (i / 64)) ≤ 8) (ht : t < 8) (hj : j < 64) :
    (h.narrowOne km xs f c i).img.testBit (planeBit b t j) =
      if b = i / 64 ∧ hdrP (blockHdr c.img (i / 64)) ≤ t then false
      else if b = i / 64 ∧ j = i % 64 then
        h.codeBit km c i t (f (blockHdr c.img (i / 64)) c (h.readElem h.ew xs i)).1
      else c.img.testBit (planeBit b t j) := by
  have hi : i % 64 < 64 := Nat.mod_lt _ (by decide)
  rw [h.narrowOne_img]
  unfold Hart.codeBit
  split
  · rw [testBit_putCode _ hp hi ht hj]
  · split
    · rw [testBit_putCode _ hp hi ht hj]
    · rw [testBit_clearHigh hp ht hj]
      by_cases hb : b = i / 64
      · by_cases hP : hdrP (blockHdr c.img (i / 64)) ≤ t
        · simp [hb, hP]
        · by_cases hji : j = i % 64 <;> simp [hb, hP, hji]
      · simp [hb]

variable {n : Nat} (hp : ∀ j < n, hdrP (blockHdr c.img (j / 64)) ≤ 8)
include hp

/-- A narrowing leaves the headers. -/
theorem Hart.narrowed_hdr {i : Nat} (hi : i ≤ n) (b : Nat) :
    blockHdr (h.narrowed km xs f c i).img b = blockHdr c.img b := by
  induction i generalizing b with
  | zero => rfl
  | succ i ih =>
    have ih := ih (by omega)
    have hP : hdrP (blockHdr (h.narrowed km xs f c i).img (i / 64)) ≤ 8 := (ih (i / 64)).symm ▸ hp i hi
    have hj : i % 64 < 64 := Nat.mod_lt _ (by decide)
    rw [← ih b, h.narrowed_succ]
    refine blockHdr_congr fun q hq => ?_
    rw [h.narrowOne_img]
    split
    · exact testBit_putCode_header _ hP hj hq
    · split
      · exact testBit_putCode_header _ hP hj hq
      · exact testBit_clearHigh_header hP hq

/-- The planes after a narrowing up to element i. -/
theorem Hart.narrowed_bit {i : Nat} (hi : i ≤ n) {b t j : Nat} (ht : t < 8) (hj : j < 64) :
    (h.narrowed km xs f c i).img.testBit (planeBit b t j) =
      if 64 * b < i ∧ hdrP (blockHdr c.img b) ≤ t then false
      else if 64 * b + j < i then h.codeBit km c (64 * b + j) t (h.narrowCode km xs f c (64 * b + j)).1
      else c.img.testBit (planeBit b t j) := by
  induction i with
  | zero => simp [Hart.narrowed]
  | succ i ih =>
    have ih := ih (by omega)
    have hhdr : blockHdr (h.narrowed km xs f c i).img (i / 64) = blockHdr c.img (i / 64) := h.narrowed_hdr km xs f c hp (by omega) _
    rw [h.narrowed_succ, h.narrowOne_bit _ _ _ _ (hhdr.symm ▸ hp i hi) ht hj, hhdr]
    by_cases hb : b = i / 64
    · subst hb
      by_cases hP : hdrP (blockHdr c.img (i / 64)) ≤ t
      · rw [if_pos ⟨rfl, hP⟩, if_pos ⟨by omega, hP⟩]
      · have hno : ∀ p : Prop, ¬(p ∧ hdrP (blockHdr c.img (i / 64)) ≤ t) := fun _ h => hP h.2
        rw [if_neg (hno _), if_neg (hno _)]
        rw [if_neg (hno _)] at ih
        by_cases hji : j = i % 64
        · have hat : 64 * (i / 64) + j = i := by omega
          rw [hat, if_neg (Nat.lt_irrefl i)] at ih
          rw [if_pos ⟨rfl, hji⟩, hat, if_pos (Nat.lt_succ_self i)]
          unfold Hart.codeBit Hart.narrowCode
          rw [hhdr, ← hji, ih]
        · rw [if_neg fun h => hji h.2, ih]
          exact if_congr (by omega) rfl rfl
    · rw [if_neg fun h => hb h.1, if_neg fun h => hb h.1, ih]
      exact if_congr (and_congr_left' (by omega)) rfl (if_congr (by omega) rfl rfl)

/-- What an active element leaves besides its bits. -/
theorem Hart.narrowed_active {i : Nat} (hi : i < n) (hact : h.active km i = true) :
    (h.narrowed km xs f c (i + 1)).carry = (h.narrowCode km xs f c i).2.1 ∧
    (h.narrowed km xs f c (i + 1)).e8 = some (hdrE8 (blockHdr c.img (i / 64))) ∧
    (h.narrowed km xs f c (i + 1)).flags = if (h.narrowCode km xs f c i).2.2 = 0 then (h.narrowed km xs f c i).flags
      else (i, (h.narrowCode km xs f c i).2.2) :: (h.narrowed km xs f c i).flags := by
  rw [h.narrowed_succ]
  unfold Hart.narrowOne Hart.narrowCode
  simp only [hact, if_true, h.narrowed_hdr km xs f c hp (Nat.le_of_lt hi)]
  exact ⟨trivial, trivial, trivial⟩

omit hp in
/-- An inactive element leaves carry, scale and flags. -/
theorem Hart.narrowed_inactive (i : Nat) (hact : h.active km i = false) :
    (h.narrowed km xs f c (i + 1)).carry = (h.narrowed km xs f c i).carry ∧
    (h.narrowed km xs f c (i + 1)).e8 = (h.narrowed km xs f c i).e8 ∧
    (h.narrowed km xs f c (i + 1)).flags = (h.narrowed km xs f c i).flags := by
  rw [h.narrowed_succ]
  unfold Hart.narrowOne
  simp only [hact]
  exact ⟨rfl, rfl, rfl⟩

/-- The carry behind an element of a narrowing. -/
theorem Hart.narrowed_carry {i : Nat} (hi : i < n) : (h.narrowed km xs f c (i + 1)).carry =
    if h.active km i then (h.narrowCode km xs f c i).2.1 else (h.narrowed km xs f c i).carry := by
  cases hact : h.active km i with
  | true => exact (h.narrowed_active km xs f c hp hi hact).1
  | false => exact (h.narrowed_inactive km xs f c i hact).1

/-- The E8 that a narrowing keeps is that of the block of the last active element. -/
theorem Hart.narrowed_e8 (h0 : c.e8 = none) {i : Nat} (hi : i ≤ n) : (h.narrowed km xs f c i).e8 =
    ((List.range i).reverse.find? fun j => h.active km j).map fun j => hdrE8 (blockHdr c.img (j / 64)) := by
  induction i with
  | zero => exact h0
  | succ i ih =>
    rw [List.range_succ, List.reverse_append, List.reverse_singleton, List.singleton_append, List.find?_cons]
    cases hact : h.active km i with
    | true => exact (h.narrowed_active km xs f c hp hi hact).2.1
    | false => exact (h.narrowed_inactive km xs f c i hact).2.1.trans (ih (by omega))

/-- The flags of a narrowing are those of its active elements. -/
theorem Hart.narrowed_flags (h0 : c.flags = []) {i : Nat} (hi : i ≤ n) : RaisesAs (h.narrowed km xs f c i).flags i fun j =>
    if h.active km j then (h.narrowCode km xs f c j).2.2 else 0 := by
  set F : Nat → Flags := fun j => if h.active km j then (h.narrowCode km xs f c j).2.2 else 0 with hF
  have hstep : ∀ i < n, (h.narrowed km xs f c (i + 1)).flags =
      if F i = 0 then (h.narrowed km xs f c i).flags else (i, F i) :: (h.narrowed km xs f c i).flags := by
    intro i hi
    cases hact : h.active km i with
    | true =>
      rw [(h.narrowed_active km xs f c hp hi hact).2.2, hF]
      simp only [hact, if_true]
    | false =>
      rw [(h.narrowed_inactive km xs f c i hact).2.2, hF]
      simp [hact]
  have hmem : ∀ x, x ∈ (h.narrowed km xs f c i).flags ↔ x.1 < i ∧ x.2 = F x.1 ∧ F x.1 ≠ 0 := by
    induction i with
    | zero => intro x; simp [Hart.narrowed, h0]
    | succ i ih =>
      have ih := ih (by omega)
      rintro ⟨j, g⟩
      rw [hstep i (by omega)]
      split
      · next hz =>
        rw [ih]
        constructor
        · rintro ⟨hlt, hg, hne⟩
          exact ⟨Nat.lt_succ_of_lt hlt, hg, hne⟩
        · rintro ⟨hlt, hg, hne⟩
          have : j ≠ i := by rintro rfl; exact hne hz
          exact ⟨by simp only at hlt; omega, hg, hne⟩
      · next hz =>
        rw [List.mem_cons, ih]
        constructor
        · rintro (heq | ⟨hlt, hg, hne⟩)
          · obtain ⟨rfl, rfl⟩ := Prod.mk.inj heq
            exact ⟨Nat.lt_succ_self _, rfl, hz⟩
          · exact ⟨Nat.lt_succ_of_lt hlt, hg, hne⟩
        · rintro ⟨hlt, hg, hne⟩
          by_cases hji : j = i
          · subst hji
            exact .inl (Prod.ext rfl hg)
          · exact .inr ⟨by simp only at hlt; omega, hg, hne⟩
  exact raisesAs_of_mem (fun x hx => ⟨((hmem x).mp hx).1, ((hmem x).mp hx).2.1⟩) fun j hj hne => (hmem (j, F j)).mpr ⟨hj, rfl, hne⟩

end Chain

/-! ### What the statements say of images -/

/-- The image that the statements name is the model's (R176). -/
theorem imageOf_eq (s : State) (v : BitVec 5) : imageOf s v = s.h.imageRun v := rfl

/-- The blocks of SPAN elements lie in the registers of their image (R176). -/
theorem image_holds (s : State) (v : BitVec 5) : 576 * ((s.h.span + 63) / 64) ≤ 32768 * (imageOf s v).2 := by
  unfold imageOf
  dsimp only
  omega

/-- Bits of an image read back from its registers. -/
theorem testBit_img_setImg (h : Hart) {D : Regs} (hD : D.1 + D.2 ≤ 32) (x : Nat) {j : Nat} (hj : j < 32768 * D.2) :
    ((h.setImg D.1 D.2 x).img D.1 D.2).testBit j = x.testBit j := by
  rw [img_setImg _ _ _ _ hD, Nat.testBit_mod_two_pow]
  simp [hj]

/-- The checks of an instruction with an image and an element operand pass (R176). -/
theorem imageBad_eq_false {s : State} {ws : List Nat} {V D : Regs} (hw : s.h.ewIn ws = true) (hV : Safety.Group V) (hD : D.1 + D.2 ≤ 32)
    (hap : Apart D V) : s.imageBad ws V D = false := by
  have hal : aligned [V] = true := aligned_iff.mpr (by simpa using hV)
  have hpast : D.past = false := by simpa [Regs.past] using hD
  have hover : D.overlap V = false := by
    unfold Regs.overlap
    rcases hap with h | h
    · simp [Nat.not_lt.mpr h]
    · simp [Nat.not_lt.mpr h]
  rw [State.imageBad, hw, hal, hpast, hover]
  rfl

/-- A run with a register that is held lies in v0 to v31. -/
theorem held_inside {s : State} {r : Regs} (h : Held s r) (hr : 0 < r.2) : r.1 + r.2 ≤ 32 := by
  have := (h (r.1 + r.2 - 1) (by omega) (by omega)).1
  omega

theorem imageOf_pos (s : State) (v : BitVec 5) : 0 < (imageOf s v).2 := Nat.le_max_left 1 _

/-- Every header that the statements hold for valid is valid in the model. -/
theorem headers_valid {s : State} {D : Regs} (hh : ∀ j < s.h.blocks, HdrOk (el s D.1 D.2 64 (9 * j))) :
    ∀ b < s.h.blocks, hdrValid (blockHdr (s.h.img D.1 D.2) b) = true := by
  intro b hb
  rw [blockHdr_eq]
  exact hdrValid_of (hh b hb)

end Sys2Proof.Machine
end

section
/-! PROOFS. VPLANE, VDEQ, VTOPLANE, VNARROW and VQSCALE (07 R119 to R121, 10 R176 to R181). -/

namespace Sys2Proof.Machine

open Sys2Proof.Safety

/-! ### The course of a narrowing -/

/-- The chain with which a narrowing starts. -/
def chainStart (s : State) (D : Regs) : Chain := ⟨s.h.img D.1 D.2, s.h.efc.toNat % 2 ^ 32, none, []⟩

/-- The chain of a narrowing up to element i. -/
def chainTo (s : State) (D V : Regs) (k : BitVec 3) (f : Narrow) (i : Nat) : Chain :=
  s.h.narrowed k.toNat (s.h.img V.1 V.2) f (chainStart s D) i

/-- What element i of a narrowing becomes, when it is active. -/
def chainCodeAt (s : State) (D V : Regs) (k : BitVec 3) (f : Narrow) (i : Nat) : Int × Nat × Flags :=
  s.h.narrowCode k.toNat (s.h.img V.1 V.2) f (chainStart s D) i

/-- Bit i of plane p of block j of an image. -/
def planeBitOf (t : State) (r : Regs) (j p i : Nat) : Bool := (t.h.img r.1 r.2).testBit (576 * j + 64 + 64 * p + i)

/-- The codes `c` stand in the planes of the active elements of an image, the others stay or are ZP, the plane words from P on are 0, and
the headers stay (R180). -/
def CodedAs (s t : State) (D : Regs) (k : BitVec 3) (c : Nat → Int) : Prop :=
  ∀ j < s.h.blocks, el t D.1 D.2 64 (9 * j) = el s D.1 D.2 64 (9 * j) ∧ ∀ p < 8, ∀ i < 64,
    let h := el s D.1 D.2 64 (9 * j)
    let P := h / 2 ^ 24 % 16
    planeBitOf t D j p i = (decide (p < P) &&
      (if s.h.span ≤ 64 * j + i then planeBitOf s D j p i
       else if isActive s k (64 * j + i) then (ofSigned P (c (64 * j + i))).testBit (P - 1 - p)
       else if s.h.vtype.getLsbD 6 then (ofSigned P (hdrZP h)).testBit (P - 1 - p) else planeBitOf s D j p i))

/-- What an instruction that wrote an image, flags and EFC leaves. -/
def ImageFrame (s t : State) (d : BitVec 5) (D : Regs) (efc : Word) : Prop :=
  (∀ r < 32, r < D.1 ∨ D.1 + D.2 ≤ r → t.h.vreg r = s.h.vreg r) ∧
  t = { s with h := { s.h with v := t.h.v, fst := t.h.fst, evx := t.h.evx, efc, lvd := d.setWidth 64, pc := s.h.pc + 4 } }

/-- The state after an image has been written: flags, EFC, LVD and PC. -/
def imageWritten (s : State) (d : BitVec 5) (D : Regs) (img : Nat) (efc : Word) (fl : Raised) : State :=
  ({ s with h := ({ (s.issuing s.h.resume (d.setWidth 64)).h.setImg D.1 D.2 img with efc } : Hart).raise 0 fl } : State).adv 4

theorem imageWritten_v (s : State) (d : BitVec 5) (D : Regs) (img : Nat) (efc : Word) (fl : Raised) :
    (imageWritten s d D img efc fl).h.v = (s.h.setImg D.1 D.2 img).v :=
  setImg_v_congr (h := s.h) (h' := (s.issuing s.h.resume (d.setWidth 64)).h) rfl _ _ _

theorem imageWritten_img (s : State) (d : BitVec 5) (D : Regs) (img : Nat) (efc : Word) (fl : Raised) (r n : Nat) :
    (imageWritten s d D img efc fl).h.img r n = (s.h.setImg D.1 D.2 img).img r n :=
  img_congr (imageWritten_v s d D img efc fl) r n

theorem imageWritten_frame (s : State) (d : BitVec 5) {D : Regs} (img : Nat) (efc : Word) (fl : Raised) :
    ImageFrame s (imageWritten s d D img efc fl) d D efc := by
  refine ⟨fun r _ ho => ?_, ?_⟩
  · rw [Hart.vreg, imageWritten_v]
    exact (vreg_setImg s.h D.1 D.2 img r).trans (if_neg (by omega))
  · unfold imageWritten
    rw [setImg_frame]
    rfl

theorem imageWritten_flags {s : State} {d : BitVec 5} {D : Regs} {img : Nat} {efc : Word} {fl : Raised} {F : Nat → Flags}
    (hF : Fresh s) (hfl : RaisesAs fl s.h.span F) : FlagsAfter s (imageWritten s d D img efc fl) s.h.span F := by
  obtain ⟨-, hres, -, -, -, hmax⟩ := hF
  refine flagsAfter_of_raises (h := { (s.issuing s.h.resume (d.setWidth 64)).h.setImg D.1 D.2 img with efc }) hfl hmax ?_ ?_ ?_ rfl rfl
  all_goals rw [setImg_frame]
  · exact hres
  · rfl
  · rfl

/-- An instruction that has written an image completes. -/
theorem retire_imageWritten {s : State} (hr : s.h.resume = []) (d : BitVec 5) (D : Regs) (img : Nat) (efc : Word) (fl : Raised) :
    ({ s.issuing s.h.resume (d.setWidth 64) with
      h := { (s.issuing s.h.resume (d.setWidth 64)).h.setImg D.1 D.2 img with efc } } : State).retire 4 fl =
      .next (imageWritten s d D img efc fl) := by
  unfold State.retire
  rw [if_neg (by decide), prior_fresh (by rw [setImg_frame]; exact hr)]
  rfl

/-- A narrowing whose checks pass writes the image of its chain. -/
theorem State.narrowing_eq {s : State} {d a : BitVec 5} {k : BitVec 3} {e : BitVec 1} {chained : Bool} {f : Hart → Narrow} (hF : Fresh s)
    (hf : ∀ l, f (s.issuing s.h.resume l).h = f s.h)
    (hbad : s.imageBad ewFloat (a.toNat, s.h.grp) (imageOf s d) = false) (hV : Held s (a.toNat, s.h.grp)) (hD : Held s (imageOf s d))
    (hh : ∀ b < s.h.blocks, hdrValid (blockHdr (s.h.img (imageOf s d).1 (imageOf s d).2) b) = true) :
    let C := chainTo s (imageOf s d) (a.toNat, s.h.grp) k (f s.h) s.h.span
    s.narrowing d a k e chained f = .next (imageWritten s d (imageOf s d) C.img (if chained then BitVec.ofNat 64 C.carry else s.h.efc) C.flags) := by
  intro C
  obtain ⟨hrun, hres, hland, hquota, hbound, hmax⟩ := hF
  unfold State.narrowing
  simp only [← imageOf_eq, hbad]
  rw [issue_ready hrun hbound (by simpa using hD) (by simpa using hV) (by simpa using hV) (by simp), State.issuing_named]
  generalize hu : s.issuing (if false = true then s.h.holdLvd.resume else s.h.resume) (d.setWidth 64) = u
  have hu : u = s.issuing s.h.resume (d.setWidth 64) := hu.symm
  have himg : ∀ r n, u.h.img r n = s.h.img r n := fun r n => by rw [hu, State.img_issuing]
  have hstart : u.h.start = 0 := start_fresh (by rw [hu]; exact hres)
  have hstop : u.h.stopAt u.h.groupElems u.h.span = s.h.span := by
    rw [stopAt_none (by rw [hu]; exact hland) (by rw [hu]; exact hquota), hu]
    rfl
  have hbadh : u.h.badHeader (s.h.img (imageOf s d).1 (imageOf s d).2) = none := badHeader_none (by rw [hu]; exact hh)
  have hlast : ∀ img, u.h.lastE8 k.toNat img = none := fun img => by simp [Hart.lastE8, hstart]
  have hspan : u.h.span = s.h.span := by rw [hu]; rfl
  have hchain : ∀ n, (List.range' 0 n).foldl (u.h.narrowOne k.toNat (s.h.img a.toNat s.h.grp) (f u.h))
      ⟨s.h.img (imageOf s d).1 (imageOf s d).2, u.h.efc.toNat % 2 ^ 32, none, []⟩ = chainTo s (imageOf s d) (a.toNat, s.h.grp) k (f s.h) n := by
    intro n
    rw [← List.range_eq_range', hu, hf]
    rfl
  rw [himg, himg, hbadh, hstart, hstop, hlast, hspan]
  rw [if_neg (Nat.lt_irrefl _), Nat.sub_zero, hchain, hu]
  exact retire_imageWritten hres d _ _ _ _

/-- What the hypotheses on an image and an element operand give. -/
structure NarrowOk (s : State) (d a : BitVec 5) : Prop where
  fresh : Fresh s
  width : s.h.ew = 16 ∨ s.h.ew = 32
  group : Safety.Group (a.toNat, s.h.grp)
  heldV : Held s (a.toNat, s.h.grp)
  heldD : Held s (imageOf s d)
  apart : Apart (imageOf s d) (a.toNat, s.h.grp)

theorem NarrowOk.inside {s : State} {d a : BitVec 5} (h : NarrowOk s d a) : (imageOf s d).1 + (imageOf s d).2 ≤ 32 :=
  held_inside h.heldD (imageOf_pos s d)

theorem NarrowOk.legal {s : State} {d a : BitVec 5} (h : NarrowOk s d a) :
    s.imageBad ewFloat (a.toNat, s.h.grp) (imageOf s d) = false :=
  imageBad_eq_false (Hart.ewIn_float h.width) h.group h.inside h.apart

section Narrowing

variable {s : State} {d a : BitVec 5} {k : BitVec 3} {e : BitVec 1} {chained : Bool} {f : Hart → Narrow} (hok : NarrowOk s d a)
  (hh : ∀ j < s.h.blocks, HdrOk (el s (imageOf s d).1 (imageOf s d).2 64 (9 * j)))

include hh in
/-- The block of an element below SPAN has a valid header of at most 8 planes. -/
theorem planes_le {i : Nat} (hi : i < s.h.span) : hdrP (blockHdr (chainStart s (imageOf s d)).img (i / 64)) ≤ 8 := by
  have hb : i / 64 < s.h.blocks := by unfold Hart.blocks; omega
  obtain ⟨-, -, h8, -⟩ := hh _ hb
  rw [hdrP_eq, blockHdr_eq]
  exact h8

include hok hh

/-- The image of a narrowing holds the codes of its chain (R180). -/
theorem codedAs_imageWritten (efc : Word) (fl : Raised) :
    CodedAs s (imageWritten s d (imageOf s d) (chainTo s (imageOf s d) (a.toNat, s.h.grp) k (f s.h) s.h.span).img efc fl) (imageOf s d) k
      fun i => (chainCodeAt s (imageOf s d) (a.toNat, s.h.grp) k (f s.h) i).1 := by
  intro j hj
  have hin : ∀ {x}, x < 576 * s.h.blocks → x < 32768 * (imageOf s d).2 := fun h => h.trans_le (image_holds s d)
  have hp := fun i (hi : i < s.h.span) => planes_le hh hi
  have hb : ∀ {x}, x < 576 * s.h.blocks → ((imageWritten s d (imageOf s d)
      (chainTo s (imageOf s d) (a.toNat, s.h.grp) k (f s.h) s.h.span).img efc fl).h.img (imageOf s d).1 (imageOf s d).2).testBit x =
      (chainTo s (imageOf s d) (a.toNat, s.h.grp) k (f s.h) s.h.span).img.testBit x := fun hx => by
    rw [imageWritten_img]
    exact testBit_img_setImg s.h hok.inside _ (hin hx)
  have hhdr : blockHdr (s.h.img (imageOf s d).1 (imageOf s d).2) j = el s (imageOf s d).1 (imageOf s d).2 64 (9 * j) := blockHdr_eq _ _
  refine ⟨?_, fun p hp8 i hi => ?_⟩
  · rw [el, ← blockHdr_eq, el, ← blockHdr_eq]
    refine (blockHdr_congr fun q hq => hb (by omega)).trans ?_
    exact s.h.narrowed_hdr _ _ _ _ hp le_rfl j
  · have hlt : 64 * j < s.h.span := by unfold Hart.blocks at hj; omega
    have hdiv : (64 * j + i) / 64 = j := by omega
    have hmod : (64 * j + i) % 64 = i := by omega
    dsimp only
    unfold planeBitOf
    rw [hb (by omega)]
    refine (s.h.narrowed_bit k.toNat (s.h.img a.toNat s.h.grp) (f s.h) (chainStart s (imageOf s d)) hp le_rfl (b := j) hp8 hi).trans ?_
    have hP : hdrP (blockHdr (chainStart s (imageOf s d)).img j) = el s (imageOf s d).1 (imageOf s d).2 64 (9 * j) / 2 ^ 24 % 16 := by
      rw [hdrP_eq]
      exact congrArg (· / 2 ^ 24 % 16) hhdr
    unfold Hart.codeBit
    rw [hdiv, hmod, hP]
    generalize el s (imageOf s d).1 (imageOf s d).2 64 (9 * j) / 2 ^ 24 % 16 = P
    by_cases hpP : P ≤ p
    · rw [if_pos ⟨hlt, hpP⟩, decide_eq_false (by omega), Bool.false_and]
    · rw [if_neg fun h => hpP h.2, decide_eq_true (by omega), Bool.true_and]
      by_cases hspan : 64 * j + i < s.h.span
      · rw [if_pos hspan, if_neg (show ¬s.h.span ≤ 64 * j + i by omega), Hart.active_of_lt hspan, ← hhdr]
        rfl
      · rw [if_neg hspan, if_pos (show s.h.span ≤ 64 * j + i by omega)]
        rfl

end Narrowing

end Sys2Proof.Machine
end

section
/-! PROOFS. The codes of VTOPLANE and of the chain of VNARROW by exact integers (07 R121, 10 R180). -/

namespace Sys2Proof.Machine

open Sys2Proof.Safety

/-! ### Clamped codes -/

/-- Clamping a code is what the statements say of it (R121). -/
theorem clampCode_eq (hdr : Nat) (r : Int) : clampCode hdr (r + hdrZP hdr) = clampedCode hdr r := by
  have hz : (hdrZP hdr : Int) = (hdr / 2 ^ 8 % 256 : Nat) := by rw [hdrZP_eq]
  unfold clampCode clampedCode codeRange
  rw [hz, hdrP_eq, hdrS]
  by_cases hs : hdr.testBit 28 = true <;> simp [hs]

/-- An infinity becomes the end of the range on its side. -/
theorem clampedCode_inf {hdr : Nat} (h1 : 1 ≤ hdrP hdr) (h8 : hdrP hdr ≤ 8) (neg : Bool) :
    (clampedCode hdr (if neg then -512 else 512)).1 = if neg then (codeRange hdr).1 else (codeRange hdr).2 := by
  have hz : hdrZP hdr < 256 := by rw [hdrZP_eq]; omega
  rw [← clampCode_eq]
  have hpow : 2 ^ (hdrP hdr - 1) ≤ 2 ^ 7 := Nat.pow_le_pow_right (by decide) (by omega)
  have hpow' : 2 ^ hdrP hdr ≤ 2 ^ 8 := Nat.pow_le_pow_right (by decide) h8
  unfold clampCode codeRange
  generalize hdrZP hdr = z at *
  generalize 2 ^ (hdrP hdr - 1) = A at *
  generalize 2 ^ hdrP hdr = B at *
  cases hs : hdrS hdr <;> cases neg <;> simp <;> split_ifs <;> simp <;> omega

/-! ### Scaled values -/

theorem scale_nan (b : Bool) (E : Int) : (FVal.nan b).scale E = .nan b := rfl
theorem scale_inf (b : Bool) (E : Int) : (FVal.inf b).scale E = .inf b := rfl
theorem scale_fin (b : Bool) (m : Nat) (e E : Int) : (FVal.fin b m e).scale E = .fin b m (e - E) := rfl

/-- VTOPLANE's element is its code by exact integers; the carry stays (R180). -/
theorem planeElem_eq (h : Hart) {hdr : Nat} (h1 : 1 ≤ hdrP hdr) (h8 : hdrP hdr ≤ 8) (c : Chain) (x : Nat) :
    planeElem h hdr c x = ((planeCode hdr (xrmOf h.rmode) (h.fmt.unpack x)).1, c.carry,
      (planeCode hdr (xrmOf h.rmode) (h.fmt.unpack x)).2) := by
  unfold planeElem planeCode
  dsimp only
  cases h.fmt.unpack x with
  | nan b => simp only [scale_nan, zeroCode, hdrZP_eq]
  | inf b => simp only [scale_inf, clampedCode_inf h1 h8]
  | fin b m e =>
    simp only [scale_fin, hdrE8_eq, roundInt_eq, clampCode_eq, decide_eq_true_eq, ite_not, ne_eq]

/-! ### The chain -/

/-- A pattern up to that of infinity, with a sign, is no NaN. -/
theorem unpack_le_inf (f : Fmt) (neg : Bool) {x : Nat} (hx : x ≤ f.infBits) (b : Bool) :
    f.unpack ((if neg then f.signBit else 0) + x) ≠ .nan b := by
  have hfr : ∀ y, y = (if neg then f.signBit else 0) + x → y / 2 ^ f.frac % 2 ^ f.ebits = 2 ^ f.ebits - 1 → y % 2 ^ f.frac = 0 := by
    intro y hy h
    cases f <;> cases neg <;> simp [Fmt.signBit, Fmt.frac, Fmt.ebits, Fmt.infBits] at h hx hy ⊢ <;> omega
  generalize hy : (if neg then f.signBit else 0) + x = y
  have hfr := hfr y hy.symm
  unfold Fmt.unpack
  dsimp only
  split
  · next h => simp [hfr h]
  · split <;> simp

/-- Rounding gives a sign and a pattern up to that of infinity. -/
theorem round_le_inf (f : Fmt) (r : RM) (neg : Bool) (m : Nat) (e : Int) (sticky : Bool) :
    ∃ x ≤ f.infBits, (f.round r neg m e sticky).1 = (if neg then f.signBit else 0) + x := by
  unfold Fmt.round
  dsimp only
  by_cases hm : m = 0 ∧ (!sticky) = true
  · rw [if_pos hm]
    exact ⟨0, Nat.zero_le _, rfl⟩
  · rw [if_neg hm]
    generalize (max _ _ - _ : Int).toNat * 2 ^ f.frac + _ = body
    by_cases hb : f.infBits ≤ body
    · rw [if_pos hb]
      exact ⟨_, by split <;> omega, rfl⟩
    · rw [if_neg hb]
      exact ⟨body, by omega, rfl⟩

/-- A pattern that rounding gives is no NaN. -/
theorem unpack_round_not_nan (f : Fmt) (r : RM) (neg : Bool) (m : Nat) (e : Int) (sticky b : Bool) :
    f.unpack (f.round r neg m e sticky).1 ≠ .nan b := by
  obtain ⟨x, hx, heq⟩ := round_le_inf f r neg m e sticky
  rw [heq]
  exact unpack_le_inf f neg hx b

theorem unpack_inf (f : Fmt) (b : Bool) : f.unpack (f.inf b) = .inf b := by cases f <;> cases b <;> decide
theorem unpack_nan (f : Fmt) : f.unpack f.nan = .nan false := by cases f <;> decide

/-- The carry of the chain in the scale of a block (R121, R180). -/
theorem rescaled_eq (hdr carry : Nat) (prev : Option Nat) :
    (match prev with
    | none => (carry, 0)
    | some p =>
      if p = hdrE8 hdr then (carry, 0)
      else match Fmt.f32.unpack carry with
        | .fin n m e => if m = 0 then (carry, 0) else Fmt.f32.round .rne n m (e + (p : Int) - (hdrE8 hdr : Int)) false
        | _ => (carry, 0)) = rescaled hdr carry prev := by
  unfold rescaled
  rw [hdrE8_eq]
  cases prev with
  | none => rfl
  | some p =>
    dsimp only
    cases hu : Fmt.f32.unpack carry with
    | nan => simp
    | inf => simp
    | fin n m e =>
      by_cases hp : p = hdr % 256
      · simp [hp]
      · by_cases hm : m = 0
        · simp [hm]
        · simp only [hp, hm, if_false, or_self]
          exact Fmt.round_eq _ _ _ _ hm

/-- What VNARROW makes of the value with the carry, a binary32 pattern with flags: the code, the carry behind it and the flags. -/
def linkOf (hdr : Nat) (c v : Nat × Flags) : Int × Nat × Flags :=
  match Fmt.f32.unpack v.1 with
  | .nan _ => (zeroCode hdr, 0, c.2 ||| v.2 ||| fNV)
  | .inf n => (if n then (codeRange hdr).1 else (codeRange hdr).2, 0, c.2 ||| v.2 ||| fSAT)
  | .fin n m e =>
    let r := (roundInt .rne n m e false).1
    let q := clampCode hdr (r + hdrZP hdr)
    (q.1, if r = 0 ∧ m = 0 then 0 else residual n m e r, c.2 ||| v.2 ||| q.2)

theorem chainElem_link (h : Hart) (hdr : Nat) (c : Chain) (x : Nat) :
    chainElem h hdr c x = linkOf hdr (rescaled hdr c.carry c.e8)
      (Fmt.f32.addV .rne ((h.fmt.unpack x).scale ((hdrE8 hdr : Int) - 127)) (Fmt.f32.unpack (rescaled hdr c.carry c.e8).1)) := by
  rw [← rescaled_eq]
  rfl

/-- The sum of two finite values by exact integers (R153). -/
theorem addFin_eq (f : Fmt) (n1 : Bool) (m1 : Nat) (e1 : Int) (n2 : Bool) (m2 : Nat) (e2 : Int) (hm : ¬(m1 = 0 ∧ m2 = 0)) :
    let t := (inUnits (signed n1 m1) e1 (min e1 e2)).1 + (inUnits (signed n2 m2) e2 (min e1 e2)).1
    f.addFin .rne n1 m1 e1 n2 m2 e2 = if t = 0 then (0, 0) else rndFloat f .rne t (min e1 e2) := by
  intro t
  have ht : (if n1 = true then -((m1 <<< (e1 - min e1 e2).toNat : Nat) : Int) else (m1 <<< (e1 - min e1 e2).toNat : Nat)) +
      (if n2 = true then -((m2 <<< (e2 - min e1 e2).toNat : Nat) : Int) else (m2 <<< (e2 - min e1 e2).toNat : Nat)) = t := by
    simp only [t, inUnits, signed_mul, Nat.shiftLeft_eq]
    rfl
  unfold Fmt.addFin
  rw [if_neg hm]
  dsimp only
  rw [ht]
  split
  · rfl
  · next h => rw [Fmt.round_eq f _ _ _ (Int.natAbs_ne_zero.mpr h), toSigned_signed]

/-- What a value leaves behind the integer nearest to it (R121). -/
theorem residual_eq (n : Bool) {m : Nat} (e : Int) (hm : m ≠ 0) (r : Int) :
    let u := inUnits (signed n m) e 0
    residual n m e r = if u.1 - r * u.2 = 0 then 0 else (rndFloat .f32 .rne (u.1 - r * u.2) (min e 0)).1 := by
  intro u
  have hr : signed (decide (0 < r)) r.natAbs = -r := by
    unfold signed
    by_cases h : 0 < r
    · simp [h, abs_of_pos h]
    · simp [h, abs_of_nonpos (not_lt.mp h)]
  have hleft : (inUnits (signed n m) e (min e 0)).1 + (inUnits (signed (decide (0 < r)) r.natAbs) 0 (min e 0)).1 = u.1 - r * u.2 := by
    have h1 : (e - min e 0).toNat = (e - 0).toNat := by omega
    have h2 : (0 - min e 0).toNat = (0 - e).toNat := by omega
    simp only [u, inUnits, hr, h1, h2]
    push_cast
    ring
  have hadd := addFin_eq .f32 n m e (decide (0 < r)) r.natAbs 0 fun h => hm h.1
  rw [hleft] at hadd
  have hres : residual n m e r = (Fmt.addFin .f32 .rne n m e (decide (0 < r)) r.natAbs 0).1 := rfl
  rw [hres, hadd]
  split <;> rfl

/-- A zero in integers. -/
theorem inUnits_zero (e q : Int) : (inUnits 0 e q).1 = 0 := by simp [inUnits]

theorem signed_zero (b : Bool) : signed b 0 = 0 := by cases b <;> rfl

theorem rndDiv_zero (r : RM) (d : Nat) : rndDiv r 0 d = 0 := by simp [rndDiv]

theorem linkOf_nan (hdr : Nat) (c : Nat × Flags) (g : Flags) :
    linkOf hdr c (Fmt.f32.nan, g) = (zeroCode hdr, 0, c.2 ||| g ||| fNV) := by
  rw [linkOf, unpack_nan]

theorem linkOf_inf {hdr : Nat} (h1 : 1 ≤ hdrP hdr) (h8 : hdrP hdr ≤ 8) (c : Nat × Flags) (b : Bool) :
    linkOf hdr c (Fmt.f32.inf b, 0) = ((clampedCode hdr (if b then -512 else 512)).1, 0, c.2 ||| 0 ||| fSAT) := by
  rw [linkOf, unpack_inf, clampedCode_inf h1 h8]

/-- The link of a finite value. -/
theorem linkOf_fin {hdr : Nat} (c v : Nat × Flags) {n : Bool} {m : Nat} {e : Int} (hv : Fmt.f32.unpack v.1 = .fin n m e) :
    let u := inUnits (signed n m) e 0
    let r := rndDiv .rne u.1 u.2
    let left := u.1 - r * u.2
    linkOf hdr c v = ((clampedCode hdr r).1, if left = 0 then 0 else (rndFloat .f32 .rne left (min e 0)).1,
      c.2 ||| v.2 ||| (clampedCode hdr r).2) := by
  intro u r left
  have hint : (roundInt .rne n m e false).1 = r := by
    have := congrArg Prod.fst (roundInt_eq .rne n m e 0)
    rwa [sub_zero] at this
  rw [linkOf, hv]
  dsimp only
  rw [hint, clampCode_eq]
  by_cases hm : m = 0
  · have hu : u.1 = 0 := by simp only [u, hm, signed_zero, inUnits_zero]
    have hr : r = 0 := by simp only [r, hu, rndDiv_zero]
    have hl : left = 0 := by simp only [left, hu, hr]; ring
    rw [if_pos ⟨hr, hm⟩, if_pos hl]
  · rw [if_neg fun h => hm h.2]
    exact congrArg (fun x => (_, x, _)) (residual_eq n e hm r)

/-- A link of two finite values, whose sum is rounded or zero (R121, R153). -/
theorem linkOf_addFin {hdr : Nat} (c : Nat × Flags) (n1 : Bool) (m1 : Nat) (e1 : Int) (n2 : Bool) (m2 : Nat) (e2 : Int) :
    let t := (inUnits (signed n1 m1) e1 (min e1 e2)).1 + (inUnits (signed n2 m2) e2 (min e1 e2)).1
    linkOf hdr c (Fmt.f32.addFin .rne n1 m1 e1 n2 m2 e2) = linkOf hdr c (if t = 0 then (0, 0) else rndFloat .f32 .rne t (min e1 e2)) := by
  intro t
  by_cases hm : m1 = 0 ∧ m2 = 0
  · obtain ⟨rfl, rfl⟩ := hm
    have ht : t = 0 := by simp only [t, signed_zero, inUnits_zero]; rfl
    have hzero : ∀ b, linkOf hdr c (Fmt.f32.zero b, 0) = linkOf hdr c (0, 0) := by
      intro b
      have hu : ∀ b, Fmt.f32.unpack (Fmt.f32.zero b) = .fin b 0 (-149) := by decide
      rw [linkOf_fin c (Fmt.f32.zero b, 0) (hu b), linkOf_fin c (0, 0) (hu false), signed_zero, signed_zero]
    rw [if_pos ht]
    exact hzero _
  · rw [addFin_eq .f32 n1 m1 e1 n2 m2 e2 hm]

/-- What rounding a sum gives is no NaN. -/
theorem unpack_rndFloat_not_nan (t e : Int) (b : Bool) :
    Fmt.f32.unpack (if t = 0 then (0, 0) else rndFloat .f32 .rne t e : Nat × Flags).1 ≠ .nan b := by
  by_cases ht : t = 0
  · rw [if_pos ht]
    cases b <;> decide
  · have hround := Fmt.round_eq .f32 .rne (decide (t < 0)) e (Int.natAbs_ne_zero.mpr ht)
    rw [toSigned_signed] at hround
    rw [if_neg ht, ← hround]
    exact unpack_round_not_nan _ _ _ _ _ _ _

/-- VNARROW's element is its code by exact integers, with the carry and the flags (R121, R180). -/
theorem chainElem_eq (h : Hart) {hdr : Nat} (h1 : 1 ≤ hdrP hdr) (h8 : hdrP hdr ≤ 8) (c : Chain) (x : Nat) :
    chainElem h hdr c x = chainCode hdr c.carry c.e8 (h.fmt.unpack x) := by
  have hz : zeroCode hdr = (hdr / 2 ^ 8 % 256 : Nat) := by rw [zeroCode, hdrZP_eq]
  have hnan : ∀ k g : Flags, g = 0 ∨ g = fNV → k ||| g ||| fNV = k ||| fNV := by
    rintro k g (rfl | rfl) <;> simp [BitVec.or_assoc]
  rw [chainElem_link]
  unfold chainCode
  generalize rescaled hdr c.carry c.e8 = k
  have hnv : ∀ b : Bool, (if b then fNV else 0 : Flags) = 0 ∨ (if b then fNV else 0 : Flags) = fNV := by decide
  dsimp only
  cases h.fmt.unpack x with
  | nan a =>
    refine (linkOf_nan hdr k _).trans ?_
    rw [hnan _ _ (hnv _), hz]
  | inf a =>
    cases Fmt.f32.unpack k.1 with
    | nan b =>
      refine (linkOf_nan hdr k _).trans ?_
      rw [hnan _ _ (hnv _), hz]
    | inf b =>
      by_cases hab : a = b
      · subst hab
        simp only [scale_inf, Fmt.addV, beq_self_eq_true, if_true]
        exact linkOf_inf h1 h8 k a
      · simp only [scale_inf, Fmt.addV, beq_iff_eq, hab, if_false]
        refine (linkOf_nan hdr k _).trans ?_
        rw [hnan _ _ (.inr rfl), hz]
    | fin => exact linkOf_inf h1 h8 k a
  | fin n1 m1 e1 =>
    cases Fmt.f32.unpack k.1 with
    | nan b =>
      refine (linkOf_nan hdr k _).trans ?_
      rw [hnan _ _ (hnv _), hz]
    | inf b => exact linkOf_inf h1 h8 k b
    | fin n2 m2 e2 =>
      refine (linkOf_addFin k n1 m1 (e1 - ((hdrE8 hdr : Int) - 127)) n2 m2 e2).trans ?_
      rw [hdrE8_eq]
      dsimp only
      generalize hd : min (e1 - (((hdr % 256 : Nat) : Int) - 127)) e2 = d
      generalize (inUnits (signed n1 m1) (e1 - (((hdr % 256 : Nat) : Int) - 127)) d).1 + (inUnits (signed n2 m2) e2 d).1 = t
      have hno := unpack_rndFloat_not_nan t d
      generalize (if t = 0 then (0, 0) else rndFloat .f32 .rne t d : Nat × Flags) = v at hno ⊢
      cases hu : Fmt.f32.unpack v.1 with
      | nan b => exact absurd hu (hno b)
      | inf b =>
        rw [linkOf, hu]
        dsimp only
        rw [clampedCode_inf h1 h8]
      | fin n m e => exact linkOf_fin k v hu

end Sys2Proof.Machine
end

section
/-! PROOFS. What VPLANE, VDEQ, VTOPLANE and VNARROW write (10 R176 to R180). -/

namespace Sys2Proof.Machine

open Sys2Proof.Safety

/-! ### Prefix values -/

section Reads

variable {s : State} {d a n : BitVec 5} {k : BitVec 3} {e : BitVec 1} (hF : Fresh s) (hspan : s.h.span * s.h.ew ≤ 32768 * s.h.grp)
  (hD : Usable s d) (hA : Held s (imageOf s a)) (hap : Apart (d.toNat, s.h.grp) (imageOf s a))
  (hh : ∀ j < s.h.blocks, HdrOk (el s (imageOf s a).1 (imageOf s a).2 64 (9 * j)))

/-- The prefix value of an element of an image (R119). -/
def prefixOf (s : State) (A : Regs) (n i : Nat) : Int :=
  prefixVal (s.h.img A.1 A.2) (el s A.1 A.2 64 (9 * (i / 64))) (i / 64) (i % 64) n

include hF hspan hD hA hap hh

/-- VPLANE leaves at once; its pipe writes the prefix values, clamped (R179). -/
theorem execVplane_gives (hw : s.h.ewIn ewNarrow = true) : ∃ t, execVplane d a n k e s = .next t ∧
    ElementwiseLater s t 4 s.h.ew (d.toNat, s.h.grp)
      (masked s k s.h.ew (d.toNat, s.h.grp) fun i => satTo s.h.ew (prefixOf s (imageOf s a) n.toNat i)) := by
  obtain ⟨hrun, hres, hland, hquota, hbound, hmax⟩ := hF
  have hlegal : s.imageBad ewNarrow (d.toNat, s.h.grp) (imageOf s a) = false :=
    imageBad_eq_false hw hD.1 (held_inside hA (imageOf_pos s a)) hap.symm
  have hys : (List.range s.h.span).map ((s.issuing s.h.resume (d.setWidth 64)).h.govern k.toNat s.h.ew (s.h.img d.toNat s.h.grp) fun i =>
        clampS s.h.ew (prefixVal (s.h.img (imageOf s a).1 (imageOf s a).2) (blockHdr (s.h.img (imageOf s a).1 (imageOf s a).2) (i / 64))
          (i / 64) (i % 64) n.toNat)) =
      (List.range s.h.span).map (masked s k s.h.ew (d.toNat, s.h.grp) fun i => satTo s.h.ew (prefixOf s (imageOf s a) n.toNat i)) := by
    refine List.map_congr_left fun i hi => ?_
    rw [s.govern_issuing s.h.resume _ k _ (d.toNat, s.h.grp) _ (List.mem_range.mp hi)]
    refine masked_congr ?_
    rw [clampS_eq, blockHdr_eq]
    rfl
  obtain ⟨t, ht, hlater⟩ := elementwiseLater_of_promise (dst := (d.toNat, s.h.grp)) (w := s.h.ew)
    (F := masked s k s.h.ew (d.toNat, s.h.grp) fun i => satTo s.h.ew (prefixOf s (imageOf s a) n.toNat i)) hres hmax hspan hD.1.2
    (BitVec.ofNat_toNat 64 d).symm
  refine ⟨t, Eq.trans ?_ ht, hlater⟩
  unfold execVplane
  simp only [← imageOf_eq, hlegal]
  rw [issue_ready hrun hbound (by simpa using hD.2) (by simpa using hA) (by simp) (by simp)]
  rw [State.issuing_named]
  generalize hu : s.issuing (if false = true then s.h.holdLvd.resume else s.h.resume) (d.setWidth 64) = u
  have hu : u = s.issuing s.h.resume (d.setWidth 64) := hu.symm
  have himg : ∀ r n, u.h.img r n = s.h.img r n := fun r n => by rw [hu, State.img_issuing]
  have hstart : u.h.start = 0 := start_fresh (by rw [hu]; exact hres)
  have hnone : u.h.badHeader (s.h.img (imageOf s a).1 (imageOf s a).2) = none :=
    badHeader_none fun b hb => headers_valid hh b (by rw [hu] at hb; exact hb)
  simp only [himg, hnone, hstart]
  rw [← hys, List.range_eq_range', hu]
  rfl

/-- VDEQ gives the prefix values as floating-point numbers (R179). -/
theorem execVdeq_gives (hw : widthOk s true) : ∃ t, execVdeq d a n k e s = .next t ∧ Elementwise s t 4 s.h.ew (d.toNat, s.h.grp)
      (masked s k s.h.ew (d.toNat, s.h.grp) fun i => s.h.fmt.round (frmOf s.h.rmode) (prefixOf s (imageOf s a) n.toNat i < 0)
        (prefixOf s (imageOf s a) n.toNat i).natAbs
        ((el s (imageOf s a).1 (imageOf s a).2 64 (9 * (i / 64)) % 256 : Nat) - 127) false) s.h.full := by
  have hlegal : s.imageBad ewFloat (d.toNat, s.h.grp) (imageOf s a) = false :=
    imageBad_eq_false (Hart.ewIn_float hw) hD.1 (held_inside hA (imageOf_pos s a)) hap.symm
  unfold execVdeq
  simp only [← imageOf_eq, hlegal]
  refine issue_elementwise hF rfl rfl (by simpa using hD.2) (by simpa using hA) (by simpa using hA) hspan hD.1.2
    (f := fun rs l => (s.issuing rs l).h.govern k.toNat s.h.ew (s.h.img d.toNat s.h.grp) fun i =>
      let hdr := blockHdr (s.h.img (imageOf s a).1 (imageOf s a).2) (i / 64)
      let u := prefixVal (s.h.img (imageOf s a).1 (imageOf s a).2) hdr (i / 64) (i % 64) n.toNat
      s.h.fmt.round (frmOf s.h.rmode) (u < 0) u.natAbs ((hdrE8 hdr : Int) - 127) false)
    (fun rs l => ?_) fun rs l i hi => ?_
  · have hnone : (s.issuing rs l).h.badHeader (s.h.img (imageOf s a).1 (imageOf s a).2) = none :=
      badHeader_none fun b hb => headers_valid hh b hb
    simp only [State.img_issuing]
    rw [hnone]
    rfl
  · refine (s.govern_issuing rs l k _ (d.toNat, s.h.grp) _ hi).trans (masked_congr ?_)
    dsimp only
    rw [blockHdr_eq]
    rfl

end Reads

/-! ### Codes written -/

section Writes

variable {s : State} {d a : BitVec 5} {k : BitVec 3} {e : BitVec 1} (hok : NarrowOk s d a)
  (hh : ∀ j < s.h.blocks, HdrOk (el s (imageOf s d).1 (imageOf s d).2 64 (9 * j)))

/-- The header of the block of an element, and the element. -/
def hdrAt (s : State) (D : Regs) (i : Nat) : Nat := el s D.1 D.2 64 (9 * (i / 64))

theorem chainStart_hdr (s : State) (D : Regs) (i : Nat) : blockHdr (chainStart s D).img (i / 64) = hdrAt s D i := blockHdr_eq _ _

include hh in
/-- The planes of a covered header. -/
theorem hdrAt_planes {i : Nat} (hi : i < s.h.span) : 1 ≤ hdrP (hdrAt s (imageOf s d) i) ∧ hdrP (hdrAt s (imageOf s d) i) ≤ 8 := by
  have hb : i / 64 < s.h.blocks := by unfold Hart.blocks; omega
  obtain ⟨-, h1, h8, -⟩ := hh _ hb
  rw [hdrP_eq]
  exact ⟨h1, h8⟩

include hok hh

/-- What VTOPLANE and VNARROW have in common: the codes of their chain in the image, its flags, and all else as it was (R180). -/
theorem State.narrowing_gives {chained : Bool} {f : Hart → Narrow} (hf : ∀ l, f (s.issuing s.h.resume l).h = f s.h) :
    let D := imageOf s d
    let V : Regs := (a.toNat, s.h.grp)
    let r := chainCodeAt s D V k (f s.h)
    let efc : Word := if chained then BitVec.ofNat 64 (chainTo s D V k (f s.h) s.h.span).carry else s.h.efc
    ∃ t, s.narrowing d a k e chained f = .next t ∧ CodedAs s t D k (fun i => (r i).1) ∧ ImageFrame s t d D efc ∧
      FlagsAfter s t s.h.span fun i => if isActive s k i then (r i).2.2 else 0 := by
  intro D V r efc
  have hp := fun i (hi : i < s.h.span) => planes_le hh hi
  refine ⟨_, State.narrowing_eq hok.fresh hf hok.legal hok.heldV hok.heldD (headers_valid hh), codedAs_imageWritten hok hh _ _,
    imageWritten_frame _ _ _ _ _, ?_⟩
  refine flagsAfter_congr (imageWritten_flags hok.fresh
    (s.h.narrowed_flags k.toNat (s.h.img V.1 V.2) (f s.h) (chainStart s D) hp rfl le_rfl)) fun i hi => ?_
  rw [Hart.active_of_lt hi]
  rfl

omit hok hh in
/-- The codes of a narrowing below SPAN are those of the statements. -/
theorem CodedAs.congr {t : State} {D : Regs} {c c' : Nat → Int} (h : CodedAs s t D k c) (hc : ∀ i < s.h.span, c i = c' i) :
    CodedAs s t D k c' := by
  refine fun j hj => ⟨(h j hj).1, fun p hp i hi => ((h j hj).2 p hp i hi).trans ?_⟩
  by_cases hs : s.h.span ≤ 64 * j + i
  · simp only [if_pos hs]
  · simp only [if_neg hs, hc _ (not_le.mp hs)]

omit hok hh in
/-- An element of a narrowing is made from its header, the chain before it and its value. -/
theorem chainCodeAt_eq {D V : Regs} {f : Narrow} {i : Nat} (hi : i < s.h.span) :
    chainCodeAt s D V k f i = f (hdrAt s D i) (chainTo s D V k f i) (el s V.1 V.2 s.h.ew i) := by
  unfold chainCodeAt Hart.narrowCode
  rw [chainStart_hdr, Hart.readElem, if_pos hi]
  rfl

/-- VTOPLANE writes the rounded codes (R180). -/
theorem execVtoplane_gives :
    let r (i : Nat) := planeCode (hdrAt s (imageOf s d) i) (xrmOf s.h.rmode) (s.h.fmt.unpack (el s a.toNat s.h.grp s.h.ew i))
    ∃ t, execVtoplane d a k e s = .next t ∧ CodedAs s t (imageOf s d) k (fun i => (r i).1) ∧ ImageFrame s t d (imageOf s d) s.h.efc ∧
      FlagsAfter s t s.h.span fun i => if isActive s k i then (r i).2 else 0 := by
  intro r
  have hcode : ∀ i < s.h.span, ∃ c, chainCodeAt s (imageOf s d) (a.toNat, s.h.grp) k (planeElem s.h) i = ((r i).1, c, (r i).2) := by
    intro i hi
    obtain ⟨h1, h8⟩ := hdrAt_planes hh hi
    exact ⟨_, (chainCodeAt_eq hi).trans (planeElem_eq s.h h1 h8 _ _)⟩
  obtain ⟨t, ht, hcoded, hframe, hflags⟩ := State.narrowing_gives (k := k) (e := e) (chained := false) (f := planeElem) hok hh fun _ => rfl
  refine ⟨t, ht, hcoded.congr fun i hi => ?_, hframe, flagsAfter_congr hflags fun i hi => ?_⟩
  · obtain ⟨c, hc⟩ := hcode i hi
    rw [hc]
  · obtain ⟨c, hc⟩ := hcode i hi
    rw [hc]

omit hok hh

/-- The E8 of the block of the last active element before i. -/
def lastScale (s : State) (D : Regs) (k : BitVec 3) (i : Nat) : Option Nat :=
  ((List.range i).reverse.find? fun j => isActive s k j).map fun j => el s D.1 D.2 64 (9 * (j / 64)) % 256

/-- The carry of VNARROW before element i, by the codes of the statements (R121, R180). -/
def carryTo (s : State) (D V : Regs) (k : BitVec 3) : Nat → Nat
  | 0 => s.h.efc.toNat % 2 ^ 32
  | i + 1 => if isActive s k i then
      (chainCode (hdrAt s D i) (carryTo s D V k i) (lastScale s D k i) (s.h.fmt.unpack (el s V.1 V.2 s.h.ew i))).2.1
    else carryTo s D V k i

include hh

/-- The scale that the chain of a narrowing keeps. -/
theorem chainTo_e8 {V : Regs} {f : Narrow} {i : Nat} (hi : i ≤ s.h.span) :
    (chainTo s (imageOf s d) V k f i).e8 = lastScale s (imageOf s d) k i := by
  refine (s.h.narrowed_e8 k.toNat _ f (chainStart s (imageOf s d)) (fun j hj => planes_le hh hj) rfl hi).trans ?_
  have hfind : (List.range i).reverse.find? (fun j => s.h.active k.toNat j) = (List.range i).reverse.find? fun j => isActive s k j :=
    List.find?_congr fun j hj => Hart.active_of_lt (by simp at hj; omega)
  rw [hfind]
  refine congrArg (Option.map · _) (funext fun j => ?_)
  rw [hdrE8_eq, chainStart_hdr]
  rfl

/-- The link of the chain at element i. -/
theorem chainCodeAt_chain {i : Nat} (hi : i < s.h.span) :
    chainCodeAt s (imageOf s d) (a.toNat, s.h.grp) k (chainElem s.h) i =
      chainCode (hdrAt s (imageOf s d) i) (chainTo s (imageOf s d) (a.toNat, s.h.grp) k (chainElem s.h) i).carry
        (lastScale s (imageOf s d) k i) (s.h.fmt.unpack (el s a.toNat s.h.grp s.h.ew i)) := by
  obtain ⟨h1, h8⟩ := hdrAt_planes hh hi
  rw [chainCodeAt_eq hi, chainElem_eq s.h h1 h8, chainTo_e8 hh (Nat.le_of_lt hi)]

/-- The carry of the chain is that of the statements. -/
theorem chainTo_carry {i : Nat} (hi : i ≤ s.h.span) :
    (chainTo s (imageOf s d) (a.toNat, s.h.grp) k (chainElem s.h) i).carry = carryTo s (imageOf s d) (a.toNat, s.h.grp) k i := by
  induction i with
  | zero => rfl
  | succ i ih =>
    have hlink := chainCodeAt_chain (a := a) (k := k) hh hi
    rw [ih (by omega)] at hlink
    refine (s.h.narrowed_carry k.toNat _ (chainElem s.h) (chainStart s (imageOf s d)) (fun j hj => planes_le hh hj) hi).trans ?_
    rw [Hart.active_of_lt hi, carryTo, ← hlink, ← ih (by omega)]
    rfl

include hok

/-- VNARROW writes the codes of the chain and carries EFC on (R121, R180). -/
theorem execVnarrow_gives :
    let carry := carryTo s (imageOf s d) (a.toNat, s.h.grp) k
    let r (i : Nat) := chainCode (hdrAt s (imageOf s d) i) (carry i) (lastScale s (imageOf s d) k i)
      (s.h.fmt.unpack (el s a.toNat s.h.grp s.h.ew i))
    ∃ t, execVnarrow d a k e s = .next t ∧ CodedAs s t (imageOf s d) k (fun i => (r i).1) ∧
      ImageFrame s t d (imageOf s d) (BitVec.ofNat 64 (carry s.h.span)) ∧
      FlagsAfter s t s.h.span fun i => if isActive s k i then (r i).2.2 else 0 := by
  intro carry r
  have hcode : ∀ i < s.h.span, chainCodeAt s (imageOf s d) (a.toNat, s.h.grp) k (chainElem s.h) i = r i := by
    intro i hi
    rw [chainCodeAt_chain hh hi, chainTo_carry hh (Nat.le_of_lt hi)]
  obtain ⟨t, ht, hcoded, hframe, hflags⟩ := State.narrowing_gives (k := k) (e := e) (chained := true) (f := chainElem) hok hh fun _ => rfl
  refine ⟨t, ht, hcoded.congr fun i hi => by rw [hcode i hi], ?_, flagsAfter_congr hflags fun i hi => by rw [hcode i hi]⟩
  rw [if_pos rfl, chainTo_carry hh le_rfl] at hframe
  exact hframe

end Writes

end Sys2Proof.Machine
end

section
/-! PROOFS. The scales that VQSCALE writes (10 R181). -/

namespace Sys2Proof.Machine

open Sys2Proof.Safety

/-! ### Order of scaled bounds -/

/-- A number of units in smaller units. -/
theorem shiftLeft_units (m : Nat) {e k l : Int} (hk : k ≤ e) (hl : l ≤ k) : m <<< (e - l).toNat = m <<< (e - k).toNat * 2 ^ (k - l).toNat := by
  rw [Nat.shiftLeft_eq, Nat.shiftLeft_eq, Nat.mul_assoc, ← pow_add]
  congr 2
  omega

/-- A value not above a bound is not above the bound in a larger unit. -/
theorem not_lt_of_le_unit {B : Nat} {x y : Int} {v : FVal} (hxy : x ≤ y) (h : (FVal.fin false B x).lt v = false) :
    (FVal.fin false B y).lt v = false := by
  cases v with
  | nan b => rfl
  | inf b => exact h
  | fin b n d =>
    simp only [FVal.lt, decide_eq_false_iff_not, not_lt, Bool.false_eq_true, if_false] at h ⊢
    have hB : B <<< (x - min x d).toNat ≤ B <<< (y - min x d).toNat := by
      rw [Nat.shiftLeft_eq, Nat.shiftLeft_eq]
      exact Nat.mul_le_mul_left _ (Nat.pow_le_pow_right (by decide) (by omega))
    rw [shiftLeft_units B (min_le_left y d) (show min x d ≤ min y d by omega)] at hB
    rw [shiftLeft_units n (min_le_right y d) (show min x d ≤ min y d by omega)] at h
    generalize B <<< (y - min y d).toNat = B' at *
    generalize n <<< (d - min y d).toNat = n' at *
    have hpos : (0 : Int) < (2 ^ (min y d - min x d).toNat : Nat) := by exact_mod_cast Nat.two_pow_pos _
    refine le_of_mul_le_mul_right (le_trans ?_ (le_trans h (by exact_mod_cast hB))) hpos
    cases b <;> simp

/-! ### Terms of a block -/

section Scale

variable (s : State) (k : BitVec 3) (T : Nat) (V : Regs)

/-- The bound of VQSCALE's template (R181). -/
def scaleBound : Nat := max 1 (if T.testBit 28 then 2 ^ (T / 2 ^ 24 % 16 - 1) - 1 else 2 ^ (T / 2 ^ 24 % 16) - 1 - T / 2 ^ 8 % 256)

/-- The term of an element (R181). -/
def termOf (i : Nat) : Option FVal := scaleTerm (T.testBit 28) (s.h.fmt.unpack (el s V.1 V.2 s.h.ew i))

/-- Every term of block j is at most the bound under E8 = `ex` (R181). -/
def ScaleFits (j ex : Nat) : Prop := ∀ i, 64 * j ≤ i → i < 64 * (j + 1) → i < s.h.span → isActive s k i = true →
  ∀ v, termOf s T V i = some v → (FVal.fin false (scaleBound T) ((ex : Int) - 127)).lt v = false

/-- The term of an active element is above the bound under every E8. -/
def ScaleOver (i : Nat) : Prop := isActive s k i = true ∧ ∃ v, termOf s T V i = some v ∧ (FVal.fin false (scaleBound T) 127).lt v = true

/-- The header that VQSCALE makes of E8 for block j (R181). -/
def scaledHdr (j ex : Nat) : Nat :=
  ex + T / 2 ^ 8 % 256 * 2 ^ 8 + (T / 2 ^ 16 % 256 + j) % 256 * 2 ^ 16 + T / 2 ^ 24 % 2 ^ 6 * 2 ^ 24

/-- The active elements of a block that have a term, with it, as VQSCALE lists them. -/
def termsOf (j : Nat) : List (Nat × FVal) :=
  ((List.range' (64 * j) 64).filter fun i => s.h.active k.toNat i).filterMap fun i =>
    (scaleTerm (hdrS T) (s.h.fmt.unpack (s.h.readElem s.h.ew (s.h.img V.1 V.2) i))).map fun v => (i, v)

/-- An element is one that VQSCALE looks at. -/
theorem active_iff {i : Nat} : s.h.active k.toNat i = true ↔ i < s.h.span ∧ isActive s k i = true := by
  by_cases hi : i < s.h.span
  · rw [Hart.active_of_lt hi]
    exact (and_iff_right hi).symm
  · simp [Hart.active, hi]

theorem termOf_eq {i : Nat} (hi : i < s.h.span) :
    scaleTerm (hdrS T) (s.h.fmt.unpack (s.h.readElem s.h.ew (s.h.img V.1 V.2) i)) = termOf s T V i := by
  rw [Hart.readElem, if_pos hi]
  rfl

theorem mem_termsOf {j : Nat} {x : Nat × FVal} : x ∈ termsOf s k T V j ↔
    (64 * j ≤ x.1 ∧ x.1 < 64 * (j + 1)) ∧ (x.1 < s.h.span ∧ isActive s k x.1 = true) ∧ termOf s T V x.1 = some x.2 := by
  unfold termsOf
  rw [List.mem_filterMap]
  constructor
  · rintro ⟨i, hi, hx⟩
    rw [List.mem_filter, List.mem_range'_1, active_iff] at hi
    obtain ⟨hr, hact⟩ := hi
    rw [termOf_eq s T V hact.1] at hx
    obtain ⟨v, hv, rfl⟩ := Option.map_eq_some_iff.mp hx
    exact ⟨⟨hr.1, by dsimp only; omega⟩, hact, hv⟩
  · rintro ⟨hr, hact, hv⟩
    refine ⟨x.1, ?_, ?_⟩
    · rw [List.mem_filter, List.mem_range'_1, active_iff]
      exact ⟨⟨hr.1, by omega⟩, hact⟩
    · rw [termOf_eq s T V hact.1, hv]
      rfl

/-- VQSCALE's test of a scale. -/
theorem fits_iff {j ex : Nat} :
    ((termsOf s k T V j).all fun t => !(FVal.fin false (scaleBound T) ((ex : Int) - 127)).lt t.2) = true ↔ ScaleFits s k T V j ex := by
  rw [List.all_eq_true]
  constructor
  · intro h i hlo hhi hi hact v hv
    have := h (i, v) ((mem_termsOf s k T V).mpr ⟨⟨hlo, hhi⟩, ⟨hi, hact⟩, hv⟩)
    simpa using this
  · intro h x hx
    obtain ⟨⟨hlo, hhi⟩, ⟨hi, hact⟩, hv⟩ := (mem_termsOf s k T V).mp hx
    simp [h _ hlo hhi hi hact _ hv]

/-- A scale that fits leaves no term above the bound. -/
theorem ScaleFits.not_over {s k T V} {j ex i : Nat} (h : ScaleFits s k T V j ex) (hex : ex ≤ 254) (hlo : 64 * j ≤ i)
    (hhi : i < 64 * (j + 1)) (hi : i < s.h.span) : ¬ScaleOver s k T V i := by
  rintro ⟨hact, v, hv, hlt⟩
  have := not_lt_of_le_unit (y := 127) (by omega) (h i hlo hhi hi hact v hv)
  rw [this] at hlt
  exact absurd hlt (by decide)

/-- VQSCALE's search for an element whose term is above the bound. -/
def overAt (i : Nat) : Bool := decide (s.h.active k.toNat i = true ∧
  (((scaleTerm (hdrS T) (s.h.fmt.unpack (s.h.readElem s.h.ew (s.h.img V.1 V.2) i))).map fun v => (i, v)).any
    fun t => (FVal.fin false (scaleBound T) 127).lt t.2) = true)

theorem overAt_iff {i : Nat} : overAt s k T V i = true ↔ i < s.h.span ∧ ScaleOver s k T V i := by
  rw [overAt, decide_eq_true_eq, active_iff]
  constructor
  · rintro ⟨⟨hi, hact⟩, hany⟩
    rw [termOf_eq s T V hi] at hany
    cases hv : termOf s T V i with
    | none => simp [hv] at hany
    | some v => exact ⟨hi, hact, v, hv, by simpa [hv] using hany⟩
  · rintro ⟨hi, hact, v, hv, hlt⟩
    refine ⟨⟨hi, hact⟩, ?_⟩
    rw [termOf_eq s T V hi, hv]
    simpa using hlt

/-- Where no scale fits there is a lowest element above the bound, which VQSCALE finds. -/
theorem find_over {j : Nat} (h : ¬ScaleFits s k T V j 254) :
    ∃ i, (((termsOf s k T V j).find? fun t => (FVal.fin false (scaleBound T) 127).lt t.2).map (·.1)) = some i ∧
      64 * j ≤ i ∧ i < 64 * (j + 1) ∧ i < s.h.span ∧ ScaleOver s k T V i ∧
      ∀ y, 64 * j ≤ y → y < i → ¬ScaleOver s k T V y := by
  have hex : ∃ i, 64 * j ≤ i ∧ i < 64 * (j + 1) ∧ i < s.h.span ∧ ScaleOver s k T V i := by
    unfold ScaleFits at h
    push Not at h
    obtain ⟨i, hlo, hhi, hi, hact, v, hv, hlt⟩ := h
    exact ⟨i, hlo, hhi, hi, hact, v, hv, by simpa using hlt⟩
  have hfind : (termsOf s k T V j).find? (fun t => (FVal.fin false (scaleBound T) 127).lt t.2) =
      ((List.range' (64 * j) 64).find? (overAt s k T V)).bind fun i =>
        (scaleTerm (hdrS T) (s.h.fmt.unpack (s.h.readElem s.h.ew (s.h.img V.1 V.2) i))).map fun v => (i, v) := by
    unfold termsOf
    rw [List.find?_filterMap, List.find?_filter]
    rfl
  rw [hfind]
  cases hf : (List.range' (64 * j) 64).find? (overAt s k T V) with
  | none =>
    obtain ⟨i, hlo, hhi, hi, hover⟩ := hex
    rw [List.find?_eq_none] at hf
    exact absurd ((overAt_iff s k T V).mpr ⟨hi, hover⟩) (hf i (List.mem_range'_1.mpr ⟨hlo, by omega⟩))
  | some i =>
    obtain ⟨hp, hmem, hleast⟩ := List.find?_range'_eq_some.mp hf
    rw [List.mem_range'_1] at hmem
    obtain ⟨hi, hover⟩ := (overAt_iff s k T V).mp hp
    obtain ⟨-, v, hv, -⟩ := id hover
    refine ⟨i, ?_, hmem.1, by omega, hi, hover, fun y hy hyi ho => ?_⟩
    · rw [Option.bind_some, termOf_eq s T V hi, hv]
      rfl
    · have := hleast y hy hyi
      simp [(overAt_iff s k T V).mpr ⟨by omega, ho⟩] at this

/-- A block has an active element. -/
theorem blockOn_iff {j : Nat} : blockOn s k j = true ↔ ∃ i, (64 * j ≤ i ∧ i < 64 * (j + 1)) ∧ i < s.h.span ∧ isActive s k i = true := by
  unfold blockOn actives
  rw [List.any_eq_true]
  constructor
  · rintro ⟨i, hi, hb⟩
    rw [List.mem_filter, List.mem_range] at hi
    rw [beq_iff_eq] at hb
    exact ⟨i, by omega, hi⟩
  · rintro ⟨i, hb, hi⟩
    refine ⟨i, ?_, ?_⟩
    · rw [List.mem_filter, List.mem_range]
      exact hi
    · rw [beq_iff_eq]
      omega

/-- The fields of the header that VQSCALE writes. -/
theorem scaledHdr_eq (j ex : Nat) :
    ex + (bits T 8 8 * 2 ^ 8 + (hdrTag T + j) % 256 * 2 ^ 16 + bits T 24 6 * 2 ^ 24) = scaledHdr T j ex := by
  simp only [scaledHdr, hdrTag, bits, Nat.shiftRight_eq_div_pow]
  omega

theorem scaledHdr_lt {j ex : Nat} (hex : ex ≤ 254) : scaledHdr T j ex < 2 ^ 64 := by
  unfold scaledHdr
  omega

/-- What VQSCALE makes of a block without an active element: nothing. -/
theorem scaleBlock_off {j : Nat} (h : blockOn s k j = false) : s.h.scaleBlock k.toNat (s.h.img V.1 V.2) T j = none := by
  have hnil : (List.range' (64 * j) 64).filter (fun i => s.h.active k.toNat i) = [] := by
    rw [List.filter_eq_nil_iff]
    intro i hi hact
    rw [List.mem_range'_1] at hi
    have hon : blockOn s k j = true := (blockOn_iff s k).mpr ⟨i, by omega, (active_iff s k).mp hact⟩
    rw [h] at hon
    exact absurd hon (by decide)
  unfold Hart.scaleBlock
  rw [hnil]
  rfl

/-- What VQSCALE makes of a block with an active element: the least scale that fits, or 254 and SAT (R181). -/
theorem scaleBlock_on {j : Nat} (h : blockOn s k j = true) : ∃ ex fl,
    s.h.scaleBlock k.toNat (s.h.img V.1 V.2) T j = some (scaledHdr T j ex, fl) ∧ 1 ≤ ex ∧ ex ≤ 254 ∧
      (∀ y, 1 ≤ y → y < ex → ¬ScaleFits s k T V j y) ∧
      ((fl = [] ∧ ScaleFits s k T V j ex) ∨ (ex = 254 ∧ ∃ i, fl = [(i, fSAT)] ∧ 64 * j ≤ i ∧ i < s.h.span ∧ ScaleOver s k T V i ∧
        ∀ y, 64 * j ≤ y → y < i → ¬ScaleOver s k T V y)) := by
  have hne : (List.range' (64 * j) 64).filter (fun i => s.h.active k.toNat i) ≠ [] := by
    obtain ⟨i, hr, hi⟩ := (blockOn_iff s k).mp h
    refine List.ne_nil_of_mem (List.mem_filter.mpr ⟨List.mem_range'_1.mpr ?_, (active_iff s k).mpr hi⟩)
    omega
  have hB : max 1 (if hdrS T then 2 ^ (hdrP T - 1) - 1 else 2 ^ hdrP T - 1 - hdrZP T) = scaleBound T := by
    rw [hdrP_eq, hdrZP_eq]
    rfl
  have hblock : s.h.scaleBlock k.toNat (s.h.img V.1 V.2) T j =
      match (List.range' 1 254).find? fun ex : Nat => (termsOf s k T V j).all fun t =>
          !(FVal.fin false (scaleBound T) ((ex : Int) - 127)).lt t.2 with
      | some ex => some (scaledHdr T j ex, [])
      | none => some (scaledHdr T j 254,
          [((((termsOf s k T V j).find? fun t => (FVal.fin false (scaleBound T) 127).lt t.2).map (·.1)).getD 0, fSAT)]) := by
    unfold Hart.scaleBlock
    dsimp only
    rw [if_neg hne, hB]
    simp only [scaledHdr_eq]
    rfl
  rw [hblock]
  cases hf : (List.range' 1 254).find? fun ex : Nat => (termsOf s k T V j).all fun t =>
      !(FVal.fin false (scaleBound T) ((ex : Int) - 127)).lt t.2 with
  | some ex =>
    obtain ⟨hp, hmem, hleast⟩ := List.find?_range'_eq_some.mp hf
    rw [List.mem_range'_1] at hmem
    refine ⟨ex, [], rfl, hmem.1, by omega, fun y hy hlt hfit => ?_, .inl ⟨rfl, (fits_iff s k T V).mp hp⟩⟩
    have := hleast y hy hlt
    rw [(fits_iff s k T V).mpr hfit] at this
    exact absurd this (by decide)
  | none =>
    rw [List.find?_eq_none] at hf
    have hno : ∀ y, 1 ≤ y → y ≤ 254 → ¬ScaleFits s k T V j y := fun y h1 h2 hfit =>
      hf y (List.mem_range'_1.mpr (by omega)) ((fits_iff s k T V).mpr hfit)
    obtain ⟨i, hi, hlo, -, hlt, hover, hleast⟩ := find_over s k T V (hno 254 (by decide) le_rfl)
    refine ⟨254, _, rfl, by decide, le_rfl, fun y h1 h2 => hno y h1 (by omega), .inr ⟨rfl, i, ?_, hlo, hlt, hover, hleast⟩⟩
    rw [hi]
    rfl

end Scale

end Sys2Proof.Machine
end

section
/-! PROOFS. VQSCALE over the blocks of its image, and what the instructions on planes give (10 R176 to R181). -/

namespace Sys2Proof.Machine

open Sys2Proof.Safety

section Fold

variable (s : State) (k : BitVec 3) (T : Nat) (V : Regs) (img : Nat)

/-- What VQSCALE makes of block j. -/
def scaleAt (j : Nat) : Option (Nat × Raised) := s.h.scaleBlock k.toNat (s.h.img V.1 V.2) T j

/-- The image and the flags of VQSCALE after the blocks below n. -/
def scaleTo (n : Nat) : Nat × Raised := (List.range n).foldl (fun acc b =>
  match scaleAt s k T V b with
  | none => acc
  | some (hdr, fl) => (putHdr acc.1 b hdr, fl ++ acc.2)) (img, [])

theorem scaleTo_succ (n : Nat) : scaleTo s k T V img (n + 1) = match scaleAt s k T V n with
    | none => scaleTo s k T V img n
    | some x => (putHdr (scaleTo s k T V img n).1 n x.1, x.2 ++ (scaleTo s k T V img n).2) := by
  unfold scaleTo
  rw [List.range_succ, List.foldl_append, List.foldl_cons, List.foldl_nil]
  cases scaleAt s k T V n <;> rfl

/-- The words of an image with a new header. -/
theorem elem_putHdr (img b hdr x : Nat) : elem 64 (putHdr img b hdr) x = if x = 9 * b then hdr % 2 ^ 64 else elem 64 img x := by
  unfold putHdr
  rw [elem_putElems]
  by_cases hx : x = 9 * b
  · simp [hx]
  · rw [if_neg (by simp only [List.length_singleton]; omega), if_neg hx]

/-- The words of the image after VQSCALE: a new header where it makes one, the others as before. -/
theorem elem_scaleTo {q : Nat} (hq : q < 9) (n j : Nat) : elem 64 (scaleTo s k T V img n).1 (9 * j + q) =
    if q = 0 ∧ j < n then ((scaleAt s k T V j).map fun x => x.1 % 2 ^ 64).getD (elem 64 img (9 * j + q)) else elem 64 img (9 * j + q) := by
  induction n with
  | zero => simp [scaleTo]
  | succ n ih =>
    rw [scaleTo_succ]
    by_cases hj : q = 0 ∧ j = n
    · obtain ⟨rfl, rfl⟩ := hj
      rw [if_pos ⟨rfl, Nat.lt_succ_self j⟩]
      rw [if_neg (by omega)] at ih
      cases scaleAt s k T V j with
      | none => exact ih
      | some x => exact (elem_putHdr _ _ _ _).trans (if_pos rfl)
    · have hkeep : elem 64 (scaleTo s k T V img n).1 (9 * j + q) = if q = 0 ∧ j < n + 1 then
          ((scaleAt s k T V j).map fun x => x.1 % 2 ^ 64).getD (elem 64 img (9 * j + q)) else elem 64 img (9 * j + q) := by
        rw [ih]
        exact if_congr (by omega) rfl rfl
      cases scaleAt s k T V n with
      | none => exact hkeep
      | some x => exact ((elem_putHdr _ _ _ _).trans (if_neg (by omega))).trans hkeep

/-- The flags of VQSCALE are those of its blocks. -/
theorem mem_scaleTo {n : Nat} {f : Nat × Flags} :
    f ∈ (scaleTo s k T V img n).2 ↔ ∃ j < n, ∃ x, scaleAt s k T V j = some x ∧ f ∈ x.2 := by
  induction n with
  | zero => simp [scaleTo]
  | succ n ih =>
    rw [scaleTo_succ]
    have hsplit : (∃ j < n + 1, ∃ x, scaleAt s k T V j = some x ∧ f ∈ x.2) ↔
        (∃ x, scaleAt s k T V n = some x ∧ f ∈ x.2) ∨ ∃ j < n, ∃ x, scaleAt s k T V j = some x ∧ f ∈ x.2 := by
      constructor
      · rintro ⟨j, hj, hx⟩
        by_cases hjn : j = n
        · exact .inl (hjn ▸ hx)
        · exact .inr ⟨j, by omega, hx⟩
      · rintro (hx | ⟨j, hj, hx⟩)
        · exact ⟨n, Nat.lt_succ_self n, hx⟩
        · exact ⟨j, by omega, hx⟩
    rw [hsplit, ← ih]
    cases scaleAt s k T V n with
    | none => simp
    | some x => simp

open scoped Classical in
/-- VQSCALE raises SAT at the lowest active element whose term is above the bound under every E8. -/
theorem raisesAs_scaleTo : RaisesAs (scaleTo s k T V img s.h.blocks).2 s.h.span fun i => if ScaleOver s k T V i then fSAT else 0 where
  of_mem f hf c hc := by
    obtain ⟨j, -, x, hx, hfx⟩ := (mem_scaleTo s k T V img).mp hf
    cases hon : blockOn s k j with
    | false =>
      have hnone : scaleAt s k T V j = none := scaleBlock_off s k T V hon
      rw [hnone] at hx
      exact absurd hx (by simp)
    | true =>
      obtain ⟨ex, fl, hat, -, -, -, hcase⟩ := scaleBlock_on s k T V hon
      obtain rfl : (scaledHdr T j ex, fl) = x := Option.some.inj (hat.symm.trans hx)
      rcases hcase with ⟨rfl, -⟩ | ⟨-, i, rfl, -, hi, hover, -⟩
      · exact absurd hfx (by simp)
      · obtain rfl := List.mem_singleton.mp hfx
        exact ⟨hi, by rw [if_pos hover]; exact hc⟩
  least c i hi hc hleast := by
    have hover : ScaleOver s k T V i := by
      by_contra h
      simp [h] at hc
    rw [if_pos hover] at hc
    have hlow : ∀ y < i, ¬ScaleOver s k T V y := fun y hy ho => by
      have := hleast y hy
      rw [if_pos ho, hc] at this
      exact absurd this (by decide)
    have hon : blockOn s k (i / 64) = true := (blockOn_iff s k).mpr ⟨i, by omega, hi, hover.1⟩
    obtain ⟨ex, fl, hat, -, hex, -, hcase⟩ := scaleBlock_on s k T V hon
    rcases hcase with ⟨-, hfit⟩ | ⟨-, y, rfl, hy, -, hyo, hyl⟩
    · exact absurd hover (hfit.not_over hex (by omega) (by omega) hi)
    · have hyi : y = i := by
        rcases Nat.lt_trichotomy y i with h | h | h
        · exact absurd hyo (hlow y h)
        · exact h
        · exact absurd hover (hyl i (by omega) h)
      refine ⟨(i, fSAT), (mem_scaleTo s k T V img).mpr ⟨i / 64, by unfold Hart.blocks; omega, _, hat, ?_⟩, rfl, hc⟩
      rw [hyi]
      exact List.mem_singleton_self _

end Fold

/-- A word of an image that has been written. -/
theorem el_imageWritten {s : State} {d : BitVec 5} {D : Regs} (hD : D.1 + D.2 ≤ 32) {img x : Nat} (efc : Word) (fl : Raised)
    (hx : 64 * (x + 1) ≤ 32768 * D.2) : el (imageWritten s d D img efc fl) D.1 D.2 64 x = elem 64 img x := by
  apply Nat.eq_of_testBit_eq
  intro q
  rw [el, testBit_elem, testBit_elem, imageWritten_img]
  by_cases hq : q < 64
  · rw [testBit_img_setImg s.h hD img (by omega)]
  · simp [hq]

/-- A flag that an instruction raises is set in FST. -/
theorem imageWritten_class {s : State} {d : BitVec 5} {D : Regs} (img : Nat) (efc : Word) (fl : Raised) {x : Nat × Flags} (hx : x ∈ fl)
    {c : Nat} (hc : x.2.getLsbD c = true) (h64 : c < 64) : (imageWritten s d D img efc fl).h.fst.getLsbD c = true := by
  have hclass : fl.classes.getLsbD c = true := (getLsbD_classes fl c).mpr ⟨x, hx, hc⟩
  unfold imageWritten State.adv
  simp only [Hart.raise, BitVec.getLsbD_or, BitVec.getLsbD_setWidth, hclass, h64, decide_true, Bool.and_self, Bool.or_true]

/-- The template of VQSCALE passes when its fields but E8 do (R181). -/
theorem template_ok {T : Nat} (h : HdrOk (T / 256 * 256 + 1)) : hdrFieldsOk T = true := by
  obtain ⟨h30, h1, h8, hz, -, -⟩ := h
  have h29 : (T / 256 * 256 + 1).testBit 29 = T.testBit 29 := by
    rw [Nat.testBit_eq_decide_div_mod_eq, Nat.testBit_eq_decide_div_mod_eq]
    congr 2
    omega
  rw [h29] at hz
  refine hdrFieldsOk_of (by omega) (by omega) (by omega) ?_
  rcases hz with hz | hz
  · exact .inl hz
  · exact .inr (by omega)

/-- VQSCALE writes the headers of its blocks (R181). -/
theorem execVqscale_eq {s : State} {d a b : BitVec 5} {k : BitVec 3} {e : BitVec 1} (hok : NarrowOk s d a)
    (hT : hdrFieldsOk (s.getG b).toNat = true) :
    let r := scaleTo s k (s.getG b).toNat (a.toNat, s.h.grp) (s.h.img (imageOf s d).1 (imageOf s d).2) s.h.blocks
    execVqscale d a b k e s = .next (imageWritten s d (imageOf s d) r.1 s.h.efc r.2) := by
  intro r
  obtain ⟨hrun, hres, hland, hquota, hbound, hmax⟩ := hok.fresh
  unfold execVqscale
  simp only [← imageOf_eq, hok.legal, hT, Bool.not_true, Bool.or_false]
  rw [issue_ready hrun hbound (by simpa using hok.heldD) (by simpa using hok.heldV) (by simp) (by simp), State.issuing_named]
  generalize hu : s.issuing (if false = true then s.h.holdLvd.resume else s.h.resume) (d.setWidth 64) = u
  have hu : u = s.issuing s.h.resume (d.setWidth 64) := hu.symm
  have himg : ∀ r n, u.h.img r n = s.h.img r n := fun r n => by rw [hu, State.img_issuing]
  have hblock : ∀ j, u.h.scaleBlock k.toNat (s.h.img a.toNat s.h.grp) (s.getG b).toNat j =
      scaleAt s k (s.getG b).toNat (a.toNat, s.h.grp) j := fun j => by rw [hu]; rfl
  have hblocks : u.h.blocks = s.h.blocks := by rw [hu]; rfl
  have hefc : ∀ x, ({ u with h := u.h.setImg (imageOf s d).1 (imageOf s d).2 x } : State) =
      { u with h := { u.h.setImg (imageOf s d).1 (imageOf s d).2 x with efc := s.h.efc } } := fun x => by
    rw [setImg_frame, hu]
    rfl
  simp only [himg, hblock, hblocks]
  rw [hefc, hu]
  exact retire_imageWritten hres d _ _ _ _

/-- What VQSCALE leaves (R181). -/
theorem execVqscale_gives {s : State} {d a b : BitVec 5} {k : BitVec 3} {e : BitVec 1} (hok : NarrowOk s d a)
    (hT : HdrOk ((s.getG b).toNat / 256 * 256 + 1)) :
    let T := (s.getG b).toNat
    let V : Regs := (a.toNat, s.h.grp)
    let D := imageOf s d
    ∃ t, execVqscale d a b k e s = .next t ∧ ImageFrame s t d D s.h.efc ∧
      (∀ F : Nat → Flags, (∀ i, (ScaleOver s k T V i → F i = fSAT) ∧ (¬ScaleOver s k T V i → F i = 0)) → FlagsAfter s t s.h.span F) ∧
      ∀ j < s.h.blocks, (∀ q, 1 ≤ q → q < 9 → el t D.1 D.2 64 (9 * j + q) = el s D.1 D.2 64 (9 * j + q)) ∧
        (blockOn s k j = false → el t D.1 D.2 64 (9 * j) = el s D.1 D.2 64 (9 * j)) ∧
        (blockOn s k j = true → ∃ ex, 1 ≤ ex ∧ ex ≤ 254 ∧ el t D.1 D.2 64 (9 * j) = scaledHdr T j ex ∧
          (∀ y, 1 ≤ y → y < ex → ¬ScaleFits s k T V j y) ∧ (ScaleFits s k T V j ex ∨ ex = 254 ∧ t.h.fst.getLsbD 5 = true)) := by
  intro T V D
  have hel : ∀ j < s.h.blocks, ∀ q < 9, ∀ x efc fl, el (imageWritten s d D x efc fl) D.1 D.2 64 (9 * j + q) = elem 64 x (9 * j + q) :=
    fun j hj q hq x efc fl => el_imageWritten hok.inside efc fl (by
      have hin : 576 * s.h.blocks ≤ 32768 * D.2 := image_holds s d
      revert hin
      generalize D.2 = n
      omega)
  have hflags := imageWritten_flags (d := d) (D := D) (img := (scaleTo s k T V (s.h.img D.1 D.2) s.h.blocks).1) (efc := s.h.efc) hok.fresh
    (raisesAs_scaleTo s k T V (s.h.img D.1 D.2))
  refine ⟨_, execVqscale_eq hok (template_ok hT), imageWritten_frame _ _ _ _ _, fun F hF => ?_, fun j hj => ⟨fun q h1 h9 => ?_, fun hoff => ?_,
    fun hon => ?_⟩⟩
  · refine flagsAfter_congr hflags fun i _ => ?_
    split
    · next h => exact ((hF i).1 h).symm
    · next h => exact ((hF i).2 h).symm
  · rw [hel j hj q h9, elem_scaleTo s k T V _ h9, if_neg (by omega)]
    rfl
  · have hnone : scaleAt s k T V j = none := scaleBlock_off s k T V hoff
    refine (hel j hj 0 (by decide) _ _ _).trans ((elem_scaleTo s k T V _ (by decide) _ _).trans ?_)
    rw [hnone, if_pos ⟨rfl, hj⟩]
    rfl
  · obtain ⟨ex, fl, hat, h1, hex, hleast, hcase⟩ := scaleBlock_on s k T V hon
    have hat : scaleAt s k T V j = some (scaledHdr T j ex, fl) := hat
    refine ⟨ex, h1, hex, ?_, hleast, hcase.imp (·.2) fun h => ⟨h.1, ?_⟩⟩
    · refine (hel j hj 0 (by decide) _ _ _).trans ((elem_scaleTo s k T V _ (by decide) _ _).trans ?_)
      rw [hat, if_pos ⟨rfl, hj⟩, Option.map_some, Option.getD_some, Nat.mod_eq_of_lt (scaledHdr_lt T hex)]
    · obtain ⟨-, i, rfl, -, -, -, -⟩ := h
      have hmem : (i, fSAT) ∈ (scaleTo s k T V (s.h.img D.1 D.2) s.h.blocks).2 :=
        (mem_scaleTo s k T V _).mpr ⟨j, hj, _, hat, List.mem_singleton_self _⟩
      exact imageWritten_class _ _ _ hmem (show fSAT.getLsbD 5 = true by decide) (by decide)

/-- Settles O50: the pipe's prefix values and their floats, the chain of codes bit by bit, and the least scale of every block. -/
theorem planeResults : Obligations.PlaneResults := by
  unfold Obligations.PlaneResults
  intro s d a n b k e hF g w N bit hdr P hspan
  refine ⟨?_, ?_⟩
  · intro D A hG hD hA hap hh pre
    refine ⟨fun hw => ?_, fun hw => execVdeq_gives hF hspan ⟨hG, hD⟩ hA hap hh hw⟩
    have hin : s.h.ewIn ewNarrow = true := by
      rcases (show s.h.ew = 8 ∨ s.h.ew = 16 ∨ s.h.ew = 32 from hw) with h | h | h <;> simp [Hart.ewIn, ewNarrow, h]
    exact execVplane_gives hF hspan ⟨hG, hD⟩ hA hap hh hin
  · intro V D x hw hG hV hD hap rest
    have hok : NarrowOk s d a := ⟨hF, hw, hG, hV, hD, hap⟩
    refine ⟨?_, ?_⟩
    · intro hh coded
      obtain ⟨t, ht, hcoded, hframe, hflags⟩ := execVnarrow_gives (k := k) (e := e) hok hh
      exact ⟨execVtoplane_gives hok hh, t, carryTo s (imageOf s d) (a.toNat, s.h.grp) k, rfl, fun i => rfl, ht, hcoded, hframe, hflags⟩
    · intro T B fits hT
      obtain ⟨t, ht, hframe, hflags, hblocks⟩ := execVqscale_gives (k := k) (e := e) hok hT
      exact ⟨t, ht, hframe, hflags _ fun i => ⟨fun h => if_pos h, fun h => if_neg h⟩, hblocks⟩

end Sys2Proof.Machine
end

section
/-! PROOFS. Accumulators of the core and the course of a tile instruction (07 R123, 10 R182 to R194). -/

namespace Sys2Proof.Machine

open Sys2Proof.Safety

/-! ### Elements of an accumulator -/

/-- An element below the cut of a number into which one has been put. -/
theorem elem_put_cut {w n img i j x : Nat} (hj : w * (j + 1) ≤ n) :
    elem w (putElems w img i [x] % 2 ^ n) j = if j = i then x % 2 ^ w else elem w img j := by
  have hcut : elem w (putElems w img i [x] % 2 ^ n) j = elem w (putElems w img i [x]) j := by
    apply Nat.eq_of_testBit_eq
    intro q
    rw [testBit_elem, testBit_elem, Nat.testBit_mod_two_pow]
    by_cases hq : q < w
    · have hlt : w * j + q < n := by
        rw [Nat.mul_succ] at hj
        omega
      simp [hlt]
    · simp [hq]
  rw [hcut, elem_putElems]
  by_cases hji : j = i
  · simp [hji]
  · rw [if_neg (by simp only [List.length_singleton]; omega), if_neg hji]

theorem Accum.val_setVal (a : Accum) (i x : Nat) {j : Nat} (hj : j < 4096) :
    (a.setVal i x).val j = if j = i then x % 2 ^ 256 else a.val j := by
  exact (congrArg (elem 256 · j) (BitVec.toNat_ofNat _ _)).trans (elem_put_cut (by omega))

theorem Accum.status_setStatus (a : Accum) (i x : Nat) {j : Nat} (hj : j < 4096) :
    (a.setStatus i x).status j = if j = i then x % 4 else a.status j := by
  exact (congrArg (elem 2 · j) (BitVec.toNat_ofNat _ _)).trans (elem_put_cut (by omega))

@[simp] theorem Accum.status_setVal (a : Accum) (i x j : Nat) : (a.setVal i x).status j = a.status j := rfl
@[simp] theorem Accum.val_setStatus (a : Accum) (i x j : Nat) : (a.setStatus i x).val j = a.val j := rfl

theorem Accum.val_lt (a : Accum) (i : Nat) : a.val i < 2 ^ 256 := elem_lt _ _ _
theorem Accum.status_lt (a : Accum) (i : Nat) : a.status i < 4 := elem_lt _ _ _

/-- Two accumulators agree on all but their elements. -/
def Accum.Like (a b : Accum) : Prop := a.anchor = b.anchor ∧ a.holder = b.holder

/-- Elements written one after the other; with `keep` their statuses stay. -/
def Accum.putAll (keep : Bool) (f : Nat → Nat × Nat × Flags) (a : Accum) (is : List Nat) : Accum :=
  is.foldl (fun a i => if keep then a.setVal i (f i).1 else (a.setVal i (f i).1).setStatus i (f i).2.1) a

theorem Accum.putAll_like (keep : Bool) (f : Nat → Nat × Nat × Flags) (a : Accum) (is : List Nat) : (a.putAll keep f is).Like a := by
  induction is generalizing a with
  | nil => exact ⟨rfl, rfl⟩
  | cons i is ih =>
    obtain ⟨hanchor, hholder⟩ := ih (if keep then a.setVal i (f i).1 else (a.setVal i (f i).1).setStatus i (f i).2.1)
    refine ⟨hanchor.trans ?_, hholder.trans ?_⟩ <;> cases keep <;> rfl

theorem Accum.putAll_elem (keep : Bool) (f : Nat → Nat × Nat × Flags) (a : Accum) (is : List Nat) {j : Nat} (hj : j < 4096) :
    (a.putAll keep f is).val j = (if j ∈ is then (f j).1 % 2 ^ 256 else a.val j) ∧
    (a.putAll keep f is).status j = if j ∈ is ∧ keep = false then (f j).2.1 % 4 else a.status j := by
  induction is generalizing a with
  | nil => simp [Accum.putAll]
  | cons i is ih =>
    obtain ⟨hval, hst⟩ := ih (if keep then a.setVal i (f i).1 else (a.setVal i (f i).1).setStatus i (f i).2.1)
    have hone : (if keep then a.setVal i (f i).1 else (a.setVal i (f i).1).setStatus i (f i).2.1).val j =
        (if j = i then (f i).1 % 2 ^ 256 else a.val j) ∧
        (if keep then a.setVal i (f i).1 else (a.setVal i (f i).1).setStatus i (f i).2.1).status j =
        if j = i ∧ keep = false then (f i).2.1 % 4 else a.status j := by
      cases keep with
      | true => exact ⟨a.val_setVal i _ hj, by simp⟩
      | false => exact ⟨a.val_setVal i _ hj, by simp [Accum.status_setStatus _ _ _ hj]⟩
    have hput : a.putAll keep f (i :: is) =
        (if keep then a.setVal i (f i).1 else (a.setVal i (f i).1).setStatus i (f i).2.1).putAll keep f is := rfl
    rw [hput, hval, hst, hone.1, hone.2]
    by_cases hji : j = i
    · subst hji
      by_cases hin : j ∈ is <;> cases keep <;> simp [hin]
    · simp [hji]

/-! ### Accumulators of a core -/

/-- The hart that moves holds accumulator z. -/
theorem holdsZ_iff {s : State} {z : BitVec 2} : s.holdsZ z = true ↔ (s.accum z).holder = some (slotOf s.h.id) := by
  unfold State.holdsZ State.accum
  rw [decide_eq_true_eq]

/-- A core with an accumulator that a hart holds is not as at reset. -/
theorem core_ne_reset {x : Core} {z : BitVec 2} (h : (x.z[z.toNat]'z.isLt).holder ≠ none) : x ≠ Core.reset := by
  rintro rfl
  refine h ?_
  simp only [Core.reset, Vector.getElem_replicate]
  rfl

theorem State.core_setAccum {s : State} {z : BitVec 2} {a : Accum} (h : a.holder ≠ none) (c : BitVec 10) :
    (s.setAccum z a).core c = if c = s.myCore then { s.core s.myCore with z := (s.core s.myCore).z.set z.toNat a z.isLt } else s.core c := by
  have hne : ({ s.core s.myCore with z := (s.core s.myCore).z.set z.toNat a z.isLt } : Core) ≠ Core.reset :=
    core_ne_reset (z := z) (by simpa using h)
  exact (SMap.get_set_of_ne hne s.cores s.myCore.toNat c.toNat).trans (if_congr BitVec.toNat_inj rfl rfl)

theorem State.accum_setAccum {s : State} {z : BitVec 2} {a : Accum} (h : a.holder ≠ none) (y : BitVec 2) :
    (s.setAccum z a).accum y = if y = z then a else s.accum y := by
  have hcore : (s.setAccum z a).core s.myCore = _ := (State.core_setAccum h s.myCore).trans (if_pos rfl)
  have hget : (s.setAccum z a).accum y = ((s.setAccum z a).core s.myCore).z[y.toNat]'y.isLt := rfl
  rw [hget]
  simp only [hcore, Vector.getElem_set]
  exact if_congr (by rw [BitVec.toNat_inj, eq_comm]) rfl rfl

/-- `v` is `u` but for accumulator z of the core of the hart that moves. -/
structure SameBut (u v : State) (z : BitVec 2) : Prop where
  frame : v = { u with cores := v.cores }
  core : ∀ c, v.core c = { u.core c with z := (v.core c).z }
  others : ∀ c, c ≠ u.myCore → v.core c = u.core c
  accums : ∀ y, y ≠ z → v.accum y = u.accum y

theorem SameBut.refl (u : State) (z : BitVec 2) : SameBut u u z := ⟨rfl, fun _ => rfl, fun _ _ => rfl, fun _ _ => rfl⟩

theorem SameBut.h_eq {u v : State} {z : BitVec 2} (h : SameBut u v z) : v.h = u.h := by rw [h.frame]

theorem SameBut.myCore_eq {u v : State} {z : BitVec 2} (h : SameBut u v z) : v.myCore = u.myCore := by
  unfold State.myCore
  rw [h.h_eq]

theorem SameBut.setAccum {u v : State} {z : BitVec 2} (h : SameBut u v z) {a : Accum} (ha : a.holder ≠ none) :
    SameBut u (v.setAccum z a) z where
  frame := congrArg (fun x : State => { x with cores := (v.setAccum z a).cores }) h.frame
  core c := by
    rw [State.core_setAccum ha]
    split
    · next hc => rw [hc, h.core]
    · rw [h.core]
  others c hc := by rw [State.core_setAccum ha, if_neg (by rw [h.myCore_eq]; exact hc), h.others c hc]
  accums y hy := by rw [State.accum_setAccum ha, if_neg hy, h.accums y hy]

/-! ### Flags of elements -/

/-- The flags raised are those of `G` at its elements. -/
def Marks (fl : Raised) (G : Nat → Flags) : Prop := ∀ i c, (∃ x ∈ fl, x.1 = i ∧ x.2.getLsbD c = true) ↔ (G i).getLsbD c = true

theorem marks_nil : Marks [] fun _ => 0 := fun i c => by simp

/-- The flags of elements, listed where there are some. -/
def flagsOf (f : Nat → Nat × Nat × Flags) (is : List Nat) : Raised := is.filterMap fun i => if (f i).2.2 = 0 then none else some (i, (f i).2.2)

theorem mem_flagsOf {f : Nat → Nat × Nat × Flags} {is : List Nat} {x : Nat × Flags} :
    x ∈ flagsOf f is ↔ x.1 ∈ is ∧ x.2 = (f x.1).2.2 ∧ x.2 ≠ 0 := by
  unfold flagsOf
  rw [List.mem_filterMap]
  constructor
  · rintro ⟨i, hi, hx⟩
    split at hx
    · exact absurd hx (by simp)
    · next hne =>
      obtain rfl := Option.some.inj hx
      exact ⟨hi, rfl, hne⟩
  · rintro ⟨hi, heq, hne⟩
    exact ⟨x.1, hi, by rw [if_neg (heq ▸ hne), ← heq]⟩

/-- Flags added at elements. -/
theorem Marks.append {fl : Raised} {G : Nat → Flags} (h : Marks fl G) (f : Nat → Nat × Nat × Flags) (is : List Nat) :
    Marks (flagsOf f is ++ fl) fun i => if i ∈ is then (f i).2.2 ||| G i else G i := by
  intro i c
  have hsplit : (∃ x ∈ flagsOf f is ++ fl, x.1 = i ∧ x.2.getLsbD c = true) ↔
      (i ∈ is ∧ (f i).2.2.getLsbD c = true) ∨ (G i).getLsbD c = true := by
    rw [← h i c]
    constructor
    · rintro ⟨x, hx, rfl, hbit⟩
      rcases List.mem_append.mp hx with hx | hx
      · obtain ⟨hi, heq, -⟩ := mem_flagsOf.mp hx
        exact .inl ⟨hi, heq ▸ hbit⟩
      · exact .inr ⟨x, hx, rfl, hbit⟩
    · rintro (⟨hi, hbit⟩ | ⟨x, hx, hxi, hbit⟩)
      · refine ⟨(i, (f i).2.2), List.mem_append_left _ (mem_flagsOf.mpr ⟨hi, rfl, ?_⟩), rfl, hbit⟩
        dsimp only
        rintro h0
        simp [h0] at hbit
      · exact ⟨x, List.mem_append_right _ hx, hxi, hbit⟩
  rw [hsplit]
  dsimp only
  split
  · next hi => simp [BitVec.getLsbD_or, hi]
  · next hi => simp [hi]

/-- Flags of elements below n raise as FST and EVX take them. -/
theorem Marks.raisesAs {fl : Raised} {G : Nat → Flags} (h : Marks fl G) {n : Nat} (hn : ∀ i, n ≤ i → G i = 0) : RaisesAs fl n G where
  of_mem x hx c hc := by
    have hbit := (h x.1 c).mp ⟨x, hx, rfl, hc⟩
    refine ⟨?_, hbit⟩
    by_contra hlt
    rw [hn x.1 (by omega)] at hbit
    simp at hbit
  least c i _ hc _ := (h i c).mpr hc

end Sys2Proof.Machine
end

section
/-! PROOFS. The course of a tile instruction that waits for nothing (10 R182 to R194). -/

namespace Sys2Proof.Machine

open Sys2Proof.Safety

/-! ### From the issue to the end -/

/-- A tile instruction whose operands are held and full and whose checks pass begins its work. -/
theorem tileIssue_ready {s : State} {srcs : List (Regs × Bool)} {zs : List (BitVec 2)} {more : List (Bool × Nat × Word)}
    {k : State → Result} {need : Nat → List (Nat × Nat)} {total : Nat} (hF : Fresh s) (hs : ∀ p ∈ srcs, Held s p.1)
    (hz : ∀ z ∈ zs, s.holdsZ z = true) (hm : ∀ c ∈ more, c.1 = false) : s.tileIssue srcs zs false more k need total = k s := by
  obtain ⟨hrun, -, -, -, hbound, -⟩ := hF
  have hin : ∀ p ∈ srcs, Held s p.1.inside := fun p hp j h1 h2 => hs p hp j h1 (by
    have : p.1.inside.2 ≤ p.1.2 := Nat.min_le_left _ _
    have : p.1.inside.1 = p.1.1 := rfl
    omega)
  have hheld : s.h.notHeld (srcs.map fun p => p.1.inside) = none := notHeld_none fun r hr => by
    obtain ⟨p, hp, rfl⟩ := List.mem_map.mp hr
    exact hin p hp
  have hopen : s.h.emptyIn ((srcs.filter fun p => p.2).map fun p => p.1.inside) = none := emptyIn_none fun r hr => by
    obtain ⟨p, hp, rfl⟩ := List.mem_map.mp hr
    exact hin p (List.mem_filter.mp hp).1
  have hzs : s.zNotHeld zs = none := leastOf_none.mpr fun x hx => by
    obtain ⟨z, hz', rfl⟩ := List.mem_map.mp hx
    rw [if_pos (hz z hz')]
  unfold State.tileIssue
  rw [State.check_pass, State.readSteps_full (emptyIn_none fun r hr => by
    obtain ⟨p, hp, rfl⟩ := List.mem_map.mp hr
    exact hs p hp), carryReads_free hbound, endWait_run hrun]
  simp only [List.forall_mem_cons, hheld, hopen, hzs, Option.isSome_none, true_and]
  exact hm

/-- A tile instruction that has done every step without a fault completes. -/
theorem tileEnd_done {s : State} {r : TileRun} (hr : r.fault = none) (op g total : Nat) (bad : Nat → List (Nat × Nat × BitVec 3))
    (lose : State → State) : s.tileEnd r op g total total bad lose = r.s.retire 8 r.fl := by
  unfold State.tileEnd
  rw [hr]
  exact if_neg (Nat.lt_irrefl _)

/-! ### Steps that write an accumulator -/

/-- After n steps of a tile instruction on accumulator z, whose accesses would leave `u` of `s`: its elements are `g`, with the flags
raised by then; nothing else of `u` has changed. -/
structure TileSoFar (s u : State) (z : BitVec 2) (n : Nat) (g : Nat → Nat × Nat × Flags) (r : TileRun) : Prop where
  fault : r.fault = none
  same : SameBut u r.s z
  elems : ∀ i < 4096, (r.s.accum z).val i = (g i).1 ∧ (r.s.accum z).status i = (g i).2.1
  like : (r.s.accum z).Like (s.accum z)
  taken : n ≠ 0 → (r.s.accum z).taken = true
  marks : Marks r.fl fun i => (g i).2.2

/-- The elements of an accumulator before anything is raised. -/
def elemsOf (s : State) (z : BitVec 2) (i : Nat) : Nat × Nat × Flags := (zAcc s z i, zSt s z i, 0)

theorem tileSoFar_start (s : State) (z : BitVec 2) : TileSoFar s s z 0 (elemsOf s z) ⟨s, [], none⟩ :=
  ⟨rfl, SameBut.refl s z, fun _ _ => ⟨rfl, rfl⟩, ⟨rfl, rfl⟩, fun h => absurd rfl h, marks_nil⟩

section Steps

variable {s u u' v : State} {z : BitVec 2} {n : Nat} {g g' : Nat → Nat × Nat × Flags} {r : TileRun}

/-- A step that writes elements. -/
theorem TileSoFar.step (h : TileSoFar s u z n g r) (hz : s.holdsZ z = true) (hv : SameBut u' v z)
    {a : Accum} {fl : Raised} (hlike : a.Like (r.s.accum z)) (hel : ∀ i < 4096, a.val i = (g' i).1 ∧ a.status i = (g' i).2.1)
    (hfl : Marks fl fun i => (g' i).2.2) : TileSoFar s u' z (n + 1) g' ⟨v.setAccum z { a with taken := true }, fl, none⟩ := by
  have hh : ({ a with taken := true } : Accum).holder ≠ none := by
    have : a.holder = some (slotOf s.h.id) := hlike.2.trans (h.like.2.trans (holdsZ_iff.mp hz))
    simp [this]
  have hget : (v.setAccum z { a with taken := true }).accum z = { a with taken := true } := by rw [State.accum_setAccum hh, if_pos rfl]
  refine ⟨rfl, hv.setAccum hh, ?_, ?_, ?_, hfl⟩
  · rw [hget]
    exact hel
  · rw [hget]
    exact ⟨hlike.1.trans h.like.1, hlike.2.trans h.like.2⟩
  · rw [hget]
    exact fun _ => rfl

/-- The elements after a step that gives those of `is` the values `f`. -/
def stepElems (is : List Nat) (f g : Nat → Nat × Nat × Flags) (i : Nat) : Nat × Nat × Flags :=
  if i ∈ is then ((f i).1, (f i).2.1, (f i).2.2 ||| (g i).2.2) else g i

/-- A step that writes Acc and status of the elements of `is`. -/
theorem TileSoFar.write (h : TileSoFar s u z n g r) (hz : s.holdsZ z = true) (hv : SameBut u' v z)
    (is : List Nat) {f : Nat → Nat × Nat × Flags} (hf : ∀ i ∈ is, (f i).1 < 2 ^ 256 ∧ (f i).2.1 < 4) :
    TileSoFar s u' z (n + 1) (stepElems is f g)
      ⟨v.setAccum z { (r.s.accum z).putAll false f is with taken := true }, flagsOf f is ++ r.fl, none⟩ := by
  refine h.step hz hv (Accum.putAll_like _ _ _ _) (fun i hi => ?_) ?_
  · obtain ⟨hval, hst⟩ := (r.s.accum z).putAll_elem false f is hi
    obtain ⟨gval, gst⟩ := h.elems i hi
    rw [hval, hst, stepElems]
    by_cases hin : i ∈ is
    · rw [if_pos hin, if_pos hin, if_pos ⟨hin, rfl⟩, Nat.mod_eq_of_lt (hf i hin).1, Nat.mod_eq_of_lt (hf i hin).2]
      exact ⟨rfl, rfl⟩
    · simp [hin, gval, gst]
  · have hG : (fun i => (stepElems is f g i).2.2) = fun i => if i ∈ is then (f i).2.2 ||| (g i).2.2 else (g i).2.2 := by
      funext i
      unfold stepElems
      split <;> rfl
    rw [hG]
    exact h.marks.append f is

/-- What a tile instruction that wrote every element of its tile leaves. -/
theorem TileSoFar.accumulates (h : TileSoFar s u z n g r) (hn : n ≠ 0) (hres : u.h.resume = []) (hfst : u.h.fst = s.h.fst)
    (hevx : u.h.evx = s.h.evx) (hpc : u.h.pc = s.h.pc) (hid : u.h.id = s.h.id) (hu : ∀ y, y ≠ z → u.accum y = s.accum y)
    {f : Nat → Nat × Nat × Flags} (hg : ∀ i < 4096, g i = if inTile s i then f i else elemsOf s z i) (hg0 : ∀ i, 4096 ≤ i → (g i).2.2 = 0) :
    ∃ t, r.s.retire 8 r.fl = .next t ∧ Accumulates s u t z f := by
  have hh := h.same.h_eq
  have hcore : u.myCore = s.myCore := by rw [State.myCore, hid]; rfl
  unfold State.retire
  rw [if_neg (by decide), prior_fresh (by rw [hh]; exact hres)]
  refine ⟨_, rfl, fun i hi => ?_, h.like.1, h.like.2, h.taken hn, fun y hy => ?_, ?_, ?_, h.same.core, fun c hc => ?_⟩
  · obtain ⟨hval, hst⟩ := h.elems i hi
    refine (Prod.ext hval hst : _ = ((g i).1, (g i).2.1)).trans ?_
    rw [hg i hi]
    split <;> rfl
  · exact (h.same.accums y hy).trans (hu y hy)
  · refine flagsAfter_congr (f := fun i => (g i).2.2) (flagsAfter_of_raises (s := s) (h := r.s.h) (h.marks.raisesAs hg0) (by decide)
      (by rw [hh]; exact hres) (by rw [hh]; exact hfst) (by rw [hh]; exact hevx) rfl rfl) fun i hi => ?_
    rw [hg i hi]
    split <;> rfl
  · rw [h.same.frame]
    dsimp only [State.adv, Hart.raise]
    rw [hpc]
    rfl
  · exact h.same.others c (by rw [hcore]; exact hc)

end Steps

end Sys2Proof.Machine
end

section
/-! PROOFS. TSHAPE, TWIN, TZERO, TADD and TGANG (10 R184, R191, R192). -/

namespace Sys2Proof.Machine

open Sys2Proof.Safety

/-! ### Fields of a word -/

theorem testBit_fld (x : Word) (lo len j : Nat) : (fld x lo len).testBit j = (decide (j < len) && x.getLsbD (lo + j)) := by
  rw [fld, bits, Nat.testBit_mod_two_pow, Nat.testBit_shiftRight]
  rfl

/-- The bits of a word with a field replaced. -/
theorem getLsbD_setFld (x : Word) {lo len : Nat} (v : Nat) {b : Nat} (hb : b < 64) :
    (setFld x lo len v).getLsbD b = if lo ≤ b ∧ b < lo + len then (v % 2 ^ len).testBit (b - lo) else x.getLsbD b := by
  rw [setFld, BitVec.getLsbD_ofNat, bits, testBit_replace _ _ (Nat.mod_lt _ (Nat.two_pow_pos _))]
  simp only [hb, decide_true, Bool.true_and]
  rfl

/-- A field that has been replaced. -/
theorem fld_setFld_same (x : Word) {lo len : Nat} (v : Nat) (h : lo + len ≤ 64) : fld (setFld x lo len v) lo len = v % 2 ^ len := by
  apply Nat.eq_of_testBit_eq
  intro j
  rw [testBit_fld]
  by_cases hj : j < len
  · rw [getLsbD_setFld x v (by omega), if_pos (by omega), Nat.add_sub_cancel_left]
    simp [hj]
  · simp [hj, Nat.testBit_mod_two_pow]

/-- A field beside one that has been replaced. -/
theorem fld_setFld_apart (x : Word) {lo len lo' len' : Nat} (v : Nat) (h : lo' + len' ≤ 64) (hd : lo + len ≤ lo' ∨ lo' + len' ≤ lo) :
    fld (setFld x lo len v) lo' len' = fld x lo' len' := by
  apply Nat.eq_of_testBit_eq
  intro j
  rw [testBit_fld, testBit_fld]
  by_cases hj : j < len'
  · rw [getLsbD_setFld x v (by omega), if_neg (by omega)]
  · simp [hj]

/-- A bit beside a field that has been replaced. -/
theorem getLsbD_setFld_apart (x : Word) {lo len : Nat} (v : Nat) {b : Nat} (hb : b < lo ∨ lo + len ≤ b) :
    (setFld x lo len v).getLsbD b = x.getLsbD b := by
  by_cases hlt : b < 64
  · rw [getLsbD_setFld x v hlt, if_neg (by omega)]
  · rw [BitVec.getLsbD_of_ge _ _ (by omega), BitVec.getLsbD_of_ge _ _ (by omega)]

/-! ### Instructions on the tile's registers -/

section Registers

variable {s : State} {z : BitVec 2} (hF : Fresh s) (hz : s.holdsZ z = true)
include hF hz

/-- TSHAPE sets M, N and K (R184). -/
theorem execTshape_gives (m n : BitVec 6) (k : BitVec 13) : ∃ t, execTshape z m n k s = .next t ∧ fld t.h.tshp 0 6 = m.toNat ∧
    fld t.h.tshp 8 6 = n.toNat ∧ fld t.h.tshp 16 16 = k.toNat + 1 ∧
    (∀ b, (6 ≤ b ∧ b < 8) ∨ (14 ≤ b ∧ b < 16) ∨ 32 ≤ b → t.h.tshp.getLsbD b = s.h.tshp.getLsbD b) ∧
    t = { s with h := { s.h with tshp := t.h.tshp, pc := s.h.pc + 8 } } := by
  have hm := m.isLt
  have hn := n.isLt
  have hk := k.isLt
  unfold execTshape
  rw [tileIssue_ready hF (by simp) (by simpa using hz) (by simp)]
  refine ⟨_, rfl, ?_, ?_, ?_, fun b hb => ?_, rfl⟩
  · exact (fld_setFld_apart _ _ (by decide) (by decide)).trans ((fld_setFld_apart _ _ (by decide) (by decide)).trans
      ((fld_setFld_same _ _ (by decide)).trans (Nat.mod_eq_of_lt hm)))
  · exact (fld_setFld_apart _ _ (by decide) (by decide)).trans ((fld_setFld_same _ _ (by decide)).trans (Nat.mod_eq_of_lt hn))
  · exact (fld_setFld_same _ _ (by decide)).trans (Nat.mod_eq_of_lt (by omega))
  · exact (getLsbD_setFld_apart _ _ (by omega)).trans ((getLsbD_setFld_apart _ _ (by omega)).trans
      (getLsbD_setFld_apart _ _ (by omega)))

/-- TWIN sets the anchor for later (R134, R184). -/
theorem execTwin_gives (ht : (s.accum z).taken = false) (i : BitVec 16) : ∃ t, execTwin z i s = .next t ∧
    (∀ q : Fin 4, t.h.twin[q] = if q.val = z.toNat then i.setWidth 64 else s.h.twin[q]) ∧
    t = { s with h := { s.h with twin := t.h.twin, pc := s.h.pc + 8 } } := by
  unfold execTwin
  rw [ht, tileIssue_ready hF (by simp) (by simpa using hz) (by simp)]
  refine ⟨_, rfl, fun q => ?_, rfl⟩
  exact (Vector.getElem_set z.isLt q.isLt).trans (if_congr eq_comm rfl rfl)

omit hF hz in
/-- TWIN on an accumulator that is taken is illegal (R134). -/
theorem execTwin_taken (ht : (s.accum z).taken = true) (i : BitVec 16) : execTwin z i s = s.trapPre 0x02 s.ir := by
  unfold execTwin State.tileIssue
  rw [ht]
  exact State.check_fail (cs := []) (by simp)

omit hF hz in
/-- The elements of a number of bits that is 0. -/
theorem elem_zero (w n i : Nat) : elem w (0 : BitVec n).toNat i = 0 := by simp [elem]

/-- TZERO clears an accumulator under its TWIN (R184). -/
theorem execTzero_gives : ∃ t, execTzero z s = .next t ∧ (∀ i < 4096, zAcc t z i = 0 ∧ zSt t z i = 0) ∧ (t.accum z).taken = false ∧
    (∀ q : Fin 4, q.val = z.toNat → (t.accum z).anchor = s.h.twin[q].setWidth 16) ∧ (t.accum z).holder = (s.accum z).holder ∧
    (∀ x, x ≠ z → t.accum x = s.accum x) ∧ (∀ c, t.core c = { s.core c with z := (t.core c).z }) ∧
    (∀ c, c ≠ s.myCore → t.core c = s.core c) ∧ t = { s with cores := t.cores, h := { s.h with pc := s.h.pc + 8 } } := by
  unfold execTzero
  rw [tileIssue_ready hF (by simp) (by simpa using hz) (by simp)]
  set a : Accum := { s.accum z with acc := 0, st := 0, anchor := (s.h.twin[z.toNat]'z.isLt).setWidth 16, taken := false } with ha
  have hh : a.holder ≠ none := by
    have : a.holder = some (slotOf s.h.id) := holdsZ_iff.mp hz
    simp [this]
  have hsame := (SameBut.refl s z).setAccum hh
  have hget : (s.setAccum z a).accum z = a := by rw [State.accum_setAccum hh, if_pos rfl]
  have hacc : ((s.setAccum z a).adv 8).accum z = a := hget
  refine ⟨(s.setAccum z a).adv 8, rfl, fun i _ => ?_, ?_, fun q hq => ?_, ?_, hsame.accums, hsame.core, hsame.others, rfl⟩
  · rw [zAcc, zSt, hacc]
    exact ⟨elem_zero 256 1048576 i, elem_zero 2 8192 i⟩
  · rw [hacc]
  · rw [hacc, ha]
    have hq' : q = ⟨z.toNat, z.isLt⟩ := Fin.ext hq
    rw [hq']
    rfl
  · rw [hacc]

end Registers

/-- The size of the gang is n, and 1 outside one (R192). -/
def gangFits (s : State) (n : Nat) : Bool := match s.gangOf s.h.id with | none => n == 1 | some g => n == g.size

theorem gangFits_iff {s : State} {n : Nat} :
    gangFits s n = true ↔ match s.gangOf s.h.id with | none => n = 1 | some g => n = g.size := by
  unfold gangFits
  cases s.gangOf s.h.id <;> exact beq_iff_eq

theorem execTgang_eq (s : State) (r c : BitVec 2) : execTgang r c s =
    s.check [(!gangFits s ((r.toNat + 1) * (c.toNat + 1)), 0x18, s.ir)] fun s =>
      .next ({ s with h := { s.h with tshp := setFld (setFld s.h.tshp 32 2 r.toNat) 34 2 c.toNat } }.adv 8) := rfl

/-- TGANG sets its fields for the size of the gang (R192). -/
theorem execTgang_gives {s : State} {r c : BitVec 2} (hfit : gangFits s ((r.toNat + 1) * (c.toNat + 1)) = true) :
    ∃ t, execTgang r c s = .next t ∧ fld t.h.tshp 32 2 = r.toNat ∧ fld t.h.tshp 34 2 = c.toNat ∧
      (∀ b, b < 32 ∨ 36 ≤ b → t.h.tshp.getLsbD b = s.h.tshp.getLsbD b) ∧
      t = { s with h := { s.h with tshp := t.h.tshp, pc := s.h.pc + 8 } } := by
  rw [execTgang_eq, State.check_pass (by simp [hfit])]
  refine ⟨_, rfl, ?_, ?_, fun b hb => ?_, rfl⟩
  · exact (fld_setFld_apart _ _ (by decide) (by decide)).trans ((fld_setFld_same _ _ (by decide)).trans (Nat.mod_eq_of_lt r.isLt))
  · exact (fld_setFld_same _ _ (by decide)).trans (Nat.mod_eq_of_lt c.isLt)
  · exact (getLsbD_setFld_apart _ _ (by omega)).trans (getLsbD_setFld_apart _ _ (by omega))

/-- TGANG traps for another size (R192). -/
theorem execTgang_traps {s : State} {r c : BitVec 2} (hfit : gangFits s ((r.toNat + 1) * (c.toNat + 1)) = false) :
    execTgang r c s = s.trapPre 0x18 s.ir := by
  rw [execTgang_eq, hfit]
  exact State.check_fail (cs := []) (by simp)

/-! ### TADD -/

theorem ofSigned_256_lt (x : Int) : ofSigned 256 x < 2 ^ 256 := by
  rw [ofSigned_256]
  omega

/-- The status that an addition leaves has two bits. -/
theorem accAdd_status_lt (e : Int) (acc : Nat) {st : Nat} (h : st < 4) (p : FVal) (nv : Bool) : (accAdd e acc st p nv).2.1 < 4 := by
  have h3 : 3 < 4 := by decide
  unfold accAdd
  cases p with
  | nan b => exact h3
  | fin b m x => exact h
  | inf b =>
    dsimp only
    split
    · exact h3
    · by_cases h0 : st = 0
      · cases b <;> simp [h0]
      · simpa [h0] using h

theorem taddElem_status_lt (es ed : Int) (accS stS accD : Nat) {stD : Nat} (h : stD < 4) : (taddElem es ed accS stS accD stD).2.1 < 4 := by
  unfold taddElem
  dsimp only
  split
  · exact accAdd_status_lt _ _ h _ _
  · split
    · exact h
    · exact accAdd_status_lt _ _ h _ _

/-- The elements of row m of the tile. -/
def rowElems (s : State) (m : Nat) : List Nat := (List.range s.h.shape.n).map fun n => 64 * m + n

theorem shape_le (s : State) : s.h.shape.m ≤ 64 ∧ s.h.shape.n ≤ 64 := by
  have h1 : fld s.h.tshp 0 6 < 2 ^ 6 := Nat.mod_lt _ (by decide)
  have h2 : fld s.h.tshp 8 6 < 2 ^ 6 := Nat.mod_lt _ (by decide)
  exact ⟨h1, h2⟩

theorem mem_rowElems {s : State} {m i : Nat} : i ∈ rowElems s m ↔ i / 64 = m ∧ i % 64 < s.h.shape.n := by
  have := (shape_le s).2
  unfold rowElems
  simp only [List.mem_map, List.mem_range]
  constructor
  · rintro ⟨n, hn, rfl⟩
    omega
  · rintro ⟨rfl, hn⟩
    exact ⟨i % 64, hn, by omega⟩

/-- The elements of the rows below m of the tile are those of `f`. -/
def rowsDone (s : State) (z : BitVec 2) (f : Nat → Nat × Nat × Flags) (m i : Nat) : Nat × Nat × Flags :=
  if inTile s i = true ∧ i / 64 < m then f i else elemsOf s z i

theorem rowsDone_zero (s : State) (z : BitVec 2) (f : Nat → Nat × Nat × Flags) : rowsDone s z f 0 = elemsOf s z := by
  funext i
  simp [rowsDone]

/-- One more row. -/
theorem rowsDone_succ {s : State} {z : BitVec 2} {f f' : Nat → Nat × Nat × Flags} {m : Nat} (hm : m < s.h.shape.m)
    (hf : ∀ i ∈ rowElems s m, f' i = f i) : stepElems (rowElems s m) f' (rowsDone s z f m) = rowsDone s z f (m + 1) := by
  funext i
  unfold stepElems
  by_cases hi : i ∈ rowElems s m
  · obtain ⟨hrow, hcol⟩ := mem_rowElems.mp hi
    have hin : inTile s i = true := by simp [inTile, hrow, hcol, hm]
    have h0 : rowsDone s z f m i = elemsOf s z i := if_neg (by omega)
    have h1 : rowsDone s z f (m + 1) i = f i := if_pos ⟨hin, by omega⟩
    rw [if_pos hi, h0, h1, hf i hi]
    simp [elemsOf]
  · rw [if_neg hi]
    unfold rowsDone
    refine if_congr (and_congr_right fun hin => ?_) rfl rfl
    have hcol : i % 64 < s.h.shape.n := by
      simp only [inTile, Bool.and_eq_true, decide_eq_true_eq] at hin
      exact hin.2
    have : i / 64 ≠ m := fun h => hi (mem_rowElems.mpr ⟨h, hcol⟩)
    omega

theorem rowsDone_all {s : State} {z : BitVec 2} {f : Nat → Nat × Nat × Flags} (i : Nat) :
    rowsDone s z f s.h.shape.m i = if inTile s i then f i else elemsOf s z i := by
  refine if_congr (and_iff_left_of_imp fun hin => ?_) rfl rfl
  simp only [inTile, Bool.and_eq_true, decide_eq_true_eq] at hin
  exact hin.1

/-- Elements past the last raise nothing. -/
theorem rowsDone_past {s : State} {z : BitVec 2} {f : Nat → Nat × Nat × Flags} {i : Nat} (hi : 4096 ≤ i) :
    (rowsDone s z f s.h.shape.m i).2.2 = 0 := by
  have := (shape_le s).1
  rw [rowsDone_all, if_neg]
  · rfl
  · simp only [inTile, Bool.and_eq_true, decide_eq_true_eq]
    omega

/-- A row of TADD in the form of the rules. -/
theorem TileRun.tadd_eq (r : TileRun) (z y : BitVec 2) (s : State) (m : Nat) :
    let f := fun i => taddElem (r.s.accum y).e (r.s.accum z).e ((r.s.accum y).val i) ((r.s.accum y).status i) ((r.s.accum z).val i)
      ((r.s.accum z).status i)
    r.tadd z y s.h.shape m = ⟨r.s.setAccum z { (r.s.accum z).putAll false f (rowElems s m) with taken := true },
      flagsOf f (rowElems s m) ++ r.fl, r.fault⟩ := by
  intro f
  unfold TileRun.tadd Accum.putAll flagsOf rowElems
  simp only [List.foldl_map, List.filterMap_map]
  rfl

/-- TADD adds the elements of its tile (R191). -/
theorem execTadd_gives {s : State} {z y : BitVec 2} (hF : Fresh s) (hz : s.holdsZ z = true) (hy : s.holdsZ y = true)
    (hk : s.h.shape.k ≠ 0) : ∃ t, execTadd z y s = .next t ∧ Accumulates s s t z fun i =>
      taddElem (s.accum y).e (s.accum z).e (zAcc s y i) (zSt s y i) (zAcc s z i) (zSt s z i) := by
  set f : Nat → Nat × Nat × Flags := fun i => taddElem (s.accum y).e (s.accum z).e (zAcc s y i) (zSt s y i) (zAcc s z i) (zSt s z i) with hf
  have hrun : ∀ m ≤ s.h.shape.m, TileSoFar s s z m (rowsDone s z f m)
      ((List.range m).foldl (fun (r : TileRun) m => r.tadd z y s.h.shape m) ⟨s, [], none⟩) := by
    intro m
    induction m with
    | zero => exact fun _ => rowsDone_zero s z f ▸ tileSoFar_start s z
    | succ m ih =>
      intro hm
      have h := ih (by omega)
      rw [List.range_succ, List.foldl_append, List.foldl_cons, List.foldl_nil]
      generalize (List.range m).foldl (fun (r : TileRun) m => r.tadd z y s.h.shape m) ⟨s, [], none⟩ = r at h ⊢
      have hfault := h.fault
      have hsrc : ∀ i ∈ rowElems s m, (r.s.accum y).val i = zAcc s y i ∧ (r.s.accum y).status i = zSt s y i := by
        intro i hi
        by_cases hyz : y = z
        · subst hyz
          obtain ⟨hrow, -⟩ := mem_rowElems.mp hi
          have h64 := (shape_le s).1
          have helem := h.elems i (by omega)
          rwa [show rowsDone s y f m i = elemsOf s y i from if_neg (by omega)] at helem
        · rw [h.same.accums y hyz]
          exact ⟨rfl, rfl⟩
      have hdst : ∀ i ∈ rowElems s m, (r.s.accum z).val i = zAcc s z i ∧ (r.s.accum z).status i = zSt s z i := by
        intro i hi
        obtain ⟨hrow, -⟩ := mem_rowElems.mp hi
        have h64 := (shape_le s).1
        have helem := h.elems i (by omega)
        rwa [show rowsDone s z f m i = elemsOf s z i from if_neg (by omega)] at helem
      have hez : (r.s.accum z).e = (s.accum z).e := congrArg BitVec.toInt h.like.1
      have hey : (r.s.accum y).e = (s.accum y).e := by
        by_cases hyz : y = z
        · rw [hyz]
          exact hez
        · rw [h.same.accums y hyz]
      have hsame : ∀ i ∈ rowElems s m, taddElem (r.s.accum y).e (r.s.accum z).e ((r.s.accum y).val i) ((r.s.accum y).status i)
          ((r.s.accum z).val i) ((r.s.accum z).status i) = f i := by
        intro i hi
        obtain ⟨hsv, hss⟩ := hsrc i hi
        obtain ⟨hdv, hds⟩ := hdst i hi
        rw [hsv, hss, hdv, hds, hez, hey]
      rw [r.tadd_eq z y s m, hfault, ← rowsDone_succ hm hsame]
      exact h.write hz h.same (rowElems s m) fun i _ => ⟨ofSigned_256_lt _, taddElem_status_lt _ _ _ _ _ (Accum.status_lt _ _)⟩
  have hdone := hrun _ le_rfl
  obtain ⟨hrunning, hres, hland, hquota, hbound, hmax⟩ := id hF
  have hm0 : s.h.shape.m ≠ 0 := Nat.succ_ne_zero _
  obtain ⟨t, ht, hacc⟩ := hdone.accumulates hm0 hres rfl rfl rfl rfl (fun _ _ => rfl) (f := f) (fun i _ => rowsDone_all i) fun i hi =>
    rowsDone_past hi
  refine ⟨t, ?_, hacc⟩
  unfold execTadd
  rw [tileIssue_ready hF (by simp) (by simpa using ⟨hz, hy⟩) (by simpa using hk)]
  rw [start_fresh hres, stopAt_none hland hquota]
  dsimp only
  rw [Nat.sub_zero, ← List.range_eq_range', tileEnd_done hdone.fault]
  exact ht

end Sys2Proof.Machine
end

section
/-! PROOFS. What TMMA reads: operands in registers and in the scratchpad (08 R139, 10 R183, R186, R187). -/

namespace Sys2Proof.Machine

open Sys2Proof.Safety

/-! ### Reads that leave no trace but a watch hit -/

/-- `v` is `s` but for its cores and a watch hit. -/
def Near (s v : State) : Prop := v = { s with cores := v.cores, h := { s.h with watch := v.h.watch } }

theorem Near.noteWatch {s v : State} (h : Near s v) (k : AccKind) (va : Word) (n : Nat) : Near s (v.noteWatch k va n) := by
  unfold State.noteWatch
  cases v.watchHit k va n with
  | none => exact h
  | some a => exact congrArg (fun x : State => { x with h := { x.h with watch := some a } }) h

/-- A read gives `x` in every state near `s`, and leaves one with the same cores. -/
def Gets {α : Type} (s : State) (m : State → Except Flt (α × State)) (x : α) : Prop :=
  ∀ v, Near s v → ∃ w, m v = .ok (x, w) ∧ Near s w ∧ w.cores = v.cores

theorem gets_pure {α : Type} (s : State) (x : α) : Gets s (fun v => .ok (x, v)) x := fun v hv => ⟨v, rfl, hv, rfl⟩

section Reads

variable {s : State} {o : TileOp}

/-- A good place of the scratchpad is read. -/
theorem gets_scratch {x n : Nat} (hn : 0 < n) (hx : x + n ≤ 0x400000) (hgood : s.failing (scratchKey s.myCluster.toNat x) n = false) :
    Gets s (fun v => v.load false (scratchVa x) n) (leNat s (scratchKey s.myCluster.toNat x) n) := by
  intro v hv
  have hva : (scratchVa x).toNat = 0x000FFFFE00000000 + x := by
    rw [scratchVa, BitVec.toNat_ofNat, Nat.mod_eq_of_lt (by omega)]
  have hp : v.translate v.who .read false (scratchVa x) = .ok ⟨scratchKey s.myCluster.toNat x, islandOf v.who.core, false, false, none⟩ := by
    rw [State.translate_scratch (by decide) (by omega) (by omega), hva, Nat.add_sub_cancel_left]
    rw [hv]
    rfl
  have hload : v.load false (scratchVa x) n = .ok (leNat s (scratchKey s.myCluster.toNat x) n, v.noteWatch .read (scratchVa x) n) := by
    refine State.load_ok.mpr ⟨_, hp, ?_, ?_, ?_⟩
    · rw [hv]
      exact hgood
    · rw [leNat_eq_read, hv]
    · rw [State.account_window _ _ _ _ rfl rfl]
  exact ⟨_, hload, hv.noteWatch _ _ _, by rw [State.noteWatch_frame]⟩

/-- Every place of the scratchpad that the operand names is there and good. -/
def OpReads (s : State) (o : TileOp) : Prop := o.regs = none → ∀ q < o.storeRows, ∀ c < o.rowBytes / tileSize o.ty,
  o.off q (c * tileSize o.ty) + tileSize o.ty ≤ 0x400000 ∧
    s.failing (scratchKey s.myCluster.toNat (o.off q (c * tileSize o.ty))) (tileSize o.ty) = false

theorem tileSize_pos (ty : Nat) : 0 < tileSize ty := by
  unfold tileSize
  split_ifs <;> decide

/-- A piece of an operand in the scratchpad is read. -/
theorem gets_piece (hr : OpReads s o) (hreg : o.regs = none) {q c : Nat} (hq : q < o.storeRows) (hc : c < o.rowBytes / tileSize o.ty) :
    Gets s (fun v => o.read v q (c * tileSize o.ty) (tileSize o.ty)) (opBytes s o q (c * tileSize o.ty) (tileSize o.ty)) := by
  obtain ⟨hin, hgood⟩ := hr hreg q hq c hc
  have := gets_scratch (tileSize_pos o.ty) hin hgood
  unfold opBytes
  rw [hreg]
  exact this

/-- A piece of an operand in registers stands at its place in their image. -/
theorem opBytes_regs {r : Regs} (hreg : o.regs = some r) (q c n : Nat) :
    opBytes s o q c n = o.img / 2 ^ (8 * (q * o.rowBytes + c)) % 2 ^ (8 * n) := by
  unfold opBytes
  rw [hreg]

/-! ### Dense operands -/

/-- The storage row and the piece of it of index k of row r of A or column r of B (R186). -/
def densePlace (o : TileOp) (r k : Nat) : Nat × Nat := if o.isA then (r, k) else (k, r)

/-- The bytes of a dense element. -/
def denseBytes (s : State) (o : TileOp) (r k : Nat) : Nat :=
  opBytes s o (densePlace o r k).1 ((densePlace o r k).2 * tileSize o.ty) (tileSize o.ty)

theorem opVal_dense (h : tileBpn o.ty = false) (r k : Nat) : opVal s o r k = denseVal o.ty (denseBytes s o r k) := by
  unfold opVal denseBytes densePlace
  rw [h]
  cases o.isA <;> rfl

/-- The place of a dense element lies in the operand. -/
theorem densePlace_in (h : tileBpn o.ty = false) {r k : Nat} (hr : r < o.rows) (hk : k < o.k) :
    (densePlace o r k).1 < o.storeRows ∧ (densePlace o r k).2 < o.rowBytes / tileSize o.ty := by
  unfold densePlace TileOp.storeRows TileOp.rowBytes
  rw [h]
  cases o.isA <;> simp [Nat.mul_div_cancel _ (tileSize_pos o.ty), hr, hk]

/-- The bytes of a dense element in registers. -/
theorem denseBytes_regs (h : tileBpn o.ty = false) {g : Regs} (hreg : o.regs = some g) (r k : Nat) : denseBytes s o r k =
    elem (8 * tileSize o.ty) o.img (if o.isA then r * o.k + k else k * o.rows + r) := by
  have hplace : 8 * ((densePlace o r k).1 * o.rowBytes + (densePlace o r k).2 * tileSize o.ty) =
      8 * tileSize o.ty * (if o.isA then r * o.k + k else k * o.rows + r) := by
    unfold densePlace TileOp.rowBytes
    rw [h]
    cases o.isA <;> simp <;> ring
  rw [denseBytes, opBytes_regs hreg, hplace, elem, Nat.shiftRight_eq_div_pow]

/-- The values of a dense row (R186, Table 8-3). -/
theorem gets_denseRow (hr : OpReads s o) (hd : tileBpn o.ty = false) {r : Nat} (hrow : r < o.rows) (ks : List Nat)
    (hks : ∀ k ∈ ks, k < o.k) : Gets s (o.denseRow r ks) (ks.map fun k => opVal s o r k) := by
  induction ks with
  | nil => exact gets_pure s []
  | cons k ks ih =>
    have hk := hks k (by simp)
    have ih := ih fun k hk => hks k (by simp [hk])
    intro v hv
    rw [List.map_cons, opVal_dense hd]
    cases hreg : o.regs with
    | some g =>
      obtain ⟨u, hu, hnear, hcores⟩ := ih v hv
      refine ⟨u, ?_, hnear, hcores⟩
      simp only [TileOp.denseRow, hreg, hu, denseBytes_regs hd hreg]
    | none =>
      obtain ⟨hq, hc⟩ := densePlace_in hd hrow hk
      obtain ⟨w, hw, hnear, hcores⟩ := gets_piece hr hreg hq hc v hv
      obtain ⟨u, hu, hnear', hcores'⟩ := ih w hnear
      refine ⟨u, ?_, hnear', hcores'.trans hcores⟩
      unfold denseBytes
      unfold densePlace at hw ⊢
      cases hA : o.isA <;> simp only [hA, if_true, Bool.false_eq_true, if_false] at hw ⊢ <;> simp only [TileOp.denseRow, hreg, hA, hw, hu,
        if_true, Bool.false_eq_true, if_false]

/-! ### Segments -/

/-- A number cut into words of 64 bits. -/
theorem sum_words (y n : Nat) : ((List.range n).map fun j => y / 2 ^ (64 * j) % 2 ^ 64 * 2 ^ (64 * j)).sum = y % 2 ^ (64 * n) := by
  induction n with
  | zero => simp [Nat.mod_one]
  | succ n ih =>
    rw [List.range_succ, List.map_append, List.sum_append, ih, Nat.mul_succ, pow_add, Nat.mod_mul]
    simp [Nat.mul_comm]

/-- The first word of a number and the others. -/
theorem sum_words_head (f : Nat → Nat) (n : Nat) : ((List.range (n + 1)).map fun j => f j * 2 ^ (64 * j)).sum =
    f 0 + ((List.range n).map fun j => f (j + 1) * 2 ^ (64 * j)).sum * 2 ^ 64 := by
  rw [List.range_succ_eq_map, List.map_cons, List.sum_cons, List.map_map, ← List.sum_map_mul_right]
  have h0 : f 0 * 2 ^ (64 * 0) = f 0 := by simp
  have hj : ((fun j => f j * 2 ^ (64 * j)) ∘ Nat.succ) = fun j => f (j + 1) * 2 ^ (64 * j) * 2 ^ 64 := by
    funext j
    rw [Function.comp_apply, Nat.succ_eq_add_one, Nat.mul_succ, pow_add, Nat.mul_assoc]
  rw [h0, hj]

theorem opBytes_lt (s : State) (o : TileOp) (q c n : Nat) : opBytes s o q c n < 2 ^ (8 * n) := by
  unfold opBytes
  cases o.regs with
  | some r => exact Nat.mod_lt _ (Nat.two_pow_pos _)
  | none =>
    have h := leNat_lt s (scratchKey s.myCluster.toNat (o.off q c)) n
    rwa [show 256 = 2 ^ 8 by rfl, ← pow_mul] at h

/-- The header is the first word of a segment. -/
theorem opSeg_mod (s : State) (o : TileOp) (r b : Nat) : opSeg s o r b % 2 ^ 64 = opBytes s o r (72 * b) 8 := by
  have hsplit := sum_words_head (fun j => opBytes s o r (72 * b + 8 * j) 8) 8
  have hseg : opSeg s o r b = _ := hsplit
  rw [hseg, Nat.add_mul_mod_self_right]
  exact Nat.mod_eq_of_lt (opBytes_lt s o r (72 * b) 8)

/-- The words of a segment in the scratchpad are read one by one. -/
theorem gets_segWords (hr : OpReads s o) (hreg : o.regs = none) (hsize : tileSize o.ty = 8) {r : Nat} (hrow : r < o.storeRows)
    (n c : Nat) (hc : c + n ≤ o.rowBytes / 8) :
    Gets s (o.segWords r (8 * c) n) ((List.range n).map fun j => opBytes s o r (8 * c + 8 * j) 8 * 2 ^ (64 * j)).sum := by
  induction n generalizing c with
  | zero => exact gets_pure s 0
  | succ n ih =>
    have hone := gets_piece (q := r) (c := c) hr hreg hrow (by rw [hsize]; omega)
    rw [hsize, Nat.mul_comm c 8] at hone
    have hrest := ih (c + 1) (by omega)
    rw [show 8 * (c + 1) = 8 * c + 8 by ring] at hrest
    have hplace : (fun j => opBytes s o r (8 * c + 8 * (j + 1)) 8 * 2 ^ (64 * j)) =
        fun j => opBytes s o r (8 * c + 8 + 8 * j) 8 * 2 ^ (64 * j) := by
      funext j
      rw [show 8 * c + 8 * (j + 1) = 8 * c + 8 + 8 * j by ring]
    intro v hv
    obtain ⟨w, hw, hnear, hcores⟩ := hone v hv
    obtain ⟨u, hu, hnear', hcores'⟩ := hrest w hnear
    refine ⟨u, ?_, hnear', hcores'.trans hcores⟩
    rw [sum_words_head (fun j => opBytes s o r (8 * c + 8 * j) 8) n, hplace]
    dsimp only at hw
    unfold TileOp.segWords
    rw [hw]
    dsimp only
    rw [hu]
    rfl

theorem tileSize_bpn {ty : Nat} (h : tileBpn ty = true) : tileSize ty = 8 := by
  have : ty = 3 ∨ ty = 4 := by simpa [tileBpn] using h
  rcases this with rfl | rfl <;> rfl

/-- A segment of an operand is read (R186). -/
theorem gets_segment (hr : OpReads s o) (hb : tileBpn o.ty = true) {r b : Nat} (hrow : r < o.rows) (hseg : b < o.segs) :
    Gets s (o.segment r b) (opSeg s o r b) := by
  have hbytes : o.rowBytes = 72 * o.segs := by simp [TileOp.rowBytes, hb]
  unfold TileOp.segment
  cases hreg : o.regs with
  | none =>
    have hrows : r < o.storeRows := by simpa [TileOp.storeRows, hb] using hrow
    have hwords := gets_segWords hr hreg (tileSize_bpn hb) hrows 9 (9 * b) (by rw [hbytes]; omega)
    rw [show 8 * (9 * b) = 72 * b by ring] at hwords
    exact hwords
  | some g =>
    have hsum : opSeg s o r b = o.img >>> (576 * (r * o.segs + b)) % 2 ^ 576 := by
      rw [Nat.shiftRight_eq_div_pow, ← sum_words _ 9]
      unfold opSeg
      congr 1
      refine List.map_congr_left fun j _ => ?_
      rw [opBytes_regs hreg, Nat.div_div_eq_div_mul, ← pow_add, hbytes]
      congr 4
      ring
    rw [hsum]
    exact gets_pure s _

/-- The headers of an operand's segments are valid and of its type, with tags that count up (R139, R187). -/
def OpHeaders (s : State) (o : TileOp) : Prop := tileBpn o.ty = true → ∀ r < o.rows, ∀ b < o.segs,
  HdrOk (opBytes s o r (72 * b) 8) ∧ (o.isA = true → opBytes s o r (72 * b) 8 / 2 ^ 8 % 256 = 0) ∧
    (opBytes s o r (72 * b) 8).testBit 29 = (o.ty == 4) ∧ (0 < b → opTag s o r b = (opTag s o r (b - 1) + 1) % 256)

theorem hdrTag_eq (x : Nat) : hdrTag x = x / 2 ^ 16 % 256 := by rw [hdrTag, bits, Nat.shiftRight_eq_div_pow]; rfl

/-- A row of a BPN operand gives a step its values, its header and its address (R139, R187). -/
theorem gets_bpnRow (hr : OpReads s o) (hh : OpHeaders s o) (hb : tileBpn o.ty = true) {r b : Nat} (hrow : r < o.rows) (hseg : b < o.segs)
    {ks : List Nat} (hks : ∀ k ∈ ks, k / 64 = b) : Gets s (o.bpnRow r b ks)
      ⟨ks.map fun k => opVal s o r k, some (opBytes s o r (72 * b) 8), o.segAddress r b⟩ := by
  obtain ⟨hvalid, hzero, hbit, htag⟩ := hh hb r hrow b hseg
  have hbad : (!hdrValid (opBytes s o r (72 * b) 8) || (o.isA && decide (hdrZP (opBytes s o r (72 * b) 8) ≠ 0)) ||
      hdrA (opBytes s o r (72 * b) 8) != (o.ty == 4)) = false := by
    rw [hdrValid_of hvalid, hdrZP_eq, hdrA, hbit]
    cases hA : o.isA with
    | false => simp
    | true => rw [hzero hA]; simp
  have hprev : Gets s (fun v => if b = 0 then .ok (0, v) else o.segment r (b - 1) v) (if b = 0 then 0 else opSeg s o r (b - 1)) := by
    by_cases h0 : b = 0
    · simp only [h0, if_true]
      exact gets_pure s 0
    · simp only [h0, if_false]
      exact gets_segment hr hb hrow (by omega)
  have hcount : ¬(b ≠ 0 ∧ (hdrTag ((if b = 0 then 0 else opSeg s o r (b - 1)) % 2 ^ 64) + 1) % 256 ≠ hdrTag (opBytes s o r (72 * b) 8)) := by
    rintro ⟨h0, hne⟩
    rw [if_neg h0, opSeg_mod, hdrTag_eq, hdrTag_eq] at hne
    exact hne (htag (by omega)).symm
  have hvals : (ks.map fun k => opVal s o r k) = ks.map fun k =>
      FVal.fin (decide (prefixVal (opSeg s o r b) (opBytes s o r (72 * b) 8) 0 (k % 64) o.planes < 0))
        (prefixVal (opSeg s o r b) (opBytes s o r (72 * b) 8) 0 (k % 64) o.planes).natAbs
        ((hdrE8 (opBytes s o r (72 * b) 8) : Int) - 127) := by
    refine List.map_congr_left fun k hk => ?_
    unfold opVal
    rw [if_pos hb, hks k hk]
    dsimp only
    rw [opSeg_mod, ← opSeg_mod s o r b, hdrE8_eq, show opSeg s o r b % 2 ^ 64 % 256 = opSeg s o r b % 256 by omega]
  intro v hv
  obtain ⟨w, hw, hnear, hcores⟩ := gets_segment hr hb hrow hseg v hv
  obtain ⟨u, hu, hnear', hcores'⟩ := hprev w hnear
  refine ⟨u, ?_, hnear', hcores'.trans hcores⟩
  unfold TileOp.bpnRow
  rw [hw, hvals]
  dsimp only at hu ⊢
  rw [opSeg_mod, hbad, hu]
  dsimp only
  rw [if_neg Bool.false_ne_true, if_neg hcount]

/-! ### The rows of a step -/

/-- What a step takes from row r of A or column r of B. -/
def rowOf (s : State) (o : TileOp) (b : Nat) (ks : List Nat) (r : Nat) : TileRow :=
  if tileBpn o.ty then ⟨ks.map fun k => opVal s o r k, some (opBytes s o r (72 * b) 8), o.segAddress r b⟩
  else ⟨ks.map fun k => opVal s o r k, none, 0⟩

theorem rowOf_vals (s : State) (o : TileOp) (b : Nat) (ks : List Nat) (r : Nat) : (rowOf s o b ks r).vals = ks.map fun k => opVal s o r k := by
  unfold rowOf
  split <;> rfl

theorem rowOf_hdr (s : State) (o : TileOp) (b : Nat) (ks : List Nat) (r : Nat) :
    (rowOf s o b ks r).hdr = if tileBpn o.ty then some (opBytes s o r (72 * b) 8) else none := by
  unfold rowOf
  split <;> rfl

/-- A step fetches its rows. -/
theorem gets_fetch (hr : OpReads s o) (hh : OpHeaders s o) {b : Nat} {ks : List Nat} (hks : ∀ k ∈ ks, k / 64 = b ∧ k < o.k)
    (hseg : b < o.segs) (rows : List Nat) (hrows : ∀ r ∈ rows, r < o.rows) :
    Gets s (o.fetch b ks rows) (rows.map fun r => (r, rowOf s o b ks r)) := by
  induction rows with
  | nil => exact gets_pure s []
  | cons r rows ih =>
    have hrow := hrows r (by simp)
    have ih := ih fun r hr => hrows r (by simp [hr])
    intro v hv
    rw [List.map_cons]
    cases hb : tileBpn o.ty with
    | true =>
      obtain ⟨w, hw, hnear, hcores⟩ := gets_bpnRow hr hh hb hrow hseg (fun k hk => (hks k hk).1) v hv
      obtain ⟨u, hu, hnear', hcores'⟩ := ih w hnear
      refine ⟨u, ?_, hnear', hcores'.trans hcores⟩
      simp only [TileOp.fetch, hb, if_true, hw, hu]
      simp only [rowOf, hb, if_true]
    | false =>
      obtain ⟨w, hw, hnear, hcores⟩ := gets_denseRow hr hb hrow ks (fun k hk => (hks k hk).2) v hv
      obtain ⟨u, hu, hnear', hcores'⟩ := ih w hnear
      refine ⟨u, ?_, hnear', hcores'.trans hcores⟩
      simp only [TileOp.fetch, hb, Bool.false_eq_true, if_false, hw, hu]
      simp only [rowOf, hb, Bool.false_eq_true, if_false]

/-- The row among those fetched. -/
theorem tileRow_map (f : Nat → TileRow) {rows : List Nat} {r : Nat} (h : r ∈ rows) : tileRow (rows.map fun r => (r, f r)) r = f r := by
  unfold tileRow
  rw [List.find?_map]
  cases hf : rows.find? ((fun p : Nat × TileRow => p.1 == r) ∘ fun r => (r, f r)) with
  | none =>
    rw [List.find?_eq_none] at hf
    exact absurd (hf r h) (by simp)
  | some x =>
    have := List.find?_some hf
    simp only [Function.comp_apply, beq_iff_eq] at this
    rw [this]
    rfl

end Reads

end Sys2Proof.Machine
end

section
/-! PROOFS. The steps of TMMA (10 R185 to R189). -/

namespace Sys2Proof.Machine

open Sys2Proof.Safety

/-! ### Products of rows and columns -/

theorem accAdd_lt (e : Int) {acc : Nat} (h : acc < 2 ^ 256) (st : Nat) (p : FVal) (nv : Bool) : (accAdd e acc st p nv).1 < 2 ^ 256 := by
  unfold accAdd
  cases p with
  | nan b => exact h
  | fin b m x => exact ofSigned_256_lt _
  | inf b =>
    dsimp only
    split
    · exact h
    · exact h

/-- An element after products is one of 256 bits with a status of two. -/
theorem tileDot_lt (e : Int) {acc st : Nat} (ha : acc < 2 ^ 256) (hs : st < 4) (xs ys : List FVal) :
    (tileDot e acc st xs ys).1 < 2 ^ 256 ∧ (tileDot e acc st xs ys).2.1 < 4 := by
  induction xs generalizing acc st ys with
  | nil => exact ⟨ha, hs⟩
  | cons x xs ih =>
    cases ys with
    | nil => exact ⟨ha, hs⟩
    | cons y ys => exact ih (accAdd_lt e ha _ _ _) (accAdd_status_lt e _ hs _ _) ys

/-- One more product. -/
def dotStep (e : Int) (x y : Nat → FVal) (r : Nat × Nat × Flags) (k : Nat) : Nat × Nat × Flags :=
  let p := tileMul (x k) (y k)
  let q := accAdd e r.1 r.2.1 p.1 p.2
  (q.1, q.2.1, r.2.2 ||| q.2.2)

theorem dotFold_eq (e : Int) (x y : Nat → FVal) (n : Nat) (a : Nat × Nat) :
    dotFold e x y n a = (List.range n).foldl (dotStep e x y) (a.1, a.2, 0) := rfl

/-- A step of products is that many products more. -/
theorem foldl_dotStep (e : Int) (x y : Nat → FVal) (r : Nat × Nat × Flags) (ks : List Nat) :
    ks.foldl (dotStep e x y) r =
      let q := tileDot e r.1 r.2.1 (ks.map x) (ks.map y)
      (q.1, q.2.1, r.2.2 ||| q.2.2) := by
  induction ks generalizing r with
  | nil => simp [tileDot]
  | cons k ks ih =>
    rw [List.foldl_cons, ih]
    simp only [List.map_cons, tileDot, dotStep, BitVec.or_assoc]

/-- The products up to n, and `len` more (R188). -/
theorem dotFold_add (e : Int) (x y : Nat → FVal) (n len : Nat) (a : Nat × Nat) :
    let r := dotFold e x y n a
    let q := tileDot e r.1 r.2.1 ((List.range' n len).map x) ((List.range' n len).map y)
    dotFold e x y (n + len) a = (q.1, q.2.1, r.2.2 ||| q.2.2) := by
  intro r q
  have hrange : List.range (n + len) = List.range n ++ List.range' n len := by
    rw [List.range_eq_range', List.range_eq_range', ← List.range'_append_1, Nat.zero_add]
  rw [dotFold_eq, hrange, List.foldl_append, ← dotFold_eq, foldl_dotStep]

/-- Flags of products stay with more products. -/
theorem dotFold_flags_le (e : Int) (x y : Nat → FVal) {n m : Nat} (h : n ≤ m) (a : Nat × Nat) {c : Nat}
    (hm : (dotFold e x y m a).2.2.getLsbD c = false) : (dotFold e x y n a).2.2.getLsbD c = false := by
  obtain ⟨len, rfl⟩ := Nat.exists_eq_add_of_le h
  rw [dotFold_add] at hm
  simp only [BitVec.getLsbD_or, Bool.or_eq_false_iff] at hm
  exact hm.1

/-! ### The order of the steps -/

/-- The place of an element in the order of the tile (R188). -/
def tilePlace (N i : Nat) : Nat := i / 64 * N + i % 64

/-- The element at a place. -/
def tileAt (N t : Nat) : Nat := 64 * (t / N) + t % N

theorem tileAt_div {N t : Nat} (hN : 0 < N) (h64 : N ≤ 64) : tileAt N t / 64 = t / N ∧ tileAt N t % 64 = t % N := by
  have := Nat.mod_lt t hN
  unfold tileAt
  omega

theorem tilePlace_tileAt {N t : Nat} (hN : 0 < N) (h64 : N ≤ 64) : tilePlace N (tileAt N t) = t := by
  obtain ⟨h1, h2⟩ := tileAt_div (t := t) hN h64
  rw [tilePlace, h1, h2, Nat.mul_comm]
  exact Nat.div_add_mod t N

theorem tileAt_tilePlace {N i : Nat} (hi : i % 64 < N) : tileAt N (tilePlace N i) = i := by
  have hN : 0 < N := by omega
  have h1 : tilePlace N i / N = i / 64 := by
    rw [tilePlace, Nat.mul_comm, Nat.mul_add_div hN, Nat.div_eq_of_lt hi, Nat.add_zero]
  have h2 : tilePlace N i % N = i % 64 := by
    rw [tilePlace, Nat.mul_comm, Nat.mul_add_mod, Nat.mod_eq_of_lt hi]
  rw [tileAt, h1, h2]
  omega

/-- The places of a tile. -/
theorem tilePlace_lt {M N i : Nat} (hm : i / 64 < M) (hn : i % 64 < N) : tilePlace N i < M * N := by
  have : (i / 64 + 1) * N ≤ M * N := Nat.mul_le_mul_right N hm
  rw [Nat.add_mul, Nat.one_mul] at this
  unfold tilePlace
  omega

theorem inTile_iff {s : State} {i : Nat} : inTile s i = true ↔ i / 64 < s.h.shape.m ∧ i % 64 < s.h.shape.n := by
  simp [inTile]

section Order

variable {sh : TileShape} {g j : Nat} (hg : 0 < g) (hk : sh.k ≠ 0)

/-- The elements of a step of TMMA. -/
def mmaElems (sh : TileShape) (g j : Nat) : List Nat := (tileStep sh g j).ts.map (tileAt sh.n)

/-- The indices k done at a place before step j (R188). -/
def mmaDone (sh : TileShape) (g j t : Nat) : Nat := min sh.k (8 * (j - (sh.k + 7) / 8 * (t / g)))

include hg in
/-- The places of a step. -/
theorem mem_ts {t : Nat} : t ∈ (tileStep sh g j).ts ↔ t < sh.m * sh.n ∧ t / g = j / ((sh.k + 7) / 8) := by
  have hts : (tileStep sh g j).ts = List.range' (j / ((sh.k + 7) / 8) * g) (min g (sh.m * sh.n - j / ((sh.k + 7) / 8) * g)) := rfl
  rw [hts, List.mem_range'_1]
  generalize j / ((sh.k + 7) / 8) = p
  rw [Nat.div_eq_iff hg]
  omega

include hg in
theorem mem_mmaElems {s : State} {i : Nat} :
    i ∈ mmaElems s.h.shape g j ↔ inTile s i = true ∧ tilePlace s.h.shape.n i / g = j / ((s.h.shape.k + 7) / 8) := by
  obtain ⟨-, h64⟩ := shape_le s
  have hN : 0 < s.h.shape.n := Nat.succ_pos _
  unfold mmaElems
  rw [List.mem_map, inTile_iff]
  constructor
  · rintro ⟨t, ht, rfl⟩
    obtain ⟨hlt, hp⟩ := (mem_ts hg).mp ht
    obtain ⟨h1, h2⟩ := tileAt_div (t := t) hN h64
    rw [h1, h2, tilePlace_tileAt hN h64]
    exact ⟨⟨(Nat.div_lt_iff_lt_mul hN).mpr hlt, Nat.mod_lt _ hN⟩, hp⟩
  · rintro ⟨⟨h1, h2⟩, hp⟩
    exact ⟨_, (mem_ts hg).mpr ⟨tilePlace_lt h1 h2, hp⟩, tileAt_tilePlace h2⟩

/-- The indices k of a step. -/
theorem tileStep_ks : (tileStep sh g j).ks = List.range' (8 * (j % ((sh.k + 7) / 8))) (min 8 (sh.k - 8 * (j % ((sh.k + 7) / 8)))) := rfl

/-- The indices k of a step lie below K, in one block. -/
theorem mem_ks {k : Nat} (h : k ∈ (tileStep sh g j).ks) : k / 64 = (tileStep sh g j).b ∧ k < sh.k := by
  have hb : (tileStep sh g j).b = j % ((sh.k + 7) / 8) / 8 := rfl
  rw [tileStep_ks, List.mem_range'_1] at h
  rw [hb]
  omega

include hk in
theorem tileStep_b_lt : (tileStep sh g j).b < (sh.k + 63) / 64 := by
  have hb : (tileStep sh g j).b = j % ((sh.k + 7) / 8) / 8 := rfl
  have := Nat.mod_lt j (show 0 < (sh.k + 7) / 8 by omega)
  rw [hb]
  omega

include hk in
/-- At the places of a step the indices done are those below its own; it does these. -/
theorem mmaDone_step {t : Nat} (ht : t / g = j / ((sh.k + 7) / 8)) : mmaDone sh g j t = 8 * (j % ((sh.k + 7) / 8)) ∧
    mmaDone sh g (j + 1) t = 8 * (j % ((sh.k + 7) / 8)) + min 8 (sh.k - 8 * (j % ((sh.k + 7) / 8))) := by
  have hn : 0 < (sh.k + 7) / 8 := by omega
  have hlt := Nat.mod_lt j hn
  have hsub : j - (sh.k + 7) / 8 * (j / ((sh.k + 7) / 8)) = j % ((sh.k + 7) / 8) := by
    have := Nat.div_add_mod j ((sh.k + 7) / 8)
    omega
  have hsub' : j + 1 - (sh.k + 7) / 8 * (j / ((sh.k + 7) / 8)) = j % ((sh.k + 7) / 8) + 1 := by
    have := Nat.div_add_mod j ((sh.k + 7) / 8)
    omega
  unfold mmaDone
  rw [ht, hsub, hsub']
  omega

include hk in
/-- At other places a step changes nothing. -/
theorem mmaDone_other {t : Nat} (ht : t / g ≠ j / ((sh.k + 7) / 8)) : mmaDone sh g (j + 1) t = mmaDone sh g j t := by
  have hn : 0 < (sh.k + 7) / 8 := by omega
  have hK : sh.k ≤ 8 * ((sh.k + 7) / 8) := by omega
  have hdm := Nat.div_add_mod j ((sh.k + 7) / 8)
  have hlt := Nat.mod_lt j hn
  unfold mmaDone
  generalize (sh.k + 7) / 8 = n at *
  generalize j / n = p at *
  generalize t / g = q at *
  rcases Nat.lt_or_gt_of_ne ht with h | h
  · have hle : n * (q + 1) ≤ n * p := Nat.mul_le_mul_left n h
    rw [Nat.mul_succ] at hle
    omega
  · have hle : n * (p + 1) ≤ n * q := Nat.mul_le_mul_left n h
    rw [Nat.mul_succ] at hle
    omega

theorem mmaDone_zero (t : Nat) : mmaDone sh g 0 t = 0 := by simp [mmaDone]

include hg in
/-- After the last step every index is done. -/
theorem mmaDone_all {t : Nat} (ht : t < sh.m * sh.n) : mmaDone sh g ((sh.k + 7) / 8 * ((sh.m * sh.n + g - 1) / g)) t = sh.k := by
  have hlast : t / g + 1 ≤ (sh.m * sh.n + g - 1) / g := by
    rw [Nat.le_div_iff_mul_le hg, Nat.add_mul, Nat.one_mul]
    have := Nat.div_mul_le_self t g
    omega
  have hle : (sh.k + 7) / 8 * (t / g + 1) ≤ (sh.k + 7) / 8 * ((sh.m * sh.n + g - 1) / g) := Nat.mul_le_mul_left _ hlast
  rw [Nat.mul_succ] at hle
  have hK : sh.k ≤ 8 * ((sh.k + 7) / 8) := by omega
  unfold mmaDone
  omega

end Order

end Sys2Proof.Machine
end

section
/-! PROOFS. TMMA, and what the tile instructions on registers give (10 R183 to R192). -/

namespace Sys2Proof.Machine

open Sys2Proof.Safety

/-! ### One step -/

/-- What the operands of a TMMA of s and its accumulator satisfy (R139, R183, R186). -/
structure MmaOk (s : State) (z : BitVec 2) (A B : TileOp) : Prop where
  held : s.holdsZ z = true
  k_pos : s.h.shape.k ≠ 0
  rowsA : A.rows = s.h.shape.m
  rowsB : B.rows = s.h.shape.n
  kA : A.k = s.h.shape.k
  kB : B.k = s.h.shape.k
  readsA : OpReads s A
  readsB : OpReads s B
  headersA : OpHeaders s A
  headersB : OpHeaders s B
  tags : tileBpn A.ty = true → tileBpn B.ty = true → ∀ p < A.rows, ∀ q < B.rows, ∀ j < A.segs, opTag s A p j = opTag s B q j
  wov : s.h.wovt = true → ∀ i, inTile s i = true → (dotFold (s.accum z).e (opVal s A (i / 64)) (opVal s B (i % 64)) s.h.shape.k
    (zAcc s z i, zSt s z i)).2.2.getLsbD 7 = false

/-- The elements of accumulator z before step j of TMMA (R188). -/
def mmaSoFar (s : State) (z : BitVec 2) (A B : TileOp) (g j i : Nat) : Nat × Nat × Flags :=
  if inTile s i then dotFold (s.accum z).e (opVal s A (i / 64)) (opVal s B (i % 64)) (mmaDone s.h.shape g j (tilePlace s.h.shape.n i))
    (zAcc s z i, zSt s z i)
  else elemsOf s z i

theorem mmaSoFar_zero (s : State) (z : BitVec 2) (A B : TileOp) (g : Nat) : mmaSoFar s z A B g 0 = elemsOf s z := by
  funext i
  unfold mmaSoFar
  rw [mmaDone_zero]
  split <;> rfl

/-- The products of a step at an element of accumulator a. -/
def mmaDot (s : State) (A B : TileOp) (a : Accum) (ks : List Nat) (i : Nat) : Nat × Nat × Flags :=
  tileDot a.e (a.val i) (a.status i) (ks.map (opVal s A (i / 64))) (ks.map (opVal s B (i % 64)))

section Step

variable {s : State} {z : BitVec 2} {A B : TileOp} (hok : MmaOk s z A B) {g : Nat} (hg : 0 < g)
include hok hg

/-- The elements after a step, from those before. -/
theorem mmaSoFar_succ {a : Accum} {j : Nat} (hE : a.e = (s.accum z).e)
    (ha : ∀ i < 4096, a.val i = (mmaSoFar s z A B g j i).1 ∧ a.status i = (mmaSoFar s z A B g j i).2.1) :
    stepElems (mmaElems s.h.shape g j) (mmaDot s A B a (tileStep s.h.shape g j).ks) (mmaSoFar s z A B g j) = mmaSoFar s z A B g (j + 1) := by
  obtain ⟨hm64, -⟩ := shape_le s
  funext i
  unfold stepElems
  by_cases hin : inTile s i = true
  · have hbefore : mmaSoFar s z A B g j i = dotFold (s.accum z).e (opVal s A (i / 64)) (opVal s B (i % 64))
        (mmaDone s.h.shape g j (tilePlace s.h.shape.n i)) (zAcc s z i, zSt s z i) := if_pos hin
    have hafter : mmaSoFar s z A B g (j + 1) i = dotFold (s.accum z).e (opVal s A (i / 64)) (opVal s B (i % 64))
        (mmaDone s.h.shape g (j + 1) (tilePlace s.h.shape.n i)) (zAcc s z i, zSt s z i) := if_pos hin
    by_cases hp : tilePlace s.h.shape.n i / g = j / ((s.h.shape.k + 7) / 8)
    · obtain ⟨hval, hst⟩ := ha i (by have := (inTile_iff.mp hin).1; omega)
      obtain ⟨hd, hd'⟩ := mmaDone_step hok.k_pos hp
      rw [if_pos ((mem_mmaElems hg).mpr ⟨hin, hp⟩), hafter, hd', dotFold_add]
      rw [hbefore, hd] at hval hst
      rw [mmaDot, hE, hval, hst, hbefore, hd, tileStep_ks]
      rw [BitVec.or_comm]
    · rw [if_neg fun h => hp ((mem_mmaElems hg).mp h).2, hbefore, hafter, mmaDone_other hok.k_pos hp]
  · rw [if_neg fun h => hin ((mem_mmaElems hg).mp h).1]
    unfold mmaSoFar
    rw [if_neg hin, if_neg hin]

omit hok in
/-- The rows and columns of the places of a step are among those it fetches. -/
theorem mem_step_rows {j t : Nat} (ht : t ∈ (tileStep s.h.shape g j).ts) :
    (t / s.h.shape.n ∈ (tileStep s.h.shape g j).rows ∧ t / s.h.shape.n < s.h.shape.m) ∧
      t % s.h.shape.n ∈ (tileStep s.h.shape g j).cols ∧ t % s.h.shape.n < s.h.shape.n := by
  have hN : 0 < s.h.shape.n := Nat.succ_pos _
  have hlt := ((mem_ts hg).mp ht).1
  have hrow : t / s.h.shape.n < s.h.shape.m := (Nat.div_lt_iff_lt_mul hN).mpr hlt
  have hcol := Nat.mod_lt t hN
  refine ⟨⟨List.mem_filter.mpr ⟨List.mem_range.mpr hrow, List.any_eq_true.mpr ⟨t, ht, ?_⟩⟩, hrow⟩,
    List.mem_filter.mpr ⟨List.mem_range.mpr hcol, List.any_eq_true.mpr ⟨t, ht, ?_⟩⟩, hcol⟩
  · exact beq_self_eq_true _
  · exact beq_self_eq_true _

omit hok hg in
theorem Near.refl (s : State) : Near s s := rfl

omit hok hg in
theorem SameBut.near {u v : State} (h : SameBut u v z) (hu : Near s u) : Near s v := by
  unfold Near at hu ⊢
  rw [h.frame]
  exact congrArg (fun x : State => { x with cores := v.cores }) hu

omit hok hg in
/-- Reading leaves the accumulators. -/
theorem accum_of_cores {v w : State} (hv : Near s v) (hw : Near s w) (hc : w.cores = v.cores) (y : BitVec 2) : w.accum y = v.accum y := by
  have hv : v.myCore = s.myCore := by rw [hv]; rfl
  have hw : w.myCore = s.myCore := by rw [hw]; rfl
  unfold State.accum State.core
  rw [hv, hw, hc]

omit hok hg in
/-- Reading changes a watch hit alone. -/
theorem SameBut.after_reads {u v w : State} (h : SameBut u v z) (hu : Near s u) (huc : u.cores = s.cores) (hw : Near s w)
    (hc : w.cores = v.cores) : SameBut { s with h := { s.h with watch := w.h.watch } } w z := by
  have hcore : ∀ c, w.core c = v.core c := fun c => by unfold State.core; rw [hc]
  have hcore' : ∀ c, u.core c = s.core c := fun c => by unfold State.core; rw [huc]
  have hmy : u.myCore = s.myCore := by rw [hu]; rfl
  refine ⟨hw, fun c => ?_, fun c hcc => ?_, fun y hy => ?_⟩
  · rw [hcore, h.core c, hcore']
    rfl
  · rw [hcore, h.others c (by rw [hmy]; exact hcc), hcore']
    rfl
  · rw [accum_of_cores (h.near hu) hw hc, h.accums y hy]
    exact accum_of_cores (Near.refl s) hu huc y

omit hg in
/-- No places of a step have segments of different tags (R139). -/
theorem no_skew {j t : Nat} (hrow : t / s.h.shape.n < s.h.shape.m) (hcol : t % s.h.shape.n < s.h.shape.n) {a b : Nat}
    (ha : (rowOf s A (tileStep s.h.shape g j).b (tileStep s.h.shape g j).ks (t / s.h.shape.n)).hdr = some a)
    (hb : (rowOf s B (tileStep s.h.shape g j).b (tileStep s.h.shape g j).ks (t % s.h.shape.n)).hdr = some b) : hdrTag a = hdrTag b := by
  rw [rowOf_hdr] at ha hb
  cases hA : tileBpn A.ty with
  | false => simp [hA] at ha
  | true =>
    cases hB : tileBpn B.ty with
    | false => simp [hB] at hb
    | true =>
      rw [if_pos hA] at ha
      rw [if_pos hB] at hb
      have htag := hok.tags hA hB _ (hok.rowsA.symm ▸ hrow) (t % s.h.shape.n) (hok.rowsB.symm ▸ hcol) (tileStep s.h.shape g j).b
        (by rw [TileOp.segs, hok.kA]; exact tileStep_b_lt hok.k_pos)
      rw [← Option.some.inj ha, ← Option.some.inj hb, hdrTag_eq, hdrTag_eq]
      exact htag

/-- A step of TMMA in the form of the rules. -/
theorem TileRun.mma_eq {r : TileRun} {v w : State} {j : Nat} (hfault : r.fault = none) {x : TileStep} (hx : x = tileStep s.h.shape g j)
    (hv : A.fetch x.b x.ks x.rows r.s = .ok (x.rows.map fun m => (m, rowOf s A x.b x.ks m), v))
    (hw : B.fetch x.b x.ks x.cols v = .ok (x.cols.map fun n => (n, rowOf s B x.b x.ks n), w)) (hwovt : w.h.wovt = s.h.wovt)
    (hflags : s.h.wovt = true → ∀ i ∈ mmaElems s.h.shape g j, (mmaDot s A B (w.accum z) x.ks i).2.2.getLsbD 7 = false) :
    r.mma z A B s.h.shape g j = ⟨w.setAccum z { (w.accum z).putAll false (mmaDot s A B (w.accum z) x.ks)
      (mmaElems s.h.shape g j) with taken := true }, flagsOf (mmaDot s A B (w.accum z) x.ks) (mmaElems s.h.shape g j) ++ r.fl, none⟩ := by
  obtain ⟨-, h64⟩ := shape_le s
  have hN : 0 < s.h.shape.n := Nat.succ_pos _
  have hrows : ∀ t ∈ x.ts, tileRow (x.rows.map fun m => (m, rowOf s A x.b x.ks m)) (t / s.h.shape.n) = rowOf s A x.b x.ks (t / s.h.shape.n) ∧
      tileRow (x.cols.map fun n => (n, rowOf s B x.b x.ks n)) (t % s.h.shape.n) = rowOf s B x.b x.ks (t % s.h.shape.n) := fun t ht => by
    subst hx
    exact ⟨tileRow_map _ (mem_step_rows hg ht).1.1, tileRow_map _ (mem_step_rows hg ht).2.1⟩
  have hnew : (x.ts.map fun t => (64 * (t / s.h.shape.n) + t % s.h.shape.n, tileDot (w.accum z).e
      ((w.accum z).val (64 * (t / s.h.shape.n) + t % s.h.shape.n)) ((w.accum z).status (64 * (t / s.h.shape.n) + t % s.h.shape.n)) (tileRow (x.rows.map fun m => (m, rowOf s A x.b x.ks m)) (t / s.h.shape.n)).vals
      (tileRow (x.cols.map fun n => (n, rowOf s B x.b x.ks n)) (t % s.h.shape.n)).vals)) =
      (mmaElems s.h.shape g j).map fun i => (i, mmaDot s A B (w.accum z) x.ks i) := by
    rw [mmaElems, ← hx, List.map_map]
    refine List.map_congr_left fun t ht => ?_
    obtain ⟨hA, hB⟩ := hrows t ht
    obtain ⟨hdiv, hmod⟩ := tileAt_div (t := t) hN h64
    rw [hA, hB, rowOf_vals, rowOf_vals, Function.comp_apply, mmaDot, hdiv, hmod]
    rfl
  unfold TileRun.mma
  rw [hfault, ← hx]
  dsimp only
  rw [if_neg (by decide), hv]
  dsimp only
  rw [hw]
  dsimp only
  generalize hskew : List.find? _ x.ts = skew
  cases skew with
  | some t =>
    exfalso
    have ht := List.mem_of_find?_eq_some hskew
    have hbad := List.find?_some hskew
    obtain ⟨hA, hB⟩ := hrows t ht
    rw [hA, hB] at hbad
    split at hbad
    · next a b ha hb =>
      subst hx
      obtain ⟨⟨-, hrow⟩, -, hcol⟩ := mem_step_rows hg ht
      rw [no_skew hok hrow hcol ha hb] at hbad
      simp at hbad
    · exact absurd hbad (by decide)
  | none =>
    dsimp only
    rw [hnew, hwovt]
    generalize hover : (if s.h.wovt = true then List.find? _ _ else none : Option (Nat × Nat × Nat × Flags)) = top
    cases top with
    | some y =>
      exfalso
      split at hover
      · next hw =>
        obtain ⟨i, hi, rfl⟩ := List.mem_map.mp (List.mem_of_find?_eq_some hover)
        have hbad := List.find?_some hover
        rw [hflags hw i hi] at hbad
        exact absurd hbad (by decide)
      · exact absurd hover (by simp)
    | none =>
      unfold Accum.putAll flagsOf
      simp only [List.foldl_map, List.filterMap_map]
      rfl

/-- A step of TMMA with its operands read adds its products (R188, R123). -/
theorem TileRun.mma_step {u : State} {j : Nat} {r : TileRun} (h : TileSoFar s u z j (mmaSoFar s z A B g j) r) (hu : Near s u)
    (huc : u.cores = s.cores) : ∃ u', TileSoFar s u' z (j + 1) (mmaSoFar s z A B g (j + 1)) (r.mma z A B s.h.shape g j) ∧ Near s u' ∧
      u'.cores = s.cores := by
  obtain ⟨-, h64⟩ := shape_le s
  have hN : 0 < s.h.shape.n := Nat.succ_pos _
  set x := tileStep s.h.shape g j with hx
  have hksA : ∀ k ∈ x.ks, k / 64 = x.b ∧ k < A.k := fun k hk => hok.kA ▸ mem_ks hk
  have hksB : ∀ k ∈ x.ks, k / 64 = x.b ∧ k < B.k := fun k hk => hok.kB ▸ mem_ks hk
  have hbA : x.b < A.segs := by rw [TileOp.segs, hok.kA]; exact tileStep_b_lt hok.k_pos
  have hbB : x.b < B.segs := by rw [TileOp.segs, hok.kB]; exact tileStep_b_lt hok.k_pos
  obtain ⟨v, hv, hvnear, hvcores⟩ := gets_fetch hok.readsA hok.headersA hksA hbA x.rows (fun m hm => by
    rw [hok.rowsA]; exact List.mem_range.mp (List.mem_filter.mp hm).1) r.s (h.same.near hu)
  obtain ⟨w, hw, hwnear, hwcores⟩ := gets_fetch hok.readsB hok.headersB hksB hbB x.cols (fun n hn => by
    rw [hok.rowsB]; exact List.mem_range.mp (List.mem_filter.mp hn).1) v hvnear
  have hwc : w.cores = r.s.cores := hwcores.trans hvcores
  have hsame := h.same.after_reads hu huc hwnear hwc
  have hacc : w.accum z = r.s.accum z := accum_of_cores (h.same.near hu) hwnear hwc z
  have hE : (r.s.accum z).e = (s.accum z).e := congrArg BitVec.toInt h.like.1
  have hrun : r.mma z A B s.h.shape g j = ⟨w.setAccum z { (r.s.accum z).putAll false (mmaDot s A B (r.s.accum z) x.ks)
      (mmaElems s.h.shape g j) with taken := true }, flagsOf (mmaDot s A B (r.s.accum z) x.ks) (mmaElems s.h.shape g j) ++ r.fl, none⟩ := by
    rw [← hacc]
    refine TileRun.mma_eq hok hg h.fault hx hv hw (by rw [hwnear]; rfl) fun hwov i hi => ?_
    have hin := ((mem_mmaElems hg).mp hi).1
    have htotal : (mmaSoFar s z A B g (j + 1) i).2.2.getLsbD 7 = false := by
      unfold mmaSoFar
      rw [if_pos hin]
      exact dotFold_flags_le _ _ _ (Nat.min_le_left _ _) _ (hok.wov hwov i hin)
    rw [← mmaSoFar_succ hok hg hE h.elems, stepElems, if_pos hi] at htotal
    simp only [BitVec.getLsbD_or, Bool.or_eq_false_iff] at htotal
    rw [hacc]
    exact htotal.1
  refine ⟨{ s with h := { s.h with watch := w.h.watch } }, ?_, rfl, rfl⟩
  rw [hrun, ← mmaSoFar_succ hok hg hE h.elems]
  exact h.write hok.held hsame _ fun i _ => tileDot_lt _ (Accum.val_lt _ _) (Accum.status_lt _ _) _ _

/-- Every step of TMMA. -/
theorem mma_steps (n : Nat) : ∃ u, TileSoFar s u z n (mmaSoFar s z A B g n)
    ((List.range n).foldl (fun (r : TileRun) j => r.mma z A B s.h.shape g j) ⟨s, [], none⟩) ∧ Near s u ∧ u.cores = s.cores := by
  induction n with
  | zero => exact ⟨s, mmaSoFar_zero s z A B g ▸ tileSoFar_start s z, Near.refl s, rfl⟩
  | succ n ih =>
    obtain ⟨u, h, hu, huc⟩ := ih
    rw [List.range_succ, List.foldl_append, List.foldl_cons, List.foldl_nil]
    exact TileRun.mma_step hok hg h hu huc

end Step

/-! ### Operands that pass the checks -/

section Operand

variable {s : State} {isA : Bool} {sa e : BitVec 1} {a : BitVec 5} {ty planes rows k g : Nat}

theorem pair_good (h : a.toNat % 2 = 0) (h2 : 2 ≤ a.toNat) : pairBad sa a = false := by
  have h0 : a.getLsbD 0 = false := by
    rw [BitVec.getLsbD, Nat.testBit_zero]
    simp [h]
  rw [pairBad, h0, decide_eq_false (by omega), Bool.or_self, Bool.and_false]

variable {o : TileOp} (h : OpOk s o sa a e)
include h

/-- An operand that TMMA takes can be read. -/
theorem opOk_reads : OpReads s o := by
  intro hreg q hq c hc
  obtain ⟨hplace, -, -⟩ := h
  rw [hreg] at hplace
  obtain ⟨-, -, -, -, -, -, -, hall⟩ := hplace
  exact hall q hq c hc

theorem opOk_headers : OpHeaders s o := h.2.2

/-- Its name is legal (R56, R187). -/
theorem opOk_legal : pairBad sa a = false ∧ (sa == 1 && e == 1) = false := by
  obtain ⟨hplace, hsa, -⟩ := h
  by_cases h1 : sa = 1
  · rw [hsa.mp h1] at hplace
    obtain ⟨he, heven, h2, -⟩ := hplace
    exact ⟨pair_good heven h2, by simp [he]⟩
  · have hf : (sa == 1) = false := by simpa using h1
    exact ⟨by rw [pairBad, hf, Bool.false_and], by rw [hf, Bool.false_and]⟩

/-- Its registers are held and full, and lie in v0 to v31. -/
theorem opOk_regs_good {r : Regs} (hreg : o.regs = some r) : Held s r ∧ r.past = false := by
  obtain ⟨hplace, -, -⟩ := h
  rw [hreg] at hplace
  exact ⟨hplace.2, by simpa [Regs.past] using hplace.1⟩

/-- The registers that TMMA names of an operand. -/
def opSrcs (o : TileOp) (e : BitVec 1) : List (Regs × Bool) := match o.regs with | some r => [(r, e == 1)] | none => []

/-- An operand's registers run past v31. -/
def opPast (o : TileOp) : Bool := match o.regs with | some r => r.past | none => false

theorem srcs_held {p : Regs × Bool} (hp : p ∈ opSrcs o e) : Held s p.1 := by
  unfold opSrcs at hp
  cases hreg : o.regs with
  | none => simp [hreg] at hp
  | some r =>
    rw [hreg] at hp
    obtain rfl := List.mem_singleton.mp hp
    exact (opOk_regs_good h hreg).1

theorem opOk_past : opPast o = false := by
  unfold opPast
  cases hreg : o.regs with
  | none => rfl
  | some r => exact (opOk_regs_good h hreg).2

/-- Its scratchpad layout is aligned and lies below 4 MiB (R183, R186). -/
theorem opOk_checks_pass : (∀ c ∈ o.checks (tileSize o.ty) o.rowBytes, c.1 = false) ∧
    ∀ c ∈ o.extent (tileSize o.ty) o.storeRows o.rowBytes, c.1 = false := by
  obtain ⟨hplace, -, -⟩ := h
  unfold TileOp.checks TileOp.extent
  simp only [List.mem_singleton, forall_eq]
  cases hreg : o.regs with
  | some r => exact ⟨by simp [TileOp.misaligned, hreg], by simp [TileOp.leaves, hreg]⟩
  | none =>
    rw [hreg] at hplace
    obtain ⟨-, -, -, hbase, hrp, htp, hrho, hall⟩ := hplace
    refine ⟨?_, ?_⟩
    · simp only [TileOp.misaligned, hbase, hrp, htp]
      simpa using fun _ => hrho
    · have hnone : o.leaves (tileSize o.ty) o.storeRows o.rowBytes = none := by
        unfold TileOp.leaves
        rw [hreg, if_neg (by simp)]
        refine leastOf_none.mpr fun x hx => ?_
        obtain ⟨q, hq, rfl⟩ := List.mem_map.mp hx
        refine leastOf_none.mpr fun x hx => ?_
        obtain ⟨c, hc, rfl⟩ := List.mem_map.mp hx
        exact if_pos (hall q (List.mem_range.mp hq) c (List.mem_range.mp hc)).1
      simp [hnone]

end Operand

theorem Hart.tileGrant_pos (h : Hart) : 0 < h.tileGrant := by
  unfold Hart.tileGrant
  split <;> omega

/-- A tile instruction that is legal and whose operands and checks pass begins its work. -/
theorem tileIssue_begins {s : State} {srcs : List (Regs × Bool)} {zs : List (BitVec 2)} {illegal : Bool} {more : List (Bool × Nat × Word)}
    {k : State → Result} {need : Nat → List (Nat × Nat)} {total : Nat} (hF : Fresh s) (hi : illegal = false) (hs : ∀ p ∈ srcs, Held s p.1)
    (hz : ∀ z ∈ zs, s.holdsZ z = true) (hm : ∀ c ∈ more, c.1 = false) : s.tileIssue srcs zs illegal more k need total = k s := by
  subst hi
  exact tileIssue_ready hF hs hz hm

/-- TMMA adds the products of its tile (R185 to R188). -/
theorem execTmma_gives {s : State} {z : BitVec 2} {a b : BitVec 5} {sa sb ea eb : BitVec 1} {ta tb : BitVec 4} {pa pb : BitVec 3}
    (hF : Fresh s) (hpair : tilePair ta.toNat tb.toNat = true) :
    let A := s.tileOp true sa a ta.toNat (pa.toNat + 1) s.h.shape.m s.h.shape.k s.gangPlace.1
    let B := s.tileOp false sb b tb.toNat (pb.toNat + 1) s.h.shape.n s.h.shape.k s.gangPlace.2
    let f (i : Nat) := dotFold (s.accum z).e (opVal s A (i / 64)) (opVal s B (i % 64)) s.h.shape.k (zAcc s z i, zSt s z i)
    OpOk s A sa a ea → OpOk s B sb b eb → MmaOk s z A B →
    ∃ t, execTmma z a sa b sb ta tb pa pb ea eb s = .next t ∧ SameMem s t ∧
      Accumulates s { s with h := { s.h with watch := t.h.watch } } t z f := by
  intro A B f hA hB hok
  have hg := s.h.tileGrant_pos
  obtain ⟨u, hdone, hu, huc⟩ := mma_steps hok hg ((s.h.shape.k + 7) / 8 * ((s.h.shape.m * s.h.shape.n + s.h.tileGrant - 1) / s.h.tileGrant))
  have htiles : 0 < s.h.shape.m * s.h.shape.n := Nat.mul_pos (Nat.succ_pos _) (Nat.succ_pos _)
  have htotal : (s.h.shape.k + 7) / 8 * ((s.h.shape.m * s.h.shape.n + s.h.tileGrant - 1) / s.h.tileGrant) ≠ 0 := by
    have hk := hok.k_pos
    refine Nat.mul_ne_zero (by omega) (Nat.pos_iff_ne_zero.mp (Nat.div_pos (by omega) hg))
  have hall : ∀ i, mmaSoFar s z A B s.h.tileGrant ((s.h.shape.k + 7) / 8 * ((s.h.shape.m * s.h.shape.n + s.h.tileGrant - 1) /
      s.h.tileGrant)) i = if inTile s i then f i else elemsOf s z i := by
    intro i
    unfold mmaSoFar
    by_cases hin : inTile s i = true
    · obtain ⟨hm, hn⟩ := inTile_iff.mp hin
      rw [if_pos hin, if_pos hin, mmaDone_all hg (tilePlace_lt hm hn)]
    · rw [if_neg hin, if_neg hin]
  obtain ⟨t, ht, hacc⟩ := hdone.accumulates htotal (by rw [hu]; exact hF.2.1) (by rw [hu]) (by rw [hu]) (by rw [hu]) (by rw [hu])
    (fun y _ => accum_of_cores (Near.refl s) hu huc y) (fun i _ => hall i) fun i hi => by
      rw [hall, if_neg]
      · rfl
      · have := (shape_le s).1
        rw [inTile_iff]
        omega
  have hframe : t = { u with cores := t.cores, h := { u.h with fst := t.h.fst, evx := t.h.evx, pc := s.h.pc + 8 } } := hacc.2.2.2.2.2.2.1
  have hwatch : t.h.watch = u.h.watch := by rw [hframe]
  have hu' : u = { s with h := { s.h with watch := t.h.watch } } := by
    rw [hwatch]
    unfold Near at hu
    rw [huc] at hu
    exact hu
  refine ⟨t, ?_, fun x => by rw [hframe, hu], hu' ▸ hacc⟩
  obtain ⟨-, hres, hland, hquota, -, -⟩ := id hF
  unfold execTmma
  refine (tileIssue_begins hF ?_ ?_ ?_ ?_).trans ?_
  · rw [hpair, (opOk_legal hA).1, (opOk_legal hB).1, (opOk_legal hA).2, (opOk_legal hB).2]
    rfl
  · intro p hp
    rcases List.mem_append.mp hp with hp | hp
    · exact srcs_held hA hp
    · exact srcs_held hB hp
  · simpa using hok.held
  · have hpastA := opOk_past hA
    have hpastB := opOk_past hB
    simp only [List.forall_mem_cons, List.forall_mem_append]
    refine ⟨⟨⟨⟨?_, (opOk_checks_pass hA).1⟩, (opOk_checks_pass hB).1⟩, (opOk_checks_pass hA).2⟩, (opOk_checks_pass hB).2⟩
    rw [decide_eq_false hok.k_pos]
    exact Bool.or_eq_false_iff.mpr ⟨hpastA, hpastB⟩
  · dsimp only
    rw [start_fresh hres, stopAt_none hland hquota, Nat.sub_zero, ← List.range_eq_range', tileEnd_done hdone.fault]
    exact ht

/-- Settles O53: each step of TMMA adds its products at its own places in ascending k, and TADD goes row by row. -/
theorem tileResults : Obligations.TileResults := by
  unfold Obligations.TileResults
  intro s z y m n kk i16 rr cc hF
  refine ⟨fun hz => ⟨execTshape_gives hF hz m n kk, fun ht => execTwin_gives hF hz ht i16, execTzero_gives hF hz,
    fun hy hk => execTadd_gives hF hz hy hk, ?_⟩, fun _ ht => execTwin_taken ht i16, ?_, ?_⟩
  · intro a b sa sb ea eb ta tb pa pb A B out hpair hk hA hB htags hwov
    have hp : tilePair ta.toNat tb.toNat = true := by
      unfold tilePair
      rw [List.contains_iff_mem]
      exact hpair
    exact execTmma_gives hF hp hA hB
      ⟨hz, hk, rfl, rfl, rfl, rfl, opOk_reads hA, opOk_reads hB, opOk_headers hA, opOk_headers hB, htags, hwov⟩
  · exact fun hfit => execTgang_gives (gangFits_iff.mpr hfit)
  · exact fun hfit => execTgang_traps (Bool.eq_false_iff.mpr fun h => hfit (gangFits_iff.mp h))

end Sys2Proof.Machine
end

section
/-! PROOFS. Reads and writes of the hart that moves: what they leave, and that they do not depend on an accumulator (10 R190, 18 R339). -/

namespace Sys2Proof.Machine

open Sys2Proof.Safety

/-! ### Accesses in states that differ in an accumulator -/

/-- A walk does not look at the cores: its tests, one inside the other, read other parts of the state. -/
theorem State.walk_cores (u : State) (cs : List (Nat × Core)) (i : BitVec 3) (asid : BitVec 12) (va l : Nat) (table : Nat) :
    ({ u with cores := cs } : State).walk i asid va l table = u.walk i asid va l table := by
  induction l generalizing table with
  | zero =>
    exact if_congr Iff.rfl rfl (if_congr Iff.rfl rfl (if_congr Iff.rfl rfl (if_congr Iff.rfl rfl (if_congr Iff.rfl rfl (if_congr Iff.rfl rfl
      (if_congr Iff.rfl (if_congr Iff.rfl rfl rfl) (if_congr Iff.rfl rfl (if_congr Iff.rfl rfl (if_congr Iff.rfl rfl rfl)))))))))
  | succ l ih =>
    exact if_congr Iff.rfl rfl (if_congr Iff.rfl rfl (if_congr Iff.rfl rfl (if_congr Iff.rfl rfl (if_congr Iff.rfl rfl (if_congr Iff.rfl rfl
      (if_congr Iff.rfl (if_congr Iff.rfl rfl (ih _)) (if_congr Iff.rfl rfl (if_congr Iff.rfl rfl (if_congr Iff.rfl rfl rfl)))))))))

/-- The accumulators are those of the core. -/
theorem accum_of_z {s t : State} (hid : t.myCore = s.myCore) (hz : (t.core s.myCore).z = (s.core s.myCore).z) (y : BitVec 2) :
    t.accum y = s.accum y := by
  unfold State.accum
  simp only [hid, hz]

section Same

variable {u w : State} {z : BitVec 2} (h : SameBut u w z)
include h

theorem SameBut.tlb_eq (c : BitVec 10) : (w.core c).tlb = (u.core c).tlb := by rw [h.core c]

/-- The same leaf serves an address. -/
theorem SameBut.leafFor_eq (who : Who) (va : Nat) : w.leafFor who va = u.leafFor who va := by
  have hwalk : ∀ i asid l t, w.walk i asid va l t = u.walk i asid va l t := fun i asid l t => by
    rw [h.frame]
    exact u.walk_cores _ i asid va l t
  have hcl : ∀ c, w.cluster c = u.cluster c := fun c => by rw [h.frame]; rfl
  unfold State.leafFor
  rw [h.tlb_eq, hcl]
  dsimp only
  split
  · rfl
  · exact hwalk _ _ _ _

/-- An address is at the same place. -/
theorem SameBut.translate_eq (who : Who) (k : AccKind) (dev : Bool) (va : Word) : w.translate who k dev va = u.translate who k dev va := by
  have hleaf : ∀ e, w.checkLeaf who k dev va e = u.checkLeaf who k dev va e := fun e => by rw [h.frame]; rfl
  have hmem : ∀ key isl a, w.memSummary key isl a = u.memSummary key isl a := fun key isl a => by rw [h.frame]; rfl
  unfold State.translate
  simp only [h.leafFor_eq, hleaf, hmem]

/-- The accumulators of a core stay when its TLB changes. -/
theorem SameBut.of_tlb {u' w' : State} (hframe : w' = { u' with cores := w'.cores }) (hid : u'.h.id = u.h.id)
    (hu : ∀ c, u'.core c = { u.core c with tlb := (u'.core c).tlb }) (hw : ∀ c, w'.core c = { w.core c with tlb := (w'.core c).tlb })
    (htlb : ∀ c, (w'.core c).tlb = (u'.core c).tlb) : SameBut u' w' z := by
  have hmy : u'.myCore = u.myCore := congrArg coreOf hid
  have hmy' : w'.myCore = u.myCore := (congrArg (fun x : State => x.myCore) hframe).trans hmy
  refine ⟨hframe, fun c => ?_, fun c hc => ?_, fun y hy => ?_⟩
  · rw [hw c, hu c, htlb c, h.core c]
  · rw [hw c, hu c, htlb c, h.others c (hmy ▸ hc)]
  · have hz' : (w'.core w.myCore).z = (w.core w.myCore).z := by
      have := congrArg Core.z (hw w.myCore)
      exact this
    have hz : (u'.core u.myCore).z = (u.core u.myCore).z := by
      have := congrArg Core.z (hu u.myCore)
      exact this
    rw [accum_of_z (hmy'.trans h.myCore_eq.symm) hz' y, accum_of_z hmy hz y]
    exact h.accums y hy

end Same

section Cores

variable (u : State) (cs : List (Nat × Core)) (who : Who) (p : Place)

/-- An access held off is held off whatever the cores are. -/
theorem State.holdAccess_cores (c : BitVec 10) :
    ({ u with cores := cs } : State).holdAccess c p = { u.holdAccess c p with cores := cs } := by
  have hheld : ({ u with cores := cs } : State).heldOff c p = u.heldOff c p := rfl
  unfold State.holdAccess
  rw [hheld]
  split <;> rfl

theorem State.mapSignal_cores (e : TlbEntry) : ({ u with cores := cs } : State).mapSignal who e = { u.mapSignal who e with cores := cs } := by
  unfold State.mapSignal
  dsimp only
  split <;> rfl

/-- What a leaf put into the TLBs changes beside the cores does not depend on them. -/
theorem State.fillTlb_cores : ∃ cs', ({ u with cores := cs } : State).fillTlb who p = { u.fillTlb who p with cores := cs' } := by
  unfold State.fillTlb
  cases p.leaf with
  | none => exact ⟨cs, rfl⟩
  | some e =>
    dsimp only
    split
    · exact ⟨_, State.mapSignal_cores ((u.setCore who.core _).setCluster (clusterOf who.core) _) _ who e⟩
    · exact ⟨_, rfl⟩

/-- Traffic is counted whatever the cores are. -/
theorem State.countTraffic_cores (c : BitVec 10) (rd wr : Nat) :
    ({ u with cores := cs } : State).countTraffic c p rd wr = { u.countTraffic c p rd wr with cores := cs } := by
  have hput : ∀ {x y : State}, x = y → ({ x with cores := cs } : State) = { y with cores := cs } := fun h => h ▸ rfl
  cases ht : p.translated with
  | false =>
    have hno : (!p.translated) = true := by rw [ht]; rfl
    exact (if_pos hno).trans (hput (if_pos hno).symm)
  | true =>
    have hyes : ¬(!p.translated) = true := by rw [ht]; decide
    refine (if_neg hyes).trans (Eq.trans ?_ (hput (if_neg hyes).symm))
    by_cases hhost : (decide (0x800000000000 ≤ p.key) && fld (u.island p.isl).hlcache 0 4 == 0) = true
    · exact (if_pos hhost).trans (hput (if_pos hhost).symm)
    · refine (if_neg hhost).trans (Eq.trans ?_ (hput (if_neg hhost).symm))
      rfl

/-- What an access changes beside the cores does not depend on them. -/
theorem State.account_cores (rd wr : Nat) :
    ∃ cs', ({ u with cores := cs } : State).account who p rd wr = { u.account who p rd wr with cores := cs' } := by
  obtain ⟨cs', hcs⟩ := State.fillTlb_cores (u.holdAccess who.core p) cs who p
  refine ⟨cs', ?_⟩
  unfold State.account
  rw [State.holdAccess_cores, hcs, State.countTraffic_cores]

end Cores

/-- What an access leaves differs as the states before it do. -/
theorem SameBut.account {u w : State} {z : BitVec 2} (h : SameBut u w z) (who : Who) (p : Place) (rd wr : Nat) :
    SameBut (u.account who p rd wr) (w.account who p rd wr) z := by
  have hframe : ∃ cs', w.account who p rd wr = { u.account who p rd wr with cores := cs' } := by
    rw [h.frame]
    exact u.account_cores _ who p rd wr
  obtain ⟨cs', hcs⟩ := hframe
  refine h.of_tlb ?_ ?_ (fun c => u.core_account_tlb who p rd wr c) (fun c => w.core_account_tlb who p rd wr c) fun c => ?_
  · rw [hcs]
  · rw [State.account_h]
  · rw [State.core_account, State.core_account]
    cases he : p.leaf with
    | none => rw [State.fillTlb_none he, State.fillTlb_none he, h.tlb_eq]
    | some e => rw [State.core_fillTlb he, State.core_fillTlb he, h.tlb_eq]

/-- A watch hit likewise. -/
theorem SameBut.noteWatch {u w : State} {z : BitVec 2} (h : SameBut u w z) (k : AccKind) (va : Word) (n : Nat) :
    SameBut (u.noteWatch k va n) (w.noteWatch k va n) z := by
  have hhit : w.watchHit k va n = u.watchHit k va n := by rw [h.frame]; rfl
  unfold State.noteWatch
  rw [hhit]
  cases u.watchHit k va n with
  | none => exact h
  | some a =>
    refine ⟨congrArg (fun x : State => { x with h := { x.h with watch := some a } }) h.frame, fun c => ?_, fun c hc => ?_, fun y hy => ?_⟩
    · exact h.core c
    · exact h.others c hc
    · exact h.accums y hy

/-- An access leaves the accumulators. -/
theorem State.account_accum (s : State) (who : Who) (p : Place) (rd wr : Nat) (y : BitVec 2) : (s.account who p rd wr).accum y = s.accum y := by
  have hmy : (s.account who p rd wr).myCore = s.myCore := by
    unfold State.myCore
    rw [State.account_h]
  refine accum_of_z hmy ?_ y
  have := congrArg Core.z (State.core_account_tlb s who p rd wr s.myCore)
  exact this

theorem State.noteWatch_accum (s : State) (k : AccKind) (va : Word) (n : Nat) (y : BitVec 2) : (s.noteWatch k va n).accum y = s.accum y := by
  rw [State.noteWatch_frame]
  rfl

/-- A read leaves the accumulators. -/
theorem State.load_accum {s t : State} {va : Word} {n x : Nat} (hl : s.load false va n = .ok (x, t)) (y : BitVec 2) :
    t.accum y = s.accum y := by
  obtain ⟨p, -, -, -, rfl⟩ := State.load_ok.mp hl
  rw [State.noteWatch_accum, State.account_accum]

/-- And a write. -/
theorem State.store_accum {s t : State} {va : Word} {n x : Nat} (hl : s.store false va n x = .ok t) (y : BitVec 2) :
    t.accum y = s.accum y := by
  obtain ⟨p, -, -, rfl⟩ := State.store_ok.mp hl
  rw [State.noteWatch_accum]
  exact State.account_accum s s.who p 0 n y

/-- A read reads the same and leaves states that differ likewise. -/
theorem SameBut.load {u w u' : State} {z : BitVec 2} (h : SameBut u w z) {va : Word} {n x : Nat} (hl : u.load false va n = .ok (x, u')) :
    ∃ w', w.load false va n = .ok (x, w') ∧ SameBut u' w' z ∧ ∀ y, w'.accum y = w.accum y := by
  obtain ⟨p, hp, hgood, rfl, rfl⟩ := State.load_ok.mp hl
  have hwho : w.who = u.who := by rw [h.frame]; rfl
  have hw : w.load false va n = .ok (Memory.read u.mem p.key n, (w.account w.who p n 0).noteWatch .read va n) := by
    refine State.load_ok.mpr ⟨p, ?_, ?_, ?_, rfl⟩
    · rw [hwho, h.translate_eq, hp]
    · rw [← hgood, h.frame]
      rfl
    · rw [h.frame]
  refine ⟨_, hw, ?_, State.load_accum hw⟩
  rw [hwho]
  exact (h.account _ p n 0).noteWatch _ va n

end Sys2Proof.Machine
end

section
/-! PROOFS. Successive reads and writes, and the elements of a tile among them (10 R190). -/

namespace Sys2Proof.Machine

open Sys2Proof.Safety

/-! ### Lists of rows of one length -/

/-- The entry of a row among rows of one length. -/
theorem getD_flatMap_range {α : Type} {f : Nat → List α} {M L : Nat} (hL : ∀ m < M, (f m).length = L) {m j : Nat} (hm : m < M) (hj : j < L)
    (d : α) : ((List.range M).flatMap f).getD (m * L + j) d = (f m).getD j d := by
  induction M with
  | zero => omega
  | succ M ih =>
    have hlen : ((List.range M).flatMap f).length = M * L := by
      rw [List.length_flatMap, List.map_congr_left fun m hm => hL m (by have := List.mem_range.mp hm; omega)]
      simp
    rw [List.range_succ, List.flatMap_append]
    by_cases h : m < M
    · have : (m + 1) * L ≤ M * L := Nat.mul_le_mul_right L h
      rw [Nat.add_mul, Nat.one_mul] at this
      rw [List.getD_append _ _ _ _ (by omega)]
      exact ih (fun m hm => hL m (by omega)) h
    · obtain rfl : m = M := by omega
      rw [List.getD_append_right _ _ _ _ (by omega), hlen, Nat.add_sub_cancel_left]
      simp

/-- Numbers of w bits packed are their sum. -/
theorem packElems_eq_sum {w : Nat} {xs : List Nat} (h : ∀ x ∈ xs, x < 2 ^ w) :
    packElems w xs = ((List.range xs.length).map fun q => xs.getD q 0 * 2 ^ (w * q)).sum := by
  induction xs with
  | nil => rfl
  | cons x xs ih =>
    have hx : x % 2 ^ w = x := Nat.mod_eq_of_lt (h x (by simp))
    have hq : ∀ q, (x :: xs).getD (q + 1) 0 * 2 ^ (w * (q + 1)) = xs.getD q 0 * 2 ^ (w * q) * 2 ^ w := fun q => by
      rw [List.getD_cons_succ, Nat.mul_succ, pow_add, Nat.mul_assoc]
    rw [packElems, hx, ih fun y hy => h y (by simp [hy]), Nat.shiftLeft_eq, List.length_cons, List.range_succ_eq_map, List.map_cons,
      List.sum_cons, List.map_map, ← List.sum_map_mul_right]
    congr 1
    · simp
    · exact congrArg List.sum (List.map_congr_left fun q _ => (hq q).symm)

/-! ### Successive reads -/

section Loads

variable {n : Nat}

theorem loadsFrom_append {as bs : List Word} {s u : State} {ks : List (Nat × Nat)} :
    LoadsFrom n (as ++ bs) s ks u ↔ ∃ js ls v, LoadsFrom n as s js v ∧ LoadsFrom n bs v ls u ∧ ks = js ++ ls := by
  induction as generalizing s ks with
  | nil =>
    constructor
    · exact fun h => ⟨[], ks, s, ⟨rfl, rfl⟩, h, rfl⟩
    · rintro ⟨js, ls, v, ⟨rfl, rfl⟩, h, rfl⟩
      exact h
  | cons a as ih =>
    constructor
    · rintro ⟨p, x, v, r, hp, hl, h, rfl⟩
      obtain ⟨js, ls, w, hj, hl', rfl⟩ := ih.mp h
      exact ⟨(p.key, x) :: js, ls, w, ⟨p, x, v, js, hp, hl, hj, rfl⟩, hl', rfl⟩
    · rintro ⟨_, ls, w, ⟨p, x, v, js, hp, hl, hj, rfl⟩, hl', rfl⟩
      exact ⟨p, x, v, js ++ ls, hp, hl, ih.mpr ⟨js, ls, w, hj, hl', rfl⟩, rfl⟩

/-- Reads of one row after the other. -/
theorem loadsFrom_rows {rows : Nat → List Word} {M : Nat} {s u : State} {ks : List (Nat × Nat)}
    (h : LoadsFrom n ((List.range M).flatMap rows) s ks u) : ∃ (U : Nat → State) (K : Nat → List (Nat × Nat)), U 0 = s ∧ U M = u ∧
      ks = (List.range M).flatMap K ∧ ∀ m < M, LoadsFrom n (rows m) (U m) (K m) (U (m + 1)) := by
  induction M generalizing u ks with
  | zero =>
    obtain ⟨rfl, rfl⟩ := h
    exact ⟨fun _ => u, fun _ => [], rfl, rfl, rfl, fun m hm => absurd hm (Nat.not_lt_zero m)⟩
  | succ M ih =>
    rw [List.range_succ, List.flatMap_append] at h
    obtain ⟨js, ls, v, hj, hl, rfl⟩ := loadsFrom_append.mp h
    obtain ⟨U, K, h0, hM, rfl, hrow⟩ := ih hj
    have hl : LoadsFrom n (rows M) v ls u := by simpa using hl
    refine ⟨fun m => if m ≤ M then U m else u, fun m => if m < M then K m else ls, by simp [h0], by simp, ?_, fun m hm => ?_⟩
    · rw [List.range_succ, List.flatMap_append, List.flatMap_congr fun m hm => if_pos (List.mem_range.mp hm)]
      simp
    · by_cases hlt : m < M
      · simpa [hlt, Nat.le_of_lt hlt, Nat.succ_le_of_lt hlt] using hrow m hlt
      · obtain rfl : m = M := by omega
        simpa [hM] using hl

theorem loadsFrom_length {vas : List Word} {s u : State} {ks : List (Nat × Nat)} (h : LoadsFrom n vas s ks u) : ks.length = vas.length := by
  induction vas generalizing s ks with
  | nil => simp [h.1]
  | cons va vas ih =>
    obtain ⟨p, x, v, r, -, -, h, rfl⟩ := h
    exact congrArg Nat.succ (ih h)

/-- What one read changes of the hart and of memory. -/
theorem State.load_frame {s t : State} {va : Word} {x : Nat} (h : s.load false va n = .ok (x, t)) :
    t.h = { s.h with watch := t.h.watch } ∧ t.mem = s.mem := by
  obtain ⟨p, -, -, -, rfl⟩ := State.load_ok.mp h
  constructor
  · have := congrArg State.h (State.noteWatch_frame (s.account s.who p n 0) .read va n)
    rwa [State.account_h] at this
  · rw [State.noteWatch_mem, State.account_mem]

/-- Reads leave a watch hit, and no byte. -/
theorem loadsFrom_frame {vas : List Word} {s u : State} {ks : List (Nat × Nat)} (h : LoadsFrom n vas s ks u) :
    u.h = { s.h with watch := u.h.watch } ∧ u.mem = s.mem ∧ ∀ y, u.accum y = s.accum y := by
  induction vas generalizing s ks with
  | nil =>
    obtain ⟨-, rfl⟩ := h
    exact ⟨rfl, rfl, fun _ => rfl⟩
  | cons va vas ih =>
    obtain ⟨p, x, v, r, -, hl, h, -⟩ := h
    obtain ⟨hh, hm, ha⟩ := ih h
    obtain ⟨hh', hm'⟩ := State.load_frame hl
    refine ⟨?_, hm.trans hm', fun y => (ha y).trans (State.load_accum hl y)⟩
    rw [hh, hh']

/-- The numbers read are those that stand at their keys. -/
theorem loadsFrom_values {vas : List Word} {s u : State} {ks : List (Nat × Nat)} (h : LoadsFrom n vas s ks u) :
    ∀ p ∈ ks, p.2 = leNat s p.1 n := by
  induction vas generalizing s ks with
  | nil => simp [h.1]
  | cons va vas ih =>
    obtain ⟨p, x, v, r, hp, hl, h, rfl⟩ := h
    obtain ⟨-, hm⟩ := State.load_frame hl
    obtain ⟨p', hp', -, hx, -⟩ := State.load_ok.mp hl
    obtain rfl : p' = p := Except.ok.inj (hp'.symm.trans hp)
    rintro q hq
    rcases List.mem_cons.mp hq with rfl | hq
    · exact hx.trans (leNat_eq_read s n p'.key).symm
    · rw [ih h q hq]
      unfold leNat
      rw [hm]

/-- They are numbers of n bytes. -/
theorem loadsFrom_lt {vas : List Word} {s u : State} {ks : List (Nat × Nat)} (h : LoadsFrom n vas s ks u) :
    ∀ x ∈ ks.map (·.2), x < 2 ^ (8 * n) := by
  intro x hx
  obtain ⟨p, hp, rfl⟩ := List.mem_map.mp hx
  rw [loadsFrom_values h p hp, pow_mul]
  exact leNat_lt s p.1 n

/-- The same is read in a state that differs in an accumulator. -/
theorem loadsFrom_same {vas : List Word} {s u w : State} {z : BitVec 2} {ks : List (Nat × Nat)} (h : LoadsFrom n vas s ks u)
    (hw : SameBut s w z) : ∃ t, LoadsFrom n vas w ks t ∧ SameBut u t z := by
  induction vas generalizing s w ks with
  | nil =>
    obtain ⟨rfl, rfl⟩ := h
    exact ⟨w, ⟨rfl, rfl⟩, hw⟩
  | cons va vas ih =>
    obtain ⟨p, x, v, r, hp, hl, h, rfl⟩ := h
    obtain ⟨v', hl', hv, -⟩ := hw.load hl
    obtain ⟨t, ht, hsame⟩ := ih h hv
    refine ⟨t, ⟨p, x, v', r, ?_, hl', ht, rfl⟩, hsame⟩
    have hwho : w.who = s.who := by rw [hw.frame]; rfl
    rw [hwho, hw.translate_eq, hp]

/-- Reads at addresses that are there give their numbers. -/
theorem loadsFrom_loadFields {addr : Nat → Except Flt Word} {va : Nat → Word} {fs : List Nat} (ha : ∀ f ∈ fs, addr f = .ok (va f))
    {s u : State} {ks : List (Nat × Nat)} (h : LoadsFrom n (fs.map va) s ks u) : s.loadFields n addr fs = .ok (ks.map (·.2), u) := by
  induction fs generalizing s ks with
  | nil =>
    obtain ⟨rfl, rfl⟩ := h
    rfl
  | cons f fs ih =>
    obtain ⟨p, x, v, r, -, hl, h, rfl⟩ := h
    have hrest := ih (fun f hf => ha f (by simp [hf])) h
    simp only [State.loadFields, ha f (by simp), hl, hrest]
    rfl

end Loads

/-! ### Elements of a tile read -/

section Load

variable {t : TileMem} {m : Nat} {va : Nat → Nat → Word}

/-- An element is read as the numbers of its parts. -/
theorem TileMem.load_ok {k : Nat} (ha : ∀ q < t.size / t.unit, t.addr m (k * t.size + q * t.unit) = .ok (va k q)) {s u : State}
    {ks : List (Nat × Nat)} (h : LoadsFrom t.unit ((List.range (t.size / t.unit)).map (va k)) s ks u) :
    t.load s m k = .ok (packElems (8 * t.unit) (ks.map (·.2)), u) := by
  unfold TileMem.load
  rw [loadsFrom_loadFields (fun q hq => ha q (List.mem_range.mp hq)) h]

/-- Elements of a row, each read as the numbers of its parts. -/
theorem TileMem.loadRow_ok {U : Nat → State} {K : Nat → List (Nat × Nat)} (c : Nat) (k : Nat)
    (ha : ∀ j, k ≤ j → j < k + c → ∀ q < t.size / t.unit, t.addr m (j * t.size + q * t.unit) = .ok (va j q))
    (h : ∀ j, k ≤ j → j < k + c → LoadsFrom t.unit ((List.range (t.size / t.unit)).map (va j)) (U j) (K j) (U (j + 1))) :
    t.loadRow m k c (U k) = .ok ((List.range' k c).map fun j => (j, packElems (8 * t.unit) ((K j).map (·.2))), U (k + c)) := by
  induction c generalizing k with
  | zero => rfl
  | succ c ih =>
    have hone := TileMem.load_ok (ha k le_rfl (by omega)) (h k le_rfl (by omega))
    have hrest := ih (k + 1) (fun j h1 h2 => ha j (by omega) (by omega)) fun j h1 h2 => h j (by omega) (by omega)
    rw [show k + (c + 1) = k + 1 + c by omega]
    simp only [TileMem.loadRow, hone, hrest]
    rfl

end Load

end Sys2Proof.Machine
end

section
/-! PROOFS. Successive writes, and the elements of a tile among them (10 R190). -/

namespace Sys2Proof.Machine

open Sys2Proof.Safety

/-! ### Successive writes -/

section Stores

variable {n : Nat}

theorem storesTo_append {as bs : List (Word × Nat)} {s u : State} {ks : List Nat} :
    StoresTo n (as ++ bs) s ks u ↔ ∃ js ls v, StoresTo n as s js v ∧ StoresTo n bs v ls u ∧ ks = js ++ ls := by
  induction as generalizing s ks with
  | nil =>
    constructor
    · exact fun h => ⟨[], ks, s, ⟨rfl, rfl⟩, h, rfl⟩
    · rintro ⟨js, ls, v, ⟨rfl, rfl⟩, h, rfl⟩
      exact h
  | cons a as ih =>
    constructor
    · rintro ⟨p, v, r, hp, hs, h, rfl⟩
      obtain ⟨js, ls, w, hj, hl, rfl⟩ := ih.mp h
      exact ⟨p.key :: js, ls, w, ⟨p, v, js, hp, hs, hj, rfl⟩, hl, rfl⟩
    · rintro ⟨_, ls, w, ⟨p, v, js, hp, hs, hj, rfl⟩, hl, rfl⟩
      exact ⟨p, v, js ++ ls, hp, hs, ih.mpr ⟨js, ls, w, hj, hl, rfl⟩, rfl⟩

/-- Writes of one row after the other. -/
theorem storesTo_rows {rows : Nat → List (Word × Nat)} {M : Nat} {s u : State} {ks : List Nat}
    (h : StoresTo n ((List.range M).flatMap rows) s ks u) : ∃ U : Nat → State, U 0 = s ∧ U M = u ∧
      ∀ m < M, ∃ js, StoresTo n (rows m) (U m) js (U (m + 1)) := by
  induction M generalizing u ks with
  | zero =>
    obtain ⟨rfl, rfl⟩ := h
    exact ⟨fun _ => u, rfl, rfl, fun m hm => absurd hm (Nat.not_lt_zero m)⟩
  | succ M ih =>
    rw [List.range_succ, List.flatMap_append] at h
    obtain ⟨js, ls, v, hj, hl, rfl⟩ := storesTo_append.mp h
    obtain ⟨U, h0, hM, hrow⟩ := ih hj
    have hl : StoresTo n (rows M) v ls u := by simpa using hl
    refine ⟨fun m => if m ≤ M then U m else u, by simp [h0], by simp, fun m hm => ?_⟩
    by_cases hlt : m < M
    · simpa [Nat.le_of_lt hlt, Nat.succ_le_of_lt hlt] using hrow m hlt
    · obtain rfl : m = M := by omega
      exact ⟨ls, by simpa [hM] using hl⟩

/-- What one write changes of the hart and of memory. -/
theorem State.store_frame {s t : State} {va : Word} {x : Nat} (h : s.store false va n x = .ok t) :
    t.h = { s.h with watch := t.h.watch } ∧ ∃ p, s.translate s.who .write false va = .ok p ∧ t.mem = Memory.write s.mem p.key n x := by
  obtain ⟨p, hp, -, rfl⟩ := State.store_ok.mp h
  constructor
  · have := congrArg State.h (State.noteWatch_frame ((s.account s.who p 0 n).poke p.key n x) .write va n)
    rwa [State.poke_h, State.account_h] at this
  · refine ⟨p, hp, ?_⟩
    rw [State.noteWatch_mem, State.poke_mem, State.account_mem]

/-- Writes leave a watch hit besides their bytes. -/
theorem storesTo_frame {as : List (Word × Nat)} {s u : State} {ks : List Nat} (h : StoresTo n as s ks u) :
    u.h = { s.h with watch := u.h.watch } ∧ ∀ y, u.accum y = s.accum y := by
  induction as generalizing s ks with
  | nil =>
    obtain ⟨-, rfl⟩ := h
    exact ⟨rfl, fun _ => rfl⟩
  | cons a as ih =>
    obtain ⟨p, v, r, -, hs, h, -⟩ := h
    obtain ⟨hh, ha⟩ := ih h
    obtain ⟨hh', -⟩ := State.store_frame hs
    refine ⟨?_, fun y => (ha y).trans (State.store_accum hs y)⟩
    rw [hh, hh']

/-- A number read depends on its bytes alone. -/
theorem leNat_congr {s t : State} {key : Nat} (h : ∀ j < n, Memory.byte t.mem (key + j) = Memory.byte s.mem (key + j)) :
    leNat t key n = leNat s key n := by
  unfold leNat
  exact congrArg List.sum (List.map_congr_left fun j hj => by rw [h j (List.mem_range.mp hj)])

/-- The bytes that writes leave (R190). -/
theorem storesTo_writes {as : List (Word × Nat)} {s u : State} {ks : List Nat} (h : StoresTo n as s ks u) (hwf : Memory.wf s.mem = true) :
    Memory.wf u.mem = true ∧ WritesAre s u n ks (as.map (·.2)) := by
  induction as generalizing s ks with
  | nil =>
    obtain ⟨rfl, rfl⟩ := h
    exact ⟨hwf, fun _ _ => rfl, fun _ j hj => absurd hj (Nat.not_lt_zero j)⟩
  | cons a as ih =>
    obtain ⟨p, v, r, hp, hs, h, rfl⟩ := h
    obtain ⟨-, p', hp', hmem⟩ := State.store_frame hs
    obtain rfl : p' = p := Except.ok.inj (hp'.symm.trans hp)
    have hwf' : Memory.wf v.mem = true := by
      rw [hmem]
      exact Memory.wf_write _ _ _ _ hwf
    obtain ⟨hwfu, hout, hin⟩ := ih h hwf'
    refine ⟨hwfu, fun b hb => ?_, fun hapart j hj => ?_⟩
    · obtain ⟨hb0, hb⟩ := List.forall_mem_cons.mp hb
      rw [hout b hb, hmem, Memory.byte_write _ _ _ _ _ hwf, if_neg (by omega)]
    · obtain ⟨hhead, htail⟩ := List.pairwise_cons.mp hapart
      cases j with
      | zero =>
        have hkeep : leNat u p'.key n = leNat v p'.key n := leNat_congr fun j hj => hout _ fun k hk => by
          have := hhead k hk
          omega
        rw [List.getD_cons_zero, hkeep, leNat_eq_read, hmem, Memory.read_write _ _ _ _ hwf]
        rfl
      | succ j =>
        rw [List.getD_cons_succ]
        exact hin htail j (Nat.lt_of_succ_lt_succ hj)

/-- Writes at addresses that are there. -/
theorem storesTo_storeFields {addr : Nat → Except Flt Word} {va : Nat → Word} {fs : List (Nat × Nat)}
    (ha : ∀ f ∈ fs, addr f.1 = .ok (va f.1)) {s u : State} {ks : List Nat} (h : StoresTo n (fs.map fun f => (va f.1, f.2)) s ks u) :
    s.storeFields n addr fs = .ok u := by
  induction fs generalizing s ks with
  | nil =>
    obtain ⟨-, rfl⟩ := h
    rfl
  | cons f fs ih =>
    obtain ⟨p, v, r, -, hs, h, -⟩ := h
    have hrest := ih (fun f hf => ha f (by simp [hf])) h
    simp only [State.storeFields, ha f (by simp), hs, hrest]

end Stores

/-! ### Elements of a tile written -/

section Store

variable {t : TileMem} {m : Nat} {va : Nat → Nat → Word}

/-- The numbers of the parts of an element x at column k. -/
def partsOf (t : TileMem) (va : Nat → Nat → Word) (k x : Nat) : List (Word × Nat) :=
  (List.range (t.size / t.unit)).map fun q => (va k q, elem (8 * t.unit) x q)

/-- Elements of a row, each written as the numbers of its parts. -/
theorem TileMem.storeRow_ok {xs : List (Nat × Nat)}
    (ha : ∀ e ∈ xs, ∀ q < t.size / t.unit, t.addr m (e.1 * t.size + q * t.unit) = .ok (va e.1 q)) {s u : State} {ks : List Nat}
    (h : StoresTo t.unit (xs.flatMap fun e => partsOf t va e.1 e.2) s ks u) : t.storeRow m xs s = .ok u := by
  induction xs generalizing s ks with
  | nil =>
    obtain ⟨-, rfl⟩ := h
    rfl
  | cons e xs ih =>
    rw [List.flatMap_cons] at h
    obtain ⟨js, ls, v, hj, hl, -⟩ := storesTo_append.mp h
    have hone : t.store s m e.1 e.2 = .ok v := by
      refine storesTo_storeFields (va := va e.1) (ks := js) (fun f hf => ?_) ?_
      · obtain ⟨q, hq, rfl⟩ := List.mem_map.mp hf
        exact ha e (by simp) q (List.mem_range.mp hq)
      · rw [List.map_map]
        exact hj
    have hrest := ih (fun e he => ha e (by simp [he])) hl
    simp only [TileMem.storeRow, hone, hrest]

end Store

end Sys2Proof.Machine
end

section
/-! PROOFS. The rows of TLDA (10 R190). -/

namespace Sys2Proof.Machine

open Sys2Proof.Safety

/-! ### What a row writes -/

/-- What TLDA gives element i from the number `x i` under anchor e, before a status map (R123, R190). -/
def ldaElem (t : TileMem) (e : Int) (x : Nat → Nat) (i : Nat) : Nat × Nat × Flags :=
  if t.raw then (x i, 0, 0) else accAdd e 0 0 ((tileFmt t.ty).unpack (x i)) ((tileFmt t.ty).unpack (x i)).isS

/-- Statuses written one after the other. -/
def Accum.putStatuses (st : Nat → Nat) (a : Accum) (is : List Nat) : Accum := is.foldl (fun a i => a.setStatus i (st i)) a

theorem Accum.putStatuses_like (st : Nat → Nat) (a : Accum) (is : List Nat) : (a.putStatuses st is).Like a := by
  induction is generalizing a with
  | nil => exact ⟨rfl, rfl⟩
  | cons i is ih => exact ih (a.setStatus i (st i))

theorem Accum.putStatuses_elem (st : Nat → Nat) (a : Accum) (is : List Nat) {j : Nat} (hj : j < 4096) :
    (a.putStatuses st is).val j = a.val j ∧ (a.putStatuses st is).status j = if j ∈ is then st j % 4 else a.status j := by
  induction is generalizing a with
  | nil => simp [Accum.putStatuses]
  | cons i is ih =>
    obtain ⟨hval, hst⟩ := ih (a.setStatus i (st i))
    have hput : a.putStatuses st (i :: is) = (a.setStatus i (st i)).putStatuses st is := rfl
    rw [hput, hval, hst, Accum.val_setStatus, Accum.status_setStatus _ _ _ hj]
    refine ⟨rfl, ?_⟩
    by_cases hji : j = i
    · subst hji
      by_cases hin : j ∈ is <;> simp [hin]
    · simp [hji]

/-- The elements of the tile in the order of the status map (R190). -/
def tileElems (s : State) : List Nat := (List.range (s.h.shape.m * s.h.shape.n)).map (tileAt s.h.shape.n)

theorem mem_tileElems {s : State} {i : Nat} : i ∈ tileElems s ↔ inTile s i = true := by
  obtain ⟨-, h64⟩ := shape_le s
  have hN : 0 < s.h.shape.n := Nat.succ_pos _
  unfold tileElems
  rw [List.mem_map, inTile_iff]
  constructor
  · rintro ⟨q, hq, rfl⟩
    obtain ⟨h1, h2⟩ := tileAt_div (t := q) hN h64
    rw [h1, h2]
    exact ⟨(Nat.div_lt_iff_lt_mul hN).mpr (List.mem_range.mp hq), Nat.mod_lt _ hN⟩
  · rintro ⟨h1, h2⟩
    exact ⟨_, List.mem_range.mpr (tilePlace_lt h1 h2), tileAt_tilePlace h2⟩

/-- The status of element i in a status map. -/
def mapStatus (N : Nat) (bs : List Nat) (i : Nat) : Nat := elem 2 (bs.getD (tilePlace N i / 4) 0) (tilePlace N i % 4)

section Row

variable {s : State} {z : BitVec 2} {t : TileMem} {m : Nat} {r : TileRun} {w : State} {x : Nat → Nat} (hfault : r.fault = none)
  (hload : t.loadRow m 0 s.h.shape.n r.s = .ok ((List.range s.h.shape.n).map fun n => (n, x (64 * m + n)), w))
include hfault hload

/-- A row of TLDA in the form of the rules. -/
theorem TileRun.lda_row (hno : (decide (m + 1 = s.h.shape.m) && t.map.isSome) = false) :
    r.lda z t s.h.shape m = ⟨w.setAccum z { (w.accum z).putAll t.map.isSome (ldaElem t (w.accum z).e x) (rowElems s m) with taken := true },
      flagsOf (ldaElem t (w.accum z).e x) (rowElems s m) ++ r.fl, none⟩ := by
  unfold TileRun.lda
  rw [hfault]
  dsimp only
  rw [if_neg (by decide), hload]
  dsimp only
  rw [hno]
  unfold Accum.putAll flagsOf rowElems ldaElem
  simp only [List.foldl_map, List.filterMap_map, List.map_map]
  rfl

/-- The last row of TLDA with a status map in the form of the rules. -/
theorem TileRun.lda_last (hyes : (decide (m + 1 = s.h.shape.m) && t.map.isSome) = true) {bs : List Nat} {w' : State}
    (hmap : w.loadFields 1 (fun q => sumAddr (t.map.getD 0) (q : Nat)) (List.range ((s.h.shape.m * s.h.shape.n + 3) / 4)) = .ok (bs, w')) :
    r.lda z t s.h.shape m = ⟨w'.setAccum z { ((w'.accum z).putAll t.map.isSome (ldaElem t (w'.accum z).e x) (rowElems s m)).putStatuses
      (mapStatus s.h.shape.n bs) (tileElems s) with taken := true }, flagsOf (ldaElem t (w'.accum z).e x) (rowElems s m) ++ r.fl, none⟩ := by
  obtain ⟨-, h64⟩ := shape_le s
  have hN : 0 < s.h.shape.n := Nat.succ_pos _
  have hst : ∀ q, mapStatus s.h.shape.n bs (tileAt s.h.shape.n q) = elem 2 ((bs[q / 4]?).getD 0) (q % 4) := fun q => by
    rw [mapStatus, tilePlace_tileAt hN h64, List.getD_eq_getElem?_getD]
  unfold TileRun.lda
  rw [hfault]
  dsimp only
  rw [if_neg (by decide), hload]
  dsimp only
  rw [hyes, if_pos rfl, hmap]
  dsimp only
  unfold Accum.putAll Accum.putStatuses flagsOf rowElems tileElems ldaElem
  simp only [List.foldl_map, List.filterMap_map, List.map_map, hst]
  rfl

end Row

end Sys2Proof.Machine
end

section
/-! PROOFS. The course of TLDA (10 R190). -/

namespace Sys2Proof.Machine

open Sys2Proof.Safety

/-! ### The numbers of a tile in memory -/

/-- The addresses of the parts of a tile, P to an element, in the order of transfer (R190). -/
def tileVas (s : State) (P : Nat) (va : Nat → Nat → Nat → Word) : List Word :=
  (List.range s.h.shape.m).flatMap fun m => (List.range s.h.shape.n).flatMap fun n => (List.range P).map (va m n)

/-- The number of element i, whose P parts of w bits are those of a list. -/
def partSum (s : State) (w P : Nat) (xs : List Nat) (i : Nat) : Nat :=
  ((List.range P).map fun q => xs.getD (tilePlace s.h.shape.n i * P + q) 0 * 2 ^ (w * q)).sum

section Rows

variable {s u : State} {z : BitVec 2} {t : TileMem} {va : Nat → Nat → Nat → Word} {ks : List (Nat × Nat)}

/-- The rows of a tile are read one after the other, also in states that differ in the accumulator. -/
theorem tile_rows_read
    (ha : ∀ m < s.h.shape.m, ∀ n < s.h.shape.n, ∀ q < t.size / t.unit, t.addr m (n * t.size + q * t.unit) = .ok (va m n q))
    (h : LoadsFrom t.unit (tileVas s (t.size / t.unit) va) s ks u) : ∃ U : Nat → State, U 0 = s ∧ U s.h.shape.m = u ∧
      ∀ m < s.h.shape.m, ∀ w, SameBut (U m) w z → ∃ w', t.loadRow m 0 s.h.shape.n w = .ok ((List.range s.h.shape.n).map fun n =>
        (n, partSum s (8 * t.unit) (t.size / t.unit) (ks.map (·.2)) (64 * m + n)), w') ∧ SameBut (U (m + 1)) w' z ∧
        ∀ y, w'.accum y = w.accum y := by
  obtain ⟨-, h64⟩ := shape_le s
  obtain ⟨U, K, h0, hM, hks, hrow⟩ := loadsFrom_rows h
  refine ⟨U, h0, hM, fun m hm w hw => ?_⟩
  obtain ⟨w', hread, hsame⟩ := loadsFrom_same (hrow m hm) hw
  obtain ⟨V, J, hV0, hVN, hJ, hone⟩ := loadsFrom_rows hread
  have hlen : ∀ n < s.h.shape.n, ((J n).map (·.2)).length = t.size / t.unit := fun n hn => by
    rw [List.length_map, loadsFrom_length (hone n hn), List.length_map, List.length_range]
  have hlenK : ∀ m < s.h.shape.m, ((K m).map (·.2)).length = s.h.shape.n * (t.size / t.unit) := fun m hm => by
    rw [List.length_map, loadsFrom_length (hrow m hm)]
    simp
  have hvalue : ∀ n < s.h.shape.n, packElems (8 * t.unit) ((J n).map (·.2)) =
      partSum s (8 * t.unit) (t.size / t.unit) (ks.map (·.2)) (64 * m + n) := by
    intro n hn
    rw [packElems_eq_sum (loadsFrom_lt (hone n hn)), hlen n hn, partSum]
    refine congrArg List.sum (List.map_congr_left fun q hq => ?_)
    have hq := List.mem_range.mp hq
    have hplace : tilePlace s.h.shape.n (64 * m + n) * (t.size / t.unit) + q =
        m * (s.h.shape.n * (t.size / t.unit)) + (n * (t.size / t.unit) + q) := by
      rw [tilePlace, show (64 * m + n) / 64 = m by omega, show (64 * m + n) % 64 = n by omega]
      ring
    have hcol : n * (t.size / t.unit) + q < s.h.shape.n * (t.size / t.unit) := by
      have : (n + 1) * (t.size / t.unit) ≤ s.h.shape.n * (t.size / t.unit) := Nat.mul_le_mul_right _ hn
      rw [Nat.add_mul, Nat.one_mul] at this
      omega
    rw [hplace, hks, List.map_flatMap, getD_flatMap_range hlenK hm hcol, hJ, List.map_flatMap, getD_flatMap_range hlen hn hq]
  have hload := t.loadRow_ok (m := m) (va := va m) (U := V) (K := J) s.h.shape.n 0 (fun n _ hn => ha m hm n (by omega))
    fun n _ hn => hone n (by omega)
  refine ⟨w', ?_, hsame, (loadsFrom_frame hread).2.2⟩
  rw [hV0, Nat.zero_add, hVN, ← List.range_eq_range'] at hload
  rw [hload, List.map_congr_left fun n hn => by rw [hvalue n (List.mem_range.mp hn)]]

end Rows

/-! ### Rows that keep the statuses -/

section Steps

variable {s u u' v : State} {z : BitVec 2} {n : Nat} {g : Nat → Nat × Nat × Flags} {r : TileRun}

/-- A step that writes Acc of the elements of `is`, raising nothing, and the statuses of those of `js`. -/
theorem TileSoFar.writeApart (h : TileSoFar s u z n g r) (hz : s.holdsZ z = true) (hv : SameBut u' v z) (is js : List Nat)
    {f : Nat → Nat × Nat × Flags} {st : Nat → Nat} (hf : ∀ i ∈ is, (f i).1 < 2 ^ 256 ∧ (f i).2.2 = 0) (hst : ∀ i ∈ js, st i < 4) :
    TileSoFar s u' z (n + 1) (fun i => (if i ∈ is then (f i).1 else (g i).1, if i ∈ js then st i else (g i).2.1, (g i).2.2))
      ⟨v.setAccum z { ((r.s.accum z).putAll true f is).putStatuses st js with taken := true }, flagsOf f is ++ r.fl, none⟩ := by
  have hlike : (((r.s.accum z).putAll true f is).putStatuses st js).Like (r.s.accum z) := by
    obtain ⟨h1, h2⟩ := Accum.putStatuses_like st ((r.s.accum z).putAll true f is) js
    obtain ⟨h3, h4⟩ := Accum.putAll_like true f (r.s.accum z) is
    exact ⟨h1.trans h3, h2.trans h4⟩
  have hnone : flagsOf f is = [] := by
    refine List.eq_nil_iff_forall_not_mem.mpr fun y hy => ?_
    obtain ⟨hi, heq, hne⟩ := mem_flagsOf.mp hy
    exact hne (heq.trans (hf y.1 hi).2)
  refine h.step hz hv hlike (fun i hi => ?_) (by rw [hnone]; exact h.marks)
  obtain ⟨hval, hst'⟩ := Accum.putStatuses_elem st ((r.s.accum z).putAll true f is) js hi
  obtain ⟨hval', hst''⟩ := (r.s.accum z).putAll_elem true f is hi
  obtain ⟨gval, gst⟩ := h.elems i hi
  rw [hval, hst', hval', hst'', gval, gst]
  refine ⟨?_, ?_⟩
  · split
    · next hin => exact Nat.mod_eq_of_lt (hf i hin).1
    · rfl
  · split
    · next hin => exact Nat.mod_eq_of_lt (hst i hin)
    · simp

end Steps

/-! ### The rows of TLDA -/

/-- Each row that TLDA reads gives its numbers `x`, and leaves the states `U` but for the accumulator. -/
def RowsRead (s : State) (z : BitVec 2) (t : TileMem) (U : Nat → State) (x : Nat → Nat) : Prop :=
  ∀ m < s.h.shape.m, ∀ w, SameBut (U m) w z → ∃ w', t.loadRow m 0 s.h.shape.n w =
    .ok ((List.range s.h.shape.n).map fun n => (n, x (64 * m + n)), w') ∧ SameBut (U (m + 1)) w' z ∧ ∀ y, w'.accum y = w.accum y

/-- The elements that the rows of TLDA write, a status map left out. -/
def ldaSeen (s : State) (z : BitVec 2) (t : TileMem) (x : Nat → Nat) (i : Nat) : Nat × Nat × Flags :=
  if t.map.isSome then (x i, zSt s z i, 0) else ldaElem t (s.accum z).e x i

section Run

variable {s : State} {z : BitVec 2} {t : TileMem} {U : Nat → State} {x : Nat → Nat} (hz : s.holdsZ z = true) (hread : RowsRead s z t U x)
  (hx : t.raw = true → ∀ i, x i < 2 ^ 256) (hmap : t.map.isSome = true → t.raw = true)

include hx in
theorem ldaElem_lt (e : Int) (i : Nat) : (ldaElem t e x i).1 < 2 ^ 256 ∧ (ldaElem t e x i).2.1 < 4 := by
  unfold ldaElem
  cases hraw : t.raw with
  | true => exact ⟨hx hraw i, Nat.succ_pos 3⟩
  | false => exact ⟨accAdd_lt e (Nat.two_pow_pos 256) 0 _ _, accAdd_status_lt e 0 (by decide) _ _⟩

include hmap in
/-- A raw element with a status map. -/
theorem ldaElem_mapped (h : t.map.isSome = true) (e : Int) (i : Nat) : ldaElem t e x i = (x i, 0, 0) := by
  rw [ldaElem, hmap h, if_pos rfl]

include hz hread hx hmap

/-- A row of TLDA before the status map. -/
theorem TileRun.lda_step {m : Nat} {r : TileRun} (hm : m < s.h.shape.m) (hno : (decide (m + 1 = s.h.shape.m) && t.map.isSome) = false)
    (h : TileSoFar s (U m) z m (rowsDone s z (ldaSeen s z t x) m) r) :
    TileSoFar s (U (m + 1)) z (m + 1) (rowsDone s z (ldaSeen s z t x) (m + 1)) (r.lda z t s.h.shape m) := by
  obtain ⟨w, hload, hsame, hacc⟩ := hread m hm r.s h.same
  have hE : (r.s.accum z).e = (s.accum z).e := congrArg BitVec.toInt h.like.1
  rw [TileRun.lda_row h.fault hload hno, hacc z, hE]
  cases hsome : t.map.isSome with
  | false =>
    have hseen : ∀ i ∈ rowElems s m, ldaElem t (s.accum z).e x i = ldaSeen s z t x i := fun i _ => by
      rw [ldaSeen, hsome]
      rfl
    rw [← rowsDone_succ hm hseen]
    exact h.write hz hsame _ fun i _ => ldaElem_lt hx _ i
  | true =>
    have helem := ldaElem_mapped (x := x) hmap hsome (s.accum z).e
    have hnext := h.writeApart hz hsame (rowElems s m) [] (f := ldaElem t (s.accum z).e x) (st := fun _ => 0)
      (fun i _ => ⟨(ldaElem_lt hx _ i).1, by rw [helem]⟩) (by simp)
    have hafter : (fun i => (if i ∈ rowElems s m then (ldaElem t (s.accum z).e x i).1 else (rowsDone s z (ldaSeen s z t x) m i).1,
        if i ∈ [] then 0 else (rowsDone s z (ldaSeen s z t x) m i).2.1, (rowsDone s z (ldaSeen s z t x) m i).2.2)) =
        rowsDone s z (ldaSeen s z t x) (m + 1) := by
      have hseen : ∀ i ∈ rowElems s m, ldaSeen s z t x i = ldaSeen s z t x i := fun _ _ => rfl
      rw [← rowsDone_succ hm hseen]
      funext i
      unfold stepElems
      by_cases hi : i ∈ rowElems s m
      · have hbefore : rowsDone s z (ldaSeen s z t x) m i = elemsOf s z i := if_neg (by have := (mem_rowElems.mp hi).1; omega)
        simp [hi, hbefore, helem, ldaSeen, hsome, elemsOf]
      · simp [hi]
    rw [hafter] at hnext
    exact hnext

/-- The rows of TLDA up to one with a status map. -/
theorem lda_rows (n : Nat) (hn : n ≤ s.h.shape.m) (hno : ∀ m < n, (decide (m + 1 = s.h.shape.m) && t.map.isSome) = false) (h0 : U 0 = s) :
    TileSoFar s (U n) z n (rowsDone s z (ldaSeen s z t x) n)
      ((List.range n).foldl (fun (r : TileRun) m => r.lda z t s.h.shape m) ⟨s, [], none⟩) := by
  induction n with
  | zero =>
    rw [rowsDone_zero, h0]
    exact tileSoFar_start s z
  | succ n ih =>
    rw [List.range_succ, List.foldl_append, List.foldl_cons, List.foldl_nil]
    exact TileRun.lda_step hz hread hx hmap hn (hno n (Nat.lt_succ_self n)) (ih (by omega) fun m hm => hno m (by omega))

/-- The last row of TLDA with a status map. -/
theorem TileRun.lda_step_map {m : Nat} {r : TileRun} (hm : m + 1 = s.h.shape.m) (hsome : t.map.isSome = true)
    (h : TileSoFar s (U m) z m (rowsDone s z (ldaSeen s z t x) m) r) {vas : List Word} {va : Nat → Word} {ls : List (Nat × Nat)} {v : State}
    (hvas : vas = (List.range ((s.h.shape.m * s.h.shape.n + 3) / 4)).map va)
    (ha : ∀ q < (s.h.shape.m * s.h.shape.n + 3) / 4, sumAddr (t.map.getD 0) (q : Nat) = .ok (va q)) (hl : LoadsFrom 1 vas (U s.h.shape.m) ls v) :
    TileSoFar s v z s.h.shape.m (rowsDone s z (fun i => (x i, mapStatus s.h.shape.n (ls.map (·.2)) i, 0)) s.h.shape.m)
      (r.lda z t s.h.shape m) := by
  obtain ⟨w, hload, hsame, hacc⟩ := hread m (by omega) r.s h.same
  rw [hm] at hsame
  obtain ⟨w', hl', hsame'⟩ := loadsFrom_same hl hsame
  obtain ⟨-, -, hacc'⟩ := loadsFrom_frame hl'
  have hE : (r.s.accum z).e = (s.accum z).e := congrArg BitVec.toInt h.like.1
  have helem := ldaElem_mapped (x := x) hmap hsome (s.accum z).e
  subst hvas
  have hbytes := loadsFrom_loadFields (addr := fun q => sumAddr (t.map.getD 0) (q : Nat)) (fun q hq => ha q (List.mem_range.mp hq)) hl'
  rw [TileRun.lda_last h.fault hload (by simp [hm, hsome]) hbytes, hacc' z, hacc z, hE, hsome]
  have hnext := h.writeApart hz hsame' (rowElems s m) (tileElems s) (f := ldaElem t (s.accum z).e x)
    (st := mapStatus s.h.shape.n (ls.map (·.2))) (fun i _ => ⟨(ldaElem_lt hx _ i).1, by rw [helem]⟩) fun i _ => Nat.mod_lt _ (by decide)
  rw [hm] at hnext
  convert hnext using 1
  funext i
  rw [rowsDone_all]
  by_cases hin : inTile s i = true
  · have hin' := inTile_iff.mp hin
    rw [if_pos hin, if_pos (mem_tileElems.mpr hin), helem]
    by_cases hlast : i / 64 = m
    · have hbefore : rowsDone s z (ldaSeen s z t x) m i = elemsOf s z i := if_neg (by omega)
      rw [if_pos (mem_rowElems.mpr ⟨hlast, hin'.2⟩), hbefore]
      rfl
    · have hbefore : rowsDone s z (ldaSeen s z t x) m i = (x i, zSt s z i, 0) := by
        rw [rowsDone, if_pos ⟨hin, by omega⟩, ldaSeen, hsome, if_pos rfl]
      rw [if_neg fun hi => hlast (mem_rowElems.mp hi).1, hbefore]
  · have hbefore : rowsDone s z (ldaSeen s z t x) m i = elemsOf s z i := if_neg fun hd => hin hd.1
    rw [if_neg hin, if_neg fun hi => hin (mem_tileElems.mp hi), if_neg, hbefore]
    rintro hi
    obtain ⟨h1, h2⟩ := mem_rowElems.mp hi
    exact hin (inTile_iff.mpr ⟨by omega, h2⟩)

end Run

end Sys2Proof.Machine
end

section
/-! PROOFS. The memory that TLDA and TSTA name, and their common course (10 R183, R186, R190). -/

namespace Sys2Proof.Machine

open Sys2Proof.Safety

/-! ### Sizes and places -/

/-- Bytes of an element that TLDA or TSTA moves (R190). -/
def moveSize (raw : BitVec 1) (ty : BitVec 4) : Nat := if raw = 1 then 32 else tileSize ty.toNat

/-- Bytes of a part of it. -/
def moveUnit (raw : BitVec 1) (ty : BitVec 4) : Nat := if raw = 1 then 8 else moveSize raw ty

/-- The exact address of byte c of row m. -/
def movePlace (s : State) (a : BitVec 5) (sa : BitVec 1) (b : BitVec 5) (ty : BitVec 4) (m c : Nat) : Int :=
  if sa = 1 then 0x000FFFFE00000000 + (s.tileOp true 1 a ty.toNat 0 0 0 0).off m c else (s.getG a).toNat + m * (s.getG b).toInt + c

/-- The addresses of the status map. -/
def mapVas (s : State) (gm : BitVec 5) : List Word :=
  (List.range ((s.h.shape.m * s.h.shape.n + 3) / 4)).map fun q => s.getG gm + BitVec.ofNat 64 q

theorem moveSize_pos (raw : BitVec 1) (ty : BitVec 4) : 0 < moveSize raw ty := by
  unfold moveSize
  split
  · decide
  · exact tileSize_pos _

/-- An element is a whole number of parts, and one part but for raw. -/
theorem moveUnit_parts (raw : BitVec 1) (ty : BitVec 4) :
    0 < moveUnit raw ty ∧ 0 < moveSize raw ty / moveUnit raw ty ∧ moveSize raw ty / moveUnit raw ty * moveUnit raw ty = moveSize raw ty := by
  have h := moveSize_pos raw ty
  unfold moveUnit
  by_cases hr : raw = 1
  · simp [moveSize, hr]
  · rw [if_neg hr, Nat.div_self h, Nat.one_mul]
    exact ⟨h, Nat.one_pos, rfl⟩

/-- What TLDA and TSTA take: the accumulator held, and memory aligned and inside its range (R183, R186, R190). -/
structure MoveOk (s : State) (z : BitVec 2) (a : BitVec 5) (sa : BitVec 1) (b : BitVec 5) (ty : BitVec 4) (raw sm : BitVec 1) (gm : BitVec 5) :
    Prop where
  fresh : Fresh s
  held : s.holdsZ z = true
  k_pos : s.h.shape.k ≠ 0
  raw_map : sm = 1 → raw = 1
  pair : sa = 1 → a.toNat % 2 = 0 ∧ 2 ≤ a.toNat
  pad : sa = 1 → let o := s.tileOp true 1 a ty.toNat 0 0 0 0
    o.base % moveUnit raw ty = 0 ∧ o.rp % moveUnit raw ty = 0 ∧ o.tp % moveUnit raw ty = 0 ∧
      (o.rho ≠ 0 → s.h.shape.n * moveSize raw ty ≤ o.rp) ∧
      ∀ p ∈ tileParts s (moveSize raw ty) (moveUnit raw ty), o.off p.1 p.2 + moveUnit raw ty ≤ 0x400000
  pitch : sa = 0 → (s.getG a).toNat % moveUnit raw ty = 0 ∧ (s.getG b).toNat % moveUnit raw ty = 0 ∧
    ∀ p ∈ tileParts s (moveSize raw ty) (moveUnit raw ty), Fits (movePlace s a sa b ty p.1 p.2)
  map : sm = 1 → (s.getG gm).toNat + (s.h.shape.m * s.h.shape.n + 3) / 4 ≤ 2 ^ 64

/-- The numbers of a part that is there. -/
theorem mem_tileParts {s : State} {size un m n q : Nat} (hm : m < s.h.shape.m) (hn : n < s.h.shape.n) (hq : q < size / un) :
    (m, n * size + q * un) ∈ tileParts s size un := by
  unfold tileParts
  refine List.mem_flatMap.mpr ⟨m, List.mem_range.mpr hm, List.mem_flatMap.mpr ⟨n, List.mem_range.mpr hn, ?_⟩⟩
  exact List.mem_map.mpr ⟨q, List.mem_range.mpr hq, rfl⟩

/-- The parts of a tile, by row and column. -/
theorem tileParts_map {α : Type} (s : State) (size un : Nat) (f : Nat × Nat → α) : (tileParts s size un).map f =
    (List.range s.h.shape.m).flatMap fun m => (List.range s.h.shape.n).flatMap fun n =>
      (List.range (size / un)).map fun q => f (m, n * size + q * un) := by
  unfold tileParts
  rw [List.map_flatMap]
  refine congrArg (List.range s.h.shape.m).flatMap (funext fun m => ?_)
  rw [List.map_flatMap]
  refine congrArg (List.range s.h.shape.n).flatMap (funext fun n => ?_)
  rw [List.map_map]
  rfl

section Move

variable {s : State} {z : BitVec 2} {a b gm : BitVec 5} {sa raw sm : BitVec 1} {ty : BitVec 4}

theorem tileMem_unit : (s.tileMem a sa b ty raw sm gm).unit = moveUnit raw ty := by
  unfold TileMem.unit moveUnit
  by_cases h : raw = 1
  · simp [State.tileMem, h]
  · have hf : (raw == 1) = false := by simpa using h
    simp only [State.tileMem, hf, if_neg h, Bool.false_eq_true, if_false]
    rw [moveSize, if_neg h]

theorem tileMem_size : (s.tileMem a sa b ty raw sm gm).size = moveSize raw ty := rfl

theorem tileMem_raw : (s.tileMem a sa b ty raw sm gm).raw = true ↔ raw = 1 := beq_iff_eq

theorem tileMem_map : (s.tileMem a sa b ty raw sm gm).map.isSome = true ↔ sm = 1 := by
  unfold State.tileMem
  by_cases h : sm = 1 <;> simp [h]

variable (h : MoveOk s z a sa b ty raw sm gm)
include h

/-- The address of a part (R186, R190). -/
theorem tileMem_addr : ∀ m < s.h.shape.m, ∀ n < s.h.shape.n, ∀ q < moveSize raw ty / moveUnit raw ty,
    (s.tileMem a sa b ty raw sm gm).addr m (n * moveSize raw ty + q * moveUnit raw ty) =
      .ok (BitVec.ofInt 64 (movePlace s a sa b ty m (n * moveSize raw ty + q * moveUnit raw ty))) := by
  intro m hm n hn q hq
  generalize hc : n * moveSize raw ty + q * moveUnit raw ty = c
  by_cases hsa : sa = 1
  · have hpad : (s.tileMem a sa b ty raw sm gm).pad = some { s.tileOp true 1 a ty.toNat 0 0 0 0 with ty := ty.toNat } := if_pos hsa
    unfold TileMem.addr movePlace
    rw [hpad, if_pos hsa]
    refine congrArg Except.ok ?_
    unfold scratchVa
    rw [← BitVec.ofInt_natCast, Nat.cast_add]
    rfl
  · have hpad : (s.tileMem a sa b ty raw sm gm).pad = none := if_neg hsa
    have hfits := (h.pitch (by bv_omega)).2.2 _ (mem_tileParts hm hn hq)
    rw [hc] at hfits
    unfold Fits movePlace at hfits
    unfold TileMem.addr movePlace
    rw [if_neg hsa, add_assoc] at hfits ⊢
    rw [hpad]
    exact if_neg (by push Not; exact hfits)

/-- The address of a byte of the status map. -/
theorem tileMem_mapAddr (hsm : sm = 1) : ∀ q < (s.h.shape.m * s.h.shape.n + 3) / 4,
    sumAddr ((s.tileMem a sa b ty raw sm gm).map.getD 0) (q : Nat) = .ok (s.getG gm + BitVec.ofNat 64 q) := by
  intro q hq
  have hmap : (s.tileMem a sa b ty raw sm gm).map.getD 0 = s.getG gm := by
    have : (s.tileMem a sa b ty raw sm gm).map = some (s.getG gm) := if_pos hsm
    rw [this]
    rfl
  have hlt := h.map hsm
  rw [hmap]
  unfold sumAddr
  dsimp only
  rw [if_neg (by omega), ← Nat.cast_add, BitVec.ofInt_natCast, BitVec.ofNat_add, BitVec.ofNat_toNat, BitVec.setWidth_eq]

/-- The layout in memory passes its checks (R183, R186, R190). -/
theorem tileMem_checks_pass : ∀ c ∈ (match (s.tileMem a sa b ty raw sm gm).pad with
    | some o =>
      let o := { o with regs := none }
      o.checks (s.tileMem a sa b ty raw sm gm).unit (s.h.shape.n * (s.tileMem a sa b ty raw sm gm).size) ++
        o.extent (s.tileMem a sa b ty raw sm gm).unit s.h.shape.m (s.h.shape.n * (s.tileMem a sa b ty raw sm gm).size)
    | none => [(decide ((s.tileMem a sa b ty raw sm gm).base.toNat % (s.tileMem a sa b ty raw sm gm).unit ≠ 0) ||
        decide ((s.tileMem a sa b ty raw sm gm).pitch.toNat % (s.tileMem a sa b ty raw sm gm).unit ≠ 0), 0x06,
        (s.tileMem a sa b ty raw sm gm).base)]), c.1 = false := by
  obtain ⟨hu, hP, hPu⟩ := moveUnit_parts raw ty
  rw [tileMem_unit, tileMem_size]
  by_cases hsa : sa = 1
  · have hpad : (s.tileMem a sa b ty raw sm gm).pad = some { s.tileOp true 1 a ty.toNat 0 0 0 0 with ty := ty.toNat } := if_pos hsa
    obtain ⟨hbase, hrp, htp, hrho, hall⟩ := h.pad hsa
    generalize hun : moveUnit raw ty = un at *
    generalize hsize : moveSize raw ty = size at *
    rw [hpad]
    dsimp only
    unfold TileOp.checks TileOp.extent
    simp only [List.forall_mem_append, List.mem_singleton, forall_eq]
    refine ⟨?_, ?_⟩
    · unfold TileOp.misaligned
      dsimp only
      rw [hbase, hrp, htp]
      simpa using hrho
    · rw [Option.isSome_eq_false_iff, Option.isNone_iff_eq_none]
      unfold TileOp.leaves
      rw [if_neg (by simp)]
      refine leastOf_none.mpr fun x hx => ?_
      obtain ⟨m, hm, rfl⟩ := List.mem_map.mp hx
      refine leastOf_none.mpr fun x hx => ?_
      obtain ⟨i, hi, rfl⟩ := List.mem_map.mp hx
      refine if_pos ?_
      have hcols : s.h.shape.n * size / un = s.h.shape.n * (size / un) := by
        rw [← hPu, ← Nat.mul_assoc, Nat.mul_div_cancel _ hu, Nat.mul_div_cancel _ hu]
      have hi : i < s.h.shape.n * (size / un) := hcols ▸ List.mem_range.mp hi
      have hpart := hall _ (mem_tileParts (List.mem_range.mp hm) ((Nat.div_lt_iff_lt_mul hP).mpr hi) (Nat.mod_lt i hP))
      have hplace : i / (size / un) * size + i % (size / un) * un = i * un := by
        have hdm := Nat.div_add_mod i (size / un)
        calc i / (size / un) * size + i % (size / un) * un = i / (size / un) * (size / un * un) + i % (size / un) * un := by rw [hPu]
          _ = (size / un * (i / (size / un)) + i % (size / un)) * un := by ring
          _ = i * un := by rw [hdm]
      rw [hplace] at hpart
      exact hpart
  · have hpad : (s.tileMem a sa b ty raw sm gm).pad = none := if_neg hsa
    obtain ⟨hbase, hpitch, -⟩ := h.pitch (by bv_omega)
    have hb : (s.tileMem a sa b ty raw sm gm).base = s.getG a := rfl
    have hp : (s.tileMem a sa b ty raw sm gm).pitch = s.getG b := rfl
    rw [hpad, hb, hp, hbase, hpitch]
    simp

/-- TLDA or TSTA does every row and completes, where none faults and TSTA leaves no status out (R190). -/
theorem tileMove_done (store : Bool)
    (hst : store = true → raw = 1 → sm ≠ 1 → ∀ i < 4096, inTile s i = true → zSt s z i = 0) {r : TileRun}
    (hr : (List.range s.h.shape.m).foldl (fun (r : TileRun) m => if store then r.sta z (s.tileMem a sa b ty raw sm gm) s.h.shape m
      else r.lda z (s.tileMem a sa b ty raw sm gm) s.h.shape m) ⟨s, [], none⟩ = r) (hf : r.fault = none) :
    s.tileMove z a sa b ty raw sm gm store = r.s.retire 8 r.fl := by
  obtain ⟨-, hres, hland, hquota, -, -⟩ := id h.fresh
  obtain ⟨hm64, hn64⟩ := shape_le s
  unfold State.tileMove
  refine (tileIssue_begins h.fresh ?_ (by simp) (by simpa using h.held) ?_).trans ?_
  · by_cases hsa : sa = 1
    · exact pair_good (h.pair hsa).1 (h.pair hsa).2
    · have hf : (sa == 1) = false := by simpa using hsa
      rw [pairBad, hf, Bool.false_and]
  · refine List.forall_mem_cons.mpr ⟨decide_eq_false h.k_pos, List.forall_mem_append.mpr ⟨tileMem_checks_pass h, ?_⟩⟩
    refine List.forall_mem_singleton.mpr (Bool.eq_false_iff.mpr fun hodd => ?_)
    simp only [Bool.and_eq_true] at hodd
    obtain ⟨⟨⟨⟨hstore, hraw⟩, hmap⟩, -⟩, hsome⟩ := hodd
    have hsm : sm ≠ 1 := fun hsm => by
      rw [Option.isNone_iff_eq_none] at hmap
      have := tileMem_map (s := s) (a := a) (b := b) (gm := gm) (sa := sa) (raw := raw) (ty := ty) |>.mpr hsm
      rw [hmap] at this
      exact absurd this (by decide)
    obtain ⟨i, hi⟩ := Option.isSome_iff_exists.mp hsome
    have hmem := List.mem_of_find?_eq_some hi
    have hbad := List.find?_some hi
    rw [List.mem_flatten] at hmem
    obtain ⟨row, hrow, hin⟩ := hmem
    obtain ⟨m, hm, rfl⟩ := List.mem_map.mp hrow
    obtain ⟨n, hn, rfl⟩ := List.mem_map.mp hin
    rw [List.mem_range] at hm hn
    have hzero : (s.accum z).status (64 * m + n) = 0 :=
      hst hstore (tileMem_raw.mp hraw) hsm (64 * m + n) (by omega) (inTile_iff.mpr ⟨by omega, by omega⟩)
    rw [hzero] at hbad
    exact absurd hbad (by decide)
  · dsimp only
    rw [start_fresh hres, stopAt_none hland hquota, Nat.sub_zero, ← List.range_eq_range', hr, tileEnd_done hf]

end Move

end Sys2Proof.Machine
end

section
/-! PROOFS. TLDA and TSTA (10 R190). -/

namespace Sys2Proof.Machine

open Sys2Proof.Safety

/-! ### TLDA -/

theorem partSum_lt {s : State} {w P : Nat} {xs : List Nat} (h : ∀ x ∈ xs, x < 2 ^ w) (i : Nat) : partSum s w P xs i < 2 ^ (w * P) := by
  set ys : List Nat := (List.range P).map fun q => xs.getD (tilePlace s.h.shape.n i * P + q) 0 with hys
  have hlen : ys.length = P := by simp [hys]
  have hlt : ∀ y ∈ ys, y < 2 ^ w := by
    intro y hy
    obtain ⟨q, -, rfl⟩ := List.mem_map.mp hy
    rw [List.getD_eq_getElem?_getD]
    cases hget : xs[tilePlace s.h.shape.n i * P + q]? with
    | none => exact Nat.two_pow_pos w
    | some x => exact h x (List.mem_of_getElem? hget)
  have hsum : packElems w ys = partSum s w P xs i := by
    rw [packElems_eq_sum hlt, hlen]
    refine congrArg List.sum (List.map_congr_left fun q hq => ?_)
    rw [hys, List.getD_eq_getElem?_getD, List.getElem?_map, List.getElem?_range (List.mem_range.mp hq)]
    rfl
  have := packElems_lt w ys
  rwa [hsum, hlen] at this

theorem mapStatus_eq (N : Nat) (bs : List Nat) (i : Nat) :
    mapStatus N bs i = bs.getD (tilePlace N i / 4) 0 / 4 ^ (tilePlace N i % 4) % 4 := by
  rw [mapStatus, elem, Nat.shiftRight_eq_div_pow, pow_mul]
  rfl

section Tlda

variable {s : State} {z : BitVec 2} {a b gm : BitVec 5} {sa raw sm : BitVec 1} {ty : BitVec 4}

/-- What TLDA gives element i (R190). -/
def ldaValue (s : State) (z : BitVec 2) (ty : BitVec 4) (raw sm : BitVec 1) (x : Nat → Nat) (bs : List Nat) (i : Nat) : Nat × Nat × Flags :=
  if raw = 1 then (x i, if sm = 1 then bs.getD (tilePlace s.h.shape.n i / 4) 0 / 4 ^ (tilePlace s.h.shape.n i % 4) % 4 else 0, 0)
  else accAdd (s.accum z).e 0 0 ((tileFmt ty.toNat).unpack (x i)) ((tileFmt ty.toNat).unpack (x i)).isS

/-- The addresses of the parts that TLDA and TSTA move. -/
def moveVas (s : State) (a : BitVec 5) (sa : BitVec 1) (b : BitVec 5) (ty : BitVec 4) (raw : BitVec 1) : List Word :=
  (tileParts s (moveSize raw ty) (moveUnit raw ty)).map fun p => BitVec.ofInt 64 (movePlace s a sa b ty p.1 p.2)

/-- The address of part q of element (m, n). -/
def moveVa (s : State) (a : BitVec 5) (sa : BitVec 1) (b : BitVec 5) (ty : BitVec 4) (raw : BitVec 1) (m n q : Nat) : Word :=
  BitVec.ofInt 64 (movePlace s a sa b ty m (n * moveSize raw ty + q * moveUnit raw ty))

theorem moveVas_eq : moveVas s a sa b ty raw = tileVas s (moveSize raw ty / moveUnit raw ty) (moveVa s a sa b ty raw) :=
  tileParts_map _ _ _ _

variable (h : MoveOk s z a sa b ty raw sm gm)
include h

/-- TLDA makes the elements of its tile those it reads. -/
theorem execTlda_gives {ks ls : List (Nat × Nat)} {u v : State} (hks : LoadsFrom (moveUnit raw ty) (moveVas s a sa b ty raw) s ks u)
    (hls : if sm = 1 then LoadsFrom 1 (mapVas s gm) u ls v else ls = [] ∧ v = u) :
    ∃ t, execTlda z a sa b ty raw sm gm s = .next t ∧ ReadsAre s t (moveUnit raw ty) ks ∧ ReadsAre s t 1 ls ∧
      Accumulates s v t z (ldaValue s z ty raw sm
        (partSum s (8 * moveUnit raw ty) (moveSize raw ty / moveUnit raw ty) (ks.map (·.2))) (ls.map (·.2))) := by
  set T := s.tileMem a sa b ty raw sm gm with hT
  set x := partSum s (8 * moveUnit raw ty) (moveSize raw ty / moveUnit raw ty) (ks.map (·.2)) with hxdef
  have hunit : T.unit = moveUnit raw ty := tileMem_unit
  have hsize : T.size = moveSize raw ty := rfl
  have hM : s.h.shape.m ≠ 0 := Nat.succ_ne_zero _
  obtain ⟨hres, -⟩ := h.fresh.2
  have hx : T.raw = true → ∀ i, x i < 2 ^ 256 := fun hraw i => by
    have hlt := partSum_lt (s := s) (P := moveSize raw ty / moveUnit raw ty) (loadsFrom_lt hks) i
    have hr := tileMem_raw.mp hraw
    have hbits : 8 * moveUnit raw ty * (moveSize raw ty / moveUnit raw ty) = 256 := by simp [moveUnit, moveSize, hr]
    rwa [hbits] at hlt
  have hmap : T.map.isSome = true → T.raw = true := fun hm => tileMem_raw.mpr (h.raw_map (tileMem_map.mp hm))
  obtain ⟨U, hU0, hUM, hread⟩ := tile_rows_read (z := z) (t := T) (va := moveVa s a sa b ty raw) (s := s) (u := u) (ks := ks)
    (by rw [hunit]; exact tileMem_addr h) (by rw [hunit, hsize, ← moveVas_eq]; exact hks)
  rw [hunit, hsize] at hread
  have hread : RowsRead s z T U x := hread
  have hdone : TileSoFar s v z s.h.shape.m (rowsDone s z (ldaValue s z ty raw sm x (ls.map (·.2))) s.h.shape.m)
      ((List.range s.h.shape.m).foldl (fun (r : TileRun) m => r.lda z T s.h.shape m) ⟨s, [], none⟩) := by
    by_cases hsm : sm = 1
    · have hraw := h.raw_map hsm
      obtain ⟨m, hm⟩ := Nat.exists_eq_succ_of_ne_zero hM
      have hrows := lda_rows h.held hread hx hmap m (by omega) (fun k hk => by simp [show k + 1 ≠ s.h.shape.m by omega]) hU0
      rw [if_pos hsm] at hls
      have hlast := TileRun.lda_step_map h.held hread hx hmap hm.symm (tileMem_map.mpr hsm) hrows rfl (tileMem_mapAddr h hsm)
        (hUM ▸ hls)
      have hvalue : ldaValue s z ty raw sm x (ls.map (·.2)) = fun i => (x i, mapStatus s.h.shape.n (ls.map (·.2)) i, 0) := by
        funext i
        rw [ldaValue, if_pos hraw, if_pos hsm, mapStatus_eq]
      rw [hvalue]
      have hrange : List.range s.h.shape.m = List.range m ++ [m] := by rw [hm]; exact List.range_succ
      rw [hrange, List.foldl_append, List.foldl_cons, List.foldl_nil]
      exact hlast
    · have hnone : T.map.isSome = false := Bool.eq_false_iff.mpr fun hs => hsm (tileMem_map.mp hs)
      have hrows := lda_rows h.held hread hx hmap s.h.shape.m le_rfl (fun k _ => by simp [hnone]) hU0
      rw [if_neg hsm] at hls
      obtain ⟨-, rfl⟩ := hls
      have hvalue : ldaValue s z ty raw sm x (ls.map (·.2)) = ldaSeen s z T x := by
        funext i
        unfold ldaValue ldaSeen ldaElem
        rw [hnone, if_neg hsm, if_neg Bool.false_ne_true]
        exact if_congr tileMem_raw.symm rfl rfl
      rw [hvalue, ← hUM]
      exact hrows
  obtain ⟨hhu, hmu, hau⟩ := loadsFrom_frame hks
  have hframe : v.h = { s.h with watch := v.h.watch } ∧ v.mem = s.mem ∧ (∀ y, v.accum y = s.accum y) ∧
      ∀ p ∈ ls, p.2 = leNat s p.1 1 := by
    by_cases hsm : sm = 1
    · rw [if_pos hsm] at hls
      obtain ⟨hh, hm, ha⟩ := loadsFrom_frame hls
      refine ⟨by rw [hh, hhu], hm.trans hmu, fun y => (ha y).trans (hau y), fun p hp => ?_⟩
      rw [loadsFrom_values hls p hp]
      unfold leNat
      rw [hmu]
    · rw [if_neg hsm] at hls
      obtain ⟨rfl, rfl⟩ := hls
      exact ⟨hhu, hmu, hau, by simp⟩
  obtain ⟨hh, hmem, hacc, hlsv⟩ := hframe
  obtain ⟨t, ht, hA⟩ := hdone.accumulates hM (by rw [hh]; exact hres) (by rw [hh]) (by rw [hh]) (by rw [hh]) (by rw [hh])
    (fun y _ => hacc y) (fun i _ => rowsDone_all i) fun i hi => rowsDone_past hi
  have hsame : SameMem s t := fun c => by
    have hframe := hA.2.2.2.2.2.2.1
    rw [hframe]
    exact congrArg (Memory.byte · c) hmem
  refine ⟨t, ?_, ⟨loadsFrom_values hks, hsame⟩, ⟨hlsv, hsame⟩, hA⟩
  exact (tileMove_done h false (fun hf => absurd hf (by decide)) rfl hdone.fault).trans ht

end Tlda

end Sys2Proof.Machine
end

section
/-! PROOFS. TSTA, and what TLDA and TSTA give (10 R125, R190). -/

namespace Sys2Proof.Machine

open Sys2Proof.Safety

/-! ### The rows of TSTA -/

/-- What TSTA writes of element i of accumulator z, with its flags (R125, R190). -/
def staElem (t : TileMem) (s : State) (z : BitVec 2) (i : Nat) : Nat × Flags := if t.raw then (zAcc s z i, 0) else zRounded s z t.ty i

/-- It depends on the accumulator and the rounding mode alone. -/
theorem staElem_congr {s u : State} {z : BitVec 2} (ha : u.accum z = s.accum z) (hr : u.h.rmode = s.h.rmode) (t : TileMem) (i : Nat) :
    staElem t u z i = staElem t s z i := by
  unfold staElem zAcc zRounded
  rw [ha, hr]

/-- Those flags as flags of elements. -/
def staFlags (t : TileMem) (s : State) (z : BitVec 2) (i : Nat) : Nat × Nat × Flags := (0, 0, (staElem t s z i).2)

section Row

variable {s : State} {z : BitVec 2} {t : TileMem} {m : Nat} {r : TileRun} {w : State} (hfault : r.fault = none)
  (hstore : t.storeRow m ((List.range s.h.shape.n).map fun n => (n, (staElem t r.s z (64 * m + n)).1)) r.s = .ok w)

include hstore in
/-- The elements of a row, with their flags set aside. -/
theorem sta_stored : t.storeRow m (((List.range s.h.shape.n).map fun n => (n, staElem t r.s z (64 * m + n))).map fun p => (p.1, p.2.1)) r.s =
    .ok w := by
  rw [List.map_map]
  exact hstore

include hfault hstore

/-- A row of TSTA without the status map in the form of the rules. -/
theorem TileRun.sta_row (hno : t.map.isSome = true → m + 1 ≠ s.h.shape.m) :
    r.sta z t s.h.shape m = ⟨w, flagsOf (staFlags t r.s z) (rowElems s m) ++ r.fl, none⟩ := by
  have hrow := sta_stored hstore
  unfold staElem zAcc zRounded at hrow
  unfold TileRun.sta
  rw [hfault]
  dsimp only
  rw [if_neg (by decide), hrow]
  unfold flagsOf rowElems
  rw [List.filterMap_map, List.filterMap_map]
  cases hmap : t.map with
  | none => rfl
  | some gm =>
    dsimp only
    rw [if_neg (hno (by rw [hmap]; rfl))]
    rfl

/-- The last row of TSTA with a status map. -/
theorem TileRun.sta_last (hm : m + 1 = s.h.shape.m) {gm : Word} (hmap : t.map = some gm) {w' : State}
    (hlast : w.storeFields 1 (fun q => sumAddr gm (q : Nat)) (((r.s.accum z).map s.h.shape).mapIdx fun q x => (q, x)) = .ok w') :
    r.sta z t s.h.shape m = ⟨w', flagsOf (staFlags t r.s z) (rowElems s m) ++ r.fl, none⟩ := by
  have hrow := sta_stored hstore
  unfold staElem zAcc zRounded at hrow
  unfold TileRun.sta
  rw [hfault]
  dsimp only
  rw [if_neg (by decide), hrow, hmap]
  dsimp only
  rw [if_pos hm, hlast]
  unfold flagsOf rowElems
  rw [List.filterMap_map, List.filterMap_map]
  rfl

end Row

/-! ### The status map -/

/-- A sum cut short. -/
theorem sum_range_cut (f : Nat → Nat) {L n : Nat} (h : L ≤ n) :
    ((List.range n).map fun q => if q < L then f q else 0).sum = ((List.range L).map f).sum := by
  obtain ⟨d, rfl⟩ := Nat.exists_eq_add_of_le h
  induction d with
  | zero => exact congrArg List.sum (List.map_congr_left fun q hq => if_pos (List.mem_range.mp hq))
  | succ d ih =>
    rw [← Nat.add_assoc, List.range_succ, List.map_append, List.sum_append, ih (Nat.le_add_right L d)]
    simp

/-- The bytes of the status map that TSTA writes (R190). -/
theorem accum_map_eq (s : State) (z : BitVec 2) :
    (s.accum z).map s.h.shape = (List.range ((s.h.shape.m * s.h.shape.n + 3) / 4)).map (statusMap s z) := by
  unfold Accum.map
  refine List.map_congr_left fun b _ => ?_
  set len := min 4 (s.h.shape.m * s.h.shape.n - 4 * b) with hlen
  have hlt : ∀ y ∈ (List.range' (4 * b) len).map fun t => (s.accum z).status (64 * (t / s.h.shape.n) + t % s.h.shape.n), y < 2 ^ 2 := by
    intro y hy
    obtain ⟨t, -, rfl⟩ := List.mem_map.mp hy
    exact Accum.status_lt _ _
  rw [packElems_eq_sum hlt, List.length_map, List.length_range']
  unfold statusMap
  dsimp only
  have hcut := sum_range_cut (fun q => zSt s z (64 * ((4 * b + q) / s.h.shape.n) + (4 * b + q) % s.h.shape.n) * 4 ^ q) (L := len) (n := 4)
    (Nat.min_le_left _ _)
  rw [List.map_congr_left fun q hq => if_congr (show q < len ↔ 4 * b + q < s.h.shape.m * s.h.shape.n by
    have := List.mem_range.mp hq
    omega) rfl rfl] at hcut
  rw [hcut]
  refine congrArg List.sum (List.map_congr_left fun q hq => ?_)
  have hq := List.mem_range.mp hq
  rw [List.getD_eq_getElem?_getD, List.getElem?_map, List.getElem?_range' hq, pow_mul, Nat.one_mul]
  rfl

/-- A list numbered from 0. -/
theorem mapIdx_map_range (f : Nat → Nat) (n : Nat) :
    ((List.range n).map f).mapIdx (fun q x => (q, x)) = (List.range n).map fun q => (q, f q) :=
  List.ext_getElem (by simp) (by simp)

/-! ### The course of TSTA -/

/-- After the rows below n of TSTA the state is that its writes leave, with their flags raised. -/
structure StaSoFar (s u : State) (z : BitVec 2) (t : TileMem) (n : Nat) (r : TileRun) : Prop where
  fault : r.fault = none
  state : r.s = u
  marks : Marks r.fl fun i => (rowsDone s z (staFlags t s z) n i).2.2

/-- The flags of one more row. -/
theorem StaSoFar.marks_succ {s u v : State} {z : BitVec 2} {t : TileMem} {m : Nat} {r : TileRun} (h : StaSoFar s u z t m r)
    (hm : m < s.h.shape.m) (hu : ∀ i, staElem t u z i = staElem t s z i) :
    StaSoFar s v z t (m + 1) ⟨v, flagsOf (staFlags t r.s z) (rowElems s m) ++ r.fl, none⟩ := by
  refine ⟨rfl, rfl, ?_⟩
  have hsame : staFlags t r.s z = staFlags t s z := by
    funext i
    unfold staFlags
    rw [h.state, hu i]
  have hseen : ∀ i ∈ rowElems s m, staFlags t s z i = staFlags t s z i := fun _ _ => rfl
  rw [hsame, ← rowsDone_succ hm hseen]
  have hG : (fun i => (stepElems (rowElems s m) (staFlags t s z) (rowsDone s z (staFlags t s z) m) i).2.2) = fun i =>
      if i ∈ rowElems s m then (staFlags t s z i).2.2 ||| (rowsDone s z (staFlags t s z) m i).2.2 else
        (rowsDone s z (staFlags t s z) m i).2.2 := by
    funext i
    unfold stepElems
    split <;> rfl
  rw [hG]
  exact h.marks.append _ _

section Tsta

variable {s : State} {z : BitVec 2} {a b gm : BitVec 5} {sa raw sm : BitVec 1} {ty : BitVec 4}

/-- What TSTA writes of element i (R125, R190). -/
def staValue (s : State) (z : BitVec 2) (ty : BitVec 4) (raw : BitVec 1) (i : Nat) : Nat × Flags :=
  if raw = 1 then (zAcc s z i, 0) else zRounded s z ty.toNat i

theorem staElem_tileMem (i : Nat) : staElem (s.tileMem a sa b ty raw sm gm) s z i = staValue s z ty raw i := by
  unfold staElem staValue
  exact if_congr tileMem_raw rfl rfl

/-- The numbers of the parts that TSTA writes. -/
def staParts (s : State) (z : BitVec 2) (ty : BitVec 4) (raw : BitVec 1) : List Nat :=
  (tileParts s (moveSize raw ty) (moveUnit raw ty)).map fun p =>
    (staValue s z ty raw (64 * p.1 + p.2 / moveSize raw ty)).1 / 2 ^ (8 * (p.2 % moveSize raw ty)) % 256 ^ moveUnit raw ty

/-- The writes of a row of TSTA. -/
def staRow (s : State) (z : BitVec 2) (a : BitVec 5) (sa : BitVec 1) (b : BitVec 5) (ty : BitVec 4) (raw : BitVec 1) (m : Nat) :
    List (Word × Nat) :=
  (List.range s.h.shape.n).flatMap fun n => (List.range (moveSize raw ty / moveUnit raw ty)).map fun q =>
    (moveVa s a sa b ty raw m n q, elem (8 * moveUnit raw ty) (staValue s z ty raw (64 * m + n)).1 q)

theorem sta_zip : (moveVas s a sa b ty raw).zip (staParts s z ty raw) = (List.range s.h.shape.m).flatMap (staRow s z a sa b ty raw) := by
  obtain ⟨hu, hP, hPu⟩ := moveUnit_parts raw ty
  unfold moveVas staParts
  rw [List.zip_map', tileParts_map]
  unfold staRow
  refine congrArg (List.range s.h.shape.m).flatMap (funext fun m => congrArg (List.range s.h.shape.n).flatMap (funext fun n => ?_))
  refine List.map_congr_left fun q hq => Prod.ext rfl ?_
  have hq := List.mem_range.mp hq
  have hlt : q * moveUnit raw ty < moveSize raw ty := by
    calc q * moveUnit raw ty < moveSize raw ty / moveUnit raw ty * moveUnit raw ty := Nat.mul_lt_mul_of_pos_right hq hu
      _ = moveSize raw ty := hPu
  have hdiv : (n * moveSize raw ty + q * moveUnit raw ty) / moveSize raw ty = n := by
    rw [Nat.mul_comm n, Nat.mul_add_div (by omega), Nat.div_eq_of_lt hlt, Nat.add_zero]
  have hmod : (n * moveSize raw ty + q * moveUnit raw ty) % moveSize raw ty = q * moveUnit raw ty := by
    rw [Nat.mul_comm n, Nat.mul_add_mod, Nat.mod_eq_of_lt hlt]
  dsimp only
  rw [hdiv, hmod, elem, Nat.shiftRight_eq_div_pow, pow_mul 2 8 (moveUnit raw ty), Nat.mul_comm q, Nat.mul_assoc]
  rfl

variable (h : MoveOk s z a sa b ty raw sm gm)
include h

/-- A row of TSTA is written. -/
theorem sta_storeRow {m : Nat} (hm : m < s.h.shape.m) {v w : State} {js : List Nat}
    (hj : StoresTo (moveUnit raw ty) (staRow s z a sa b ty raw m) v js w) :
    (s.tileMem a sa b ty raw sm gm).storeRow m ((List.range s.h.shape.n).map fun n =>
      (n, (staElem (s.tileMem a sa b ty raw sm gm) s z (64 * m + n)).1)) v = .ok w := by
  refine TileMem.storeRow_ok (va := moveVa s a sa b ty raw m) (ks := js) (fun e he => ?_) ?_
  · obtain ⟨n, hn, rfl⟩ := List.mem_map.mp he
    rw [tileMem_unit]
    exact tileMem_addr h m hm n (List.mem_range.mp hn)
  · unfold partsOf
    rw [tileMem_unit, List.flatMap_map]
    simp only [staElem_tileMem]
    exact hj

/-- The rows of TSTA that write no status map. -/
theorem sta_rows {U : Nat → State} (hU0 : U 0 = s)
    (hU : ∀ m < s.h.shape.m, ∃ js, StoresTo (moveUnit raw ty) (staRow s z a sa b ty raw m) (U m) js (U (m + 1)))
    (hsame : ∀ m ≤ s.h.shape.m, ∀ i, staElem (s.tileMem a sa b ty raw sm gm) (U m) z i = staElem (s.tileMem a sa b ty raw sm gm) s z i)
    (n : Nat) (hn : n ≤ s.h.shape.m) (hno : ∀ m < n, sm = 1 → m + 1 ≠ s.h.shape.m) :
    StaSoFar s (U n) z (s.tileMem a sa b ty raw sm gm) n ((List.range n).foldl
      (fun (r : TileRun) m => r.sta z (s.tileMem a sa b ty raw sm gm) s.h.shape m) ⟨s, [], none⟩) := by
  induction n with
  | zero =>
    refine ⟨rfl, hU0.symm, ?_⟩
    rw [rowsDone_zero]
    exact marks_nil
  | succ n ih =>
    have hrun := ih (by omega) fun m hm => hno m (by omega)
    rw [List.range_succ, List.foldl_append, List.foldl_cons, List.foldl_nil]
    generalize (List.range n).foldl (fun (r : TileRun) m => r.sta z (s.tileMem a sa b ty raw sm gm) s.h.shape m) ⟨s, [], none⟩ = r at hrun ⊢
    obtain ⟨js, hj⟩ := hU n hn
    have hstore := sta_storeRow h hn hj
    simp only [← hsame n (by omega)] at hstore
    rw [← hrun.state] at hstore
    rw [TileRun.sta_row hrun.fault hstore fun hsome => hno n (Nat.lt_succ_self n) (tileMem_map.mp hsome)]
    exact hrun.marks_succ hn (hsame n (by omega))

/-- TSTA writes the elements of its tile, and their status map. -/
theorem execTsta_gives (hwf : Memory.wf s.mem = true) (hzero : raw = 1 → sm = 0 → ∀ i < 4096, inTile s i = true → zSt s z i = 0)
    {ks ls : List Nat} {u v : State}
    (hks : StoresTo (moveUnit raw ty) ((moveVas s a sa b ty raw).zip (staParts s z ty raw)) s ks u)
    (hls : if sm = 1 then StoresTo 1 ((mapVas s gm).zip ((List.range ((s.h.shape.m * s.h.shape.n + 3) / 4)).map fun q => statusMap s z q)) u ls v
      else ls = [] ∧ v = u) :
    ∃ t, execTsta z a sa b ty raw sm gm s = .next t ∧
      FlagsAfter s t 4096 (fun i => if inTile s i then (staValue s z ty raw i).2 else 0) ∧
      t = { v with h := { v.h with fst := t.h.fst, evx := t.h.evx, pc := s.h.pc + 8 } } ∧
      WritesAre s u (moveUnit raw ty) ks (staParts s z ty raw) ∧
      (if sm = 1 then WritesAre u v 1 ls ((List.range ((s.h.shape.m * s.h.shape.n + 3) / 4)).map fun q => statusMap s z q) else True) := by
  set T := s.tileMem a sa b ty raw sm gm with hT
  have hM : s.h.shape.m ≠ 0 := Nat.succ_ne_zero _
  obtain ⟨hres, -⟩ := h.fresh.2
  obtain ⟨hwfu, hwrites⟩ := storesTo_writes hks hwf
  have hvals : ((moveVas s a sa b ty raw).zip (staParts s z ty raw)).map (·.2) = staParts s z ty raw := by
    unfold moveVas staParts
    rw [List.zip_map', List.map_map]
    rfl
  rw [hvals] at hwrites
  obtain ⟨hhu, hau⟩ := storesTo_frame hks
  rw [sta_zip] at hks
  obtain ⟨U, hU0, hUM, hrow⟩ := storesTo_rows hks
  have hkeep : ∀ m ≤ s.h.shape.m, (U m).h = { s.h with watch := (U m).h.watch } ∧ ∀ y, (U m).accum y = s.accum y := by
    intro m
    induction m with
    | zero => exact fun _ => hU0 ▸ ⟨rfl, fun _ => rfl⟩
    | succ m ih =>
      intro hm
      obtain ⟨hh, ha⟩ := ih (by omega)
      obtain ⟨js, hj⟩ := hrow m hm
      obtain ⟨hh', ha'⟩ := storesTo_frame hj
      exact ⟨by rw [hh', hh], fun y => (ha' y).trans (ha y)⟩
  have hsame : ∀ m ≤ s.h.shape.m, ∀ i, staElem T (U m) z i = staElem T s z i := fun m hm i =>
    staElem_congr ((hkeep m hm).2 z) (by rw [(hkeep m hm).1]) T i
  have hmapzip : (mapVas s gm).zip ((List.range ((s.h.shape.m * s.h.shape.n + 3) / 4)).map fun q => statusMap s z q) =
      (List.range ((s.h.shape.m * s.h.shape.n + 3) / 4)).map fun q => (s.getG gm + BitVec.ofNat 64 q, statusMap s z q) := List.zip_map'
  have hdone : StaSoFar s v z T s.h.shape.m
      ((List.range s.h.shape.m).foldl (fun (r : TileRun) m => r.sta z T s.h.shape m) ⟨s, [], none⟩) := by
    by_cases hsm : sm = 1
    · obtain ⟨m, hm⟩ := Nat.exists_eq_succ_of_ne_zero hM
      have hrun := sta_rows h hU0 hrow hsame m (by omega) fun k hk _ => by omega
      rw [if_pos hsm, hmapzip] at hls
      have hrange : List.range s.h.shape.m = List.range m ++ [m] := by rw [hm]; exact List.range_succ
      rw [hrange, List.foldl_append, List.foldl_cons, List.foldl_nil]
      generalize (List.range m).foldl (fun (r : TileRun) m => r.sta z T s.h.shape m) ⟨s, [], none⟩ = r at hrun ⊢
      obtain ⟨js, hj⟩ := hrow m (by omega)
      have hstore := sta_storeRow h (by omega) hj
      simp only [← hT, ← hsame m (by omega)] at hstore
      rw [← hrun.state] at hstore
      have hmap : T.map = some (s.getG gm) := if_pos hsm
      have haccum : r.s.accum z = s.accum z := by rw [hrun.state]; exact (hkeep m (by omega)).2 z
      have hbytes : (U (m + 1)).storeFields 1 (fun q => sumAddr (s.getG gm) (q : Nat))
          (((r.s.accum z).map s.h.shape).mapIdx fun q x => (q, x)) = .ok v := by
        rw [haccum, accum_map_eq, mapIdx_map_range]
        refine storesTo_storeFields (va := fun q => s.getG gm + BitVec.ofNat 64 q) (ks := ls) (fun f hf => ?_) ?_
        · obtain ⟨q, hq, rfl⟩ := List.mem_map.mp hf
          have := tileMem_mapAddr h hsm q (List.mem_range.mp hq)
          rw [← hT, hmap] at this
          exact this
        · rw [List.map_map, show U (m + 1) = u by rw [← hUM, hm]]
          exact hls
      rw [TileRun.sta_last hrun.fault hstore hm.symm hmap hbytes]
      have := hrun.marks_succ (v := v) (by omega) (hsame m (by omega))
      rw [← Nat.succ_eq_add_one, ← hm] at this
      exact this
    · have hrun := sta_rows h hU0 hrow hsame s.h.shape.m le_rfl fun k _ hs => absurd hs hsm
      rw [if_neg hsm] at hls
      obtain ⟨-, rfl⟩ := hls
      rw [← hUM]
      exact hrun
  have hvh : v.h = { s.h with watch := v.h.watch } ∧
      (if sm = 1 then WritesAre u v 1 ls ((List.range ((s.h.shape.m * s.h.shape.n + 3) / 4)).map fun q => statusMap s z q) else True) := by
    by_cases hsm : sm = 1
    · rw [if_pos hsm] at hls ⊢
      obtain ⟨hh, -⟩ := storesTo_frame hls
      refine ⟨by rw [hh, hhu], ?_⟩
      have := (storesTo_writes hls hwfu).2
      rw [hmapzip, List.map_map] at this
      exact this
    · rw [if_neg hsm] at hls ⊢
      obtain ⟨-, rfl⟩ := hls
      exact ⟨hhu, trivial⟩
  obtain ⟨hh, hmapw⟩ := hvh
  have hrun := tileMove_done h true (fun _ hraw hsm => hzero hraw (by bv_omega)) rfl hdone.fault
  set r := (List.range s.h.shape.m).foldl (fun (r : TileRun) m => r.sta z T s.h.shape m) ⟨s, [], none⟩ with hr
  have hrh : r.s.h = { s.h with watch := v.h.watch } := by rw [hdone.state]; exact hh
  have hraises := hdone.marks.raisesAs fun i hi => rowsDone_past hi
  have ht : execTsta z a sa b ty raw sm gm s = r.s.retire 8 r.fl := hrun
  unfold State.retire at ht
  rw [if_neg (by decide), prior_fresh (by rw [hrh]; exact hres)] at ht
  refine ⟨_, ht, ?_, ?_, hwrites, hmapw⟩
  · refine flagsAfter_congr (flagsAfter_of_raises (s := s) (h := r.s.h) hraises (by decide) (by rw [hrh]; exact hres) (by rw [hrh])
      (by rw [hrh]) rfl rfl) fun i _ => ?_
    rw [rowsDone_all]
    split
    · unfold staFlags
      rw [staElem_tileMem]
    · rfl
  · rw [hdone.state]
    dsimp only [State.adv, Hart.raise]
    rw [hh]
    rfl

end Tsta

/-- A status map goes with raw elements alone (R190). -/
theorem raw_of_map {z : BitVec 2} {a b gm : BitVec 5} {sa raw sm : BitVec 1} {ty : BitVec 4} (h : (Instr.tlda z a sa b ty raw sm gm).WellFormed)
    (hsm : sm = 1) : raw = 1 := by
  have hok : tileMemOk sa b ty raw sm gm = true := h
  unfold tileMemOk at hok
  simp only [Bool.and_eq_true, Bool.or_eq_true, beq_iff_eq] at hok
  obtain ⟨⟨⟨-, hmap⟩, -⟩, -⟩ := hok
  exact hmap.resolve_left (by rw [hsm]; decide)

/-- Settles O54: each row of TLDA and TSTA moves its parts in order, and reading does not depend on the accumulator that TLDA writes. -/
theorem tileMemoryResults : Obligations.TileMemoryResults := by
  unfold Obligations.TileMemoryResults
  intro s z a b gm sa raw sm ty hwf hF hz hk hpair o size un N MN parts place vas mapAt idx hpad hpitch hmap
  have h : MoveOk s z a sa b ty raw sm gm := ⟨hF, hz, hk, raw_of_map hwf, hpair, hpad, hpitch, hmap⟩
  refine ⟨fun ks u ls v hks hls => execTlda_gives h hks hls, ?_⟩
  intro hw hzero ks u ls v val xs bytes hks hls
  exact execTsta_gives h hw hzero hks hls

end Sys2Proof.Machine
end
